-- ==== Sys2Proof/Word.lean ====
section
/-! DEFINITION. The word types of the SVK-4A and the type of sparse tables the state is built from. -/

namespace Sys2Proof

/-- One byte of memory (R8). -/
abbrev Byte := BitVec 8

/-- A 32-bit register or location (R45, R48, R290). -/
abbrev Word := BitVec 32

/-- A 64-bit address, format word, mask or counter (R8, R22, R40, R203). -/
abbrev DWord := BitVec 64

/-- One instruction word: three little-endian parcels (R97). -/
abbrev IWord := BitVec 96

/-- A sparse table: key and value pairs with rising keys, none equal to the value an unlisted key
reads as. `Machine/Map.lean` holds its operations and `Laws/Map.lean` their laws. -/
abbrev Sparse (α : Type) := List (Nat × α)

end Sys2Proof
end

