-- ==== Sys2Proof/Config.lean ====
section
/-! DEFINITION. What the manual leaves to the implementation or to chance, as constants with no body:
nothing can evaluate them, so no claim can rest on a particular value. Each one is named in the
assumption log. -/

namespace Sys2Proof.Config

/-- Which of several agents that may move does so, at the n-th free choice (R64 fixes the order on one
lane only; R262, R289, R307 leave the rest open). -/
opaque choose : Nat → Nat

/-- How many further ac pass between two steps beyond the pass of the instruction run: latencies and
stalls of the n-th step (R328: timing is not promised). -/
opaque elapse : Nat → Nat

/-- How many frames the n-th refill places, beyond the first (R438: Charon's choice, 1 to 64). -/
opaque refillCount : Nat → Nat

/-- The ML-DSA-65 signature of the device identity key over a message (R427, R429, R432). -/
opaque sign : List Byte → List Byte

/-- Whether an ML-DSA-65 signature of a firmware image verifies under a fused key (R430). -/
opaque verifies : List Byte → Bool

/-- The identity public key of the module (R427, R432). -/
opaque identityKey : List Byte

/-- Whether a Closia handshake proves the credential it names (R416). -/
opaque handshakeOk : List Byte → Bool

/-- Whether it proves the operator credential enrolled at manufacture (R416). -/
opaque operatorOk : List Byte → Bool

/-- The engagement id Charon picks at the n-th creation (R424), taken modulo the free ids. -/
opaque pickEid : Nat → Nat

/-- The group id Halley picks for the n-th registration (R403), taken modulo the free ids. -/
opaque pickSibling : Nat → Nat

/-- From which row of its two banks on a way-group lays out its frames or lines (R341 gives sizes and no order of the
frames and lines within the rows). -/
opaque rowShift : Nat → Nat

/-- Whether the walkers of a base die still hold a non-leaf entry at the n-th walk, by its level (R216 gives their cache no
size). -/
opaque walkHolds : Nat → Nat → Bool

/-- What suffers the n-th soft error: its kind and three numbers that name the place (R222, R346: no rule says when errors
come about). -/
opaque upset : Nat → Nat
opaque upsetAt : Nat → Nat → Nat

/-- What the n-th patrol read of a block finds: 0 no error, 1 one that it corrects, 2 one that it cannot (R346, R355). -/
opaque patrolFinds : Nat → Nat

/-- The firmware image of manufacture, and the version and floor in the header of an image (R430, R431: the manual gives
the header no layout). -/
opaque firmware : List Byte
opaque imageVersion : List Byte → Nat
opaque imageFloor : List Byte → Nat

/-- What `CREAD` of a core on which the gang holds no counter range returns, at the n-th such read (R242, R316:
the manual names no value). -/
opaque absentCounter : Nat → BitVec 64

/-- The E8 code of a row scale of format code 11 (R23, R287: the manual gives no place from which a row's
scale is read or to which it is written), by the use of a tile that it belongs to, the span or K index, and the row. -/
opaque rowScale : Nat → Nat → Nat → Byte

/-- What `BSTAT` returns for the decision of a group that has none: selectors 1 and 2 before it, and the winning hash of
a group decided with no winner (R408), at the n-th such read. -/
opaque undecided : Nat → BitVec 64

/-- Entries that the log region holds beyond the 4,096 after which the log is sent (R429: the manual gives it no size). -/
opaque logRoom : Nat

/-- Temperature in °C that the n-th sample of a die finds (R354). -/
opaque celsius : Nat → Nat

/-- Power in W over the last 1 ms, as `Charon` measures it the n-th time (R435). -/
opaque watts : Nat → Nat

/-- Whether the n-th attempt to train a link or a bus succeeds (R360, R414). -/
opaque trains : Nat → Bool

/-- Bytes that the scrub of an engagement covers, by class, at the n-th exit (R427: what an implementation's structures
hold of an engagement). -/
opaque scrubbed : Nat → Nat → Nat

/-- Whether the read of an exact-sum cell by a strand lacks an add that is not ordered before it, at the n-th step (R302, R306, R366:
which value older in the coherence order a read returns is open). -/
opaque sumLacks : Nat → Nat → Nat → Bool

/-- The 64 KiB page from which `Charon` looks for a range for code (R372), at the n-th load. -/
opaque codePage : Nat → Nat

end Sys2Proof.Config
end

