-- ==== Sys2Proof/Syntax.lean ====
section
/-! DEFINITION. The syntax of the machine: every row of the opcode table is one constructor of `Instr`.
Rows 0 to 101 are the 96-bit instruction words (R97 to R112). The other rows are the whole, indivisible
steps of the device's engines and the requests of its host, with the operands that say which object they
concern. -/

namespace Sys2Proof

/-- Element types (R103). -/
inductive Ty where
  | f32 | f16 | bf16 | q8 | q4 | n8 | i32 | n32 | i64 | n64 | i16x2 | n16x2 | i8x4 | n8x4 | bf16x2 | f16x2
  deriving DecidableEq, Repr

/-- A 10-bit operand field: its class and its index (R104). -/
inductive Opnd where
  | v (n : BitVec 8)
  | s (n : BitVec 8)
  | sp (n : BitVec 8)
  | im (n : BitVec 8)
  deriving DecidableEq, Repr

/-- A guard: invert bit and predicate index (R100). -/
structure Guard where
  neg : Bool
  idx : BitVec 3
  deriving DecidableEq, Repr

/-- The fields of an instruction word other than `OPC`, `SUB` and `TY` (R99, R104). -/
structure Fields where
  g1 : Guard
  g2 : Guard
  u : Bool
  ru : Bool
  ch : BitVec 3
  md : BitVec 3
  d : Opnd
  a : Opnd
  b : Opnd
  c : Opnd
  e : BitVec 8
  imm : BitVec 16
  deriving DecidableEq, Repr

/-- `IADD`, `ISUB` forms (R132). -/
inductive AddForm where
  | wrap | sat
  deriving DecidableEq, Repr

/-- `IMUL`, `IMAD` forms (R133, R134). -/
inductive MulForm where
  | lo | hi | long
  deriving DecidableEq, Repr

/-- `SHR` forms (R137). -/
inductive ShrForm where
  | log | ari
  deriving DecidableEq, Repr

/-- `ROT` directions (R137). -/
inductive RotForm where
  | left | right
  deriving DecidableEq, Repr

/-- `LOP` functions (R138). -/
inductive LopForm where
  | and | or | xor | andn | orn | xnor | not | tri
  deriving DecidableEq, Repr

/-- `BFX` forms (R139). -/
inductive BfxForm where
  | zx | sx
  deriving DecidableEq, Repr

/-- Integer conditions (R143). -/
inductive Cond where
  | eq | ne | lt | le | gt | ge
  deriving DecidableEq, Repr

/-- Floating-point conditions (R165). -/
inductive FCond where
  | eq | ne | lt | le | gt | ge | ord | uno
  deriving DecidableEq, Repr

/-- `MOV` register counts (R147). -/
inductive MovCount where
  | one | two | four
  deriving DecidableEq, Repr

/-- `PLOP` functions (R145). -/
inductive PlopForm where
  | and | or | xor | not
  deriving DecidableEq, Repr

/-- `PMOV` forms (R146). -/
inductive PmovForm where
  | get | set
  deriving DecidableEq, Repr

/-- `FFMA` forms (R162). -/
inductive FmaForm where
  | plain | ms | nm | nms
  deriving DecidableEq, Repr

/-- `SHFL` modes (R188). -/
inductive ShflMode where
  | idx | up | down | xor
  deriving DecidableEq, Repr

/-- `VOTE` forms (R189). -/
inductive VoteForm where
  | all | any | ballot | same
  deriving DecidableEq, Repr

/-- `RFL` forms (R190). -/
inductive RflForm where
  | plain | chk
  deriving DecidableEq, Repr

/-- `ATOM` operations (R231). -/
inductive AtomOp where
  | add | min | max | and | or | xor | exch | cas
  deriving DecidableEq, Repr

/-- `RED` operations (R231). -/
inductive RedOp where
  | add | min | max
  deriving DecidableEq, Repr

/-- `XSUM` operations (R235). -/
inductive XsumOp where
  | add | read | clear
  deriving DecidableEq, Repr

/-- `COPY` directions (R112, R245). -/
inductive CopyDir where
  | g2l | g2h | h2l | l2g | h2g | l2h | g2g | l2l
  deriving DecidableEq, Repr

/-- The kind of an access that is translated (R219). -/
inductive Acc where
  | read | write | fetch
  deriving DecidableEq, Repr

/-- The line that a `PREF` asks for once its page has been walked: the hint, the predictor slot and the agent that asks (R209,
R228, R428). -/
structure Prefetch where
  hint : BitVec 3
  slot : Nat
  agent : Nat
  deriving DecidableEq, Repr

/-- A queued page-table walk: the core, the page of an engagement it resolves (R216), and the line to be prefetched behind it,
if a `PREF` has asked for it (R228). -/
structure WalkReq where
  core : Nat
  eid : Nat
  va : DWord
  acc : Acc
  pref : Option Prefetch
  deriving DecidableEq, Repr

/-- Names a command in a core's sequencer by its team context and id (R247). -/
structure CmdRef where
  core : Nat
  team : Nat
  id : Nat
  deriving DecidableEq, Repr

/-- Who made an add: the source kinds of `ADDERS` (R323) with die, core and `sr.group`. -/
structure Adder where
  kind : Nat
  core : Nat
  grp : Nat
  deriving DecidableEq, Repr

/-- A counter add on its way to a core counter of a team's range (R240, R383): the launch, gang and
team it is for, which core of the team, the counter's team-relative number, the amount and the
timestamp it carries. `owner` is the group that receives a saturation report, if a group issued it;
`dest` is the core it is sent to, where that is known; `signer` is the team context + 1 that makes it, 0 for
none (R306). -/
structure CtrAdd where
  launch : Nat
  gang : Nat
  team : Nat
  odd : Bool
  n : Nat
  amount : Nat
  stamp : Nat
  src : Adder
  owner : Option Nat
  pc : DWord
  dest : Option Nat
  signer : Nat
  deriving DecidableEq, Repr

/-- What a slice-resident unit is asked to do (R232, R236, R240, R400). -/
inductive SliceKind where
  | atom (op : AtomOp) (ty : Ty) (operand expected : DWord)
  | xadd (x : Word)
  | xclear
  | count (amount : Nat)
  | score (amount : Nat)
  deriving DecidableEq, Repr

/-- A slice operation in flight: the issuing group, the engagement and address, the timestamp it
carries and the operation (R356). `pa` is where the address translated to when it issued. -/
structure SliceReq where
  group : Nat
  team : Nat
  eid : Nat
  va : DWord
  pa : Nat
  stamp : Nat
  kind : SliceKind
  pc : DWord
  /-- the hint `.sevict` (R101, R341) -/
  last : Bool
  deriving DecidableEq, Repr

/-- A message to `Halley` (R403, R404, R408). -/
structure HalleyReq where
  group : Nat
  eid : Nat
  slot : Option Nat
  w0 : DWord
  w1 : DWord
  sel : Nat
  deriving DecidableEq, Repr

/-- A Closia message (R417): the connection it arrives on, its header fields and its payload. -/
structure Msg where
  conn : Nat
  op : Byte
  flg : Byte
  eng : Byte
  xsel : Byte
  tag : Word
  addr : DWord
  len : Word
  arg : Word
  arg2 : DWord
  payload : List Byte
  /-- its payload passes authentication (R416) -/
  auth : Bool
  deriving DecidableEq, Repr

/-- The opening of a connection (R415, R416): a number, whether it asks for the system binding, the
engagement it names, whether the other side is a peer device, whether its packets are delivered in order,
and the handshake's bytes. -/
structure ConnReq where
  conn : Nat
  system : Bool
  eid : Nat
  peer : Bool
  rod : Bool
  shake : List Byte
  deriving DecidableEq, Repr

/-- A peer's answer to an access sent through an imported window (R423). -/
inductive PeerResult where
  | data (bytes : List Byte)
  | refused
  | closed
  | poison
  | tag
  | saturated
  deriving DecidableEq, Repr

/-- A bank of a slice: way-group bank `b` of store die `die` (R341). -/
structure BankRef where
  slice : Nat
  wg : Nat
  storeDie : Nat
  deriving DecidableEq, Repr

/-- The instructions and steps: one constructor per row of the opcode table. -/
inductive Instr where
  -- control flow (R176 to R187) and NOP (R114)
  | bra (x : Fields)
  | brd (x : Fields)
  | join (x : Fields)
  | brx (x : Fields)
  | callDirect (x : Fields)
  | callIndirect (x : Fields)
  | ret (x : Fields)
  | exit (x : Fields)
  | yield (x : Fields)
  | trap (x : Fields)
  | tresume (x : Fields)
  | cancelchk (x : Fields)
  | launch (x : Fields)
  | nop (x : Fields)
  -- integer, bit, move, predicate and conversion (R127 to R152)
  | iadd (f : AddForm) (ty : Ty) (x : Fields)
  | isub (f : AddForm) (ty : Ty) (x : Fields)
  | imul (f : MulForm) (ty : Ty) (x : Fields)
  | imad (f : MulForm) (ty : Ty) (x : Fields)
  | imin (ty : Ty) (x : Fields)
  | imax (ty : Ty) (x : Fields)
  | ineg (ty : Ty) (x : Fields)
  | iabs (ty : Ty) (x : Fields)
  | shl (ty : Ty) (x : Fields)
  | shr (f : ShrForm) (ty : Ty) (x : Fields)
  | rot (f : RotForm) (ty : Ty) (x : Fields)
  | lop (f : LopForm) (ty : Ty) (x : Fields)
  | bfx (f : BfxForm) (ty : Ty) (x : Fields)
  | bfi (ty : Ty) (x : Fields)
  | icmp (f : Cond) (ty : Ty) (x : Fields)
  | sel (ty : Ty) (x : Fields)
  | clz (ty : Ty) (x : Fields)
  | ffs (ty : Ty) (x : Fields)
  | popc (ty : Ty) (x : Fields)
  | brev (ty : Ty) (x : Fields)
  | lea (ty : Ty) (x : Fields)
  | mov (f : MovCount) (x : Fields)
  | movSpecial (f : MovCount) (x : Fields)
  | cvt (ty : Ty) (src : Ty) (x : Fields)
  | plop (f : PlopForm) (x : Fields)
  | pmov (f : PmovForm) (x : Fields)
  -- floating point, special functions and jets (R153 to R175)
  | fadd (ty : Ty) (x : Fields)
  | fsub (ty : Ty) (x : Fields)
  | fmul (ty : Ty) (x : Fields)
  | ffma (f : FmaForm) (ty : Ty) (x : Fields)
  | fdiv (ty : Ty) (x : Fields)
  | fmin (ty : Ty) (x : Fields)
  | fmax (ty : Ty) (x : Fields)
  | fneg (ty : Ty) (x : Fields)
  | fabs (ty : Ty) (x : Fields)
  | fcmp (f : FCond) (ty : Ty) (x : Fields)
  | fclass (ty : Ty) (x : Fields)
  | frnd (ty : Ty) (x : Fields)
  | rcp (ty : Ty) (x : Fields)
  | sqrt (ty : Ty) (x : Fields)
  | rsqrt (ty : Ty) (x : Fields)
  | exp2 (ty : Ty) (x : Fields)
  | log2 (ty : Ty) (x : Fields)
  | sinpi (ty : Ty) (x : Fields)
  | cospi (ty : Ty) (x : Fields)
  | tanh (ty : Ty) (x : Fields)
  | sigm (ty : Ty) (x : Fields)
  | jord (x : Fields)
  | jseed (x : Fields)
  | jget (x : Fields)
  | jset (x : Fields)
  | jshift (x : Fields)
  | jtest (x : Fields)
  | jxr (x : Fields)
  | jxc (x : Fields)
  -- cross-strand and group state (R188 to R193)
  | shfl (f : ShflMode) (ty : Ty) (x : Fields)
  | vote (f : VoteForm) (x : Fields)
  | rfl (f : RflForm) (ty : Ty) (x : Fields)
  | fmt (x : Fields)
  | role (x : Fields)
  | xblkAcq (x : Fields)
  | xblkRel (x : Fields)
  -- memory, atomics, fences and counters (R223 to R244)
  | ld (ty : Ty) (x : Fields)
  | st (ty : Ty) (x : Fields)
  | pref (x : Fields)
  | atom (f : AtomOp) (ty : Ty) (x : Fields)
  | red (f : RedOp) (ty : Ty) (x : Fields)
  | xsum (f : XsumOp) (x : Fields)
  | fence (x : Fields)
  | cadd (x : Fields)
  | cwait (x : Fields)
  | cread (x : Fields)
  | bar (x : Fields)
  -- engine commands (R245 to R254, R273 to R288)
  | copy (f : CopyDir) (x : Fields)
  | xpose (x : Fields)
  | publish (x : Fields)
  | resv (x : Fields)
  | mma (x : Fields)
  | mmaz (x : Fields)
  | drain (x : Fields)
  | achk (x : Fields)
  | aload (x : Fields)
  -- serving (R399 to R408)
  | sacc (x : Fields)
  | topk (x : Fields)
  | kvpack (x : Fields)
  | breg (x : Fields)
  | bpost (x : Fields)
  | bstat (x : Fields)
  -- steps of the core, its engines and its walkers
  | memoryResponse (acc : Nat)
  | pageWalk (w : WalkReq)
  | growRefillDone (g : Nat)
  | emulationDone (g : Nat)
  | sliceOperation (r : SliceReq)
  | releasePerformed (g : Nat)
  | counterAddArrival (r : CtrAdd)
  | counterWaitWake (g : Nat)
  | xblkGrant (core : Nat) (lane : Nat)
  | commandAcceptance (g : Nat)
  | copyExecution (r : CmdRef)
  | copyCompletion (r : CmdRef)
  | mmaPerformance (r : CmdRef)
  | mmazPerformance (r : CmdRef)
  | drainPerformance (r : CmdRef)
  | achkPerformance (r : CmdRef)
  | aloadPerformance (r : CmdRef)
  | publishPerformance (r : CmdRef)
  | resvDecision (r : CmdRef)
  | handleMoveDone (eid : Nat) (h : Nat)
  | deferredReport (g : Nat)
  | translationInvalidateDone (eid : Nat) (va : DWord) (len : Nat)
  | coreClockTick (core : Nat)
  | dirtyWritebackBound (core : Nat)
  | waitWatchdogExpiry (g : Nat)
  | registerBlockWaitExpiry (g : Nat)
  | splitChange (core : Nat) (units : Nat)
  | splitChangeDone (core : Nat)
  -- steps of the launch engines and the dispatcher
  | gangPlacement (launch : Nat)
  | launchCompletion (launch : Nat)
  | drainReservationOpen (launch : Nat)
  | teamDeadline (launch : Nat) (gang : Nat)
  | priorityPreemption (launch : Nat)
  | contextSaveDone (launch : Nat) (gang : Nat)
  -- steps of serving
  | stepStart (launch : Nat)
  | stepCompletion (launch : Nat)
  | kvPromotionDone (eid : Nat) (slot : Nat) (page : Nat)
  | kvPromotionFailure (eid : Nat) (slot : Nat) (page : Nat)
  | topkCompletion (g : Nat)
  | kvpackCompletion (g : Nat)
  | halleyPost (r : HalleyReq)
  | halleyRegistration (r : HalleyReq)
  | halleyStatusRead (r : HalleyReq)
  | halleyAnswer (g : Nat) (value : DWord)
  | cancelBitDelivery (eid : Nat) (slot : Nat)
  -- steps of the store, the bus, power and the log
  | roleChangeDone (slice : Nat) (wg : Nat)
  | temperatureSample (die : Nat) (storeDie : Nat) (celsius : Nat)
  | refresh (bank : BankRef) (row : Nat)
  | patrolScrub (bank : BankRef) (row : Nat) (block : Nat)
  | refreshDeadlineMissed (bank : BankRef) (row : Nat)
  | retrainingDue (die : Nat)
  | retrainingForced (die : Nat)
  | retrainingDone (die : Nat) (ok : Bool)
  | powerStepDown
  | powerStepUp
  | thermalTrip (die : Nat)
  | logSeal
  | linkTrainingRetry (ok : Bool)
  -- the port
  | connectionOpen (r : ConnReq)
  | submit (m : Msg)
  | submitGraph (m : Msg)
  | memrd (m : Msg)
  | memwr (m : Msg)
  | slotwr (m : Msg)
  | closiaCadd (m : Msg)
  | peeracc (m : Msg)
  | peerAnswer (acc : Nat) (r : PeerResult)
  | createEngagement (m : Msg)
  | exitEngagement (m : Msg)
  | exitScrub (eid : Nat)
  | mapPages (m : Msg)
  | unmapPages (m : Msg)
  | reserveGrowFrames (m : Msg)
  | loadImage (m : Msg)
  | unloadImage (m : Msg)
  | registerStepProgram (m : Msg)
  | unregisterStepProgram (m : Msg)
  | writeHandleDescriptor (m : Msg)
  | freeHandle (m : Msg)
  | exportWindow (m : Msg)
  | importWindow (m : Msg)
  | revokeWindow (m : Msg)
  | programWatchUnit (m : Msg)
  | clearWatchUnit (m : Msg)
  | attest (m : Msg)
  | preemptGangs (m : Msg)
  | terminateLaunch (m : Msg)
  | readRegister (m : Msg)
  | writeRegister (m : Msg)
  | wgcfgRoleWrite (m : Msg)
  | deliverFirmware (m : Msg)
  | commitRollbackFloor (m : Msg)
  | warmReset (m : Msg)
  | coldReset (m : Msg)
  | startPhaseDone
  -- traps of the fetch and decode, and outside events
  | illegalInstruction
  | executeDataTrap
  | handleLeaseEnd (eid : Nat) (h : Nat)
  | linkDown
  | connectionClose (conn : Nat)
  | unsupportedPacketDrop (mode : Nat)
  deriving DecidableEq, Repr

end Sys2Proof
end

