-- ==== Sys2Proof/Machine/Legal.lean ====
section
/-! DEFINITION. Step 3 of R113: which `TY`, `U`, `RU`, `CH`, `MOD` and unused-field values each instruction
word may carry. A word that fails here is an illegal instruction (cause 0x01). -/

namespace Sys2Proof.Machine

/-- The `TY` codes (R103). -/
def tyCode : Ty → BitVec 4
  | .f32 => 0 | .f16 => 1 | .bf16 => 2 | .q8 => 3 | .q4 => 4 | .n8 => 5 | .i32 => 6 | .n32 => 7
  | .i64 => 8 | .n64 => 9 | .i16x2 => 10 | .n16x2 => 11 | .i8x4 => 12 | .n8x4 => 13 | .bf16x2 => 14 | .f16x2 => 15

/-- The type of a `TY` code (R103). -/
def tyOf (c : BitVec 4) : Ty :=
  match c.toNat with
  | 0 => .f32 | 1 => .f16 | 2 => .bf16 | 3 => .q8 | 4 => .q4 | 5 => .n8 | 6 => .i32 | 7 => .n32
  | 8 => .i64 | 9 => .n64 | 10 => .i16x2 | 11 => .n16x2 | 12 => .i8x4 | 13 => .n8x4 | 14 => .bf16x2 | _ => .f16x2

/-- A field of ten zero bits (it names `v0` where the field is an operand). -/
def opZero (o : Opnd) : Bool := o == .v 0

/-- An operand of class 0b11. -/
def opIm : Opnd → Bool
  | .im _ => true
  | _ => false

/-- An operand naming a special register (R105). -/
def opSpecialReg : Opnd → Bool
  | .sp n => decide (0x80 ≤ n.toNat)
  | _ => false

/-- A long immediate: B and C both of class 0b11 (R106). -/
def isLong (x : Fields) : Bool := opIm x.b && opIm x.c

/-- `RU` and `CH` zero. -/
def noHint (x : Fields) : Bool := !x.ru && x.ch == 0

/-- `RU`, `CH` and `MOD` zero (R101, R102). -/
def plainHdr (x : Fields) : Bool := noHint x && x.md == 0

/-- A hint of R101 and no `RU`. -/
def hintHdr (x : Fields) : Bool := !x.ru && decide (x.ch.toNat ≤ 5)

/-- A rounding mode of R26 in `MOD`. -/
def roundHdr (x : Fields) : Bool := noHint x && decide (x.md.toNat ≤ 4)

/-- A scope code of R109 in `MOD`. -/
def scopeOk (x : Fields) : Bool := decide (x.md.toNat ≤ 4)

/-- `IMM16` is zero unless D or one of the operands listed is an immediate (R107). -/
def immOk (ops : List Opnd) (x : Fields) : Bool := x.imm == 0 || opIm x.d || ops.any opIm

/-- No operand and no other use of bits 63:0. -/
def noOperand (x : Fields) : Bool :=
  opZero x.d && opZero x.a && opZero x.b && opZero x.c && x.e == 0 && x.imm == 0

/-- Only D and A are used. -/
def useDA (x : Fields) : Bool := opZero x.b && opZero x.c && x.e == 0 && immOk [x.a] x

/-- Only A is used. -/
def useA (x : Fields) : Bool := opZero x.d && useDA x

/-- D, A and B are used, with C and E unused unless the word is a long immediate. -/
def useDAB (x : Fields) : Bool := isLong x || (opZero x.c && x.e == 0 && immOk [x.a, x.b] x)

/-- D and B are used, as above. -/
def useDB (x : Fields) : Bool := opZero x.a && (isLong x || (opZero x.c && x.e == 0 && immOk [x.b] x))

/-- Only B is used, as above. -/
def useB (x : Fields) : Bool := opZero x.d && useDB x

/-- D, A, B and C are used, with E zero unless the word is a long immediate. -/
def useDABC (x : Fields) : Bool := isLong x || (x.e == 0 && immOk [x.a, x.b, x.c] x)

/-- The branch form without a join offset (R110). -/
def branchForm (x : Fields) : Bool :=
  plainHdr x && opZero x.d && opZero x.a && opZero x.b && opZero x.c

/-- Types of R131, first row. -/
def tyInt (t : Ty) : Bool := [Ty.i32, .n32, .i64, .n64, .i16x2, .n16x2, .i8x4, .n8x4].contains t

/-- 32- and 64-bit integer types. -/
def tyScalarInt (t : Ty) : Bool := [Ty.i32, .n32, .i64, .n64].contains t

/-- Types of `IMUL` by form (R131). -/
def tyMul : MulForm → Ty → Bool
  | .lo, t => [Ty.i32, .n32, .i64, .n64, .i16x2, .n16x2].contains t
  | .hi, t => tyScalarInt t
  | .long, t => [Ty.i32, .n32].contains t

/-- Types of `IMAD` by form (R131). -/
def tyMad : MulForm → Ty → Bool
  | .lo, t => tyScalarInt t
  | _, t => [Ty.i32, .n32].contains t

/-- Types of `INEG` and `IABS` (R131). -/
def tyNeg (t : Ty) : Bool := [Ty.i32, .i64, .i16x2, .i8x4].contains t

/-- Types of shifts and logic (R131). -/
def tyBits (t : Ty) : Bool := [Ty.n32, .n64].contains t

/-- Types of the bit counts (R131). -/
def tyCount (t : Ty) : Bool := [Ty.n32, .n16x2, .n8x4].contains t

/-- The five floating-point types (R160). -/
def tyFloat (t : Ty) : Bool := [Ty.f32, .f16, .bf16, .bf16x2, .f16x2].contains t

/-- The scalar floating-point types (R160). -/
def tyScalarFloat (t : Ty) : Bool := [Ty.f32, .f16, .bf16].contains t

/-- The ten scalar types of `CVT` (R150). -/
def tyCvt (t : Ty) : Bool := [Ty.f32, .f16, .bf16, .q8, .q4, .n8, .i32, .n32, .i64, .n64].contains t

/-- `CVT` packs two FP32 values (R150). -/
def cvtPacks (dst src : Ty) : Bool := src == .f32 && [Ty.bf16x2, .f16x2].contains dst

/-- `CVT` unpacks a pair (R150). -/
def cvtUnpacks (dst src : Ty) : Bool := dst == .f32 && [Ty.bf16x2, .f16x2].contains src

/-- The pairs of types of R150. -/
def cvtPair (dst src : Ty) : Bool :=
  (tyCvt dst && tyCvt src && (dst != src || tyScalarFloat dst)) || cvtPacks dst src || cvtUnpacks dst src

/-- Ordering code of E (R109): 0 relaxed, 1 acquire, 2 release, 3 both. -/
def ordOf (x : Fields) : Nat := (x.e.extractLsb' 6 2).toNat

/-- Register count code of E[1:0] (R108). -/
def countOf (x : Fields) : Nat := (x.e.extractLsb' 0 2).toNat

/-- The memory form (R108, R223): header, ordering and count among those listed, and `MOD` zero when
relaxed. `B` is all zero with the code-relative base. A long immediate is left to step 5. -/
def memForm (x : Fields) (ords counts : List Nat) (ops : List Opnd) : Bool :=
  hintHdr x && scopeOk x && (x.a != .im 3 || opZero x.b) &&
  (isLong x || (x.e.extractLsb' 2 4 == 0 && ords.contains (ordOf x) && counts.contains (countOf x) &&
    (ordOf x != 0 || x.md == 0) && immOk ops x))

/-- Register counts of `LD` and `ST` by type (R224); empty for a type they do not take. -/
def memCounts : Ty → List Nat
  | .n8 | .q8 | .f16 | .bf16 => [0]
  | .i64 | .n64 => [0, 1]
  | .q4 => []
  | _ => [0, 1, 2]

/-- Types of `ATOM` by operation (R231). -/
def tyAtom : AtomOp → Ty → Bool
  | .add, t => [Ty.i32, .n32, .i64, .n64, .f32].contains t
  | .min, t => tyScalarInt t
  | .max, t => [Ty.i32, .n32, .i64, .n64, .f32].contains t
  | _, t => tyBits t

/-- Types of `RED` by operation (R231). -/
def tyRed : RedOp → Ty → Bool
  | .min, t => tyScalarInt t
  | _, t => [Ty.i32, .n32, .i64, .n64, .f32].contains t

/-- Remote bit and selector of a core counter: a selector needs the remote bit (R238). -/
def selectorOk (x : Fields) : Bool := x.e.extractLsb' 0 6 == 0 || x.e.getLsbD 5

/-- The counter form (R239): `U` = 1, no hints, orderings listed, C unused unless the word is a long
immediate. -/
def ctrForm (x : Fields) (ords : List Nat) : Bool :=
  x.u && noHint x && scopeOk x && (isLong x || (opZero x.c && ords.contains (ordOf x) && immOk [x.a, x.b] x))

/-- The engine-command form (R111, R245, R273) with `U` as given: bits of E and `IMM16` hold ids. -/
def cmdForm (x : Fields) (u : Bool) : Bool := x.u == u

/-- Step 3 of R113 for the instruction words; the other rows carry no word. -/
def fieldsLegal : Instr → Bool
  | .bra x | .callDirect x | .cancelchk x => branchForm x
  | .brd x => plainHdr x && !x.u && opZero x.d && opZero x.a
  | .join x => plainHdr x && !x.u && noOperand x && x.g1 == ⟨false, 7⟩ && x.g2 == ⟨false, 7⟩
  | .brx x | .callIndirect x | .ret x => plainHdr x && useA x
  | .exit x | .yield x => plainHdr x && noOperand x
  | .trap x => plainHdr x && noOperand { x with imm := 0 }
  | .tresume x => plainHdr x && x.u && useA x
  | .launch x => plainHdr x && x.u && useDA x
  | .nop x => plainHdr x && !x.u && noOperand x && x.g1 == ⟨false, 7⟩ && x.g2 == ⟨false, 7⟩
  | .iadd _ ty x | .isub _ ty x => plainHdr x && tyInt ty && useDAB x
  | .imul f ty x => plainHdr x && tyMul f ty && useDAB x
  | .imad f ty x => plainHdr x && tyMad f ty && useDABC x
  | .imin ty x | .imax ty x => plainHdr x && tyInt ty && useDAB x
  | .ineg ty x | .iabs ty x => plainHdr x && tyNeg ty && useDA x
  | .shl ty x | .shr _ ty x | .rot _ ty x => plainHdr x && tyBits ty && useDAB x
  | .lop .not ty x => plainHdr x && tyBits ty && useDA x
  | .lop .tri ty x => plainHdr x && tyBits ty && (isLong x || immOk [x.a, x.b, x.c] x)
  | .lop _ ty x => plainHdr x && tyBits ty && useDAB x
  | .bfx _ ty x => plainHdr x && tyBits ty && useDAB x
  | .bfi ty x => plainHdr x && tyBits ty && useDABC x
  | .icmp _ ty x => plainHdr x && tyScalarInt ty && useDAB x
  | .sel ty x => plainHdr x && [Ty.i32, .i64].contains ty &&
      (isLong x || (x.e.extractLsb' 1 7 == 0 && immOk [x.a, x.b, x.c] x))
  | .clz ty x | .ffs ty x | .popc ty x | .brev ty x => plainHdr x && tyCount ty && useDA x
  | .lea ty x => plainHdr x && [Ty.i32, .n32].contains ty &&
      (isLong x || (opZero x.c && x.e.extractLsb' 3 5 == 0 && immOk [x.a, x.b] x))
  | .mov _ x => plainHdr x && useDB x && !(opSpecialReg x.b || opSpecialReg x.d)
  | .movSpecial _ x => plainHdr x && useDB x && (opSpecialReg x.b || opSpecialReg x.d)
  | .cvt ty src x => roundHdr x && cvtPair ty src && x.e.extractLsb' 0 4 == tyCode src &&
      (if cvtPacks ty src then
        isLong x || (opZero x.c && x.e.extractLsb' 4 4 == 0 && immOk [x.a, x.b] x)
      else opZero x.b && opZero x.c && x.e.extractLsb' 4 4 == 0 && immOk [x.a] x)
  | .plop .not x => plainHdr x && opZero x.b && opZero x.c && x.e.extractLsb' 1 7 == 0 && immOk [x.a] x
  | .plop _ x => plainHdr x &&
      (isLong x || (opZero x.c && x.e.extractLsb' 2 6 == 0 && immOk [x.a, x.b] x))
  | .pmov .get x => plainHdr x && noOperand { x with d := .v 0, imm := 0 } && immOk [] x
  | .pmov .set x => plainHdr x && opZero x.d && useDAB x
  | .fadd ty x | .fsub ty x | .fmul ty x => roundHdr x && tyFloat ty && useDAB x
  | .ffma _ ty x => roundHdr x && tyFloat ty && useDABC x
  | .fdiv ty x => roundHdr x && tyScalarFloat ty && useDAB x
  | .fmin ty x | .fmax ty x => plainHdr x && tyFloat ty && useDAB x
  | .fneg ty x | .fabs ty x => plainHdr x && tyFloat ty && useDA x
  | .fcmp _ ty x | .fclass ty x => plainHdr x && tyScalarFloat ty && useDAB x
  | .frnd ty x => roundHdr x && tyScalarFloat ty && useDA x
  | .rcp ty x | .sqrt ty x | .rsqrt ty x | .exp2 ty x | .log2 ty x | .sinpi ty x | .cospi ty x | .tanh ty x
  | .sigm ty x => plainHdr x && tyFloat ty && useDA x
  | .jord x => plainHdr x && x.u && useB x
  | .jseed x => plainHdr x && useDAB x
  | .jget x => plainHdr x && !x.u && opZero x.b && opZero x.c && x.e.extractLsb' 2 6 == 0 && immOk [x.a] x
  | .jset x => plainHdr x && opZero x.a &&
      (isLong x || (opZero x.c && x.e.extractLsb' 2 6 == 0 && immOk [x.b] x))
  | .jshift x | .jtest x => plainHdr x && !x.u && useDA x
  | .jxr x => plainHdr x && x.u && noOperand { x with d := .v 0, imm := 0 } && immOk [] x
  | .jxc x => plainHdr x && x.u && useB x
  | .shfl _ ty x => plainHdr x && !x.u && [Ty.n32, .n64].contains ty && useDAB x
  | .vote .same x => plainHdr x && !x.u && useDA x
  | .vote _ x => plainHdr x && !x.u && opZero x.b && opZero x.c && x.e.extractLsb' 1 7 == 0 && immOk [x.a] x
  | .rfl .plain ty x => plainHdr x && !x.u && [Ty.n32, .n64].contains ty && useDA x
  | .rfl .chk ty x => plainHdr x && !x.u && [Ty.n32, .n64].contains ty && opZero x.b && x.e == 0 && immOk [x.a, x.c] x
  | .fmt x | .role x | .xblkAcq x => plainHdr x && x.u && useB x
  | .xblkRel x => plainHdr x && x.u && noOperand x
  | .ld ty x => memForm x [0, 1] (memCounts ty) [x.a, x.b] && (isLong x || opZero x.c) && ty != .q4
  | .st ty x => memForm x [0, 2] (memCounts ty) [x.a, x.b, x.c] && opZero x.d && ty != .q4
  | .pref x => memForm x [0] [0] [x.a, x.b] && opZero x.d && (isLong x || opZero x.c)
  | .atom f ty x => memForm x [0, 1, 2, 3] [0] [x.a, x.b, x.c] && tyAtom f ty
  | .red f ty x => memForm x [0, 2] [0] [x.a, x.b, x.c] && tyRed f ty && opZero x.d
  | .xsum .add x => memForm x [0, 2] [0] [x.a, x.b, x.c] && opZero x.d
  | .xsum .read x => memForm x [0, 1] [0] [x.a, x.b] && (isLong x || opZero x.c)
  | .xsum .clear x => memForm x [0, 2] [0] [x.a, x.b] && opZero x.d && (isLong x || opZero x.c)
  | .fence x => noHint x && scopeOk x && noOperand { x with e := 0 } && x.e.extractLsb' 0 6 == 0 && ordOf x != 0
  | .cadd x => ctrForm x [0, 2] && (opZero x.a || opZero x.d) &&
      (isLong x || if opZero x.a then selectorOk x else x.e.extractLsb' 0 6 == 0)
  | .cwait x => ctrForm x [0, 1] && (isLong x || x.e.extractLsb' 0 5 == 0)
  | .cread x => x.u && noHint x && scopeOk x && opZero x.b && opZero x.c && [0, 1].contains (ordOf x) &&
      immOk [x.a] x && (match x.a with | .s _ => x.e.extractLsb' 0 6 == 0 | _ => selectorOk x)
  | .bar x => ctrForm x [3] && (isLong x || x.e.extractLsb' 0 5 == 0)
  | .copy _ x => cmdForm x true && decide (x.ch.toNat ≤ 5) && scopeOk x && (isLong x || opZero x.c)
  | .xpose x => cmdForm x true && hintHdr x && scopeOk x && (isLong x || opZero x.c)
  | .publish x | .resv x => cmdForm x true && noHint x && scopeOk x && opZero x.a && (isLong x || opZero x.c)
  | .mma x => cmdForm x false && x.ch == 0 && x.md == 0
  | .mmaz x => cmdForm x true && plainHdr x && opZero x.a && opZero x.b && opZero x.c
  | .drain x => cmdForm x true && hintHdr x && scopeOk x && (isLong x || opZero x.c)
  | .achk x => cmdForm x true && plainHdr x && opZero x.b && opZero x.c
  | .aload x => cmdForm x true && hintHdr x && x.md == 0 && (isLong x || opZero x.c)
  | .sacc x => plainHdr x && opZero x.d && (isLong x || (x.e.extractLsb' 6 2 == 0 && immOk [x.a, x.b, x.c] x))
  | .topk x | .kvpack x => plainHdr x && x.u && useDABC x
  | .breg x => plainHdr x && x.u && useDAB x
  | .bpost x => plainHdr x && x.u && useDA x
  | .bstat x => plainHdr x && x.u && opZero x.b && opZero x.c && x.e.extractLsb' 2 6 == 0 && immOk [x.a] x
  | _ => true

end Sys2Proof.Machine
end

