-- ==== Sys2Proof/Decode.lean ====
section
/-! DEFINITION. Decoding: from any bytes to an instruction, or to the reason there is none (steps 2 and 3 of
R113), and the encoder of the instruction words. -/

namespace Sys2Proof

open Sys2Proof.Machine

/-- Why a word is no instruction: fewer than twelve bytes, a pool header (cause 0x03), or an opcode or a
field value that is not listed (cause 0x01). -/
inductive Reject where
  | short | pool | opcode | field
  deriving DecidableEq, Repr

/-- What decoding answers. -/
inductive Decoded where
  | instr (i : Instr)
  | rejected (r : Reject)
  deriving DecidableEq, Repr

/-- The number a list of bytes stands for, lowest address first (R8, R97). -/
def leNat : List Byte → Nat
  | [] => 0
  | b :: t => b.toNat + 256 * leNat t

/-- The `n` low bytes of a number, lowest first. -/
def leBytes : Nat → Nat → List Byte
  | 0, _ => []
  | n + 1, x => BitVec.ofNat 8 x :: leBytes n (x / 256)

/-- An operand field (R104). -/
def opndOf (f : BitVec 10) : Opnd :=
  let n := f.extractLsb' 0 8
  match (f.extractLsb' 8 2).toNat with
  | 0 => .v n
  | 1 => .s n
  | 2 => .sp n
  | _ => .im n

/-- The bits of an operand field (R104). -/
def opndBits : Opnd → BitVec 10
  | .v n => (0 : BitVec 2) ++ n
  | .s n => (1 : BitVec 2) ++ n
  | .sp n => (2 : BitVec 2) ++ n
  | .im n => (3 : BitVec 2) ++ n

/-- A guard field (R100). -/
def guardOf (f : BitVec 4) : Guard := ⟨f.getLsbD 3, f.extractLsb' 0 3⟩

/-- The bits of a guard (R100). -/
def guardBits (g : Guard) : BitVec 4 := BitVec.ofBool g.neg ++ g.idx

/-- The fields of a word (R99, R104). -/
def fieldsOf (w : IWord) : Fields :=
  { g1 := guardOf (w.extractLsb' 76 4), g2 := guardOf (w.extractLsb' 72 4)
    u := w.getLsbD 71, ru := w.getLsbD 70, ch := w.extractLsb' 67 3, md := w.extractLsb' 64 3
    d := opndOf (w.extractLsb' 54 10), a := opndOf (w.extractLsb' 44 10)
    b := opndOf (w.extractLsb' 34 10), c := opndOf (w.extractLsb' 24 10)
    e := w.extractLsb' 16 8, imm := w.extractLsb' 0 16 }

/-- The 80 bits below `TY` (R99, R104). -/
def fieldsBits (x : Fields) : BitVec 80 :=
  guardBits x.g1 ++ guardBits x.g2 ++ BitVec.ofBool x.u ++ BitVec.ofBool x.ru ++ x.ch ++ x.md ++
    opndBits x.d ++ opndBits x.a ++ opndBits x.b ++ opndBits x.c ++ x.e ++ x.imm

/-- A word from its opcode, sub-operation, type code and fields (R99). -/
def wordBits (opc : BitVec 8) (sub ty : BitVec 4) (x : Fields) : IWord := opc ++ sub ++ ty ++ fieldsBits x

/-- The element of a list of `SUB` values, in order from 0 (R112). -/
def pickSub {α : Type} (l : List α) (sub : BitVec 4) : Option α := l[sub.toNat]?

/-- An instruction whose only `SUB` is 0 (R112). -/
def oneSub (sub : BitVec 4) (i : Instr) : Option Instr := if sub = 0 then some i else none

/-- An instruction without a type: `TY` is 0 (R103). -/
def untyped (ty : BitVec 4) (i : Option Instr) : Option Instr := if ty = 0 then i else none

/-- `MOV`, or the special-register form of it (R147, R148). -/
def movOf (f : MovCount) (x : Fields) : Instr :=
  if opSpecialReg x.b || opSpecialReg x.d then .movSpecial f x else .mov f x

/-- `SUB` lists of R112. -/
def addForms : List AddForm := [.wrap, .sat]
def mulForms : List MulForm := [.lo, .hi, .long]
def shrForms : List ShrForm := [.log, .ari]
def rotForms : List RotForm := [.left, .right]
def lopForms : List LopForm := [.and, .or, .xor, .andn, .orn, .xnor, .not, .tri]
def bfxForms : List BfxForm := [.zx, .sx]
def condForms : List Cond := [.eq, .ne, .lt, .le, .gt, .ge]
def fcondForms : List FCond := [.eq, .ne, .lt, .le, .gt, .ge, .ord, .uno]
def movForms : List MovCount := [.one, .two, .four]
def plopForms : List PlopForm := [.and, .or, .xor, .not]
def pmovForms : List PmovForm := [.get, .set]
def fmaForms : List FmaForm := [.plain, .ms, .nm, .nms]
def shflModes : List ShflMode := [.idx, .up, .down, .xor]
def voteForms : List VoteForm := [.all, .any, .ballot, .same]
def rflForms : List RflForm := [.plain, .chk]
def atomOps : List AtomOp := [.add, .min, .max, .and, .or, .xor, .exch, .cas]
def redOps : List RedOp := [.add, .min, .max]
def xsumOps : List XsumOp := [.add, .read, .clear]
def copyDirs : List CopyDir := [.g2l, .g2h, .h2l, .l2g, .h2g, .l2h, .g2g, .l2l]

/-- The position of a form in its list of R112, as `SUB` bits. -/
def subOf {α : Type} [BEq α] (l : List α) (f : α) : BitVec 4 := BitVec.ofNat 4 (l.idxOf f)

/-- Opcodes 0x01 to 0x0D (R112). -/
def mkControl (opc : Nat) (sub ty : BitVec 4) (x : Fields) : Option Instr :=
  untyped ty (match opc with
    | 0x01 => oneSub sub (.bra x)
    | 0x02 => oneSub sub (.brd x)
    | 0x03 => oneSub sub (.join x)
    | 0x04 => oneSub sub (.brx x)
    | 0x05 => pickSub [.callDirect x, .callIndirect x] sub
    | 0x06 => oneSub sub (.ret x)
    | 0x07 => oneSub sub (.exit x)
    | 0x08 => oneSub sub (.yield x)
    | 0x09 => oneSub sub (.trap x)
    | 0x0A => oneSub sub (.tresume x)
    | 0x0B => oneSub sub (.cancelchk x)
    | 0x0C => oneSub sub (.launch x)
    | 0x0D => oneSub sub (.nop x)
    | _ => none)

/-- Opcodes 0x10 to 0x33 (R112). -/
def mkInteger (opc : Nat) (sub ty : BitVec 4) (x : Fields) : Option Instr :=
  let t := tyOf ty
  match opc with
  | 0x10 => (pickSub addForms sub).map (Instr.iadd · t x)
  | 0x11 => (pickSub addForms sub).map (Instr.isub · t x)
  | 0x12 => (pickSub mulForms sub).map (Instr.imul · t x)
  | 0x13 => (pickSub mulForms sub).map (Instr.imad · t x)
  | 0x14 => oneSub sub (.imin t x)
  | 0x15 => oneSub sub (.imax t x)
  | 0x16 => pickSub [.ineg t x, .iabs t x] sub
  | 0x17 => oneSub sub (.shl t x)
  | 0x18 => (pickSub shrForms sub).map (Instr.shr · t x)
  | 0x19 => (pickSub rotForms sub).map (Instr.rot · t x)
  | 0x1A => (pickSub lopForms sub).map (Instr.lop · t x)
  | 0x1B => (pickSub bfxForms sub).map (Instr.bfx · t x)
  | 0x1C => oneSub sub (.bfi t x)
  | 0x1D => (pickSub condForms sub).map (Instr.icmp · t x)
  | 0x1E => oneSub sub (.sel t x)
  | 0x1F => oneSub sub (.clz t x)
  | 0x20 => oneSub sub (.ffs t x)
  | 0x21 => oneSub sub (.popc t x)
  | 0x22 => oneSub sub (.brev t x)
  | 0x23 => oneSub sub (.lea t x)
  | 0x30 => untyped ty ((pickSub movForms sub).map (movOf · x))
  | 0x31 => oneSub sub (.cvt t (tyOf (x.e.extractLsb' 0 4)) x)
  | 0x32 => untyped ty ((pickSub plopForms sub).map (Instr.plop · x))
  | 0x33 => untyped ty ((pickSub pmovForms sub).map (Instr.pmov · x))
  | _ => none

/-- Opcodes 0x40 to 0x67 (R112). -/
def mkFloat (opc : Nat) (sub ty : BitVec 4) (x : Fields) : Option Instr :=
  let t := tyOf ty
  match opc with
  | 0x40 => oneSub sub (.fadd t x)
  | 0x41 => oneSub sub (.fsub t x)
  | 0x42 => oneSub sub (.fmul t x)
  | 0x43 => (pickSub fmaForms sub).map (Instr.ffma · t x)
  | 0x44 => oneSub sub (.fdiv t x)
  | 0x45 => oneSub sub (.fmin t x)
  | 0x46 => oneSub sub (.fmax t x)
  | 0x47 => pickSub [.fneg t x, .fabs t x] sub
  | 0x48 => (pickSub fcondForms sub).map (Instr.fcmp · t x)
  | 0x49 => oneSub sub (.fclass t x)
  | 0x4A => oneSub sub (.frnd t x)
  | 0x4B => pickSub [.rcp t x, .sqrt t x, .rsqrt t x, .exp2 t x, .log2 t x, .sinpi t x, .cospi t x, .tanh t x, .sigm t x] sub
  | 0x60 => untyped ty (oneSub sub (.jord x))
  | 0x61 => untyped ty (oneSub sub (.jseed x))
  | 0x62 => untyped ty (oneSub sub (.jget x))
  | 0x63 => untyped ty (oneSub sub (.jset x))
  | 0x64 => untyped ty (oneSub sub (.jshift x))
  | 0x65 => untyped ty (oneSub sub (.jtest x))
  | 0x66 => untyped ty (oneSub sub (.jxr x))
  | 0x67 => untyped ty (oneSub sub (.jxc x))
  | _ => none

/-- Opcodes 0x68 to 0xA3 (R112). -/
def mkMemory (opc : Nat) (sub ty : BitVec 4) (x : Fields) : Option Instr :=
  let t := tyOf ty
  match opc with
  | 0x68 => (pickSub shflModes sub).map (Instr.shfl · t x)
  | 0x69 => untyped ty ((pickSub voteForms sub).map (Instr.vote · x))
  | 0x6A => (pickSub rflForms sub).map (Instr.rfl · t x)
  | 0x70 => untyped ty (oneSub sub (.fmt x))
  | 0x71 => untyped ty (oneSub sub (.role x))
  | 0x72 => untyped ty (pickSub [.xblkAcq x, .xblkRel x] sub)
  | 0x80 => oneSub sub (.ld t x)
  | 0x81 => oneSub sub (.st t x)
  | 0x82 => untyped ty (oneSub sub (.pref x))
  | 0x84 => (pickSub atomOps sub).map (Instr.atom · t x)
  | 0x85 => (pickSub redOps sub).map (Instr.red · t x)
  | 0x86 => untyped ty ((pickSub xsumOps sub).map (Instr.xsum · x))
  | 0x87 => untyped ty (oneSub sub (.fence x))
  | 0xA0 => untyped ty (oneSub sub (.cadd x))
  | 0xA1 => untyped ty (oneSub sub (.cwait x))
  | 0xA2 => untyped ty (oneSub sub (.cread x))
  | 0xA3 => untyped ty (oneSub sub (.bar x))
  | _ => none

/-- Opcodes 0xB0 to 0xD5 (R112). -/
def mkEngine (opc : Nat) (sub ty : BitVec 4) (x : Fields) : Option Instr :=
  untyped ty (match opc with
    | 0xB0 => (pickSub copyDirs sub).map (Instr.copy · x)
    | 0xB1 => oneSub sub (.xpose x)
    | 0xB2 => oneSub sub (.publish x)
    | 0xB3 => oneSub sub (.resv x)
    | 0xC0 => oneSub sub (.mma x)
    | 0xC1 => oneSub sub (.mmaz x)
    | 0xC2 => oneSub sub (.drain x)
    | 0xC3 => oneSub sub (.achk x)
    | 0xC4 => oneSub sub (.aload x)
    | 0xD0 => oneSub sub (.sacc x)
    | 0xD1 => oneSub sub (.topk x)
    | 0xD2 => oneSub sub (.kvpack x)
    | 0xD3 => oneSub sub (.breg x)
    | 0xD4 => oneSub sub (.bpost x)
    | 0xD5 => oneSub sub (.bstat x)
    | _ => none)

/-- The instruction of an opcode, sub-operation and type code (R112), before the checks of its fields. -/
def mkInstr (opc : Nat) (sub ty : BitVec 4) (x : Fields) : Option Instr :=
  if opc < 0x10 then mkControl opc sub ty x
  else if opc < 0x40 then mkInteger opc sub ty x
  else if opc < 0x68 then mkFloat opc sub ty x
  else if opc < 0xB0 then mkMemory opc sub ty x
  else mkEngine opc sub ty x

/-- Steps 2 and 3 of R113. -/
def decodeWord (w : IWord) : Decoded :=
  if w.extractLsb' 88 8 = 0xFF then .rejected .pool
  else match mkInstr (w.extractLsb' 88 8).toNat (w.extractLsb' 84 4) (w.extractLsb' 80 4) (fieldsOf w) with
    | none => .rejected .opcode
    | some i => if fieldsLegal i then .instr i else .rejected .field

/-- Decoding of the first twelve bytes (R97). -/
def decodeBytes (bs : List Byte) : Decoded :=
  if bs.length < 12 then .rejected .short else decodeWord (BitVec.ofNat 96 (leNat (bs.take 12)))

/-- The instruction decoding answers, if it answers one. -/
def decodedInstr : Decoded → Option Instr
  | .instr i => some i
  | .rejected _ => none

/-- The decoder on a word whose bits are numbered as the opcode table numbers them; bits above are 0. -/
def decodeTableWord (nbits w : Nat) : Option Instr :=
  decodedInstr (decodeBytes (leBytes 12 (w % 2 ^ nbits)))

/-- The word of an instruction (R97 to R112); the steps of engines and requests of the host have none. -/
def encode : Instr → Option IWord
  | .bra x => some (wordBits 0x01 0 0 x)
  | .brd x => some (wordBits 0x02 0 0 x)
  | .join x => some (wordBits 0x03 0 0 x)
  | .brx x => some (wordBits 0x04 0 0 x)
  | .callDirect x => some (wordBits 0x05 0 0 x)
  | .callIndirect x => some (wordBits 0x05 1 0 x)
  | .ret x => some (wordBits 0x06 0 0 x)
  | .exit x => some (wordBits 0x07 0 0 x)
  | .yield x => some (wordBits 0x08 0 0 x)
  | .trap x => some (wordBits 0x09 0 0 x)
  | .tresume x => some (wordBits 0x0A 0 0 x)
  | .cancelchk x => some (wordBits 0x0B 0 0 x)
  | .launch x => some (wordBits 0x0C 0 0 x)
  | .nop x => some (wordBits 0x0D 0 0 x)
  | .iadd f t x => some (wordBits 0x10 (subOf addForms f) (tyCode t) x)
  | .isub f t x => some (wordBits 0x11 (subOf addForms f) (tyCode t) x)
  | .imul f t x => some (wordBits 0x12 (subOf mulForms f) (tyCode t) x)
  | .imad f t x => some (wordBits 0x13 (subOf mulForms f) (tyCode t) x)
  | .imin t x => some (wordBits 0x14 0 (tyCode t) x)
  | .imax t x => some (wordBits 0x15 0 (tyCode t) x)
  | .ineg t x => some (wordBits 0x16 0 (tyCode t) x)
  | .iabs t x => some (wordBits 0x16 1 (tyCode t) x)
  | .shl t x => some (wordBits 0x17 0 (tyCode t) x)
  | .shr f t x => some (wordBits 0x18 (subOf shrForms f) (tyCode t) x)
  | .rot f t x => some (wordBits 0x19 (subOf rotForms f) (tyCode t) x)
  | .lop f t x => some (wordBits 0x1A (subOf lopForms f) (tyCode t) x)
  | .bfx f t x => some (wordBits 0x1B (subOf bfxForms f) (tyCode t) x)
  | .bfi t x => some (wordBits 0x1C 0 (tyCode t) x)
  | .icmp f t x => some (wordBits 0x1D (subOf condForms f) (tyCode t) x)
  | .sel t x => some (wordBits 0x1E 0 (tyCode t) x)
  | .clz t x => some (wordBits 0x1F 0 (tyCode t) x)
  | .ffs t x => some (wordBits 0x20 0 (tyCode t) x)
  | .popc t x => some (wordBits 0x21 0 (tyCode t) x)
  | .brev t x => some (wordBits 0x22 0 (tyCode t) x)
  | .lea t x => some (wordBits 0x23 0 (tyCode t) x)
  | .mov f x => some (wordBits 0x30 (subOf movForms f) 0 x)
  | .movSpecial f x => some (wordBits 0x30 (subOf movForms f) 0 x)
  | .cvt t _ x => some (wordBits 0x31 0 (tyCode t) x)
  | .plop f x => some (wordBits 0x32 (subOf plopForms f) 0 x)
  | .pmov f x => some (wordBits 0x33 (subOf pmovForms f) 0 x)
  | .fadd t x => some (wordBits 0x40 0 (tyCode t) x)
  | .fsub t x => some (wordBits 0x41 0 (tyCode t) x)
  | .fmul t x => some (wordBits 0x42 0 (tyCode t) x)
  | .ffma f t x => some (wordBits 0x43 (subOf fmaForms f) (tyCode t) x)
  | .fdiv t x => some (wordBits 0x44 0 (tyCode t) x)
  | .fmin t x => some (wordBits 0x45 0 (tyCode t) x)
  | .fmax t x => some (wordBits 0x46 0 (tyCode t) x)
  | .fneg t x => some (wordBits 0x47 0 (tyCode t) x)
  | .fabs t x => some (wordBits 0x47 1 (tyCode t) x)
  | .fcmp f t x => some (wordBits 0x48 (subOf fcondForms f) (tyCode t) x)
  | .fclass t x => some (wordBits 0x49 0 (tyCode t) x)
  | .frnd t x => some (wordBits 0x4A 0 (tyCode t) x)
  | .rcp t x => some (wordBits 0x4B 0 (tyCode t) x)
  | .sqrt t x => some (wordBits 0x4B 1 (tyCode t) x)
  | .rsqrt t x => some (wordBits 0x4B 2 (tyCode t) x)
  | .exp2 t x => some (wordBits 0x4B 3 (tyCode t) x)
  | .log2 t x => some (wordBits 0x4B 4 (tyCode t) x)
  | .sinpi t x => some (wordBits 0x4B 5 (tyCode t) x)
  | .cospi t x => some (wordBits 0x4B 6 (tyCode t) x)
  | .tanh t x => some (wordBits 0x4B 7 (tyCode t) x)
  | .sigm t x => some (wordBits 0x4B 8 (tyCode t) x)
  | .jord x => some (wordBits 0x60 0 0 x)
  | .jseed x => some (wordBits 0x61 0 0 x)
  | .jget x => some (wordBits 0x62 0 0 x)
  | .jset x => some (wordBits 0x63 0 0 x)
  | .jshift x => some (wordBits 0x64 0 0 x)
  | .jtest x => some (wordBits 0x65 0 0 x)
  | .jxr x => some (wordBits 0x66 0 0 x)
  | .jxc x => some (wordBits 0x67 0 0 x)
  | .shfl f t x => some (wordBits 0x68 (subOf shflModes f) (tyCode t) x)
  | .vote f x => some (wordBits 0x69 (subOf voteForms f) 0 x)
  | .rfl f t x => some (wordBits 0x6A (subOf rflForms f) (tyCode t) x)
  | .fmt x => some (wordBits 0x70 0 0 x)
  | .role x => some (wordBits 0x71 0 0 x)
  | .xblkAcq x => some (wordBits 0x72 0 0 x)
  | .xblkRel x => some (wordBits 0x72 1 0 x)
  | .ld t x => some (wordBits 0x80 0 (tyCode t) x)
  | .st t x => some (wordBits 0x81 0 (tyCode t) x)
  | .pref x => some (wordBits 0x82 0 0 x)
  | .atom f t x => some (wordBits 0x84 (subOf atomOps f) (tyCode t) x)
  | .red f t x => some (wordBits 0x85 (subOf redOps f) (tyCode t) x)
  | .xsum f x => some (wordBits 0x86 (subOf xsumOps f) 0 x)
  | .fence x => some (wordBits 0x87 0 0 x)
  | .cadd x => some (wordBits 0xA0 0 0 x)
  | .cwait x => some (wordBits 0xA1 0 0 x)
  | .cread x => some (wordBits 0xA2 0 0 x)
  | .bar x => some (wordBits 0xA3 0 0 x)
  | .copy f x => some (wordBits 0xB0 (subOf copyDirs f) 0 x)
  | .xpose x => some (wordBits 0xB1 0 0 x)
  | .publish x => some (wordBits 0xB2 0 0 x)
  | .resv x => some (wordBits 0xB3 0 0 x)
  | .mma x => some (wordBits 0xC0 0 0 x)
  | .mmaz x => some (wordBits 0xC1 0 0 x)
  | .drain x => some (wordBits 0xC2 0 0 x)
  | .achk x => some (wordBits 0xC3 0 0 x)
  | .aload x => some (wordBits 0xC4 0 0 x)
  | .sacc x => some (wordBits 0xD0 0 0 x)
  | .topk x => some (wordBits 0xD1 0 0 x)
  | .kvpack x => some (wordBits 0xD2 0 0 x)
  | .breg x => some (wordBits 0xD3 0 0 x)
  | .bpost x => some (wordBits 0xD4 0 0 x)
  | .bstat x => some (wordBits 0xD5 0 0 x)
  | _ => none

end Sys2Proof
end

