-- ==== Sys2Proof/Machine/Map.lean ====
section
/-! DEFINITION. Sparse tables: one value at each natural number, of which only those that differ from the
table's default are listed, by rising key. -/

namespace Sys2Proof.Machine

/-- The value at key `k` of a table whose unlisted keys read as `d`. -/
def Sparse.get {α : Type} (d : α) (k : Nat) : Sparse α → α
  | [] => d
  | (j, x) :: t => if j = k then x else Sparse.get d k t

/-- Puts `x` at key `k`, before the first greater key. -/
def Sparse.insert {α : Type} (k : Nat) (x : α) : Sparse α → Sparse α
  | [] => [(k, x)]
  | (j, y) :: t => if k < j then (k, x) :: (j, y) :: t else if k = j then (k, x) :: t else (j, y) :: Sparse.insert k x t

/-- Removes key `k`. -/
def Sparse.erase {α : Type} (k : Nat) (t : Sparse α) : Sparse α := t.filter (fun e => e.1 != k)

/-- Sets key `k` to `x`; setting the default removes the entry. -/
def Sparse.set {α : Type} [DecidableEq α] (d : α) (k : Nat) (x : α) (t : Sparse α) : Sparse α :=
  if x = d then Sparse.erase k t else Sparse.insert k x t

/-- Sets several keys, in the order given. -/
def Sparse.setAll {α : Type} [DecidableEq α] (d : α) (l : List (Nat × α)) (t : Sparse α) : Sparse α :=
  l.foldl (fun t e => Sparse.set d e.1 e.2 t) t

/-- The canonical form: keys strictly rising from `lo`, no value equal to the default. -/
def Sparse.wfFrom {α : Type} [DecidableEq α] (d : α) : Nat → Sparse α → Bool
  | _, [] => true
  | lo, (j, x) :: t => decide (lo ≤ j) && !decide (x = d) && Sparse.wfFrom d (j + 1) t

/-- The canonical form of a whole table. -/
def Sparse.wf {α : Type} [DecidableEq α] (d : α) (t : Sparse α) : Bool := Sparse.wfFrom d 0 t

/-- Removes every key that satisfies `f`. -/
def Sparse.drop {α : Type} (f : Nat → Bool) (t : Sparse α) : Sparse α := t.filter (fun e => !f e.1)

/-- The `n` values from key `lo`. -/
def Sparse.slice {α : Type} (d : α) (lo n : Nat) (t : Sparse α) : List α :=
  let u := t.filter (fun e => decide (lo ≤ e.1) && decide (e.1 < lo + n))
  (List.range n).map (fun k => Sparse.get d (lo + k) u)

/-- Sets the keys from `lo` to the values of a list. -/
def Sparse.splice {α : Type} [DecidableEq α] (d : α) (lo : Nat) (l : List α) (t : Sparse α) : Sparse α :=
  t.filter (fun e => decide (e.1 < lo)) ++
  ((List.range l.length).zip l).filterMap (fun e => if e.2 = d then none else some (lo + e.1, e.2)) ++
  t.filter (fun e => decide (lo + l.length ≤ e.1))

/-- Replaces each element of a list that satisfies `f` by its image. -/
def updateWhere {α : Type} (f : α → Bool) (h : α → α) (l : List α) : List α := l.map (fun a => if f a then h a else a)

/-- The entry of an association list at key `k`. -/
def assoc {α : Type} (k : Nat) (l : List (Nat × α)) : Option α := (l.find? (fun e => e.1 == k)).map (·.2)

/-- Replaces or adds the entry at key `k`. -/
def assocSet {α : Type} (k : Nat) (x : α) (l : List (Nat × α)) : List (Nat × α) :=
  if l.any (fun e => e.1 == k) then l.map (fun e => if e.1 == k then (k, x) else e) else l ++ [(k, x)]

/-- Removes the entry at key `k`. -/
def assocErase {α : Type} (k : Nat) (l : List (Nat × α)) : List (Nat × α) := l.filter (fun e => e.1 != k)

end Sys2Proof.Machine
end

