-- ==== Sys2Proof/Machine/Bits.lean ====
section
/-! DEFINITION. Small operations on words, masks and lists that the meanings share. -/

namespace Sys2Proof.Machine

/-- The value of a word read as signed. -/
def sval {w : Nat} (x : BitVec w) : Int := x.toInt

/-- Sign-extends a word to 64 bits. -/
def sx64 {w : Nat} (x : BitVec w) : DWord := x.signExtend 64

/-- Zero-extends a word to 64 bits. -/
def zx64 {w : Nat} (x : BitVec w) : DWord := x.zeroExtend 64

/-- Two registers as a 64-bit value, low half first (R8). -/
def pair64 (lo hi : Word) : DWord := hi ++ lo

/-- The low and high word of a 64-bit value (R8). -/
def lo32 (x : DWord) : Word := x.extractLsb' 0 32
def hi32 (x : DWord) : Word := x.extractLsb' 32 32

/-- A mask with the `n` low bits set. -/
def lowMask (n : Nat) : DWord := BitVec.ofNat 64 (2 ^ n - 1)

/-- The positions below `n` at which a mask is set, ascending. -/
def bitsOf (n : Nat) (m : DWord) : List Nat := (List.range n).filter (fun i => m.getLsbD i)

/-- The mask with the bits listed. -/
def maskOf (l : List Nat) : DWord := l.foldl (fun m i => m ||| BitVec.ofNat 64 (2 ^ i)) 0

/-- Sets or clears a bit of a mask. -/
def putBit {w : Nat} (m : BitVec w) (i : Nat) (b : Bool) : BitVec w :=
  if b then m ||| BitVec.ofNat w (2 ^ i) else m &&& ~~~ (BitVec.ofNat w (2 ^ i))

/-- ceil(a / b). -/
def ceilDiv (a b : Nat) : Nat := (a + b - 1) / b

/-- A value limited to an interval. -/
def clampInt (v lo hi : Int) : Int := if v < lo then lo else if hi < v then hi else v

/-- Bits `hi` down to `lo` of a number (R8). -/
def bitsAt (x hi lo : Nat) : Nat := x / 2 ^ lo % 2 ^ (hi + 1 - lo)

/-- The 32-bit words of a list of bytes, lowest address first. -/
def wordsOf : List Byte → List Word
  | a :: b :: c :: d :: t => (d ++ c ++ b ++ a) :: wordsOf t
  | _ => []

/-- The bytes of a word, lowest address first (R8). -/
def bytesOf (x : Word) : List Byte := leBytes 4 x.toNat

/-- The bytes of a list of words. -/
def bytesOfWords (l : List Word) : List Byte := l.flatMap bytesOf

/-- The element at a position of a list, or a default. -/
def nth {α : Type} (d : α) (l : List α) (k : Nat) : α := (l[k]?).getD d

/-- Pads a list with a value up to a length. -/
def padTo {α : Type} (n : Nat) (d : α) (l : List α) : List α := l ++ List.replicate (n - l.length) d

end Sys2Proof.Machine
end

