-- ==== Sys2Proof/Machine/State.lean ====
section
/-! DEFINITION. The state of the module as plain data: everything the manual gives the machine, and the
reasons a step can stop. Tables are sparse (`Sparse`): an unlisted key reads as the value its field's
docstring names. Times are counted in ac since reset, addresses of memory are physical. -/

namespace Sys2Proof.Machine

/-- Why the machine stops. -/
inductive Fault where
  /-- A translation named a physical address with PA[51:39] ≠ 0, where no HBM lies (R338). Raised by every
  access to global memory. Safe: the manual gives such an access no behaviour. -/
  | noSuchPhysicalAddress
  deriving DecidableEq, Repr

/-- Why an instruction has no meaning in a state. -/
inductive Refusal where
  /-- An arm of `exec` that has no meaning yet. Safe. -/
  | notModelled (mnemonic : String)
  /-- A step of an engine, a walker or the host whose condition does not hold in this state, so that it
  cannot occur there. Raised by the meanings of those steps only. Safe: no step takes place. -/
  | notEnabled
  deriving DecidableEq, Repr

/-- Group widths (R39). -/
inductive Width where
  | w16 | w32 | w64
  deriving DecidableEq, Repr

/-- Kinds of a reconvergence-stack entry (R61). -/
inductive EntryKind where
  | join | path
  deriving DecidableEq, Repr

/-- An entry of the reconvergence stack (R61). -/
structure StackEntry where
  kind : EntryKind
  pc : DWord
  mask : DWord
  fmt : DWord
  jord : BitVec 2
  deriving DecidableEq, Repr

/-- What a trap entry saves (R197). -/
structure Frame where
  mask : DWord
  fmt : DWord
  jord : BitVec 2
  stack : List StackEntry
  ridx : Nat
  /-- `readTime` of the instruction that trapped (R229) -/
  readTime : Nat
  deriving DecidableEq, Repr

/-- The A reuse latch (R263). `rows` holds register k of strand i at key 32 * i + k; unlisted: 0. -/
structure ALatch where
  reg : BitVec 8
  fa : BitVec 4
  jord : BitVec 2
  rows : Sparse Word
  deriving DecidableEq, Repr

/-- A trap: its cause and subcode (R196), what `sr.taddr` receives where the cause gives an address, and the
resume index it leaves (R67, R69). -/
structure Trap where
  cause : Nat
  sub : Nat
  addr : Option DWord
  strand : Nat
  deriving DecidableEq, Repr

/-- What a command does, with the operands its instruction captured (R245, R273, R274). -/
inductive CmdKind where
  | copy (dir : CopyDir) (dst src : DWord) (d0 d1 d2 d3 : Word)
  | xpose (dst src : DWord) (d0 d1 d2 d3 : Word)
  | publish (h note : Word)
  | resv (h r0 r1 : Word)
  | mma (tile : Nat) (rows : Sparse Word) (octets : List Nat) (exec : DWord) (b bt : List Word) (sc : Option (List Word))
      (latch : Option ALatch)
  | mmaz (tile : Nat)
  | drain (dst : DWord) (tile : Nat) (e0 e1 : Word)
  | achk (d : BitVec 8) (tile : Nat)
  | aload (tile : Nat) (src : DWord) (e0 e1 : Word)
  deriving DecidableEq, Repr

/-- How far a command has come (R247, R266): waiting in its entry, running (its data has moved), failed
and about to retire. -/
inductive CmdPhase where
  | waiting | running | failing
  deriving DecidableEq, Repr

/-- A command of the sequencer (R247, R266): what it does, the team context, group and id it belongs to,
its acceptance number, the acceptance numbers of the predecessors it still waits on, whether one of
them failed, and the address, scope, `FMT` and `JORD` sampled at issue. -/
structure Command where
  kind : CmdKind
  team : Nat
  group : Nat
  id : Nat
  p1 : Nat
  p2 : Nat
  serial : Nat
  preds : List Nat
  cancelled : Bool
  phase : CmdPhase
  pc : DWord
  scope : Nat
  fmt : DWord
  jord : BitVec 2
  yields : Bool
  shadow : Bool
  /-- engagement of the issuing group -/
  eid : Nat
  /-- rows or octets that have been moved or performed -/
  moved : Nat
  /-- bytes read and not yet delivered: rows of a checked tile, converted rows of a drain, slices of B -/
  data : List (List Byte)
  /-- largest write time of what the command has written (R211) -/
  stamp : Nat
  /-- bytes of the next row that have been read, while the rest is still to come from a peer (R423) -/
  part : List Byte
  /-- bytes of the next row that have been delivered -/
  sent : Nat
  /-- `Charon` performs it (R25, R287) -/
  emulated : Bool
  /-- the hint `.sevict` (R101, R341) -/
  last : Bool
  /-- the fields of its word, which a saved context keeps (R384) -/
  word : Fields
  /-- at acceptance, the allocations of its gang: core, first byte and bytes (R207, R319) -/
  onto : List (Nat × Nat × Nat)
  deriving DecidableEq, Repr

/-- A report that a group takes at its next instruction boundary (R250). -/
structure Report where
  cause : Nat
  subc : Nat
  pc : DWord
  addr : DWord
  deriving DecidableEq, Repr

/-- A serving operation that a group waits for (R399). -/
inductive ServingOp where
  | topk (d : BitVec 8) (value : Nat)
  | kvpack (d : BitVec 8) (value : Nat)
  | halley (d : BitVec 8) (pair : Bool)
  deriving DecidableEq, Repr

/-- Whether a group can run, and otherwise what it waits for. -/
inductive Status where
  /-- its next instruction may issue -/
  | ready
  /-- a command is offered to the sequencer and not yet accepted (R248) -/
  | accepting (c : Command)
  /-- a release wider than the core has been issued and not yet performed (R237, R309) -/
  | releasing (scope : Nat) (acquire : Bool)
  /-- `CWAIT` or the wait of `BAR` (R241): counter, target, status predicate, ordering, scope, and the
  time of the first failed check -/
  | waitCounter (n : Nat) (target : Nat) (d : BitVec 3) (acquire : Bool) (scope : Nat) (since : Nat)
  /-- a waiting register-block acquisition (R52): blocks, its place in the order, time of issue -/
  | waitBlocks (t : Nat) (ticket : Nat) (since : Nat)
  /-- suspended while `Charon` refills the free list of a die for a grow page that strand `i` writes (R201) -/
  | waitGrow (die : Nat) (va : DWord) (i : Nat)
  /-- suspended while `Charon` emulates a format (R25); an acceptance number tells a command that it performs -/
  | waitEmulation (c : Command)
  /-- a serving operation has not answered yet (R399) -/
  | waitServing (op : ServingOp)
  /-- an `ACHK` has not retired, so its destination is pending (R285) -/
  | waitAchk
  /-- yielded by `COPY ... .y` until that command retires (R122) -/
  | waitCopy (id : Nat)
  /-- waits for an answer of a peer device (R423) -/
  | waitPeer (acc : Nat)
  /-- held because a frame lies in an untrained stack (R434) -/
  | waitTraining
  /-- stopped by the termination of its team (R324) -/
  | stopped
  /-- every strand has exited (R40) -/
  | ended
  deriving DecidableEq, Repr

/-- A group: its identity, its strands' registers and its own state (R39 to R60). -/
structure Group where
  gid : Nat
  eid : Nat
  tid : Nat
  launch : Nat
  gang : Nat
  teamNo : Nat
  grp : Nat
  die : Nat
  core : Nat
  lane : Nat
  width : Width
  base : DWord
  status : Status
  pc : DWord
  live : DWord
  active : DWord
  /-- v register r of strand i at key 256 * i + r; unlisted: 0 (R45, R49) -/
  v : Sparse Word
  /-- v registers holding an uncorrectable error, by key (R222) -/
  vPoison : List Nat
  /-- predicate i of every strand as a mask, i from 0 to 6; unlisted: 0 (R47) -/
  p : Sparse DWord
  /-- uniform registers; unlisted: 0 (R48) -/
  s : Sparse Word
  /-- uniform predicates q0 to q6 in bits 6:0 (R47) -/
  q : BitVec 7
  fmt : DWord
  jord : BitVec 2
  /-- four rows of five flags (R56) -/
  jx : BitVec 20
  role : BitVec 2
  /-- the live resume index (R58) -/
  ridx : Nat
  xblk : Nat
  stack : List StackEntry
  frame : Option Frame
  tcause : Word
  tpc : DWord
  taddr : DWord
  /-- largest `WTS` returned for an access of the group (R237), and the largest of those that its own team's writes have given
  (R306) -/
  gwts : Nat
  gwtsTeam : Nat
  /-- newest write time of the device when a peer last answered a read of the group: what an acquire at `.sys` of that read takes
  (R297, R310) -/
  gwtsSys : Nat
  /-- timestamp that writes after a release fence carry (R237) -/
  carry : Nat
  latch : Option ALatch
  reports : List Report
  /-- largest write time that the strands of the instruction in progress which have committed read (R67, R229) -/
  readTime : Nat
  /-- the lane passes it over at its next issue decision (R185) -/
  yielded : Bool
  /-- its pass over an instruction has begun and goes on once what it waits for has come (R67, R423; the model's own field) -/
  midway : Bool
  /-- its team is stopped, and it stops too at its next instruction boundary (R324) -/
  stopping : Bool
  /-- since when it has been ready without issuing (R64) -/
  waitingSince : Nat
  deriving DecidableEq, Repr

/-- One add as a diagnostic record lists it (R323). -/
structure AddRec where
  src : Adder
  amount : Nat
  deriving DecidableEq, Repr

/-- A core counter (R203, R238): its value, `CT`, the part of it that the adds of each team have brought, by team context + 1
(R306), and its last adds, newest first. -/
structure Counter where
  val : DWord
  ct : Nat
  ctBy : Sparse Nat
  adders : List AddRec
  deriving DecidableEq, Repr

/-- A handle tile that the B buffer of an engine keeps: its key and its bytes (R265). -/
structure BufTile where
  handle : Nat
  ver : Nat
  tile : Nat
  bytes : List Byte
  deriving DecidableEq, Repr

/-- An accumulator tile (R256, R257, R267, R279). Element (i, j) is at key 128 * i + j. -/
structure Tile where
  resid : Sparse Word
  carry : Sparse Word
  col : Sparse Word
  row : Sparse Word
  kind : BitVec 2
  lfa : BitVec 4
  lfb : BitVec 4
  lfs : BitVec 2
  lspan : BitVec 3
  kpos : Sparse Nat
  sidx : Sparse Nat
  mstat : Word
  /-- latched A scale of row r at key r, B scale of column c of block b at key 128 * b + c -/
  sclA : Sparse Word
  sclB : Sparse Word
  /-- carry words with an uncorrectable error not yet found (R272, R437) -/
  badCarry : List Nat
  /-- span sums of emulated formats beyond what the residue word holds (R287) -/
  exact : Sparse Int
  /-- acceptance number of the command that found it empty, which tells one use of the tile from another (the model's own
  field) -/
  filled : Nat
  deriving DecidableEq, Repr

/-- A line of the L1 (R208, R209): the 64-byte line of physical memory it covers (PA / 64), the engagement and the
virtual address of the access that allocated it, valid, dirty and error bits of its sixteen words, the words that the core's stores
have given since its last trip to the home slice (R290), their values,
the groups whose stores made words dirty or that have read or acquired them within the core, and since when, the lease end and the `WTS` returned with its last
fill, the predictor entry that filled it and the eight-byte words touched, the timestamp its dirty words
carry (R237), and for each word the teams whose writes its value continues, each with its time, by team context + 1 (R296,
R306). -/
structure Line where
  line : Nat
  eid : Nat
  va : DWord
  valid : BitVec 16
  dirty : BitVec 16
  bad : BitVec 16
  /-- words whose dirty value was lost to an error when it was written back (R222) -/
  lost : BitVec 16
  own : BitVec 16
  data : Sparse Word
  writers : List Nat
  since : Nat
  lease : Nat
  wts : Nat
  slot : Option Nat
  touched : BitVec 8
  stamp : Nat
  /-- the hint `.sevict` of a store to it, which its write-back takes to the cache role (R101, R341) -/
  last : Bool
  signed : Sparse (Sparse Nat)
  deriving DecidableEq, Repr

/-- A TLB entry (R216): engagement, page number, size, and the leaf it was filled from. -/
structure TlbEntry where
  eid : Nat
  vpage : Nat
  shift : Nat
  leaf : DWord
  hasD : Bool
  deriving DecidableEq, Repr

/-- A line of an instruction cache: the engagement, the 64-byte line of physical memory and its bytes (R203, R213). -/
structure CodeLine where
  eid : Nat
  line : Nat
  bytes : List Byte
  deriving DecidableEq, Repr

/-- A non-leaf entry that a base die's walkers hold: engagement, level, index path (VA / 2^shift) and the entry (R216). -/
structure WalkEntry where
  eid : Nat
  lev : Nat
  path : Nat
  entry : DWord
  deriving DecidableEq, Repr

/-- A line of the cache role (R341): the 64-byte line of physical memory, the engagement that filled it, its class, the
way-group that holds it (16 * slice + way-group) and its place there, whether it is dirty, and whether it holds an
uncorrectable error (R346). -/
structure CacheLine where
  line : Nat
  eid : Nat
  cls : Nat
  wg : Nat
  place : Nat
  dirty : Bool
  bad : Bool
  deriving DecidableEq, Repr

/-- A soft error of a core's storage, of an accumulator tile, of HBM or of a cached line (R222, R272, R346, R425). -/
inductive Upset where
  /-- a single-bit error of a register, a local word, an L1 word or a carry word: corrected and counted -/
  | corrected (core : Nat)
  /-- an uncorrectable error of v register `key` of a group -/
  | register (gid key : Nat)
  /-- an uncorrectable error of a local word -/
  | local_ (core word : Nat)
  /-- an uncorrectable error of a word of the L1 line at a place -/
  | line (core k word : Nat)
  /-- a parity error of an instruction-cache line, of a TLB entry or of a predictor entry -/
  | code (core k : Nat)
  | tlb (core k : Nat)
  | foot (core k : Nat)
  /-- an uncorrectable error of a carry word of a tile -/
  | carry (core tile key : Nat)
  /-- bits of a residue word of a tile, or of a word of its checksum column or row, flip (R33, R267, R268) -/
  | residue (core tile key : Nat) (flip : Word)
  | checksum (core tile : Nat) (row : Bool) (key : Nat) (flip : Word)
  /-- the tag of a line of HBM disagrees -/
  | tag (line : Nat)
  /-- a byte of a version of a handle changes, under protection mode none (R346) -/
  | silent (key : Nat) (second : Bool) (off : Nat) (b : Byte)
  deriving DecidableEq, Repr

/-- A core (R203 to R214, R255, R266). -/
structure Core where
  localUnits : Nat
  lease : Nat
  age : Nat
  chg : Bool
  /-- the split a running change leads to (R207) -/
  splitTo : Option Nat
  /-- local store bytes, units 0 upward; unlisted: 0 (R206) -/
  store : Sparse Byte
  /-- by local word: the teams whose writes its value continues, each with the timestamp its last one carried, by team
  context + 1 (R211, R296, R306) -/
  storeTimes : Sparse (Sparse Nat)
  /-- local words with an uncorrectable error (R222) -/
  storePoison : List Nat
  lines : List Line
  /-- footprint predictor; unlisted: 0xFF (R209) -/
  foot : Sparse (BitVec 8)
  cc : Nat
  /-- time of the last automatic tick of `cc` (R211) -/
  tick : Nat
  /-- physical counters 0 to 63; unlisted: zero (R203) -/
  ctrs : Sparse Counter
  /-- holder of counter range j: team context + 1, unlisted: 0 = free (R316) -/
  ranges : Sparse Nat
  /-- physical tiles 0 to 11; unlisted: empty (R255) -/
  tiles : Sparse Tile
  /-- holder of physical tile k: team context + 1, unlisted: 0 = free -/
  tileOwner : Sparse Nat
  seq : List Command
  /-- the B buffer of its engine, last fetched first (R265) -/
  bbuf : List BufTile
  tlb : List TlbEntry
  /-- the instruction cache, last filled first, at most 1,024 lines (R203, R213) -/
  icache : List CodeLine
  corrected : Nat
  uncorrected : Nat
  /-- adds discarded because their team had ended (R383) -/
  discarded : Nat
  /-- stopped by a failed retraining or a thermal trip (R360, R436) -/
  unavailable : Bool
  /-- group that last issued on each lane; unlisted: 0 (R64) -/
  last : Sparse Nat
  deriving DecidableEq, Repr

/-- A team while it is on its cores (R315, R316, R318): the cores, and for each of them the counter range,
the physical tiles and the first local unit it holds. -/
structure Team where
  tid : Nat
  launch : Nat
  gang : Nat
  team : Nat
  eid : Nat
  cores : List Nat
  ranges : List Nat
  tiles : List (List Nat)
  locals : List Nat
  units : Nat
  ngroups : Nat
  start : Nat
  /-- outstanding count of R312 -/
  outstanding : Nat
  ended : Bool
  /-- cause and subcode with which its context was terminated (R199) -/
  terminated : Option (Nat × Nat)
  /-- the cancel bit its cores hold (R391) -/
  cancel : Bool
  /-- it took a cancellation point (R391) -/
  took : Bool
  freed : Bool
  /-- write time of the last command that has retired by id: at 256 * position + id (R299) -/
  retired : Sparse Nat
  deriving DecidableEq, Repr

/-- A kernel of a loaded image (R116, R125). `map` is its executable-slot map. -/
structure Kernel where
  base : DWord
  slots : Nat
  entry : Nat
  map : List Bool
  width : Width
  top : Nat
  tiles : Nat
  units : Nat
  ngroups : Nat
  pair : Bool
  nteams : Nat
  gpair : Bool
  classes : BitVec 3
  psize : Nat
  watchdog : Nat
  deriving DecidableEq, Repr

/-- A loaded image (R372). -/
structure Image where
  eid : Nat
  base : DWord
  size : Nat
  kernels : List Kernel
  graph : List (List Byte)
  edges : List (Nat × Nat)
  digest : List Byte
  /-- patch points: kernel index, byte offset in the parameter block, size (R126) -/
  patches : List (Nat × Nat × Nat) := []
  deriving DecidableEq, Repr

/-- The fields of a launch record (R375). -/
structure LaunchRec where
  img : Nat
  kidx : Nat
  param : DWord
  ngang : Nat
  tshp : Nat
  gshp : Nat
  cls : Nat
  prio : Nat
  lp : Bool
  failx : Bool
  eng : Nat
  lsplit : Nat
  ttime : Nat
  wdog : Nat
  hslot : Nat
  after : Nat
  done : DWord
  deriving DecidableEq, Repr

/-- How far a launch has come: `adding` while a peer's answer to its `DONE` add is outstanding (R381). -/
inductive LaunchPhase where
  | queued | adding | complete
  deriving DecidableEq, Repr

/-- A gang of a launch that is on the device (R318): the cluster of each half (6 * die + cluster), its
team contexts and its start. -/
structure Gang where
  gang : Nat
  half0 : Nat
  half1 : Option Nat
  teams : List Nat
  start : Nat
  deriving DecidableEq, Repr

/-- A launch (R377 to R381). -/
structure Launch where
  seq : Nat
  record : LaunchRec
  kernel : Kernel
  ngroups : Nat
  pair : Bool
  nteams : Nat
  gpair : Bool
  classes : BitVec 3
  wdog : Nat
  owner : Nat
  phase : LaunchPhase
  /-- launches that must complete first (R374, R375) -/
  deps : List Nat
  nextGang : Nat
  placed : List Gang
  /-- gangs that have ended, or that count as completed (R390) -/
  endedGangs : List Nat
  /-- cores on which each team that has ended stood, by 16 * gang + team (R383) -/
  stood : List (Nat × List Nat)
  /-- deficits of R379, one for each die -/
  deficits : List Int
  terminated : Nat
  status : Nat
  /-- cause and subcode of a faulting `DONE` add (R381) -/
  doneFault : Nat
  /-- the step number when the launch is a started step (R388) -/
  step : Option Nat
  /-- decided at its enqueue: a step of its engagement's step program (R388) -/
  isStep : Bool
  /-- since when its next new gang has waited (R325) -/
  waitingSince : Nat
  /-- clusters on which it takes the place of gangs of lower priority (R382) -/
  claim : Option (Nat × Option Nat)
  deriving DecidableEq, Repr

/-- What an answer that `Charon` still owes waits for (R420): a translation invalidation, or the saves of
gangs of a launch. -/
inductive OwedFor where
  | invalidate (eid : Nat) (va : DWord) (len : Nat)
  | saves (launch first count : Nat)
  deriving DecidableEq, Repr

/-- An answer still owed to a request: connection, tag and what it waits for. -/
structure Owed where
  conn : Nat
  tag : Word
  wait : OwedFor
  deriving DecidableEq, Repr

/-- A saved team (R271, R384) with its groups, counters, tiles, local store with the times and errors of its words, commands,
keys of B buffer and `CC`, by core; the largest `WTS` of the save's write-backs; and the areas of the context pool that hold it, by
core number: offset and length. -/
structure SavedTeam where
  team : Team
  groups : List Group
  ctrs : List (Sparse Counter)
  tiles : List (List Tile)
  stores : List (Sparse Byte)
  times : List (Sparse (Sparse Nat))
  bad : List (List Nat)
  seqs : List (List Command)
  keys : List (List (Nat × Nat × Nat))
  ccs : List Nat
  wts : Nat
  areas : List (Nat × (Nat × Nat))
  deriving DecidableEq, Repr

/-- A pre-empted gang (R383 to R386): whether its save has completed, the adds held for it, and since when it has waited for a
place (R326). -/
structure SavedGang where
  launch : Nat
  gang : Gang
  teams : List SavedTeam
  held : List CtrAdd
  saved : Bool
  since : Nat
  deriving DecidableEq, Repr

/-- An open drain reservation (R326): the gang that it serves, and its clusters. -/
structure Reservation where
  launch : Nat
  gang : Nat
  cluster : Nat
  cluster2 : Option Nat
  deriving DecidableEq, Repr

/-- Life of an engagement (R424). -/
inductive EngState where
  | free | live | exiting
  deriving DecidableEq, Repr

/-- An engagement record (R424), its accounting counters (R409) and the nonce of its exit (R427). -/
structure Engagement where
  st : EngState
  root : Nat
  htab : DWord
  cpool : DWord
  cpoolSize : DWord
  logp : Word
  kslot : Nat
  acct : List Nat
  nonce : List Byte
  deriving DecidableEq, Repr

/-- Owner and interleaving attribute of a 64 KiB frame (R339, R425); owner: engagement + 1, 0 = none. -/
structure FrameInfo where
  owner : Nat
  intlv : Bool
  deriving DecidableEq, Repr

/-- A register of a way-group (R342), with the role a running change leads to. -/
structure WgCfg where
  clsm : BitVec 16
  busy : Bool
  role : BitVec 2
  next : BitVec 2
  deriving DecidableEq, Repr

/-- What a handle's move is doing (R350, R351, R353). -/
inductive Move where
  | none | promote | demote
  deriving DecidableEq, Repr

/-- What the store keeps of a handle beside its descriptor (R347 to R353): the kept lease length, which
version is active, the resident bytes of both versions, the frames they occupy (48 * way-group of the
package + frame), the time of the last read, and a move in progress with the command that asked. -/
structure Handle where
  kept : Nat
  second : Bool
  ver0 : Sparse Byte
  ver1 : Sparse Byte
  frames : List Nat
  lastRead : Nat
  move : Move
  asker : Option CmdRef
  /-- poisoned 64-byte blocks of the resident versions: 2 * block + version (R346, R355) -/
  bad : List Nat
  /-- largest write time that a command which wrote a version carried when it retired (R211, R300) -/
  stamp : Nat
  /-- acceptance number of the first command into the shadow that has failed (R253) -/
  failed : Option Nat
  deriving DecidableEq, Repr

/-- A KV page in the reserve (R393): whose it is, the frame it copies, whether the copy is complete, its place (48 * way-group
of the package + frame), the byte of the residency bitmap that holds its bit, and its blocks with an uncorrectable error. -/
structure KvCopy where
  eid : Nat
  slot : Nat
  page : Nat
  frame : Nat
  complete : Bool
  place : Nat
  bitAt : DWord
  bad : List Nat
  deriving DecidableEq, Repr

/-- A registered step program (R388) and the state of its slots (R390, R391). `start` holds the start state of
each slot of the step in progress; `cancel`, `took`, `failed` list slots. -/
structure StepProgram where
  img : Nat
  kidx : Nat
  nslot : Nat
  nb : List Nat
  slotTab : DWord
  snapTab : DWord
  steps : Nat
  start : Sparse Nat
  /-- SSTAT end status of each slot of the last completed step -/
  ends : Sparse Nat
  cancel : List Nat
  /-- by when the cancel bit of a slot has reached its cores, in sc (R404); unlisted: 0 -/
  cancelDue : Sparse Nat
  took : List Nat
  failed : List Nat
  /-- slot entries as the step in progress read them -/
  snap : Sparse (List Byte)
  deriving DecidableEq, Repr

/-- A post in `Halley`'s table (R404). -/
structure Post where
  slot : Nat
  hash : DWord
  order : Nat
  deriving DecidableEq, Repr

/-- A sibling group (R403 to R409). -/
structure Sibling where
  gid : Nat
  eid : Nat
  members : DWord
  base : Nat
  q : Nat
  nsh : Nat
  posts : List Post
  abstained : List Nat
  decided : Bool
  plural : Bool
  winner : Option DWord
  dstep : Nat
  cancelled : List Nat
  stpx : Nat
  tokx : Nat
  /-- increments of the step in progress, added to the accounting at its boundary (R409) -/
  accDecided : Bool
  /-- members that hold the shared pages, and the frames that those who stopped have left (R407) -/
  holders : List Nat
  frames : List Nat
  deriving DecidableEq, Repr

/-- An access that has left the core and not returned (R230, R312, R423): an acknowledgement that brings the
write time `wts`; an access of strand `i` that a peer answers, which writes `n` registers of type `ty` from
`reg` when it returns data, and acquires at the scope `acq` if one is given, as a strong atomic or not (R298); a posted counter add to a peer; the peer side of a
command of an acceptance number: `n` bytes that it reads or writes; or the `DONE` add of a launch (R381). -/
inductive OutKind where
  | ack (wts : Nat)
  | peer (va : DWord) (i : Nat) (uni : Bool) (reg : Opnd) (ty : Ty) (n : Nat) (returns : Bool) (acq : Option (Nat × Bool))
  | peerAdd (va : DWord) (pc : DWord)
  | peerCommand (r : CmdRef) (serial : Nat) (va : DWord) (n : Nat) (reads : Bool)
  | peerDone (seq : Nat)
  deriving DecidableEq, Repr

/-- An outstanding access, the group that made it and its team context. -/
structure OutAcc where
  id : Nat
  group : Nat
  team : Nat
  kind : OutKind
  deriving DecidableEq, Repr

/-- Who performs a serving operation at the home slices: a group, its engagement and die, its agent in the access log, and the
timestamp that its writes carry. -/
structure Doer where
  gid : Nat
  eid : Nat
  die : Nat
  agent : Nat
  carry : Nat
  deriving DecidableEq, Repr

/-- A `KVPACK` that has passed its checks (R402): who performs it, its team context, the bases of the KV range and of the score
table, n, the geometry word, the positions kept, and how many 64-byte pieces of tokens have moved. -/
structure Pack where
  doer : Doer
  tid : Nat
  base : DWord
  score : DWord
  n : Nat
  geo : Nat
  keep : List Nat
  moved : Nat
  deriving DecidableEq, Repr

/-- A Closia connection (R415, R416), and whether its messages perform in the order sent (R418). -/
structure Conn where
  id : Nat
  system : Bool
  eid : Nat
  peer : Bool
  rod : Bool
  deriving DecidableEq, Repr

/-- A window this device exports (R422). -/
structure Window where
  id : Nat
  eid : Nat
  base : DWord
  len : Nat
  conn : Nat
  deriving DecidableEq, Repr

/-- A range watch unit (R428); `kinds` has a bit for each of read, write, atomic, command, port. -/
structure Watch where
  unit : Nat
  eid : Nat
  base : DWord
  len : Nat
  kinds : BitVec 5
  deriving DecidableEq, Repr

/-- An entry of the sealed log (R428). -/
structure LogEntry where
  time : Nat
  agent : Nat
  eid : Nat
  kind : Nat
  unit : Nat
  va : DWord
  bytes : Nat
  count : Nat
  deriving DecidableEq, Repr

/-- What the device sends through its port (R417). An answer carries `TAG`, the status byte, `ARG` and `ARG2` of a fault, and
data. -/
inductive OutMsg where
  | answer (conn : Nat) (tag : Word) (status : Nat) (arg : Nat) (arg2 : DWord) (data : List Byte)
  | complete (seq : Nat) (status : Nat) (terminated : Nat) (doneFault : Nat)
  | terminated (record : List Byte)
  | receipt (bytes : List Byte) (signature : List Byte)
  | log (entries : List LogEntry) (index : Nat) (signature : List Byte)
  | ended (eid : Nat)
  | peerAccess (acc : Nat) (conn window : Nat) (offset : Nat) (kind : Nat) (bytes : List Byte)
  | storeError (bank : BankRef) (row : Nat)
  /-- the error counts of a core (corrected, uncorrected, discarded adds) or, with `slice`, of a home slice -/
  | errorCounts (slice : Bool) (unit : Nat) (counts : List Nat)
  deriving DecidableEq, Repr

/-- The vertical bus of a die (R358 to R360): since when retraining is due, whether it runs, time and
temperature of the last training, and the times in sc and in ac at which a running one began. -/
structure Bus where
  due : Option Nat
  running : Bool
  last : Nat
  lastTemp : Nat
  began : Nat
  since : Nat
  deriving DecidableEq, Repr

/-- Harvest of a core as the fuses give it (R336). -/
structure Fuse where
  engine : Bool
  blocks : Nat
  deriving DecidableEq, Repr

/-- An add to an exact-sum cell: the groups that know of it, its own first, its team, its time, and the value (R235). -/
structure CellAdd where
  known : List Nat
  tid : Nat
  wts : Nat
  x : Nat
  deriving DecidableEq, Repr

/-- An exact-sum cell as the write before its last adds left it: its bytes, their write time and the teams whose writes they
continue, and the adds since, oldest first. -/
structure CellHistory where
  base : List Byte
  wts : Nat
  signs : List (Sparse Nat)
  adds : List CellAdd
  deriving DecidableEq, Repr

/-- Which agent moves in the next step. -/
inductive Turn where
  /-- the running group executes its next instruction -/
  | group
  /-- this step of an engine or request of the host happens -/
  | event (i : Instr)
  /-- the L1 line at this place of a core is evicted (R210) -/
  | evict (core : Nat) (k : Nat)
  /-- a core renews the lease of the line at this place (R211) -/
  | renew (core : Nat) (k : Nat)
  /-- storage of the device suffers a soft error (R222, R346) -/
  | upset (u : Upset)
  /-- the error counts of a core, or of a home slice, are reported to the host (R417) -/
  | counts (slice : Bool) (unit : Nat)
  /-- nothing can move but time -/
  | idle
  deriving DecidableEq, Repr

/-- The machine. -/
structure State where
  turn : Turn
  /-- the group whose turn it is; its `status` is `ended` while there is none -/
  g : Group
  /-- every other group -/
  others : List Group
  /-- steps of engines in flight and messages arriving at the port, oldest first -/
  pending : List Instr
  /-- messages sent through the port, newest first -/
  out : List OutMsg
  /-- free choices taken so far (the model's own field) -/
  ctr : Nat
  /-- accesses that have gone between a core and what lies off it (R358; the model's own field) -/
  traffic : Nat
  /-- next unused number for groups, team contexts, accesses and acceptances (the model's own field) -/
  fresh : Nat
  /-- ac since reset (R59) and sc since reset (R6) -/
  ac : Nat
  sc : Nat
  /-- HBM by physical byte address; unlisted: 0 -/
  mem : List Host.Cell
  /-- 64-byte blocks (PA / 64) that are poisoned, and those whose tag disagrees (R346, R425) -/
  poison : List Nat
  tagFail : List Nat
  /-- write and read times of 64-byte lines (PA / 64); unlisted: 0 (R211) -/
  wts : Sparse Nat
  rts : Sparse Nat
  /-- by word of memory (PA / 4): the teams whose writes its value continues, each with its write time, by team context + 1
  (R296, R306) -/
  wrote : Sparse (Sparse Nat)
  /-- the largest time that a strong atomic has carried or met (R298; the model's own field) -/
  strong : Nat
  /-- by line (PA / 64): the history of an exact-sum cell since its last other write (R235, R366; the model's own field) -/
  sums : List (Nat × CellHistory)
  /-- lines of the cache role, most recently used first (R341) -/
  cached : List CacheLine
  /-- cluster TLBs by 6 * die + cluster, die TLBs and walkers' caches by die, last filled first (R216) -/
  clusterTlbs : Sparse (List TlbEntry)
  dieTlbs : Sparse (List TlbEntry)
  walkers : Sparse (List WalkEntry)
  /-- owners and attributes of frames (PA / 65536) -/
  frames : Sparse FrameInfo
  /-- frames of `Charon`'s pool of each die: the first never used, and those returned -/
  poolNext : Sparse Nat
  poolBack : Sparse (List Nat)
  /-- grow free list of an engagement on a die at key 4 * eid + die (R220) -/
  freeList : Sparse (List Nat)
  /-- cores by 48 * die + core; unlisted: as at reset -/
  cores : Sparse Core
  fuses : Sparse Fuse
  teams : List Team
  accs : List OutAcc
  images : List (Nat × Image)
  launches : List Launch
  nextSeq : Nat
  saved : List SavedGang
  held : List CtrAdd
  reservation : Option Reservation
  engs : Sparse Engagement
  /-- by 16384 * eid + id -/
  handles : List (Nat × Handle)
  /-- by 16 * slice + way-group -/
  wgcfg : Sparse WgCfg
  sliceErrors : Sparse Nat
  kv : List KvCopy
  programs : List (Nat × StepProgram)
  siblings : List Sibling
  /-- posts handled so far (R404) -/
  posts : Nat
  /-- compactions under way (R402) -/
  packs : List Pack
  conns : List Conn
  owed : List Owed
  linkUp : Bool
  /-- time of the last try to train the link (R414) -/
  linkTry : Nat
  dropped : Nat
  windows : List Window
  watches : List Watch
  log : List LogEntry
  chain : List Byte
  logIndex : Nat
  lastSeal : Nat
  /-- start-up phases completed, 0 to 5 (R433) -/
  phase : Nat
  warm : Bool
  recovery : Bool
  /-- the firmware image delivered last that the boot ROM accepted; none: the one of manufacture (R430) -/
  fwImage : Option (List Byte)
  fwVersion : Nat
  fwFloor : Nat
  fwDigest : List Byte
  fwPieces : List Byte
  /-- blown rollback fuses, 0 to 64 (R431) -/
  rollback : Nat
  /-- `MESHCFG` fields (R370) -/
  ageth : Byte
  w2 : Byte
  w1 : Byte
  w0 : Byte
  /-- `PWRCFG` fields (R435) -/
  capw : Nat
  pstep : Nat
  ttrip : Nat
  /-- power over the last 1 ms in W, and since when it has been below 90% of the cap -/
  power : Nat
  coolSince : Nat
  /-- temperatures: compute die d at key d, store die j of die d at key 4 + 2 * d + j; unlisted: 0 °C -/
  temps : Sparse Nat
  /-- refresh band of a store die, as keyed above: 0, 1, 2; unlisted: 0 (R354) -/
  band : Sparse Nat
  /-- sc at which the period of a row began, with its last refresh or the last deadline that passed, by ((slice * 16 + wg) * 2 + die) * 1536 + row; unlisted: 0 -/
  refreshed : Sparse Nat
  /-- sc of the last patrol of a bank; unlisted: 0 (R355) -/
  patrolled : Sparse Nat
  /-- rows whose last deadline passed without a refresh since, by the same key as `refreshed` (R355) -/
  deadRows : List Nat
  buses : Sparse Bus
  deriving DecidableEq, Repr

/-- The bus of a die at reset: not running, never due. -/
def Bus.reset : Bus := ⟨none, false, 0, 0, 0, 0⟩

/-- An empty counter, tile, core, frame and engagement: what an unlisted one reads as. -/
def Counter.zero : Counter := ⟨0, 0, [], []⟩

/-- The empty tile (R256). -/
def Tile.empty : Tile := ⟨[], [], [], [], 0, 0, 0, 0, 0, [], [], 0, [], [], [], [], 0⟩

/-- A core at reset (R205, R209, R211). -/
def Core.reset : Core :=
  { localUnits := 0, lease := 64, age := 16, chg := false, splitTo := none, store := [], storeTimes := [], storePoison := []
    lines := [], foot := [], cc := 0, tick := 0, ctrs := [], ranges := [], tiles := [], tileOwner := []
    seq := [], bbuf := [], tlb := [], icache := [], corrected := 0, uncorrected := 0, discarded := 0
    unavailable := false, last := [] }

/-- An engagement that is not live (R424). -/
def Engagement.free : Engagement :=
  { st := .free, root := 0, htab := 0, cpool := 0, cpoolSize := 0, logp := 0, kslot := 0
    acct := [0, 0, 0, 0], nonce := [] }

/-- The state in which a group begins (R49), before its identity is given. -/
def Group.init : Group :=
  { gid := 0, eid := 0, tid := 0, launch := 0, gang := 0, teamNo := 0, grp := 0, die := 0, core := 0, lane := 0
    width := .w16, base := 0, status := .ended, pc := 0, live := 0, active := 0, v := [], vPoison := [], p := []
    s := [], q := 0, fmt := 0, jord := 0, jx := 0, role := 0, ridx := 0, xblk := 0, stack := [], frame := none
    tcause := 0, tpc := 0, taddr := 0, gwts := 0, gwtsTeam := 0, gwtsSys := 0, carry := 0, latch := none, reports := [], readTime := 0, yielded := false, midway := false
    stopping := false, waitingSince := 0 }

/-- The machine right after a cold reset (R433): no engagement, no group, memory all zero, and the first
start-up phase in progress. -/
def State.reset : State :=
  { turn := .event .startPhaseDone, g := Group.init, others := [], pending := [], out := [], ctr := 0, traffic := 0, fresh := 1
    ac := 0, sc := 0, mem := [], poison := [], tagFail := [], wts := [], rts := [], wrote := [], strong := 0, sums := [], cached := [], clusterTlbs := [], dieTlbs := [], walkers := [], frames := [], poolNext := []
    poolBack := [], freeList := [], cores := [], fuses := [], teams := [], accs := [], images := []
    launches := [], nextSeq := 1, saved := [], held := [], reservation := none, engs := [], handles := []
    wgcfg := [], sliceErrors := [], kv := [], programs := [], siblings := [], posts := 0, packs := [], conns := [], owed := []
    linkUp := false, linkTry := 0, dropped := 0, windows := [], watches := [], log := [], chain := []
    logIndex := 0, lastSeal := 0, phase := 0, warm := false, recovery := false, fwImage := none, fwVersion := 0, fwFloor := 0
    fwDigest := [], fwPieces := [], rollback := 0, ageth := 64, w2 := 12, w1 := 2, w0 := 2, capw := 2400
    pstep := 0, ttrip := 115, power := 0, coolSince := 0, temps := [], band := [], refreshed := []
    patrolled := [], deadRows := [], buses := [] }

end Sys2Proof.Machine
end

