-- ==== Sys2Proof/Machine/Ops.lean ====
section
/-! DEFINITION. The named operations over registers, groups, cores and teams that every meaning is built from,
the taking of a trap (R197, R199, R324) and the return from one (R198). -/

namespace Sys2Proof.Machine

/-- What a meaning answers. -/
abbrev Result := Host.Outcome State Fault Refusal

/-! ### Registers of a group -/

/-- v register `r` of strand `i` (R45). -/
def vGet (g : Group) (i r : Nat) : Word := Sparse.get 0 (256 * i + r) g.v

/-- Writes v register `r` of strand `i`; the new value has no storage error. -/
def vSet (g : Group) (i r : Nat) (x : Word) : Group :=
  { g with v := Sparse.set 0 (256 * i + r) x g.v, vPoison := g.vPoison.erase (256 * i + r) }

/-- Uniform register `r` (R48). -/
def sGet (g : Group) (r : Nat) : Word := Sparse.get 0 r g.s

/-- Writes uniform register `r`. -/
def sSet (g : Group) (r : Nat) (x : Word) : Group := { g with s := Sparse.set 0 r x g.s }

/-- Predicate `k` of strand `i`; index 7 is `pt` (R47). -/
def pGet (g : Group) (i k : Nat) : Bool := if k = 7 then true else (Sparse.get 0 k g.p).getLsbD i

/-- Writes predicate `k` of strand `i`; a write of `pt` is discarded (R47). -/
def pSet (g : Group) (i k : Nat) (b : Bool) : Group :=
  if k = 7 then g else { g with p := Sparse.set 0 k (putBit (Sparse.get 0 k g.p) i b) g.p }

/-- Uniform predicate `k`; index 7 is `qt` (R47). -/
def qGet (g : Group) (k : Nat) : Bool := if k = 7 then true else g.q.getLsbD k

/-- Writes uniform predicate `k`; a write of `qt` is discarded (R47). -/
def qSet (g : Group) (k : Nat) (b : Bool) : Group := if k = 7 then g else { g with q := putBit g.q k b }

/-- Strands of a group (R39). -/
def widthOf (g : Group) : Nat :=
  match g.width with
  | .w16 => 16
  | .w32 => 32
  | .w64 => 64

/-- Highest v register a group may name: those of the blocks it holds (R45, R50). -/
def vTop (g : Group) : Nat := 64 * (g.xblk + 1) - 1

/-- `H` of `sr.tcause` (R195). -/
def inHandler (g : Group) : Bool := g.tcause.getLsbD 31

/-- Writes consecutive v registers of one strand. -/
def vSets (g : Group) (i r : Nat) : List Word → Group
  | [] => g
  | x :: t => vSets (vSet g i r x) i (r + 1) t

/-- Writes consecutive uniform registers. -/
def sSets (g : Group) (r : Nat) : List Word → Group
  | [] => g
  | x :: t => sSets (sSet g r x) (r + 1) t

/-! ### Guards (R100) -/

/-- A guard with `U` = 0 in strand `i`. -/
def guardV (g : Group) (i : Nat) (gd : Guard) : Bool := pGet g i gd.idx.toNat != gd.neg

/-- A guard with `U` = 1. -/
def guardQ (g : Group) (gd : Guard) : Bool := qGet g gd.idx.toNat != gd.neg

/-- Both guards hold in strand `i` with `U` = 0. -/
def holdsV (g : Group) (x : Fields) (i : Nat) : Bool := guardV g i x.g1 && guardV g i x.g2

/-- Both guards hold with `U` = 1. -/
def holdsQ (g : Group) (x : Fields) : Bool := guardQ g x.g1 && guardQ g x.g2

/-- Strands of the active mask, ascending (R40). -/
def activeList (g : Group) : List Nat := bitsOf (widthOf g) g.active

/-- The strands that execute an instruction with `U` = 0, ascending, without those that the resume index
skips (R40, R67, R68). -/
def execList (g : Group) (x : Fields) : List Nat :=
  (activeList g).filter (fun i => holdsV g x i && decide (g.ridx ≤ i))

/-- A group-wide all guard (R177). -/
def holdsAll (g : Group) (x : Fields) : Bool :=
  if x.u then holdsQ g x else (activeList g).all (holdsV g x)

/-- A group-wide any guard (R177). -/
def holdsAny (g : Group) (x : Fields) : Bool :=
  if x.u then holdsQ g x else (activeList g).any (holdsV g x)

/-! ### Groups, cores, teams and launches by number -/

/-- The core a group stands on, as 48 * die + core. -/
def coreNo (g : Group) : Nat := 48 * g.die + g.core

/-- A core of the package. -/
def coreAt (s : State) (c : Nat) : Core := Sparse.get Core.reset c s.cores

/-- Replaces a core. -/
def setCore (c : Nat) (k : Core) (s : State) : State := { s with cores := Sparse.set Core.reset c k s.cores }

/-- Changes a core. -/
def modCore (c : Nat) (f : Core → Core) (s : State) : State := setCore c (f (coreAt s c)) s

/-- Replaces the running group. -/
def setG (g : Group) (s : State) : State := { s with g := g }

/-- Every group on the device. -/
def allGroups (s : State) : List Group := s.g :: s.others

/-- A group by number. -/
def findGroup (s : State) (gid : Nat) : Option Group := (allGroups s).find? (fun g => g.gid == gid)

/-- Changes every group that satisfies `f`. -/
def modGroups (f : Group → Bool) (h : Group → Group) (s : State) : State :=
  { s with g := (if f s.g then h s.g else s.g), others := updateWhere f h s.others }

/-- Changes the group of a number. -/
def modGroup (gid : Nat) (h : Group → Group) (s : State) : State := modGroups (fun g => g.gid == gid) h s

/-- Changes the group of a number, on the device or saved (R384). -/
def modAny (gid : Nat) (h : Group → Group) (s : State) : State :=
  let inTeam := fun (t : SavedTeam) => { t with groups := updateWhere (fun g => g.gid == gid) h t.groups }
  let s := modGroup gid h s
  { s with saved := s.saved.map (fun v => { v with teams := v.teams.map inTeam }) }

/-- A saved group. -/
def savedGroup (s : State) (gid : Nat) : Option Group :=
  ((s.saved.flatMap (fun v => v.teams.flatMap (·.groups))).find? (fun g => g.gid == gid))

/-- The group's gang is being saved: it issues nothing more (R383). -/
def saving (s : State) (g : Group) : Bool := s.saved.any (fun v => !v.saved && v.launch == g.launch && v.gang.gang == g.gang)

/-- A group by number that no save has stopped. -/
def liveGroup (s : State) (gid : Nat) : Option Group := (findGroup s gid).filter (fun g => !saving s g)

/-- A team on its cores, by context number. -/
def findTeam (s : State) (tid : Nat) : Option Team := s.teams.find? (fun t => t.tid == tid)

/-- Changes a team, on its cores or saved. -/
def modTeam (tid : Nat) (h : Team → Team) (s : State) : State :=
  let save := fun (v : SavedGang) =>
    { v with teams := updateWhere (fun t => t.team.tid == tid) (fun t => { t with team := h t.team }) v.teams }
  { s with teams := updateWhere (fun t => t.tid == tid) h s.teams, saved := s.saved.map save }

/-- A launch by sequence number. -/
def findLaunch (s : State) (seq : Nat) : Option Launch := s.launches.find? (fun l => l.seq == seq)

/-- Changes a launch. -/
def modLaunch (seq : Nat) (h : Launch → Launch) (s : State) : State :=
  { s with launches := updateWhere (fun l => l.seq == seq) h s.launches }

/-- The position of a core among a team's cores: 0 for the even core of a pair. -/
def posIn (t : Team) (c : Nat) : Nat := t.cores.idxOf c

/-- The counter range a team holds on a core (R316). -/
def rangeOn (t : Team) (c : Nat) : Nat := nth 0 t.ranges (posIn t c)

/-- Raises and lowers a team's outstanding count (R312). -/
def countUp (tid : Nat) (s : State) : State := modTeam tid (fun t => { t with outstanding := t.outstanding + 1 }) s
def countDown (tid : Nat) (s : State) : State := modTeam tid (fun t => { t with outstanding := t.outstanding - 1 }) s

/-! ### Core counters (R203, R238, R240) -/

/-- Physical counter `m` of core `c`. -/
def ctrAt (s : State) (c m : Nat) : Counter := Sparse.get Counter.zero m (coreAt s c).ctrs

/-- Adds to a counter, saturating (R240); keeps the last four adds (R323). `signer` is the team context + 1 that adds, 0 for
none (R306). -/
def ctrPlus (k : Counter) (amount stamp signer : Nat) (src : Adder) : Counter :=
  { val := BitVec.ofNat 64 (min (k.val.toNat + amount) (2 ^ 64 - 1)), ct := max k.ct stamp
    ctBy := if signer = 0 then k.ctBy else Sparse.set 0 signer (max (Sparse.get 0 signer k.ctBy) stamp) k.ctBy
    adders := (⟨src, amount⟩ :: k.adders).take 4 }

/-- An add saturates (R240). -/
def ctrOver (k : Counter) (amount : Nat) : Bool := decide (2 ^ 64 - 1 < k.val.toNat + amount)

/-- Applies an add to physical counter `m` of core `c`. -/
def addCtr (c m amount stamp signer : Nat) (src : Adder) (s : State) : State :=
  modCore c (fun k =>
    let v := ctrPlus (Sparse.get Counter.zero m k.ctrs) amount stamp signer src
    { k with ctrs := Sparse.set Counter.zero m v k.ctrs }) s

/-- A counter reference (R238). -/
def counterRef (c m : Nat) : DWord := BitVec.ofNat 64 (2 ^ 63 + 4096 * (c / 48) + 64 * (c % 48) + m)

/-! ### The end of a team (R184, R312, R324) -/

/-- A group that will issue nothing more. -/
def isOver (g : Group) : Bool :=
  match g.status with
  | .ended => true
  | .stopped => true
  | _ => false

/-- Every group of a team is over. -/
def teamOver (s : State) (tid : Nat) : Bool := (allGroups s).all (fun g => g.tid != tid || isOver g)

/-- Frees a counter range and the tiles a team holds on a core; tiles are zeroed (R256, R324). -/
def freeOnCore (range : Nat) (tiles : List Nat) (k : Core) : Core :=
  { k with ranges := Sparse.set 0 range 0 k.ranges
           tiles := tiles.foldl (fun t n => Sparse.set Tile.empty n Tile.empty t) k.tiles
           tileOwner := tiles.foldl (fun t n => Sparse.set 0 n 0 t) k.tileOwner }

/-- Removes a team and its groups from the device and closes its gang when it was the last (R324). -/
def freeTeam (t : Team) (s : State) : State :=
  let s := (List.range t.cores.length).foldl
    (fun s k => modCore (nth 0 t.cores k) (freeOnCore (nth 0 t.ranges k) (nth [] t.tiles k)) s) s
  let s := { s with teams := s.teams.filter (fun u => u.tid != t.tid),
                    others := s.others.filter (fun g => g.tid != t.tid),
                    g := if s.g.tid = t.tid then Group.init else s.g }
  let s := modLaunch t.launch (fun l => { l with stood := (16 * t.gang + t.team, t.cores) :: l.stood }) s
  if s.teams.any (fun u => u.launch == t.launch && u.gang == t.gang) then s
  else modLaunch t.launch (fun l => { l with placed := l.placed.filter (fun a => a.gang != t.gang),
                                             endedGangs := t.gang :: l.endedGangs }) s

/-- Frees a team whose groups are over and whose outstanding count is zero. -/
def settleTeam (tid : Nat) (s : State) : State :=
  match findTeam s tid with
  | none => s
  | some t => if t.outstanding = 0 && teamOver s tid then freeTeam t s else s

/-- Ends a group (R184), whose A latch is released (R263). -/
def endGroup (gid : Nat) (s : State) : State :=
  match findGroup s gid with
  | none => s
  | some g => settleTeam g.tid (modGroup gid (fun g => { g with status := .ended, live := 0, active := 0, xblk := 0, latch := none }) s)

/-! ### Termination and its diagnostic record (R199, R323, R324) -/

/-- State code of a group in a record (R323). -/
def groupCode (g : Group) : Nat :=
  if isOver g then 0 else if inHandler g then 3 else
    match g.status with
    | .ready => 1
    | _ => 2

/-- Entry of the group table of a record (R323). -/
def groupEntry (gs : List Group) (n : Nat) : Nat :=
  match gs.find? (fun g => g.grp == n && groupCode g != 0) with
  | none => 0
  | some g => groupCode g * 2 ^ 62 + g.role.toNat * 2 ^ 60 + g.pc.toNat % 2 ^ 56

/-- An add as a record lists it (R323). -/
def adderCode (a : AddRec) : Nat :=
  a.src.kind * 2 ^ 60 + a.src.core / 48 * 2 ^ 58 + a.src.core % 48 * 2 ^ 52 + a.src.grp * 2 ^ 47 + a.amount % 2 ^ 32

/-- Physical counter and target a group waits on. -/
def waitOf (g : Group) : Option (Nat × Nat) :=
  match g.status with
  | .waitCounter n target _ _ _ _ => some (n, target)
  | _ => none

/-- `CLOCK` of a record: the capture of an expired wait is made at the end of the ac that has just passed (R322, R323, R333). -/
def captureClock (s : State) (cause : Nat) : Nat := if cause = 0x19 ∨ cause = 0x1A then s.ac - 1 else s.ac

/-- The 352-byte record (R323); `wpc` is the address it names. -/
def diagRecord (s : State) (g : Group) (cause sub : Nat) (wpc : DWord) : List Byte :=
  let w := if cause = 0x19 then waitOf g else none
  let k := match w with
    | some (n, _) => ctrAt s (coreNo g) n
    | none => Counter.zero
  let cref := match w with
    | some (n, _) => (counterRef (coreNo g) n).toNat
    | none => 0
  let target := match w with
    | some (_, t) => t
    | none => 0
  leBytes 4 (cause + 256 * sub) ++
  leBytes 4 (g.die + 4 * g.core + 256 * g.lane + 8192 * g.grp) ++
  leBytes 4 g.teamNo ++ leBytes 4 g.gang ++ leBytes 8 g.launch ++
  leBytes 8 cref ++ leBytes 8 target ++ leBytes 8 k.val.toNat ++ leBytes 8 (captureClock s cause) ++ leBytes 8 wpc.toNat ++
  (padTo 4 0 ((k.adders.take 4).map adderCode)).flatMap (leBytes 8) ++
  (List.range 32).flatMap (fun n => leBytes 8 (groupEntry ((allGroups s).filter (fun h => h.tid == g.tid)) n))

/-- Key of a handle in the tables. -/
def handleKey (eid h : Nat) : Nat := 16384 * eid + h

/-- What the store keeps of a handle that nothing has used yet. -/
def Handle.fresh : Handle := ⟨0, false, [], [], [], 0, .none, none, [], 0, none⟩

/-- What the store keeps of a handle. -/
def handleOf (s : State) (eid h : Nat) : Handle := (assoc (handleKey eid h) s.handles).getD Handle.fresh

/-- Changes what the store keeps of a handle. -/
def modHandle (eid h : Nat) (f : Handle → Handle) (s : State) : State :=
  { s with handles := assocSet (handleKey eid h) (f (handleOf s eid h)) s.handles }

/-- The handle whose shadow a command writes. -/
def writesHandle (c : Command) : Option Nat :=
  match c.kind with
  | .copy dir dst _ _ _ _ _ => if dir == .g2h || dir == .l2h then some (dst.toNat % 16384) else none
  | .xpose dst _ _ _ _ d3 => if d3.toNat / 2 ^ 29 = 2 then some (dst.toNat % 16384) else none
  | .drain dst _ _ e1 => if e1.toNat / 2 ^ 29 = 2 then some (dst.toNat % 16384) else none
  | _ => none

/-- A failed command that wrote a handle's shadow keeps publications accepted after it from swapping (R253). -/
def markFailed (c : Command) (s : State) : State :=
  match writesHandle c with
  | none => s
  | some h => modHandle c.eid h (fun k => { k with failed := some (min c.serial (k.failed.getD c.serial)) }) s

/-- A command of a team that has not begun. -/
def unbegun (tid : Nat) (c : Command) : Bool := c.team == tid && c.phase == .waiting

/-- Removes a team's commands that have not begun from a core's sequencer; they count as failed (R253, R324). -/
def dropWaiting (tid core : Nat) (s : State) : State :=
  let s := ((coreAt s core).seq.filter (unbegun tid)).foldl (fun s c => markFailed c s) s
  modCore core (fun k => { k with seq := k.seq.filter (fun c => !unbegun tid c) }) s

/-- The group waits for a `TOPK` whose memory effects have been performed (R399). -/
def selecting (g : Group) : Bool :=
  match g.status with
  | .waitServing (.topk _ _) => true
  | _ => false

/-- What leaves a team's outstanding count when it stops: commands that have not begun, and selections under way. -/
def waitingCmds (s : State) (t : Team) : Nat :=
  (t.cores.map (fun c => ((coreAt s c).seq.filter (unbegun t.tid)).length)).sum +
  ((allGroups s).filter (fun g => g.tid == t.tid && selecting g)).length

/-- A group stops for good: its A latch is released (R263, R324). -/
def stopHere (h : Group) : Group := { h with status := .stopped, latch := none }

/-- A group of a team that stops (R324 step 2): one whose pass over an instruction waits for another unit completes it first. -/
def halt (h : Group) : Group := if isOver h then h else if h.midway then { h with stopping := true } else stopHere h

/-- A group of a team that stops and has reached its next instruction boundary: it waits for nothing of a pass in progress
(R324 step 2). -/
def atStop (h : Group) : Bool := h.stopping && !h.midway && !isOver h

/-- A team's groups that have reached the boundary at which they stop are stopped. -/
def stopPoint (tid : Nat) (s : State) : State :=
  if (allGroups s).any (fun h => h.tid == tid && atStop h) then
    settleTeam tid (modGroups (fun h => h.tid == tid && atStop h) stopHere s)
  else s

/-- Terminates the launch context of a group's team with a cause (R199, R324): captures the record, stops the
team's groups, discards the commands that have not begun and sends the record to the host. -/
def terminateTeam (g : Group) (cause sub : Nat) (wpc : DWord) (s : State) : State :=
  match findTeam s g.tid with
  | none => modGroups (fun h => h.tid == g.tid) halt s
  | some t =>
    let s := { s with out := .terminated (diagRecord s g cause sub wpc) :: s.out }
    let n := waitingCmds s t
    let s := t.cores.foldl (fun s c => dropWaiting t.tid c s) s
    let s := modTeam t.tid (fun t => { t with outstanding := t.outstanding - n, terminated := some (cause, sub) }) s
    let s := modGroups (fun h => h.tid == t.tid) halt s
    let s := modLaunch t.launch (fun l => { l with terminated := l.terminated + 1
                                                   status := if l.status = 0 then cause else l.status }) s
    settleTeam t.tid s

/-! ### Taking a trap and returning from one (R195 to R199) -/

/-- Causes that terminate in every case (R196). -/
def terminates (cause : Nat) : Bool := [0x0A, 0x19, 0x1A].contains cause

/-- Sets `sr.tcause`, `sr.tpc` and `sr.taddr` and the resume index (R67, R113, R195). -/
def recordTrap (t : Trap) (pc : DWord) (g : Group) : Group :=
  { g with tcause := (g.tcause &&& 0x80000000) ||| BitVec.ofNat 32 (t.cause % 256 + 256 * (t.sub % 256))
           tpc := pc, taddr := t.addr.getD g.taddr, ridx := t.strand, midway := false }

/-- TrapEntry (R197), to the handler at `pc`. -/
def enterHandler (pc : DWord) (g : Group) : Group :=
  { g with frame := some ⟨g.active, g.fmt, g.jord, g.stack, g.ridx, g.readTime⟩, ridx := 0, readTime := 0, stack := [], active := g.live
           fmt := 0, jord := 0, tcause := g.tcause ||| 0x80000000, pc := pc, status := .ready, midway := false }

/-- Address of the handler that a group's launch record names (R375). -/
def handlerOf (s : State) (g : Group) : Option DWord :=
  match findLaunch s g.launch with
  | none => none
  | some l => if l.record.hslot = 0xFFFFFFFF then none
    else some (l.kernel.base + BitVec.ofNat 64 (12 * l.record.hslot))

/-- The step program of an engagement (R388). -/
def programOf (s : State) (eid : Nat) : Option StepProgram := assoc eid s.programs

/-- The slot of the group's gang: that of its number, when its launch is a step (R388). -/
def slotOf? (s : State) (g : Group) : Option Nat :=
  match findLaunch s g.launch with
  | none => none
  | some l => if l.isStep then some g.gang else none

/-- Tokens of the bucket of a slot (R388). -/
def bucketOf (p : StepProgram) (slot : Nat) : Nat :=
  let n := fun (k : Nat) => nth 0 p.nb k
  if slot < n 0 then 2048 else if slot < n 0 + n 1 then 8192 else if slot < n 0 + n 1 + n 2 then 32768 else 131072

/-- A field of a slot entry (R389). -/
def entryField (e : List Byte) (off n : Nat) : Nat := leNat ((e.drop off).take n)

/-- `PPG` and `KVBASE` of a slot entry (R389). -/
def entryPpg (e : List Byte) : Nat := bitsAt (entryField e 0 4) 4 1
def entryKv (e : List Byte) : Nat := entryField e 8 8

/-- An address lies in the KV range of a slot of the step in progress: the bucket's tokens at 2^(16 − `PPG`) bytes. -/
def inKvRange (p : StepProgram) (slot : Nat) (a : Nat) : Bool :=
  let e := Sparse.get [] slot p.snap
  decide (entryKv e ≤ a) && decide (a < entryKv e + bucketOf p slot * 2 ^ (16 - entryPpg e))

/-- A memory failure in the KV range of a slot that a promotion failure has marked (R398). -/
def kvStop (s : State) (g : Group) (t : Trap) : Bool :=
  (t.cause == 0x20 || t.cause == 0x21) && match programOf s g.eid, slotOf? s g, t.addr with
    | some p, some slot, some a => p.failed.contains slot && inKvRange p slot a.toNat
    | _, _, _ => false

/-- Stops a team without a record or a report (R398). -/
def stopTeam (g : Group) (s : State) : State :=
  match findTeam s g.tid with
  | none => modGroups (fun h => h.tid == g.tid) halt s
  | some t =>
    let n := waitingCmds s t
    let s := t.cores.foldl (fun s c => dropWaiting t.tid c s) s
    let s := modTeam t.tid (fun t => { t with outstanding := t.outstanding - n }) s
    settleTeam t.tid (modGroups (fun h => h.tid == t.tid) halt s)

/-- An uncorrectable error of a core's storage counts in that core's error counts (R222). -/
def countUncorrected (c : Nat) (s : State) : State := modCore c (fun k => { k with uncorrected := k.uncorrected + 1 }) s

/-- An uncorrectable error that a trap reports counts in the error counts of its group's core: one of its registers or tiles
(R222, R272). That of a local word is counted where it is found, that of a dirty word when it is written back. -/
def countError (g : Group) (t : Trap) (s : State) : State :=
  if t.cause = 0x20 && [4, 5].contains (t.sub % 128) then countUncorrected (coreNo g) s else s

/-- A failure reported to a group that has ended ends its team, or stops it where a promotion has caused the failure (R250,
R398). -/
def endByReport (g : Group) (t : Trap) (pc : DWord) (s : State) : State :=
  let s := countError g t s
  if kvStop s g t then stopTeam g s else terminateTeam g t.cause t.sub pc s

/-- Group `g` takes a trap whose `sr.tpc` is `pc`: it enters its handler, or its team is terminated when the cause
terminates, the record names no handler or the group is in its handler (R197, R199); a failure that a promotion
caused in its slot's KV range stops the team (R398), and a group whose team is stopped stops (R324). -/
def trapGroup (g : Group) (t : Trap) (pc : DWord) (s : State) : State :=
  let s := modGroup g.gid (recordTrap t pc) (countError g t s)
  if g.stopping then stopPoint g.tid s
  else if kvStop s g t then stopTeam g s
  else match handlerOf s g with
  | none => terminateTeam g t.cause t.sub pc s
  | some h =>
    if terminates t.cause || inHandler g then terminateTeam g t.cause t.sub pc s
    else modGroup g.gid (enterHandler h) s

/-- The running group takes a trap at its own address. -/
def takeTrap (t : Trap) (s : State) : State := trapGroup s.g t s.g.pc s

/-- A trap decided from the word or from group state (R69, R113). -/
def wordTrap (cause : Nat) : Trap := ⟨cause, 0, none, 0⟩

/-- An instruction that traps: the entry is its effect. -/
def trapped (t : Trap) (s : State) : Result := .next (takeTrap t s)

/-- The group after a completed instruction that continues at `pc` (R68: the resume index is 0). -/
def advanceTo (pc : DWord) (g : Group) : Group := { g with pc := pc, ridx := 0, readTime := 0, midway := false }

/-- The address of the next slot (R98). -/
def nextPc (g : Group) : DWord := g.pc + 12

/-- The group after a completed instruction that continues at the next slot. -/
def advance (g : Group) : Group := advanceTo (nextPc g) g

/-- The running group becomes `g` and continues at the next slot. -/
def finish (g : Group) (s : State) : Result := .next (setG (advance g) s)

/-- What `TRESUME` restores from the frame (R198): mask, `FMT`, `JORD`, stack and resume index; `H` is cleared. -/
def leaveHandler (f : Frame) (pc : DWord) (g : Group) : Group :=
  { g with active := f.mask &&& g.live, fmt := f.fmt, jord := f.jord, stack := f.stack, ridx := f.ridx, readTime := f.readTime, frame := none
           tcause := g.tcause &&& 0x7FFFFFFF, pc := pc }

/-! ### The reconvergence stack (R61 to R63, R183) -/

/-- `Reconverge` (R183) over a stack, top first: none when it runs out of entries. -/
def reconverge (g : Group) : List StackEntry → Option Group
  | [] => none
  | e :: t =>
    let m := e.mask &&& g.live
    if m = 0 then reconverge g t
    else some { g with active := m, fmt := e.fmt, jord := e.jord, pc := e.pc, stack := t }

end Sys2Proof.Machine
end

