-- ==== Sys2Proof/Machine/Operands.lean ====
section
/-! DEFINITION. Operand forms: what an operand field names (R104 to R107), the checks of step 5 of R113, special
registers (R59), and the running of an instruction over the executing strands (R43, R67). -/

namespace Sys2Proof.Machine

/-! ### Values -/

/-- The pattern of an immediate index (R106). -/
def immPattern (k : BitVec 8) (imm : BitVec 16) : Word :=
  match k.toNat with
  | 0 => imm.signExtend 32
  | 2 => imm.zeroExtend 32 <<< 16
  | _ => imm.zeroExtend 32

/-- The index bits of an operand field. -/
def opIdx : Opnd → Nat
  | .v n => n.toNat
  | .s n => n.toNat
  | .sp n => n.toNat
  | .im n => n.toNat

/-- The long immediate (R106). -/
def longPattern (x : Fields) : Word := BitVec.ofNat 8 (opIdx x.c) ++ x.e ++ x.imm

/-- A 32-bit source: register, uniform register or immediate pattern. -/
def read32 (g : Group) (x : Fields) (i : Nat) : Opnd → Word
  | .v n => vGet g i n.toNat
  | .s n => sGet g n.toNat
  | .im k => immPattern k x.imm
  | .sp _ => 0

/-- A 64-bit source: a register pair, or a pattern sign-extended (R106, R129). -/
def read64 (g : Group) (x : Fields) (i : Nat) : Opnd → DWord
  | .v n => pair64 (vGet g i n.toNat) (vGet g i (n.toNat + 1))
  | .s n => pair64 (sGet g n.toNat) (sGet g (n.toNat + 1))
  | .im k => sx64 (immPattern k x.imm)
  | .sp _ => 0

/-- Operand B, which a long immediate replaces (R106). -/
def readB32 (g : Group) (x : Fields) (i : Nat) : Word := if isLong x then longPattern x else read32 g x i x.b
def readB64 (g : Group) (x : Fields) (i : Nat) : DWord := if isLong x then sx64 (longPattern x) else read64 g x i x.b

/-- Writes consecutive registers of a destination for one strand: v registers, or uniform ones. -/
def writeRegs (g : Group) (i : Nat) (o : Opnd) (l : List Word) : Group :=
  match o with
  | .v n => vSets g i n.toNat l
  | .s n => sSets g n.toNat l
  | _ => g

/-- The strands that a broadcast writes: the active ones that the resume index does not skip (R43, R68). -/
def castList (g : Group) : List Nat := (activeList g).filter (fun i => decide (g.ridx ≤ i))

/-- Writes a destination with `U` = 1: a uniform register once, a v register in every strand of the broadcast (R43, R68). -/
def writeUni (g : Group) (o : Opnd) (l : List Word) : Group :=
  match o with
  | .v n => (castList g).foldl (fun h i => vSets h i n.toNat l) g
  | .s n => sSets g n.toNat l
  | _ => g

/-- Writes a predicate destination for one strand; a q predicate is written once (R44, R105). -/
def writePred (g : Group) (i : Nat) (o : Opnd) (b : Bool) : Group :=
  let k := opIdx o
  if k < 8 then pSet g i k b else qSet g (k - 8) b

/-- Writes a predicate destination with `U` = 1: q once, p in every strand of the broadcast (R43, R68). -/
def writePredUni (g : Group) (o : Opnd) (b : Bool) : Group :=
  let k := opIdx o
  if k < 8 then (castList g).foldl (fun h i => pSet h i k b) g else qSet g (k - 8) b

/-- A predicate source in strand `i` (R105). -/
def readPred (g : Group) (i : Nat) (o : Opnd) : Bool :=
  let k := opIdx o
  if k < 8 then pGet g i k else qGet g (k - 8)

/-- Words of a 64-bit value, low half first. -/
def words64 (x : DWord) : List Word := [lo32 x, hi32 x]

/-! ### Classes and the checks of step 5 (R104 to R107) -/

def isV : Opnd → Bool
  | .v _ => true
  | _ => false

def isS : Opnd → Bool
  | .s _ => true
  | _ => false

/-- A short immediate with a defined pattern (R106). -/
def isShort : Opnd → Bool
  | .im k => decide (k.toNat ≤ 2)
  | _ => false

/-- A per-strand predicate, and a uniform one (R105). -/
def isP : Opnd → Bool
  | .sp k => decide (k.toNat ≤ 7)
  | _ => false

def isQ : Opnd → Bool
  | .sp k => decide (8 ≤ k.toNat) && decide (k.toNat ≤ 15)
  | _ => false

/-- An accumulator tile index (R105). -/
def isTile : Opnd → Bool
  | .sp k => decide (0x10 ≤ k.toNat) && decide (k.toNat ≤ 0x1B)
  | _ => false

/-- A counter of the team's range (R105, R316). -/
def isCtr : Opnd → Bool
  | .sp k => decide (0x20 ≤ k.toNat) && decide (k.toNat ≤ 0x2F)
  | _ => false

/-- An even uniform register. -/
def isSPair (o : Opnd) : Bool := isS o && decide (opIdx o % 2 = 0)

/-- A source of the common kind: v (with `U` = 0 only), s or a short immediate (R43, R127). -/
def isSrc (x : Fields) (o : Opnd) : Bool := (isV o && !x.u) || isS o || isShort o

/-- A destination of the common kind: v, or s with `U` = 1 (R43, R44). -/
def isDst (x : Fields) (o : Opnd) : Bool := isV o || (isS o && x.u)

/-- A predicate destination: p, or q with `U` = 1 (R43, R44). -/
def isPDst (x : Fields) (o : Opnd) : Bool := isP o || (isQ o && x.u)

/-- `n` registers from an operand exist and are aligned to `n` (R45, R48, R72, R223). -/
def regOk (g : Group) (o : Opnd) (n : Nat) : Bool :=
  match o with
  | .v k => decide (k.toNat % n = 0) && decide (k.toNat + n - 1 ≤ vTop g)
  | .s k => decide (k.toNat % n = 0) && decide (k.toNat + n - 1 ≤ 63)
  | _ => true

/-- Two operands of `n` and `m` aligned registers do not overlap partially (R75). -/
def apart (o : Opnd) (n : Nat) (o' : Opnd) (m : Nat) : Bool :=
  if (isV o && isV o') || (isS o && isS o') then
    n == m || decide (opIdx o + n ≤ opIdx o') || decide (opIdx o' + m ≤ opIdx o)
  else true

/-- Registers exist, are aligned, and no two operands overlap partially. -/
def regsOk (g : Group) : List (Opnd × Nat) → Bool
  | [] => true
  | (o, n) :: t => regOk g o n && t.all (fun e => apart o n e.1 e.2) && regsOk g t

/-- At most one of the operands is an immediate (R107). -/
def oneImm (l : List Opnd) : Bool := decide ((l.filter opIm).length ≤ 1)

/-- Operand B of an instruction that allows the long immediate: the long form with B index 0x00, or a
common source (R106). -/
def isSrcB (x : Fields) : Bool := if isLong x then x.b == .im 0 else isSrc x x.b

/-- D and A are operands of the common kinds. -/
def formDA (x : Fields) : Bool := isDst x x.d && isSrc x x.a

/-- D, A and B, the long immediate allowed (R106, R127). -/
def formDAB (x : Fields) : Bool := isDst x x.d && isSrc x x.a && isSrcB x && (isLong x || oneImm [x.a, x.b])

/-- D, A, B and C, the long immediate not allowed. -/
def formDABC (x : Fields) : Bool :=
  isDst x x.d && isSrc x x.a && isSrc x x.b && isSrc x x.c && oneImm [x.a, x.b, x.c]

/-! ### Special registers (R59) -/

/-- Value of special register `k` for strand `i`, read at time `ac`. `sr.fmt` reads in its reserved bits what was last written there
(DESIGN CHOICE, log entry 138: R9 has reserved fields read as zero, R22 marks those of `FMT` RW). -/
def specialValue (g : Group) (ac i k : Nat) : DWord :=
  match k with
  | 0x00 => BitVec.ofNat 64 i
  | 0x01 => BitVec.ofNat 64 (widthOf g)
  | 0x02 => BitVec.ofNat 64 g.grp
  | 0x03 => BitVec.ofNat 64 g.teamNo
  | 0x04 => BitVec.ofNat 64 g.gang
  | 0x05 => BitVec.ofNat 64 g.lane
  | 0x06 => BitVec.ofNat 64 g.core
  | 0x07 => BitVec.ofNat 64 g.die
  | 0x08 => g.active
  | 0x09 => zx64 g.role
  | 0x0A => zx64 g.jord
  | 0x0B => g.fmt
  | 0x0C => zx64 g.jx
  | 0x0D => BitVec.ofNat 64 (match g.frame with
    | some f => f.ridx
    | none => g.ridx)
  | 0x0E => BitVec.ofNat 64 g.xblk
  | 0x0F => BitVec.ofNat 64 ac
  | 0x10 => zx64 g.tcause
  | 0x11 => g.tpc
  | 0x12 => g.taddr
  | _ => 0

/-- Special registers of 64 bits (R59). -/
def specialWide (k : Nat) : Bool := [0x08, 0x0B, 0x0F, 0x11, 0x12].contains k

/-! ### Running an instruction -/

/-- An uncorrectable storage error in a register that a strand reads (R222). -/
def badReg (g : Group) (i : Nat) : Opnd × Nat → Bool
  | (.v k, n) => (List.range n).any (fun j => g.vPoison.contains (256 * i + k.toNat + j))
  | _ => false

/-- Commits strands in ascending order (R67): the group after the strands that completed, and the strand that
read a register with a storage error, if any. R222 gives such a read cause 0x20 of R67 in its strand, although R128 and
R156 say that these instructions never trap after their first strand: R222 is followed (DEDUCED, log entry 99). -/
def runStrands (srcs : List (Opnd × Nat)) (f : Nat → Group → Group) : List Nat → Group → Group × Option Nat
  | [], g => (g, none)
  | i :: t, g => if srcs.any (badReg g i) then (g, some i) else runStrands srcs f t (f i g)

/-- An instruction of registers only. It traps with cause 0x02 when its operands fail step 5 of R113; with
`U` = 1 it acts once (R43); with `U` = 0 it acts on each executing strand (R40, R67). -/
def runAlu (x : Fields) (ok : Bool) (srcs : List (Opnd × Nat)) (uni : Group → Group) (per : Nat → Group → Group)
    (s : State) : Result :=
  if ok then
    if x.u then finish (if holdsQ s.g x then uni s.g else s.g) s
    else match runStrands srcs per (execList s.g x) s.g with
      | (g, none) => finish g s
      | (g, some i) => trapped ⟨0x20, 4, none, i⟩ (setG g s)
  else trapped (wordTrap 0x02) s

/-- The same for a result of `n` registers computed from the group alone: `val g i` gives the words of D. -/
def runMap (x : Fields) (ok : Bool) (srcs : List (Opnd × Nat)) (val : Group → Nat → List Word) (s : State) : Result :=
  runAlu x ok srcs (fun g => writeUni g x.d (val g 0)) (fun i g => writeRegs g i x.d (val g i)) s

/-- The same for a predicate result. -/
def runPred (x : Fields) (ok : Bool) (srcs : List (Opnd × Nat)) (val : Group → Nat → Bool) (s : State) : Result :=
  runAlu x ok srcs (fun g => writePredUni g x.d (val g 0)) (fun i g => writePred g i x.d (val g i)) s

/-- A trap unless `ok` (R113). -/
def need (ok : Bool) (t : Trap) (s : State) (k : Result) : Result := if ok then k else trapped t s

end Sys2Proof.Machine
end

