-- ==== Sys2Proof/Machine/Flags.lean ====
section
/-! DEFINITION. The sticky flags of `JX` (R56) and the values of integer element types (R103, R129, R131). -/

namespace Sys2Proof.Machine

/-- Five flags in the order of a row of `JX`: bit 4 inexact, 3 underflow, 2 overflow, 1 divide-by-zero, 0 invalid
(R56). -/
abbrev Flags := BitVec 5

def flagInvalid : Flags := 1
def flagDivZero : Flags := 2
def flagOverflow : Flags := 4
def flagUnderflow : Flags := 8
def flagInexact : Flags := 16

/-- Raises flags in a row of `JX`; nothing but `JXC` clears one (R56). -/
def raise (row : Nat) (f : Flags) (g : Group) : Group := { g with jx := g.jx ||| (f.zeroExtend 20 <<< (5 * row)) }

/-- Raises flags in successive rows. -/
def raiseRows (row : Nat) : List Flags → Group → Group
  | [], g => g
  | f :: t, g => raiseRows (row + 1) t (raise row f g)

/-- Element width in bits (R103). -/
def elemWidth : Ty → Nat
  | .q4 => 4
  | .q8 | .n8 | .i8x4 | .n8x4 => 8
  | .f16 | .bf16 | .i16x2 | .n16x2 | .bf16x2 | .f16x2 => 16
  | .i64 | .n64 => 64
  | _ => 32

/-- Signed element types (R103). -/
def isSigned : Ty → Bool
  | .i32 | .i64 | .i16x2 | .i8x4 | .q8 | .q4 => true
  | _ => false

/-- 64-bit types, which name register pairs (R129). -/
def isWide : Ty → Bool
  | .i64 | .n64 => true
  | _ => false

/-- Registers an operand of a type takes. -/
def regCount (t : Ty) : Nat := if isWide t then 2 else 1

/-- Elements of a packed type in one register (R103). -/
def elemCount : Ty → Nat
  | .i16x2 | .n16x2 | .bf16x2 | .f16x2 => 2
  | .i8x4 | .n8x4 => 4
  | _ => 1

/-- A `w`-bit pattern as a signed or unsigned integer. -/
def patternVal (signed : Bool) (w x : Nat) : Int :=
  if signed && decide (2 ^ (w - 1) ≤ x) then (x : Int) - (2 ^ w : Nat) else (x : Int)

/-- A value modulo 2^w as a pattern. -/
def patternOf (w : Nat) (v : Int) : Nat := (v % (2 ^ w : Nat)).toNat

/-- Raw element `e` of a pattern. -/
def elemAt (t : Ty) (x e : Nat) : Nat := x / 2 ^ (elemWidth t * e) % 2 ^ elemWidth t

/-- `Val(x, e, TY)` (R131). -/
def elemVal (t : Ty) (x e : Nat) : Int := patternVal (isSigned t) (elemWidth t) (elemAt t x e)

/-- `Min(TY)` and `Max(TY)` (R131). -/
def tyMin (t : Ty) : Int := if isSigned t then -((2 ^ (elemWidth t - 1) : Nat) : Int) else 0
def tyMax (t : Ty) : Int := ((2 ^ (if isSigned t then elemWidth t - 1 else elemWidth t) : Nat) : Int) - 1

/-- Puts element patterns together, element 0 lowest (R103). -/
def joinElems (w : Nat) : List Nat → Nat
  | [] => 0
  | x :: t => x % 2 ^ w + 2 ^ w * joinElems w t

/-- A result for each element from its index. -/
def mapElems (t : Ty) (f : Nat → Int) : Nat :=
  joinElems (elemWidth t) ((List.range (elemCount t)).map (fun e => patternOf (elemWidth t) (f e)))

/-- An operand of an integer type as a pattern. -/
def readTy (t : Ty) (g : Group) (x : Fields) (i : Nat) (o : Opnd) : Nat :=
  if isWide t then (read64 g x i o).toNat else (read32 g x i o).toNat

/-- Operand B of an integer type as a pattern. -/
def readTyB (t : Ty) (g : Group) (x : Fields) (i : Nat) : Nat :=
  if isWide t then (readB64 g x i).toNat else (readB32 g x i).toNat

/-- The words of a result of a type. -/
def wordsTy (t : Ty) (n : Nat) : List Word := if isWide t then words64 (BitVec.ofNat 64 n) else [BitVec.ofNat 32 n]

end Sys2Proof.Machine
end

