-- ==== Sys2Proof/Machine/Float.lean ====
section
/-! DEFINITION. Floating-point values, rounding (R14 to R31) and the special functions (R29). Arithmetic is exact on
rationals and rounds once. -/

namespace Sys2Proof.Machine

/-- A floating-point format: precision, exponent range, exponent width, and its place in `FZI` and `FZO` (R14, R22). -/
structure Fmt where
  p : Nat
  emin : Int
  emax : Int
  ebits : Nat
  bit : Nat
  deriving DecidableEq, Repr

def fp32 : Fmt := ⟨24, -126, 127, 8, 0⟩
def fp16 : Fmt := ⟨11, -14, 15, 5, 1⟩
def bf16 : Fmt := ⟨8, -126, 127, 8, 2⟩

/-- An exact value: NaN, an infinity, or a sign and the rational n / d * 2^e (d is never 0). -/
inductive Ex where
  | nan
  | inf (neg : Bool)
  | num (neg : Bool) (n d : Nat) (e : Int)
  deriving DecidableEq, Repr

/-- An exact value with the flags raised on the way to it. -/
abbrev FV := Ex × Flags

/-- Fields of `FMT` (R22). -/
def fmtSat (f : DWord) : Bool := f.getLsbD 32
def fmtFzo (f : DWord) (k : Nat) : Bool := f.getLsbD (28 + k)
def fmtFzi (f : DWord) (k : Nat) : Bool := f.getLsbD (24 + k)

/-- The faults of R24 that hold for every instruction that reads `FMT`. -/
def fmtBad (f : DWord) : Bool :=
  f.extractLsb' 33 31 != 0 || f.getLsbD 31 || f.getLsbD 23 || f.getLsbD 19 || f.extractLsb' 14 2 != 0 ||
  f.extractLsb' 0 4 == 15 || f.extractLsb' 4 4 == 15 || f.extractLsb' 8 4 == 15 ||
  decide (5 ≤ (f.extractLsb' 16 3).toNat) || f.extractLsb' 12 2 == 3 || decide (5 ≤ (f.extractLsb' 20 3).toNat)

/-! ### Encodings (R14, R15) -/

/-- Exponent and fraction fields of a pattern. -/
def expField (f : Fmt) (x : Nat) : Nat := x / 2 ^ (f.p - 1) % 2 ^ f.ebits
def fracField (f : Fmt) (x : Nat) : Nat := x % 2 ^ (f.p - 1)
def signField (f : Fmt) (x : Nat) : Bool := decide (x / 2 ^ (f.p - 1 + f.ebits) % 2 = 1)

def isNaN (f : Fmt) (x : Nat) : Bool := expField f x == 2 ^ f.ebits - 1 && fracField f x != 0
def isSNaN (f : Fmt) (x : Nat) : Bool := isNaN f x && decide (fracField f x < 2 ^ (f.p - 2))
def isInf (f : Fmt) (x : Nat) : Bool := expField f x == 2 ^ f.ebits - 1 && fracField f x == 0
def isSub (f : Fmt) (x : Nat) : Bool := expField f x == 0 && fracField f x != 0
def isZero (f : Fmt) (x : Nat) : Bool := expField f x == 0 && fracField f x == 0

/-- The exact value of a pattern (R14). -/
def unpack (f : Fmt) (x : Nat) : Ex :=
  let s := signField f x
  if expField f x = 2 ^ f.ebits - 1 then (if fracField f x = 0 then .inf s else .nan)
  else if expField f x = 0 then .num s (fracField f x) 1 (f.emin - (f.p - 1 : Nat))
  else .num s (2 ^ (f.p - 1) + fracField f x) 1 (f.emin + (expField f x : Int) - 1 - (f.p - 1 : Nat))

/-- A source operand: flushed when `fz` (R28), with invalid for a signalling NaN (R16). -/
def source (f : Fmt) (fz : Bool) (x : Nat) : FV :=
  if fz && isSub f x then (.num (signField f x) 0 1 0, 0)
  else (unpack f x, if isSNaN f x then flagInvalid else 0)

/-- Sign bit of a format. -/
def signBit (f : Fmt) (neg : Bool) : Nat := if neg then 2 ^ (f.p - 1 + f.ebits) else 0

/-- Canonical NaN, infinities, largest finite value and zeros (R15). -/
def canonNaN (f : Fmt) : Nat := (2 ^ f.ebits - 1) * 2 ^ (f.p - 1) + 2 ^ (f.p - 2)
def infBits (f : Fmt) (neg : Bool) : Nat := signBit f neg + (2 ^ f.ebits - 1) * 2 ^ (f.p - 1)
def maxBits (f : Fmt) (neg : Bool) : Nat := signBit f neg + (2 ^ f.ebits - 1) * 2 ^ (f.p - 1) - 1
def zeroBits (f : Fmt) (neg : Bool) : Nat := signBit f neg

/-! ### Exact arithmetic -/

/-- n / d * 2^(e - l) as a numerator and a denominator. -/
def scaled (n d : Nat) (e l : Int) : Nat × Nat := (n * 2 ^ (e - l).toNat, d * 2 ^ (l - e).toNat)

/-- The negated value. -/
def negEx : Ex → Ex
  | .nan => .nan
  | .inf s => .inf (!s)
  | .num s n d e => .num (!s) n d e

def negV (a : FV) : FV := (negEx a.1, a.2)

/-- The exact product; infinity times zero is invalid (R162). -/
def mulV (a b : FV) : FV :=
  let f := a.2 ||| b.2
  match a.1, b.1 with
  | .nan, _ => (.nan, f)
  | _, .nan => (.nan, f)
  | .inf s, .inf t => (.inf (s != t), f)
  | .inf s, .num t n _ _ => if n = 0 then (.nan, f ||| flagInvalid) else (.inf (s != t), f)
  | .num s n _ _, .inf t => if n = 0 then (.nan, f ||| flagInvalid) else (.inf (s != t), f)
  | .num s n d e, .num t n' d' e' => (.num (s != t) (n * n') (d * d') (e + e'), f)

/-- The exact sum; a zero sum of unlike signs is +0, or −0 under RDN (R27); unlike infinities are invalid. -/
def addV (m : Nat) (a b : FV) : FV :=
  let f := a.2 ||| b.2
  match a.1, b.1 with
  | .nan, _ => (.nan, f)
  | _, .nan => (.nan, f)
  | .inf s, .inf t => if s = t then (.inf s, f) else (.nan, f ||| flagInvalid)
  | .inf s, .num .. => (.inf s, f)
  | .num .., .inf t => (.inf t, f)
  | .num s n d e, .num t n' d' e' =>
    let l := min e e'
    let x := n * d' * 2 ^ (e - l).toNat
    let y := n' * d * 2 ^ (e' - l).toNat
    if s = t then (.num s (x + y) (d * d') l, f)
    else if y < x then (.num s (x - y) (d * d') l, f)
    else if x < y then (.num t (y - x) (d * d') l, f)
    else (.num (m == 2) 0 1 0, f)

/-- The exact quotient (R162). -/
def divV (a b : FV) : FV :=
  let f := a.2 ||| b.2
  match a.1, b.1 with
  | .nan, _ => (.nan, f)
  | _, .nan => (.nan, f)
  | .inf _, .inf _ => (.nan, f ||| flagInvalid)
  | .inf s, .num t _ _ _ => (.inf (s != t), f)
  | .num s _ _ _, .inf t => (.num (s != t) 0 1 0, f)
  | .num s n d e, .num t n' d' e' =>
    if n' = 0 then
      if n = 0 then (.nan, f ||| flagInvalid) else (.inf (s != t), f ||| flagDivZero)
    else (.num (s != t) (n * d') (d * n') (e - e'), f)

/-- Multiplies by the exact weight ±a / b. -/
def weightV (neg : Bool) (a b : Nat) (x : FV) : FV := mulV (.num neg a b 0, 0) x

/-- The sign and the order of exact values, for comparisons: the difference's sign as -1, 0 or 1. -/
def cmpEx (a b : Ex) : Int :=
  match a, b with
  | .inf s, .inf t => if s = t then 0 else if s then -1 else 1
  | .inf s, _ => if s then -1 else 1
  | _, .inf t => if t then 1 else -1
  | .num s n d e, .num t n' d' e' =>
    let l := min e e'
    let x : Int := (n * d' * 2 ^ (e - l).toNat : Nat)
    let y : Int := (n' * d * 2 ^ (e' - l).toNat : Nat)
    let v := (if s then -x else x) - (if t then -y else y)
    if v < 0 then -1 else if 0 < v then 1 else 0
  | _, _ => 0

/-! ### Rounding (R26, R27) -/

/-- Whether a mode rounds the magnitude t + r / d up (R26). -/
def roundsUp (m : Nat) (neg : Bool) (t r d : Nat) : Bool :=
  match m with
  | 0 => decide (d < 2 * r) || (decide (2 * r = d) && decide (t % 2 = 1))
  | 2 => neg && decide (r ≠ 0)
  | 3 => !neg && decide (r ≠ 0)
  | 4 => decide (d ≤ 2 * r)
  | _ => false

/-- n / d * 2^e rounded to a multiple of 2^l: the multiple, and whether it is inexact. -/
def roundAt (m : Nat) (neg : Bool) (n d : Nat) (e l : Int) : Nat × Bool :=
  let (a, b) := scaled n d e l
  let t := a / b
  let r := a % b
  (if roundsUp m neg t r b then t + 1 else t, decide (r ≠ 0))

/-- floor(log2(n / d * 2^e)) of a positive value. -/
def floorLog (n d : Nat) (e : Int) : Int :=
  let l := (Nat.log2 n : Int) - Nat.log2 d + e
  let (a, b) := scaled n d e l
  if a < b then l - 1 else l

/-- The pattern of t * 2^(emin - (p - 1)) * 2^k with 2^(p-1) ≤ t < 2^p for k > 0. -/
def packBits (f : Fmt) (neg : Bool) (t : Nat) (k : Nat) : Nat := signBit f neg + t + k * 2 ^ (f.p - 1)

/-- What overflow gives (R27). -/
def overflowBits (f : Fmt) (m : Nat) (sat neg : Bool) : Nat :=
  if sat then maxBits f neg
  else match m with
  | 0 | 4 => infBits f neg
  | 2 => if neg then infBits f true else maxBits f false
  | 3 => if neg then maxBits f true else infBits f false
  | _ => maxBits f neg

/-- `Round` of a finite nonzero value (R27). -/
def roundNum (f : Fmt) (m : Nat) (sat fzo neg : Bool) (n d : Nat) (e : Int) : Nat × Flags :=
  let p1 : Int := (f.p - 1 : Nat)
  let l := floorLog n d e - p1
  let (t, ix) := roundAt m neg n d e l
  let top := if t = 2 ^ f.p then l + 1 else l
  if f.emax < top + p1 then (overflowBits f m sat neg, flagOverflow ||| flagInexact)
  else if f.emin ≤ top + p1 then
    let t := if t = 2 ^ f.p then 2 ^ (f.p - 1) else t
    (packBits f neg t (top + p1 - f.emin).toNat, if ix then flagInexact else 0)
  else
    let (z, ix) := roundAt m neg n d e (f.emin - p1)
    let fi : Flags := if ix then flagInexact else 0
    if z = 0 then (zeroBits f neg, fi ||| flagUnderflow)
    else if z < 2 ^ (f.p - 1) then
      if fzo then (zeroBits f neg, flagUnderflow ||| flagInexact)
      else (packBits f neg z 0, if ix then fi ||| flagUnderflow else fi)
    else (packBits f neg z 0, fi)

/-- `Round` (R27): pattern and flags of an exact value, those raised before it included. -/
def roundFV (f : Fmt) (m : Nat) (sat fzo : Bool) (x : FV) : Nat × Flags :=
  match x.1 with
  | .nan => (canonNaN f, x.2)
  | .inf s => (infBits f s, x.2)
  | .num s n d e =>
    if n = 0 then (zeroBits f s, x.2)
    else
      let (b, g) := roundNum f m sat fzo s n d e
      (b, x.2 ||| g)

/-- An exact value rounded to an integer under a mode: the integer and whether it is inexact (R30). -/
def roundToInt (m : Nat) (neg : Bool) (n d : Nat) (e : Int) : Int × Bool :=
  let (t, ix) := roundAt m neg n d e 0
  (if neg then -(t : Int) else (t : Int), ix)

/-! ### Special functions: fixed-point evaluation with 340 fraction bits (R29)

Each returns a value that is not a multiple of any rounding boundary and lies closer to the exact one than the exact
one lies to any boundary, so that rounding it rounds the exact value. -/

/-- Fraction bits. -/
def fixBits : Nat := 340

/-- One in fixed point. -/
def fixOne : Nat := 2 ^ fixBits

/-- floor(ln 2 * 2^340) and floor(π * 2^340). -/
def fixLn2 : Nat := 0xb17217f7d1cf79abc9e3b39803f2f6af40f343267298b62d8a0d175b8baafa2be7b876206debac9855955
def fixPi : Nat := 0x3243f6a8885a308d313198a2e03707344a4093822299f31d0082efa98ec4e6c89452821e638d01377be546

/-- A fixed-point value as an exact one that is no multiple of 2^-340. -/
def sticky (neg : Bool) (a : Nat) : Ex := .num neg (2 * a + 1) 1 (-(fixBits + 1 : Nat))

/-- Σ y^k / k! from term `t` at index `k`. -/
def expSum (y : Nat) : Nat → Nat → Nat → Nat
  | 0, _, _ => 0
  | fuel + 1, k, t => t + expSum y fuel (k + 1) (t * y / (fixOne * (k + 1)))

/-- e^y for 0 ≤ y < 1. -/
def fixExp (y : Nat) : Nat := expSum y 90 0 fixOne

/-- e^y for y ≥ 0. -/
def fixExpBig (y : Nat) : Nat :=
  let k := y / fixLn2
  fixExp (y - k * fixLn2) * 2 ^ k

/-- Σ s^(2j+1) / (2j+1). -/
def atanhSum (s2 : Nat) : Nat → Nat → Nat → Nat
  | 0, _, _ => 0
  | fuel + 1, k, t => t / k + atanhSum s2 fuel (k + 2) (t * s2 / fixOne)

/-- ln z for 1 ≤ z < 2. -/
def fixLn (z : Nat) : Nat :=
  let s := (z - fixOne) * fixOne / (z + fixOne)
  2 * atanhSum (s * s / fixOne) 120 1 s

/-- Alternating Σ y^(2j+1) / (2j+1)!, the sine of y. -/
def sinSum (y2 : Nat) : Nat → Nat → Nat → Int
  | 0, _, _ => 0
  | fuel + 1, k, t => (t : Int) - sinSum y2 fuel (k + 2) (t * y2 / (fixOne * ((k + 1) * (k + 2))))

/-- sin(π t) for a fixed-point t from 0 to 1/2. -/
def fixSinPi (t : Nat) : Nat :=
  let y := t * fixPi / fixOne
  (sinSum (y * y / fixOne) 60 1 y).toNat

/-- Integer square root by bits: the largest r with r * r ≤ n, r < 2^k. -/
def isqrt (n : Nat) : Nat → Nat → Nat
  | 0, r => r
  | k + 1, r => if (r + 2 ^ k) * (r + 2 ^ k) ≤ n then isqrt n k (r + 2 ^ k) else isqrt n k r

/-- The square root of n / d * 2^e with 80 or more significant bits, marked when inexact. -/
def rootEx (n d : Nat) (e : Int) : Ex :=
  let k : Int := 2 * ((200 + Nat.log2 d : Nat) : Int) + (if (e % 2 = 0) then 0 else 1)
  let a := n * 2 ^ k.toNat
  let q := a / d
  let r := isqrt q (Nat.log2 q / 2 + 1) 0
  let h := (e - k) / 2
  if r * r * d = a then .num false r 1 h else .num false (2 * r + 1) 1 (h - 1)

/-- A dyadic n * 2^e in fixed point; exact for e ≥ -340. -/
def toFix (n : Nat) (e : Int) : Nat := let (a, b) := scaled n 1 e (-(fixBits : Nat)); a / b

/-- exp2 of ±n * 2^e (finite). -/
def exp2Ex (neg : Bool) (n : Nat) (e : Int) : Ex :=
  let x := toFix n e
  if 300 * fixOne ≤ x then .num false 3 1 (if neg then -301 else 300)
  else
    let (i, fr) : Int × Nat :=
      if neg then (if x % fixOne = 0 then (-(x / fixOne : Nat), 0) else (-(x / fixOne : Nat) - 1, fixOne - x % fixOne))
      else ((x / fixOne : Nat), x % fixOne)
    if fr = 0 then .num false 1 1 i
    else .num false (2 * fixExp (fr * fixLn2 / fixOne) + 1) 1 (i - (fixBits + 1 : Nat))

/-- log2 of n * 2^e, n positive. -/
def log2Ex (n : Nat) (e : Int) : Ex :=
  let k := floorLog n 1 e
  let z := toFix n (e - k)
  let m := if z = fixOne then 0 else fixLn z * fixOne / fixLn2
  let v : Int := k * (fixOne : Int) + m
  if m = 0 then .num (decide (k < 0)) k.natAbs 1 0
  else if v < 0 then sticky true (v.natAbs - 1) else sticky false v.natAbs

/-- sin(π r) for fixed-point r in [0, 2), as sign, magnitude and whether it is exact. -/
def sinPiOf (r : Nat) : Bool × Nat × Bool :=
  let neg := decide (fixOne ≤ r)
  let t := if neg then r - fixOne else r
  let u := if fixOne < 2 * t then fixOne - t else t
  if u = 0 then (neg, 0, true) else if 2 * u = fixOne then (neg, fixOne, true) else (neg, fixSinPi u, false)

/-- sinpi of ±n * 2^e; the sign of a zero is the operand's. -/
def sinpiEx (neg : Bool) (n : Nat) (e : Int) : Ex :=
  let (s, a, exact) := sinPiOf (toFix n e % (2 * fixOne))
  if exact then (if a = 0 then .num neg 0 1 0 else .num (neg != s) 1 1 0) else sticky (neg != s) a

/-- cospi of ±n * 2^e. -/
def cospiEx (n : Nat) (e : Int) : Ex :=
  let (s, a, exact) := sinPiOf ((toFix n e % (2 * fixOne) + fixOne / 2) % (2 * fixOne))
  if exact then (if a = 0 then .num false 0 1 0 else .num s 1 1 0) else sticky s a

/-- tanh of ±n * 2^e, n positive. -/
def tanhEx (neg : Bool) (n : Nat) (e : Int) : Ex :=
  let x := toFix n e
  if x < 2 ^ (fixBits - 20) then .num neg (n * 2 ^ 60 - 1) 1 (e - 60)
  else if 64 * fixOne ≤ x then .num neg (2 ^ 100 - 1) 1 (-100)
  else sticky neg (fixOne - 2 * fixOne * fixOne / (fixExpBig (2 * x) + fixOne))

/-- sigmoid of ±n * 2^e, n positive. -/
def sigmEx (neg : Bool) (n : Nat) (e : Int) : Ex :=
  let x := toFix n e
  if 128 * fixOne ≤ x then (if neg then .num false 1 1 (-200) else .num false (2 ^ 100 - 1) 1 (-100))
  else
    let a := fixOne * fixOne / (fixExpBig x + fixOne)
    if neg then sticky false a else sticky false (fixOne - a)

/-- The special functions (R168). -/
inductive SFun where
  | rcp | sqrt | rsqrt | exp2 | log2 | sinpi | cospi | tanh | sigm
  deriving DecidableEq, Repr

/-- Value of a special function at 0, signed (R29). -/
def sfunZero (fn : SFun) (s : Bool) : FV :=
  match fn with
  | .rcp => (.inf s, flagDivZero)
  | .sqrt => (.num s 0 1 0, 0)
  | .rsqrt => (.inf s, flagDivZero)
  | .exp2 => (.num false 1 1 0, 0)
  | .log2 => (.inf true, flagDivZero)
  | .sinpi => (.num s 0 1 0, 0)
  | .cospi => (.num false 1 1 0, 0)
  | .tanh => (.num s 0 1 0, 0)
  | .sigm => (.num false 1 2 0, 0)

/-- Value of a special function at an infinity (R29). -/
def sfunInf (fn : SFun) (s : Bool) : FV :=
  match fn with
  | .rcp => (.num s 0 1 0, 0)
  | .sqrt => if s then (.nan, flagInvalid) else (.inf false, 0)
  | .rsqrt => if s then (.nan, flagInvalid) else (.num false 0 1 0, 0)
  | .exp2 => if s then (.num false 0 1 0, 0) else (.inf false, 0)
  | .log2 => if s then (.nan, flagInvalid) else (.inf false, 0)
  | .sinpi => (.nan, flagInvalid)
  | .cospi => (.nan, flagInvalid)
  | .tanh => (.num s 1 1 0, 0)
  | .sigm => if s then (.num false 0 1 0, 0) else (.num false 1 1 0, 0)

/-- Value of a special function at a finite nonzero ±n * 2^e (R29). -/
def sfunNum (fn : SFun) (s : Bool) (n : Nat) (e : Int) : FV :=
  match fn with
  | .rcp => (.num s 1 n (-e), 0)
  | .sqrt => if s then (.nan, flagInvalid) else (rootEx n 1 e, 0)
  | .rsqrt => if s then (.nan, flagInvalid) else (rootEx 1 n (-e), 0)
  | .exp2 => (exp2Ex s n e, 0)
  | .log2 => if s then (.nan, flagInvalid) else (log2Ex n e, 0)
  | .sinpi => (sinpiEx s n e, 0)
  | .cospi => (cospiEx n e, 0)
  | .tanh => (tanhEx s n e, 0)
  | .sigm => (sigmEx s n e, 0)

/-- A special function of a source operand: its exact value, or one that rounds as it does (R29). -/
def sfun (fn : SFun) (x : FV) : FV :=
  match x.1 with
  | .nan => (.nan, x.2)
  | .inf s => let (v, f) := sfunInf fn s; (v, x.2 ||| f)
  | .num s n _ e => if n = 0 then let (v, f) := sfunZero fn s; (v, x.2 ||| f) else let (v, f) := sfunNum fn s n e; (v, x.2 ||| f)

/-! ### Slice arithmetic (R233, R236) -/

/-- `SliceAdd` (R233). -/
def sliceAdd (a b : Nat) : Nat := (roundFV fp32 0 false false (addV 0 (unpack fp32 a, 0) (unpack fp32 b, 0))).1

/-- The choice of R89 between two patterns: whether A is chosen; none when both are NaNs. -/
def choose89 (f : Fmt) (max : Bool) (a b : Nat) : Option Bool :=
  if isNaN f a then (if isNaN f b then none else some false)
  else if isNaN f b then some true
  else
    let c := cmpEx (unpack f a) (unpack f b)
    let c := if c = 0 then (if signField f a && !signField f b then -1 else if !signField f a && signField f b then 1 else 0) else c
    some (if max then decide (0 ≤ c) else decide (c ≤ 0))

/-- `SliceMax` (R233, R89): the location's value against the operand. -/
def sliceMax (a b : Nat) : Nat :=
  match choose89 fp32 true a b with
  | none => canonNaN fp32
  | some true => a
  | some false => b

end Sys2Proof.Machine
end

