-- ==== Sys2Proof/Machine/Slice.lean ====
section
/-! DEFINITION. The home slices: bytes of HBM, write and read times, the lines that a slice's cache role holds, and errors
in them (R211, R290, R338, R339, R341 to R346). -/

namespace Sys2Proof.Machine

/-! ### Physical memory and the home slices -/

/-- The canonical form of memory: addresses strictly rising, and no byte listed that equals what an unlisted address reads
as. -/
def Memory.wf (m : List Host.Cell) : Bool := Sparse.wf (0 : Byte) m

/-- Owner and attribute of the frame of a physical address (R339, R425). -/
def frameOf (s : State) (pa : Nat) : FrameInfo := Sparse.get ⟨0, false⟩ (pa / 65536) s.frames

/-- `HomeSlice` (R338). -/
def homeSlice (pa : Nat) (intlv : Bool) : Nat :=
  if intlv then bitsAt pa 18 12 ^^^ bitsAt pa 25 19 ^^^ bitsAt pa 32 26 ^^^ bitsAt pa 38 33
  else 32 * bitsAt pa 38 37 + (bitsAt pa 16 12 ^^^ bitsAt pa 21 17 ^^^ bitsAt pa 26 22 ^^^ bitsAt pa 31 27 ^^^ bitsAt pa 35 32)

/-- The home slice of a 64-byte line. -/
def sliceOfLine (s : State) (line : Nat) : Nat := homeSlice (64 * line) (frameOf s (64 * line)).intlv

/-- The register of a way-group of a slice at reset (R342). -/
def WgCfg.reset : WgCfg := ⟨0xFFFF, false, 0, 0⟩

/-- The register of a way-group of a slice. -/
def wgOf (s : State) (slice wg : Nat) : WgCfg := Sparse.get WgCfg.reset (16 * slice + wg) s.wgcfg

/-- Byte of HBM at a physical address; a byte nothing has written reads as 0. -/
def memByte (s : State) (pa : Nat) : Byte := Sparse.get 0 pa s.mem

/-- `n` bytes from a physical address, ascending. -/
def memRead (s : State) (pa n : Nat) : List Byte := (List.range n).map (fun k => memByte s (pa + k))

/-- Writes bytes to ascending addresses of a table of bytes. -/
def putBytes (a : Nat) : List Byte → Sparse Byte → Sparse Byte
  | [], m => m
  | b :: t, m => putBytes (a + 1) t (Sparse.set 0 a b m)

/-- Line `b` lies whole within `n` bytes from an address. -/
def covers (pa n b : Nat) : Bool := decide (pa ≤ 64 * b) && decide (64 * b + 64 ≤ pa + n)

/-- The blocks that `f` selects are written whole: they lose their poison and have a new tag, in HBM and in what holds them (R346,
R425). -/
def renewBlocks (f : Nat → Bool) (s : State) : State :=
  { s with poison := s.poison.filter (fun b => !f b), tagFail := s.tagFail.filter (fun b => !f b)
           kv := s.kv.map (fun v => { v with bad := v.bad.filter (fun b => !f (1024 * v.frame + b)) })
           cached := updateWhere (fun e => f e.line) (fun e => { e with bad := false }) s.cached }

/-- Writes bytes to HBM and to the lines and copies that hold them. The history of a cell ends there. -/
def memWrite (pa : Nat) (bs : List Byte) (s : State) : State :=
  { renewBlocks (covers pa bs.length) s with
    mem := putBytes pa bs s.mem
    sums := s.sums.filter (fun c => !(decide (pa < 64 * c.1 + 64) && decide (64 * c.1 < pa + bs.length))) }

/-- Write and read time of a line (R211). -/
def wtsOf (s : State) (line : Nat) : Nat := Sparse.get 0 line s.wts
def rtsOf (s : State) (line : Nat) : Nat := Sparse.get 0 line s.rts

/-- The write time a write with timestamp `t` gives a line (R211). -/
def nextWts (s : State) (line t : Nat) : Nat := max (max (rtsOf s line + 1) (wtsOf s line + 1)) t

/-- Lines that `n` bytes from an address touch. -/
def linesOf (pa n : Nat) : List Nat := (List.range ((pa + n - 1) / 64 + 1 - pa / 64)).map (· + pa / 64)

/-- The newest write time of any line. -/
def newestWrite (s : State) : Nat := (s.wts.map (·.2)).foldl max 0

/-- Advances the write time of a line. -/
def touchWrite (t : Nat) (s : State) (line : Nat) : State := { s with wts := Sparse.set 0 line (nextWts s line t) s.wts }

/-- The 4-byte words that `n` bytes from an address touch lie from `pa / 4` on; they are no longer those of a team (R306). -/
def unsign (pa n : Nat) (s : State) : State :=
  { s with wrote := Sparse.drop (fun w => decide (pa < 4 * w + 4) && decide (4 * w < pa + n)) s.wrote }

/-- A write of a team at time `t` to a word that continues the writes `old`: none, unless it is an atomic (R296). -/
def signWord (tid t : Nat) (old : Sparse Nat) : Sparse Nat := Sparse.set 0 (tid + 1) (max t (Sparse.get 0 (tid + 1) old)) old

/-- Words that a team has written at the home slices, where they continue those of `old` (R296, R306). -/
def signAs (tid pa n : Nat) (old : Sparse (Sparse Nat)) (s : State) : State :=
  { s with wrote := (List.range ((pa + n - 1) / 4 + 1 - pa / 4)).foldl (fun t k =>
      Sparse.set [] (pa / 4 + k) (signWord tid (wtsOf s (pa / 64)) (Sparse.get [] (pa / 4 + k) old)) t) s.wrote }

/-- A read-modify-write performed at the home slices (R211), carrying timestamp `t`: it goes on the release sequences that it
finds (R296). -/
def sliceRmw (pa : Nat) (bs : List Byte) (t : Nat) (s : State) : State :=
  (linesOf pa bs.length).foldl (touchWrite t) (memWrite pa bs s)

/-- A write performed at the home slices (R211), carrying timestamp `t`. -/
def sliceWrite (pa : Nat) (bs : List Byte) (t : Nat) (s : State) : State := sliceRmw pa bs t (unsign pa bs.length s)

/-! ### The cache role (R341, R342, R344, R346) -/

/-- Lines that a way-group holds: 48 frames of 64 KiB (R341). -/
def linesPerWay : Nat := 49152

/-- The way-groups of a slice in which a line of a class may be allocated (R342, R344). -/
def cacheWays (s : State) (slice cls : Nat) : List Nat :=
  ((List.range 16).filter (fun w => (wgOf s slice w).role == 0 && !(wgOf s slice w).busy && (wgOf s slice w).clsm.getLsbD cls)).map
    (fun w => 16 * slice + w)

/-- The first place at or after `k` that is not used, among `n` + 1 tried. -/
def seekPlace (used : List Nat) : Nat → Nat → Nat
  | 0, k => k
  | n + 1, k => if used.contains k then seekPlace used n (k + 1) else k

/-- A line leaves the cache role: a dirty one is written to HBM, with its error as poison; a clean one is dropped (R341,
R346). -/
def spillLine (e : CacheLine) (s : State) : State :=
  { s with cached := s.cached.erase e
           poison := if e.bad && e.dirty && !s.poison.contains e.line then e.line :: s.poison else s.poison }

/-- A place for a line in one of some way-groups: a free one, or that of the least recently used line (R341; DESIGN CHOICE,
log entry 101: a way-group is one set). -/
def cachePlace (ways : List Nat) (s : State) : Option (Nat × Nat × State) :=
  let placesOf := fun (w : Nat) => (s.cached.filter (fun e => e.wg == w)).map (·.place)
  match ways.find? (fun w => decide ((placesOf w).length < linesPerWay)) with
  | some w => some (w, seekPlace (placesOf w) (placesOf w).length 0, s)
  | none => match s.cached.reverse.find? (fun e => ways.contains e.wg) with
    | none => none
    | some e => some (e.wg, e.place, spillLine e s)

/-- The engagement that owns the frame of a line, whose accesses alone hit it (R341, R425). -/
def lineOwner (s : State) (line : Nat) : Nat := (frameOf s (64 * line)).owner - 1

/-- A line of the cache role holds a line of HBM for an engagement: address and id match (R341). -/
def holdsLine (line eid : Nat) (e : CacheLine) : Bool := e.line == line && e.eid == eid

/-- An access performs on a line at its home slice (R341, R342, R344): a hit moves it to the most recently used place, or to
the least recently used one with `.sevict`; a miss allocates it where its class may stand. In a way-group that leaves the
cache role a write that hits goes through to HBM, and takes an error of a dirty line there. -/
def cacheTouch (eid cls : Nat) (dirty last : Bool) (s : State) (line : Nat) : State :=
  let put := fun (e : CacheLine) (l : List CacheLine) => if last then l ++ [e] else e :: l
  match s.cached.find? (holdsLine line eid) with
  | some e =>
    let through := (wgOf s (e.wg / 16) (e.wg % 16)).busy && dirty
    { s with cached := put { e with dirty := (e.dirty || dirty) && !through } (s.cached.erase e)
             poison := if through && e.dirty && e.bad && !s.poison.contains line then line :: s.poison else s.poison }
  | none => match cachePlace (cacheWays s (sliceOfLine s line) cls) s with
    | none => s
    | some (w, p, s) => { s with cached := put ⟨line, eid, cls, w, p, dirty, false⟩ s.cached }

/-- A complete copy in the KV reserve serves the accesses to a line (R393). -/
def serves (line : Nat) (v : KvCopy) : Bool := v.complete && v.frame == line / 1024

/-- A line holds an uncorrectable error where an access finds it: in the copy that serves it (R393), or else in the cache role or
in HBM. -/
def lineBad (s : State) (line : Nat) : Bool :=
  match s.kv.find? (serves line) with
  | some v => v.bad.contains (line % 1024)
  | none => s.poison.contains line || s.cached.any (fun e => holdsLine line (lineOwner s line) e && e.bad)

/-- A line is poisoned by a write: in the copy that serves it and in HBM (R343), where the cache role holds it, or in HBM. -/
def poisonLine (s : State) (line : Nat) : State :=
  if lineBad s line then s
  else
    let hbm := if s.poison.contains line then s.poison else line :: s.poison
    if s.kv.any (serves line) then
      { s with kv := updateWhere (serves line) (fun v => { v with bad := line % 1024 :: v.bad }) s.kv, poison := hbm }
    else if s.cached.any (holdsLine line (lineOwner s line)) then
      { s with cached := updateWhere (holdsLine line (lineOwner s line)) (fun e => { e with bad := true, dirty := true }) s.cached }
    else { s with poison := hbm }

/-- The tag of a line of HBM disagrees, and an access reads it there (R393, R425). -/
def tagBad (s : State) (line : Nat) : Bool := s.tagFail.contains line && !s.kv.any (serves line)

/-- Poison or a tag failure in the blocks of an access (R222, R425): cause and subcode. -/
def memError (s : State) (pa n : Nat) : Option (Nat × Nat) :=
  if (linesOf pa n).any (lineBad s) then some (0x20, 1)
  else if (linesOf pa n).any (tagBad s) then some (0x21, 0)
  else none

end Sys2Proof.Machine
end

