-- ==== Sys2Proof/Machine/Memory.lean ====
section
/-! DEFINITION. Memory: the access log, translation, the address spaces of a group, and the L1 with its leases (R206 to
R222, R319, R425, R428). -/

namespace Sys2Proof.Machine

/-- Time in µs since reset. -/
def nowUs (s : State) : Nat := s.sc / 1400

/-- An engagement's record. -/
def engOf (s : State) (eid : Nat) : Engagement := Sparse.get Engagement.free eid s.engs

/-! ### The access log (R428, R429) -/

/-- The agent field of a log entry for a group (R323, R428). -/
def agentOf (g : Group) : Nat := 2 ^ 28 + g.die * 2 ^ 26 + g.core * 2 ^ 20 + g.grp * 2 ^ 15

/-- The same field for a core, when no group of it stands behind an access. -/
def coreAgent (c : Nat) : Nat := 2 ^ 28 + c / 48 * 2 ^ 26 + c % 48 * 2 ^ 20

/-- The same field for `Charon` and `Halley`, and the store where it moves data for them (R323). -/
def charonAgent : Nat := 4 * 2 ^ 28

/-- An entry joins another: same agent, kind and unit within the same 4 KiB and µs. -/
def joins (e f : LogEntry) : Bool :=
  e.agent == f.agent && e.kind == f.kind && e.unit == f.unit && e.time == f.time && e.va.toNat / 4096 == f.va.toNat / 4096

/-- The log region is full (R429). -/
def logFull (n : Nat) : Bool := decide (4096 ≤ n) && decide (4096 + Config.logRoom ≤ n)

/-- The engagement's accesses wait when the log is full, rather than leave a gap (R424, R429). -/
def logStalls (s : State) (eid : Nat) : Bool := (engOf s eid).logp.getLsbD 8

/-- The kind of an entry that counts the entries dropped. -/
def gapKind : Nat := 7

/-- Appends or joins an entry. In a full log an entry of an engagement whose policy is gap is dropped and counted (R429). -/
def logEntry (e : LogEntry) (s : State) : State :=
  if s.log.any (joins e) then { s with log := updateWhere (joins e) (fun f => { f with count := f.count + 1 }) s.log }
  else if logFull s.log.length && !logStalls s e.eid then
    let gap := fun (f : LogEntry) => f.kind == gapKind && f.eid == e.eid
    if s.log.any gap then { s with log := updateWhere gap (fun f => { f with count := f.count + 1 }) s.log }
    else { s with log := s.log ++ [⟨e.time, 0, e.eid, gapKind, 0, 0, 0, 1⟩] }
  else { s with log := s.log ++ [e] }

/-- From `s` to `t` an entry was put into a full log whose engagement's policy is stall (R429). -/
def logStalled (s t : State) : Bool :=
  t.log.any (fun e => e.kind != gapKind && logStalls s e.eid && !s.log.contains e && !s.log.any (joins e)) && decide (0 < t.log.length) &&
  logFull (t.log.length - 1)

/-! ### Page tables (R217 to R221) -/

/-- Where an address leads: local store of a core, HBM, a peer window's leaf, an unmapped grow page read as zeros,
a grow page whose free list is empty, a frame in an untrained stack, no memory at all, or a trap. -/
inductive Place where
  | loc (core addr : Nat)
  | mem (pa : Nat)
  | peer (leaf : DWord)
  | zero
  | refill (die : Nat)
  | hold
  | hole
  | bad (cause sub : Nat)
  deriving DecidableEq, Repr

/-- A level of the walk: number, shift, index bits (R217). -/
structure Level where
  lev : Nat
  shift : Nat
  bits : Nat

/-- The five levels, root first (R217). -/
def levels : List Level := [⟨4, 48, 8⟩, ⟨3, 39, 9⟩, ⟨2, 30, 9⟩, ⟨1, 21, 9⟩, ⟨0, 16, 5⟩]

/-- Fields of a PTE (R218). -/
def pteAddr (e : DWord) : Nat := bitsAt e.toNat 51 8 * 256
def pteBit (e : DWord) (k : Nat) : Bool := e.getLsbD k
def pteCls (e : DWord) : Nat := bitsAt e.toNat 63 60

/-- Size of the table that a pointer at a level names (R217). -/
def nextTable (lev : Nat) : Nat := if lev = 1 then 256 else 4096

/-- A valid PTE is bad (R218, R422). -/
def pteBad (l : Level) (e : DWord) : Bool :=
  e.extractLsb' 56 4 != 0 || pteBit e 7 || pteBit e 2 ||
  (pteBit e 5 && pteBit e 4) || (pteBit e 6 && (l.lev != 1 || pteBit e 1)) ||
  (if pteBit e 1 then decide (3 ≤ l.lev) || (if pteBit e 55 then l.lev != 0 || pteBit e 5 || e.extractLsb' 8 8 != 0
      else decide (pteAddr e % 2 ^ l.shift ≠ 0))
   else l.lev == 0 || decide (pteAddr e % nextTable l.lev ≠ 0))

/-- What a walk finds: a leaf with its address and level shift, an unmapped grow page with the address of its entry
and its level-1 pointer, or a fault. -/
inductive Walked where
  | leaf (e : DWord) (at_ : Nat) (shift : Nat)
  | grow (parent : DWord) (at_ : Nat)
  | bad (cause sub : Nat)
  | hole
  deriving DecidableEq, Repr

/-- The walk from table `t` (R219), which reads the entry of a level at an address by `read`: `parent` is the level-1 pointer
when it has `GROW`. -/
def walkWith (read : Level → Nat → DWord) (va : Nat) : List Level → Nat → Option DWord → Walked
  | [], _, _ => .bad 0x08 0x02
  | l :: ls, t, parent =>
    let a := t + 8 * (va / 2 ^ l.shift % 2 ^ l.bits)
    if 2 ^ 39 ≤ a then .hole
    else
      let e := read l a
      if !pteBit e 0 then
        match parent with
        | some p => .grow p a
        | none => .bad 0x08 0x01
      else if pteBad l e then .bad 0x08 0x02
      else if pteBit e 1 then .leaf e a l.shift
      else walkWith read va ls (pteAddr e) (if l.lev = 1 && pteBit e 6 then some e else none)

/-- The PTE that memory holds at an address. -/
def readPte (s : State) (_ : Level) (a : Nat) : DWord := BitVec.ofNat 64 (leNat (memRead s a 8))

/-- The walk of the page table as memory holds it. -/
def walkFrom (s : State) (va : Nat) (ls : List Level) (t : Nat) (parent : Option DWord) : Walked :=
  walkWith (readPte s) va ls t parent

/-- A non-leaf entry that the walkers beneath a core may hold (R216). -/
def heldEntry (s : State) (c eid va : Nat) (l : Level) : Option WalkEntry :=
  (Sparse.get [] (c / 48) s.walkers).find? (fun w => w.eid == eid && w.lev == l.lev && w.path == va / 2 ^ l.shift)

/-- The PTE that a walk for a core reads: that of memory, or one its walkers still hold that memory no longer has (R216,
R221); how many the walkers hold is free. -/
def heldPte (s : State) (c : Option Nat) (eid va : Nat) (l : Level) (a : Nat) : DWord :=
  let e := readPte s l a
  match c.bind (fun c => heldEntry s c eid va l) with
  | none => e
  | some w => if w.entry != e && Config.walkHolds s.ctr l.lev then w.entry else e

/-- The non-leaf entries on a walk's way, as the walkers keep them. -/
def walkTrail (read : Level → Nat → DWord) (eid va : Nat) : List Level → Nat → List WalkEntry
  | [], _ => []
  | l :: ls, t =>
    let e := read l (t + 8 * (va / 2 ^ l.shift % 2 ^ l.bits))
    if pteBit e 0 && !pteBad l e && !pteBit e 1 then ⟨eid, l.lev, va / 2 ^ l.shift, e⟩ :: walkTrail read eid va ls (pteAddr e)
    else []

/-- The walkers of the die beneath a core keep the non-leaf entries that a walk read. -/
def keepTrail (c : Option Nat) (trail : List WalkEntry) (s : State) : State :=
  match c with
  | none => s
  | some c =>
    let fresh := fun (w : WalkEntry) => !trail.any (fun u => u.eid == w.eid && u.lev == w.lev && u.path == w.path)
    { s with walkers := Sparse.set [] (c / 48) (trail ++ (Sparse.get [] (c / 48) s.walkers).filter fresh) s.walkers }

/-- The class of a mapped address: `CLS` of its leaf (R218, R341). -/
def classAt (s : State) (eid : Nat) (va : DWord) : Nat :=
  match walkFrom s (va.toNat % 2 ^ 56) levels (engOf s eid).root none with
  | .leaf e _ _ => pteCls e
  | _ => 0

/-- An access goes between a core and what lies off it (R358). -/
def cross (s : State) : State := { s with traffic := s.traffic + 1 }

/-- The lines that `n` bytes at a mapped address touch are accessed at their home slices (R341). -/
def sliceTouch (va : DWord) (pa n : Nat) (dirty last : Bool) (s : State) : State :=
  let eid := (frameOf s pa).owner - 1
  (linesOf pa n).foldl (cacheTouch eid (classAt s eid va) dirty last) (cross s)

/-- The frame that holds a mapped page of an engagement. -/
def frameAt (s : State) (eid : Nat) (va : Nat) : Option Nat :=
  match walkFrom s va levels (engOf s eid).root none with
  | .leaf e _ shift => if pteBit e 55 then none else some ((pteAddr e + va % 2 ^ shift) / 65536)
  | _ => none

/-- A watch unit matches an access (R428): at a home slice, when the frame is one that its range is mapped to; at the port
(`pa` is none), when the address lies in its range. -/
def watchHits (s : State) (eid kind : Nat) (va : DWord) (pa : Option Nat) (n : Nat) (w : Watch) : Bool :=
  w.eid == eid && w.kinds.getLsbD kind && match pa with
    | none => decide (w.base.toNat < va.toNat + n) && decide (va.toNat < w.base.toNat + w.len)
    | some pa => (List.range (w.len / 65536)).any (fun k => frameAt s eid (w.base.toNat + 65536 * k) == some (pa / 65536))

/-- Notes an access of `n` bytes at the home slices, where it lies at `pa`, or at the port; kinds 0 to 4 are read, write,
atomic, command, port. -/
def note (agent eid kind : Nat) (va : DWord) (pa : Option Nat) (n : Nat) (s : State) : State :=
  (s.watches.filter (watchHits s eid kind va pa n)).foldl
    (fun s w => logEntry ⟨nowUs s, agent, eid, kind, w.unit, va, n, 1⟩ s) s

/-- The permission check of a leaf (R219). -/
def permFault (e : DWord) (acc : Acc) : Option Nat :=
  match acc with
  | .read => if pteBit e 3 then none else some 1
  | .write => if pteBit e 4 then none else some 2
  | .fetch => if pteBit e 5 then none else some 3

/-- Where a leaf leads: the checks of the frame (R338, R339, R425, R434). -/
def placeOf (s : State) (eid : Nat) (e : DWord) (shift : Nat) (va : DWord) : Place :=
  if pteBit e 55 then .peer e
  else
    let pa := pteAddr e + va.toNat % 2 ^ shift
    if 2 ^ 39 ≤ pa then .hole
    else if (frameOf s pa).owner ≠ 0 ∧ (frameOf s pa).owner ≠ eid + 1 then .bad 0x0A 0
    else if (frameOf s pa).intlv != pteBit e 52 then .bad 0x09 4
    else if s.phase < 4 then .hold
    else .mem pa

/-- Sets `A`, and `D` on a write, in the PTE at `a` (R218, R219). -/
def setAD (e : DWord) (a : Nat) (acc : Acc) (s : State) : State :=
  let e' := e ||| BitVec.ofNat 64 (2 ^ 53) ||| (if acc = .write then BitVec.ofNat 64 (2 ^ 54) else 0)
  if e' = e then s else sliceWrite a (leBytes 8 e'.toNat) 0 s

/-- Puts a translation at the front of a TLB of `n` entries, in place of the one for its page. -/
def tlbPut (n : Nat) (t : TlbEntry) (l : List TlbEntry) : List TlbEntry :=
  (t :: l.filter (fun u => !(u.eid == t.eid && u.vpage == t.vpage && u.shift == t.shift))).take n

/-- The set of a cluster TLB in which a translation stands: 1,024 entries in 128 sets of 8 (R216; DESIGN CHOICE, log entry 26: the
set is the page number modulo 128). -/
def tlbSet (t : TlbEntry) : Nat := t.vpage % 128

/-- Puts a translation into the cluster TLB: the one used longest ago leaves a full set of 8 ways (R216). -/
def setPut (t : TlbEntry) (l : List TlbEntry) : List TlbEntry :=
  let rest := l.filter (fun u => !(u.eid == t.eid && u.vpage == t.vpage && u.shift == t.shift))
  match (rest.filter (fun u => tlbSet u == tlbSet t))[7]? with
  | none => t :: rest
  | some u => t :: rest.erase u

/-- Puts a translation into the TLBs of a core, of its cluster and of its die (R216). -/
def tlbFill (c : Option Nat) (t : TlbEntry) (s : State) : State :=
  match c with
  | none => s
  | some c =>
    let s := modCore c (fun k => { k with tlb := tlbPut 64 t k.tlb }) s
    { s with clusterTlbs := Sparse.set [] (c / 8) (setPut t (Sparse.get [] (c / 8) s.clusterTlbs)) s.clusterTlbs
             dieTlbs := Sparse.set [] (c / 48) (tlbPut 2048 t (Sparse.get [] (c / 48) s.dieTlbs)) s.dieTlbs }

/-- Drops the translations that satisfy `f` from every TLB (R221). -/
def tlbDrop (f : TlbEntry → Bool) (s : State) : State :=
  let keep := fun (t : TlbEntry) => !f t
  let s := (s.cores.map (·.1)).foldl (fun s c => modCore c (fun k => { k with tlb := k.tlb.filter keep }) s) s
  { s with clusterTlbs := (s.clusterTlbs.map (fun e => (e.1, e.2.filter keep))).filter (fun e => e.2 != [])
           dieTlbs := (s.dieTlbs.map (fun e => (e.1, e.2.filter keep))).filter (fun e => e.2 != []) }

/-- Drops the non-leaf entries that satisfy `f` from every walkers' cache (R221). -/
def walkersDrop (f : WalkEntry → Bool) (s : State) : State :=
  { s with walkers := (s.walkers.map (fun e => (e.1, e.2.filter (fun w => !f w)))).filter (fun e => e.2 != []) }

/-- The level-0 PTE that the walker installs for a grow page on frame `f` (R220). -/
def growPte (parent : DWord) (f : Nat) : DWord :=
  (parent &&& BitVec.ofNat 64 (2 ^ 52 + 15 * 2 ^ 60)) ||| BitVec.ofNat 64 (2 ^ 54 + 2 ^ 53 + 0x1B + f * 65536)

/-- Maps a grow page (R220): takes a frame of the die's list and installs its PTE. -/
def growMap (c : Option Nat) (eid die : Nat) (parent : DWord) (a : Nat) (va : DWord) (s : State) : Place × State :=
  match Sparse.get [] (4 * eid + die) s.freeList with
  | [] => (.refill die, s)
  | f :: fs =>
    let e := growPte parent f
    let s := { s with freeList := Sparse.set [] (4 * eid + die) fs s.freeList
                      frames := Sparse.set ⟨0, false⟩ f ⟨eid + 1, pteBit parent 52⟩ s.frames }
    let s := sliceWrite a (leBytes 8 e.toNat) 0 s
    let s := tlbFill c ⟨eid, va.toNat / 65536, 16, e, true⟩ s
    (placeOf s eid e 16 va, s)

/-- The walk of R219 with its effects. -/
def walk (c : Option Nat) (eid die : Nat) (va : DWord) (acc : Acc) (s : State) : Place × State :=
  let s := if c.isSome then cross s else s
  let read := heldPte s c eid (va.toNat % 2 ^ 56)
  let keep := keepTrail c (walkTrail read eid (va.toNat % 2 ^ 56) levels (engOf s eid).root)
  match walkWith read (va.toNat % 2 ^ 56) levels (engOf s eid).root none with
  | .bad cause sub => (.bad cause sub, s)
  | .hole => (.hole, s)
  | .grow parent a =>
    let s := keep s
    match acc with
    | .read => (.zero, s)
    | .fetch => (.bad 0x08 0x01, s)
    | .write => growMap c eid die parent a va s
  | .leaf e a shift =>
    match permFault e acc with
    | some sub => (.bad 0x09 sub, s)
    | none =>
      let s := setAD e a acc (keep s)
      let s := tlbFill c ⟨eid, va.toNat / 2 ^ shift, shift, e, acc = .write || pteBit e 54⟩ s
      (placeOf s eid e shift va, s)

/-- The entry of a TLB for an address (R216). -/
def tlbHit (eid : Nat) (va : DWord) (l : List TlbEntry) : Option TlbEntry :=
  l.find? (fun t => t.eid == eid && t.vpage == va.toNat / 2 ^ t.shift)

/-- The TLB entry of a core for an address (R216). -/
def tlbFind (s : State) (c eid : Nat) (va : DWord) : Option TlbEntry := tlbHit eid va (coreAt s c).tlb

/-- The entry for an address in the TLB of a core's cluster, or else of its die (R216). -/
def tlbOuter (s : State) (c eid : Nat) (va : DWord) : Option TlbEntry :=
  match tlbHit eid va (Sparse.get [] (c / 8) s.clusterTlbs) with
  | some t => some t
  | none => tlbHit eid va (Sparse.get [] (c / 48) s.dieTlbs)

/-- The entry a translation finds, which every TLB it missed in takes over. -/
def tlbLook (c eid : Nat) (va : DWord) (s : State) : Option TlbEntry × State :=
  match tlbFind s c eid va with
  | some t => (some t, s)
  | none => match tlbOuter s c eid va with
    | some t => (some t, tlbFill (some c) t s)
    | none => (none, s)

/-- Translation of a global virtual address by an entry, or by a walk; a write through an entry without `D` walks again
(R216, R219). -/
def translateBy (c : Option Nat) (eid die : Nat) (va : DWord) (acc : Acc) (t : Option TlbEntry) (s : State) : Place × State :=
  match t with
  | none => walk c eid die va acc s
  | some t =>
    if acc = .write && !t.hasD then walk c eid die va acc s
    else match permFault t.leaf acc with
      | some sub => (.bad 0x09 sub, s)
      | none => (placeOf s eid t.leaf t.shift va, s)

/-- Translation of a global virtual address (R216, R219). -/
def translate (c : Option Nat) (eid die : Nat) (va : DWord) (acc : Acc) (s : State) : Place × State :=
  match c with
  | none => walk none eid die va acc s
  | some c => match tlbLook c eid va s with
    | (t, s) => translateBy (some c) eid die va acc t s

/-! ### Address spaces of a group (R206, R215, R225, R317, R319) -/

/-- A local-store address in a unit that a split change in progress moves (R207). -/
def inChange (s : State) (core addr : Nat) : Bool :=
  match (coreAt s core).splitTo with
  | none => false
  | some n =>
    let k := (coreAt s core).localUnits
    decide (min n k ≤ addr / 65536) && decide (addr / 65536 < max n k)

/-- An access to a place is refused while a local unit there changes role (R207). -/
def splitCheck (s : State) (p : Place) : Place :=
  match p with
  | .loc core addr => if inChange s core addr then .bad 0x08 5 else p
  | p => p

/-- Bytes of local store a team holds on each of its cores (R206). -/
def localSize (t : Team) : Nat := 65536 * t.units

/-- Where offset `o` of the team's window leads (R206, R317). -/
def windowAt (t : Team) (o : Nat) : Place :=
  let l := localSize t
  if 2 ^ 32 ≤ o || decide (l * t.cores.length ≤ o) then .bad 0x08 4
  else .loc (nth 0 t.cores (o / l)) (65536 * nth 0 t.locals (o / l) + o % l)

/-- The team's window at offset `o`. -/
def windowPlace (s : State) (t : Team) (o : Nat) : Place := splitCheck s (windowAt t o)

/-- The cluster (6 * die + cluster) of a core. -/
def clusterOf (core : Nat) : Nat := core / 8

/-- The gang of a launch on the device, by number. -/
def findGang (s : State) (launch gang : Nat) : Option Gang :=
  match findLaunch s launch with
  | none => none
  | some l => l.placed.find? (fun a => a.gang == gang)

/-- The cluster of the other half of a gang, seen from a core (R318, R319). -/
def otherHalf (s : State) (launch gang core : Nat) : Option Nat :=
  match findGang s launch gang with
  | none => none
  | some a => match a.half1 with
    | none => none
    | some h => some (if clusterOf core = a.half0 then h else a.half0)

/-- The team of a gang on a core. -/
def gangTeam (s : State) (launch gang core : Nat) : Option Team :=
  s.teams.find? (fun t => t.launch == launch && t.gang == gang && t.cores.contains core)

/-- The core that a pooled-window address selects, seen from `core` (R319). -/
def pooledCore (s : State) (launch gang core : Nat) (a : Nat) : Option Nat :=
  if bitsAt a 55 29 ≠ 0 ∨ bitsAt a 27 24 ≠ 0 ∨ bitsAt a 19 19 ≠ 0 ∨ 8 ≤ bitsAt a 23 20 then none
  else
    let half := if bitsAt a 28 28 = 0 then some (clusterOf core) else otherHalf s launch gang core
    half.map (fun h => 8 * h + bitsAt a 23 20)

/-- Where offset `o` in the allocation of a gang's team on a core leads (R319). -/
def pooledAt (s : State) (launch gang core o : Nat) : Place :=
  match gangTeam s launch gang core with
  | none => .bad 0x08 4
  | some t => if localSize t ≤ o then .bad 0x08 4 else .loc core (65536 * nth 0 t.locals (posIn t core) + o)

/-- Where an address of the gang's pooled window leads (R319). -/
def pooledTo (s : State) (launch gang core a : Nat) : Place :=
  match pooledCore s launch gang core a with
  | none => .bad 0x08 4
  | some c => pooledAt s launch gang c (a % 2 ^ 19)

/-- The gang's pooled window. -/
def pooledPlace (s : State) (launch gang core a : Nat) : Place := splitCheck s (pooledTo s launch gang core a)

/-- An access to another core's local store crosses the bus (R338, R358). -/
def crossTo (core : Nat) (r : Place × State) : Place × State :=
  match r.1 with
  | .loc c _ => (r.1, if c = core then r.2 else cross r.2)
  | _ => r

/-- The checks of R225 for one access of a group: space and window bounds, alignment, translation, permission and
frame. `glob` admits the global space alone (R235). -/
def resolve (g : Group) (va : DWord) (size : Nat) (acc : Acc) (glob : Bool) (s : State) : Place × State :=
  let top := va.toNat / 2 ^ 56
  let aligned := fun (r : Place × State) => match r.1 with
    | .bad _ _ => r
    | _ => if va.toNat % size = 0 then r else (.bad 0x0B 0, s)
  if top = 0xFF then
    if glob then (.bad 0x08 0x13, s)
    else match findTeam s g.tid with
      | none => (.bad 0x08 4, s)
      | some t => crossTo (coreNo g) (aligned (windowPlace s t (va.toNat % 2 ^ 56), s))
  else if top = 0xFE then
    if glob then (.bad 0x08 0x13, s)
    else crossTo (coreNo g) (aligned (pooledPlace s g.launch g.gang (coreNo g) (va.toNat % 2 ^ 56), s))
  else if top ≠ 0 then (.bad 0x08 3, s)
  else if va.toNat % size ≠ 0 then (.bad 0x0B 0, s)
  else translate (some (coreNo g)) g.eid g.die va acc s

/-! ### Local store (R206, R222) -/

/-- `n` bytes of a core's local store. -/
def localRead (s : State) (core addr n : Nat) : List Byte :=
  (List.range n).map (fun k => Sparse.get 0 (addr + k) (coreAt s core).store)

/-- The 4-byte words that `n` bytes from an address touch. -/
def wordsOver (addr n : Nat) : List Nat := (List.range ((addr + n - 1) / 4 + 1 - addr / 4)).map (· + addr / 4)

/-- Writes bytes to a core's local store; a word written whole loses its error. -/
def localWrite (core addr : Nat) (bs : List Byte) (s : State) : State :=
  modCore core (fun k => { k with store := putBytes addr bs k.store
                                  storeTimes := Sparse.drop (fun w => decide (addr < 4 * w + 4) && decide (4 * w < addr + bs.length)) k.storeTimes
                                  storePoison := k.storePoison.filter (fun w => !(decide (addr ≤ 4 * w) && decide (4 * w + 4 ≤ addr + bs.length))) }) s

/-- The time of a team's part in the writes that a word continues; with no team, the largest (R296, R306). -/
def signTime (tid : Option Nat) (e : Sparse Nat) : Nat :=
  match tid with
  | some t => Sparse.get 0 (t + 1) e
  | none => (e.map (·.2)).foldl max 0

/-- Local words that a team has just written with timestamp `t` carry it, beside those of the writes `old` that they continue, so
that an acquire that reads them learns it (R211, R296; DEDUCED, log entry 102). -/
def stampLocal (core addr n tid t : Nat) (old : Sparse (Sparse Nat)) (s : State) : State :=
  let sign := fun (m : Sparse (Sparse Nat)) (w : Nat) => Sparse.set [] w (signWord tid t (Sparse.get [] w old)) m
  modCore core (fun k => { k with storeTimes := (wordsOver addr n).foldl sign k.storeTimes }) s

/-- A write of a team to local store, with its timestamp. -/
def localStore (tid t core addr : Nat) (bs : List Byte) (s : State) : State :=
  stampLocal core addr bs.length tid t [] (localWrite core addr bs s)

/-- The same of an atomic, which goes on the release sequences that it finds (R296). -/
def localRmw (tid t core addr : Nat) (bs : List Byte) (s : State) : State :=
  stampLocal core addr bs.length tid t (coreAt s core).storeTimes (localWrite core addr bs s)

/-- The largest timestamp of some local words: of those that team `tid` wrote, when a team is given (R306). -/
def localTime (s : State) (tid : Option Nat) (core addr n : Nat) : Nat :=
  ((wordsOver addr n).map (fun w => signTime tid (Sparse.get [] w (coreAt s core).storeTimes))).foldl max 0

/-- An uncorrectable error in the local words of an access (R222). -/
def localError (s : State) (core addr n : Nat) : Bool :=
  (coreAt s core).storePoison.any (fun w => decide (addr < 4 * w + 4) && decide (4 * w < addr + n))

/-- An access to a place finds an uncorrectable error in local store: the core that holds it counts it (R222). -/
def countPlace (p : Place) (n : Nat) (s : State) : State :=
  match p with
  | .loc c a => if localError s c a n then countUncorrected c s else s
  | _ => s

/-! ### The L1 (R208 to R211) -/

/-- The word bits of `n` bytes at an offset of a line. -/
def wordMask (off n : Nat) : BitVec 16 := BitVec.ofNat 16 (2 ^ ((off + n - 1) / 4 + 1) - 2 ^ (off / 4))

/-- The eight-byte word bits of `n` bytes at an offset of a line. -/
def pairMask (off n : Nat) : BitVec 8 := BitVec.ofNat 8 (2 ^ ((off + n - 1) / 8 + 1) - 2 ^ (off / 8))

/-- A fresh line (R208). -/
def newLine (line eid : Nat) (va : DWord) : Line :=
  { line := line, eid := eid, va := va, valid := 0, dirty := 0, bad := 0, lost := 0, own := 0, data := [], writers := [], since := 0
    lease := 0, wts := 0, slot := none, touched := 0, stamp := 0, last := false, signed := [] }

/-- The line that a core holds of a physical line for an engagement (R208). -/
def findLine (k : Core) (line eid : Nat) : Option Line := k.lines.find? (fun l => l.line == line && l.eid == eid)

/-- Puts a line into a core, in place of the one with its address and engagement. -/
def putLine (l : Line) (k : Core) : Core :=
  { k with lines := l :: k.lines.filter (fun m => !(m.line == l.line && m.eid == l.eid)) }

/-- Length of a lease, period of a tick (R205). -/
def leaseOf (k : Core) : Nat := if k.lease = 0 then 256 else k.lease
def ageOf (k : Core) : Nat := if k.age = 0 then 256 else k.age

/-- The words of a line in HBM. -/
def memWords (s : State) (line : Nat) : List Word := wordsOf (memRead s (64 * line) 64)

/-- Copies the words of a mask into a line's data. -/
def takeWords (m : BitVec 16) (ws : List Word) (d : Sparse Word) : Sparse Word :=
  (List.range 16).foldl (fun d w => if m.getLsbD w then Sparse.set 0 w (nth 0 ws w) d else d) d

/-- Bytes `n` from an offset of a line. -/
def lineBytes (l : Line) (off n : Nat) : List Byte :=
  ((bytesOfWords ((List.range 16).map (fun w => Sparse.get 0 w l.data))).drop off).take n

/-- The smallest aligned block of eight-byte words that holds those of a mask (R209). -/
def fillBlock (m : BitVec 8) : BitVec 8 :=
  let fits := fun (b : Nat) => m &&& ~~~ (BitVec.ofNat 8 b) == 0
  (([0x01, 0x02, 0x04, 0x08, 0x10, 0x20, 0x40, 0x80, 0x03, 0x0C, 0x30, 0xC0, 0x0F, 0xF0, 0xFF].find? fits).map
    (BitVec.ofNat 8)).getD 0xFF

/-- The 4-byte words of a mask of eight-byte words. -/
def widen (m : BitVec 8) : BitVec 16 :=
  BitVec.ofNat 16 (((List.range 8).map (fun k => if m.getLsbD k then 3 * 4 ^ k else 0)).sum)

/-- An invalid word, or a clean one whose lease is over at clock `cc`, is among those needed (R208, R211). -/
def missing (l : Line) (need : BitVec 16) : Bool := need &&& ~~~l.valid != 0
def stale (l : Line) (need : BitVec 16) (cc : Nat) : Bool := need &&& l.valid &&& ~~~l.dirty != 0 && decide (l.lease < cc)

/-- A trip to the home slice for a line (R209, R211): its lease end is new. A renewal (`renew`) replaces every clean word; a fill
writes only invalid words of `fill`. -/
def trip (k : Core) (l : Line) (fill : BitVec 16) (renew : Bool) (s : State) : Line × State :=
  let w := wtsOf s l.line
  let lend := max k.cc w + leaseOf k
  let take := (fill &&& ~~~l.valid) ||| (if renew then l.valid &&& ~~~l.dirty else 0)
  ({ l with data := takeWords take (memWords s l.line) l.data, valid := l.valid ||| fill, lease := lend, wts := w
            lost := l.lost &&& ~~~take, own := l.own &&& l.dirty
            signed := (List.range 16).foldl (fun t k => if take.getLsbD k then Sparse.set [] k (Sparse.get [] (16 * l.line + k) s.wrote) t else t) l.signed },
   { s with rts := Sparse.set 0 l.line (max (rtsOf s l.line) lend) s.rts })

/-- The maximal runs of words of a mask: first word and number. -/
def runsOf (m : BitVec 16) : List (Nat × Nat) :=
  (List.range 16).filterMap (fun w =>
    if m.getLsbD w && !(decide (0 < w) && m.getLsbD (w - 1)) then
      some (w, ((List.range (16 - w)).find? (fun k => !m.getLsbD (w + k))).getD (16 - w))
    else none)

/-- Writes of teams that perform at time `t`. -/
def dated (t : Nat) (e : Sparse Nat) : Sparse Nat := e.map (fun x => (x.1, t))

/-- The home slice's words of a dirty line as they are written back at time `t` (R210): a line whose words are all dirty is written
whole. -/
def writeWords (t : Nat) (l : Line) (s : State) : State :=
  let s := if l.dirty == BitVec.allOnes 16 then renewBlocks (· == l.line) s else s
  (List.range 16).foldl (fun s w =>
    if l.dirty.getLsbD w then
      let s := memWrite (64 * l.line + 4 * w) (bytesOf (Sparse.get 0 w l.data)) s
      { s with wrote := Sparse.set [] (16 * l.line + w) (dated t (Sparse.get [] w l.signed)) s.wrote }
    else s) s

/-- Raises the `GWTS` of groups to `t`, and its part that their own teams' writes give to `own` (R237, R306). -/
def raiseGwts (gs : List Nat) (t : Nat) (own : Group → Nat) (s : State) : State :=
  modGroups (fun g => gs.contains g.gid) (fun g => { g with gwts := max g.gwts t, gwtsTeam := max g.gwtsTeam (own g) }) s

/-- The time of a group's team in the words of an access (R306). -/
def teamTime (tid : Nat) (signs : List (Sparse Nat)) : Nat := (signs.map (signTime (some tid))).foldl max 0

/-- The agent of a write-back: a group that wrote the words, or else the core (R428). -/
def writerOf (c : Nat) (l : Line) (s : State) : Nat :=
  match (allGroups s).find? (fun g => l.writers.contains g.gid) with
  | some g => agentOf g
  | none => coreAgent c

/-- Notes the words that a write-back writes (R428). -/
def noteWords (c : Nat) (l : Line) (s : State) : State :=
  (runsOf l.dirty).foldl (fun s r =>
    note (writerOf c l s) l.eid 1 (l.va + BitVec.ofNat 64 (4 * r.1)) (some (64 * l.line)) (4 * r.2) s) s

/-- A line after its dirty words have been written back at time `t`: they stay valid and become clean; a word with an
uncorrectable error is lost, whoever reads it (R210, R222). -/
def cleaned (t : Nat) (l : Line) : Line :=
  { l with dirty := 0, bad := l.bad &&& ~~~l.dirty, lost := l.lost ||| (l.bad &&& l.dirty), writers := [], stamp := 0, last := false, wts := max l.wts t
           signed := (List.range 16).foldl (fun m w => if l.dirty.getLsbD w then Sparse.set [] w (dated t (Sparse.get [] w l.signed)) m else m) l.signed }

/-- The dirty words of a line that a team has written, as far as their time goes (R306). -/
def teamWrote (l : Line) (t : Nat) (g : Group) : Nat :=
  if (List.range 16).any (fun w => l.dirty.getLsbD w && (Sparse.get [] w l.signed).any (fun e => e.1 == g.tid + 1)) then t else 0

/-- Writes back the dirty words of a line (R210, R211, R222); one with an uncorrectable error as poisoned, which is counted. -/
def writeBack (c : Nat) (l : Line) (s : State) : State :=
  if l.dirty = 0 then s
  else
    let t := nextWts s l.line l.stamp
    let s := touchWrite l.stamp (writeWords t l s) l.line
    let s := sliceTouch l.va (64 * l.line) 64 true l.last s
    let s := if l.bad &&& l.dirty != 0 then countUncorrected c (poisonLine s l.line) else s
    let s := raiseGwts l.writers t (teamWrote l t) s
    let s := noteWords c l s
    modCore c (putLine (cleaned t l)) s

/-- Writes back every line of a core that satisfies `f`. -/
def writeBackAll (c : Nat) (f : Line → Bool) (s : State) : State :=
  ((coreAt s c).lines.filter f).foldl (fun s l => writeBack c l s) s

/-- A core renews the lease of a line whose clean words it keeps (R209, R211): fresh data replaces them. A look-up may find
the lease renewed already (DEDUCED, log entry 113). The read is the core's own (R428). -/
def renewLine (c : Nat) (l : Line) (s : State) : State :=
  if l.valid &&& ~~~l.dirty == 0 || (memError s (64 * l.line) 64).isSome then s
  else
    let s := sliceTouch l.va (64 * l.line) 64 false false (note (coreAgent c) l.eid 0 l.va (some (64 * l.line)) 64 s)
    let (m, s) := trip (coreAt s c) l 0 true s
    modCore c (putLine m) s

/-- Evicts a line: its dirty words are written back and its footprint is kept (R209, R210). -/
def evictLine (c : Nat) (l : Line) (s : State) : State :=
  modCore c (fun k => { k with lines := k.lines.filter (fun m => !(m.line == l.line && m.eid == l.eid))
                               foot := match l.slot with
                                 | none => k.foot
                                 | some n => Sparse.set 0xFF n l.touched k.foot }) (writeBack c l s)

/-- A clean word of a line is the one that its home slice holds. -/
def currentWord (l : Line) (s : State) (w : Nat) : Bool :=
  !(l.valid &&& ~~~l.dirty).getLsbD w || Sparse.get 0 w l.data == nth 0 (memWords s l.line) w

/-- The clean words of a line are those that its home slice holds. -/
def current (l : Line) (s : State) : Bool := (List.range 16).all (currentWord l s)

/-- Two words of an aligned eight-byte word are not from one point of their coherence orders: one is a store of the core that has
not performed and the other is not, or one is a store of the core that performed beside a word that its home slice no longer
holds (R290). -/
def pairApart (l : Line) (s : State) (p : Nat) : Bool :=
  l.dirty.getLsbD (2 * p) != l.dirty.getLsbD (2 * p + 1) ||
  ((l.own &&& ~~~l.dirty).getLsbD (2 * p) || (l.own &&& ~~~l.dirty).getLsbD (2 * p + 1)) &&
    !(currentWord l s (2 * p) && currentWord l s (2 * p + 1))

/-- Makes a line of a core ready for a load of `n` bytes, each aligned eight of which read both words at one point of their
coherence orders: a line whose words are apart is evicted first (R290; DEDUCED, log entry 21). -/
def joinPairs (c : Nat) (l : Line) (need : BitVec 16) (n : Nat) (s : State) : Line × State :=
  if decide (8 ≤ n) && (List.range 8).any (fun p => need.getLsbD (2 * p) && pairApart l s p) then
    (newLine l.line l.eid l.va, evictLine c l s)
  else (l, s)

/-- Makes a line of a core ready for a fill, which gives all its words one lease end: a line with clean words that the home slice
no longer holds is evicted first, for they may not be read under the new one (R209, R211, R290, R302; DEDUCED, log
entry 21). -/
def roomFill (c : Nat) (l : Line) (s : State) : Line × State :=
  if current l s then (l, s) else (newLine l.line l.eid l.va, evictLine c l s)

/-- Lines that a core's L1 holds: 1,024 in each 64 KiB unit (R203, R205). -/
def l1Lines (k : Core) : Nat := 1024 * (8 - k.localUnits)

/-- Evicts the lines used longest ago until the rest fits into the L1 (R205, R210). -/
def fitL1 (c : Nat) (s : State) : State :=
  ((coreAt s c).lines.drop (l1Lines (coreAt s c))).foldl (fun s l => evictLine c l s) s

/-- Writes back a core's dirty words of a line and drops the words of a mask, before an operation at the home slice
on them (R232). -/
def flushWords (c line eid : Nat) (m : BitVec 16) (s : State) : State :=
  match findLine (coreAt s c) line eid with
  | none => s
  | some l =>
    let s := writeBack c l s
    modCore c (fun k => match findLine k line eid with
      | none => k
      | some l => putLine { l with valid := l.valid &&& ~~~m, lost := l.lost &&& ~~~m } k) s

/-- Drops the clean words of a core's line that lie among `n` bytes at a physical address (R299; DEDUCED, log entry 118): those
that a command of the core has just written at the home slice. -/
def loseClean (c eid pa n : Nat) (s : State) : State :=
  let hit := fun (l : Line) => BitVec.ofNat 16 (((List.range 16).map (fun w =>
    if pa < 64 * l.line + 4 * w + 4 ∧ 64 * l.line + 4 * w < pa + n then 2 ^ w else 0)).sum)
  let lose := fun (l : Line) => { l with valid := l.valid &&& (~~~(hit l) ||| l.dirty), lost := l.lost &&& ~~~(hit l) }
  if (coreAt s c).lines.any (fun l => l.eid == eid && decide (hit l ≠ 0)) then
    modCore c (fun k => { k with lines := updateWhere (fun l => l.eid == eid) lose k.lines }) s
  else s

/-- What a load returns: an error, or bytes with the write time they carry and, for each word, the teams whose writes it
continues. -/
inductive Loaded where
  | error (cause sub : Nat)
  | data (bs : List Byte) (wts : Nat) (signs : List (Sparse Nat))
  deriving DecidableEq, Repr

/-- Predictor entry of the instruction at a slot (R209). -/
def footSlot (g : Group) : Nat := (g.pc.toNat - g.base.toNat) / 12 % 512

/-- The line of a core for an access, or a new one (R208). -/
def lineFor (k : Core) (eid pa : Nat) (va : DWord) : Line :=
  (findLine k (pa / 64) eid).getD (newLine (pa / 64) eid (va &&& ~~~ (63 : DWord)))

/-- Clean words among those needed that hold an uncorrectable error are invalidated, so that they are fetched again (R222). -/
def dropBad (l : Line) (need : BitVec 16) : Line :=
  let lost := l.bad &&& ~~~l.dirty &&& need
  { l with valid := l.valid &&& ~~~lost, bad := l.bad &&& ~~~lost }

/-- An access has met a line: errors of clean words among those it needs are counted, and the words invalidated (R222). -/
def metLine (c : Nat) (l : Line) (need : BitVec 16) (s : State) : Line × State :=
  if l.bad &&& ~~~l.dirty &&& need != 0 then (dropBad l need, countUncorrected c (modCore c (putLine (dropBad l need)) s)) else (l, s)

/-- A read needs words of a line whose dirty value an error has taken: before they have been written back as poisoned, or after,
as long as the L1 holds them (R222). -/
def lineError (l : Line) (need : BitVec 16) (cc : Nat) : Bool :=
  l.bad &&& l.dirty &&& need != 0 || (l.lost &&& l.valid &&& need != 0 && !stale l need cc)

/-- A read that meets such words: those still dirty are written back as poisoned, which counts them (R222). -/
def meetError (c : Nat) (l : Line) (need : BitVec 16) (s : State) : State :=
  if l.bad &&& l.dirty &&& need != 0 then writeBack c l s else s

/-- The teams whose writes the words of an access to a line continue. -/
def lineSigns (l : Line) (off n : Nat) : List (Sparse Nat) := (wordsOver off n).map (fun w => Sparse.get [] w l.signed)

/-- A group has read words of a line: a dirty one it now counts as one that its later releases cover (DEDUCED, log entry 25). -/
def readBy (gid : Nat) (need : BitVec 16) (l : Line) : Line :=
  if l.dirty &&& need == 0 || l.writers.contains gid then l else { l with writers := gid :: l.writers }

/-- A load of `n` bytes through the L1 (R208, R209, R211, R222). A miss takes its fill block from the predictor entry of the
load that misses; the line keeps the entry that first filled it. -/
def l1Load (g : Group) (va : DWord) (pa n : Nat) (last : Bool) (s : State) : Loaded × State :=
  let c := coreNo g
  let k := coreAt s c
  let off := pa % 64
  let need := wordMask off n
  let (l, s) := metLine c (lineFor k g.eid pa va) need s
  let touch := fun (l : Line) (s : State) =>
    (Loaded.data (lineBytes l off n) l.wts (lineSigns l off n),
      raiseGwts [g.gid] l.wts (fun h => teamTime h.tid (lineSigns l off n))
        (fitL1 c (modCore c (putLine { readBy g.gid need l with touched := l.touched ||| pairMask off n }) s)))
  if lineError l need k.cc then (.error 0x20 2, meetError c l need s)
  else
    let (l, s) := joinPairs c l need n s
    if !missing l need && !stale l need k.cc then touch l s
    else match memError s pa n with
    | some (cause, sub) => (.error cause sub, s)
    | none =>
      let fill := if missing l need then widen (fillBlock (Sparse.get 0xFF (footSlot g) k.foot ||| pairMask off n)) else 0
      let renew := stale l need k.cc
      let s := sliceTouch va pa n false last (note (agentOf g) g.eid 0 va (some pa) n s)
      let (l, s) := if renew then (l, s) else roomFill c l s
      let slot := if fill == 0 then l.slot else some (l.slot.getD (footSlot g))
      let (l, s) := trip k { l with slot := slot } fill renew s
      touch l s

/-- A store of bytes through the L1 (R209, R227): a store of part of an invalid word takes a merging fill first. `last` is the hint
`.sevict` (R341). -/
def l1Store (g : Group) (va : DWord) (pa : Nat) (bs : List Byte) (stamp : Nat) (last : Bool) (s : State) : Option (Nat × Nat) × State :=
  let c := coreNo g
  let k := coreAt s c
  let off := pa % 64
  let need := wordMask off bs.length
  let part := decide (bs.length < 4)
  let l0 := lineFor k g.eid pa va
  let (l, s) := if part then metLine c l0 need s else (l0, s)
  let put := fun (l : Line) (s : State) =>
    let ws := wordsOf (let all := lineBytes l 0 64; all.take off ++ bs ++ all.drop (off + bs.length))
    fitL1 c (modCore c (putLine { l with data := takeWords need ws l.data, valid := l.valid ||| need, dirty := l.dirty ||| need
                                         bad := (if part then l.bad else l.bad &&& ~~~need), lost := l.lost &&& ~~~need
                                         own := l.own ||| need, last := last
                                         writers := if l.writers.contains g.gid then l.writers else g.gid :: l.writers
                                         since := if l.dirty = 0 then s.ac else l.since
                                         touched := l.touched ||| pairMask off bs.length, stamp := max l.stamp stamp
                                         signed := (wordsOver off bs.length).foldl (fun t w => Sparse.set [] w (signWord g.tid (max 1 stamp) []) t) l.signed }) s)
  if part && lineError l need k.cc then (some (0x20, 2), meetError c l need s)
  else if part && (missing l need || stale l need k.cc) then
    match memError s pa bs.length with
    | some e => (some e, s)
    | none =>
      let renew := stale l need k.cc
      let s := sliceTouch va pa bs.length false last (note (agentOf g) g.eid 0 va (some pa) bs.length s)
      let (l, s) := if renew then (l, s) else roomFill c l s
      let (l, s) := trip k l (widen (pairMask off bs.length)) renew s
      (none, put l (raiseGwts [g.gid] l.wts (fun h => teamTime h.tid (lineSigns l off bs.length)) s))
  else (none, put l s)

/-! ### Releases and acquires (R210, R211, R229, R237) -/

/-- A scope wider than the core for a team (R210). -/
def wider (s : State) (tid scope : Nat) : Bool :=
  decide (2 ≤ scope) || (decide (scope = 1) && match findTeam s tid with
    | none => false
    | some t => decide (1 < t.cores.length))

/-- Takes in the acknowledgements that a group still awaits (R237). -/
def absorbAcks (gid : Nat) (s : State) : State :=
  s.accs.foldl (fun s a => match a.kind with
    | .ack w => if a.group = gid then countDown a.team (raiseGwts [gid] w (fun _ => w) { s with accs := s.accs.filter (fun b => b.id != a.id) }) else s
    | _ => s) s

/-- Advances a core's clock to a time (R211). -/
def clockTo (c t : Nat) (s : State) : State := modCore c (fun k => { k with cc := max k.cc t }) s

/-- The lines with a dirty word that a group wrote. -/
def wroteLine (gid : Nat) (l : Line) : Bool := l.dirty != 0 && l.writers.contains gid

/-- A release at a scope (R210, R211): the timestamp T it gives to later writes, 0 within the core. -/
def release (g : Group) (scope : Nat) (s : State) : Nat × State :=
  if wider s g.tid scope then
    let s := absorbAcks g.gid (writeBackAll (coreNo g) (wroteLine g.gid) s)
    let t := match findGroup s g.gid with
      | none => g.gwts
      | some h => h.gwts
    (t, clockTo (coreNo g) t s)
  else (0, s)

/-- The largest write time that groups of an engagement on a core have met, acknowledgements on their way included. -/
def coreGwts (s : State) (c eid : Nat) : Nat :=
  let here := (allGroups s).filter (fun h => coreNo h == c && h.gid != 0 && h.eid == eid)
  max ((here.map (·.gwts)).foldl max 0)
    ((s.accs.map (fun a => match a.kind with
      | .ack w => if here.any (fun h => h.gid == a.group) then w else 0
      | _ => 0)).foldl max 0)

/-- The same of the groups of a team there, as far as their own team's writes go (R306). -/
def coreTeamGwts (s : State) (c tid : Nat) : Nat :=
  (((allGroups s).filter (fun h => coreNo h == c && h.gid != 0 && h.tid == tid)).map (·.gwtsTeam)).foldl max 0

/-- What the groups of a core have written counts from now on as written by one that has acquired on that core, so that its
later releases cover it (DEDUCED, log entry 25: happens-before is transitive, R301; the releases of R210 and R211 name the
group's own writes). -/
def takeOver (g : Group) (s : State) : State :=
  let c := coreNo g
  let mine := fun (l : Line) => if l.dirty != 0 && l.eid == g.eid && !l.writers.contains g.gid then { l with writers := g.gid :: l.writers } else l
  raiseGwts [g.gid] (coreGwts s c g.eid) (fun h => coreTeamGwts s c h.tid) (modCore c (fun k => { k with lines := k.lines.map mine }) s)

/-- A group knows from now on of the adds to exact-sum cells that `f` selects, by line, add and place: its later reads do not lack
them. -/
def learnAdds (gid : Nat) (f : Nat → CellAdd × Nat → Bool) (s : State) : State :=
  let mark := fun (line : Nat) (a : CellAdd × Nat) =>
    if f line a && !a.1.known.contains gid then { a.1 with known := gid :: a.1.known } else a.1
  { s with sums := s.sums.map (fun c => (c.1, { c.2 with adds := c.2.adds.zipIdx.map (mark c.1) })) }

/-- An acquire at a scope of a value written at `w`: the core's clock (R211), and what later releases of the group cover
(DEDUCED, R301). Beyond its team, every add to a cell that has performed may come before it (DEDUCED, log entry 120). -/
def acquire (g : Group) (scope w : Nat) (s : State) : State :=
  let s := takeOver g s
  let s := if wider s g.tid scope then clockTo (coreNo g) w (raiseGwts [g.gid] w (fun _ => if scope = 1 then w else 0) s) else s
  if 2 ≤ scope then learnAdds g.gid (fun _ _ => true) s else s

/-- The write time of a value as an acquire at a scope takes it: at `.team` that of a write made outside the team counts for
nothing (R306). -/
def timeAt (g : Group) (scope w : Nat) (signs : List (Sparse Nat)) : Nat := if scope = 1 then teamTime g.tid signs else w

/-- A new number for an access or an acceptance. -/
def takeFresh (s : State) : Nat × State := (s.fresh, { s with fresh := s.fresh + 1 })

/-- An access of a group leaves the core and awaits its acknowledgement (R230, R312). -/
def sendAcc (gid tid : Nat) (k : OutKind) (s : State) : State :=
  countUp tid { s with accs := s.accs ++ [⟨s.fresh, gid, tid, k⟩], fresh := s.fresh + 1 }

end Sys2Proof.Machine
end

