-- ==== Sys2Proof/Machine/Access.lean ====
section
/-! DEFINITION. Accesses by strands: loads, stores, prefetches, atomics, reductions and exact sums, the operations
at the home slices, fences, and the delivery of adds and reports (R223 to R238, R240, R250, R307, R309). -/

namespace Sys2Proof.Machine

/-! ### Reports and counter adds on their way -/

/-- Tells a group of a failure after acceptance (R250): it takes it at its next boundary; when the group has ended
its team ends. A saved group takes it once it is restored. -/
def report (gid cause sub : Nat) (pc addr : DWord) (s : State) : State :=
  let note := fun (g : Group) => { g with reports := g.reports ++ [⟨cause, sub + 128, pc, addr⟩] }
  match findGroup s gid with
  | none => modAny gid note s
  | some g =>
    if isOver g then
      match findTeam s g.tid with
      | none => s
      | some t => if t.terminated.isSome then s else endByReport g ⟨cause, sub + 128, some addr, 0⟩ pc s
    else modGroup gid note s

/-- The team that an add names, on the device. -/
def addTeam (s : State) (r : CtrAdd) : Option Team :=
  s.teams.find? (fun t => t.launch == r.launch && t.gang == r.gang && t.team == r.team)

/-- The core and the physical counter of an add in a team (R238, R316). -/
def addTarget (t : Team) (r : CtrAdd) : Nat × Nat :=
  let k := if r.odd then 1 else 0
  (nth 0 t.cores k, 16 * nth 0 t.ranges k + r.n)

/-- The context of the group that issued an add counts it as done (R312). -/
def addDone (r : CtrAdd) (s : State) : State :=
  match r.owner.bind (findGroup s) with
  | none => s
  | some g => settleTeam g.tid (countDown g.tid s)

/-- An add lands in a team's range: applied, and a saturation reported to the group that issued it (R240, R316). -/
def landAdd (t : Team) (r : CtrAdd) (s : State) : State :=
  let (c, m) := addTarget t r
  let sat := ctrOver (ctrAt s c m) r.amount
  let s := addCtr c m r.amount r.stamp r.signer r.src s
  match r.owner with
  | some gid => if sat then report gid 0x18 0 r.pc (counterRef c m) s else s
  | none => s

/-- The core that an add to an ended team names: the one it was sent to, or the one where the team stood (R383). -/
def lostCore (s : State) (r : CtrAdd) : Option Nat :=
  match r.dest with
  | some c => some c
  | none => (findLaunch s r.launch).bind (fun l => (assoc (16 * r.gang + r.team) l.stood).map (fun cs =>
      nth (cs.headD 0) cs (if r.odd then 1 else 0)))

/-- An add whose team has ended is discarded and counted in the core's error counts (R383). -/
def discardAdd (r : CtrAdd) (s : State) : State :=
  match lostCore s r with
  | some c => modCore c (fun k => { k with discarded := k.discarded + 1 }) s
  | none => s

/-- The header of a saved team's area on the core that an add names counts it among those held (R383, R384). -/
def countHeld (r : CtrAdd) (v : SavedGang) (s : State) : State :=
  match (v.teams.find? (fun t => t.team.team == r.team)).bind (fun t => (assoc (if r.odd then 1 else 0) t.areas).map (fun a => (t.team.eid, a.1))) with
  | none => s
  | some (eid, o) => match walk none eid 0 ((engOf s eid).cpool + BitVec.ofNat 64 (o + 32)) .write s with
    | (.mem pa, s) =>
      let va := (engOf s eid).cpool + BitVec.ofNat 64 (o + 32)
      sliceTouch va pa 8 true false (sliceWrite pa (leBytes 8 (leNat (memRead s pa 8) + 1)) 0 (note charonAgent eid 1 va (some pa) 8 s))
    | (_, s) => s

/-- An add that a saved team is meant by: it has been pre-empted and not yet restored (R383). -/
def heldFor (r : CtrAdd) (v : SavedGang) : Bool :=
  v.launch == r.launch && v.gang.gang == r.gang && v.teams.any (fun t => t.team.team == r.team)

/-- An add reaches its target (R240, R316, R383): applied, held for a team that is saved, or discarded and counted when
its team has ended. -/
def applyAdd (r : CtrAdd) (s : State) : State :=
  match addTeam s r with
  | some t => addDone r (landAdd t r s)
  | none =>
    match s.saved.find? (heldFor r) with
    | some v => addDone r (countHeld r v { s with saved := updateWhere (heldFor r) (fun v => { v with held := v.held ++ [r] }) s.saved })
    | none => addDone r (discardAdd r s)

/-! ### Operations at a home slice (R232 to R236, R356) -/

/-- Width of an atomic type in bytes (R231). -/
def atomBytes (t : Ty) : Nat := if isWide t then 8 else 4

/-- A pattern of a type as a number with its sign. -/
def atomVal (t : Ty) (x : Nat) : Int :=
  if t == .i32 || t == .i64 then (if x < 2 ^ (8 * atomBytes t - 1) then (x : Int) else x - 2 ^ (8 * atomBytes t)) else x

/-- The new value of an atomic location (R232, R233). -/
def atomNew (op : AtomOp) (t : Ty) (old operand expected : Nat) : Nat :=
  match op with
  | .add => if t == .f32 then sliceAdd old operand else (old + operand) % 2 ^ (8 * atomBytes t)
  | .min => if atomVal t operand < atomVal t old then operand else old
  | .max => if t == .f32 then sliceMax old operand else if atomVal t old < atomVal t operand then operand else old
  | .and => old &&& operand
  | .or => old ||| operand
  | .xor => old ^^^ operand
  | .exch => operand
  | .cas => if old = expected then operand else old

/-- The exact sum of a cell as a signed number (R235). -/
def cellSum (b : List Byte) : Int :=
  let n := leNat (b.take 48)
  if n < 2 ^ 383 then n else (n : Int) - 2 ^ 384

/-- The bytes of a cell (R235). -/
def cellBytes (sum : Int) (n spec : Nat) : List Byte :=
  leBytes 48 (sum % 2 ^ 384).toNat ++ leBytes 8 n ++ leBytes 1 spec ++ leBytes 7 0

/-- A finite FP32 value in units of 2^-149. -/
def fp32Units (x : Nat) : Int :=
  let e := expField fp32 x
  let m := if e = 0 then fracField fp32 x else (2 ^ 23 + fracField fp32 x) * 2 ^ (e - 1)
  if signField fp32 x then -(m : Int) else m

/-- `add` on a cell (R236). -/
def cellAdd (b : List Byte) (x : Nat) : List Byte :=
  let n := leNat ((b.drop 48).take 8)
  let spec := leNat ((b.drop 56).take 1)
  if n = 2 ^ 64 - 1 then cellBytes (cellSum b) n (spec % 16 ||| 8)
  else if isNaN fp32 x then cellBytes (cellSum b) (n + 1) (spec % 16 ||| 1)
  else if isInf fp32 x then cellBytes (cellSum b) (n + 1) (spec % 16 ||| (if signField fp32 x then 4 else 2))
  else cellBytes (cellSum b + fp32Units x) (n + 1) (spec % 16)

/-- `read` of a cell (R236). -/
def cellRead (b : List Byte) : Nat :=
  let spec := leNat ((b.drop 56).take 1)
  let has := fun (k : Nat) => decide (spec / 2 ^ k % 2 = 1)
  if has 0 || has 3 || (has 1 && has 2) then canonNaN fp32
  else if has 1 then infBits fp32 false
  else if has 2 then infBits fp32 true
  else
    let v := cellSum b
    (roundFV fp32 0 false false (.num (decide (v < 0)) v.natAbs 1 (-149), 0)).1

/-- Bytes that a slice operation covers. -/
def sliceBytes : SliceKind → Nat
  | .atom _ t _ _ => atomBytes t
  | .xadd _ => 64
  | .xclear => 64
  | .count _ => 8
  | .score _ => 4

/-- The bytes that a slice operation leaves at its location. -/
def sliceResult (k : SliceKind) (b : List Byte) : List Byte :=
  match k with
  | .atom op t x e => leBytes (atomBytes t) (atomNew op t (leNat b) x.toNat e.toNat)
  | .xadd x => cellAdd b x.toNat
  | .xclear => List.replicate 64 0
  | .count a => leBytes 8 (min (leNat b + a) (2 ^ 64 - 1))
  | .score a => leBytes 4 (min (leNat b + a) (2 ^ 32 - 1))

/-- A saturating add to a memory counter (R240). -/
def sliceOver (k : SliceKind) (b : List Byte) : Bool :=
  match k with
  | .count a => decide (2 ^ 64 - 1 < leNat b + a)
  | _ => false

/-- The teams whose writes the words of an access at the home slice continue (R296, R306). -/
def signersOf (s : State) (pa n : Nat) : List (Sparse Nat) := (wordsOver pa n).map (fun w => Sparse.get [] w s.wrote)

/-- The history of an exact-sum cell: that kept, or its present value. -/
def cellOf (s : State) (pa : Nat) : CellHistory :=
  (assoc (pa / 64) s.sums).getD ⟨memRead s pa 64, wtsOf s (pa / 64), signersOf s pa 64, []⟩

/-- An operation that has performed on a cell goes on with the history `h` when it is an add (R366). -/
def keepCell (r : SliceReq) (h : CellHistory) (s : State) : State :=
  match r.kind with
  | .xadd x =>
    { s with sums := assocSet (r.pa / 64) { h with adds := h.adds ++ [⟨[r.group], r.team, wtsOf s (r.pa / 64), x.toNat⟩] } s.sums }
  | _ => s

/-- A slice operation performs, indivisibly (R211, R232, R356, R428): the issuing core's words of the location are
written back and dropped, the location takes its new value and the write time advances. A poisoned block or one
whose tag fails stays as it is (DEDUCED, log entry 32). -/
def performSlice (r : SliceReq) (s : State) : State :=
  let n := sliceBytes r.kind
  let s := match findGroup s r.group with
    | none => s
    | some g => note (agentOf g) r.eid 2 r.va (some r.pa) n (flushWords (coreNo g) (r.pa / 64) r.eid (wordMask (r.pa % 64) n) s)
  let old := memRead s r.pa n
  if (memError s r.pa n).isSome then s
  else keepCell r (cellOf s r.pa)
    (signAs r.team r.pa n s.wrote (sliceWrite r.pa (sliceResult r.kind old) r.stamp (sliceTouch r.va r.pa n true r.last s)))

/-- A posted operation performs: its acknowledgement starts back, and a saturation is reported (R240, R250). -/
def finishPosted (r : SliceReq) (s : State) : State :=
  let sat := sliceOver r.kind (memRead s r.pa (sliceBytes r.kind))
  let s := performSlice r s
  let s := { s with accs := s.accs ++ [⟨s.fresh, r.group, r.team, .ack (wtsOf s (r.pa / 64))⟩], fresh := s.fresh + 1 }
  if sat then report r.group 0x18 0 r.pc r.va s else s

/-- A posted operation or add of a group that satisfies `f`. -/
def ownPosted (gid : Nat) (f : SliceReq → Bool) : Instr → Bool
  | .sliceOperation r => r.group == gid && f r
  | _ => false

/-- Performs a posted message now. -/
def performPosted (s : State) : Instr → State
  | .sliceOperation r => finishPosted r s
  | .counterAddArrival r => applyAdd r s
  | _ => s

/-- Performs, in order, the posted messages that satisfy `f`. -/
def performWhere (f : Instr → Bool) (s : State) : State :=
  (s.pending.filter f).foldl performPosted { s with pending := s.pending.filter (fun i => !f i) }

/-- Performs the group's posted operations on a line (program order to one location, R229, R234, R302). -/
def performOn (gid line : Nat) (s : State) : State := performWhere (ownPosted gid (fun r => r.pa / 64 == line)) s

/-- A message a group has posted. -/
def postedBy (gid : Nat) : Instr → Bool
  | .sliceOperation r => r.group == gid
  | .counterAddArrival r => r.owner == some gid
  | _ => false

/-- A release of a group at a scope (R210, R211, R237): everything it posted performs first. The group's number
names it, since the running group may have changed. -/
def releaseAll (gid scope : Nat) (s : State) : Nat × State :=
  let s := performWhere (postedBy gid) s
  match findGroup s gid with
  | none => (0, s)
  | some g => release g scope s

/-- An outstanding signal of a group to a peer that a release at `.sys` waits for (R310). -/
def peerPending (s : State) (gid : Nat) : Option Nat :=
  (s.accs.find? (fun a => a.group == gid && (match a.kind with | .peerAdd _ _ => true | _ => false))).map (·.id)

/-! ### One strand's access -/

/-- How a strand's access ends: done, with the write time of what it read; a trap; the group waits and the strand
executes again; or the address lies where no memory is. -/
inductive Access where
  | done (wts : Nat) (s : State)
  | trap (cause sub : Nat) (addr : Option DWord) (s : State)
  | wait (st : Status) (s : State)
  | hole
  deriving DecidableEq, Repr

/-- Runs strands in ascending order until one does not complete (R67): its number, the largest write time read, and
how the last one ended. -/
def runEach (f : Nat → State → Access) : List Nat → Nat → State → Nat × Nat × Access
  | [], w, s => (0, w, .done w s)
  | i :: t, w, s =>
    match f i s with
    | .done v s => runEach f t (max w v) s
    | a => (i, w, a)

/-- The running group keeps the largest write time that strands which have committed read (R67, R229). -/
def keepRead (w : Nat) (s : State) : State := setG { s.g with readTime := max s.g.readTime w } s

/-- Ends an instruction of strand accesses; `post` acts on what all its strands read (an acquire, R229), once every one of
them has. One that waits goes on with the strand that waits; with one execution for the group the resume index stays (R68). -/
def closeAccess (post : Nat → State → State) (r : Nat × Nat × Access) : Result :=
  match r with
  | (_, _, .done w s) => let s := post (max s.g.readTime w) s; finish s.g s
  | (i, w, .trap c sub a s) => trapped ⟨c, sub, a, i⟩ (keepRead w s)
  | (i, w, .wait st s) => let s := keepRead w s; .next (setG { s.g with status := st, ridx := max s.g.ridx i, midway := true } s)
  | (_, _, .hole) => .fault .noSuchPhysicalAddress

/-- The address of the memory form (R108). -/
def memAddr (g : Group) (x : Fields) (i : Nat) : DWord :=
  if x.a = .im 3 then g.pc + sx64 x.imm else read64 g x i x.a + sx64 (read32 g x i x.b)

/-- Hint `.byp` (R101). -/
def bypass (x : Fields) : Bool := x.ch == 3

/-- Hint `.sevict` (R101, R341). -/
def evictFirst (x : Fields) : Bool := x.ch == 5

/-- An ordering that releases, and one that acquires (R109). -/
def isRel (x : Fields) : Bool := x.e.getLsbD 7
def isAcq (x : Fields) : Bool := x.e.getLsbD 6

/-- Operand classes and registers of the memory form, step 5 (R108, R223): `code` admits the code-relative base, `nd`
and `nc` are the registers of D and C, 0 when unused. -/
def memOk (g : Group) (x : Fields) (code : Bool) (nd nc : Nat) : Bool :=
  let rel := x.a == .im 3
  !isLong x && (if rel then code else isS x.a || (isV x.a && !x.u)) &&
  (rel || isS x.b || isShort x.b || (isV x.b && !x.u)) &&
  (nd == 0 || isV x.d || (isS x.d && x.u)) && (nc == 0 || isS x.c || (isV x.c && !x.u)) &&
  regsOk g ((if rel then [] else [(x.a, 2), (x.b, 1)]) ++ (if nd = 0 then [] else [(x.d, nd)]) ++
    (if nc = 0 then [] else [(x.c, nc)]))

/-- Sources of the memory form. -/
def memSrcs (x : Fields) (nc : Nat) : List (Opnd × Nat) :=
  (if x.a == .im 3 then [] else [(x.a, 2), (x.b, 1)]) ++ (if nc = 0 then [] else [(x.c, nc)])

/-- The strands that execute: those of the guards, or one execution for the group with `U` = 1. -/
def memStrands (g : Group) (x : Fields) : List Nat :=
  if x.u then (if holdsQ g x then [0] else []) else execList g x

/-- The acquire of a memory instruction whose strands read a value written at `w` (R229). -/
def acquireRead (x : Fields) (w : Nat) (s : State) : State := if isAcq x then acquire s.g x.md.toNat w s else s

/-- Runs a memory instruction: `f stamp va i` is strand i's access at va, its writes carrying `stamp`. An instruction that
executes again and finds no strand left completes with the acquire of those that have committed. -/
def runMem (x : Fields) (ok : Bool) (srcs : List (Opnd × Nat)) (f : Nat → DWord → Nat → State → Access) (s : State) : Result :=
  need ok (wordTrap 0x02) s (
    let is := memStrands s.g x
    if is = [] then
      let s := if s.g.ridx = 0 then s else acquireRead x s.g.readTime s
      finish s.g s
    else match (if isRel x && x.md == 4 then peerPending s s.g.gid else none) with
      | some acc => .next (setG { s.g with status := .waitPeer acc } s)
      | none =>
        let r := if isRel x then releaseAll s.g.gid x.md.toNat s else (0, s)
        let stamp := max r.1 s.g.carry
        let one := fun (i : Nat) (s : State) =>
          if srcs.any (badReg s.g i) then Access.trap 0x20 4 none s else f stamp (memAddr s.g x i) i s
        closeAccess (acquireRead x) (runEach one is 0 r.2))

/-- A connection and window that a peer leaf names (R422). -/
def peerConn (leaf : DWord) : Nat := bitsAt leaf.toNat 51 44
def peerWindow (leaf : DWord) : Nat := bitsAt leaf.toNat 43 36
def peerOffset (leaf va : DWord) : Nat := bitsAt leaf.toNat 35 16 * 65536 + va.toNat % 65536

/-- Codes that say what a peer access does: read, write, add to a counter, and atomics with their type. -/
def peerRead : Nat := 0
def peerWrite : Nat := 1
def peerCount : Nat := 2
def peerAtom (op : AtomOp) (t : Ty) : Nat := 8 + atomOps.idxOf op + 16 * (tyCode t).toNat

/-- A link to a peer is up (R423). -/
def peerUp (s : State) (conn : Nat) : Bool := s.linkUp && s.conns.any (fun k => k.id == conn && k.peer)

/-- Sends an access to a peer (R423). -/
def peerSend (leaf va : DWord) (kind : Nat) (bytes : List Byte) (k : OutKind) (s : State) : State :=
  let id := s.fresh
  let s := note (agentOf s.g) s.g.eid 4 va none bytes.length s
  sendAcc s.g.gid s.g.tid k
    { s with out := .peerAccess id (peerConn leaf) (peerWindow leaf) (peerOffset leaf va) kind bytes :: s.out }

/-- A strand's access to a peer: the group waits for the answer. -/
def peerWait (leaf va : DWord) (kind : Nat) (bytes : List Byte) (k : OutKind) (s : State) : Access :=
  if peerUp s (peerConn leaf) then .wait (.waitPeer s.fresh) (peerSend leaf va kind bytes k s)
  else .trap 0x08 0x18 (some va) s

/-- An atomic that takes part in the strong order (R298). -/
def isStrong (x : Fields) : Bool := isRel x && isAcq x && decide (3 ≤ x.md.toNat)

/-- The time that a strong atomic takes from those before it, beside the one `w` it reads (R298; DEDUCED, log entry 119). -/
def strongSeen (x : Fields) (w : Nat) (s : State) : Nat := if isStrong x then max w s.strong else w

/-- A strong atomic of time `t`, of what it carries and of what it acquires, goes into the strong order. -/
def inStrong (x : Fields) (t : Nat) (s : State) : State := if isStrong x then { s with strong := max s.strong t } else s

/-- The scope at which a memory instruction acquires, and whether it is a strong atomic. -/
def acqScope (x : Fields) : Option (Nat × Bool) := if isAcq x then some (x.md.toNat, isStrong x) else none

/-- What the access of strand `i` does where its address leads to no memory of this device. -/
def badPlace (va : DWord) (i : Nat) (p : Place) (s : State) : Access :=
  match p with
  | .refill die => .wait (.waitGrow die va i) s
  | .hold => .wait .waitTraining s
  | .bad cause sub => .trap cause sub (some va) s
  | .peer _ => .trap 0x08 0x13 (some va) s
  | _ => .hole

/-! ### LD and ST (R224 to R227) -/

/-- Registers of an `LD` or `ST`. -/
def memRegs (t : Ty) (x : Fields) : Nat := if isWide t then 2 * 2 ^ countOf x else 2 ^ countOf x

/-- Access size S of `LD` and `ST` (R224). -/
def memBytes (t : Ty) (x : Fields) : Nat :=
  match t with
  | .n8 | .q8 => 1
  | .f16 | .bf16 => 2
  | _ => 4 * memRegs t x

/-- The registers an `LD` writes (R224). -/
def loadWords (t : Ty) (b : List Byte) : List Word :=
  match t with
  | .n8 => [(nth 0 b 0).zeroExtend 32]
  | .q8 => [(nth 0 b 0).signExtend 32]
  | .f16 | .bf16 => [BitVec.ofNat 32 (leNat b)]
  | _ => wordsOf b

/-- Commits a result: to the strand, or once for the group (R43, R226). -/
def commitRegs (x : Fields) (i : Nat) (ws : List Word) (s : State) : State :=
  setG (if x.u then writeUni s.g x.d ws else writeRegs s.g i x.d ws) s

/-- The running group has read a cell: it knows from now on of the adds to it that `f` selects (R302). -/
def learn (pa : Nat) (f : CellAdd × Nat → Bool) (s : State) : State := learnAdds s.g.gid (fun line a => line == pa / 64 && f a) s

/-- `n` bytes at the home slice past the L1, after the core's own dirty words of the line are written back: `seen` gives the bytes
with their write time and writers. The L1 keeps no older value of them, so that a later load reads no earlier write (R229,
R302). -/
def slowReadBy (seen : State → List Byte × Nat × List (Sparse Nat)) (va : DWord) (pa n kind : Nat) (last : Bool) (s : State) :
    Loaded × State :=
  let s := performOn s.g.gid (pa / 64) s
  let s := flushWords (coreNo s.g) (pa / 64) s.g.eid (wordMask (pa % 64) n) s
  match memError s pa n with
  | some (c, sub) => (.error c sub, s)
  | none =>
    let (b, w, signs) := seen s
    (.data b w signs, raiseGwts [s.g.gid] w (fun h => teamTime h.tid signs)
      (note (agentOf s.g) s.g.eid kind va (some pa) n (sliceTouch va pa n false last s)))

/-- What the home slice holds. -/
def slowRead (va : DWord) (pa n kind : Nat) (s : State) : Loaded × State :=
  slowReadBy (fun s => (memRead s pa n, wtsOf s (pa / 64), signersOf s pa n)) va pa n kind false s

/-- A group has read local words: a later fence acquires what they carry (R297). -/
def seeLocal (c a n : Nat) (s : State) : State :=
  raiseGwts [s.g.gid] (localTime s none c a n) (fun h => localTime s (some h.tid) c a n) s

/-- An access that finds an uncorrectable error in local store traps (R222). -/
def localTrap (va : DWord) (c a n : Nat) (s : State) : Access := .trap 0x20 3 (some va) (countPlace (.loc c a) n s)

/-- The timestamp that a read of local words takes at a scope (R306). -/
def localSeen (g : Group) (scope c a n : Nat) (s : State) : Nat := localTime s (if scope = 1 then some g.tid else none) c a n

/-- One strand of `LD` (R226). -/
def loadOne (t : Ty) (x : Fields) (_stamp : Nat) (va : DWord) (i : Nat) (s : State) : Access :=
  let n := memBytes t x
  match resolve s.g va n .read false s with
  | (.loc c a, s) => if localError s c a n then localTrap va c a n s
    else .done (localSeen s.g x.md.toNat c a n s) (commitRegs x i (loadWords t (localRead s c a n)) (seeLocal c a n s))
  | (.zero, s) => .done 0 (commitRegs x i (loadWords t (List.replicate n 0)) s)
  | (.mem pa, s) =>
    let r := if bypass x then slowRead va pa n 0 s
      else let s := performOn s.g.gid (pa / 64) s; l1Load s.g va pa n (evictFirst x) s
    match r with
    | (.error c sub, s) => .trap c sub (some va) s
    | (.data b w by_, s) => .done (timeAt s.g x.md.toNat w by_) (commitRegs x i (loadWords t b) (learn pa (fun _ => true) s))
  | (.peer leaf, s) => peerWait leaf va peerRead (List.replicate n 0) (.peer va i x.u x.d t (memRegs t x) true (acqScope x)) s
  | (p, s) => badPlace va i p s

/-- `LD` (R226). -/
def execLd (t : Ty) (x : Fields) (s : State) : Result :=
  runMem x (memOk s.g x true (memRegs t x) 0) (memSrcs x 0) (loadOne t x) s

/-- The data of a strand's store, or of an atomic: `n` registers of C. -/
def dataRegs (g : Group) (x : Fields) (i n : Nat) : List Word :=
  match x.c with
  | .v k => (List.range n).map (fun j => vGet g i (k.toNat + j))
  | .s k => (List.range n).map (fun j => sGet g (k.toNat + j))
  | _ => []

/-- A write past the L1, performed at the home slice; its acknowledgement is awaited (R211, R230, R290). -/
def slowWrite (va : DWord) (pa : Nat) (bs : List Byte) (stamp : Nat) (s : State) : State :=
  let s := performOn s.g.gid (pa / 64) s
  let s := flushWords (coreNo s.g) (pa / 64) s.g.eid (wordMask (pa % 64) bs.length) s
  let s := sliceWrite pa bs stamp (note (agentOf s.g) s.g.eid 1 va (some pa) bs.length (sliceTouch va pa bs.length true false s))
  let s := signAs s.g.tid pa bs.length [] s
  sendAcc s.g.gid s.g.tid (.ack (wtsOf s (pa / 64))) s

/-- One strand of `ST` (R227). -/
def storeOne (t : Ty) (x : Fields) (stamp : Nat) (va : DWord) (i : Nat) (s : State) : Access :=
  let bs := (bytesOfWords (dataRegs s.g x i (memRegs t x))).take (memBytes t x)
  match resolve s.g va bs.length .write false s with
  | (.loc c a, s) => .done 0 (localStore s.g.tid stamp c a bs s)
  | (.mem pa, s) =>
    if bypass x then .done 0 (slowWrite va pa bs stamp s)
    else
      let s := performOn s.g.gid (pa / 64) s
      match l1Store s.g va pa bs stamp (evictFirst x) s with
      | (some (c, sub), s) => .trap c sub (some va) s
      | (none, s) => .done 0 s
  | (.peer leaf, s) => peerWait leaf va peerWrite bs (.peer va i x.u x.d t 0 false none) s
  | (p, s) => badPlace va i p s

/-- `ST` (R227). -/
def execSt (t : Ty) (x : Fields) (s : State) : Result :=
  runMem x (memOk s.g x false 0 (memRegs t x)) (memSrcs x (memRegs t x)) (storeOne t x) s

/-! ### PREF (R228) -/

/-- A prefetch reads a line at its home slice (R428). -/
def prefetchRead (p : Prefetch) (eid : Nat) (va : DWord) (pa : Nat) (s : State) : State :=
  sliceTouch va pa 1 false (p.hint == 5) (note p.agent eid 0 (va &&& ~~~ (63 : DWord)) (some (64 * (pa / 64))) 64 s)

/-- Brings the missing words of a line into the L1 of a core. -/
def prefetchLine (p : Prefetch) (c eid : Nat) (va : DWord) (pa : Nat) (s : State) : State :=
  let l := lineFor (coreAt s c) eid pa va
  if l.valid == BitVec.allOnes 16 then s
  else
    let (l, s) := roomFill c l (prefetchRead p eid va pa s)
    let (l, s) := trip (coreAt s c) { l with slot := some (l.slot.getD p.slot) } (BitVec.allOnes 16) false s
    fitL1 c (modCore c (putLine l) s)

/-- Requests a line into the L1, or with `.skeep` or `.sevict` into the cache role of its home slice. -/
def prefetchTo (p : Prefetch) (c eid : Nat) (va : DWord) (pa : Nat) (s : State) : State :=
  if (memError s (64 * (pa / 64)) 64).isSome then s
  else if p.hint == 4 || p.hint == 5 then prefetchRead p eid va pa s
  else prefetchLine p c eid va pa s

/-- One strand of `PREF`: a page that no TLB holds is sent to a walker, and the line is requested behind it; no address and no
source traps, at no alignment (DESIGN CHOICE, log entry 142: R228 gives `PREF` no access size). -/
def prefOne (x : Fields) (_stamp : Nat) (va : DWord) (i : Nat) (s : State) : Access :=
  let p : Prefetch := ⟨x.ch, footSlot s.g, agentOf s.g⟩
  let c := coreNo s.g
  if !x.u && (memSrcs x 0).any (badReg s.g i) then .done 0 (countUncorrected c s)
  else if va.toNat / 2 ^ 56 ≠ 0 then .done 0 s
  else match tlbLook c s.g.eid va s with
    | (none, s) => .done 0 { s with pending := s.pending ++ [.pageWalk ⟨c, s.g.eid, va, .read, some p⟩] }
    | (some t, s) => match permFault t.leaf .read, placeOf s s.g.eid t.leaf t.shift va with
      | none, .mem pa => .done 0 (prefetchTo p c s.g.eid va pa s)
      | _, _ => .done 0 s

/-- `PREF` (R228). -/
def execPref (x : Fields) (s : State) : Result :=
  runMem x (memOk s.g x true 0 0) [] (prefOne x) s

/-- The walk of a page for a core (R219, R220): it sets `A` and `D`, maps a grow page and fills the core's TLB; what
it refuses is raised by the access that needs it. A line prefetched through the page is then requested (R228). -/
def execPageWalk (w : WalkReq) (s : State) : Result :=
  match walk (some w.core) w.eid (w.core / 48) w.va w.acc s, w.pref with
  | (.mem pa, s), some p => .next (prefetchTo p w.core w.eid w.va pa s)
  | (_, s), _ => .next s

/-! ### ATOM, RED and XSUM (R231 to R236) -/

/-- Registers of an atomic type. -/
def atomRegs (t : Ty) : Nat := if isWide t then 2 else 1

/-- A slice operation of the running group. -/
def sliceReq (g : Group) (va : DWord) (pa stamp : Nat) (last : Bool) (k : SliceKind) : SliceReq :=
  { group := g.gid, team := g.tid, eid := g.eid, va := va, pa := pa, stamp := stamp, kind := k, pc := g.pc, last := last }

/-- A slice operation whose old value comes back: performed at once (R232). -/
def sliceNow (r : SliceReq) (s : State) : Loaded × State :=
  let s := performOn r.group (r.pa / 64) s
  let s := flushWords (coreNo s.g) (r.pa / 64) r.eid 0 s
  match memError s r.pa (sliceBytes r.kind) with
  | some (c, sub) => (.error c sub, s)
  | none =>
    let old := memRead s r.pa (sliceBytes r.kind)
    let w := wtsOf s (r.pa / 64)
    let by_ := signersOf s r.pa (sliceBytes r.kind)
    let s := performSlice r s
    let t := wtsOf s (r.pa / 64)
    (.data old w by_, raiseGwts [r.group] t (fun _ => t) s)

/-- A slice operation that returns nothing: posted (R230, R307, R312). -/
def slicePost (r : SliceReq) (s : State) : Access :=
  match memError s r.pa (sliceBytes r.kind) with
  | some (c, sub) => .trap c sub (some r.va) s
  | none =>
    let s := flushWords (coreNo s.g) (r.pa / 64) r.eid (wordMask (r.pa % 64) (sliceBytes r.kind)) s
    .done 0 (countUp r.team { s with pending := s.pending ++ [.sliceOperation r] })

/-- An atomic of the running group on local store: the old bytes, and the store after it (R232). -/
def localAtom (stamp c a : Nat) (k : SliceKind) (s : State) : List Byte × State :=
  let old := localRead s c a (sliceBytes k)
  (old, localRmw s.g.tid stamp c a (sliceResult k old) s)

/-- Register words of a value of an atomic type. -/
def atomWords (t : Ty) (v : Nat) : List Word := if isWide t then words64 (BitVec.ofNat 64 v) else [BitVec.ofNat 32 v]

/-- A strand's registers as one value. -/
def regsVal (ws : List Word) : DWord := BitVec.ofNat 64 (leNat (bytesOfWords ws))

/-- D as a source: the expected value of `ATOM.cas` (R232); with `U` = 1 and a v register it is strand 0's (DESIGN CHOICE, log
entry 124). -/
def destVal (g : Group) (x : Fields) (i n : Nat) : DWord := regsVal (dataRegs g { x with c := x.d } i n)

/-- One strand of `ATOM` (R232). -/
def atomOne (op : AtomOp) (t : Ty) (x : Fields) (stamp : Nat) (va : DWord) (i : Nat) (s : State) : Access :=
  let n := atomRegs t
  let k : SliceKind := .atom op t (regsVal (dataRegs s.g x i n)) (destVal s.g x i n)
  match resolve s.g va (atomBytes t) .write false s with
  | (.loc c a, s) =>
    if localError s c a (atomBytes t) then localTrap va c a (atomBytes t) s
    else
      let seen := strongSeen x (localSeen s.g x.md.toNat c a (atomBytes t) s) s
      let (old, s) := localAtom stamp c a k (seeLocal c a (atomBytes t) s)
      .done seen (inStrong x (max stamp seen) (commitRegs x i (atomWords t (leNat old)) s))
  | (.mem pa, s) =>
    match sliceNow (sliceReq s.g va pa stamp (evictFirst x) k) s with
    | (.error c sub, s) => .trap c sub (some va) s
    | (.data b w by_, s) =>
      .done (strongSeen x (timeAt s.g x.md.toNat w by_) s) (inStrong x (max stamp (wtsOf s (pa / 64))) (commitRegs x i (atomWords t (leNat b)) s))
  | (.peer leaf, s) => peerWait leaf va (peerAtom op t)
      (bytesOfWords (dataRegs s.g x i n) ++ (if op == .cas then bytesOfWords (dataRegs s.g { x with c := x.d } i n) else []))
      (.peer va i x.u x.d t n true (acqScope x)) (inStrong x stamp s)
  | (p, s) => badPlace va i p s

/-- `ATOM` (R232, R234). -/
def execAtom (op : AtomOp) (t : Ty) (x : Fields) (s : State) : Result :=
  let n := atomRegs t
  runMem x (memOk s.g x false n n) (memSrcs x n ++ (if op == .cas then [(x.d, n)] else [])) (atomOne op t x) s

/-- The atomic operation of a `RED` (R231). -/
def redOp : RedOp → AtomOp
  | .add => .add
  | .min => .min
  | .max => .max

/-- One strand of `RED` (R232). -/
def redOne (op : RedOp) (t : Ty) (x : Fields) (stamp : Nat) (va : DWord) (i : Nat) (s : State) : Access :=
  let n := atomRegs t
  let k : SliceKind := .atom (redOp op) t (regsVal (dataRegs s.g x i n)) 0
  match resolve s.g va (atomBytes t) .write false s with
  | (.loc c a, s) =>
    if localError s c a (atomBytes t) then localTrap va c a (atomBytes t) s
    else .done 0 (localAtom stamp c a k (seeLocal c a (atomBytes t) s)).2
  | (.mem pa, s) => slicePost (sliceReq s.g va pa stamp (evictFirst x) k) s
  | (.peer leaf, s) => peerWait leaf va (peerAtom (redOp op) t) (bytesOfWords (dataRegs s.g x i n)) (.peer va i x.u x.d t 0 false (acqScope x)) s
  | (p, s) => badPlace va i p s

/-- `RED` (R232, R234). -/
def execRed (op : RedOp) (t : Ty) (x : Fields) (s : State) : Result :=
  runMem x (memOk s.g x false 0 (atomRegs t)) (memSrcs x (atomRegs t)) (redOne op t x) s

/-- A cell with one more add: its bytes, write time and writers. -/
def cellWith (e : List Byte × Nat × List (Sparse Nat)) (a : CellAdd) : List Byte × Nat × List (Sparse Nat) :=
  (cellAdd e.1 a.x, max e.2.1 a.wts, e.2.2.map (signWord a.tid a.wts))

/-- A group stands beside one that knows of an add: it is that group, or one of its team or of its core. -/
def knows (s : State) (g : Group) (a : CellAdd) : Bool :=
  a.tid == g.tid || a.known.any (fun k => k == g.gid || match findGroup s k with
    | none => false
    | some h => h.tid == g.tid || coreNo h == coreNo g)

/-- Strand `i` of the running group reads an add since a cell's last other write, by its place among them: one that nothing orders
before the read may be lacking, whichever it is (R302, R306, R366; DEDUCED, log entry 120). -/
def seesAdd (s : State) (i : Nat) (a : CellAdd × Nat) : Bool := knows s s.g a.1 || !Config.sumLacks s.ctr i a.2

/-- What strand `i` of the running group reads of an exact-sum cell. -/
def cellSeen (pa i : Nat) (s : State) : List Byte × Nat × List (Sparse Nat) :=
  let h := cellOf s pa
  ((h.adds.zipIdx.filter (seesAdd s i)).map (·.1)).foldl cellWith (h.base, h.wts, h.signs)

/-- One strand of `XSUM` (R235, R236). -/
def xsumOne (op : XsumOp) (x : Fields) (stamp : Nat) (va : DWord) (i : Nat) (s : State) : Access :=
  let acc : Acc := if op == .read then .read else .write
  match resolve s.g va 64 acc true s with
  | (.zero, s) => .done 0 (commitRegs x i [0] s)
  | (.mem pa, s) =>
    match op with
    | .add => slicePost (sliceReq s.g va pa stamp (evictFirst x) (.xadd (nth 0 (dataRegs s.g x i 1) 0))) s
    | .clear => slicePost (sliceReq s.g va pa stamp (evictFirst x) .xclear) s
    | .read => match slowReadBy (cellSeen pa i) va pa 64 0 (evictFirst x) s with
      | (.error c sub, s) => .trap c sub (some va) s
      | (.data b w by_, t) => .done (timeAt t.g x.md.toNat w by_) (commitRegs x i [BitVec.ofNat 32 (cellRead b)] (learn pa (seesAdd s i) t))
  | (p, s) => badPlace va i p s

/-- `XSUM` (R235, R236). -/
def execXsum (op : XsumOp) (x : Fields) (s : State) : Result :=
  let nd := if op == .read then 1 else 0
  let nc := if op == .add then 1 else 0
  runMem x (memOk s.g x false nd nc) (memSrcs x nc) (xsumOne op x) s

/-- A posted operation reaches its home slice (R356). -/
def execSliceOperation (r : SliceReq) (s : State) : Result := .next (finishPosted r s)

/-- An acknowledgement returns (R230, R237, R312). -/
def execMemoryResponse (acc : Nat) (s : State) : Result :=
  match s.accs.find? (fun a => a.id == acc) with
  | none => .refused .notEnabled
  | some a =>
    match a.kind with
    | .ack w =>
      .next (settleTeam a.team (countDown a.team (raiseGwts [a.group] w (fun _ => w) { s with accs := s.accs.filter (fun b => b.id != acc) })))
    | _ => .refused .notEnabled

/-! ### FENCE (R237, R309) -/

/-- The time that the acquire part of a fence takes at a scope: of the group's reads and writes, at `.team` what its own team's
writes have given (R306), at `.sys` what peers have given (R297, R310). -/
def fenceTime (g : Group) (scope : Nat) : Nat :=
  if scope = 1 then g.gwtsTeam else if scope = 4 then max g.gwts g.gwtsSys else g.gwts

/-- The acquire part of a fence. -/
def fenceAcquire (g : Group) (scope : Nat) (s : State) : State := acquire g scope (fenceTime g scope) s

/-- The acquire part of a fence that has no release part: the read-modify-writes that its group has posted perform first, since
it acquires what they read (R292, R297). -/
def acquireOnly (g : Group) (scope : Nat) (s : State) : State :=
  let s := absorbAcks g.gid (performWhere (ownPosted g.gid (fun _ => true)) s)
  match findGroup s g.gid with
  | none => s
  | some g => fenceAcquire g scope s

/-- `FENCE` (R237): within the core it completes in its pass, everything posted having performed; wider, its
release part holds the group. -/
def execFence (x : Fields) (s : State) : Result :=
  if holdsAny s.g x then
    if isRel x then
      if wider s s.g.tid x.md.toNat then
        .next (setG { s.g with status := .releasing x.md.toNat (isAcq x) } s)
      else
        let s := performWhere (postedBy s.g.gid) s
        let s := if isAcq x then fenceAcquire s.g x.md.toNat s else s
        finish s.g s
    else
      let s := acquireOnly s.g x.md.toNat s
      finish s.g s
  else finish s.g s

/-- A release performs (R309, R310): later writes of the group carry its timestamp, and the group goes on. -/
def execReleasePerformed (gid : Nat) (s : State) : Result :=
  match findGroup s gid with
  | none => .refused .notEnabled
  | some g =>
    match g.status with
    | .releasing scope acq =>
      if scope = 4 && (peerPending s gid).isSome then .refused .notEnabled
      else
        let (t, s) := releaseAll gid scope s
        let s := modGroup gid (fun g => advance { g with carry := max g.carry t, status := .ready }) s
        .next (match findGroup s gid with
          | none => s
          | some g => if acq then fenceAcquire g scope s else s)
    | _ => .refused .notEnabled

end Sys2Proof.Machine
end

