-- ==== Sys2Proof/Machine/Digest.lean ====
section
/-! DEFINITION. SHAKE256 with 32 bytes of output (R124, R427 to R432), as FIPS 202 defines it: the manual names the function and
prints no definition (PRESUMED, log entry 41). -/

namespace Sys2Proof.Machine

/-- Round constants of Keccak-f[1600]. -/
def keccakConsts : List DWord :=
  [0x1, 0x8082, 0x800000000000808A, 0x8000000080008000, 0x808B, 0x80000001, 0x8000000080008081, 0x8000000000008009, 0x8A, 0x88,
   0x80008009, 0x8000000A, 0x8000808B, 0x800000000000008B, 0x8000000000008089, 0x8000000000008003, 0x8000000000008002,
   0x8000000000000080, 0x800A, 0x800000008000000A, 0x8000000080008081, 0x8000000000008080, 0x80000001, 0x8000000080008008]

/-- Rotation of lane (x, y), at place x + 5y. -/
def keccakTurns : List Nat := [0, 1, 62, 28, 27, 36, 44, 6, 55, 20, 3, 10, 43, 25, 39, 41, 45, 15, 21, 8, 18, 2, 61, 56, 14]

/-- One round: θ, ρ with π, χ, ι. -/
def keccakRound (a : List DWord) (rc : DWord) : List DWord :=
  let c := (List.range 5).map (fun x => nth 0 a x ^^^ nth 0 a (x + 5) ^^^ nth 0 a (x + 10) ^^^ nth 0 a (x + 15) ^^^ nth 0 a (x + 20))
  let d := (List.range 5).map (fun x => nth 0 c ((x + 4) % 5) ^^^ (nth 0 c ((x + 1) % 5)).rotateLeft 1)
  let b := (List.range 25).map (fun i =>
    let j := (i % 5 + 3 * (i / 5)) % 5 + 5 * (i % 5)
    (nth 0 a j ^^^ nth 0 d (j % 5)).rotateLeft (nth 0 keccakTurns j))
  (List.range 25).map (fun i =>
    let y := i / 5 * 5
    let v := nth 0 b i ^^^ (~~~ nth 0 b (y + (i + 1) % 5) &&& nth 0 b (y + (i + 2) % 5))
    if i = 0 then v ^^^ rc else v)

/-- The permutation. -/
def keccakF (a : List DWord) : List DWord := keccakConsts.foldl keccakRound a

/-- Absorbs blocks of 136 bytes. -/
def keccakAbsorb : Nat → List Byte → List DWord → List DWord
  | 0, _, a => a
  | n + 1, b, a =>
    keccakAbsorb n (b.drop 136) (keccakF ((List.range 25).map (fun i => nth 0 a i ^^^ BitVec.ofNat 64 (leNat (((b.take 136).drop (8 * i)).take 8)))))

/-- The message with its domain bits and padding: a multiple of 136 bytes. -/
def shakePad (b : List Byte) : List Byte :=
  let k := 136 - b.length % 136
  b ++ (if k = 1 then [0x9F] else 0x1F :: (List.replicate (k - 2) 0 ++ [0x80]))

/-- SHAKE256, 256-bit output. -/
def shake256 (b : List Byte) : List Byte :=
  ((keccakAbsorb (b.length / 136 + 1) (shakePad b) (List.replicate 25 0)).take 4).flatMap (fun w => leBytes 8 w.toNat)

end Sys2Proof.Machine
end

