-- ==== Sys2Proof/Machine/Control.lean ====
section
/-! DEFINITION. Control flow, cross-strand operations and group state (R114, R176 to R193), traps and their return
(R194 to R198). -/

namespace Sys2Proof.Machine

/-! ### Targets (R98, R110) -/

/-- The slot offset o of the branch form, in bytes from the next slot (R110). -/
def branchDelta (x : Fields) : DWord := sx64 (x.e ++ x.imm) * 12

/-- The target of the branch form (R110). -/
def branchTarget (g : Group) (x : Fields) : DWord := nextPc g + branchDelta x

/-- The join PC of `BRD` (R110). -/
def joinTarget (g : Group) (x : Fields) : DWord := nextPc g + sx64 (opndBits x.b ++ opndBits x.c) * 12

/-- An address is base + 12n (R98). -/
def onSlot (g : Group) (a : DWord) : Bool := ((a.toNat : Int) - g.base.toNat) % 12 == 0

/-- Step 5 for an address in A: an even uniform pair (R180, R198). -/
def okTarget (g : Group) (x : Fields) : Bool := isSPair x.a && regOk g x.a 2

/-- A transfer to the address in A once its guards hold, after `link` has acted on the group (R98, R180). -/
def runIndirect (x : Fields) (link : Group → Group) (s : State) : Result :=
  need (okTarget s.g x) (wordTrap 0x02) s (
    if holdsAll s.g x then
      let a := read64 s.g x 0 x.a
      if onSlot s.g a then .next (setG (advanceTo a (link s.g)) s) else trapped ⟨0x0B, 0, some a, 0⟩ s
    else finish s.g s)

/-- `s62`:`s63` := PC + 12 (R180). -/
def writeLink (g : Group) : Group := sSets g 62 (words64 (nextPc g))

/-- `BRA` (R179). -/
def execBra (x : Fields) (s : State) : Result :=
  if holdsAll s.g x then .next (setG (advanceTo (branchTarget s.g x) s.g) s) else finish s.g s

/-- `BRX` (R180). -/
def execBrx (x : Fields) (s : State) : Result := runIndirect x id s

/-- Direct `CALL` (R180). -/
def execCallDirect (x : Fields) (s : State) : Result :=
  if holdsAll s.g x then .next (setG (advanceTo (branchTarget s.g x) (writeLink s.g)) s) else finish s.g s

/-- Indirect `CALL` (R180): A is read before the link is written. -/
def execCallIndirect (x : Fields) (s : State) : Result := runIndirect x writeLink s

/-- `RET` (R180). -/
def execRet (x : Fields) (s : State) : Result := runIndirect x id s

/-! ### Divergence (R182 to R184) -/

/-- The strands of the active mask for which the guards of `BRD` hold; one that the resume index skips does not branch
(R68, R182). -/
def takenMask (g : Group) (x : Fields) : DWord := maskOf (execList g x)

/-- Entries that a `BRD` pushes, top first (R182). -/
def brdEntries (g : Group) (x : Fields) : List StackEntry :=
  let t := takenMask g x
  let join : StackEntry := ⟨.join, joinTarget g x, g.active, g.fmt, g.jord⟩
  if t != 0 && t != g.active then [⟨.path, branchTarget g x, t, g.fmt, g.jord⟩, join] else [join]

/-- `BRD` (R182, R63). -/
def execBrd (x : Fields) (s : State) : Result :=
  let g := s.g
  let t := takenMask g x
  let es := brdEntries g x
  if 16 < g.stack.length + es.length then trapped (wordTrap 0x1C) s
  else
    let h := { g with stack := es ++ g.stack, active := if t != 0 && t != g.active then g.active &&& ~~~t else g.active }
    if t == g.active then .next (setG (advanceTo (branchTarget g x) h) s) else finish h s

/-- `JOIN` (R183): on an empty stack it traps and changes nothing. -/
def execJoin (_x : Fields) (s : State) : Result :=
  match reconverge s.g s.g.stack with
  | none => trapped (wordTrap 0x01) s
  | some g => .next (setG (advanceTo g.pc g) s)

/-- Strands that an `EXIT` takes out of `Live` (R184). -/
def exitMask (g : Group) (x : Fields) : DWord :=
  if x.u then (if holdsQ g x then g.live else 0) else maskOf (execList g x)

/-- `EXIT` (R184). -/
def execExit (x : Fields) (s : State) : Result :=
  let out := exitMask s.g x
  let g := { s.g with live := s.g.live &&& ~~~out, active := s.g.active &&& ~~~out }
  if g.active != 0 then finish g s
  else if g.live == 0 then .next (endGroup g.gid (setG (advance g) s))
  else match reconverge g g.stack with
    | none => trapped (wordTrap 0x01) s
    | some h => .next (setG (advanceTo h.pc h) s)

/-! ### Yield, cancellation, NOP, traps (R114, R185, R186, R194, R198) -/

/-- `NOP` (R114). -/
def execNop (_x : Fields) (s : State) : Result := finish s.g s

/-- `YIELD` (R185). -/
def execYield (x : Fields) (s : State) : Result :=
  if holdsAll s.g x then finish { s.g with yielded := true, waitingSince := s.ac } s else finish s.g s

/-- The cancel bit that a group's team reads (R186, R391); 0 without a slot. -/
def cancelBit (s : State) (g : Group) : Bool :=
  match findTeam s g.tid with
  | none => false
  | some t => t.cancel

/-- Changes the step program of an engagement (R388). -/
def modProgram (eid : Nat) (f : StepProgram → StepProgram) (s : State) : State :=
  { s with programs := updateWhere (fun e => e.1 == eid) (fun e => (e.1, f e.2)) s.programs }

/-- A group's team takes a cancellation point (R391). -/
def takePoint (g : Group) (s : State) : State :=
  let s := modTeam g.tid (fun t => { t with took := true }) s
  match slotOf? s g with
  | none => s
  | some k => modProgram g.eid (fun p => { p with took := if p.took.contains k then p.took else k :: p.took }) s

/-- `CANCELCHK` (R186): the team takes the cancellation point when the branch is taken (R391). -/
def execCancelchk (x : Fields) (s : State) : Result :=
  if holdsAll s.g x && cancelBit s s.g then .next (takePoint s.g (setG (advanceTo (branchTarget s.g x) s.g) s))
  else finish s.g s

/-- `TRAP` (R194). -/
def execTrap (x : Fields) (s : State) : Result :=
  if holdsAny s.g x then trapped ⟨0x30, 0, some (zx64 x.imm), 0⟩ s else finish s.g s

/-- The group after `TRESUME` to `a` (R198): an empty restored mask reconverges. -/
def resumed (f : Frame) (a : DWord) (g : Group) : Option Group :=
  let h := leaveHandler f a g
  if h.active = 0 then reconverge h h.stack else some h

/-- `TRESUME` (R198, R202). -/
def execTresume (x : Fields) (s : State) : Result :=
  match s.g.frame with
  | none => trapped (wordTrap 0x04) s
  | some f =>
    need (inHandler s.g) (wordTrap 0x04) s <|
    need (okTarget s.g x) (wordTrap 0x02) s <|
    if holdsQ s.g x then
      if s.g.stack != [] then trapped (wordTrap 0x01) s
      else
        let a := read64 s.g x 0 x.a
        if onSlot s.g a then
          match resumed f a s.g with
          | none => trapped (wordTrap 0x01) s
          | some g => .next (setG g s)
        else trapped ⟨0x0B, 0, some a, 0⟩ s
    else finish s.g s

/-! ### Cross-strand operations (R188 to R190) -/

/-- A source of a cross-strand instruction holds a storage error: it traps without effect (R69, R222). -/
def crossBad (g : Group) (is : List Nat) (o : Opnd × Nat) : Bool := is.any (fun i => badReg g i o)

/-- Runs an all-or-nothing instruction on the executing strands. -/
def runCross (x : Fields) (ok : Bool) (bad : Group → List Nat → Bool) (f : Group → List Nat → Group) (s : State) : Result :=
  need ok (wordTrap 0x02) s (
    let is := execList s.g x
    if bad s.g is then trapped ⟨0x20, 4, none, 0⟩ s else finish (f s.g is) s)

/-- Source strand of `SHFL` for strand `i`, count `c`, width `w` (R188). -/
def shflFrom (f : ShflMode) (w i c : Nat) : Nat :=
  match f with
  | .idx => c % w
  | .up => if i < c then i else i - c
  | .down => if w ≤ i + c then i else i + c
  | .xor => i ^^^ (c % w)

/-- Registers of a cross-strand type: one for `.n32`, a pair for `.n64`. -/
def crossCount (t : Ty) : Nat := if t == .n64 then 2 else 1

/-- `SHFL` (R188). -/
def execShfl (f : ShflMode) (t : Ty) (x : Fields) (s : State) : Result :=
  let n := crossCount t
  let src := fun (g : Group) (i : Nat) => shflFrom f (widthOf g) i (readB32 g x i).toNat
  runCross x (isV x.d && isV x.a && !isLong x && (if f == .idx then isSrc x x.b else isS x.b || isShort x.b) &&
      regsOk s.g [(x.d, n), (x.a, n), (x.b, 1)])
    (fun g is => crossBad g is (x.b, 1) || is.any (fun i => badReg g (src g i) (x.a, n)))
    (fun g is => is.foldl (fun h i => writeRegs h i x.d (readRegsAt g (src g i) x.a n)) g) s
where
  readRegsAt (g : Group) (i : Nat) (o : Opnd) (n : Nat) : List Word :=
    (List.range n).map (fun j => vGet g i (opIdx o + j))

/-- Writes a result defined once for the group: s or q once, v or p in each executing strand (R44, R189). -/
def writeOnce (g : Group) (is : List Nat) (o : Opnd) (l : List Word) : Group :=
  match o with
  | .v n => is.foldl (fun h i => vSets h i n.toNat l) g
  | .s n => sSets g n.toNat l
  | _ => g

/-- The same for a predicate. -/
def writePredOnce (g : Group) (is : List Nat) (o : Opnd) (b : Bool) : Group :=
  if opIdx o < 8 then is.foldl (fun h i => pSet h i (opIdx o) b) g else qSet g (opIdx o - 8) b

/-- `VOTE` (R189). -/
def execVote (f : VoteForm) (x : Fields) (s : State) : Result :=
  let holds := fun (g : Group) (i : Nat) => readPred g i x.a != x.e.getLsbD 0
  let predSrc := isP x.a || isQ x.a
  match f with
  | .all => runCross x (predSrc && (isP x.d || isQ x.d)) (fun _ _ => false)
      (fun g is => writePredOnce g is x.d (is.all (holds g))) s
  | .any => runCross x (predSrc && (isP x.d || isQ x.d)) (fun _ _ => false)
      (fun g is => writePredOnce g is x.d (is.any (holds g))) s
  | .ballot => runCross x (predSrc && (isV x.d || isS x.d) && regOk s.g x.d 2) (fun _ _ => false)
      (fun g is => writeOnce g is x.d (words64 (maskOf (is.filter (holds g))))) s
  | .same => runCross x (isV x.a && (isP x.d || isQ x.d) && regOk s.g x.a 1) (fun g is => crossBad g is (x.a, 1))
      (fun g is => writePredOnce g is x.d (match is with
        | [] => true
        | m :: t => t.all (fun i => vGet g i (opIdx x.a) == vGet g m (opIdx x.a)))) s

/-- Registers of strand `i` as a list. -/
def strandRegs (g : Group) (i : Nat) (o : Opnd) (n : Nat) : List Word :=
  (List.range n).map (fun j => vGet g i (opIdx o + j))

/-- `RFL` (R190): the lowest executing strand's value; without one D keeps its value. A storage error in any executing strand's A traps,
of `RFL` without `.chk` too (DESIGN CHOICE, log entry 141). -/
def execRfl (f : RflForm) (t : Ty) (x : Fields) (s : State) : Result :=
  let n := crossCount t
  let okC := match f with
    | .plain => true
    | .chk => isQ x.c
  runCross x (isV x.a && (isV x.d || isS x.d) && okC && regsOk s.g [(x.d, n), (x.a, n)])
    (fun g is => crossBad g is (x.a, n))
    (fun g is =>
      let h := match is with
        | [] => g
        | m :: _ => writeOnce g is x.d (strandRegs g m x.a n)
      match f, is with
      | .plain, _ => h
      | .chk, [] => qSet h (opIdx x.c - 8) false
      | .chk, m :: t => qSet h (opIdx x.c - 8) (t.any (fun i => strandRegs g i x.a n != strandRegs g m x.a n))) s

/-! ### Group state (R191 to R193, R50 to R54) -/

/-- `FMT` (R191). -/
def execFmt (x : Fields) (s : State) : Result :=
  need (isSPair x.b && !isLong x && regOk s.g x.b 2) (wordTrap 0x02) s
    (finish (if holdsQ s.g x then { s.g with fmt := read64 s.g x 0 x.b } else s.g) s)

/-- `ROLE` (R192). -/
def execRole (x : Fields) (s : State) : Result :=
  need (x.b == .im 1 && !isLong x && decide (x.imm.toNat ≤ 3)) (wordTrap 0x02) s
    (finish (if holdsQ s.g x then { s.g with role := x.imm.extractLsb' 0 2 } else s.g) s)

/-- Units of the register file a block of a group takes (R46). -/
def unitsPerBlock (g : Group) : Nat := widthOf g / 16

/-- Groups that hold their place on a lane: one that has ended has returned it, one that was stopped keeps it until its
team is freed (R54, R324). -/
def onLane (s : State) (core lane : Nat) : List Group :=
  (allGroups s).filter (fun g => coreNo g == core && g.lane == lane && g.status != .ended)

/-- Units of a lane's register file that no block occupies (R46). -/
def freeUnits (s : State) (core lane : Nat) : Nat :=
  8 - ((onLane s core lane).map (fun g => (g.xblk + 1) * unitsPerBlock g)).sum

/-- A group waits for register blocks (R52): how many and its place in the order. -/
def blockWait (g : Group) : Option (Nat × Nat) :=
  match g.status with
  | .waitBlocks t ticket _ => some (t, ticket)
  | _ => none

/-- Highest extended block that the kernel's `.regs` declaration covers. -/
def declaredTop (s : State) (g : Group) : Nat :=
  match findLaunch s g.launch with
  | none => 0
  | some l => l.kernel.top

/-- The blocks asked for are out of range, beyond the declaration, or the group holds some already (R50). -/
def badBlocks (s : State) (t : Nat) : Bool :=
  decide (t = 0) || decide (3 < t) || decide (s.g.xblk ≠ 0) || (s.g.width == .w64 && decide (1 < t)) ||
    decide (declaredTop s s.g < t)

/-- `XBLK.acq` (R50, R52, R193): all blocks at once, or the group waits. It takes no long immediate (DESIGN CHOICE, log entry 121:
R106 and R193 leave it open). -/
def execXblkAcq (x : Fields) (s : State) : Result :=
  let t := (read32 s.g x 0 x.b).toNat
  need ((isS x.b || isShort x.b) && !isLong x && regOk s.g x.b 1 && !badBlocks s t) (wordTrap 0x02) s (
    if holdsQ s.g x then
      let waiting := (onLane s (coreNo s.g) s.g.lane).any (fun g => (blockWait g).isSome)
      if !waiting && decide (t * unitsPerBlock s.g ≤ freeUnits s (coreNo s.g) s.g.lane) then
        finish { s.g with xblk := t } s
      else .next { setG { s.g with status := .waitBlocks t s.fresh s.ac } s with fresh := s.fresh + 1 }
    else finish s.g s)

/-- Clears every extended register of a group (R50, R54). -/
def dropBlocks (g : Group) : Group :=
  { g with xblk := 0, v := Sparse.drop (fun k => decide (64 ≤ k % 256)) g.v
           vPoison := g.vPoison.filter (fun k => decide (k % 256 < 64)) }

/-- `XBLK.rel` (R54, R193). -/
def execXblkRel (x : Fields) (s : State) : Result :=
  finish (if holdsQ s.g x then dropBlocks s.g else s.g) s

end Sys2Proof.Machine
end

