-- ==== Sys2Proof/Machine/Counters.lean ====
section
/-! DEFINITION. Core and memory counters, barriers, and what ends a wait of a group: wakes, watchdogs, grants,
reports and refills (R52, R53, R201, R220, R238 to R243, R250, R305, R321, R322, R438). -/

namespace Sys2Proof.Machine

/-! ### Naming a counter (R238, R239, R316) -/

/-- Number of a counter operand. -/
def ctrIdx (o : Opnd) : Nat := opIdx o - 0x20

/-- Harvest of a core; unlisted: the full core (R336). -/
def fuseOf (s : State) (c : Nat) : Fuse := Sparse.get ⟨true, 4⟩ c s.fuses

/-- A core is enabled (R336). -/
def coreEnabled (s : State) (c : Nat) : Bool := decide (3 ≤ (fuseOf s c).blocks)

/-- The core that a counter instruction names; none when the selector names no core of the cluster or
cluster pair (DEDUCED: bit 4 set names none) (R238, R239). -/
def ctrCore (s : State) (x : Fields) : Option Nat :=
  if !x.e.getLsbD 5 then some (coreNo s.g)
  else if x.e.getLsbD 4 then none
  else
    let half := if x.e.getLsbD 3 then otherHalf s s.g.launch s.g.gang (coreNo s.g) else some (clusterOf (coreNo s.g))
    (half.map (fun h => 8 * h + (x.e.extractLsb' 0 3).toNat)).filter (coreEnabled s)

/-- Range of the running group's own team on its core. -/
def ownRange (s : State) : Nat :=
  match findTeam s s.g.tid with
  | none => 0
  | some t => rangeOn t (coreNo s.g)

/-- Physical number of counter n of the group's core. -/
def ownCtr (s : State) (n : Nat) : Nat := 16 * ownRange s + n

/-- The target core of `D` or `A` is admissible (step 5 of R113, R239). -/
def ctrOk (s : State) (x : Fields) (o : Opnd) : Bool := isCtr o && (ctrCore s x).isSome

/-- An even s pair naming a memory counter. -/
def memCtrOk (g : Group) (o : Opnd) : Bool := isSPair o && regOk g o 2

/-- A 32-bit operand B of a counter instruction: an s register or a short immediate. -/
def ctrB (g : Group) (x : Fields) : Bool := !isLong x && (isS x.b || isShort x.b) && regOk g x.b 1

/-- Runs a counter instruction when its q guards hold, a release waiting for signals to peers (R239, R240, R310). -/
def runCtr (x : Fields) (ok : Bool) (rel : Bool) (k : Nat → State → Result) (s : State) : Result :=
  need ok (wordTrap 0x02) s (
    if holdsQ s.g x then
      match (if rel && x.md == 4 then peerPending s s.g.gid else none) with
      | some acc => .next (setG { s.g with status := .waitPeer acc } s)
      | none =>
        let r := if rel then releaseAll s.g.gid x.md.toNat s else (0, s)
        k (max r.1 s.g.carry) r.2
    else finish s.g s)

/-- How a group stands in a list of adds (R323). -/
def groupAdder (g : Group) : Adder := ⟨1, coreNo g, g.grp⟩

/-! ### CADD (R240) -/

/-- An add to a counter of the issuing core: a saturation traps at once (R240). -/
def addOwn (n amount stamp : Nat) (s : State) : State × Option Trap :=
  let c := coreNo s.g
  let m := ownCtr s n
  let sat := ctrOver (ctrAt s c m) amount
  (addCtr c m amount stamp (s.g.tid + 1) (groupAdder s.g) s, if sat then some ⟨0x18, 0, some (counterRef c m), 0⟩ else none)

/-- An add to another core of the gang leaves (R240); without a team of the gang there it is discarded and counted. -/
def addFar (c n amount stamp : Nat) (s : State) : State :=
  match gangTeam s s.g.launch s.g.gang c with
  | none => modCore c (fun k => { k with discarded := k.discarded + 1 }) s
  | some t =>
    let r : CtrAdd := { launch := t.launch, gang := t.gang, team := t.team, odd := posIn t c == 1, n := n, amount := amount
                        stamp := stamp, src := groupAdder s.g, owner := some s.g.gid, pc := s.g.pc, dest := some c, signer := s.g.tid + 1 }
    countUp s.g.tid { s with pending := s.pending ++ [.counterAddArrival r] }

/-- An add to a memory counter (R238, R240). -/
def addMemory (amount stamp : Nat) (va : DWord) (s : State) : Result :=
  match resolve s.g va 8 .write true s with
  | (.mem pa, s) => closeAccess (fun _ s => s) (0, 0, slicePost (sliceReq s.g va pa stamp false (.count amount)) s)
  | (.peer leaf, s) =>
    if peerUp s (peerConn leaf) then
      let s := peerSend leaf va peerCount (leBytes 8 amount) (.peerAdd va s.g.pc) s
      finish s.g s
    else trapped ⟨0x08, 0x18, some va, 0⟩ s
  | (p, s) => closeAccess (fun _ s => s) (0, 0, badPlace va 0 p s)

/-- `CADD` (R240). -/
def execCadd (x : Fields) (s : State) : Result :=
  let amount := (read32 s.g x 0 x.b).toNat
  let far := opZero x.a
  let ok := ctrB s.g x && (if far then ctrOk s x x.d else opZero x.d && memCtrOk s.g x.a && apart x.a 2 x.b 1)
  runCtr x ok (isRel x) (fun stamp s =>
    if far then
      match ctrCore s x with
      | none => finish s.g s
      | some c =>
        if c = coreNo s.g then
          match addOwn (ctrIdx x.d) amount stamp s with
          | (s, some t) => trapped t s
          | (s, none) => finish s.g s
        else
          let s := addFar c (ctrIdx x.d) amount stamp s
          finish s.g s
    else addMemory amount stamp (read64 s.g x 0 x.a) s) s

/-- A posted add arrives (R240). -/
def execCounterAddArrival (r : CtrAdd) (s : State) : Result := .next (applyAdd r s)

/-! ### CREAD (R242) -/

/-- Value of a counter of another core, and its `CT`: a core without a team of the gang has no range (R316). -/
def farCounter (s : State) (c n : Nat) : Counter :=
  match gangTeam s s.g.launch s.g.gang c with
  | none => { Counter.zero with val := Config.absentCounter s.ctr }
  | some t => ctrAt s c (16 * rangeOn t c + n)

/-- Writes a counter value to D and finishes. -/
def writeCounter (x : Fields) (v : DWord) (s : State) : Result := finish (writeUni s.g x.d (words64 v)) s

/-- A read of a memory counter (R242); a grow page no write has mapped reads as zero. -/
def readMemCounter (x : Fields) (va : DWord) (s : State) : Result :=
  match resolve s.g va 8 .read true s with
  | (.zero, s) => writeCounter x 0 s
  | (.mem pa, s) =>
    match slowRead va pa 8 0 s with
    | (.error c sub, s) => trapped ⟨c, sub, some va, 0⟩ s
    | (.data b w by_, s) =>
      let s := acquireRead x (timeAt s.g x.md.toNat w by_) s
      writeCounter x (BitVec.ofNat 64 (leNat b)) s
  | (p, s) => closeAccess (fun _ s => s) (0, 0, badPlace va 0 p s)

/-- The time that a team's adds have given a counter (R306). -/
def ctOf (k : Counter) (g : Group) : Nat := Sparse.get 0 (g.tid + 1) k.ctBy

/-- The time that a group's observation of a counter takes at a scope: at `.team` that of adds its own team made, whosever the
counter is (R211, R306). -/
def ctAt (k : Counter) (g : Group) (scope : Nat) : Nat := if scope = 1 then ctOf k g else k.ct

/-- A group observes a counter: it acquires, or a later fence does (R241, R297). -/
def observe (g : Group) (acq : Bool) (scope : Nat) (k : Counter) (s : State) : State :=
  let s := raiseGwts [g.gid] k.ct (ctOf k) s
  if acq then acquire g scope (ctAt k g scope) s else s

/-- An add that the group has posted to counter `n` of core `c`. -/
def ownAdd (gid c n : Nat) : Instr → Bool
  | .counterAddArrival r => r.owner == some gid && r.dest == some c && r.n == n
  | _ => false

/-- `CREAD` (R242): the adds that the group has posted to the counter come before it (R302). -/
def execCread (x : Fields) (s : State) : Result :=
  let ok := isSPair x.d && regOk s.g x.d 2 && (if isS x.a then memCtrOk s.g x.a && apart x.d 2 x.a 2 else ctrOk s x x.a)
  runCtr x ok false (fun _ s =>
    if isS x.a then readMemCounter x (read64 s.g x 0 x.a) s
    else match ctrCore s x with
      | none => finish s.g s
      | some c =>
        let own := decide (c = coreNo s.g)
        let s := if own then s else performWhere (ownAdd s.g.gid c (ctrIdx x.a)) s
        let k := if own then ctrAt s c (ownCtr s (ctrIdx x.a)) else farCounter s c (ctrIdx x.a)
        let s := if own then s else cross { s with ctr := s.ctr + 1 }
        let s := observe s.g (isAcq x) x.md.toNat k s
        writeCounter x k.val s) s

/-! ### CWAIT and BAR (R241, R243) -/

/-- The status predicate of a wait: a q predicate. -/
def waitPred (o : Opnd) : BitVec 3 := BitVec.ofNat 3 (opIdx o - 8)

/-- The target is reached: no status, and an acquire of the largest T seen (R241). -/
def waitReached (gid m : Nat) (d : BitVec 3) (acq : Bool) (scope : Nat) (s : State) : State :=
  match findGroup s gid with
  | none => s
  | some g =>
    let s := observe g acq scope (ctrAt s (coreNo g) m) s
    modGroup gid (fun g => advance (qSet { g with status := .ready } d.toNat false)) s

/-- The wait of a group is cancelled: the status is true and its team takes a cancellation point (R241, R391). -/
def waitCancelled (g : Group) (d : BitVec 3) (s : State) : State :=
  takePoint g (modGroup g.gid (fun g => advance (qSet { g with status := .ready } d.toNat true)) s)

/-- The first check of a wait (R241). -/
def startWait (m target : Nat) (d : BitVec 3) (acq : Bool) (scope : Nat) (s : State) : State :=
  if target ≤ (ctrAt s (coreNo s.g) m).val.toNat then waitReached s.g.gid m d acq scope s
  else if cancelBit s s.g then waitCancelled s.g d s
  else setG { s.g with status := .waitCounter m target d acq scope s.ac } s

/-- The form of a wait (R239): own counter in A, a q predicate in D. -/
def waitOk (x : Fields) : Bool := isCtr x.a && isQ x.d && !x.e.getLsbD 5 && !isLong x

/-- `CWAIT` (R241). -/
def execCwait (x : Fields) (s : State) : Result :=
  let ok := waitOk x && (memCtrOk s.g x.b || isShort x.b)
  let target := if isS x.b then (read64 s.g x 0 x.b).toNat else (read32 s.g x 0 x.b).toNat
  runCtr x ok false (fun _ s => .next (startWait (ownCtr s (ctrIdx x.a)) target (waitPred x.d) (isAcq x) x.md.toNat s)) s

/-- `BAR` (R243). -/
def execBar (x : Fields) (s : State) : Result :=
  let n := (read32 s.g x 0 x.b).toNat
  need (waitOk x && ctrB s.g x) (wordTrap 0x02) s (
    if holdsQ s.g x && (n == 0 || decide (65535 < n)) then trapped (wordTrap 0x02) s
    else runCtr x true true (fun stamp s =>
      match addOwn (ctrIdx x.a) 1 stamp s with
      | (s, some t) => trapped t s
      | (s, none) =>
        let m := ownCtr s (ctrIdx x.a)
        let v := (ctrAt s (coreNo s.g) m).val.toNat
        .next (startWait m (ceilDiv v n * n) (waitPred x.d) true x.md.toNat s)) s)

/-- A waiting `CWAIT` checks again (R241). -/
def execCounterWaitWake (gid : Nat) (s : State) : Result :=
  match liveGroup s gid with
  | none => .refused .notEnabled
  | some g =>
    match g.status with
    | .waitCounter m target d acq scope _ =>
      if target ≤ (ctrAt s (coreNo g) m).val.toNat then .next (waitReached gid m d acq scope s)
      else if cancelBit s g then .next (waitCancelled g d s)
      else .refused .notEnabled
    | _ => .refused .notEnabled

/-! ### Watchdogs (R53, R322, R360) -/

/-- The watchdog interval of a group's launch (R375). -/
def wdogOf (s : State) (g : Group) : Nat :=
  match findLaunch s g.launch with
  | none => 2 ^ 20
  | some l => l.wdog

/-- The bus of a die is blocked, so that intervals on the die stand still (R360). -/
def busBlocked (s : State) (die : Nat) : Bool := (Sparse.get Bus.reset die s.buses).running

/-- A counter wait has expired: neither reached nor cancelled at the end of the ac in which its interval has passed (R322, R333). -/
def expired (s : State) (g : Group) : Bool :=
  match g.status with
  | .waitCounter m target _ _ _ since =>
    decide (since + wdogOf s g < s.ac) && !busBlocked s g.die && !decide (target ≤ (ctrAt s (coreNo g) m).val.toNat) &&
      !cancelBit s g
  | _ => false

/-- The oldest waiting acquisition of a lane. -/
def oldestWait (gs : List Group) : Option Group :=
  gs.foldl (fun b g => match blockWait g, b.bind blockWait with
    | none, _ => b
    | some _, none => some g
    | some (_, k), some (_, j) => if k < j then some g else b) none

/-- The acquisition that a lane grants next: the oldest that waits, once its blocks are free (R52). -/
def grantable (s : State) (core lane : Nat) : Option (Group × Nat) :=
  (oldestWait (onLane s core lane)).bind (fun g => (blockWait g).bind (fun w =>
    if w.1 * unitsPerBlock g ≤ freeUnits s core lane then some (g, w.1) else none))

/-- A waiting acquisition has expired: not to be granted when its interval has passed (R53, R322; that free blocks win is
DEDUCED from the reached target of R322, log entry 104). -/
def blockExpired (s : State) (g : Group) : Bool :=
  match g.status with
  | .waitBlocks _ _ since =>
    decide (since + wdogOf s g < s.ac) && !busBlocked s g.die && !(grantable s (coreNo g) g.lane).any (fun e => e.1.gid == g.gid)
  | _ => false

/-- Order of capture: core, lane, `sr.group` (R322). -/
def captureKey (g : Group) : Nat := coreNo g * 2 ^ 10 + g.lane * 32 + g.grp

/-- A group expires, and it is the one of its team that is captured: the lowest (R53, R322). -/
def captured (s : State) (g : Group) : Bool :=
  let gone := fun (h : Group) => expired s h || blockExpired s h
  gone g && (allGroups s).all (fun h => h.tid != g.tid || !gone h || decide (captureKey g ≤ captureKey h))

/-- The watchdog of a group expires (R322): the lowest expired group of its team is captured. -/
def execWaitWatchdogExpiry (gid : Nat) (s : State) : Result :=
  match liveGroup s gid with
  | none => .refused .notEnabled
  | some g =>
    match g.status with
    | .waitCounter m _ _ _ _ _ =>
      if captured s g then
        .next (trapGroup g ⟨0x19, 0, some (counterRef (coreNo g) m), 0⟩ g.pc s)
      else .refused .notEnabled
    | _ => .refused .notEnabled

/-- The watchdog of a waiting register-block acquisition expires (R53), with the capture of R322. -/
def execRegisterBlockWaitExpiry (gid : Nat) (s : State) : Result :=
  match liveGroup s gid with
  | none => .refused .notEnabled
  | some g =>
    match g.status with
    | .waitBlocks _ _ _ =>
      if captured s g then .next (trapGroup g ⟨0x1A, 0, none, 0⟩ g.pc s)
      else .refused .notEnabled
    | _ => .refused .notEnabled

/-! ### Register-block grants (R50, R52) -/

/-- The oldest waiting acquisition of a lane is granted once its blocks are free (R52). -/
def execXblkGrant (core lane : Nat) (s : State) : Result :=
  match grantable s core lane with
  | none => .refused .notEnabled
  | some (g, t) => .next (modGroup g.gid (fun g => advance { g with xblk := t, status := .ready }) s)

/-! ### Deferred reports (R250) -/

/-- A group stands at an instruction boundary: it is ready and no instruction of it has committed strands alone, or it
waits for a counter, a register block, the acceptance of a command, an emulation that has not begun or a copy (R25, R68, R250,
R364; DEDUCED, log entry 42). -/
def atBoundary (g : Group) : Bool :=
  match g.status with
  | .ready => g.ridx == 0
  | .accepting _ => true
  | .waitEmulation c => c.serial == 0
  | .waitCounter _ _ _ _ _ _ => true
  | .waitBlocks _ _ _ => true
  | .waitCopy _ => true
  | _ => false

/-- A group takes its oldest report (R250); when the group has ended its team is terminated. -/
def execDeferredReport (gid : Nat) (s : State) : Result :=
  match liveGroup s gid with
  | none => .refused .notEnabled
  | some g =>
    match g.reports with
    | [] => .refused .notEnabled
    | r :: rs =>
      if atBoundary g then
        .next (trapGroup g ⟨r.cause, r.subc, some r.addr, 0⟩ r.pc (modGroup gid (fun g => { g with reports := rs, status := .ready }) s))
      else if isOver g && (findTeam s g.tid).any (fun t => t.terminated.isNone) then
        .next (endByReport g ⟨r.cause, r.subc, some r.addr, 0⟩ r.pc (modGroup gid (fun g => { g with reports := rs }) s))
      else .refused .notEnabled

/-! ### Frames of the pool and refills (R201, R220, R425, R438) -/

/-- Frames of a die: PA[38:37] (R338). -/
def framesOfDie : Nat := 2 ^ 21

/-- Nobody owns a frame. -/
def unowned (s : State) (f : Nat) : Bool := (Sparse.get ⟨0, false⟩ f s.frames).owner == 0

/-- The first unowned frame of a die at or after a place, tried at most `n` times. -/
def seekFrame (s : State) (die : Nat) : Nat → Nat → Option Nat
  | 0, _ => none
  | n + 1, k =>
    if framesOfDie ≤ k then none
    else if unowned s (framesOfDie * die + k) then some (framesOfDie * die + k) else seekFrame s die n (k + 1)

/-- Writes zeros over a range of physical memory (R425). -/
def zeroRange (pa n : Nat) (s : State) : State :=
  { s with mem := Sparse.drop (fun a => decide (pa ≤ a) && decide (a < pa + n)) s.mem
           wrote := Sparse.drop (fun w => decide (pa ≤ 4 * w) && decide (4 * w < pa + n)) s.wrote
           cached := updateWhere (fun e => decide (pa ≤ 64 * e.line) && decide (64 * e.line < pa + n)) (fun e => { e with bad := false }) s.cached
           poison := s.poison.filter (fun b => !(decide (pa ≤ 64 * b) && decide (64 * b < pa + n)))
           tagFail := s.tagFail.filter (fun b => !(decide (pa ≤ 64 * b) && decide (64 * b < pa + n)))
           sums := s.sums.filter (fun c => !(decide (pa ≤ 64 * c.1) && decide (64 * c.1 < pa + n))) }

/-- Gives a frame to an owner, zeroed, with its attribute (R339, R425). -/
def giveFrame (owner f : Nat) (intlv : Bool) (s : State) : State :=
  { zeroRange (65536 * f) 65536 s with frames := Sparse.set ⟨0, false⟩ f ⟨owner, intlv⟩ s.frames }

/-- Takes a zeroed frame of a die from the pool for an owner: one that was returned and that nobody owns since, or the next
that was never used. -/
def takeFrame (owner die : Nat) (intlv : Bool) (s : State) : Option (Nat × State) :=
  match (Sparse.get [] die s.poolBack).filter (unowned s) with
  | f :: fs => some (f, giveFrame owner f intlv { s with poolBack := Sparse.set [] die fs s.poolBack })
  | [] =>
    match seekFrame s die (s.frames.length + 1) (Sparse.get 0 die s.poolNext) with
    | none => none
    | some f => some (f, giveFrame owner f intlv { s with poolNext := Sparse.set 0 die (f % framesOfDie + 1) s.poolNext })

/-- Takes up to `n` frames of a die: those taken. -/
def takeFrames (owner die : Nat) (intlv : Bool) : Nat → State → List Nat × State
  | 0, s => ([], s)
  | n + 1, s =>
    match takeFrame owner die intlv s with
    | none => ([], s)
    | some (f, s) =>
      let r := takeFrames owner die intlv n s
      (f :: r.1, r.2)

/-- Puts up to `n` zeroed frames on an engagement's free list of a die (R220, R438). -/
def refillList (eid die n : Nat) (s : State) : State :=
  let r := takeFrames (eid + 1) die false n s
  { r.2 with freeList := Sparse.set [] (4 * eid + die) (Sparse.get [] (4 * eid + die) r.2.freeList ++ r.1) r.2.freeList }

/-- `Charon` ends a refill (R201, R438): the group executes its instruction again, or takes cause 0x08 when the pool
holds no frame. -/
def execGrowRefillDone (gid : Nat) (s : State) : Result :=
  match findGroup s gid with
  | none => .refused .notEnabled
  | some g =>
    match g.status with
    | .waitGrow die va i =>
      let s := { refillList g.eid die (1 + Config.refillCount s.ctr % 64) s with ctr := s.ctr + 1 }
      if Sparse.get [] (4 * g.eid + die) s.freeList = [] then
        .next (trapGroup g ⟨0x08, 6, some va, i⟩ g.pc (modGroup gid (fun g => { g with status := .ready }) s))
      else .next (modGroup gid (fun g => { g with status := .ready }) s)
    | _ => .refused .notEnabled

/-! ### Core clocks and dirty words (R211, R305) -/

/-- An automatic tick of a core's clock (R211). -/
def execCoreClockTick (core : Nat) (s : State) : Result :=
  let k := coreAt s core
  if k.tick + ageOf k ≤ s.ac then
    .next (setCore core { k with cc := k.cc + 1, tick := k.tick + ageOf k } s)
  else .refused .notEnabled

/-- A line has been dirty for 8,192 ac (R305). -/
def overdue (s : State) (l : Line) : Bool := l.dirty != 0 && decide (l.since + 8192 ≤ s.ac)

/-- Lines that have been dirty for 8,192 ac are written back (R305). -/
def execDirtyWritebackBound (core : Nat) (s : State) : Result :=
  if (coreAt s core).lines.any (overdue s) then .next (writeBackAll core (overdue s) s) else .refused .notEnabled

end Sys2Proof.Machine
end

