-- ==== Sys2Proof/Machine/Fetch.lean ====
section
/-! DEFINITION. Fetching an instruction (R97, R98, R113, R116, R117, R219) and the traps of fetch and decode. -/

namespace Sys2Proof.Machine

/-- What a fetch finds: the bytes of a word, a slot that holds no instruction, a trap, an untrained stack, or no
memory. -/
inductive Fetched where
  | bytes (b : List Byte)
  | data
  | trap (cause sub : Nat)
  | hold
  | hole
  deriving DecidableEq, Repr

/-- The slot number of an address in a kernel (R98). -/
def slotOf (base pc : DWord) : Nat := (pc.toNat - base.toNat) / 12

/-- Bit n of the executable-slot map is 1, and n is below the kernel's slot count (R116). -/
def slotExec (k : Kernel) (pc : DWord) : Bool :=
  decide (k.base.toNat ≤ pc.toNat) && decide (slotOf k.base pc < k.slots) && nth false k.map (slotOf k.base pc)

/-- Translation of one fetched byte's page (R219). -/
def fetchAt (g : Group) (va : DWord) (s : State) : Place × State :=
  if va.toNat / 2 ^ 56 ≠ 0 then (.bad 0x08 3, s) else translate (some (coreNo g)) g.eid g.die va .fetch s

/-- The bytes of a line of code: from the core's instruction cache, or from memory into it, at most 1,024 lines (R203, R213); the
read is the group's (R428). -/
def codeLine (g : Group) (va : DWord) (line : Nat) (s : State) : Except (Nat × Nat) (List Byte) × State :=
  match (coreAt s (coreNo g)).icache.find? (fun l => l.eid == g.eid && l.line == line) with
  | some l => (.ok l.bytes, s)
  | none => match memError s (64 * line) 64 with
    | some e => (.error e, s)
    | none =>
      let b := memRead s (64 * line) 64
      (.ok b, modCore (coreNo g) (fun k => { k with icache := (⟨g.eid, line, b⟩ :: k.icache).take 1024 })
        (note (agentOf g) g.eid 0 (va &&& ~~~ (63 : DWord)) (some (64 * line)) 64 s))

/-- `n` bytes of code at a physical address, which lie in one line or two. -/
def codeBytes (g : Group) (va : DWord) (pa n : Nat) (s : State) : Except (Nat × Nat) (List Byte) × State :=
  match codeLine g va (pa / 64) s with
  | (.error e, s) => (.error e, s)
  | (.ok a, s) =>
    if pa % 64 + n ≤ 64 then (.ok ((a.drop (pa % 64)).take n), s)
    else match codeLine g (va + 64) (pa / 64 + 1) s with
      | (.error e, s) => (.error e, s)
      | (.ok b, s) => (.ok ((a.drop (pa % 64) ++ b).take n), s)

/-- The twelve bytes at an address: the first page and, where the word crosses into it, the next. -/
def fetchBytes (g : Group) (pc : DWord) (s : State) : Fetched × State :=
  let first := fun (p : Place) => match p with
    | .hold => Fetched.hold
    | .bad cause sub => .trap cause sub
    | .mem _ => .bytes []
    | _ => .hole
  let n := min 12 (65536 - pc.toNat % 65536)
  match fetchAt g pc s with
  | (.mem pa, s) =>
    match codeBytes g pc pa n s with
    | (.error e, s) => (.trap e.1 e.2, s)
    | (.ok a, s) =>
      if n = 12 then (.bytes a, s)
      else match fetchAt g (pc + BitVec.ofNat 64 n) s with
        | (.mem pb, s) =>
          match codeBytes g (pc + BitVec.ofNat 64 n) pb (12 - n) s with
          | (.error e, s) => (.trap e.1 e.2, s)
          | (.ok b, s) => (.bytes (a ++ b), s)
        | (p, s) => (first p, s)
  | (p, s) => (first p, s)

/-- The fetch of the running group's next word (R113 step 1, R116). -/
def fetch (s : State) : Fetched × State :=
  match findLaunch s s.g.launch with
  | none => (.data, s)
  | some l => if slotExec l.kernel s.g.pc then fetchBytes s.g s.g.pc s else (.data, s)

/-- A fault of a fetch: `sr.tpc` and `sr.taddr` are the slot's address (R219). -/
def fetchTrap (cause sub : Nat) (s : State) : Result := trapped ⟨cause, sub, some s.g.pc, 0⟩ s

/-- A word that is no instruction (R113 steps 2 and 3). -/
def execIllegalInstruction (s : State) : Result := trapped (wordTrap 0x01) s

/-- A slot that holds no instruction, or a pool header (R113, R116). -/
def execExecuteDataTrap (s : State) : Result := trapped ⟨0x03, 0, some s.g.pc, 0⟩ s

/-- The instruction that a fetched slot stands for (R113 steps 1 to 3); none when the fetch stopped otherwise. -/
def fetchedInstr : Fetched → Option Instr
  | .bytes b =>
    match decodeBytes b with
    | .instr i => some i
    | .rejected .pool => some .executeDataTrap
    | .rejected _ => some .illegalInstruction
  | .data => some .executeDataTrap
  | _ => none

/-- What a fetch that brought no instruction does. -/
def fetchStop (f : Fetched) (s : State) : Result :=
  match f with
  | .trap cause sub => fetchTrap cause sub s
  | .hold => .next (setG { s.g with status := .waitTraining } s)
  | _ => .fault .noSuchPhysicalAddress

/-! ### Which group issues next (R64, R185) -/

/-- Issue priority of a role: matrix-issue, normaliser, producer, general (R57, R64). -/
def roleRank (g : Group) : Nat :=
  match g.role.toNat with
  | 2 => 0
  | 3 => 1
  | 1 => 2
  | _ => 3

/-- A group may issue its next instruction: it takes its reports first, unless that instruction has strands left to commit. -/
def canIssue (s : State) (g : Group) : Bool :=
  g.status == .ready && (g.reports == [] || g.ridx != 0) && !(coreAt s (coreNo g)).unavailable && !saving s g

/-- A ready group has waited 64 ac without issuing (R64). -/
def aged (s : State) (g : Group) : Bool := decide (g.waitingSince + 64 ≤ s.ac)

/-- Place of a group in the round robin of its lane, which starts after the group that issued last (R64) and goes by group
number (DESIGN CHOICE, log entry 103: the manual names the start alone). -/
def robin (s : State) (g : Group) : Nat :=
  let last := Sparse.get 0 g.lane (coreAt s (coreNo g)).last
  if last < g.gid then g.gid - last else g.gid + s.fresh

/-- The order of R64 between two ready groups of a lane; groups that are equally old come by role, then by rotation (DESIGN
CHOICE, log entry 103). -/
def issuesBefore (s : State) (g h : Group) : Bool :=
  if aged s g != aged s h then aged s g
  else if aged s g && g.waitingSince != h.waitingSince then decide (g.waitingSince < h.waitingSince)
  else if roleRank g != roleRank h then decide (roleRank g < roleRank h)
  else decide (robin s g ≤ robin s h)

/-- The group a lane issues from: none of the other ready groups comes before it, and it has not yielded to one. -/
def lanePick (s : State) (g : Group) : Bool :=
  let rivals := (allGroups s).filter (fun h => canIssue s h && coreNo h == coreNo g && h.lane == g.lane && h.gid != g.gid)
  canIssue s g && (if g.yielded then rivals.all (·.yielded) else true) &&
    rivals.all (fun h => h.yielded && !g.yielded || issuesBefore s g h)

/-- Makes the group of a number the running one. -/
def bring (gid : Nat) (s : State) : State :=
  if s.g.gid = gid then s
  else match s.others.find? (fun g => g.gid == gid) with
    | none => s
    | some g =>
      { s with g := g, others := (if s.g.gid = 0 then [] else [s.g]) ++ s.others.filter (fun h => h.gid != gid) }

/-- The running group issues: it has yielded no longer, unless this instruction is a `YIELD` (R185: a yield counts at the
lane's next issue decision alone). -/
def startIssue (s : State) : State := setG { s.g with yielded := false } s

/-- Notes that the running group has issued (R64, R185). -/
def issued (gid core lane : Nat) (s : State) : State :=
  let s := modGroups (fun h => coreNo h == core && h.lane == lane && h.gid != gid) (fun h => { h with yielded := false }) s
  modCore core (fun k => { k with last := Sparse.set 0 lane gid k.last }) (modGroup gid (fun g => { g with waitingSince := s.ac }) s)

/-! ### Time (R6, R59, R435) -/

/-- sc in `n` ac: 1,400 MHz against 700 − 70 × `STEP` MHz, or against 350 MHz in reduced service. -/
def scOf (s : State) (n : Nat) : Nat := if s.phase = 3 ∨ s.phase = 4 then 4 * n else ceilDiv (20 * n) (10 - s.pstep)

/-- Time passes; a group that is not ready has not been waiting for its lane. -/
def pass (n : Nat) (s : State) : State :=
  let s := modGroups (fun g => g.status != .ready) (fun g => { g with waitingSince := s.ac + n }) s
  { s with ac := s.ac + n, sc := s.sc + scOf s n }

end Sys2Proof.Machine
end

