-- ==== Sys2Proof/Machine/Handles.lean ====
section
/-! DEFINITION. Memory as the engines and the control core reach it, tensor handles, their descriptors, versions and
placement (R220, R300, R339, R341, R347 to R353). -/

namespace Sys2Proof.Machine

/-! ### Ranges of an engagement's memory -/

/-- A range cut at 64 KiB boundaries: an address and a length for each page it touches. -/
def pagesFrom : Nat → DWord → Nat → List (DWord × Nat)
  | 0, _, _ => []
  | k + 1, va, n =>
    if n = 0 then []
    else
      let m := min n (65536 - va.toNat % 65536)
      (va, m) :: pagesFrom k (va + BitVec.ofNat 64 m) (n - m)

/-- The pages of `n` bytes at an address. -/
def pagesOf (va : DWord) (n : Nat) : List (DWord × Nat) := pagesFrom (n / 65536 + 2) va n

/-- The walk of an access by a writer that stands on no core, or by a command of a core of the die: an empty free list
is refilled by `Charon` at once (R201, R220, R438). -/
def devPlace (eid die : Nat) (va : DWord) (acc : Acc) (s : State) : Place × State :=
  if va.toNat / 2 ^ 56 ≠ 0 then (.bad 0x08 3, s)
  else match walk none eid die va acc s with
    | (.refill d, s) =>
      let s := refillList eid d 1 s
      match walk none eid die va acc s with
      | (.refill _, s) => (.bad 0x08 6, s)
      | r => r
    | r => r

/-- What reading a range gives: its bytes, or the address and the place where it stopped. -/
inductive Got where
  | bytes (b : List Byte)
  | stop (va : DWord) (p : Place)
  deriving DecidableEq, Repr

/-- The bytes of one place. -/
def placeBytes (va : DWord) (n : Nat) (p : Place) (s : State) : Got :=
  match p with
  | .mem pa => match memError s pa n with
    | some (c, sub) => .stop va (.bad c sub)
    | none => .bytes (memRead s pa n)
  | .loc c a => if localError s c a n then .stop va (.bad 0x20 3) else .bytes (localRead s c a n)
  | .zero => .bytes (List.replicate n 0)
  | p => .stop va p

/-- An agent that reads and writes ranges: where its addresses lead, and what its accesses of `n` bytes at the home slices
leave there beside the data. -/
structure Mover where
  place : DWord → Acc → State → Place × State
  leaves : DWord → Nat → Nat → Bool → State → State

/-- What an access leaves at a place. -/
def Mover.left (m : Mover) (va : DWord) (p : Place) (n : Nat) (writes : Bool) (s : State) : State :=
  match p with
  | .mem pa => m.leaves va pa n writes s
  | _ => s

/-- Reads pages in ascending order. -/
def readPages (m : Mover) : List (DWord × Nat) → State → Got × State
  | [], s => (.bytes [], s)
  | (va, n) :: t, s =>
    match m.place va .read s with
    | (p, s) => match placeBytes va n p s with
      | .stop a q => (.stop a q, countPlace p n s)
      | .bytes b =>
        match readPages m t (m.left va p n false s) with
        | (.bytes c, s) => (.bytes (b ++ c), s)
        | r => r

/-- Writes bytes to one page: none, or the place that takes none. -/
def writePage (m : Mover) (stamp : Nat) (va : DWord) (b : List Byte) (s : State) : Option Place × State :=
  match m.place va .write s with
  | (.mem pa, s) => (none, m.leaves va pa b.length true (sliceWrite pa b stamp s))
  | (.loc c a, s) => (none, localWrite c a b s)
  | (p, s) => (some p, s)

/-- Writes pages in ascending order, carrying `stamp`: none, or where it stopped. -/
def writePages (m : Mover) (stamp : Nat) : List (DWord × Nat) → List Byte → State → Option (DWord × Place) × State
  | [], _, s => (none, s)
  | (va, n) :: t, b, s =>
    match writePage m stamp va (b.take n) s with
    | (none, s) => writePages m stamp t (b.drop n) s
    | (some p, s) => (some (va, p), s)

/-- An agent that stands on no core: its accesses pass the cache role, and watch units see them (R341, R428). -/
def devMover (agent eid : Nat) : Mover :=
  ⟨devPlace eid 0, fun va pa n w s => sliceTouch va pa n w false (note agent eid (if w then 1 else 0) va (some pa) n s)⟩

/-- Reads an engagement's memory for the control core or the store. -/
def readVa (eid : Nat) (va : DWord) (n : Nat) (s : State) : Got × State := readPages (devMover charonAgent eid) (pagesOf va n) s

/-- Writes an engagement's memory for the control core or the store. -/
def writeVa (eid : Nat) (va : DWord) (b : List Byte) (stamp : Nat) (s : State) : Option (DWord × Place) × State :=
  writePages (devMover charonAgent eid) stamp (pagesOf va b.length) b s

/-- The same, keeping only the state. -/
def writeVaState (eid : Nat) (va : DWord) (b : List Byte) (s : State) : State := (writeVa eid va b 0 s).2

/-- Bytes read, padded with zeros where the read stopped. -/
def gotBytes (n : Nat) : Got → List Byte
  | .bytes b => b
  | .stop _ _ => List.replicate n 0

/-- Physical address of a mapped address, without the effects of a walk. -/
def mappedAt (s : State) (eid : Nat) (va : DWord) : Option Nat :=
  if va.toNat / 2 ^ 56 ≠ 0 then none
  else match walkFrom s va.toNat levels (engOf s eid).root none with
    | .leaf e _ shift => if pteBit e 55 then none else some (pteAddr e + va.toNat % 2 ^ shift)
    | _ => none

/-! ### Descriptors (R347) -/

/-- A handle descriptor. -/
structure Desc where
  kind : Nat
  prio : Nat
  prot : Nat
  fcode : Nat
  drop : Bool
  loc : Nat
  state : Nat
  out : Nat
  rows : Nat
  rowBytes : Nat
  ext : List Nat
  back : DWord
  lease : Nat
  deriving DecidableEq, Repr

/-- The fields of a descriptor; none when it is not allocated. -/
def descOf (b : List Byte) : Option Desc :=
  let w := fun (off n : Nat) => entryField b off n
  let c := w 0 4
  if c % 2 = 0 then none
  else some { kind := bitsAt c 2 1, prio := bitsAt c 5 3, prot := bitsAt c 7 6, fcode := bitsAt c 11 8
              drop := bitsAt c 12 12 == 1, loc := bitsAt c 15 13, state := bitsAt (w 4 4) 2 0, out := bitsAt (w 4 4) 7 4
              rows := bitsAt (w 8 4) 31 16 + 1, rowBytes := (if w 8 2 = 0 then 65536 else w 8 2)
              ext := [w 12 4, w 16 4, w 20 4, w 24 4], back := BitVec.ofNat 64 (w 32 8), lease := w 40 8 }

/-- Address of a descriptor in the engagement's handle table. -/
def descAddr (s : State) (eid h : Nat) : DWord := (engOf s eid).htab + BitVec.ofNat 64 (64 * h)

/-- The descriptor of a handle, as the store reads it. -/
def readDesc (s : State) (eid h : Nat) : Option Desc :=
  (mappedAt s eid (descAddr s eid h)).bind (fun pa => descOf (memRead s pa 64))

/-- Formats that carry a trailer (R346). -/
def trailed (fcode : Nat) : Bool := fcode == 3 || fcode == 4 || fcode == 5

/-- Tiles of a handle, bytes of a tile and of a version (R347). -/
def tileCount (d : Desc) : Nat := (d.ext.filter (· ≠ 0)).foldl (· * ·) 1
def tileLen (d : Desc) : Nat := d.rows * d.rowBytes + if trailed d.fcode then 16 else 0
def versionLen (d : Desc) : Nat := tileCount d * tileLen d

/-- Data bytes of a frame under a protection mode (R346), and frames of a version (R347). -/
def frameData (prot : Nat) : Nat := if prot = 1 then 71424 else if prot = 2 then 73728 else 65536
def frameCount (d : Desc) : Nat := ceilDiv (versionLen d) (frameData d.prot)

/-- A write of `Charon` or the store to the handle table, which programs may have mapped read-only (R347): the mapping's
permissions do not bind it. -/
def writeTable (eid : Nat) (va : DWord) (b : List Byte) (s : State) : Option (DWord × Place) × State :=
  match mappedAt s eid va with
  | some pa => (none, (devMover charonAgent eid).leaves va pa b.length true (sliceWrite pa b 0 s))
  | none => writeVa eid va b 0 s

/-- Writes `STATE` and `OUT` (R352). -/
def writeHstat (eid h state out : Nat) (s : State) : State :=
  (writeTable eid (descAddr s eid h + 4) (leBytes 4 (state + 16 * out)) s).2

/-- Writes `LEASE` (R351). -/
def writeLease (eid h us : Nat) (s : State) : State := (writeTable eid (descAddr s eid h + 40) (leBytes 8 us) s).2

/-! ### Tiles of a handle (R348, R349, R353) -/

/-- The versions lie in frames: the handle is resident, or is leaving them (R353). -/
def inFrames (h : Handle) (d : Desc) : Bool := d.state == 2 || (d.state == 3 && h.move == .demote)

/-- Start of a version's half of the backing range (R347). -/
def backAddr (d : Desc) (second : Bool) : DWord :=
  d.back + (if second then BitVec.ofNat 64 (ceilDiv (versionLen d) 65536 * 65536) else 0)

/-- A poisoned block lies among `n` bytes of a version from an offset. -/
def badBlocksIn (k : Handle) (second : Bool) (off n : Nat) : Bool :=
  k.bad.any (fun b => (b % 2 == 1) == second && decide (64 * (b / 2) < off + n) && decide (off < 64 * (b / 2) + 64))

/-- A handle reference (R38). -/
def handleRef (h tile : Nat) : DWord := BitVec.ofNat 64 (2 ^ 62 + h * 2 ^ 32 + tile)

/-- The reference of the tile that holds an offset of a version. -/
def tileAtOff (d : Desc) (h off : Nat) : DWord := handleRef h (off / tileLen d)

/-- `n` bytes of a version from an offset, read by a command: `m` reaches the backing range. A failure names the tile, or the
address in the backing range (R250, R288; DESIGN CHOICE, log entry 123: R288 names `sr.taddr` for cause 0x13 alone). -/
def readVersion (m : Mover) (eid h : Nat) (second : Bool) (off n : Nat) (s : State) : Got × State :=
  match readDesc s eid h with
  | none => (.stop (handleRef h 0) (.bad 0x08 0x10), s)
  | some d =>
    let k := handleOf s eid h
    if inFrames k d then
      if (badBlocksIn k second off n) then (.stop (tileAtOff d h off) (.bad 0x20 1), s)
      else (.bytes ((List.range n).map (fun j => Sparse.get 0 (off + j) (if second then k.ver1 else k.ver0))),
        modHandle eid h (fun k => { k with lastRead := s.ac }) (cross s))
    else if d.state = 0 || d.drop then (.stop (tileAtOff d h off) (.bad 0x08 0x15), s)
    else readPages m (pagesOf (backAddr d second + BitVec.ofNat 64 off) n) s

/-- Writes bytes of a version from an offset for a command. -/
def writeVersion (m : Mover) (eid h : Nat) (second : Bool) (off : Nat) (b : List Byte) (s : State) : Option (DWord × Place) × State :=
  match readDesc s eid h with
  | none => (some (handleRef h 0, .bad 0x08 0x10), s)
  | some d =>
    if inFrames (handleOf s eid h) d then
      (none, modHandle eid h (fun k =>
        let whole := fun (j : Nat) => (j % 2 == 1) == second && decide (off ≤ 64 * (j / 2)) && decide (64 * (j / 2) + 64 ≤ off + b.length)
        let k := { k with bad := k.bad.filter (fun j => !whole j) }
        if second then { k with ver1 := putBytes off b k.ver1 } else { k with ver0 := putBytes off b k.ver0 }) (cross s))
    else if d.state = 0 || d.drop then (some (tileAtOff d h off, .bad 0x08 0x15), s)
    else writePages m 0 (pagesOf (backAddr d second + BitVec.ofNat 64 off) b.length) b s

/-- The largest write time of the lines of a range. -/
def rangeWts (s : State) (eid : Nat) (va : DWord) (n : Nat) : Nat :=
  ((pagesOf va n).map (fun e => match mappedAt s eid e.1 with
    | some pa => ((linesOf pa e.2).map (wtsOf s)).foldl max 0
    | none => 0)).foldl max 0

/-- The largest write time of a range of a version: that of its backing memory, while it lies there (R211, R349). -/
def versionStamp (s : State) (eid h : Nat) (second : Bool) (off n : Nat) : Nat :=
  match readDesc s eid h with
  | none => 0
  | some d => if inFrames (handleOf s eid h) d then 0 else rangeWts s eid (backAddr d second + BitVec.ofNat 64 off) n

/-! ### Tensor frames (R341, R343, R348, R350) -/

/-- Every tensor frame in use: 48 × way-group of the package + frame. -/
def usedFrames (s : State) : List Nat := s.handles.flatMap (fun e => e.2.frames)

/-- The free tensor frames of a slice (R341, R344: none is taken while a role change runs). -/
def freeOfSlice (s : State) (used : List Nat) (slice : Nat) : List Nat :=
  ((s.wgcfg.filter (fun e => e.1 / 16 == slice && e.2.role == 1 && !e.2.busy)).flatMap
    (fun e => (List.range 48).map (fun k => 48 * e.1 + k))).filter (fun f => !used.contains f)

/-- The slices of a handle's placement set, in the rotation of frame f (R348). -/
def rotation (d : Desc) (h f : Nat) : List Nat :=
  if d.loc = 0 then (List.range 128).map (fun k => (h + f + k) % 128)
  else (List.range 32).map (fun k => 32 * (d.loc - 1) + (h + f + k) % 32)

/-- Free frames in a handle's placement set (R350). -/
def freeFrames (s : State) (d : Desc) : List Nat := (rotation d 0 0).flatMap (freeOfSlice s (usedFrames s))

/-- Places the frames of one version (R348), given those already taken. -/
def placeVersion (s : State) (d : Desc) (h : Nat) : Nat → Nat → List Nat → Option (List Nat)
  | 0, _, taken => some taken
  | n + 1, f, taken =>
    match (rotation d h f).flatMap (fun sl => (freeOfSlice s (usedFrames s ++ taken) sl).take 1) with
    | [] => none
    | x :: _ => placeVersion s d h n (f + 1) (taken ++ [x])

/-- Places both versions of a handle. -/
def placeBoth (s : State) (d : Desc) (h : Nat) : Option (List Nat) :=
  (placeVersion s d h (frameCount d) 0 []).bind (fun t => placeVersion s d h (frameCount d) 0 t)

/-- Way-group of the package, slice and die of a tensor frame. -/
def frameDie (f : Nat) : Nat := f / 48 / 16 / 32

/-- A frame lies in a handle's placement set. -/
def inPlacement (d : Desc) (f : Nat) : Bool := d.loc == 0 || frameDie f == d.loc - 1

/-- A handle may be evicted for one of priority p (R350). -/
def evictable (s : State) (p : Nat) (d : Desc) : Bool :=
  d.state == 2 && decide (d.prio < p) && (d.kind == 0 || (d.kind == 1 && decide (d.lease ≤ nowUs s)))

/-- The order of R350: priority, best-effort first, least recently read. -/
def evictKey (d : Desc) (h : Handle) : Nat := (d.prio * 2 + d.kind % 2) * 2 ^ 80 + h.lastRead

/-- Puts a candidate in its place. -/
def insertCand (c : Nat × Nat) : List (Nat × Nat) → List (Nat × Nat)
  | [] => [c]
  | e :: t => if c.1 < e.1 then c :: e :: t else e :: insertCand c t

/-- The handles that a promotion may evict, in order (R350). -/
def candidates (s : State) (d : Desc) : List Nat :=
  ((s.handles.filter (fun e =>
      e.2.frames.any (inPlacement d) && (readDesc s (e.1 / 16384) (e.1 % 16384)).any (evictable s d.prio))).foldl
    (fun l e => match readDesc s (e.1 / 16384) (e.1 % 16384) with
      | some v => insertCand (evictKey v e.2, e.1) l
      | none => l) []).map (·.2)

/-! ### Moves (R349 to R353) -/

/-- The handle a `PUBLISH` names. -/
def publishesHandle (c : Command) : Option Nat :=
  match c.kind with
  | .publish h _ => some (h.toNat % 16384)
  | _ => none

/-- Every command in every sequencer, with its core. -/
def allCommands (s : State) : List (Nat × Command) := s.cores.flatMap (fun c => c.2.seq.map (fun d => (c.1, d)))

/-- Every command in the sequencer section of a saved context (R384). -/
def keptCommands (s : State) : List Command := s.saved.flatMap (fun v => v.teams.flatMap (fun t => t.seqs.flatten))

/-- A command is in flight: it has begun, or no predecessor holds it back (DEDUCED, log entry 122). -/
def inFlight (c : Command) : Bool := c.phase == .running || (c.phase == .waiting && c.preds == [])

/-- A write into a handle's shadow or a publication of the handle is in flight (R353). -/
def handleBusy (s : State) (eid h : Nat) : Bool :=
  (allCommands s).any (fun e => e.2.eid == eid && (writesHandle e.2 == some h || publishesHandle e.2 == some h) && inFlight e.2)

/-- The physical block behind a poisoned block of a handle. -/
def spillBlock (eid : Nat) (d : Desc) (s : State) (b : Nat) : State :=
  match mappedAt s eid (backAddr d (b % 2 == 1) + BitVec.ofNat 64 (64 * (b / 2))) with
  | none => s
  | some pa => poisonLine s (pa / 64)

/-- Writes both versions of a handle to its backing range, poisoned blocks as poison. -/
def spill (eid h : Nat) (d : Desc) (s : State) : State :=
  let k := handleOf s eid h
  let bytes := fun (v : Sparse Byte) => (List.range (versionLen d)).map (fun j => Sparse.get 0 j v)
  let s := writeVaState eid (backAddr d true) (bytes k.ver1) (writeVaState eid (backAddr d false) (bytes k.ver0) s)
  k.bad.foldl (spillBlock eid d) s

/-- A handle's tiles leave the B buffers of every engine: they are no longer those of its active version (R265). -/
def dropKeys (eid h : Nat) (s : State) : State :=
  { s with cores := s.cores.map (fun e => (e.1, { e.2 with bbuf := e.2.bbuf.filter (fun k => k.handle != handleKey eid h) })) }

/-- The end of a demotion (R351): both versions go to the backing range, or are lost, and the frames are free. -/
def finishDemote (eid h out : Nat) (d : Desc) (s : State) : State :=
  let s := if d.drop then dropKeys eid h s else spill eid h d s
  let s := modHandle eid h (fun k => { k with ver0 := [], ver1 := [], frames := [], move := .none, asker := none, bad := [] }) s
  writeHstat eid h (if d.drop then 0 else 1) out s

/-- Reads both versions for a promotion: none when a read fails (R350). -/
def fillVersions (eid : Nat) (d : Desc) (s : State) : Option (List Byte × List Byte) × State :=
  match readVa eid (backAddr d false) (versionLen d) s with
  | (.bytes a, s) => match readVa eid (backAddr d true) (versionLen d) s with
    | (.bytes b, s) => (some (a, b), s)
    | (_, s) => (none, s)
  | (_, s) => (none, s)

/-- The end of a promotion (R349, R350): from the backing range, or every byte zero; a failed read abandons it. -/
def finishPromote (eid h : Nat) (d : Desc) (s : State) : State :=
  let give := fun (v : List Byte × List Byte) (s : State) =>
    writeHstat eid h 2 1 (modHandle eid h (fun k =>
      { k with ver0 := putBytes 0 v.1 [], ver1 := putBytes 0 v.2 [], move := .none, asker := none }) s)
  if d.drop then give ([], []) s
  else match fillVersions eid d s with
    | (some v, s) => give v s
    | (none, s) => writeHstat eid h 1 5 (modHandle eid h (fun k => { k with frames := [], move := .none, asker := none }) s)

/-- Demotes candidates in order until enough frames are free (R350); their `OUT` is done (DEDUCED, R352). -/
def makeRoom (d : Desc) (need : Nat) : List Nat → State → State
  | [], s => s
  | c :: t, s =>
    if need ≤ (freeFrames s d).length then s
    else match readDesc s (c / 16384) (c % 16384) with
      | none => makeRoom d need t s
      | some v => makeRoom d need t (finishDemote (c / 16384) (c % 16384) 1 v s)

/-- Frames that candidates hold in a placement set. -/
def candFrames (s : State) (d : Desc) (cs : List Nat) : Nat :=
  (cs.map (fun c => ((handleOf s (c / 16384) (c % 16384)).frames.filter (inPlacement d)).length)).sum

/-- What a promotion decides (R350, R434): an outcome code at once, or the move begins. -/
def beginPromote (eid h : Nat) (d : Desc) (asker : Option CmdRef) (s : State) : Option Nat × State :=
  if d.state = 2 then (some 2, s)
  else if (s.phase = 3 || s.phase = 4) && d.prot != 0 then (some 4, s)
  else
    let need := 2 * frameCount d
    let cs := candidates s d
    if (freeFrames s d).length + candFrames s d cs < need then (some 3, s)
    else
      let s := makeRoom d need cs s
      match placeBoth s d h with
      | none => (some 3, s)
      | some fs =>
        (none, writeHstat eid h 3 0 (modHandle eid h (fun k => { k with frames := fs, move := .promote, asker := asker }) s))

/-- A lease holds a leased-until handle (R344, R351). -/
def leaseHolds (s : State) (d : Desc) : Bool := d.kind == 1 && decide (nowUs s < d.lease)

/-- What a demotion decides (R351). -/
def beginDemote (eid h : Nat) (d : Desc) (asker : Option CmdRef) (s : State) : Option Nat × State :=
  if d.kind == 2 || leaseHolds s d then (some 4, s)
  else if d.state ≠ 2 then (some 2, s)
  else (none, writeHstat eid h 3 0 (modHandle eid h (fun k => { k with move := .demote, asker := asker }) s))

/-- What a renewal decides (R351). -/
def renew (eid h len : Nat) (d : Desc) (s : State) : Nat × State :=
  let k := handleOf s eid h
  if d.kind ≠ 1 then (4, s)
  else if len = 0 && k.kept = 0 then (4, s)
  else (1, writeLease eid h (nowUs s + (if len = 0 then k.kept else len)) s)

end Sys2Proof.Machine
end

