-- ==== Sys2Proof/Machine/Engine.lean ====
section
/-! DEFINITION. The command sequencer and the copy-family commands: issue, the checks of acceptance, the moving of rows,
counter increments, publication, residency, retirement and failure (R37, R38, R122, R245 to R254, R266, R272,
R349 to R353, R357). -/

namespace Sys2Proof.Machine

/-! ### Issue (R111, R245) -/

/-- A command of the running group with its ids and the values sampled at issue (R111, R274). -/
def newCommand (g : Group) (x : Fields) (k : CmdKind) : Command :=
  { kind := k, team := g.tid, group := g.gid, id := x.e.toNat, p1 := (x.imm.extractLsb' 8 8).toNat
    p2 := (x.imm.extractLsb' 0 8).toNat, serial := 0, preds := [], cancelled := false, phase := .waiting, pc := g.pc
    scope := x.md.toNat, fmt := g.fmt, jord := g.jord, yields := false, shadow := false, eid := g.eid, moved := 0
    data := [], stamp := 0, part := [], sent := 0, emulated := false, last := evictFirst x, word := x, onto := [] }

/-- Four and two consecutive uniform registers. -/
def sRegs (g : Group) (o : Opnd) (n : Nat) : List Word := (List.range n).map (fun j => sGet g (opIdx o + j))

/-- A 64-bit operand of a command. -/
def sPair (g : Group) (o : Opnd) : DWord := read64 g ⟨⟨false, 7⟩, ⟨false, 7⟩, true, false, 0, 0, .v 0, .v 0, .v 0, .v 0, 0, 0⟩ 0 o

/-- A command id is valid: not 0 (R111). -/
def idOk (x : Fields) : Bool := x.e != 0 && !isLong x

/-- A command issues when its q guards hold: it is offered to the sequencer (R245, R248). -/
def issueCommand (x : Fields) (ok : Bool) (k : Group → CmdKind) (yields : Bool) (s : State) : Result :=
  need (idOk x && ok) (wordTrap 0x02) s (
    if holdsQ s.g x then
      let c := { newCommand s.g x (k s.g) with yields := yields }
      .next (setG { s.g with status := .accepting c } s)
    else finish s.g s)

/-- An s register, pair or quad of a command (R245). -/
def sOk (g : Group) (o : Opnd) (n : Nat) : Bool := isS o && regOk g o n

/-- `COPY` (R245). -/
def execCopy (f : CopyDir) (x : Fields) (s : State) : Result :=
  issueCommand x (sOk s.g x.d 2 && sOk s.g x.a 2 && sOk s.g x.b 4 && regsOk s.g [(x.d, 2), (x.a, 2), (x.b, 4)])
    (fun g => let q := sRegs g x.b 4; .copy f (sPair g x.d) (sPair g x.a) (nth 0 q 0) (nth 0 q 1) (nth 0 q 2) (nth 0 q 3))
    x.ru s

/-- `XPOSE` (R252). -/
def execXpose (x : Fields) (s : State) : Result :=
  issueCommand x (sOk s.g x.d 2 && sOk s.g x.a 2 && sOk s.g x.b 4 && regsOk s.g [(x.d, 2), (x.a, 2), (x.b, 4)])
    (fun g => let q := sRegs g x.b 4; .xpose (sPair g x.d) (sPair g x.a) (nth 0 q 0) (nth 0 q 1) (nth 0 q 2) (nth 0 q 3))
    false s

/-- `PUBLISH` (R253): an all-zero B names no notification. -/
def execPublish (x : Fields) (s : State) : Result :=
  issueCommand x (sOk s.g x.d 1 && (opZero x.b || sOk s.g x.b 1))
    (fun g => .publish (sGet g (opIdx x.d)) (if opZero x.b then 0 else sGet g (opIdx x.b))) false s

/-- `RESV` (R254). -/
def execResv (x : Fields) (s : State) : Result :=
  issueCommand x (sOk s.g x.d 1 && sOk s.g x.b 2 && regsOk s.g [(x.d, 1), (x.b, 2)])
    (fun g => .resv (sGet g (opIdx x.d)) (sGet g (opIdx x.b)) (sGet g (opIdx x.b + 1))) false s

/-! ### Descriptors (R246, R252) -/

def dRows (d0 : Word) : Nat := bitsAt d0.toNat 31 16 + 1
def dBytes (d0 : Word) : Nat := if bitsAt d0.toNat 15 0 = 0 then 65536 else bitsAt d0.toNat 15 0
def dKind (d3 : Word) : Nat := bitsAt d3.toNat 31 29
def dAp (d3 : Word) : Bool := d3.getLsbD 28
def dFcode (d3 : Word) : Nat := bitsAt d3.toNat 27 24
def dTrl (d3 : Word) : Bool := d3.getLsbD 23
def dCnte (d3 : Word) : Bool := d3.getLsbD 22
def dCntr (d3 : Word) : Nat := bitsAt d3.toNat 21 16
def dMask (d3 : Word) : Nat := bitsAt d3.toNat 15 0

/-- Columns of a tile with a trailer (R246). -/
def dCols (d0 d3 : Word) : Nat := if dFcode d3 = 4 then 2 * dBytes d0 else dBytes d0

/-- Element size of `XPOSE` by format (R252); 0 for a code it does not take. -/
def xSize (fcode : Nat) : Nat :=
  match fcode with
  | 0 => 4
  | 6 => 4
  | 1 => 2
  | 2 => 2
  | 3 => 1
  | 5 => 1
  | _ => 0

/-- A side of a copy: addresses with a signed stride, a tile of a handle, or the pooled allocations of several cores. -/
inductive Side where
  | mem (base : DWord) (stride : Int)
  | hnd (pair : DWord)
  | multi (off : Nat) (stride : Int) (mask : Nat)
  deriving DecidableEq, Repr

/-- Address of row i. -/
def rowAt (base : DWord) (stride : Int) (i : Nat) : DWord := BitVec.ofInt 64 (base.toNat + i * stride)

/-- Handle id and tile index of an operand pair (R246). -/
def hndId (p : DWord) : Nat := p.toNat % 16384
def hndTile (p : DWord) : Nat := p.toNat / 2 ^ 32
def hndBad (p : DWord) : Bool := decide (bitsAt p.toNat 31 14 ≠ 0)

/-- Source and destination of a command that moves rows. -/
def srcSide (k : CmdKind) : Option Side :=
  match k with
  | .copy dir _ src _ d1 _ _ => if dir == .h2l || dir == .h2g then some (.hnd src) else some (.mem src d1.toInt)
  | .xpose _ src _ d1 _ _ => some (.mem src d1.toInt)
  | _ => none

def dstSide (k : CmdKind) : Option Side :=
  match k with
  | .copy dir dst _ _ _ d2 d3 =>
    if dir == .g2h || dir == .l2h then some (.hnd dst)
    else if dMask d3 ≠ 0 then some (.multi (dst.toNat % 2 ^ 19) d2.toInt (dMask d3))
    else some (.mem dst d2.toInt)
  | .xpose dst _ _ _ d2 d3 =>
    if dKind d3 = 2 then some (.hnd dst)
    else if dKind d3 = 1 ∧ dMask d3 ≠ 0 then some (.multi (dst.toNat % 2 ^ 19) d2.toInt (dMask d3))
    else some (.mem dst d2.toInt)
  | _ => none

/-- Rows, row bytes and trailer bytes of the source tile. -/
def srcShape (k : CmdKind) : Nat × Nat × Nat :=
  match k with
  | .copy _ _ _ d0 _ _ d3 => (dRows d0, dBytes d0, if dTrl d3 then 16 else 0)
  | .xpose _ _ d0 _ _ _ => (dRows d0, dBytes d0, 0)
  | _ => (0, 0, 0)

/-- Rows, row bytes and trailer bytes of the destination tile. -/
def dstShape (k : CmdKind) : Nat × Nat × Nat :=
  match k with
  | .xpose _ _ d0 _ _ d3 => (dBytes d0 / max 1 (xSize (dFcode d3)), dRows d0 * xSize (dFcode d3), 0)
  | k => srcShape k

/-! ### Where a command's addresses lie -/

/-- A core that a multicast bit names (R251): none when the gang holds no such half. -/
def maskCore (s : State) (t : Team) (core i : Nat) : Option Nat :=
  if i < 8 then some (8 * clusterOf core + i)
  else (otherHalf s t.launch t.gang core).map (fun h => 8 * h + (i - 8))

/-- A local place of a command: a split change refuses one that is still to be accepted, and never cuts short one that has
been (R207). -/
def cmdLocal (c : Command) (s : State) (p : Place) : Place := if c.serial = 0 then splitCheck s p else p

/-- The allocations of the teams of a command's gang: core, first byte and bytes (R319). -/
def gangStores (s : State) (c : Command) : List (Nat × Nat × Nat) :=
  match findTeam s c.team with
  | none => []
  | some t => (s.teams.filter (fun u => u.launch == t.launch && u.gang == t.gang)).flatMap (fun u =>
      (u.cores.zip u.locals).map (fun e => (e.1, 65536 * e.2, localSize u)))

/-- A team holds a byte of a core's local store. -/
def storeHeld (s : State) (core a : Nat) : Bool :=
  s.teams.any (fun t => (t.cores.zip t.locals).any (fun e => e.1 == core && decide (65536 * e.2 ≤ a) && decide (a < 65536 * e.2 + localSize t)))

/-- Where offset `o` in the allocation of a gang's team on a core leads a command: one that has been accepted still reaches the
allocation of a team that has ended since, until it is given again (R207, R319; DEDUCED, log entry 137). -/
def cmdPooledAt (s : State) (c : Command) (launch gang core o : Nat) : Place :=
  match gangTeam s launch gang core with
  | some _ => pooledAt s launch gang core o
  | none => match c.onto.find? (fun e => e.1 == core) with
    | none => .bad 0x08 4
    | some (_, b, n) => if decide (o < n) && !storeHeld s core (b + o) then .loc core (b + o) else .bad 0x08 4

/-- Where an address of its gang's pooled window leads a command (R319). -/
def cmdPooled (s : State) (c : Command) (launch gang core a : Nat) : Place :=
  match pooledCore s launch gang core a with
  | none => .bad 0x08 4
  | some k => cmdPooledAt s c launch gang k (a % 2 ^ 19)

/-- Where an address of a command leads; the grow pages that it reaches are those of its core's die (R220). -/
def cmdPlace (core : Nat) (c : Command) (va : DWord) (acc : Acc) (s : State) : Place × State :=
  let top := va.toNat / 2 ^ 56
  match findTeam s c.team with
  | none => if top = 0 then walk none c.eid (core / 48) va acc s else (.bad 0x08 4, s)
  | some t =>
    if top = 0xFF then (cmdLocal c s (windowAt t (va.toNat % 2 ^ 56)), s)
    else if top = 0xFE then (cmdLocal c s (cmdPooled s c t.launch t.gang core (va.toNat % 2 ^ 56)), s)
    else if top = 0 then walk none c.eid (core / 48) va acc s
    else (.bad 0x08 3, s)

/-- The commands of a core as an agent of the access log (R323, R428). -/
def cmdAgent (core : Nat) : Nat := 2 ^ 29 + core / 48 * 2 ^ 26 + core % 48 * 2 ^ 20

/-- The core on which the group that issued a command stands: after a restore no longer the one that accepted it. -/
def issuerCore (s : State) (core : Nat) (c : Command) : Nat := ((findGroup s c.group).map coreNo).getD core

/-- What an access of a command leaves at the home slices: its entry in the access log, and the lines in the cache role; and in
the L1 of the core of its group, which keeps no older clean words of what it has written (R299). -/
def cmdLeaves (core : Nat) (c : Command) (va : DWord) (pa n : Nat) (writes : Bool) (s : State) : State :=
  let s := if writes then loseClean (issuerCore s core c) c.eid pa n s else s
  note (cmdAgent core) c.eid 3 va (some pa) n (sliceTouch va pa n writes c.last s)

/-- A command is the matrix engine's own, which stands in its core; every other is performed on the base dies (R255, R357). -/
def inCore : CmdKind → Bool
  | .mma _ _ _ _ _ _ _ _ | .mmaz _ | .drain _ _ _ _ | .achk _ _ | .aload _ _ _ _ => true
  | .copy _ _ _ _ _ _ _ | .xpose _ _ _ _ _ _ | .publish _ _ | .resv _ _ _ => false

/-- What a command exchanges with a core crosses the bus of its die, unless its own core performs it (R338, R358). -/
def crossFrom (core : Nat) (c : Command) (target : Nat) (s : State) : State := if inCore c.kind && target == core then s else cross s

/-- The same of an access to a place in local store. -/
def cmdCross (core : Nat) (c : Command) (r : Place × State) : Place × State :=
  match r.1 with
  | .loc k _ => (r.1, crossFrom core c k r.2)
  | _ => r

/-- A running command's accesses to the addresses it names, and those to the backing range of a handle (R220, R349): a free
list that it finds empty is refilled. -/
def cmdMover (core : Nat) (c : Command) : Mover :=
  ⟨fun va acc s => if va.toNat / 2 ^ 56 = 0 then devPlace c.eid (core / 48) va acc s else cmdCross core c (cmdPlace core c va acc s),
    cmdLeaves core c⟩
def backMover (core : Nat) (c : Command) : Mover := ⟨devPlace c.eid (core / 48), cmdLeaves core c⟩

/-- The pooled allocation of a core at an offset. -/
def multiPlace (c : Command) (s : State) (t : Team) (core off : Nat) : Place :=
  cmdLocal c s (cmdPooledAt s c t.launch t.gang core off)

/-! ### Acceptance (R248) -/

/-- What a check of acceptance finds. -/
inductive Check where
  | ok
  | trap (cause sub : Nat) (addr : Option DWord)
  | wait (st : Status)
  | hole
  deriving DecidableEq, Repr

/-- The first check that does not pass. -/
def andThen (a : Check × State) (f : State → Check × State) : Check × State :=
  match a.1 with
  | .ok => f a.2
  | _ => a

/-- A condition of a descriptor (step 3): cause 0x02. -/
def descCheck (ok : Bool) (s : State) : Check × State := (if ok then .ok else .trap 0x02 0 none, s)

/-- What a place means at acceptance; a peer page is allowed where `peer`. -/
def placeCheck (peer : Bool) (va : DWord) (p : Place) : Check :=
  match p with
  | .refill die => .wait (.waitGrow die va 0)
  | .hold => .wait .waitTraining
  | .bad cause sub => .trap cause sub (some va)
  | .peer _ => if peer then .ok else .trap 0x08 0x13 (some va)
  | .hole => .hole
  | _ => .ok

/-- Of two findings, the one that comes first in step 6: translation before permission. -/
def earlier (a b : Check) : Check :=
  match a, b with
  | .ok, b => b
  | .trap 0x08 x y, _ => .trap 0x08 x y
  | a, .trap 0x08 x y => if a = .ok then .trap 0x08 x y else match a with
    | .trap _ _ _ => .trap 0x08 x y
    | a => a
  | a, _ => a

/-- Step 6 on the pages of one side (R248): every page is translated; grow pages of a destination are mapped. -/
def pagesCheck (core : Nat) (c : Command) (acc : Acc) (peer : Bool) : List (DWord × Nat) → Check → State → Check × State
  | [], k, s => (k, s)
  | (va, _) :: t, k, s =>
    let r := cmdPlace core c va acc s
    pagesCheck core c acc peer t (earlier k (placeCheck peer va r.1)) r.2

/-- Every page that the rows of a side touch; the last row carries the trailer. -/
def sidePages (base : DWord) (stride : Int) (shape : Nat × Nat × Nat) : List (DWord × Nat) :=
  (List.range shape.1).flatMap (fun i =>
    pagesOf (rowAt base stride i) (shape.2.1 + if i + 1 = shape.1 then shape.2.2 else 0))

/-- Smallest range of addresses that holds a side (R248 step 3). -/
def sideSpan (base : DWord) (stride : Int) (shape : Nat × Nat × Nat) : Int × Int :=
  let last := (base.toNat : Int) + (shape.1 - 1 : Nat) * stride
  (min (base.toNat : Int) last, max ((base.toNat : Int) + shape.2.1 + if shape.1 = 1 then shape.2.2 else 0) (last + shape.2.1 + shape.2.2))

/-- The address in the pooled window of offset `o` on the core that multicast bit `i` names (R251, R319). -/
def multiAddr (i o : Nat) : DWord := BitVec.ofNat 64 (0xFE * 2 ^ 56 + i / 8 * 2 ^ 28 + i % 8 * 2 ^ 20 + o)

/-- Two ranges lie in one space and intersect. -/
def rangesMeet (a b : DWord) (x y : Int × Int) : Bool :=
  a.toNat / 2 ^ 56 == b.toNat / 2 ^ 56 && decide (x.1 < y.2) && decide (y.1 < x.2)

/-- The ranges of two sides lie in one space and intersect (R248 step 3): a multicast has one in the pooled window for each
core it names. -/
def sidesMeet (k : CmdKind) : Bool :=
  match srcSide k with
  | some (.mem a da) =>
    let meets := fun (b : DWord) (db : Int) => rangesMeet a b (sideSpan a da (srcShape k)) (sideSpan b db (dstShape k))
    match dstSide k with
    | some (.mem b db) => meets b db
    | some (.multi o db m) => (bitsOf 16 (BitVec.ofNat 64 m)).any (fun i => meets (multiAddr i o) db)
    | _ => false
  | _ => false

/-- The spaces that a direction allows on the source and on the destination: global, local (R248). -/
def srcGlobal (k : CmdKind) : Bool :=
  match k with
  | .copy dir _ _ _ _ _ _ => dir == .g2l || dir == .g2h || dir == .g2g
  | _ => true

def dstGlobal (k : CmdKind) : Bool :=
  match k with
  | .copy dir _ _ _ _ _ _ => dir == .l2g || dir == .h2g || dir == .g2g
  | .xpose _ _ _ _ _ d3 => dKind d3 == 0
  | _ => true

/-- Bits 63:56 name the global space, or a window. -/
def isGlobal (va : DWord) : Bool := decide (va.toNat / 2 ^ 56 = 0)
def isWindow (va : DWord) : Bool := decide (va.toNat / 2 ^ 56 = 0xFF) || decide (va.toNat / 2 ^ 56 = 0xFE)

/-- Step 3 for `COPY` and `XPOSE` (R246, R248, R252). -/
def copyDescOk (k : CmdKind) : Bool :=
  let side := fun (d : Option Side) => match d with
    | some (.hnd _) => true
    | _ => false
  match k with
  | .copy _ _ _ d0 d1 d2 d3 =>
    decide (dBytes d0 % 4 = 0) && decide (d1.toNat % 4 = 0) && decide (d2.toNat % 4 = 0) &&
    decide (dRows d0 * dBytes d0 ≤ 2 ^ 24) && dKind d3 == 0 && decide (dCntr d3 ≤ 15) &&
    (!dTrl d3 || (trailed (dFcode d3) && decide (dRows d0 ≤ 256) && decide (dCols d0 d3 ≤ 256))) &&
    (!side (srcSide k) || d1 == 0) && (!side (dstSide k) || d2 == 0) && !sidesMeet k
  | .xpose _ _ d0 d1 d2 d3 =>
    decide (dBytes d0 % 4 = 0) && decide (d1.toNat % 4 = 0) && decide (d2.toNat % 4 = 0) &&
    decide (dRows d0 * dBytes d0 ≤ 2 ^ 24) && decide (dKind d3 ≤ 2) && decide (dCntr d3 ≤ 15) && !dTrl d3 &&
    decide (xSize (dFcode d3) ≠ 0) && (!side (dstSide k) || d2 == 0) && !sidesMeet k
  | _ => true

/-- The destination operand of a copy or a transposition. -/
def dstAddr (k : CmdKind) : Option DWord :=
  match k with
  | .copy _ dst _ _ _ _ _ => some dst
  | .xpose dst _ _ _ _ _ => some dst
  | _ => none

/-- Step 4: address spaces and `MASK` (R248, R251). -/
def spaceCheck (core : Nat) (c : Command) (s : State) : Check × State :=
  let space := fun (glob : Bool) (va : DWord) => if (if glob then isGlobal va else isWindow va) then Check.ok else .trap 0x08 0x13 (some va)
  let src := match srcSide c.kind with
    | some (.mem a _) => space (srcGlobal c.kind) a
    | _ => .ok
  let mask := match c.kind with
    | .copy _ _ _ _ _ _ d3 => dMask d3
    | .xpose _ _ _ _ _ d3 => dMask d3
    | _ => 0
  let dst := match dstAddr c.kind, dstSide c.kind with
    | some d, some (.multi _ _ m) =>
      if dstGlobal c.kind || decide (d.toNat / 2 ^ 56 ≠ 0xFE) then Check.trap 0x08 0x14 (some d)
      else match findTeam s c.team with
        | none => .trap 0x08 0x14 (some d)
        | some t =>
          if (List.range 16).all (fun i => m / 2 ^ i % 2 == 0 ||
              (maskCore s t core i).any (fun k => (gangTeam s t.launch t.gang k).isSome)) then .ok
          else .trap 0x08 0x14 (some d)
    | _, some (.mem a _) => if mask ≠ 0 then .trap 0x08 0x14 (some a) else space (dstGlobal c.kind) a
    | _, some (.hnd a) => if mask ≠ 0 then .trap 0x08 0x14 (some a) else .ok
    | _, _ => .ok
  (if src = .ok then dst else src, s)

/-- Step 5 on a handle operand pair (R246, R248, R349): shape and format as `agrees` says. `sr.taddr` of a handle that is not allocated
is the operand pair itself (DESIGN CHOICE, log entry 123). -/
def handleCheck (eid : Nat) (p : DWord) (agrees : Desc → Bool) (s : State) : Check × State :=
  if hndBad p then (.trap 0x08 0x10 (some p), s)
  else match readDesc s eid (hndId p) with
    | none => (.trap 0x08 0x10 (some p), s)
    | some d =>
      let ref := handleRef (hndId p) (hndTile p)
      (if tileCount d ≤ hndTile p then .trap 0x08 0x11 (some ref)
      else if !agrees d then .trap 0x08 0x12 (some ref)
      else if d.state = 0 then .trap 0x08 0x15 (some ref) else .ok, s)

/-- Agreement of a copy's descriptor with a handle (R246, R252). -/
def copyAgrees (k : CmdKind) (shape : Nat × Nat × Nat) (d : Desc) : Bool :=
  match k with
  | .copy _ _ _ _ _ _ d3 => d.rows == shape.1 && d.rowBytes == shape.2.1 && d.fcode == dFcode d3 && trailed d.fcode == dTrl d3
  | .xpose _ _ _ _ _ d3 => d.rows == shape.1 && d.rowBytes == shape.2.1 && d.fcode == dFcode d3 && !trailed d.fcode
  | _ => true

/-- Steps 5 and 6 on one side. -/
def sideHandle (c : Command) (sd : Option Side) (shape : Nat × Nat × Nat) (s : State) : Check × State :=
  match sd with
  | some (.hnd p) => handleCheck c.eid p (copyAgrees c.kind shape) s
  | _ => (.ok, s)

def sideAligned (sd : Option Side) (n : Nat) (s : State) : Check × State :=
  match sd with
  | some (.mem a _) => (if a.toNat % n = 0 then .ok else .trap 0x0B 0 (some a), s)
  | some (.multi o _ _) => (if o % n = 0 then .ok else .trap 0x0B 0 (some (BitVec.ofNat 64 (0xFE * 2 ^ 56 + o))), s)
  | _ => (.ok, s)

/-- A multicast row within each core's allocation (R251, R319). -/
def multiCheck (core : Nat) (c : Command) (off : Nat) (stride : Int) (mask : Nat) (shape : Nat × Nat × Nat) (s : State) : Check :=
  match findTeam s c.team with
  | none => .trap 0x08 4 none
  | some t =>
    let cores := (List.range 16).filterMap (fun i => if mask / 2 ^ i % 2 = 1 then maskCore s t core i else none)
    let ends : List Int := (List.range shape.1).flatMap (fun (i : Nat) =>
      let a : Int := (off : Int) + (i : Int) * stride
      [a, a + (shape.2.1 : Int) - 1 + (if i + 1 = shape.1 then (shape.2.2 : Int) else 0)])
    let out := fun (k : Nat) (a : Int) => if a < 0 then some (0x08, 4) else match multiPlace c s t k a.toNat with
      | .loc _ _ => none
      | .bad cause sub => some (cause, sub)
      | _ => some (0x08, 4)
    match (cores.flatMap (fun k => ends.filterMap (out k))).head? with
    | some (cause, sub) => .trap cause sub (some (BitVec.ofNat 64 (0xFE * 2 ^ 56 + off)))
    | none => .ok

/-- Step 6: the pages of one side. -/
def sideTranslate (core : Nat) (c : Command) (acc : Acc) (peer : Bool) (sd : Option Side) (shape : Nat × Nat × Nat)
    (k : Check) (s : State) : Check × State :=
  match sd with
  | some (.mem a d) => pagesCheck core c acc peer (sidePages a d shape) k s
  | some (.multi o d m) => (earlier k (multiCheck core c o d m shape s), s)
  | _ => (k, s)

/-- Steps 3 to 6 for `COPY` and `XPOSE`. -/
def copyCheck (core : Nat) (c : Command) (s : State) : Check × State :=
  let peer := match c.kind with
    | .copy _ _ _ _ _ _ _ => true
    | _ => false
  let src := srcSide c.kind
  let dst := dstSide c.kind
  andThen (descCheck (copyDescOk c.kind) s) fun s =>
  andThen (spaceCheck core c s) fun s =>
  andThen (sideHandle c src (srcShape c.kind) s) fun s =>
  andThen (sideHandle c dst (dstShape c.kind) s) fun s =>
  andThen (sideAligned src 4 s) fun s =>
  andThen (sideAligned dst 4 s) fun s =>
    let r := sideTranslate core c .read peer src (srcShape c.kind) .ok s
    sideTranslate core c .write peer dst (dstShape c.kind) r.1 r.2

/-- Steps 3 to 5 for `PUBLISH` and `RESV` (R253, R254). -/
def noteOk (n : Word) : Bool := n &&& ~~~ (0x007F0000 : Word) == 0 && decide (dCntr n ≤ 15)

def idCheck (c : Command) (h : Word) (s : State) : Check × State :=
  if h.toNat < 16384 ∧ (readDesc s c.eid (h.toNat % 16384)).isSome then (.ok, s) else (.trap 0x08 0x10 (some (zx64 h)), s)

def publishCheck (c : Command) (h note : Word) (s : State) : Check × State :=
  andThen (descCheck (noteOk note) s) (idCheck c h)

def resvCheck (c : Command) (h r0 : Word) (s : State) : Check × State :=
  andThen (descCheck (r0 &&& ~~~ (0x007F0003 : Word) == 0 && decide (dCntr r0 ≤ 15) && decide (r0.toNat % 4 ≠ 3)) s) (idCheck c h)

/-! ### The sequencer (R247, R266) -/

/-- The command that a reference names. -/
def findCmd (s : State) (r : CmdRef) : Option Command :=
  (coreAt s r.core).seq.find? (fun c => c.team == r.team && c.id == r.id)

/-- Replaces a command, by its acceptance number. -/
def putCmd (core : Nat) (c : Command) (s : State) : State :=
  modCore core (fun k => { k with seq := updateWhere (fun d => d.serial == c.serial) (fun _ => c) k.seq }) s

/-- The position in a team of a core, or of one on which it stood before it was restored elsewhere. -/
def posOf (t : Team) (core : Nat) : Nat := if t.cores.contains core then posIn t core else if t.cores.length = 2 then core % 2 else 0

/-- The commands of a team that belong to its context on a core: those in the core's entries, and those that run on where the
team stood before it was saved and restored (R383). -/
def ownSeq (s : State) (core tid : Nat) : List Command :=
  let old := match findTeam s tid with
    | none => []
    | some t => ((allCommands s).filter (fun e => !t.cores.contains e.1 && posOf t e.1 == posOf t core)).map (·.2)
  ((coreAt s core).seq ++ old).filter (fun c => c.team == tid)

/-- The sequencer of a core has an entry for a team, and the id is not live (R247, R266). -/
def entryFree (s : State) (core tid id : Nat) : Bool :=
  decide ((coreAt s core).seq.length < 64) && decide ((ownSeq s core tid).length < 32) && !(ownSeq s core tid).any (fun c => c.id == id)

/-- Acceptance numbers of the live commands that two ids name (R247). -/
def predsOf (s : State) (core : Nat) (c : Command) : List Nat :=
  ((ownSeq s core c.team).filter (fun d => d.id == c.p1 || d.id == c.p2)).map (·.serial)

/-- The handle version that is shadow at acceptance (R253). -/
def shadowOf (s : State) (c : Command) : Bool :=
  match writesHandle c with
  | none => false
  | some h => !(handleOf s c.eid h).second

/-- Place of a core's id in a team's table of retired ids. -/
def idSlot (t : Team) (core id : Nat) : Nat := 256 * posOf t core + id

/-- Largest write time of what the commands that retired last with the ids of a command's predecessors have written (R299). -/
def retiredStamp (s : State) (core : Nat) (c : Command) : Nat :=
  match findTeam s c.team with
  | none => 0
  | some t => max (Sparse.get 0 (idSlot t core c.p1) t.retired) (Sparse.get 0 (idSlot t core c.p2) t.retired)

/-- A command that waits for one whose emulation `Charon` has abandoned waits for it again as it is accepted anew (R201; DEDUCED, log
entry 131). -/
def awaitAgain (c d : Command) : Command :=
  if c.emulated && d.team == c.team && d.preds.contains 0 && (d.p1 == c.id || d.p2 == c.id) then { d with preds := c.serial :: d.preds.erase 0 }
  else d

/-- A command enters its entry (R247, R312). -/
def enterCommand (core : Nat) (c : Command) (s : State) : State :=
  let c := { c with serial := s.fresh, preds := predsOf s core c, shadow := shadowOf s c
                    stamp := max c.stamp (retiredStamp s core c), onto := gangStores s c }
  countUp c.team (modCore core (fun k => { k with seq := k.seq.map (awaitAgain c) ++ [c] }) { s with fresh := s.fresh + 1 })

/-- A command that waits on one that retires: what that one wrote happens before what it does (R299). -/
def dropPred (old : Command) (failed : Bool) (c : Command) : Command :=
  { c with preds := c.preds.filter (· != old.serial), cancelled := c.cancelled || (failed && c.preds.contains old.serial)
           stamp := if c.preds.contains old.serial then max c.stamp old.stamp else c.stamp }

/-- A copy into the handle's shadow accepted before a command has failed: it neither swaps nor increments (R253). -/
def spoiled (s : State) (c : Command) (h : Nat) : Bool := (handleOf s c.eid h).failed.any (fun n => decide (n < c.serial))

/-- The command is an `ACHK`, whose group waits for it (R285). -/
def checks : CmdKind → Bool
  | .achk _ _ => true
  | _ => false

/-- The group after the acceptance of its command: an `MMA`'s latch is taken or released (R263), `.y` yields (R122), and an
`ACHK`'s destination is pending (R285). -/
def passed (c : Command) (g : Group) : Group :=
  let g := advance g
  match c.kind with
  | .mma _ _ _ _ _ _ _ l => { g with status := .ready, latch := l }
  | .achk _ _ => { g with status := .waitAchk }
  | _ => { g with status := if c.yields then .waitCopy c.id else .ready }

/-- The group is suspended while `Charon` performs its command of an acceptance number (R25). -/
def emulating (serial : Nat) (g : Group) : Bool :=
  match g.status with
  | .waitEmulation c => c.serial == serial
  | _ => false

/-- A group learns that a command of it has retired: one that yielded on it or checked a tile by it wakes (R122, R285), one for which
`Charon` has performed it resumes at the next instruction (R25). -/
def woken (c : Command) (g : Group) : Group :=
  if g.status == .waitCopy c.id || (g.status == .waitAchk && checks c.kind) then { g with status := .ready }
  else if c.emulated && emulating c.serial g then { passed c g with status := .ready } else g

/-- A command retires (R247, R122): those that wait on it go on or are cancelled, and its group learns of it. -/
def retire (core : Nat) (c : Command) (failed : Bool) (s : State) : State :=
  let cores := ((findTeam s c.team).map (·.cores)).getD []
  let s := (core :: cores).foldl (fun s k =>
    modCore k (fun k => { k with seq := (k.seq.filter (fun d => d.serial != c.serial)).map (dropPred c failed) }) s) s
  let s := match failed, writesHandle c with
    | true, _ => markFailed c s
    | false, some h => modHandle c.eid h (fun k => { k with stamp := max k.stamp c.stamp }) s
    | _, none => s
  let s := modTeam c.team (fun t => { t with retired := Sparse.set 0 (idSlot t core c.id) c.stamp t.retired }) s
  let s := modAny c.group (woken c) s
  let waiting := fun (t : SavedTeam) => { t with seqs := t.seqs.map (·.map (dropPred c failed)) }
  let s := { s with saved := s.saved.map (fun v => { v with teams := v.teams.map waiting }) }
  settleTeam c.team (countDown c.team s)

/-- A command fails after acceptance (R250): reported, and it retires as failed. -/
def failCommand (core : Nat) (c : Command) (cause sub : Nat) (addr : DWord) (s : State) : State :=
  retire core c true (report c.group cause sub c.pc addr s)

/-- Nothing that a command waits on is live, and it is not cancelled. -/
def runnable (c : Command) : Bool := c.preds == [] && !c.cancelled

/-- The team's gang is being saved. -/
def teamSaving (s : State) (tid : Nat) : Bool :=
  match findTeam s tid with
  | none => false
  | some t => s.saved.any (fun v => !v.saved && v.launch == t.launch && v.gang.gang == t.gang)

/-- A command may go on, or begin: one that has not begun stays in its entry while its team is being saved (R271, R383). -/
def mayRun (s : State) (c : Command) : Bool := runnable c && !(c.phase == .waiting && teamSaving s c.team)

/-! ### Increments (R249, R251) -/

/-- The team, the core and the counter that an increment of counter `n` on a core reaches: the range of the gang's team there
(R316, R318). A command whose team has been restored elsewhere increments on the core of the same position (R383). -/
def incTarget (s : State) (c : Command) (core target n : Nat) : Option (Team × Nat × Nat) :=
  match findTeam s c.team with
  | none => none
  | some t =>
    if t.cores.contains core then (gangTeam s t.launch t.gang target).map (fun u => (u, target, 16 * rangeOn u target + n))
    else
      let k := if t.cores.length = 2 then target % 2 else 0
      some (t, nth 0 t.cores k, 16 * nth 0 t.ranges k + n)

/-- The counter that an increment would saturate. -/
def incOver (s : State) (c : Command) (core n target : Nat) : Option DWord :=
  match incTarget s c core target n with
  | none => none
  | some (_, k, m) => if ctrOver (ctrAt s k m) 1 then some (counterRef k m) else none

/-- One increment of counter `n` of a range on a core: held while the team is saved, discarded and counted when the team there
has ended (R383). -/
def incOne (c : Command) (core n : Nat) (s : State) (target : Nat) : State :=
  let src : Adder := ⟨2, core, 0⟩
  match incTarget s c core target n with
  | some (_, k, m) => addCtr k m 1 c.stamp (c.team + 1) src (crossFrom core c k s)
  | none =>
    match s.saved.find? (fun v => v.teams.any (fun t => t.team.tid == c.team)) with
    | none => modCore target (fun k => { k with discarded := k.discarded + 1 }) s
    | some v =>
      let t := (v.teams.find? (fun t => t.team.tid == c.team)).map (·.team)
      let odd := match t with
        | some t => t.cores.length == 2 && target % 2 == 1
        | none => false
      applyAdd ⟨v.launch, v.gang.gang, (t.map (·.team)).getD 0, odd, n, 1, c.stamp, src, none, c.pc, none, c.team + 1⟩ s

/-- The cores whose counters a command increments when it has arrived (R251). -/
def incCores (s : State) (core : Nat) (c : Command) : List Nat :=
  match dstSide c.kind, findTeam s c.team with
  | some (.multi _ _ m), some t => (List.range 16).filterMap (fun i => if m / 2 ^ i % 2 = 1 then maskCore s t core i else none)
  | some (.mem a _), some t =>
    if isGlobal a then [core]
    else match (if a.toNat / 2 ^ 56 = 0xFF then windowAt t (a.toNat % 2 ^ 56) else cmdPooled s c t.launch t.gang core (a.toNat % 2 ^ 56)) with
      | .loc k _ => [k]
      | _ => [core]
  | _, _ => [core]

/-- Swaps a handle's versions (R253, R300). -/
def swapHandle (eid h : Nat) (s : State) : State := dropKeys eid h (modHandle eid h (fun k => { k with second := !k.second }) s)

/-- A write into a handle's shadow accepted before has not retired (R253). -/
def shadowPending (s : State) (c : Command) (h : Nat) : Bool :=
  ((allCommands s).map (·.2) ++ keptCommands s).any (fun d => d.eid == c.eid && writesHandle d == some h && decide (d.serial < c.serial))

/-- A publication: the versions are swapped, and what the command does from then on carries the writes into them (R253,
R300). -/
def publish (c : Command) (h : Nat) (s : State) : Command × State :=
  ({ c with stamp := max c.stamp (handleOf s c.eid h).stamp }, swapHandle c.eid h s)

/-- The first of some cores on which an increment of a command saturates. -/
def saturating (core : Nat) (c : Command) (n : Nat) (targets : List Nat) (s : State) : Option (Nat × DWord) :=
  targets.findSome? (fun t => (incOver s c core n t).map (fun ref => (t, ref)))

/-- A command that has done its work publishes the handle `h` if one is given, then increments counter `n` on some cores and
retires. When an increment saturates it alone is performed, nothing is published, and the command fails (R249 to R251, R253,
R283). -/
def completeCommand (core : Nat) (c : Command) (h : Option Nat) (targets : List Nat) (n : Nat) (s : State) : State :=
  match saturating core c n targets s with
  | some (t, ref) => failCommand core c 0x18 0 ref (incOne c core n s t)
  | none =>
    let (c, s) := match h with
      | some h => publish c h s
      | none => (c, s)
    retire core c false (targets.foldl (incOne c core n) s)

/-- A command's own publication is stopped by a failed copy (R253). -/
def stopped (s : State) (c : Command) (ap : Bool) : Bool := ap && (writesHandle c).any (spoiled s c)

/-- The cores on which a command increments at its end: a publication that is stopped takes the increment with it (R253). -/
def endTargets (s : State) (core : Nat) (c : Command) (ap cnte : Bool) : List Nat :=
  if cnte && !stopped s c ap then incCores s core c else []

/-- The end of a command whose descriptor asks for a publication (`ap`) and for an increment (`cnte`). -/
def endCommand (core : Nat) (c : Command) (ap cnte : Bool) (n : Nat) (s : State) : State :=
  completeCommand core c (if ap && !stopped s c ap then writesHandle c else none) (endTargets s core c ap cnte) n s

/-! ### Trailers (R37, R38) -/

/-- One bit of CRC-32C. -/
def crcBit (c : Nat) : Nat := if c % 2 = 1 then (c / 2) ^^^ 0x82F63B78 else c / 2

/-- CRC-32C over bytes (R37). -/
def crc32c (b : List Byte) : Nat :=
  (b.foldl (fun c x => crcBit (crcBit (crcBit (crcBit (crcBit (crcBit (crcBit (crcBit (c ^^^ x.toNat))))))))) 0xFFFFFFFF) ^^^ 0xFFFFFFFF

/-- The `SHAPE` word of a trailer (R37). -/
def shapeWord (fcode rows cols : Nat) : Nat := fcode + 256 * (rows - 1) + 65536 * (cols - 1)

/-- A tile with its trailer passes the check of R38. -/
def trailerOk (b : List Byte) (fcode rows cols : Nat) : Bool :=
  let n := b.length - 16
  let t := b.drop n
  entryField t 8 4 == shapeWord fcode rows cols && entryField t 12 4 == crc32c (b.take (n + 12))

/-- A trailer (R37). -/
def makeTrailer (elems : List Byte) (maxabs satn fcode rows cols : Nat) : List Byte :=
  let t := leBytes 4 maxabs ++ leBytes 4 satn ++ leBytes 4 (shapeWord fcode rows cols)
  t ++ leBytes 4 (crc32c (elems ++ t))

/-! ### Moving rows (R249, R252, R423) -/

/-- How far the bytes of a row have come: all of them; to a page of a peer, of which `n` bytes come next, with the bytes read
so far or still to be written; or to a place that stops the command. -/
inductive Moved where
  | done (b : List Byte)
  | peer (b : List Byte) (va leaf : DWord) (n : Nat)
  | stop (va : DWord) (p : Place)
  deriving DecidableEq, Repr

/-- Reads pages in ascending order behind the bytes `b`, up to one of a peer. -/
def gather (m : Mover) : List (DWord × Nat) → List Byte → State → Moved × State
  | [], b, s => (.done b, s)
  | (va, n) :: t, b, s =>
    match m.place va .read s with
    | (.peer leaf, s) => (.peer b va leaf n, s)
    | (p, s) => match placeBytes va n p s with
      | .stop a q => (.stop a q, countPlace p n s)
      | .bytes d => gather m t (b ++ d) (m.left va p n false s)

/-- Writes the bytes `b` to pages in ascending order, up to one of a peer. -/
def scatter (m : Mover) : List (DWord × Nat) → List Byte → State → Moved × State
  | [], b, s => (.done b, s)
  | (va, n) :: t, b, s =>
    match writePage m 0 va (b.take n) s with
    | (none, s) => scatter m t (b.drop n) s
    | (some (.peer leaf), s) => (.peer b va leaf n, s)
    | (some p, s) => (.stop va p, s)

/-- The first page of a row that takes no write: a row that fails is not written (R250). -/
def blocked (m : Mover) : List (DWord × Nat) → State → Option (DWord × Place) × State
  | [], s => (none, s)
  | (va, _) :: t, s =>
    match m.place va .write s with
    | (.mem _, s) => blocked m t s
    | (.loc _ _, s) => blocked m t s
    | (.peer _, s) => blocked m t s
    | (p, s) => (some (va, p), s)

/-- Writes what is left of a row from an address, when `sent` bytes of it have gone. -/
def sendRow (m : Mover) (a : DWord) (sent : Nat) (b : List Byte) (s : State) : Moved × State :=
  let pages := pagesOf (a + BitVec.ofNat 64 sent) (b.length - sent)
  match blocked m pages s with
  | (some (va, p), s) => (.stop va p, s)
  | (none, s) => scatter m pages (b.drop sent) s

/-- Reads the `n` bytes of a row from an address, of which `part` has come. -/
def fetchRow (m : Mover) (a : DWord) (n : Nat) (part : List Byte) (s : State) : Moved × State :=
  gather m (pagesOf (a + BitVec.ofNat 64 part.length) (n - part.length)) part s

/-- Where one tile of a handle begins in a version. -/
def tileStart (s : State) (eid : Nat) (p : DWord) : Nat :=
  hndTile p * match readDesc s eid (hndId p) with
    | none => 0
    | some d => tileLen d

/-- Row `i` of the source, with the trailer behind the last one. -/
def sourceRow (core : Nat) (c : Command) (i : Nat) (s : State) : Moved × State :=
  let sh := srcShape c.kind
  let n := sh.2.1 + if i + 1 = sh.1 then sh.2.2 else 0
  match srcSide c.kind with
  | some (.mem a d) => fetchRow (cmdMover core c) (rowAt a d i) n c.part s
  | some (.hnd p) =>
    let h := hndId p
    match readVersion (backMover core c) c.eid h (handleOf s c.eid h).second (tileStart s c.eid p + i * sh.2.1) n s with
    | (.bytes b, s) => (.done b, s)
    | (.stop a p, s) => (.stop a p, s)
  | _ => (.done [], s)

/-- Reads rows of a tile that is read whole into the command, up to a page of a peer. -/
def gatherRows (core : Nat) : List Nat → Command → State → (Command × Moved) × State
  | [], c, s => ((c, .done []), s)
  | i :: t, c, s =>
    match sourceRow core c i s with
    | (.done b, s) => gatherRows core t { c with data := c.data ++ [b], part := [] } s
    | (m, s) => ((c, m), s)

/-- Writes in order until one stops. -/
def inOrder (f : α → State → Option (DWord × Place) × State) : List α → State → Option (DWord × Place) × State
  | [], s => (none, s)
  | x :: t, s =>
    match f x s with
    | (none, s) => inOrder f t s
    | r => r

/-- Bytes to the allocation of every core of a multicast at an offset. -/
def writeMulti (core : Nat) (c : Command) (mask : Nat) (off : Nat) (b : List Byte) (s : State) : State :=
  match findTeam s c.team with
  | none => s
  | some t =>
    (List.range 16).foldl (fun s i =>
      if mask / 2 ^ i % 2 = 1 then
        match maskCore s t core i with
        | none => s
        | some k => match multiPlace c s t k off with
          | .loc q a => localWrite q a b (crossFrom core c q s)
          | _ => s
      else s) s

/-- Element i of a row. -/
def elemBytes (es : Nat) (b : List Byte) (i : Nat) : List Byte := (b.drop (es * i)).take es

/-- Bytes of an element that a transposition moves by itself; 0 for a command that moves whole rows. -/
def xBytes (k : CmdKind) : Nat :=
  match k with
  | .xpose _ _ _ _ _ d3 => xSize (dFcode d3)
  | _ => 0

/-- The pieces of row `i` of the source and the row and offset of the destination where each goes: the row itself, or for a
transposition its elements, which make up column `i` (R252). -/
def pieces (k : CmdKind) (i : Nat) (b : List Byte) : List (Nat × Nat × List Byte) :=
  let es := xBytes k
  if es = 0 then [(i, 0, b)] else (List.range (dstShape k).1).map (fun j => (j, es * i, elemBytes es b j))

/-- Delivers row `i` of the source to the destination, when `c.sent` bytes of it have gone to memory. -/
def writeRow (core : Nat) (c : Command) (i : Nat) (b : List Byte) (s : State) : Moved × State :=
  let ended := fun (r : Option (DWord × Place) × State) => match r with
    | (none, s) => (Moved.done [], s)
    | (some (va, p), s) => (.stop va p, s)
  let m := cmdMover core c
  match dstSide c.kind with
  | some (.mem a d) =>
    if xBytes c.kind = 0 then sendRow m (rowAt a d i) c.sent b s
    else ended (inOrder (fun e s =>
      writePages m 0 (pagesOf (rowAt a d e.1 + BitVec.ofNat 64 e.2.1) e.2.2.length) e.2.2 s) (pieces c.kind i b) s)
  | some (.hnd p) =>
    ended (inOrder (fun e s => writeVersion (backMover core c) c.eid (hndId p) c.shadow
      (tileStart s c.eid p + e.1 * (dstShape c.kind).2.1 + e.2.1) e.2.2 s) (pieces c.kind i b) s)
  | some (.multi o d m) =>
    (.done [], (pieces c.kind i b).foldl (fun s e => writeMulti core c m (((o : Int) + e.1 * d).toNat + e.2.1) e.2.2 s) s)
  | none => (.done [], s)

/-- Largest write time of the lines that `n` bytes at an address of a row's destination touch (R211). -/
def memStamp (s : State) (core : Nat) (c : Command) (n : Nat) (a : DWord) : Nat :=
  match cmdPlace core c a .read s with
  | (.mem pa, _) => ((linesOf pa n).map (wtsOf s)).foldl max 0
  | _ => 0

/-- Largest write time of the lines that row `i` has touched at the destination (R211). -/
def rowStamp (s : State) (core : Nat) (c : Command) (i : Nat) (b : List Byte) : Nat :=
  let at_ := fun (e : Nat × Nat × List Byte) => match dstSide c.kind with
    | some (.mem a d) =>
      ((pagesOf (rowAt a d e.1 + BitVec.ofNat 64 e.2.1) e.2.2.length).map (fun p => memStamp s core c p.2 p.1)).foldl max 0
    | some (.hnd p) =>
      versionStamp s c.eid (hndId p) c.shadow (tileStart s c.eid p + e.1 * (dstShape c.kind).2.1 + e.2.1) e.2.2.length
    | _ => 0
  ((pieces c.kind i b).map at_).foldl max 0

/-- The handle a command reads or writes is being moved (R353). -/
def moving (s : State) (c : Command) : Bool :=
  match writesHandle c, publishesHandle c with
  | some h, _ => (handleOf s c.eid h).move != .none
  | _, some h => (handleOf s c.eid h).move != .none
  | _, _ => false

/-- An access is the peer side of a command (R423). -/
def sideOf (r : CmdRef) (a : OutAcc) : Bool :=
  match a.kind with
  | .peerCommand q _ _ _ _ => q == r
  | _ => false

/-- A peer's answer is outstanding for a command (R423). -/
def awaitsPeer (s : State) (r : CmdRef) : Bool := s.accs.any (sideOf r)

/-- A failure of a row: what the place where it stopped means (R250). -/
def failAt (core : Nat) (c : Command) (a : DWord) (p : Place) (s : State) : Result :=
  match p with
  | .bad cause sub => .next (failCommand core c cause sub a s)
  | .hole => .fault .noSuchPhysicalAddress
  | _ => .next (failCommand core c 0x08 1 a s)

/-- The command `c` becomes what it is now and sends an access of `n` bytes to a peer, with the bytes of a write: those of one
page (R422, R423). -/
def peerPiece (r : CmdRef) (c : Command) (va leaf : DWord) (n : Nat) (write : Option (List Byte)) (s : State) : Result :=
  let s := putCmd r.core c s
  if peerUp s (peerConn leaf) then
    let kind := if write.isSome then peerWrite else peerRead
    let out := OutMsg.peerAccess s.fresh (peerConn leaf) (peerWindow leaf) (peerOffset leaf va) kind (write.getD (List.replicate n 0))
    .next (sendAcc c.group c.team (.peerCommand r c.serial va n write.isNone) (note (cmdAgent r.core) c.eid 4 va none n { s with out := out :: s.out }))
  else .next (failCommand r.core c 0x08 0x18 va s)

/-- What a row that has come so far asks for next: `f` when its bytes are all there, else the access to a peer. -/
def withRow (r : CmdRef) (c : Command) (m : Moved) (f : List Byte → State → Result) (s : State) : Result :=
  match m with
  | .done b => f b s
  | .peer b va leaf n => peerPiece r { c with part := b } va leaf n none s
  | .stop va p => failAt r.core c va p s

/-- The source is a tile that is read whole before anything is written: it has a trailer, or is a handle's (R249, R265). -/
def readsWhole (c : Command) : Bool :=
  decide ((srcShape c.kind).2.2 ≠ 0) || match srcSide c.kind with
    | some (.hnd _) => true
    | _ => false

/-- What identifies a checked tile for cause 0x13 (R38). -/
def tileAddr (c : Command) : DWord :=
  match srcSide c.kind with
  | some (.mem a _) => a
  | some (.hnd p) => handleRef (hndId p) (hndTile p)
  | _ => 0

/-- Format, rows and columns that a copy's trailer must show. -/
def copyTrailer (c : Command) : Nat × Nat × Nat :=
  match c.kind with
  | .copy _ _ _ d0 _ _ d3 => (dFcode d3, dRows d0, dCols d0 d3)
  | _ => (0, 0, 0)

/-- A tile that has been read passes its check, where it carries a trailer (R38). -/
def tileChecks (c : Command) : Bool :=
  let t := copyTrailer c
  decide ((srcShape c.kind).2.2 = 0) || trailerOk c.data.flatten t.1 t.2.1 t.2.2

/-- Reads what is left of a tile that is read whole, and checks it once it is all there (R38, R249). -/
def readTile (r : CmdRef) (c : Command) (s : State) : Result :=
  match gatherRows r.core ((List.range (srcShape c.kind).1).drop c.data.length) { c with phase := .running } s with
  | ((c, m), s) => withRow r c m (fun _ s =>
      if tileChecks c then .next (putCmd r.core c s) else .next (failCommand r.core c 0x13 0 (tileAddr c) s)) s

/-- Row `i` has been delivered. -/
def rowDone (core : Nat) (c : Command) (i : Nat) (b : List Byte) (s : State) : State :=
  putCmd core { c with moved := i + 1, part := [], sent := 0, stamp := max c.stamp (rowStamp s core c i b) } s

/-- A row goes on its way to memory, a handle, local store or a peer. -/
def deliverRow (r : CmdRef) (c : Command) (b : List Byte) (s : State) : Result :=
  match writeRow r.core c c.moved b s with
  | (.done _, s) => .next (rowDone r.core c c.moved b s)
  | (.peer rest va leaf n, s) => peerPiece r { c with part := b, sent := b.length - rest.length } va leaf n (some (rest.take n)) s
  | (.stop a p, s) => failAt r.core c a p s

/-- A copy moves its next row (R249). -/
def moveRow (r : CmdRef) (c : Command) (s : State) : Result :=
  match c.data[c.moved]? with
  | some b => deliverRow r c b s
  | none =>
    match sourceRow r.core c c.moved s with
    | (m, s) => withRow r c m (deliverRow r c) s

/-- A copy or transposition goes on: it reads a tile that is read whole, or moves its next row (R249, R252). -/
def execCopyExecution (r : CmdRef) (s : State) : Result :=
  match findCmd s r with
  | none => .refused .notEnabled
  | some c =>
    if (dstSide c.kind).isNone || !mayRun s c || moving s c || awaitsPeer s r || decide (c.moved ≥ (srcShape c.kind).1) then .refused .notEnabled
    else if readsWhole c && decide (c.data.length < (srcShape c.kind).1) then readTile r c s
    else if c.phase = .waiting then .next (putCmd r.core { c with phase := .running } s)
    else moveRow r c s

/-- `AP`, `CNTE` and `CNTR` of a copy. -/
def copyEnds (k : CmdKind) : Bool × Bool × Nat :=
  match k with
  | .copy _ _ _ _ _ _ d3 => (dAp d3, dCnte d3, dCntr d3)
  | .xpose _ _ _ _ _ d3 => (dAp d3, dCnte d3, dCntr d3)
  | _ => (false, false, 0)

/-- A cancelled command retires with no effect (R247). -/
def cancelledNow (c : Command) : Bool := c.cancelled && c.preds == []

/-- A copy whose last row has arrived publishes, increments and retires (R249, R251, R253). -/
def execCopyCompletion (r : CmdRef) (s : State) : Result :=
  match findCmd s r with
  | none => .refused .notEnabled
  | some c =>
    if (dstSide c.kind).isNone then .refused .notEnabled
    else if cancelledNow c then .next (retire r.core c true s)
    else
      let e := copyEnds c.kind
      let ap := e.1 && (writesHandle c).isSome
      if c.phase ≠ .running || decide (c.moved < (srcShape c.kind).1) || awaitsPeer s r ||
          (ap && (writesHandle c).any (fun h => shadowPending s c h)) then .refused .notEnabled
      else .next (endCommand r.core c e.1 e.2.1 e.2.2 s)

/-! ### PUBLISH and RESV (R253, R254) -/

/-- A publication waits for the copies into the shadow, then swaps and increments (R253). -/
def execPublishPerformance (r : CmdRef) (s : State) : Result :=
  match findCmd s r with
  | none => .refused .notEnabled
  | some c =>
    match c.kind with
    | .publish h n =>
      if cancelledNow c then .next (retire r.core c true s)
      else if !mayRun s c || moving s c || shadowPending s c (h.toNat % 16384) then .refused .notEnabled
      else if spoiled s c (h.toNat % 16384) then .next (retire r.core c false s)
      else .next (completeCommand r.core c (some (h.toNat % 16384)) (if dCnte n then [r.core] else []) (dCntr n) s)
    | _ => .refused .notEnabled

/-- The write time of a handle's descriptor, which the store has written for a residency request (R352). -/
def descStamp (s : State) (eid h : Nat) : Nat :=
  match mappedAt s eid (descAddr s eid h) with
  | none => 0
  | some pa => wtsOf s (pa / 64)

/-- The L1 of the core of a command's group keeps no older clean words of a handle's descriptor, which the store has written for
the command (R299, R352). -/
def loseDesc (core : Nat) (c : Command) (h : Nat) (s : State) : State :=
  match mappedAt s c.eid (descAddr s c.eid h) with
  | none => s
  | some pa => loseClean (issuerCore s core c) c.eid pa 64 s

/-- The end of a residency request: its increment, which carries the write of `HSTAT`, then it retires (R254, R299, R352). -/
def endResv (core : Nat) (c : Command) (s : State) : State :=
  match c.kind with
  | .resv h r0 _ =>
    endCommand core { c with stamp := max c.stamp (descStamp s c.eid (h.toNat % 16384)) } false (dCnte r0) (dCntr r0)
      (loseDesc core c (h.toNat % 16384) s)
  | _ => s

/-- Keeps a nonzero lease length (R351). -/
def keepLength (eid h len : Nat) (s : State) : State := if len = 0 then s else modHandle eid h (fun k => { k with kept := len }) s

/-- The store decides a residency request (R350 to R352): an outcome at once, or a move begins, once nothing in flight concerns
its handles (R353). -/
def execResvDecision (r : CmdRef) (s : State) : Result :=
  match findCmd s r with
  | none => .refused .notEnabled
  | some c =>
    match c.kind with
    | .resv hw r0 r1 =>
      let h := hw.toNat % 16384
      if cancelledNow c then .next (retire r.core c true s)
      else match readDesc s c.eid h with
        | none => if mayRun s c then .next (endResv r.core c s) else .refused .notEnabled
        | some d =>
          if !mayRun s c || c.phase ≠ .waiting || (handleOf s c.eid h).move != .none then .refused .notEnabled
          else
            let busy := handleBusy s c.eid h || (r0.toNat % 4 == 0 && (candidates s d).any (fun k => handleBusy s (k / 16384) (k % 16384)))
            let s := keepLength c.eid h r1.toNat s
            let decided := match r0.toNat % 4 with
              | 0 => beginPromote c.eid h d (some r) s
              | 1 => beginDemote c.eid h d (some r) s
              | _ => let v := renew c.eid h r1.toNat d s; (some v.1, v.2)
            match decided with
            | (some out, s) => .next (endResv r.core c (writeHstat c.eid h d.state out s))
            | (none, s) => if busy then .refused .notEnabled else .next (putCmd r.core { c with phase := .running } s)
    | _ => .refused .notEnabled

/-- A move ends (R349 to R353): its handle has its new state, and the command that asked retires. No write of the handle is in
flight, since none was when it began and those accepted since wait. -/
def execHandleMoveDone (eid h : Nat) (s : State) : Result :=
  let k := handleOf s eid h
  match readDesc s eid h with
  | none => .refused .notEnabled
  | some d =>
    if k.move = .none then .refused .notEnabled
    else
      let s := if k.move = .promote then finishPromote eid h d s else finishDemote eid h 1 d s
      .next (match k.asker with
        | none => s
        | some r => match findCmd s r with
          | none => s
          | some c => endResv r.core c s)

/-- A lease ends (R344, R351): the handle no longer holds its way-group, nor its frames against R350. -/
def execHandleLeaseEnd (eid h : Nat) (s : State) : Result :=
  match readDesc s eid h with
  | none => .refused .notEnabled
  | some d => if d.kind = 1 ∧ d.lease ≤ nowUs s then .next s else .refused .notEnabled

end Sys2Proof.Machine
end

