-- ==== Sys2Proof/Machine/Context.lean ====
section
/-! DEFINITION. The areas of a context pool: what `Charon` writes there for a team that is saved, and what it reads there when the
team is restored (R384, R386). -/

namespace Sys2Proof.Machine

/-- `KPOS` and `SIDX` of a block (R257). -/
def kposOf (t : Tile) (blk : Nat) : Nat := Sparse.get 0 blk t.kpos
def sidxOf (t : Tile) (blk : Nat) : Nat := Sparse.get 0 blk t.sidx

/-- The element image of a row (R256). -/
def imageRow (t : Tile) (i : Nat) : List Byte :=
  ((Sparse.slice 0 (128 * i) 128 t.resid).zip (Sparse.slice 0 (128 * i) 128 t.carry)).flatMap (fun e => bytesOf e.1 ++ bytesOf e.2)

/-- Values with their sizes in bytes, one after another in `n` bytes (DESIGN CHOICE, log entry 109: R384 gives the contents of a
section and its size, and no offsets). -/
def packed (n : Nat) (l : List (Nat × Nat)) : List Byte := (l.flatMap (fun (e : Nat × Nat) => leBytes e.1 e.2) ++ List.replicate n 0).take n

/-- Opcode and sub-operation of a command's instruction (R112). -/
def cmdCode (k : CmdKind) : BitVec 8 × BitVec 4 :=
  match k with
  | .copy dir _ _ _ _ _ _ => (0xB0, subOf copyDirs dir)
  | .xpose _ _ _ _ _ _ => (0xB1, 0)
  | .publish _ _ => (0xB2, 0)
  | .resv _ _ _ => (0xB3, 0)
  | .mma _ _ _ _ _ _ _ _ => (0xC0, 0)
  | .mmaz _ => (0xC1, 0)
  | .drain _ _ _ _ => (0xC2, 0)
  | .achk _ _ => (0xC3, 0)
  | .aload _ _ _ _ => (0xC4, 0)

/-- The instruction word of a command (R99). -/
def cmdWord (c : Command) : IWord := wordBits (cmdCode c.kind).1 (cmdCode c.kind).2 0 c.word

/-- An entry of the sequencer section: the command's word of 12 bytes, id, predecessors, sampled `JORD` and `FMT`, and the address
that a failure names. Its 32 bytes have no room for the register values that a command has captured, which stay beside the area
(DESIGN CHOICE, log entry 109). -/
def entryBytes (c : Command) : List Byte :=
  packed 32 [(12, (cmdWord c).toNat), (1, c.id), (1, c.p1), (1, c.p2), (1, c.jord.toNat), (8, c.fmt.toNat), (8, c.pc.toNat)]

/-- A command as its entry gives it: its kind, and what stays beside the area, are those of the save. -/
def entryFrom (b : List Byte) (c : Command) : Command :=
  let x := fieldsOf (BitVec.ofNat 96 (entryField b 0 12))
  { c with word := x, scope := x.md.toNat, id := entryField b 12 1, p1 := entryField b 13 1, p2 := entryField b 14 1
           jord := BitVec.ofNat 2 (entryField b 15 1), fmt := BitVec.ofNat 64 (entryField b 16 8), pc := BitVec.ofNat 64 (entryField b 24 8) }

/-- Entries of a stack. -/
def stackFields (l : List StackEntry) : List (Nat × Nat) :=
  (1, l.length) :: l.flatMap (fun e =>
    [(1, e.jord.toNat + if e.kind = .path then 4 else 0), (8, e.pc.toNat), (8, e.mask.toNat), (8, e.fmt.toNat)])

/-- Words `f i r` of every strand of a group, for `n` registers. -/
def strandWords (g : Group) (n : Nat) (f : Nat → Nat → Word) : List Byte :=
  (List.range (widthOf g)).flatMap (fun i => (List.range n).flatMap (fun r => bytesOf (f i r)))

/-- The 2,048 bytes of a group. -/
def groupBytes (g : Group) : List Byte :=
  let frame := match g.frame with
    | none => [(1, 0)]
    | some f => [(1, 1), (8, f.mask.toNat), (8, f.fmt.toNat), (1, f.jord.toNat), (1, f.ridx)] ++ stackFields f.stack
  let latch := match g.latch with
    | none => [(1, 0)]
    | some a => [(1, 1), (1, a.reg.toNat), (1, a.fa.toNat), (1, a.jord.toNat)]
  packed 2048 ([(8, g.pc.toNat), (8, g.live.toNat), (8, g.active.toNat), (8, g.fmt.toNat), (1, g.jord.toNat), (4, g.jx.toNat),
      (1, g.role.toNat), (1, g.ridx), (1, g.xblk), (1, if inHandler g then 1 else 0), (8, g.gwts)] ++ stackFields g.stack ++ frame ++
    (List.range 64).map (fun r => (4, (sGet g r).toNat)) ++ (1, g.q.toNat) ::
    (List.range 7).map (fun k => (8, (Sparse.get 0 k g.p).toNat)) ++ latch)

/-- The register blocks that a group holds. -/
def blockBytes (g : Group) : List Byte :=
  (List.range (g.xblk + 1)).flatMap (fun b => strandWords g 64 (fun i r => vGet g i (64 * b + r)))

/-- The rows of a group's A latch. Of one taken at `JORD` = 1 the section has room for A alone: A′ stays beside the area (DESIGN
CHOICE, log entry 127). -/
def latchBytes (g : Group) : List Byte :=
  match g.latch with
  | none => []
  | some a => strandWords g 16 (fun i k => Sparse.get 0 (32 * i + k) a.rows)

/-- A tile: its image, its checksums, the state of R257 and the scale latches. -/
def tileBytes (t : Tile) : List Byte :=
  let scales := fun (n : Nat) (m : Sparse Word) => (Sparse.slice 0 0 n m).map (fun (w : Word) => ((2, w.toNat % 65536) : Nat × Nat))
  (List.range 64).flatMap (imageRow t) ++ (Sparse.slice 0 0 64 t.col ++ Sparse.slice 0 0 1024 t.row).flatMap bytesOf ++
  packed 128 ([(1, t.kind.toNat), (1, t.lfa.toNat), (1, t.lfb.toNat), (1, t.lfs.toNat), (1, t.lspan.toNat), (4, t.mstat.toNat)] ++
    (List.range 8).flatMap (fun b => [(2, kposOf t b), (2, sidxOf t b)])) ++
  packed 2176 (scales 64 t.sclA ++ scales 1024 t.sclB)

/-- The groups of a saved team on a core of it, in ascending `sr.group` (R315). -/
def groupsOn (v : SavedTeam) (c : Nat) : List Group :=
  let n := v.team.cores.length
  (List.range 32).filterMap (fun k => if k % max 1 n = v.team.cores.idxOf c then v.groups.find? (fun g => g.grp == k) else none)

/-- The groups of a saved team that stood on a core and still have a lane, in ascending `sr.group` (R204). -/
def savedOn (v : SavedTeam) (c : Nat) : List Group := (groupsOn v c).filter (fun g => g.status != .ended)

/-- The area of a saved team's core number `k`, which stood in a half of its gang; `cls` gives a core's class, and `lsplit` is the
launch's `LSPLIT`. The B buffer's keys (R271) have no section and stay beside the area (DESIGN CHOICE, log entry 127). -/
def areaBytes (v : SavedTeam) (cls : Nat → Nat) (lsplit half k : Nat) : List Byte :=
  let c := nth 0 v.team.cores k
  let gs := groupsOn v c
  packed 256 [(8, v.team.launch), (4, v.team.gang), (4, v.team.team), (1, c % 8), (1, half), (1, cls c),
    (4, ((savedOn v c).map (fun g => 2 ^ g.lane)).foldl (· ||| ·) 0), (1, lsplit), (8, nth 0 v.ccs k), (8, 0)] ++
  (List.range 16).flatMap (fun n => let x := Sparse.get Counter.zero n (nth [] v.ctrs k); leBytes 8 x.val.toNat ++ leBytes 8 x.ct) ++
  (nth [] v.seqs k).flatMap entryBytes ++ gs.flatMap groupBytes ++ gs.flatMap blockBytes ++ gs.flatMap latchBytes ++
  (nth [] v.tiles k).flatMap tileBytes ++ (List.range (65536 * v.team.units)).map (fun a => Sparse.get 0 a (nth [] v.stores k))

/-- The lowest offset of a context pool where `n` bytes find room beside the areas it holds (DESIGN CHOICE, log entry 109). -/
def roomFor (held : List (Nat × Nat)) (n : Nat) : Nat :=
  let free := fun (o : Nat) => held.all (fun a => decide (o + n ≤ a.1) || decide (a.1 + a.2 ≤ o))
  ((held.map (fun a => a.1 + a.2)).filter free).foldl min (if free 0 then 0 else (held.map (fun a => a.1 + a.2)).foldl max 0)

/-- The areas that the contexts of an engagement hold. -/
def heldAreas (s : State) (eid : Nat) : List (Nat × Nat) :=
  s.saved.flatMap (fun v => v.teams.flatMap (fun t => if t.team.eid = eid then t.areas.map (·.2) else []))

/-- Writes one area into the engagement's context pool, and keeps where it lies; what finds no room there is kept beside it (DESIGN
CHOICE, log entry 109). -/
def putArea (cls : Nat → Nat) (lsplit : Nat) (others : List (Nat × Nat)) (e : SavedTeam × State) (k : Nat) : SavedTeam × State :=
  let (v, s) := e
  let half := if (findGang s v.team.launch v.team.gang).any (fun a => a.half1 == some (clusterOf (nth 0 v.team.cores k))) then 1 else 0
  let b := areaBytes v cls lsplit half k
  let g := engOf s v.team.eid
  let o := roomFor (heldAreas s v.team.eid ++ others ++ v.areas.map (·.2)) b.length
  if g.cpoolSize.toNat < o + b.length then (v, s)
  else ({ v with areas := v.areas ++ [(k, (o, b.length))] }, writeVaState v.team.eid (g.cpool + BitVec.ofNat 64 o) b s)

/-! ### Reading an area (R386) -/

/-- The entries of a stack, and the bytes behind them. -/
def stackFrom (b : List Byte) : List StackEntry × List Byte :=
  let n := entryField b 0 1
  let entry := fun (k : Nat) =>
    let e := b.drop (1 + 25 * k)
    let d := fun (off : Nat) => BitVec.ofNat 64 (entryField e off 8)
    (⟨if 4 ≤ entryField e 0 1 then .path else .join, d 1, d 9, d 17, BitVec.ofNat 2 (entryField e 0 1)⟩ : StackEntry)
  ((List.range n).map entry, b.drop (1 + 25 * n))

/-- The frame of a group, and the bytes behind it; what a section does not hold of it is that of `old`. -/
def frameFrom (old : Option Frame) (b : List Byte) : Option Frame × List Byte :=
  if entryField b 0 1 = 0 then (none, b.drop 1)
  else
    let (stack, rest) := stackFrom (b.drop 19)
    (some ⟨BitVec.ofNat 64 (entryField b 1 8), BitVec.ofNat 64 (entryField b 9 8), BitVec.ofNat 2 (entryField b 17 1), stack,
      entryField b 18 1, (old.map (·.readTime)).getD 0⟩, rest)

/-- A group as its 2,048 bytes give it; it holds no more blocks than the area does. -/
def groupFrom (b : List Byte) (g : Group) : Group :=
  let d := fun (off : Nat) => BitVec.ofNat 64 (entryField b off 8)
  let (stack, b1) := stackFrom (b.drop 49)
  let (frame, b2) := frameFrom g.frame b1
  let b3 := b2.drop 256
  let latch := fun (a : ALatch) => { a with reg := BitVec.ofNat 8 (entryField b3 58 1), fa := BitVec.ofNat 4 (entryField b3 59 1)
                                            jord := BitVec.ofNat 2 (entryField b3 60 1) }
  { g with pc := d 0, live := d 8, active := d 16, fmt := d 24, jord := BitVec.ofNat 2 (entryField b 32 1), jx := BitVec.ofNat 20 (entryField b 33 4)
           role := BitVec.ofNat 2 (entryField b 37 1), ridx := entryField b 38 1
           tcause := if entryField b 40 1 = 0 then g.tcause &&& 0x7FFFFFFF else g.tcause ||| 0x80000000
           xblk := min (entryField b 39 1) g.xblk, gwts := entryField b 41 8, stack := stack, frame := frame, s := Sparse.splice 0 0 (wordsOf (b2.take 256)) []
           q := BitVec.ofNat 7 (entryField b3 0 1)
           p := Sparse.splice 0 0 ((List.range 7).map (fun k => BitVec.ofNat 64 (entryField b3 (1 + 8 * k) 8))) []
           latch := g.latch.map latch }

/-- The register blocks of a group. -/
def blocksFrom (b : List Byte) (g : Group) : Group :=
  let put := fun (v : Sparse Word) (e : Nat × Nat) =>
    Sparse.splice 0 (256 * e.2 + 64 * e.1) (wordsOf ((b.drop (256 * (widthOf g * e.1 + e.2))).take 256)) v
  { g with v := ((List.range (g.xblk + 1)).flatMap (fun k => (List.range (widthOf g)).map (fun i => (k, i)))).foldl put g.v }

/-- The rows of a group's A latch. -/
def latchFrom (b : List Byte) (g : Group) : Group :=
  let put := fun (rows : Sparse Word) (i : Nat) => Sparse.splice 0 (32 * i) (wordsOf ((b.drop (64 * i)).take 64)) rows
  { g with latch := g.latch.map (fun a => { a with rows := (List.range (widthOf g)).foldl put a.rows }) }

/-- A tile. -/
def tileFrom (b : List Byte) (t : Tile) : Tile :=
  let ws := wordsOf (b.take 65536)
  let sums := wordsOf ((b.drop 65536).take 4352)
  let r := b.drop 69888
  let half := fun (off k : Nat) => BitVec.ofNat 32 (entryField r (128 + 2 * (off + k)) 2)
  let pos := fun (off : Nat) => Sparse.splice 0 0 ((List.range 8).map (fun k => entryField r (9 + off + 4 * k) 2)) []
  { t with resid := Sparse.splice 0 0 ((List.range 8192).map (fun k => nth 0 ws (2 * k))) []
           carry := Sparse.splice 0 0 ((List.range 8192).map (fun k => nth 0 ws (2 * k + 1))) []
           col := Sparse.splice 0 0 (sums.take 64) [], row := Sparse.splice 0 0 (sums.drop 64) []
           kind := BitVec.ofNat 2 (entryField r 0 1), lfa := BitVec.ofNat 4 (entryField r 1 1), lfb := BitVec.ofNat 4 (entryField r 2 1)
           lfs := BitVec.ofNat 2 (entryField r 3 1), lspan := BitVec.ofNat 3 (entryField r 4 1), mstat := BitVec.ofNat 32 (entryField r 5 4)
           kpos := pos 0, sidx := pos 2
           sclA := Sparse.splice 0 0 ((List.range 64).map (half 0)) [], sclB := Sparse.splice 0 0 ((List.range 1024).map (half 64)) [] }

/-- A counter: its value and `CT`. -/
def counterFrom (b : List Byte) (t : Sparse Counter) (n : Nat) : Sparse Counter :=
  Sparse.set Counter.zero n { Sparse.get Counter.zero n t with
    val := BitVec.ofNat 64 (entryField b (16 * n) 8), ct := entryField b (16 * n + 8) 8 } t

/-- Runs over the elements of a list, each of which takes its bytes off the front. -/
def takeEach (len : α → Nat) (f : List Byte → α → α) : List α → List Byte → List α × List Byte
  | [], b => ([], b)
  | x :: t, b =>
    let (l, rest) := takeEach len f t (b.drop (len x))
    (f (b.take (len x)) x :: l, rest)

/-- A saved team with what the area of its core number `k` holds (R386): the number of its commands, groups and blocks is that of
the save. -/
def areaInto (v : SavedTeam) (k : Nat) (b : List Byte) : SavedTeam :=
  let ctrs := (List.range 16).foldl (counterFrom (b.drop 256)) (nth [] v.ctrs k)
  let (cs, b) := takeEach (fun _ => 32) entryFrom (nth [] v.seqs k) (b.drop 512)
  let held := fun (g : Group) => ((v.groups.find? (fun h => h.gid == g.gid)).map (·.xblk)).getD 0
  let (gs, b) := takeEach (fun _ => 2048) groupFrom (groupsOn v (nth 0 v.team.cores k)) b
  let (gs, b) := takeEach (fun g => 256 * widthOf g * (held g + 1)) blocksFrom gs b
  let (gs, b) := takeEach (fun g => if g.latch.isSome then 64 * widthOf g else 0) latchFrom gs b
  let (ts, b) := takeEach (fun _ => 72192) tileFrom (nth [] v.tiles k) b
  { v with groups := v.groups.map (fun g => (gs.find? (fun h => h.gid == g.gid)).getD g), ctrs := v.ctrs.set k ctrs, tiles := v.tiles.set k ts, seqs := v.seqs.set k cs
           stores := v.stores.set k (Sparse.splice 0 0 (b.take (65536 * v.team.units)) []) }

/-- A saved team as its areas hold it when it is restored; what lies beside an area, or behind an error there, is as it was
saved (R386; DESIGN CHOICE, log entry 109). -/
def fromAreas (e : SavedTeam × State) : SavedTeam × State :=
  e.1.areas.foldl (fun e a =>
    match readVa e.1.team.eid ((engOf e.2 e.1.team.eid).cpool + BitVec.ofNat 64 a.2.1) a.2.2 e.2 with
    | (.bytes b, s) => ({ areaInto e.1 a.1 b with ccs := e.1.ccs.set a.1 (entryField b 24 8) }, s)
    | (.stop _ _, s) => (e.1, s)) e

/-! ### Changes of a saved team (R383, R399) -/

/-- What a change of a saved team changes in the area of its core number `k`: offset and length of the bytes from the first that
differs to the last. -/
def areaDiff (old new : List Byte) : Nat × Nat :=
  let differ := ((List.range old.length).zip (old.zip new)).filterMap (fun e => if e.2.1 = e.2.2 then none else some e.1)
  (differ.foldl min old.length, differ.foldl max 0 + 1 - differ.foldl min old.length)

/-- Of bytes that were `old` and become `new`, those that differ enter the bytes `b`. -/
def overlay (b old new : List Byte) : List Byte := (b.zip (old.zip new)).map (fun e => if e.2.1 = e.2.2 then e.1 else e.2.2)

/-- The change of a saved team enters its area. -/
def intoArea (old new : SavedTeam) (s : State) (a : Nat × Nat × Nat) : State :=
  let now := fun (v : SavedTeam) => areaBytes v (fun _ => 0) 0 0 a.1
  let (lo, n) := areaDiff (now old) (now new)
  if n = 0 then s
  else
    let va := (engOf s old.team.eid).cpool + BitVec.ofNat 64 (a.2.1 + lo)
    match readVa old.team.eid va n s with
    | (.bytes b, s) => writeVaState old.team.eid va (overlay b (((now old).drop lo).take n) (((now new).drop lo).take n)) s
    | (.stop _ _, s) => s

/-- Changes a saved team, beside its areas and in them: what happens to it while it is saved comes back with it. -/
def changeSaved (tid : Nat) (f : SavedTeam → SavedTeam) (s : State) : State :=
  let olds := (s.saved.flatMap (·.teams)).filter (fun t => t.team.tid == tid)
  let s := { s with saved := s.saved.map (fun v => { v with teams := updateWhere (fun t => t.team.tid == tid) f v.teams }) }
  olds.foldl (fun s t => t.areas.foldl (intoArea t (f t)) s) s

end Sys2Proof.Machine
end

