-- ==== Sys2Proof/Machine/Jets.lean ====
section
/-! DEFINITION. Jet arithmetic on lists of FP32 coefficients (R71 to R90): every coefficient is a pattern with the
flags of its row of `JX`. -/

namespace Sys2Proof.Machine

/-- A coefficient result and its flags. -/
abbrev CoefRes := Nat × Flags

/-- Registers of a jet group at order `k` (R72). -/
def jetRegs (k : Nat) : Nat := if k = 0 then 1 else if k = 1 then 2 else 4

/-- A rounded coefficient as an operand of later steps. -/
def coefV (b : Nat) : FV := (unpack fp32 b, 0)

/-- `Step` (R78). -/
def stepF (m : Nat) (fmt : DWord) (x : FV) : CoefRes := roundFV fp32 m (fmtSat fmt) false x

/-- `FlushOut` (R78). -/
def flushOut (fmt : DWord) (r : CoefRes) : CoefRes :=
  if fmtFzo fmt 0 && isSub fp32 r.1 then (zeroBits fp32 (signField fp32 r.1), r.2 ||| flagUnderflow ||| flagInexact) else r

/-- Adds terms to a running sum, rounding after each (R78). -/
def chainFrom (m : Nat) (fmt : DWord) : CoefRes → List FV → CoefRes
  | r, [] => r
  | r, x :: t => chainFrom m fmt (stepF m fmt (addV m x ((coefV r.1).1, r.2))) t

/-- `Chain` (R78). -/
def chain (m : Nat) (fmt : DWord) (init : Option (Nat × Flags)) (terms : List FV) (final : Option (FV → FV)) : CoefRes :=
  let r : CoefRes := match init, terms with
    | some i, ts => chainFrom m fmt i ts
    | none, [] => (0, 0)
    | none, x :: ts => chainFrom m fmt (stepF m fmt x) ts
  match final with
  | none => flushOut fmt r
  | some f => flushOut fmt (stepF m fmt (f ((coefV r.1).1, r.2)))

/-- A source coefficient with operand flushing (R28, R78). -/
def srcCoef (fmt : DWord) (b : Nat) : FV := source fp32 (fmtFzi fmt 0) b

/-- A source coefficient as the initial value of a chain. -/
def srcInit (fmt : DWord) (b : Nat) : Nat × Flags :=
  (if fmtFzi fmt 0 && isSub fp32 b then zeroBits fp32 (signField fp32 b) else b, if isSNaN fp32 b then flagInvalid else 0)

/-- Coefficient `i` of a source jet, of a result so far. -/
def cA (fmt : DWord) (a : List Nat) (i : Nat) : FV := srcCoef fmt (nth 0 a i)
def cY (y : List CoefRes) (i : Nat) : FV := coefV (nth (0, 0) y i).1

/-- Builds coefficients in ascending order, each from those below it. -/
def buildFrom (f : Nat → List CoefRes → CoefRes) : Nat → Nat → List CoefRes → List CoefRes
  | 0, _, y => y
  | n + 1, i, y => buildFrom f n (i + 1) (y ++ [f i y])

/-- Coefficients 0 to k. -/
def build (k : Nat) (f : Nat → List CoefRes → CoefRes) : List CoefRes := buildFrom f (k + 1) 0 []

/-- Add and subtract (R79). -/
def addSeries (k m : Nat) (fmt : DWord) (sub : Bool) (a b : List Nat) : List CoefRes :=
  build k (fun i _ => flushOut fmt (stepF m fmt (addV m (cA fmt a i) (if sub then negV (cA fmt b i) else cA fmt b i))))

/-- Terms a_j · b_(i−j) for j from 0 to i. -/
def prodTerms (fmt : DWord) (neg : Bool) (a b : List Nat) (i : Nat) : List FV :=
  (List.range (i + 1)).map (fun j => mulV (if neg then negV (cA fmt a j) else cA fmt a j) (cA fmt b (i - j)))

/-- Multiply (R80). -/
def mulSeries (k m : Nat) (fmt : DWord) (a b : List Nat) : List CoefRes :=
  build k (fun i _ => chain m fmt none (prodTerms fmt false a b i) none)

/-- Fused multiply-add and its negated forms (R80). -/
def fmaSeries (k m : Nat) (fmt : DWord) (negP negC : Bool) (a b c : List Nat) : List CoefRes :=
  build k (fun i _ =>
    let (c0, fl) := srcInit fmt (nth 0 c i)
    let c0 := if negC then (if isNaN fp32 c0 then c0 else c0 ^^^ 0x80000000) else c0
    chain m fmt (some (c0, fl)) (prodTerms fmt negP a b i) none)

/-- Positions 1 to i. -/
def upTo (i : Nat) : List Nat := (List.range i).map (· + 1)

/-- Divide (R81). -/
def divSeries (k m : Nat) (fmt : DWord) (a b : List Nat) : List CoefRes :=
  build k (fun i y =>
    if i = 0 then flushOut fmt (stepF m fmt (divV (cA fmt a 0) (cA fmt b 0)))
    else chain m fmt (some (srcInit fmt (nth 0 a i)))
      ((upTo i).map (fun j => mulV (negV (cA fmt b j)) (cY y (i - j)))) (some (fun t => divV t (cA fmt b 0))))

/-- The constants L, E and P of R78. -/
def constL : FV := coefV 0x3F317218
def constE : FV := coefV 0x3FB8AA3B
def constP : FV := coefV 0x40490FDB

/-- Coefficient 0 of a special function. -/
def first (fn : SFun) (fmt : DWord) (a : List Nat) : CoefRes := flushOut fmt (stepF 0 fmt (sfun fn (cA fmt a 0)))

/-- The coefficients i ≥ 1 of the functions of R82. -/
def series82 (fn : SFun) (fmt : DWord) (a : List Nat) (i : Nat) (y : List CoefRes) : CoefRes :=
  let ca := cA fmt a
  let ay := fun j => mulV (ca j) (cY y (i - j))
  match fn with
  | .rcp => chain 0 fmt none ((upTo i).map ay) (some (fun t => divV (negV t) (ca 0)))
  | .sqrt => chain 0 fmt (some (srcInit fmt (nth 0 a i)))
      ((upTo (i - 1)).map (fun j => negV (mulV (cY y j) (cY y (i - j)))))
      (some (fun t => divV t (weightV false 2 1 (cY y 0))))
  | .rsqrt => chain 0 fmt none
      ((upTo i).map (fun j => weightV true (2 * i - j) (2 * i) (ay j))) (some (fun t => divV t (ca 0)))
  | .exp2 => chain 0 fmt none ((upTo i).map (fun j => weightV false j i (mulV constL (ay j)))) none
  | .log2 => chain 0 fmt none
      (mulV constE (ca i) :: (upTo (i - 1)).map (fun j => weightV true (i - j) i (ay j)))
      (some (fun t => divV t (ca 0)))
  | _ => (0, 0)

/-- Sine and cosine jets together: pairs of coefficients, sine first (R83). -/
def sinCos (k : Nat) (fmt : DWord) (a : List Nat) : List (CoefRes × CoefRes) :=
  (List.range (k + 1)).foldl (fun y i =>
    if i = 0 then [(first .sinpi fmt a, first .cospi fmt a)]
    else
      let sC := y.map (fun e => e.1)
      let cC := y.map (fun e => e.2)
      let term := fun neg (o : List CoefRes) j => weightV neg j i (mulV constP (mulV (cA fmt a j) (cY o (i - j))))
      y ++ [(chain 0 fmt none ((upTo i).map (term false cC)) none, chain 0 fmt none ((upTo i).map (term true sC)) none)]) []

/-- The jets of tanh and sigmoid with their internal jet z (R84, R85): results, then z, so far. -/
def zSeries (tanh : Bool) (k : Nat) (fmt : DWord) (a : List Nat) : List CoefRes :=
  ((List.range (k + 1)).foldl (fun (st : List CoefRes × List CoefRes) i =>
    let (y, z) := st
    if i = 0 then ([first (if tanh then .tanh else .sigm) fmt a], [])
    else
      let m := i - 1
      let sq := (List.range (m + 1)).map (fun l => negV (mulV (cY y l) (cY y (m - l))))
      let zm := if tanh then (if m = 0 then chain 0 fmt (some (0x3F800000, 0)) sq none else chain 0 fmt none sq none)
        else chain 0 fmt (some ((nth (0, 0) y m).1, 0)) sq none
      let z := z ++ [zm]
      let yi := chain 0 fmt none ((upTo i).map (fun j => weightV false j i (mulV (cA fmt a j) (cY z (i - j))))) none
      (y ++ [(yi.1, yi.2 ||| zm.2)], z)) ([], [])).1

/-- A special function of a jet at order k > 0 (R82 to R85). -/
def sfunSeries (fn : SFun) (k : Nat) (fmt : DWord) (a : List Nat) : List CoefRes :=
  match fn with
  | .sinpi => (sinCos k fmt a).map (fun e => (e.1.1, e.1.2 ||| e.2.2))
  | .cospi => (sinCos k fmt a).map (fun e => (e.2.1, e.1.2 ||| e.2.2))
  | .tanh => zSeries true k fmt a
  | .sigm => zSeries false k fmt a
  | fn => build k (fun i y => if i = 0 then first fn fmt a else series82 fn fmt a i y)

/-- `JSHIFT` (R173). -/
def shiftSeries (k : Nat) (fmt : DWord) (a : List Nat) : List CoefRes :=
  (List.range k).map (fun i => chain 0 fmt none [weightV false (i + 1) 1 (cA fmt a (i + 1))] none) ++ [(0, 0)]

end Sys2Proof.Machine
end

