-- ==== Sys2Proof/Machine/FloatOps.lean ====
section
/-! DEFINITION. The floating-point, special-function, jet and conversion instructions (R149 to R175). -/

namespace Sys2Proof.Machine

/-- Format of a floating-point element type. -/
def fmtOf : Ty → Fmt
  | .f16 | .f16x2 => fp16
  | .bf16 | .bf16x2 => bf16
  | _ => fp32

/-- Order at which an instruction of type `t` computes: `JORD.K` for FP32 (R162). -/
def orderOf (t : Ty) (g : Group) : Nat := if t == .f32 then g.jord.toNat else 0

/-- Registers of an operand of type `t` at order `k`: a jet group for a v register, else one (R72, R73). -/
def fRegs (k : Nat) (o : Opnd) : Opnd × Nat := (o, if isV o then jetRegs k else 1)

/-- Registers of an operand that an instruction reads at order `k`: coefficients 0 to k, never the pad (R72, R174). -/
def fReads (k : Nat) (o : Opnd) : Opnd × Nat := (o, if isV o then k + 1 else 1)

/-- Coefficients of a source at order `k`: of a jet group, or a constant jet (R73). -/
def readJet (g : Group) (x : Fields) (i k : Nat) (o : Opnd) : List Nat :=
  match o with
  | .v n => (List.range (k + 1)).map (fun j => (vGet g i (n.toNat + j)).toNat)
  | o => (read32 g x i o).toNat :: List.replicate k 0

/-- Coefficients of operand B, which may be the long immediate. -/
def readJetB (g : Group) (x : Fields) (i k : Nat) : List Nat :=
  if isLong x then (longPattern x).toNat :: List.replicate k 0 else readJet g x i k x.b

/-- Words of a result. -/
def coefWords (l : List CoefRes) : List Word := l.map (fun r => BitVec.ofNat 32 r.1)

/-- Flags of a result, by row. -/
def coefFlags (l : List CoefRes) : List Flags := l.map (fun r => r.2)

/-- The group after a result of strand `i`: registers and rows of `JX` (R92). -/
def putCoefs (i : Nat) (d : Opnd) (l : List CoefRes) (g : Group) : Group :=
  writeRegs (raiseRows 0 (coefFlags l) g) i d (coefWords l)

/-- The group after a uniform result of coefficient 0; a v destination receives +0 above it up to order `k` (R74). -/
def putUni (k : Nat) (d : Opnd) (l : List CoefRes) (g : Group) : Group :=
  let g := raiseRows 0 (coefFlags (l.take 1)) g
  match d with
  | .s n => sSets g n.toNat (coefWords (l.take 1))
  | d => writeUni g d (coefWords (l.take 1) ++ List.replicate k 0)

/-- Runs an instruction of this chapter: step 5 (`ok`), step 6 (`order`), step 7 (`fmt`), then the strands (R113,
R156, R157). `val k g i` is the result at order `k` in strand `i`. -/
def runFloat (x : Fields) (t : Ty) (ok order fmt : Bool) (srcs : List (Opnd × Nat))
    (val : Nat → Group → Nat → List CoefRes) (s : State) : Result :=
  let k := orderOf t s.g
  need ok (wordTrap 0x02) s <|
  need order (wordTrap 0x15) s <|
  need fmt (wordTrap 0x11) s <|
  runAlu x true srcs (fun g => putUni k x.d (val 0 g 0) g) (fun i g => putCoefs i x.d (val k g i) g) s

/-- FP16, BF16 and packed types need order 0 (R91). -/
def orderOk (t : Ty) (g : Group) : Bool := t == .f32 || g.jord == 0

/-- Step 5 for D, A, B at the order in force; the long immediate too is the one immediate of R154. -/
def okF2 (t : Ty) (x : Fields) (g : Group) : Bool :=
  let k := orderOf t g
  formDAB x && oneImm [x.a, x.b] && regsOk g [fRegs k x.d, fRegs k x.a, fRegs k x.b]

/-- Step 5 for D, A. -/
def okF1 (t : Ty) (x : Fields) (g : Group) : Bool :=
  let k := orderOf t g
  formDA x && regsOk g [fRegs k x.d, fRegs k x.a]

/-- Each element of a type through `f`, element 0 first; flags go to row 0 (R155, R158). -/
def elemwise (t : Ty) (f : Nat → CoefRes) : List CoefRes :=
  let rs := (List.range (elemCount t)).map f
  [(joinElems (elemWidth t) (rs.map (fun r => r.1)), rs.foldl (fun a r => a ||| r.2) 0)]

/-- A source element, flushed (R28). -/
def elemSrc (t : Ty) (fmt : DWord) (w e : Nat) : FV := source (fmtOf t) (fmtFzi fmt (fmtOf t).bit) (elemAt t w e)

/-- `Round` to the format of a type under `FMT` (R27). -/
def roundTy (t : Ty) (m : Nat) (fmt : DWord) (x : FV) : CoefRes :=
  roundFV (fmtOf t) m (fmtSat fmt) (fmtFzo fmt (fmtOf t).bit) x

/-- Coefficient 0 of a read operand. -/
def head0 (l : List Nat) : Nat := nth 0 l 0

/-- A two-operand arithmetic instruction (R162): `op` on elements at order 0, `ser` at higher orders. -/
def runArith2 (t : Ty) (x : Fields) (op : Nat → FV → FV → FV)
    (ser : Nat → Nat → DWord → List Nat → List Nat → List CoefRes) (s : State) : Result :=
  let m := x.md.toNat
  runFloat x t (okF2 t x s.g) (orderOk t s.g) (!fmtBad s.g.fmt)
    [fReads (orderOf t s.g) x.a, fReads (orderOf t s.g) x.b] (fun k g i =>
      let a := readJet g x i k x.a
      let b := readJetB g x i k
      if k = 0 then elemwise t (fun e => roundTy t m g.fmt (op m (elemSrc t g.fmt (head0 a) e) (elemSrc t g.fmt (head0 b) e)))
      else ser k m g.fmt a b) s

/-- `FADD` (R162). -/
def execFadd (t : Ty) (x : Fields) (s : State) : Result :=
  runArith2 t x (fun m a b => addV m a b) (fun k m f a b => addSeries k m f false a b) s

/-- `FSUB` (R162). -/
def execFsub (t : Ty) (x : Fields) (s : State) : Result :=
  runArith2 t x (fun m a b => addV m a (negV b)) (fun k m f a b => addSeries k m f true a b) s

/-- `FMUL` (R162). -/
def execFmul (t : Ty) (x : Fields) (s : State) : Result := runArith2 t x (fun _ a b => mulV a b) mulSeries s

/-- `FDIV` (R162). -/
def execFdiv (t : Ty) (x : Fields) (s : State) : Result := runArith2 t x (fun _ a b => divV a b) divSeries s

/-- `FFMA` (R162). -/
def execFfma (f : FmaForm) (t : Ty) (x : Fields) (s : State) : Result :=
  let m := x.md.toNat
  let k0 := orderOf t s.g
  let negP := f == .nm || f == .nms
  let negC := f == .ms || f == .nms
  runFloat x t (formDABC x && regsOk s.g [fRegs k0 x.d, fRegs k0 x.a, fRegs k0 x.b, fRegs k0 x.c]) (orderOk t s.g)
    (!fmtBad s.g.fmt) [fReads k0 x.a, fReads k0 x.b, fReads k0 x.c] (fun k g i =>
      let a := readJet g x i k x.a
      let b := readJet g x i k x.b
      let c := readJet g x i k x.c
      if k = 0 then elemwise t (fun e =>
        let ea := elemSrc t g.fmt (head0 a) e
        let ec := elemSrc t g.fmt (head0 c) e
        roundTy t m g.fmt (addV m (mulV (if negP then negV ea else ea) (elemSrc t g.fmt (head0 b) e)) (if negC then negV ec else ec)))
      else fmaSeries k m g.fmt negP negC a b c) s

/-! ### Sign, selection, comparison (R163 to R166) -/

/-- `FNEG` or `FABS` of a jet or of elements, by sign bits alone (R79, R163). -/
def signOp (abs : Bool) (t : Ty) (k : Nat) (a : List Nat) : List CoefRes :=
  let w := elemWidth t
  if k = 0 then elemwise t (fun e =>
    let v := elemAt t (head0 a) e
    (if abs then v % 2 ^ (w - 1) else v ^^^ 2 ^ (w - 1), 0))
  else
    let flip := !abs || (head0 a).testBit 31
    a.map (fun v => (if flip then v ^^^ 0x80000000 else v, 0))

/-- A sign operation (R163). -/
def runSign (abs : Bool) (t : Ty) (x : Fields) (s : State) : Result :=
  runFloat x t (okF1 t x s.g) (orderOk t s.g) true [fReads (orderOf t s.g) x.a]
    (fun k g i => signOp abs t k (readJet g x i k x.a)) s

/-- `FNEG`, `FABS` (R163). -/
def execFneg (t : Ty) (x : Fields) (s : State) : Result := runSign false t x s
def execFabs (t : Ty) (x : Fields) (s : State) : Result := runSign true t x s

/-- Invalid when either pattern is a signalling NaN. -/
def snanFlag (f : Fmt) (a b : Nat) : Flags := if isSNaN f a || isSNaN f b then flagInvalid else 0

/-- The choice of `FMIN` and `FMAX` between jets or elements (R89, R164). -/
def chooseOp (max : Bool) (t : Ty) (k : Nat) (a b : List Nat) : List CoefRes :=
  if k = 0 then elemwise t (fun e =>
    let f := fmtOf t
    let u := elemAt t (head0 a) e
    let v := elemAt t (head0 b) e
    (match choose89 f max u v with
     | none => canonNaN f
     | some true => u
     | some false => v, snanFlag f u v))
  else
    let fl := snanFlag fp32 (head0 a) (head0 b)
    let l := match choose89 fp32 max (head0 a) (head0 b) with
      | none => canonNaN fp32 :: a.drop 1
      | some true => a
      | some false => b
    (l.take 1).map (fun v => (v, fl)) ++ (l.drop 1).map (fun v => (v, 0))

/-- A selection (R164). -/
def runChoose (max : Bool) (t : Ty) (x : Fields) (s : State) : Result :=
  runFloat x t (okF2 t x s.g) (orderOk t s.g) true [fReads (orderOf t s.g) x.a, fReads (orderOf t s.g) x.b]
    (fun k g i => chooseOp max t k (readJet g x i k x.a) (readJetB g x i k)) s

/-- `FMIN`, `FMAX` (R164). -/
def execFmin (t : Ty) (x : Fields) (s : State) : Result := runChoose false t x s
def execFmax (t : Ty) (x : Fields) (s : State) : Result := runChoose true t x s

/-- A floating-point condition (R165). -/
def fcondHolds (f : FCond) (a b : Ex) : Bool :=
  if a == .nan || b == .nan then f == .ne || f == .uno
  else
    let c := cmpEx a b
    match f with
    | .eq => c == 0
    | .ne => c != 0
    | .lt => decide (c < 0)
    | .le => decide (c ≤ 0)
    | .gt => decide (0 < c)
    | .ge => decide (0 ≤ c)
    | .ord => true
    | .uno => false

/-- A predicate instruction on A and B with flags in row 0: `val` gives the predicate and its flags. -/
def runFPred (x : Fields) (ok fmt : Bool) (srcs : List (Opnd × Nat)) (val : Group → Nat → Bool × Flags) (s : State) : Result :=
  need ok (wordTrap 0x02) s <|
  need fmt (wordTrap 0x11) s <|
  runAlu x true srcs
    (fun g => let (b, f) := val g 0; writePredUni (raise 0 f g) x.d b)
    (fun i g => let (b, f) := val g i; writePred (raise 0 f g) i x.d b) s

/-- `FCMP` (R165): coefficient 0 at every order (R88). -/
def execFcmp (f : FCond) (t : Ty) (x : Fields) (s : State) : Result :=
  let k := orderOf t s.g
  runFPred x (isPDst x x.d && isSrc x x.a && isSrcB x && oneImm [x.a, x.b] &&
      regsOk s.g [fRegs k x.a, fRegs k x.b]) (!fmtBad s.g.fmt) [fRegs 0 x.a, fRegs 0 x.b] (fun g i =>
    let a := elemSrc t g.fmt (head0 (readJet g x i 0 x.a)) 0
    let b := elemSrc t g.fmt (head0 (readJetB g x i 0)) 0
    (fcondHolds f a.1 b.1, a.2 ||| b.2)) s

/-- Class number of a pattern (R166). -/
def classOf (f : Fmt) (x : Nat) : Nat :=
  let s := signField f x
  if isNaN f x then (if isSNaN f x then 0 else 1)
  else if isInf f x then (if s then 2 else 9)
  else if isZero f x then (if s then 5 else 6)
  else if isSub f x then (if s then 4 else 7)
  else if s then 3 else 8

/-- `FCLASS` (R166). -/
def execFclass (t : Ty) (x : Fields) (s : State) : Result :=
  let k := orderOf t s.g
  runFPred x (isPDst x x.d && isSrc x x.a && isSrcB x && oneImm [x.a, x.b] &&
      regsOk s.g [fRegs k x.a, (x.b, 1)]) true [fRegs 0 x.a, (x.b, 1)] (fun g i =>
    ((readB32 g x i).getLsbD (classOf (fmtOf t) (elemAt t (head0 (readJet g x i 0 x.a)) 0)), 0)) s

/-! ### Rounding to integral and special functions (R167, R168) -/

/-- An element rounded to an integral value of its format (R167). -/
def rndElem (t : Ty) (m : Nat) (x : FV) : CoefRes :=
  let f := fmtOf t
  match x.1 with
  | .nan => (canonNaN f, x.2)
  | .inf s => (infBits f s, x.2)
  | .num s n d e =>
    let (v, _) := roundAt m s n d e 0
    ((roundFV f 0 false false (.num s v 1 0, 0)).1, x.2)

/-- `FRND` (R167): at order k > 0 the higher coefficients are +0. -/
def execFrnd (t : Ty) (x : Fields) (s : State) : Result :=
  runFloat x t (okF1 t x s.g) (orderOk t s.g) (!fmtBad s.g.fmt) [fReads 0 x.a] (fun k g i =>
    elemwise t (fun e => rndElem t x.md.toNat (elemSrc t g.fmt (head0 (readJet g x i 0 x.a)) e)) ++
      List.replicate k (0, 0)) s

/-- Flags of coefficient 0 of the jet that `SINPI` and `COSPI` compute and do not return (R83). -/
def partnerFlags (fn : SFun) (fmt : DWord) (a : List Nat) : Flags :=
  match fn with
  | .sinpi => (first .cospi fmt a).2
  | .cospi => (first .sinpi fmt a).2
  | _ => 0

/-- A special function of elements, or of a uniform source at an order `kk` > 0, whose row 0 receives the flags of both
sine and cosine (R83). -/
def sfunElems (fn : SFun) (t : Ty) (kk : Nat) (fmt : DWord) (a : List Nat) : List CoefRes :=
  let l := elemwise t (fun e => roundTy t 0 fmt (sfun fn (elemSrc t fmt (head0 a) e)))
  if kk = 0 then l else l.map (fun r => (r.1, r.2 ||| partnerFlags fn fmt a))

/-- A special function (R168). -/
def runSfun (fn : SFun) (t : Ty) (x : Fields) (s : State) : Result :=
  runFloat x t (okF1 t x s.g) (orderOk t s.g) (!fmtBad s.g.fmt) [fReads (orderOf t s.g) x.a] (fun k g i =>
    let a := readJet g x i k x.a
    if k = 0 then sfunElems fn t (orderOf t g) g.fmt a
    else sfunSeries fn k g.fmt a) s

/-- `RCP` to `SIGM` (R168). -/
def execRcp (t : Ty) (x : Fields) (s : State) : Result := runSfun .rcp t x s
def execSqrt (t : Ty) (x : Fields) (s : State) : Result := runSfun .sqrt t x s
def execRsqrt (t : Ty) (x : Fields) (s : State) : Result := runSfun .rsqrt t x s
def execExp2 (t : Ty) (x : Fields) (s : State) : Result := runSfun .exp2 t x s
def execLog2 (t : Ty) (x : Fields) (s : State) : Result := runSfun .log2 t x s
def execSinpi (t : Ty) (x : Fields) (s : State) : Result := runSfun .sinpi t x s
def execCospi (t : Ty) (x : Fields) (s : State) : Result := runSfun .cospi t x s
def execTanh (t : Ty) (x : Fields) (s : State) : Result := runSfun .tanh t x s
def execSigm (t : Ty) (x : Fields) (s : State) : Result := runSfun .sigm t x s

/-! ### Jet instructions (R169 to R175) -/

/-- `JORD` (R170): an s register's value is checked when the instruction executes. -/
def execJord (x : Fields) (s : State) : Result :=
  let v := read32 s.g x 0 x.b
  let bad := decide (3 < v.toNat)
  need ((isS x.b || isShort x.b) && !isLong x && regOk s.g x.b 1 && !(isShort x.b && bad)) (wordTrap 0x02) s (
    if holdsQ s.g x then
      if bad then trapped (wordTrap 0x02) s else finish { s.g with jord := v.extractLsb' 0 2 } s
    else finish s.g s)

/-- `JSEED` (R171). -/
def execJseed (x : Fields) (s : State) : Result :=
  let k := s.g.jord.toNat
  let val := fun (g : Group) (i : Nat) =>
    [BitVec.ofNat 32 (head0 (readJet g x i 0 x.a)), readB32 g x i] ++ List.replicate (k - 1) (0 : Word)
  need (isV x.d && isSrc x x.a && isSrcB x && oneImm [x.a, x.b] &&
      regsOk s.g [fRegs k x.d, fRegs k x.a, (x.b, 1)]) (wordTrap 0x02) s <|
  need (k != 0) (wordTrap 0x15) s <|
  runMap x true [fRegs 0 x.a, (x.b, 1)] val s

/-- Coefficient number of `JGET` and `JSET`. -/
def coefOf (x : Fields) : Nat := (x.e.extractLsb' 0 2).toNat

/-- `JGET` (R172). The table calls A a jet group: a constant in A (R73) is cause 0x02 (DEDUCED, log entry 100). -/
def execJget (x : Fields) (s : State) : Result :=
  let k := s.g.jord.toNat
  let i := coefOf x
  need (isV x.d && isV x.a && regsOk s.g [(x.d, 1), fRegs k x.a]) (wordTrap 0x02) s <|
  need (decide (i ≤ k)) (wordTrap 0x15) s <|
  runMap x true [(.v (BitVec.ofNat 8 (opIdx x.a + i)), 1)] (fun g j => [vGet g j (opIdx x.a + i)]) s

/-- `JSET` (R172). -/
def execJset (x : Fields) (s : State) : Result :=
  let k := s.g.jord.toNat
  let i := coefOf x
  let d : Opnd := .v (BitVec.ofNat 8 (opIdx x.d + i))
  need (isV x.d && !isLong x && isSrc x x.b && regsOk s.g [fRegs k x.d, (x.b, 1)]) (wordTrap 0x02) s <|
  need (decide (i ≤ k)) (wordTrap 0x15) s <|
  runAlu x true [(x.b, 1)] (fun g => writeUni g d [read32 g x 0 x.b]) (fun j g => writeRegs g j d [read32 g x j x.b]) s

/-- `JSHIFT` (R173). -/
def execJshift (x : Fields) (s : State) : Result :=
  runFloat x .f32 (okF1 .f32 x s.g) (s.g.jord != 0) (!fmtBad s.g.fmt) [fReads s.g.jord.toNat x.a]
    (fun k g i => shiftSeries k g.fmt (readJet g x i k x.a)) s

/-- `JTEST` (R174). -/
def execJtest (x : Fields) (s : State) : Result :=
  let k := s.g.jord.toNat
  runFPred x (isP x.d && isSrc x x.a && regsOk s.g [fRegs k x.a]) true [fReads k x.a] (fun g i =>
    ((readJet g x i k x.a).any (fun v => expField fp32 v == 255), 0)) s

/-- `JXR` (R175). -/
def execJxr (x : Fields) (s : State) : Result :=
  runMap x ((isS x.d || isV x.d) && regOk s.g x.d 1) [] (fun g _ => [g.jx.zeroExtend 32]) s

/-- `JXC` (R175). -/
def execJxc (x : Fields) (s : State) : Result :=
  need ((isS x.b || isShort x.b || isLong x) && isSrcB x && regOk s.g x.b 1) (wordTrap 0x02) s
    (finish (if holdsQ s.g x then { s.g with jx := s.g.jx &&& ~~~((readB32 s.g x 0).extractLsb' 0 20) } else s.g) s)

/-! ### Conversions (R149 to R152) -/

/-- Floating-point types of `CVT`. -/
def isFloatTy : Ty → Bool
  | .f32 | .f16 | .bf16 => true
  | _ => false

/-- Least and greatest value of an integer target, Q formats symmetric (R17, R30). -/
def cvtMin (t : Ty) : Int :=
  match t with
  | .q8 => -127
  | .q4 => -7
  | t => tyMin t

def cvtMax (t : Ty) : Int := tyMax t

/-- The integer value of a pattern, a null code read as 0 (R18). -/
def cvtInt (t : Ty) (w : Nat) : Int :=
  let v := elemVal t w 0
  if (t == .q8 && v == -128) || (t == .q4 && v == -8) then 0 else v

/-- An integer into an integer format, saturating (R30, R151). -/
def clampTo (t : Ty) (v : Int) : CoefRes :=
  if v < cvtMin t then (patternOf (elemWidth t) (cvtMin t), flagInvalid)
  else if cvtMax t < v then (patternOf (elemWidth t) (cvtMax t), flagInvalid)
  else (patternOf (elemWidth t) v, 0)

/-- A floating-point value into an integer format (R30). -/
def floatToInt (t : Ty) (m : Nat) (x : Ex) : CoefRes :=
  match x with
  | .nan => (0, flagInvalid)
  | .inf s => (patternOf (elemWidth t) (if s then cvtMin t else cvtMax t), flagInvalid)
  | .num s n d e =>
    let (v, ix) := roundToInt m s n d e
    let (b, f) := clampTo t v
    (b, if f = 0 then (if ix then flagInexact else 0) else f)

/-- The exact value of an integer. -/
def intEx (v : Int) : Ex := .num (decide (v < 0)) v.natAbs 1 0

/-- One conversion of a pattern (R151). -/
def cvtOne (dst src : Ty) (m : Nat) (fmt : DWord) (w : Nat) : CoefRes :=
  if isFloatTy src then
    let x := elemSrc src fmt w 0
    if isFloatTy dst then roundTy dst m fmt x else floatToInt dst m x.1
  else if isFloatTy dst then roundTy dst m fmt (intEx (cvtInt src w), 0)
  else clampTo dst (cvtInt src w)

/-- A conversion reads `FMT` when either side is floating-point (R149). -/
def cvtReadsFmt (dst src : Ty) : Bool :=
  isFloatTy dst || isFloatTy src || cvtPacks dst src || cvtUnpacks dst src

/-- Registers of a `CVT` operand: jet groups for FP32 v registers, pairs for 64-bit types (R150, R152). -/
def cvtRegs (k : Nat) (t : Ty) (o : Opnd) : Opnd × Nat :=
  (o, if t == .f32 then (if isV o then jetRegs k else 1) else regCount t)

/-- Writes the words of a conversion, one jet group or register for each result (R152). -/
def cvtWords (k : Nat) (dst : Ty) (d : Opnd) (r : CoefRes) : List Word :=
  if dst == .f32 && isV d then BitVec.ofNat 32 r.1 :: List.replicate k 0 else wordsTy dst r.1

/-- Runs a conversion whose results `val g i` go to the operands of `dsts`. -/
def runCvt (dst src : Ty) (x : Fields) (ok : Bool) (srcs : List (Opnd × Nat)) (dsts : List Opnd)
    (val : Group → Nat → List CoefRes) (s : State) : Result :=
  let k := s.g.jord.toNat
  let put := fun (g : Group) (i : Option Nat) (l : List CoefRes) =>
    (dsts.zip l).foldl (fun h e =>
      let h := raise 0 e.2.2 h
      match i with
      | none => writeUni h e.1 (cvtWords k dst e.1 e.2)
      | some i => writeRegs h i e.1 (cvtWords k dst e.1 e.2)) g
  need ok (wordTrap 0x02) s <|
  need (!(cvtReadsFmt dst src && fmtBad s.g.fmt)) (wordTrap 0x11) s <|
  runAlu x true srcs (fun g => put g none (val g 0)) (fun i g => put g (some i) (val g i)) s

/-- The operand `n` registers after another. -/
def opPlus (o : Opnd) (n : Nat) : Opnd :=
  match o with
  | .v k => .v (k + BitVec.ofNat 8 n)
  | .s k => .s (k + BitVec.ofNat 8 n)
  | o => o

/-- `CVT` (R149 to R152). -/
def execCvt (dst src : Ty) (x : Fields) (s : State) : Result :=
  let k := s.g.jord.toNat
  let m := x.md.toNat
  let read := fun (g : Group) (i : Nat) (o : Opnd) => readTy src g x i o
  if cvtPacks dst src then
    runCvt dst src x (!isLong x && isDst x x.d && isSrc x x.a && isSrc x x.b && oneImm [x.a, x.b] &&
        regsOk s.g [(x.d, 1), cvtRegs k .f32 x.a, cvtRegs k .f32 x.b])
      [cvtRegs 0 .f32 x.a, cvtRegs 0 .f32 x.b] [x.d] (fun g i =>
        let one := fun w => roundTy dst m g.fmt (elemSrc .f32 g.fmt w 0)
        let a := one (read g i x.a)
        let b := one (read g i x.b)
        [(joinElems 16 [a.1, b.1], a.2 ||| b.2)]) s
  else if cvtUnpacks dst src then
    let step := jetRegs k
    let d1 := opPlus x.d step
    runCvt dst src x (formDA x && decide (opIdx x.d + step < 256) &&
        regsOk s.g [fRegs k x.d, (x.a, 1)] && regsOk s.g [fRegs k d1, (x.a, 1)])
      [(x.a, 1)] [x.d, d1] (fun g i =>
        (List.range 2).map (fun e => roundTy .f32 m g.fmt (elemSrc src g.fmt (read g i x.a) e))) s
  else
    runCvt dst src x (formDA x && regsOk s.g [cvtRegs k dst x.d, cvtRegs k src x.a])
      [cvtRegs 0 src x.a] [x.d] (fun g i => [cvtOne dst src m g.fmt (read g i x.a)]) s

end Sys2Proof.Machine
end

