-- ==== Sys2Proof/Machine/Matrix.lean ====
section
/-! DEFINITION. The matrix engine: tiles, residue arithmetic and its checks, octet operations and conversions, the issue
of the five matrix instructions, the acceptance of every command and what the matrix commands perform (R13 to R38,
R95, R96, R248, R255 to R288, R434, R437). -/

namespace Sys2Proof.Machine

/-! ### Formats (R23, R259, R264, R282, R287) -/

/-- Bits of an element of a format; ternary packs five in a byte. -/
def fmtBits (f : Nat) : Nat :=
  match f with
  | 0 | 6 => 32
  | 1 | 2 | 11 | 13 | 14 => 16
  | 3 | 5 | 9 => 8
  | 4 | 12 => 4
  | 7 => 64
  | 8 => 2
  | _ => 0

/-- Elements in 64 bytes of A: K of one `MMA` (R259). -/
def kOf (f : Nat) : Nat := if f = 10 then 320 else 512 / max 1 (fmtBits f)

/-- Bytes of a row of 128 elements (R264, R282). -/
def rowLen (f : Nat) : Nat := if f = 10 then 26 else 16 * fmtBits f

/-- Narrow codes, and float codes (R275, R287). -/
def isNarrow (f : Nat) : Bool := [3, 4, 5, 8, 9, 10, 12, 13, 14].contains f
def isFloatCode (f : Nat) : Bool := [1, 2, 11].contains f

/-- Codes that `Charon` emulates (R23). -/
def isEmulated (f : Nat) : Bool := decide (8 ≤ f) && decide (f ≤ 14)

/-- Fields of `FMT` (R22). -/
def fmtFa (f : DWord) : Nat := bitsAt f.toNat 3 0
def fmtFb (f : DWord) : Nat := bitsAt f.toNat 7 4
def fmtFd (f : DWord) : Nat := bitsAt f.toNat 11 8
def fmtFs (f : DWord) : Nat := bitsAt f.toNat 13 12
def fmtSpan (f : DWord) : Nat := bitsAt f.toNat 18 16
def fmtRm (f : DWord) : Nat := bitsAt f.toNat 22 20

/-- Elements of a scale span (R20). -/
def spanOf (code : Nat) : Nat := 256 * 2 ^ code

/-- The pair of operand formats is ill-formed for `MMA` and `ALOAD` (R275). -/
def pairBad (f : DWord) : Bool :=
  let a := fmtFa f
  let b := fmtFb f
  !((isNarrow a && isNarrow b) || (isFloatCode a && isFloatCode b && fmtFs f == 0))

/-- Reduced service: hardware takes BF16 and FP32 alone (R434). -/
def reduced (s : State) : Bool := s.phase == 3 || s.phase == 4
def plainCode (f : Nat) : Bool := f == 0 || f == 2

/-- A pair, or a single format, goes to `Charon` (R25, R287, R434). -/
def routed (s : State) (fs : List Nat) : Bool := fs.any isEmulated || (reduced s && fs.any (fun f => !plainCode f))

/-! ### Elements -/

/-- Narrow elements of one byte, low element first: value and whether it is a null code (R17, R18, R23). A ternary byte of 243
to 255 counts as five null codes, padding trits included (DESIGN CHOICE, log entry 105: the spec calls the byte codes null and
does not say how many nulls one is). Bits 7:6 of a Q6 byte are ignored, and a drain writes zeros there (DESIGN CHOICE, log entry
139). -/
def narrowByte (f x : Nat) : List (Int × Bool) :=
  let sg := fun (w v : Nat) => if v = 2 ^ (w - 1) then ((0 : Int), true) else (patternVal true w v, false)
  let us := fun (v : Nat) => ((v : Int), false)
  match f with
  | 3 => [sg 8 x]
  | 5 => [us x]
  | 4 => [sg 4 (x % 16), sg 4 (x / 16)]
  | 12 => [us (x % 16), us (x / 16)]
  | 8 => (List.range 4).map (fun k => sg 2 (x / 4 ^ k % 4))
  | 9 => [sg 6 (x % 64)]
  | 10 => (List.range 5).map (fun k =>
      if 243 ≤ x then (0, true) else (match x / 3 ^ k % 3 with
        | 0 => ((0 : Int), false)
        | 1 => (1, false)
        | _ => (-1, false)))
  | _ => []

/-- The 16-bit values of a list of bytes. -/
def halves : List Byte → List Nat
  | a :: b :: t => (a.toNat + 256 * b.toNat) :: halves t
  | _ => []

/-- Narrow elements of a row of bytes. -/
def narrowElems (f : Nat) (b : List Byte) : List (Int × Bool) :=
  match f with
  | 13 => (halves b).map (fun x => if x = 0x8000 then (0, true) else (patternVal true 16 x, false))
  | 14 => (halves b).map (fun (x : Nat) => ((x : Int), false))
  | f => b.flatMap (fun x => narrowByte f x.toNat)

/-- The value of an E8 code (R19). -/
def e8Value (c : Nat) : FV := if c = 255 then (.nan, 0) else (.num false 1 1 ((c : Int) - 127), 0)

/-- Floating-point elements of a row, flushed by R28; code 11 multiplies by the row's E8 scale. -/
def floatElems (f : Nat) (fmt : DWord) (scale : Nat) (b : List Byte) : List FV :=
  match f with
  | 1 => (halves b).map (source fp16 (fmtFzi fmt 1))
  | 2 => (halves b).map (source bf16 (fmtFzi fmt 2))
  | 11 => (halves b).map (fun x => mulV (source bf16 (fmtFzi fmt 2) x) (e8Value scale))
  | _ => []

/-! ### Residue words (R32 to R35, R260) -/

/-- Even parity over the 31 low bits. -/
def parityOf (x : Nat) : Nat := ((List.range 31).map (fun k => x / 2 ^ k % 2)).sum % 2

/-- The residue word of an integer (R32, R33). -/
def residue (v : Int) : Word :=
  let x := (v % 1025).toNat * 2 ^ 20 + (v % 1024).toNat * 2 ^ 10 + (v % 1023).toNat
  BitVec.ofNat 32 (parityOf x * 2 ^ 31 + x)

/-- Channels of a residue word. -/
def chA (w : Word) : Nat := bitsAt w.toNat 9 0
def chB (w : Word) : Nat := bitsAt w.toNat 19 10
def chC (w : Word) : Nat := bitsAt w.toNat 30 20

/-- A corrupt word (R33). -/
def corrupt (w : Word) : Bool :=
  chA w == 1023 || decide (1024 < chC w) || decide (parityOf (w.toNat % 2 ^ 31) ≠ w.toNat / 2 ^ 31)

/-- The exact signed integer of a residue word (R35). -/
def crt (w : Word) : Int :=
  let x := (chA w * 1049600 * 512 + chB w * 1048575 * 1023 + chC w * 1047552 * 513) % 1073740800
  if 536870400 ≤ x then (x : Int) - 1073740800 else x

/-- Adds an integer to a residue word, channel by channel; a corrupt word stays as it is (R34, R260). -/
def residueAdd (w : Word) (v : Int) : Word :=
  if corrupt w then w
  else
    let x := (((chC w : Int) + v) % 1025).toNat * 2 ^ 20 + (((chB w : Int) + v) % 1024).toNat * 2 ^ 10 + (((chA w : Int) + v) % 1023).toNat
    BitVec.ofNat 32 (parityOf x * 2 ^ 31 + x)

/-- The sum of residue words, channel by channel. -/
def residueSum (l : List Word) : Word :=
  let f := fun (ch : Word → Nat) (m : Nat) => (l.map ch).sum % m
  let x := f chC 1025 * 2 ^ 20 + f chB 1024 * 2 ^ 10 + f chA 1023
  BitVec.ofNat 32 (parityOf x * 2 ^ 31 + x)

/-! ### Blocks of a tile (R256, R257, R267, R268) -/

/-- The eight rows of 128 words of a block. -/
def blockOf (t : Sparse Word) (blk : Nat) : List (List Word) :=
  (List.range 8).map (fun i => Sparse.slice 0 (1024 * blk + 128 * i) 128 t)

/-- Replaces a block. -/
def putBlock (t : Sparse Word) (blk : Nat) (rows : List (List Word)) : Sparse Word := Sparse.splice 0 (1024 * blk) rows.flatten t

/-- Columns of a list of rows of 128. -/
def columns (rows : List (List Word)) : List (List Word) := (List.range 128).map (fun c => rows.map (fun r => nth 0 r c))

/-- `CheckBlock` (R268): the subcode of a failure. -/
def checkBlock (t : Tile) (blk : Nat) : Option Nat :=
  let z := blockOf t.resid blk
  let col := Sparse.slice 0 (8 * blk) 8 t.col
  let row := Sparse.slice 0 (128 * blk) 128 t.row
  if z.any (·.any corrupt) || col.any corrupt || row.any corrupt then some 2
  else if (z.map residueSum) != col || ((columns z).map residueSum) != row then some 1
  else none

/-- Fields of `MSTAT` (R258). -/
def isBad (t : Tile) : Bool := t.mstat.getLsbD 15
def setBad (t : Tile) : Tile := { t with mstat := t.mstat ||| 0x8000 }
def setPois (t : Tile) : Tile := { t with mstat := t.mstat ||| 0x4000 }
def addFlags (f : Flags) (t : Tile) : Tile := { t with mstat := t.mstat ||| f.zeroExtend 32 }
def addNulls (n : Nat) (t : Tile) : Tile :=
  let k := min (bitsAt t.mstat.toNat 31 16 + n) 0xFFFF
  { t with mstat := BitVec.ofNat 32 (k * 65536 + t.mstat.toNat % 65536) }

/-- FP32 canonical NaN. -/
def nanWord : Word := 0x7FC00000

/-- Rewrites the uncorrectable carry words of a range of keys (R437): the tile, and whether there were any. -/
def rewriteBad (lo n : Nat) (t : Tile) : Tile × Bool :=
  let hit := t.badCarry.filter (fun k => decide (lo ≤ k) && decide (k < lo + n))
  if hit = [] then (t, false)
  else (setPois { t with carry := hit.foldl (fun c k => Sparse.set 0 k nanWord c) t.carry
                         badCarry := t.badCarry.filter (fun k => !hit.contains k) }, true)

/-! ### Conversions (R35, R260) -/

/-- A scale as an exact value: scale format 0 none, 1 E8, 2 BF16. -/
def scaleValue (fs : Nat) (w : Word) : FV :=
  match fs with
  | 1 => e8Value (w.toNat % 256)
  | 2 => source bf16 false (w.toNat % 65536)
  | _ => (.num false 1 1 0, 0)

/-- An integer as an exact value. -/
def intV (v : Int) : FV := (intEx v, 0)

/-- The span sum of element `key`: exact beyond the residue range for emulated formats (R287). -/
def spanSum (t : Tile) (key : Nat) (w : Word) : Int :=
  if isEmulated t.lfa.toNat || isEmulated t.lfb.toNat then Sparse.get 0 key t.exact else crt w

/-- The carry word of an element after its block's conversion, with flags (R35). A span sum of 0 counts as +0, so that its
product with a negative BF16 scale is -0 (DESIGN CHOICE, log entry 106: the spec gives an integer zero no sign). -/
def convertElem (t : Tile) (sat : Bool) (blk i c : Nat) (carry z : Word) : Nat × Flags :=
  let sa := scaleValue t.lfs.toNat (Sparse.get 0 (8 * blk + i) t.sclA)
  let sb := scaleValue t.lfs.toNat (Sparse.get 0 (128 * blk + c) t.sclB)
  let p := mulV (mulV (intV (spanSum t (1024 * blk + 128 * i + c) z)) sa) sb
  roundFV fp32 0 sat false (addV 0 (source fp32 false carry.toNat) p)

/-- The residue words, checksums and exact sums of a block become zero. -/
def clearBlock (blk : Nat) (t : Tile) : Tile :=
  { t with resid := Sparse.drop (fun k => k / 1024 == blk) t.resid
           exact := Sparse.drop (fun k => k / 1024 == blk) t.exact
           col := Sparse.drop (fun k => k / 8 == blk) t.col
           row := Sparse.drop (fun k => k / 128 == blk) t.row }

/-- `ConvertBlock` (R260): the tile, a failed check's subcode, and whether a carry word was uncorrectable. -/
def convertBlock (sat : Bool) (blk : Nat) (t : Tile) : Tile × Option Nat × Bool :=
  match checkBlock t blk with
  | some sub => (setBad t, some sub, false)
  | none =>
    let (t, bad) := rewriteBad (1024 * blk) 1024 t
    let z := blockOf t.resid blk
    let k := blockOf t.carry blk
    let out := (List.range 8).map (fun i => (List.range 128).map (fun c =>
      convertElem t sat blk i c (nth 0 (nth [] k i) c) (nth 0 (nth [] z i) c)))
    let flags := (out.flatten.map (·.2)).foldl (· ||| ·) 0
    let carry := putBlock t.carry blk (out.map (·.map (fun e => BitVec.ofNat 32 e.1)))
    let sidx := Sparse.set 0 blk ((sidxOf t blk + 1) % 65536) t.sidx
    let t := clearBlock blk (addFlags flags { t with carry := carry })
    ({ t with kpos := Sparse.set 0 blk 0 t.kpos, sidx := sidx }, none, bad)

/-! ### Octet operations (R260, R267, R269, R36) -/

/-- Adds a row of products to a row of sums. -/
def axpy (a : Int) : List Int → List Int → List Int
  | b :: bs, s :: ss => (s + a * b) :: axpy a bs ss
  | _, ss => ss

/-- Products of one A row with the rows of B, for each column. -/
def dotRow (zero : List Int) : List Int → List (List Int) → List Int
  | a :: as, b :: bs => axpy a b (dotRow zero as bs)
  | _, _ => zero

/-- Narrow accumulation of A rows (8 × n) and B rows (n × 128) into a block, with its checksums (R267). -/
def accNarrow (blk : Nat) (a b : List (List Int)) (t : Tile) : Tile :=
  let zero := List.replicate 128 (0 : Int)
  let p := a.map (fun r => dotRow zero r b)
  let z := ((blockOf t.resid blk).zip p).map (fun e => (e.1.zip e.2).map (fun w => residueAdd w.1 w.2))
  let col := ((Sparse.slice 0 (8 * blk) 8 t.col).zip (p.map (·.sum))).map (fun w => residueAdd w.1 w.2)
  let colSums := (List.range 128).map (fun c => (p.map (fun r => nth 0 r c)).sum)
  let row := ((Sparse.slice 0 (128 * blk) 128 t.row).zip colSums).map (fun w => residueAdd w.1 w.2)
  let exact := if isEmulated t.lfa.toNat || isEmulated t.lfb.toNat then
      Sparse.splice 0 (1024 * blk) ((Sparse.slice 0 (1024 * blk) 1024 t.exact).zip p.flatten |>.map (fun w => w.1 + w.2)) t.exact
    else t.exact
  { t with resid := putBlock t.resid blk z, col := Sparse.splice 0 (8 * blk) col t.col
           row := Sparse.splice 0 (128 * blk) row t.row, exact := exact }

/-- One run of at most 16 products added to a carry word and rounded once (R36). The terms are added in ascending order behind
the carry word: infinities of opposite sign behind a NaN set no flag (DESIGN CHOICE, log entry 107: the spec does not say
whether they do). -/
def accRun (sat : Bool) (carry : Nat × Flags) (prods : List FV) : Nat × Flags :=
  let r := roundFV fp32 0 sat false (prods.foldl (addV 0) (source fp32 false carry.1))
  (r.1, carry.2 ||| r.2)

/-- Products of a row and a column, cut into runs of 16. -/
def runsOf16 : Nat → List FV → List (List FV)
  | 0, _ => []
  | n + 1, l => if l = [] then [] else l.take 16 :: runsOf16 n (l.drop 16)

/-- Float accumulation into a block (R36). -/
def accFloat (sat : Bool) (blk : Nat) (a b : List (List FV)) (t : Tile) : Tile :=
  let cols := (List.range 128).map (fun c => b.map (fun r => nth (.num false 0 1 0, 0) r c))
  let out := ((blockOf t.carry blk).zip a).map (fun e => (e.1.zip cols).map (fun w =>
    (runsOf16 w.2.length ((e.2.zip w.2).map (fun x => mulV x.1 x.2))).foldl (accRun sat) (w.1.toNat, 0)))
  let flags := (out.flatten.map (·.2)).foldl (· ||| ·) 0
  addFlags flags { t with carry := putBlock t.carry blk (out.map (·.map (fun e => BitVec.ofNat 32 e.1))) }

/-- The latched formats of a tile agree with a command's (R260, R279). -/
def latchAgrees (f : DWord) (t : Tile) : Bool :=
  t.lfa.toNat == fmtFa f && t.lfb.toNat == fmtFb f && t.lfs.toNat == fmtFs f && t.lspan.toNat == fmtSpan f

/-- The command of acceptance number `n` latches formats into an empty tile (R260). -/
def latchTile (n : Nat) (f : DWord) (t : Tile) : Tile :=
  if t.kind = 0 then
    { t with kind := if isNarrow (fmtFa f) then 1 else 2, lfa := BitVec.ofNat 4 (fmtFa f), lfb := BitVec.ofNat 4 (fmtFb f)
             lfs := BitVec.ofNat 2 (fmtFs f), lspan := BitVec.ofNat 3 (fmtSpan f), filled := n }
  else t

/-- Operand rows of one product of an octet operation. -/
structure Operands where
  narrowA : List (List (Int × Bool))
  narrowB : List (List (Int × Bool))
  floatA : List (List FV)
  floatB : List (List FV)

/-- Null codes among rows. -/
def nullsIn (rows : List (List (Int × Bool))) : Nat := (rows.map (fun r => (r.filter (·.2)).length)).sum

/-- How an octet operation ends: done, or with a failure of the tile it names. -/
inductive OctetEnd where
  | done
  | failed (cause sub : Nat) (tile : Nat)
  deriving DecidableEq, Repr

/-- Segments of K indices between span boundaries, each with its first index: formats in hardware have one (R260). -/
def segments : Nat → Nat → Nat → Nat → Nat → List (Nat × Nat)
  | 0, _, _, _, _ => []
  | n + 1, pos, span, at_, k =>
    if k ≤ at_ then []
    else
      let m := min (k - at_) (span - pos)
      (at_, m) :: segments n (if pos + m = span then 0 else pos + m) span (at_ + m) k

/-- The narrow part of an octet operation from index `at_` of length `m`: every product of the list adds, then `KPOS`
advances and a full span converts (R260, R269). -/
def narrowStep (f : DWord) (blk : Nat) (ops : List Operands) (t : Tile) (at_ m : Nat) : Tile × Option Nat × Bool :=
  let cut := fun (o : Operands) (t : Tile) =>
    accNarrow blk (o.narrowA.map (fun r => ((r.drop at_).take m).map (·.1))) (((o.narrowB.drop at_).take m).map (·.map (·.1))) t
  let t := ops.foldl (fun t o => cut o t) t
  let k := kposOf t blk + m
  let t := { t with kpos := Sparse.set 0 blk k t.kpos }
  if k = spanOf t.lspan.toNat then convertBlock (fmtSat f) blk t else (t, none, false)

/-- The float part of an octet operation (R36, R437). -/
def floatStep (f : DWord) (blk k : Nat) (ops : List Operands) (t : Tile) : Tile × Option Nat × Bool :=
  let (t, bad) := rewriteBad (1024 * blk) 1024 t
  let t := ops.foldl (fun t o => accFloat (fmtSat f) blk o.floatA o.floatB t) t
  ({ t with kpos := Sparse.set 0 blk ((kposOf t blk + k) % 8192) t.kpos }, none, bad)

/-! ### Tiles by name -/

/-- Physical tile of name `n` of a team on a core (R255). -/
def physTile (s : State) (tid core n : Nat) : Option Nat :=
  (findTeam s tid).bind (fun t => (nth [] t.tiles (posIn t core))[n]?)

/-- A tile of a core. -/
def tileAt (s : State) (core p : Nat) : Tile := Sparse.get Tile.empty p (coreAt s core).tiles

/-- Replaces a tile. -/
def putTile (core p : Nat) (t : Tile) (s : State) : State :=
  modCore core (fun k => { k with tiles := Sparse.set Tile.empty p t k.tiles }) s

/-- The tile reference of a name (R272). -/
def tileRef (core n : Nat) : DWord := BitVec.ofNat 64 (0x8000000000010000 + 4096 * (core / 48) + 64 * (core % 48) + n)

/-- The tile that a command of a core calls by a name: physical number 0 stands for none, which acceptance excludes. -/
def cmdTile (s : State) (core : Nat) (c : Command) (n : Nat) : Nat := (physTile s c.team core n).getD 0

/-- Tiles that a command names. -/
def tilesOf (c : Command) : List Nat :=
  match c.kind with
  | .mma t _ _ _ _ _ _ _ => if c.jord = 1 then [t, t + 1] else [t]
  | .mmaz t => [t]
  | .drain _ t _ _ => [t]
  | .achk _ t => [t]
  | .aload t _ _ _ => [t]
  | _ => []

/-- A drain that has taken its rows and not retired. -/
def drains (c : Command) : Bool :=
  match c.kind with
  | .drain _ _ _ _ => c.phase == .running
  | _ => false

/-- A command waits for an earlier command of its group on one of its tiles, or for a drain in progress (R262, R284). -/
def tileWaits (s : State) (core : Nat) (c : Command) : Bool :=
  (ownSeq s core c.team).any (fun d => d.serial != c.serial && (tilesOf d).any (fun t => (tilesOf c).contains t) &&
    ((d.group == c.group && decide (d.serial < c.serial)) || drains d))

/-! ### Issue (R263, R273 to R278, R287) -/

/-- Number of a tile operand. -/
def tileIdx (o : Opnd) : Nat := opIdx o - 0x10

/-- Tiles the running group's team holds on its core. -/
def ownTiles (s : State) : Nat :=
  match findTeam s s.g.tid with
  | none => 0
  | some t => (nth [] t.tiles (posIn t (coreNo s.g))).length

/-- A tile operand within the allocation (R255), with `extra` further tiles. -/
def tileOk (s : State) (o : Opnd) (extra : Nat) : Bool := isTile o && decide (tileIdx o + extra < ownTiles s)

/-- The core has an engine (R255, R336). -/
def hasEngine (s : State) : Bool := (fuseOf s (coreNo s.g)).engine

/-- A matrix command is offered to the sequencer, or to `Charon` (R25, R248, R287). -/
def offer (c : Command) (emulated : Bool) (s : State) : Result :=
  .next (setG { s.g with status := if emulated then .waitEmulation { c with emulated := true } else .accepting c } s)

/-- Registers 16 of each strand from a register on: register k of strand i at key 32 * i + k. -/
def aRows (g : Group) (reg n : Nat) : Sparse Word :=
  (List.range (widthOf g)).foldl (fun t i => (List.range n).foldl (fun t k => Sparse.set 0 (32 * i + k) (vGet g i (reg + k)) t) t) []

/-- Octets of which at least one strand executes (R276). -/
def octetsOf (g : Group) (exec : DWord) : List Nat := (List.range (widthOf g / 8)).filter (fun j => exec.toNat / 2 ^ (8 * j) % 256 != 0)

/-- The latch agrees with an `MMA` (R263). -/
def latchOk (g : Group) (x : Fields) : Bool :=
  match g.latch with
  | none => true
  | some l => l.reg == BitVec.ofNat 8 (opIdx x.a) && l.fa.toNat == fmtFa g.fmt && l.jord == g.jord

/-- Step 5 for `MMA` (R255, R263, R269, R273, R278). The check of the A latch stands in this step, before those of jet order and
format (DESIGN CHOICE, log entry 144: R263 names no step). -/
def mmaOk (s : State) (x : Fields) : Bool :=
  let g := s.g
  let dual := g.jord == 1
  let na := if dual then 32 else 16
  let nb := if dual then 8 else 4
  idOk x && tileOk s x.d (if dual then 1 else 0) && isV x.a && regOk g x.a na && sOk g x.b nb &&
  (opZero x.c || (sOk g x.c 4 && apart x.b nb x.c 4)) && (g.fmt.extractLsb' 12 2 == 3 || (opZero x.c == decide (fmtFs g.fmt = 0))) && latchOk g x

/-- The A operand of an `MMA`: its rows, and the latch that the group holds once it is accepted (R263). -/
def mmaA (g : Group) (x : Fields) : Sparse Word × Option ALatch :=
  match g.latch with
  | some l => (l.rows, if x.ru then some l else none)
  | none =>
    let rows := aRows g (opIdx x.a) (if g.jord = 1 then 32 else 16)
    (rows, if x.ru then some ⟨BitVec.ofNat 8 (opIdx x.a), BitVec.ofNat 4 (fmtFa g.fmt), g.jord, rows⟩ else none)

/-- The command of an `MMA` (R274, R276). -/
def mmaKind (g : Group) (x : Fields) : CmdKind :=
  let exec := maskOf (execList g x)
  let a := mmaA g x
  .mma (tileIdx x.d) a.1 (octetsOf g exec) exec (sRegs g x.b 4) (if g.jord = 1 then sRegs g (opPlus x.b 4) 4 else [])
    (if opZero x.c then none else some (sRegs g x.c 4)) a.2

/-- `MMA` (R263, R273 to R278): its guards choose octets, and it is offered whether or not one takes part. A storage error traps in
a strand that executes alone: where `RU` = 1 latches the registers of the others too, their values are latched without it
(DESIGN CHOICE, log entry 128). -/
def execMma (x : Fields) (s : State) : Result :=
  need (hasEngine s) (wordTrap 0x01) s <|
  need (mmaOk s x) (wordTrap 0x02) s <|
  need (decide (s.g.jord.toNat ≤ 1)) (wordTrap 0x15) s <|
  need (!fmtBad s.g.fmt && !pairBad s.g.fmt) (wordTrap 0x11) s <|
    if s.g.latch.isNone && (execList s.g x).any (fun i => badReg s.g i (x.a, if s.g.jord = 1 then 32 else 16)) then
      trapped ⟨0x20, 4, none, 0⟩ s
    else offer (newCommand s.g x (mmaKind s.g x)) (routed s [fmtFa s.g.fmt, fmtFb s.g.fmt]) s

/-- The other matrix instructions issue when their q guards hold; `fmtOk` is step 7. -/
def issueMatrix (x : Fields) (ok fmtOk : Bool) (k : CmdKind) (emulated : Bool) (s : State) : Result :=
  need (hasEngine s) (wordTrap 0x01) s <|
  need (idOk x && ok) (wordTrap 0x02) s <|
  need fmtOk (wordTrap 0x11) s <|
    if holdsQ s.g x then offer (newCommand s.g x k) emulated s else finish s.g s

/-- `MMAZ` (R281). -/
def execMmaz (x : Fields) (s : State) : Result :=
  issueMatrix x (tileOk s x.d 0) true (.mmaz (tileIdx x.d)) false s

/-- `DRAIN` (R282). -/
def execDrain (x : Fields) (s : State) : Result :=
  issueMatrix x (tileOk s x.a 0 && sOk s.g x.d 2 && sOk s.g x.b 2 && regsOk s.g [(x.d, 2), (x.b, 2)])
    (!fmtBad s.g.fmt)
    (.drain (sPair s.g x.d) (tileIdx x.a) (sGet s.g (opIdx x.b)) (sGet s.g (opIdx x.b + 1)))
    (routed s [fmtFd s.g.fmt]) s

/-- `ACHK` (R285). -/
def execAchk (x : Fields) (s : State) : Result :=
  issueMatrix x (tileOk s x.a 0 && sOk s.g x.d 1) true (.achk (BitVec.ofNat 8 (opIdx x.d)) (tileIdx x.a)) false s

/-- `ALOAD` (R286). -/
def execAload (x : Fields) (s : State) : Result :=
  issueMatrix x (tileOk s x.d 0 && sOk s.g x.a 2 && sOk s.g x.b 2 && regsOk s.g [(x.a, 2), (x.b, 2)])
    (!fmtBad s.g.fmt && !pairBad s.g.fmt)
    (.aload (tileIdx x.d) (sPair s.g x.a) (sGet s.g (opIdx x.b)) (sGet s.g (opIdx x.b + 1)))
    (routed s [fmtFa s.g.fmt, fmtFb s.g.fmt]) s

/-! ### B sources (R264, R277) -/

/-- Fields of a B quad (R277). -/
def bBase (q : List Word) : DWord := pair64 (nth 0 q 0) (nth 0 q 1)
def bKoff (q : List Word) : Nat := bitsAt (nth 0 q 2).toNat 31 16
def bRows (q : List Word) : Nat := bitsAt (nth 0 q 2).toNat 15 0 + 1
def bSrc (q : List Word) : Nat := bitsAt (nth 0 q 3).toNat 31 30
def bTrl (q : List Word) : Bool := (nth 0 q 3).getLsbD 29
def bRbb (q : List Word) : Nat := bitsAt (nth 0 q 3).toNat 18 16
def bStride (fb : Nat) (q : List Word) : Nat :=
  if bitsAt (nth 0 q 3).toNat 15 0 = 0 then rowLen fb else 64 * bitsAt (nth 0 q 3).toNat 15 0

/-- Step 3 on a B quad (R277). A trailer with an emulated narrow format is refused too (DESIGN CHOICE, log entry 129: R277 names
the float formats). -/
def bDescOk (fa fb : Nat) (q : List Word) : Bool :=
  nth 0 q 3 &&& ~~~ (0xE007FFFF : Word) == 0 && decide (bKoff q % kOf fa = 0) &&
  (if bSrc q = 0 then
    decide (bKoff q + kOf fa ≤ bRows q) &&
    (!bTrl q || (trailed fb && decide (bRows q ≤ 256) && decide (bStride fb q = rowLen fb)))
  else bSrc q == 1 && !bTrl q && bitsAt (nth 0 q 3).toNat 15 0 == 0 && bitsAt (nth 0 q 2).toNat 15 0 == 0)

/-- Step 4 on a B quad: a local source lies in a window (R248, R277). -/
def bSpaceCheck (q : List Word) (s : State) : Check × State :=
  (if bSrc q ≠ 0 || isWindow (bBase q) then .ok else .trap 0x08 0x13 (some (bBase q)), s)

/-- Step 5 on a B quad: a handle of the shape and format (R248, R277), then `KOFF` within its rows. At `JORD` = 1 all of it comes for B
before any of it for B′ (DESIGN CHOICE, log entry 145). -/
def bHandleCheck (c : Command) (q : List Word) (s : State) : Check × State :=
  let fa := fmtFa c.fmt
  let fb := fmtFb c.fmt
  if bSrc q = 0 then (.ok, s)
  else
    andThen (handleCheck c.eid (bBase q) (fun d => d.rowBytes == rowLen fb && d.fcode == fb && d.rows % kOf fa == 0) s) fun s =>
      match readDesc s c.eid (hndId (bBase q)) with
      | none => (.ok, s)
      | some d => descCheck (decide (bKoff q + kOf fa ≤ d.rows)) s

/-- The addresses of a local B source that are read: the slice, or the whole tile with its trailer. -/
def bPages (fa fb : Nat) (q : List Word) : List (DWord × Nat) :=
  let at_ := fun (i n : Nat) => pagesOf (bBase q + BitVec.ofNat 64 (i * bStride fb q)) n
  if bTrl q then at_ 0 (bRows q * rowLen fb + 16)
  else (List.range (kOf fa)).flatMap (fun k => at_ (bKoff q + k) (rowLen fb))

/-- Step 6 on a B quad: its alignment, then its pages behind what earlier ones have found. -/
def bAlignCheck (q : List Word) (s : State) : Check × State :=
  (if bSrc q = 1 || (bBase q).toNat % 64 = 0 then .ok else .trap 0x0B 0 (some (bBase q)), s)

def bPageCheck (core : Nat) (c : Command) (r : Check × State) (q : List Word) : Check × State :=
  if bSrc q = 1 then r else pagesCheck core c .read false (bPages (fmtFa c.fmt) (fmtFb c.fmt) q) r.1 r.2

/-- Fields of a scale descriptor (R278). -/
def scSao (q : List Word) : Nat := (nth 0 q 0).toNat
def scSbo (q : List Word) : Nat := (nth 0 q 1).toNat
def scNsa (q : List Word) : Nat := bitsAt (nth 0 q 2).toNat 31 16
def scKtot (q : List Word) : Nat := bitsAt (nth 0 q 2).toNat 15 0
def scNsb (q : List Word) : Nat := bitsAt (nth 0 q 3).toNat 15 0

/-- Bytes of a scale. -/
def scWidth (f : DWord) : Nat := if fmtFs f = 2 then 2 else 1

/-- Step 3 on a scale descriptor, and the scale count (R21, R278). -/
def scaleCheck (c : Command) (sc : Option (List Word)) (s : State) : Check × State :=
  match sc with
  | none => (.ok, s)
  | some q =>
    let n := ceilDiv (scKtot q) (spanOf (fmtSpan c.fmt))
    andThen (descCheck (decide (scKtot q ≠ 0) && decide (bitsAt (nth 0 q 3).toNat 31 16 = 0) &&
      decide (scSao q % scWidth c.fmt = 0) && decide (scSbo q % scWidth c.fmt = 0)) s) fun s =>
    (if scNsa q = n ∧ scNsb q = n then .ok else .trap 0x12 1 none, s)

/-- Acceptance of an `MMA` (R248, R277, R278): each step on both quads. -/
def mmaCheck (core : Nat) (c : Command) (b bt : List Word) (sc : Option (List Word)) (s : State) : Check × State :=
  let fa := fmtFa c.fmt
  let fb := fmtFb c.fmt
  let qs := if bt = [] then [b] else [b, bt]
  let all := fun (f : List Word → State → Check × State) (s : State) =>
    qs.foldl (fun r q => andThen r (f q)) ((.ok : Check), s)
  andThen (descCheck (qs.all (bDescOk fa fb) && (bt == [] || bRbb b == bRbb bt)) s) fun s =>
  andThen (scaleCheck c sc s) fun s =>
  andThen (all bSpaceCheck s) fun s =>
  andThen (all (bHandleCheck c) s) fun s =>
  andThen (all bAlignCheck s) fun s =>
  qs.foldl (bPageCheck core c) ((.ok : Check), s)

/-! ### Acceptance (R248) -/

/-- Row bytes with the trailer of a drain (R282). -/
def drainTrl (f : DWord) : Nat := if trailed (fmtFd f) then 16 else 0

/-- The destination of a drain as a side. -/
def drainSide (dst : DWord) (e0 e1 : Word) : Side := if dKind e1 = 2 then .hnd dst else .mem dst e0.toNat

/-- `DSH` of a drain (R282). -/
def drainShift (e1 : Word) : Int := patternVal true 8 (bitsAt e1.toNat 15 8)

/-- Acceptance of a `DRAIN` (R248, R282). An absent destination handle is refused as that of a copy is (DEDUCED, log entry 146: R349
names copies and B fetches). -/
def drainCheck (core : Nat) (c : Command) (dst : DWord) (e0 e1 : Word) (s : State) : Check × State :=
  let fd := fmtFd c.fmt
  let ok := e1 &&& ~~~ (0xF87FFF00 : Word) == 0 && decide (dKind e1 ≤ 2) && decide (dCntr e1 ≤ 15) &&
    (if dKind e1 = 2 then e0 == 0 else decide (rowLen fd ≤ e0.toNat) && decide (e0.toNat % 4 = 0)) &&
    (fd != 7 || drainShift e1 == 0)
  let shape := (64, rowLen fd, drainTrl c.fmt)
  andThen (descCheck ok s) fun s =>
  andThen (if dKind e1 = 2 then .ok else if (if dKind e1 = 0 then isGlobal dst else isWindow dst) then .ok
    else .trap 0x08 0x13 (some dst), s) fun s =>
  if dKind e1 = 2 then
    handleCheck c.eid dst (fun d => d.rows == 64 && d.rowBytes == rowLen fd && d.fcode == fd) s
  else
    andThen (if dst.toNat % 64 = 0 then .ok else .trap 0x0B 0 (some dst), s) fun s =>
    pagesCheck core c .write true (sidePages dst e0.toNat shape) .ok s

/-- Source format of an `ALOAD`. -/
def aloadCode (e1 : Word) : Nat := bitsAt e1.toNat 27 24

/-- Acceptance of an `ALOAD` (R248, R286). -/
def aloadCheck (core : Nat) (c : Command) (src : DWord) (e0 e1 : Word) (s : State) : Check × State :=
  andThen (descCheck (e1 &&& ~~~ (0x0F000000 : Word) == 0 && decide (aloadCode e1 ≤ 2) && decide (e0.toNat % 4 = 0)) s) fun s =>
  andThen (if isGlobal src || isWindow src then .ok else .trap 0x08 0x13 (some src), s) fun s =>
  andThen (if src.toNat % 64 = 0 then .ok else .trap 0x0B 0 (some src), s) fun s =>
  pagesCheck core c .read true (sidePages src e0.toInt (64, rowLen (aloadCode e1), 0)) .ok s

/-- Steps 3 to 6 for every command (R248). -/
def acceptCheck (core : Nat) (c : Command) (s : State) : Check × State :=
  match c.kind with
  | .copy _ _ _ _ _ _ _ => copyCheck core c s
  | .xpose _ _ _ _ _ _ => copyCheck core c s
  | .publish h n => publishCheck c h n s
  | .resv h r0 _ => resvCheck c h r0 s
  | .mma _ _ _ _ b bt sc _ => mmaCheck core c b bt sc s
  | .drain dst _ e0 e1 => drainCheck core c dst e0 e1 s
  | .aload _ src e0 e1 => aloadCheck core c src e0 e1 s
  | .mmaz _ => (.ok, s)
  | .achk _ _ => (.ok, s)

/-- The group after the acceptance of its command: it goes on, but one whose command `Charon` emulates stays suspended at its
instruction until the command has been done (R25, R201). -/
def acceptedGroup (c : Command) (g : Group) : Group := if c.emulated then { g with status := .waitEmulation c } else passed c g

/-- Steps 2 to 6 of R248 for a group's command, then the command enters (R247). -/
def acceptNow (gid core : Nat) (c : Command) (s : State) : Result :=
  let s := writeBackAll core (wroteLine gid) s
  let r := releaseAll gid c.scope s
  match acceptCheck core c r.2 with
  | (.ok, s) => .next (modGroup gid (acceptedGroup { c with serial := s.fresh }) (enterCommand core { c with stamp := r.1 } s))
  | (.trap cause sub addr, s) =>
    match findGroup s gid with
    | none => .next s
    | some g => .next (trapGroup g ⟨cause, sub, addr, 0⟩ g.pc (modGroup gid (fun g => { g with status := .ready }) s))
  | (.wait st, s) => .next (modGroup gid (fun g => { g with status := st }) s)
  | (.hole, _) => .fault .noSuchPhysicalAddress

/-- A command may be accepted: its id is not live, an entry is free, and a release at `.sys` has no signal outstanding
(R247, R266, R310); a group that has a report to take takes it before its command is accepted (R250, R364). -/
def mayAccept (s : State) (g : Group) (c : Command) : Bool :=
  entryFree s (coreNo g) c.team c.id && g.reports == [] && !(c.scope == 4 && (peerPending s g.gid).isSome)

/-- The sequencer accepts a group's command, or refuses it with a trap (R248). -/
def execCommandAcceptance (gid : Nat) (s : State) : Result :=
  match findGroup s gid with
  | none => .refused .notEnabled
  | some g =>
    match g.status with
    | .accepting c => if mayAccept s g c then acceptNow gid (coreNo g) c s else .refused .notEnabled
    | _ => .refused .notEnabled

/-! ### Performance of an MMA (R259 to R269, R279, R437) -/

/-- The 64 bytes of A, or of A′, that strand `i` supplies: zeros when it does not execute (R276). -/
def aBytes (rows : Sparse Word) (exec : DWord) (i off : Nat) : List Byte :=
  if exec.getLsbD i then bytesOfWords ((List.range 16).map (fun k => Sparse.get 0 (32 * i + off + k) rows))
  else List.replicate 64 0

/-- Bytes of the tiles that a B buffer holds (R265). -/
def bufferSize : Nat := 65536

/-- The tiles that fit into a B buffer, the first ones first. -/
def fitBuffer : Nat → List BufTile → List BufTile
  | _, [] => []
  | room, e :: t => if e.bytes.length ≤ room + 16 then e :: fitBuffer (room + 16 - e.bytes.length) t else []

/-- Cause, subcode and address of a read of the engine that a place has stopped: a page of a peer is none for it (R277, R423). -/
def placeFailure (a : DWord) (p : Place) : Nat × Nat × DWord :=
  match p with
  | .bad cause sub => (cause, sub, a)
  | .peer _ => (0x08, 0x13, a)
  | _ => (0x08, 1, a)

/-- A checked tile of a handle: from the B buffer of the engine, or read, checked and kept there (R265). The tiles fetched
longest ago leave a full buffer (DESIGN CHOICE, log entry 108). -/
def handleTile (core : Nat) (c : Command) (h tile : Nat) (d : Desc) (s : State) : (List Byte ⊕ (Nat × Nat × DWord)) × State :=
  let fb := fmtFb c.fmt
  let second := (handleOf s c.eid h).second
  let same := fun (e : BufTile) => e.handle == handleKey c.eid h && e.ver == (if second then 1 else 0) && e.tile == tile
  match (coreAt s core).bbuf.find? same with
  | some e => (.inl e.bytes, s)
  | none =>
    match readVersion (backMover core c) c.eid h second (tile * tileLen d) (tileLen d) s with
    | (.stop a p, s) => (.inr (placeFailure a p), s)
    | (.bytes b, s) =>
      if !trailed fb then (.inl b, s)
      else if !trailerOk b fb d.rows 128 then (.inr (0x13, 0, handleRef h tile), s)
      else
        let e : BufTile := ⟨handleKey c.eid h, if second then 1 else 0, tile, b⟩
        (.inl b, modCore core (fun k => { k with bbuf := fitBuffer bufferSize (e :: k.bbuf) }) s)

/-- Reads local or handle bytes of a B slice, checked where they carry a trailer (R264, R265): the rows of the slice, or
the address and the failure. -/
def fetchB (core : Nat) (c : Command) (q : List Word) (s : State) : (List (List Byte) ⊕ (Nat × Nat × DWord)) × State :=
  let fa := fmtFa c.fmt
  let fb := fmtFb c.fmt
  let n := rowLen fb
  let cut := fun (b : List Byte) => (List.range (kOf fa)).map (fun k => (b.drop ((bKoff q + k) * n)).take n)
  if bSrc q = 0 then
    if bTrl q then
      match readPages (cmdMover core c) (pagesOf (bBase q) (bRows q * n + 16)) s with
      | (.stop a p, s) => (.inr (placeFailure a p), s)
      | (.bytes b, s) => (if trailerOk b fb (bRows q) 128 then .inl (cut b) else .inr (0x13, 0, bBase q), s)
    else
      match readPages (cmdMover core c) (bPages fa fb q) s with
      | (.stop a p, s) => (.inr (placeFailure a p), s)
      | (.bytes b, s) => (.inl ((List.range (kOf fa)).map (fun k => (b.drop (k * n)).take n)), s)
  else
    let h := hndId (bBase q)
    match readDesc s c.eid h with
    | none => (.inr (0x08, 0x10, bBase q), s)
    | some d =>
      match handleTile core c h (hndTile (bBase q)) d s with
      | (.inl b, s) => (.inl (cut b), s)
      | (.inr e, s) => (.inr e, s)

/-- Products of octet j for tile t: A with B; for tile t + 1: A′ with B, then A with B′ (R95, R269). The row scales of code 11
are those of the use of tile t: one for each row of A in a span, one for each row of B (R23). -/
def octetOps (c : Command) (t : Tile) (blk : Nat) (rows : Sparse Word) (exec : DWord) (b bt : List (List Byte)) (j : Nat)
    (second : Bool) : List Operands :=
  let fa := fmtFa c.fmt
  let fb := fmtFb c.fmt
  let pos := kposOf t blk
  let a := fun (off : Nat) => (List.range 8).map (fun m => aBytes rows exec (8 * j + m) off)
  let numbered := fun (l : List (List Byte)) => (List.range l.length).zip l
  let one := fun (offA offB : Nat) (b : List (List Byte)) =>
    { narrowA := (a offA).map (narrowElems fa), narrowB := b.map (narrowElems fb)
      floatA := (numbered (a offA)).map (fun e =>
        floatElems fa c.fmt (Config.rowScale t.filled (pos / spanOf t.lspan.toNat) (8 * blk + e.1 + 8 * offA)).toNat e.2)
      floatB := (numbered b).map (fun e => floatElems fb c.fmt (Config.rowScale t.filled (pos + e.1) (64 + offB)).toNat e.2) : Operands }
  if second then [one 16 0 b, one 0 16 bt] else [one 0 0 b]

/-- The scales of a block for a span: those of its eight rows of A, then those of the columns of B (R278). -/
def readScales (core : Nat) (c : Command) (sc : List Word) (blk span : Nat) (s : State) : (List Word ⊕ (Nat × Nat × DWord)) × State :=
  let w := scWidth c.fmt
  let win := fun (o : Nat) => BitVec.ofNat 64 (0xFF * 2 ^ 56 + o)
  let addrs := (List.range 8).map (fun i => (win (scSao sc + ((8 * blk + i) * scNsa sc + span) * w), w)) ++
    (List.range 128).map (fun k => (win (scSbo sc + (k * scNsb sc + span) * w), w))
  let flush := fun (x : Nat) => if w = 2 && fmtFzi c.fmt 3 && isSub bf16 x then zeroBits bf16 (signField bf16 x) else x
  match readPages (cmdMover core c) addrs s with
  | (.stop a p, s) => (.inr (placeFailure a p), s)
  | (.bytes b, s) => (.inl ((List.range 136).map (fun k => BitVec.ofNat 32 (flush (leNat ((b.drop (k * w)).take w))))), s)

/-- Puts scales into the latch of a block (R279). -/
def latchScales (blk : Nat) (v : List Word) (t : Tile) : Tile :=
  { t with sclA := Sparse.splice 0 (8 * blk) (v.take 8) t.sclA, sclB := Sparse.splice 0 (128 * blk) (v.drop 8) t.sclB }

/-- A stretch of the K indices of an octet operation, with the scales of the span that it opens. -/
structure Stretch where
  from_ : Nat
  len : Nat
  scales : Option (List Word)

/-- Reads the scales of the spans that the segments of an octet operation open, one after the other from span `span` on. -/
def stretches (core : Nat) (c : Command) (sc : Option (List Word)) (blk : Nat) :
    List (Nat × Nat) → Nat → Nat → State → (List Stretch ⊕ (Nat × Nat × DWord)) × State
  | [], _, _, s => (.inl [], s)
  | (at_, m) :: rest, pos, span, s =>
    let first : (Option (List Word) ⊕ (Nat × Nat × DWord)) × State := match sc with
      | some q => if pos = 0 then (match readScales core c q blk span s with
          | (.inl v, s) => (.inl (some v), s)
          | (.inr e, s) => (.inr e, s)) else (.inl none, s)
      | none => (.inl none, s)
    match first with
    | (.inr e, s) => (.inr e, s)
    | (.inl v, s) =>
      match stretches core c sc blk rest 0 (span + 1) s with
      | (.inl l, s) => (.inl (⟨at_, m, v⟩ :: l), s)
      | r => r

/-- The stretches of an octet operation on a tile, with every scale that it will need (R279). -/
def tileStretches (core : Nat) (c : Command) (sc : Option (List Word)) (blk : Nat) (t : Tile) (s : State) :
    (List Stretch ⊕ (Nat × Nat × DWord)) × State :=
  if isNarrow (fmtFa c.fmt) then
    stretches core c sc blk (segments (kOf (fmtFa c.fmt) + 1) (kposOf t blk) (spanOf (fmtSpan c.fmt)) 0 (kOf (fmtFa c.fmt)))
      (kposOf t blk) (sidxOf t blk) s
  else (.inl [], s)

/-- The narrow stretches of an octet operation (R260): the tile, the subcode of a failed check, and whether a carry word was
uncorrectable. -/
def narrowSegs (f : DWord) (blk : Nat) (ops : List Operands) : List Stretch → Tile → Bool → Tile × Option Nat × Bool
  | [], t, bad => (t, none, bad)
  | x :: rest, t, bad =>
    let t := match x.scales with
      | some v => latchScales blk v t
      | none => t
    match narrowStep f blk ops t x.from_ x.len with
    | (t, some sub, _) => (t, some sub, bad)
    | (t, none, b) => narrowSegs f blk ops rest t (bad || b)

/-- One octet operation, with every product that its tile takes (R260, R269, R437): the tile, and how it ends. -/
def octetOp (c : Command) (blk name : Nat) (ops : List Operands) (l : List Stretch) (t : Tile) : Tile × OctetEnd :=
  if isBad t then (t, .failed 0x14 3 name)
  else if t.kind ≠ 0 ∧ !latchAgrees c.fmt t then (t, .failed 0x11 1 name)
  else
    let t := latchTile c.serial c.fmt t
    let nulls := (ops.map (fun o => nullsIn o.narrowA + nullsIn o.narrowB)).sum
    let r := if t.kind = 1 then narrowSegs c.fmt blk ops l (addNulls nulls t) false else floatStep c.fmt blk (kOf (fmtFa c.fmt)) ops t
    (r.1, match r.2.1 with
      | some sub => .failed 0x14 sub name
      | none => if r.2.2 then .failed 0x20 5 name else .done)

/-- Reads what the octet operations of octet j need on every tile of a command, before any of them takes place (R279). -/
def octetReads (core : Nat) (c : Command) (sc : Option (List Word)) (blk : Nat) : List (Nat × List Operands) → State →
    (List (Nat × List Operands × List Stretch) ⊕ (Nat × Nat × DWord)) × State
  | [], s => (.inl [], s)
  | (name, ops) :: t, s =>
    match tileStretches core c sc blk (tileAt s core (cmdTile s core c name)) s with
    | (.inr e, s) => (.inr e, s)
    | (.inl l, s) => match octetReads core c sc blk t s with
      | (.inl w, s) => (.inl ((name, ops, l) :: w), s)
      | r => r

/-- The scales of a block's next span enter the latch of every tile of a command before its octet operations (R279). -/
def latchAll (core : Nat) (c : Command) (blk : Nat) (w : List (Nat × List Operands × List Stretch)) (s : State) : State :=
  w.foldl (fun s e => match e.2.2.head?.bind (·.scales) with
    | some v => let p := cmdTile s core c e.1; putTile core p (latchScales blk v (tileAt s core p)) s
    | none => s) s

/-- The octet operations of octet j on every tile of a command, until one fails; at `JORD` = 1 a tile takes all its products, and one
that fails keeps the next tile from taking any (DESIGN CHOICE, log entry 125: R437 says of the octet operation alone that it
ends). -/
def octetAll (core : Nat) (c : Command) (blk : Nat) : List (Nat × List Operands × List Stretch) → State → OctetEnd × State
  | [], s => (.done, s)
  | (name, ops, l) :: t, s =>
    let p := cmdTile s core c name
    match octetOp c blk name ops l (tileAt s core p) with
    | (tile, .done) => octetAll core c blk t (putTile core p tile s)
    | (tile, e) => (e, putTile core p tile s)

/-- The command fails with what an octet operation found. -/
def octetFail (core : Nat) (c : Command) (e : OctetEnd) (s : State) : State :=
  match e with
  | .failed cause sub name => failCommand core c cause sub (tileRef core name) s
  | .done => s

/-- Checks of an `MMA` before its first change (R268, R279): the failure, with the tile it names. At `JORD` = 1 both tiles pass the
check of K (DESIGN CHOICE, log entry 130: R279 names no tile there). -/
def mmaBefore (s : State) (core : Nat) (c : Command) (octets : List Nat) (b : List Word) (sc : Option (List Word)) : Option (Nat × Nat × Nat) :=
  let tile := fun (n : Nat) => tileAt s core (cmdTile s core c n)
  let k := kOf (fmtFa c.fmt)
  let span := spanOf (fmtSpan c.fmt)
  let tooBig := fun (q : List Word) (n : Nat) => (List.range 8).any (fun x =>
    let m := (octets.filter (fun j => (j + bRbb b) % 8 == x)).length
    decide (0 < m) && decide (ceilDiv (scKtot q) k * k < sidxOf (tile n) x * span + kposOf (tile n) x + m * k))
  match (tilesOf c).find? (fun n => isBad (tile n)) with
  | some n => some (0x14, 3, n)
  | none => match (tilesOf c).find? (fun n => (tile n).kind != 0 && !latchAgrees c.fmt (tile n)) with
    | some n => some (0x11, 1, n)
    | none => match sc with
      | none => none
      | some q => ((tilesOf c).find? (tooBig q)).map (fun n => (0x12, 2, n))

/-- An `MMA` begins (R279): its checks, and the fetch of B and B′. -/
def beginMma (core : Nat) (c : Command) (octets : List Nat) (b bt : List Word) (sc : Option (List Word)) (s : State) : Result :=
  match mmaBefore s core c octets b sc with
  | some (cause, sub, n) => .next (failCommand core c cause sub (tileRef core n) s)
  | none =>
    match fetchB core c b s with
    | (.inr (cause, sub, a), s) => .next (failCommand core c cause sub a s)
    | (.inl rows, s) =>
      if bt = [] then .next (putCmd core { c with phase := .running, data := rows } s)
      else match fetchB core c bt s with
        | (.inr (cause, sub, a), s) => .next (failCommand core c cause sub a s)
        | (.inl rows', s) => .next (putCmd core { c with phase := .running, data := rows ++ rows' } s)

/-- The next octet operation of an `MMA`; after the last the command retires. -/
def nextOctet (core : Nat) (c : Command) (tile : Nat) (rows : Sparse Word) (octets : List Nat) (exec : DWord) (b : List Word)
    (sc : Option (List Word)) (s : State) : State :=
  let k := kOf (fmtFa c.fmt)
  match octets[c.moved]? with
  | none => retire core c false s
  | some j =>
    let bs := c.data.take k
    let bt := c.data.drop k
    let blk := (j + bRbb b) % 8
    let first := latchTile c.serial c.fmt (tileAt s core (cmdTile s core c tile))
    let work := (tile, octetOps c first blk rows exec bs bt j false) ::
      (if c.jord = 1 then [(tile + 1, octetOps c first blk rows exec bs bt j true)] else [])
    match octetReads core c sc blk work s with
    | (.inr (cause, sub, a), s) => failCommand core c cause sub a s
    | (.inl w, s) => match octetAll core c blk w (latchAll core c blk w s) with
      | (.done, s) =>
        let c := { c with moved := c.moved + 1 }
        if octets.length ≤ c.moved then retire core c false s else putCmd core c s
      | (e, s) => octetFail core c e s

/-- A matrix command may go on, or begin: no other command comes before it on its tiles. -/
def tileFree (s : State) (core : Nat) (c : Command) : Bool := mayRun s c && !tileWaits s core c && !moving s c

/-- The engine takes a command, not `Charon`: a matrix command whose format is not emulated. -/
def forEngine (c : Command) : Bool := !c.emulated && tilesOf c != []

/-- It is a command's turn on the engine: it has begun, or no command accepted before it could begin (R266). -/
def tileReady (s : State) (core : Nat) (c : Command) : Bool :=
  tileFree s core c && (c.phase != .waiting || c.emulated ||
    !(coreAt s core).seq.any (fun d => forEngine d && d.phase == .waiting && decide (d.serial < c.serial) && tileFree s core d))

/-- A command waits in its entry for `Charon`, which alone begins it (R25, R287). -/
def forCharon (s : State) (r : CmdRef) : Bool := (findCmd s r).any (fun c => c.emulated && c.phase == .waiting)

/-- An `MMA` goes on: it is checked, then its octet operations are performed one at a time (R279). -/
def mmaMove (r : CmdRef) (s : State) : Result :=
  match findCmd s r with
  | none => .refused .notEnabled
  | some c =>
    match c.kind with
    | .mma tile rows octets exec b bt sc _ =>
      if cancelledNow c then .next (retire r.core c true s)
      else if !tileReady s r.core c then .refused .notEnabled
      else if octets = [] then .next (retire r.core c false s)
      else if c.phase = .waiting then beginMma r.core c octets b bt sc s
      else .next (nextOctet r.core c tile rows octets exec b sc s)
    | _ => .refused .notEnabled

/-- The engine performs an `MMA` (R279). -/
def execMmaPerformance (r : CmdRef) (s : State) : Result := if forCharon s r then .refused .notEnabled else mmaMove r s

/-- The engine zeroes a tile (R281). -/
def execMmazPerformance (r : CmdRef) (s : State) : Result :=
  match findCmd s r with
  | none => .refused .notEnabled
  | some c =>
    match c.kind with
    | .mmaz tile =>
      if cancelledNow c then .next (retire r.core c true s)
      else if tileReady s r.core c then .next (retire r.core c false (putTile r.core (cmdTile s r.core c tile) Tile.empty s))
      else .refused .notEnabled
    | _ => .refused .notEnabled

/-! ### DRAIN (R282 to R284, R437) -/

/-- Range of a narrow drain format and its element width (R30, R287). -/
def drainRange (fd : Nat) : Int × Int × Nat :=
  match fd with
  | 3 => (-127, 127, 8)
  | 4 => (-7, 7, 4)
  | 5 => (0, 255, 8)
  | 6 => (-2147483648, 2147483647, 32)
  | 8 => (-1, 1, 2)
  | 9 => (-31, 31, 6)
  | 10 => (-1, 1, 2)
  | 12 => (0, 15, 4)
  | 13 => (-32767, 32767, 16)
  | _ => (0, 65535, 16)

/-- `ConvertToInteger` of a drain (R30): the integer and its flags. -/
def drainInt (fd m : Nat) (x : Ex) : Int × Flags :=
  let (lo, hi, _) := drainRange fd
  match x with
  | .nan => (0, flagInvalid)
  | .inf s => (if s then lo else hi, flagInvalid)
  | .num s n d e =>
    let (v, ix) := roundToInt m s n d e
    if v < lo then (lo, flagInvalid) else if hi < v then (hi, flagInvalid) else (v, if ix then flagInexact else 0)

/-- The value that a drain converts: the carry word times 2^`DSH` (R283). -/
def drainValue (e1 carry : Word) : Ex :=
  match unpack fp32 carry.toNat with
  | .num s n d e => .num s n d (e + drainShift e1)
  | x => x

/-- One element of a drain: its pattern and flags. For code 11 the value is divided by the free E8 scale of its row before it is
rounded (DESIGN CHOICE, log entry 38: the spec does not say how a drain forms the scale). -/
def drainElem (f : DWord) (scale : Nat) (e1 carry : Word) : Nat × Flags :=
  let x := drainValue e1 carry
  let m := fmtRm f
  match fmtFd f with
  | 0 => roundFV fp32 m (fmtSat f) (fmtFzo f 0) (x, 0)
  | 1 => roundFV fp16 m (fmtSat f) (fmtFzo f 1) (x, 0)
  | 2 => roundFV bf16 m (fmtSat f) (fmtFzo f 2) (x, 0)
  | 11 => roundFV bf16 m (fmtSat f) (fmtFzo f 2) (divV (x, 0) (e8Value scale))
  | fd =>
    let v := drainInt fd m x
    (patternOf (drainRange fd).2.2 v.1, v.2)

/-- The base-3 byte of up to five trits, given as patterns of two bits (R23); a row of 128 trits is 26 bytes, padded with zero
trits (DESIGN CHOICE, log entry 105). -/
def tritByte : List Nat → Nat
  | [] => 0
  | x :: t => (if x = 3 then 2 else x) + 3 * tritByte t

/-- Bytes of a row of 128 patterns. -/
def packRow (fd : Nat) (l : List Nat) : List Byte :=
  match fd with
  | 9 => l.flatMap (fun x => leBytes 1 x)
  | 10 => (List.range 26).map (fun k => BitVec.ofNat 8 (tritByte ((l.drop (5 * k)).take 5)))
  | fd => leBytes (rowLen fd) (joinElems (fmtBits fd) l)

/-- The larger magnitude of exact values, NaNs apart (R37). -/
def maxMag (a b : Ex) : Ex :=
  let mag := fun (x : Ex) => match x with
    | .nan => Ex.num false 0 1 0
    | .inf _ => .inf false
    | .num _ n d e => .num false n d e
  if 0 < cmpEx (mag b) (mag a) then mag b else mag a

/-- What a drain takes out of a tile: the bytes of its rows, the tile after its conversions, and how it ended: all
rows, or a failure with the rows before it. -/
structure Drained where
  rows : List (List Byte)
  tile : Tile
  fail : Option (Nat × Nat)

/-- The checks and partial conversions of a drain, block by block (R283): whether one failed, and the lowest row of an
uncorrectable carry word found in a conversion. Later blocks are still checked and converted, and a check that fails there goes
before the carry word (DESIGN CHOICE, log entry 126). -/
def drainBlocks (f : DWord) : List Nat → Tile → Option Nat → Tile × Option Nat × Option Nat
  | [], t, row => (t, none, row)
  | blk :: rest, t, row =>
    if t.kind = 1 ∧ 0 < kposOf t blk ∧ fmtFd f ≠ 7 then
      let low := ((t.badCarry.filter (fun k => k / 1024 == blk)).map (· / 128)).foldl min 64
      match convertBlock (fmtSat f) blk t with
      | (t, some sub, _) => (t, some sub, row)
      | (t, none, bad) => drainBlocks f rest t (if bad && row.isNone then some low else row)
    else match checkBlock t blk with
      | some sub => (setBad t, some sub, row)
      | none => drainBlocks f rest t row

/-- The rows of a drain from a checked tile (R37, R283): `n` rows, with the trailer behind row 63. -/
def drainRows (c : Command) (e1 : Word) (n : Nat) (t : Tile) : List (List Byte) × Flags :=
  if fmtFd c.fmt = 7 then ((List.range n).map (imageRow t), 0)
  else
    let fd := fmtFd c.fmt
    let words := fun (i : Nat) => Sparse.slice 0 (128 * i) 128 t.carry
    let out := (List.range n).map (fun i => (words i).map (drainElem c.fmt (Config.rowScale c.serial 0 (128 + i)).toNat e1))
    let rows := out.map (fun r => packRow fd (r.map (·.1)))
    let flags := (out.flatten.map (·.2)).foldl (· ||| ·) 0
    if trailed fd && n == 64 then
      let big := (((List.range n).flatMap words).map (drainValue e1)).foldl maxMag (.num false 0 1 0)
      let satn := (out.flatten.filter (fun e => e.2 &&& flagInvalid != 0)).length
      let tr := makeTrailer rows.flatten (roundFV fp32 0 false false (big, 0)).1 satn fd 64 128
      (rows.take 63 ++ [nth [] rows 63 ++ tr], flags)
    else (rows, flags)

/-- A drain takes its rows (R283, R437). -/
def takeDrain (c : Command) (e1 : Word) (t : Tile) : Drained :=
  if isBad t then ⟨[], t, some (0x14, 3)⟩
  else match drainBlocks c.fmt (List.range 8) t none with
    | (t, some sub, _) => ⟨[], t, some (0x14, sub)⟩
    | (t, none, row) =>
      let left := (t.badCarry.map (· / 128)).foldl min 64
      let n := min (row.getD 64) left
      let (t, _) := rewriteBad (128 * n) 128 t
      let r := drainRows c e1 n t
      ⟨r.1, addFlags r.2 t, if n = 64 then none else some (0x20, 5)⟩

/-- Where row `i` of a drain goes in its handle's version. -/
def drainOff (s : State) (c : Command) (p : DWord) (i : Nat) : Nat := tileStart s c.eid p + i * rowLen (fmtFd c.fmt)

/-- Writes row `i` of a drain, when `c.sent` bytes of it have gone. -/
def drainWrite (core : Nat) (c : Command) (dst : DWord) (e0 e1 : Word) (i : Nat) (b : List Byte) (s : State) : Moved × State :=
  match drainSide dst e0 e1 with
  | .mem a d => sendRow (cmdMover core c) (rowAt a d i) c.sent b s
  | .hnd p => match writeVersion (backMover core c) c.eid (hndId p) c.shadow (drainOff s c p i) b s with
    | (none, s) => (.done [], s)
    | (some (va, q), s) => (.stop va q, s)
  | .multi _ _ _ => (.done [], s)

/-- Largest write time of the lines of a row of a drain (R211). -/
def drainStamp (s : State) (core : Nat) (c : Command) (dst : DWord) (e0 e1 : Word) (i n : Nat) : Nat :=
  match drainSide dst e0 e1 with
  | .mem a d => ((pagesOf (rowAt a d i) n).map (fun p => memStamp s core c p.2 p.1)).foldl max 0
  | .hnd p => versionStamp s c.eid (hndId p) c.shadow (drainOff s c p i) n
  | .multi _ _ _ => 0

/-- A tile cleared by a drain without `KEEP`: all but `MSTAT` (R283). -/
def drainClear (t : Tile) : Tile := { Tile.empty with mstat := t.mstat }

/-- A drain clears its tile, where its team holds it now: on a core, or saved (R283, R383). -/
def clearDrained (core : Nat) (c : Command) (tile : Nat) (s : State) : State :=
  match findTeam s c.team with
  | some t =>
    let q := nth core t.cores (posOf t core)
    let p := cmdTile s q c tile
    putTile q p (drainClear (tileAt s q p)) s
  | none =>
    let clear := fun (t : SavedTeam) =>
      let k := posOf t.team core
      let ts := nth [] t.tiles k
      { t with tiles := t.tiles.set k (ts.set tile (drainClear (nth Tile.empty ts tile))) }
    changeSaved c.team clear s

/-- A drain whose rows have been written ends (R283): one that fails at its increment leaves the tile as it was. -/
def endDrain (core : Nat) (c : Command) (tile : Nat) (e1 : Word) (s : State) : State :=
  if c.data.length < 64 then failCommand core c 0x20 5 (tileRef core tile) s
  else
    let ap := dAp e1 && dKind e1 == 2
    let fails := (saturating core c (dCntr e1) (endTargets s core c ap (dCnte e1)) s).isSome
    endCommand core c ap (dCnte e1) (dCntr e1) (if e1.getLsbD 27 || fails then s else clearDrained core c tile s)

/-- The next row of a drain, or its end. -/
def drainNext (r : CmdRef) (c : Command) (dst : DWord) (tile : Nat) (e0 e1 : Word) (s : State) : Result :=
  match c.data[c.moved]? with
  | none =>
    if dAp e1 && (writesHandle c).any (fun h => shadowPending s c h) then .refused .notEnabled
    else .next (endDrain r.core c tile e1 s)
  | some b =>
    match drainWrite r.core c dst e0 e1 c.moved b s with
    | (.done _, s) =>
      let t := drainStamp s r.core c dst e0 e1 c.moved b.length
      .next (putCmd r.core { c with moved := c.moved + 1, sent := 0, stamp := max c.stamp t } s)
    | (.peer rest va leaf n, s) =>
      peerPiece r { c with sent := b.length - rest.length + if c.emulated then n else 0 } va leaf n (some (rest.take n)) s
    | (.stop a p, s) => failAt r.core c a p s

/-- A drain waits for a peer: before its next piece goes there, or, where `Charon` performs it and every row leaves at once, before
it ends (R201, R423). -/
def drainAwaits (s : State) (r : CmdRef) (c : Command) : Bool :=
  awaitsPeer s r && (!c.emulated || decide (c.data.length ≤ c.moved))

/-- A drain goes on: the tile is checked and converted, then written row by row (R283). -/
def drainMove (r : CmdRef) (s : State) : Result :=
  match findCmd s r with
  | none => .refused .notEnabled
  | some c =>
    match c.kind with
    | .drain dst tile e0 e1 =>
      if cancelledNow c then .next (retire r.core c true s)
      else if !tileReady s r.core c || drainAwaits s r c then .refused .notEnabled
      else if c.phase = .waiting then
        let p := cmdTile s r.core c tile
        let d := takeDrain c e1 (tileAt s r.core p)
        let s := putTile r.core p d.tile s
        match d.fail with
        | some (0x14, sub) => .next (failCommand r.core c 0x14 sub (tileRef r.core tile) s)
        | _ => .next (putCmd r.core { c with phase := .running, data := d.rows } s)
      else drainNext r c dst tile e0 e1 s
    | _ => .refused .notEnabled

/-- The engine performs a drain (R283). -/
def execDrainPerformance (r : CmdRef) (s : State) : Result := if forCharon s r then .refused .notEnabled else drainMove r s

/-! ### ACHK and ALOAD (R285, R286) -/

/-- The first failing block of a tile. -/
def checkTile (t : Tile) : Option Nat := ((List.range 8).filterMap (checkBlock t)).head?

/-- The engine checks every block of a tile and writes its status (R285, R437). A failed check ends the command before a carry word is
looked at (DESIGN CHOICE, log entry 143). -/
def execAchkPerformance (r : CmdRef) (s : State) : Result :=
  match findCmd s r with
  | none => .refused .notEnabled
  | some c =>
    match c.kind with
    | .achk d tile =>
      let p := cmdTile s r.core c tile
      let t := tileAt s r.core p
      let fail := fun (cause sub : Nat) (s : State) => failCommand r.core c cause sub (tileRef r.core tile) s
      let write := fun (t : Tile) (s : State) => modGroup c.group (fun g => sSet g d.toNat t.mstat) (putTile r.core p t s)
      if cancelledNow c then .next (retire r.core c true s)
      else if !tileReady s r.core c then .refused .notEnabled
      else if isBad t then .next (fail 0x14 3 s)
      else match checkTile t with
        | some sub => .next (fail 0x14 sub (write (setBad t) s))
        | none =>
          let (t, bad) := rewriteBad 0 8192 t
          .next (if bad then fail 0x20 5 (write t s) else retire r.core c false (write t s))
    | _ => .refused .notEnabled

/-- The carry word of a source element, and its flags (R286). -/
def aloadElem (f : DWord) (code x : Nat) : Nat × Flags :=
  match code with
  | 0 => roundFV fp32 0 false false (source fp32 (fmtFzi f 0) x)
  | 1 => roundFV fp32 0 false false (source fp16 (fmtFzi f 1) x)
  | _ => roundFV fp32 0 false false (source bf16 (fmtFzi f 2) x)

/-- Source elements of a row. -/
def aloadElems (code : Nat) (b : List Byte) : List Nat := if code = 0 then (wordsOf b).map (·.toNat) else halves b

/-- The tile that 64 source rows rebuild for the command of acceptance number `n` (R286). -/
def aloadTile (n : Nat) (f : DWord) (code : Nat) (rows : List (List Byte)) : Tile :=
  let out := rows.flatMap (fun b => (aloadElems code b).map (aloadElem f code))
  let flags := (out.map (·.2)).foldl (· ||| ·) 0 &&& flagInvalid
  addFlags flags { latchTile n f Tile.empty with carry := Sparse.splice 0 0 (out.map (fun e => BitVec.ofNat 32 e.1)) [] }

/-- An `ALOAD` goes on: its rows are read one by one, then the tile is rebuilt (R286). -/
def aloadMove (r : CmdRef) (s : State) : Result :=
  match findCmd s r with
  | none => .refused .notEnabled
  | some c =>
    match c.kind with
    | .aload tile src e0 e1 =>
      let n := rowLen (aloadCode e1)
      if cancelledNow c then .next (retire r.core c true s)
      else if !tileReady s r.core c || awaitsPeer s r then .refused .notEnabled
      else if 64 ≤ c.data.length then
        .next (retire r.core c false (putTile r.core (cmdTile s r.core c tile) (aloadTile c.serial c.fmt (aloadCode e1) c.data) s))
      else
        let c := { c with phase := .running }
        match fetchRow (cmdMover r.core c) (rowAt src e0.toInt c.data.length) n c.part s with
        | (m, s) => withRow r c m (fun b s => .next (putCmd r.core { c with data := c.data ++ [b], part := [] } s)) s
    | _ => .refused .notEnabled

/-- The engine performs an `ALOAD` (R286). -/
def execAloadPerformance (r : CmdRef) (s : State) : Result := if forCharon s r then .refused .notEnabled else aloadMove r s

/-! ### Emulated formats (R25, R287) -/

/-- The next move of a matrix command by its kind. -/
def perform (r : CmdRef) (c : Command) (s : State) : Result :=
  match c.kind with
  | .mma _ _ _ _ _ _ _ _ => mmaMove r s
  | .drain _ _ _ _ => drainMove r s
  | .aload _ _ _ _ => aloadMove r s
  | _ => .refused .notEnabled

/-- Performs a command until it has retired, waits for another unit, or `n` moves have passed. -/
def performAll (r : CmdRef) : Nat → State → State
  | 0, s => s
  | n + 1, s =>
    match findCmd s r with
    | none => s
    | some c =>
      match perform r c s with
      | .next s => performAll r n s
      | _ => s

/-- No other command of a command's group is live: emulated instructions do not pass others of their group (R25). -/
def groupIdle (s : State) (core : Nat) (c : Command) : Bool :=
  !(ownSeq s core c.team).any (fun d => d.group == c.group && d.serial != c.serial)

/-- The version swap at the end of a drain waits for no other write of its handle (R253). -/
def swapFree (s : State) (c : Command) : Bool :=
  match c.kind with
  | .drain _ _ _ e1 => !(dAp e1 && dKind e1 == 2 && (writesHandle c).any (fun h => shadowPending s c h))
  | _ => true

/-- Nothing but a peer keeps `Charon` from performing an accepted command whole: no predecessor of it is live, no other command
comes first on its tiles or in its handle, and none of its group is under way (R25, R247, R253, R262, R353); or a predecessor
has failed, and it retires with no effect. -/
def charonTurn (s : State) (core : Nat) (c : Command) : Bool :=
  c.phase == .waiting && (cancelledNow c || (tileFree s core c && swapFree s c && groupIdle s core c))

/-- The moves of `Charon` on the longest command: a drain whose every row lies in two pages. -/
def charonMoves : Nat := 200

/-- `Charon` performs a command whose turn it is: its checks and its work on the tile are one move, after which the group goes on,
unless rows come from a peer, or rows that have gone to one are to be acknowledged (R25, R201). -/
def emulate (r : CmdRef) (s : State) : State :=
  match findCmd s r with
  | none => s
  | some c => if charonTurn s r.core c then performAll r charonMoves s else s

/-- `Charon` performs an instruction (R25, R201, R287; DEDUCED, log entry 131): its command is accepted like every other (R247, R248),
and performed at once or when its turn has come. -/
def execEmulationDone (gid : Nat) (s : State) : Result :=
  match liveGroup s gid with
  | none => .refused .notEnabled
  | some g =>
    match g.status with
    | .waitEmulation c =>
      let core := coreNo g
      let r : CmdRef := ⟨core, c.team, c.id⟩
      if c.serial = 0 then
        if mayAccept s g c then
          match acceptNow gid core c s with
          | .next s => .next (emulate r s)
          | o => o
        else .refused .notEnabled
      else if (findCmd s r).any (charonTurn s core) then .next (emulate r s)
      else .refused .notEnabled
    | _ => .refused .notEnabled

end Sys2Proof.Machine
end

