-- ==== Sys2Proof/Machine/Launch.lean ====
section
/-! DEFINITION. Launch records, queues, placement, reservations, pre-emption and completion, and the change of a core's
local-store split (R46, R49 to R51, R187, R204 to R207, R312, R315 to R318, R325 to R327, R372 to R386, R405, R441). -/

namespace Sys2Proof.Machine

/-! ### Records (R375, R376) -/

/-- Size of a record and of a node of a graph (R374, R375). -/
def recordSize : Nat := 64

/-- The fields of a record (R375). -/
def recordOf (b : List Byte) : LaunchRec :=
  let w := fun (off n : Nat) => entryField b off n
  { img := w 0 4, kidx := w 4 4, param := BitVec.ofNat 64 (w 8 8), ngang := w 16 4, tshp := w 20 1, gshp := w 21 1, cls := w 22 1
    prio := w 23 1 % 4, lp := decide (w 23 1 / 4 % 2 = 1), failx := decide (w 23 1 / 8 % 2 = 1), eng := w 24 1, lsplit := w 25 1
    ttime := (if w 28 4 = 0 then 10000 else w 28 4), wdog := w 32 8, hslot := w 40 4, after := w 48 8
    done := BitVec.ofNat 64 (w 56 8) }

/-- A field that must be zero is not (R375). -/
def recordZeros (b : List Byte) : Bool :=
  let w := fun (off n : Nat) => entryField b off n
  w 2 2 == 0 && decide (w 20 1 / 64 % 2 = 0) && decide (w 21 1 / 32 % 4 = 0) && decide (w 22 1 < 8) && decide (w 23 1 < 16) &&
  decide (w 24 1 < 64) && decide (w 25 1 < 8) && w 26 2 == 0 && w 44 4 == 0

/-- Groups and core pair of a team, teams and cluster pair of a gang, and classes (R375). -/
def shapeOf (r : LaunchRec) (k : Kernel) : Nat × Bool × Nat × Bool × BitVec 3 :=
  (if r.tshp = 0 then k.ngroups else r.tshp % 64, if r.tshp = 0 then k.pair else decide (128 ≤ r.tshp),
   if r.gshp = 0 then k.nteams else r.gshp % 32, if r.gshp = 0 then k.gpair else decide (128 ≤ r.gshp),
   if r.cls = 0 then k.classes else k.classes &&& BitVec.ofNat 3 r.cls)

/-- Cores of a team. -/
def teamWidth (pair : Bool) : Nat := if pair then 2 else 1

/-- A shape is within its range (R376). -/
def shapeOk (r : LaunchRec) (k : Kernel) : Bool :=
  let (n, pair, t, gpair, cls) := shapeOf r k
  decide (1 ≤ n) && decide (n ≤ 32) && decide (1 ≤ t) && decide (t ≤ 16) &&
  decide (t * teamWidth pair ≤ if gpair then 16 else 8) && cls != 0 && !(decide (0 < k.tiles) && cls &&& 3 == 0)

/-- The kernel a record names, when its image is loaded for the engagement. -/
def kernelOf (s : State) (r : LaunchRec) : Option Kernel :=
  match assoc r.img s.images with
  | none => none
  | some i => if i.eid = r.eng then i.kernels[r.kidx]? else none

/-- The kernel is that of the engagement's step program (R388). -/
def stepOf (s : State) (r : LaunchRec) : Option StepProgram :=
  (programOf s r.eng).filter (fun p => p.img == r.img && p.kidx == r.kidx)

/-- A record passes R376; `issuer` is the launch that makes it, if one does. -/
def recordOk (s : State) (b : List Byte) (r : LaunchRec) (k : Kernel) (issuer : Option Launch) : Bool :=
  recordZeros b && (engOf s r.eng).st == .live && shapeOk r k && decide (1 ≤ r.ngang) && decide (r.ngang ≤ 2 ^ 24) &&
  decide (k.units ≤ r.lsplit) && decide (r.param.toNat % 8 = 0) && decide (r.done.toNat % 8 = 0) &&
  (r.wdog == 0 || (decide (1024 ≤ r.wdog) && decide (r.wdog ≤ 2 ^ 40))) &&
  (r.hslot == 0xFFFFFFFF || decide (r.hslot < k.slots)) && decide (r.after < s.nextSeq) &&
  (match stepOf s r with
    | none => true
    | some p => p.nslot == r.ngang) &&
  (match issuer with
    | none => true
    | some l => l.record.eng == r.eng && decide (r.prio ≤ l.record.prio))

/-! ### Queues (R374, R377) -/

/-- A launch that still holds its place in its queue. -/
def inQueue (l : Launch) : Bool := l.phase == .queued && decide (l.nextGang < l.record.ngang)

/-- A launch as it enters its queue. -/
def newLaunch (s : State) (r : LaunchRec) (k : Kernel) (die : Nat) (deps : List Nat) : Launch :=
  let (n, pair, t, gpair, cls) := shapeOf r k
  { seq := s.nextSeq, record := r, kernel := k, ngroups := n, pair := pair, nteams := t, gpair := gpair, classes := cls
    wdog := (if r.wdog = 0 then k.watchdog else r.wdog), owner := die, phase := .queued, deps := deps, nextGang := 0, placed := []
    endedGangs := [], stood := [], deficits := [0, 0, 0, 0], terminated := 0, status := 0, doneFault := 0, step := none
    isStep := (stepOf s r).isSome, waitingSince := nowUs s, claim := none }

/-- Offers a record to its queue: status 0 enqueued, 1 full, 2 rejected, with the sequence number (R187, R376, R377). -/
def enqueue (b : List Byte) (die : Nat) (issuer : Option Launch) (deps : List Nat) (s : State) : Nat × Nat × State :=
  let r := recordOf b
  match kernelOf s r with
  | none => (2, 0, s)
  | some k =>
    if !recordOk s b r k issuer then (2, 0, s)
    else if 1024 ≤ (s.launches.filter (fun l => inQueue l && l.record.prio == r.prio)).length then (1, 0, s)
    else (0, s.nextSeq, { s with launches := s.launches ++ [newLaunch s r k die deps], nextSeq := s.nextSeq + 1 })

/-- The launch that `AFTER` names. -/
def afterOf (b : List Byte) : List Nat := let a := (recordOf b).after; if a = 0 then [] else [a]

/-- `LAUNCH` (R187). A record in a peer window is none: cause 0x08, `SUBC` 0x13 (DEDUCED, log entry 34). -/
def execLaunch (x : Fields) (s : State) : Result :=
  let mine := findLaunch s s.g.launch
  need (mine.any (fun l => l.record.lp)) (wordTrap 0x04) s <|
  need (isS x.d && regOk s.g x.d 1 && isSPair x.a && regOk s.g x.a 2 && apart x.d 1 x.a 2) (wordTrap 0x02) s <|
    if holdsQ s.g x then
      let va := read64 s.g x 0 x.a
      if va.toNat % 64 ≠ 0 then trapped ⟨0x0B, 0, some va, 0⟩ s
      else
        let r := releaseAll s.g.gid 3 s
        let s := modGroup r.2.g.gid (fun g => { g with carry := max g.carry r.1 }) r.2
        let offer := fun (b : List Byte) (s : State) =>
          let e := enqueue b s.g.die mine (afterOf b) s
          let d : Word := BitVec.ofNat 32 (e.1 + 256 * (e.2.1 % 2 ^ 24))
          finish (writeUni e.2.2.g x.d [d]) e.2.2
        match resolve s.g va 64 .read false s with
        | (.loc c a, s) => if localError s c a 64 then trapped ⟨0x20, 3, some va, 0⟩ (countPlace (.loc c a) 64 s) else offer (localRead s c a 64) s
        | (.zero, s) => offer (List.replicate 64 0) s
        | (.mem pa, s) =>
          match slowRead va pa 64 0 s with
          | (.error c sub, s) => trapped ⟨c, sub, some va, 0⟩ s
          | (.data b _ _, s) => offer b s
        | (p, s) => closeAccess (fun _ s => s) (0, 0, badPlace va 0 p s)
    else finish s.g s

/-! ### Seats on a core (R46, R50, R51, R204 to R207, R255, R315, R316, R325) -/

/-- Class of an enabled core: 0 F, 1 M, 2 L (R4, R336). -/
def coreClass (s : State) (c : Nat) : Option Nat :=
  let f := fuseOf s c
  if f.blocks = 4 then some (if f.engine then 0 else 2) else if f.blocks = 3 then some (if f.engine then 1 else 2) else none

/-- A core is enabled, in service, and of one of the classes. -/
def classFits (s : State) (l : Launch) (c : Nat) : Bool :=
  match coreClass s c with
  | none => false
  | some k => l.classes.getLsbD k && !(coreAt s c).unavailable

/-- Teams on a core. -/
def teamsOn (s : State) (c : Nat) : List Team := s.teams.filter (fun t => t.cores.contains c)

/-- Load of a lane: groups, their units, the most units any of them may add (R51), the units that their blocks occupy (R46),
and whether an acquisition waits there (R52). -/
structure LaneLoad where
  count : Nat
  units : Nat
  most : Nat
  used : Nat
  shut : Bool

/-- What a group needs on a lane: units for each block, and units of the blocks it holds (R46). -/
structure Need where
  u : Nat
  held : Nat

/-- Load of every lane of a core. -/
def laneLoads (s : State) (c : Nat) : List LaneLoad :=
  (List.range (8 * (fuseOf s c).blocks)).map (fun k =>
    let gs := onLane s c k
    ⟨gs.length, (gs.map unitsPerBlock).sum, (gs.map (fun g => declaredTop s g * unitsPerBlock g)).foldl max 0,
      (gs.map (fun g => (g.xblk + 1) * unitsPerBlock g)).sum, gs.any (fun g => (blockWait g).isSome)⟩)

/-- A lane that takes no group. -/
def LaneLoad.full : LaneLoad := ⟨9, 9, 9, 9, true⟩

/-- A group with top block `top` may join a lane: it keeps the bound of R51, the blocks it holds find free units (R46), and no
acquisition waits there (R52). -/
def laneTakes (n : Need) (top : Nat) (w : LaneLoad) : Bool :=
  !w.shut && decide (w.count + 1 ≤ 4) && decide (w.units + n.u + max w.most (top * n.u) ≤ 8) && decide (w.used + n.held ≤ 8)

/-- The lane a group goes to: the fewest residents, then the lowest number (R204). -/
def pickLane (n : Need) (top : Nat) (ws : List LaneLoad) : Option Nat :=
  let ok := (List.range ws.length).filter (fun k => laneTakes n top (nth .full ws k))
  ok.foldl (fun b k => match b with
    | none => some k
    | some j => if (nth .full ws k).count < (nth .full ws j).count then some k else b) none

/-- Lanes of groups placed one after another (R204). -/
def pickLanes (top : Nat) : List Need → List LaneLoad → Option (List Nat)
  | [], _ => some []
  | n :: ns, ws =>
    match pickLane n top ws with
    | none => none
    | some k =>
      let w := nth .full ws k
      (pickLanes top ns (ws.set k ⟨w.count + 1, w.units + n.u, max w.most (top * n.u), w.used + n.held, w.shut⟩)).map (k :: ·)

/-- Units of a core's local store that a team holds. -/
def unitsHeld (t : Team) (c : Nat) : List Nat := (List.range t.units).map (· + nth 0 t.locals (posIn t c))

/-- A launch may have a core's split changed for it (R207): no team, or one that lies outside the affected units. -/
def mayChange (s : State) (c units : Nat) : Bool :=
  let k := (coreAt s c).localUnits
  let hit := fun (t : Team) => (unitsHeld t c).any (fun u => decide (min k units ≤ u) && decide (u < max k units))
  match teamsOn s c with
  | [] => true
  | [t] => !hit t
  | _ => false

/-- A core has the split a launch needs, is getting it, or may be given it. -/
def splitFits (s : State) (l : Launch) (c : Nat) : Bool :=
  let k := coreAt s c
  match k.splitTo with
  | some n => n == l.record.lsplit
  | none => k.localUnits == l.record.lsplit || mayChange s c l.record.lsplit

/-- A core has that split now, so that teams may be placed on it (R207). -/
def splitReady (s : State) (l : Launch) (c : Nat) : Bool := (coreAt s c).splitTo.isNone && (coreAt s c).localUnits == l.record.lsplit

/-- What a team takes on one core. -/
structure Seat where
  core : Nat
  range : Nat
  tiles : List Nat
  unit : Nat
  lanes : List Nat
  deriving DecidableEq, Repr

/-- A seat on a core for groups that need `us` (R316, R325, R441). -/
def seatOn (s : State) (l : Launch) (us : List Need) (c : Nat) : Option Seat :=
  let ts := teamsOn s c
  let usedTiles := ts.flatMap (fun t => nth [] t.tiles (posIn t c))
  let tiles := ((List.range 12).filter (fun k => !usedTiles.contains k)).take l.kernel.tiles
  let usedUnits := ts.flatMap (fun t => unitsHeld t c)
  let own := ((ts.filter (fun t => t.launch == l.seq)).map (·.units)).sum
  let starts := (List.range (l.record.lsplit + 1 - l.kernel.units)).filter (fun k =>
    (List.range l.kernel.units).all (fun j => !usedUnits.contains (k + j)))
  let range := (List.range 4).find? (fun j => !ts.any (fun t => rangeOn t c == j))
  if classFits s l c && splitFits s l c && decide (tiles.length = l.kernel.tiles) && (l.kernel.tiles == 0 || (fuseOf s c).engine) &&
      decide (own + l.kernel.units ≤ l.record.lsplit) then
    match range, starts.head?, pickLanes l.kernel.top us (laneLoads s c) with
    | some r, some u, some ls => some ⟨c, r, tiles, u, ls⟩
    | _, _, _ => none
  else none

/-- Units for each block of a kernel's groups (R46). -/
def kernelUnits (k : Kernel) : Nat :=
  match k.width with
  | .w16 => 1
  | .w32 => 2
  | .w64 => 4

/-- What the groups of a new team that go to its core number `k` need: a base block each (R49, R315). -/
def newUnits (l : Launch) (k : Nat) : List Need :=
  List.replicate (if l.pair then (l.ngroups + 1 - k) / 2 else l.ngroups) ⟨kernelUnits l.kernel, kernelUnits l.kernel⟩

/-- The seats of a new team on the cores from `c` on. -/
def teamSeats (s : State) (l : Launch) (c : Nat) : Option (List Seat) :=
  if l.pair then
    match seatOn s l (newUnits l 0) c, seatOn s l (newUnits l 1) (c + 1) with
    | some a, some b => some [a, b]
    | _, _ => none
  else (seatOn s l (newUnits l 0) c).map (fun a => [a])

/-- Places of a cluster where a new team may stand: the first core and its seats, in ascending position. -/
def spotsOf (s : State) (l : Launch) (cl : Nat) : List (Nat × List Seat) :=
  ((List.range 8).filter (fun p => !l.pair || p % 2 == 0)).filterMap (fun p => (teamSeats s l (8 * cl + p)).map (fun x => (8 * cl + p, x)))

/-- The order in which classes are taken: L, M, F (R379). -/
def classRank (s : State) (c : Nat) : Nat := 2 - (coreClass s c).getD 0

/-- Chooses `n` spots: by class, then position; then in ascending position (R379). -/
def chooseSpots (s : State) (n : Nat) (spots : List (Nat × List Seat)) : Option (List (List Seat)) :=
  let cls := fun (e : Nat × List Seat) => (e.2.map (fun a => classRank s a.core)).sum
  let order := (List.range 5).flatMap (fun r => spots.filter (fun e => cls e == r))
  let took := (order.take n).map (·.1)
  if took.length < n then none else some ((spots.filter (fun e => took.contains e.1)).map (·.2))

/-! ### Gangs on clusters (R318, R325, R379, R386) -/

/-- A placement: the clusters, the seats of each team, and how many cores were free. -/
structure Plan where
  half0 : Nat
  half1 : Option Nat
  seats : List (List Seat)
  free : Nat
  deriving DecidableEq, Repr

/-- The saved gang of a launch that is placed before its new ones: the lowest-numbered (R378). -/
def restorable (s : State) (l : Launch) : Option SavedGang :=
  (s.saved.filter (fun v => v.launch == l.seq && v.saved)).foldl (fun b v => match b with
    | none => some v
    | some w => if v.gang.gang < w.gang.gang then some v else b) none

/-- The first gang from `g` on that is to be placed (R390). -/
def skipGangs (ended : List Nat) : Nat → Nat → Nat
  | 0, g => g
  | n + 1, g => if ended.contains g then skipGangs ended n (g + 1) else g

/-- The launch's next gang that has not been placed yet. -/
def nextOf (l : Launch) : Nat := skipGangs l.endedGangs (l.endedGangs.length + 1) l.nextGang

/-- The number of a gang that waits: a saved one, or the next new one. -/
def gangNo (l : Launch) (v : Option SavedGang) : Nat :=
  match v with
  | some v => v.gang.gang
  | none => nextOf l

/-- The gang of a launch that an open drain reservation serves, while it waits (R326). -/
def servedGang (s : State) (l : Launch) : List (Option SavedGang) :=
  match s.reservation with
  | none => []
  | some r =>
    if r.launch ≠ l.seq then []
    else match s.saved.find? (fun v => v.launch == l.seq && v.gang.gang == r.gang) with
      | some v => if v.saved then [some v] else []
      | none => if nextOf l = r.gang then [none] else []

/-- The gangs of a launch that may be placed next: the one that a reservation serves, and the lowest-numbered (R326, R378). -/
def waitingGangs (s : State) (l : Launch) : List (Option SavedGang) := servedGang s l ++ [restorable s l]

/-- Since when the lowest-numbered gang of a launch that waits has waited, in µs (R326). -/
def waitsSince (s : State) (l : Launch) : Nat :=
  match restorable s l with
  | some v => v.since
  | none => l.waitingSince

/-- The half of a gang in which a core stood. -/
def halfOf (a : Gang) (c : Nat) : Bool := clusterOf c != a.half0

/-- The seats of a saved team in new clusters: every core keeps its position, with as many lanes (R386). -/
def savedSeats (s : State) (l : Launch) (a : Gang) (c0 : Nat) (c1 : Option Nat) (v : SavedTeam) : Option (List Seat) :=
  v.team.cores.mapM (fun c =>
    let there := 8 * (if halfOf a c then c1.getD c0 else c0) + c % 8
    let us := (savedOn v c).map (fun g => Need.mk (unitsPerBlock g) ((g.xblk + 1) * unitsPerBlock g))
    if (fuseOf s c).blocks ≤ (fuseOf s there).blocks then seatOn s l us there else none)

/-- The numbers of teams that half 0 of a cluster pair may take, which holds team 0: the even split first, then those next to it
(R318, R325; DESIGN CHOICE, log entry 62). -/
def splits (t : Nat) : List Nat :=
  let n := (t + 1) / 2
  n :: (List.range t).flatMap (fun k => (if n + k + 1 ≤ t then [n + k + 1] else []) ++ (if k + 1 < n then [n - (k + 1)] else []))

/-- The teams of a new gang on a cluster pair, `n` of them in half 0. -/
def splitSpots (s : State) (t : Nat) (a b : List (Nat × List Seat)) (n : Nat) : Option (List (List Seat)) :=
  match chooseSpots s n a, chooseSpots s (t - n) b with
  | some x, some y => some (x ++ y)
  | _, _ => none

/-- What the cores of a gang need: of a new one by their place in a team, of a saved one as it stood (R315, R386). -/
def coreNeeds (l : Launch) (v : Option SavedGang) : List (List Need) :=
  match v with
  | none => if l.pair then [newUnits l 0, newUnits l 1] else [newUnits l 0]
  | some v => v.teams.flatMap (fun t => t.team.cores.map (fun c =>
      (savedOn t c).map (fun g => Need.mk (unitsPerBlock g) ((g.xblk + 1) * unitsPerBlock g))))

/-- The free cores of a cluster: those on which some core of the gang's teams finds its seat (R325, R379; DEDUCED, log entry 132). -/
def freeCores (s : State) (l : Launch) (v : Option SavedGang) (cl : Nat) : Nat :=
  ((List.range 8).filter (fun p => (coreNeeds l v).any (fun us => (seatOn s l us (8 * cl + p)).isSome))).length

/-- A gang of a launch on given clusters (R325). -/
def fitHere (s : State) (l : Launch) (v : Option SavedGang) (c : Nat × Option Nat) : Option Plan :=
  let a := spotsOf s l c.1
  let b := (c.2.map (spotsOf s l)).getD []
  let seats := match v, c.2 with
    | some v, _ => v.teams.mapM (savedSeats s l v.gang c.1 c.2)
    | none, none => chooseSpots s l.nteams a
    | none, some _ => (splits l.nteams).findSome? (splitSpots s l.nteams a b)
  seats.map (fun x => ⟨c.1, c.2, x, freeCores s l v c.1 + (c.2.map (freeCores s l v)).getD 0⟩)

/-- Two dies are adjacent (R318). -/
def adjacent (d e : Nat) : Bool := d != e && d + e != 3

/-- Clusters on which a gang of a launch may stand, half 0 on a die, by rising number. -/
def clustersFor (l : Launch) (v : Option SavedGang) (die : Nat) : List (Nat × Option Nat) :=
  let first := (List.range 6).map (· + 6 * die)
  let pairs := fun (ok : Nat → Bool) => first.flatMap (fun c0 => ((List.range 24).filter (fun c1 => c1 != c0 && ok (c1 / 6))).map (fun c1 => (c0, some c1)))
  match v with
  | some v =>
    match v.gang.half1 with
    | none => first.map (fun c => (c, none))
    | some h => if h / 6 = v.gang.half0 / 6 then pairs (· == die) else pairs (adjacent die)
  | none => if l.gpair then pairs (fun d => d == die || adjacent die d) else first.map (fun c => (c, none))

/-- A cluster is open to a gang of a launch: no reservation for another gang and no claim of another launch keeps it (R326, R382). -/
def openTo (s : State) (l : Launch) (gang cl : Nat) : Bool :=
  let holds := fun (c0 : Nat) (c1 : Option Nat) => c0 == cl || c1 == some cl
  !(s.reservation.any (fun r => (r.launch != l.seq || r.gang != gang) && holds r.cluster r.cluster2)) &&
  !(s.launches.any (fun k => decide (l.record.prio < k.record.prio) && k.claim.any (fun c => holds c.1 c.2)))

/-- The placement with the fewest free cores on a die, the lowest clusters on a tie (R379). -/
def planOn (s : State) (l : Launch) (v : Option SavedGang) (die : Nat) : Option Plan :=
  let cs := (clustersFor l v die).filter (fun c => openTo s l (gangNo l v) c.1 && (c.2.all (openTo s l (gangNo l v))))
  (cs.filterMap (fitHere s l v)).foldl (fun b p => match b with
    | none => some p
    | some q => if p.free < q.free then some p else b) none

/-- Enabled cores of a die in a launch's classes (R379). -/
def weightOf (s : State) (l : Launch) (die : Nat) : Nat :=
  ((List.range 48).filter (fun k => (coreClass s (48 * die + k)).any (fun c => l.classes.getLsbD c))).length

/-- Dies by deficit, the greatest first, then by number (R379). -/
def dieOrder (d : List Int) : List Nat :=
  (List.range 4).foldl (fun l k => let before := l.filter (fun j => decide (nth 0 d k ≤ nth 0 d j))
                                   before ++ [k] ++ l.filter (fun j => !before.contains j)) []

/-- The first die of a list on which the gang fits. -/
def firstPlan (s : State) (l : Launch) (v : Option SavedGang) : List Nat → Option (Nat × Plan)
  | [] => none
  | d :: ds =>
    match planOn s l v d with
    | some p => some (d, p)
    | none => firstPlan s l v ds

/-- `ChooseDie` (R379): the placement of a gang of a launch, new or saved, with the deficits after it. -/
def chooseDie (s : State) (l : Launch) (v : Option SavedGang) : Option (Plan × List Int) :=
  let w := (List.range 4).map (weightOf s l)
  let d := (l.deficits.zip w).map (fun e => e.1 + (e.2 : Int))
  let order := dieOrder d
  let order := if l.nextGang = 0 then l.owner :: order.filter (· != l.owner) else order
  (firstPlan s l v order).map (fun e => (e.2, d.set e.1 (nth 0 d e.1 - (w.sum : Int))))

/-- What a launch's gang is given: the gang, its placement and the deficits after it. -/
structure Choice where
  gang : Option SavedGang
  plan : Plan
  deficits : List Int
  deriving DecidableEq, Repr

/-- The first of a launch's waiting gangs that has a placement which satisfies `f`. -/
def chooseBy (f : Plan → Bool) (s : State) (l : Launch) : Option Choice :=
  (waitingGangs s l).findSome? (fun v => ((chooseDie s l v).filter (fun p => f p.1)).map (fun p => ⟨v, p.1, p.2⟩))

/-- The placement that comes next in a launch. -/
def choosePlan (s : State) (l : Launch) : Option Choice := chooseBy (fun _ => true) s l

/-! ### Which gang is placed (R374, R378, R381) -/

/-- A launch has completed (R381). -/
def launchDone (s : State) (seq : Nat) : Bool := (findLaunch s seq).all (fun l => l.phase == .complete)

/-- A launch it depends on completed with a nonzero status. -/
def depFailed (s : State) (l : Launch) : Bool := l.deps.any (fun d => (findLaunch s d).any (fun k => k.phase == .complete && k.status != 0))

/-- Every launch it depends on has completed. -/
def depsDone (s : State) (l : Launch) : Bool := l.deps.all (launchDone s)

/-- The launch has a gang that waits for a place (R378). -/
def eligible (s : State) (l : Launch) : Bool :=
  l.phase == .queued && depsDone s l && !(l.record.failx && depFailed s l) && (!l.isStep || l.step.isSome) &&
  ((restorable s l).isSome || decide (nextOf l < l.record.ngang))

/-- The place of a launch's gang in the order of R378. -/
def placeKey (s : State) (l : Launch) : Nat :=
  (3 - l.record.prio) * 2 ^ 70 + (if (restorable s l).isSome then 0 else 2 ^ 68) + l.seq

/-- The placement that a launch's gang may take at once. -/
def readyPlan (s : State) (l : Launch) : Option Choice :=
  if eligible s l then chooseBy (fun p => p.seats.all (·.all (fun a => splitReady s l a.core))) s l else none

/-- The cores of a placement. -/
def planCores (p : Plan) : List Nat := p.seats.flatten.map (·.core)

/-- A launch has a placement, at once or once splits have changed, that comes before others on its cores (R378, R379): on all
of them when it may be placed at once. -/
def goesBefore (s : State) (k : Launch) (cores : List Nat) : Bool :=
  (readyPlan s k).isSome || (eligible s k && (choosePlan s k).any (fun p => (planCores p.plan).any (cores.contains ·)))

/-! ### Placing (R49, R316, R386, R405) -/

/-- Takes a seat for a team: its range and tiles, zeroed, and zeroed local store (R206, R256, R316, R324). -/
def takeSeat (tid units : Nat) (a : Seat) (s : State) : State :=
  modCore a.core (fun k =>
    { k with ranges := Sparse.set 0 a.range (tid + 1) k.ranges
             ctrs := Sparse.drop (fun n => n / 16 == a.range) k.ctrs
             tiles := Sparse.drop (fun n => a.tiles.contains n) k.tiles
             tileOwner := a.tiles.foldl (fun t n => Sparse.set 0 n (tid + 1) t) k.tileOwner
             store := Sparse.drop (fun n => decide (65536 * a.unit ≤ n) && decide (n < 65536 * (a.unit + units))) k.store
             storeTimes := Sparse.drop (fun n => decide (16384 * a.unit ≤ n) && decide (n < 16384 * (a.unit + units))) k.storeTimes
             storePoison := k.storePoison.filter (fun n => !(decide (16384 * a.unit ≤ n) && decide (n < 16384 * (a.unit + units)))) }) s

/-- A group as it begins (R49); its later releases cover what its launch's start acquires (DEDUCED, R301, R311). -/
def newGroup (s : State) (l : Launch) (gang team tid grp : Nat) (core lane : Nat) : Group :=
  let g := Group.init
  let all := lowMask (16 * kernelUnits l.kernel)
  { g with gid := s.fresh + grp, eid := l.record.eng, tid := tid, launch := l.seq, gang := gang, teamNo := team + gang * l.nteams
           grp := grp, die := core / 48, core := core % 48, lane := lane, width := l.kernel.width, base := l.kernel.base
           status := .ready, pc := l.kernel.base + BitVec.ofNat 64 (12 * l.kernel.entry), live := all, active := all
           s := Sparse.set 0 1 (hi32 l.record.param) (Sparse.set 0 0 (lo32 l.record.param) []), gwts := newestWrite s, waitingSince := s.ac }

/-- Core and lane of group `n` of a team (R315). -/
def groupPlace (seats : List Seat) (n : Nat) : Nat × Nat :=
  let k := seats.length
  let a := nth ⟨0, 0, [], 0, []⟩ seats (n % max 1 k)
  (a.core, nth 0 a.lanes (n / max 1 k))

/-- A gang's slot has its cancel bit set (R391, R405). -/
def slotCancelled (s : State) (l : Launch) (gang : Nat) : Bool :=
  l.isStep && (programOf s l.record.eng).any (fun p => p.cancel.contains gang)

/-- Places one team of a new gang. -/
def placeTeam (l : Launch) (gang team : Nat) (seats : List Seat) (s : State) : State :=
  let tid := s.fresh
  let t : Team := { tid := tid, launch := l.seq, gang := gang, team := team, eid := l.record.eng, cores := seats.map (·.core)
                    ranges := seats.map (·.range), tiles := seats.map (·.tiles), locals := seats.map (·.unit), units := l.kernel.units
                    ngroups := l.ngroups, start := nowUs s, outstanding := 0, ended := false, terminated := none
                    cancel := slotCancelled s l gang, took := false, freed := false, retired := [] }
  let s := seats.foldl (fun s a => takeSeat tid l.kernel.units a s) { s with fresh := s.fresh + 1, teams := s.teams ++ [t] }
  let gs := (List.range l.ngroups).map (fun n => let p := groupPlace seats n; newGroup s l gang team tid n p.1 p.2)
  let s := { s with others := s.others ++ gs, fresh := s.fresh + l.ngroups }
  let s := seats.foldl (fun s a => clockTo a.core (newestWrite s) s) s
  let mine := fun (r : CtrAdd) => r.launch == l.seq && r.gang == gang && r.team == team
  (s.held.filter mine).foldl (fun s r => landAdd t r s) { s with held := s.held.filter (fun r => !mine r) }

/-- Places every team of a new gang. -/
def placeTeams (l : Launch) (gang : Nat) : List (List Seat) → Nat → State → State
  | [], _, s => s
  | a :: as, k, s => placeTeams l gang as (k + 1) (placeTeam l gang k a s)

/-- Places the launch's next new gang (R378). -/
def startGang (l : Launch) (p : Plan) (d : List Int) (s : State) : State :=
  let gang := nextOf l
  let first := s.teams.length
  let s := placeTeams l gang p.seats 0 s
  let a : Gang := ⟨gang, p.half0, p.half1, (s.teams.drop first).map (·.tid), nowUs s⟩
  modLaunch l.seq (fun l => { l with nextGang := gang + 1, placed := l.placed ++ [a], deficits := d, waitingSince := nowUs s, claim := none }) s

/-- A narrow tile is checked when it is restored (R268, R271). -/
def restoredTile (t : Tile) : Tile := if t.kind = 1 ∧ (checkTile t).isSome then setBad t else t

/-- The status of a restored group: a counter wait starts again with its counter's new number, and a command that it
waited for and that has retired no longer holds it (R241, R386). -/
def restoredStatus (range ac : Nat) (liveIds : List Nat) (achk : Bool) (st : Status) : Status :=
  match st with
  | .waitCounter m target d acq scope _ => .waitCounter (16 * range + m % 16) target d acq scope ac
  | .waitCopy id => if liveIds.contains id then st else .ready
  | .waitAchk => if achk then st else .ready
  | st => st

/-- What a restored core receives of a team (R384, R386). The engagement's lines leave its L1, which might hold older words than the
team's groups have read or written (R302; DEDUCED, log entry 118). -/
def fillSeat (v : SavedTeam) (k : Nat) (a : Seat) (s : State) : State :=
  let s := ((coreAt s a.core).lines.filter (fun l => l.eid == v.team.eid)).foldl (fun s l => evictLine a.core l s) s
  modCore a.core (fun c =>
    { c with ctrs := (nth [] v.ctrs k).foldl (fun t e => Sparse.set Counter.zero (16 * a.range + e.1) e.2 t) c.ctrs
             tiles := ((a.tiles.zip (nth [] v.tiles k)).foldl (fun t e => Sparse.set Tile.empty e.1 (restoredTile e.2) t) c.tiles)
             store := (nth [] v.stores k).foldl (fun t e => Sparse.set 0 (65536 * a.unit + e.1) e.2 t) c.store
             storeTimes := (nth [] v.times k).foldl (fun t e => Sparse.set [] (16384 * a.unit + e.1) e.2 t) c.storeTimes
             storePoison := (nth [] v.bad k).map (· + 16384 * a.unit) ++ c.storePoison
             seq := c.seq ++ nth [] v.seqs k, bbuf := [], cc := max (max c.cc (nth 0 v.ccs k)) v.wts }) s

/-- Commands of a team anywhere. -/
def teamCommands (s : State) (tid : Nat) : List Command := ((allCommands s).map (·.2)).filter (fun c => c.team == tid)

/-- A restored group: its new core and lane; every other register keeps its value (R386). One that has ended keeps its place too:
where it last ran (R323). -/
def restoredGroup (s : State) (v : SavedTeam) (seats : List Seat) (g : Group) : Group :=
  if g.status = .ended then g else
  let k := v.team.cores.idxOf (coreNo g)
  let a := nth ⟨0, 0, [], 0, []⟩ seats k
  let lane := nth 0 a.lanes ((savedOn v (coreNo g)).idxOf g)
  let cs := (teamCommands s v.team.tid).filter (fun c => c.group == g.gid)
  { g with die := a.core / 48, core := a.core % 48, lane := lane, waitingSince := s.ac
           status := restoredStatus a.range s.ac (cs.map (·.id)) (cs.any (fun c => checks c.kind)) g.status }

/-- Restores one team (R386). -/
def restoreTeam (v : SavedTeam) (seats : List Seat) (s : State) : State :=
  let t := { v.team with cores := seats.map (·.core), ranges := seats.map (·.range), tiles := seats.map (·.tiles)
                         locals := seats.map (·.unit), start := nowUs s }
  let s := seats.foldl (fun s a => takeSeat t.tid t.units a s) { s with teams := s.teams ++ [t] }
  let s := (List.range seats.length).foldl (fun s k => fillSeat v k (nth ⟨0, 0, [], 0, []⟩ seats k) s) s
  { s with others := s.others ++ v.groups.map (restoredGroup s v seats) }

/-- A restored team whose groups and commands all ended while it was saved ends; one with a report that no group of it can
take any more is terminated by it instead (R250, R312). -/
def settleRestored (tid : Nat) (s : State) : State :=
  if (allGroups s).any (fun g => g.tid == tid && isOver g && g.reports != []) then s else settleTeam tid s

/-- The teams of a gang as their areas hold them. -/
def readTeams : List SavedTeam → State → List SavedTeam × State
  | [], s => ([], s)
  | t :: ts, s =>
    let (t, s) := fromAreas (t, s)
    let (ts, s) := readTeams ts s
    (t :: ts, s)

/-- Restores a saved gang, then applies the adds held for it (R379, R383, R386). -/
def restoreGang (l : Launch) (v : SavedGang) (p : Plan) (d : List Int) (s : State) : State :=
  let (ts, s) := readTeams v.teams { s with saved := s.saved.filter (fun w => !(w.launch == v.launch && w.gang.gang == v.gang.gang)) }
  let s := (ts.zip p.seats).foldl (fun s e => restoreTeam e.1 e.2 s) s
  let a := { v.gang with half0 := p.half0, half1 := p.half1, start := nowUs s }
  let s := modLaunch l.seq (fun l => { l with placed := l.placed ++ [a], deficits := d, claim := none }) s
  let s := v.held.foldl (fun s r => match addTeam s r with
    | some t => landAdd t r s
    | none => s) s
  v.teams.foldl (fun s t => settleRestored t.team.tid s) s

/-- The launch engines place, or restore, a launch's next gang: none that comes before it can be placed (R378, R379). -/
def execGangPlacement (seq : Nat) (s : State) : Result :=
  match findLaunch s seq with
  | none => .refused .notEnabled
  | some l =>
    match readyPlan s l with
    | none => .refused .notEnabled
    | some p =>
      if s.launches.any (fun k => decide (placeKey s k < placeKey s l) && goesBefore s k (planCores p.plan)) then .refused .notEnabled
      else
        let s := { s with reservation := s.reservation.filter (fun r => r.launch != seq || r.gang != gangNo l p.gang) }
        .next (match p.gang with
          | some v => restoreGang l v p.plan p.deficits s
          | none => startGang l p.plan p.deficits s)

/-! ### The split of a core (R207) -/

/-- The core's split is to change for a launch whose chosen cores need it. -/
def splitWanted (s : State) (l : Launch) : List Nat :=
  if eligible s l then
    match choosePlan s l with
    | none => []
    | some p => (planCores p.plan).filter (fun c => (coreAt s c).splitTo.isNone && !splitReady s l c)
  else []

/-- The dispatcher begins a split change (R207 step 1). -/
def execSplitChange (core units : Nat) (s : State) : Result :=
  if s.launches.any (fun l => l.record.lsplit == units && (splitWanted s l).contains core) && mayChange s core units then
    .next (modCore core (fun k => { k with chg := true, splitTo := some units }) s)
  else .refused .notEnabled

/-- The destination of a copy, a transposition or a drain, and its rows. -/
def writeSide (k : CmdKind) : Option Side :=
  match k with
  | .drain dst _ e0 e1 => some (drainSide dst e0 e1)
  | k => dstSide k

def writeRows (k : CmdKind) : Nat :=
  match k with
  | .drain _ _ _ _ => 64
  | k => (dstShape k).1

/-- A copy that has been accepted, or a drain, writes to units of a core: a team that has ended may have issued it, or may have held
them (R184, R207). -/
def copyInto (s : State) (core lo hi : Nat) (e : Nat × Command) : Bool :=
  let inside := fun (p : Place) => match p with
    | .loc c a => c == core && decide (65536 * lo ≤ a) && decide (a < 65536 * hi)
    | _ => false
  match writeSide e.2.kind, findTeam s e.2.team with
    | some (.mem a d), some _ => (List.range (writeRows e.2.kind)).any (fun i => inside (cmdPlace e.1 e.2 (rowAt a d i) .read s).1)
    | some (.multi o d m), some t => (List.range 16).any (fun b => m / 2 ^ b % 2 == 1 && (maskCore s t e.1 b).any (fun k =>
        (List.range (dstShape e.2.kind).1).any (fun i => inside (multiPlace e.2 s t k ((o : Int) + (i : Int) * d).toNat))))
    | _, _ => false

/-- A split change ends (R207 steps 2 to 5): its lines are evicted, the units zeroed, and `LOCAL` is new. -/
def execSplitChangeDone (core : Nat) (s : State) : Result :=
  match (coreAt s core).splitTo with
  | none => .refused .notEnabled
  | some n =>
    let k := (coreAt s core).localUnits
    let lo := min n k
    let hi := max n k
    if (allCommands s).any (copyInto s core lo hi) then .refused .notEnabled
    else
      let s := if k < n then (coreAt s core).lines.foldl (fun s l => evictLine core l s) s else s
      .next (modCore core (fun k =>
        { k with store := Sparse.drop (fun a => decide (65536 * lo ≤ a) && decide (a < 65536 * hi)) k.store
                 storeTimes := Sparse.drop (fun a => decide (16384 * lo ≤ a) && decide (a < 16384 * hi)) k.storeTimes
                 storePoison := k.storePoison.filter (fun a => !(decide (16384 * lo ≤ a) && decide (a < 16384 * hi)))
                 localUnits := n, chg := false, splitTo := none }) s)

/-! ### Pre-emption (R383 to R385) -/

/-- An emulation that has written no result yet: `MMA` and `ALOAD` change their tile as they end, and a drain that has begun has sent
every row (R201; DEDUCED, log entry 131). -/
def abandonable (c : Command) : Bool :=
  match c.kind with
  | .drain _ _ _ _ => c.phase == .waiting
  | _ => true

/-- What a group that is saved was doing: an instruction that has not completed executes again (R193, R201, R383). -/
def withdrawn (st : Status) : Status :=
  match st with
  | .accepting _ | .releasing _ _ | .waitBlocks _ _ _ | .waitGrow _ _ _ | .waitTraining => .ready
  | .waitEmulation c => if c.serial = 0 then .ready else st
  | st => st

/-- A command that waited for an abandoned one waits for that one to be accepted again (`awaitAgain`). -/
def abandonPred (n : Nat) (d : Command) : Command :=
  if d.preds.contains n then { d with preds := 0 :: d.preds.erase n } else d

/-- `Charon` abandons the operation that it emulates for a group: its command is gone, with what a peer has still to answer, and
the instruction executes again (R201). -/
def abandon (s : State) (g : Group) : State :=
  match g.status with
  | .waitEmulation e =>
    let r : CmdRef := ⟨coreNo g, e.team, e.id⟩
    match (findCmd s r).filter (fun c => c.serial == e.serial && abandonable c) with
    | none => s
    | some c =>
      let n := (s.accs.filter (sideOf r)).length + 1
      let s := { s with accs := s.accs.filter (fun a => !sideOf r a) }
      let s := modCore r.core (fun k => { k with seq := (k.seq.filter (fun d => d.serial != c.serial)).map (abandonPred c.serial) }) s
      modGroup g.gid (fun g => { g with status := .ready }) (modTeam c.team (fun t => { t with outstanding := t.outstanding - n }) s)
  | _ => s

/-- The save of a gang begins: its groups issue nothing more (R383 step 1). -/
def beginSave (l : Launch) (a : Gang) (s : State) : State :=
  if s.saved.any (fun v => v.launch == l.seq && v.gang.gang == a.gang) then s
  else
    let mine := fun (g : Group) => g.launch == l.seq && g.gang == a.gang
    let s := ((allGroups s).filter mine).foldl abandon s
    let s := modGroups mine (fun g => { g with status := withdrawn g.status }) s
    { s with saved := s.saved ++ [⟨l.seq, a, [], [], false, 0⟩] }

/-- A copy of a running command has a side in local store, so that a save waits for it (R383 step 3). -/
def touchesLocal (k : CmdKind) : Bool :=
  let side := fun (d : Option Side) => match d with
    | some (.mem a _) => isWindow a
    | some (.multi _ _ _) => true
    | _ => false
  side (srcSide k) || side (dstSide k)

/-- A command that has begun and runs on as one of the saved context: no side of it is the team's local store, a drain has
taken its rows, and no group waits for `Charon` to perform it (R383). -/
def runsOn (c : Command) : Bool :=
  !c.emulated && match c.kind with
  | .mma _ _ _ _ _ _ _ _ | .mmaz _ | .achk _ _ | .aload _ _ _ _ => false
  | .drain dst _ _ e1 => dKind e1 == 2 || !isWindow dst
  | k => !touchesLocal k

/-- An access of a team that its save waits for: a load or an add that a peer has not answered (R383 steps 2 and 3). -/
def holdsSave (k : OutKind) : Bool :=
  match k with
  | .peer _ _ _ _ _ _ _ _ => true
  | .peerAdd _ _ => true
  | _ => false

/-- Nothing of a team is under way that its save waits for (R383 steps 2 and 3). -/
def saveReady (s : State) (t : Team) : Bool :=
  let gids := ((allGroups s).filter (fun g => g.tid == t.tid)).map (·.gid)
  !(s.accs.any (fun a => a.team == t.tid && holdsSave a.kind)) &&
  !(s.pending.any (fun i => gids.any (fun g => postedBy g i))) &&
  !((teamCommands s t.tid).any (fun c => c.phase == .running && !runsOn c))

/-- The context of a team (R271, R384); `wts` is the largest write time of what its save has written back. -/
def saveTeam (s : State) (t : Team) (wts : Nat) : SavedTeam :=
  let at_ := fun (k : Nat) => coreAt s (nth 0 t.cores k)
  let ks := List.range t.cores.length
  let lo := fun (k : Nat) => 16384 * nth 0 t.locals k
  let held := fun (k w : Nat) => decide (lo k ≤ w) && decide (w < lo k + 16384 * t.units)
  { team := t, groups := (allGroups s).filter (fun g => g.tid == t.tid)
    ctrs := ks.map (fun k => ((at_ k).ctrs.filter (fun e => e.1 / 16 == nth 0 t.ranges k)).map (fun e => (e.1 % 16, e.2)))
    tiles := ks.map (fun k => (nth [] t.tiles k).map (fun n => Sparse.get Tile.empty n (at_ k).tiles))
    stores := ks.map (fun k =>
      let lo := 65536 * nth 0 t.locals k
      ((at_ k).store.filter (fun e => decide (lo ≤ e.1) && decide (e.1 < lo + 65536 * t.units))).map (fun e => (e.1 - lo, e.2)))
    times := ks.map (fun k => ((at_ k).storeTimes.filter (fun e => held k e.1)).map (fun e => (e.1 - lo k, e.2)))
    bad := ks.map (fun k => ((at_ k).storePoison.filter (held k)).map (· - lo k))
    seqs := ks.map (fun k => (at_ k).seq.filter (fun c => c.team == t.tid && c.phase == .waiting))
    keys := ks.map (fun k => ((at_ k).bbuf.filter (fun b => b.handle / 16384 == t.eid)).map (fun b => (b.handle, b.ver, b.tile)))
    ccs := ks.map (fun k => (at_ k).cc), wts := wts, areas := [] }

/-- Frees what a saved team held on a core (R383 step 5). -/
def freeSaved (t : Team) (k : Nat) (c : Core) : Core :=
  let lo := 65536 * nth 0 t.locals k
  let words := fun (w : Nat) => decide (lo ≤ 4 * w) && decide (4 * w < lo + 65536 * t.units)
  let c := freeOnCore (nth 0 t.ranges k) (nth [] t.tiles k) c
  { c with storeTimes := Sparse.drop words c.storeTimes, storePoison := c.storePoison.filter (fun w => !words w)
           ctrs := Sparse.drop (fun n => n / 16 == nth 0 t.ranges k) c.ctrs
           store := Sparse.drop (fun a => decide (lo ≤ a) && decide (a < lo + 65536 * t.units)) c.store
           seq := c.seq.filter (fun d => !(d.team == t.tid && d.phase == .waiting)) }

/-- Writes back a team's dirty words and takes in its acknowledgements (R383 step 4): the largest write time that the write-backs
gave. -/
def flushTeam (t : Team) (s : State) : Nat × State :=
  let gids := ((allGroups s).filter (fun g => g.tid == t.tid)).map (·.gid)
  let mine := fun (l : Line) => l.dirty != 0 && l.writers.any (gids.contains ·)
  let lines := t.cores.flatMap (fun c => ((coreAt s c).lines.filter mine).map (·.line))
  let s := t.cores.foldl (fun s c => writeBackAll c mine s) s
  ((lines.map (wtsOf s)).foldl max 0, gids.foldl (fun s g => absorbAcks g s) s)

/-- Saves one team of a gang: its dirty words are written back, its context is written to the context pool, and what it held is
freed (R383 steps 4 and 5, R384). -/
def saveOne (lsplit : Nat) (e : List SavedTeam × State) (t : Team) : List SavedTeam × State :=
  let (w, s) := flushTeam t e.2
  let v := saveTeam s ((findTeam s t.tid).getD t) w
  let earlier := e.1.flatMap (fun u => if u.team.eid = t.eid then u.areas.map (·.2) else [])
  let (v, s) := (List.range t.cores.length).foldl (putArea (fun c => (coreClass e.2 c).getD 0) lsplit earlier) (v, s)
  (e.1 ++ [v], s)

/-- Removes a team that has been saved from the device. -/
def removeTeam (t : Team) (s : State) : State :=
  let s := (List.range t.cores.length).foldl (fun s k => modCore (nth 0 t.cores k) (freeSaved t k) s) s
  { s with teams := s.teams.filter (fun u => u.tid != t.tid), others := s.others.filter (fun g => g.tid != t.tid)
           g := if s.g.tid = t.tid then Group.init else s.g }

/-- Gangs of a launch in a range are still being saved. -/
def stillSaving (s : State) (launch first count : Nat) : Bool :=
  s.saved.any (fun v => v.launch == launch && !v.saved && decide (first ≤ v.gang.gang) && decide (v.gang.gang < first + count))

/-- The wait of an owed answer is over. -/
def savesOver (s : State) (o : Owed) : Bool :=
  match o.wait with
  | .saves l f n => !stillSaving s l f n
  | .invalidate _ _ _ => false

/-- Sends the answers whose saves have completed (R420). -/
def paySaves (s : State) : State :=
  { s with owed := s.owed.filter (fun o => !savesOver s o)
           out := (s.owed.filter (savesOver s)).map (fun o => OutMsg.answer o.conn o.tag 0 0 0 []) ++ s.out }

/-- The save of a gang ends (R383 to R385). -/
def execContextSaveDone (seq gang : Nat) (s : State) : Result :=
  let mine := fun (v : SavedGang) => v.launch == seq && v.gang.gang == gang
  let ts := s.teams.filter (fun t => t.launch == seq && t.gang == gang)
  if !s.saved.any (fun v => mine v && !v.saved) || !ts.all (saveReady s) then .refused .notEnabled
  else if ts = [] then .next (paySaves { s with saved := s.saved.filter (fun v => !mine v) })
  else
    let lsplit := ((findLaunch s seq).map (·.record.lsplit)).getD 0
    let (vs, s) := ts.foldl (saveOne lsplit) ([], s)
    let s := vs.foldl (fun s v => removeTeam v.team s) s
    let s := { s with saved := updateWhere mine (fun v => { v with teams := vs, saved := true, since := nowUs s }) s.saved }
    .next (paySaves (modLaunch seq (fun l => { l with placed := l.placed.filter (fun a => a.gang != gang) }) s))

/-- A gang stands on one of the clusters. -/
def standsOn (a : Gang) (c0 : Nat) (c1 : Option Nat) : Bool :=
  [some a.half0, a.half1].any (fun h => h.isSome && (h == some c0 || h == c1))

/-- Gangs on the device with their launches. -/
def residents (s : State) : List (Launch × Gang) := s.launches.flatMap (fun l => l.placed.map (fun a => (l, a)))

/-- The gang is not being saved. -/
def running (s : State) (e : Launch × Gang) : Bool := !s.saved.any (fun v => v.launch == e.1.seq && v.gang.gang == e.2.gang)

/-- A gang's deadline in µs (R326). -/
def deadline (e : Launch × Gang) : Nat := e.2.start + e.1.record.ttime

/-- The device without the teams of gangs that satisfy `f`. -/
def without (f : Launch × Gang → Bool) (s : State) : State :=
  let gone := (residents s).filter f
  let hit := fun (launch gang : Nat) => gone.any (fun e => e.1.seq == launch && e.2.gang == gang)
  { s with teams := s.teams.filter (fun t => !hit t.launch t.gang), others := s.others.filter (fun g => !hit g.launch g.gang)
           g := if hit s.g.launch s.g.gang then Group.init else s.g }

/-! ### Drain reservations (R326) -/

/-- A launch's gang has waited 50 µs without a place. -/
def longWait (s : State) (l : Launch) : Bool := eligible s l && decide (waitsSince s l + 50 ≤ nowUs s) && (choosePlan s l).isNone

/-- The cluster on which the gang would fit if every team there ended, with the earliest last deadline: none that a launch of higher
priority has claimed (R326, R382). -/
def drainTarget (s : State) (l : Launch) : Option (Nat × Option Nat) :=
  let last := fun (c : Nat × Option Nat) => (((residents s).filter (fun e => standsOn e.2 c.1 c.2)).map deadline).foldl max 0
  let v := restorable s l
  let ok := ((List.range 4).flatMap (clustersFor l v)).filter (fun c => openTo s l (gangNo l v) c.1 && c.2.all (openTo s l (gangNo l v)) &&
    (fitHere (without (fun e => standsOn e.2 c.1 c.2) s) l v c).isSome)
  ok.foldl (fun b c => match b with
    | none => some c
    | some a => if last c < last a then some c else b) none

/-- A drain reservation opens for the oldest waiting gang of the highest priority (R326). -/
def execDrainReservationOpen (seq : Nat) (s : State) : Result :=
  match findLaunch s seq with
  | none => .refused .notEnabled
  | some l =>
    let before := fun (k : Launch) => decide (l.record.prio < k.record.prio) ||
      (k.record.prio == l.record.prio && (decide (waitsSince s k < waitsSince s l) || (waitsSince s k == waitsSince s l && decide (k.seq < l.seq))))
    if s.reservation.isSome || !longWait s l || s.launches.any (fun k => before k && longWait s k) then .refused .notEnabled
    else match drainTarget s l with
      | none => .refused .notEnabled
      | some (c0, c1) => .next { s with reservation := some ⟨seq, gangNo l (restorable s l), c0, c1⟩ }

/-- A resident team under a reservation is still running at its deadline (R326). -/
def execTeamDeadline (seq gang : Nat) (s : State) : Result :=
  match s.reservation, findLaunch s seq with
  | some r, some l =>
    match l.placed.find? (fun a => a.gang == gang) with
    | none => .refused .notEnabled
    | some a =>
      if standsOn a r.cluster r.cluster2 && running s (l, a) && decide (deadline (l, a) ≤ nowUs s) then .next (beginSave l a s)
      else .refused .notEnabled
  | _, _ => .refused .notEnabled

/-! ### Priority (R382) -/

/-- Gangs of lower priority on clusters. -/
def lower (s : State) (l : Launch) (c : Nat × Option Nat) : List (Launch × Gang) :=
  (residents s).filter (fun e => decide (e.1.record.prio < l.record.prio) && standsOn e.2 c.1 c.2 && running s e)

/-- The clusters on which the gang fits once the fewest gangs of lower priority are gone. -/
def claimFor (s : State) (l : Launch) : Option (Nat × Option Nat) :=
  let v := restorable s l
  let fits := fun (c : Nat × Option Nat) =>
    (fitHere (without (fun e => (lower s l c).any (fun f => f.1.seq == e.1.seq && f.2.gang == e.2.gang)) s) l v c).isSome
  let ok := ((List.range 4).flatMap (clustersFor l v)).filter (fun c =>
    openTo s l (gangNo l v) c.1 && c.2.all (openTo s l (gangNo l v)) && (lower s l c).length != 0 && fits c)
  ok.foldl (fun b c => match b with
    | none => some c
    | some a => if (lower s l c).length < (lower s l a).length then some c else b) none

/-- Pre-empts those of a launch's victims whose time has come. -/
def saveVictims (vs : List (Launch × Gang)) (s : State) : State := vs.foldl (fun s e => beginSave e.1 e.2 s) s

/-- A waiting gang takes the place of gangs of lower priority (R382): it claims clusters, and its victims are saved at
their declared time, at once for priority 3. -/
def execPriorityPreemption (seq : Nat) (s : State) : Result :=
  match findLaunch s seq with
  | none => .refused .notEnabled
  | some l =>
    if !eligible s l || (choosePlan s l).isSome then .refused .notEnabled
    else match l.claim with
      | none =>
        match claimFor s l with
        | none => .refused .notEnabled
        | some c =>
          let s := modLaunch seq (fun l => { l with claim := some c }) s
          .next (if l.record.prio = 3 then saveVictims (lower s l c) s else s)
      | some c =>
        match (lower s l c).filter (fun e => decide (l.record.prio = 3) || decide (deadline e ≤ nowUs s)) with
        | [] => .refused .notEnabled
        | vs => .next (saveVictims vs s)

/-! ### Completion (R312, R381) -/

/-- Nothing of the launch is left on the device or saved, and nothing is to be placed. -/
def launchOver (s : State) (l : Launch) : Bool :=
  decide (l.record.ngang ≤ nextOf l) && l.placed == [] && !s.saved.any (fun v => v.launch == l.seq) && (!l.isStep || l.step.isNone)

/-- The `DONE` add (R381): the state after it, with cause and subcode of a fault; none while a peer has not answered it. -/
def doneAdd (seq eid : Nat) (va : DWord) (s : State) : Option Nat × State :=
  if va = 0 then (some 0, s)
  else match devPlace eid 0 va .write s with
    | (.mem pa, s) =>
      match memError s pa 8 with
      | some (c, sub) => (some (c + 256 * sub), s)
      | none =>
        let v := leNat (memRead s pa 8)
        let s := sliceTouch va pa 8 true false (note charonAgent eid 2 va (some pa) 8 s)
        (some (if v = 2 ^ 64 - 1 then 0x18 else 0), sliceRmw pa (leBytes 8 (min (v + 1) (2 ^ 64 - 1))) (newestWrite s) s)
    | (.peer leaf, s) =>
      if peerUp s (peerConn leaf) then
        let out := OutMsg.peerAccess s.fresh (peerConn leaf) (peerWindow leaf) (peerOffset leaf va) peerCount (leBytes 8 1)
        (none, sendAcc 0 0 (.peerDone seq) (note charonAgent eid 4 va none 8 { s with out := out :: s.out }))
      else (some 0x1808, s)
    | (.bad c sub, s) => (some (c + 256 * sub), s)
    | (_, s) => (some 0x0108, s)

/-- Writes back every dirty word of an engagement (R312). -/
def flushEngagement (eid : Nat) (s : State) : State :=
  (s.cores.map (·.1)).foldl (fun s c => writeBackAll c (fun l => l.eid == eid) s) s

/-- A launch whose `DONE` add has ended sends its report and makes its dependents eligible (R381 steps 2 and 3). -/
def reportLaunch (seq fault : Nat) (s : State) : State :=
  match findLaunch s seq with
  | none => s
  | some l =>
  let s := { s with out := .complete l.seq l.status l.terminated fault :: s.out }
  let s := modLaunch l.seq (fun l => { l with phase := .complete, doneFault := fault }) s
  let s := { s with reservation := s.reservation.filter (fun r => r.launch != l.seq), held := s.held.filter (fun r => r.launch != l.seq) }
  { s with launches := updateWhere (fun k => k.deps.contains l.seq) (fun k => { k with waitingSince := nowUs s }) s.launches }

/-- A launch completes with a status (R312, R381): its `DONE` add, then its report, at once or when a peer has answered the add. -/
def completeLaunch (l : Launch) (status : Nat) (s : State) : State :=
  let s := modLaunch l.seq (fun l => { l with phase := .adding, status := status, nextGang := l.record.ngang, claim := none }) (flushEngagement l.record.eng s)
  match doneAdd l.seq l.record.eng l.record.done s with
  | (some fault, s) => reportLaunch l.seq fault s
  | (none, s) => s

/-- A launch completes (R312, R381): it is over, or a launch it depends on failed and `FAILX` is 1. -/
def execLaunchCompletion (seq : Nat) (s : State) : Result :=
  match findLaunch s seq with
  | none => .refused .notEnabled
  | some l =>
    if l.phase ≠ .queued then .refused .notEnabled
    else if l.record.failx && depFailed s l && l.nextGang = 0 then .next (completeLaunch l 0x28 s)
    else if launchOver s l then .next (completeLaunch l l.status s)
    else .refused .notEnabled

/-- A saved team ends with cause 0x28: its record goes to the host, and its commands that have not begun count as failed (R323,
R324). -/
def killSaved (s : State) (v : SavedTeam) : State :=
  let s := match v.groups.head?, v.team.terminated with
    | some g, none => { s with out := .terminated (diagRecord { s with others := v.groups } g 0x28 0 g.pc) :: s.out }
    | _, _ => s
  v.seqs.flatten.foldl (fun s c => markFailed c s) s

/-- Ends a launch by its engagement's exit or on request (R420, R426): its teams end with cause 0x28, its saved gangs are
dropped, and nothing more of it is placed. -/
def killLaunch (l : Launch) (s : State) : State :=
  let tids := (s.teams.filter (fun t => t.launch == l.seq)).map (·.tid)
  let s := tids.foldl (fun s tid => match (allGroups s).find? (fun g => g.tid == tid) with
    | none => s
    | some g => if (findTeam s tid).any (fun t => t.terminated.isSome) then s else terminateTeam g 0x28 0 g.pc s) s
  let vs := (s.saved.filter (fun v => v.launch == l.seq && v.saved)).flatMap (·.teams)
  let s := vs.foldl killSaved { s with saved := s.saved.filter (fun v => !(v.launch == l.seq && v.saved)) }
  let gone := (vs.filter (fun v => v.team.terminated.isNone)).length
  modLaunch l.seq (fun l => { l with nextGang := l.record.ngang, terminated := l.terminated + gone, claim := none
                                     status := if l.status = 0 then 0x28 else l.status }) s

end Sys2Proof.Machine
end

