-- ==== Sys2Proof/Machine/Serving.lean ====
section
/-! DEFINITION. Serving: score adds, selection and compaction, sibling ballots, steps, cancel bits and the KV reserve
(R388 to R409). -/

namespace Sys2Proof.Machine

/-! ### SACC (R400) -/

/-- `ScoreQuant` (R400). -/
def scoreQuant (w : Nat) : Nat :=
  if isNaN fp32 w || decide (fp32Units w ≤ 0) then 0
  else if 0x3F800000 ≤ w then 2 ^ 24
  else
    let u := (fp32Units w).toNat
    let k := u / 2 ^ 125
    let r := u % 2 ^ 125
    if 2 ^ 124 < r || (r == 2 ^ 124 && k % 2 == 1) then k + 1 else k

/-- Bucket, `PPG` and bucket size of a `SACC`. -/
def saccBucket (x : Fields) : Nat := (x.e.extractLsb' 0 2).toNat
def saccPpg (x : Fields) : Nat := (x.e.extractLsb' 2 4).toNat
def bucketSize (b : Nat) : Nat := 2048 * 4 ^ b

/-- Operands of `SACC` (R399, R400). -/
def saccOk (g : Group) (x : Fields) : Bool :=
  !isLong x && isSPair x.a && isSrc x x.b && (isS x.c || (isV x.c && !x.u)) && decide (saccPpg x ≤ 10) &&
  regsOk g [(x.a, 2), (x.b, 1), (x.c, 1)]

/-- The strands of an instruction that is all or nothing (R69), without those that the resume index skips (R68). -/
def wholeStrands (g : Group) (x : Fields) : List Nat :=
  if x.u then (if holdsQ g x then [0] else []) else execList g x

/-- The word addresses and amounts of one strand (R400). -/
def saccAdds (g : Group) (x : Fields) (i : Nat) : List (DWord × Nat) :=
  let base := read64 g x i x.a
  let p := (read32 g x i x.b).toNat
  let q := scoreQuant (read32 g x i x.c).toNat
  [(base + BitVec.ofNat 64 (4 * p), q),
   (base + BitVec.ofNat 64 (4 * bucketSize (saccBucket x) + 4 * (p / 2 ^ saccPpg x)), q)]

/-- Checks every address of a `SACC` before any effect (R225, R399): the operations, or how it ends instead. -/
def saccPlaces (stamp : Nat) : List (DWord × Nat) → State → Option Access × List SliceReq × State
  | [], s => (none, [], s)
  | (va, q) :: t, s =>
    match resolve s.g va 4 .write true s with
    | (.mem pa, s) =>
      let s := flushWords (coreNo s.g) (pa / 64) s.g.eid 0 s
      match memError s pa 4 with
      | some (c, sub) => (some (.trap c sub (some va) s), [], s)
      | none =>
        let r := saccPlaces stamp t s
        (r.1, sliceReq r.2.2.g va pa stamp false (.score q) :: r.2.1, r.2.2)
    | (p, s) => (some (badPlace va 0 p s), [], s)

/-- Posts slice operations whose checks are done. -/
def postAll (rs : List SliceReq) (s : State) : State :=
  rs.foldl (fun s r => match slicePost r s with
    | .done _ s => s
    | _ => s) s

/-- `SACC` (R400). -/
def execSacc (x : Fields) (s : State) : Result :=
  need (saccOk s.g x) (wordTrap 0x02) s (
    let is := wholeStrands s.g x
    let far := is.find? (fun i => decide (bucketSize (saccBucket x) ≤ (read32 s.g x i x.b).toNat))
    if !x.u && is.any (fun i => badReg s.g i (x.b, 1) || badReg s.g i (x.c, 1)) then trapped ⟨0x20, 4, none, 0⟩ s
    else match far with
      | some i => trapped ⟨0x08, 0x16, some (zx64 (read32 s.g x i x.b)), 0⟩ s
      | none =>
        match saccPlaces s.g.carry (is.flatMap (saccAdds s.g x)) s with
        | (some a, _, _) => closeAccess (fun _ s => s) (0, 0, a)
        | (none, rs, s) =>
          let s := postAll rs s
          finish s.g s)

/-! ### Ranges that a group's serving operation reaches (R225, R229, R399) -/

/-- The accesses a group has posted perform and its core's lines of its engagement are written back and dropped, so
that the operation at the home slices follows them in program order (R229). -/
def settleOwn (s : State) : State :=
  let s := performWhere (postedBy s.g.gid) s
  let c := coreNo s.g
  ((coreAt s c).lines.filter (fun l => l.eid == s.g.eid)).foldl (fun s l => evictLine c l s) s

/-- Checks the pages of a range: how the instruction ends when one fails. -/
def rangeCheck (size : Nat) (acc : Acc) : List (DWord × Nat) → State → Option Access × State
  | [], s => (none, s)
  | (va, n) :: t, s =>
    match resolve s.g va size acc true s with
    | (.mem pa, s) =>
      match (if acc == .read then memError s pa n else none) with
      | some (c, sub) => (some (.trap c sub (some va) s), s)
      | none => rangeCheck size acc t s
    | (.zero, s) => rangeCheck size acc t s
    | (p, s) => (some (badPlace va 0 p s), s)

/-- Checks several ranges, each with its alignment and kind of access. -/
def rangesCheck : List (Nat × Acc × DWord × Nat) → State → Option Access × State
  | [], s => (none, s)
  | (size, acc, va, n) :: t, s =>
    match rangeCheck size acc (pagesOf va n) s with
    | (none, s) => rangesCheck t s
    | r => r

/-- The running group performs a serving operation. -/
def doerOf (g : Group) : Doer := ⟨g.gid, g.eid, g.die, agentOf g, g.carry⟩

/-- The core of a serving operation's group keeps no older clean words of what the operation has written (R302; DEDUCED, log
entry 118). -/
def doerLoses (d : Doer) (pa n : Nat) (s : State) : State :=
  match findGroup s d.gid with
  | none => s
  | some g => loseClean (coreNo g) d.eid pa n s

/-- The accesses of a serving operation to the home slices. -/
def doerMover (d : Doer) : Mover :=
  ⟨devPlace d.eid d.die, fun va pa n w s =>
    let s := if w then doerLoses d pa n s else s
    note d.agent d.eid (if w then 1 else 0) va (some pa) n (sliceTouch va pa n w false s)⟩

/-- Bytes of a range that has been checked. -/
def rangeRead (d : Doer) (va : DWord) (n : Nat) (s : State) : List Byte × State :=
  let r := readPages (doerMover d) (pagesOf va n) s
  (gotBytes n r.1, r.2)

/-- Writes a range that has been checked: relaxed writes of the group (R401, R402). -/
def rangeWrite (d : Doer) (va : DWord) (b : List Byte) (s : State) : State :=
  let s := (writePages (doerMover d) d.carry (pagesOf va b.length) b s).2
  let w := rangeWts s d.eid va b.length
  modAny d.gid (fun g => { g with gwts := max g.gwts w, gwtsTeam := max g.gwtsTeam w }) s

/-- The group waits for a serving operation, which counts in its team's outstanding count (R312, R399). -/
def awaitServing (op : ServingOp) (s : State) : State := countUp s.g.tid (setG { s.g with status := .waitServing op } s)

/-- Operands of `TOPK` and `KVPACK` (R399). -/
def quadOk (g : Group) (x : Fields) : Bool :=
  !isLong x && isS x.d && isSPair x.a && isS x.b && isSPair x.c && regsOk g [(x.d, 1), (x.a, 2), (x.b, 4), (x.c, 2)]

/-- Word `k` of the quad. -/
def quadWord (g : Group) (x : Fields) (k : Nat) : Nat := (sGet g (opIdx x.b + k)).toNat

/-! ### TOPK (R401) -/

/-- Position `q` comes before `p` among the rest: a higher score, or the same and a higher position. -/
def outranks (pos : List Nat) (q p : Nat) : Bool :=
  decide (nth 0 pos p < nth 0 pos q) || (nth 0 pos q == nth 0 pos p && decide (p < q))

/-- Whether each of `n` positions is kept (R401). -/
def keptOf (pos : List Nat) (n sink rec k : Nat) : List Bool :=
  let fixed := fun (p : Nat) => decide (p < sink) || decide (n ≤ p + rec)
  let rest := (List.range n).filter (fun p => !fixed p)
  (List.range n).map (fun p => fixed p || decide ((rest.filter (fun q => outranks pos q p)).length < k))

/-- Bytes of a list of bits, bit 0 of each byte first. -/
def bitBytes : List Bool → Nat → List Byte
  | _, 0 => []
  | l, k + 1 => BitVec.ofNat 8 (((List.range 8).map (fun j => if nth false l j then 2 ^ j else 0)).sum) :: bitBytes (l.drop 8) k

/-- Bit `p` of a bitmap. -/
def bitIn (b : List Byte) (p : Nat) : Bool := (nth 0 b (p / 8)).getLsbD (p % 8)

/-- `TOPK` (R401): the positions are read and the bitmap written; D follows when the operation completes. -/
def execTopk (x : Fields) (s : State) : Result :=
  need (quadOk s.g x) (wordTrap 0x02) s (
    if holdsQ s.g x then
      let n := quadWord s.g x 0
      let score := sPair s.g x.a
      let map := sPair s.g x.c
      if n = 0 || 131072 < n then trapped (wordTrap 0x02) s
      else match rangesCheck [(4, .read, score, 4 * n), (64, .write, map, 64 * ceilDiv n 512)] (settleOwn s) with
        | (some a, _) => closeAccess (fun _ s => s) (0, 0, a)
        | (none, s) =>
          let d := doerOf s.g
          let (b, s) := rangeRead d score (4 * n) s
          let kept := keptOf ((wordsOf b).map BitVec.toNat) n (quadWord s.g x 1) (quadWord s.g x 2) (quadWord s.g x 3)
          let s := rangeWrite d map (bitBytes kept (64 * ceilDiv n 512)) s
          .next (awaitServing (.topk (BitVec.ofNat 8 (opIdx x.d)) (kept.filter id).length) s)
    else finish s.g s)

/-- A serving operation ends: D is written and the group goes on, on the device or in its saved context (R383, R399). -/
def endServing (gid : Nat) (tid : Nat) (f : Group → Group) (s : State) : State :=
  let ended := fun (g : Group) => match g.status with
    | .waitServing _ => advance { f g with status := .ready }
    | _ => g
  let s := changeSaved tid (fun t => { t with groups := updateWhere (fun g => g.gid == gid) ended t.groups }) s
  settleTeam tid (countDown tid (modGroup gid ended s))

/-- A group on the device or saved. -/
def anyGroup (s : State) (gid : Nat) : Option Group := (findGroup s gid).or (savedGroup s gid)

/-- `TOPK` completes (R401). -/
def execTopkCompletion (gid : Nat) (s : State) : Result :=
  match anyGroup s gid with
  | none => .refused .notEnabled
  | some g =>
    match g.status with
    | .waitServing (.topk d v) => .next (endServing gid g.tid (fun g => sSet g d.toNat (BitVec.ofNat 32 v)) s)
    | _ => .refused .notEnabled

/-! ### Translations that end (R221) -/

/-- A line of an engagement lies in a range of its addresses, or holds dirty words, which a store may have written under another
address of the same frame. -/
def lineIn (eid : Nat) (va : DWord) (n : Nat) (l : Line) : Bool :=
  l.eid == eid && (l.dirty != 0 || (decide (va.toNat < l.va.toNat + 64) && decide (l.va.toNat < va.toNat + n)))

/-- Writes back and drops the lines of every core that satisfy `f`. -/
def dropLines (f : Line → Bool) (s : State) : State :=
  (s.cores.map (·.1)).foldl (fun s c => ((coreAt s c).lines.filter f).foldl (fun s l => evictLine c l s) s) s

/-- A TLB entry of an engagement meets a range. -/
def tlbIn (eid : Nat) (va : DWord) (n : Nat) (t : TlbEntry) : Bool :=
  t.eid == eid && decide (t.vpage * 2 ^ t.shift < va.toNat + n) && decide (va.toNat < (t.vpage + 1) * 2 ^ t.shift)

/-- A non-leaf entry that the walkers hold leads to a range. -/
def walkIn (eid : Nat) (va : DWord) (n : Nat) (w : WalkEntry) : Bool :=
  let shift := ((levels.find? (fun l => l.lev == w.lev)).map (·.shift)).getD 0
  w.eid == eid && decide (w.path * 2 ^ shift < va.toNat + n) && decide (va.toNat < (w.path + 1) * 2 ^ shift)

/-- A translation invalidation completes (R221): accesses that used an old translation have performed, and every TLB and
walker has dropped the entries of the range. -/
def invalidateRange (eid : Nat) (va : DWord) (n : Nat) (s : State) : State :=
  let old := fun (i : Instr) => match i with
    | .sliceOperation r => r.eid == eid && decide (va.toNat < r.va.toNat + 64) && decide (r.va.toNat < va.toNat + n)
    | _ => false
  walkersDrop (walkIn eid va n) (tlbDrop (tlbIn eid va n) (dropLines (lineIn eid va n) (performWhere old s)))

/-- Makes the level-0 leaf of a page invalid: the frame it named, unless it was a peer's (R402, R407). -/
def clearLeaf (eid : Nat) (va : DWord) (s : State) : Option Nat × State :=
  match walkFrom s (va.toNat % 2 ^ 56) levels (engOf s eid).root none with
  | .leaf e a 16 => ((if pteBit e 55 then none else some (pteAddr e / 65536)), sliceWrite a (leBytes 8 0) 0 s)
  | _ => (none, s)

/-- Makes the leaves of some pages invalid: the frames they named. -/
def clearPages (eid : Nat) : List DWord → State → List Nat × State
  | [], s => ([], s)
  | va :: t, s =>
    let (f, s) := clearLeaf eid va s
    let r := clearPages eid t s
    (f.toList ++ r.1, r.2)

/-- The addresses of `n` pages from an address on. -/
def pageRun (va : DWord) (n : Nat) : List DWord := (List.range n).map (fun k => va + BitVec.ofNat 64 (65536 * k))

/-- Makes the leaves of `n` pages from an address invalid: the frames they named. -/
def clearLeaves (eid n : Nat) (va : DWord) (s : State) : List Nat × State := clearPages eid (pageRun va n) s

/-- A frame, zeroed, goes to the engagement's free list of its die (R220, R402, R407). -/
def freeFrame (eid : Nat) (s : State) (f : Nat) : State :=
  let s := zeroRange (65536 * f) 65536 (dropLines (fun l => l.line / 1024 == f) s)
  let k := 4 * eid + f / framesOfDie
  { s with freeList := Sparse.set [] k (Sparse.get [] k s.freeList ++ [f]) s.freeList }

/-! ### Score tables and copies (R393 to R396) -/

/-- `SCORE` of a slot entry (R389). -/
def entryScore (e : List Byte) : DWord := BitVec.ofNat 64 (entryField e 16 8)

/-- Address of the byte of the residency bitmap for a page of a slot (R395). -/
def residencyAt (p : StepProgram) (slot page : Nat) : DWord :=
  let e := Sparse.get [] slot p.snap
  let cap := bucketOf p slot
  entryScore e + BitVec.ofNat 64 (4 * cap + 4 * (cap / 2 ^ entryPpg e) + page / 8)

/-- The store writes the bit of a copy in a residency bitmap (R393): the one that the slot had when the copy was made. -/
def setResidency (v : KvCopy) (on : Bool) (s : State) : State :=
  match readVa v.eid v.bitAt 1 s with
  | (.bytes b, s) => writeVaState v.eid v.bitAt [putBit (nth 0 b 0) (v.page % 8) on] s
  | (_, s) => s

/-- A copy, or a promotion under way, is discarded; the bit of a complete copy is cleared (R393, R396). -/
def discardCopy (s : State) (v : KvCopy) : State :=
  let s := { s with kv := s.kv.filter (fun w => !(w.eid == v.eid && w.slot == v.slot && w.page == v.page && w.place == v.place)) }
  if v.complete then setResidency v false s else s

/-- Discards the copies that satisfy `f`. -/
def discardCopies (f : KvCopy → Bool) (s : State) : State := (s.kv.filter f).foldl discardCopy s

/-! ### KVPACK (R402) -/

/-- The geometry word. -/
structure Geometry where
  logTb : Nat
  ppg : Nat
  bucket : Nat
  zeros : Bool

/-- Its fields. -/
def geometryOf (w : Nat) : Geometry := ⟨bitsAt w 4 0, bitsAt w 11 8, bitsAt w 13 12, bitsAt w 7 5 == 0 && bitsAt w 31 14 == 0⟩

/-- Values of the quad that raise cause 0x02 (R402). -/
def kvpackBad (n : Nat) (k : Geometry) : Bool :=
  decide (k.logTb < 6) || decide (16 < k.logTb) || decide (k.ppg + k.logTb ≠ 16) || !k.zeros || n == 0 ||
  decide (bucketSize k.bucket < n) || decide (2 ^ 26 < n * 2 ^ k.logTb)

/-- Pages of a range lie within the shared pages of a sibling group of the engagement (R402, R407). -/
def sharedIn (s : State) (eid : Nat) (base len : Nat) : Bool :=
  s.siblings.any (fun b => b.eid == eid && decide (0 < b.nsh) && (programOf s eid).any (fun p => b.holders.any (fun m =>
    let a := entryKv (Sparse.get [] m p.snap)
    decide (a < base + len) && decide (base < a + 65536 * b.nsh))))

/-- The tokens that move: each kept position with its new index. -/
def packMoves (keep : List Nat) : List (Nat × Nat) := ((keep.zip (List.range keep.length))).filter (fun e => e.1 != e.2)

/-- What a `KVPACK` reads and writes, each with its alignment. -/
def packRanges (base score : DWord) (n t : Nat) (k : Geometry) (moves : List (Nat × Nat)) : List (Nat × Acc × DWord × Nat) :=
  let tb := 2 ^ k.logTb
  let pp := 2 ^ k.ppg
  let at_ := fun (i : Nat) => base + BitVec.ofNat 64 (i * tb)
  let page := ceilDiv n pp
  [(4, Acc.read, score, 4 * (page * pp))] ++ (if t < n then [(4, Acc.write, score, 4 * n)] else []) ++
  [(4, Acc.write, score + BitVec.ofNat 64 (4 * bucketSize k.bucket), 4 * page)] ++
  moves.flatMap (fun e => [(4, Acc.read, at_ e.1, tb), (4, Acc.write, at_ e.2, tb)]) ++
  (if t % pp = 0 then [] else [(4, Acc.write, at_ t, (pp - t % pp) * tb)])

/-- The tokens of a compaction that move, and the 64-byte pieces of a token. -/
def tokensOf (k : Pack) : List (Nat × Nat) := packMoves k.keep
def piecesOf (k : Pack) : Nat := 2 ^ (geometryOf k.geo).logTb / 64

/-- Moves piece `k.moved` of the tokens, in ascending order of token and address. -/
def packPiece (k : Pack) (s : State) : State :=
  let tb := 2 ^ (geometryOf k.geo).logTb
  let m := nth (0, 0) (tokensOf k) (k.moved / piecesOf k)
  let off := 64 * (k.moved % piecesOf k)
  let (b, s) := rangeRead k.doer (k.base + BitVec.ofNat 64 (m.1 * tb + off)) 64 s
  rangeWrite k.doer (k.base + BitVec.ofNat 64 (m.2 * tb + off)) b s

/-- The position words behind a compaction: those of the kept positions, then zeros up to n (R402). -/
def packedPos (k : Pack) (pos : List Word) : List Word :=
  k.keep.map (nth 0 pos) ++ List.replicate (k.n - k.keep.length) 0 ++ pos.drop k.n

/-- The end of a compaction whose tokens have moved (R402): position and page words, zeros behind the last token, and the
pages behind it unmapped, but for those that a sibling group has come to share since its checks (R407; DEDUCED, log entry 133). -/
def packEnd (k : Pack) (s : State) : State :=
  let geo := geometryOf k.geo
  let tb := 2 ^ geo.logTb
  let pp := 2 ^ geo.ppg
  let t := k.keep.length
  let pages := ceilDiv k.n pp
  let (b, s) := rangeRead k.doer k.score (4 * (pages * pp)) s
  let pos := packedPos k (wordsOf b)
  let s := if t < k.n then rangeWrite k.doer k.score (bytesOfWords (pos.take k.n)) s else s
  let s := if t % pp = 0 then s else rangeWrite k.doer (k.base + BitVec.ofNat 64 (t * tb)) (List.replicate ((pp - t % pp) * tb) 0) s
  let sums := (List.range pages).map (fun j => min (((pos.drop (j * pp)).take pp).map BitVec.toNat).sum (2 ^ 32 - 1))
  let s := rangeWrite k.doer (k.score + BitVec.ofNat 64 (4 * bucketSize geo.bucket)) (sums.flatMap (leBytes 4)) s
  let eid := k.doer.eid
  let first := ceilDiv t pp
  let behind := (pageRun (k.base + BitVec.ofNat 64 (65536 * first)) (pages - first)).filter (fun va => !sharedIn s eid va.toNat 65536)
  let (frames, s) := clearPages eid behind s
  let s := invalidateRange eid k.base (k.n * tb) s
  let s := discardCopies (fun v => v.eid == eid && frames.contains v.frame) s
  frames.foldl (freeFrame eid) s

/-- `KVPACK` (R402): its checks. Its effects on memory follow piece by piece, D when they have all been performed. -/
def execKvpack (x : Fields) (s : State) : Result :=
  need (quadOk s.g x) (wordTrap 0x02) s (
    if holdsQ s.g x then
      let base := sPair s.g x.a
      let score := pair64 (sGet s.g (opIdx x.b)) (sGet s.g (opIdx x.b + 1))
      let n := quadWord s.g x 2
      let k := geometryOf (quadWord s.g x 3)
      let map := sPair s.g x.c
      let tb := 2 ^ k.logTb
      if kvpackBad n k then trapped (wordTrap 0x02) s
      else if base.toNat % 65536 ≠ 0 then trapped ⟨0x0B, 0, some base, 0⟩ s
      else if sharedIn s s.g.eid base.toNat (n * tb) then trapped ⟨0x09, 5, some base, 0⟩ s
      else match rangesCheck [(64, .read, map, ceilDiv n 8)] (settleOwn s) with
        | (some a, _) => closeAccess (fun _ s => s) (0, 0, a)
        | (none, s) =>
          let d := doerOf s.g
          let (b, s) := rangeRead d map (ceilDiv n 8) s
          let keep := (List.range n).filter (bitIn b)
          match rangesCheck (packRanges base score n keep.length k (packMoves keep)) s with
          | (some a, _) => closeAccess (fun _ s => s) (0, 0, a)
          | (none, s) =>
            let pack : Pack := ⟨d, s.g.tid, base, score, n, quadWord s.g x 3, keep, 0⟩
            .next (awaitServing (.kvpack (BitVec.ofNat 8 (opIdx x.d)) keep.length) { s with packs := s.packs ++ [pack] })
    else finish s.g s)

/-- What the end of a `KVPACK` gives its group: the new length in D. -/
def packAnswer (g : Group) : Group :=
  match g.status with
  | .waitServing (.kvpack d v) => sSet g d.toNat (BitVec.ofNat 32 v)
  | _ => g

/-- `KVPACK` goes on: its next piece, and behind the last one its end, which gives its group D (R402). A termination of its
team does not cut it short. -/
def execKvpackCompletion (gid : Nat) (s : State) : Result :=
  match s.packs.find? (fun k => k.doer.gid == gid) with
  | none => .refused .notEnabled
  | some k =>
    if k.moved < (tokensOf k).length * piecesOf k then
      .next (packPiece k { s with packs := updateWhere (fun j => j.doer.gid == gid) (fun j => { j with moved := j.moved + 1 }) s.packs })
    else
      .next (endServing gid k.tid packAnswer (packEnd k { s with packs := s.packs.filter (fun j => j.doer.gid != gid) }))

/-! ### Messages to Halley (R399, R403, R404, R408) -/

/-- A message of the running group. -/
def halleyReq (s : State) (w0 w1 : DWord) (sel : Nat) : HalleyReq := ⟨s.g.gid, s.g.eid, slotOf? s s.g, w0, w1, sel⟩

/-- Sends a message; the group waits for the answer in D. -/
def toHalley (i : Instr) (d : Opnd) (pair : Bool) (s : State) : State :=
  awaitServing (.halley (BitVec.ofNat 8 (opIdx d)) pair) { s with pending := s.pending ++ [i] }

/-- `BREG` (R403). -/
def execBreg (x : Fields) (s : State) : Result :=
  need (!isLong x && isS x.d && isSPair x.a && isSPair x.b && regsOk s.g [(x.d, 1), (x.a, 2), (x.b, 2)]) (wordTrap 0x02) s
    (if holdsQ s.g x then
      .next (toHalley (.halleyRegistration (halleyReq s (sPair s.g x.a) (sPair s.g x.b) 0)) x.d false s)
    else finish s.g s)

/-- `BPOST` (R404): a release at `.pkg`, then the post. -/
def execBpost (x : Fields) (s : State) : Result :=
  need (isS x.d && isSPair x.a && regsOk s.g [(x.d, 1), (x.a, 2)]) (wordTrap 0x02) s
    (if holdsQ s.g x then
      let r := releaseAll s.g.gid 3 s
      let s := modGroup r.2.g.gid (fun g => { g with carry := max g.carry r.1 }) r.2
      .next (toHalley (.halleyPost (halleyReq s (sPair s.g x.a) 0 0)) x.d false s)
    else finish s.g s)

/-- `BSTAT` (R408). -/
def execBstat (x : Fields) (s : State) : Result :=
  need (isSPair x.d && (isS x.a || isShort x.a) && regsOk s.g [(x.d, 2), (x.a, 1)]) (wordTrap 0x02) s
    (if holdsQ s.g x then
      .next (toHalley (.halleyStatusRead (halleyReq s (zx64 (read32 s.g x 0 x.a)) 0 (x.e.extractLsb' 0 2).toNat)) x.d true s)
    else finish s.g s)

/-- An answer starts back (R404). -/
def answer (gid : Nat) (v : DWord) (s : State) : State := { s with pending := s.pending ++ [.halleyAnswer gid v] }

/-- An answer arrives: D is written and the group goes on, unless its team has ended (R399, R404). -/
def execHalleyAnswer (gid : Nat) (v : DWord) (s : State) : Result :=
  match anyGroup s gid with
  | none => .next s
  | some g =>
    let put := fun (g' : Group) => match g.status with
      | .waitServing (.halley d true) => sSets g' d.toNat (words64 v)
      | .waitServing (.halley d false) => sSet g' d.toNat (lo32 v)
      | _ => g'
    .next (endServing gid g.tid put s)

/-! ### Ballots (R403 to R409) -/

/-- Slots of the members of a group. -/
def membersOf (b : Sibling) : List Nat := (bitsOf 64 b.members).map (· + b.base)

/-- The group of a slot (R403). -/
def siblingOf (s : State) (eid slot : Nat) : Option Sibling :=
  s.siblings.find? (fun b => b.eid == eid && (membersOf b).contains slot)

/-- Changes a group. -/
def modSibling (gid : Nat) (f : Sibling → Sibling) (s : State) : State :=
  { s with siblings := updateWhere (fun b => b.gid == gid) f s.siblings }

/-- Start state of a slot in the engagement's current step; a slot no step has read is inactive (R390). -/
def startOf (p : StepProgram) (slot : Nat) : Nat := Sparse.get 1 slot p.start

/-- Conditions of status 3 (R403). -/
def bregBad (s : State) (r : HalleyReq) : Bool :=
  let lo := (lo32 r.w1).toNat
  let hi := (hi32 r.w1).toNat
  let base := bitsAt lo 12 0
  let ms := (bitsOf 64 r.w0).map (· + base)
  let q := bitsAt lo 22 16
  match programOf s r.eid with
  | none => true
  | some p => ms == [] || q == 0 || decide (ms.length < q) || ms.any (fun m => decide (p.nslot ≤ m)) ||
      decide (base % 64 ≠ 0) || decide (bitsAt lo 15 13 ≠ 0) || decide (bitsAt lo 31 23 ≠ 0) || decide (bitsAt hi 31 16 ≠ 0)

/-- The snapshot of the engagement's current step, if there is one, finds a member inactive or rejected (R406). -/
def outAlready (s : State) (eid m : Nat) : Bool :=
  (programOf s eid).any (fun p => decide (0 < p.steps) && (startOf p m == 1 || startOf p m == 2))

/-- Free ids of `Halley`'s table. -/
def freeSiblings (s : State) : List Nat := (List.range 512).filter (fun k => !s.siblings.any (fun b => b.gid == k))

/-- Posts of a hash. -/
def countOf_ (b : Sibling) (h : DWord) : Nat := (b.posts.filter (fun p => p.hash == h)).length

/-- The last post of a hash (R406). -/
def lastOf (b : Sibling) (h : DWord) : Nat := ((b.posts.filter (fun p => p.hash == h)).map (·.order)).foldl max 0

/-- The winner by plurality (R406): most posts, then the earliest last post. -/
def pluralWinner (b : Sibling) : Option DWord :=
  (b.posts.map (·.hash)).foldl (fun w h => match w with
    | none => some h
    | some k => if countOf_ b k < countOf_ b h || (countOf_ b k == countOf_ b h && decide (lastOf b h < lastOf b k)) then some h else w) none

/-- Sets the cancel bit of a slot, and sends it to the cores of its team (R391, R404); one that is set already keeps the time by
which it arrives. -/
def cancelSlot (eid : Nat) (s : State) (slot : Nat) : State :=
  let s := modProgram eid (fun p => { p with cancel := if p.cancel.contains slot then p.cancel else slot :: p.cancel
                                             cancelDue := if p.cancel.contains slot then p.cancelDue else Sparse.set 0 slot (s.sc + 320) p.cancelDue }) s
  { s with pending := s.pending ++ [.cancelBitDelivery eid slot] }

/-- A cancel bit on its way must have reached its cores (R404). -/
def cancelIsDue (s : State) (eid slot : Nat) : Bool :=
  (programOf s eid).any (fun p => decide (Sparse.get 0 slot p.cancelDue ≤ s.sc))

/-- The current step of an engagement's program. -/
def stepNo (s : State) (eid : Nat) : Nat :=
  match programOf s eid with
  | none => 0
  | some p => p.steps

/-- Decide (R404): cancels every member that has neither posted nor abstained. -/
def decideBy (b : Sibling) (h : DWord) (s : State) : State :=
  let cs := (membersOf b).filter (fun m => !b.posts.any (fun p => p.slot == m) && !b.abstained.contains m)
  let s := modSibling b.gid (fun b => { b with decided := true, winner := some h, dstep := stepNo s b.eid, cancelled := cs }) s
  cs.foldl (cancelSlot b.eid) s

/-- Every member has posted or abstained without a decision: plurality, with no cancellations (R406). -/
def decidePlural (gid : Nat) (s : State) : State :=
  modSibling gid (fun b =>
    if !b.decided && (membersOf b).all (fun m => b.posts.any (fun p => p.slot == m) || b.abstained.contains m) then
      { b with decided := true, plural := true, winner := pluralWinner b, dstep := stepNo s b.eid }
    else b) s

/-- `Halley` handles a registration (R403): conditions in the order 3, 2, 1. -/
def execHalleyRegistration (r : HalleyReq) (s : State) : Result :=
  let lo := (lo32 r.w1).toNat
  let base := bitsAt lo 12 0
  let ms := (bitsOf 64 r.w0).map (· + base)
  if bregBad s r then .next (answer r.group (BitVec.ofNat 64 (3 * 2 ^ 24)) s)
  else match ms.find? (fun m => (siblingOf s r.eid m).isSome) with
    | some m => .next (answer r.group (BitVec.ofNat 64 (2 * 2 ^ 24 + m)) s)
    | none =>
      match freeSiblings s with
      | [] => .next (answer r.group (BitVec.ofNat 64 (2 ^ 24)) s)
      | f :: fs =>
        let gid := nth f (f :: fs) (Config.pickSibling s.ctr % (fs.length + 1))
        let b : Sibling := { gid := gid, eid := r.eid, members := r.w0, base := base, q := bitsAt lo 22 16
                             nsh := bitsAt (hi32 r.w1).toNat 15 0, posts := [], abstained := ms.filter (outAlready s r.eid)
                             decided := false, plural := false
                             winner := none, dstep := 0, cancelled := [], stpx := 0, tokx := 0, accDecided := false
                             holders := ms.filter (fun m => (programOf s r.eid).any (fun p => startOf p m == 0)), frames := [] }
        .next (answer r.group (BitVec.ofNat 64 gid) (decidePlural gid { s with siblings := s.siblings ++ [b], ctr := s.ctr + 1 }))

/-- `Halley` handles a post (R404). -/
def execHalleyPost (r : HalleyReq) (s : State) : Result :=
  match r.slot.bind (siblingOf s r.eid), r.slot with
  | some b, some slot =>
    if b.decided then .next (answer r.group 2 s)
    else if b.posts.any (fun p => p.slot == slot) then .next (answer r.group 3 s)
    else
      let b := { b with posts := b.posts ++ [⟨slot, r.w0, s.posts⟩] }
      let s := modSibling b.gid (fun _ => b) { s with posts := s.posts + 1 }
      let c := countOf_ b r.w0
      if c = b.q then .next (answer r.group (BitVec.ofNat 64 (1 + 256 * c)) (decideBy b r.w0 s))
      else .next (answer r.group (BitVec.ofNat 64 (256 * c)) (decidePlural b.gid s))
  | _, _ => .next (answer r.group 4 s)

/-- What a status read answers (R408). What the manual gives no value for is free: the decision of an undecided group
and the hash of a group with no winner. -/
def bstatValue (s : State) (b : Sibling) (sel : Nat) : DWord :=
  let open_ := Config.undecided s.ctr
  match sel with
  | 0 => BitVec.ofNat 64 ((if b.decided then 1 else 0) + (if b.decided && b.winner.isNone then 2 else 0) + (if b.plural then 4 else 0) +
      256 * b.q + 65536 * b.posts.length + 2 ^ 32 * (membersOf b).length)
  | 1 => b.winner.getD open_
  | 2 => if b.decided then BitVec.ofNat 64 (b.dstep % 2 ^ 32 + 2 ^ 32 * b.cancelled.length) else open_
  | _ => BitVec.ofNat 64 (b.tokx % 2 ^ 32 + 2 ^ 32 * (b.stpx % 2 ^ 32))

/-- `Halley` handles a status read (R408). -/
def execHalleyStatusRead (r : HalleyReq) (s : State) : Result :=
  match s.siblings.find? (fun b => b.gid == r.w0.toNat && b.eid == r.eid) with
  | none => .next (answer r.group (BitVec.allOnes 64) s)
  | some b => .next (answer r.group (bstatValue s b r.sel) { s with ctr := s.ctr + 1 })

/-- A cancel bit reaches the cores that run teams of the slot (R391, R404). -/
def execCancelBitDelivery (eid slot : Nat) (s : State) : Result :=
  if (programOf s eid).any (fun p => p.cancel.contains slot) then
    let mine := fun (t : Team) => t.eid == eid && t.gang == slot && (findLaunch s t.launch).any (·.isStep)
    let ts := (s.teams ++ s.saved.flatMap (fun v => v.teams.map (·.team))).filter mine
    .next (ts.foldl (fun s t => modTeam t.tid (fun t => { t with cancel := true }) s) s)
  else .next s

/-! ### The KV reserve (R338, R393 to R398) -/

/-- The holding slice of a frame (R393). -/
def holdingSlice (s : State) (f : Nat) : Nat := homeSlice (65536 * f) (frameOf s (65536 * f)).intlv

/-- The places for copies in a slice: 48 in each KV-reserve way-group (R344, R394). -/
def kvPlaces (s : State) (slice : Nat) : List Nat :=
  ((List.range 16).filter (fun w => (wgOf s slice w).role == 2 && !(wgOf s slice w).busy)).flatMap
    (fun w => (List.range 48).map (fun k => 48 * (16 * slice + w) + k))

/-- A page that a slot wants: its tier, page word, engagement, slot, page and frame. -/
structure Want where
  tier : Nat
  word : Nat
  eid : Nat
  slot : Nat
  page : Nat
  frame : Nat
  deriving DecidableEq, Repr

/-- A page word (R395), read as the store reads it. -/
def pageWord (s : State) (eid : Nat) (p : StepProgram) (slot j : Nat) : Nat :=
  let e := Sparse.get [] slot p.snap
  match mappedAt s eid (entryScore e + BitVec.ofNat 64 (4 * bucketOf p slot + 4 * j)) with
  | none => 0
  | some pa => leNat (memRead s pa 4)

/-- Puts an element in its place in a list ordered by `f`. -/
def insertBy {α : Type} (f : α → α → Bool) (a : α) : List α → List α
  | [] => [a]
  | b :: t => if f a b then a :: b :: t else b :: insertBy f a t

/-- Orders a list by `f`. -/
def sortBy {α : Type} (f : α → α → Bool) (l : List α) : List α := l.foldl (fun t a => insertBy f a t) []

/-- The wanted list of a run slot (R394): tier and page. Sinks and recent pages are those below npg. -/
def wantedPages (s : State) (eid : Nat) (p : StepProgram) (slot : Nat) : List (Nat × Nat) :=
  let e := Sparse.get [] slot p.snap
  let npg := ceilDiv (entryField e 4 4) (2 ^ entryPpg e)
  let sink := min (entryField e 26 1) npg
  let rec_ := npg - entryField e 27 1
  let word := pageWord s eid p slot
  let recent := ((List.range npg).filter (fun j => decide (sink ≤ j) && decide (rec_ ≤ j))).reverse
  let rest := (List.range npg).filter (fun j => decide (sink ≤ j) && decide (j < rec_))
  let rest := sortBy (fun a b => decide (word b < word a) || (word a == word b && decide (b < a))) rest
  (((List.range sink).map (fun j => (0, j))) ++ recent.map (fun j => (1, j)) ++ rest.map (fun j => (2, j))).take (entryField e 24 2)

/-- The pages wanted by an engagement's slots, with their frames. -/
def wantsOf (s : State) (e : Nat × StepProgram) : List Want :=
  ((List.range e.2.nslot).filter (fun k => startOf e.2 k == 0)).flatMap (fun k => (wantedPages s e.1 e.2 k).filterMap (fun w =>
    (mappedAt s e.1 (BitVec.ofNat 64 (entryKv (Sparse.get [] k e.2.snap) + 65536 * w.2))).map (fun pa =>
      ⟨w.1, pageWord s e.1 e.2 k w.2, e.1, k, w.2, pa / 65536⟩)))

/-- The rank of R394; engagements break a tie that is left. -/
def wantBefore (a b : Want) : Bool :=
  if a.tier ≠ b.tier then decide (a.tier < b.tier)
  else if a.word ≠ b.word then decide (b.word < a.word)
  else if a.slot ≠ b.slot then decide (a.slot < b.slot)
  else if a.page ≠ b.page then decide (b.page < a.page)
  else decide (a.eid < b.eid)

/-- A copy is that of a wanted page. -/
def copyOf (w : Want) (v : KvCopy) : Bool := v.eid == w.eid && v.slot == w.slot && v.page == w.page && v.frame == w.frame

/-- The pages that the slices admit, in rank order (R394). -/
def admitted (s : State) : List Want :=
  let ws := sortBy wantBefore (s.programs.flatMap (wantsOf s))
  (List.range 128).flatMap (fun sl => (ws.filter (fun w => holdingSlice s w.frame == sl)).take (kvPlaces s sl).length)

/-- The copies of admitted pages in rank order: those held, and one at a free place for every other page. -/
def admitCopies (s : State) : List Want → List KvCopy → List KvCopy
  | [], l => l
  | w :: t, l =>
    match s.kv.find? (copyOf w) with
    | some v => admitCopies s t (l ++ [v])
    | none =>
      let used := (s.kv ++ l).map (·.place)
      let place := ((kvPlaces s (holdingSlice s w.frame)).find? (fun k => !used.contains k)).getD 0
      admitCopies s t (l ++ [⟨w.eid, w.slot, w.page, w.frame, false, place, 0, []⟩])

/-- Reconciles the reserve at the start of a step (R394): copies not admitted are discarded, the others wait in rank order. -/
def reconcile (s : State) : State :=
  let ws := admitted s
  let s := discardCopies (fun v => !ws.any (fun w => copyOf w v)) s
  { s with kv := admitCopies s ws [] }

/-- The next promotion of a slice, in rank order. -/
def nextPromotion (s : State) (eid slot page : Nat) : Option KvCopy :=
  match s.kv.find? (fun v => v.eid == eid && v.slot == slot && v.page == page && !v.complete) with
  | none => none
  | some v => if (s.kv.find? (fun w => !w.complete && holdingSlice s w.frame == holdingSlice s v.frame)) == some v then some v else none

/-- The way-group of a copy's place is leaving its role: it takes no new copy (R344). -/
def leaving (s : State) (v : KvCopy) : Bool := (wgOf s (v.place / 48 / 16) (v.place / 48 % 16)).busy

/-- A promotion completes: the copy serves the page and its bit is set (R393). -/
def execKvPromotionDone (eid slot page : Nat) (s : State) : Result :=
  match nextPromotion s eid slot page with
  | none => .refused .notEnabled
  | some v =>
    if leaving s v || (memError s (65536 * v.frame) 65536).isSome then .refused .notEnabled
    else match programOf s eid with
      | none => .refused .notEnabled
      | some p =>
        let done := { v with complete := true, bitAt := residencyAt p slot page, bad := [] }
        .next (setResidency done true { s with kv := updateWhere (· == v) (fun _ => done) s.kv })

/-- A run slot's KV range maps a frame (R397). -/
def mapsFrame (s : State) (eid : Nat) (p : StepProgram) (f slot : Nat) : Bool :=
  let e := Sparse.get [] slot p.snap
  startOf p slot == 0 && (List.range (bucketOf p slot / 2 ^ entryPpg e)).any (fun j =>
    (mappedAt s eid (BitVec.ofNat 64 (entryKv e + 65536 * j))).any (fun pa => pa / 65536 == f))

/-- A read for a promotion finds poison or a tag failure (R397). -/
def execKvPromotionFailure (eid slot page : Nat) (s : State) : Result :=
  match nextPromotion s eid slot page with
  | none => .refused .notEnabled
  | some v =>
    if (memError s (65536 * v.frame) 65536).isNone then .refused .notEnabled
    else
      let hits := s.programs.map (fun e => (e.1, (List.range e.2.nslot).filter (mapsFrame s e.1 e.2 v.frame)))
      let blocks := ((List.range 1024).map (· + 1024 * v.frame)).filter (fun b => !s.poison.contains b)
      let s := { s with kv := s.kv.filter (· != v), poison := blocks ++ s.poison }
      .next (hits.foldl (fun s h =>
        let s := modProgram h.1 (fun p => { p with failed := h.2.filter (fun k => !p.failed.contains k) ++ p.failed }) s
        h.2.foldl (cancelSlot h.1) s) s)

/-! ### Steps (R388 to R391, R406, R407, R409) -/

/-- The reading of one slot entry; an entry that cannot be read is inactive. -/
def readEntry (eid : Nat) (tab : DWord) (k : Nat) (s : State) : List Byte × State :=
  match readVa eid (tab + BitVec.ofNat 64 (64 * k)) 64 s with
  | (.bytes b, s) => (b, s)
  | (_, s) => (List.replicate 64 0, s)

/-- Reads every slot entry, in ascending order (R390). -/
def readEntries (eid : Nat) (tab : DWord) : List Nat → State → List (List Byte) × State
  | [], s => ([], s)
  | k :: t, s =>
    let (e, s) := readEntry eid tab k s
    let r := readEntries eid tab t s
    (e :: r.1, r.2)

/-- A condition of rejection (R389, R390). -/
def entryRejected (p : StepProgram) (k : Nat) (e : List Byte) : Bool :=
  decide (bucketOf p k < entryField e 4 4) || decide (10 < entryPpg e) || decide (entryKv e % 65536 ≠ 0) ||
  decide (entryField e 16 8 % 64 ≠ 0) || decide (bitsAt (entryField e 0 4) 31 5 ≠ 0) || (e.drop 32).any (· != 0)

/-- The start state of a slot (R390). -/
def startState (p : StepProgram) (k : Nat) (e : List Byte) : Nat :=
  if entryField e 0 4 % 2 = 0 then 0x01
  else if entryRejected p k e then 0x02
  else if p.cancel.contains k then 0x28
  else 0x00

/-- A snapshot entry (R390); the end status of a slot that is not run is its start state (R391). -/
def snapshotOf (e : List Byte) (step st bgid : Nat) : List Byte :=
  e.take 32 ++ leBytes 4 (step % 2 ^ 32) ++ leBytes 4 (st + 256 * st) ++ leBytes 4 bgid ++ List.replicate 20 0

/-- Members of a group that a step boundary leaves without their shared pages (R407): their entries are invalidated, and
the frames wait for the last holder. `old` are the slot entries they held them under. -/
def stopHolding (b : Sibling) (old : Sparse (List Byte)) (s : State) (m : Nat) : State :=
  let base : DWord := BitVec.ofNat 64 (entryKv (Sparse.get [] m old))
  let (fs, s) := clearLeaves b.eid b.nsh base s
  let s := invalidateRange b.eid base (65536 * b.nsh) s
  modSibling b.gid (fun b => { b with frames := b.frames ++ fs.filter (fun f => !b.frames.contains f)
                                      holders := b.holders.filter (· != m) }) s

/-- Adds to an accounting counter of an engagement (R409). -/
def bump (eid k n : Nat) (s : State) : State :=
  let e := engOf s eid
  { s with engs := Sparse.set Engagement.free eid { e with acct := e.acct.set k (nth 0 e.acct k + n) } s.engs }

/-- A decision enters the engagement's accounting once (R409). -/
def countDecision (s : State) (b : Sibling) : State :=
  if b.accDecided then s else bump b.eid 1 b.cancelled.length (bump b.eid 0 1 s)

/-- A sibling group at a step boundary (R406, R407): abstentions, holders, frames and the freeing of the group. -/
def boundary (eid : Nat) (old : Sparse (List Byte)) (st : Nat → Nat) (s : State) (gid : Nat) : State :=
  match s.siblings.find? (fun b => b.gid == gid) with
  | none => s
  | some b =>
    let ms := membersOf b
    let out := ms.filter (fun m => (st m == 1 || st m == 2) && !b.posts.any (fun p => p.slot == m) && !b.abstained.contains m)
    let s := decidePlural gid (modSibling gid (fun b => { b with abstained := b.abstained ++ (if b.decided then [] else out) }) s)
    let s := (b.holders.filter (fun m => st m != 0)).foldl (stopHolding b old) s
    let s := modSibling gid (fun b => { b with holders := ms.filter (fun m => st m == 0) }) s
    let s := match s.siblings.find? (fun b => b.gid == gid) with
      | none => s
      | some b =>
        if b.holders = [] then modSibling gid (fun b => { b with frames := [] }) (b.frames.foldl (freeFrame eid) s) else s
    if ms.all (fun m => st m == 1) then
      let s := ((s.siblings.find? (fun b => b.gid == gid)).filter (·.decided)).elim s (countDecision s)
      { s with siblings := s.siblings.filter (fun b => b.gid != gid) }
    else s

/-- Writes the snapshot entries (R390). -/
def writeSnapshots (eid : Nat) (p : StepProgram) (step : Nat) : List (Nat × List Byte × Nat) → State → State
  | [], s => s
  | (k, e, st) :: t, s =>
    let bgid := ((siblingOf s eid k).map (·.gid)).getD 0xFFFFFFFF
    writeSnapshots eid p step t
      (writeVaState eid (p.snapTab + BitVec.ofNat 64 (64 * k)) (snapshotOf e step st bgid) s)

/-- The launch is a step that may start: none of its engagement is in progress and none comes before it. -/
def mayStart (s : State) (l : Launch) : Bool :=
  let fresh := fun (k : Launch) => k.isStep && k.step.isNone && k.phase == .queued && k.nextGang == 0 && k.endedGangs == [] &&
    depsDone s k && !(k.record.failx && depFailed s k)
  fresh l && !s.launches.any (fun k => k.record.eng == l.record.eng && k.isStep && k.phase != .complete &&
    (k.step.isSome || (k.seq != l.seq && launchOver s k))) &&
  !s.launches.any (fun k => k.record.eng == l.record.eng && fresh k && decide (placeKey s k < placeKey s l))

/-- A step starts (R390): entries are read, ballots and shared pages reach the boundary, the snapshot is written, and the
reserve reconciles. -/
def execStepStart (seq : Nat) (s : State) : Result :=
  match findLaunch s seq with
  | none => .refused .notEnabled
  | some l =>
    let eid := l.record.eng
    match programOf s eid with
    | none => .refused .notEnabled
    | some p =>
      if !mayStart s l then .refused .notEnabled
      else
        let ks := List.range p.nslot
        let (es, s) := readEntries eid p.slotTab ks s
        let rows := (ks.zip es).map (fun e => (e.1, e.2, startState p e.1 e.2))
        let start := Sparse.setAll 1 (rows.map (fun e => (e.1, e.2.2))) []
        let idle := (rows.filter (fun e => e.2.2 == 1)).map (·.1)
        let s := modProgram eid (fun p =>
          { p with steps := p.steps + 1, start := start, snap := rows.map (fun e => (e.1, e.2.1))
                   cancel := p.cancel.filter (fun k => !idle.contains k), took := [], failed := [] }) s
        let gids := (s.siblings.filter (fun b => b.eid == eid)).map (·.gid)
        let s := gids.foldl (boundary eid p.snap (fun k => Sparse.get 1 k start)) s
        let s := writeSnapshots eid p (p.steps + 1) rows s
        let s := reconcile s
        .next (modLaunch seq (fun l => { l with step := some (p.steps + 1), waitingSince := nowUs s
                                                endedGangs := (rows.filter (fun e => e.2.2 != 0)).map (·.1) }) s)

/-- The end status of a slot (R391). -/
def endStatus (p : StepProgram) (k : Nat) : Nat :=
  if startOf p k ≠ 0 then startOf p k
  else if p.failed.contains k then 0x21
  else if p.cancel.contains k && p.took.contains k then 0x28
  else 0x00

/-- Writes the end status of each run slot (R391). -/
def writeEnds (eid : Nat) (p : StepProgram) : List Nat → State → State
  | [], s => s
  | k :: t, s => writeEnds eid p t
      (writeVaState eid (p.snapTab + BitVec.ofNat 64 (64 * k + 37)) [BitVec.ofNat 8 (endStatus p k)] s)

/-- The counts of a decided group at a step's end (R409). -/
def countGroup (p : StepProgram) (s : State) (b : Sibling) : State :=
  let ran := b.cancelled.filter (fun m => startOf p m == 0)
  let tok := ran.filter (fun m => endStatus p m == 0)
  let s := modSibling b.gid (fun b => { b with stpx := b.stpx + ran.length, tokx := b.tokx + tok.length, accDecided := true }) s
  let s := countDecision s b
  bump b.eid 3 ran.length (bump b.eid 2 tok.length s)

/-- A step completes (R391, R409): its gangs are over; end statuses are written and the ballots counted. -/
def execStepCompletion (seq : Nat) (s : State) : Result :=
  match findLaunch s seq with
  | none => .refused .notEnabled
  | some l =>
    let eid := l.record.eng
    match programOf s eid with
    | none => .refused .notEnabled
    | some p =>
      if l.step.isNone || !launchOver s { l with step := none } then .refused .notEnabled
      else
        let s := writeEnds eid p ((List.range p.nslot).filter (fun k => startOf p k == 0)) s
        let s := modProgram eid (fun p => { p with ends := Sparse.setAll 0 ((List.range p.nslot).map (fun k => (k, endStatus p k))) [] }) s
        let s := (s.siblings.filter (fun b => b.eid == eid && b.decided)).foldl (countGroup p) s
        .next (modLaunch seq (fun l => { l with step := none }) s)

end Sys2Proof.Machine
end

