-- ==== Sys2Proof/Machine/Die.lean ====
section
/-! DEFINITION. The store's way-groups, refresh and scrubbing, soft errors, the vertical buses, power and heat, the sealed log, the
link and the start-up phases (R222, R272, R341 to R346, R354 to R360, R414, R428 to R431, R433 to R436). -/

namespace Sys2Proof.Machine

/-- Sc in a µs, in a ms (R6). -/
def scUs : Nat := 1400
def scMs : Nat := 1400000

/-! ### Role changes (R342 to R345) -/

/-- Changes the register of a way-group. -/
def modWg (slice wg : Nat) (f : WgCfg → WgCfg) (s : State) : State :=
  { s with wgcfg := Sparse.set WgCfg.reset (16 * slice + wg) (f (wgOf s slice wg)) s.wgcfg }

/-- Handles with a frame in a way-group, in ascending engagement and id (R344). -/
def handlesIn (s : State) (slice wg : Nat) : List (Nat × Handle) :=
  sortBy (fun a b => decide (a.1 < b.1)) (s.handles.filter (fun e => e.2.frames.any (fun f => f / 48 == 16 * slice + wg)))

/-- A handle keeps a way-group from leaving the tensor role: pinned, under a lease, or moving (R344). -/
def blocksChange (s : State) (e : Nat × Handle) : Bool :=
  match readDesc s (e.1 / 16384) (e.1 % 16384) with
  | none => false
  | some d => d.kind == 2 || leaseHolds s d || e.2.move != .none

/-- Demotes a handle whole, by its contract; `OUT` is done (DEDUCED, R352). -/
def demoteWhole (e : Nat × Handle) (s : State) : State :=
  match readDesc s (e.1 / 16384) (e.1 % 16384) with
  | none => modHandle (e.1 / 16384) (e.1 % 16384) (fun k => { k with frames := [] }) s
  | some d => finishDemote (e.1 / 16384) (e.1 % 16384) 1 d s

/-- A way-group that leaves the tensor role demotes the next of its handles, in ascending order: none while a command into its
shadow is in flight, or while it blocks (R344, R353). -/
def execWayDemotion (e : Nat × Handle) (s : State) : Result :=
  if blocksChange s e || handleBusy s (e.1 / 16384) (e.1 % 16384) then .refused .notEnabled else .next (demoteWhole e s)

/-- What a way-group of the cache or KV-reserve role gives up: its lines, written to HBM when dirty, or its copies (R344). -/
def emptyWay (slice wg : Nat) (s : State) : State :=
  let w := 16 * slice + wg
  if (wgOf s slice wg).role = 2 then discardCopies (fun v => v.place / 48 == w) s
  else (s.cached.filter (fun e => e.wg == w)).foldl (fun s e => spillLine e s) s

/-- A role change goes on: a handle of the tensor role is demoted; when the way-group is empty it takes its new role (R344). -/
def execRoleChangeDone (slice wg : Nat) (s : State) : Result :=
  let w := wgOf s slice wg
  if !w.busy then .refused .notEnabled
  else match if w.role = 1 then handlesIn s slice wg else [] with
    | e :: _ => execWayDemotion e s
    | [] => .next (modWg slice wg (fun w => { w with busy := false, role := w.next }) (emptyWay slice wg s))

/-! ### Refresh and scrubbing (R341, R346, R354, R355) -/

/-- A bank of the package. -/
def bankOk (b : BankRef) : Bool := decide (b.slice < 128) && decide (b.wg < 16) && decide (b.storeDie < 2)

/-- The key of a row. -/
def rowKey (b : BankRef) (row : Nat) : Nat := ((b.slice * 16 + b.wg) * 2 + b.storeDie) * 1536 + row

/-- The die a slice stands on. -/
def sliceDie (slice : Nat) : Nat := slice / 32

/-- Key of a store die's temperature and band. -/
def storeKey (die j : Nat) : Nat := 4 + 2 * die + j

/-- The band of a temperature (R354). -/
def bandOf (celsius : Nat) : Nat := if celsius ≤ 85 then 0 else if celsius ≤ 95 then 1 else 2

/-- The deadline of a band in sc (R354). -/
def deadlineSc (band : Nat) : Nat := if band = 0 then 12600 else if band = 1 then 7350 else 4200

/-- A reading of a compute die's sensor makes retraining fall due now: it is the first that lies 3 °C away from the temperature at
the last training, and the 2 ms have not passed (R358). -/
def warmed (s : State) (die celsius : Nat) : Bool :=
  let b := Sparse.get Bus.reset die s.buses
  s.phase == 5 && !b.running && b.due.isNone && decide (s.sc < b.last + 2 * scMs) &&
  (decide (b.lastTemp + 3 ≤ celsius) || decide (celsius + 3 ≤ b.lastTemp))

/-- A sensor is read (R354, R435): of a store die, whose banks take its band; or of a compute die, with the power. -/
def execTemperatureSample (die storeDie celsius : Nat) (s : State) : Result :=
  if 4 ≤ die || 2 < storeDie then .refused .notEnabled
  else if storeDie = 2 then
    let w := Config.watts s.ctr
    .next { s with temps := Sparse.set 0 die celsius s.temps, power := w, ctr := s.ctr + 1
                   coolSince := if 9 * s.capw ≤ 10 * w then s.sc else s.coolSince
                   buses := if warmed s die celsius then Sparse.set Bus.reset die { Sparse.get Bus.reset die s.buses with due := some s.sc } s.buses
                            else s.buses }
  else
    let k := storeKey die storeDie
    .next { s with temps := Sparse.set 0 k celsius s.temps, band := Sparse.set 0 k (bandOf celsius) s.band }

/-- A row is refreshed (R354): its next period begins. -/
def execRefresh (b : BankRef) (row : Nat) (s : State) : Result :=
  if bankOk b && decide (row < 1536) then
    .next { s with refreshed := Sparse.set 0 (rowKey b row) s.sc s.refreshed, deadRows := s.deadRows.filter (· != rowKey b row) }
  else .refused .notEnabled

/-- A way-group of the package. -/
def wayOf (b : BankRef) : Nat := 16 * b.slice + b.wg

/-- The place of a row among the 3,072 rows of its way-group: 64 rows make a frame (R341); the order is free. -/
def rowPlace (b : BankRef) (row : Nat) : Nat := (2 * row + b.storeDie + Config.rowShift (wayOf b)) % 3072

/-- What holds a block of a row: nothing, a handle's frame, a line of the cache role, or a copy in the KV reserve. -/
inductive RowUse where
  | nothing
  | tensor (handle : Nat) (block : Nat)
  | cache (wg place : Nat)
  | copy (place block : Nat)
  deriving DecidableEq, Repr

/-- Block `k` of row `q` of a frame: strong protection lays 16 blocks of 72 raw bytes in a row of 1,152, light protection blocks
of 66 raw bytes one after another; under none no error is found (R346). -/
def frameBlock (prot q k : Nat) : Option Nat :=
  match prot with
  | 0 => if k < 16 then some (16 * q + k) else none
  | 1 => let b := 1152 * q / 66 + k; if b < 1116 ∧ 66 * b < 1152 * (q + 1) then some b else none
  | _ => none

/-- What holds block `k` of a row (R341, R344, R346). -/
def rowUse (b : BankRef) (row : Nat) (s : State) (k : Nat) : RowUse :=
  let p := rowPlace b row
  let frame := 48 * wayOf b + p / 64
  match (wgOf s b.slice b.wg).role.toNat with
  | 0 => if k < 16 then .cache (wayOf b) (16 * p + k) else .nothing
  | 1 =>
    match s.handles.find? (fun e => e.2.frames.contains frame) with
    | none => .nothing
    | some (h, x) =>
      match readDesc s (h / 16384) (h % 16384) with
      | none => .nothing
      | some d =>
        let n := frameCount d
        let i := x.frames.idxOf frame
        match frameBlock d.prot (p % 64) k with
        | none => .nothing
        | some c => .tensor h (2 * ((i % n) * (frameData d.prot / 64) + c) + (if n ≤ i then 1 else 0))
  | 2 => if k < 16 then .copy frame (16 * (p % 64) + k) else .nothing
  | _ => .nothing

/-- Poisons what holds block `k` of a row of a bank (R346, R355). -/
def poisonRow (b : BankRef) (row : Nat) (s : State) (k : Nat) : State :=
  match rowUse b row s k with
  | .nothing => s
  | .tensor h x => modHandle (h / 16384) (h % 16384) (fun e => { e with bad := if e.bad.contains x then e.bad else x :: e.bad }) s
  | .cache w p => { s with cached := updateWhere (fun e => e.wg == w && e.place == p) (fun e => { e with bad := true }) s.cached }
  | .copy p x => { s with kv := updateWhere (fun v => v.place == p) (fun v => { v with bad := if v.bad.contains x then v.bad else x :: v.bad }) s.kv }

/-- A bank reads and corrects one block (R346, R355). -/
def execPatrolScrub (b : BankRef) (row block : Nat) (s : State) : Result :=
  if bankOk b && decide (row < 1536) && decide (block < 18) then
    let bump := fun (k : Nat) (s : State) =>
      { s with sliceErrors := Sparse.set 0 (2 * b.slice + k) (Sparse.get 0 (2 * b.slice + k) s.sliceErrors + 1) s.sliceErrors }
    let found := Config.patrolFinds s.ctr % 3
    let s := { s with patrolled := Sparse.set 0 ((b.slice * 16 + b.wg) * 2 + b.storeDie) s.sc s.patrolled, ctr := s.ctr + 1 }
    .next (if found = 0 || rowUse b row s block == .nothing then s else if found = 1 then bump 0 s else bump 1 (poisonRow b row s block))
  else .refused .notEnabled

/-- A row's deadline passes, which a sensor failure alone brings about: its blocks are poisoned and `Charon` is told (R355). The row's
next period begins, whose deadline may pass as well. -/
def execRefreshDeadlineMissed (b : BankRef) (row : Nat) (s : State) : Result :=
  let key := rowKey b row
  let band := Sparse.get 0 (storeKey (sliceDie b.slice) b.storeDie) s.band
  if bankOk b && decide (row < 1536) && decide (Sparse.get 0 key s.refreshed + deadlineSc band ≤ s.sc) then
    let s := (List.range 19).foldl (poisonRow b row) s
    .next { s with deadRows := if s.deadRows.contains key then s.deadRows else key :: s.deadRows
                   refreshed := Sparse.set 0 key s.sc s.refreshed, out := .storeError b row :: s.out }
  else .refused .notEnabled

/-! ### Soft errors (R222, R272, R346, R425) -/

/-- A parity error drops an entry, which is fetched or walked again, and counts as corrected (R222). -/
def dropEntry (core : Nat) (f : Core → Core) (s : State) : State := modCore core (fun k => { f k with corrected := k.corrected + 1 }) s

/-- Storage of the device suffers a soft error (R222, R272, R346, R425). One that is corrected is counted at once; one that
cannot be is found by what reads it. -/
def applyUpset (u : Upset) (s : State) : State :=
  match u with
  | .corrected c => modCore c (fun k => { k with corrected := k.corrected + 1 }) s
  | .register gid key => modGroup gid (fun g => if g.vPoison.contains key then g else { g with vPoison := key :: g.vPoison }) s
  | .local_ c w => modCore c (fun k => if k.storePoison.contains w then k else { k with storePoison := w :: k.storePoison }) s
  | .line c n w =>
    match (coreAt s c).lines[n]? with
    | none => s
    | some l => modCore c (putLine { l with bad := l.bad ||| BitVec.ofNat 16 (2 ^ (w % 16)) }) s
  | .code c n => dropEntry c (fun k => { k with icache := k.icache.eraseIdx n }) s
  | .tlb c n => dropEntry c (fun k => { k with tlb := k.tlb.eraseIdx n }) s
  | .foot c n => dropEntry c (fun k => { k with foot := Sparse.set 0xFF n 0xFF k.foot }) s
  | .carry c t n =>
    let x := tileAt s c t
    if x.badCarry.contains n then s else putTile c t { x with badCarry := n :: x.badCarry } s
  | .residue c t n b => let x := tileAt s c t; putTile c t { x with resid := Sparse.set 0 n (Sparse.get 0 n x.resid ^^^ b) x.resid } s
  | .checksum c t r n b =>
    let x := tileAt s c t
    putTile c t (if r then { x with row := Sparse.set 0 n (Sparse.get 0 n x.row ^^^ b) x.row }
      else { x with col := Sparse.set 0 n (Sparse.get 0 n x.col ^^^ b) x.col }) s
  | .tag l => if s.tagFail.contains l then s else { s with tagFail := l :: s.tagFail }
  | .silent h second off b =>
    match readDesc s (h / 16384) (h % 16384) with
    | none => s
    | some d =>
      if d.prot ≠ 2 then s
      else modHandle (h / 16384) (h % 16384) (fun k =>
        if second then { k with ver1 := Sparse.set 0 off b k.ver1 } else { k with ver0 := Sparse.set 0 off b k.ver0 }) s

/-! ### The vertical buses (R358 to R360) -/

/-- The bus of a die. -/
def busOf (s : State) (die : Nat) : Bus := Sparse.get Bus.reset die s.buses

/-- Replaces the bus of a die. -/
def setBus (die : Nat) (b : Bus) (s : State) : State := { s with buses := Sparse.set Bus.reset die b s.buses }

/-- Some group waits on a counter of a core with a failed check (R359). -/
def counterAwaited (s : State) (c m : Nat) : Bool :=
  (allGroups s).any (fun g => coreNo g == c && match waitOf g with
    | some (n, target) => n == m && decide ((ctrAt s c m).val.toNat < target)
    | none => false)

/-- The counter that a running copy or drain increments, if it does (R251, R283). -/
def incCounter (c : Command) : Option Nat :=
  match c.kind with
  | .drain _ _ _ e1 => if dCnte e1 then some (dCntr e1) else none
  | k => let e := copyEnds k; if e.2.1 then some e.2.2 else none

/-- The core of whose local store a copy reads, if it is one (R246, R358). -/
def sourceCore (s : State) (core : Nat) (c : Command) : Option Nat :=
  match srcSide c.kind, findTeam s c.team with
  | some (.mem a _), some t =>
    let top := a.toNat / 2 ^ 56
    match (if top = 0xFF then windowAt t (a.toNat % 2 ^ 56) else if top = 0xFE then pooledTo s t.launch t.gang core (a.toNat % 2 ^ 56) else .zero) with
    | .loc k _ => some k
    | _ => none
  | _, _ => none

/-- A transfer of a core's command with an increment at core `k` crosses the bus of a die: an end of it stands there. -/
def endsOn (s : State) (core : Nat) (c : Command) (die k : Nat) : Bool :=
  core / 48 == die || k / 48 == die || (sourceCore s core c).any (fun j => j / 48 == die)

/-- A guarded transfer crosses the bus of a die (R359). -/
def guarded (s : State) (die : Nat) : Bool :=
  let awaited := fun (target n : Nat) (launch gang : Nat) => match gangTeam s launch gang target with
    | none => false
    | some t => counterAwaited s target (16 * rangeOn t target + n)
  (allCommands s).any (fun e => e.2.phase == .running && match incCounter e.2, findTeam s e.2.team with
    | some n, some t => (incCores s e.1 e.2).any (fun k => endsOn s e.1 e.2 die k && awaited k n t.launch t.gang)
    | _, _ => false) ||
  s.pending.any (fun i => match i with
    | .counterAddArrival r => match addTeam s r with
      | none => false
      | some t => let (c, m) := addTarget t r; (c / 48 == die || r.src.core / 48 == die) && counterAwaited s c m
    | _ => false)

/-- When retraining fell due, if it has (R358): at the reading 3 °C away, or 2 ms after the last training. -/
def dueAt (s : State) (die : Nat) : Option Nat :=
  let b := busOf s die
  if b.due.isSome then b.due else if b.last + 2 * scMs ≤ s.sc then some (b.last + 2 * scMs) else none

/-- Retraining begins: the bus is blocked. -/
def beginTraining (die : Nat) (s : State) : State :=
  setBus die { busOf s die with due := none, running := true, began := s.sc, since := s.ac } s

/-- Retraining that has fallen due starts once no guarded transfer crosses the bus (R358, R359). -/
def execRetrainingDue (die : Nat) (s : State) : Result :=
  if 4 ≤ die || (busOf s die).running || s.phase != 5 || (dueAt s die).isNone || guarded s die then .refused .notEnabled
  else .next (beginTraining die s)

/-- Retraining deferred until 40 µs after it fell due is forced (R359). -/
def execRetrainingForced (die : Nat) (s : State) : Result :=
  match dueAt s die with
  | none => .refused .notEnabled
  | some t =>
    if decide (die < 4) && s.phase == 5 && !(busOf s die).running && decide (t + 40 * scUs ≤ s.sc) then .next (beginTraining die s)
    else .refused .notEnabled

/-- A wait on a die whose bus was blocked since `from_`: its watchdog interval did not advance (R360). -/
def shiftWait (from_ ac : Nat) (g : Group) : Group :=
  match g.status with
  | .waitCounter n t d a sc since => { g with status := .waitCounter n t d a sc (since + (ac - max since from_)) }
  | .waitBlocks t k since => { g with status := .waitBlocks t k (since + (ac - max since from_)) }
  | _ => g

/-- The cores of a die are out of service and the teams on them end with cause 0x20, subcode 6 (R360, R436). -/
def stopDie (die : Nat) (s : State) : State :=
  let s := (List.range 48).foldl (fun s k => modCore (48 * die + k) (fun c => { c with unavailable := true }) s) s
  let tids := (s.teams.filter (fun t => t.cores.any (fun c => c / 48 == die))).map (·.tid)
  tids.foldl (fun s tid => match (allGroups s).find? (fun g => g.tid == tid) with
    | none => s
    | some g => if (findTeam s tid).any (fun t => t.terminated.isSome) then s else terminateTeam g 0x20 6 g.pc s) s

/-- Retraining ends after 1.2 µs (R358, R360). -/
def execRetrainingDone (die : Nat) (ok : Bool) (s : State) : Result :=
  let b := busOf s die
  if !b.running || decide (s.sc < b.began + 1680) then .refused .notEnabled
  else
    let s := setBus die { b with running := false, last := s.sc, lastTemp := Sparse.get 0 die s.temps } s
    let s := modGroups (fun g => g.die == die) (shiftWait b.since s.ac) s
    .next (if ok then s else stopDie die s)

/-! ### Power and heat (R435, R436) -/

/-- A store die is above 105 °C (R354). -/
def tooHot (s : State) : Bool := (List.range 8).any (fun k => decide (105 < Sparse.get 0 (4 + k) s.temps))

/-- The arithmetic clock steps down (R435). -/
def execPowerStepDown (s : State) : Result :=
  if s.pstep < 5 && (decide (s.capw < s.power) || tooHot s) then
    .next { s with pstep := s.pstep + 1, power := min s.power s.capw, coolSince := s.sc }
  else .refused .notEnabled

/-- The arithmetic clock steps up after 10 ms below 90% of the cap (R435). -/
def execPowerStepUp (s : State) : Result :=
  if decide (0 < s.pstep) && decide (10 * s.power < 9 * s.capw) && decide (s.coolSince + 10 * scMs ≤ s.sc) then
    .next { s with pstep := s.pstep - 1, coolSince := s.sc }
  else .refused .notEnabled

/-- A compute die reaches `TTRIP` (R436). -/
def execThermalTrip (die : Nat) (s : State) : Result :=
  if decide (die < 4) && decide (s.ttrip ≤ Sparse.get 0 die s.temps) &&
      (List.range 48).any (fun k => !(coreAt s (48 * die + k)).unavailable) then .next (stopDie die s)
  else .refused .notEnabled

/-! ### The sealed log (R428, R429) -/

/-- The bytes of a log entry (R428). -/
def logBytes (e : LogEntry) : List Byte :=
  leBytes 8 e.time ++ leBytes 4 e.agent ++ leBytes 1 e.eid ++ leBytes 1 e.kind ++ leBytes 2 e.unit ++ leBytes 8 e.va.toNat ++
  leBytes 4 e.bytes ++ leBytes 4 e.count

/-- The chain over entries (R429). -/
def chainOf (h : List Byte) (es : List LogEntry) : List Byte := es.foldl (fun h e => shake256 (h ++ logBytes e)) h

/-- `Charon` signs the head of the chain and sends the log (R429). -/
def execLogSeal (s : State) : Result :=
  if s.log != [] && (decide (4096 ≤ s.log.length) || decide (s.lastSeal + 100 * scMs ≤ s.sc)) then
    let h := chainOf s.chain s.log
    let n := s.logIndex + s.log.length
    .next { s with chain := h, logIndex := n, lastSeal := s.sc, log := []
                   out := .log s.log n (Config.sign (h ++ leBytes 8 n)) :: s.out }
  else .refused .notEnabled

/-- The error counts of a core, or of a home slice, go to the host in a `REPORT` (R417, R419; when is DESIGN CHOICE, log entry
136). -/
def sendCounts (slice : Bool) (n : Nat) (s : State) : State :=
  let k := coreAt s n
  let counts := if slice then [Sparse.get 0 (2 * n) s.sliceErrors, Sparse.get 0 (2 * n + 1) s.sliceErrors]
    else [k.corrected, k.uncorrected, k.discarded]
  if s.linkUp then { s with out := .errorCounts slice n counts :: s.out } else s

/-! ### Link and start-up (R414, R430, R433, R434) -/

/-- `Charon` retries training a link that is down, every 100 ms (R414). -/
def execLinkTrainingRetry (ok : Bool) (s : State) : Result :=
  if !s.linkUp && decide (1 ≤ s.phase) && decide (s.linkTry + 100 * scMs ≤ s.sc) then
    .next { s with linkUp := ok, linkTry := s.sc, ctr := s.ctr + 1 }
  else .refused .notEnabled

/-- The boot ROM accepts an image (R430, R431). -/
def accepts (s : State) (b : List Byte) : Bool := Config.verifies b && decide (s.rollback ≤ Config.imageVersion b)

/-- The image runs: its version, floor and digest (R431, R432). -/
def boots (b : List Byte) (s : State) : State :=
  { s with recovery := false, fwVersion := Config.imageVersion b, fwFloor := min (Config.imageFloor b) (Config.imageVersion b)
           fwDigest := shake256 b }

/-- Every stack is trained: the groups held for it go on (R434). -/
def releaseTraining (s : State) : State :=
  modGroups (fun g => g.status == .waitTraining) (fun g => { g with status := .ready }) s

/-- A start-up phase ends (R433). A failed firmware check leaves the device in recovery (R430); a warm start skips phase 2. -/
def execStartPhaseDone (s : State) : Result :=
  if 5 ≤ s.phase || s.recovery then .refused .notEnabled
  else
    let s := { s with phase := s.phase + 1 }
    match s.phase with
    | 1 =>
      let b := s.fwImage.getD Config.firmware
      let s := { s with linkUp := Config.trains s.ctr, linkTry := s.sc, ctr := s.ctr + 1, phase := if s.warm then 2 else 1 }
      .next (if accepts s b then boots b s else { s with recovery := true })
    | 4 => .next (releaseTraining s)
    | 5 => .next ((List.range 4).foldl (fun s d => setBus d { busOf s d with last := s.sc, lastTemp := Sparse.get 0 d s.temps } s) s)
    | _ => .next s

end Sys2Proof.Machine
end

