-- ==== Sys2Proof/Machine/Port.lean ====
section
/-! DEFINITION. The port: connections, the messages of engagement connections, peer accesses and their answers, the loss
of the link (R310, R374, R414 to R418, R422, R423). -/

namespace Sys2Proof.Machine

/-! ### Answers and headers (R417) -/

/-- Sends an answer. -/
def reply (m : Msg) (status : Nat) (data : List Byte) (s : State) : State :=
  { s with out := .answer m.conn m.tag status 0 0 data :: s.out }

/-- Sends an answer of status 2 with a cause, subcode and address. -/
def replyFault (m : Msg) (cause sub : Nat) (va : DWord) (s : State) : State :=
  { s with out := .answer m.conn m.tag 2 (cause + 256 * sub) va [] :: s.out }

/-- The connection a message arrives on, while the port serves it: from the third start-up phase on, or in recovery. -/
def connOf (s : State) (m : Msg) : Option Conn :=
  if s.linkUp && (decide (3 ≤ s.phase) || s.recovery) then s.conns.find? (fun k => k.id == m.conn) else none

/-- A request's header is well formed: its operation, `FLG` with no `RSP`, and `LEN` (R417). -/
def hdrOk (m : Msg) (op : Nat) : Bool := m.op.toNat == op && m.flg &&& 0xFE == 0 && m.len.toNat == m.payload.length

/-- The connection on which an access was sent to a peer. -/
def sentOn (s : State) (acc : Nat) : Option Nat :=
  s.out.findSome? (fun o => match o with
    | .peerAccess a conn _ _ _ _ => if a = acc then some conn else none
    | _ => none)

/-- The accesses outstanding on the connections that satisfy `f` fail (R423). -/
def failPeers (f : Nat → Bool) (s : State) : State :=
  let lost := s.accs.filter (fun a => match a.kind with
    | .ack _ => false
    | _ => (sentOn s a.id).any f)
  { s with pending := s.pending ++ lost.map (fun a => Instr.peerAnswer a.id .closed) }

/-- A connection closes: what it carried to a peer fails (R423). -/
def closeConn (conn : Nat) (s : State) : State := failPeers (· == conn) { s with conns := s.conns.filter (fun k => k.id != conn) }

/-- A message that arrives on a connection: one whose payload fails authentication is dropped and counted, and the connection is
closed (R416). -/
def onConn (m : Msg) (k : Conn → Result) (s : State) : Result :=
  match connOf s m with
  | none => .refused .notEnabled
  | some c => if m.auth then k c else .next (closeConn m.conn { s with dropped := s.dropped + 1 })

/-- An engagement message: malformed ones are answered with 4, those for another or no live engagement with 1. -/
def engMsg (m : Msg) (ok : Bool) (k : Conn → Result) (s : State) : Result :=
  onConn m (fun c =>
    if !ok then .next (reply m 4 [] s)
    else if c.system || m.eng.toNat != c.eid || (engOf s c.eid).st != .live then .next (reply m 1 [] s)
    else k c) s

/-- The answer to an access that found no memory of this device (R417, R434). -/
def replyPlace (m : Msg) (va : DWord) (p : Place) (s : State) : Result :=
  match p with
  | .hold => .next (reply m 3 [] s)
  | .bad cause sub => .next (replyFault m cause sub va s)
  | .hole => .fault .noSuchPhysicalAddress
  | _ => .next (replyFault m 0x08 0x13 va s)

/-- The port as it stands in logs and lists of adds (R323). -/
def portAgent : Nat := 3 * 2 ^ 28
def portAdder : Adder := ⟨3, 0, 0⟩

/-- The port's accesses to an engagement's memory. -/
def portMover (eid : Nat) : Mover := devMover portAgent eid

/-- An access of the port at a home slice: the cache role, and the entry of the watch units there (R341, R428); kinds 0, 1, 2: read,
write, atomic. -/
def portTouch (eid kind : Nat) (va : DWord) (pa n : Nat) (s : State) : State :=
  sliceTouch va pa n (kind != 0) false (note portAgent eid kind va (some pa) n s)

/-- The timestamp of a write of the port: a release carries the newest write time (R310). -/
def portStamp (m : Msg) (s : State) : Nat := if m.flg.getLsbD 0 then newestWrite s else 0

/-- `XSEL` and the arguments that a message does not use are zero. -/
def plainMsg (m : Msg) : Bool := m.xsel == 0

/-! ### SUBMIT (R374, R376, R417) -/

/-- The word of R187 in an answer. -/
def submitWord (status seq : Nat) : List Byte := leBytes 4 (status + 256 * (seq % 2 ^ 24))

/-- `SUBMIT` of a launch record. -/
def execSubmit (m : Msg) (s : State) : Result :=
  engMsg m (hdrOk m 0x01 && plainMsg m && m.arg == 0 && m.payload.length == recordSize) (fun c =>
    if (recordOf m.payload).eng != c.eid then .next (reply m 1 [] s)
    else
      let e := enqueue m.payload 0 none (afterOf m.payload) s
      .next (reply m 0 (submitWord e.1 e.2.1) e.2.2)) s

/-- A node's record without its `AFTER` (R374). -/
def nodeRecord (b : List Byte) : List Byte := b.take 48 ++ List.replicate 8 0 ++ b.drop 56

/-- The patch points of a node: those of its kernel, offset and size (R126). -/
def patchesOf (i : Image) (b : List Byte) : List (Nat × Nat) :=
  (i.patches.filter (fun p => p.1 == (recordOf b).kidx)).map (·.2)

/-- Splits the patch values among the patch points of all nodes, in ascending node order: the address and bytes of each. -/
def patchWrites (i : Image) (vals : List Byte) : List (DWord × List Byte) :=
  let points := i.graph.flatMap (fun b => (patchesOf i b).map (fun p => ((recordOf b).param + BitVec.ofNat 64 p.1, p.2)))
  (points.foldl (fun (a : List (DWord × List Byte) × List Byte) p => (a.1 ++ [(p.1, a.2.take p.2)], a.2.drop p.2)) ([], vals)).1

/-- Bytes of patch values that a graph takes. -/
def patchSize (i : Image) : Nat := (i.graph.map (fun b => ((patchesOf i b).map (·.2)).sum)).sum

/-- Writes the patch values; none when one of them fails. -/
def writePatches (eid : Nat) : List (DWord × List Byte) → State → Option (DWord × Place) × State
  | [], s => (none, s)
  | (va, b) :: t, s =>
    match writeVa eid va b 0 s with
    | (none, s) => writePatches eid t s
    | r => r

/-- Enqueues the nodes in ascending order: each depends on the launches of its predecessors. -/
def enqueueNodes (i : Image) (first : Nat) : List (Nat × List Byte) → State → State
  | [], s => s
  | (n, b) :: t, s =>
    let deps := (i.edges.filter (fun e => e.2 == n)).map (fun e => first + e.1)
    enqueueNodes i first t (enqueue (nodeRecord b) 0 none deps s).2.2

/-- A node passes the checks of R376. -/
def nodeOk (s : State) (eid : Nat) (b : List Byte) : Bool :=
  let r := recordOf (nodeRecord b)
  r.eng == eid && (kernelOf s r).any (fun k => recordOk s (nodeRecord b) r k none)

/-- Every node of a graph finds a place in its queue. -/
def graphFits (s : State) (i : Image) : Bool :=
  (List.range 4).all (fun p =>
    decide ((s.launches.filter (fun l => inQueue l && l.record.prio == p)).length + (i.graph.filter (fun b => (recordOf b).prio == p)).length ≤ 1024))

/-- A graph submission (R374, R417): the status of R187 with the sequence number of node 0. -/
def execSubmitGraph (m : Msg) (s : State) : Result :=
  engMsg m (hdrOk m 0x01 && plainMsg m && m.arg == 1) (fun c =>
    match assoc m.addr.toNat s.images with
    | none => .next (reply m 4 [] s)
    | some i =>
      if i.eid != c.eid then .next (reply m 1 [] s)
      else if i.graph == [] || patchSize i != m.payload.length then .next (reply m 4 [] s)
      else if !i.graph.all (nodeOk s c.eid) then .next (reply m 0 (submitWord 2 0) s)
      else if !graphFits s i then .next (reply m 0 (submitWord 1 0) s)
      else match writePatches c.eid (patchWrites i m.payload) s with
        | (some (va, p), s) => replyPlace m va p s
        | (none, s) =>
          let first := s.nextSeq
          .next (reply m 0 (submitWord 0 first) (enqueueNodes i first ((List.range i.graph.length).zip i.graph) s))) s

/-! ### MEMRD, MEMWR, SLOTWR (R417, R434) -/

/-- The length limits of `MEMRD` and `MEMWR`. -/
def lengthOk (n : Nat) : Bool := decide (4 ≤ n) && decide (n ≤ 4096) && decide (n % 4 = 0)

/-- `MEMRD`. -/
def execMemrd (m : Msg) (s : State) : Result :=
  engMsg m (m.op == 0x02 && m.flg &&& 0xFE == 0 && plainMsg m && m.payload == [] && lengthOk m.len.toNat) (fun c =>
    let s := note portAgent c.eid 4 m.addr none m.len.toNat s
    match readPages (portMover c.eid) (pagesOf m.addr m.len.toNat) s with
    | (.bytes b, s) => .next (reply m 0 b s)
    | (.stop va p, s) => replyPlace m va p s) s

/-- The pages of a write are all there: where one is not. -/
def writable (eid : Nat) : List (DWord × Nat) → State → Option (DWord × Place) × State
  | [], s => (none, s)
  | (va, _) :: t, s =>
    match devPlace eid 0 va .write s with
    | (.mem _, s) => writable eid t s
    | (p, s) => (some (va, p), s)

/-- Writes for the port, nothing where a page is missing. -/
def portWrite (m : Msg) (eid : Nat) (va : DWord) (b : List Byte) (s : State) : Result :=
  let s := note portAgent eid 4 va none b.length s
  match writable eid (pagesOf va b.length) s with
  | (some (a, p), s) => replyPlace m a p s
  | (none, s) => .next (reply m 0 [] (writePages (portMover eid) (portStamp m s) (pagesOf va b.length) b s).2)

/-- `MEMWR`. -/
def execMemwr (m : Msg) (s : State) : Result :=
  engMsg m (hdrOk m 0x03 && plainMsg m && lengthOk m.payload.length) (fun c => portWrite m c.eid m.addr m.payload s) s

/-- `SLOTWR`: the 64 bytes of a slot entry. -/
def execSlotwr (m : Msg) (s : State) : Result :=
  engMsg m (hdrOk m 0x04 && plainMsg m && m.payload.length == 64) (fun c =>
    match programOf s c.eid with
    | none => .next (reply m 4 [] s)
    | some p =>
      if p.nslot ≤ m.arg.toNat then .next (reply m 4 [] s)
      else portWrite m c.eid (p.slotTab + BitVec.ofNat 64 (64 * m.arg.toNat)) m.payload s) s

/-! ### CADD (R383, R417) -/

/-- `CADD` to a memory counter. -/
def caddMemory (m : Msg) (eid : Nat) (s : State) : Result :=
  if m.addr.toNat % 8 ≠ 0 then .next (replyFault m 0x0B 0 m.addr s)
  else match devPlace eid 0 m.addr .write s with
    | (.mem pa, s) =>
      match memError s pa 8 with
      | some (c, sub) => .next (replyFault m c sub m.addr s)
      | none =>
        let v := leNat (memRead s pa 8) + leNat m.payload
        let s := portTouch eid 2 m.addr pa 8 (note portAgent eid 4 m.addr none 8 s)
        let s := sliceRmw pa (leBytes 8 (min v (2 ^ 64 - 1))) (portStamp m s) s
        .next (if 2 ^ 64 - 1 < v then replyFault m 0x18 0 m.addr s else reply m 0 [] s)
    | (p, s) => replyPlace m m.addr p s

/-- The fields of a `CADD` on a core counter. -/
def caddOf (m : Msg) (s : State) : CtrAdd :=
  { launch := m.arg2.toNat, gang := bitsAt m.arg.toNat 31 8, team := bitsAt m.arg.toNat 7 4, odd := m.xsel.getLsbD 0
    n := bitsAt m.arg.toNat 3 0, amount := leNat m.payload, stamp := portStamp m s, src := portAdder, owner := none, pc := 0, dest := none, signer := 0 }

/-- `CADD` on a core counter, by the state of its team. -/
def caddCore (m : Msg) (eid : Nat) (s : State) : Result :=
  let r := caddOf m s
  match (findLaunch s r.launch).filter (fun l => l.record.eng == eid) with
  | none => .next (reply m 1 [] s)
  | some l =>
    if l.phase == .complete then .next (reply m 1 [] s)
    else if decide (l.record.ngang ≤ r.gang) || decide (l.nteams ≤ r.team) || (r.odd && !l.pair) || m.xsel &&& 0xFE != 0 then
      .next (reply m 4 [] s)
    else match addTeam s r with
      | some t =>
        let (c, k) := addTarget t r
        let sat := ctrOver (ctrAt s c k) r.amount
        let s := landAdd t r s
        .next (if sat then replyFault m 0x18 0 (counterRef c k) s else reply m 0 [] s)
      | none =>
        if s.saved.any (fun v => v.launch == r.launch && v.gang.gang == r.gang && v.teams.any (fun t => t.team.team == r.team)) then
          .next (reply m 0 [] (applyAdd r s))
        else if l.endedGangs.contains r.gang || decide (r.gang < l.nextGang) then .next (reply m 5 [] (discardAdd r s))
        else .next (reply m 0 [] { s with held := s.held ++ [r] })

/-- `CADD` of the host. -/
def execClosiaCadd (m : Msg) (s : State) : Result :=
  engMsg m (hdrOk m 0x05 && m.payload.length == 8 && (m.addr == 0 || plainMsg m)) (fun c =>
    if m.addr = 0 then caddCore m c.eid s else caddMemory m c.eid s) s

/-! ### Peer accesses arriving (R422, R423) -/

/-- The slice operation that a peer's atomic asks for: an operation code and a type. -/
def peerKind (kind : Nat) (b : List Byte) : Option (SliceKind × Nat) :=
  let op := nth AtomOp.add atomOps (kind % 16 - 8)
  let t := tyOf (BitVec.ofNat 4 (kind / 16))
  let n := atomBytes t
  if kind % 16 < 8 then none
  else some (.atom op t (BitVec.ofNat 64 (leNat (b.take n))) (BitVec.ofNat 64 (leNat (b.drop n))), n)

/-- Performs a peer's access at an address that leads to memory: the answer's data. -/
def peerPerform (m : Msg) (pa n : Nat) (s : State) : Nat × List Byte × State :=
  let kind := bitsAt m.arg.toNat 7 0
  if kind = peerRead then (0, memRead s pa n, s)
  else if kind = peerWrite then (0, [], sliceWrite pa m.payload (portStamp m s) s)
  else if kind = peerCount then
    let v := leNat (memRead s pa 8) + leNat m.payload
    (if 2 ^ 64 - 1 < v then 0x18 else 0, [], sliceRmw pa (leBytes 8 (min v (2 ^ 64 - 1))) (portStamp m s) s)
  else match peerKind kind m.payload with
    | none => (0, [], s)
    | some (k, w) =>
      let old := memRead s pa w
      (0, old, sliceRmw pa (sliceResult k old) (portStamp m s) s)

/-- Bytes that a peer's access covers. -/
def peerSize (m : Msg) : Nat :=
  let kind := bitsAt m.arg.toNat 7 0
  if kind = peerRead then m.len.toNat else if kind = peerWrite then m.payload.length else if kind = peerCount then 8
  else match peerKind kind m.payload with
    | none => 1
    | some (_, w) => w

/-- The header of a `PEERACC` is well formed (R417): a read carries no payload and its length in `LEN`. -/
def peerOk (m : Msg) : Bool :=
  m.op == 0x07 && m.flg &&& 0xFE == 0 && plainMsg m && decide (m.arg.toNat < 65536) && m.arg2 == 0 &&
  if bitsAt m.arg.toNat 7 0 = peerRead then m.payload == [] else m.len.toNat == m.payload.length

/-- `PEERACC`: an access by a peer to a window that this device exports. `ARG` names its kind and the window, `ADDR` the
offset in the window. -/
def execPeeracc (m : Msg) (s : State) : Result :=
  engMsg m (peerOk m) (fun c =>
    if !c.peer then .next (reply m 1 [] s)
    else match s.windows.find? (fun w => w.id == bitsAt m.arg.toNat 15 8 && w.conn == m.conn && w.eid == c.eid) with
      | none => .next (replyFault m 0x08 0x17 m.addr s)
      | some w =>
        let n := peerSize m
        let va := w.base + m.addr
        if decide (w.len < m.addr.toNat + n) || n == 0 || decide (65536 < va.toNat % 65536 + n) then .next (replyFault m 0x08 0x17 m.addr s)
        else
          let read := decide (bitsAt m.arg.toNat 7 0 = peerRead)
          match devPlace w.eid 0 va (if read then .read else .write) (note portAgent w.eid 4 va none n s) with
          | (.mem pa, s) =>
            match memError s pa n with
            | some (cause, sub) => .next (replyFault m cause sub m.addr s)
            | none =>
              let r := peerPerform m pa n (portTouch w.eid (if read then 0 else if bitsAt m.arg.toNat 7 0 = peerWrite then 1 else 2) va pa n s)
              .next (if r.1 = 0 then reply m 0 r.2.1 r.2.2 else replyFault m r.1 0 m.addr r.2.2)
          | (.zero, s) => .next (reply m 0 (List.replicate n 0) s)
          | (.hole, _) => .fault .noSuchPhysicalAddress
          | (.hold, s) => .next (reply m 3 [] s)
          | (_, s) => .next (replyFault m 0x08 0x17 m.addr s)) s

/-! ### Answers of peers (R423) -/

/-- The cause of a peer access that failed. -/
def peerCause : PeerResult → Option (Nat × Nat)
  | .data _ => none
  | .refused => some (0x08, 0x17)
  | .closed => some (0x08, 0x18)
  | .poison => some (0x20, 1)
  | .tag => some (0x21, 0)
  | .saturated => some (0x18, 0)

/-- Bytes of an answer. -/
def peerData : PeerResult → List Byte
  | .data b => b
  | _ => []

/-- A strand's access has its answer: the strand commits, and the instruction goes on after it (R67, R423); `seen` is the write
time that an acquire takes from it. -/
def strandAnswer (g : Group) (i : Nat) (uni : Bool) (reg : Opnd) (ty : Ty) (n : Nat) (returns : Bool) (seen : Nat) (b : List Byte) : Group :=
  let ws := (loadWords ty (padTo (4 * n) 0 b)).take n
  let g := if !returns then g else if uni then writeUni g reg ws else writeRegs g i reg ws
  if uni then advance { g with status := .ready } else { g with status := .ready, ridx := i + 1, readTime := max g.readTime seen }

/-- The write time that an acquire of a peer's answer takes: at `.sys` everything that this device's slices have performed (R296,
R310, R423); of a strong atomic everything that the strong atomics before it carried (R298; DEDUCED, log entry 119). -/
def peerSeen (acq : Option (Nat × Bool)) (s : State) : Nat :=
  match acq with
  | none => 0
  | some (scope, strong) => max (if scope = 4 then newestWrite s else 0) (if strong then s.strong else 0)

/-- The instruction of a strand whose access a peer has answered goes on: with one execution for the group it acquires now,
otherwise once its last strand has its answer (R229). A value that comes back may stand for every write that this device's slices
have performed, for a later `FENCE.acq.sys` (R237, R297). A strong atomic takes what it acquires into the strong order (R298). -/
def strandGoesOn (g : Group) (uni returns : Bool) (acq : Option (Nat × Bool)) (f : Group → Group) (s : State) : State :=
  let w := newestWrite s
  let s := match acq with
    | some (scope, strong) =>
      let s := if strong then { s with strong := max s.strong (peerSeen acq s) } else s
      if uni && peerSeen acq s != 0 then acquire g scope (peerSeen acq s) s else s
    | none => s
  modGroup g.gid (fun g => f (if returns then { g with gwtsSys := max g.gwtsSys w } else g)) s

/-- The peer side of a command has its answer: bytes of a read, or the acknowledgement of a write, which an emulated drain has not
waited for (R201). -/
def commandAnswer (n : Nat) (reads : Bool) (b : List Byte) (c : Command) : Command :=
  if reads then { c with part := c.part ++ (padTo n 0 b).take n } else if c.emulated then c else { c with sent := c.sent + n }

/-- A peer answers an access (R423). -/
def execPeerAnswer (acc : Nat) (r : PeerResult) (s : State) : Result :=
  match s.accs.find? (fun a => a.id == acc) with
  | none => .refused .notEnabled
  | some a =>
    let done := fun (s : State) => settleTeam a.team (countDown a.team { s with accs := s.accs.filter (fun b => b.id != acc) })
    match a.kind with
    | .ack _ => .refused .notEnabled
    | .peer va i uni reg ty n returns acq =>
      match (findGroup s a.group).filter (fun g => g.status == .waitPeer acc) with
      | none => .next (done s)
      | some g =>
        match peerCause r with
        | none =>
          let f := fun (g : Group) => strandAnswer g i uni reg ty n returns (peerSeen acq s) (peerData r)
          .next (stopPoint a.team (done (strandGoesOn g uni returns acq f s)))
        | some (c, sub) => .next (done (trapGroup g ⟨c, sub, some va, i⟩ g.pc (modGroup g.gid (fun g => { g with status := .ready }) s)))
    | .peerAdd va pc =>
      let s := match peerCause r with
        | none => s
        | some (c, sub) => report a.group c sub pc va s
      .next (done (modGroups (fun g => g.status == .waitPeer acc) (fun g => { g with status := .ready }) s))
    | .peerCommand q serial va n reads =>
      let s := done s
      match (findCmd s q).filter (fun c => c.serial == serial) with
      | none => .next s
      | some c =>
        match peerCause r with
        | none => .next (putCmd q.core (commandAnswer n reads (peerData r) c) s)
        | some (cause, sub) => .next (failCommand q.core c cause sub va s)
    | .peerDone seq => .next (reportLaunch seq (match peerCause r with
        | none => 0
        | some (cause, sub) => cause + 256 * sub) (done s))

/-! ### Connections (R414 to R416, R423) -/

/-- A connection opens (R415, R416): at most 1,024, with a valid handshake, to a live engagement, or with the operator credential
as the system's. -/
def execConnectionOpen (r : ConnReq) (s : State) : Result :=
  if !s.linkUp || (decide (s.phase < 3) && !s.recovery) then .refused .notEnabled
  else if Config.handshakeOk r.shake && decide (s.conns.length < 1024) && !s.conns.any (fun k => k.id == r.conn) &&
      (if r.system then Config.operatorOk r.shake else (engOf s r.eid).st == .live) then
    .next { s with conns := s.conns ++ [⟨r.conn, r.system, r.eid, r.peer && !r.system, r.rod⟩] }
  else .next s

/-- A connection closes (R423). -/
def execConnectionClose (conn : Nat) (s : State) : Result :=
  if s.conns.any (fun k => k.id == conn) then
    .next (closeConn conn s)
  else .refused .notEnabled

/-- The link is lost, and with it every connection (R414, R423). -/
def execLinkDown (s : State) : Result :=
  if s.linkUp then .next (failPeers (fun _ => true) { s with linkUp := false, linkTry := s.sc, conns := [] })
  else .refused .notEnabled

/-- A packet of an unsupported delivery mode is dropped and counted (R415). -/
def execUnsupportedPacketDrop (_mode : Nat) (s : State) : Result :=
  if s.linkUp then .next { s with dropped := s.dropped + 1 } else .refused .notEnabled

end Sys2Proof.Machine
end

