-- ==== Sys2Proof/Machine/Charon.lean ====
section
/-! DEFINITION. The requests of system connections to `Charon` (R337, R342, R344, R347, R370 to R373, R382, R388, R419 to R433,
R435), and the ends of an unmapping and of an engagement. -/

namespace Sys2Proof.Machine

/-! ### Requests (R420) -/

/-- A field of `ARG`. -/
def argBits (m : Msg) (hi lo : Nat) : Nat := bitsAt m.arg.toNat hi lo

/-- Bits of `ARG` above the code that are all zero but for those of a mask. -/
def argOnly (m : Msg) (mask : Nat) : Bool := m.arg &&& ~~~ (BitVec.ofNat 32 (mask + 0xFF)) == 0

/-- `ARG` bits 13:8, an engagement. -/
def eidMask : Nat := 0x3F00
def argEid (m : Msg) : Nat := argBits m 13 8

/-- Codes that recovery accepts (R420, R430). -/
def inRecovery (code : Nat) : Bool := code == 0x18 || code == 0x28 || code == 0x2A

/-- A request to `Charon`: refused with 1 on an engagement connection, with 4 where it is malformed. -/
def ctrl (m : Msg) (code : Nat) (ok : Bool) (k : Result) (s : State) : Result :=
  onConn m (fun c =>
    if !c.system then .next (reply m 1 [] s)
    else if !hdrOk m 0x06 || m.eng != 0 || m.xsel != 0 || argBits m 7 0 != code || !ok || (s.recovery && !inRecovery code) then
      .next (reply m 4 [] s)
    else k) s

/-- A request that names a live engagement. -/
def ctrlEng (m : Msg) (code : Nat) (ok : Bool) (k : Nat → Result) (s : State) : Result :=
  ctrl m code ok (if (engOf s (argEid m)).st == .live then k (argEid m) else .next (reply m 1 [] s)) s

/-- A field of the payload. -/
def pay (m : Msg) (off n : Nat) : Nat := entryField m.payload off n

/-! ### Frames and page tables (R217, R218, R339, R421, R425) -/

/-- Owner of the frames that hold an engagement's page tables, `Charon`'s own. -/
def tableOwner (eid : Nat) : Nat := 65 + eid

/-- The level that a leaf of a page size stands on. -/
def leafLevel (psz : Nat) : Nat := psz

/-- The first die of the package on which the pool has what is asked for. -/
def onAnyDie (f : Nat → Option α) : Option α := (List.range 4).findSome? f

/-- A frame of the pool for an engagement's page tables. -/
def takeTable (eid : Nat) (s : State) : Option (Nat × State) := onAnyDie (fun d => takeFrame (tableOwner eid) d false s)

/-- The entry of an address at a level, building tables on the way: its physical address, or an answer: 4 where something
larger is mapped, 3 where the pool lacks frames. -/
def entryFor (eid va lev : Nat) : List Level → Nat → State → Except Nat (Nat × State)
  | [], _, _ => .error 4
  | l :: ls, t, s =>
    let a := t + 8 * (va / 2 ^ l.shift % 2 ^ l.bits)
    if l.lev = lev then .ok (a, s)
    else
      let e : DWord := BitVec.ofNat 64 (leNat (memRead s a 8))
      if pteBit e 0 then (if pteBit e 1 then .error 4 else entryFor eid va lev ls (pteAddr e) s)
      else match takeTable eid s with
        | none => .error 3
        | some (f, s) => entryFor eid va lev ls (65536 * f) (sliceWrite a (leBytes 8 (65536 * f + 1)) 0 s)

/-- Nothing is mapped in a table of the first of some levels: its entries are invalid, or pointers without `GROW` to tables of
which the same holds. -/
def tableFree (s : State) : List Level → Nat → Bool
  | [], _ => true
  | l :: ls, t => (List.range (2 ^ l.bits)).all (fun k =>
      let e := readPte s l (t + 8 * k)
      !pteBit e 0 || (!pteBit e 1 && !pteBit e 6 && tableFree s ls (pteAddr e)))

/-- Nothing is mapped under an entry of a level: it is invalid, or a pointer to tables that map nothing. -/
def entryClear (s : State) (lev : Nat) (e : DWord) : Bool :=
  !pteBit e 0 || (!pteBit e 1 && !pteBit e 6 && tableFree s (levels.filter (fun l => decide (l.lev < lev))) (pteAddr e))

/-- Writes a leaf or pointer where nothing is mapped; the walkers forget a pointer that it replaces. -/
def putEntry (eid : Nat) (va : DWord) (lev : Nat) (e : Nat) (s : State) : Except Nat State :=
  match entryFor eid va.toNat lev levels (engOf s eid).root s with
  | .error n => .error n
  | .ok (a, s) =>
    let old := readPte s ⟨lev, 0, 0⟩ a
    if !entryClear s lev old then .error 4
    else .ok (sliceWrite a (leBytes 8 e) 0 (if pteBit old 0 then walkersDrop (walkIn eid va 1) s else s))

/-- The first aligned run of `n` unowned frames of a die at or after a place. -/
def seekRun (s : State) (die n : Nat) : Nat → Nat → Option Nat
  | 0, _ => none
  | fuel + 1, k =>
    let f := framesOfDie * die + k
    if framesOfDie < k + n then none
    else if (s.frames.filter (fun e => decide (f ≤ e.1) && decide (e.1 < f + n) && e.2.owner != 0)) = [] then some f
    else seekRun s die n fuel (k + n)

/-- Takes an aligned run of `n` zeroed frames from the pool of a die: frames that nobody owns. -/
def takeRun (owner die n : Nat) (intlv : Bool) (s : State) : Option (Nat × State) :=
  if n = 1 then takeFrame owner die intlv s
  else (seekRun s die n (s.frames.length + 2) 0).map (fun f =>
    (f, (List.range n).foldl (fun s k => giveFrame owner (f + k) intlv s) s))

/-- A named run of frames goes to an engagement: none when one of them belongs to another. A frame that changes owner is
written with zeros. -/
def nameRun (owner f n : Nat) (intlv : Bool) (s : State) : Option State :=
  if (s.frames.filter (fun e => decide (f ≤ e.1) && decide (e.1 < f + n) && e.2.owner != 0 && e.2.owner != owner)) ≠ [] then none
  else some ((List.range n).foldl (fun s k =>
    if (Sparse.get ⟨0, false⟩ (f + k) s.frames).owner = owner then s else giveFrame owner (f + k) intlv s) s)

/-- Attributes of a leaf (R218, R421). -/
def leafBits (attr : Nat) : Nat :=
  3 + 8 * bitsAt attr 7 7 + 16 * bitsAt attr 8 8 + 32 * bitsAt attr 9 9 + 2 ^ 52 * bitsAt attr 10 10 + 2 ^ 60 * bitsAt attr 15 12

/-- Frames of a page of a size. -/
def pageFrames (psz : Nat) : Nat := if psz = 0 then 1 else if psz = 1 then 32 else 16384

/-- Maps `n` pages one after another; `frame` is the first of the run, none for frames from the pool. The answer of a
failure: a status with a cause. -/
def mapRun (eid die psz attr : Nat) : Nat → DWord → Option Nat → State → Except (Nat × Nat) State
  | 0, _, _, s => .ok s
  | n + 1, va, frame, s =>
    let k := pageFrames psz
    let intlv := decide (bitsAt attr 10 10 = 1)
    let got := match frame with
      | none => match (if intlv then onAnyDie (fun d => takeRun (eid + 1) d k true s) else takeRun (eid + 1) die k false s) with
        | none => Except.error (3, 0)
        | some r => .ok r
      | some f => match nameRun (eid + 1) f k intlv s with
        | none => .error (2, 0x0A)
        | some s => .ok (f, s)
    match got with
    | .error e => .error e
    | .ok (f, s) =>
      match putEntry eid va (leafLevel psz) (leafBits attr + 65536 * f) s with
      | .error n => .error (n, 0)
      | .ok s => mapRun eid die psz attr n (va + BitVec.ofNat 64 (65536 * k)) (frame.map (· + k)) s

/-- Writes level-1 pointers with `GROW` over `n` ranges of 2 MiB (R220, R421). -/
def mapGrow (eid attr : Nat) : Nat → DWord → State → Except Nat State
  | 0, _, s => .ok s
  | n + 1, va, s =>
    match takeTable eid s with
    | none => .error 3
    | some (f, s) =>
      match putEntry eid va 1 (1 + 64 + 2 ^ 52 * bitsAt attr 10 10 + 2 ^ 60 * bitsAt attr 15 12 + 65536 * f) s with
      | .error n => .error n
      | .ok s => mapGrow eid attr n (va + BitVec.ofNat 64 (2 ^ 21)) s

/-- Something of a range of 2 MiB or 1 GiB is mapped below the level of a page. -/
def rangeMapped (s : State) (eid : Nat) (va len : Nat) : Bool :=
  s.images.any (fun i => i.2.eid == eid && decide (i.2.base.toNat < va + len) && decide (va < i.2.base.toNat + i.2.size))

/-- All ones: frames from the pool. -/
def poolFrame : Nat := 2 ^ 64 - 1

/-- A map request's fields are within their limits (R421). -/
def mapOk (m : Msg) : Bool :=
  let attr := pay m 12 4
  let psz := bitsAt attr 1 0
  let size := 65536 * pageFrames psz
  m.payload.length == 16 && m.arg2 == 0 && argOnly m (eidMask + 0x30000) && bitsAt attr 31 16 == 0 && bitsAt attr 6 2 == 0 &&
  !(bitsAt attr 9 9 == 1 && bitsAt attr 8 8 == 1) && psz != 3 && decide (m.addr.toNat % size = 0) &&
  decide (m.addr.toNat + pay m 8 4 * size ≤ 2 ^ 56) &&
  (if bitsAt attr 11 11 = 1 then psz == 1 && pay m 0 8 == poolFrame
   else pay m 0 8 == poolFrame || (decide (pay m 0 8 % size = 0) && decide (pay m 0 8 + pay m 8 4 * size ≤ 2 ^ 39)))

/-- Map pages (R421). -/
def execMapPages (m : Msg) (s : State) : Result :=
  ctrlEng m 0x03 (mapOk m) (fun eid =>
    let attr := pay m 12 4
    let n := pay m 8 4
    let psz := bitsAt attr 1 0
    if rangeMapped s eid m.addr.toNat (n * 65536 * pageFrames psz) then .next (reply m 4 [] s)
    else if bitsAt attr 11 11 = 1 then
      match mapGrow eid attr n m.addr s with
      | .error k => .next (reply m k [] s)
      | .ok s => .next (reply m 0 [] s)
    else
      let frame := if pay m 0 8 = poolFrame then none else some (pay m 0 8 / 65536)
      match mapRun eid (argBits m 17 16) psz attr n m.addr frame s with
      | .error (2, c) => .next (replyFault m c 0 m.addr s)
      | .error (k, _) => .next (reply m k [] s)
      | .ok s => .next (reply m 0 [] s)) s

/-- The leaves of a range, one for each that covers a part of it: entry address, start and size. `n` bounds the search. -/
def leavesIn (s : State) (eid : Nat) (hi : Nat) : Nat → Nat → List (Nat × Nat × Nat)
  | 0, _ => []
  | n + 1, va =>
    if hi ≤ va then []
    else match walkFrom s va levels (engOf s eid).root none with
      | .leaf _ a shift => (a, va / 2 ^ shift * 2 ^ shift, 2 ^ shift) :: leavesIn s eid hi n (va / 2 ^ shift * 2 ^ shift + 2 ^ shift)
      | _ => leavesIn s eid hi n (va + 65536)

/-- Pages of a range are shared pages of a step that is in progress: they are not unmapped before it ends (R407). -/
def heldByStep (s : State) (eid lo len : Nat) : Bool :=
  s.launches.any (fun l => l.record.eng == eid && l.step.isSome && l.phase != .complete) && sharedIn s eid lo len

/-- Unmap pages (R420): the entries become invalid; the answer follows the translation invalidation. Shared pages during a step are
refused with the cause that R402 gives such a range (R407; DESIGN CHOICE, log entry 133). -/
def execUnmapPages (m : Msg) (s : State) : Result :=
  let lo := m.addr.toNat
  let len := m.arg2.toNat
  ctrlEng m 0x04 (m.payload == [] && argOnly m eidMask && decide (lo % 65536 = 0) && decide (len % 65536 = 0) && decide (lo + len ≤ 2 ^ 56)) (fun eid =>
    let ls := leavesIn s eid (lo + len) (len / 65536) lo
    if ls.any (fun l => decide (l.2.1 < lo) || decide (lo + len < l.2.1 + l.2.2)) then .next (reply m 4 [] s)
    else if heldByStep s eid lo len then .next (replyFault m 0x09 5 m.addr s)
    else
      let s := ls.foldl (fun s l => sliceWrite l.1 (leBytes 8 0) 0 s) s
      let s := { s with owed := s.owed ++ [Owed.mk m.conn m.tag (.invalidate eid m.addr len)] }
      .next { s with pending := s.pending ++ [Instr.translationInvalidateDone eid m.addr len] }) s

/-- The engagement of a team on the device, or saved. -/
def teamEid (s : State) (tid : Nat) : Option Nat :=
  ((s.teams ++ s.saved.flatMap (fun v => v.teams.map (·.team))).find? (fun t => t.tid == tid)).map (·.eid)

/-- An access that a peer has not answered yet, made by an engagement through a translation of a range (R221, R423). -/
def peerUses (s : State) (eid : Nat) (va : DWord) (n : Nat) (a : OutAcc) : Bool :=
  let hit := fun (x : DWord) => teamEid s a.team == some eid && decide (va.toNat < x.toNat + 64) && decide (x.toNat < va.toNat + n)
  match a.kind with
  | .ack _ => false
  | .peer x _ _ _ _ _ _ _ => hit x
  | .peerAdd x _ => hit x
  | .peerCommand _ _ x k _ => teamEid s a.team == some eid && decide (va.toNat < x.toNat + k) && decide (x.toNat < va.toNat + n)
  | .peerDone seq => (findLaunch s seq).any (fun l => l.record.eng == eid && decide (va.toNat ≤ l.record.done.toNat) && decide (l.record.done.toNat < va.toNat + n))

/-- A translation invalidation that `Charon` issued completes (R221) once every access to a peer that used an old translation has
performed: the answer is sent. -/
def execTranslationInvalidateDone (eid : Nat) (va : DWord) (len : Nat) (s : State) : Result :=
  match s.owed.find? (fun o => o.wait == .invalidate eid va len) with
  | none => .refused .notEnabled
  | some o =>
    if s.accs.any (peerUses s eid va len) then .refused .notEnabled else
    let s := invalidateRange eid va len s
    .next { s with owed := s.owed.erase o, out := .answer o.conn o.tag 0 0 0 [] :: s.out }

/-- Reserve grow frames (R220, R420). -/
def execReserveGrowFrames (m : Msg) (s : State) : Result :=
  ctrlEng m 0x05 (m.payload == [] && argOnly m (eidMask + 0x30000) && m.addr == 0) (fun eid =>
    let die := argBits m 17 16
    let before := (Sparse.get [] (4 * eid + die) s.freeList).length
    let t := refillList eid die m.arg2.toNat s
    let after := (Sparse.get [] (4 * eid + die) t.freeList).length
    if after < before + m.arg2.toNat then .next (reply m 3 [] s) else .next (reply m 0 (leBytes 8 after) t)) s

/-! ### Engagements (R424 to R427) -/

/-- Ids of engagements that are free. -/
def freeEids (s : State) : List Nat := (List.range 64).filter (fun k => (engOf s k).st == .free)

/-- Create an engagement (R424, R425). -/
def execCreateEngagement (m : Msg) (s : State) : Result :=
  ctrl m 0x01 (m.payload.length == 32 && argOnly m 0 && m.addr == 0 && m.arg2 == 0 && pay m 28 4 == 0 && pay m 24 4 / 2 ^ 9 == 0 &&
      bitsAt (pay m 24 4) 7 6 == 0)
    (match freeEids s, takeTable 64 s with
    | f :: fs, some (root, s) =>
      let eid := nth f (f :: fs) (Config.pickEid s.ctr % (fs.length + 1))
      let e : Engagement := { st := .live, root := 65536 * root, htab := BitVec.ofNat 64 (pay m 0 8), cpool := BitVec.ofNat 64 (pay m 8 8)
                              cpoolSize := BitVec.ofNat 64 (pay m 16 8), logp := BitVec.ofNat 32 (pay m 24 4), kslot := eid
                              acct := [0, 0, 0, 0], nonce := [] }
      let frames := Sparse.set ⟨0, false⟩ root ⟨tableOwner eid, false⟩ s.frames
      .next (reply m 0 (leBytes 4 eid) { s with engs := Sparse.set Engagement.free eid e s.engs, ctr := s.ctr + 1, frames := frames })
    | _, _ => .next (reply m 3 [] s)) s

/-- Exit an engagement, steps 1 and 2 (R426): its launches end. -/
def execExitEngagement (m : Msg) (s : State) : Result :=
  ctrlEng m 0x02 (m.payload.length == 32 && argOnly m eidMask && m.addr == 0 && m.arg2 == 0) (fun eid =>
    let e := { engOf s eid with st := .exiting, nonce := m.payload }
    let s := { s with engs := Sparse.set Engagement.free eid e s.engs }
    let s := (s.launches.filter (fun l => l.record.eng == eid && l.phase == .queued)).foldl (fun s l => killLaunch l s) s
    .next (reply m 0 [] s)) s

/-- The receipt of an exit (R427); `n` gives the bytes scrubbed of each class, which read back as zeros. -/
def receiptOf (eid : Nat) (nonce : List Byte) (us : Nat) (n : Nat → Nat) : List Byte :=
  leBytes 4 0x52454353 ++ leBytes 1 eid ++ leBytes 3 0 ++ padTo 32 0 (nonce.take 32) ++ padTo 32 0 ((shake256 Config.identityKey).take 32) ++
  leBytes 8 us ++
  (List.range 16).flatMap (fun k =>
    if k < 13 then leBytes 4 (k + 1) ++ leBytes 8 (n (k + 1)) ++ leBytes 4 0 ++
      padTo 8 0 ((shake256 (List.replicate (n (k + 1)) 0)).take 8)
    else List.replicate 24 0) ++ List.replicate 48 0

/-- Units of a core's store that no team holds are zero. -/
def scrubStore (s : State) (c : Nat) : State :=
  let held := (teamsOn s c).flatMap (fun t => unitsHeld t c)
  modCore c (fun k => { k with store := k.store.filter (fun e => held.contains (e.1 / 65536))
                               storeTimes := k.storeTimes.filter (fun e => held.contains (e.1 / 16384))
                               storePoison := k.storePoison.filter (fun w => held.contains (w / 16384)) }) s

/-- What a core holds of an engagement is scrubbed; dirty lines are discarded (R426). -/
def scrubCore (eid : Nat) (s : State) (c : Nat) : State :=
  scrubStore (modCore c (fun k => { k with lines := k.lines.filter (fun l => l.eid != eid), icache := k.icache.filter (fun l => l.eid != eid)
                                           bbuf := k.bbuf.filter (fun b => b.handle / 16384 != eid), seq := k.seq.filter (fun c => c.eid != eid) }) s) c

/-- The frames of an engagement and of its tables go back to the pool (R426). -/
def scrubFrames (eid : Nat) (s : State) : State :=
  let fs := (s.frames.filter (fun e => e.2.owner == eid + 1 || e.2.owner == tableOwner eid)).map (·.1)
  fs.foldl (fun s f =>
    let s := zeroRange (65536 * f) 65536 s
    let d := f / framesOfDie
    { s with frames := Sparse.set ⟨0, false⟩ f ⟨0, false⟩ s.frames, poolBack := Sparse.set [] d (Sparse.get [] d s.poolBack ++ [f]) s.poolBack }) s

/-- The unmap requests of an engagement that are still to be answered, as its exit ends every translation it has: their
invalidation is complete (R221, R420; DEDUCED, log entry 134). -/
def answerUnmaps (eid : Nat) (s : State) : State :=
  let mine := fun (o : Owed) => match o.wait with
    | .invalidate e _ _ => e == eid
    | .saves _ _ _ => false
  { s with owed := s.owed.filter (fun o => !mine o)
           out := ((s.owed.filter mine).map (fun o => OutMsg.answer o.conn o.tag 0 0 0 [])).reverse ++ s.out }

/-- The tables that name an engagement lose it, and the lines, translations and connections that are its own (R416, R426). -/
def scrubTables (eid : Nat) (s : State) : State :=
  let s := ((s.conns.filter (fun c => !c.system && c.eid == eid)).map (·.id)).foldl (fun s c => closeConn c s) s
  let s := answerUnmaps eid (walkersDrop (fun w => w.eid == eid) (tlbDrop (fun t => t.eid == eid) s))
  { s with cached := s.cached.filter (fun e => e.eid != eid), packs := s.packs.filter (fun k => k.doer.eid != eid)
           handles := s.handles.filter (fun h => h.1 / 16384 != eid), kv := s.kv.filter (fun v => v.eid != eid)
           siblings := s.siblings.filter (fun b => b.eid != eid), programs := assocErase eid s.programs
           images := s.images.filter (fun i => i.2.eid != eid), windows := s.windows.filter (fun w => w.eid != eid)
           watches := s.watches.filter (fun w => w.eid != eid)
           freeList := Sparse.drop (fun k => k / 4 == eid) s.freeList
           pending := s.pending.filter (fun i => match i with
             | .translationInvalidateDone e _ _ => e != eid
             | _ => true) }

/-- Exit, steps 3 to 6 (R426, R427): once its launches have completed, everything is scrubbed and the receipt is sent. -/
def execExitScrub (eid : Nat) (s : State) : Result :=
  let e := engOf s eid
  if e.st != .exiting || s.launches.any (fun l => l.record.eng == eid && l.phase != .complete) ||
      s.teams.any (fun t => t.eid == eid) || (allCommands s).any (fun c => c.2.eid == eid) then .refused .notEnabled
  else
    let s := (s.cores.map (·.1)).foldl (scrubCore eid) s
    let s := scrubFrames eid (scrubTables eid s)
    let b := receiptOf eid e.nonce (nowUs s) (Config.scrubbed s.ctr)
    .next { s with engs := Sparse.set Engagement.free eid Engagement.free s.engs, ctr := s.ctr + 1, out := .receipt b (Config.sign b) :: s.out }

/-! ### Images (R115, R116, R124 to R126, R372 to R374) -/

/-- The header is right (R124). -/
def headerOk (b : List Byte) : Bool :=
  let w := fun (off n : Nat) => entryField b off n
  decide (64 ≤ b.length) && w 0 4 == 0x494E5954 && w 4 2 == 0x0100 && w 6 2 == 0 && w 12 4 == 0 && w 16 8 == b.length && w 56 8 == 0 &&
  decide (64 + 24 * w 8 4 ≤ b.length) &&
  (b.drop 24).take 32 == (shake256 (b.take 24 ++ List.replicate 32 0 ++ b.drop 56)).take 32

/-- The section table: type, offset and size of each section. -/
def sectionsOf (b : List Byte) : List (Nat × Nat × Nat) :=
  (List.range (entryField b 8 4)).map (fun k => (entryField b (64 + 24 * k) 4, entryField b (72 + 24 * k) 8, entryField b (80 + 24 * k) 8))

/-- A section is of a known type and lies within the image. -/
def sectionOk (b : List Byte) (k : Nat) (x : Nat × Nat × Nat) : Bool :=
  decide (1 ≤ x.1) && decide (x.1 ≤ 8) && entryField b (68 + 24 * k) 4 == 0 && decide (x.2.1 % 64 = 0) && decide (x.2.1 + x.2.2 ≤ b.length)

/-- The image has a section of a type. -/
def hasSection (b : List Byte) (t : Nat) : Bool := (sectionsOf b).any (fun x => x.1 == t)

/-- Bytes of the section of a type: of the first one, and nothing without one (DESIGN CHOICE, log entry 111). -/
def sectionBytes (b : List Byte) (t : Nat) : List Byte :=
  match (sectionsOf b).find? (fun x => x.1 == t) with
  | none => []
  | some x => (b.drop x.2.1).take x.2.2

/-- Records of a fixed size. -/
def chunksOf (n : Nat) : Nat → List Byte → List (List Byte)
  | 0, _ => []
  | k + 1, b => if b.length < n then [] else b.take n :: chunksOf n k (b.drop n)

/-- Slot `n` of a kernel's code. -/
def slotBytes (code : List Byte) (off n : Nat) : List Byte := (code.drop (off + 12 * n)).take 12

/-- A pool header names a kind and stays within the kernel (R115): the slots of its pool. One with `NSLOT` = 0 is rejected (DESIGN
CHOICE, log entry 110: R115 gives the range 1 to 65,535 and does not list 0 among the rejections). -/
def poolSlots (b : List Byte) (n slots : Nat) : Option Nat :=
  let k := entryField b 6 2
  if decide (entryField b 10 1 ≤ 1) && entryField b 8 2 == 0 && entryField b 0 6 == 0 && decide (1 ≤ k) && decide (n + k < slots) then some k else none

/-- The slot map of a kernel agrees with its pools, from slot `n` on; `k` slots of a pool are left (R115, R126). -/
def slotsOk (code : List Byte) (off slots : Nat) (map : List Bool) : Nat → Nat → Nat → Bool
  | 0, _, _ => true
  | fuel + 1, n, k =>
    let bit := nth false map n
    if k ≠ 0 then !bit && slotsOk code off slots map fuel (n + 1) (k - 1)
    else
      let b := slotBytes code off n
      if nth 0 b 11 = 0xFF then
        match poolSlots b n slots with
        | none => false
        | some p => !bit && slotsOk code off slots map fuel (n + 1) p
      else slotsOk code off slots map fuel (n + 1) 0

/-- Bits of a slot map (R126). -/
def mapBits (b : List Byte) (n : Nat) : List Bool := (List.range n).map (bitIn b)

/-- A kernel record (R125) with its map; `range` is where the code section will lie. -/
def kernelAt (b : List Byte) (maps : List Byte) (range : DWord) : Kernel :=
  let w := fun (off n : Nat) => entryField b off n
  { base := range + BitVec.ofNat 64 (w 4 4), slots := w 8 4, entry := w 12 4, map := mapBits (maps.drop (w 16 4)) (w 8 4)
    width := (if w 20 1 = 16 then .w16 else if w 20 1 = 32 then .w32 else .w64), top := w 21 1, tiles := w 22 1, units := w 23 1
    ngroups := w 24 1 % 128, pair := decide (128 ≤ w 24 1), nteams := w 25 1 % 128, gpair := decide (128 ≤ w 25 1)
    classes := BitVec.ofNat 3 (w 26 1), psize := w 28 4, watchdog := w 32 8 }

/-- A kernel record is well formed (R125, R126); its name is not looked at (DESIGN CHOICE, log entry 112). Its slot map counts every
byte from its offset to the end of the section (DESIGN CHOICE, log entry 140: R125 gives no length). -/
def kernelOk (b code maps : List Byte) : Bool :=
  let w := fun (off n : Nat) => entryField b off n
  let k := kernelAt b maps 0
  decide (w 4 4 % 64 = 0) && decide (w 4 4 + 12 * k.slots ≤ code.length) && decide (k.entry < k.slots) &&
  [16, 32, 64].contains (w 20 1) && decide (k.top ≤ 3) && (k.width != .w64 || decide (k.top ≤ 1)) && decide (k.tiles ≤ 12) &&
  decide (k.units ≤ 7) && decide (1 ≤ k.ngroups) && decide (k.ngroups ≤ 32) && decide (1 ≤ k.nteams) && decide (k.nteams ≤ 16) &&
  decide (1 ≤ w 26 1) && decide (w 26 1 < 8) && w 27 1 == 0 &&
  decide (1024 ≤ k.watchdog) && decide (k.watchdog ≤ 2 ^ 40) && (b.drop 40).all (· == 0) &&
  decide (k.slots ≤ 8 * (maps.drop (w 16 4)).length) && slotsOk code (w 4 4) k.slots k.map k.slots 0 0

/-- A patch point (R126). -/
def patchOf (b : List Byte) : Nat × Nat × Nat := (entryField b 0 4, entryField b 8 4, entryField b 12 4)

/-- Nodes and edges of a graph section (R374). -/
def graphNodes (b : List Byte) : List (List Byte) := chunksOf 64 (entryField b 0 4) (b.drop 8)
def graphEdges (b : List Byte) : List (Nat × Nat) :=
  let e := b.drop (8 + 64 * entryField b 0 4)
  (chunksOf 8 e.length e).map (fun p => (entryField p 0 4, entryField p 4 4))

/-- Nodes left after those without a predecessor among them have been removed, `n` times over. -/
def peel (edges : List (Nat × Nat)) : Nat → List Nat → List Nat
  | 0, ns => ns
  | k + 1, ns => peel edges k (ns.filter (fun n => edges.any (fun e => e.2 == n && ns.contains e.1)))

/-- A graph section is well formed (R374): a node has at most 8 predecessors, however often a pair names one. -/
def graphOk (b : List Byte) : Bool :=
  let n := entryField b 0 4
  let es := graphEdges b
  (decide (1 ≤ n) && decide (n ≤ 4096) && entryField b 4 4 == 0 && decide (8 + 64 * n ≤ b.length) && decide ((b.length - 8 - 64 * n) % 8 = 0) &&
    es.all (fun e => decide (e.1 < n) && decide (e.2 < n)) && (List.range n).all (fun k => decide (((es.filter (fun e => e.2 == k)).map (·.1)).eraseDups.length ≤ 8)) &&
    peel es n (List.range n) == [])

/-- The checks of steps 1 and 2 of R372. -/
def imageOk (b : List Byte) : Bool :=
  let secs := sectionsOf b
  let kb := sectionBytes b 4
  let ks := chunksOf 64 kb.length kb
  let pb := sectionBytes b 2
  let ps := (chunksOf 16 pb.length pb).map patchOf
  headerOk b && ((List.range secs.length).zip secs).all (fun e => sectionOk b e.1 e.2) && decide (kb.length % 64 = 0) && decide (pb.length % 16 = 0) &&
  ks.all (fun k => kernelOk k (sectionBytes b 5) (sectionBytes b 6)) &&
  ps.all (fun p => decide (p.1 < ks.length) && decide (p.2.1 + p.2.2 ≤ entryField (nth [] ks p.1) 28 4) && (p.2.2 == 4 || p.2.2 == 8)) &&
  (!hasSection b 1 || graphOk (sectionBytes b 1))

/-- A range of an engagement's addresses is not mapped, and no page of it may be: no leaf and no level-1 pointer. -/
def unmappedPage (s : State) (eid va : Nat) : Bool :=
  match walkFrom s va levels (engOf s eid).root none with
  | .bad 0x08 0x01 => true
  | _ => false

/-- Size of what stands mapped at an address, as a power of two: a leaf's page, or all that an entry of a level covers. -/
def coverShift (s : State) (eid va : Nat) : Nat :=
  match walkFrom s va levels (engOf s eid).root none with
  | .leaf _ _ shift => shift
  | .grow _ _ => 21
  | _ => 16

/-- The first page behind what stands mapped at the last mapped page of `n` pages from `p` on; none where all of them are unmapped. -/
def pastMapped (s : State) (eid p : Nat) : Nat → Option Nat
  | 0 => none
  | n + 1 =>
    if unmappedPage s eid (65536 * (p + n)) then pastMapped s eid p n
    else let k := coverShift s eid (65536 * (p + n)) - 16; some (((p + n) / 2 ^ k + 1) * 2 ^ k)

/-- The first range of `n` unmapped pages at or after a page, below page 2^40. -/
def seekRange (s : State) (eid n : Nat) : Nat → Nat → Option Nat
  | 0, _ => none
  | fuel + 1, p =>
    if 2 ^ 40 < p + n then none
    else match pastMapped s eid p n with
      | none => some p
      | some q => seekRange s eid n fuel q

/-- Mapped places that a search may have to pass: what is mapped stands in bytes of memory that are not 0. -/
def seekFuel (s : State) : Nat := s.mem.length + 2

/-- A range of unmapped pages for a code section (R372 step 3; DESIGN CHOICE, log entry 89): at or after a free starting point, or
else anywhere. -/
def codeRange (s : State) (eid n : Nat) : Option Nat :=
  (seekRange s eid n (seekFuel s) (Config.codePage s.ctr % 2 ^ 40)).or (seekRange s eid n (seekFuel s) 0)

/-- Maps the code section and writes it (R372 step 3). -/
def loadCode (eid : Nat) : List (List Byte) → DWord → State → Option State
  | [], _, s => some s
  | b :: t, va, s =>
    match onAnyDie (fun d => takeFrame (eid + 1) d false s) with
    | none => none
    | some (f, s) =>
      match putEntry eid va 0 (0x2B + 65536 * f) s with
      | .error _ => none
      | .ok s => loadCode eid t (va + 65536) (memWrite (65536 * f) b s)

/-- Pages of a code section, the last one filled with zeros. -/
def codePages (code : List Byte) : List (List Byte) := chunksOf 65536 (code.length / 65536 + 1) (padTo (ceilDiv code.length 65536 * 65536) 0 code)

/-- Kernels of all images. -/
def kernelCount (s : State) : Nat := (s.images.map (fun i => i.2.kernels.length)).sum

/-- Load an image (R372): an image that fails a check is rejected with nothing loaded. -/
def execLoadImage (m : Msg) (s : State) : Result :=
  ctrlEng m 0x08 (m.payload == [] && argOnly m eidMask) (fun eid =>
    match readVa eid m.addr m.arg2.toNat s with
    | (.stop va p, s) => replyPlace m va p s
    | (.bytes b, s) =>
      let kb := sectionBytes b 4
      let ks := chunksOf 64 kb.length kb
      let code := sectionBytes b 5
      let pages := ceilDiv code.length 65536
      let slot := (List.range 256).find? (fun k => (assoc k s.images).isNone)
      if !imageOk b || decide (256 < kernelCount s + ks.length) then .next (replyFault m 0 0 0 s)
      else match slot, codeRange s eid pages with
        | some slot, some p =>
          let base : DWord := BitVec.ofNat 64 (65536 * p)
          let pb := sectionBytes b 2
          let i : Image := { eid := eid, base := base, size := 65536 * pages, kernels := ks.map (fun k => kernelAt k (sectionBytes b 6) base)
                             graph := graphNodes (sectionBytes b 1), edges := graphEdges (sectionBytes b 1), digest := (b.drop 24).take 32
                             patches := (chunksOf 16 pb.length pb).map patchOf }
          match loadCode eid (codePages code) base s with
          | none => .next (reply m 3 [] s)
          | some t => .next (reply m 0 (leBytes 4 slot ++ leBytes 4 0 ++ leBytes 8 base.toNat)
              { t with images := t.images ++ [(slot, i)], ctr := t.ctr + 1 })
        | _, _ => .next (replyFault m 0 0 0 s)) s

/-- Unload an image (R373): the instruction caches lose what they hold of the engagement (R213). -/
def execUnloadImage (m : Msg) (s : State) : Result :=
  let slot := argBits m 23 8
  ctrl m 0x09 (m.payload == [] && argOnly m 0xFFFF00 && m.addr == 0 && m.arg2 == 0)
    (match assoc slot s.images with
    | none => .next (reply m 4 [] s)
    | some i =>
      if s.launches.any (fun l => l.phase != .complete && l.record.img == slot) then .next (reply m 3 [] s)
      else
        let r := clearLeaves i.eid (i.size / 65536) i.base s
        let s := invalidateRange i.eid i.base i.size r.2
        let s := (s.cores.map (·.1)).foldl (fun s c => modCore c (fun k => { k with icache := k.icache.filter (fun l => l.eid != i.eid) }) s) s
        .next (reply m 0 [] { s with images := assocErase slot s.images })) s

/-! ### Step programs (R388) -/

/-- Register a step program. -/
def execRegisterStepProgram (m : Msg) (s : State) : Result :=
  ctrlEng m 0x0A (m.payload.length == 44 && argOnly m eidMask && m.addr == 0 && m.arg2 == 0) (fun eid =>
    let p : StepProgram := { img := pay m 0 4, kidx := pay m 4 4, nslot := pay m 8 4, nb := [pay m 12 4, pay m 16 4, pay m 20 4, pay m 24 4]
                             slotTab := BitVec.ofNat 64 (pay m 28 8), snapTab := BitVec.ofNat 64 (pay m 36 8), steps := 0, start := [], ends := []
                             cancel := [], cancelDue := [], took := [], failed := [], snap := [] }
    let kernel := match assoc p.img s.images with
      | none => false
      | some i => i.eid == eid && decide (p.kidx < i.kernels.length)
    let aligned := fun (a : DWord) => decide (a.toNat % 64 = 0) && decide (a.toNat / 2 ^ 56 = 0)
    if (programOf s eid).isSome || !kernel || decide (p.nslot < 1) || decide (4096 < p.nslot) || p.nb.sum != p.nslot || !aligned p.slotTab ||
        !aligned p.snapTab || decide (8192 < (s.programs.map (fun e => e.2.nslot)).sum + p.nslot) then .next (reply m 4 [] s)
    else if s.launches.any (fun l => l.phase == .queued && l.record.eng == eid && l.record.img == p.img && l.record.kidx == p.kidx) then
      .next (reply m 3 [] s)
    else .next (reply m 0 [] { s with programs := assocSet eid p s.programs })) s

/-- Unregister a step program: its sibling groups and copies go with it. -/
def execUnregisterStepProgram (m : Msg) (s : State) : Result :=
  ctrlEng m 0x0B (m.payload == [] && argOnly m eidMask && m.addr == 0 && m.arg2 == 0) (fun eid =>
    if (programOf s eid).isNone then .next (reply m 4 [] s)
    else if s.launches.any (fun l => l.phase == .queued && l.record.eng == eid && l.isStep) then .next (reply m 3 [] s)
    else
      let s := discardCopies (fun v => v.eid == eid) s
      .next (reply m 0 [] { s with programs := assocErase eid s.programs, siblings := s.siblings.filter (fun b => b.eid != eid) })) s

/-! ### Handles (R347, R349, R351) -/

/-- A descriptor that may be written (R347). -/
def descriptorOk (b : List Byte) : Bool :=
  let w := fun (off n : Nat) => entryField b off n
  let c := w 0 4
  let ext := [w 12 4, w 16 4, w 20 4, w 24 4]
  let used := (ext.takeWhile (· ≠ 0)).length
  b.length == 64 && c % 2 == 1 && bitsAt c 2 1 != 3 && bitsAt c 7 6 != 3 && decide (bitsAt c 15 13 ≤ 4) && bitsAt c 31 16 == 0 &&
  (ext.drop used).all (· == 0) && decide (((ext.take used).foldl (fun (a b : Nat) => a * b) 1) ≤ 2 ^ 32) && w 28 4 == 0 && decide (w 32 8 % 65536 = 0) &&
  decide (w 32 8 / 2 ^ 56 = 0) && (bitsAt c 12 12 == 0 || w 32 8 == 0) && (b.drop 48).all (· == 0)

/-- `ARG` bits 31:18, a handle id. -/
def argHandle (m : Msg) : Nat := argBits m 31 18

/-- Write a handle descriptor: it allocates the handle, in backing, or absent with `DROP`. -/
def execWriteHandleDescriptor (m : Msg) (s : State) : Result :=
  ctrlEng m 0x0C (descriptorOk m.payload && argOnly m (eidMask + 0xFFFC0000) && m.addr == 0 && m.arg2 == 0) (fun eid =>
    let h := argHandle m
    if (readDesc s eid h).isSome then .next (reply m 4 [] s)
    else
      let st := if bitsAt (pay m 0 4) 12 12 = 1 then 0 else 1
      let b := m.payload.take 4 ++ leBytes 4 st ++ (m.payload.drop 8).take 32 ++ List.replicate 24 0
      match writeTable eid (descAddr s eid h) b s with
      | (some (va, p), s) => replyPlace m va p s
      | (none, s) => .next (reply m 0 [] { s with handles := assocErase (handleKey eid h) s.handles })) s

/-- Free a handle: a resident one is demoted first, once no move of it and no command into its shadow is in flight (R353, R420). -/
def execFreeHandle (m : Msg) (s : State) : Result :=
  ctrlEng m 0x0D (m.payload == [] && argOnly m (eidMask + 0xFFFC0000) && m.addr == 0 && m.arg2 == 0) (fun eid =>
    let h := argHandle m
    match readDesc s eid h with
    | none => .next (reply m 4 [] s)
    | some d =>
      if d.kind == 2 || leaseHolds s d then .next (reply m 3 [] s)
      else if d.state = 3 || (d.state = 2 && handleBusy s eid h) then .refused .notEnabled
      else
        let s := dropKeys eid h (if d.state = 2 then finishDemote eid h 0 d s else s)
        let s := (writeTable eid (descAddr s eid h) (List.replicate 64 0) s).2
        .next (reply m 0 [] { s with handles := assocErase (handleKey eid h) s.handles })) s

/-! ### Windows and watch units (R422, R428) -/

/-- Export a window to a peer's connection. -/
def execExportWindow (m : Msg) (s : State) : Result :=
  let conn := pay m 0 4
  let len := m.arg2.toNat
  ctrlEng m 0x10 (m.payload.length == 4 && argOnly m eidMask && decide (m.addr.toNat % 65536 = 0) && decide (len % 65536 = 0) && decide (len ≤ 2 ^ 36) &&
      decide (m.addr.toNat + len ≤ 2 ^ 56) && s.conns.any (fun k => k.id == conn && k.peer)) (fun eid =>
    match (List.range 256).find? (fun k => !s.windows.any (fun w => w.id == k)) with
    | none => .next (reply m 3 [] s)
    | some k => .next (reply m 0 (leBytes 4 k) { s with windows := s.windows ++ [⟨k, eid, m.addr, len, conn⟩] })) s

/-- Maps the pages of a peer's window, from page `k` of it on. -/
def mapWindow (eid conn win : Nat) : Nat → Nat → DWord → State → Except Nat State
  | 0, _, _, s => .ok s
  | n + 1, k, va, s =>
    match putEntry eid va 0 (3 + 8 + 16 + 2 ^ 55 + 2 ^ 44 * conn + 2 ^ 36 * win + 65536 * k) s with
    | .error e => .error e
    | .ok s => mapWindow eid conn win n (k + 1) (va + 65536) s

/-- Import a window of a peer. -/
def execImportWindow (m : Msg) (s : State) : Result :=
  let conn := pay m 0 4
  let win := pay m 4 4
  let len := m.arg2.toNat
  ctrlEng m 0x11 (m.payload.length == 8 && argOnly m eidMask && decide (m.addr.toNat % 65536 = 0) && decide (len % 65536 = 0) && decide (len ≤ 2 ^ 36) &&
      decide (m.addr.toNat + len ≤ 2 ^ 56) && decide (conn < 256) && decide (win < 256) && s.conns.any (fun k => k.id == conn && k.peer)) (fun eid =>
    match mapWindow eid conn win (len / 65536) 0 m.addr s with
    | .error k => .next (reply m k [] s)
    | .ok s => .next (reply m 0 [] s)) s

/-- Revoke an exported window. -/
def execRevokeWindow (m : Msg) (s : State) : Result :=
  let k := argBits m 15 8
  ctrl m 0x12 (m.payload == [] && argOnly m 0xFF00 && m.addr == 0 && m.arg2 == 0 && s.windows.any (fun w => w.id == k))
    (.next (reply m 0 [] { s with windows := s.windows.filter (fun w => w.id != k) })) s

/-- Program a range watch unit. -/
def execProgramWatchUnit (m : Msg) (s : State) : Result :=
  let unit := argBits m 13 8
  let eid := argBits m 19 14
  let len := m.arg2.toNat
  ctrl m 0x14 (m.payload == [] && argOnly m 0x1FFFF00 && decide (m.addr.toNat % 65536 = 0) && decide (len % 65536 = 0) &&
      decide (m.addr.toNat + len ≤ 2 ^ 56))
    (if (engOf s eid).st != .live then .next (reply m 1 [] s)
    else
      let others := s.watches.filter (fun w => w.unit != unit)
      if (engOf s eid).logp.toNat % 64 ≤ (others.filter (fun w => w.eid == eid)).length then .next (reply m 4 [] s)
      else .next (reply m 0 [] { s with watches := others ++ [⟨unit, eid, m.addr, len, BitVec.ofNat 5 (argBits m 24 20)⟩] })) s

/-- Clear a range watch unit. -/
def execClearWatchUnit (m : Msg) (s : State) : Result :=
  ctrl m 0x15 (m.payload == [] && argOnly m eidMask && m.addr == 0 && m.arg2 == 0)
    (.next (reply m 0 [] { s with watches := s.watches.filter (fun w => w.unit != argBits m 13 8) })) s

/-! ### Attestation and launches (R382, R432) -/

/-- Count of a die's cores of a class; 3: disabled. -/
def coresOf (s : State) (die k : Nat) : Nat := ((List.range 48).filter (fun c => (coreClass s (48 * die + c)).getD 3 == k)).length

/-- `DCAP` of a die (R337). -/
def dcap (s : State) (die : Nat) : Nat :=
  let blocks := (List.range 48).filter (fun c => coreClass s (48 * die + c) == some 2) |>.map (fun c => (fuseOf s (48 * die + c)).blocks)
  2 ^ 32 * coresOf s die 3 + 2 ^ 24 * coresOf s die 2 + 2 ^ 16 * coresOf s die 1 + 2 ^ 8 * coresOf s die 0 + blocks.sum % 256

/-- The bytes of an engagement's record (R424). -/
def engBytes (eid : Nat) (e : Engagement) : List Byte :=
  leBytes 4 eid ++ leBytes 4 e.kslot ++ leBytes 8 e.root ++ leBytes 8 e.htab.toNat ++ leBytes 8 e.cpool.toNat ++ leBytes 8 e.cpoolSize.toNat ++
  leBytes 4 e.logp.toNat ++ leBytes 4 1

/-- The attestation report (R432). -/
def attestOf (s : State) (nonce : List Byte) (eid : Option Nat) : List Byte :=
  nonce ++ s.fwDigest ++ leBytes 8 s.fwVersion ++ (List.range 4).flatMap (fun d => leBytes 8 (dcap s d)) ++
  match eid with
  | none => []
  | some k => ((s.images.filter (fun i => i.2.eid == k)).flatMap (fun i => i.2.digest)) ++ shake256 (engBytes k (engOf s k))

/-- Attest. -/
def execAttest (m : Msg) (s : State) : Result :=
  let incl := decide (argBits m 14 14 = 1)
  ctrl m 0x18 (m.payload.length == 32 && argOnly m 0x7F00 && (incl || argEid m == 0) && m.addr == 0 && m.arg2 == 0)
    (if incl && (engOf s (argEid m)).st != .live then .next (reply m 1 [] s)
    else
      let b := attestOf s m.payload (if incl then some (argEid m) else none)
      .next (reply m 0 (b ++ Config.sign b) s)) s

/-- Pre-empt gangs of a launch (R382): the answer follows the last save. -/
def execPreemptGangs (m : Msg) (s : State) : Result :=
  let first := pay m 0 4
  let n := pay m 4 4
  ctrl m 0x19 (m.payload.length == 8 && argOnly m 0 && m.addr == 0)
    (match (findLaunch s m.arg2.toNat).filter (fun l => l.phase == .queued) with
    | none => .next (reply m 4 [] s)
    | some l =>
      let gs := l.placed.filter (fun a => decide (first ≤ a.gang) && decide (a.gang < first + n))
      let s := gs.foldl (fun s a => beginSave l a s) s
      .next (paySaves { s with owed := s.owed ++ [⟨m.conn, m.tag, .saves l.seq first n⟩] })) s

/-- Terminate a launch. -/
def execTerminateLaunch (m : Msg) (s : State) : Result :=
  ctrl m 0x1A (m.payload == [] && argOnly m 0 && m.addr == 0)
    (match (findLaunch s m.arg2.toNat).filter (fun l => l.phase == .queued) with
    | none => .next (reply m 4 [] s)
    | some l => .next (reply m 0 [] (killLaunch l s))) s

/-! ### Registers (R205, R222, R337, R342, R344, R370, R409, R419, R435) -/

/-- A register selector. -/
structure Selector where
  reg : Nat
  idx : Nat
  core : Nat
  slice : Nat
  die : Nat

/-- The fields of a selector. -/
def selectorOf (x : DWord) : Selector := ⟨bitsAt x.toNat 7 0, bitsAt x.toNat 15 8, bitsAt x.toNat 21 16, bitsAt x.toNat 28 22, bitsAt x.toNat 31 30⟩

/-- The register exists, and the fields that do not apply are zero (R419). -/
def registerOk (x : DWord) : Bool :=
  let r := selectorOf x
  let z := fun (i c sl d : Bool) => (i || r.idx == 0) && (c || r.core == 0) && (sl || r.slice == 0) && (d || r.die == 0)
  bitsAt x.toNat 29 29 == 0 && bitsAt x.toNat 63 32 == 0 &&
  match r.reg with
  | 1 => z false false false true
  | 2 => z false true false true && decide (r.core < 48)
  | 3 => z true false true true && decide (r.idx < 16) && decide (r.slice < 32)
  | 4 => z false false false false
  | 5 => z false false false false
  | 6 => z true true false true && decide (r.idx < 3) && decide (r.core < 48)
  | 7 => z true false true true && decide (r.idx < 2) && decide (r.slice < 32)
  | 8 => z true true false false && decide (r.idx < 64) && decide (r.core < 4)
  | _ => false

/-- `CORECFG` (R205). -/
def corecfg (k : Core) : Nat := 2 ^ 40 * k.age + 2 ^ 32 * k.lease + (if k.chg then 256 else 0) + k.localUnits

/-- Value of a device register. -/
def registerValue (s : State) (r : Selector) : Nat :=
  match r.reg with
  | 1 => dcap s r.die
  | 2 => corecfg (coreAt s (48 * r.die + r.core))
  | 3 => let w := wgOf s (32 * r.die + r.slice) r.idx; 65536 * w.clsm.toNat + (if w.busy then 8 else 0) + w.role.toNat
  | 4 => 2 ^ 40 * s.ageth.toNat + 65536 * s.w2.toNat + 256 * s.w1.toNat + s.w0.toNat
  | 5 => 65536 * s.capw + 256 * s.pstep + s.ttrip
  | 6 => let k := coreAt s (48 * r.die + r.core); nth 0 [k.corrected, k.uncorrected, k.discarded] r.idx
  | 7 => Sparse.get 0 (2 * (32 * r.die + r.slice) + r.idx) s.sliceErrors
  | _ => nth 0 (engOf s r.idx).acct r.core

/-- A write of a way-group's register (R342, R344): `CLSM`, and a role that differs starts a change. -/
def writeWg (slice wg v : Nat) (s : State) : State :=
  modWg slice wg (fun w =>
    let w := { w with clsm := BitVec.ofNat 16 (bitsAt v 31 16) }
    let role := BitVec.ofNat 2 (bitsAt v 1 0)
    if w.busy || role == 3 || role == w.role then w else { w with busy := true, next := role }) s

/-- A write of the RW fields of a device register; none for one that software does not write (R419). -/
def putRegister (r : Selector) (v : Nat) (s : State) : Option State :=
  match r.reg with
  | 2 => some (modCore (48 * r.die + r.core) (fun k => { k with age := bitsAt v 47 40, lease := bitsAt v 39 32 }) s)
  | 3 => some (writeWg (32 * r.die + r.slice) r.idx v s)
  | 4 => some { s with ageth := BitVec.ofNat 8 (bitsAt v 47 40), w2 := BitVec.ofNat 8 (bitsAt v 23 16), w1 := BitVec.ofNat 8 (bitsAt v 15 8)
                       w0 := BitVec.ofNat 8 (bitsAt v 7 0) }
  | 5 => let c := bitsAt v 31 16; some (if 600 ≤ c ∧ c ≤ 2400 then { s with capw := c } else s)
  | _ => none

/-- Read a register. -/
def execReadRegister (m : Msg) (s : State) : Result :=
  ctrl m 0x20 (m.payload == [] && argOnly m 0 && m.addr == 0 && registerOk m.arg2)
    (.next (reply m 0 (leBytes 8 (registerValue s (selectorOf m.arg2))) s)) s

/-- Write a register. -/
def execWriteRegister (m : Msg) (s : State) : Result :=
  ctrl m 0x21 (m.payload.length == 8 && argOnly m 0 && m.addr == 0 && registerOk m.arg2)
    (match putRegister (selectorOf m.arg2) (pay m 0 8) s with
    | none => .next (reply m 4 [] s)
    | some t => .next (reply m 0 [] t)) s

/-- A write of a way-group's register with a new role (R344). -/
def execWgcfgRoleWrite (m : Msg) (s : State) : Result :=
  let r := selectorOf m.arg2
  ctrl m 0x21 (m.payload.length == 8 && argOnly m 0 && m.addr == 0 && registerOk m.arg2 && r.reg == 3)
    (.next (reply m 0 [] (writeWg (32 * r.die + r.slice) r.idx (pay m 0 8) s))) s

/-! ### Firmware and reset (R430, R431, R433) -/

/-- Deliver a piece of a firmware image: pieces come in ascending order; after the last the boot ROM checks the image. -/
def execDeliverFirmware (m : Msg) (s : State) : Result :=
  let off := m.addr.toNat
  let size := m.arg2.toNat
  let n := m.payload.length
  ctrl m 0x28 (argOnly m 0 && decide (1 ≤ n) && decide (n ≤ 4096) && decide (off + n ≤ size) && (off == 0 || off == s.fwPieces.length))
    (let b := (if off = 0 then [] else s.fwPieces) ++ m.payload
    if off + n < size then .next (reply m 0 [] { s with fwPieces := b })
    else
      let s := { s with fwPieces := [] }
      if accepts s b then
        let s := { s with fwImage := some b }
        .next (reply m 0 [] (if s.recovery then boots b s else s))
      else .next (replyFault m 0 0 0 s)) s

/-- Commit the rollback floor. -/
def execCommitRollbackFloor (m : Msg) (s : State) : Result :=
  ctrl m 0x29 (m.payload == [] && argOnly m 0 && m.addr == 0 && m.arg2 == 0)
    (let r := max s.rollback (min s.fwFloor 64)
    .next (reply m 0 (leBytes 4 r) { s with rollback := r })) s

/-- The machine at the start of its first phase, with what a reset keeps: fuses, the accepted firmware, temperatures, what
has been sent, and the model's own counters. -/
def restart (warm : Bool) (s : State) : State :=
  let r := State.reset
  let ended := if warm then (s.engs.filter (fun e => e.2.st == .live)).map (fun e => OutMsg.ended e.1) else []
  { r with warm := warm, fuses := s.fuses, rollback := s.rollback, fwImage := s.fwImage, temps := s.temps, out := ended ++ s.out
           ctr := s.ctr, fresh := s.fresh }

/-- Warm reset (R433): every engagement live before it is reported ended. -/
def execWarmReset (m : Msg) (s : State) : Result :=
  ctrl m 0x2A (m.payload == [] && argOnly m 0x100 && argBits m 8 8 == 0 && m.addr == 0 && m.arg2 == 0) (.next (restart true s)) s

/-- Cold reset (R433). -/
def execColdReset (m : Msg) (s : State) : Result :=
  ctrl m 0x2A (m.payload == [] && argOnly m 0x100 && argBits m 8 8 == 1 && m.addr == 0 && m.arg2 == 0) (.next (restart false s)) s

end Sys2Proof.Machine
end

