-- ==== Sys2Proof/Machine/Integer.lean ====
section
/-! DEFINITION. The integer, bit, move and predicate instructions (R127 to R148). -/

namespace Sys2Proof.Machine

/-! ### Arithmetic (R132 to R136) -/

/-- Step 5 for D, A, B of type `t`. -/
def okDAB (t : Ty) (g : Group) (x : Fields) : Bool :=
  formDAB x && regsOk g [(x.d, regCount t), (x.a, regCount t), (x.b, regCount t)]

/-- Step 5 for D, A of type `t`. -/
def okDA (t : Ty) (g : Group) (x : Fields) : Bool := formDA x && regsOk g [(x.d, regCount t), (x.a, regCount t)]

/-- Sources A, B of type `t`, as R222 reads them. -/
def srcAB (t : Ty) (x : Fields) : List (Opnd × Nat) := [(x.a, regCount t), (x.b, regCount t)]

/-- An instruction D := f(A, B) on each element of a type. -/
def runElems (t : Ty) (x : Fields) (f : Int → Int → Int) (s : State) : Result :=
  runMap x (okDAB t s.g x) (srcAB t x) (fun g i =>
    wordsTy t (mapElems t (fun e => f (elemVal t (readTy t g x i x.a) e) (elemVal t (readTyB t g x i) e)))) s

/-- Wrapping or saturating result (R132). -/
def addResult (f : AddForm) (t : Ty) (v : Int) : Int :=
  match f with
  | .wrap => v
  | .sat => clampInt v (tyMin t) (tyMax t)

/-- `IADD` (R132). -/
def execIadd (f : AddForm) (t : Ty) (x : Fields) (s : State) : Result :=
  runElems t x (fun a b => addResult f t (a + b)) s

/-- `ISUB` (R132). -/
def execIsub (f : AddForm) (t : Ty) (x : Fields) (s : State) : Result :=
  runElems t x (fun a b => addResult f t (a - b)) s

/-- `IMUL` (R133). -/
def execImul (f : MulForm) (t : Ty) (x : Fields) (s : State) : Result :=
  match f with
  | .lo => runElems t x (fun a b => a * b) s
  | .hi => runElems t x (fun a b => (a * b) / (2 ^ elemWidth t : Nat)) s
  | .long => runMap x (formDAB x && regsOk s.g [(x.d, 2), (x.a, 1), (x.b, 1)]) (srcAB t x) (fun g i =>
      words64 (BitVec.ofInt 64 (elemVal t (readTy t g x i x.a) 0 * elemVal t (readTyB t g x i) 0))) s

/-- The addend of `IMAD` long: a pair, or an immediate extended by the signedness of the type (R134). -/
def madAddend (t : Ty) (g : Group) (x : Fields) (i : Nat) : Int :=
  match x.c with
  | .im k => if isSigned t then (immPattern k x.imm).toInt else ((immPattern k x.imm).toNat : Int)
  | _ => ((read64 g x i x.c).toNat : Int)

/-- `IMAD` (R134). -/
def execImad (f : MulForm) (t : Ty) (x : Fields) (s : State) : Result :=
  let n := regCount t
  let long := f == .long
  let nd := if long then 2 else n
  runMap x (formDABC x && regsOk s.g [(x.d, nd), (x.a, n), (x.b, n), (x.c, nd)]) [(x.a, n), (x.b, n), (x.c, nd)]
    (fun g i =>
      let y := elemVal t (readTy t g x i x.a) 0 * elemVal t (readTy t g x i x.b) 0
      let c := elemVal t (readTy t g x i x.c) 0
      match f with
      | .lo => wordsTy t (patternOf (elemWidth t) (y + c))
      | .hi => wordsTy t (patternOf (elemWidth t) ((y + c) / (2 ^ elemWidth t : Nat)))
      | .long => words64 (BitVec.ofInt 64 (y + madAddend t g x i))) s

/-- `IMIN` (R135). -/
def execImin (t : Ty) (x : Fields) (s : State) : Result := runElems t x (fun a b => if a ≤ b then a else b) s

/-- `IMAX` (R135). -/
def execImax (t : Ty) (x : Fields) (s : State) : Result := runElems t x (fun a b => if b ≤ a then a else b) s

/-- An instruction D := f(A) on each element of a type. -/
def runElem (t : Ty) (x : Fields) (f : Int → Int) (s : State) : Result :=
  runMap x (okDA t s.g x) [(x.a, regCount t)] (fun g i =>
    wordsTy t (mapElems t (fun e => f (elemVal t (readTy t g x i x.a) e)))) s

/-- `INEG` (R136). -/
def execIneg (t : Ty) (x : Fields) (s : State) : Result := runElem t x (fun a => -a) s

/-- `IABS` (R136). -/
def execIabs (t : Ty) (x : Fields) (s : State) : Result := runElem t x (fun a => if a < 0 then -a else a) s

/-! ### Shifts, logic and bit fields (R137 to R141) -/

/-- `SHR.ari` of a `w`-bit pattern (R137). -/
def ariShift (w a c : Nat) : Nat :=
  let v := patternVal true w a
  patternOf w (if w ≤ c then (if v < 0 then -1 else 0) else v / (2 ^ c : Nat))

/-- `SHL` of a `w`-bit pattern. -/
def shiftL (w a c : Nat) : Nat := if w ≤ c then 0 else a * 2 ^ c % 2 ^ w

/-- `SHR.log` of a `w`-bit pattern. -/
def shiftR (w a c : Nat) : Nat := if w ≤ c then 0 else a / 2 ^ c

/-- `ROT.l` of a `w`-bit pattern. -/
def rotL (w a c : Nat) : Nat := let m := c % w; (a * 2 ^ m + a / 2 ^ (w - m)) % 2 ^ w

/-- `ROT.r` of a `w`-bit pattern. -/
def rotR (w a c : Nat) : Nat := let m := c % w; (a / 2 ^ m + a * 2 ^ (w - m)) % 2 ^ w

/-- An instruction D := f(A, B) where B is a 32-bit count or control (R129). -/
def runCount (t : Ty) (x : Fields) (f : Nat → Nat → Nat) (s : State) : Result :=
  runMap x (formDAB x && regsOk s.g [(x.d, regCount t), (x.a, regCount t), (x.b, 1)]) [(x.a, regCount t), (x.b, 1)]
    (fun g i => wordsTy t (f (readTy t g x i x.a) (readB32 g x i).toNat)) s

/-- `SHL` (R137). -/
def execShl (t : Ty) (x : Fields) (s : State) : Result := runCount t x (shiftL (elemWidth t)) s

/-- `SHR` (R137). -/
def execShr (f : ShrForm) (t : Ty) (x : Fields) (s : State) : Result :=
  runCount t x (fun a c => match f with
    | .log => shiftR (elemWidth t) a c
    | .ari => ariShift (elemWidth t) a c) s

/-- `ROT` (R137). -/
def execRot (f : RotForm) (t : Ty) (x : Fields) (s : State) : Result :=
  runCount t x (fun a c => match f with
    | .left => rotL (elemWidth t) a c
    | .right => rotR (elemWidth t) a c) s

/-- `LOP.tri`: bit i from the function byte by C, B, A (R138). -/
def triBits (w : Nat) (fn : BitVec 8) (a b c : Nat) : Nat :=
  joinElems 1 ((List.range w).map (fun i =>
    if fn.getLsbD ((if c.testBit i then 4 else 0) + (if b.testBit i then 2 else 0) + (if a.testBit i then 1 else 0))
    then 1 else 0))

/-- The two-input functions of `LOP` on `w`-bit patterns (R138). -/
def lopBits (f : LopForm) (w a b : Nat) : Nat :=
  let ones := 2 ^ w - 1
  match f with
  | .and => a &&& b
  | .or => a ||| b
  | .xor => a ^^^ b
  | .andn => a &&& (ones ^^^ b)
  | .orn => a ||| (ones ^^^ b)
  | .xnor => ones ^^^ (a ^^^ b)
  | .not => ones ^^^ a
  | .tri => 0

/-- `LOP` (R138). -/
def execLop (f : LopForm) (t : Ty) (x : Fields) (s : State) : Result :=
  let n := regCount t
  match f with
  | .tri => runMap x (formDABC x && regsOk s.g [(x.d, n), (x.a, n), (x.b, n), (x.c, n)]) [(x.a, n), (x.b, n), (x.c, n)]
      (fun g i => wordsTy t (triBits (elemWidth t) x.e (readTy t g x i x.a) (readTy t g x i x.b) (readTy t g x i x.c))) s
  | .not => runMap x (okDA t s.g x) [(x.a, n)]
      (fun g i => wordsTy t (lopBits .not (elemWidth t) (readTy t g x i x.a) 0)) s
  | f => runMap x (okDAB t s.g x) (srcAB t x)
      (fun g i => wordsTy t (lopBits f (elemWidth t) (readTy t g x i x.a) (readTyB t g x i))) s

/-- `BFX` (R139): position in bits 7:0 of the control, length in bits 15:8. -/
def extractField (f : BfxForm) (w a ctl : Nat) : Nat :=
  let p := min (ctl % 256) w
  let n := min (ctl / 256 % 256) w
  match f with
  | .zx => shiftR w a p % 2 ^ n
  | .sx => if n = 0 then 0 else patternOf w (patternVal true n (ariShift w a p % 2 ^ n))

/-- `BFX` (R139). -/
def execBfx (f : BfxForm) (t : Ty) (x : Fields) (s : State) : Result := runCount t x (extractField f (elemWidth t)) s

/-- `BFI` (R140). -/
def insertField (w a b ctl : Nat) : Nat :=
  let p := min (ctl % 256) w
  let n := min (ctl / 256 % 256) (w - p)
  let mask := (2 ^ n - 1) * 2 ^ p
  (b &&& ((2 ^ w - 1) ^^^ mask)) ||| ((a * 2 ^ p) &&& mask)

/-- `BFI` (R140). -/
def execBfi (t : Ty) (x : Fields) (s : State) : Result :=
  let n := regCount t
  runMap x (formDABC x && regsOk s.g [(x.d, n), (x.a, n), (x.b, n), (x.c, 1)]) [(x.a, n), (x.b, n), (x.c, 1)]
    (fun g i => wordsTy t (insertField (elemWidth t) (readTy t g x i x.a) (readTy t g x i x.b)
      (read32 g x i x.c).toNat)) s

/-- `LEA` (R141). -/
def execLea (t : Ty) (x : Fields) (s : State) : Result :=
  runMap x (!isLong x && isDst x x.d && (isS x.a || (isV x.a && !x.u)) && isSrc x x.b &&
      regsOk s.g [(x.d, 2), (x.a, 2), (x.b, 1)]) [(x.a, 2), (x.b, 1)]
    (fun g i => words64 (read64 g x i x.a +
      BitVec.ofInt 64 (elemVal t (read32 g x i x.b).toNat 0 * (2 ^ (x.e.extractLsb' 0 3).toNat : Nat)))) s

/-! ### Bit counts (R142) -/

/-- Bits of a `w`-bit pattern, lowest first. -/
def bitList (w a : Nat) : List Bool := (List.range w).map (fun i => a.testBit i)

def countLeading (w a : Nat) : Nat := ((bitList w a).reverse.takeWhile (fun b => !b)).length
def findFirst (w a : Nat) : Nat := ((bitList w a).takeWhile (fun b => !b)).length
def countOnes (w a : Nat) : Nat := ((bitList w a).filter (fun b => b)).length
def reverseBits (w a : Nat) : Nat := joinElems 1 ((bitList w a).reverse.map (fun b => if b then 1 else 0))

/-- An instruction D := f(A) on the raw pattern of each element. -/
def runRaw (t : Ty) (x : Fields) (f : Nat → Nat) (s : State) : Result :=
  runMap x (okDA t s.g x) [(x.a, 1)] (fun g i =>
    wordsTy t (mapElems t (fun e => (f (elemAt t (readTy t g x i x.a) e) : Int)))) s

/-- `CLZ`, `FFS`, `POPC`, `BREV` (R142). -/
def execClz (t : Ty) (x : Fields) (s : State) : Result := runRaw t x (countLeading (elemWidth t)) s
def execFfs (t : Ty) (x : Fields) (s : State) : Result := runRaw t x (findFirst (elemWidth t)) s
def execPopc (t : Ty) (x : Fields) (s : State) : Result := runRaw t x (countOnes (elemWidth t)) s
def execBrev (t : Ty) (x : Fields) (s : State) : Result := runRaw t x (reverseBits (elemWidth t)) s

/-! ### Compare, select and predicates (R143 to R146) -/

/-- An integer condition (R143). -/
def condHolds (f : Cond) (a b : Int) : Bool :=
  match f with
  | .eq => a == b
  | .ne => a != b
  | .lt => decide (a < b)
  | .le => decide (a ≤ b)
  | .gt => decide (b < a)
  | .ge => decide (b ≤ a)

/-- `ICMP` (R143). -/
def execIcmp (f : Cond) (t : Ty) (x : Fields) (s : State) : Result :=
  runPred x (isPDst x x.d && isSrc x x.a && isSrcB x && (isLong x || oneImm [x.a, x.b]) &&
      regsOk s.g [(x.a, regCount t), (x.b, regCount t)]) (srcAB t x)
    (fun g i => condHolds f (elemVal t (readTy t g x i x.a) 0) (elemVal t (readTyB t g x i) 0)) s

/-- `SEL` (R144). -/
def execSel (t : Ty) (x : Fields) (s : State) : Result :=
  let n := regCount t
  runMap x (!isLong x && isDst x x.d && isSrc x x.a && isSrc x x.b && oneImm [x.a, x.b] &&
      (isQ x.c || (isP x.c && !x.u)) && regsOk s.g [(x.d, n), (x.a, n), (x.b, n)]) [(x.a, n), (x.b, n)]
    (fun g i => wordsTy t (if readPred g i x.c != x.e.getLsbD 0 then readTy t g x i x.a else readTy t g x i x.b)) s

/-- The functions of `PLOP` (R145). -/
def plopBit (f : PlopForm) (a b : Bool) : Bool :=
  match f with
  | .and => a && b
  | .or => a || b
  | .xor => a != b
  | .not => !a

/-- A predicate source of `PLOP`: q, or p with `U` = 0 (R145). -/
def isPSrc (x : Fields) (o : Opnd) : Bool := isQ o || (isP o && !x.u)

/-- `PLOP` (R145). -/
def execPlop (f : PlopForm) (x : Fields) (s : State) : Result :=
  runPred x (isPDst x x.d && isPSrc x x.a && (f == .not || isPSrc x x.b)) []
    (fun g i => plopBit f (readPred g i x.a != x.e.getLsbD 0) (readPred g i x.b != x.e.getLsbD 1)) s

/-- `PMOV.get`: the predicates of a strand as a word, bit 7 set (R146). -/
def predWord (g : Group) (i : Nat) : Word :=
  BitVec.ofNat 32 (128 + joinElems 1 ((List.range 7).map (fun k => if pGet g i k then 1 else 0)))

/-- The uniform predicates as a word, bit 7 set (R146). -/
def predWordUni (g : Group) : Word := BitVec.ofNat 32 (128 + g.q.toNat)

/-- `PMOV.set` for strand `i` (R146). -/
def setPreds (g : Group) (i : Nat) (a mask : Word) : Group :=
  (List.range 7).foldl (fun h k => if mask.getLsbD k then pSet h i k (a.getLsbD k) else h) g

/-- `PMOV.set` of the uniform predicates (R146). -/
def setPredsUni (g : Group) (a mask : Word) : Group :=
  (List.range 7).foldl (fun h k => if mask.getLsbD k then qSet h k (a.getLsbD k) else h) g

/-- `PMOV` (R146). -/
def execPmov (f : PmovForm) (x : Fields) (s : State) : Result :=
  match f with
  | .get => runAlu x (isDst x x.d && regOk s.g x.d 1) []
      (fun g => writeUni g x.d [predWordUni g]) (fun i g => writeRegs g i x.d [predWord g i]) s
  | .set => runAlu x (!isLong x && (isS x.a || (isV x.a && !x.u)) && isSrc x x.b && regsOk s.g [(x.a, 1), (x.b, 1)])
      [(x.a, 1), (x.b, 1)]
      (fun g => setPredsUni g (read32 g x 0 x.a) (read32 g x 0 x.b))
      (fun i g => setPreds g i (read32 g x i x.a) (read32 g x i x.b)) s

/-! ### Moves (R147, R148) -/

/-- Registers a `MOV` copies. -/
def movCount : MovCount → Nat
  | .one => 1
  | .two => 2
  | .four => 4

/-- `n` consecutive registers of a source. -/
def readRegs (g : Group) (i : Nat) (o : Opnd) (n : Nat) : List Word :=
  match o with
  | .v k => (List.range n).map (fun j => vGet g i (k.toNat + j))
  | .s k => (List.range n).map (fun j => sGet g (k.toNat + j))
  | _ => []

/-- What a `MOV` copies. -/
def movWords (n : Nat) (x : Fields) (g : Group) (i : Nat) : List Word :=
  if n = 1 then [readB32 g x i] else readRegs g i x.b n

/-- `MOV` (R147). -/
def execMov (f : MovCount) (x : Fields) (s : State) : Result :=
  let n := movCount f
  runMap x (isDst x x.d && (if n = 1 then isSrcB x else isS x.b || (isV x.b && isV x.d && !x.u)) &&
      regsOk s.g [(x.d, n), (x.b, n)]) [(x.b, n)] (movWords n x) s

/-- Special register number of an operand (R105). -/
def specialOf (o : Opnd) : Nat := opIdx o - 0x80

/-- `MOV` from a special register (R148, R60). -/
def movFrom (f : MovCount) (x : Fields) (s : State) : Result :=
  let k := specialOf x.b
  let n := movCount f
  runMap x (isDst x x.d && decide (k ≤ 0x12) && (if specialWide k then n == 2 else n == 1) &&
      !(x.u && k == 0) && regOk s.g x.d n) []
    (fun g i => (words64 (specialValue g s.ac i k)).take n) s

/-- A value stored into the saved resume index, at most the width (R58, R60). -/
def setSaved (v : Word) (g : Group) : Group :=
  { g with frame := g.frame.map (fun f => { f with ridx := min v.toNat (widthOf g) }) }

/-- `MOV` to a special register (R148): `sr.fmt` from a pair, `sr.res` from a register or an immediate. -/
def movTo (f : MovCount) (x : Fields) (s : State) : Result :=
  let k := specialOf x.d
  if k = 0x0B then
    runAlu x (x.u && f == .two && isS x.b && regOk s.g x.b 2) [] (fun g => { g with fmt := read64 g x 0 x.b }) (fun _ g => g) s
  else if k = 0x0D then
    runAlu x (x.u && f == .one && (isS x.b || isShort x.b || isLong x) && isSrcB x && regOk s.g x.b 1) []
      (fun g => setSaved (readB32 g x 0) g) (fun _ g => g) s
  else trapped (wordTrap 0x02) s

/-- `MOV` of a special register (R148). A write of `sr.res` outside a handler is privileged (R60, R202). -/
def execMovSpecial (f : MovCount) (x : Fields) (s : State) : Result :=
  if x.d = .sp 0x8D && !inHandler s.g then trapped (wordTrap 0x04) s
  else if opSpecialReg x.d then movTo f x s
  else movFrom f x s

end Sys2Proof.Machine
end

