-- ==== Sys2Proof/Machine/Dispatch.lean ====
section
/-! DEFINITION. The meaning of every instruction and step: one direct call for each constructor of `Instr`. -/

namespace Sys2Proof.Machine

/-- One instruction, or one step of an engine or of the host. -/
def exec (i : Instr) (s : State) : Host.Outcome State Fault Refusal :=
  match i with
  | .bra x => Sys2Proof.Machine.execBra x s
  | .brd x => Sys2Proof.Machine.execBrd x s
  | .join x => Sys2Proof.Machine.execJoin x s
  | .brx x => Sys2Proof.Machine.execBrx x s
  | .callDirect x => Sys2Proof.Machine.execCallDirect x s
  | .callIndirect x => Sys2Proof.Machine.execCallIndirect x s
  | .ret x => Sys2Proof.Machine.execRet x s
  | .exit x => Sys2Proof.Machine.execExit x s
  | .yield x => Sys2Proof.Machine.execYield x s
  | .trap x => Sys2Proof.Machine.execTrap x s
  | .tresume x => Sys2Proof.Machine.execTresume x s
  | .cancelchk x => Sys2Proof.Machine.execCancelchk x s
  | .launch x => Sys2Proof.Machine.execLaunch x s
  | .nop x => Sys2Proof.Machine.execNop x s
  | .iadd f ty x => Sys2Proof.Machine.execIadd f ty x s
  | .isub f ty x => Sys2Proof.Machine.execIsub f ty x s
  | .imul f ty x => Sys2Proof.Machine.execImul f ty x s
  | .imad f ty x => Sys2Proof.Machine.execImad f ty x s
  | .imin ty x => Sys2Proof.Machine.execImin ty x s
  | .imax ty x => Sys2Proof.Machine.execImax ty x s
  | .ineg ty x => Sys2Proof.Machine.execIneg ty x s
  | .iabs ty x => Sys2Proof.Machine.execIabs ty x s
  | .shl ty x => Sys2Proof.Machine.execShl ty x s
  | .shr f ty x => Sys2Proof.Machine.execShr f ty x s
  | .rot f ty x => Sys2Proof.Machine.execRot f ty x s
  | .lop f ty x => Sys2Proof.Machine.execLop f ty x s
  | .bfx f ty x => Sys2Proof.Machine.execBfx f ty x s
  | .bfi ty x => Sys2Proof.Machine.execBfi ty x s
  | .icmp f ty x => Sys2Proof.Machine.execIcmp f ty x s
  | .sel ty x => Sys2Proof.Machine.execSel ty x s
  | .clz ty x => Sys2Proof.Machine.execClz ty x s
  | .ffs ty x => Sys2Proof.Machine.execFfs ty x s
  | .popc ty x => Sys2Proof.Machine.execPopc ty x s
  | .brev ty x => Sys2Proof.Machine.execBrev ty x s
  | .lea ty x => Sys2Proof.Machine.execLea ty x s
  | .mov f x => Sys2Proof.Machine.execMov f x s
  | .movSpecial f x => Sys2Proof.Machine.execMovSpecial f x s
  | .cvt ty src x => Sys2Proof.Machine.execCvt ty src x s
  | .plop f x => Sys2Proof.Machine.execPlop f x s
  | .pmov f x => Sys2Proof.Machine.execPmov f x s
  | .fadd ty x => Sys2Proof.Machine.execFadd ty x s
  | .fsub ty x => Sys2Proof.Machine.execFsub ty x s
  | .fmul ty x => Sys2Proof.Machine.execFmul ty x s
  | .ffma f ty x => Sys2Proof.Machine.execFfma f ty x s
  | .fdiv ty x => Sys2Proof.Machine.execFdiv ty x s
  | .fmin ty x => Sys2Proof.Machine.execFmin ty x s
  | .fmax ty x => Sys2Proof.Machine.execFmax ty x s
  | .fneg ty x => Sys2Proof.Machine.execFneg ty x s
  | .fabs ty x => Sys2Proof.Machine.execFabs ty x s
  | .fcmp f ty x => Sys2Proof.Machine.execFcmp f ty x s
  | .fclass ty x => Sys2Proof.Machine.execFclass ty x s
  | .frnd ty x => Sys2Proof.Machine.execFrnd ty x s
  | .rcp ty x => Sys2Proof.Machine.execRcp ty x s
  | .sqrt ty x => Sys2Proof.Machine.execSqrt ty x s
  | .rsqrt ty x => Sys2Proof.Machine.execRsqrt ty x s
  | .exp2 ty x => Sys2Proof.Machine.execExp2 ty x s
  | .log2 ty x => Sys2Proof.Machine.execLog2 ty x s
  | .sinpi ty x => Sys2Proof.Machine.execSinpi ty x s
  | .cospi ty x => Sys2Proof.Machine.execCospi ty x s
  | .tanh ty x => Sys2Proof.Machine.execTanh ty x s
  | .sigm ty x => Sys2Proof.Machine.execSigm ty x s
  | .jord x => Sys2Proof.Machine.execJord x s
  | .jseed x => Sys2Proof.Machine.execJseed x s
  | .jget x => Sys2Proof.Machine.execJget x s
  | .jset x => Sys2Proof.Machine.execJset x s
  | .jshift x => Sys2Proof.Machine.execJshift x s
  | .jtest x => Sys2Proof.Machine.execJtest x s
  | .jxr x => Sys2Proof.Machine.execJxr x s
  | .jxc x => Sys2Proof.Machine.execJxc x s
  | .shfl f ty x => Sys2Proof.Machine.execShfl f ty x s
  | .vote f x => Sys2Proof.Machine.execVote f x s
  | .rfl f ty x => Sys2Proof.Machine.execRfl f ty x s
  | .fmt x => Sys2Proof.Machine.execFmt x s
  | .role x => Sys2Proof.Machine.execRole x s
  | .xblkAcq x => Sys2Proof.Machine.execXblkAcq x s
  | .xblkRel x => Sys2Proof.Machine.execXblkRel x s
  | .ld ty x => Sys2Proof.Machine.execLd ty x s
  | .st ty x => Sys2Proof.Machine.execSt ty x s
  | .pref x => Sys2Proof.Machine.execPref x s
  | .atom f ty x => Sys2Proof.Machine.execAtom f ty x s
  | .red f ty x => Sys2Proof.Machine.execRed f ty x s
  | .xsum f x => Sys2Proof.Machine.execXsum f x s
  | .fence x => Sys2Proof.Machine.execFence x s
  | .cadd x => Sys2Proof.Machine.execCadd x s
  | .cwait x => Sys2Proof.Machine.execCwait x s
  | .cread x => Sys2Proof.Machine.execCread x s
  | .bar x => Sys2Proof.Machine.execBar x s
  | .copy f x => Sys2Proof.Machine.execCopy f x s
  | .xpose x => Sys2Proof.Machine.execXpose x s
  | .publish x => Sys2Proof.Machine.execPublish x s
  | .resv x => Sys2Proof.Machine.execResv x s
  | .mma x => Sys2Proof.Machine.execMma x s
  | .mmaz x => Sys2Proof.Machine.execMmaz x s
  | .drain x => Sys2Proof.Machine.execDrain x s
  | .achk x => Sys2Proof.Machine.execAchk x s
  | .aload x => Sys2Proof.Machine.execAload x s
  | .sacc x => Sys2Proof.Machine.execSacc x s
  | .topk x => Sys2Proof.Machine.execTopk x s
  | .kvpack x => Sys2Proof.Machine.execKvpack x s
  | .breg x => Sys2Proof.Machine.execBreg x s
  | .bpost x => Sys2Proof.Machine.execBpost x s
  | .bstat x => Sys2Proof.Machine.execBstat x s
  | .memoryResponse acc => Sys2Proof.Machine.execMemoryResponse acc s
  | .pageWalk w => Sys2Proof.Machine.execPageWalk w s
  | .growRefillDone g => Sys2Proof.Machine.execGrowRefillDone g s
  | .emulationDone g => Sys2Proof.Machine.execEmulationDone g s
  | .sliceOperation r => Sys2Proof.Machine.execSliceOperation r s
  | .releasePerformed g => Sys2Proof.Machine.execReleasePerformed g s
  | .counterAddArrival r => Sys2Proof.Machine.execCounterAddArrival r s
  | .counterWaitWake g => Sys2Proof.Machine.execCounterWaitWake g s
  | .xblkGrant core lane => Sys2Proof.Machine.execXblkGrant core lane s
  | .commandAcceptance g => Sys2Proof.Machine.execCommandAcceptance g s
  | .copyExecution r => Sys2Proof.Machine.execCopyExecution r s
  | .copyCompletion r => Sys2Proof.Machine.execCopyCompletion r s
  | .mmaPerformance r => Sys2Proof.Machine.execMmaPerformance r s
  | .mmazPerformance r => Sys2Proof.Machine.execMmazPerformance r s
  | .drainPerformance r => Sys2Proof.Machine.execDrainPerformance r s
  | .achkPerformance r => Sys2Proof.Machine.execAchkPerformance r s
  | .aloadPerformance r => Sys2Proof.Machine.execAloadPerformance r s
  | .publishPerformance r => Sys2Proof.Machine.execPublishPerformance r s
  | .resvDecision r => Sys2Proof.Machine.execResvDecision r s
  | .handleMoveDone eid h => Sys2Proof.Machine.execHandleMoveDone eid h s
  | .deferredReport g => Sys2Proof.Machine.execDeferredReport g s
  | .translationInvalidateDone eid va len => Sys2Proof.Machine.execTranslationInvalidateDone eid va len s
  | .coreClockTick core => Sys2Proof.Machine.execCoreClockTick core s
  | .dirtyWritebackBound core => Sys2Proof.Machine.execDirtyWritebackBound core s
  | .waitWatchdogExpiry g => Sys2Proof.Machine.execWaitWatchdogExpiry g s
  | .registerBlockWaitExpiry g => Sys2Proof.Machine.execRegisterBlockWaitExpiry g s
  | .splitChange core units => Sys2Proof.Machine.execSplitChange core units s
  | .splitChangeDone core => Sys2Proof.Machine.execSplitChangeDone core s
  | .gangPlacement launch => Sys2Proof.Machine.execGangPlacement launch s
  | .launchCompletion launch => Sys2Proof.Machine.execLaunchCompletion launch s
  | .drainReservationOpen launch => Sys2Proof.Machine.execDrainReservationOpen launch s
  | .teamDeadline launch gang => Sys2Proof.Machine.execTeamDeadline launch gang s
  | .priorityPreemption launch => Sys2Proof.Machine.execPriorityPreemption launch s
  | .contextSaveDone launch gang => Sys2Proof.Machine.execContextSaveDone launch gang s
  | .stepStart launch => Sys2Proof.Machine.execStepStart launch s
  | .stepCompletion launch => Sys2Proof.Machine.execStepCompletion launch s
  | .kvPromotionDone eid slot page => Sys2Proof.Machine.execKvPromotionDone eid slot page s
  | .kvPromotionFailure eid slot page => Sys2Proof.Machine.execKvPromotionFailure eid slot page s
  | .topkCompletion g => Sys2Proof.Machine.execTopkCompletion g s
  | .kvpackCompletion g => Sys2Proof.Machine.execKvpackCompletion g s
  | .halleyPost r => Sys2Proof.Machine.execHalleyPost r s
  | .halleyRegistration r => Sys2Proof.Machine.execHalleyRegistration r s
  | .halleyStatusRead r => Sys2Proof.Machine.execHalleyStatusRead r s
  | .halleyAnswer g value => Sys2Proof.Machine.execHalleyAnswer g value s
  | .cancelBitDelivery eid slot => Sys2Proof.Machine.execCancelBitDelivery eid slot s
  | .roleChangeDone slice wg => Sys2Proof.Machine.execRoleChangeDone slice wg s
  | .temperatureSample die storeDie celsius => Sys2Proof.Machine.execTemperatureSample die storeDie celsius s
  | .refresh bank row => Sys2Proof.Machine.execRefresh bank row s
  | .patrolScrub bank row block => Sys2Proof.Machine.execPatrolScrub bank row block s
  | .refreshDeadlineMissed bank row => Sys2Proof.Machine.execRefreshDeadlineMissed bank row s
  | .retrainingDue die => Sys2Proof.Machine.execRetrainingDue die s
  | .retrainingForced die => Sys2Proof.Machine.execRetrainingForced die s
  | .retrainingDone die ok => Sys2Proof.Machine.execRetrainingDone die ok s
  | .powerStepDown => Sys2Proof.Machine.execPowerStepDown s
  | .powerStepUp => Sys2Proof.Machine.execPowerStepUp s
  | .thermalTrip die => Sys2Proof.Machine.execThermalTrip die s
  | .logSeal => Sys2Proof.Machine.execLogSeal s
  | .linkTrainingRetry ok => Sys2Proof.Machine.execLinkTrainingRetry ok s
  | .connectionOpen r => Sys2Proof.Machine.execConnectionOpen r s
  | .submit m => Sys2Proof.Machine.execSubmit m s
  | .submitGraph m => Sys2Proof.Machine.execSubmitGraph m s
  | .memrd m => Sys2Proof.Machine.execMemrd m s
  | .memwr m => Sys2Proof.Machine.execMemwr m s
  | .slotwr m => Sys2Proof.Machine.execSlotwr m s
  | .closiaCadd m => Sys2Proof.Machine.execClosiaCadd m s
  | .peeracc m => Sys2Proof.Machine.execPeeracc m s
  | .peerAnswer acc r => Sys2Proof.Machine.execPeerAnswer acc r s
  | .createEngagement m => Sys2Proof.Machine.execCreateEngagement m s
  | .exitEngagement m => Sys2Proof.Machine.execExitEngagement m s
  | .exitScrub eid => Sys2Proof.Machine.execExitScrub eid s
  | .mapPages m => Sys2Proof.Machine.execMapPages m s
  | .unmapPages m => Sys2Proof.Machine.execUnmapPages m s
  | .reserveGrowFrames m => Sys2Proof.Machine.execReserveGrowFrames m s
  | .loadImage m => Sys2Proof.Machine.execLoadImage m s
  | .unloadImage m => Sys2Proof.Machine.execUnloadImage m s
  | .registerStepProgram m => Sys2Proof.Machine.execRegisterStepProgram m s
  | .unregisterStepProgram m => Sys2Proof.Machine.execUnregisterStepProgram m s
  | .writeHandleDescriptor m => Sys2Proof.Machine.execWriteHandleDescriptor m s
  | .freeHandle m => Sys2Proof.Machine.execFreeHandle m s
  | .exportWindow m => Sys2Proof.Machine.execExportWindow m s
  | .importWindow m => Sys2Proof.Machine.execImportWindow m s
  | .revokeWindow m => Sys2Proof.Machine.execRevokeWindow m s
  | .programWatchUnit m => Sys2Proof.Machine.execProgramWatchUnit m s
  | .clearWatchUnit m => Sys2Proof.Machine.execClearWatchUnit m s
  | .attest m => Sys2Proof.Machine.execAttest m s
  | .preemptGangs m => Sys2Proof.Machine.execPreemptGangs m s
  | .terminateLaunch m => Sys2Proof.Machine.execTerminateLaunch m s
  | .readRegister m => Sys2Proof.Machine.execReadRegister m s
  | .writeRegister m => Sys2Proof.Machine.execWriteRegister m s
  | .wgcfgRoleWrite m => Sys2Proof.Machine.execWgcfgRoleWrite m s
  | .deliverFirmware m => Sys2Proof.Machine.execDeliverFirmware m s
  | .commitRollbackFloor m => Sys2Proof.Machine.execCommitRollbackFloor m s
  | .warmReset m => Sys2Proof.Machine.execWarmReset m s
  | .coldReset m => Sys2Proof.Machine.execColdReset m s
  | .startPhaseDone => Sys2Proof.Machine.execStartPhaseDone s
  | .illegalInstruction => Sys2Proof.Machine.execIllegalInstruction s
  | .executeDataTrap => Sys2Proof.Machine.execExecuteDataTrap s
  | .handleLeaseEnd eid h => Sys2Proof.Machine.execHandleLeaseEnd eid h s
  | .linkDown => Sys2Proof.Machine.execLinkDown s
  | .connectionClose conn => Sys2Proof.Machine.execConnectionClose conn s
  | .unsupportedPacketDrop mode => Sys2Proof.Machine.execUnsupportedPacketDrop mode s

end Sys2Proof.Machine
end

