-- ==== Sys2Proof/Machine/Turns.lean ====
section
/-! DEFINITION. Whose turn comes next: the steps of engines and the messages that can happen, those that are due first, what
a bus in training or a full log holds back, and the time that passes between two turns (R64, R207, R211, R229, R240, R305,
R322, R358 to R360, R404, R418, R429). -/

namespace Sys2Proof.Machine

/-- The machine goes on to a next state. -/
def goesOn : Host.Outcome State Fault Refusal → Bool
  | .next _ => true
  | _ => false

/-! ### Traffic over a bus that is being trained (R358) -/

/-- The die of a group's core. -/
def dieOfGroup (s : State) (gid : Nat) : Option Nat := (findGroup s gid).map (·.die)

/-- The die on whose cores a step of an engine acts, if it acts on those of one. -/
def dieOf (s : State) : Instr → Option Nat
  | .growRefillDone g | .emulationDone g | .releasePerformed g | .counterWaitWake g | .commandAcceptance g | .deferredReport g
  | .waitWatchdogExpiry g | .registerBlockWaitExpiry g | .topkCompletion g | .kvpackCompletion g => dieOfGroup s g
  | .pageWalk w => some (w.core / 48)
  | .coreClockTick c | .dirtyWritebackBound c | .splitChange c _ | .splitChangeDone c | .xblkGrant c _ => some (c / 48)
  | .copyExecution r | .copyCompletion r | .mmaPerformance r | .mmazPerformance r | .drainPerformance r | .achkPerformance r
  | .aloadPerformance r | .publishPerformance r | .resvDecision r => some (r.core / 48)
  | _ => none

/-- The dies whose bus a message crosses. -/
def messageDies (s : State) : Instr → List Nat
  | .counterAddArrival r => r.src.core / 48 :: (addTeam s r).toList.map (fun t => (addTarget t r).1 / 48)
  | .sliceOperation r => (dieOfGroup s r.group).toList
  | .memoryResponse a => ((s.accs.find? (fun b => b.id == a)).bind (fun b => dieOfGroup s b.group)).toList
  | .halleyPost r | .halleyRegistration r | .halleyStatusRead r => (dieOfGroup s r.group).toList
  | .halleyAnswer g _ => (dieOfGroup s g).toList
  | _ => []

/-- A move from `s` to `t` of cores of die `own`, or of none, uses the bus of die `d`: what those cores exchange with the rest,
or what cores of `d` are given from elsewhere. -/
def usesBus (s t : State) (own : Option Nat) (d : Nat) : Bool :=
  if own == some d then t.traffic != s.traffic
  else (List.range 48).any (fun k => decide (coreAt t (48 * d + k) ≠ coreAt s (48 * d + k)))

/-- A bus in training holds a move back (R358). -/
def busHeld (s t : State) (own : Option Nat) (crossed : List Nat) : Bool :=
  s.buses.any (fun b => b.2.running && (Sparse.get Bus.reset b.1 t.buses).running && (crossed.contains b.1 || usesBus s t own b.1))

/-- What a move of cores of die `own`, if of one, or of a message that crosses the buses of some dies comes to: one that a full log or a bus in training holds back does not take
place yet (R358, R429). -/
def held (s : State) (own : Option Nat) (crossed : List Nat) (o : Host.Outcome State Fault Refusal) : Host.Outcome State Fault Refusal :=
  match o with
  | .next t => if logStalled s t || busHeld s t own crossed then .next s else .next t
  | o => o

/-- A step of an engine, or a request of the host, can happen in a state: it goes on, and nothing holds it back. -/
def enabled (s : State) (i : Instr) : Bool :=
  match exec i s with
  | .next t => !logStalled s t && !busHeld s t (dieOf s i) (messageDies s i)
  | _ => false

/-! ### What can happen -/

/-- The connection a message arrives on, and whether it must wait for those sent before it. -/
def messageOf : Instr → Option Msg
  | .submit m | .submitGraph m | .memrd m | .memwr m | .slotwr m | .closiaCadd m | .peeracc m | .createEngagement m
  | .exitEngagement m | .mapPages m | .unmapPages m | .reserveGrowFrames m | .loadImage m | .unloadImage m
  | .registerStepProgram m | .unregisterStepProgram m | .writeHandleDescriptor m | .freeHandle m | .exportWindow m
  | .importWindow m | .revokeWindow m | .programWatchUnit m | .clearWatchUnit m | .attest m | .preemptGangs m
  | .terminateLaunch m | .readRegister m | .writeRegister m | .wgcfgRoleWrite m | .deliverFirmware m
  | .commitRollbackFloor m | .warmReset m | .coldReset m => some m
  | _ => none

/-- Two posted operations of one group that act in program order: on the same bytes, or adds to the same counter (R229, R232,
R234, R240, R302). -/
def sameTarget : Instr → Instr → Bool
  | .sliceOperation r, .sliceOperation q =>
    r.group == q.group && decide (r.pa < q.pa + sliceBytes q.kind) && decide (q.pa < r.pa + sliceBytes r.kind)
  | .counterAddArrival r, .counterAddArrival q =>
    r.owner.isSome && r.owner == q.owner && r.launch == q.launch && r.gang == q.gang && r.team == q.team && r.odd == q.odd && r.n == q.n
  | _, _ => false

/-- A message of the port that writes memory or a counter (R417, R423). -/
def messageWrites : Instr → Bool
  | .memwr _ | .slotwr _ | .closiaCadd _ | .submitGraph _ => true
  | .peeracc m => bitsAt m.arg.toNat 7 0 != peerRead
  | _ => false

/-- What must wait for what was sent before it: a posted operation for one of its group with the same target; a message of
the port for the earlier ones of its connection when that is ordered, and for the earlier writes of it when the message is a
release (R418). -/
def mayGo (s : State) (earlier : List Instr) (i : Instr) : Bool :=
  !earlier.any (sameTarget i) && match messageOf i with
  | none => true
  | some m =>
    let rod := s.conns.any (fun k => k.id == m.conn && k.rod)
    !earlier.any (fun j => (messageOf j).any (fun n => n.conn == m.conn) && (rod || m.flg.getLsbD 0 && messageWrites j))

/-- What is in flight or has arrived and may be performed. -/
def arrivals (s : State) : List Instr → List Instr → List Instr
  | _, [] => []
  | earlier, i :: t => if mayGo s earlier i then i :: arrivals s (earlier ++ [i]) t else arrivals s (earlier ++ [i]) t

/-- Every core of the package. -/
def allCores : List Nat := List.range 192

/-- Steps of a group's engines. -/
def groupEvents (g : Group) : List Instr :=
  match g.status with
  | .waitGrow _ _ _ => [.growRefillDone g.gid]
  | .waitEmulation _ => [.emulationDone g.gid]
  | .releasing _ _ => [.releasePerformed g.gid]
  | .waitCounter _ _ _ _ _ _ => [.counterWaitWake g.gid]
  | .accepting _ => [.commandAcceptance g.gid]
  | .waitServing (.topk _ _) => [.topkCompletion g.gid]
  | .waitBlocks _ _ _ => [.xblkGrant (coreNo g) g.lane]
  | _ => []

/-- Steps of a command. -/
def commandEvents (core : Nat) (c : Command) : List Instr :=
  let r : CmdRef := ⟨core, c.team, c.id⟩
  match c.kind with
  | .copy _ _ _ _ _ _ _ => [.copyExecution r, .copyCompletion r]
  | .xpose _ _ _ _ _ _ => [.copyExecution r, .copyCompletion r]
  | .publish _ _ => [.publishPerformance r]
  | .resv _ _ _ => [.resvDecision r]
  | .mma _ _ _ _ _ _ _ _ => [.mmaPerformance r]
  | .mmaz _ => [.mmazPerformance r]
  | .drain _ _ _ _ => [.drainPerformance r]
  | .achk _ _ => [.achkPerformance r]
  | .aload _ _ _ _ => [.aloadPerformance r]

/-- Steps of a launch. -/
def launchEvents (l : Launch) : List Instr :=
  [.stepStart l.seq, .gangPlacement l.seq, .drainReservationOpen l.seq, .priorityPreemption l.seq, .stepCompletion l.seq,
    .launchCompletion l.seq] ++ l.placed.map (fun a => .teamDeadline l.seq a.gang)

/-- A split change that the dispatcher may make for a launch that waits (R207, R379). -/
def splitEvents (s : State) : List Instr :=
  s.launches.flatMap (fun l => (splitWanted s l).map (fun c => .splitChange c l.record.lsplit))

/-- Steps that the passing of time or a free choice brings about. -/
def idleEvents (s : State) : List Instr :=
  let k := Config.choose s.ctr
  let bank : BankRef := ⟨k % 128, k / 128 % 16, k / 2048 % 2⟩
  let row := k / 4096 % 1536
  [.startPhaseDone, .powerStepDown, .powerStepUp, .logSeal, .linkTrainingRetry (Config.trains s.ctr), .refresh bank row,
    .patrolScrub bank row (k / 6291456 % 18), .refreshDeadlineMissed bank row] ++
  (List.range 4).flatMap (fun d => [.retrainingDue d, .thermalTrip d,
    .temperatureSample d 2 (Config.celsius s.ctr), .temperatureSample d 0 (Config.celsius s.ctr),
    .temperatureSample d 1 (Config.celsius s.ctr)]) ++
  s.engs.map (fun e => .exitScrub e.1) ++
  s.handles.flatMap (fun h => [.handleMoveDone (h.1 / 16384) (h.1 % 16384), .handleLeaseEnd (h.1 / 16384) (h.1 % 16384)]) ++
  (s.kv.filter (fun v => !v.complete)).flatMap (fun v =>
    [.kvPromotionDone v.eid v.slot v.page, .kvPromotionFailure v.eid v.slot v.page]) ++
  s.wgcfg.map (fun w => .roleChangeDone (w.1 / 16) (w.1 % 16)) ++
  s.saved.map (fun v => .contextSaveDone v.launch v.gang.gang) ++ s.packs.map (fun k => .kvpackCompletion k.doer.gid)

/-- A soft error that may come about: its kind and place are free (R222, R268, R346). -/
def freeUpset (s : State) : Upset :=
  let at_ := Config.upsetAt s.ctr
  let core := at_ 0 % 192
  match Config.upset s.ctr % 12 with
  | 0 => .corrected core
  | 1 => .register (at_ 0) (at_ 1 % 16384)
  | 2 => .local_ core (at_ 1 % 114688)
  | 3 => .line core (at_ 1) (at_ 2)
  | 4 => .code core (at_ 1)
  | 5 => .tlb core (at_ 1)
  | 6 => .foot core (at_ 1 % 512)
  | 7 => .carry core (at_ 1 % 12) (at_ 2 % 16384)
  | 8 => .tag (at_ 0 % 2 ^ 33)
  | 9 => .residue core (at_ 1 % 12) (at_ 2 % 8192) (BitVec.ofNat 32 (at_ 3))
  | 10 => .checksum core (at_ 1 % 12) (at_ 2 % 2 = 1) (at_ 2 / 2 % (if at_ 2 % 2 = 1 then 1024 else 64)) (BitVec.ofNat 32 (at_ 3))
  | _ => .silent (at_ 0) (at_ 1 % 2 = 1) (at_ 2) (BitVec.ofNat 8 (at_ 3))

/-- The error counts that may be reported to the host: whose is free, as is when (R417; DESIGN CHOICE, log entry 136). -/
def freeCounts (s : State) : Turn :=
  let k := Config.choose s.ctr
  .counts (k % 2 = 1) (k / 2 % (if k % 2 = 1 then 128 else 192))

/-- Cancel bits that must reach their cores now (R404). -/
def dueCancels (s : State) : List Instr :=
  s.pending.filter (fun i => match i with
    | .cancelBitDelivery eid slot => cancelIsDue s eid slot
    | _ => false)

/-- Steps that happen before anything else once they are due. -/
def urgentEvents (s : State) : List Instr :=
  allCores.map Instr.coreClockTick ++ allCores.map Instr.dirtyWritebackBound ++
  (allGroups s).flatMap (fun g => [.deferredReport g.gid, .waitWatchdogExpiry g.gid, .registerBlockWaitExpiry g.gid]) ++
  (List.range 4).flatMap (fun d => [.retrainingForced d, .retrainingDone d (Config.trains s.ctr)]) ++ dueCancels s

/-- Everything else that can move. -/
def otherTurns (s : State) : List (Nat × Turn) :=
  let evs := (allGroups s ++ s.saved.flatMap (fun v => v.teams.flatMap (·.groups))).flatMap groupEvents ++ s.accs.map (fun a => .memoryResponse a.id) ++
    s.cores.flatMap (fun c => c.2.seq.flatMap (commandEvents c.1)) ++
    (s.cores.filter (fun c => c.2.splitTo.isSome)).map (fun c => .splitChangeDone c.1) ++
    (s.launches.filter (fun l => l.phase == .queued)).flatMap launchEvents ++ splitEvents s ++ idleEvents s ++ arrivals s [] s.pending
  ((allGroups s).filter (lanePick s)).map (fun g => (g.gid, Turn.group)) ++
  (evs.filter (enabled s)).map (fun i => (0, Turn.event i)) ++
  s.cores.flatMap (fun c => (List.range c.2.lines.length).flatMap (fun k => [(0, Turn.evict c.1 k), (0, Turn.renew c.1 k)])) ++
  [(0, Turn.upset (freeUpset s)), (0, freeCounts s)]

/-- The turns among which the next one is chosen. -/
def turns (s : State) : List (Nat × Turn) :=
  match (urgentEvents s).filter (enabled s) with
  | [] => otherTurns s
  | u => u.map (fun i => (0, Turn.event i))

/-- Chooses the next turn and makes the group that runs, if one does, the running group. -/
def reschedule (s : State) : State :=
  match turns s with
  | [] => { s with turn := .idle, ctr := s.ctr + 1 }
  | t :: ts =>
    let u := nth t (t :: ts) (Config.choose s.ctr % (ts.length + 1))
    { (if u.1 = 0 then s else bring u.1 s) with turn := u.2, ctr := s.ctr + 1 }

/-! ### The time that passes (R211, R305, R322, R358, R359, R404) -/

/-- The ac at which sc `d` is reached, or the last before it. -/
def acOf (s : State) (d : Nat) : Nat :=
  s.ac + (if s.phase = 3 ∨ s.phase = 4 then (d - s.sc) / 4 else (d - s.sc) * (10 - s.pstep) / 20)

/-- When the interval of a waiting group ends. -/
def waitEnd (s : State) (g : Group) : Option Nat :=
  let end_ := fun (since : Nat) => if busBlocked s g.die then none else some (since + wdogOf s g + 1)
  match g.status with
  | .waitCounter _ _ _ _ _ since => end_ since
  | .waitBlocks _ _ since => end_ since
  | _ => none

/-- When the bus of a die is forced into training, or its training ends. -/
def busEnd (s : State) (d : Nat) : Option Nat :=
  let b := Sparse.get Bus.reset d s.buses
  if b.running then some (acOf s (b.began + 1680))
  else if s.phase = 5 then some (acOf s (b.due.getD (b.last + 2 * scMs) + 40 * scUs)) else none

/-- When a cancel bit on its way is due. -/
def cancelEnd (s : State) : Instr → Option Nat
  | .cancelBitDelivery eid slot => (programOf s eid).map (fun p => acOf s (Sparse.get 0 slot p.cancelDue))
  | _ => none

/-- The times, in ac, at which something falls due. -/
def dueTimes (s : State) : List Nat :=
  allCores.map (fun c => (coreAt s c).tick + ageOf (coreAt s c)) ++
  s.cores.flatMap (fun c => (c.2.lines.filter (fun l => l.dirty != 0)).map (fun l => l.since + 8192)) ++
  (allGroups s).filterMap (waitEnd s) ++ (List.range 4).filterMap (busEnd s) ++ s.pending.filterMap (cancelEnd s)

/-- The ac that pass before the next turn: freely many, but the turn ends no later than the next time at which something falls
due (R322: the check is made at the end of each ac). -/
def spell (s : State) : Nat := (dueTimes s).foldl (fun n d => min n (d - s.ac - 1)) (Config.elapse s.ctr)

/-- After a move: `n` ac pass, the next turn is chosen. -/
def settle (n : Nat) (s : State) : State :=
  let s := reschedule (pass n s)
  pass (spell s) s

/-- Steps that mark a time which has come take none themselves. -/
def instant : Instr → Bool
  | .coreClockTick _ | .dirtyWritebackBound _ | .deferredReport _ | .waitWatchdogExpiry _ | .registerBlockWaitExpiry _
  | .retrainingForced _ | .retrainingDone _ _ | .cancelBitDelivery _ _ => true
  | _ => false

/-- Continues a move that went on. -/
def andSettle (after : State → State) (n : Nat) : Host.Outcome State Fault Refusal → Host.Outcome State Fault Refusal
  | .next s => .next (settle n (after s))
  | o => o

end Sys2Proof.Machine
end

