-- ==== Sys2Proof/Machine/Step.lean ====
section
/-! DEFINITION. One step of the machine: the agent whose turn it is moves, time passes, and the agent that moves next
is chosen among those that can. -/

namespace Sys2Proof.Machine

/-- The running group's move: fetch, decode and run (R113). -/
def runGroup (s : State) : Host.Outcome State Fault Refusal :=
  match fetch (startIssue s) with
  | (f, t) =>
    match fetchedInstr f with
    | some i => exec i t
    | none => fetchStop f t

/-- Takes one occurrence of a message out of those in flight. -/
def takePending (i : Instr) (s : State) : State := { s with pending := s.pending.erase i }

/-- What follows a group's move: it has issued, and where its team stops it has reached a boundary (R64, R324). -/
def afterMove (g : Group) (s : State) : State := stopPoint g.tid (issued g.gid (coreNo g) g.lane s)

/-- One step. -/
def step (s : State) : Host.Outcome State Fault Refusal :=
  match s.turn with
  | .group =>
    if s.g.status = .ready then andSettle (afterMove s.g) 1 (held s (some s.g.die) [] (runGroup s))
    else .refused .notEnabled
  | .event i => andSettle id (if instant i then 0 else 1) (held s (dieOf s i) (messageDies s i) (exec i (takePending i s)))
  | .evict core k =>
    match (coreAt s core).lines[k]? with
    | none => .refused .notEnabled
    | some l => andSettle id 1 (held s (some (core / 48)) [] (.next (evictLine core l s)))
  | .renew core k =>
    match (coreAt s core).lines[k]? with
    | none => .refused .notEnabled
    | some l => andSettle id 1 (held s (some (core / 48)) [] (.next (renewLine core l s)))
  | .upset u => .next (settle 0 (applyUpset u s))
  | .counts slice n => .next (settle 0 (sendCounts slice n s))
  | .idle => .next (settle 1 s)

/-! ### Placing an instruction where the next fetch finds it -/

/-- Physical address and virtual address at which `withFetchWord` puts the word. -/
def slicePa : Nat := 0x10000
def sliceVa : DWord := 0x10000

/-- The leaf that maps the code page: valid, leaf, readable, executable and accessed. -/
def sliceLeaf : DWord := BitVec.ofNat 64 (2 ^ 53 + 0x10000 + 0x2B)

/-- The kernel that holds the word: one slot. -/
def sliceKernel : Kernel :=
  { base := sliceVa, slots := 1, entry := 0, map := [true], width := .w16, top := 0, tiles := 0, units := 0, ngroups := 1
    pair := false, nteams := 1, gpair := false, classes := 7, psize := 0, watchdog := 2 ^ 20 }

/-- The launch that runs the kernel. -/
def sliceLaunch : Launch :=
  { seq := 1, record := ⟨0, 0, 0, 1, 0, 0, 0, 0, true, false, 0, 0, 0, 0, 0xFFFFFFFF, 0, 0⟩, kernel := sliceKernel, ngroups := 1
    pair := false, nteams := 1, gpair := false, classes := 7, wdog := 2 ^ 20, owner := 0, phase := .queued, deps := []
    nextGang := 1, placed := [⟨0, 0, none, [1], 0⟩], endedGangs := [], stood := [], deficits := [0, 0, 0, 0], terminated := 0, status := 0
    doneFault := 0, step := none, isStep := false, waitingSince := 0, claim := none }

/-- Its one team, on core 0. -/
def sliceTeam : Team :=
  { tid := 1, launch := 1, gang := 0, team := 0, eid := 0, cores := [0], ranges := [0], tiles := [[]], locals := [0], units := 0
    ngroups := 1, start := 0, outstanding := 0, ended := false, terminated := none, cancel := false, took := false, freed := false, retired := [] }

/-- Its one group, all strands live. -/
def sliceGroup : Group :=
  { Group.init with gid := 2, tid := 1, launch := 1, base := sliceVa, pc := sliceVa, status := .ready, live := 0xFFFF, active := 0xFFFF }

/-- `s` with the instruction whose bits are `w` as the next that its one group fetches: the word in memory, its page
in core 0's TLB, and an engagement, a kernel, a launch, a team and a group in full service. -/
def State.withFetchWord (s : State) (nbits w : Nat) : State :=
  let s := memWrite slicePa (leBytes 12 (w % 2 ^ nbits)) s
  let s := modCore 0 (fun k => { k with tlb := [⟨0, 1, 16, sliceLeaf, false⟩], icache := [], ranges := Sparse.set 0 0 2 k.ranges }) s
  { s with turn := .group, g := sliceGroup, phase := 5, fresh := 3, nextSeq := 2, launches := [sliceLaunch], teams := [sliceTeam]
           images := [(0, ⟨0, sliceVa, 12, [sliceKernel], [], [], [], []⟩)]
           frames := Sparse.set ⟨0, false⟩ 1 ⟨1, false⟩ s.frames
           engs := Sparse.set Engagement.free 0 { Engagement.free with st := .live } s.engs }

end Sys2Proof.Machine
end

