-- ==== Sys2Proof/Safety.lean ====
section
/-! DEFINITION. What a safe run is, and what an instruction may change, in the terms that statements use. -/

namespace Sys2Proof.Safety

open Sys2Proof.Machine

/-- The outcome is no fault: no access has left the memory that exists (R338). -/
def noFault : Host.Outcome State Fault Refusal → Prop
  | .fault _ => False
  | _ => True

/-- A step from a state stays within the machine: it does not fault. -/
def stepSafe (s : State) : Prop := noFault (step s)

/-- A state from which no sequence of steps reaches a fault, up to a length. -/
def safeFor : Nat → State → Prop
  | 0, _ => True
  | n + 1, s => stepSafe s ∧ ∀ t, step s = .next t → safeFor n t

/-! ### Results in registers -/

/-- Strand `i` receives the result of an instruction: it executes (R40, R67), or with `U` = 1 it is active, the q guards hold and
the resume index does not skip it (R43, R68). -/
def receives (g : Group) (x : Fields) (i : Nat) : Prop :=
  if x.u then holdsQ g x = true ∧ i ∈ castList g else i ∈ execList g x

/-- No register that an executing strand reads holds a storage error (R222). -/
def readable (g : Group) (x : Fields) (srcs : List (Opnd × Nat)) : Prop :=
  x.u = false → ∀ i ∈ execList g x, ∀ o ∈ srcs, badReg g i o = false

/-- From `s` to `t` an instruction of registers only has written `n` registers from D with `res i` in every strand that
receives it, or `res 0` in the uniform registers, and has gone on to the next slot; nothing else has changed. -/
structure RegResult (x : Fields) (n : Nat) (res : Nat → List Word) (s t : State) : Prop where
  rest : t = setG t.g s
  group : t.g = { s.g with v := t.g.v, vPoison := t.g.vPoison, s := t.g.s, pc := s.g.pc + 12, ridx := 0, readTime := 0, midway := false }
  poison : ∀ k, k ∈ t.g.vPoison → k ∈ s.g.vPoison
  toV : ∀ k, x.d = .v k → t.g.s = s.g.s ∧
    (∀ i, i < 64 → receives s.g x i → ∀ j, j < n → vGet t.g i (k.toNat + j) = nth 0 (res i) j) ∧
    (∀ i, i < 64 → ∀ q, q < 256 → ¬(receives s.g x i ∧ k.toNat ≤ q ∧ q < k.toNat + n) → vGet t.g i q = vGet s.g i q)
  toS : ∀ k, x.d = .s k → t.g.v = s.g.v ∧ t.g.vPoison = s.g.vPoison ∧
    (holdsQ s.g x = true → ∀ j, j < n → sGet t.g (k.toNat + j) = nth 0 (res 0) j) ∧
    (∀ q, ¬(holdsQ s.g x = true ∧ k.toNat ≤ q ∧ q < k.toNat + n) → sGet t.g q = sGet s.g q)

/-- From `s` to `t` an instruction of registers only has written the predicate D with `res i` in every strand that
receives it, or `res 0` in the uniform predicates; a write of `pt` or `qt` is discarded (R47); nothing else has changed. -/
structure PredResult (x : Fields) (res : Nat → Bool) (s t : State) : Prop where
  rest : t = setG t.g s
  group : t.g = { s.g with p := t.g.p, q := t.g.q, pc := s.g.pc + 12, ridx := 0, readTime := 0, midway := false }
  toP : opIdx x.d < 8 → t.g.q = s.g.q ∧
    (∀ i, i < 64 → receives s.g x i → opIdx x.d ≠ 7 → pGet t.g i (opIdx x.d) = res i) ∧
    (∀ i k, i < 64 → ¬(receives s.g x i ∧ k = opIdx x.d) → pGet t.g i k = pGet s.g i k) ∧
    (∀ i, pGet t.g i 7 = true)
  toQ : 8 ≤ opIdx x.d → opIdx x.d < 16 → t.g.p = s.g.p ∧
    (holdsQ s.g x = true → opIdx x.d ≠ 15 → qGet t.g (opIdx x.d - 8) = res 0) ∧
    (∀ k, k < 8 → ¬(holdsQ s.g x = true ∧ k + 8 = opIdx x.d) → qGet t.g k = qGet s.g k) ∧
    qGet t.g 7 = true

/-- The number that consecutive registers hold, the first lowest (R8). -/
def regsNum : List Word → Nat
  | [] => 0
  | x :: t => x.toNat + 2 ^ 32 * regsNum t

/-- `r` is `v` modulo 2^W(TY), read as an element of the type (R131). -/
def wraps (ty : Ty) (v r : Int) : Prop := tyMin ty ≤ r ∧ r ≤ tyMax ty ∧ (r - v) % (2 ^ elemWidth ty : Nat) = 0

/-- `n` is `v` modulo 2^64. -/
def isMod64 (n : Nat) (v : Int) : Prop := n < 2 ^ 64 ∧ ((n : Int) - v) % (2 ^ 64 : Nat) = 0

/-- The same as `RegResult` for an instruction that also raises sticky flags: `fl i` are the flags of strand `i`, as bits of
`JX`. Nothing clears a flag (R56). -/
def FloatResult (x : Fields) (n : Nat) (res : Nat → List Word) (fl : Nat → BitVec 20) (s t : State) : Prop :=
  RegResult x n res s (setG { t.g with jx := s.g.jx } t) ∧
  ∀ k, t.g.jx.getLsbD k = true ↔ (s.g.jx.getLsbD k = true ∨
    (if x.u then holdsQ s.g x = true ∧ (fl 0).getLsbD k = true else ∃ i ∈ execList s.g x, (fl i).getLsbD k = true))

/-- The same for a predicate result. -/
def FPredResult (x : Fields) (res : Nat → Bool) (fl : Nat → BitVec 20) (s t : State) : Prop :=
  PredResult x res s (setG { t.g with jx := s.g.jx } t) ∧
  ∀ k, t.g.jx.getLsbD k = true ↔ (s.g.jx.getLsbD k = true ∨
    (if x.u then holdsQ s.g x = true ∧ (fl 0).getLsbD k = true else ∃ i ∈ execList s.g x, (fl i).getLsbD k = true))

/-- The order at which an instruction computes: with `U` = 1 coefficient 0 alone (R74). -/
def orderAt (ty : Ty) (g : Group) (x : Fields) : Nat := if x.u then 0 else orderOf ty g

/-- Registers of a floating-point result: a jet group, or one uniform register. -/
def floatCount (ty : Ty) (g : Group) (x : Fields) : Nat := if isS x.d then 1 else orderOf ty g + 1

/-- The words of a floating-point result; with `U` = 1 a v destination receives +0 above coefficient 0 (R74). -/
def floatWords (ty : Ty) (g : Group) (x : Fields) (val : Nat → List CoefRes) (i : Nat) : List Word :=
  coefWords (val i) ++ List.replicate (if x.u then orderOf ty g else 0) 0

/-- The flags of coefficients, coefficient j in row j of `JX` (R56, R92). -/
def rowFlags : List CoefRes → BitVec 20
  | [] => 0
  | r :: t => r.2.zeroExtend 20 ||| (rowFlags t <<< 5)

/-! ### Control flow and results defined once -/

/-- `a` is the address of the slot `o` after the next one (R98, R110). -/
def isTarget (pc : DWord) (o : Int) (a : DWord) : Prop := ((a.toNat : Int) - (pc.toNat + 12 + 12 * o)) % (2 ^ 64 : Nat) = 0

/-- From `s` to `t` a cross-strand instruction has written `n` registers from `d` with one result: in every executing
strand, or once in the uniform registers (R44, R189); nothing else has changed but, where `c` says so, one q predicate. -/
structure OnceResult (x : Fields) (d : Opnd) (n : Nat) (ws : List Word) (s t : State) : Prop where
  rest : t = setG t.g s
  group : t.g = { s.g with v := t.g.v, vPoison := t.g.vPoison, s := t.g.s, pc := s.g.pc + 12, ridx := 0, readTime := 0, midway := false }
  poison : ∀ k, k ∈ t.g.vPoison → k ∈ s.g.vPoison
  toV : ∀ k, d = .v k → t.g.s = s.g.s ∧ ∀ i q, i < 64 → q < 256 →
    vGet t.g i q = if i ∈ execList s.g x ∧ k.toNat ≤ q ∧ q < k.toNat + n then nth 0 ws (q - k.toNat) else vGet s.g i q
  toS : ∀ k, d = .s k → t.g.v = s.g.v ∧ t.g.vPoison = s.g.vPoison ∧
    ∀ q, sGet t.g q = if k.toNat ≤ q ∧ q < k.toNat + n then nth 0 ws (q - k.toNat) else sGet s.g q

/-- The same for a predicate result; a write of `pt` or `qt` is discarded (R47). -/
structure OncePred (x : Fields) (d : Opnd) (b : Bool) (s t : State) : Prop where
  rest : t = setG t.g s
  group : t.g = { s.g with p := t.g.p, q := t.g.q, pc := s.g.pc + 12, ridx := 0, readTime := 0, midway := false }
  toP : opIdx d < 8 → t.g.q = s.g.q ∧ ∀ i k, i < 64 →
    pGet t.g i k = if i ∈ execList s.g x ∧ k = opIdx d ∧ k ≠ 7 then b else pGet s.g i k
  toQ : 8 ≤ opIdx d → opIdx d < 16 → t.g.p = s.g.p ∧
    ∀ k, k < 8 → qGet t.g k = if k + 8 = opIdx d ∧ k ≠ 7 then b else qGet s.g k

/-! ### Values of floating-point arithmetic -/

/-- The rational that a finite exact value stands for. -/
def exVal : Ex → Option Rat
  | .num neg n d e => some ((if neg then -1 else 1) * ((n : Rat) / d) * (2 : Rat) ^ e)
  | _ => none

/-- An instruction that has passed its checks completes with coefficients `y i` in strand `i`: their words in D, their flags in
the rows of `JX` (R72, R74, R92). -/
def yields (o : Instr) (ty : Ty) (x : Fields) (s : State) (y : Nat → List CoefRes) : Prop :=
  ∃ t, exec o s = .next t ∧
    FloatResult x (floatCount ty s.g x) (floatWords ty s.g x y) (fun i => rowFlags (y i)) s t

/-- Steps 6 and 7 of R113: the jet order suits the type, and `FMT` is well formed where the instruction reads it. -/
def orderFmtOk (ty : Ty) (g : Group) (fmt : Bool) : Prop := (ty = .f32 ∨ g.jord = 0) ∧ (fmt = true → fmtBad g.fmt = false)

/-! ### Accesses to memory -/

/-- What an access may change besides the registers and the memory it names: the core's L1 and clock, the read times of lines,
the lines that the cache role holds and the poison that leaves it with one of them, the access log, the write time that the groups
carry, and of the model's own fields its count of accesses that leave a core and who knows of which adds to cells (R209, R211,
R237, R341, R346, R428). -/
def sameAccess (s t : State) : State :=
  { t with g := { t.g with gwts := s.g.gwts, gwtsTeam := s.g.gwtsTeam }, others := s.others, cores := s.cores, rts := s.rts, log := s.log
           cached := s.cached, poison := s.poison, traffic := s.traffic, sums := s.sums }

/-- The histories of exact-sum cells, apart from who knows of which add to them. -/
def bareSums (s : State) : List (Nat × CellHistory) :=
  s.sums.map (fun c => (c.1, { c.2 with adds := c.2.adds.map (fun a => { a with known := [] }) }))

/-- `n` more lines fit into the L1 of a core, so that none of those there is evicted (R203, R205). -/
def roomL1 (s : State) (c n : Nat) : Prop := (coreAt s c).lines.length + n ≤ l1Lines (coreAt s c)

/-- An access with the memory form is relaxed, its operands pass step 5 and its sources hold no error; `nd` and `nc` registers of D
and C are used (R108, R113, R223). -/
def relaxedOk (x : Fields) (code : Bool) (nd nc : Nat) (s : State) : Prop :=
  ordOf x = 0 ∧ memOk s.g x code nd nc = true ∧ readable s.g x (memSrcs x nc)

/-- No posted operation of the running group on a line is under way, and its core's L1 holds no copy of the line. -/
def quiet (s : State) (line : Nat) : Prop :=
  (∀ i ∈ s.pending, ownPosted s.g.gid (fun r => r.pa / 64 == line) i = false) ∧
  findLine (coreAt s (coreNo s.g)) line s.g.eid = none

/-- A state after relaxed loads of a group's core or of pooled words, with what the group has learnt of other groups' writes as it was before them, and the
model's count of accesses that leave a core (R297). -/
def unlearned (s t : State) : State :=
  { t with g := { t.g with gwts := s.g.gwts, gwtsTeam := s.g.gwtsTeam }, others := s.others, traffic := s.traffic }

/-! ### Commands -/

/-- An instruction has offered a command to the sequencer, with its ids and the values sampled at issue (R111, R245, R248, R274);
nothing else has changed. -/
def offers (o : Instr) (x : Fields) (k : CmdKind) (yields : Bool) (s : State) : Prop :=
  ∃ c, exec o s = .next (setG { s.g with status := .accepting c } s) ∧ c.kind = k ∧ c.id = x.e.toNat ∧
    c.p1 = x.imm.toNat / 256 ∧ c.p2 = x.imm.toNat % 256 ∧ c.team = s.g.tid ∧ c.group = s.g.gid ∧ c.eid = s.g.eid ∧
    c.pc = s.g.pc ∧ c.scope = x.md.toNat ∧ c.fmt = s.g.fmt ∧ c.jord = s.g.jord ∧ c.yields = yields

/-- A command has left its sequencer, no other command waits on it any more, and its group has not yielded on it (R122, R247). -/
def retired (core : Nat) (c : Command) (t : State) : Prop :=
  (∀ d ∈ (coreAt t core).seq, d.serial ≠ c.serial ∧ c.serial ∉ d.preds) ∧
  ∀ g ∈ allGroups t, g.gid = c.group → g.status ≠ .waitCopy c.id

/-- A command may be performed: it is in its sequencer, waits on none and is not cancelled (R247), and if it has not begun its
team is not being saved (R271). -/
def ready (s : State) (r : CmdRef) (c : Command) : Prop := findCmd s r = some c ∧ mayRun s c = true

/-- `n` bytes at a place, free of errors, are `b`; those of an unmapped grow page are zeros. -/
def placeHolds (s : State) (p : Place) (n : Nat) (b : List Byte) : Prop :=
  match p with
  | .mem pa => memError s pa n = none ∧ b = memRead s pa n
  | .loc c a => localError s c a n = false ∧ b = localRead s c a n
  | .zero => b = List.replicate n 0
  | _ => False

/-- A place takes a write: HBM or local store. -/
def isStore (p : Place) : Prop := (∃ pa, p = .mem pa) ∨ ∃ c a, p = .loc c a

/-- No local store has changed. -/
def sameStores (s t : State) : Prop := ∀ c k, Sparse.get 0 k (coreAt t c).store = Sparse.get 0 k (coreAt s c).store

/-- From `s` to `t` the bytes `b` have gone to a place; every other byte of memory and of every local store is as it was. -/
def placeTakes (p : Place) (b : List Byte) (s t : State) : Prop :=
  match p with
  | .mem pa => sameStores s t ∧ ∀ k, memByte t k = if pa ≤ k ∧ k < pa + b.length then nth 0 b (k - pa) else memByte s k
  | .loc c a => t.mem = s.mem ∧ ∀ d k, Sparse.get 0 k (coreAt t d).store =
      if d = c ∧ a ≤ k ∧ k < a + b.length then nth 0 b (k - a) else Sparse.get 0 k (coreAt s d).store
  | _ => False

/-- `n` bytes at an address lie within one page. -/
def onePage (va : DWord) (n : Nat) : Prop := 0 < n ∧ va.toNat % 65536 + n ≤ 65536

/-- A copy or transposition has begun, and its next row can move: all of a tile that is read whole has been read, nothing moves its
handle, no peer owes it an answer, and no byte of the row has gone (R247, R249, R353, R423). -/
structure MayMove (s : State) (r : CmdRef) (c : Command) : Prop where
  found : findCmd s r = some c
  free : runnable c = true ∧ c.phase = .running ∧ moving s c = false ∧ awaitsPeer s r = false ∧ c.sent = 0
  left : c.moved < (srcShape c.kind).1
  whole : readsWhole c = true → (srcShape c.kind).1 ≤ c.data.length

/-- The next row of a command is `b`: it has been read before, or one page of its source holds it; `t` is the state after the read. -/
def rowComes (s : State) (r : CmdRef) (c : Command) (b : List Byte) (t : State) : Prop :=
  (c.data[c.moved]? = some b ∧ t = s) ∨
  (c.data = [] ∧ c.part = [] ∧ readsWhole c = false ∧ ∃ a d p u, srcSide c.kind = some (.mem a d) ∧
    let va := rowAt a d c.moved
    let n := (srcShape c.kind).2.1
    onePage va n ∧ (cmdMover r.core c).place va .read s = (p, u) ∧ placeHolds u p n b ∧ t = (cmdMover r.core c).left va p n false u)

/-- A command is in its sequencer with one more row moved. -/
def oneMore (r : CmdRef) (c : Command) (t : State) : Prop :=
  ∃ d, d ∈ (coreAt t r.core).seq ∧ d.serial = c.serial ∧ d.moved = c.moved + 1

/-- A byte of a version of a handle. -/
def versionByte (s : State) (eid h : Nat) (second : Bool) (k : Nat) : Byte :=
  Sparse.get 0 k (if second then (handleOf s eid h).ver1 else (handleOf s eid h).ver0)

/-- What an octet operation of narrow formats in hardware makes of block `blk` of tile `t0`: the products, whose sums are `sum i c`,
enter the residue words; where the span is full its sums go to the carry words, multiplied by the scales `sa` and `sb` and rounded
once, and the residue words are empty again (R35, R260). A block that passes its check passes it afterwards (R267). -/
def narrowTakes (f : DWord) (blk k : Nat) (sum : Nat → Nat → Int) (sa sb : Nat → Word) (t0 t : Tile) : Prop :=
  let full := kposOf t0 blk + k = spanOf (fmtSpan f)
  (∀ i c, i < 8 → c < 128 →
    let key := 1024 * blk + 128 * i + c
    let z := residueAdd (Sparse.get 0 key t0.resid) (sum i c)
    (¬full → Sparse.get 0 key t.resid = z ∧ Sparse.get 0 key t.carry = Sparse.get 0 key t0.carry) ∧
    (full → Sparse.get 0 key t.resid = 0 ∧ Sparse.get 0 key t.carry = BitVec.ofNat 32 (roundFV fp32 0 (fmtSat f) false
      (addV 0 (source fp32 false (Sparse.get 0 key t0.carry).toNat)
        (mulV (mulV (intEx (crt z), 0) (scaleValue (fmtFs f) (sa i))) (scaleValue (fmtFs f) (sb c))))).1)) ∧
  (∀ key, key / 1024 ≠ blk → Sparse.get 0 key t.resid = Sparse.get 0 key t0.resid ∧ Sparse.get 0 key t.carry = Sparse.get 0 key t0.carry) ∧
  (∀ i, i < 8 → Sparse.get 0 (8 * blk + i) t.sclA = sa i) ∧ (∀ c, c < 128 → Sparse.get 0 (128 * blk + c) t.sclB = sb c) ∧
  (kposOf t blk = if full then 0 else kposOf t0 blk + k) ∧ (sidxOf t blk = if full then (sidxOf t0 blk + 1) % 65536 else sidxOf t0 blk) ∧
  (checkBlock t0 blk = none → checkBlock t blk = none)

/-- A tile takes narrow products in hardware: it holds sums of these formats and no failed check, and a block whose span they fill
passes its check and has no uncorrectable carry word (R260, R268, R437). -/
structure TakesNarrow (f : DWord) (blk : Nat) (t : Tile) : Prop where
  sound : isBad t = false
  kind : t.kind = 1
  latched : latchAgrees f t = true
  room : kposOf t blk + kOf (fmtFa f) ≤ spanOf (fmtSpan f)
  checked : kposOf t blk + kOf (fmtFa f) = spanOf (fmtSpan f) → checkBlock t blk = none ∧ ∀ k ∈ t.badCarry, k / 1024 ≠ blk

/-- The sum of the products of row `a` of A and column `c` of the rows of B. -/
def dotInt (fa fb k : Nat) (a : List Byte) (b : List (List Byte)) (c : Nat) : Int :=
  ((List.range k).map (fun l => if l < b.length then
    (nth (0, false) (narrowElems fa a) l).1 * (nth (0, false) (narrowElems fb (nth [] b l)) c).1 else 0)).sum

/-- The group that issued a command is on the device and has not ended. -/
def hasOwner (s : State) (c : Command) : Prop := ∃ g, findGroup s c.group = some g ∧ g.tid = c.team ∧ isOver g = false

/-! ### The machine as a whole -/

/-- What every step keeps: memory is in its canonical form; the start-up phase, the clock step, the power cap and the rollback
fuses are within the ranges of R433, R435 and R431. -/
structure Inv (s : State) : Prop where
  mem : Memory.wf s.mem = true
  phase : s.phase ≤ 5
  pstep : s.pstep ≤ 5
  capw : 600 ≤ s.capw ∧ s.capw ≤ 2400
  rollback : s.rollback ≤ 64

/-- Nothing that a group has posted, stored or sent is under way: a release of it finds all done (R210, R237). -/
def allQuiet (s : State) (gid : Nat) : Prop :=
  (∀ i ∈ s.pending, postedBy gid i = false) ∧ (∀ g ∈ allGroups s, g.gid = gid → ∀ l ∈ (coreAt s (coreNo g)).lines, wroteLine gid l = false) ∧
  ∀ a ∈ s.accs, a.group ≠ gid

/-! ### Requests at the port -/

/-- A message of an engagement's connection, well formed but for what its operation asks, reaches the port, and its engagement
is live (R415 to R417). -/
def engReq (s : State) (m : Msg) (op eid : Nat) : Prop :=
  ∃ k, connOf s m = some k ∧ m.auth = true ∧ k.system = false ∧ k.eid = eid ∧ m.eng.toNat = eid ∧ (engOf s eid).st = .live ∧ m.op.toNat = op ∧
    m.flg &&& 0xFE = 0 ∧ m.xsel = 0

/-- A request of a system connection to `Charon` reaches the port, and its header is well formed (R417, R420). -/
def sysReq (s : State) (m : Msg) (code : Nat) : Prop :=
  ∃ k, connOf s m = some k ∧ m.auth = true ∧ k.system = true ∧ hdrOk m 0x06 = true ∧ m.eng = 0 ∧ m.xsel = 0 ∧ argBits m 7 0 = code ∧
    (s.recovery = true → inRecovery code = true)

/-- An answer of a status, with data, is the newest message that the device has sent. -/
def answered (m : Msg) (status : Nat) (data : List Byte) (t : State) : Prop :=
  ∃ l, t.out = .answer m.conn m.tag status 0 0 data :: l

/-- The entries that a walk of an address reads, down to the first that is no pointer (R217). -/
def pteWay (s : State) (va : Nat) : List Level → Nat → List (Level × Nat)
  | [], _ => []
  | l :: ls, t =>
    let a := t + 8 * (va / 2 ^ l.shift % 2 ^ l.bits)
    let e := readPte s l a
    (l, a) :: if pteBit e 0 && !pteBit e 1 then pteWay s va ls (pteAddr e) else []

/-- The tables that a walk of an address reads are tables: entries that do not meet, in memory that somebody owns, none of them
bad; and the pool names frames that exist. -/
structure TablesStand (s : State) (eid va : Nat) : Prop where
  apart : (pteWay s va levels (engOf s eid).root).Pairwise (fun a b => a.2 + 8 ≤ b.2 ∨ b.2 + 8 ≤ a.2)
  owned : ∀ a ∈ pteWay s va levels (engOf s eid).root, a.2 + 8 ≤ 2 ^ 39 ∧ (frameOf s a.2).owner ≠ 0 ∧ (frameOf s (a.2 + 7)).owner ≠ 0
  good : ∀ a ∈ pteWay s va levels (engOf s eid).root, pteBit (readPte s a.1 a.2) 0 = true → pteBad a.1 (readPte s a.1 a.2) = false
  pool : ∀ d f, f ∈ Sparse.get [] d s.poolBack → f < 2 ^ 23

/-- Every address of a range leads a walk to one leaf. -/
def leadsTo (s : State) (eid lo len : Nat) (e a shift : Nat) : Prop :=
  ∀ v, lo ≤ v → v < lo + len → walkFrom s v levels (engOf s eid).root none = .leaf (BitVec.ofNat 64 e) a shift

/-- The engagement that a request names is live (R424). -/
def onLive (s : State) (m : Msg) (eid : Nat) : Prop := argEid m = eid ∧ (engOf s eid).st = .live

end Sys2Proof.Safety
end

