-- ==== Sys2Proof/WellFormed.lean ====
section
/-! DEFINITION. Well-formed instructions: those whose word passes step 3 of R113. -/

namespace Sys2Proof

/-- The instruction carries a word of the table. -/
def WellFormed (i : Instr) : Prop := Machine.fieldsLegal i = true

/-- Decided form of `WellFormed`. -/
abbrev wellFormed (i : Instr) : Bool := Machine.fieldsLegal i

end Sys2Proof
end

