-- ==== Sys2Proof/Certificates/Slice0/Obligations.lean ====
section
/-! DEFINITION. The statements for the provers. -/

open Sys2Proof Sys2Proof.Machine Sys2Proof.Safety

/-! ### Integer instructions -/

/-- R132, R133, R135, R136: every element of the result of `IADD`, `ISUB`, `IMUL` low and high, `IMIN`, `IMAX`, `INEG` and
`IABS`. The instruction completes for operands that pass step 5 of R113 and hold no storage error.
The model's choices in it: a short immediate A beside a long B (log entry 13); with `U` = 1 a resume index that is not 0 skips strands of a
broadcast only (log entry 17). -/
def Obligations.IntegerArithmetic : Prop :=
  ∀ (ty : Ty) (x : Fields) (s : State),
    (okDAB ty s.g x = true → readable s.g x (srcAB ty x) →
      let a := fun i e => elemVal ty (readTy ty s.g x i x.a) e
      let b := fun i e => elemVal ty (readTyB ty s.g x i) e
      (∀ f, WellFormed (.iadd f ty x) → ∃ t res, exec (.iadd f ty x) s = .next t ∧ RegResult x (regCount ty) res s t ∧
        ∀ i e, e < elemCount ty →
          (f = .wrap → wraps ty (a i e + b i e) (elemVal ty (regsNum (res i)) e)) ∧
          (f = .sat → elemVal ty (regsNum (res i)) e = max (tyMin ty) (min (tyMax ty) (a i e + b i e)))) ∧
      (∀ f, WellFormed (.isub f ty x) → ∃ t res, exec (.isub f ty x) s = .next t ∧ RegResult x (regCount ty) res s t ∧
        ∀ i e, e < elemCount ty →
          (f = .wrap → wraps ty (a i e - b i e) (elemVal ty (regsNum (res i)) e)) ∧
          (f = .sat → elemVal ty (regsNum (res i)) e = max (tyMin ty) (min (tyMax ty) (a i e - b i e)))) ∧
      (WellFormed (.imul .lo ty x) → ∃ t res, exec (.imul .lo ty x) s = .next t ∧ RegResult x (regCount ty) res s t ∧
        ∀ i e, e < elemCount ty → wraps ty (a i e * b i e) (elemVal ty (regsNum (res i)) e)) ∧
      (WellFormed (.imul .hi ty x) → ∃ t res, exec (.imul .hi ty x) s = .next t ∧ RegResult x (regCount ty) res s t ∧
        ∀ i e, e < elemCount ty →
          elemVal ty (regsNum (res i)) e * (2 ^ elemWidth ty : Nat) ≤ a i e * b i e ∧
          a i e * b i e < (elemVal ty (regsNum (res i)) e + 1) * (2 ^ elemWidth ty : Nat)) ∧
      (WellFormed (.imin ty x) → ∃ t res, exec (.imin ty x) s = .next t ∧ RegResult x (regCount ty) res s t ∧
        ∀ i e, e < elemCount ty → elemVal ty (regsNum (res i)) e = min (a i e) (b i e)) ∧
      (WellFormed (.imax ty x) → ∃ t res, exec (.imax ty x) s = .next t ∧ RegResult x (regCount ty) res s t ∧
        ∀ i e, e < elemCount ty → elemVal ty (regsNum (res i)) e = max (a i e) (b i e))) ∧
    (okDA ty s.g x = true → readable s.g x [(x.a, regCount ty)] →
      let a := fun i e => elemVal ty (readTy ty s.g x i x.a) e
      (WellFormed (.ineg ty x) → ∃ t res, exec (.ineg ty x) s = .next t ∧ RegResult x (regCount ty) res s t ∧
        ∀ i e, e < elemCount ty → wraps ty (-(a i e)) (elemVal ty (regsNum (res i)) e)) ∧
      (WellFormed (.iabs ty x) → ∃ t res, exec (.iabs ty x) s = .next t ∧ RegResult x (regCount ty) res s t ∧
        ∀ i e, e < elemCount ty → wraps ty ((a i e).natAbs : Int) (elemVal ty (regsNum (res i)) e)))

/-- R133 (long), R134, R141: the 64-bit product of `IMUL.long`, `IMAD` in its three forms, and `LEA`.
The model's choices in it: a resume index with `U` = 1 (log entry 17), and that a short immediate A extends as its form says beside a
long B (log entry 13). -/
def Obligations.IntegerWide : Prop :=
  ∀ (ty : Ty) (x : Fields) (s : State),
    let a := fun i => elemVal ty (readTy ty s.g x i x.a) 0
    let b := fun i => elemVal ty (readTy ty s.g x i x.b) 0
    let n := regCount ty
    (WellFormed (.imul .long ty x) → (formDAB x && regsOk s.g [(x.d, 2), (x.a, 1), (x.b, 1)]) = true →
      readable s.g x [(x.a, 1), (x.b, 1)] →
      ∃ t res, exec (.imul .long ty x) s = .next t ∧ RegResult x 2 res s t ∧
        ∀ i, isMod64 (regsNum (res i)) (a i * elemVal ty (readTyB ty s.g x i) 0)) ∧
    (∀ f, WellFormed (.imad f ty x) →
      (formDABC x && regsOk s.g [(x.d, if f = .long then 2 else n), (x.a, n), (x.b, n), (x.c, if f = .long then 2 else n)]) = true →
      readable s.g x [(x.a, n), (x.b, n), (x.c, if f = .long then 2 else n)] →
      ∃ t res, exec (.imad f ty x) s = .next t ∧ RegResult x (if f = .long then 2 else n) res s t ∧
        ∀ i, let c := elemVal ty (readTy ty s.g x i x.c) 0
          let r := elemVal ty (regsNum (res i)) 0
          (f = .lo → wraps ty (a i * b i + c) r) ∧
          (f = .hi → r * (2 ^ elemWidth ty : Nat) ≤ a i * b i + c ∧ a i * b i + c < (r + 1) * (2 ^ elemWidth ty : Nat)) ∧
          (f = .long → (opIm x.c = false → isMod64 (regsNum (res i)) (a i * b i + ((read64 s.g x i x.c).toNat : Int))) ∧
            (opIm x.c = true → isSigned ty = true → isMod64 (regsNum (res i)) (a i * b i + (read32 s.g x i x.c).toInt)) ∧
            (opIm x.c = true → isSigned ty = false →
              isMod64 (regsNum (res i)) (a i * b i + ((read32 s.g x i x.c).toNat : Int))))) ∧
    (WellFormed (.lea ty x) →
      (!isLong x && isDst x x.d && (isS x.a || (isV x.a && !x.u)) && isSrc x x.b &&
        regsOk s.g [(x.d, 2), (x.a, 2), (x.b, 1)]) = true → readable s.g x [(x.a, 2), (x.b, 1)] →
      ∃ t res, exec (.lea ty x) s = .next t ∧ RegResult x 2 res s t ∧
        ∀ i, isMod64 (regsNum (res i)) ((read64 s.g x i x.a).toNat +
          elemVal ty (read32 s.g x i x.b).toNat 0 * (2 ^ (x.e.extractLsb' 0 3).toNat : Nat)))

/-- R137, R138: shifts, rotates and logic, bit by bit. A shift count is never reduced; a rotate reduces it modulo the width.
The model's choices in it: a short immediate A beside a long B (log entry 13), a resume index with `U` = 1 (17). -/
def Obligations.ShiftLogic : Prop :=
  ∀ (ty : Ty) (x : Fields) (s : State),
    let w := elemWidth ty
    let n := regCount ty
    let a := fun i => readTy ty s.g x i x.a
    let c := fun i => (readB32 s.g x i).toNat
    let holds := fun (o : Instr) (bit : Nat → Nat → Bool) => ∃ t res, exec o s = .next t ∧ RegResult x n res s t ∧
      ∀ i, regsNum (res i) < 2 ^ w ∧ ∀ j, j < w → (regsNum (res i)).testBit j = bit i j
    ((formDAB x && regsOk s.g [(x.d, n), (x.a, n), (x.b, 1)]) = true → readable s.g x [(x.a, n), (x.b, 1)] →
      (WellFormed (.shl ty x) → holds (.shl ty x) (fun i j => decide (c i ≤ j) && (a i).testBit (j - c i))) ∧
      (WellFormed (.shr .log ty x) → holds (.shr .log ty x) (fun i j => (a i).testBit (j + c i))) ∧
      (WellFormed (.shr .ari ty x) → holds (.shr .ari ty x) (fun i j => (a i).testBit (min (j + c i) (w - 1)))) ∧
      (WellFormed (.rot .left ty x) → holds (.rot .left ty x) (fun i j => (a i).testBit ((j + w - c i % w) % w))) ∧
      (WellFormed (.rot .right ty x) → holds (.rot .right ty x) (fun i j => (a i).testBit ((j + c i) % w)))) ∧
    (okDAB ty s.g x = true → readable s.g x (srcAB ty x) →
      let b := fun i => readTyB ty s.g x i
      (WellFormed (.lop .and ty x) → holds (.lop .and ty x) (fun i j => (a i).testBit j && (b i).testBit j)) ∧
      (WellFormed (.lop .or ty x) → holds (.lop .or ty x) (fun i j => (a i).testBit j || (b i).testBit j)) ∧
      (WellFormed (.lop .xor ty x) → holds (.lop .xor ty x) (fun i j => (a i).testBit j != (b i).testBit j)) ∧
      (WellFormed (.lop .andn ty x) → holds (.lop .andn ty x) (fun i j => (a i).testBit j && !(b i).testBit j)) ∧
      (WellFormed (.lop .orn ty x) → holds (.lop .orn ty x) (fun i j => (a i).testBit j || !(b i).testBit j)) ∧
      (WellFormed (.lop .xnor ty x) → holds (.lop .xnor ty x) (fun i j => (a i).testBit j == (b i).testBit j))) ∧
    (okDA ty s.g x = true → readable s.g x [(x.a, n)] →
      WellFormed (.lop .not ty x) → holds (.lop .not ty x) (fun i j => !(a i).testBit j)) ∧
    ((formDABC x && regsOk s.g [(x.d, n), (x.a, n), (x.b, n), (x.c, n)]) = true → readable s.g x [(x.a, n), (x.b, n), (x.c, n)] →
      WellFormed (.lop .tri ty x) → holds (.lop .tri ty x) (fun i j =>
        x.e.getLsbD (((readTy ty s.g x i x.c).testBit j).toNat * 4 + ((readTy ty s.g x i x.b).testBit j).toNat * 2 +
          ((a i).testBit j).toNat)))

/-- R139, R140: bit fields. The control gives the position in bits 7:0 and the length in bits 15:8. R142: bit counts and reversal of
each element.
The model's choices in it: a short immediate A beside a long B (log entry 13), a resume index with `U` = 1 (17). -/
def Obligations.BitOperations : Prop :=
  (∀ (ty : Ty) (x : Fields) (s : State),
    let w := elemWidth ty
    let n := regCount ty
    let a := fun i => readTy ty s.g x i x.a
    let holds := fun (o : Instr) (bit : Nat → Nat → Bool) => ∃ t res, exec o s = .next t ∧ RegResult x n res s t ∧
      ∀ i, regsNum (res i) < 2 ^ w ∧ ∀ j, j < w → (regsNum (res i)).testBit j = bit i j
    ((formDAB x && regsOk s.g [(x.d, n), (x.a, n), (x.b, 1)]) = true → readable s.g x [(x.a, n), (x.b, 1)] →
      let p := fun i => min ((readB32 s.g x i).toNat % 256) w
      let l := fun i => min ((readB32 s.g x i).toNat / 256 % 256) w
      (WellFormed (.bfx .zx ty x) → holds (.bfx .zx ty x) (fun i j => decide (j < l i) && (a i).testBit (p i + j))) ∧
      (WellFormed (.bfx .sx ty x) → holds (.bfx .sx ty x)
        (fun i j => decide (0 < l i) && (a i).testBit (min (p i + min j (l i - 1)) (w - 1))))) ∧
    ((formDABC x && regsOk s.g [(x.d, n), (x.a, n), (x.b, n), (x.c, 1)]) = true → readable s.g x [(x.a, n), (x.b, n), (x.c, 1)] →
      let p := fun i => min ((read32 s.g x i x.c).toNat % 256) w
      let l := fun i => min ((read32 s.g x i x.c).toNat / 256 % 256) (w - p i)
      WellFormed (.bfi ty x) → holds (.bfi ty x) (fun i j =>
        if p i ≤ j ∧ j < p i + l i then (a i).testBit (j - p i) else (readTy ty s.g x i x.b).testBit j))) ∧
  (∀ (ty : Ty) (x : Fields) (s : State), okDA ty s.g x = true → readable s.g x [(x.a, 1)] →
    let w := elemWidth ty
    let a := fun i e => elemAt ty (readTy ty s.g x i x.a) e
    let holds := fun (o : Instr) (P : Nat → Nat → Prop) => ∃ t res, exec o s = .next t ∧ RegResult x 1 res s t ∧
      ∀ i e, e < elemCount ty → P (a i e) (elemAt ty (regsNum (res i)) e)
    (WellFormed (.clz ty x) → holds (.clz ty x) (fun a r =>
      r ≤ w ∧ (∀ j, j < r → a.testBit (w - 1 - j) = false) ∧ (r < w → a.testBit (w - 1 - r) = true))) ∧
    (WellFormed (.ffs ty x) → holds (.ffs ty x) (fun a r =>
      r ≤ w ∧ (∀ j, j < r → a.testBit j = false) ∧ (r < w → a.testBit r = true))) ∧
    (WellFormed (.popc ty x) → holds (.popc ty x) (fun a r => r = ((List.range w).filter (fun j => a.testBit j)).length)) ∧
    (WellFormed (.brev ty x) → holds (.brev ty x) (fun a r => ∀ j, j < w → r.testBit j = a.testBit (w - 1 - j))))

/-- R143, R144: comparison into a predicate, and selection by a predicate. R145, R146: predicate logic, and moves between predicates
and registers. Writes of `pt` and `qt` are discarded.
The model's choices in it: a short immediate A beside a long B (log entry 13), a resume index with `U` = 1 (17). -/
def Obligations.ComparePredicates : Prop :=
  (∀ (ty : Ty) (x : Fields) (s : State),
    (∀ f, WellFormed (.icmp f ty x) →
      (isPDst x x.d && isSrc x x.a && isSrcB x && (isLong x || oneImm [x.a, x.b]) &&
        regsOk s.g [(x.a, regCount ty), (x.b, regCount ty)]) = true → readable s.g x (srcAB ty x) →
      ∃ t res, exec (.icmp f ty x) s = .next t ∧ PredResult x res s t ∧ ∀ i,
        let a := elemVal ty (readTy ty s.g x i x.a) 0
        let b := elemVal ty (readTyB ty s.g x i) 0
        (f = .eq → (res i = true ↔ a = b)) ∧ (f = .ne → (res i = true ↔ a ≠ b)) ∧ (f = .lt → (res i = true ↔ a < b)) ∧
        (f = .le → (res i = true ↔ a ≤ b)) ∧ (f = .gt → (res i = true ↔ b < a)) ∧ (f = .ge → (res i = true ↔ b ≤ a))) ∧
    (WellFormed (.sel ty x) →
      (!isLong x && isDst x x.d && isSrc x x.a && isSrc x x.b && oneImm [x.a, x.b] && (isQ x.c || (isP x.c && !x.u)) &&
        regsOk s.g [(x.d, regCount ty), (x.a, regCount ty), (x.b, regCount ty)]) = true →
      readable s.g x [(x.a, regCount ty), (x.b, regCount ty)] →
      ∃ t res, exec (.sel ty x) s = .next t ∧ RegResult x (regCount ty) res s t ∧ ∀ i,
        (readPred s.g i x.c ≠ x.e.getLsbD 0 → regsNum (res i) = readTy ty s.g x i x.a) ∧
        (readPred s.g i x.c = x.e.getLsbD 0 → regsNum (res i) = readTy ty s.g x i x.b))) ∧
  (∀ (x : Fields) (s : State),
    (∀ f, WellFormed (.plop f x) → (isPDst x x.d && isPSrc x x.a && (f == .not || isPSrc x x.b)) = true →
      ∃ t res, exec (.plop f x) s = .next t ∧ PredResult x res s t ∧ ∀ i,
        let a := readPred s.g i x.a != x.e.getLsbD 0
        let b := readPred s.g i x.b != x.e.getLsbD 1
        (f = .and → res i = (a && b)) ∧ (f = .or → res i = (a || b)) ∧ (f = .xor → res i = (a != b)) ∧ (f = .not → res i = !a)) ∧
    (WellFormed (.pmov .get x) → (isDst x x.d && regOk s.g x.d 1) = true →
      ∃ t res, exec (.pmov .get x) s = .next t ∧ RegResult x 1 res s t ∧ ∀ i, regsNum (res i) < 256 ∧
        (regsNum (res i)).testBit 7 = true ∧
        ∀ k, k < 7 → (regsNum (res i)).testBit k = if x.u then qGet s.g k else pGet s.g i k) ∧
    (WellFormed (.pmov .set x) →
      (!isLong x && (isS x.a || (isV x.a && !x.u)) && isSrc x x.b && regsOk s.g [(x.a, 1), (x.b, 1)]) = true →
      readable s.g x [(x.a, 1), (x.b, 1)] →
      ∃ t, exec (.pmov .set x) s = .next t ∧ t = setG { s.g with p := t.g.p, q := t.g.q, pc := s.g.pc + 12, ridx := 0, readTime := 0, midway := false } s ∧
        (x.u = false → t.g.q = s.g.q ∧ ∀ i k, i < 64 → k < 8 → pGet t.g i k =
          if i ∈ execList s.g x ∧ k < 7 ∧ (read32 s.g x i x.b).getLsbD k = true then (read32 s.g x i x.a).getLsbD k
          else pGet s.g i k) ∧
        (x.u = true → t.g.p = s.g.p ∧ ∀ k, k < 8 → qGet t.g k =
          if holdsQ s.g x = true ∧ k < 7 ∧ (read32 s.g x 0 x.b).getLsbD k = true then (read32 s.g x 0 x.a).getLsbD k
          else qGet s.g k)))

/-- R147, R148: copies of registers and immediates, reads of every special register of R59, and the two writes. A write
of `sr.fmt` or `sr.res` names no other register.
The model's choices in it: a resume index with `U` = 1 (log entry 17). -/
def Obligations.Moves : Prop :=
  ∀ (f : MovCount) (x : Fields) (s : State),
    (WellFormed (.mov f x) →
      (isDst x x.d && (if f = .one then isSrcB x else isS x.b || (isV x.b && isV x.d && !x.u)) &&
        regsOk s.g [(x.d, movCount f), (x.b, movCount f)]) = true → readable s.g x [(x.b, movCount f)] →
      ∃ t res, exec (.mov f x) s = .next t ∧ RegResult x (movCount f) res s t ∧ ∀ i,
        (f = .one → res i = [readB32 s.g x i]) ∧
        (f ≠ .one → ∀ j, j < movCount f → nth 0 (res i) j =
          if isV x.b then vGet s.g i (opIdx x.b + j) else sGet s.g (opIdx x.b + j))) ∧
    (WellFormed (.movSpecial f x) → opSpecialReg x.d = false →
      (isDst x x.d && decide (specialOf x.b ≤ 0x12) && (if specialWide (specialOf x.b) then f == .two else f == .one) &&
        !(x.u && specialOf x.b == 0) && regOk s.g x.d (movCount f)) = true →
      ∃ t res, exec (.movSpecial f x) s = .next t ∧ RegResult x (movCount f) res s t ∧ ∀ i,
        regsNum (res i) = (specialValue s.g s.ac i (specialOf x.b)).toNat % 2 ^ (32 * movCount f)) ∧
    (WellFormed (.movSpecial f x) → x.d = .sp 0x8B → (x.u && f == .two && isS x.b && regOk s.g x.b 2) = true →
      exec (.movSpecial f x) s = .next (setG { s.g with fmt := if holdsQ s.g x then read64 s.g x 0 x.b else s.g.fmt
                                                        pc := s.g.pc + 12, ridx := 0, readTime := 0, midway := false } s)) ∧
    (WellFormed (.movSpecial f x) → x.d = .sp 0x8D → ∀ fr, s.g.frame = some fr → inHandler s.g = true →
      (x.u && f == .one && (isS x.b || isShort x.b || isLong x) && isSrcB x && regOk s.g x.b 1) = true →
      exec (.movSpecial f x) s = .next (setG { s.g with
        frame := some { fr with ridx := if holdsQ s.g x then min (readB32 s.g x 0).toNat (widthOf s.g) else fr.ridx }
        pc := s.g.pc + 12, ridx := 0, readTime := 0, midway := false } s)) ∧
    (WellFormed (.movSpecial f x) → x.d = .sp 0x8D → inHandler s.g = false →
      exec (.movSpecial f x) s = trapped (wordTrap 0x04) s)

/-! ### Control flow, cross-strand operations and group state -/

/-- R179, R180, R186: `BRA`, direct `CALL` and `CANCELCHK`, for every value of the guards and of the cancel bit. R98, R177, R180:
`BRX`, indirect `CALL` and `RET` go to the address in the s pair A, which `CALL` reads before it writes the link; an address that
is no slot's address traps with cause 0x0B. -/
def Obligations.Jumps : Prop :=
  (∀ (x : Fields) (s : State),
    let o := (x.e ++ x.imm).toInt
    let onward := setG { s.g with pc := s.g.pc + 12, ridx := 0, readTime := 0, midway := false } s
    (WellFormed (.bra x) →
      (holdsAll s.g x = false → exec (.bra x) s = .next onward) ∧
      (holdsAll s.g x = true → ∃ a, isTarget s.g.pc o a ∧ exec (.bra x) s = .next (setG { s.g with pc := a, ridx := 0, readTime := 0, midway := false } s))) ∧
    (WellFormed (.callDirect x) →
      (holdsAll s.g x = false → exec (.callDirect x) s = .next onward) ∧
      (holdsAll s.g x = true → ∃ a r, isTarget s.g.pc o a ∧
        exec (.callDirect x) s = .next (setG { s.g with pc := a, ridx := 0, readTime := 0, midway := false, s := r } s) ∧
        ∀ q, sGet { s.g with s := r } q = if q = 62 then (s.g.pc + 12).extractLsb' 0 32
          else if q = 63 then (s.g.pc + 12).extractLsb' 32 32 else sGet s.g q)) ∧
    (WellFormed (.cancelchk x) →
      (holdsAll s.g x = false → exec (.cancelchk x) s = .next onward) ∧
      (∀ tm, findTeam s s.g.tid = some tm →
        (tm.cancel = false → exec (.cancelchk x) s = .next onward) ∧
        (tm.cancel = true → holdsAll s.g x = true → ∃ a t, isTarget s.g.pc o a ∧ exec (.cancelchk x) s = .next t ∧
          t = { setG { s.g with pc := a, ridx := 0, readTime := 0, midway := false } s with teams := t.teams, saved := t.saved, programs := t.programs } ∧
          ∀ u ∈ t.teams, u.tid = s.g.tid → u.took = true)))) ∧
  (∀ (x : Fields) (s : State) (k : BitVec 8), x.a = .s k → k.toNat % 2 = 0 → k.toNat ≤ 62 →
    let a := sGet s.g (k.toNat + 1) ++ sGet s.g k.toNat
    let onSlot := ((a.toNat : Int) - s.g.base.toNat) % 12 = 0
    let onward := setG { s.g with pc := s.g.pc + 12, ridx := 0, readTime := 0, midway := false } s
    (∀ i, i = .brx x ∨ i = .callIndirect x ∨ i = .ret x → WellFormed i →
      (holdsAll s.g x = false → exec i s = .next onward) ∧
      (holdsAll s.g x = true → ¬onSlot → exec i s = trapped ⟨0x0B, 0, some a, 0⟩ s)) ∧
    (∀ i, i = .brx x ∨ i = .ret x → WellFormed i → holdsAll s.g x = true → onSlot →
      exec i s = .next (setG { s.g with pc := a, ridx := 0, readTime := 0, midway := false } s)) ∧
    (WellFormed (.callIndirect x) → holdsAll s.g x = true → onSlot → ∃ r,
      exec (.callIndirect x) s = .next (setG { s.g with pc := a, ridx := 0, readTime := 0, midway := false, s := r } s) ∧
      ∀ q, sGet { s.g with s := r } q = if q = 62 then (s.g.pc + 12).extractLsb' 0 32
        else if q = 63 then (s.g.pc + 12).extractLsb' 32 32 else sGet s.g q))

/-- R63, R182: `BRD` divides the active strands by their guards and pushes the entries of R61, or overflows the stack with cause 0x1C.
R62, R183, R184: `JOIN` resumes the first entry of the stack that has a live strand, discarding those above it; `EXIT` takes
strands out of `Live` and goes on, reconverges, or ends the group.
The model's choices in it: `BRD` leaves out the strands below a resume index (log entry 17). -/
def Obligations.Reconvergence : Prop :=
  (∀ (x : Fields) (s : State) (t a j : DWord), WellFormed (.brd x) → s.g.active ≠ 0 →
    (∀ i, t.getLsbD i = decide (i ∈ execList s.g x)) →
    isTarget s.g.pc (x.e ++ x.imm).toInt a → isTarget s.g.pc (opndBits x.b ++ opndBits x.c).toInt j →
    let join : StackEntry := ⟨.join, j, s.g.active, s.g.fmt, s.g.jord⟩
    let path : StackEntry := ⟨.path, a, t, s.g.fmt, s.g.jord⟩
    (t = 0 → s.g.stack.length < 16 →
      exec (.brd x) s = .next (setG { s.g with stack := join :: s.g.stack, pc := s.g.pc + 12, ridx := 0, readTime := 0, midway := false } s)) ∧
    (t = s.g.active → s.g.stack.length < 16 →
      exec (.brd x) s = .next (setG { s.g with stack := join :: s.g.stack, pc := a, ridx := 0, readTime := 0, midway := false } s)) ∧
    (t ≠ 0 → t ≠ s.g.active → s.g.stack.length < 15 →
      exec (.brd x) s = .next (setG { s.g with stack := path :: join :: s.g.stack, active := s.g.active &&& ~~~t
                                               pc := s.g.pc + 12, ridx := 0, readTime := 0, midway := false } s)) ∧
    (16 ≤ s.g.stack.length ∨ (15 ≤ s.g.stack.length ∧ t ≠ 0 ∧ t ≠ s.g.active) → exec (.brd x) s = trapped (wordTrap 0x1C) s)) ∧
  (∀ (x : Fields) (s : State) (dead rest : List StackEntry) (e : StackEntry),
    (WellFormed (.join x) → (∀ d ∈ dead, d.mask &&& s.g.live = 0) →
      (s.g.stack = dead → exec (.join x) s = trapped (wordTrap 0x01) s) ∧
      (s.g.stack = dead ++ e :: rest → e.mask &&& s.g.live ≠ 0 → exec (.join x) s = .next (setG { s.g with
        active := e.mask &&& s.g.live, fmt := e.fmt, jord := e.jord, pc := e.pc, stack := rest, ridx := 0, readTime := 0, midway := false } s))) ∧
    (WellFormed (.exit x) → ∀ out : DWord,
      (∀ i, i < 64 → out.getLsbD i =
        if x.u then s.g.live.getLsbD i && holdsQ s.g x else decide (i ∈ execList s.g x)) →
      let live := s.g.live &&& ~~~out
      let active := s.g.active &&& ~~~out
      (active ≠ 0 → exec (.exit x) s = .next (setG { s.g with live := live, active := active, pc := s.g.pc + 12, ridx := 0, readTime := 0, midway := false } s)) ∧
      (active = 0 → live ≠ 0 → (∀ d ∈ dead, d.mask &&& live = 0) → s.g.stack = dead ++ e :: rest → e.mask &&& live ≠ 0 →
        exec (.exit x) s = .next (setG { s.g with live := live, active := e.mask &&& live, fmt := e.fmt, jord := e.jord, pc := e.pc
                                                  stack := rest, ridx := 0, readTime := 0, midway := false } s)) ∧
      (active = 0 → live = 0 → ∃ t, exec (.exit x) s = .next t ∧ t.mem = s.mem ∧
        ∀ g, findGroup t s.g.gid = some g → isOver g = true)))

/-- R57, R114, R185, R191 to R193, R50, R54: `NOP`, `YIELD`, `FMT`, `ROLE` and `XBLK`. A block that is not free makes the group
wait (R52).
The model's choices in it: `XBLK.acq` checks its blocks whatever its guards (log entry 15). -/
def Obligations.GroupState : Prop :=
  ∀ (x : Fields) (s : State),
    let onward := fun (g : Group) => setG { g with pc := s.g.pc + 12, ridx := 0, readTime := 0, midway := false } s
    (WellFormed (.nop x) → exec (.nop x) s = .next (onward s.g)) ∧
    (WellFormed (.yield x) → exec (.yield x) s =
      .next (onward (if holdsAll s.g x then { s.g with yielded := true, waitingSince := s.ac } else s.g))) ∧
    (WellFormed (.fmt x) → ∀ k, x.b = .s k → isLong x = false → k.toNat % 2 = 0 → k.toNat ≤ 62 → exec (.fmt x) s =
      .next (onward (if holdsQ s.g x then { s.g with fmt := sGet s.g (k.toNat + 1) ++ sGet s.g k.toNat } else s.g))) ∧
    (WellFormed (.role x) → x.b = .im 1 → isLong x = false → x.imm.toNat ≤ 3 → exec (.role x) s =
      .next (onward (if holdsQ s.g x then { s.g with role := x.imm.extractLsb' 0 2 } else s.g))) ∧
    (WellFormed (.xblkRel x) → ∃ t, exec (.xblkRel x) s = .next t ∧
      t = onward { s.g with xblk := t.g.xblk, v := t.g.v, vPoison := t.g.vPoison } ∧
      (holdsQ s.g x = false → t = onward s.g) ∧
      (holdsQ s.g x = true → t.g.xblk = 0 ∧
        ∀ i r, r < 256 → vGet t.g i r = if 64 ≤ r then 0 else vGet s.g i r)) ∧
    (WellFormed (.xblkAcq x) →
      let t := (read32 s.g x 0 x.b).toNat
      ((isS x.b || isShort x.b) && !isLong x && regOk s.g x.b 1) = true →
      (badBlocks s t = true → exec (.xblkAcq x) s = trapped (wordTrap 0x02) s) ∧
      (badBlocks s t = false → holdsQ s.g x = false → exec (.xblkAcq x) s = .next (onward s.g)) ∧
      (badBlocks s t = false → holdsQ s.g x = true →
        (∀ g ∈ onLane s (coreNo s.g) s.g.lane, blockWait g = none) →
        (t * unitsPerBlock s.g ≤ freeUnits s (coreNo s.g) s.g.lane →
          exec (.xblkAcq x) s = .next (onward { s.g with xblk := t })) ∧
        (freeUnits s (coreNo s.g) s.g.lane < t * unitsPerBlock s.g →
          exec (.xblkAcq x) s = .next { setG { s.g with status := .waitBlocks t s.fresh s.ac } s with fresh := s.fresh + 1 })))

/-- R188: `SHFL` reads every source strand before any strand writes, whether or not it executes. R189: the four votes over the
executing strands. R190: `RFL` gives the value of the lowest executing strand; the checked form says whether another strand
differs. -/
def Obligations.CrossStrand : Prop :=
  (∀ (f : ShflMode) (ty : Ty) (x : Fields) (s : State), WellFormed (.shfl f ty x) →
    (isV x.d && isV x.a && !isLong x && (if f = .idx then isSrc x x.b else isS x.b || isShort x.b) &&
      regsOk s.g [(x.d, crossCount ty), (x.a, crossCount ty), (x.b, 1)]) = true → s.g.vPoison = [] →
    ∃ t, exec (.shfl f ty x) s = .next t ∧ t = setG { s.g with v := t.g.v, vPoison := t.g.vPoison, pc := s.g.pc + 12, ridx := 0, readTime := 0, midway := false } s ∧
      ∀ i q, i < 64 → q < 256 → vGet t.g i q =
        if i ∈ execList s.g x ∧ opIdx x.d ≤ q ∧ q < opIdx x.d + crossCount ty then
          let w := widthOf s.g
          let c := (read32 s.g x i x.b).toNat
          let j := match f with
            | .idx => c % w
            | .up => if i < c then i else i - c
            | .down => if w ≤ i + c then i else i + c
            | .xor => i ^^^ (c % w)
          vGet s.g j (opIdx x.a + (q - opIdx x.d))
        else vGet s.g i q) ∧
  (∀ (f : VoteForm) (x : Fields) (s : State), WellFormed (.vote f x) →
    let is := execList s.g x
    let a := fun i => readPred s.g i x.a != x.e.getLsbD 0
    ((isP x.a || isQ x.a) && (isP x.d || isQ x.d) = true →
      (f = .all → ∃ t b, exec (.vote f x) s = .next t ∧ OncePred x x.d b s t ∧ (b = true ↔ ∀ i ∈ is, a i = true)) ∧
      (f = .any → ∃ t b, exec (.vote f x) s = .next t ∧ OncePred x x.d b s t ∧ (b = true ↔ ∃ i ∈ is, a i = true))) ∧
    ((isP x.a || isQ x.a) && (isV x.d || isS x.d) && regOk s.g x.d 2 = true → f = .ballot →
      ∃ t m, exec (.vote f x) s = .next t ∧ OnceResult x x.d 2 (words64 m) s t ∧
        ∀ i, m.getLsbD i = (decide (i ∈ is) && a i)) ∧
    (isV x.a && (isP x.d || isQ x.d) && regOk s.g x.a 1 = true → f = .same → (∀ i ∈ is, badReg s.g i (x.a, 1) = false) →
      ∃ t b, exec (.vote f x) s = .next t ∧ OncePred x x.d b s t ∧
        (b = true ↔ ∀ i ∈ is, ∀ j ∈ is, vGet s.g i (opIdx x.a) = vGet s.g j (opIdx x.a)))) ∧
  (∀ (f : RflForm) (ty : Ty) (x : Fields) (s : State), WellFormed (.rfl f ty x) →
    let is := execList s.g x
    let n := crossCount ty
    let a := fun i => (List.range n).map (fun j => vGet s.g i (opIdx x.a + j))
    (isV x.a && (isV x.d || isS x.d) && regsOk s.g [(x.d, n), (x.a, n)]) = true →
    (∀ i ∈ is, badReg s.g i (x.a, n) = false) →
    (f = .plain →
      (is = [] → exec (.rfl f ty x) s = .next (setG { s.g with pc := s.g.pc + 12, ridx := 0, readTime := 0, midway := false } s)) ∧
      (∀ m, m ∈ is → (∀ i ∈ is, m ≤ i) → ∃ t, exec (.rfl f ty x) s = .next t ∧ OnceResult x x.d n (a m) s t)) ∧
    (f = .chk → isQ x.c = true →
      (is = [] → exec (.rfl f ty x) s =
        .next (setG { qSet s.g (opIdx x.c - 8) false with pc := s.g.pc + 12, ridx := 0, readTime := 0, midway := false } s)) ∧
      (∀ m, m ∈ is → (∀ i ∈ is, m ≤ i) → ∃ t b, exec (.rfl f ty x) s = .next t ∧ (b = true ↔ ∃ i ∈ is, a i ≠ a m) ∧
        t.g.q = (qSet s.g (opIdx x.c - 8) b).q ∧ OnceResult x x.d n (a m) s (setG { t.g with q := s.g.q } t))))


/-! ### Traps -/

/-- R194, R198, R202: `TRAP` is cause 0x30 with its immediate as the address; `TRESUME` outside a handler is cause 0x04, and
inside one it restores what the entry saved and goes to A. -/
def Obligations.TrapReturn : Prop :=
  ∀ (x : Fields) (s : State),
    (WellFormed (.trap x) →
      (holdsAny s.g x = true → exec (.trap x) s = .next (takeTrap ⟨0x30, 0, some (x.imm.zeroExtend 64), 0⟩ s)) ∧
      (holdsAny s.g x = false → exec (.trap x) s = .next (setG { s.g with pc := s.g.pc + 12, ridx := 0, readTime := 0, midway := false } s))) ∧
    (WellFormed (.tresume x) →
      (inHandler s.g = false → exec (.tresume x) s = trapped (wordTrap 0x04) s) ∧
      (∀ f k, inHandler s.g = true → s.g.frame = some f → x.a = .s k → k.toNat % 2 = 0 → k.toNat ≤ 62 →
        let a := sGet s.g (k.toNat + 1) ++ sGet s.g k.toNat
        (holdsQ s.g x = false → exec (.tresume x) s = .next (setG { s.g with pc := s.g.pc + 12, ridx := 0, readTime := 0, midway := false } s)) ∧
        (holdsQ s.g x = true → s.g.stack ≠ [] → exec (.tresume x) s = trapped (wordTrap 0x01) s) ∧
        (holdsQ s.g x = true → s.g.stack = [] → ((a.toNat : Int) - s.g.base.toNat) % 12 = 0 →
          f.mask &&& s.g.live ≠ 0 → exec (.tresume x) s = .next (setG { s.g with
            active := f.mask &&& s.g.live, fmt := f.fmt, jord := f.jord, stack := f.stack, ridx := f.ridx, readTime := f.readTime, frame := none
            tcause := s.g.tcause &&& 0x7FFFFFFF, pc := a } s))))

/-- R195, R197: taking a trap saves the mask, `FMT`, `JORD`, the stack and the resume index, clears them, sets the trap registers and
goes to the handler. Nothing but the group, and the error count of its core, changes. R199, R323, R324: without a handler, within
one, or for a cause that terminates, the team's context ends: a record with the cause leaves for the host, and each group of the
team has stopped, or stops when the pass that it is in has ended, trap or not.
The model's choices in it: `sr.taddr` where a cause gives no address (log entry 18). -/
def Obligations.TrapEntry : Prop :=
  (∀ (t : Trap) (s : State) (h : DWord), s.g.stopping = false → handlerOf s s.g = some h → inHandler s.g = false → terminates t.cause = false →
    t.cause < 256 → t.sub < 256 → kvStop s s.g t = false →
    let entered : Group := { s.g with
      frame := some ⟨s.g.active, s.g.fmt, s.g.jord, s.g.stack, t.strand, s.g.readTime⟩, ridx := 0, readTime := 0, midway := false, stack := [], active := s.g.live, fmt := 0
      jord := 0, tcause := BitVec.ofNat 32 (2 ^ 31 + 256 * t.sub + t.cause), tpc := s.g.pc, taddr := t.addr.getD s.g.taddr
      pc := h, status := .ready }
    ∃ o, takeTrap t s = { countError s.g t s with g := entered, others := o } ∧
      o.length = s.others.length ∧ (∀ (n : Nat) (k : Group), s.others[n]? = some k → k.gid ≠ s.g.gid → o[n]? = some k) ∧
      (t.cause ≠ 0x20 → countError s.g t s = s)) ∧
  (∀ (t : Trap) (s : State) (tm : Team), s.g.stopping = false → findTeam s s.g.tid = some tm → kvStop s s.g t = false → t.cause < 256 → t.sub < 256 →
    handlerOf s s.g = none ∨ inHandler s.g = true ∨ terminates t.cause = true →
    ∃ r, (takeTrap t s).out = .terminated r :: s.out ∧ r.take 2 = [BitVec.ofNat 8 t.cause, BitVec.ofNat 8 t.sub] ∧
      r.length = 352 ∧ (takeTrap t s).mem = s.mem ∧
      ∀ g ∈ allGroups (takeTrap t s), g.tid = s.g.tid → isOver g = true ∨ (g.midway = true ∧ g.stopping = true)) ∧
  (∀ (t : Trap) (s : State) (g : Group), s.g.stopping = true → s.g.tid ≠ 0 → findGroup (takeTrap t s) s.g.gid = some g →
    g.tid = s.g.tid → isOver g = true)

/-- R67, R222: a strand that reads a register with an uncorrectable error stops the instruction there. The strands below it have
committed, the strands from it on have not, and the cause is 0x20 with subcode 4. Stated for `IADD`.
The model's choices in it: that an instruction of the integer pipe stops in the strand that reads the error (log entry 99). -/
def Obligations.StrandTrap : Prop :=
  ∀ (f : AddForm) (ty : Ty) (x : Fields) (s : State) (k : Nat) (d : BitVec 8), WellFormed (.iadd f ty x) → x.u = false →
    okDAB ty s.g x = true → x.d = .v d → k ∈ execList s.g x →
    (∃ o ∈ srcAB ty x, badReg s.g k o = true) → (∀ i ∈ execList s.g x, i < k → ∀ o ∈ srcAB ty x, badReg s.g i o = false) →
    ∃ t u, exec (.iadd f ty x) s = trapped ⟨0x20, 4, none, k⟩ t ∧ t = setG { s.g with v := t.g.v, vPoison := t.g.vPoison } s ∧
      exec (.iadd f ty x) (setG { s.g with vPoison := [] } s) = .next u ∧
      ∀ i q, i < 64 → q < 256 → vGet t.g i q = if i < k then vGet u.g i q else vGet s.g i q

/-- R43, R75, R104 to R107, R113 (step 5): an operand of a class, index, alignment or overlap that the form does not admit is cause
0x02 before any strand executes. R113 (steps 5 to 7), R91, R24: of an illegal operand, a jet order that the type does not admit
and an ill-formed `FMT`, the first in this order is the trap. R215, R225: an access in a space that does not exist is cause 0x08
with subcode 3, and a misaligned one cause 0x0B, in the first strand that executes it, before any effect.
The model's choices in it: an illegal operand traps whatever the guards (log entry 15). -/
def Obligations.CheckOrder : Prop :=
  (∀ (ty : Ty) (x : Fields) (s : State),
    let bad := trapped (wordTrap 0x02) s
    (okDAB ty s.g x = false → ∀ i,
      (∃ f, i = .iadd f ty x ∨ i = .isub f ty x) ∨ i = .imul .lo ty x ∨ i = .imul .hi ty x ∨ i = .imin ty x ∨ i = .imax ty x ∨
        i = .lop .and ty x ∨ i = .lop .or ty x ∨ i = .lop .xor ty x → exec i s = bad) ∧
    (okDA ty s.g x = false → ∀ i, i = .ineg ty x ∨ i = .iabs ty x ∨ i = .clz ty x ∨ i = .ffs ty x ∨ i = .popc ty x ∨ i = .brev ty x →
      exec i s = bad) ∧
    (okF2 ty x s.g = false → ∀ i, i = .fadd ty x ∨ i = .fsub ty x ∨ i = .fmul ty x ∨ i = .fdiv ty x → exec i s = bad) ∧
    ((∀ k, x.a = .s k → k.toNat % 2 ≠ 0 ∨ 63 ≤ k.toNat) → ∀ i, i = .brx x ∨ i = .callIndirect x ∨ i = .ret x → exec i s = bad) ∧
    (isS x.b = false → exec (.fmt x) s = bad) ∧
    (isP x.d = false → isQ x.d = false → ∀ f, exec (.vote f x) s = bad ∨ f = .ballot)) ∧
  (∀ (ty : Ty) (x : Fields) (s : State) (o : Instr), o = .fadd ty x ∨ o = .fsub ty x ∨ o = .fmul ty x ∨ o = .fdiv ty x →
    let order := ty ≠ .f32 ∧ s.g.jord ≠ 0
    (okF2 ty x s.g = false → exec o s = trapped (wordTrap 0x02) s) ∧
    (okF2 ty x s.g = true → order → exec o s = trapped (wordTrap 0x15) s) ∧
    (okF2 ty x s.g = true → ¬order → fmtBad s.g.fmt = true → exec o s = trapped (wordTrap 0x11) s)) ∧
  (∀ (ty : Ty) (x : Fields) (s : State) (i : Nat) (rest : List Nat) (o : Instr) (n : Nat),
    memStrands s.g x = i :: rest →
    (o = .ld ty x ∧ n = memBytes ty x ∧ relaxedOk x true (memRegs ty x) 0 s) ∨
      (o = .st ty x ∧ n = memBytes ty x ∧ relaxedOk x false 0 (memRegs ty x) s) ∨
      (∃ op, o = .atom op ty x ∧ n = atomBytes ty ∧ op ≠ .cas ∧ relaxedOk x false (atomRegs ty) (atomRegs ty) s) ∨
      (∃ op, o = .red op ty x ∧ n = atomBytes ty ∧ relaxedOk x false 0 (atomRegs ty) s) →
    let va := memAddr s.g x i
    let space := va.toNat / 2 ^ 56
    (space ≠ 0 → space ≠ 0xFE → space ≠ 0xFF → exec o s = trapped ⟨0x08, 3, some va, i⟩ s) ∧
    (space = 0 → va.toNat % n ≠ 0 → exec o s = trapped ⟨0x0B, 0, some va, i⟩ s))

/-! ### Floating-point values -/

/-- R14, R162, R165: the value of a pattern, and sums, products, quotients and comparisons of finite values, are exact. R26: rounding
to a multiple of 2^l in each of the five modes, and when it is inexact. R27: the result and the flags of a value in
[2^E, 2^(E+1)): beyond the largest finite value, by mode and by `SAT`; in the normal range; and below it, where it underflows and
may be flushed. R14, R27: rounding the exact value of a pattern gives the pattern back, in every mode, and raises no flag. -/
def Obligations.FloatValues : Prop :=
  ((∀ f x, f = fp32 ∨ f = fp16 ∨ f = bf16 → expField f x ≠ 2 ^ f.ebits - 1 → exVal (unpack f x) =
    some ((if signField f x then -1 else 1) *
      (if expField f x = 0 then (fracField f x : Rat) / 2 ^ (f.p - 1) * (2 : Rat) ^ f.emin
       else (1 + (fracField f x : Rat) / 2 ^ (f.p - 1)) * (2 : Rat) ^ (f.emin + expField f x - 1)))) ∧
  (∀ (m : Nat) (s t : Bool) (n d n' d' : Nat) (e e' : Int) (fl fl' : Flags), d ≠ 0 → d' ≠ 0 →
    let a : FV := (.num s n d e, fl)
    let b : FV := (.num t n' d' e', fl')
    ∃ va vb, exVal a.1 = some va ∧ exVal b.1 = some vb ∧
      exVal (negV a).1 = some (-va) ∧ exVal (mulV a b).1 = some (va * vb) ∧ exVal (addV m a b).1 = some (va + vb) ∧
      (n' ≠ 0 → exVal (divV a b).1 = some (va / vb)) ∧
      (cmpEx a.1 b.1 < 0 ↔ va < vb) ∧ (cmpEx a.1 b.1 = 0 ↔ va = vb) ∧
      (mulV a b).2 = fl ||| fl' ∧ (addV m a b).2 = fl ||| fl')) ∧
  (∀ (neg : Bool) (n d : Nat) (e l : Int), d ≠ 0 →
    let q : Rat := (n : Rat) / d * (2 : Rat) ^ (e - l)
    let r := fun m => ((roundAt m neg n d e l).1 : Rat)
    (2 * (r 0 - q) ≤ 1 ∧ -1 ≤ 2 * (r 0 - q) ∧ (2 * (r 0 - q) = 1 ∨ 2 * (r 0 - q) = -1 → (roundAt 0 neg n d e l).1 % 2 = 0)) ∧
    (r 1 ≤ q ∧ q < r 1 + 1) ∧
    (if neg then q ≤ r 2 ∧ r 2 < q + 1 else r 2 ≤ q ∧ q < r 2 + 1) ∧
    (if neg then r 3 ≤ q ∧ q < r 3 + 1 else q ≤ r 3 ∧ r 3 < q + 1) ∧
    (2 * (r 4 - q) ≤ 1 ∧ -1 < 2 * (r 4 - q)) ∧
    ∀ m, (roundAt m neg n d e l).2 = true ↔ (roundAt 1 neg n d e l).1 ≠ q) ∧
  (∀ (f : Fmt) (m : Nat) (sat fzo neg : Bool) (n d : Nat) (e E : Int) (fl : Flags), f = fp32 ∨ f = fp16 ∨ f = bf16 → n ≠ 0 → d ≠ 0 →
    (2 : Rat) ^ E ≤ (n : Rat) / d * (2 : Rat) ^ e → (n : Rat) / d * (2 : Rat) ^ e < (2 : Rat) ^ (E + 1) →
    let r := roundFV f m sat fzo (.num neg n d e, fl)
    let unit : Nat := 2 ^ (f.p - 1)
    let y := roundAt m neg n d e (E - (f.p - 1 : Nat))
    let z := roundAt m neg n d e (f.emin - (f.p - 1 : Nat))
    let tooBig := f.emax < E ∨ (E = f.emax ∧ y.1 = 2 * unit)
    (tooBig → r.2 = fl ||| (flagOverflow ||| flagInexact) ∧ (sat = true → r.1 = maxBits f neg) ∧
      (sat = false →
        (m = 0 ∨ m = 4 → r.1 = infBits f neg) ∧ (m = 1 → r.1 = maxBits f neg) ∧
        (m = 2 → r.1 = if neg then infBits f true else maxBits f false) ∧
        (m = 3 → r.1 = if neg then maxBits f true else infBits f false))) ∧
    (¬tooBig → f.emin ≤ E →
      r = (signBit f neg + y.1 + (E - f.emin).toNat * unit, fl ||| (if y.2 then flagInexact else 0))) ∧
    (E < f.emin →
      (z.1 = 0 → r = (zeroBits f neg, fl ||| (flagInexact ||| flagUnderflow))) ∧
      (0 < z.1 → z.1 < unit → r =
        if fzo then (zeroBits f neg, fl ||| (flagUnderflow ||| flagInexact))
        else (signBit f neg + z.1, fl ||| (if z.2 then flagInexact ||| flagUnderflow else 0))) ∧
      (z.1 = unit → r = (signBit f neg + unit, fl ||| flagInexact)))) ∧
  (∀ (f : Fmt) (m : Nat) (sat : Bool) (x : Nat), f = fp32 ∨ f = fp16 ∨ f = bf16 → x < 2 ^ (f.p + f.ebits) → isNaN f x = false →
    roundFV f m sat false (unpack f x, 0) = (x, 0))


/-! ### Floating-point instructions -/

/-- R27, R155, R156, R162: arithmetic on elements, rounded once, when the computation is of coefficient 0 alone. R72, R79 to R81, R92:
the coefficients of sums, products, quotients and fused products of jets at order `k` > 0, each computed from those below it.
The model's choices in it: which strands a broadcast with `U` = 1 reaches after a trap (log entry 17). -/
def Obligations.FloatArithmetic : Prop :=
  (∀ (ty : Ty) (x : Fields) (s : State), orderAt ty s.g x = 0 → orderFmtOk ty s.g true →
    let m := x.md.toNat
    let k := orderOf ty s.g
    let a := fun i e => elemSrc ty s.g.fmt (nth 0 (readJet s.g x i 0 x.a) 0) e
    let b := fun i e => elemSrc ty s.g.fmt (nth 0 (readJetB s.g x i 0) 0) e
    let c := fun i e => elemSrc ty s.g.fmt (nth 0 (readJet s.g x i 0 x.c) 0) e
    let rounded := fun (o : Instr) (v : Nat → Nat → FV) => yields o ty x s (fun i => elemwise ty (fun e => roundTy ty m s.g.fmt (v i e)))
    (okF2 ty x s.g = true → readable s.g x [fReads k x.a, fReads k x.b] →
      (WellFormed (.fadd ty x) → rounded (.fadd ty x) (fun i e => addV m (a i e) (b i e))) ∧
      (WellFormed (.fsub ty x) → rounded (.fsub ty x) (fun i e => addV m (a i e) (negV (b i e)))) ∧
      (WellFormed (.fmul ty x) → rounded (.fmul ty x) (fun i e => mulV (a i e) (b i e))) ∧
      (WellFormed (.fdiv ty x) → rounded (.fdiv ty x) (fun i e => divV (a i e) (b i e)))) ∧
    ((formDABC x && regsOk s.g [fRegs k x.d, fRegs k x.a, fRegs k x.b, fRegs k x.c]) = true →
      readable s.g x [fReads k x.a, fReads k x.b, fReads k x.c] → ∀ f, WellFormed (.ffma f ty x) →
      let b' := fun i e => elemSrc ty s.g.fmt (nth 0 (readJet s.g x i 0 x.b) 0) e
      rounded (.ffma f ty x) (fun i e => addV m
        (mulV (if f = .nm ∨ f = .nms then negV (a i e) else a i e) (b' i e))
        (if f = .ms ∨ f = .nms then negV (c i e) else c i e)))) ∧
  (∀ (x : Fields) (s : State), x.u = false → s.g.jord ≠ 0 → fmtBad s.g.fmt = false →
    let m := x.md.toNat
    let k := s.g.jord.toNat
    let fmt := s.g.fmt
    let a := fun i j => cA fmt (readJet s.g x i k x.a) j
    let b := fun i j => cA fmt (readJetB s.g x i k) j
    let coefs := fun (o : Instr) (P : Nat → List CoefRes → Nat → Prop) =>
      ∃ y, yields o .f32 x s y ∧ ∀ i, (y i).length = k + 1 ∧ ∀ j, j ≤ k → P i (y i) j
    (okF2 .f32 x s.g = true → readable s.g x [fReads k x.a, fReads k x.b] →
      (WellFormed (.fadd .f32 x) → coefs (.fadd .f32 x) (fun i y j =>
        nth (0, 0) y j = flushOut fmt (stepF m fmt (addV m (a i j) (b i j))))) ∧
      (WellFormed (.fsub .f32 x) → coefs (.fsub .f32 x) (fun i y j =>
        nth (0, 0) y j = flushOut fmt (stepF m fmt (addV m (a i j) (negV (b i j)))))) ∧
      (WellFormed (.fmul .f32 x) → coefs (.fmul .f32 x) (fun i y j =>
        nth (0, 0) y j = chain m fmt none ((List.range (j + 1)).map (fun l => mulV (a i l) (b i (j - l)))) none)) ∧
      (WellFormed (.fdiv .f32 x) → coefs (.fdiv .f32 x) (fun i y j => nth (0, 0) y j =
        if j = 0 then flushOut fmt (stepF m fmt (divV (a i 0) (b i 0)))
        else chain m fmt (some (srcInit fmt (nth 0 (readJet s.g x i k x.a) j)))
          ((List.range j).map (fun l => mulV (negV (b i (l + 1))) (coefV (nth (0, 0) y (j - (l + 1))).1)))
          (some (fun t => divV t (b i 0)))))) ∧
    ((formDABC x && regsOk s.g [fRegs k x.d, fRegs k x.a, fRegs k x.b, fRegs k x.c]) = true →
      readable s.g x [fReads k x.a, fReads k x.b, fReads k x.c] → ∀ f, WellFormed (.ffma f .f32 x) →
      coefs (.ffma f .f32 x) (fun i y j =>
        let c := srcInit fmt (nth 0 (readJet s.g x i k x.c) j)
        let c' := if (f = .ms ∨ f = .nms) ∧ isNaN fp32 c.1 = false then c.1 ^^^ 0x80000000 else c.1
        nth (0, 0) y j = chain m fmt (some (c', c.2)) ((List.range (j + 1)).map (fun l =>
          mulV (if f = .nm ∨ f = .nms then negV (a i l) else a i l) (cA fmt (readJet s.g x i k x.b) (j - l)))) none)))

/-- R79, R89, R163, R164: sign operations change sign bits alone, and `FMIN` and `FMAX` return one of their operands whole, a number
rather than a NaN; at order `k` > 0 they act on whole jets. R88, R165, R166: comparison of coefficient 0 and the class test; a NaN
satisfies `.ne` and `.uno` alone.
The model's choices in it: which strands a broadcast with `U` = 1 reaches after a trap (log entry 17). -/
def Obligations.FloatSelectCompare : Prop :=
  (∀ (ty : Ty) (x : Fields) (s : State), orderAt ty s.g x = 0 → orderFmtOk ty s.g false →
    let f := fmtOf ty
    let w := elemWidth ty
    let k := orderOf ty s.g
    let a := fun i e => elemAt ty (nth 0 (readJet s.g x i 0 x.a) 0) e
    let b := fun i e => elemAt ty (nth 0 (readJetB s.g x i 0) 0) e
    let flag := fun i e => if isSNaN f (a i e) ∨ isSNaN f (b i e) then flagInvalid else 0
    let elems := fun (o : Instr) (P : Nat → Nat → CoefRes → Prop) =>
      ∃ v : Nat → Nat → CoefRes, yields o ty x s (fun i => elemwise ty (v i)) ∧ ∀ i e, e < elemCount ty → P i e (v i e)
    (okF1 ty x s.g = true → readable s.g x [fReads k x.a] →
      (WellFormed (.fneg ty x) → elems (.fneg ty x) (fun i e r => r.2 = 0 ∧
        ∀ j, j < w → r.1.testBit j = if j = w - 1 then !(a i e).testBit j else (a i e).testBit j)) ∧
      (WellFormed (.fabs ty x) → elems (.fabs ty x) (fun i e r => r.2 = 0 ∧
        ∀ j, j < w → r.1.testBit j = if j = w - 1 then false else (a i e).testBit j))) ∧
    (okF2 ty x s.g = true → readable s.g x [fReads k x.a, fReads k x.b] → ∀ o, o = .fmin ty x ∨ o = .fmax ty x → WellFormed o →
      elems o (fun i e r => r.2 = flag i e ∧
        (isNaN f (a i e) = true → isNaN f (b i e) = true → r.1 = canonNaN f) ∧
        (isNaN f (a i e) = true → isNaN f (b i e) = false → r.1 = b i e) ∧
        (isNaN f (a i e) = false → isNaN f (b i e) = true → r.1 = a i e) ∧
        (isNaN f (a i e) = false → isNaN f (b i e) = false →
          let c := cmpEx (unpack f (a i e)) (unpack f (b i e))
          (c < 0 → r.1 = if o = .fmin ty x then a i e else b i e) ∧
          (0 < c → r.1 = if o = .fmin ty x then b i e else a i e) ∧
          (c = 0 → signField f (a i e) = signField f (b i e) → r.1 = a i e) ∧
          (c = 0 → signField f (a i e) ≠ signField f (b i e) → signField f r.1 = decide (o = .fmin ty x)))))) ∧
  (∀ (ty : Ty) (x : Fields) (s : State),
    let k := orderOf ty s.g
    let w := fun i => nth 0 (readJet s.g x i 0 x.a) 0
    let form := (isPDst x x.d && isSrc x x.a && isSrcB x && oneImm [x.a, x.b])
    (∀ f, WellFormed (.fcmp f ty x) → fmtBad s.g.fmt = false → (form && regsOk s.g [fRegs k x.a, fRegs k x.b]) = true →
      readable s.g x [fRegs 0 x.a, fRegs 0 x.b] → ∃ t res fl, exec (.fcmp f ty x) s = .next t ∧ FPredResult x res fl s t ∧ ∀ i,
        let a := elemSrc ty s.g.fmt (w i) 0
        let b := elemSrc ty s.g.fmt (nth 0 (readJetB s.g x i 0) 0) 0
        let nan := a.1 = .nan ∨ b.1 = .nan
        let c := cmpEx a.1 b.1
        fl i = (a.2 ||| b.2).zeroExtend 20 ∧ (nan → (res i = true ↔ f = .ne ∨ f = .uno)) ∧
        (¬nan → (f = .eq → (res i = true ↔ c = 0)) ∧ (f = .ne → (res i = true ↔ c ≠ 0)) ∧ (f = .lt → (res i = true ↔ c < 0)) ∧
          (f = .le → (res i = true ↔ c ≤ 0)) ∧ (f = .gt → (res i = true ↔ 0 < c)) ∧ (f = .ge → (res i = true ↔ 0 ≤ c)) ∧
          (f = .ord → res i = true) ∧ (f = .uno → res i = false))) ∧
    (WellFormed (.fclass ty x) → (form && regsOk s.g [fRegs k x.a, (x.b, 1)]) = true → readable s.g x [fRegs 0 x.a, (x.b, 1)] →
      ∃ t res, exec (.fclass ty x) s = .next t ∧ FPredResult x res (fun _ => 0) s t ∧ ∀ i,
        let f := fmtOf ty
        let v := elemAt ty (w i) 0
        let neg := signField f v
        let bit := fun n => (readB32 s.g x i).getLsbD n
        (isNaN f v = true → res i = bit (if isSNaN f v then 0 else 1)) ∧
        (isInf f v = true → res i = bit (if neg then 2 else 9)) ∧
        (isZero f v = true → res i = bit (if neg then 5 else 6)) ∧
        (isSub f v = true → res i = bit (if neg then 4 else 7)) ∧
        (expField f v ≠ 0 → expField f v ≠ 2 ^ f.ebits - 1 → res i = bit (if neg then 3 else 8)))) ∧
  (∀ (x : Fields) (s : State), x.u = false → s.g.jord ≠ 0 →
    let k := s.g.jord.toNat
    let a := fun i j => nth 0 (readJet s.g x i k x.a) j
    let b := fun i j => nth 0 (readJetB s.g x i k) j
    let jets := fun (o : Instr) (P : Nat → Nat → CoefRes → Prop) =>
      ∃ y, yields o .f32 x s y ∧ ∀ i, (y i).length = k + 1 ∧ ∀ j, j ≤ k → P i j (nth (0, 0) (y i) j)
    let flipped := fun (v : Nat) => v ^^^ 2 ^ 31
    (okF1 .f32 x s.g = true → readable s.g x [fReads k x.a] →
      (WellFormed (.fneg .f32 x) → jets (.fneg .f32 x) (fun i j r => r = (flipped (a i j), 0))) ∧
      (WellFormed (.fabs .f32 x) → jets (.fabs .f32 x) (fun i j r =>
        r = (if signField fp32 (a i 0) then flipped (a i j) else a i j, 0)))) ∧
    (okF2 .f32 x s.g = true → readable s.g x [fReads k x.a, fReads k x.b] → ∀ o, o = .fmin .f32 x ∨ o = .fmax .f32 x → WellFormed o →
      jets o (fun i j r =>
        let c := cmpEx (unpack fp32 (a i 0)) (unpack fp32 (b i 0))
        let nan := isNaN fp32 (a i 0)
        let nan' := isNaN fp32 (b i 0)
        r.2 = (if j = 0 ∧ (isSNaN fp32 (a i 0) ∨ isSNaN fp32 (b i 0)) then flagInvalid else 0) ∧
        (nan = true → nan' = true → r.1 = if j = 0 then canonNaN fp32 else a i j) ∧
        (nan = true → nan' = false → r.1 = b i j) ∧ (nan = false → nan' = true → r.1 = a i j) ∧
        (nan = false → nan' = false →
          (c < 0 → r.1 = if o = .fmin .f32 x then a i j else b i j) ∧ (0 < c → r.1 = if o = .fmin .f32 x then b i j else a i j) ∧
          (c = 0 → signField fp32 (a i 0) = signField fp32 (b i 0) → r.1 = a i j) ∧
          (c = 0 → signField fp32 (a i 0) ≠ signField fp32 (b i 0) →
            r.1 = if signField fp32 (a i 0) = decide (o = .fmin .f32 x) then a i j else b i j)))))

/-- R167: rounding to an integral value. R29, R168: the nine special functions of elements, with every row of the table of R29;
`exp2` of integers, `log2` of powers of two and `sinpi` and `cospi` of integers and half-integers are exact, and a root lies on
the same side of every number of up to 64 bits as the exact root. R82 to R85: the coefficients of the special functions of jets at
order `k` > 0, each computed from those below it. With `U` = 1 at an order above 0, `SINPI` and `COSPI` raise the flags of both
(R74, R83).
The model's choices in it: which strands a broadcast with `U` = 1 reaches after a trap (log entry 17). -/
def Obligations.FloatFunctions : Prop :=
  (∀ (ty : Ty) (x : Fields) (s : State), orderFmtOk ty s.g true → okF1 ty x s.g = true →
    let fmt := s.g.fmt
    let k := orderOf ty s.g
    let a := fun i e => elemSrc ty fmt (nth 0 (readJet s.g x i 0 x.a) 0) e
    (WellFormed (.frnd ty x) → readable s.g x [fReads 0 x.a] → ∃ v : Nat → Nat → CoefRes,
      yields (.frnd ty x) ty x s (fun i => elemwise ty (v i) ++ List.replicate (orderAt ty s.g x) (0, 0)) ∧
      ∀ i e, (v i e).2 = (a i e).2 ∧ ((a i e).1 = .nan → (v i e).1 = canonNaN (fmtOf ty)) ∧
        (∀ neg, (a i e).1 = .inf neg → (v i e).1 = infBits (fmtOf ty) neg) ∧
        (∀ neg n d q, (a i e).1 = .num neg n d q →
          (v i e).1 = (roundFV (fmtOf ty) 0 false false (.num neg (roundAt x.md.toNat neg n d q 0).1 1 0, 0)).1)) ∧
    (orderAt ty s.g x = 0 → readable s.g x [fReads k x.a] →
      ∀ o fn, (o, fn) ∈ [(Instr.rcp ty x, SFun.rcp), (.sqrt ty x, .sqrt), (.rsqrt ty x, .rsqrt), (.exp2 ty x, .exp2), (.log2 ty x, .log2),
        (.sinpi ty x, .sinpi), (.cospi ty x, .cospi), (.tanh ty x, .tanh), (.sigm ty x, .sigm)] → WellFormed o →
      let other := fun i =>
        if k = 0 then 0
        else if fn = .sinpi then (flushOut fmt (stepF 0 fmt (sfun .cospi (a i 0)))).2
        else if fn = .cospi then (flushOut fmt (stepF 0 fmt (sfun .sinpi (a i 0)))).2
        else 0
      yields o ty x s (fun i =>
        (elemwise ty (fun e => roundTy ty 0 fmt (sfun fn (a i e)))).map (fun r => (r.1, r.2 ||| other i))))) ∧
  (∀ (x : Fields) (s : State), x.u = false → s.g.jord ≠ 0 → fmtBad s.g.fmt = false → okF1 .f32 x s.g = true →
    let k := s.g.jord.toNat
    let fmt := s.g.fmt
    readable s.g x [fReads k x.a] →
    let a := fun i j => cA fmt (readJet s.g x i k x.a) j
    let zeroth := fun fn i => flushOut fmt (stepF 0 fmt (sfun fn (a i 0)))
    let coefs := fun (o : Instr) (fn : SFun) (next : Nat → List CoefRes → Nat → CoefRes) => WellFormed o →
      ∃ y, yields o .f32 x s y ∧ ∀ i, (y i).length = k + 1 ∧ nth (0, 0) (y i) 0 = zeroth fn i ∧
        ∀ j, 0 < j → j ≤ k → nth (0, 0) (y i) j = next i (y i) j
    let prod := fun i (y : List CoefRes) j l => mulV (a i l) (cY y (j - l))
    coefs (.rcp .f32 x) .rcp (fun i y j => chain 0 fmt none ((upTo j).map (prod i y j)) (some (fun t => divV (negV t) (a i 0)))) ∧
    coefs (.sqrt .f32 x) .sqrt (fun i y j => chain 0 fmt (some (srcInit fmt (nth 0 (readJet s.g x i k x.a) j)))
      ((upTo (j - 1)).map (fun l => negV (mulV (cY y l) (cY y (j - l))))) (some (fun t => divV t (weightV false 2 1 (cY y 0))))) ∧
    coefs (.rsqrt .f32 x) .rsqrt (fun i y j => chain 0 fmt none
      ((upTo j).map (fun l => weightV true (2 * j - l) (2 * j) (prod i y j l))) (some (fun t => divV t (a i 0)))) ∧
    coefs (.exp2 .f32 x) .exp2 (fun i y j => chain 0 fmt none
      ((upTo j).map (fun l => weightV false l j (mulV constL (prod i y j l)))) none) ∧
    coefs (.log2 .f32 x) .log2 (fun i y j => chain 0 fmt none
      (mulV constE (a i j) :: (upTo (j - 1)).map (fun l => weightV true (j - l) j (prod i y j l))) (some (fun t => divV t (a i 0)))) ∧
    (∀ o, o = .sinpi .f32 x ∨ o = .cospi .f32 x → WellFormed o → ∃ p q : Nat → List CoefRes,
      yields o .f32 x s (fun i => List.zipWith (fun r r' => (if o = .sinpi .f32 x then r.1 else r'.1, r.2 ||| r'.2)) (p i) (q i)) ∧
      ∀ i, (p i).length = k + 1 ∧ (q i).length = k + 1 ∧ nth (0, 0) (p i) 0 = zeroth .sinpi i ∧ nth (0, 0) (q i) 0 = zeroth .cospi i ∧
        ∀ j, 0 < j → j ≤ k →
          nth (0, 0) (p i) j = chain 0 fmt none
            ((upTo j).map (fun l => weightV false l j (mulV constP (prod i (q i) j l)))) none ∧
          nth (0, 0) (q i) j = chain 0 fmt none
            ((upTo j).map (fun l => weightV true l j (mulV constP (prod i (p i) j l)))) none) ∧
    (∀ o fn, (o, fn) = (Instr.tanh .f32 x, SFun.tanh) ∨ (o, fn) = (.sigm .f32 x, .sigm) → WellFormed o → ∃ y z : Nat → List CoefRes,
      yields o .f32 x s y ∧ ∀ i, (y i).length = k + 1 ∧ (z i).length = k ∧ nth (0, 0) (y i) 0 = zeroth fn i ∧
        (∀ m, m < k → nth (0, 0) (z i) m = chain 0 fmt
          (if fn = .sigm then some ((nth (0, 0) (y i) m).1, 0) else if m = 0 then some (0x3F800000, 0) else none)
          ((List.range (m + 1)).map (fun l => negV (mulV (cY (y i) l) (cY (y i) (m - l))))) none) ∧
        ∀ j, 0 < j → j ≤ k →
          let v := chain 0 fmt none ((upTo j).map (fun l => weightV false l j (prod i (z i) j l))) none
          nth (0, 0) (y i) j = (v.1, v.2 ||| (nth (0, 0) (z i) (j - 1)).2))) ∧
  (∀ (fl : Flags) (neg : Bool) (q : Int),
    let zero : FV := (.num neg 0 1 q, fl)
    let infinite : FV := (.inf neg, fl)
    let invalid : FV := (.nan, fl ||| flagInvalid)
    (∀ fn, sfun fn (.nan, fl) = (.nan, fl)) ∧
    sfun .rcp zero = (.inf neg, fl ||| flagDivZero) ∧ sfun .rcp infinite = (.num neg 0 1 0, fl) ∧
    sfun .sqrt zero = (.num neg 0 1 0, fl) ∧ sfun .sqrt infinite = (if neg then invalid else (.inf false, fl)) ∧
    sfun .rsqrt zero = (.inf neg, fl ||| flagDivZero) ∧ sfun .rsqrt infinite = (if neg then invalid else (.num false 0 1 0, fl)) ∧
    sfun .exp2 zero = (.num false 1 1 0, fl) ∧ sfun .exp2 infinite = (if neg then .num false 0 1 0 else .inf false, fl) ∧
    sfun .log2 zero = (.inf true, fl ||| flagDivZero) ∧ sfun .log2 infinite = (if neg then invalid else (.inf false, fl)) ∧
    sfun .sinpi zero = (.num neg 0 1 0, fl) ∧ sfun .sinpi infinite = invalid ∧
    sfun .cospi zero = (.num false 1 1 0, fl) ∧ sfun .cospi infinite = invalid ∧
    sfun .tanh zero = (.num neg 0 1 0, fl) ∧ sfun .tanh infinite = (.num neg 1 1 0, fl) ∧
    sfun .sigm zero = (.num false 1 2 0, fl) ∧ sfun .sigm infinite = (.num false (if neg then 0 else 1) 1 0, fl) ∧
    (∀ j : Nat, sfun .log2 (.num false (2 ^ j) 1 q, fl) = (.num (decide (q + j < 0)) (q + j).natAbs 1 0, fl)) ∧
    ∀ n : Nat, n ≠ 0 →
      let v : Rat := (n : Rat) * (2 : Rat) ^ q
      sfun .rcp (.num neg n 1 q, fl) = (.num neg 1 n (-q), fl) ∧
      (∀ fn, fn = .sqrt ∨ fn = .rsqrt ∨ fn = .log2 → sfun fn (.num true n 1 q, fl) = invalid) ∧
      (∀ (fn : SFun) (w : Rat), (fn, w) = (SFun.sqrt, v) ∨ (fn, w) = (.rsqrt, v⁻¹) → ∃ (r : Ex) (root : Rat), sfun fn (.num false n 1 q, fl) = (r, fl) ∧
        exVal r = some root ∧ ∀ (b : Nat) (l : Int), b < 2 ^ 64 →
          let c : Rat := (b : Rat) * (2 : Rat) ^ l
          (c * c ≤ w ↔ c ≤ root) ∧ (w ≤ c * c ↔ root ≤ c)) ∧
      (∀ c : Nat, v = (c : Rat) →
        (c < 300 → sfun .exp2 (.num neg n 1 q, fl) = (.num false 1 1 (if neg then -(c : Int) else (c : Int)), fl)) ∧
        sfun .sinpi (.num neg n 1 q, fl) = (.num neg 0 1 0, fl) ∧
        sfun .cospi (.num neg n 1 q, fl) = (.num (decide (c % 2 = 1)) 1 1 0, fl)) ∧
      ∀ c : Nat, v = (c : Rat) + 1 / 2 →
        sfun .sinpi (.num neg n 1 q, fl) = (.num (neg != decide (c % 2 = 1)) 1 1 0, fl) ∧
        sfun .cospi (.num neg n 1 q, fl) = (.num false 0 1 0, fl))

/-- R17, R18, R30, R31, R149 to R152: a conversion of one value, the packing of two and the unpacking of two. R17, R18, R30, R31: what
one conversion gives: between integers, from floating point to an integer, and to floating point.
The model's choices in it: which strands a broadcast with `U` = 1 reaches after a trap (log entry 17). -/
def Obligations.Conversions : Prop :=
  (∀ (dst src : Ty) (x : Fields) (s : State), WellFormed (.cvt dst src x) → (cvtReadsFmt dst src = true → fmtBad s.g.fmt = false) →
    let m := x.md.toNat
    let k := s.g.jord.toNat
    let flags := fun (f : Flags) => f.zeroExtend 20
    (cvtPacks dst src = false → cvtUnpacks dst src = false → (formDA x && regsOk s.g [cvtRegs k dst x.d, cvtRegs k src x.a]) = true →
      readable s.g x [cvtRegs 0 src x.a] →
      let one := fun i => cvtOne dst src m s.g.fmt (readTy src s.g x i x.a)
      ∃ t, exec (.cvt dst src x) s = .next t ∧ FloatResult x (if dst = .f32 ∧ isV x.d = true then k + 1 else regCount dst)
        (fun i => if dst = .f32 ∧ isV x.d = true then BitVec.ofNat 32 (one i).1 :: List.replicate k 0 else wordsTy dst (one i).1)
        (fun i => flags (one i).2) s t) ∧
    (cvtPacks dst src = true → (!isLong x && isDst x x.d && isSrc x x.a && isSrc x x.b && oneImm [x.a, x.b] &&
        regsOk s.g [(x.d, 1), cvtRegs k .f32 x.a, cvtRegs k .f32 x.b]) = true →
      readable s.g x [cvtRegs 0 .f32 x.a, cvtRegs 0 .f32 x.b] →
      let one := fun i o => roundTy dst m s.g.fmt (elemSrc .f32 s.g.fmt (readTy .f32 s.g x i o) 0)
      ∃ t, exec (.cvt dst src x) s = .next t ∧ FloatResult x 1
        (fun i => [BitVec.ofNat 32 (joinElems 16 [(one i x.a).1, (one i x.b).1])])
        (fun i => flags ((one i x.a).2 ||| (one i x.b).2)) s t) ∧
    (cvtUnpacks dst src = true →
      let one := fun i e => roundTy .f32 m s.g.fmt (elemSrc src s.g.fmt (readTy src s.g x i x.a) e)
      let raised := fun (t : State) => ∀ n, t.g.jx.getLsbD n = true ↔ (s.g.jx.getLsbD n = true ∨
        (if x.u then holdsQ s.g x = true ∧ ∃ e, e < 2 ∧ (flags (one 0 e).2).getLsbD n = true
          else ∃ i ∈ execList s.g x, ∃ e, e < 2 ∧ (flags (one i e).2).getLsbD n = true))
      (∀ d, x.d = .v d →
        let g := jetRegs k
        (formDA x && decide (d.toNat + g < 256) && regsOk s.g [(x.d, g), (x.a, 1)] &&
          regsOk s.g [(.v (d + BitVec.ofNat 8 g), g), (x.a, 1)]) = true →
        readable s.g x [(x.a, 1)] →
        ∃ t, exec (.cvt dst src x) s = .next t ∧
          t = setG { s.g with v := t.g.v, vPoison := t.g.vPoison, jx := t.g.jx, pc := s.g.pc + 12, ridx := 0, readTime := 0, midway := false } s ∧ raised t ∧
          ∀ i q, i < 64 → q < 256 → vGet t.g i q =
            if (if x.u then holdsQ s.g x && decide (i ∈ castList s.g) else decide (i ∈ execList s.g x)) = true ∧ d.toNat ≤ q ∧ q < d.toNat + 2 * g ∧ (q - d.toNat) % g ≤ k then
              if (q - d.toNat) % g = 0 then BitVec.ofNat 32 (one i ((q - d.toNat) / g)).1 else 0
            else vGet s.g i q) ∧
      (∀ d, x.d = .s d → x.u = true →
        let g := jetRegs k
        (formDA x && decide (d.toNat + g < 256) && regsOk s.g [(x.d, 1), (x.a, 1)] &&
          regsOk s.g [(.s (d + BitVec.ofNat 8 g), 1), (x.a, 1)]) = true →
        ∃ t, exec (.cvt dst src x) s = .next t ∧
          t = setG { s.g with s := t.g.s, jx := t.g.jx, pc := s.g.pc + 12, ridx := 0, readTime := 0, midway := false } s ∧ raised t ∧
          ∀ q, sGet t.g q = if holdsQ s.g x = true ∧ (q = d.toNat ∨ q = d.toNat + g)
            then BitVec.ofNat 32 (one 0 (if q = d.toNat then 0 else 1)).1 else sGet s.g q))) ∧
  (∀ (dst src : Ty) (m : Nat) (fmt : DWord) (w : Nat), tyCvt dst = true → tyCvt src = true →
    let r := cvtOne dst src m fmt w
    let n := elemVal dst r.1 0
    (isFloatTy src = false → isFloatTy dst = false →
      n = max (cvtMin dst) (min (cvtMax dst) (cvtInt src w)) ∧ r.2 = if n = cvtInt src w then 0 else flagInvalid) ∧
    (isFloatTy src = false → isFloatTy dst = true → r = roundTy dst m fmt (intEx (cvtInt src w), 0)) ∧
    (isFloatTy src = true → isFloatTy dst = true → r = roundTy dst m fmt (elemSrc src fmt w 0)) ∧
    (isFloatTy src = true → isFloatTy dst = false →
      ((elemSrc src fmt w 0).1 = .nan → n = 0 ∧ r.2 = flagInvalid) ∧
      (∀ neg, (elemSrc src fmt w 0).1 = .inf neg → n = (if neg then cvtMin dst else cvtMax dst) ∧ r.2 = flagInvalid) ∧
      (∀ neg a d e, (elemSrc src fmt w 0).1 = .num neg a d e →
        let v : Int := if neg then -(roundAt m neg a d e 0).1 else (roundAt m neg a d e 0).1
        n = max (cvtMin dst) (min (cvtMax dst) v) ∧
        r.2 = if n ≠ v then flagInvalid else if (roundAt m neg a d e 0).2 then flagInexact else 0)))

/-- R91, R170 to R175: `JORD`, `JSEED`, `JGET`, `JSET`, `JSHIFT`, `JTEST`, `JXR` and `JXC`: what each writes to registers, to the order and to
the flags.
The model's choices in it: which strands a broadcast with `U` = 1 reaches after a trap (log entry 17). -/
def Obligations.Jets : Prop :=
  ∀ (x : Fields) (s : State),
    let k := s.g.jord.toNat
    let c := (x.e.extractLsb' 0 2).toNat
    let onward := fun (g : Group) => setG { g with pc := s.g.pc + 12, ridx := 0, readTime := 0, midway := false } s
    (WellFormed (.jord x) → ((isS x.b || isShort x.b) && !isLong x && regOk s.g x.b 1) = true →
      let v := read32 s.g x 0 x.b
      (v.toNat ≤ 3 → exec (.jord x) s = .next (onward (if holdsQ s.g x then { s.g with jord := v.extractLsb' 0 2 } else s.g))) ∧
      (3 < v.toNat → holdsQ s.g x = true → exec (.jord x) s = trapped (wordTrap 0x02) s)) ∧
    (WellFormed (.jseed x) → (isV x.d && isSrc x x.a && isSrcB x && oneImm [x.a, x.b] &&
        regsOk s.g [fRegs k x.d, fRegs k x.a, (x.b, 1)]) = true →
      (k = 0 → exec (.jseed x) s = trapped (wordTrap 0x15) s) ∧
      (k ≠ 0 → readable s.g x [fRegs 0 x.a, (x.b, 1)] → ∃ t, exec (.jseed x) s = .next t ∧ RegResult x (k + 1)
        (fun i => BitVec.ofNat 32 (nth 0 (readJet s.g x i 0 x.a) 0) :: readB32 s.g x i :: List.replicate (k - 1) 0) s t)) ∧
    (WellFormed (.jget x) → (isV x.d && isV x.a && regsOk s.g [(x.d, 1), fRegs k x.a]) = true →
      (k < c → exec (.jget x) s = trapped (wordTrap 0x15) s) ∧
      (c ≤ k → readable s.g x [(.v (BitVec.ofNat 8 (opIdx x.a + c)), 1)] → ∃ t, exec (.jget x) s = .next t ∧
        RegResult x 1 (fun i => [vGet s.g i (opIdx x.a + c)]) s t)) ∧
    (WellFormed (.jset x) → (isV x.d && !isLong x && isSrc x x.b && regsOk s.g [fRegs k x.d, (x.b, 1)]) = true →
      (k < c → exec (.jset x) s = trapped (wordTrap 0x15) s) ∧
      (c ≤ k → readable s.g x [(x.b, 1)] → ∃ t, exec (.jset x) s = .next t ∧
        RegResult { x with d := .v (BitVec.ofNat 8 (opIdx x.d + c)) } 1 (fun i => [read32 s.g x i x.b]) s t)) ∧
    (WellFormed (.jshift x) → okF1 .f32 x s.g = true →
      (k = 0 → exec (.jshift x) s = trapped (wordTrap 0x15) s) ∧
      (k ≠ 0 → fmtBad s.g.fmt = false → readable s.g x [fReads k x.a] → ∃ y, yields (.jshift x) .f32 x s y ∧
        ∀ i, (y i).length = k + 1 ∧ nth (0, 0) (y i) k = (0, 0) ∧
          ∀ j, j < k → nth (0, 0) (y i) j = chain 0 s.g.fmt none
            [mulV (.num false (j + 1) 1 0, 0) (cA s.g.fmt (readJet s.g x i k x.a) (j + 1))] none)) ∧
    (WellFormed (.jtest x) → (isP x.d && isSrc x x.a && regsOk s.g [fRegs k x.a]) = true → readable s.g x [fReads k x.a] →
      ∃ t res, exec (.jtest x) s = .next t ∧ FPredResult x res (fun _ => 0) s t ∧
        ∀ i, res i = true ↔ ∃ v ∈ readJet s.g x i k x.a, expField fp32 v = 255) ∧
    (isQ x.d = true → exec (.jtest x) s = trapped (wordTrap 0x02) s) ∧
    (WellFormed (.jxr x) → ((isS x.d || isV x.d) && regOk s.g x.d 1) = true →
      ∃ t, exec (.jxr x) s = .next t ∧ RegResult x 1 (fun _ => [s.g.jx.zeroExtend 32]) s t) ∧
    (WellFormed (.jxc x) → ((isS x.b || isShort x.b || isLong x) && isSrcB x && regOk s.g x.b 1) = true →
      ∃ t, exec (.jxc x) s = .next t ∧ t = onward { s.g with jx := t.g.jx } ∧ ∀ n, n < 20 →
        t.g.jx.getLsbD n = (s.g.jx.getLsbD n && !(holdsQ s.g x && (readB32 s.g x 0).getLsbD n)))


/-! ### Memory -/

/-- R43, R206, R224, R226, R227: relaxed `LD` and `ST` of local store in every executing strand; with `U` = 1 strand 0's place is read
once, and a v destination receives the value in every strand. Where several strands store to a byte, the highest strand's value stays.
The model's choices in it: a resume index with `U` = 1 (log entry 17). -/
def Obligations.LocalAccess : Prop :=
  ∀ (ty : Ty) (x : Fields) (s : State) (place : Nat → Nat × Nat),
    let is := memStrands s.g x
    let n := memBytes ty x
    (WellFormed (.ld ty x) → relaxedOk x true (memRegs ty x) 0 s →
      (∀ i ∈ is, (resolve s.g (memAddr s.g x i) n .read false s).1 = .loc (place i).1 (place i).2 ∧
        localError s (place i).1 (place i).2 n = false) →
      ∃ t, exec (.ld ty x) s = .next t ∧
        RegResult x (memRegs ty x) (fun i => let p := place (if x.u then 0 else i); loadWords ty (localRead s p.1 p.2 n)) s (unlearned s t)) ∧
    (WellFormed (.st ty x) → relaxedOk x false 0 (memRegs ty x) s →
      (∀ i ∈ is, (resolve s.g (memAddr s.g x i) n .write false s).1 = .loc (place i).1 (place i).2) →
      ∃ t, exec (.st ty x) s = .next t ∧ t = { setG { s.g with pc := s.g.pc + 12, ridx := 0, readTime := 0, midway := false } s with cores := t.cores, traffic := t.traffic } ∧
        ∀ c b,
          coreAt t c = { coreAt s c with store := (coreAt t c).store, storePoison := (coreAt t c).storePoison, storeTimes := (coreAt t c).storeTimes } ∧
          (∀ i ∈ is, (place i).1 = c → (place i).2 ≤ b → b < (place i).2 + n →
            (∀ j ∈ is, i < j → ¬((place j).1 = c ∧ (place j).2 ≤ b ∧ b < (place j).2 + n)) →
            Sparse.get 0 b (coreAt t c).store = nth 0 (bytesOfWords (dataRegs s.g x i (memRegs ty x))) (b - (place i).2)) ∧
          ((∀ i ∈ is, ¬((place i).1 = c ∧ (place i).2 ≤ b ∧ b < (place i).2 + n)) →
            Sparse.get 0 b (coreAt t c).store = Sparse.get 0 b (coreAt s c).store))

/-- R208, R209, R226: a relaxed load of HBM by one strand. A valid word under its lease comes from the L1, unless its line is to give
way because the two words of an eight-byte load are not of one point in time; with no copy there, and with `.byp`, it comes from
memory; a full L1, where another line gives way, is left out. Memory does not change. R209, R211, R227, R230: a relaxed store to
HBM by one strand. With `.byp` the bytes reach memory, the line's write time advances and an acknowledgement is on its way;
otherwise memory stays and the L1 holds the bytes dirty; a store of part of a word that is not there takes a merging fill first.
R67: loads and stores of several strands whose pages the TLB holds: each strand has its own place, and where several store to a
byte the highest strand's value stays. R211, R229: `LD.acq` at a scope wider than a team raises the core's clock to the write time
that it reads; `ST.rel` carries the timestamp T of R211, to which it raises the clock, for a group that has nothing under way.
The model's choices in it: log entries 21, 23, 24 and 120, and a resume index with `U` = 1 (log entry 17). -/
def Obligations.GlobalAccess : Prop :=
  (∀ (ty : Ty) (x : Fields) (s s1 : State) (i pa : Nat), WellFormed (.ld ty x) → relaxedOk x true (memRegs ty x) 0 s →
    memStrands s.g x = [i] → resolve s.g (memAddr s.g x i) (memBytes ty x) .read false s = (.mem pa, s1) →
    let n := memBytes ty x
    let need := wordMask (pa % 64) n
    let k := coreAt s1 (coreNo s.g)
    let loads := fun (bs : List Byte) => ∃ t, exec (.ld ty x) s = .next t ∧ bareSums t = bareSums s1 ∧
      RegResult x (memRegs ty x) (fun _ => loadWords ty bs) s1 (sameAccess s1 t)
    (∀ l, bypass x = false → (∀ i ∈ s1.pending, ownPosted s1.g.gid (fun r => r.pa / 64 == pa / 64) i = false) →
      roomL1 s1 (coreNo s.g) 0 → findLine k (pa / 64) s.g.eid = some l → need &&& ~~~l.valid = 0 → (l.bad ||| l.lost) &&& need = 0 →
      (n < 8 ∨ ∀ p, p < 8 → need.getLsbD (2 * p) = true → pairApart l s1 p = false) → (need &&& ~~~l.dirty = 0 ∨ k.cc ≤ l.lease) → loads (lineBytes l (pa % 64) n)) ∧
    (quiet s1 (pa / 64) → roomL1 s1 (coreNo s.g) 1 → memError s1 pa n = none → loads (memRead s1 pa n))) ∧
  (∀ (ty : Ty) (x : Fields) (s s1 : State) (i pa : Nat), WellFormed (.st ty x) → relaxedOk x false 0 (memRegs ty x) s →
    memStrands s.g x = [i] → resolve s.g (memAddr s.g x i) (memBytes ty x) .write false s = (.mem pa, s1) →
    let n := memBytes ty x
    let bs := (bytesOfWords (dataRegs s.g x i (memRegs ty x))).take n
    let onward := { s1.g with pc := s.g.pc + 12, ridx := 0, readTime := 0, midway := false }
    (bypass x = true → quiet s1 (pa / 64) → ∃ t, exec (.st ty x) s = .next t ∧ t.g = onward ∧
      (∀ a, memByte t a = if pa ≤ a ∧ a < pa + n then nth 0 bs (a - pa) else memByte s1 a) ∧
      wtsOf t (pa / 64) = nextWts s1 (pa / 64) s.g.carry ∧
      t.accs = s1.accs ++ [⟨s1.fresh, s.g.gid, s.g.tid, .ack (wtsOf t (pa / 64))⟩]) ∧
    (bypass x = false → 4 ≤ n → roomL1 s1 (coreNo s.g) 1 → (∀ i ∈ s1.pending, ownPosted s1.g.gid (fun r => r.pa / 64 == pa / 64) i = false) →
      ∃ t l, exec (.st ty x) s = .next t ∧ t = { setG onward s1 with cores := t.cores } ∧
        findLine (coreAt t (coreNo s.g)) (pa / 64) s.g.eid = some l ∧ lineBytes l (pa % 64) n = bs ∧
        wordMask (pa % 64) n &&& ~~~l.dirty = 0 ∧ s.g.gid ∈ l.writers) ∧
    (bypass x = false → n < 4 → quiet s1 (pa / 64) → roomL1 s1 (coreNo s.g) 1 → memError s1 pa n = none →
      ∃ t l, exec (.st ty x) s = .next t ∧ sameAccess s1 t = setG onward s1 ∧
        findLine (coreAt t (coreNo s.g)) (pa / 64) s.g.eid = some l ∧ wordMask (pa % 64) n &&& ~~~l.dirty = 0 ∧ s.g.gid ∈ l.writers ∧
        ∀ a, a / 4 = pa / 4 → lineBytes l (a % 64) 1 = [if pa ≤ a ∧ a < pa + n then nth 0 bs (a - pa) else memByte s1 a])) ∧
  (∀ (ty : Ty) (x : Fields) (s : State) (pa : Nat → Nat),
    let is := memStrands s.g x
    let n := memBytes ty x
    let c := coreNo s.g
    let onward := { s.g with pc := s.g.pc + 12, ridx := 0, readTime := 0, midway := false }
    let bs := fun i => (bytesOfWords (dataRegs s.g x i (memRegs ty x))).take n
    let lastAt := fun i b => pa i ≤ b ∧ b < pa i + n ∧ ∀ j ∈ is, i < j → ¬(pa j ≤ b ∧ b < pa j + n)
    (∀ p ∈ s.pending, ownPosted s.g.gid (fun _ => true) p = false) →
    (WellFormed (.ld ty x) → relaxedOk x true (memRegs ty x) 0 s →
      (∀ i ∈ is, resolve s.g (memAddr s.g x i) n .read false s = (.mem (pa i), s)) →
      (bypass x = true → (∀ i ∈ is, findLine (coreAt s c) (pa i / 64) s.g.eid = none ∧ memError s (pa i) n = none) →
        ∃ t, exec (.ld ty x) s = .next t ∧
          RegResult x (memRegs ty x) (fun i => loadWords ty (memRead s (pa (if x.u then 0 else i)) n)) s (sameAccess s t)) ∧
      (∀ l : Nat → Line, bypass x = false → roomL1 s c 0 →
        (∀ i ∈ is, let need := wordMask (pa i % 64) n
          findLine (coreAt s c) (pa i / 64) s.g.eid = some (l i) ∧ need &&& ~~~(l i).valid = 0 ∧ ((l i).bad ||| (l i).lost) &&& need = 0 ∧
          (n < 8 ∨ ∀ p, p < 8 → need.getLsbD (2 * p) = true → pairApart (l i) s p = false) ∧
          (need &&& ~~~(l i).dirty = 0 ∨ (coreAt s c).cc ≤ (l i).lease)) →
        ∃ t, exec (.ld ty x) s = .next t ∧ RegResult x (memRegs ty x)
          (fun i => let j := if x.u then 0 else i; loadWords ty (lineBytes (l j) (pa j % 64) n)) s (sameAccess s t))) ∧
    (WellFormed (.st ty x) → relaxedOk x false 0 (memRegs ty x) s →
      (∀ i ∈ is, resolve s.g (memAddr s.g x i) n .write false s = (.mem (pa i), s)) →
      (bypass x = true → (∀ i ∈ is, findLine (coreAt s c) (pa i / 64) s.g.eid = none) → ∃ t, exec (.st ty x) s = .next t ∧ t.g = onward ∧
        t.accs.length = s.accs.length + is.length ∧ (∀ i ∈ is, ∀ b, lastAt i b → memByte t b = nth 0 (bs i) (b - pa i)) ∧
        ∀ b, (∀ i ∈ is, ¬(pa i ≤ b ∧ b < pa i + n)) → memByte t b = memByte s b) ∧
      (bypass x = false → 4 ≤ n → roomL1 s c 64 → ∃ t, exec (.st ty x) s = .next t ∧ t = { setG onward s with cores := t.cores } ∧
        ∀ i ∈ is, ∀ b, lastAt i b → ∃ l, findLine (coreAt t c) (b / 64) s.g.eid = some l ∧
          lineBytes l (b % 64) 1 = [nth 0 (bs i) (b - pa i)] ∧ wordMask (b % 64) 1 &&& ~~~l.dirty = 0))) ∧
  (∀ (ty : Ty) (x : Fields) (s s1 : State) (i pa : Nat), 2 ≤ x.md.toNat → memStrands s.g x = [i] →
    let n := memBytes ty x
    let c := coreNo s.g
    (WellFormed (.ld ty x) → isAcq x = true → isRel x = false → memOk s.g x true (memRegs ty x) 0 = true → readable s.g x (memSrcs x 0) →
      resolve s.g (memAddr s.g x i) n .read false s = (.mem pa, s1) → quiet s1 (pa / 64) → roomL1 s1 c 1 → memError s1 pa n = none →
      ∃ t, exec (.ld ty x) s = .next t ∧
        RegResult x (memRegs ty x) (fun _ => loadWords ty (memRead s1 pa n)) s1 (sameAccess s1 t) ∧
        (coreAt t c).cc = max (coreAt s1 c).cc (max s.g.readTime (wtsOf s1 (pa / 64))) ∧ wtsOf s1 (pa / 64) ≤ t.g.gwts) ∧
    (WellFormed (.st ty x) → isRel x = true → isAcq x = false → memOk s.g x false 0 (memRegs ty x) = true →
      readable s.g x (memSrcs x (memRegs ty x)) → allQuiet s s.g.gid →
      resolve s.g (memAddr s.g x i) n .write false (clockTo c s.g.gwts s) = (.mem pa, s1) →
      let bs := (bytesOfWords (dataRegs s.g x i (memRegs ty x))).take n
      let onward := { s1.g with pc := s.g.pc + 12, ridx := 0, readTime := 0, midway := false }
      let stamp := max s.g.gwts s.g.carry
      (bypass x = true → quiet s1 (pa / 64) → ∃ t, exec (.st ty x) s = .next t ∧ t.g = onward ∧
        (∀ a, memByte t a = if pa ≤ a ∧ a < pa + n then nth 0 bs (a - pa) else memByte s1 a) ∧
        wtsOf t (pa / 64) = nextWts s1 (pa / 64) stamp ∧ (coreAt t c).cc = max (coreAt s c).cc s.g.gwts) ∧
      (bypass x = false → 4 ≤ n → roomL1 s1 c 1 → (∀ p ∈ s1.pending, ownPosted s1.g.gid (fun r => r.pa / 64 == pa / 64) p = false) →
        ∃ t l, exec (.st ty x) s = .next t ∧ t = { setG onward s1 with cores := t.cores } ∧
          findLine (coreAt t c) (pa / 64) s.g.eid = some l ∧ lineBytes l (pa % 64) n = bs ∧
          wordMask (pa % 64) n &&& ~~~l.dirty = 0 ∧ stamp ≤ l.stamp ∧ (coreAt t c).cc = max (coreAt s c).cc s.g.gwts)))

/-- R231 to R233: the new value of each atomic operation, in FP32 the sum rounded once to nearest even and the larger of the two, a number
rather than a NaN. R232, R234: a relaxed `ATOM` by one strand, on local store or at the home
slice: D receives the old value and the location the new one; every other byte of memory stays. R67: atomics of several strands
whose pages the TLB holds, at places that are equal or apart: each finds what the strands below it have left. R211, R229, R234:
`ATOM.acqrel` at a scope wider than a team carries the timestamp T of R211, for a group that has nothing under way, and raises the
core's clock to it and to the write time that it reads.
The model's choices in it: a resume index with `U` = 1 (log entry 17), strand 0's expected value with `U` = 1 (log entry 124), the
time that a strong atomic takes from those before it (log entry 119). -/
def Obligations.Atomics : Prop :=
  (∀ (ty : Ty) (old new expected : Nat), tyScalarInt ty = true → old < 2 ^ (8 * atomBytes ty) → new < 2 ^ (8 * atomBytes ty) →
    let v := fun x => elemVal ty x 0
    wraps ty (v old + v new) (v (atomNew .add ty old new expected)) ∧
    v (atomNew .min ty old new expected) = min (v old) (v new) ∧ v (atomNew .max ty old new expected) = max (v old) (v new) ∧
    (∀ j, (atomNew .and ty old new expected).testBit j = (old.testBit j && new.testBit j)) ∧
    (∀ j, (atomNew .or ty old new expected).testBit j = (old.testBit j || new.testBit j)) ∧
    (∀ j, (atomNew .xor ty old new expected).testBit j = (old.testBit j != new.testBit j)) ∧
    atomNew .exch ty old new expected = new ∧ atomNew .cas ty old new expected = if old = expected then new else old) ∧
  (∀ old new expected : Nat, old < 2 ^ 32 → new < 2 ^ 32 →
    let a := unpack fp32 old
    let b := unpack fp32 new
    atomNew .add .f32 old new expected = (roundFV fp32 0 false false (addV 0 (a, 0) (b, 0))).1 ∧
    let r := atomNew .max .f32 old new expected
    (isNaN fp32 old = true → r = if isNaN fp32 new then canonNaN fp32 else new) ∧ (isNaN fp32 old = false → isNaN fp32 new = true → r = old) ∧
    (isNaN fp32 old = false → isNaN fp32 new = false →
      (cmpEx a b < 0 → r = new) ∧ (0 < cmpEx a b → r = old) ∧
      (cmpEx a b = 0 → r = if signField fp32 old = true ∧ signField fp32 new = false then new else old))) ∧
  (∀ (op : AtomOp) (ty : Ty) (x : Fields) (s s1 : State) (i : Nat), WellFormed (.atom op ty x) →
    relaxedOk x false (atomRegs ty) (atomRegs ty) s → (op = .cas → badReg s.g i (x.d, atomRegs ty) = false) → memStrands s.g x = [i] →
    let n := atomBytes ty
    let operand := (regsVal (dataRegs s.g x i (atomRegs ty))).toNat
    let expected := (destVal s.g x i (atomRegs ty)).toNat
    let new := fun (old : List Byte) => leBytes n (atomNew op ty (leNat old) operand expected)
    (∀ c a, resolve s.g (memAddr s.g x i) n .write false s = (.loc c a, s1) → localError s1 c a n = false →
      ∃ t, exec (.atom op ty x) s = .next t ∧
        RegResult x (atomRegs ty) (fun _ => atomWords ty (leNat (localRead s1 c a n))) s1 (unlearned s1 { t with cores := s1.cores }) ∧
        ∀ d b, Sparse.get 0 b (coreAt t d).store = if d = c ∧ a ≤ b ∧ b < a + n then nth 0 (new (localRead s1 c a n)) (b - a)
          else Sparse.get 0 b (coreAt s1 d).store) ∧
    (∀ pa, resolve s.g (memAddr s.g x i) n .write false s = (.mem pa, s1) → quiet s1 (pa / 64) → memError s1 pa n = none →
      ∃ t, exec (.atom op ty x) s = .next t ∧
        RegResult x (atomRegs ty) (fun _ => atomWords ty (leNat (memRead s1 pa n))) s1
          (sameAccess s1 { t with mem := s1.mem, wts := s1.wts, wrote := s1.wrote, sums := s1.sums }) ∧
        wtsOf t (pa / 64) = nextWts s1 (pa / 64) s.g.carry ∧
        ∀ b, memByte t b = if pa ≤ b ∧ b < pa + n then nth 0 (new (memRead s1 pa n)) (b - pa) else memByte s1 b)) ∧
  (∀ (op : AtomOp) (ty : Ty) (x : Fields) (s : State) (pa : Nat → Nat), WellFormed (.atom op ty x) →
    relaxedOk x false (atomRegs ty) (atomRegs ty) s →
    let is := memStrands s.g x
    let n := atomBytes ty
    (∀ p ∈ s.pending, ownPosted s.g.gid (fun _ => true) p = false) →
    (∀ i ∈ is, resolve s.g (memAddr s.g x i) n .write false s = (.mem (pa i), s) ∧ findLine (coreAt s (coreNo s.g)) (pa i / 64) s.g.eid = none ∧
      memError s (pa i) n = none ∧ (op = .cas → badReg s.g i (x.d, atomRegs ty) = false)) →
    (∀ i ∈ is, ∀ j ∈ is, pa i = pa j ∨ pa i + n ≤ pa j ∨ pa j + n ≤ pa i) →
    let next := fun (v j : Nat) => leNat (leBytes n (atomNew op ty v (regsVal (dataRegs s.g x j (atomRegs ty))).toNat
      (destVal s.g x j (atomRegs ty)).toNat))
    let left := fun (js : List Nat) (a : Nat) => (js.filter (fun j => pa j == a)).foldl next (leNat (memRead s a n))
    ∃ t, exec (.atom op ty x) s = .next t ∧
      RegResult x (atomRegs ty) (fun i => let k := if x.u then 0 else i
          atomWords ty (left (is.filter (fun j => decide (j < k))) (pa k))) s
        (sameAccess s { t with mem := s.mem, wts := s.wts, wrote := s.wrote, sums := s.sums }) ∧
      (∀ i ∈ is, ∀ b, pa i ≤ b → b < pa i + n → memByte t b = nth 0 (leBytes n (left is (pa i))) (b - pa i)) ∧
      ∀ b, (∀ i ∈ is, ¬(pa i ≤ b ∧ b < pa i + n)) → memByte t b = memByte s b) ∧
  (∀ (op : AtomOp) (ty : Ty) (x : Fields) (s s1 : State) (i pa : Nat), WellFormed (.atom op ty x) → isAcq x = true → isRel x = true →
    2 ≤ x.md.toNat → memOk s.g x false (atomRegs ty) (atomRegs ty) = true → readable s.g x (memSrcs x (atomRegs ty)) →
    (op = .cas → badReg s.g i (x.d, atomRegs ty) = false) → memStrands s.g x = [i] → allQuiet s s.g.gid →
    let n := atomBytes ty
    let c := coreNo s.g
    resolve s.g (memAddr s.g x i) n .write false (clockTo c s.g.gwts s) = (.mem pa, s1) → quiet s1 (pa / 64) → memError s1 pa n = none →
    let old := memRead s1 pa n
    let new := leBytes n (atomNew op ty (leNat old) (regsVal (dataRegs s.g x i (atomRegs ty))).toNat (destVal s.g x i (atomRegs ty)).toNat)
    let w := if x.md.toNat = 2 then wtsOf s1 (pa / 64) else max (wtsOf s1 (pa / 64)) s.strong
    ∃ t, exec (.atom op ty x) s = .next t ∧
      RegResult x (atomRegs ty) (fun _ => atomWords ty (leNat old)) s1
        (sameAccess s1 { t with mem := s1.mem, wts := s1.wts, wrote := s1.wrote, sums := s1.sums, strong := s1.strong }) ∧
      (∀ b, memByte t b = if pa ≤ b ∧ b < pa + n then nth 0 new (b - pa) else memByte s1 b) ∧
      wtsOf t (pa / 64) = nextWts s1 (pa / 64) (max s.g.gwts s.g.carry) ∧
      (coreAt t c).cc = max (max (coreAt s c).cc s.g.gwts) (max s.g.readTime w))

/-- R230, R232, R234 to R236, R307, R312: `RED` and `XSUM` `add` and `clear` leave the core as one operation each, which the context
counts; `XSUM` `read` returns the cell's value, in which adds of other groups that nothing orders before it may be lacking;
`RED` on local store acts at once. For one executing strand; R67: of several strands, whose pages the TLB holds, each posts one
operation, in ascending order.
The model's choices in it: a posted operation is checked when it is issued and performs later (log entry 32); which adds a read may lack (log
entry 120); a resume index with `U` = 1 (log entry 17). -/
def Obligations.Posted : Prop :=
  (∀ (x : Fields) (s : State) (pa : Nat → Nat), (∀ i ∈ memStrands s.g x, findLine (coreAt s (coreNo s.g)) (pa i / 64) s.g.eid = none) →
    let is := memStrands s.g x
    let onward := { s.g with pc := s.g.pc + 12, ridx := 0, readTime := 0, midway := false }
    let posts := fun (o : Instr) (k : Nat → SliceKind) => ∃ t, exec o s = .next t ∧
      t = { setG onward s with pending := s.pending ++ is.map (fun i =>
                                 .sliceOperation (sliceReq s.g (memAddr s.g x i) (pa i) s.g.carry (evictFirst x) (k i)))
                               teams := t.teams, saved := t.saved } ∧
      t = is.foldl (fun u _ => countUp s.g.tid u) { t with teams := s.teams, saved := s.saved }
    (∀ op ty, WellFormed (.red op ty x) → relaxedOk x false 0 (atomRegs ty) s →
      (∀ i ∈ is, resolve s.g (memAddr s.g x i) (atomBytes ty) .write false s = (.mem (pa i), s) ∧ memError s (pa i) (atomBytes ty) = none) →
      posts (.red op ty x) (fun i => .atom (redOp op) ty (regsVal (dataRegs s.g x i (atomRegs ty))) 0)) ∧
    (WellFormed (.xsum .add x) → relaxedOk x false 0 1 s →
      (∀ i ∈ is, resolve s.g (memAddr s.g x i) 64 .write true s = (.mem (pa i), s) ∧ memError s (pa i) 64 = none) →
      posts (.xsum .add x) (fun i => .xadd (nth 0 (dataRegs s.g x i 1) 0)))) ∧
  ∀ (x : Fields) (s s1 : State) (i pa : Nat), memStrands s.g x = [i] → s1.g = s.g → quiet s1 (pa / 64) →
    let onward := { s.g with pc := s.g.pc + 12, ridx := 0, readTime := 0, midway := false }
    let posts := fun (o : Instr) (k : SliceKind) => ∃ t, exec o s = .next t ∧
      t = { setG onward s1 with pending := s1.pending ++ [.sliceOperation (sliceReq s.g (memAddr s.g x i) pa s.g.carry (evictFirst x) k)]
                                teams := t.teams, saved := t.saved } ∧
      t = countUp s.g.tid { t with teams := s1.teams, saved := s1.saved }
    (∀ op ty, WellFormed (.red op ty x) → relaxedOk x false 0 (atomRegs ty) s →
      let operand := regsVal (dataRegs s.g x i (atomRegs ty))
      (resolve s.g (memAddr s.g x i) (atomBytes ty) .write false s = (.mem pa, s1) → memError s1 pa (atomBytes ty) = none →
        posts (.red op ty x) (.atom (redOp op) ty operand 0)) ∧
      (∀ c a, resolve s.g (memAddr s.g x i) (atomBytes ty) .write false s = (.loc c a, s1) → localError s1 c a (atomBytes ty) = false →
        ∃ t, exec (.red op ty x) s = .next t ∧ unlearned s1 t = { setG onward s1 with cores := t.cores } ∧
          let new := leBytes (atomBytes ty) (atomNew (redOp op) ty (leNat (localRead s1 c a (atomBytes ty))) operand.toNat 0)
          ∀ d b, Sparse.get 0 b (coreAt t d).store = if d = c ∧ a ≤ b ∧ b < a + atomBytes ty then nth 0 new (b - a)
            else Sparse.get 0 b (coreAt s1 d).store)) ∧
    (WellFormed (.xsum .add x) → relaxedOk x false 0 1 s →
      resolve s.g (memAddr s.g x i) 64 .write true s = (.mem pa, s1) → memError s1 pa 64 = none →
      posts (.xsum .add x) (.xadd (nth 0 (dataRegs s.g x i 1) 0))) ∧
    (WellFormed (.xsum .clear x) → relaxedOk x false 0 0 s →
      resolve s.g (memAddr s.g x i) 64 .write true s = (.mem pa, s1) → memError s1 pa 64 = none →
      posts (.xsum .clear x) .xclear) ∧
    (WellFormed (.xsum .read x) → relaxedOk x false 1 0 s →
      resolve s.g (memAddr s.g x i) 64 .read true s = (.mem pa, s1) → memError s1 pa 64 = none →
      let h := cellOf s1 pa
      (assoc (pa / 64) s1.sums = none → h.base = memRead s1 pa 64 ∧ h.adds = []) ∧
      ∃ (t : State) (p : Nat → Bool), exec (.xsum .read x) s = .next t ∧ bareSums t = bareSums s1 ∧
        (∀ e ∈ h.adds.zipIdx, knows s1 s.g e.1 = true → p e.2 = true) ∧
        let seen := ((h.adds.zipIdx.filter (fun e => p e.2)).map (·.1.x)).foldl cellAdd h.base
        RegResult x 1 (fun _ => [BitVec.ofNat 32 (cellRead seen)]) s1 (sameAccess s1 t))

/-- R211, R232, R235, R236, R240, R356: an operation performs at its home slice: exactly its bytes change, to what it makes of the old
ones, the write time of the line advances, and an acknowledgement starts back. R235, R236: adding a finite value to a cell adds
exactly that value to the cell's sum and 1 to its count; reading rounds the sum once, to nearest even.
The model's choice in it, which no cited rule states: a location that is poisoned, or whose tag fails, when the operation arrives stays
as it is (log entry 32). -/
def Obligations.SliceOperations : Prop :=
  (∀ (r : SliceReq) (s : State), (∀ g, findGroup s r.group = some g → findLine (coreAt s (coreNo g)) (r.pa / 64) r.eid = none) →
    sliceOver r.kind (memRead s r.pa (sliceBytes r.kind)) = false →
    let n := sliceBytes r.kind
    let old := memRead s r.pa n
    ∃ t, exec (.sliceOperation r) s = .next t ∧ t.g = s.g ∧ t.others = s.others ∧ t.cores = s.cores ∧
      t.accs = s.accs ++ [⟨s.fresh, r.group, r.team, .ack (wtsOf t (r.pa / 64))⟩] ∧
      ((memError s r.pa n).isSome = true → t.mem = s.mem) ∧
      ((memError s r.pa n) = none →
        (r.pa % 64 + n ≤ 64 → wtsOf t (r.pa / 64) = nextWts s (r.pa / 64) r.stamp) ∧
        ∀ b, memByte t b = if r.pa ≤ b ∧ b < r.pa + n then nth 0 (sliceResult r.kind old) (b - r.pa) else memByte s b) ∧
      (∀ a, sliceResult (.count a) old = leBytes 8 (min (leNat old + a) (2 ^ 64 - 1))) ∧
      sliceResult .xclear old = List.replicate 64 0) ∧
  (∀ (b : List Byte) (x : Nat), b.length = 64 → x < 2 ^ 32 → expField fp32 x ≠ 255 →
    let count := leNat ((b.drop 48).take 8)
    count < 2 ^ 64 - 1 → -(2 ^ 382) < cellSum b → cellSum b < 2 ^ 382 →
    cellSum (cellAdd b x) = cellSum b + fp32Units x ∧ leNat (((cellAdd b x).drop 48).take 8) = count + 1 ∧
    (cellAdd b x).length = 64 ∧ exVal (unpack fp32 x) = some ((fp32Units x : Rat) * (2 : Rat) ^ (-149 : Int)) ∧
    ((b.drop 56).take 1 = [0] → cellRead b =
      (roundFV fp32 0 false false (.num (decide (cellSum b < 0)) (cellSum b).natAbs 1 (-149), 0)).1))

/-- R228: `PREF` completes whatever its addresses and its source registers hold, and changes neither registers nor memory where the L1
has room and no dirty line has to give way. R210, R211, R237, R309: `FENCE`, and the release that it waits for when its scope is
wider than the core: then no word that the group wrote stays dirty in its L1. R211, R237: the acquire part raises the core's clock to
`GWTS` at a scope wider than a team, and leaves it as it is within the core; the release raises it to `GWTS` too, for a group that
has nothing under way.
The model's choices in it: log entries 24 and 28; at `.sys` an acquire also takes what peers have given (log entry 35). -/
def Obligations.PrefetchFences : Prop :=
  (∀ (x : Fields) (s : State), WellFormed (.pref x) → ordOf x = 0 → memOk s.g x true 0 0 = true → roomL1 s (coreNo s.g) 64 →
    (∀ l ∈ (coreAt s (coreNo s.g)).lines, l.dirty = 0 ∨ current l s = true) → ∃ t, exec (.pref x) s = .next t ∧
    t = { setG { s.g with pc := s.g.pc + 12, ridx := 0, readTime := 0, midway := false } s with
      cores := t.cores, rts := t.rts, pending := t.pending, cached := t.cached, poison := t.poison, traffic := t.traffic, log := t.log
      clusterTlbs := t.clusterTlbs, dieTlbs := t.dieTlbs }) ∧
  ((∀ (x : Fields) (s : State), WellFormed (.fence x) →
    let onward := setG { s.g with pc := s.g.pc + 12, ridx := 0, readTime := 0, midway := false } s
    (holdsAny s.g x = false → exec (.fence x) s = .next onward) ∧
    (holdsAny s.g x = true → isAcq x = true →
      isRel x = false ∨ wider s s.g.tid x.md.toNat = false → (∀ i ∈ s.pending, postedBy s.g.gid i = false) →
      ∃ t, exec (.fence x) s = .next t ∧ t.mem = s.mem ∧
        t.g = { s.g with pc := s.g.pc + 12, ridx := 0, readTime := 0, midway := false, gwts := t.g.gwts, gwtsTeam := t.g.gwtsTeam } ∧
        s.g.gwts ≤ t.g.gwts ∧
        let cc := (coreAt t (coreNo s.g)).cc
        (wider s s.g.tid x.md.toNat = false → cc = (coreAt s (coreNo s.g)).cc) ∧
        (2 ≤ x.md.toNat → (∀ a ∈ s.accs, a.group ≠ s.g.gid) →
          cc = max (coreAt s (coreNo s.g)).cc (if x.md.toNat = 4 then max s.g.gwts s.g.gwtsSys else s.g.gwts))) ∧
    (holdsAny s.g x = true → isRel x = true → wider s s.g.tid x.md.toNat = true → exec (.fence x) s =
      .next (setG { s.g with status := .releasing x.md.toNat (isAcq x) } s)) ∧
    (holdsAny s.g x = true → isRel x = true → isAcq x = false → wider s s.g.tid x.md.toNat = false →
      (∀ i ∈ s.pending, postedBy s.g.gid i = false) → exec (.fence x) s = .next onward)) ∧
  (∀ (s : State) (gid scope : Nat) (g : Group), findGroup s gid = some g → g.gid = gid → g.status = .releasing scope false →
    wider s g.tid scope = true → (∀ i ∈ s.pending, postedBy gid i = false) → peerPending s gid = none →
    ∃ t h, exec (.releasePerformed gid) s = .next t ∧ findGroup t gid = some h ∧ h.status = .ready ∧ h.pc = g.pc + 12 ∧
      h.gwts ≤ h.carry ∧ ∀ l ∈ (coreAt t (coreNo g)).lines, wroteLine gid l = false) ∧
  (∀ (s : State) (gid scope : Nat) (acq : Bool) (g : Group), findGroup s gid = some g → g.gid = gid → g.status = .releasing scope acq →
    2 ≤ scope → allQuiet s gid →
    ∃ t h, exec (.releasePerformed gid) s = .next t ∧ findGroup t gid = some h ∧ h.status = .ready ∧ h.pc = g.pc + 12 ∧
      h.carry = max g.carry g.gwts ∧
      (coreAt t (coreNo g)).cc = max (coreAt s (coreNo g)).cc (if acq = true ∧ scope = 4 then max g.gwts g.gwtsSys else g.gwts)))

/-- R216 to R219: a walk that finds a leaf with the permission puts it into the core's TLB and sets `A`, and `D` for a write, in its
entry; an entry that is not valid is cause 0x08 with subcode 1; a missing permission is cause 0x09. For walkers that hold no entry that
memory no longer has. R228: a prefetch's walk does the same, and then brings its line into the L1. -/
def Obligations.PageWalks : Prop :=
  ∀ (c eid die : Nat) (va : DWord) (acc : Acc) (s : State),
    let root := (engOf s eid).root
    let v := va.toNat % 2 ^ 56
    let first := root + 8 * (v / 2 ^ 48)
    ((∀ l a, heldPte (cross s) (some c) eid v l a = readPte s l a) →
    (first < 2 ^ 39 → (memByte s first).getLsbD 0 = false → walk (some c) eid die va acc s = (.bad 0x08 1, cross s)) ∧
    (∀ e a shift, walkFrom s v levels root none = .leaf e a shift →
      leNat (memRead s a 8) = e.toNat ∧ a < 2 ^ 39 ∧
      (∀ sub, permFault e acc = some sub → walk (some c) eid die va acc s = (.bad 0x09 sub, cross s)) ∧
      (permFault e acc = none → a % 8 = 0 → ∃ p t, walk (some c) eid die va acc s = (p, t) ∧
        (memByte t (a + 6)).getLsbD 5 = true ∧ (acc = .write → (memByte t (a + 6)).getLsbD 6 = true) ∧
        (∀ b, b ≠ a + 6 → memByte t b = memByte s b) ∧ t.g = s.g ∧
        ∃ en, tlbFind t c eid va = some en ∧ en.leaf = e ∧ en.shift = shift))) ∧
    (∃ t, exec (.pageWalk ⟨c, eid, va, acc, none⟩) s = .next t ∧ t = (walk (some c) eid (c / 48) va acc s).2 ∧ t.g = s.g) ∧
    ∀ p, ∃ t, exec (.pageWalk ⟨c, eid, va, acc, some p⟩) s = .next t ∧
      ∀ pa s1, walk (some c) eid (c / 48) va acc s = (.mem pa, s1) → p.hint ≠ 4 → p.hint ≠ 5 → memError s1 (64 * (pa / 64)) 64 = none →
        findLine (coreAt s1 c) (pa / 64) eid = none → roomL1 s1 c 1 →
        ∃ l, findLine (coreAt t c) (pa / 64) eid = some l ∧ l.valid = BitVec.allOnes 16 ∧ lineBytes l 0 64 = memRead s1 (64 * (pa / 64)) 64

/-! ### Counters, barriers and waits -/

/-- R203, R238 to R240, R242: `CADD` and `CREAD` of a counter of the issuing core: the one counter grows, or overflows with cause 0x18
and stays at its greatest value; a read gives its value. R238, R240, R242, R316: counters of other cores of the gang and counters
in memory: an add leaves the core as one message, a read returns the value, after the adds that the group itself has posted to it
(R302). R240, R316, R383: a posted add applies to the one counter of the team it names, or is discarded and counted when that team
has ended.
The model's choices in it: log entries 19 and 37; an add to memory is checked when it is issued and performs later (log entry 32); a relaxed
add carries the timestamp of an earlier release fence (log entry 114). -/
def Obligations.Counters : Prop :=
  (∀ (x : Fields) (s : State), ordOf x = 0 → x.e.getLsbD 5 = false →
    let c := coreNo s.g
    let onward := { s.g with pc := s.g.pc + 12, ridx := 0, readTime := 0, midway := false }
    (WellFormed (.cadd x) → opZero x.a = true → isCtr x.d = true → ctrB s.g x = true →
      let m := ownCtr s (opIdx x.d - 0x20)
      let v := (ctrAt s c m).val.toNat + (read32 s.g x 0 x.b).toNat
      (holdsQ s.g x = false → exec (.cadd x) s = .next (setG onward s)) ∧
      (holdsQ s.g x = true → v < 2 ^ 64 → ∃ t, exec (.cadd x) s = .next t ∧ t = { setG onward s with cores := t.cores } ∧
        (ctrAt t c m).val.toNat = v ∧ (ctrAt t c m).ct = max (ctrAt s c m).ct s.g.carry ∧
        (∀ d n, ¬(d = c ∧ n = m) → ctrAt t d n = ctrAt s d n) ∧
        ∀ d, coreAt t d = { coreAt s d with ctrs := (coreAt t d).ctrs }) ∧
      (holdsQ s.g x = true → 2 ^ 64 ≤ v → ∃ t, exec (.cadd x) s = trapped ⟨0x18, 0, some (counterRef c m), 0⟩ t ∧
        t = { s with cores := t.cores } ∧ (ctrAt t c m).val.toNat = 2 ^ 64 - 1)) ∧
    (WellFormed (.cread x) → isCtr x.a = true → (isSPair x.d && regOk s.g x.d 2) = true →
      (holdsQ s.g x = false → exec (.cread x) s = .next (setG onward s)) ∧
      (holdsQ s.g x = true → ∃ t, exec (.cread x) s = .next t ∧
        RegResult x 2 (fun _ => words64 (ctrAt s c (ownCtr s (opIdx x.a - 0x20))).val) s (sameAccess s t)))) ∧
  (∀ (x : Fields) (s : State), ordOf x = 0 → holdsQ s.g x = true →
    let onward := { s.g with pc := s.g.pc + 12, ridx := 0, readTime := 0, midway := false }
    (∀ c tm, ctrCore s x = some c → c ≠ coreNo s.g → gangTeam s s.g.launch s.g.gang c = some tm →
      (WellFormed (.cadd x) → opZero x.a = true → isCtr x.d = true → ctrB s.g x = true → ∃ t r, exec (.cadd x) s = .next t ∧
        t = { setG onward s with pending := s.pending ++ [.counterAddArrival r], teams := t.teams, saved := t.saved } ∧
        (r.launch = tm.launch ∧ r.gang = tm.gang ∧ r.team = tm.team ∧ r.n = opIdx x.d - 0x20 ∧
          r.amount = (read32 s.g x 0 x.b).toNat ∧ r.stamp = s.g.carry ∧ r.owner = some s.g.gid)) ∧
      (WellFormed (.cread x) → isCtr x.a = true → (isSPair x.d && regOk s.g x.d 2) = true →
        ∀ u, performWhere (ownAdd s.g.gid c (opIdx x.a - 0x20)) s = u → u.g = s.g → gangTeam u s.g.launch s.g.gang c = some tm →
        ∃ t, exec (.cread x) s = .next t ∧
          RegResult x 2 (fun _ => words64 (ctrAt u c (16 * rangeOn tm c + (opIdx x.a - 0x20))).val) u (sameAccess u { t with ctr := u.ctr }))) ∧
    (∀ s1 pa, quiet s1 (pa / 64) → memError s1 pa 8 = none → s1.g = s.g →
      (WellFormed (.cadd x) → opZero x.a = false → (opZero x.d && memCtrOk s.g x.a && ctrB s.g x && apart x.a 2 x.b 1) = true →
        let va := read64 s.g x 0 x.a
        resolve s.g va 8 .write true s = (.mem pa, s1) → ∃ t, exec (.cadd x) s = .next t ∧ t.g = onward ∧ t.mem = s1.mem ∧
          t.pending = s1.pending ++ [.sliceOperation (sliceReq s.g va pa s.g.carry false (.count (read32 s.g x 0 x.b).toNat))]) ∧
      (WellFormed (.cread x) → isS x.a = true →
        (isSPair x.d && regOk s.g x.d 2 && memCtrOk s.g x.a && apart x.d 2 x.a 2) = true →
        resolve s.g (read64 s.g x 0 x.a) 8 .read true s = (.mem pa, s1) → ∃ t, exec (.cread x) s = .next t ∧
          RegResult x 2 (fun _ => words64 (BitVec.ofNat 64 (leNat (memRead s1 pa 8)))) s1 (sameAccess s1 t)))) ∧
  (∀ (r : CtrAdd) (s : State),
    (∀ tm, addTeam s r = some tm →
      let p := addTarget tm r
      let v := (ctrAt s p.1 p.2).val.toNat + r.amount
      v < 2 ^ 64 → ∃ t, exec (.counterAddArrival r) s = .next t ∧ (ctrAt t p.1 p.2).val.toNat = v ∧
        (ctrAt t p.1 p.2).ct = max (ctrAt s p.1 p.2).ct r.stamp ∧
        (∀ c n, ¬(c = p.1 ∧ n = p.2) → (ctrAt t c n).val = (ctrAt s c n).val) ∧ t.mem = s.mem) ∧
    (∀ c, addTeam s r = none → s.saved = [] → lostCore s r = some c → ∃ t, exec (.counterAddArrival r) s = .next t ∧
      (coreAt t c).discarded = (coreAt s c).discarded + 1 ∧ t.mem = s.mem ∧ ∀ d n, ctrAt t d n = ctrAt s d n))

/-- R241, R243: `CWAIT` and `BAR`: at the target the status predicate is cleared; with the cancel bit set it is set; otherwise the group
waits. `BAR` first adds 1 and waits for the next multiple of `n`. R211, R241: `CWAIT.acq` at a scope wider than a team raises the core's
clock to the largest T of the increments that the counter has taken. -/
def Obligations.Waits : Prop :=
  ∀ (x : Fields) (s : State), holdsQ s.g x = true → waitOk x = true → ∀ tm, findTeam s s.g.tid = some tm →
    let c := coreNo s.g
    let m := ownCtr s (opIdx x.a - 0x20)
    let goes := fun (t : State) (b : Bool) => t.g.status = .ready ∧ t.g.pc = s.g.pc + 12 ∧
      t.g.q = (qSet s.g (opIdx x.d - 8) b).q ∧ t.g.v = s.g.v ∧ t.g.s = s.g.s ∧ t.g.p = s.g.p ∧ t.mem = s.mem
    (WellFormed (.cwait x) → (memCtrOk s.g x.b || isShort x.b) = true →
      let target := if isS x.b then (read64 s.g x 0 x.b).toNat else (read32 s.g x 0 x.b).toNat
      let v := (ctrAt s c m).val.toNat
      (target ≤ v → ∃ t, exec (.cwait x) s = .next t ∧ goes t false ∧
        (isAcq x = true → 2 ≤ x.md.toNat → (coreAt t c).cc = max (coreAt s c).cc (ctrAt s c m).ct) ∧
        (isAcq x = false → (coreAt t c).cc = (coreAt s c).cc)) ∧
      (v < target → tm.cancel = true → ∃ t, exec (.cwait x) s = .next t ∧ goes t true) ∧
      (v < target → tm.cancel = false → exec (.cwait x) s = .next (setG { s.g with
        status := .waitCounter m target (BitVec.ofNat 3 (opIdx x.d - 8)) (isAcq x) x.md.toNat s.ac } s))) ∧
    (WellFormed (.bar x) → ctrB s.g x = true → wider s s.g.tid x.md.toNat = false → peerPending s s.g.gid = none →
      (∀ i ∈ s.pending, postedBy s.g.gid i = false) →
      let n := (read32 s.g x 0 x.b).toNat
      let v := (ctrAt s c m).val.toNat + 1
      (n = 0 ∨ 65535 < n → exec (.bar x) s = trapped (wordTrap 0x02) s) ∧
      (n ≠ 0 → n ≤ 65535 → v < 2 ^ 64 →
        (v % n = 0 → ∃ t, exec (.bar x) s = .next t ∧ goes t false ∧ (ctrAt t c m).val.toNat = v) ∧
        (v % n ≠ 0 → tm.cancel = false → ∃ t target, exec (.bar x) s = .next t ∧ (ctrAt t c m).val.toNat = v ∧
          t.g.status = .waitCounter m target (BitVec.ofNat 3 (opIdx x.d - 8)) true x.md.toNat s.ac ∧
          v < target ∧ target < v + n ∧ target % n = 0)))

/-- R52, R53, R201, R241, R250, R322, R438: what ends a wait: the counter's target, the interval of a watchdog, register blocks that
are free, a report, a refilled free list. R211, R305: a core's clock ticks once in each `AGE` ac, and a word that has been dirty
for 8,192 ac is written back. -/
def Obligations.WaitEnds : Prop :=
  (∀ (s : State) (gid : Nat) (g : Group), liveGroup s gid = some g → g.gid = gid →
    let quietBus := (Sparse.get Bus.reset g.die s.buses).running = false
    let lowest := ∀ h ∈ allGroups s, h.tid = g.tid → expired s h = true ∨ blockExpired s h = true → captureKey g ≤ captureKey h
    (∀ m target d scope since, g.status = .waitCounter m target d false scope since →
      let v := (ctrAt s (coreNo g) m).val.toNat
      (target ≤ v → ∃ t h, exec (.counterWaitWake gid) s = .next t ∧ findGroup t gid = some h ∧
        h = { advance (qSet { g with status := .ready } d.toNat false) with gwts := h.gwts, gwtsTeam := h.gwtsTeam } ∧
        g.gwts ≤ h.gwts ∧ t.mem = s.mem) ∧
      (v < target → cancelBit s g = false → quietBus → since + wdogOf s g < s.ac →
        lowest →
        exec (.waitWatchdogExpiry gid) s = .next (trapGroup g ⟨0x19, 0, some (counterRef (coreNo g) m), 0⟩ g.pc s))) ∧
    (∀ t k since, g.status = .waitBlocks t k since →
      (since + wdogOf s g < s.ac → quietBus → (∀ e, grantable s (coreNo g) g.lane = some e → e.1.gid ≠ gid) → lowest →
        exec (.registerBlockWaitExpiry gid) s = .next (trapGroup g ⟨0x1A, 0, none, 0⟩ g.pc s)) ∧
      (g ∈ onLane s (coreNo g) g.lane → (∀ h ∈ onLane s (coreNo g) g.lane, h = g ∨ ∀ u j, blockWait h = some (u, j) → k < j) →
        t * unitsPerBlock g ≤ freeUnits s (coreNo g) g.lane → ∃ u h, exec (.xblkGrant (coreNo g) g.lane) s = .next u ∧
          findGroup u gid = some h ∧ h = { g with xblk := t, status := .ready, pc := g.pc + 12, ridx := 0, readTime := 0, midway := false })) ∧
    (∀ r rs, g.reports = r :: rs → g.status = .ready → g.ridx = 0 → exec (.deferredReport gid) s = .next (trapGroup g
      ⟨r.cause, r.subc, some r.addr, 0⟩ r.pc (modGroup gid (fun g => { g with reports := rs, status := .ready }) s))) ∧
    (∀ die va i, g.status = .waitGrow die va i →
      Sparse.get [] (4 * g.eid + die) s.freeList ≠ [] ∨ (∃ f ∈ Sparse.get [] die s.poolBack, unowned s f = true) →
      ∃ t h, exec (.growRefillDone gid) s = .next t ∧ findGroup t gid = some h ∧ h = { g with status := .ready })) ∧
  (∀ (c : Nat) (s : State),
    let k := coreAt s c
    (k.tick + (if k.age = 0 then 256 else k.age) ≤ s.ac → exec (.coreClockTick c) s =
      .next (setCore c { k with cc := k.cc + 1, tick := k.tick + (if k.age = 0 then 256 else k.age) } s)) ∧
    ((∃ l ∈ k.lines, l.dirty ≠ 0 ∧ l.since + 8192 ≤ s.ac) → ∃ t, exec (.dirtyWritebackBound c) s = .next t ∧
      ∀ l ∈ (coreAt t c).lines, l.dirty ≠ 0 → s.ac < l.since + 8192))


/-! ### Commands of the sequencer -/

/-- R111, R122, R245, R252 to R254: the copy-family instructions offer a command that holds their operands. R25, R255, R263, R273 to
R276, R281, R282, R285 to R287: the matrix instructions offer a command, `MMA` whatever its guards; a core without an engine has
no such instruction; under false guards the others go on; formats that are not in hardware go to `Charon`.
The model's choices in it: an `MMA` under false guards (log entry 16); illegal operands whatever the guards (log entry 15). -/
def Obligations.CommandIssue : Prop :=
  (∀ (x : Fields) (s : State), x.e ≠ 0 → isLong x = false →
    let onward := setG { s.g with pc := s.g.pc + 12, ridx := 0, readTime := 0, midway := false } s
    let pair := fun (o : Opnd) => sGet s.g (opIdx o + 1) ++ sGet s.g (opIdx o)
    let w := fun (o : Opnd) (j : Nat) => sGet s.g (opIdx o + j)
    let issues := fun (o : Instr) (k : CmdKind) (y : Bool) =>
      (holdsQ s.g x = true → offers o x k y s) ∧ (holdsQ s.g x = false → exec o s = .next onward)
    ((sOk s.g x.d 2 && sOk s.g x.a 2 && sOk s.g x.b 4 && regsOk s.g [(x.d, 2), (x.a, 2), (x.b, 4)]) = true →
      (∀ f, WellFormed (.copy f x) →
        issues (.copy f x) (.copy f (pair x.d) (pair x.a) (w x.b 0) (w x.b 1) (w x.b 2) (w x.b 3)) x.ru) ∧
      (WellFormed (.xpose x) → issues (.xpose x) (.xpose (pair x.d) (pair x.a) (w x.b 0) (w x.b 1) (w x.b 2) (w x.b 3)) false)) ∧
    (WellFormed (.publish x) → (sOk s.g x.d 1 && (opZero x.b || sOk s.g x.b 1)) = true →
      issues (.publish x) (.publish (w x.d 0) (if opZero x.b then 0 else w x.b 0)) false) ∧
    (WellFormed (.resv x) → (sOk s.g x.d 1 && sOk s.g x.b 2 && regsOk s.g [(x.d, 1), (x.b, 2)]) = true →
      issues (.resv x) (.resv (w x.d 0) (w x.b 0) (w x.b 1)) false)) ∧
  (∀ (x : Fields) (s : State),
    let pair := fun (o : Opnd) => sGet s.g (opIdx o + 1) ++ sGet s.g (opIdx o)
    let w := fun (o : Opnd) (j : Nat) => sGet s.g (opIdx o + j)
    (hasEngine s = false → ∀ o, o = .mma x ∨ o = .mmaz x ∨ o = .drain x ∨ o = .achk x ∨ o = .aload x →
      exec o s = trapped (wordTrap 0x01) s) ∧
    (hasEngine s = true →
      (WellFormed (.mma x) → mmaOk s x = true → s.g.jord.toNat ≤ 1 → fmtBad s.g.fmt = false → pairBad s.g.fmt = false →
        s.g.vPoison = [] → ∃ exec' l, exec'.toNat < 2 ^ widthOf s.g ∧
        (∀ i, i < 64 → exec'.getLsbD i = decide (i ∈ execList s.g x)) ∧
        let k : CmdKind := .mma (opIdx x.d - 0x10) (mmaA s.g x).1
          ((List.range (widthOf s.g / 8)).filter (fun j => exec'.toNat / 2 ^ (8 * j) % 256 != 0)) exec'
          ((List.range 4).map (w x.b)) (if s.g.jord = 1 then (List.range 4).map (fun j => w x.b (4 + j)) else [])
          (if opZero x.c then none else some ((List.range 4).map (w x.c))) l
        (x.ru = false → l = none) ∧
        (routed s [fmtFa s.g.fmt, fmtFb s.g.fmt] = false → offers (.mma x) x k false s) ∧
        (routed s [fmtFa s.g.fmt, fmtFb s.g.fmt] = true → ∃ c, c.kind = k ∧ c.emulated = true ∧
          exec (.mma x) s = .next (setG { s.g with status := .waitEmulation c } s))) ∧
      (x.e ≠ 0 → isLong x = false →
        let onward := setG { s.g with pc := s.g.pc + 12, ridx := 0, readTime := 0, midway := false } s
        let issues := fun (o : Instr) (k : CmdKind) (toCharon : Bool) =>
          (holdsQ s.g x = true → toCharon = false → offers o x k false s) ∧
          (holdsQ s.g x = true → toCharon = true → ∃ c, c.kind = k ∧ c.emulated = true ∧
            exec o s = .next (setG { s.g with status := .waitEmulation c } s)) ∧
          (holdsQ s.g x = false → exec o s = .next onward)
        (WellFormed (.mmaz x) → tileOk s x.d 0 = true → issues (.mmaz x) (.mmaz (opIdx x.d - 0x10)) false) ∧
        (WellFormed (.achk x) → (tileOk s x.a 0 && sOk s.g x.d 1) = true →
          issues (.achk x) (.achk (BitVec.ofNat 8 (opIdx x.d)) (opIdx x.a - 0x10)) false) ∧
        (WellFormed (.drain x) → (tileOk s x.a 0 && sOk s.g x.d 2 && sOk s.g x.b 2 && regsOk s.g [(x.d, 2), (x.b, 2)]) = true →
          fmtBad s.g.fmt = false →
          issues (.drain x) (.drain (pair x.d) (opIdx x.a - 0x10) (w x.b 0) (w x.b 1)) (routed s [fmtFd s.g.fmt])) ∧
        (WellFormed (.aload x) → (tileOk s x.d 0 && sOk s.g x.a 2 && sOk s.g x.b 2 && regsOk s.g [(x.a, 2), (x.b, 2)]) = true →
          fmtBad s.g.fmt = false → pairBad s.g.fmt = false →
          issues (.aload x) (.aload (opIdx x.d - 0x10) (pair x.a) (w x.b 0) (w x.b 1)) (routed s [fmtFa s.g.fmt, fmtFb s.g.fmt])))))

/-- R247, R248, R263, R266, R312: a command that passes its checks enters its sequencer, waiting on the live commands of its team's
context that its two ids name, and its group goes on; one that fails a check is a trap of its group. R25, R287: an emulated
instruction keeps its group suspended at it: its command is accepted as every other is, `Charon` performs it when its turn has come,
or when a predecessor has failed (R247), the engine does not take it meanwhile, and no report is taken in between. R250, R364: a
group that has a report to take before its acceptance takes it first.
The model's choices in it: the whole work of `Charon` on a command is one event (log entries 59 and 131); an `ACHK` keeps its group waiting (log
entry 51); a report goes before the acceptance (log entries 11 and 42). -/
def Obligations.Acceptance : Prop :=
  ∀ (s : State) (gid : Nat) (g : Group) (c : Command), findGroup s gid = some g →
    (∀ i ∈ s.pending, postedBy gid i = false) → (∀ l ∈ (coreAt s (coreNo g)).lines, wroteLine gid l = false) →
    let core := coreNo g
    (g.status = .accepting c → g.reports ≠ [] → exec (.commandAcceptance gid) s = .refused .notEnabled) ∧
    (∀ n, g.status = .waitEmulation { c with serial := n } → n ≠ 0 → exec (.deferredReport gid) s = .refused .notEnabled ∧
      ∀ d, let r : CmdRef := ⟨core, c.team, c.id⟩
        findCmd s r = some d → liveGroup s gid = some g →
        (charonTurn s core d = true → exec (.emulationDone gid) s = .next (performAll r charonMoves s)) ∧
        (charonTurn s core d = false → exec (.emulationDone gid) s = .refused .notEnabled) ∧
        (d.preds ≠ [] → exec (.emulationDone gid) s = .refused .notEnabled) ∧
        (d.emulated = true → d.phase = .waiting → ∀ o, o = .mmaPerformance r ∨ o = .drainPerformance r ∨ o = .aloadPerformance r →
          exec o s = .refused .notEnabled) ∧
        (d.cancelled = true → d.preds = [] → d.phase = .waiting → (∃ p, perform r d s = .next p) →
          (∀ e ∈ (coreAt s core).seq, e.team = c.team → e.id = c.id → e.serial = d.serial) →
          ∃ t, exec (.emulationDone gid) s = .next t ∧ t.mem = s.mem ∧ retired core d t)) ∧
    (mayAccept s g c = true → wider s g.tid c.scope = false →
    (∀ s1, g.status = .accepting c → c.emulated = false → acceptCheck core c s = (.ok, s1) → ∃ t d h, exec (.commandAcceptance gid) s = .next t ∧
      (coreAt t core).seq = (coreAt s1 core).seq ++ [d] ∧ d.kind = c.kind ∧ d.id = c.id ∧ d.phase = c.phase ∧
      (∀ n, n ∈ d.preds ↔ ∃ e ∈ ownSeq s1 core c.team, e.serial = n ∧ (e.id = c.p1 ∨ e.id = c.p2)) ∧
      findGroup t gid = some h ∧ h.pc = g.pc + 12 ∧
      h.status = match c.kind with
        | .achk _ _ => .waitAchk
        | .mma _ _ _ _ _ _ _ _ => .ready
        | _ => if c.yields then .waitCopy c.id else .ready) ∧
    (∀ s1 cause sub addr, g.status = .accepting c → acceptCheck core c s = (.trap cause sub addr, s1) →
      ∃ h, findGroup s1 gid = some h ∧ exec (.commandAcceptance gid) s =
        .next (trapGroup h ⟨cause, sub, addr, 0⟩ h.pc (modGroup gid (fun g => { g with status := .ready }) s1))) ∧
    (∀ s1, liveGroup s gid = some g → g.status = .waitEmulation c → c.serial = 0 → c.emulated = true →
      acceptCheck core c s = (.ok, s1) →
      ∃ u h n, acceptNow gid core c s = .next u ∧ exec (.emulationDone gid) s = .next (emulate ⟨core, c.team, c.id⟩ u) ∧
        findGroup u gid = some h ∧ h.pc = g.pc ∧ h.status = .waitEmulation { c with serial := n }))

/-- R246, R249, R251, R252, R349: what the next row of a `COPY` or `XPOSE` moves, for every direction. A row goes from one page of HBM
or of local store, or from a tile that has been read, to one page of HBM or of local store; to a tile of a handle, in frames or in the
backing range; or to each core that `MASK` names. Element `j` of a row of an `XPOSE` goes to row `j` of the destination. A tile of a
handle is read whole and checked. R249, R251, R253, R312: the end of a copy: an increment where it asks for one, a publication where
it asks for one, then retirement.
The model's choices in it: one row in a step (log entry 49). -/
def Obligations.CopyRows : Prop :=
  ∀ (s : State) (r : CmdRef) (c : Command),
    (∀ b s2, MayMove s r c → rowComes s r c b s2 → b ≠ [] →
      let m := cmdMover r.core c
      let n := (dstShape c.kind).1
      let len := (dstShape c.kind).2.1
      let es := xBytes c.kind
      (∀ a d p q s3 s4, dstSide c.kind = some (.mem a d) → es = 0 →
        let va := rowAt a d c.moved
        onePage va b.length → m.place va .write s2 = (p, s3) → isStore p → m.place va .write s3 = (q, s4) → isStore q →
        ∃ t, exec (.copyExecution r) s = .next t ∧ oneMore r c t ∧ placeTakes q b s4 t) ∧
      (∀ a d (p : Nat → Place) (u v : Nat → State), dstSide c.kind = some (.mem a d) → 0 < es → es * n ≤ b.length → u 0 = s2 →
        (∀ j, j < n →
          let va := rowAt a d j + BitVec.ofNat 64 (es * c.moved)
          onePage va es ∧ m.place va .write (u j) = (p j, v j) ∧ isStore (p j) ∧ u (j + 1) = (writePage m 0 va (elemBytes es b j) (u j)).2) →
        ∃ t, exec (.copyExecution r) s = .next t ∧ oneMore r c t ∧ t.mem = (u n).mem ∧ sameStores (u n) t ∧
          ∀ j, j < n → placeTakes (p j) (elemBytes es b j) (v j) (u (j + 1))) ∧
      (∀ p d, dstSide c.kind = some (.hnd p) → readDesc s2 c.eid (hndId p) = some d →
        let h := hndId p
        let off := fun (e : Nat × Nat × List Byte) => tileStart s2 c.eid p + e.1 * len + e.2.1
        (inFrames (handleOf s2 c.eid h) d = true → ∃ t, exec (.copyExecution r) s = .next t ∧ oneMore r c t ∧ t.mem = s2.mem ∧
          (∀ k, versionByte t c.eid h (!c.shadow) k = versionByte s2 c.eid h (!c.shadow) k) ∧
          (∀ e ∈ pieces c.kind c.moved b, ∀ k, k < e.2.2.length → versionByte t c.eid h c.shadow (off e + k) = nth 0 e.2.2 k) ∧
          (∀ k, (∀ e ∈ pieces c.kind c.moved b, ¬(off e ≤ k ∧ k < off e + e.2.2.length)) →
            versionByte t c.eid h c.shadow k = versionByte s2 c.eid h c.shadow k)) ∧
        (∀ q s3, inFrames (handleOf s2 c.eid h) d = false → d.state ≠ 0 → d.drop = false → es = 0 →
          let va := backAddr d c.shadow + BitVec.ofNat 64 (off (c.moved, 0, b))
          onePage va b.length → (backMover r.core c).place va .write s2 = (q, s3) → isStore q →
          ∃ t, exec (.copyExecution r) s = .next t ∧ oneMore r c t ∧ placeTakes q b s3 t)) ∧
      (∀ o d mask tm, dstSide c.kind = some (.multi o d mask) → findTeam s2 c.team = some tm →
        let ps := pieces c.kind c.moved b
        let lies := fun (e : Nat × Nat × List Byte) (q k a : Nat) => ∃ i core, i < 16 ∧ mask.testBit i = true ∧
          maskCore s2 tm r.core i = some core ∧ multiPlace c s2 tm core (((o : Int) + e.1 * d).toNat + e.2.1) = .loc q a ∧
          a ≤ k ∧ k < a + e.2.2.length
        ∃ t, exec (.copyExecution r) s = .next t ∧ oneMore r c t ∧ t.mem = s2.mem ∧ ∀ q k,
          (∀ (x : Nat) (e : Nat × Nat × List Byte) (a : Nat), ps[x]? = some e → lies e q k a →
            (∀ (y : Nat) (f : Nat × Nat × List Byte) (a' : Nat), x < y → ps[y]? = some f → ¬lies f q k a') →
            Sparse.get 0 k (coreAt t q).store = nth 0 e.2.2 (k - a)) ∧
          ((∀ e a, e ∈ ps → ¬lies e q k a) → Sparse.get 0 k (coreAt t q).store = Sparse.get 0 k (coreAt s2 q).store))) ∧
    (∀ p d, findCmd s r = some c → mayRun s c = true → moving s c = false → awaitsPeer s r = false → (dstSide c.kind).isSome = true →
      srcSide c.kind = some (.hnd p) → c.data = [] → c.part = [] → c.moved = 0 → readDesc s c.eid (hndId p) = some d →
      let k := handleOf s c.eid (hndId p)
      let sh := srcShape c.kind
      let start := fun (i : Nat) => tileStart s c.eid p + i * sh.2.1
      let n := fun (i : Nat) => sh.2.1 + if i + 1 = sh.1 then sh.2.2 else 0
      inFrames k d = true → (∀ i, i < sh.1 → badBlocksIn k k.second (start i) (n i) = false) →
      let rows := (List.range sh.1).map (fun i => (List.range (n i)).map (fun j => versionByte s c.eid (hndId p) k.second (start i + j)))
      ∃ t, exec (.copyExecution r) s = .next t ∧ t.mem = s.mem ∧
        (tileChecks { c with data := rows } = true → ∃ e, e ∈ (coreAt t r.core).seq ∧ e.serial = c.serial ∧ e.data = rows ∧ e.phase = .running) ∧
        (tileChecks { c with data := rows } = false → retired r.core c t)) ∧
    (findCmd s r = some c → c.cancelled = false → c.phase = .running → (dstSide c.kind).isSome = true → (srcShape c.kind).1 ≤ c.moved →
      awaitsPeer s r = false →
      let ap := (copyEnds c.kind).1
      let counts := (copyEnds c.kind).2.1
      (ap = false ∨ writesHandle c = none → ∃ t, exec (.copyCompletion r) s = .next t ∧ retired r.core c t ∧
        (counts = false ∨ s.saved = [] → t.mem = s.mem) ∧
        (counts = false → ∀ k n, ctrAt t k n = ctrAt s k n) ∧
        (∀ tm dst dd q, counts = true → findTeam s c.team = some tm → dstSide c.kind = some (.mem dst dd) →
          (dst.toNat / 2 ^ 56 = 0 ∧ q = r.core) ∨ (dst.toNat / 2 ^ 56 = 0xFF ∧ ∃ la, windowAt tm (dst.toNat % 2 ^ 56) = .loc q la) →
          r.core ∈ tm.cores → gangTeam s tm.launch tm.gang q = some tm →
          let n := 16 * rangeOn tm q + (copyEnds c.kind).2.2
          (ctrAt s q n).val.toNat + 1 < 2 ^ 64 → (ctrAt t q n).val.toNat = (ctrAt s q n).val.toNat + 1)) ∧
      (∀ h, ap = true → counts = false → writesHandle c = some h → shadowPending s c h = false → spoiled s c h = false →
        ∃ t, exec (.copyCompletion r) s = .next t ∧ retired r.core c t ∧ t.mem = s.mem ∧
          (handleOf t c.eid h).second = !(handleOf s c.eid h).second))

/-- R253, R254, R300, R347 to R353: a publication swaps a handle's versions, unless a copy into the shadow accepted before it has
failed or its own increment would saturate (R250); a residency request that the store decides at once retires with its outcome in
`HSTAT`, and one that moves the handle begins the move once nothing that concerns it is in flight. The end of a promotion gives the
handle both versions from its backing range, or every byte zero, and state 2, or abandons it; the end of a demotion writes both
versions there, or drops them, and frees the frames; the command that asked retires. A lease's end.
The model's choices in it: log entries 46, 47, 53 and 122. -/
def Obligations.Handles : Prop :=
  (∀ (s : State) (r : CmdRef) (c : Command) (h note : Word), ready s r c → c.kind = .publish h note → moving s c = false →
    shadowPending s c (h.toNat % 16384) = false → ∃ t, exec (.publishPerformance r) s = .next t ∧ retired r.core c t ∧
      (dCnte note = false ∨ s.saved = [] → t.mem = s.mem) ∧
      let full := dCnte note = true ∧ saturating r.core c (dCntr note) [r.core] s ≠ none
      let before := (handleOf s c.eid (h.toNat % 16384)).second
      (spoiled s c (h.toNat % 16384) = true ∨ full → (handleOf t c.eid (h.toNat % 16384)).second = before) ∧
      (spoiled s c (h.toNat % 16384) = false → ¬full → (handleOf t c.eid (h.toNat % 16384)).second = !before)) ∧
  (∀ (s : State) (r : CmdRef) (c : Command) (hw r0 r1 : Word) (d : Desc), ready s r c → c.kind = .resv hw r0 r1 → c.phase = .waiting →
    let h := hw.toNat % 16384
    let ask := r0.toNat % 4
    readDesc s c.eid h = some d → (handleOf s c.eid h).move = .none →
    (∀ out, (ask = 0 ∧ d.state = 2 ∧ out = 2) ∨ (ask = 1 ∧ (d.kind = 2 ∨ leaseHolds s d = true) ∧ out = 4) ∨
        (ask = 1 ∧ d.kind ≠ 2 ∧ leaseHolds s d = false ∧ d.state ≠ 2 ∧ out = 2) →
      ∃ t, exec (.resvDecision r) s = .next t ∧ retired r.core c t ∧
        ∀ pa, dCnte r0 = false → mappedAt s c.eid (descAddr s c.eid h + 4) = some pa → memRead t pa 4 = leBytes 4 (d.state + 16 * out)) ∧
    (ask = 2 → ∃ t, exec (.resvDecision r) s = .next t ∧ retired r.core c t) ∧
    (handleBusy s c.eid h = false →
      (ask = 1 → d.kind = 0 → d.state = 2 → ∃ t, exec (.resvDecision r) s = .next t ∧
        (handleOf t c.eid h).move = .demote ∧ (handleOf t c.eid h).asker = some r) ∧
      (∀ fs, ask = 0 → d.state ≠ 2 → ¬((s.phase = 3 ∨ s.phase = 4) ∧ d.prot ≠ 0) →
        (candidates s d).any (fun k => handleBusy s (k / 16384) (k % 16384)) = false →
        let u := keepLength c.eid h r1.toNat s
        2 * frameCount d ≤ (freeFrames u d).length → placeBoth u d h = some fs → ∃ t, exec (.resvDecision r) s = .next t ∧
          (handleOf t c.eid h).move = .promote ∧ (handleOf t c.eid h).frames = fs ∧ (handleOf t c.eid h).asker = some r))) ∧
  (∀ (s : State) (eid h : Nat) (d : Desc), readDesc s eid h = some d →
    let k := handleOf s eid h
    (k.move ≠ .none → ∃ t, exec (.handleMoveDone eid h) s = .next t ∧
      (handleOf t eid h).move = .none ∧
      (∀ r c hw r0 r1, k.asker = some r → findCmd s r = some c → c.kind = .resv hw r0 r1 → retired r.core c t) ∧
      (k.asker = none ∨ s.saved = [] →
        let leaves := fun (u : State) (hstat : Nat) => ∀ pa, mappedAt u eid (descAddr u eid h + 4) = some pa →
          ∀ a, memByte t a = if pa ≤ a ∧ a < pa + 4 then nth 0 (leBytes 4 hstat) (a - pa) else memByte u a
        let version := fun (b : Bool) => (List.range (versionLen d)).map (versionByte s eid h b)
        (k.move = .promote →
          (d.drop = true → (∀ b j, versionByte t eid h b j = 0) ∧ (handleOf t eid h).frames = k.frames ∧ leaves s (2 + 16 * 1)) ∧
          (∀ v0 v1 u, d.drop = false → fillVersions eid d s = (some (v0, v1), u) →
            (∀ j, versionByte t eid h false j = nth 0 v0 j ∧ versionByte t eid h true j = nth 0 v1 j) ∧
            (handleOf t eid h).frames = k.frames ∧ leaves u (2 + 16 * 1)) ∧
          (∀ u, d.drop = false → fillVersions eid d s = (none, u) → (handleOf t eid h).frames = [] ∧ leaves u (1 + 16 * 5))) ∧
        (k.move = .demote →
          (handleOf t eid h).frames = [] ∧ (∀ b j, versionByte t eid h b j = 0) ∧
          (d.drop = true → leaves s (0 + 16 * 1)) ∧
          (d.drop = false →
            let u := (writeVa eid (backAddr d false) (version false) 0 s).2
            leaves (writeVa eid (backAddr d true) (version true) 0 u).2 (1 + 16 * 1))))) ∧
    (d.kind = 1 → d.lease ≤ nowUs s → exec (.handleLeaseEnd eid h) s = .next s))

/-- R32 to R35, R260: residue words. A word is sound after an addition, and holds the sum; the word of a number is the number again. -/
def Obligations.Residues : Prop :=
  (∀ (w : Word) (v : Int), corrupt w = false → corrupt (residueAdd w v) = false ∧
    (crt (residueAdd w v) - (crt w + v)) % 1073740800 = 0 ∧
    -536870400 ≤ crt (residueAdd w v) ∧ crt (residueAdd w v) < 536870400) ∧
  (∀ v : Int, -536870400 ≤ v → v < 536870400 → crt (residueAdd 0 v) = v) ∧ corrupt 0 = false ∧ crt 0 = 0

/-- R35, R257, R259, R260, R267, R279: an octet operation of narrow formats in hardware adds to each element of its block the product of a
row of A and a column of B; where it opens a span it latches the span's scales, and where it fills one it converts the block. R269:
at `JORD` = 1 tile t takes AB, and tile t + 1 takes A′B and AB′. R36: an octet operation of FP16 or BF16 adds its products to the
carry words in runs of 16, each rounded once.
The model's choices in it: octets perform one at a time (log entry 58). -/
def Obligations.MatrixProduct : Prop :=
  ∀ (s : State) (r : CmdRef) (c : Command) (tile j : Nat) (rows : Sparse Word) (octets : List Nat) (ex : DWord) (b bt : List Word)
    (sc : Option (List Word)) (latch : Option ALatch), ready s r c → c.kind = .mma tile rows octets ex b bt sc latch →
    tileReady s r.core c = true → c.phase = .running → octets[c.moved]? = some j → hasOwner s c →
    let p := cmdTile s r.core c tile
    let q := cmdTile s r.core c (tile + 1)
    let t0 := tileAt s r.core p
    let fa := fmtFa c.fmt
    let fb := fmtFb c.fmt
    let k := kOf fa
    let blk := (j + bRbb b) % 8
    let a := fun (off i : Nat) => aBytes rows ex (8 * j + i) off
    let sclA := fun (t : Tile) i => Sparse.get 0 (8 * blk + i) t.sclA
    let sclB := fun (t : Tile) l => Sparse.get 0 (128 * blk + l) t.sclB
    (isNarrow fa = true → isEmulated fa = false → isEmulated fb = false → TakesNarrow c.fmt blk t0 → 0 < k →
      (c.jord = 0 → sc = none ∨ kposOf t0 blk ≠ 0 → ∃ u, exec (.mmaPerformance r) s = .next u ∧
        narrowTakes c.fmt blk k (fun i l => dotInt fa fb k (a 0 i) (c.data.take k) l) (sclA t0) (sclB t0) t0 (tileAt u r.core p)) ∧
      (∀ n v, c.jord = 0 → sc = some n → kposOf t0 blk = 0 → (readScales r.core c n blk (sidxOf t0 blk) s).1 = .inl v →
        v.length = 136 ∧ ∃ u, exec (.mmaPerformance r) s = .next u ∧
          narrowTakes c.fmt blk k (fun i l => dotInt fa fb k (a 0 i) (c.data.take k) l) (nth 0 v) (fun l => nth 0 v (8 + l)) t0
            (tileAt u r.core p)) ∧
      (c.jord = 1 → p ≠ q → TakesNarrow c.fmt blk (tileAt s r.core q) →
        sc = none ∨ (kposOf t0 blk ≠ 0 ∧ kposOf (tileAt s r.core q) blk ≠ 0) → ∃ u, exec (.mmaPerformance r) s = .next u ∧
        narrowTakes c.fmt blk k (fun i l => dotInt fa fb k (a 0 i) (c.data.take k) l) (sclA t0) (sclB t0) t0 (tileAt u r.core p) ∧
        let t1 := tileAt s r.core q
        narrowTakes c.fmt blk k (fun i l => dotInt fa fb k (a 16 i) (c.data.take k) l + dotInt fa fb k (a 0 i) (c.data.drop k) l)
          (sclA t1) (sclB t1) t1 (tileAt u r.core q))) ∧
    (fa = 1 ∨ fa = 2 → fb = 1 ∨ fb = 2 → c.jord = 0 → isBad t0 = false → t0.kind = 2 → latchAgrees c.fmt t0 = true →
      (∀ m ∈ t0.badCarry, m / 1024 ≠ blk) → k ≤ c.data.length → ∃ u, exec (.mmaPerformance r) s = .next u ∧
        let t := tileAt u r.core p
        let zero : FV := (.num false 0 1 0, 0)
        (∀ i l, i < 8 → l < 128 →
          let prod := fun (m : Nat) => mulV (nth zero (floatElems fa c.fmt 0 (a 0 i)) m) (nth zero (floatElems fb c.fmt 0 (nth [] c.data m)) l)
          let key := 1024 * blk + 128 * i + l
          Sparse.get 0 key t.carry = BitVec.ofNat 32 ((List.range (k / 16)).foldl (fun w run =>
            (roundFV fp32 0 (fmtSat c.fmt) false
              (((List.range 16).map (fun m => prod (16 * run + m))).foldl (addV 0) (source fp32 false w))).1)
            (Sparse.get 0 key t0.carry).toNat)) ∧
        (∀ key, key / 1024 ≠ blk → Sparse.get 0 key t.carry = Sparse.get 0 key t0.carry) ∧ t.resid = t0.resid ∧
        kposOf t blk = (kposOf t0 blk + k) % 8192)

/-- R262, R279, R281, R283 to R286: what the engine does with a tile for the other commands: `MMAZ` empties it, `ACHK` writes its status,
`DRAIN` takes its rows and at its end empties it unless `KEEP` is set or its increment fails, `ALOAD` rebuilds it; an `MMA` in
which no octet executes retires. R22, R30, R37, R38, R256, R283: the rows of a drain from a tile that needs no conversion, with a
trailer that passes its check. R286: the tile that the rows of an `ALOAD` give.
The model's choices in it: log entry 58. -/
def Obligations.TileCommands : Prop :=
  (∀ (s : State) (r : CmdRef) (c : Command), ready s r c → tileReady s r.core c = true →
    let at_ := fun (u : State) (n : Nat) => tileAt u r.core (cmdTile s r.core c n)
    (∀ tile rows ex b bt sc l, c.kind = .mma tile rows [] ex b bt sc l → forCharon s r = false →
      ∃ u, exec (.mmaPerformance r) s = .next u ∧ retired r.core c u ∧ u.mem = s.mem) ∧
    (∀ tile, c.kind = .mmaz tile → ∃ u, exec (.mmazPerformance r) s = .next u ∧ retired r.core c u ∧ at_ u tile = Tile.empty) ∧
    (∀ d tile, c.kind = .achk d tile → isBad (at_ s tile) = false → checkTile (at_ s tile) = none → (at_ s tile).badCarry = [] →
      hasOwner s c → ∃ u h, exec (.achkPerformance r) s = .next u ∧ retired r.core c u ∧ at_ u tile = at_ s tile ∧
        findGroup u c.group = some h ∧ sGet h d.toNat = (at_ s tile).mstat) ∧
    (∀ dst tile e0 e1, c.kind = .drain dst tile e0 e1 → moving s c = false → awaitsPeer s r = false → forCharon s r = false →
      (c.phase = .waiting → (takeDrain c e1 (at_ s tile)).fail = none → ∃ u d, exec (.drainPerformance r) s = .next u ∧
        d ∈ (coreAt u r.core).seq ∧ d.serial = c.serial ∧ d.phase = .running ∧ d.data = (takeDrain c e1 (at_ s tile)).rows ∧
        u.mem = s.mem) ∧
      (c.phase = .running → c.data.length = 64 → c.moved = 64 → dAp e1 = false → hasOwner s c →
        (∃ tm, findTeam s c.team = some tm ∧ r.core ∈ tm.cores) →
        let full := dCnte e1 = true ∧ saturating r.core c (dCntr e1) [r.core] s ≠ none
        ∃ u, exec (.drainPerformance r) s = .next u ∧ retired r.core c u ∧ u.mem = s.mem ∧
          (e1.getLsbD 27 = true ∨ full → at_ u tile = at_ s tile) ∧
          (e1.getLsbD 27 = false → ¬full → at_ u tile = { Tile.empty with mstat := (at_ s tile).mstat }))) ∧
    (∀ tile src e0 e1, c.kind = .aload tile src e0 e1 → forCharon s r = false → awaitsPeer s r = false → c.data.length = 64 → hasOwner s c →
      ∃ u, exec (.aloadPerformance r) s = .next u ∧ retired r.core c u ∧ u.mem = s.mem ∧
        at_ u tile = aloadTile c.serial c.fmt (aloadCode e1) c.data)) ∧
  (∀ (c : Command) (e1 : Word) (t : Tile), isBad t = false → t.badCarry = [] →
    (∀ b, b < 8 → checkBlock t b = none ∧ (t.kind = 1 → kposOf t b = 0)) →
    let d := takeDrain c e1 t
    let fd := fmtFd c.fmt
    let m := fmtRm c.fmt
    let value := fun i col => drainValue e1 (Sparse.get 0 (128 * i + col) t.carry)
    let elem := fun i col => drainElem c.fmt 0 e1 (Sparse.get 0 (128 * i + col) t.carry)
    d.fail = none ∧ d.rows.length = 64 ∧ { d.tile with mstat := t.mstat } = t ∧
    (fd = 7 → d.tile = t ∧ ∀ i, i < 64 → nth [] d.rows i = (List.range 128).flatMap (fun col =>
      bytesOf (Sparse.get 0 (128 * i + col) t.resid) ++ bytesOf (Sparse.get 0 (128 * i + col) t.carry))) ∧
    (fd ≤ 6 →
      (∀ i col, i < 64 → col < 128 →
        leNat ((nth [] d.rows i).take (rowLen fd)) / 2 ^ (fmtBits fd * col) % 2 ^ fmtBits fd = (elem i col).1 ∧
        (∀ neg n q e, unpack fp32 (Sparse.get 0 (128 * i + col) t.carry).toNat = .num neg n q e →
          value i col = .num neg n q (e + patternVal true 8 (bitsAt e1.toNat 15 8))) ∧
        (fd = 0 → elem i col = roundFV fp32 m (fmtSat c.fmt) (fmtFzo c.fmt 0) (value i col, 0)) ∧
        (fd = 1 → elem i col = roundFV fp16 m (fmtSat c.fmt) (fmtFzo c.fmt 1) (value i col, 0)) ∧
        (fd = 2 → elem i col = roundFV bf16 m (fmtSat c.fmt) (fmtFzo c.fmt 2) (value i col, 0)) ∧
        (2 < fd →
          let low : Int := if fd = 3 then -127 else if fd = 4 then -7 else if fd = 5 then 0 else -2147483648
          let high : Int := if fd = 3 then 127 else if fd = 4 then 7 else if fd = 5 then 255 else 2147483647
          let r : Int := (elem i col).1
          let read := if fd = 5 ∨ r < 2 ^ (fmtBits fd - 1) then r else r - 2 ^ fmtBits fd
          (value i col = .nan → read = 0 ∧ (elem i col).2 = flagInvalid) ∧
          (∀ neg, value i col = .inf neg → read = (if neg then low else high) ∧ (elem i col).2 = flagInvalid) ∧
          (∀ neg n q e, value i col = .num neg n q e →
            let v : Int := if neg then -(roundAt m neg n q e 0).1 else (roundAt m neg n q e 0).1
            read = max low (min high v) ∧
            (elem i col).2 = if read ≠ v then flagInvalid else if (roundAt m neg n q e 0).2 then flagInexact else 0))) ∧
      (∀ n, d.tile.mstat.getLsbD n = true ↔
        (t.mstat.getLsbD n = true ∨ ∃ i col, i < 64 ∧ col < 128 ∧ (elem i col).2.getLsbD n = true)) ∧
      (∀ i, i < 63 → (nth [] d.rows i).length = rowLen fd) ∧
      (nth [] d.rows 63).length = rowLen fd + (if fd = 3 ∨ fd = 4 ∨ fd = 5 then 16 else 0) ∧
      (fd = 3 ∨ fd = 4 ∨ fd = 5 → trailerOk d.rows.flatten fd 64 128 = true))) ∧
  (∀ (n code : Nat) (f : DWord) (rows : List (List Byte)), rows.length = 64 → code ≤ 2 → (∀ b ∈ rows, b.length = rowLen code) →
    let t := aloadTile n f code rows
    let w := if code = 0 then 4 else 2
    let src := if code = 0 then fp32 else if code = 1 then fp16 else bf16
    let x := fun i col => leNat (((nth [] rows i).drop (w * col)).take w)
    { t with carry := [], mstat := 0 } = { Tile.empty with
      kind := if isNarrow (fmtFa f) then 1 else 2, lfa := BitVec.ofNat 4 (fmtFa f), lfb := BitVec.ofNat 4 (fmtFb f)
      lfs := BitVec.ofNat 2 (fmtFs f), lspan := BitVec.ofNat 3 (fmtSpan f), filled := n } ∧
    (∀ i col, i < 64 → col < 128 → (Sparse.get 0 (128 * i + col) t.carry).toNat =
      (roundFV fp32 0 false false (source src (fmtFzi f src.bit) (x i col))).1) ∧
    ((∃ i col, i < 64 ∧ col < 128 ∧ isSNaN src (x i col) = true) → t.mstat = flagInvalid.zeroExtend 32) ∧
    ((∀ i col, i < 64 → col < 128 → isSNaN src (x i col) = false) → t.mstat = 0))

/-! ### Decoding and steps -/

/-- R97, R99 to R104, R112, R113: the word of a well-formed instruction decodes to it, whatever stands in memory after it. -/
def Obligations.EncodeThenDecode : Prop :=
  ∀ (i : Instr) (w : IWord) (rest : List Byte), WellFormed i → encode i = some w → decodeBytes (leBytes 12 w.toNat ++ rest) = .instr i

/-- R97, R99 to R104, R112, R113: bytes that decode to an instruction are its word, so that no two words mean the same instruction and
no bit of a word is left unread. -/
def Obligations.DecodeThenEncode : Prop :=
  ∀ (b : List Byte) (i : Instr), decodeBytes b = .instr i → WellFormed i ∧ 12 ≤ b.length ∧
    ∃ w, encode i = some w ∧ leBytes 12 w.toNat = b.take 12

/-- R97 to R116: words of the manual's examples decode to the instructions they stand for, and words that are none are refused by
name. -/
def Obligations.DecodeExamples : Prop :=
  let x : Fields := ⟨⟨false, 7⟩, ⟨false, 7⟩, false, false, 0, 0, .v 0, .v 0, .v 0, .v 0, 0, 0⟩
  decodeTableWord 96 0x0D0077000000000000000000 = some (.nop x) ∧
  decodeTableWord 96 0x10061A000100803000000000 =
    some (.iadd .wrap .i32 { x with g1 := ⟨false, 1⟩, g2 := ⟨true, 2⟩, d := .v 4, a := .v 8, b := .v 12 }) ∧
  decodeTableWord 96 0x020017000000000006000002 = some (.brd { x with g1 := ⟨false, 1⟩, c := .v 6, imm := 2 }) ∧
  decodeTableWord 96 0x430037010200C04014000000 =
    some (.ffma .plain .f32 { x with g1 := ⟨false, 3⟩, md := 1, d := .v 8, a := .v 12, b := .v 16, c := .v 20 }) ∧
  decodeTableWord 96 0x800077030110803000400000 = some (.ld .f32 { x with md := 3, d := .v 4, a := .s 8, b := .v 12, e := 0x40 }) ∧
  decodeTableWord 96 0xB01077834511046000010000 = some (.copy .g2h { x with u := true, md := 3, d := .s 20, a := .s 16, b := .s 24, e := 1 }) ∧
  decodeTableWord 96 0xC0007740848204210C050300 =
    some (.mma { x with ru := true, d := .sp 0x12, a := .v 32, b := .s 8, c := .s 12, e := 5, imm := 0x300 }) ∧
  decodeTableWord 96 0xD00077000011401807190000 = some (.sacc { x with a := .s 20, b := .v 6, c := .v 7, e := 0x19 }) ∧
  decodeBytes (leBytes 12 (0xFF * 2 ^ 88)) = .rejected .pool ∧ decodeBytes (leBytes 12 0) = .rejected .opcode ∧
  decodeBytes (leBytes 12 0x0D0077000000000000000001) = .rejected .field ∧ decodeBytes (leBytes 11 0) = .rejected .short

/-- R64, R98, R113, R116, R117: the step of the running group fetches the twelve bytes at its pc and runs the instruction that they
decode to, from memory or from the core's instruction cache (R203, R213); what is no instruction takes the trap of R113. The step of
an engine, a walker or the host runs it at once. What a full log (R429) or a bus in training (R358) holds back leaves the state as
it was. After either, time passes and the next agent is chosen, and nothing else changes; no time is passed over at which something
falls due (R322). A group whose team has stopped issues to the end of its pass (R324).
The model's choices in it: the choice of the next agent and the time that passes (log entries 6, 7 and 80), and what crosses a bus
(log entry 115). -/
def Obligations.StepRunsDecoded : Prop :=
  (∀ s : State, s.turn = .group → s.g.status = .ready →
    let now := setG { s.g with yielded := false } s
    let after := fun (o : Host.Outcome State Fault Refusal) => match o with
      | .next u => .next (settle 1 (stopPoint s.g.tid (issued s.g.gid (coreNo s.g) s.g.lane
          (if logStalled s u || busHeld s u (some s.g.die) [] then s else u))))
      | o => o
    (∀ b t i, fetch now = (.bytes b, t) → decodeBytes b = .instr i → step s = after (exec i t)) ∧
    (∀ b t, fetch now = (.bytes b, t) → decodeBytes b = .rejected .pool → step s = after (exec .executeDataTrap t)) ∧
    (∀ b t, fetch now = (.bytes b, t) → decodeBytes b = .rejected .opcode ∨ decodeBytes b = .rejected .field →
      step s = after (exec .illegalInstruction t)) ∧
    (∀ l, findLaunch s s.g.launch = some l →
      (slotExec l.kernel s.g.pc = false → step s = after (exec .executeDataTrap now)) ∧
      (∀ t pa, slotExec l.kernel s.g.pc = true → s.g.pc.toNat % 65536 ≤ 65524 → fetchAt now.g s.g.pc now = (.mem pa, t) →
        let cached := fun (line : Nat) => (coreAt t (coreNo s.g)).icache.find? (fun l => l.eid == s.g.eid && l.line == line)
        ((∀ line, line = pa / 64 ∨ line = (pa + 11) / 64 → cached line = none ∧ memError t (64 * line) 64 = none) →
          ∃ u, fetch now = (.bytes (memRead t pa 12), u) ∧ u = { t with cores := u.cores, log := u.log }) ∧
        (∀ l, pa % 64 ≤ 52 → cached (pa / 64) = some l → fetch now = (.bytes ((l.bytes.drop (pa % 64)).take 12), t))) ∧
      (∀ t cause sub, slotExec l.kernel s.g.pc = true → fetchAt now.g s.g.pc now = (.bad cause sub, t) →
        step s = after (.next (takeTrap ⟨cause, sub, some t.g.pc, 0⟩ t))))) ∧
  (∀ s : State, exec .illegalInstruction s = .next (takeTrap ⟨0x01, 0, none, 0⟩ s) ∧
    exec .executeDataTrap s = .next (takeTrap ⟨0x03, 0, some s.g.pc, 0⟩ s)) ∧
  (∀ (s : State) (i : Instr), s.turn = .event i → step s = match exec i { s with pending := s.pending.erase i } with
      | .next u => .next (settle (if instant i then 0 else 1)
          (if logStalled s u || busHeld s u (dieOf s i) (messageDies s i) then s else u))
      | o => o) ∧
  (∀ (s u : State) (own : Option Nat) (l : List Nat),
    ((∀ b ∈ s.buses, b.2.running = false) → busHeld s u own l = false) ∧
    (∀ d b, (d, b) ∈ s.buses → b.running = true → (Sparse.get Bus.reset d u.buses).running = true →
      d ∈ l ∨ (own = some d ∧ u.traffic ≠ s.traffic) → busHeld s u own l = true)) ∧
  ∀ (n : Nat) (u : State), let t := settle n u
    t = { u with turn := t.turn, g := t.g, others := t.others, ctr := t.ctr, ac := t.ac, sc := t.sc } ∧ u.ac + n ≤ t.ac ∧
    (∀ d ∈ dueTimes (reschedule (pass n u)), u.ac + n < d → t.ac < d) ∧
    ∀ gid g, gid ≠ 0 → findGroup u gid = some g → ∃ h, findGroup t gid = some h ∧ h = { g with waitingSince := h.waitingSince }

/-- R49, R205, R209, R342, R370, R424, R433, R435: the machine after reset. No engagement is live and no group runs; the registers with a
reset value hold it. That memory reads as zero is the model's choice, and that the rest is zero too. The invariant holds.
The model's choices in it: log entries 1 and 2. -/
def Obligations.ResetState : Prop :=
  let s := State.reset
  Safety.Inv s ∧ s.phase = 0 ∧ s.ac = 0 ∧ s.sc = 0 ∧ (∀ eid, (engOf s eid).st = .free) ∧ (∀ g ∈ allGroups s, isOver g = true) ∧
  (∀ a, memByte s a = 0) ∧ (∀ c, coreAt s c = Core.reset ∧ (coreAt s c).localUnits = 0 ∧ (coreAt s c).lease = 64 ∧ (coreAt s c).age = 16) ∧
  (∀ sl w, (wgOf s sl w).clsm = 0xFFFF ∧ (wgOf s sl w).role = 0 ∧ (wgOf s sl w).busy = false) ∧
  (s.ageth, s.w2, s.w1, s.w0) = (64, 12, 2, 2) ∧ (s.capw, s.pstep, s.ttrip) = (2400, 0, 115) ∧ s.conns = [] ∧ s.linkUp = false

/-- Every step keeps the invariant: memory stays in its one canonical form, and the start-up phase, the clock step, the power cap and the
rollback fuses within the ranges of R433, R435 and R431.
The model's choices in it: the canonical form of memory is the model's own. -/
def Obligations.StepKeepsInv : Prop :=
  ∀ s t : State, Safety.Inv s → step s = .next t → Safety.Inv t

/-! ### Launches -/

/-- R187, R374 to R377: `LAUNCH` needs the launch permission and an aligned record, in local store or in global memory, and offers it to
its queue; `SUBMIT` does the same for the host. A record that passes R376 joins its queue with the next sequence number; a full queue answers 1, a record that
fails 2.
The model's choices in it: when a queue is full (log entry 61), and the answer to `SUBMIT` (85). -/
def Obligations.LaunchRecords : Prop :=
  (∀ (x : Fields) (s : State) (d a : BitVec 8), WellFormed (.launch x) → x.d = .s d → x.a = .s a → d.toNat ≤ 63 → a.toNat % 2 = 0 →
    a.toNat ≤ 62 → d.toNat / 2 ≠ a.toNat / 2 →
    let onward := setG { s.g with pc := s.g.pc + 12, ridx := 0, readTime := 0, midway := false } s
    let va := sGet s.g (a.toNat + 1) ++ sGet s.g a.toNat
    ((∀ l, findLaunch s s.g.launch = some l → l.record.lp = false) → exec (.launch x) s = trapped (wordTrap 0x04) s) ∧
    (∀ l, findLaunch s s.g.launch = some l → l.record.lp = true →
      (holdsQ s.g x = false → exec (.launch x) s = .next onward) ∧
      (holdsQ s.g x = true → va.toNat % 64 ≠ 0 → exec (.launch x) s = trapped ⟨0x0B, 0, some va, 0⟩ s) ∧
      (∀ b, holdsQ s.g x = true → va.toNat % 64 = 0 → allQuiet s s.g.gid →
        ((∃ c p, resolve s.g va 64 .read false s = (.loc c p, s) ∧ localError s c p 64 = false ∧ b = localRead s c p 64) ∨
          (∃ pa, resolve s.g va 64 .read false s = (.mem pa, s) ∧ findLine (coreAt s (coreNo s.g)) (pa / 64) s.g.eid = none ∧
            memError s pa 64 = none ∧ b = memRead s pa 64) ∨
          ((resolve s.g va 64 .read false s).1 = .zero ∧ b = List.replicate 64 0)) →
        let r := recordOf b
        ∃ t, exec (.launch x) s = .next t ∧ t.mem = s.mem ∧ t.g.pc = s.g.pc + 12 ∧
          (∀ k, kernelOf s r = some k → recordOk s b r k (some l) = true →
            (s.launches.filter (fun l => inQueue l && l.record.prio == r.prio)).length < 1024 → ∃ n, t.launches = s.launches ++ [n] ∧
            n.seq = s.nextSeq ∧ n.record = r ∧ n.kernel = k ∧ n.phase = .queued ∧ n.nextGang = 0 ∧ n.placed = [] ∧
            n.deps = (if r.after = 0 then [] else [r.after]) ∧
            t.nextSeq = s.nextSeq + 1 ∧ sGet t.g d.toNat = BitVec.ofNat 32 (256 * (s.nextSeq % 2 ^ 24))) ∧
          (∀ k, kernelOf s r = some k → recordOk s b r k (some l) = true →
            1024 ≤ (s.launches.filter (fun l => inQueue l && l.record.prio == r.prio)).length →
            t.launches = s.launches ∧ sGet t.g d.toNat = 1) ∧
          ((∀ k, kernelOf s r = some k → recordOk s b r k (some l) = false) → t.launches = s.launches ∧ sGet t.g d.toNat = 2)))) ∧
  (∀ (m : Msg) (s : State) (eid : Nat), engReq s m 0x01 eid → m.arg = 0 → m.len.toNat = 64 → m.payload.length = 64 →
    (recordOf m.payload).eng = eid → ∀ k, kernelOf s (recordOf m.payload) = some k →
    (recordOk s m.payload (recordOf m.payload) k none = true →
      (s.launches.filter (fun l => inQueue l && l.record.prio == (recordOf m.payload).prio)).length < 1024 →
      ∃ t n, exec (.submit m) s = .next t ∧ answered m 0 (leBytes 4 (256 * (s.nextSeq % 2 ^ 24))) t ∧ t.launches = s.launches ++ [n] ∧
        n.seq = s.nextSeq ∧ n.record = recordOf m.payload ∧ n.phase = .queued ∧ t.nextSeq = s.nextSeq + 1 ∧ t.mem = s.mem) ∧
    (recordOk s m.payload (recordOf m.payload) k none = true →
      1024 ≤ (s.launches.filter (fun l => inQueue l && l.record.prio == (recordOf m.payload).prio)).length →
      ∃ t, exec (.submit m) s = .next t ∧ answered m 0 (leBytes 4 1) t ∧ t.launches = s.launches ∧ t.nextSeq = s.nextSeq ∧ t.mem = s.mem) ∧
    (recordOk s m.payload (recordOf m.payload) k none = false →
      ∃ t, exec (.submit m) s = .next t ∧ answered m 0 (leBytes 4 2) t ∧ t.launches = s.launches))

/-- R207, R221, R230, R237, R312: an acknowledgement returns; the split of a core's local store begins to change, and has changed; a
translation invalidation ends, once no access through an old translation is under way to a peer, and its request is answered.
The model's choices in it: the dispatcher changes a split only for a launch that waits for it (log entry 63). -/
def Obligations.CoreResponses : Prop :=
  (∀ (s : State) (a : OutAcc) (w : Nat), s.accs.find? (fun b => b.id == a.id) = some a → a.kind = .ack w → a.group ≠ 0 →
    ∃ t, exec (.memoryResponse a.id) s = .next t ∧ t.mem = s.mem ∧ t.accs = s.accs.filter (fun b => b.id != a.id) ∧
      (∀ g, findGroup t a.group = some g → w ≤ g.gwts) ∧
      (∀ tm, findTeam s a.team = some tm → teamOver s a.team = false → ∃ u, findTeam t a.team = some u ∧
        u = { tm with outstanding := tm.outstanding - 1 })) ∧
  (∀ (s : State) (core units : Nat), mayChange s core units = true →
    (∃ l ∈ s.launches, l.record.lsplit = units ∧ core ∈ splitWanted s l) → ∃ t, exec (.splitChange core units) s = .next t ∧
      t = { s with cores := t.cores } ∧ coreAt t core = { coreAt s core with chg := true, splitTo := some units } ∧
      ∀ c, c ≠ core → coreAt t c = coreAt s c) ∧
  (∀ (s : State) (core n : Nat), (coreAt s core).splitTo = some n →
    let k := (coreAt s core).localUnits
    (∀ e ∈ allCommands s, copyInto s core (min n k) (max n k) e = false) → ∃ t, exec (.splitChangeDone core) s = .next t ∧
      (coreAt t core).localUnits = n ∧ (coreAt t core).chg = false ∧ (coreAt t core).splitTo = none ∧
      (k < n → (coreAt t core).lines = []) ∧
      ∀ a, Sparse.get 0 a (coreAt t core).store = if 65536 * min n k ≤ a ∧ a < 65536 * max n k then 0 else Sparse.get 0 a (coreAt s core).store) ∧
  (∀ (s : State) (eid len : Nat) (va : DWord) (o : Owed), s.owed.find? (fun o => o.wait == .invalidate eid va len) = some o →
    ((∃ a ∈ s.accs, peerUses s eid va len a = true) → exec (.translationInvalidateDone eid va len) s = .refused .notEnabled) ∧
    ((∀ a ∈ s.accs, peerUses s eid va len a = false) → ∃ t l, exec (.translationInvalidateDone eid va len) s = .next t ∧ t.out = .answer o.conn o.tag 0 0 0 [] :: l ∧
      t.owed = s.owed.erase o ∧ (∀ e ∈ t.walkers, ∀ w ∈ e.2, walkIn eid va len w = false) ∧ ∀ c,
        (∀ e ∈ (coreAt t c).tlb ++ Sparse.get [] c t.clusterTlbs ++ Sparse.get [] c t.dieTlbs, tlbIn eid va len e = false) ∧
        ∀ e ∈ (coreAt t c).lines, lineIn eid va len e = false))

/-- R49, R315, R318, R374, R378, R379, R386: the next gang of the launch that comes first is placed: each of its groups begins with
every strand live, its parameter in s0 and s1, every other register zero, at the kernel's entry; a saved gang comes back with the
registers that its areas hold, on the die that the same rule chooses. A launch completes with its status, at once when its `DONE`
add needs no peer (R381), else when the peer has answered it.
The model's choices in it: log entries 62, 64, 65, 66, 109 and 132. -/
def Obligations.Placement : Prop :=
  (∀ (s : State) (l : Launch) (gang : Option SavedGang) (p : Plan) (d : List Int), findLaunch s l.seq = some l →
    readyPlan s l = some ⟨gang, p, d⟩ →
    (∀ k ∈ s.launches, placeKey s k < placeKey s l → goesBefore s k (planCores p) = false) →
    (gang = none → s.held = [] → ∃ t m, exec (.gangPlacement l.seq) s = .next t ∧ t.mem = s.mem ∧ findLaunch t l.seq = some m ∧
      m.nextGang = nextOf l + 1 ∧ m.deficits = d ∧ (∃ a, m.placed = l.placed ++ [a] ∧ a.gang = nextOf l ∧ a.half0 = p.half0 ∧ a.half1 = p.half1) ∧
      ∀ k n, k < p.seats.length → n < l.ngroups → ∃ g ∈ t.others, g.launch = l.seq ∧ g.gang = nextOf l ∧
        g.teamNo = k + nextOf l * l.nteams ∧ g.grp = n ∧ g.eid = l.record.eng ∧ g.width = l.kernel.width ∧ g.status = .ready ∧
        g.pc = l.kernel.base + BitVec.ofNat 64 (12 * l.kernel.entry) ∧ g.active = g.live ∧
        (∀ i, g.live.getLsbD i = decide (i < widthOf g)) ∧ sGet g 0 = l.record.param.extractLsb' 0 32 ∧
        sGet g 1 = l.record.param.extractLsb' 32 32 ∧ (∀ r, 2 ≤ r → sGet g r = 0) ∧ (∀ i r, vGet g i r = 0) ∧
        (∀ i r, r < 7 → pGet g i r = false) ∧ g.q = 0 ∧ g.fmt = 0 ∧ g.jord = 0 ∧ g.jx = 0 ∧ g.role = 0 ∧ g.xblk = 0 ∧ g.ridx = 0 ∧ g.stack = [] ∧ g.tcause = 0) ∧
    (∀ v, gang = some v → v.held = [] →
      (∀ c ∈ planCores p, ∀ n ∈ (coreAt s c).lines, n.dirty = 0 ∨ ∀ w ∈ v.teams, n.eid ≠ w.team.eid) →
      let got := readTeams v.teams { s with
        reservation := s.reservation.filter (fun r => r.launch != l.seq || r.gang != v.gang.gang)
        saved := s.saved.filter (fun w => !(w.launch == v.launch && w.gang.gang == v.gang.gang)) }
      ((∀ w ∈ v.teams, w.areas = []) → got.1 = v.teams ∧ got.2.mem = s.mem) ∧
      ∃ t m, exec (.gangPlacement l.seq) s = .next t ∧ t.mem = got.2.mem ∧
        findLaunch t l.seq = some m ∧ m.deficits = d ∧ m.nextGang = l.nextGang ∧
        ∀ w ∈ got.1, ∀ g ∈ w.groups, isOver g = false → ∃ h ∈ t.others,
          h = { g with die := h.die, core := h.core, lane := h.lane, waitingSince := h.waitingSince, status := h.status })) ∧
  (∀ (s : State) (l : Launch), findLaunch s l.seq = some l → l.phase = .queued →
    let ends := fun (status : Nat) => ∃ t m, exec (.launchCompletion l.seq) s = .next t ∧ findLaunch t l.seq = some m ∧
      m.status = status ∧
      ((m.phase = .complete ∧ ∃ f o, t.out = .complete l.seq status l.terminated f :: o ∧ (l.record.done = 0 → f = 0)) ∨
        (m.phase = .adding ∧ l.record.done ≠ 0 ∧ ∃ a ∈ t.accs, a.kind = .peerDone l.seq))
    let skipped := l.record.failx = true ∧ depFailed s l = true ∧ l.nextGang = 0
    (skipped → ends 0x28) ∧ (¬skipped → launchOver s l = true → ends l.status))

/-- R326, R382 to R385: a reservation opens for the gang that has waited longest; a resident team at its deadline, and a gang of lower priority, are
pre-empted, after which they issue nothing; a save keeps every register of its groups and frees the cores.
The model's choices in it: log entry 67. -/
def Obligations.Preemption : Prop :=
  let silent := fun (t : State) (launch gang : Nat) => ∀ g ∈ allGroups t, g.launch = launch → g.gang = gang → canIssue t g = false
  (∀ (s : State) (l : Launch) (c : Nat × Option Nat), findLaunch s l.seq = some l → s.reservation = none → longWait s l = true →
    (∀ k ∈ s.launches, longWait s k = true → k.record.prio < l.record.prio ∨ (k.record.prio = l.record.prio ∧
      (waitsSince s l < waitsSince s k ∨ (waitsSince s l = waitsSince s k ∧ l.seq ≤ k.seq)))) → drainTarget s l = some c →
    exec (.drainReservationOpen l.seq) s = .next { s with reservation := some ⟨l.seq, gangNo l (restorable s l), c.1, c.2⟩ }) ∧
  (∀ (s : State) (l : Launch) (a : Gang) (r : Reservation), findLaunch s l.seq = some l → s.reservation = some r →
    l.placed.find? (fun b => b.gang == a.gang) = some a → standsOn a r.cluster r.cluster2 = true → running s (l, a) = true →
    a.start + l.record.ttime ≤ nowUs s → ∃ t, exec (.teamDeadline l.seq a.gang) s = .next t ∧ t.mem = s.mem ∧ silent t l.seq a.gang) ∧
  (∀ (s : State) (l : Launch), findLaunch s l.seq = some l → eligible s l = true → choosePlan s l = none →
    (∀ c, l.claim = none → claimFor s l = some c → ∃ t m, exec (.priorityPreemption l.seq) s = .next t ∧ t.mem = s.mem ∧
      findLaunch t l.seq = some m ∧ m.claim = some c ∧
      (l.record.prio = 3 → ∀ e ∈ lower s l c, silent t e.1.seq e.2.gang)) ∧
    (∀ c e, l.claim = some c → e ∈ lower s l c → l.record.prio = 3 ∨ deadline e ≤ nowUs s →
      ∃ t, exec (.priorityPreemption l.seq) s = .next t ∧ t.mem = s.mem ∧ silent t e.1.seq e.2.gang)) ∧
  (∀ (s : State) (seq gang : Nat) (v : SavedGang), v ∈ s.saved → v.launch = seq → v.gang.gang = gang → v.saved = false →
    (∀ t ∈ s.teams, t.launch = seq → t.gang = gang → saveReady s t = true) → ∃ t, exec (.contextSaveDone seq gang) s = .next t ∧
    ∀ tm ∈ s.teams, tm.launch = seq → tm.gang = gang → (∀ u ∈ t.teams, u.tid ≠ tm.tid) ∧
      (∀ g ∈ allGroups t, g.gid ≠ 0 → g.tid ≠ tm.tid) ∧
      ∀ g ∈ allGroups s, g.tid = tm.tid → ∃ w ∈ t.saved, w.launch = seq ∧ w.gang.gang = gang ∧ w.saved = true ∧
        ∃ u ∈ w.teams, ∃ h ∈ u.groups, h = { g with gwts := h.gwts, gwtsTeam := h.gwtsTeam })

/-! ### Serving -/

/-- R399 to R402: `SACC` quantises each score and posts an add to the position and to its page; `TOPK` keeps the sinks, the recent
positions and the K best of the rest; `KVPACK` keeps what the bitmap names: its checks come first, then the kept tokens move
down piece by piece in ascending order, and at its end the position words, the page words, the zeros behind the last token, the
entries and the frames of the pages behind it follow. The group waits, and D is the number kept.
The model's choices in it: log entries 68 to 70; that illegal operands trap whatever the guards (15); the strands that the resume
index leaves out (17); that `SACC`'s adds are checked at issue and performed later (32); and that the pages which a group came to
share while the command ran stay mapped (133). -/
def Obligations.Selection : Prop :=
  (∀ w v, w < 2 ^ 32 → exVal (unpack fp32 w) = some v →
    (v ≤ 0 → scoreQuant w = 0) ∧ (1 ≤ v → scoreQuant w = 2 ^ 24) ∧
    (0 < v → v < 1 → let e : Rat := 2 * ((scoreQuant w : Rat) - v * 2 ^ 24)
      e ≤ 1 ∧ -1 ≤ e ∧ (e = 1 ∨ e = -1 → scoreQuant w % 2 = 0))) ∧
  (∀ (x : Fields) (s s1 s2 : State) (i pa pb : Nat), WellFormed (.sacc x) →
    (saccOk s.g x = false → exec (.sacc x) s = trapped (wordTrap 0x02) s) ∧
    (saccOk s.g x = true → readable s.g x [(x.b, 1), (x.c, 1)] → s.g.vPoison = [] → wholeStrands s.g x = [i] →
      let p := (read32 s.g x i x.b).toNat
      let size := 2048 * 4 ^ (x.e.extractLsb' 0 2).toNat
      let va := read64 s.g x i x.a + BitVec.ofNat 64 (4 * p)
      let vb := read64 s.g x i x.a + BitVec.ofNat 64 (4 * size + 4 * (p / 2 ^ (x.e.extractLsb' 2 4).toNat))
      let q := scoreQuant (read32 s.g x i x.c).toNat
      (size ≤ p → exec (.sacc x) s = trapped ⟨0x08, 0x16, some ((read32 s.g x i x.b).zeroExtend 64), 0⟩ s) ∧
      (p < size → resolve s.g va 4 .write true s = (.mem pa, s1) → resolve s1.g vb 4 .write true s1 = (.mem pb, s2) → s1.g = s.g → s2.g = s.g →
        findLine (coreAt s1 (coreNo s.g)) (pa / 64) s.g.eid = none → findLine (coreAt s2 (coreNo s.g)) (pa / 64) s.g.eid = none →
        findLine (coreAt s2 (coreNo s.g)) (pb / 64) s.g.eid = none →
        memError s1 pa 4 = none → memError s2 pa 4 = none → memError s2 pb 4 = none → ∃ t, exec (.sacc x) s = .next t ∧
        t.g = { s.g with pc := s.g.pc + 12, ridx := 0, readTime := 0, midway := false } ∧ t.mem = s2.mem ∧
        t.pending = s2.pending ++ [.sliceOperation (sliceReq s.g va pa s.g.carry false (.score q)), .sliceOperation (sliceReq s.g vb pb s.g.carry false (.score q))]))) ∧
  (∀ (pos : List Nat) (n sink rec k : Nat),
    let kept := keptOf pos n sink rec k
    let rest := (List.range n).filter (fun p => !(decide (p < sink) || decide (n ≤ p + rec)))
    kept.length = n ∧ (kept.filter id).length = (n - rest.length) + min k rest.length ∧
    (∀ p, p < n → p < sink ∨ n ≤ p + rec → nth false kept p = true) ∧
    (∀ p q, p ∈ rest → q ∈ rest → nth false kept p = true → nth false kept q = false → nth 0 pos q ≤ nth 0 pos p)) ∧
  (∀ (x : Fields) (s s1 : State), quadOk s.g x = true → holdsQ s.g x = true →
    let w := fun (k : Nat) => (sGet s.g (opIdx x.b + k)).toNat
    let a := sPair s.g x.a
    let c := sPair s.g x.c
    (WellFormed (.topk x) →
      (w 0 = 0 ∨ 131072 < w 0 → exec (.topk x) s = trapped (wordTrap 0x02) s) ∧
      (w 0 ≠ 0 → w 0 ≤ 131072 → rangesCheck [(4, .read, a, 4 * w 0), (64, .write, c, 64 * ceilDiv (w 0) 512)] (settleOwn s) = (none, s1) →
        ∃ t, exec (.topk x) s = .next t ∧
          let d := doerOf s1.g
          let got := rangeRead d a (4 * w 0) s1
          let kept := keptOf ((wordsOf got.1).map BitVec.toNat) (w 0) (w 1) (w 2) (w 3)
          t.g.status = .waitServing (.topk (BitVec.ofNat 8 (opIdx x.d)) (kept.filter id).length) ∧
          t.mem = (rangeWrite d c (bitBytes kept (64 * ceilDiv (w 0) 512)) got.2).mem)) ∧
    (WellFormed (.kvpack x) →
      let geo := geometryOf (w 3)
      let n := w 2
      (kvpackBad n geo = true → exec (.kvpack x) s = trapped (wordTrap 0x02) s) ∧
      (kvpackBad n geo = false → a.toNat % 65536 ≠ 0 → exec (.kvpack x) s = trapped ⟨0x0B, 0, some a, 0⟩ s) ∧
      (kvpackBad n geo = false → a.toNat % 65536 = 0 → sharedIn s s.g.eid a.toNat (n * 2 ^ geo.logTb) = true →
        exec (.kvpack x) s = trapped ⟨0x09, 5, some a, 0⟩ s) ∧
      (kvpackBad n geo = false → a.toNat % 65536 = 0 → sharedIn s s.g.eid a.toNat (n * 2 ^ geo.logTb) = false →
        rangesCheck [(64, .read, c, ceilDiv n 8)] (settleOwn s) = (none, s1) →
        let d := doerOf s1.g
        let got := rangeRead d c (ceilDiv n 8) s1
        let keep := (List.range n).filter (bitIn got.1)
        let score := sGet s.g (opIdx x.b + 1) ++ sGet s.g (opIdx x.b)
        ∀ s2, rangesCheck (packRanges a score n keep.length geo (packMoves keep)) got.2 = (none, s2) →
          ∃ t, exec (.kvpack x) s = .next t ∧ t.g.status = .waitServing (.kvpack (BitVec.ofNat 8 (opIdx x.d)) keep.length) ∧
            t.mem = s2.mem ∧ t.packs = s2.packs ++ [⟨d, s.g.tid, a, score, n, w 3, keep, 0⟩]))) ∧
  (∀ (s : State) (k : Pack), s.packs.find? (fun j => j.doer.gid == k.doer.gid) = some k →
    let geo := geometryOf k.geo
    let tb := 2 ^ geo.logTb
    let pp := 2 ^ geo.ppg
    let tokens := packMoves k.keep
    let kept := k.keep.length
    let pages := ceilDiv k.n pp
    let at_ := fun (b : Nat) => k.base + BitVec.ofNat 64 b
    (k.moved < tokens.length * (tb / 64) →
      let m := nth (0, 0) tokens (k.moved / (tb / 64))
      let off := 64 * (k.moved % (tb / 64))
      let s0 := { s with packs := updateWhere (fun j => j.doer.gid == k.doer.gid) (fun j => { j with moved := j.moved + 1 }) s.packs }
      let got := rangeRead k.doer (at_ (m.1 * tb + off)) 64 s0
      ∃ t, exec (.kvpackCompletion k.doer.gid) s = .next t ∧ t.packs = s0.packs ∧
        t.mem = (rangeWrite k.doer (at_ (m.2 * tb + off)) got.1 got.2).mem) ∧
    (∀ (g : Group) (d : BitVec 8) (v : Nat), tokens.length * (tb / 64) ≤ k.moved → findGroup s k.doer.gid = some g →
      g.tid = k.tid → (∀ v ∈ s.saved, ∀ w ∈ v.teams, w.team.tid ≠ k.tid) → g.status = .waitServing (.kvpack d v) → (∀ r, .sliceOperation r ∈ s.pending → r.eid ≠ k.doer.eid) →
      let s0 := { s with packs := s.packs.filter (fun j => j.doer.gid != k.doer.gid) }
      let got := rangeRead k.doer k.score (4 * (pages * pp)) s0
      let old := wordsOf got.1
      let pos := k.keep.map (nth 0 old) ++ List.replicate (k.n - kept) 0 ++ old.drop k.n
      let s1 := if kept < k.n then rangeWrite k.doer k.score (bytesOfWords (pos.take k.n)) got.2 else got.2
      let s2 := if kept % pp = 0 then s1 else rangeWrite k.doer (at_ (kept * tb)) (List.replicate ((pp - kept % pp) * tb) 0) s1
      let sums := (List.range pages).map (fun j => min (((pos.drop (j * pp)).take pp).map BitVec.toNat).sum (2 ^ 32 - 1))
      let s3 := rangeWrite k.doer (k.score + BitVec.ofNat 64 (4 * (2048 * 4 ^ geo.bucket))) (sums.flatMap (leBytes 4)) s2
      let behind := (pageRun (at_ (65536 * ceilDiv kept pp)) (pages - ceilDiv kept pp)).filter (fun va => !sharedIn s3 k.doer.eid va.toNat 65536)
      let out := clearPages k.doer.eid behind s3
      let s4 := discardCopies (fun v => v.eid == k.doer.eid && out.1.contains v.frame) (invalidateRange k.doer.eid k.base (k.n * tb) out.2)
      ∃ t h, exec (.kvpackCompletion k.doer.gid) s = .next t ∧ t.packs = s0.packs ∧
        t.mem = (out.1.foldl (freeFrame k.doer.eid) s4).mem ∧ t.freeList = (out.1.foldl (freeFrame k.doer.eid) s4).freeList ∧
        findGroup t k.doer.gid = some h ∧ h.status = .ready ∧ h.pc = g.pc + 12 ∧
        h.s = (sSet g d.toNat (BitVec.ofNat 32 v)).s)) ∧
  (∀ (s s1 : State) (d : Doer) (va : DWord) (n pa : Nat), 0 < n → va.toNat % 65536 + n ≤ 65536 →
    (devPlace d.eid d.die va .read s = (.mem pa, s1) → memError s1 pa n = none →
      (rangeRead d va n s).1 = memRead s1 pa n ∧ (rangeRead d va n s).2.mem = s1.mem) ∧
    (∀ b, b.length = n → devPlace d.eid d.die va .write s = (.mem pa, s1) →
      let t := rangeWrite d va b s
      memRead t pa n = b ∧ ∀ a, a < pa ∨ pa + n ≤ a → memByte t a = memByte s1 a)) ∧
  (∀ (s : State) (eid a : Nat) (va e : DWord), walkFrom s (va.toNat % 2 ^ 56) levels (engOf s eid).root none = .leaf e a 16 →
    let t := (clearLeaf eid va s).2
    (clearLeaf eid va s).1 = (if pteBit e 55 then none else some (pteAddr e / 65536)) ∧
    memRead t a 8 = List.replicate 8 0 ∧ ∀ b, b < a ∨ a + 8 ≤ b → memByte t b = memByte s b) ∧
  (∀ (s : State) (eid f : Nat),
    let t := freeFrame eid s f
    let k := 4 * eid + f / framesOfDie
    (∀ a, memByte t a = if a / 65536 = f then 0 else memByte s a) ∧ Sparse.get [] k t.freeList = Sparse.get [] k s.freeList ++ [f]) ∧
  (∀ (s : State) (g : Group) (d : BitVec 8) (v : Nat), findGroup s g.gid = some g → g.status = .waitServing (.topk d v) →
    (∀ u ∈ s.saved, ∀ w ∈ u.teams, w.team.tid ≠ g.tid) →
    ∃ t h, exec (.topkCompletion g.gid) s = .next t ∧ findGroup t g.gid = some h ∧ t.mem = s.mem ∧
      h = { sSet g d.toNat (BitVec.ofNat 32 v) with status := .ready, pc := g.pc + 12, ridx := 0, readTime := 0, midway := false })

/-- R399, R403 to R408: `BREG`, `BPOST` and `BSTAT` send their message and wait. -/
def Obligations.BallotMessages : Prop :=
  ∀ (x : Fields) (s : State),
    let onward := setG { s.g with pc := s.g.pc + 12, ridx := 0, readTime := 0, midway := false } s
    let sends := fun (o : Instr) (m : Instr) (d : BitVec 8) (two : Bool) => ∃ t, exec o s = .next t ∧ t.pending = s.pending ++ [m] ∧
      t.g.status = .waitServing (.halley d two) ∧ t.g.pc = s.g.pc ∧ t.mem = s.mem ∧ t.g.s = s.g.s
    let slot := slotOf? s s.g
    let d := BitVec.ofNat 8 (opIdx x.d)
    ((!isLong x && isS x.d && isSPair x.a && isSPair x.b && regsOk s.g [(x.d, 1), (x.a, 2), (x.b, 2)]) = true → WellFormed (.breg x) →
      (holdsQ s.g x = false → exec (.breg x) s = .next onward) ∧
      (holdsQ s.g x = true → sends (.breg x) (.halleyRegistration ⟨s.g.gid, s.g.eid, slot, sPair s.g x.a, sPair s.g x.b, 0⟩) d false)) ∧
    ((isS x.d && isSPair x.a && regsOk s.g [(x.d, 1), (x.a, 2)]) = true → WellFormed (.bpost x) →
      (holdsQ s.g x = false → exec (.bpost x) s = .next onward) ∧
      (holdsQ s.g x = true → allQuiet s s.g.gid → sends (.bpost x) (.halleyPost ⟨s.g.gid, s.g.eid, slot, sPair s.g x.a, 0, 0⟩) d false)) ∧
    ((isSPair x.d && (isS x.a || isShort x.a) && regsOk s.g [(x.d, 2), (x.a, 1)]) = true → WellFormed (.bstat x) →
      (holdsQ s.g x = false → exec (.bstat x) s = .next onward) ∧
      (holdsQ s.g x = true → sends (.bstat x)
        (.halleyStatusRead ⟨s.g.gid, s.g.eid, slot, (read32 s.g x 0 x.a).zeroExtend 64, 0, (x.e.extractLsb' 0 2).toNat⟩) d true))

/-- R391, R399, R403 to R408: what `Halley` does with a message, the answer that comes back, and a cancel bit on its way: a
post that completes the quorum decides its group and cancels every member that has neither posted nor abstained, within 320 sc of
the first decision against it.
The model's choices in it: log entry 71. -/
def Obligations.Ballots : Prop :=
  (∀ (s : State) (r : HalleyReq),
    let answers := fun (t : State) (v : Nat) => ∃ l, t.pending = l ++ [.halleyAnswer r.group (BitVec.ofNat 64 v)]
    let ms := (bitsOf 64 r.w0).map (· + r.w1.toNat % 8192)
    let taken := fun (m : Nat) => (siblingOf s r.eid m).isSome = true
    (bregBad s r = true → ∃ t, exec (.halleyRegistration r) s = .next t ∧ answers t (3 * 2 ^ 24) ∧ t.siblings = s.siblings) ∧
    (∀ m, bregBad s r = false → m ∈ ms → taken m → (∀ k ∈ ms, k < m → ¬taken k) →
      ∃ t, exec (.halleyRegistration r) s = .next t ∧ answers t (2 * 2 ^ 24 + m) ∧ t.siblings = s.siblings) ∧
    (bregBad s r = false → (∀ m ∈ ms, ¬taken m) → freeSiblings s = [] →
      ∃ t, exec (.halleyRegistration r) s = .next t ∧ answers t (2 ^ 24) ∧ t.siblings = s.siblings) ∧
    (bregBad s r = false → (∀ m ∈ ms, ¬taken m) → freeSiblings s ≠ [] → ∃ t b, exec (.halleyRegistration r) s = .next t ∧
      answers t b.gid ∧ t.siblings = s.siblings ++ [b] ∧ b.gid < 512 ∧ (∀ k ∈ s.siblings, k.gid ≠ b.gid) ∧ b.eid = r.eid ∧
      membersOf b = ms ∧ b.q = r.w1.toNat / 2 ^ 16 % 128 ∧ b.nsh = r.w1.toNat / 2 ^ 32 % 65536 ∧ b.posts = [] ∧ b.cancelled = [] ∧
      (∀ m, m ∈ b.abstained ↔ m ∈ ms ∧ ∃ p, programOf s r.eid = some p ∧ 0 < p.steps ∧ (startOf p m = 1 ∨ startOf p m = 2)) ∧
      (∀ m, m ∈ b.holders ↔ m ∈ ms ∧ ∃ p, programOf s r.eid = some p ∧ startOf p m = 0) ∧
      (b.decided = true ↔ ∀ m ∈ ms, m ∈ b.abstained) ∧ (b.decided = true → b.plural = true ∧ b.winner = none)) ∧
    ((∀ slot, r.slot = some slot → siblingOf s r.eid slot = none) → ∃ t, exec (.halleyPost r) s = .next t ∧ answers t 4 ∧
      t.siblings = s.siblings) ∧
    (∀ slot b, r.slot = some slot → siblingOf s r.eid slot = some b →
      (b.decided = true → ∃ t, exec (.halleyPost r) s = .next t ∧ answers t 2 ∧ t.siblings = s.siblings) ∧
      (b.decided = false → (∃ p ∈ b.posts, p.slot = slot) → ∃ t, exec (.halleyPost r) s = .next t ∧ answers t 3 ∧ t.siblings = s.siblings) ∧
      (b.decided = false → (∀ p ∈ b.posts, p.slot ≠ slot) →
        let c := countOf_ b r.w0 + 1
        (c = b.q → ∃ t e, exec (.halleyPost r) s = .next t ∧ answers t (1 + 256 * c) ∧ e ∈ t.siblings ∧ e.gid = b.gid ∧
          e.decided = true ∧ e.plural = b.plural ∧ e.winner = some r.w0 ∧ e.dstep = stepNo s b.eid ∧
          (∀ m, m ∈ e.cancelled ↔ m ∈ membersOf b ∧ m ≠ slot ∧ (∀ p ∈ b.posts, p.slot ≠ m) ∧ m ∉ b.abstained) ∧
          ∀ m ∈ e.cancelled, (.cancelBitDelivery b.eid m) ∈ t.pending ∧ ∀ p q, programOf s b.eid = some p → programOf t b.eid = some q →
            m ∈ q.cancel ∧ Sparse.get 0 m q.cancelDue = if m ∈ p.cancel then Sparse.get 0 m p.cancelDue else s.sc + 320) ∧
        (c ≠ b.q → ∃ t e, exec (.halleyPost r) s = .next t ∧ answers t (256 * c) ∧ e ∈ t.siblings ∧ e.gid = b.gid ∧
          e.posts = b.posts ++ [⟨slot, r.w0, s.posts⟩] ∧ t.programs = s.programs ∧
          (e.decided = true ↔ ∀ m ∈ membersOf b, m = slot ∨ (∃ p ∈ b.posts, p.slot = m) ∨ m ∈ b.abstained) ∧
          (e.decided = true → e.plural = true ∧ e.cancelled = b.cancelled)))) ∧
    ((∀ b ∈ s.siblings, ¬(b.gid = r.w0.toNat ∧ b.eid = r.eid)) → ∃ t, exec (.halleyStatusRead r) s = .next t ∧ answers t (2 ^ 64 - 1)) ∧
    (∀ b, s.siblings.find? (fun b => b.gid == r.w0.toNat && b.eid == r.eid) = some b → ∃ t v, exec (.halleyStatusRead r) s = .next t ∧
      t.siblings = s.siblings ∧ (∃ l, t.pending = l ++ [.halleyAnswer r.group v]) ∧
      (r.sel = 0 → v.getLsbD 0 = b.decided ∧ v.getLsbD 1 = (b.decided && b.winner.isNone) ∧ v.getLsbD 2 = b.plural) ∧
      (r.sel = 1 → ∀ h, b.winner = some h → v = h) ∧
      (r.sel = 2 → b.decided = true → v = BitVec.ofNat 64 (b.dstep % 2 ^ 32 + 2 ^ 32 * b.cancelled.length)) ∧
      (r.sel = 3 → v = BitVec.ofNat 64 (b.tokx % 2 ^ 32 + 2 ^ 32 * (b.stpx % 2 ^ 32))))) ∧
  (∀ (s : State) (g : Group) (d : BitVec 8) (v : DWord), findGroup s g.gid = some g → (∀ u ∈ s.saved, ∀ w ∈ u.teams, w.team.tid ≠ g.tid) →
    (g.status = .waitServing (.halley d false) → ∃ t h, exec (.halleyAnswer g.gid v) s = .next t ∧ findGroup t g.gid = some h ∧
      t.mem = s.mem ∧ h = { sSet g d.toNat (v.extractLsb' 0 32) with status := .ready, pc := g.pc + 12, ridx := 0, readTime := 0, midway := false }) ∧
    (g.status = .waitServing (.halley d true) → ∃ t h, exec (.halleyAnswer g.gid v) s = .next t ∧ findGroup t g.gid = some h ∧
      t.mem = s.mem ∧ h = { sSet (sSet g d.toNat (v.extractLsb' 0 32)) (d.toNat + 1) (v.extractLsb' 32 32) with
                              status := .ready, pc := g.pc + 12, ridx := 0, readTime := 0, midway := false })) ∧
  (∀ (s : State) (eid slot : Nat) (p : StepProgram), programOf s eid = some p →
    (slot ∉ p.cancel → exec (.cancelBitDelivery eid slot) s = .next s) ∧
    (slot ∈ p.cancel → ∃ t, exec (.cancelBitDelivery eid slot) s = .next t ∧ t = { s with teams := t.teams, saved := t.saved } ∧
      ∀ tm ∈ t.teams, tm.eid = eid → tm.gang = slot → (∃ l, findLaunch s tm.launch = some l ∧ l.isStep = true) → tm.cancel = true))

/-- R388 to R391, R393, R397, R409: a step starts, with the start state of every slot, and completes, with the end state of every slot; a
promotion into the KV reserve completes, unless its way-group is leaving its role, or fails and marks every slot that maps the frame.
The model's choices in it: log entries 72 to 74. -/
def Obligations.Steps : Prop :=
  (∀ (s s1 : State) (l : Launch) (p : StepProgram) (es : List (List Byte)), findLaunch s l.seq = some l →
    programOf s l.record.eng = some p → mayStart s l = true → readEntries l.record.eng p.slotTab (List.range p.nslot) s = (es, s1) →
    ∃ t q m, exec (.stepStart l.seq) s = .next t ∧ programOf t l.record.eng = some q ∧ q.steps = p.steps + 1 ∧ q.took = [] ∧ q.failed = [] ∧
      findLaunch t l.seq = some m ∧ m.step = some (p.steps + 1) ∧
      ∀ k, k < p.nslot → let e := nth [] es k
        Sparse.get [] k q.snap = e ∧ startOf q k = startState p k e ∧ (k ∈ m.endedGangs ↔ startState p k e ≠ 0) ∧
        (k ∈ q.cancel ↔ k ∈ p.cancel ∧ startState p k e ≠ 1)) ∧
  (∀ (p : StepProgram) (k : Nat) (e : List Byte),
    let flags := entryField e 0 4
    (flags % 2 = 0 → startState p k e = 0x01) ∧
    (flags % 2 = 1 → entryRejected p k e = true → startState p k e = 0x02) ∧
    (flags % 2 = 1 → entryRejected p k e = false → startState p k e = if k ∈ p.cancel then 0x28 else 0x00)) ∧
  (∀ (s : State) (l : Launch) (p : StepProgram) (n : Nat), findLaunch s l.seq = some l → programOf s l.record.eng = some p →
    l.step = some n → launchOver s { l with step := none } = true →
    ∃ t q m, exec (.stepCompletion l.seq) s = .next t ∧ programOf t l.record.eng = some q ∧ findLaunch t l.seq = some m ∧ m.step = none ∧
      ∀ k, k < p.nslot → Sparse.get 0 k q.ends =
        if startOf p k ≠ 0 then startOf p k else if k ∈ p.failed then 0x21
        else if k ∈ p.cancel ∧ k ∈ p.took then 0x28 else 0) ∧
  (∀ (s : State) (v : KvCopy), nextPromotion s v.eid v.slot v.page = some v →
    (∀ p, programOf s v.eid = some p → leaving s v = false → memError s (65536 * v.frame) 65536 = none →
      ∃ t, exec (.kvPromotionDone v.eid v.slot v.page) s = .next t ∧
        { v with complete := true, bitAt := residencyAt p v.slot v.page, bad := [] } ∈ t.kv) ∧
    (memError s (65536 * v.frame) 65536 ≠ none → ∃ t, exec (.kvPromotionFailure v.eid v.slot v.page) s = .next t ∧
      v ∉ t.kv ∧ t.mem = s.mem ∧ (∀ b, 1024 * v.frame ≤ b → b < 1024 * v.frame + 1024 → b ∈ t.poison) ∧
      ∀ e ∈ s.programs, programOf s e.1 = some e.2 → ∀ k, k < e.2.nslot → mapsFrame s e.1 e.2 v.frame k = true →
        ∃ q, programOf t e.1 = some q ∧ k ∈ q.failed ∧ k ∈ q.cancel))

/-! ### The store, the buses, power, the log and the start-up -/

/-- R342 to R346, R354, R355: a way-group that leaves the tensor role demotes its handles one by one, each once no command into its
shadow runs; one without handles, or of another role, is emptied and takes its new role; a sample sets the refresh band of its
store die, one of the logic die starts a retraining early when the die has drifted by 3 °C; a row is refreshed, again and again; a
patrol read counts what it corrects or cannot correct, and poisons the latter; every missed deadline poisons every block of the row
and is reported.
The model's choices in it: that a moving handle keeps its way-group (log entry 75), and which blocks lie in a row (log entry 76). -/
def Obligations.StoreSteps : Prop :=
  let marked := fun (t : State) (u : RowUse) => match u with
    | .nothing => True
    | .tensor h x => x ∈ (handleOf t (h / 16384) (h % 16384)).bad
    | .cache w p => ∀ e ∈ t.cached, e.wg = w → e.place = p → e.bad = true
    | .copy p x => ∀ v ∈ t.kv, v.place = p → x ∈ v.bad
  (∀ (s : State) (sl w : Nat), (wgOf s sl w).busy = true →
    (∀ e l, (wgOf s sl w).role = 1 → handlesIn s sl w = e :: l → blocksChange s e = false →
      handleBusy s (e.1 / 16384) (e.1 % 16384) = false → ∃ t, exec (.roleChangeDone sl w) s = .next t ∧
        (handleOf t (e.1 / 16384) (e.1 % 16384)).frames = [] ∧ (∀ j k, wgOf t j k = wgOf s j k)) ∧
    ((wgOf s sl w).role ≠ 1 ∨ handlesIn s sl w = [] → ∃ t, exec (.roleChangeDone sl w) s = .next t ∧
      wgOf t sl w = { wgOf s sl w with busy := false, role := (wgOf s sl w).next } ∧
      (∀ j k, 16 * j + k ≠ 16 * sl + w → wgOf t j k = wgOf s j k) ∧
      ((wgOf s sl w).role = 2 → ∀ v ∈ t.kv, v.place / 48 ≠ 16 * sl + w) ∧
      ((wgOf s sl w).role ≠ 2 → t = { modWg sl w (fun c => { c with busy := false, role := c.next }) s with cached := t.cached, poison := t.poison } ∧
        t.cached = s.cached.filter (fun e => e.wg ≠ 16 * sl + w) ∧
        ∀ b, b ∈ t.poison ↔ b ∈ s.poison ∨ ∃ e ∈ s.cached, e.wg = 16 * sl + w ∧ e.line = b ∧ e.bad = true ∧ e.dirty = true))) ∧
  (∀ (s : State) (die j c : Nat), die < 4 →
    (j < 2 → ∃ t, exec (.temperatureSample die j c) s = .next t ∧ t = { s with temps := t.temps, band := t.band } ∧
      Sparse.get 0 (storeKey die j) t.temps = c ∧
      Sparse.get 0 (storeKey die j) t.band = (if c ≤ 85 then 0 else if c ≤ 95 then 1 else 2) ∧
      ∀ k, k ≠ storeKey die j → Sparse.get 0 k t.temps = Sparse.get 0 k s.temps ∧ Sparse.get 0 k t.band = Sparse.get 0 k s.band) ∧
    (∃ t, exec (.temperatureSample die 2 c) s = .next t ∧
      t = { s with temps := t.temps, power := t.power, ctr := t.ctr, coolSince := t.coolSince, buses := t.buses } ∧
      Sparse.get 0 die t.temps = c ∧ (∀ k, k ≠ die → Sparse.get 0 k t.temps = Sparse.get 0 k s.temps ∧ busOf t k = busOf s k) ∧
      busOf t die = if warmed s die c = true then { busOf s die with due := some s.sc } else busOf s die)) ∧
  (∀ (s : State) (b : BankRef) (row : Nat), bankOk b = true → row < 1536 →
    (∃ t, exec (.refresh b row) s = .next t ∧ t = { s with refreshed := t.refreshed, deadRows := t.deadRows } ∧
      Sparse.get 0 (rowKey b row) t.refreshed = s.sc ∧ ∀ k, k ∈ t.deadRows ↔ k ∈ s.deadRows ∧ k ≠ rowKey b row) ∧
    (Sparse.get 0 (rowKey b row) s.refreshed + deadlineSc (Sparse.get 0 (storeKey (sliceDie b.slice) b.storeDie) s.band) ≤ s.sc →
      (s.handles.map (·.1)).Nodup → ∃ t, exec (.refreshDeadlineMissed b row) s = .next t ∧
        (∀ k, k ∈ t.deadRows ↔ k ∈ s.deadRows ∨ k = rowKey b row) ∧ Sparse.get 0 (rowKey b row) t.refreshed = s.sc ∧
        t.out = .storeError b row :: s.out ∧ t.mem = s.mem ∧
        ∀ k, k < 19 → marked t (rowUse b row s k))) ∧
  (∀ (s : State) (b : BankRef) (row block : Nat), bankOk b = true → row < 1536 → block < 18 → ∃ t, exec (.patrolScrub b row block) s = .next t ∧
    t.mem = s.mem ∧
    let e := fun (u : State) (k : Nat) => Sparse.get 0 (2 * b.slice + k) u.sliceErrors
    let same := t.handles = s.handles ∧ t.cached = s.cached ∧ t.kv = s.kv
    (rowUse b row s block = .nothing → same ∧ e t 0 = e s 0 ∧ e t 1 = e s 1) ∧
    ((same ∧ e t 0 = e s 0 + 1 ∧ e t 1 = e s 1) ∨ (marked t (rowUse b row s block) ∧ e t 0 = e s 0 ∧ e t 1 = e s 1 + 1) ∨
      (same ∧ e t 0 = e s 0 ∧ e t 1 = e s 1)))

/-- R354, R358 to R360, R414, R429, R430, R433 to R436: retraining of a bus waits for guarded transfers, 40 µs at most, and its waits
stand still; the clock steps down and up; a die that is too hot, or whose bus fails to train, stops; the log is sealed with the head
of its chain; the link is tried again; the start-up goes through its phases, a warm one without the second, and stays in recovery
where no firmware is accepted.
The model's choices in it: that a lower clock is a larger `STEP`, the length of a retraining, the form of the log (log entries 77
to 79), the phase at which the image is checked (81), and that groups held for training wait until phase 4 has passed (82). -/
def Obligations.DieSteps : Prop :=
  let stopped := fun (t : State) (die : Nat) => ∀ k, k < 48 → (coreAt t (48 * die + k)).unavailable = true
  (∀ (s : State) (die : Nat), die < 4 → (busOf s die).running = false →
    let begun := fun (o : Instr) => ∃ t, exec o s = .next t ∧ t = { s with buses := t.buses } ∧
      busOf t die = { busOf s die with due := none, running := true, began := s.sc, since := s.ac } ∧ ∀ d, d ≠ die → busOf t d = busOf s d
    (s.phase = 5 → guarded s die = false → dueAt s die ≠ none → begun (.retrainingDue die)) ∧
    (guarded s die = true → exec (.retrainingDue die) s = .refused .notEnabled) ∧
    (∀ since, s.phase = 5 → dueAt s die = some since → since + 56000 ≤ s.sc → begun (.retrainingForced die)) ∧
    (∀ since, dueAt s die = some since → s.sc < since + 56000 → exec (.retrainingForced die) s = .refused .notEnabled)) ∧
  (∀ (s : State) (die : Nat) (ok : Bool), (busOf s die).running = true → (busOf s die).began + 1680 ≤ s.sc →
    ∃ t, exec (.retrainingDone die ok) s = .next t ∧ (busOf t die).running = false ∧ (busOf t die).last = s.sc ∧
      (ok = true → t.cores = s.cores ∧ ∀ gid g m d a sc n since, findGroup s gid = some g → g.die = die → g.status = .waitCounter m n d a sc since →
        ∃ h, findGroup t gid = some h ∧
          h = { g with status := .waitCounter m n d a sc (since + (s.ac - max since (busOf s die).since)) }) ∧
      (ok = false → stopped t die ∧ ∀ g ∈ allGroups t, ∀ tm, findTeam s g.tid = some tm → (∃ c ∈ tm.cores, c / 48 = die) →
        tm.terminated = none → isOver g = true ∨ (g.midway = true ∧ g.stopping = true))) ∧
  (∀ s : State,
    (s.pstep < 5 → s.capw < s.power ∨ (∃ k, k < 8 ∧ 105 < Sparse.get 0 (4 + k) s.temps) → ∃ t, exec .powerStepDown s = .next t ∧
      t = { s with pstep := s.pstep + 1, power := min s.power s.capw, coolSince := s.sc }) ∧
    (0 < s.pstep → 10 * s.power < 9 * s.capw → s.coolSince + 14000000 ≤ s.sc → exec .powerStepUp s =
      .next { s with pstep := s.pstep - 1, coolSince := s.sc })) ∧
  (∀ (s : State) (die : Nat), die < 4 → s.ttrip ≤ Sparse.get 0 die s.temps →
    (∃ k, k < 48 ∧ (coreAt s (48 * die + k)).unavailable = false) → ∃ t, exec (.thermalTrip die) s = .next t ∧ stopped t die ∧ t.mem = s.mem) ∧
  (∀ s : State,
    (s.log ≠ [] → 4096 ≤ s.log.length ∨ s.lastSeal + 140000000 ≤ s.sc →
      let h := chainOf s.chain s.log
      let n := s.logIndex + s.log.length
      exec .logSeal s = .next { s with
        chain := h, logIndex := n, lastSeal := s.sc, log := [], out := .log s.log n (Config.sign (h ++ leBytes 8 n)) :: s.out }) ∧
    (∀ ok, s.linkUp = false → 1 ≤ s.phase → s.linkTry + 140000000 ≤ s.sc →
      exec (.linkTrainingRetry ok) s = .next { s with linkUp := ok, linkTry := s.sc, ctr := s.ctr + 1 }) ∧
    (s.recovery = false →
      let b := s.fwImage.getD Config.firmware
      (s.phase = 0 → ∃ t, exec .startPhaseDone s = .next t ∧ t.mem = s.mem ∧ t.phase = (if s.warm then 2 else 1) ∧
        (accepts s b = true → t.recovery = false ∧ t.fwVersion = Config.imageVersion b ∧ t.fwDigest = shake256 b) ∧
        (accepts s b = false → t.recovery = true)) ∧
      (1 ≤ s.phase → s.phase < 5 → ∃ t, exec .startPhaseDone s = .next t ∧ t.mem = s.mem ∧ t.phase = s.phase + 1 ∧
        (s.phase = 3 → ∀ g ∈ allGroups t, g.status ≠ .waitTraining))))

/-! ### The port and `Charon` -/

/-- R374, R376, R383, R417: what an engagement's connection asks for: reads and writes of its memory within one page that is mapped (a walk
that is done again finds the entry as the first left it), slot entries, adds to counters, and the submission of an image's graph.
The model's choices in it: the answer of a submission and writes that are all or nothing (log entries 85 to 87). -/
def Obligations.PortAccess : Prop :=
  ∀ (m : Msg) (s s1 : State) (eid pa : Nat), s.watches = [] →
    let fits := fun (va : DWord) (n : Nat) => va.toNat % 65536 + n ≤ 65536
    let lies := fun (va : DWord) (acc : Acc) => devPlace eid 0 va acc s = (.mem pa, s1) ∧ devPlace eid 0 va acc s1 = (.mem pa, s1)
    let n := m.payload.length
    (∀ b, lies m.addr .read → engReq s m 0x02 eid → m.payload = [] → lengthOk m.len.toNat = true → fits m.addr m.len.toNat →
      memError s1 pa m.len.toNat = none → b = memRead s1 pa m.len.toNat →
      ∃ t, exec (.memrd m) s = .next t ∧ answered m 0 b t ∧ t.mem = s1.mem) ∧
    (lies m.addr .write → engReq s m 0x03 eid → m.len.toNat = n → lengthOk n = true → fits m.addr n →
      ∃ t, exec (.memwr m) s = .next t ∧ answered m 0 [] t ∧
        ∀ a, memByte t a = if pa ≤ a ∧ a < pa + n then nth 0 m.payload (a - pa) else memByte s1 a) ∧
    (∀ p, engReq s m 0x04 eid → m.len.toNat = n → n = 64 → programOf s eid = some p →
      let va := p.slotTab + BitVec.ofNat 64 (64 * m.arg.toNat)
      (p.nslot ≤ m.arg.toNat → ∃ t, exec (.slotwr m) s = .next t ∧ answered m 4 [] t ∧ t.mem = s.mem) ∧
      (m.arg.toNat < p.nslot → lies va .write → fits va 64 → ∃ t, exec (.slotwr m) s = .next t ∧ answered m 0 [] t ∧
        ∀ a, memByte t a = if pa ≤ a ∧ a < pa + 64 then nth 0 m.payload (a - pa) else memByte s1 a)) ∧
    (lies m.addr .write → engReq s m 0x05 eid → m.len.toNat = n → n = 8 → m.addr ≠ 0 → m.addr.toNat % 8 = 0 → memError s1 pa 8 = none →
      let v := leNat (memRead s1 pa 8) + leNat m.payload
      (v < 2 ^ 64 → ∃ t, exec (.closiaCadd m) s = .next t ∧ answered m 0 [] t ∧ leNat (memRead t pa 8) = v) ∧
      (2 ^ 64 ≤ v → ∃ t l, exec (.closiaCadd m) s = .next t ∧ t.out = .answer m.conn m.tag 2 0x18 m.addr [] :: l ∧
        leNat (memRead t pa 8) = 2 ^ 64 - 1)) ∧
    (∀ l tm, engReq s m 0x05 eid → m.len.toNat = n → n = 8 → m.addr = 0 → findLaunch s m.arg2.toNat = some l → l.record.eng = eid →
      l.phase = .queued → addTeam s (caddOf m s) = some tm → m.arg.toNat / 256 < l.record.ngang → m.arg.toNat / 16 % 16 < l.nteams →
      let p := addTarget tm (caddOf m s)
      let v := (ctrAt s p.1 p.2).val.toNat + leNat m.payload
      v < 2 ^ 64 → ∃ t, exec (.closiaCadd m) s = .next t ∧ answered m 0 [] t ∧ t.mem = s.mem ∧ (ctrAt t p.1 p.2).val.toNat = v) ∧
    (∀ i, engReq s m 0x01 eid → m.arg = 1 → m.len.toNat = n → assoc m.addr.toNat s.images = some i → i.eid = eid → i.graph ≠ [] →
      patchSize i = n → n = 0 → patchWrites i [] = [] →
      ((∃ b ∈ i.graph, nodeOk s eid b = false) → ∃ t, exec (.submitGraph m) s = .next t ∧ answered m 0 (leBytes 4 2) t ∧ t.launches = s.launches) ∧
      ((∀ b ∈ i.graph, nodeOk s eid b = true) → graphFits s i = true → ∃ t, exec (.submitGraph m) s = .next t ∧
        answered m 0 (leBytes 4 (256 * (s.nextSeq % 2 ^ 24))) t ∧ t.nextSeq = s.nextSeq + i.graph.length ∧
        ∃ ls, t.launches = s.launches ++ ls ∧ ls.length = i.graph.length ∧ ∀ k l, ls[k]? = some l → l.seq = s.nextSeq + k ∧
          ∀ d, d ∈ l.deps ↔ ∃ e ∈ i.edges, e.2 = k ∧ d = s.nextSeq + e.1))

/-- R414 to R417, R422, R423: a peer reads and writes a window that is exported to it, once its message is well formed and names the
live engagement of its connection; a peer's answer lets a strand go on, which acquires what the access orders it after, or fails it;
connections open and close, a message that
fails authentication closes its own, and the loss of the link ends them all.
The model's choices in it: the codes of peer accesses (log entry 33), the newest write as what an acquire at `.sys` takes (35), the
order of strong atomics (119), malformed before binding (83), the phase from which a connection opens (84) and the count of an
unauthenticated message (95). -/
def Obligations.Peers : Prop :=
  (∀ (m : Msg) (s s1 : State) (k : Conn) (w : Window) (pa : Nat), s.watches = [] → connOf s m = some k → m.auth = true →
    (peerOk m = false → ∃ t, exec (.peeracc m) s = .next t ∧ answered m 4 [] t ∧ t.mem = s.mem) ∧
    (peerOk m = true → k.system = true ∨ k.peer = false ∨ m.eng.toNat ≠ k.eid ∨ (engOf s k.eid).st ≠ .live →
      ∃ t, exec (.peeracc m) s = .next t ∧ answered m 1 [] t ∧ t.mem = s.mem) ∧
    (peerOk m = true → k.peer = true → k.system = false → m.eng.toNat = k.eid → (engOf s k.eid).st = .live →
    s.windows.find? (fun w => w.id == m.arg.toNat / 256 % 256 && w.conn == m.conn && w.eid == k.eid) = some w →
    let va := w.base + m.addr
    let kind := m.arg.toNat % 256
    let n := if kind = peerRead then m.len.toNat else m.payload.length
    kind = peerRead ∨ kind = peerWrite → n ≠ 0 → va.toNat % 65536 + n ≤ 65536 →
    (w.len < m.addr.toNat + n → ∃ t l, exec (.peeracc m) s = .next t ∧ t.out = .answer m.conn m.tag 2 0x1708 m.addr [] :: l ∧ t.mem = s.mem) ∧
    (m.addr.toNat + n ≤ w.len → devPlace w.eid 0 va (if kind = peerRead then .read else .write) s = (.mem pa, s1) → memError s1 pa n = none →
      (kind = peerRead → ∃ t, exec (.peeracc m) s = .next t ∧ answered m 0 (memRead s1 pa n) t ∧ t.mem = s1.mem) ∧
      (kind = peerWrite → ∃ t, exec (.peeracc m) s = .next t ∧ answered m 0 [] t ∧
        ∀ a, memByte t a = if pa ≤ a ∧ a < pa + n then nth 0 m.payload (a - pa) else memByte s1 a)))) ∧
  (∀ (s : State) (acc gid i n : Nat) (va : DWord) (reg : Opnd) (ty : Ty) (returns : Bool) (acq : Option (Nat × Bool)) (g : Group),
    s.accs.find? (fun a => a.id == acc) = some ⟨acc, gid, g.tid, .peer va i false reg ty n returns acq⟩ → findGroup s gid = some g → g.gid = gid →
    g.status = .waitPeer acc → (g.stopping = true → g.midway = true) →
    let newest := newestWrite s
    let strong := s.strong
    let seen := max g.readTime (match acq with
      | none => 0
      | some (scope, whole) => max (if scope = 4 then newest else 0) (if whole then strong else 0))
    (∀ b, ∃ t h, exec (.peerAnswer acc (.data b)) s = .next t ∧ findGroup t gid = some h ∧ h.status = .ready ∧ h.ridx = i + 1 ∧ h.pc = g.pc ∧
      h.readTime = seen ∧ t.mem = s.mem ∧ (returns = false → h.v = g.v ∧ h.s = g.s) ∧
      (∀ k, returns = true → reg = .v k → 4 * n ≤ b.length →
        h = { writeRegs g i reg ((loadWords ty b).take n) with
                status := .ready, ridx := i + 1, readTime := seen, gwtsSys := max g.gwtsSys newest })) ∧
    (∀ r c sub, peerCause r = some (c, sub) → g.stopping = false → handlerOf s g ≠ none → inHandler g = false → terminates c = false → kvStop s g ⟨c, sub, some va, i⟩ = false →
      ∃ t h, exec (.peerAnswer acc r) s = .next t ∧ findGroup t gid = some h ∧ inHandler h = true ∧ h.tcause.toNat % 65536 = c + 256 * sub ∧
        h.taddr = va ∧ h.frame = some ⟨g.active, g.fmt, g.jord, g.stack, i, g.readTime⟩)) ∧
  (∀ s : State, s.linkUp = true →
    (∀ r : ConnReq, (3 ≤ s.phase ∨ s.recovery = true) →
      let ok := Config.handshakeOk r.shake = true ∧ s.conns.length < 1024 ∧ (∀ k ∈ s.conns, k.id ≠ r.conn) ∧
        (r.system = true → Config.operatorOk r.shake = true) ∧ (r.system = false → (engOf s r.eid).st = .live)
      (ok → exec (.connectionOpen r) s = .next { s with conns := s.conns ++ [⟨r.conn, r.system, r.eid, r.peer && !r.system, r.rod⟩] }) ∧
      (¬ok → exec (.connectionOpen r) s = .next s)) ∧
    (∀ c, (∃ k ∈ s.conns, k.id = c) → ∃ t, exec (.connectionClose c) s = .next t ∧ t.mem = s.mem ∧ t.conns = s.conns.filter (fun k => k.id != c)) ∧
    (∀ (m : Msg) (k : Conn), connOf s m = some k → m.auth = false →
      ∀ o ∈ [Instr.submit m, .memrd m, .memwr m, .slotwr m, .closiaCadd m, .peeracc m, .exitEngagement m, .mapPages m, .readRegister m],
        ∃ t, exec o s = .next t ∧ t.dropped = s.dropped + 1 ∧ t.conns = s.conns.filter (fun c => c.id != m.conn) ∧
          t = { s with dropped := t.dropped, conns := t.conns, pending := t.pending }) ∧
    (∃ t, exec .linkDown s = .next t ∧ t.linkUp = false ∧ t.conns = [] ∧ t.mem = s.mem ∧ t.linkTry = s.sc) ∧
    ∀ mode, exec (.unsupportedPacketDrop mode) s = .next { s with dropped := s.dropped + 1 })

/-- R424 to R427, R430 to R433: an engagement is created with a record and an empty page table, ends with its launches, and is scrubbed with a
receipt; attestation, firmware, rollback and the two resets.
The model's choices in it: the answer to firmware that fails (log entry 88), the order of its pieces (93), and what a reset keeps
(94). -/
def Obligations.Engagements : Prop :=
  (∀ (m : Msg) (s : State), sysReq s m 0x01 → m.payload.length = 32 → argOnly m 0 = true → m.addr = 0 → m.arg2 = 0 → pay m 28 4 = 0 →
    pay m 24 4 < 512 → bitsAt (pay m 24 4) 7 6 = 0 →
    (∀ f s1, freeEids s ≠ [] → takeFrame (tableOwner 64) 0 false s = some (f, s1) → ∃ t eid, exec (.createEngagement m) s = .next t ∧
      answered m 0 (leBytes 4 eid) t ∧ eid < 64 ∧ (engOf s eid).st = .free ∧ (engOf t eid).st = .live ∧ (engOf t eid).root = 65536 * f ∧
      (engOf t eid).htab.toNat = pay m 0 8 ∧ (engOf t eid).cpool.toNat = pay m 8 8 ∧ (engOf t eid).cpoolSize.toNat = pay m 16 8 ∧
      (engOf t eid).logp.toNat = pay m 24 4 ∧ (∀ k, k ≠ eid → engOf t k = engOf s k) ∧ ∀ a, 65536 * f ≤ a → a < 65536 * f + 65536 → memByte t a = 0) ∧
    (freeEids s = [] → ∃ t, exec (.createEngagement m) s = .next t ∧ answered m 3 [] t ∧ t.engs = s.engs)) ∧
  (∀ (m : Msg) (s : State) (eid : Nat), sysReq s m 0x02 → onLive s m eid → m.payload.length = 32 → argOnly m eidMask = true → m.addr = 0 → m.arg2 = 0 →
    ∃ t, exec (.exitEngagement m) s = .next t ∧ answered m 0 [] t ∧ (engOf t eid).st = .exiting ∧ (engOf t eid).nonce = m.payload ∧
      (∀ k, k ≠ eid → engOf t k = engOf s k) ∧ ∀ l ∈ t.launches, l.record.eng = eid → l.phase = .queued → l.record.ngang ≤ l.nextGang) ∧
  (∀ (s : State) (eid : Nat), (engOf s eid).st = .exiting → (∀ l ∈ s.launches, l.record.eng = eid → l.phase = .complete) →
    (∀ t ∈ s.teams, t.eid ≠ eid) → (∀ c ∈ allCommands s, c.2.eid ≠ eid) → ∃ t b l, exec (.exitScrub eid) s = .next t ∧ engOf t eid = Engagement.free ∧
      t.out = .receipt b (Config.sign b) :: l ∧ b.take 8 = leBytes 4 0x52454353 ++ leBytes 1 eid ++ [0, 0, 0] ∧
      (∀ c, ∀ n ∈ (coreAt t c).lines, n.eid ≠ eid) ∧ (∀ c, ∀ e ∈ (coreAt t c).tlb, e.eid ≠ eid) ∧
      (∀ c, ∀ e ∈ (coreAt t c).icache, e.eid ≠ eid) ∧ (∀ e ∈ t.cached, e.eid ≠ eid) ∧ (∀ k ∈ t.conns, k.system = true ∨ k.eid ≠ eid) ∧
      (∀ i ∈ t.images, i.2.eid ≠ eid) ∧ (∀ b ∈ t.siblings, b.eid ≠ eid) ∧ (∀ h ∈ t.handles, h.1 / 16384 ≠ eid) ∧
      ∀ f ∈ s.frames, f.2.owner = eid + 1 → (frameOf t (65536 * f.1)).owner = 0) ∧
  (∀ (s t : State) (owner die f : Nat) (intlv : Bool), takeFrame owner die intlv s = some (f, t) → (frameOf s (65536 * f)).owner = 0 ∧
    frameOf t (65536 * f) = ⟨owner, intlv⟩ ∧ ∀ a, memByte t a = if a / 65536 = f then 0 else memByte s a) ∧
  (∀ (m : Msg) (s : State), m.addr = 0 →
    (∀ eid : Option Nat, sysReq s m 0x18 → m.payload.length = 32 → m.arg2 = 0 → argOnly m 0x7F00 = true →
      (eid = none → argBits m 14 8 = 0) → (∀ k, eid = some k → argBits m 14 14 = 1 ∧ onLive s m k) →
      ∃ t, exec (.attest m) s = .next t ∧ answered m 0 (attestOf s m.payload eid ++ Config.sign (attestOf s m.payload eid)) t ∧ t.mem = s.mem) ∧
    (sysReq s m 0x29 → m.payload = [] → m.arg2 = 0 → argOnly m 0 = true →
      let r := max s.rollback (min s.fwFloor 64)
      ∃ t, exec (.commitRollbackFloor m) s = .next t ∧ answered m 0 (leBytes 4 r) t ∧ t.rollback = r ∧ t.mem = s.mem) ∧
    (sysReq s m 0x2A → m.payload = [] → m.arg2 = 0 → argOnly m 0x100 = true →
      let fresh := fun (t : State) => t.phase = 0 ∧ t.mem = [] ∧ t.conns = [] ∧ (∀ k, (engOf t k).st = .free) ∧ t.teams = [] ∧
        t.rollback = s.rollback ∧ t.fwImage = s.fwImage ∧ t.fuses = s.fuses ∧ t.ac = 0
      (argBits m 8 8 = 0 → ∃ t, exec (.warmReset m) s = .next t ∧ fresh t ∧ t.warm = true ∧
        ∀ e ∈ s.engs, e.2.st = .live → .ended e.1 ∈ t.out) ∧
      (argBits m 8 8 = 1 → ∃ t, exec (.coldReset m) s = .next t ∧ fresh t ∧ t.warm = false ∧ t.out = s.out))) ∧
  (∀ (m : Msg) (s : State), sysReq s m 0x28 → argOnly m 0 = true →
    let n := m.payload.length
    let b := (if m.addr = 0 then [] else s.fwPieces) ++ m.payload
    1 ≤ n → n ≤ 4096 → m.addr.toNat + n ≤ m.arg2.toNat → (m.addr = 0 ∨ m.addr.toNat = s.fwPieces.length) →
    (m.addr.toNat + n < m.arg2.toNat → ∃ t, exec (.deliverFirmware m) s = .next t ∧ answered m 0 [] t ∧ t.fwPieces = b ∧ t.fwImage = s.fwImage) ∧
    (m.addr.toNat + n = m.arg2.toNat →
      (accepts s b = true → ∃ t, exec (.deliverFirmware m) s = .next t ∧ answered m 0 [] t ∧ t.fwImage = some b ∧ t.recovery = false) ∧
      (accepts s b = false → ∃ t l, exec (.deliverFirmware m) s = .next t ∧ t.out = .answer m.conn m.tag 2 0 0 [] :: l ∧ t.fwImage = s.fwImage)))

/-- R217, R218, R220, R221, R420 to R422, R428: pages are mapped and unmapped, grow frames reserved, windows exported, imported and revoked, watch
units programmed and cleared, and each request is answered. Afterwards a walk of any address of a mapped page finds the leaf with
its frame, permissions, interleaving and class, one of a grow range its level-1 pointer, and one of a peer's window its leaf.
The model's choices in it: statuses (log entries 89 and 90), and the answer to a request for shared pages during a step (133). -/
def Obligations.Mappings : Prop :=
  (∀ (s s1 : State) (eid die psz attr : Nat) (va : DWord) (frame : Option Nat), eid < 64 → die < 4 → psz < 3 →
    bitsAt attr 9 9 = 0 ∨ bitsAt attr 8 8 = 0 → TablesStand s eid va.toNat →
    let k := pageFrames psz
    let size := 65536 * k
    va.toNat % size = 0 → va.toNat < 2 ^ 56 → (∀ f, frame = some f → f % k = 0 ∧ f + k ≤ 2 ^ 23) →
    mapRun eid die psz attr 1 va frame s = .ok s1 → ∃ f a, (∀ g, frame = some g → f = g) ∧
      (∀ j, j < k → (frameOf s1 (65536 * (f + j))).owner = eid + 1) ∧
      (frame = none → ∀ b, 65536 * f ≤ b → b < 65536 * f + size → memByte s1 b = 0) ∧
      leadsTo s1 eid va.toNat size (3 + 8 * bitsAt attr 7 7 + 16 * bitsAt attr 8 8 + 32 * bitsAt attr 9 9 + 65536 * f + 2 ^ 52 * bitsAt attr 10 10 +
        2 ^ 60 * bitsAt attr 15 12) a ([16, 21, 30].getD psz 0)) ∧
  (∀ (s s2 : State) (eid die psz attr n : Nat) (va : DWord) (frame : Option Nat), mapRun eid die psz attr (n + 1) va frame s = .ok s2 ↔
    ∃ s1, mapRun eid die psz attr 1 va frame s = .ok s1 ∧
      mapRun eid die psz attr n (va + BitVec.ofNat 64 (65536 * pageFrames psz)) (frame.map (· + pageFrames psz)) s1 = .ok s2) ∧
  (∀ (s s1 : State) (eid attr : Nat) (va : DWord), eid < 64 → TablesStand s eid va.toNat → va.toNat % 2 ^ 21 = 0 → va.toNat < 2 ^ 56 →
    mapGrow eid attr 1 va s = .ok s1 → ∃ f, ∀ v, va.toNat ≤ v → v < va.toNat + 2 ^ 21 → walkFrom s1 v levels (engOf s1 eid).root none =
      .grow (BitVec.ofNat 64 (65 + 65536 * f + 2 ^ 52 * bitsAt attr 10 10 + 2 ^ 60 * bitsAt attr 15 12)) (65536 * f + 8 * (v / 65536 % 32))) ∧
  (∀ (s s1 : State) (eid conn win k : Nat) (va : DWord), eid < 64 → TablesStand s eid va.toNat → va.toNat % 65536 = 0 → va.toNat < 2 ^ 56 →
    conn < 256 → win < 256 → k < 2 ^ 20 → mapWindow eid conn win 1 k va s = .ok s1 →
    ∃ a, leadsTo s1 eid va.toNat 65536 (27 + 65536 * k + 2 ^ 36 * win + 2 ^ 44 * conn + 2 ^ 55) a 16) ∧
  ∀ (m : Msg) (s : State) (eid : Nat),
    let lo := m.addr.toNat
    let len := m.arg2.toNat
    let attr := pay m 12 4
    let page := lo % 65536 = 0 ∧ len % 65536 = 0 ∧ lo + len ≤ 2 ^ 56
    (sysReq s m 0x03 → onLive s m eid → mapOk m = true → rangeMapped s eid lo (pay m 8 4 * 65536 * pageFrames (bitsAt attr 1 0)) = false →
      (bitsAt attr 11 11 = 0 → ∀ s1, mapRun eid (argBits m 17 16) (bitsAt attr 1 0) attr (pay m 8 4) m.addr
          (if pay m 0 8 = poolFrame then none else some (pay m 0 8 / 65536)) s = .ok s1 →
        ∃ t, exec (.mapPages m) s = .next t ∧ answered m 0 [] t ∧ t = { s1 with out := t.out }) ∧
      (bitsAt attr 11 11 = 1 → ∀ s1, mapGrow eid attr (pay m 8 4) m.addr s = .ok s1 →
        ∃ t, exec (.mapPages m) s = .next t ∧ answered m 0 [] t ∧ t = { s1 with out := t.out })) ∧
    (sysReq s m 0x04 → onLive s m eid → m.payload = [] → argOnly m eidMask = true → page →
      (∀ l ∈ leavesIn s eid (lo + len) (len / 65536) lo, lo ≤ l.2.1 ∧ l.2.1 + l.2.2 ≤ lo + len) →
      (heldByStep s eid lo len = true → ∃ t l, exec (.unmapPages m) s = .next t ∧ t.out = .answer m.conn m.tag 2 0x0509 m.addr [] :: l ∧
        t = { s with out := t.out }) ∧
      (heldByStep s eid lo len = false → ∃ t, exec (.unmapPages m) s = .next t ∧
        t.out = s.out ∧ t.owed = s.owed ++ [⟨m.conn, m.tag, .invalidate eid m.addr len⟩] ∧
        t.pending = s.pending ++ [.translationInvalidateDone eid m.addr len] ∧
        ∀ l ∈ leavesIn s eid (lo + len) (len / 65536) lo, memByte t l.1 = 0)) ∧
    (sysReq s m 0x05 → onLive s m eid → m.payload = [] → argOnly m (eidMask + 0x30000) = true → m.addr = 0 →
      let k := 4 * eid + argBits m 17 16
      let s1 := refillList eid (argBits m 17 16) len s
      let n := (Sparse.get [] k s1.freeList).length
      n = (Sparse.get [] k s.freeList).length + len →
        ∃ t, exec (.reserveGrowFrames m) s = .next t ∧ answered m 0 (leBytes 8 n) t ∧ t.freeList = s1.freeList) ∧
    (sysReq s m 0x10 → onLive s m eid → m.payload.length = 4 → argOnly m eidMask = true → page → len ≤ 2 ^ 36 → (∃ k ∈ s.conns, k.id = pay m 0 4 ∧ k.peer = true) →
      s.windows.length < 256 → ∃ t k, exec (.exportWindow m) s = .next t ∧ answered m 0 (leBytes 4 k) t ∧ (∀ w ∈ s.windows, w.id ≠ k) ∧
        t.windows = s.windows ++ [⟨k, eid, m.addr, len, pay m 0 4⟩] ∧ t.mem = s.mem) ∧
    (sysReq s m 0x11 → onLive s m eid → m.payload.length = 8 → argOnly m eidMask = true → page → len ≤ 2 ^ 36 → pay m 0 4 < 256 → pay m 4 4 < 256 →
      (∃ k ∈ s.conns, k.id = pay m 0 4 ∧ k.peer = true) → ∀ s1, mapWindow eid (pay m 0 4) (pay m 4 4) (len / 65536) 0 m.addr s = .ok s1 →
      ∃ t, exec (.importWindow m) s = .next t ∧ answered m 0 [] t ∧ t = { s1 with out := t.out }) ∧
    (sysReq s m 0x12 → m.payload = [] → argOnly m 0xFF00 = true → m.addr = 0 → m.arg2 = 0 → (∃ w ∈ s.windows, w.id = argBits m 15 8) →
      ∃ t, exec (.revokeWindow m) s = .next t ∧ answered m 0 [] t ∧ t.windows = s.windows.filter (fun w => w.id != argBits m 15 8)) ∧
    (sysReq s m 0x14 → m.payload = [] → argOnly m 0x1FFFF00 = true → page → (engOf s (argBits m 19 14)).st = .live →
      let others := s.watches.filter (fun w => w.unit != argBits m 13 8)
      (others.filter (fun w => w.eid == argBits m 19 14)).length < (engOf s (argBits m 19 14)).logp.toNat % 64 →
      ∃ t, exec (.programWatchUnit m) s = .next t ∧ answered m 0 [] t ∧
        t.watches = others ++ [⟨argBits m 13 8, argBits m 19 14, m.addr, len, BitVec.ofNat 5 (argBits m 24 20)⟩]) ∧
    (sysReq s m 0x15 → m.payload = [] → argOnly m eidMask = true → m.addr = 0 → m.arg2 = 0 →
      ∃ t, exec (.clearWatchUnit m) s = .next t ∧ answered m 0 [] t ∧ t.watches = s.watches.filter (fun w => w.unit != argBits m 13 8))

/-- R347, R353, R372, R373, R382, R388: images, step programs, handle descriptors, and the pre-emption and termination of launches. A loaded
code section stands in frames of the engagement, page by page and filled with zeros, readable and executable.
The model's choices in it: places of images (log entries 88 and 89), and that a copy into a handle counts from its acceptance (122). -/
def Obligations.Residents : Prop :=
  (∀ code : List Byte, (codePages code).flatten = code ++ List.replicate (ceilDiv code.length 65536 * 65536 - code.length) 0 ∧
    ∀ b ∈ codePages code, b.length = 65536) ∧
  (∀ (s s1 : State) (eid : Nat) (b : List Byte) (va : DWord), eid < 64 → b.length = 65536 → TablesStand s eid va.toNat → va.toNat % 65536 = 0 →
    va.toNat < 2 ^ 56 → loadCode eid [b] va s = some s1 → ∃ f a, (frameOf s1 (65536 * f)).owner = eid + 1 ∧ memRead s1 (65536 * f) 65536 = b ∧
      leadsTo s1 eid va.toNat 65536 (0x2B + 65536 * f) a 16) ∧
  (∀ (s s2 : State) (eid : Nat) (b : List Byte) (l : List (List Byte)) (va : DWord), loadCode eid (b :: l) va s = some s2 ↔
    ∃ s1, loadCode eid [b] va s = some s1 ∧ loadCode eid l (va + 65536) s1 = some s2) ∧
  ∀ (m : Msg) (s : State) (eid : Nat),
    (∀ s1 b base slot p, sysReq s m 0x08 → onLive s m eid → m.payload = [] → argOnly m eidMask = true → readVa eid m.addr m.arg2.toNat s = (.bytes b, s1) →
      imageOk b = true → kernelCount s1 + (sectionBytes b 4).length / 64 ≤ 256 →
      (List.range 256).find? (fun k => (assoc k s1.images).isNone) = some slot →
      codeRange s1 eid (ceilDiv (sectionBytes b 5).length 65536) = some p →
      base = BitVec.ofNat 64 (65536 * p) → ∀ s2, loadCode eid (codePages (sectionBytes b 5)) base s1 = some s2 →
      ∃ t i, exec (.loadImage m) s = .next t ∧ answered m 0 (leBytes 4 slot ++ leBytes 4 0 ++ leBytes 8 base.toNat) t ∧ t.mem = s2.mem ∧
        t.images = s1.images ++ [(slot, i)] ∧ i.eid = eid ∧ i.base = base ∧ i.kernels.length = (sectionBytes b 4).length / 64) ∧
    (∀ i, sysReq s m 0x09 → m.payload = [] → argOnly m 0xFFFF00 = true → m.addr = 0 → m.arg2 = 0 → assoc (argBits m 23 8) s.images = some i →
      ((∃ l ∈ s.launches, l.phase ≠ .complete ∧ l.record.img = argBits m 23 8) →
        ∃ t, exec (.unloadImage m) s = .next t ∧ answered m 3 [] t ∧ t.images = s.images) ∧
      ((∀ l ∈ s.launches, l.phase ≠ .complete → l.record.img ≠ argBits m 23 8) →
        ∃ t, exec (.unloadImage m) s = .next t ∧ answered m 0 [] t ∧ assoc (argBits m 23 8) t.images = none)) ∧
    (∀ i, sysReq s m 0x0A → onLive s m eid → m.payload.length = 44 → argOnly m eidMask = true → m.addr = 0 → m.arg2 = 0 → programOf s eid = none →
      assoc (pay m 0 4) s.images = some i → i.eid = eid → pay m 4 4 < i.kernels.length → 1 ≤ pay m 8 4 → pay m 8 4 ≤ 4096 →
      pay m 12 4 + pay m 16 4 + pay m 20 4 + pay m 24 4 = pay m 8 4 → pay m 28 8 % 64 = 0 → pay m 28 8 < 2 ^ 56 → pay m 36 8 % 64 = 0 →
      pay m 36 8 < 2 ^ 56 → (s.programs.map (fun e => e.2.nslot)).sum + pay m 8 4 ≤ 8192 →
      (∀ l ∈ s.launches, l.phase = .queued → ¬(l.record.eng = eid ∧ l.record.img = pay m 0 4 ∧ l.record.kidx = pay m 4 4)) →
      ∃ t p, exec (.registerStepProgram m) s = .next t ∧ answered m 0 [] t ∧ programOf t eid = some p ∧ p.img = pay m 0 4 ∧
        p.kidx = pay m 4 4 ∧ p.nslot = pay m 8 4 ∧ p.nb = [pay m 12 4, pay m 16 4, pay m 20 4, pay m 24 4] ∧ p.slotTab.toNat = pay m 28 8 ∧
        p.snapTab.toNat = pay m 36 8 ∧ p.steps = 0 ∧ p.cancel = []) ∧
    (∀ p, sysReq s m 0x0B → onLive s m eid → m.payload = [] → argOnly m eidMask = true → m.addr = 0 → m.arg2 = 0 → programOf s eid = some p →
      (∀ l ∈ s.launches, l.phase = .queued → l.record.eng = eid → l.isStep = false) →
      ∃ t, exec (.unregisterStepProgram m) s = .next t ∧ answered m 0 [] t ∧ programOf t eid = none ∧ (∀ b ∈ t.siblings, b.eid ≠ eid) ∧
        ∀ v ∈ t.kv, v.eid ≠ eid) ∧
    (∀ s1, sysReq s m 0x0C → onLive s m eid → descriptorOk m.payload = true → argOnly m (eidMask + 0xFFFC0000) = true → m.addr = 0 → m.arg2 = 0 →
      readDesc s eid (argHandle m) = none →
      let st := if bitsAt (pay m 0 4) 12 12 = 1 then 0 else 1
      writeTable eid (descAddr s eid (argHandle m)) (m.payload.take 4 ++ leBytes 4 st ++ (m.payload.drop 8).take 32 ++ List.replicate 24 0) s = (none, s1) →
      ∃ t, exec (.writeHandleDescriptor m) s = .next t ∧ answered m 0 [] t ∧ t.mem = s1.mem ∧ handleOf t eid (argHandle m) = Handle.fresh) ∧
    (∀ d, sysReq s m 0x0D → onLive s m eid → m.payload = [] → argOnly m (eidMask + 0xFFFC0000) = true → m.addr = 0 → m.arg2 = 0 →
      readDesc s eid (argHandle m) = some d → d.kind ≠ 2 → leaseHolds s d = false → d.state ≠ 3 →
      (d.state = 2 → handleBusy s eid (argHandle m) = false) →
      ∃ t, exec (.freeHandle m) s = .next t ∧ answered m 0 [] t ∧ handleOf t eid (argHandle m) = Handle.fresh) ∧
    (∀ d, sysReq s m 0x0D → onLive s m eid → m.payload = [] → argOnly m (eidMask + 0xFFFC0000) = true → m.addr = 0 → m.arg2 = 0 →
      readDesc s eid (argHandle m) = some d →
      (d.kind = 2 ∨ leaseHolds s d = true → ∃ t, exec (.freeHandle m) s = .next t ∧ answered m 3 [] t ∧ t = { s with out := t.out }) ∧
      (d.kind ≠ 2 → leaseHolds s d = false → d.state = 3 → exec (.freeHandle m) s = .refused .notEnabled)) ∧
    (∀ l, sysReq s m 0x19 → m.payload.length = 8 → argOnly m 0 = true → m.addr = 0 → findLaunch s m.arg2.toNat = some l → l.phase = .queued →
      ∃ t, exec (.preemptGangs m) s = .next t ∧ t.mem = s.mem ∧
        (∀ a ∈ l.placed, pay m 0 4 ≤ a.gang → a.gang < pay m 0 4 + pay m 4 4 → ∃ v ∈ t.saved, v.launch = l.seq ∧ v.gang.gang = a.gang) ∧
        ((∀ a ∈ l.placed, a.gang < pay m 0 4 ∨ pay m 0 4 + pay m 4 4 ≤ a.gang) →
          (∀ v ∈ s.saved, v.launch = l.seq → v.saved = true) → .answer m.conn m.tag 0 0 0 [] ∈ t.out)) ∧
    (∀ l, sysReq s m 0x1A → m.payload = [] → argOnly m 0 = true → m.addr = 0 → findLaunch s m.arg2.toNat = some l → l.phase = .queued →
      (∀ tm ∈ s.teams, tm.launch = l.seq → findTeam s tm.tid = some tm ∧ tm.terminated = none) →
      ∃ t k, exec (.terminateLaunch m) s = .next t ∧ answered m 0 [] t ∧ t.mem = s.mem ∧ findLaunch t l.seq = some k ∧
        k.nextGang = l.record.ngang ∧ (l.status = 0 → k.status = 0x28) ∧ ∀ g ∈ allGroups t, (∃ tm ∈ t.teams, tm.tid = g.tid ∧ tm.launch = l.seq) →
          isOver g = true ∨ (g.midway = true ∧ g.stopping = true))

/-- R205, R222, R337, R342, R344, R370, R409, R419, R435: the registers of the device as software reads and writes them. A write changes the
fields that software owns, within their limits.
The model's choices in it: indices of the error counts (log entry 92). -/
def Obligations.DeviceRegisters : Prop :=
  ∀ (m : Msg) (s : State), argOnly m 0 = true → m.addr = 0 → registerOk m.arg2 = true →
    let r := selectorOf m.arg2
    let v := pay m 0 8
    let c := 48 * r.die + r.core
    let sl := 32 * r.die + r.slice
    let f := fun (hi lo : Nat) => bitsAt v hi lo
    let k := coreAt s c
    let w := wgOf s sl r.idx
    let cores := fun (l : Option Nat) => ((List.range 48).filter (fun n => coreClass s (48 * r.die + n) = l))
    let reads := fun (x : Nat) => sysReq s m 0x20 → m.payload = [] → ∃ t, exec (.readRegister m) s = .next t ∧ answered m 0 (leBytes 8 x) t ∧
      t = { s with out := t.out }
    (r.reg = 1 → reads (2 ^ 32 * (cores none).length + 2 ^ 24 * (cores (some 2)).length + 2 ^ 16 * (cores (some 1)).length +
      2 ^ 8 * (cores (some 0)).length + ((cores (some 2)).map (fun n => (fuseOf s (48 * r.die + n)).blocks)).sum % 256)) ∧
    (r.reg = 2 → reads (2 ^ 40 * k.age + 2 ^ 32 * k.lease + 2 ^ 8 * (if k.chg then 1 else 0) + k.localUnits)) ∧
    (r.reg = 3 → reads (2 ^ 16 * w.clsm.toNat + 2 ^ 3 * (if w.busy then 1 else 0) + w.role.toNat)) ∧
    (r.reg = 4 → reads (2 ^ 40 * s.ageth.toNat + 2 ^ 16 * s.w2.toNat + 2 ^ 8 * s.w1.toNat + s.w0.toNat)) ∧
    (r.reg = 5 → reads (2 ^ 16 * s.capw + 2 ^ 8 * s.pstep + s.ttrip)) ∧
    (r.reg = 6 → reads (if r.idx = 0 then k.corrected else if r.idx = 1 then k.uncorrected else k.discarded)) ∧
    (r.reg = 7 → reads (Sparse.get 0 (2 * sl + r.idx) s.sliceErrors)) ∧
    (r.reg = 8 → reads (nth 0 (engOf s r.idx).acct r.core)) ∧
    (sysReq s m 0x21 → m.payload.length = 8 →
      (r.reg = 1 ∨ 6 ≤ r.reg → ∃ t, exec (.writeRegister m) s = .next t ∧ answered m 4 [] t ∧ t = { s with out := t.out }) ∧
      (r.reg = 2 → ∃ t, exec (.writeRegister m) s = .next t ∧ answered m 0 [] t ∧
        coreAt t c = { k with age := f 47 40, lease := f 39 32 } ∧ (∀ n, n ≠ c → coreAt t n = coreAt s n) ∧
        t = { s with out := t.out, cores := t.cores }) ∧
      (r.reg = 3 → ∀ o, o = .writeRegister m ∨ o = .wgcfgRoleWrite m → ∃ t, exec o s = .next t ∧ answered m 0 [] t ∧
        t = { s with out := t.out, wgcfg := t.wgcfg } ∧
        (∀ i j, 16 * i + j ≠ 16 * sl + r.idx → wgOf t i j = wgOf s i j) ∧
        wgOf t sl r.idx = if w.busy = false ∧ f 1 0 ≠ 3 ∧ f 1 0 ≠ w.role.toNat
          then { w with clsm := BitVec.ofNat 16 (f 31 16), busy := true, next := BitVec.ofNat 2 (f 1 0) }
          else { w with clsm := BitVec.ofNat 16 (f 31 16) }) ∧
      (r.reg = 4 → ∃ t, exec (.writeRegister m) s = .next t ∧ answered m 0 [] t ∧ t = { s with
        out := t.out, ageth := BitVec.ofNat 8 (f 47 40), w2 := BitVec.ofNat 8 (f 23 16), w1 := BitVec.ofNat 8 (f 15 8), w0 := BitVec.ofNat 8 (f 7 0) }) ∧
      (r.reg = 5 → ∃ t, exec (.writeRegister m) s = .next t ∧ answered m 0 [] t ∧
        t = { s with out := t.out, capw := if 600 ≤ f 31 16 ∧ f 31 16 ≤ 2400 then f 31 16 else s.capw }))

/-- R416, R417, R420, R430: which requests are turned away before anything happens: from an engagement's connection one that only a
system connection may make, and the reverse; one that is malformed; and, in recovery, all but three.
The model's choices in it: the order of the checks (log entry 83). -/
def Obligations.RequestChecks : Prop :=
  ∀ (m : Msg) (s : State) (k : Conn), connOf s m = some k → m.auth = true →
    let turned := fun (o : Instr) (status : Nat) => ∃ t, exec o s = .next t ∧ answered m status [] t ∧ t = { s with out := t.out }
    let ctrl := [Instr.createEngagement m, .exitEngagement m, .mapPages m, .unmapPages m, .reserveGrowFrames m, .loadImage m, .unloadImage m,
      .registerStepProgram m, .unregisterStepProgram m, .writeHandleDescriptor m, .freeHandle m, .exportWindow m, .importWindow m,
      .revokeWindow m, .programWatchUnit m, .clearWatchUnit m, .attest m, .preemptGangs m, .terminateLaunch m, .readRegister m,
      .writeRegister m, .wgcfgRoleWrite m, .deliverFirmware m, .commitRollbackFloor m, .warmReset m, .coldReset m]
    (∀ o ∈ ctrl, (k.system = false → turned o 1) ∧ (k.system = true → hdrOk m 0x06 = false → turned o 4) ∧
      (k.system = true → s.recovery = true → inRecovery (argBits m 7 0) = false → turned o 4)) ∧
    ∀ e ∈ [(Instr.submit m, 0x01), (.submitGraph m, 0x01), (.memrd m, 0x02), (.memwr m, 0x03), (.slotwr m, 0x04), (.closiaCadd m, 0x05)],
      (m.op.toNat ≠ e.2 ∨ m.flg &&& 0xFE ≠ 0 → turned e.1 4) ∧
      (k.system = true ∨ m.eng.toNat ≠ k.eid ∨ (engOf s k.eid).st ≠ .live → turned e.1 1 ∨ turned e.1 4)
end

