-- ==== Sys2Proof/Laws/Decode.lean ====
section
/-! SUPPORT. Laws of the encoding: the fields of a word that was put together are the fields it was put together from, and
the bytes of a word read back as the word. -/

namespace Sys2Proof.Laws

open Sys2Proof Sys2Proof.Machine

/-- Low and high part of two bit vectors joined. -/
theorem low_append {n m : Nat} (a : BitVec n) (b : BitVec m) : (a ++ b).extractLsb' 0 m = b := by
  ext i hi
  simp [BitVec.getLsbD_append, hi]

theorem high_append {n m : Nat} (a : BitVec n) (b : BitVec m) : (a ++ b).extractLsb' m n = a := by
  ext i hi
  have : ¬ m + i < m := by omega
  simp [BitVec.getLsbD_append, this, hi]

/-- A part that lies above the lower of two bit vectors joined. -/
theorem above_append {n m : Nat} (a : BitVec n) (b : BitVec m) (lo k : Nat) :
    (a ++ b).extractLsb' (m + lo) k = a.extractLsb' lo k := by
  ext i hi
  simp [BitVec.getLsbD_append, Nat.add_assoc]

/-- A part that lies within the lower of two bit vectors joined. -/
theorem below_append {n m : Nat} (a : BitVec n) (b : BitVec m) (lo k : Nat) (h : lo + k ≤ m) :
    (a ++ b).extractLsb' lo k = b.extractLsb' lo k := by
  ext i hi
  have : lo + i < m := by omega
  simp [BitVec.getLsbD_append, this]

theorem opndOf_bits (o : Opnd) : opndOf (opndBits o) = o := by
  cases o <;> simp only [opndBits, opndOf, low_append, high_append] <;> rfl

theorem guardOf_bits (g : Guard) : guardOf (guardBits g) = g := by
  obtain ⟨b, n⟩ := g
  simp only [guardOf, guardBits, low_append, Guard.mk.injEq, and_true, BitVec.getLsbD_append]
  cases b <;> rfl

theorem tyOf_code (t : Ty) : tyOf (tyCode t) = t := by cases t <;> rfl

/-! ### The fields of a word (R99, R104) -/

variable (opc : BitVec 8) (sub ty : BitVec 4) (x : Fields)

theorem word_part (lo k : Nat) (h : lo + k ≤ 80) : (wordBits opc sub ty x).extractLsb' lo k = (fieldsBits x).extractLsb' lo k :=
  below_append _ _ lo k h

theorem fields_imm : (fieldsBits x).extractLsb' 0 16 = x.imm :=
  low_append _ _
theorem fields_e : (fieldsBits x).extractLsb' 16 8 = x.e :=
  (above_append _ (x.imm) 0 8).trans (low_append _ _)
theorem fields_c : (fieldsBits x).extractLsb' 24 10 = opndBits x.c :=
  (above_append _ (x.imm) 8 10).trans ((above_append _ (x.e) 0 10).trans (low_append _ _))
theorem fields_b : (fieldsBits x).extractLsb' 34 10 = opndBits x.b :=
  (above_append _ (x.imm) 18 10).trans ((above_append _ (x.e) 10 10).trans ((above_append _ (opndBits x.c) 0 10).trans (low_append _ _)))
theorem fields_a : (fieldsBits x).extractLsb' 44 10 = opndBits x.a :=
  (above_append _ (x.imm) 28 10).trans ((above_append _ (x.e) 20 10).trans ((above_append _ (opndBits x.c) 10 10).trans ((above_append _ (opndBits x.b) 0 10).trans (low_append _ _))))
theorem fields_d : (fieldsBits x).extractLsb' 54 10 = opndBits x.d :=
  (above_append _ (x.imm) 38 10).trans ((above_append _ (x.e) 30 10).trans ((above_append _ (opndBits x.c) 20 10).trans ((above_append _ (opndBits x.b) 10 10).trans ((above_append _ (opndBits x.a) 0 10).trans (low_append _ _)))))
theorem fields_md : (fieldsBits x).extractLsb' 64 3 = x.md :=
  (above_append _ (x.imm) 48 3).trans ((above_append _ (x.e) 40 3).trans ((above_append _ (opndBits x.c) 30 3).trans ((above_append _ (opndBits x.b) 20 3).trans ((above_append _ (opndBits x.a) 10 3).trans ((above_append _ (opndBits x.d) 0 3).trans (low_append _ _))))))
theorem fields_ch : (fieldsBits x).extractLsb' 67 3 = x.ch :=
  (above_append _ (x.imm) 51 3).trans ((above_append _ (x.e) 43 3).trans ((above_append _ (opndBits x.c) 33 3).trans ((above_append _ (opndBits x.b) 23 3).trans ((above_append _ (opndBits x.a) 13 3).trans ((above_append _ (opndBits x.d) 3 3).trans ((above_append _ (x.md) 0 3).trans (low_append _ _)))))))
theorem fields_ru : (fieldsBits x).extractLsb' 70 1 = BitVec.ofBool x.ru :=
  (above_append _ (x.imm) 54 1).trans ((above_append _ (x.e) 46 1).trans ((above_append _ (opndBits x.c) 36 1).trans ((above_append _ (opndBits x.b) 26 1).trans ((above_append _ (opndBits x.a) 16 1).trans ((above_append _ (opndBits x.d) 6 1).trans ((above_append _ (x.md) 3 1).trans ((above_append _ (x.ch) 0 1).trans (low_append _ _))))))))
theorem fields_u : (fieldsBits x).extractLsb' 71 1 = BitVec.ofBool x.u :=
  (above_append _ (x.imm) 55 1).trans ((above_append _ (x.e) 47 1).trans ((above_append _ (opndBits x.c) 37 1).trans ((above_append _ (opndBits x.b) 27 1).trans ((above_append _ (opndBits x.a) 17 1).trans ((above_append _ (opndBits x.d) 7 1).trans ((above_append _ (x.md) 4 1).trans ((above_append _ (x.ch) 1 1).trans ((above_append _ (BitVec.ofBool x.ru) 0 1).trans (low_append _ _)))))))))
theorem fields_g2 : (fieldsBits x).extractLsb' 72 4 = guardBits x.g2 :=
  (above_append _ (x.imm) 56 4).trans ((above_append _ (x.e) 48 4).trans ((above_append _ (opndBits x.c) 38 4).trans ((above_append _ (opndBits x.b) 28 4).trans ((above_append _ (opndBits x.a) 18 4).trans ((above_append _ (opndBits x.d) 8 4).trans ((above_append _ (x.md) 5 4).trans ((above_append _ (x.ch) 2 4).trans ((above_append _ (BitVec.ofBool x.ru) 1 4).trans ((above_append _ (BitVec.ofBool x.u) 0 4).trans (low_append _ _))))))))))
theorem fields_g1 : (fieldsBits x).extractLsb' 76 4 = guardBits x.g1 :=
  (above_append _ (x.imm) 60 4).trans ((above_append _ (x.e) 52 4).trans ((above_append _ (opndBits x.c) 42 4).trans ((above_append _ (opndBits x.b) 32 4).trans ((above_append _ (opndBits x.a) 22 4).trans ((above_append _ (opndBits x.d) 12 4).trans ((above_append _ (x.md) 9 4).trans ((above_append _ (x.ch) 6 4).trans ((above_append _ (BitVec.ofBool x.ru) 5 4).trans ((above_append _ (BitVec.ofBool x.u) 4 4).trans (high_append _ _))))))))))

theorem fieldsOf_word : fieldsOf (wordBits opc sub ty x) = x := by
  have bit : ∀ n : Nat, n < 80 → (wordBits opc sub ty x).getLsbD n = (fieldsBits x).getLsbD n := fun n h => by
    simp only [wordBits, BitVec.getLsbD_append, h, if_true]
  have u : (fieldsBits x).getLsbD 71 = x.u := by
    have := congrArg (fun v : BitVec 1 => v.getLsbD 0) (fields_u x)
    simpa using this
  have ru : (fieldsBits x).getLsbD 70 = x.ru := by
    have := congrArg (fun v : BitVec 1 => v.getLsbD 0) (fields_ru x)
    simpa using this
  simp only [fieldsOf, word_part _ _ _ _ _ _ (by decide : (76 : Nat) + 4 ≤ 80), word_part _ _ _ _ _ _ (by decide : (72 : Nat) + 4 ≤ 80),
    word_part _ _ _ _ _ _ (by decide : (67 : Nat) + 3 ≤ 80), word_part _ _ _ _ _ _ (by decide : (64 : Nat) + 3 ≤ 80),
    word_part _ _ _ _ _ _ (by decide : (54 : Nat) + 10 ≤ 80), word_part _ _ _ _ _ _ (by decide : (44 : Nat) + 10 ≤ 80),
    word_part _ _ _ _ _ _ (by decide : (34 : Nat) + 10 ≤ 80), word_part _ _ _ _ _ _ (by decide : (24 : Nat) + 10 ≤ 80),
    word_part _ _ _ _ _ _ (by decide : (16 : Nat) + 8 ≤ 80), word_part _ _ _ _ _ _ (by decide : (0 : Nat) + 16 ≤ 80),
    bit 71 (by decide), bit 70 (by decide), u, ru, fields_g1, fields_g2, fields_ch, fields_md, fields_d, fields_a, fields_b, fields_c,
    fields_e, fields_imm, guardOf_bits, opndOf_bits]

theorem word_ty : (wordBits opc sub ty x).extractLsb' 80 4 = ty :=
  (above_append _ (fieldsBits x) 0 4).trans (low_append _ _)

theorem word_sub : (wordBits opc sub ty x).extractLsb' 84 4 = sub :=
  (above_append _ (fieldsBits x) 4 4).trans ((above_append _ ty 0 4).trans (low_append _ _))

theorem word_opc : (wordBits opc sub ty x).extractLsb' 88 8 = opc :=
  (above_append _ (fieldsBits x) 8 8).trans ((above_append _ ty 4 8).trans (high_append _ _))

/-- Decoding a word of known opcode, sub-operation, type code and fields. -/
theorem decodeWord_word {i : Instr} (ho : opc ≠ 0xFF) (hm : mkInstr opc.toNat sub ty x = some i) (hf : fieldsLegal i = true) :
    decodeWord (wordBits opc sub ty x) = .instr i := by
  simp only [decodeWord, word_opc, word_sub, word_ty, fieldsOf_word, hm, hf, if_true]
  exact if_neg ho

/-! ### Bytes (R8, R97) -/

theorem leBytes_length (n x : Nat) : (leBytes n x).length = n := by
  induction n generalizing x with
  | zero => rfl
  | succ n ih => simp [leBytes, ih]

theorem leNat_leBytes (n x : Nat) : leNat (leBytes n x) = x % 256 ^ n := by
  induction n generalizing x with
  | zero => simp [leBytes, leNat, Nat.mod_one]
  | succ n ih =>
    show (BitVec.ofNat 8 x).toNat + 256 * leNat (leBytes n (x / 256)) = x % 256 ^ (n + 1)
    have e : (256 : Nat) ^ (n + 1) = 256 * 256 ^ n := by rw [Nat.pow_succ, Nat.mul_comm]
    rw [ih, BitVec.toNat_ofNat, e]
    exact (Nat.mod_mul (x := x) (a := 256) (b := 256 ^ n)).symm

theorem decodeBytes_word (w : IWord) (rest : List Byte) : decodeBytes (leBytes 12 w.toNat ++ rest) = decodeWord w := by
  have h := leBytes_length 12 w.toNat
  have hn : ¬ (leBytes 12 w.toNat ++ rest).length < 12 := by simp [h]
  have hw : w.toNat % 256 ^ 12 = w.toNat := Nat.mod_eq_of_lt (by have := w.isLt; omega)
  simp only [decodeBytes, hn, if_false, List.take_append_of_le_length (Nat.le_of_eq h.symm), List.take_of_length_le (Nat.le_of_eq h),
    leNat_leBytes, hw, BitVec.ofNat_toNat, BitVec.setWidth_eq]

end Sys2Proof.Laws
end

