-- ==== Sys2Proof/Laws/Dispatch.lean ====
section
/-! SUPPORT. The meaning of each instruction and step, one equation for each constructor of `Instr`. -/

namespace Sys2Proof.Laws

open Sys2Proof Sys2Proof.Machine

@[simp] theorem exec_bra (x : Fields) (s : State) : exec (.bra x) s = execBra x s := rfl
@[simp] theorem exec_brd (x : Fields) (s : State) : exec (.brd x) s = execBrd x s := rfl
@[simp] theorem exec_join (x : Fields) (s : State) : exec (.join x) s = execJoin x s := rfl
@[simp] theorem exec_brx (x : Fields) (s : State) : exec (.brx x) s = execBrx x s := rfl
@[simp] theorem exec_callDirect (x : Fields) (s : State) : exec (.callDirect x) s = execCallDirect x s := rfl
@[simp] theorem exec_callIndirect (x : Fields) (s : State) : exec (.callIndirect x) s = execCallIndirect x s := rfl
@[simp] theorem exec_ret (x : Fields) (s : State) : exec (.ret x) s = execRet x s := rfl
@[simp] theorem exec_exit (x : Fields) (s : State) : exec (.exit x) s = execExit x s := rfl
@[simp] theorem exec_yield (x : Fields) (s : State) : exec (.yield x) s = execYield x s := rfl
@[simp] theorem exec_trap (x : Fields) (s : State) : exec (.trap x) s = execTrap x s := rfl
@[simp] theorem exec_tresume (x : Fields) (s : State) : exec (.tresume x) s = execTresume x s := rfl
@[simp] theorem exec_cancelchk (x : Fields) (s : State) : exec (.cancelchk x) s = execCancelchk x s := rfl
@[simp] theorem exec_launch (x : Fields) (s : State) : exec (.launch x) s = execLaunch x s := rfl
@[simp] theorem exec_nop (x : Fields) (s : State) : exec (.nop x) s = execNop x s := rfl
@[simp] theorem exec_iadd (f : AddForm) (ty : Ty) (x : Fields) (s : State) : exec (.iadd f ty x) s = execIadd f ty x s := rfl
@[simp] theorem exec_isub (f : AddForm) (ty : Ty) (x : Fields) (s : State) : exec (.isub f ty x) s = execIsub f ty x s := rfl
@[simp] theorem exec_imul (f : MulForm) (ty : Ty) (x : Fields) (s : State) : exec (.imul f ty x) s = execImul f ty x s := rfl
@[simp] theorem exec_imad (f : MulForm) (ty : Ty) (x : Fields) (s : State) : exec (.imad f ty x) s = execImad f ty x s := rfl
@[simp] theorem exec_imin (ty : Ty) (x : Fields) (s : State) : exec (.imin ty x) s = execImin ty x s := rfl
@[simp] theorem exec_imax (ty : Ty) (x : Fields) (s : State) : exec (.imax ty x) s = execImax ty x s := rfl
@[simp] theorem exec_ineg (ty : Ty) (x : Fields) (s : State) : exec (.ineg ty x) s = execIneg ty x s := rfl
@[simp] theorem exec_iabs (ty : Ty) (x : Fields) (s : State) : exec (.iabs ty x) s = execIabs ty x s := rfl
@[simp] theorem exec_shl (ty : Ty) (x : Fields) (s : State) : exec (.shl ty x) s = execShl ty x s := rfl
@[simp] theorem exec_shr (f : ShrForm) (ty : Ty) (x : Fields) (s : State) : exec (.shr f ty x) s = execShr f ty x s := rfl
@[simp] theorem exec_rot (f : RotForm) (ty : Ty) (x : Fields) (s : State) : exec (.rot f ty x) s = execRot f ty x s := rfl
@[simp] theorem exec_lop (f : LopForm) (ty : Ty) (x : Fields) (s : State) : exec (.lop f ty x) s = execLop f ty x s := rfl
@[simp] theorem exec_bfx (f : BfxForm) (ty : Ty) (x : Fields) (s : State) : exec (.bfx f ty x) s = execBfx f ty x s := rfl
@[simp] theorem exec_bfi (ty : Ty) (x : Fields) (s : State) : exec (.bfi ty x) s = execBfi ty x s := rfl
@[simp] theorem exec_icmp (f : Cond) (ty : Ty) (x : Fields) (s : State) : exec (.icmp f ty x) s = execIcmp f ty x s := rfl
@[simp] theorem exec_sel (ty : Ty) (x : Fields) (s : State) : exec (.sel ty x) s = execSel ty x s := rfl
@[simp] theorem exec_clz (ty : Ty) (x : Fields) (s : State) : exec (.clz ty x) s = execClz ty x s := rfl
@[simp] theorem exec_ffs (ty : Ty) (x : Fields) (s : State) : exec (.ffs ty x) s = execFfs ty x s := rfl
@[simp] theorem exec_popc (ty : Ty) (x : Fields) (s : State) : exec (.popc ty x) s = execPopc ty x s := rfl
@[simp] theorem exec_brev (ty : Ty) (x : Fields) (s : State) : exec (.brev ty x) s = execBrev ty x s := rfl
@[simp] theorem exec_lea (ty : Ty) (x : Fields) (s : State) : exec (.lea ty x) s = execLea ty x s := rfl
@[simp] theorem exec_mov (f : MovCount) (x : Fields) (s : State) : exec (.mov f x) s = execMov f x s := rfl
@[simp] theorem exec_movSpecial (f : MovCount) (x : Fields) (s : State) : exec (.movSpecial f x) s = execMovSpecial f x s := rfl
@[simp] theorem exec_cvt (ty : Ty) (src : Ty) (x : Fields) (s : State) : exec (.cvt ty src x) s = execCvt ty src x s := rfl
@[simp] theorem exec_plop (f : PlopForm) (x : Fields) (s : State) : exec (.plop f x) s = execPlop f x s := rfl
@[simp] theorem exec_pmov (f : PmovForm) (x : Fields) (s : State) : exec (.pmov f x) s = execPmov f x s := rfl
@[simp] theorem exec_fadd (ty : Ty) (x : Fields) (s : State) : exec (.fadd ty x) s = execFadd ty x s := rfl
@[simp] theorem exec_fsub (ty : Ty) (x : Fields) (s : State) : exec (.fsub ty x) s = execFsub ty x s := rfl
@[simp] theorem exec_fmul (ty : Ty) (x : Fields) (s : State) : exec (.fmul ty x) s = execFmul ty x s := rfl
@[simp] theorem exec_ffma (f : FmaForm) (ty : Ty) (x : Fields) (s : State) : exec (.ffma f ty x) s = execFfma f ty x s := rfl
@[simp] theorem exec_fdiv (ty : Ty) (x : Fields) (s : State) : exec (.fdiv ty x) s = execFdiv ty x s := rfl
@[simp] theorem exec_fmin (ty : Ty) (x : Fields) (s : State) : exec (.fmin ty x) s = execFmin ty x s := rfl
@[simp] theorem exec_fmax (ty : Ty) (x : Fields) (s : State) : exec (.fmax ty x) s = execFmax ty x s := rfl
@[simp] theorem exec_fneg (ty : Ty) (x : Fields) (s : State) : exec (.fneg ty x) s = execFneg ty x s := rfl
@[simp] theorem exec_fabs (ty : Ty) (x : Fields) (s : State) : exec (.fabs ty x) s = execFabs ty x s := rfl
@[simp] theorem exec_fcmp (f : FCond) (ty : Ty) (x : Fields) (s : State) : exec (.fcmp f ty x) s = execFcmp f ty x s := rfl
@[simp] theorem exec_fclass (ty : Ty) (x : Fields) (s : State) : exec (.fclass ty x) s = execFclass ty x s := rfl
@[simp] theorem exec_frnd (ty : Ty) (x : Fields) (s : State) : exec (.frnd ty x) s = execFrnd ty x s := rfl
@[simp] theorem exec_rcp (ty : Ty) (x : Fields) (s : State) : exec (.rcp ty x) s = execRcp ty x s := rfl
@[simp] theorem exec_sqrt (ty : Ty) (x : Fields) (s : State) : exec (.sqrt ty x) s = execSqrt ty x s := rfl
@[simp] theorem exec_rsqrt (ty : Ty) (x : Fields) (s : State) : exec (.rsqrt ty x) s = execRsqrt ty x s := rfl
@[simp] theorem exec_exp2 (ty : Ty) (x : Fields) (s : State) : exec (.exp2 ty x) s = execExp2 ty x s := rfl
@[simp] theorem exec_log2 (ty : Ty) (x : Fields) (s : State) : exec (.log2 ty x) s = execLog2 ty x s := rfl
@[simp] theorem exec_sinpi (ty : Ty) (x : Fields) (s : State) : exec (.sinpi ty x) s = execSinpi ty x s := rfl
@[simp] theorem exec_cospi (ty : Ty) (x : Fields) (s : State) : exec (.cospi ty x) s = execCospi ty x s := rfl
@[simp] theorem exec_tanh (ty : Ty) (x : Fields) (s : State) : exec (.tanh ty x) s = execTanh ty x s := rfl
@[simp] theorem exec_sigm (ty : Ty) (x : Fields) (s : State) : exec (.sigm ty x) s = execSigm ty x s := rfl
@[simp] theorem exec_jord (x : Fields) (s : State) : exec (.jord x) s = execJord x s := rfl
@[simp] theorem exec_jseed (x : Fields) (s : State) : exec (.jseed x) s = execJseed x s := rfl
@[simp] theorem exec_jget (x : Fields) (s : State) : exec (.jget x) s = execJget x s := rfl
@[simp] theorem exec_jset (x : Fields) (s : State) : exec (.jset x) s = execJset x s := rfl
@[simp] theorem exec_jshift (x : Fields) (s : State) : exec (.jshift x) s = execJshift x s := rfl
@[simp] theorem exec_jtest (x : Fields) (s : State) : exec (.jtest x) s = execJtest x s := rfl
@[simp] theorem exec_jxr (x : Fields) (s : State) : exec (.jxr x) s = execJxr x s := rfl
@[simp] theorem exec_jxc (x : Fields) (s : State) : exec (.jxc x) s = execJxc x s := rfl
@[simp] theorem exec_shfl (f : ShflMode) (ty : Ty) (x : Fields) (s : State) : exec (.shfl f ty x) s = execShfl f ty x s := rfl
@[simp] theorem exec_vote (f : VoteForm) (x : Fields) (s : State) : exec (.vote f x) s = execVote f x s := rfl
@[simp] theorem exec_rfl (f : RflForm) (ty : Ty) (x : Fields) (s : State) : exec (.rfl f ty x) s = execRfl f ty x s := rfl
@[simp] theorem exec_fmt (x : Fields) (s : State) : exec (.fmt x) s = execFmt x s := rfl
@[simp] theorem exec_role (x : Fields) (s : State) : exec (.role x) s = execRole x s := rfl
@[simp] theorem exec_xblkAcq (x : Fields) (s : State) : exec (.xblkAcq x) s = execXblkAcq x s := rfl
@[simp] theorem exec_xblkRel (x : Fields) (s : State) : exec (.xblkRel x) s = execXblkRel x s := rfl
@[simp] theorem exec_ld (ty : Ty) (x : Fields) (s : State) : exec (.ld ty x) s = execLd ty x s := rfl
@[simp] theorem exec_st (ty : Ty) (x : Fields) (s : State) : exec (.st ty x) s = execSt ty x s := rfl
@[simp] theorem exec_pref (x : Fields) (s : State) : exec (.pref x) s = execPref x s := rfl
@[simp] theorem exec_atom (f : AtomOp) (ty : Ty) (x : Fields) (s : State) : exec (.atom f ty x) s = execAtom f ty x s := rfl
@[simp] theorem exec_red (f : RedOp) (ty : Ty) (x : Fields) (s : State) : exec (.red f ty x) s = execRed f ty x s := rfl
@[simp] theorem exec_xsum (f : XsumOp) (x : Fields) (s : State) : exec (.xsum f x) s = execXsum f x s := rfl
@[simp] theorem exec_fence (x : Fields) (s : State) : exec (.fence x) s = execFence x s := rfl
@[simp] theorem exec_cadd (x : Fields) (s : State) : exec (.cadd x) s = execCadd x s := rfl
@[simp] theorem exec_cwait (x : Fields) (s : State) : exec (.cwait x) s = execCwait x s := rfl
@[simp] theorem exec_cread (x : Fields) (s : State) : exec (.cread x) s = execCread x s := rfl
@[simp] theorem exec_bar (x : Fields) (s : State) : exec (.bar x) s = execBar x s := rfl
@[simp] theorem exec_copy (f : CopyDir) (x : Fields) (s : State) : exec (.copy f x) s = execCopy f x s := rfl
@[simp] theorem exec_xpose (x : Fields) (s : State) : exec (.xpose x) s = execXpose x s := rfl
@[simp] theorem exec_publish (x : Fields) (s : State) : exec (.publish x) s = execPublish x s := rfl
@[simp] theorem exec_resv (x : Fields) (s : State) : exec (.resv x) s = execResv x s := rfl
@[simp] theorem exec_mma (x : Fields) (s : State) : exec (.mma x) s = execMma x s := rfl
@[simp] theorem exec_mmaz (x : Fields) (s : State) : exec (.mmaz x) s = execMmaz x s := rfl
@[simp] theorem exec_drain (x : Fields) (s : State) : exec (.drain x) s = execDrain x s := rfl
@[simp] theorem exec_achk (x : Fields) (s : State) : exec (.achk x) s = execAchk x s := rfl
@[simp] theorem exec_aload (x : Fields) (s : State) : exec (.aload x) s = execAload x s := rfl
@[simp] theorem exec_sacc (x : Fields) (s : State) : exec (.sacc x) s = execSacc x s := rfl
@[simp] theorem exec_topk (x : Fields) (s : State) : exec (.topk x) s = execTopk x s := rfl
@[simp] theorem exec_kvpack (x : Fields) (s : State) : exec (.kvpack x) s = execKvpack x s := rfl
@[simp] theorem exec_breg (x : Fields) (s : State) : exec (.breg x) s = execBreg x s := rfl
@[simp] theorem exec_bpost (x : Fields) (s : State) : exec (.bpost x) s = execBpost x s := rfl
@[simp] theorem exec_bstat (x : Fields) (s : State) : exec (.bstat x) s = execBstat x s := rfl
@[simp] theorem exec_memoryResponse (acc : Nat) (s : State) : exec (.memoryResponse acc) s = execMemoryResponse acc s := rfl
@[simp] theorem exec_pageWalk (w : WalkReq) (s : State) : exec (.pageWalk w) s = execPageWalk w s := rfl
@[simp] theorem exec_growRefillDone (g : Nat) (s : State) : exec (.growRefillDone g) s = execGrowRefillDone g s := rfl
@[simp] theorem exec_emulationDone (g : Nat) (s : State) : exec (.emulationDone g) s = execEmulationDone g s := rfl
@[simp] theorem exec_sliceOperation (r : SliceReq) (s : State) : exec (.sliceOperation r) s = execSliceOperation r s := rfl
@[simp] theorem exec_releasePerformed (g : Nat) (s : State) : exec (.releasePerformed g) s = execReleasePerformed g s := rfl
@[simp] theorem exec_counterAddArrival (r : CtrAdd) (s : State) : exec (.counterAddArrival r) s = execCounterAddArrival r s := rfl
@[simp] theorem exec_counterWaitWake (g : Nat) (s : State) : exec (.counterWaitWake g) s = execCounterWaitWake g s := rfl
@[simp] theorem exec_xblkGrant (core : Nat) (lane : Nat) (s : State) : exec (.xblkGrant core lane) s = execXblkGrant core lane s := rfl
@[simp] theorem exec_commandAcceptance (g : Nat) (s : State) : exec (.commandAcceptance g) s = execCommandAcceptance g s := rfl
@[simp] theorem exec_copyExecution (r : CmdRef) (s : State) : exec (.copyExecution r) s = execCopyExecution r s := rfl
@[simp] theorem exec_copyCompletion (r : CmdRef) (s : State) : exec (.copyCompletion r) s = execCopyCompletion r s := rfl
@[simp] theorem exec_mmaPerformance (r : CmdRef) (s : State) : exec (.mmaPerformance r) s = execMmaPerformance r s := rfl
@[simp] theorem exec_mmazPerformance (r : CmdRef) (s : State) : exec (.mmazPerformance r) s = execMmazPerformance r s := rfl
@[simp] theorem exec_drainPerformance (r : CmdRef) (s : State) : exec (.drainPerformance r) s = execDrainPerformance r s := rfl
@[simp] theorem exec_achkPerformance (r : CmdRef) (s : State) : exec (.achkPerformance r) s = execAchkPerformance r s := rfl
@[simp] theorem exec_aloadPerformance (r : CmdRef) (s : State) : exec (.aloadPerformance r) s = execAloadPerformance r s := rfl
@[simp] theorem exec_publishPerformance (r : CmdRef) (s : State) : exec (.publishPerformance r) s = execPublishPerformance r s := rfl
@[simp] theorem exec_resvDecision (r : CmdRef) (s : State) : exec (.resvDecision r) s = execResvDecision r s := rfl
@[simp] theorem exec_handleMoveDone (eid : Nat) (h : Nat) (s : State) : exec (.handleMoveDone eid h) s = execHandleMoveDone eid h s := rfl
@[simp] theorem exec_deferredReport (g : Nat) (s : State) : exec (.deferredReport g) s = execDeferredReport g s := rfl
@[simp] theorem exec_translationInvalidateDone (eid : Nat) (va : DWord) (len : Nat) (s : State) : exec (.translationInvalidateDone eid va len) s = execTranslationInvalidateDone eid va len s := rfl
@[simp] theorem exec_coreClockTick (core : Nat) (s : State) : exec (.coreClockTick core) s = execCoreClockTick core s := rfl
@[simp] theorem exec_dirtyWritebackBound (core : Nat) (s : State) : exec (.dirtyWritebackBound core) s = execDirtyWritebackBound core s := rfl
@[simp] theorem exec_waitWatchdogExpiry (g : Nat) (s : State) : exec (.waitWatchdogExpiry g) s = execWaitWatchdogExpiry g s := rfl
@[simp] theorem exec_registerBlockWaitExpiry (g : Nat) (s : State) : exec (.registerBlockWaitExpiry g) s = execRegisterBlockWaitExpiry g s := rfl
@[simp] theorem exec_splitChange (core : Nat) (units : Nat) (s : State) : exec (.splitChange core units) s = execSplitChange core units s := rfl
@[simp] theorem exec_splitChangeDone (core : Nat) (s : State) : exec (.splitChangeDone core) s = execSplitChangeDone core s := rfl
@[simp] theorem exec_gangPlacement (launch : Nat) (s : State) : exec (.gangPlacement launch) s = execGangPlacement launch s := rfl
@[simp] theorem exec_launchCompletion (launch : Nat) (s : State) : exec (.launchCompletion launch) s = execLaunchCompletion launch s := rfl
@[simp] theorem exec_drainReservationOpen (launch : Nat) (s : State) : exec (.drainReservationOpen launch) s = execDrainReservationOpen launch s := rfl
@[simp] theorem exec_teamDeadline (launch : Nat) (gang : Nat) (s : State) : exec (.teamDeadline launch gang) s = execTeamDeadline launch gang s := rfl
@[simp] theorem exec_priorityPreemption (launch : Nat) (s : State) : exec (.priorityPreemption launch) s = execPriorityPreemption launch s := rfl
@[simp] theorem exec_contextSaveDone (launch : Nat) (gang : Nat) (s : State) : exec (.contextSaveDone launch gang) s = execContextSaveDone launch gang s := rfl
@[simp] theorem exec_stepStart (launch : Nat) (s : State) : exec (.stepStart launch) s = execStepStart launch s := rfl
@[simp] theorem exec_stepCompletion (launch : Nat) (s : State) : exec (.stepCompletion launch) s = execStepCompletion launch s := rfl
@[simp] theorem exec_kvPromotionDone (eid : Nat) (slot : Nat) (page : Nat) (s : State) : exec (.kvPromotionDone eid slot page) s = execKvPromotionDone eid slot page s := rfl
@[simp] theorem exec_kvPromotionFailure (eid : Nat) (slot : Nat) (page : Nat) (s : State) : exec (.kvPromotionFailure eid slot page) s = execKvPromotionFailure eid slot page s := rfl
@[simp] theorem exec_topkCompletion (g : Nat) (s : State) : exec (.topkCompletion g) s = execTopkCompletion g s := rfl
@[simp] theorem exec_kvpackCompletion (g : Nat) (s : State) : exec (.kvpackCompletion g) s = execKvpackCompletion g s := rfl
@[simp] theorem exec_halleyPost (r : HalleyReq) (s : State) : exec (.halleyPost r) s = execHalleyPost r s := rfl
@[simp] theorem exec_halleyRegistration (r : HalleyReq) (s : State) : exec (.halleyRegistration r) s = execHalleyRegistration r s := rfl
@[simp] theorem exec_halleyStatusRead (r : HalleyReq) (s : State) : exec (.halleyStatusRead r) s = execHalleyStatusRead r s := rfl
@[simp] theorem exec_halleyAnswer (g : Nat) (value : DWord) (s : State) : exec (.halleyAnswer g value) s = execHalleyAnswer g value s := rfl
@[simp] theorem exec_cancelBitDelivery (eid : Nat) (slot : Nat) (s : State) : exec (.cancelBitDelivery eid slot) s = execCancelBitDelivery eid slot s := rfl
@[simp] theorem exec_roleChangeDone (slice : Nat) (wg : Nat) (s : State) : exec (.roleChangeDone slice wg) s = execRoleChangeDone slice wg s := rfl
@[simp] theorem exec_temperatureSample (die : Nat) (storeDie : Nat) (celsius : Nat) (s : State) : exec (.temperatureSample die storeDie celsius) s = execTemperatureSample die storeDie celsius s := rfl
@[simp] theorem exec_refresh (bank : BankRef) (row : Nat) (s : State) : exec (.refresh bank row) s = execRefresh bank row s := rfl
@[simp] theorem exec_patrolScrub (bank : BankRef) (row : Nat) (block : Nat) (s : State) : exec (.patrolScrub bank row block) s = execPatrolScrub bank row block s := rfl
@[simp] theorem exec_refreshDeadlineMissed (bank : BankRef) (row : Nat) (s : State) : exec (.refreshDeadlineMissed bank row) s = execRefreshDeadlineMissed bank row s := rfl
@[simp] theorem exec_retrainingDue (die : Nat) (s : State) : exec (.retrainingDue die) s = execRetrainingDue die s := rfl
@[simp] theorem exec_retrainingForced (die : Nat) (s : State) : exec (.retrainingForced die) s = execRetrainingForced die s := rfl
@[simp] theorem exec_retrainingDone (die : Nat) (ok : Bool) (s : State) : exec (.retrainingDone die ok) s = execRetrainingDone die ok s := rfl
@[simp] theorem exec_powerStepDown (s : State) : exec (.powerStepDown) s = execPowerStepDown s := rfl
@[simp] theorem exec_powerStepUp (s : State) : exec (.powerStepUp) s = execPowerStepUp s := rfl
@[simp] theorem exec_thermalTrip (die : Nat) (s : State) : exec (.thermalTrip die) s = execThermalTrip die s := rfl
@[simp] theorem exec_logSeal (s : State) : exec (.logSeal) s = execLogSeal s := rfl
@[simp] theorem exec_linkTrainingRetry (ok : Bool) (s : State) : exec (.linkTrainingRetry ok) s = execLinkTrainingRetry ok s := rfl
@[simp] theorem exec_connectionOpen (r : ConnReq) (s : State) : exec (.connectionOpen r) s = execConnectionOpen r s := rfl
@[simp] theorem exec_submit (m : Msg) (s : State) : exec (.submit m) s = execSubmit m s := rfl
@[simp] theorem exec_submitGraph (m : Msg) (s : State) : exec (.submitGraph m) s = execSubmitGraph m s := rfl
@[simp] theorem exec_memrd (m : Msg) (s : State) : exec (.memrd m) s = execMemrd m s := rfl
@[simp] theorem exec_memwr (m : Msg) (s : State) : exec (.memwr m) s = execMemwr m s := rfl
@[simp] theorem exec_slotwr (m : Msg) (s : State) : exec (.slotwr m) s = execSlotwr m s := rfl
@[simp] theorem exec_closiaCadd (m : Msg) (s : State) : exec (.closiaCadd m) s = execClosiaCadd m s := rfl
@[simp] theorem exec_peeracc (m : Msg) (s : State) : exec (.peeracc m) s = execPeeracc m s := rfl
@[simp] theorem exec_peerAnswer (acc : Nat) (r : PeerResult) (s : State) : exec (.peerAnswer acc r) s = execPeerAnswer acc r s := rfl
@[simp] theorem exec_createEngagement (m : Msg) (s : State) : exec (.createEngagement m) s = execCreateEngagement m s := rfl
@[simp] theorem exec_exitEngagement (m : Msg) (s : State) : exec (.exitEngagement m) s = execExitEngagement m s := rfl
@[simp] theorem exec_exitScrub (eid : Nat) (s : State) : exec (.exitScrub eid) s = execExitScrub eid s := rfl
@[simp] theorem exec_mapPages (m : Msg) (s : State) : exec (.mapPages m) s = execMapPages m s := rfl
@[simp] theorem exec_unmapPages (m : Msg) (s : State) : exec (.unmapPages m) s = execUnmapPages m s := rfl
@[simp] theorem exec_reserveGrowFrames (m : Msg) (s : State) : exec (.reserveGrowFrames m) s = execReserveGrowFrames m s := rfl
@[simp] theorem exec_loadImage (m : Msg) (s : State) : exec (.loadImage m) s = execLoadImage m s := rfl
@[simp] theorem exec_unloadImage (m : Msg) (s : State) : exec (.unloadImage m) s = execUnloadImage m s := rfl
@[simp] theorem exec_registerStepProgram (m : Msg) (s : State) : exec (.registerStepProgram m) s = execRegisterStepProgram m s := rfl
@[simp] theorem exec_unregisterStepProgram (m : Msg) (s : State) : exec (.unregisterStepProgram m) s = execUnregisterStepProgram m s := rfl
@[simp] theorem exec_writeHandleDescriptor (m : Msg) (s : State) : exec (.writeHandleDescriptor m) s = execWriteHandleDescriptor m s := rfl
@[simp] theorem exec_freeHandle (m : Msg) (s : State) : exec (.freeHandle m) s = execFreeHandle m s := rfl
@[simp] theorem exec_exportWindow (m : Msg) (s : State) : exec (.exportWindow m) s = execExportWindow m s := rfl
@[simp] theorem exec_importWindow (m : Msg) (s : State) : exec (.importWindow m) s = execImportWindow m s := rfl
@[simp] theorem exec_revokeWindow (m : Msg) (s : State) : exec (.revokeWindow m) s = execRevokeWindow m s := rfl
@[simp] theorem exec_programWatchUnit (m : Msg) (s : State) : exec (.programWatchUnit m) s = execProgramWatchUnit m s := rfl
@[simp] theorem exec_clearWatchUnit (m : Msg) (s : State) : exec (.clearWatchUnit m) s = execClearWatchUnit m s := rfl
@[simp] theorem exec_attest (m : Msg) (s : State) : exec (.attest m) s = execAttest m s := rfl
@[simp] theorem exec_preemptGangs (m : Msg) (s : State) : exec (.preemptGangs m) s = execPreemptGangs m s := rfl
@[simp] theorem exec_terminateLaunch (m : Msg) (s : State) : exec (.terminateLaunch m) s = execTerminateLaunch m s := rfl
@[simp] theorem exec_readRegister (m : Msg) (s : State) : exec (.readRegister m) s = execReadRegister m s := rfl
@[simp] theorem exec_writeRegister (m : Msg) (s : State) : exec (.writeRegister m) s = execWriteRegister m s := rfl
@[simp] theorem exec_wgcfgRoleWrite (m : Msg) (s : State) : exec (.wgcfgRoleWrite m) s = execWgcfgRoleWrite m s := rfl
@[simp] theorem exec_deliverFirmware (m : Msg) (s : State) : exec (.deliverFirmware m) s = execDeliverFirmware m s := rfl
@[simp] theorem exec_commitRollbackFloor (m : Msg) (s : State) : exec (.commitRollbackFloor m) s = execCommitRollbackFloor m s := rfl
@[simp] theorem exec_warmReset (m : Msg) (s : State) : exec (.warmReset m) s = execWarmReset m s := rfl
@[simp] theorem exec_coldReset (m : Msg) (s : State) : exec (.coldReset m) s = execColdReset m s := rfl
@[simp] theorem exec_startPhaseDone (s : State) : exec (.startPhaseDone) s = execStartPhaseDone s := rfl
@[simp] theorem exec_illegalInstruction (s : State) : exec (.illegalInstruction) s = execIllegalInstruction s := rfl
@[simp] theorem exec_executeDataTrap (s : State) : exec (.executeDataTrap) s = execExecuteDataTrap s := rfl
@[simp] theorem exec_handleLeaseEnd (eid : Nat) (h : Nat) (s : State) : exec (.handleLeaseEnd eid h) s = execHandleLeaseEnd eid h s := rfl
@[simp] theorem exec_linkDown (s : State) : exec (.linkDown) s = execLinkDown s := rfl
@[simp] theorem exec_connectionClose (conn : Nat) (s : State) : exec (.connectionClose conn) s = execConnectionClose conn s := rfl
@[simp] theorem exec_unsupportedPacketDrop (mode : Nat) (s : State) : exec (.unsupportedPacketDrop mode) s = execUnsupportedPacketDrop mode s := rfl

end Sys2Proof.Laws
end

