-- ==== Sys2Proof/Laws/Map.lean ====
section
/-! SUPPORT. Laws of sparse tables: reading after a change, and the canonical form. -/

namespace Sys2Proof.Laws

open Sys2Proof.Machine

variable {α : Type}

theorem get_insert (d : α) (k j : Nat) (x : α) (t : Sparse α) :
    Sparse.get d j (Sparse.insert k x t) = if j = k then x else Sparse.get d j t := by
  induction t with
  | nil =>
    by_cases h : j = k
    · simp [Sparse.insert, Sparse.get, h]
    · simp [Sparse.insert, Sparse.get, h, Ne.symm h]
  | cons e t ih =>
    obtain ⟨a, y⟩ := e
    simp only [Sparse.insert]
    split
    · by_cases h : j = k
      · simp [Sparse.get, h]
      · simp [Sparse.get, h, Ne.symm h]
    · split
      · rename_i h
        by_cases hj : j = k
        · simp [Sparse.get, hj]
        · have : ¬ a = j := by omega
          simp [Sparse.get, hj, Ne.symm hj, this]
      · by_cases hj : a = j
        · have : ¬ j = k := by omega
          simp [Sparse.get, hj, this]
        · simp [Sparse.get, hj, ih]

theorem get_erase (d : α) (k j : Nat) (t : Sparse α) :
    Sparse.get d j (Sparse.erase k t) = if j = k then d else Sparse.get d j t := by
  induction t with
  | nil => simp [Sparse.erase, Sparse.get]
  | cons e t ih =>
    obtain ⟨a, y⟩ := e
    simp only [Sparse.erase, List.filter_cons] at ih ⊢
    by_cases ha : a = k
    · simp only [ha, bne_self_eq_false, Bool.false_eq_true, if_false, ih, Sparse.get]
      by_cases hj : j = k
      · simp [hj]
      · simp [hj, Ne.symm hj]
    · have hb : (a != k) = true := by simp [ha]
      simp only [hb, if_true, Sparse.get, ih]
      by_cases hj : a = j
      · have : ¬ j = k := by omega
        simp [hj, this]
      · simp [hj]

/-- Reading after a write: the value written at its key, the old one at every other. -/
theorem get_set [DecidableEq α] (d : α) (k j : Nat) (x : α) (t : Sparse α) :
    Sparse.get d j (Sparse.set d k x t) = if j = k then x else Sparse.get d j t := by
  unfold Sparse.set
  split
  · rename_i h
    rw [get_erase, h]
  · exact get_insert d k j x t

@[simp] theorem get_set_self [DecidableEq α] (d : α) (k : Nat) (x : α) (t : Sparse α) :
    Sparse.get d k (Sparse.set d k x t) = x := by simp [get_set]

theorem get_set_ne [DecidableEq α] (d : α) {k j : Nat} (h : j ≠ k) (x : α) (t : Sparse α) :
    Sparse.get d j (Sparse.set d k x t) = Sparse.get d j t := by simp [get_set, h]

@[simp] theorem get_nil (d : α) (k : Nat) : Sparse.get d k [] = d := rfl

theorem get_filter (d : α) (f : Nat → Bool) (k : Nat) (t : Sparse α) :
    Sparse.get d k (t.filter (fun e => f e.1)) = if f k then Sparse.get d k t else d := by
  induction t with
  | nil => simp
  | cons e t ih =>
    obtain ⟨a, y⟩ := e
    simp only [List.filter_cons, Sparse.get]
    cases hf : f a
    · by_cases hj : a = k
      · subst hj; simp [hf, ih]
      · simp [hj, ih]
    · by_cases hj : a = k
      · subst hj; simp [hf, Sparse.get]
      · simp [hj, ih, Sparse.get]

theorem get_drop (d : α) (f : Nat → Bool) (k : Nat) (t : Sparse α) :
    Sparse.get d k (Sparse.drop f t) = if f k then d else Sparse.get d k t := by
  have h := get_filter d (fun k => !f k) k t
  simp only [Sparse.drop]
  rw [h]
  cases f k <;> simp

/-! ### The canonical form -/

theorem wfFrom_weaken [DecidableEq α] (d : α) {lo lo' : Nat} (h : lo' ≤ lo) {t : Sparse α}
    (w : Sparse.wfFrom d lo t = true) : Sparse.wfFrom d lo' t = true := by
  cases t with
  | nil => rfl
  | cons e t =>
    obtain ⟨a, y⟩ := e
    simp only [Sparse.wfFrom, Bool.and_eq_true, decide_eq_true_eq] at w ⊢
    exact ⟨⟨by omega, w.1.2⟩, w.2⟩

theorem wfFrom_filter [DecidableEq α] (d : α) (f : Nat × α → Bool) {lo : Nat} {t : Sparse α}
    (w : Sparse.wfFrom d lo t = true) : Sparse.wfFrom d lo (t.filter f) = true := by
  induction t generalizing lo with
  | nil => rfl
  | cons e t ih =>
    obtain ⟨a, y⟩ := e
    simp only [Sparse.wfFrom, Bool.and_eq_true, decide_eq_true_eq] at w
    simp only [List.filter_cons]
    split
    · simp only [Sparse.wfFrom, Bool.and_eq_true, decide_eq_true_eq]
      exact ⟨w.1, ih w.2⟩
    · exact wfFrom_weaken d (by omega) (ih w.2)

theorem wfFrom_insert [DecidableEq α] (d : α) {k : Nat} {x : α} (hx : x ≠ d) {lo : Nat} {t : Sparse α} (hk : lo ≤ k)
    (w : Sparse.wfFrom d lo t = true) : Sparse.wfFrom d lo (Sparse.insert k x t) = true := by
  induction t generalizing lo with
  | nil => simp [Sparse.insert, Sparse.wfFrom, hk, hx]
  | cons e t ih =>
    obtain ⟨a, y⟩ := e
    simp only [Sparse.wfFrom, Bool.and_eq_true, decide_eq_true_eq] at w
    simp only [Sparse.insert]
    split
    · rename_i h
      simp only [Sparse.wfFrom, Bool.and_eq_true, decide_eq_true_eq]
      exact ⟨⟨hk, by simp [hx]⟩, ⟨by omega, w.1.2⟩, w.2⟩
    · split
      · rename_i h
        simp only [Sparse.wfFrom, Bool.and_eq_true, decide_eq_true_eq]
        exact ⟨⟨hk, by simp [hx]⟩, by rw [h]; exact w.2⟩
      · simp only [Sparse.wfFrom, Bool.and_eq_true, decide_eq_true_eq]
        exact ⟨w.1, ih (by omega) w.2⟩

theorem wf_nil [DecidableEq α] (d : α) : Sparse.wf d ([] : Sparse α) = true := rfl

theorem wf_erase [DecidableEq α] (d : α) (k : Nat) {t : Sparse α} (w : Sparse.wf d t = true) :
    Sparse.wf d (Sparse.erase k t) = true := wfFrom_filter d _ w

theorem wf_drop [DecidableEq α] (d : α) (f : Nat → Bool) {t : Sparse α} (w : Sparse.wf d t = true) :
    Sparse.wf d (Sparse.drop f t) = true := wfFrom_filter d _ w

/-- A write keeps the canonical form. -/
theorem wf_set [DecidableEq α] (d : α) (k : Nat) (x : α) {t : Sparse α} (w : Sparse.wf d t = true) :
    Sparse.wf d (Sparse.set d k x t) = true := by
  unfold Sparse.set
  split
  · exact wf_erase d k w
  · rename_i h
    exact wfFrom_insert d h (Nat.zero_le k) w

theorem wf_setAll [DecidableEq α] (d : α) (l : List (Nat × α)) {t : Sparse α} (w : Sparse.wf d t = true) :
    Sparse.wf d (Sparse.setAll d l t) = true := by
  unfold Sparse.setAll
  induction l generalizing t with
  | nil => exact w
  | cons e l ih => exact ih (wf_set d e.1 e.2 w)

theorem get_of_wfFrom [DecidableEq α] (d : α) {lo k : Nat} (h : k < lo) {t : Sparse α} (w : Sparse.wfFrom d lo t = true) :
    Sparse.get d k t = d := by
  induction t generalizing lo with
  | nil => rfl
  | cons e t ih =>
    obtain ⟨a, y⟩ := e
    simp only [Sparse.wfFrom, Bool.and_eq_true, decide_eq_true_eq] at w
    have : ¬ a = k := by omega
    simp only [Sparse.get, this, if_false]
    exact ih (by omega) w.2

/-- Two tables in canonical form that read alike are equal. -/
theorem ext_of_wf [DecidableEq α] (d : α) {t u : Sparse α} (lo : Nat) (ht : Sparse.wfFrom d lo t = true)
    (hu : Sparse.wfFrom d lo u = true) (h : ∀ k, Sparse.get d k t = Sparse.get d k u) : t = u := by
  induction t generalizing u lo with
  | nil =>
    cases u with
    | nil => rfl
    | cons e u =>
      obtain ⟨a, y⟩ := e
      have := h a
      simp only [Sparse.wfFrom, Bool.and_eq_true, Bool.not_eq_true', decide_eq_false_iff_not] at hu
      simp only [Sparse.get, if_true] at this
      exact absurd this.symm hu.1.2
  | cons e t ih =>
    obtain ⟨a, y⟩ := e
    cases u with
    | nil =>
      have := h a
      simp only [Sparse.wfFrom, Bool.and_eq_true, Bool.not_eq_true', decide_eq_false_iff_not] at ht
      simp only [Sparse.get, if_true] at this
      exact absurd this ht.1.2
    | cons f u =>
      obtain ⟨b, z⟩ := f
      simp only [Sparse.wfFrom, Bool.and_eq_true, Bool.not_eq_true', decide_eq_false_iff_not, decide_eq_true_eq] at ht hu
      have hab : a = b := by
        rcases Nat.lt_trichotomy a b with hlt | heq | hgt
        · have := h a
          have hb : ¬ b = a := by omega
          simp only [Sparse.get, if_true, hb, if_false] at this
          rw [get_of_wfFrom d (by omega) hu.2] at this
          exact absurd this ht.1.2
        · exact heq
        · have := h b
          have hb : ¬ a = b := by omega
          simp only [Sparse.get, if_true, hb, if_false] at this
          rw [get_of_wfFrom d (by omega) ht.2] at this
          exact absurd this.symm hu.1.2
      subst hab
      have hy : y = z := by simpa [Sparse.get] using h a
      subst hy
      congr 1
      apply ih (a + 1) ht.2 hu.2
      intro k
      by_cases hk : a = k
      · subst hk
        rw [get_of_wfFrom d (by omega) ht.2, get_of_wfFrom d (by omega) hu.2]
      · have := h k
        simpa [Sparse.get, hk] using this

end Sys2Proof.Laws
end

