-- ==== Sys2Proof/Laws/State.lean ====
section
/-! SUPPORT. What each update of the state and of a group leaves, field by field. -/

namespace Sys2Proof.Laws

open Sys2Proof.Machine


/-! ### `setG` -/

@[simp] theorem setG_turn (h : Group) (s : State) : (setG h s).turn = s.turn := rfl
@[simp] theorem setG_g (h : Group) (s : State) : (setG h s).g = h := rfl
@[simp] theorem setG_others (h : Group) (s : State) : (setG h s).others = s.others := rfl
@[simp] theorem setG_pending (h : Group) (s : State) : (setG h s).pending = s.pending := rfl
@[simp] theorem setG_out (h : Group) (s : State) : (setG h s).out = s.out := rfl
@[simp] theorem setG_ctr (h : Group) (s : State) : (setG h s).ctr = s.ctr := rfl
@[simp] theorem setG_traffic (h : Group) (s : State) : (setG h s).traffic = s.traffic := rfl
@[simp] theorem setG_fresh (h : Group) (s : State) : (setG h s).fresh = s.fresh := rfl
@[simp] theorem setG_ac (h : Group) (s : State) : (setG h s).ac = s.ac := rfl
@[simp] theorem setG_sc (h : Group) (s : State) : (setG h s).sc = s.sc := rfl
@[simp] theorem setG_mem (h : Group) (s : State) : (setG h s).mem = s.mem := rfl
@[simp] theorem setG_poison (h : Group) (s : State) : (setG h s).poison = s.poison := rfl
@[simp] theorem setG_tagFail (h : Group) (s : State) : (setG h s).tagFail = s.tagFail := rfl
@[simp] theorem setG_wts (h : Group) (s : State) : (setG h s).wts = s.wts := rfl
@[simp] theorem setG_rts (h : Group) (s : State) : (setG h s).rts = s.rts := rfl
@[simp] theorem setG_wrote (h : Group) (s : State) : (setG h s).wrote = s.wrote := rfl
@[simp] theorem setG_strong (h : Group) (s : State) : (setG h s).strong = s.strong := rfl
@[simp] theorem setG_sums (h : Group) (s : State) : (setG h s).sums = s.sums := rfl
@[simp] theorem setG_cached (h : Group) (s : State) : (setG h s).cached = s.cached := rfl
@[simp] theorem setG_clusterTlbs (h : Group) (s : State) : (setG h s).clusterTlbs = s.clusterTlbs := rfl
@[simp] theorem setG_dieTlbs (h : Group) (s : State) : (setG h s).dieTlbs = s.dieTlbs := rfl
@[simp] theorem setG_walkers (h : Group) (s : State) : (setG h s).walkers = s.walkers := rfl
@[simp] theorem setG_frames (h : Group) (s : State) : (setG h s).frames = s.frames := rfl
@[simp] theorem setG_poolNext (h : Group) (s : State) : (setG h s).poolNext = s.poolNext := rfl
@[simp] theorem setG_poolBack (h : Group) (s : State) : (setG h s).poolBack = s.poolBack := rfl
@[simp] theorem setG_freeList (h : Group) (s : State) : (setG h s).freeList = s.freeList := rfl
@[simp] theorem setG_cores (h : Group) (s : State) : (setG h s).cores = s.cores := rfl
@[simp] theorem setG_fuses (h : Group) (s : State) : (setG h s).fuses = s.fuses := rfl
@[simp] theorem setG_teams (h : Group) (s : State) : (setG h s).teams = s.teams := rfl
@[simp] theorem setG_accs (h : Group) (s : State) : (setG h s).accs = s.accs := rfl
@[simp] theorem setG_images (h : Group) (s : State) : (setG h s).images = s.images := rfl
@[simp] theorem setG_launches (h : Group) (s : State) : (setG h s).launches = s.launches := rfl
@[simp] theorem setG_nextSeq (h : Group) (s : State) : (setG h s).nextSeq = s.nextSeq := rfl
@[simp] theorem setG_saved (h : Group) (s : State) : (setG h s).saved = s.saved := rfl
@[simp] theorem setG_held (h : Group) (s : State) : (setG h s).held = s.held := rfl
@[simp] theorem setG_reservation (h : Group) (s : State) : (setG h s).reservation = s.reservation := rfl
@[simp] theorem setG_engs (h : Group) (s : State) : (setG h s).engs = s.engs := rfl
@[simp] theorem setG_handles (h : Group) (s : State) : (setG h s).handles = s.handles := rfl
@[simp] theorem setG_wgcfg (h : Group) (s : State) : (setG h s).wgcfg = s.wgcfg := rfl
@[simp] theorem setG_sliceErrors (h : Group) (s : State) : (setG h s).sliceErrors = s.sliceErrors := rfl
@[simp] theorem setG_kv (h : Group) (s : State) : (setG h s).kv = s.kv := rfl
@[simp] theorem setG_programs (h : Group) (s : State) : (setG h s).programs = s.programs := rfl
@[simp] theorem setG_siblings (h : Group) (s : State) : (setG h s).siblings = s.siblings := rfl
@[simp] theorem setG_posts (h : Group) (s : State) : (setG h s).posts = s.posts := rfl
@[simp] theorem setG_packs (h : Group) (s : State) : (setG h s).packs = s.packs := rfl
@[simp] theorem setG_conns (h : Group) (s : State) : (setG h s).conns = s.conns := rfl
@[simp] theorem setG_owed (h : Group) (s : State) : (setG h s).owed = s.owed := rfl
@[simp] theorem setG_linkUp (h : Group) (s : State) : (setG h s).linkUp = s.linkUp := rfl
@[simp] theorem setG_linkTry (h : Group) (s : State) : (setG h s).linkTry = s.linkTry := rfl
@[simp] theorem setG_dropped (h : Group) (s : State) : (setG h s).dropped = s.dropped := rfl
@[simp] theorem setG_windows (h : Group) (s : State) : (setG h s).windows = s.windows := rfl
@[simp] theorem setG_watches (h : Group) (s : State) : (setG h s).watches = s.watches := rfl
@[simp] theorem setG_log (h : Group) (s : State) : (setG h s).log = s.log := rfl
@[simp] theorem setG_chain (h : Group) (s : State) : (setG h s).chain = s.chain := rfl
@[simp] theorem setG_logIndex (h : Group) (s : State) : (setG h s).logIndex = s.logIndex := rfl
@[simp] theorem setG_lastSeal (h : Group) (s : State) : (setG h s).lastSeal = s.lastSeal := rfl
@[simp] theorem setG_phase (h : Group) (s : State) : (setG h s).phase = s.phase := rfl
@[simp] theorem setG_warm (h : Group) (s : State) : (setG h s).warm = s.warm := rfl
@[simp] theorem setG_recovery (h : Group) (s : State) : (setG h s).recovery = s.recovery := rfl
@[simp] theorem setG_fwImage (h : Group) (s : State) : (setG h s).fwImage = s.fwImage := rfl
@[simp] theorem setG_fwVersion (h : Group) (s : State) : (setG h s).fwVersion = s.fwVersion := rfl
@[simp] theorem setG_fwFloor (h : Group) (s : State) : (setG h s).fwFloor = s.fwFloor := rfl
@[simp] theorem setG_fwDigest (h : Group) (s : State) : (setG h s).fwDigest = s.fwDigest := rfl
@[simp] theorem setG_fwPieces (h : Group) (s : State) : (setG h s).fwPieces = s.fwPieces := rfl
@[simp] theorem setG_rollback (h : Group) (s : State) : (setG h s).rollback = s.rollback := rfl
@[simp] theorem setG_ageth (h : Group) (s : State) : (setG h s).ageth = s.ageth := rfl
@[simp] theorem setG_w2 (h : Group) (s : State) : (setG h s).w2 = s.w2 := rfl
@[simp] theorem setG_w1 (h : Group) (s : State) : (setG h s).w1 = s.w1 := rfl
@[simp] theorem setG_w0 (h : Group) (s : State) : (setG h s).w0 = s.w0 := rfl
@[simp] theorem setG_capw (h : Group) (s : State) : (setG h s).capw = s.capw := rfl
@[simp] theorem setG_pstep (h : Group) (s : State) : (setG h s).pstep = s.pstep := rfl
@[simp] theorem setG_ttrip (h : Group) (s : State) : (setG h s).ttrip = s.ttrip := rfl
@[simp] theorem setG_power (h : Group) (s : State) : (setG h s).power = s.power := rfl
@[simp] theorem setG_coolSince (h : Group) (s : State) : (setG h s).coolSince = s.coolSince := rfl
@[simp] theorem setG_temps (h : Group) (s : State) : (setG h s).temps = s.temps := rfl
@[simp] theorem setG_band (h : Group) (s : State) : (setG h s).band = s.band := rfl
@[simp] theorem setG_refreshed (h : Group) (s : State) : (setG h s).refreshed = s.refreshed := rfl
@[simp] theorem setG_patrolled (h : Group) (s : State) : (setG h s).patrolled = s.patrolled := rfl
@[simp] theorem setG_deadRows (h : Group) (s : State) : (setG h s).deadRows = s.deadRows := rfl
@[simp] theorem setG_buses (h : Group) (s : State) : (setG h s).buses = s.buses := rfl

/-! ### `setCore` -/

@[simp] theorem setCore_turn (c : Nat) (k : Core) (s : State) : (setCore c k s).turn = s.turn := rfl
@[simp] theorem setCore_g (c : Nat) (k : Core) (s : State) : (setCore c k s).g = s.g := rfl
@[simp] theorem setCore_others (c : Nat) (k : Core) (s : State) : (setCore c k s).others = s.others := rfl
@[simp] theorem setCore_pending (c : Nat) (k : Core) (s : State) : (setCore c k s).pending = s.pending := rfl
@[simp] theorem setCore_out (c : Nat) (k : Core) (s : State) : (setCore c k s).out = s.out := rfl
@[simp] theorem setCore_ctr (c : Nat) (k : Core) (s : State) : (setCore c k s).ctr = s.ctr := rfl
@[simp] theorem setCore_traffic (c : Nat) (k : Core) (s : State) : (setCore c k s).traffic = s.traffic := rfl
@[simp] theorem setCore_fresh (c : Nat) (k : Core) (s : State) : (setCore c k s).fresh = s.fresh := rfl
@[simp] theorem setCore_ac (c : Nat) (k : Core) (s : State) : (setCore c k s).ac = s.ac := rfl
@[simp] theorem setCore_sc (c : Nat) (k : Core) (s : State) : (setCore c k s).sc = s.sc := rfl
@[simp] theorem setCore_mem (c : Nat) (k : Core) (s : State) : (setCore c k s).mem = s.mem := rfl
@[simp] theorem setCore_poison (c : Nat) (k : Core) (s : State) : (setCore c k s).poison = s.poison := rfl
@[simp] theorem setCore_tagFail (c : Nat) (k : Core) (s : State) : (setCore c k s).tagFail = s.tagFail := rfl
@[simp] theorem setCore_wts (c : Nat) (k : Core) (s : State) : (setCore c k s).wts = s.wts := rfl
@[simp] theorem setCore_rts (c : Nat) (k : Core) (s : State) : (setCore c k s).rts = s.rts := rfl
@[simp] theorem setCore_wrote (c : Nat) (k : Core) (s : State) : (setCore c k s).wrote = s.wrote := rfl
@[simp] theorem setCore_strong (c : Nat) (k : Core) (s : State) : (setCore c k s).strong = s.strong := rfl
@[simp] theorem setCore_sums (c : Nat) (k : Core) (s : State) : (setCore c k s).sums = s.sums := rfl
@[simp] theorem setCore_cached (c : Nat) (k : Core) (s : State) : (setCore c k s).cached = s.cached := rfl
@[simp] theorem setCore_clusterTlbs (c : Nat) (k : Core) (s : State) : (setCore c k s).clusterTlbs = s.clusterTlbs := rfl
@[simp] theorem setCore_dieTlbs (c : Nat) (k : Core) (s : State) : (setCore c k s).dieTlbs = s.dieTlbs := rfl
@[simp] theorem setCore_walkers (c : Nat) (k : Core) (s : State) : (setCore c k s).walkers = s.walkers := rfl
@[simp] theorem setCore_frames (c : Nat) (k : Core) (s : State) : (setCore c k s).frames = s.frames := rfl
@[simp] theorem setCore_poolNext (c : Nat) (k : Core) (s : State) : (setCore c k s).poolNext = s.poolNext := rfl
@[simp] theorem setCore_poolBack (c : Nat) (k : Core) (s : State) : (setCore c k s).poolBack = s.poolBack := rfl
@[simp] theorem setCore_freeList (c : Nat) (k : Core) (s : State) : (setCore c k s).freeList = s.freeList := rfl
@[simp] theorem setCore_cores (c : Nat) (k : Core) (s : State) : (setCore c k s).cores = Sparse.set Core.reset c k s.cores := rfl
@[simp] theorem setCore_fuses (c : Nat) (k : Core) (s : State) : (setCore c k s).fuses = s.fuses := rfl
@[simp] theorem setCore_teams (c : Nat) (k : Core) (s : State) : (setCore c k s).teams = s.teams := rfl
@[simp] theorem setCore_accs (c : Nat) (k : Core) (s : State) : (setCore c k s).accs = s.accs := rfl
@[simp] theorem setCore_images (c : Nat) (k : Core) (s : State) : (setCore c k s).images = s.images := rfl
@[simp] theorem setCore_launches (c : Nat) (k : Core) (s : State) : (setCore c k s).launches = s.launches := rfl
@[simp] theorem setCore_nextSeq (c : Nat) (k : Core) (s : State) : (setCore c k s).nextSeq = s.nextSeq := rfl
@[simp] theorem setCore_saved (c : Nat) (k : Core) (s : State) : (setCore c k s).saved = s.saved := rfl
@[simp] theorem setCore_held (c : Nat) (k : Core) (s : State) : (setCore c k s).held = s.held := rfl
@[simp] theorem setCore_reservation (c : Nat) (k : Core) (s : State) : (setCore c k s).reservation = s.reservation := rfl
@[simp] theorem setCore_engs (c : Nat) (k : Core) (s : State) : (setCore c k s).engs = s.engs := rfl
@[simp] theorem setCore_handles (c : Nat) (k : Core) (s : State) : (setCore c k s).handles = s.handles := rfl
@[simp] theorem setCore_wgcfg (c : Nat) (k : Core) (s : State) : (setCore c k s).wgcfg = s.wgcfg := rfl
@[simp] theorem setCore_sliceErrors (c : Nat) (k : Core) (s : State) : (setCore c k s).sliceErrors = s.sliceErrors := rfl
@[simp] theorem setCore_kv (c : Nat) (k : Core) (s : State) : (setCore c k s).kv = s.kv := rfl
@[simp] theorem setCore_programs (c : Nat) (k : Core) (s : State) : (setCore c k s).programs = s.programs := rfl
@[simp] theorem setCore_siblings (c : Nat) (k : Core) (s : State) : (setCore c k s).siblings = s.siblings := rfl
@[simp] theorem setCore_posts (c : Nat) (k : Core) (s : State) : (setCore c k s).posts = s.posts := rfl
@[simp] theorem setCore_packs (c : Nat) (k : Core) (s : State) : (setCore c k s).packs = s.packs := rfl
@[simp] theorem setCore_conns (c : Nat) (k : Core) (s : State) : (setCore c k s).conns = s.conns := rfl
@[simp] theorem setCore_owed (c : Nat) (k : Core) (s : State) : (setCore c k s).owed = s.owed := rfl
@[simp] theorem setCore_linkUp (c : Nat) (k : Core) (s : State) : (setCore c k s).linkUp = s.linkUp := rfl
@[simp] theorem setCore_linkTry (c : Nat) (k : Core) (s : State) : (setCore c k s).linkTry = s.linkTry := rfl
@[simp] theorem setCore_dropped (c : Nat) (k : Core) (s : State) : (setCore c k s).dropped = s.dropped := rfl
@[simp] theorem setCore_windows (c : Nat) (k : Core) (s : State) : (setCore c k s).windows = s.windows := rfl
@[simp] theorem setCore_watches (c : Nat) (k : Core) (s : State) : (setCore c k s).watches = s.watches := rfl
@[simp] theorem setCore_log (c : Nat) (k : Core) (s : State) : (setCore c k s).log = s.log := rfl
@[simp] theorem setCore_chain (c : Nat) (k : Core) (s : State) : (setCore c k s).chain = s.chain := rfl
@[simp] theorem setCore_logIndex (c : Nat) (k : Core) (s : State) : (setCore c k s).logIndex = s.logIndex := rfl
@[simp] theorem setCore_lastSeal (c : Nat) (k : Core) (s : State) : (setCore c k s).lastSeal = s.lastSeal := rfl
@[simp] theorem setCore_phase (c : Nat) (k : Core) (s : State) : (setCore c k s).phase = s.phase := rfl
@[simp] theorem setCore_warm (c : Nat) (k : Core) (s : State) : (setCore c k s).warm = s.warm := rfl
@[simp] theorem setCore_recovery (c : Nat) (k : Core) (s : State) : (setCore c k s).recovery = s.recovery := rfl
@[simp] theorem setCore_fwImage (c : Nat) (k : Core) (s : State) : (setCore c k s).fwImage = s.fwImage := rfl
@[simp] theorem setCore_fwVersion (c : Nat) (k : Core) (s : State) : (setCore c k s).fwVersion = s.fwVersion := rfl
@[simp] theorem setCore_fwFloor (c : Nat) (k : Core) (s : State) : (setCore c k s).fwFloor = s.fwFloor := rfl
@[simp] theorem setCore_fwDigest (c : Nat) (k : Core) (s : State) : (setCore c k s).fwDigest = s.fwDigest := rfl
@[simp] theorem setCore_fwPieces (c : Nat) (k : Core) (s : State) : (setCore c k s).fwPieces = s.fwPieces := rfl
@[simp] theorem setCore_rollback (c : Nat) (k : Core) (s : State) : (setCore c k s).rollback = s.rollback := rfl
@[simp] theorem setCore_ageth (c : Nat) (k : Core) (s : State) : (setCore c k s).ageth = s.ageth := rfl
@[simp] theorem setCore_w2 (c : Nat) (k : Core) (s : State) : (setCore c k s).w2 = s.w2 := rfl
@[simp] theorem setCore_w1 (c : Nat) (k : Core) (s : State) : (setCore c k s).w1 = s.w1 := rfl
@[simp] theorem setCore_w0 (c : Nat) (k : Core) (s : State) : (setCore c k s).w0 = s.w0 := rfl
@[simp] theorem setCore_capw (c : Nat) (k : Core) (s : State) : (setCore c k s).capw = s.capw := rfl
@[simp] theorem setCore_pstep (c : Nat) (k : Core) (s : State) : (setCore c k s).pstep = s.pstep := rfl
@[simp] theorem setCore_ttrip (c : Nat) (k : Core) (s : State) : (setCore c k s).ttrip = s.ttrip := rfl
@[simp] theorem setCore_power (c : Nat) (k : Core) (s : State) : (setCore c k s).power = s.power := rfl
@[simp] theorem setCore_coolSince (c : Nat) (k : Core) (s : State) : (setCore c k s).coolSince = s.coolSince := rfl
@[simp] theorem setCore_temps (c : Nat) (k : Core) (s : State) : (setCore c k s).temps = s.temps := rfl
@[simp] theorem setCore_band (c : Nat) (k : Core) (s : State) : (setCore c k s).band = s.band := rfl
@[simp] theorem setCore_refreshed (c : Nat) (k : Core) (s : State) : (setCore c k s).refreshed = s.refreshed := rfl
@[simp] theorem setCore_patrolled (c : Nat) (k : Core) (s : State) : (setCore c k s).patrolled = s.patrolled := rfl
@[simp] theorem setCore_deadRows (c : Nat) (k : Core) (s : State) : (setCore c k s).deadRows = s.deadRows := rfl
@[simp] theorem setCore_buses (c : Nat) (k : Core) (s : State) : (setCore c k s).buses = s.buses := rfl

/-! ### `modCore` -/

@[simp] theorem modCore_turn (c : Nat) (f : Core → Core) (s : State) : (modCore c f s).turn = s.turn := rfl
@[simp] theorem modCore_g (c : Nat) (f : Core → Core) (s : State) : (modCore c f s).g = s.g := rfl
@[simp] theorem modCore_others (c : Nat) (f : Core → Core) (s : State) : (modCore c f s).others = s.others := rfl
@[simp] theorem modCore_pending (c : Nat) (f : Core → Core) (s : State) : (modCore c f s).pending = s.pending := rfl
@[simp] theorem modCore_out (c : Nat) (f : Core → Core) (s : State) : (modCore c f s).out = s.out := rfl
@[simp] theorem modCore_ctr (c : Nat) (f : Core → Core) (s : State) : (modCore c f s).ctr = s.ctr := rfl
@[simp] theorem modCore_traffic (c : Nat) (f : Core → Core) (s : State) : (modCore c f s).traffic = s.traffic := rfl
@[simp] theorem modCore_fresh (c : Nat) (f : Core → Core) (s : State) : (modCore c f s).fresh = s.fresh := rfl
@[simp] theorem modCore_ac (c : Nat) (f : Core → Core) (s : State) : (modCore c f s).ac = s.ac := rfl
@[simp] theorem modCore_sc (c : Nat) (f : Core → Core) (s : State) : (modCore c f s).sc = s.sc := rfl
@[simp] theorem modCore_mem (c : Nat) (f : Core → Core) (s : State) : (modCore c f s).mem = s.mem := rfl
@[simp] theorem modCore_poison (c : Nat) (f : Core → Core) (s : State) : (modCore c f s).poison = s.poison := rfl
@[simp] theorem modCore_tagFail (c : Nat) (f : Core → Core) (s : State) : (modCore c f s).tagFail = s.tagFail := rfl
@[simp] theorem modCore_wts (c : Nat) (f : Core → Core) (s : State) : (modCore c f s).wts = s.wts := rfl
@[simp] theorem modCore_rts (c : Nat) (f : Core → Core) (s : State) : (modCore c f s).rts = s.rts := rfl
@[simp] theorem modCore_wrote (c : Nat) (f : Core → Core) (s : State) : (modCore c f s).wrote = s.wrote := rfl
@[simp] theorem modCore_strong (c : Nat) (f : Core → Core) (s : State) : (modCore c f s).strong = s.strong := rfl
@[simp] theorem modCore_sums (c : Nat) (f : Core → Core) (s : State) : (modCore c f s).sums = s.sums := rfl
@[simp] theorem modCore_cached (c : Nat) (f : Core → Core) (s : State) : (modCore c f s).cached = s.cached := rfl
@[simp] theorem modCore_clusterTlbs (c : Nat) (f : Core → Core) (s : State) : (modCore c f s).clusterTlbs = s.clusterTlbs := rfl
@[simp] theorem modCore_dieTlbs (c : Nat) (f : Core → Core) (s : State) : (modCore c f s).dieTlbs = s.dieTlbs := rfl
@[simp] theorem modCore_walkers (c : Nat) (f : Core → Core) (s : State) : (modCore c f s).walkers = s.walkers := rfl
@[simp] theorem modCore_frames (c : Nat) (f : Core → Core) (s : State) : (modCore c f s).frames = s.frames := rfl
@[simp] theorem modCore_poolNext (c : Nat) (f : Core → Core) (s : State) : (modCore c f s).poolNext = s.poolNext := rfl
@[simp] theorem modCore_poolBack (c : Nat) (f : Core → Core) (s : State) : (modCore c f s).poolBack = s.poolBack := rfl
@[simp] theorem modCore_freeList (c : Nat) (f : Core → Core) (s : State) : (modCore c f s).freeList = s.freeList := rfl
@[simp] theorem modCore_cores (c : Nat) (f : Core → Core) (s : State) : (modCore c f s).cores = Sparse.set Core.reset c (f (coreAt s c)) s.cores := rfl
@[simp] theorem modCore_fuses (c : Nat) (f : Core → Core) (s : State) : (modCore c f s).fuses = s.fuses := rfl
@[simp] theorem modCore_teams (c : Nat) (f : Core → Core) (s : State) : (modCore c f s).teams = s.teams := rfl
@[simp] theorem modCore_accs (c : Nat) (f : Core → Core) (s : State) : (modCore c f s).accs = s.accs := rfl
@[simp] theorem modCore_images (c : Nat) (f : Core → Core) (s : State) : (modCore c f s).images = s.images := rfl
@[simp] theorem modCore_launches (c : Nat) (f : Core → Core) (s : State) : (modCore c f s).launches = s.launches := rfl
@[simp] theorem modCore_nextSeq (c : Nat) (f : Core → Core) (s : State) : (modCore c f s).nextSeq = s.nextSeq := rfl
@[simp] theorem modCore_saved (c : Nat) (f : Core → Core) (s : State) : (modCore c f s).saved = s.saved := rfl
@[simp] theorem modCore_held (c : Nat) (f : Core → Core) (s : State) : (modCore c f s).held = s.held := rfl
@[simp] theorem modCore_reservation (c : Nat) (f : Core → Core) (s : State) : (modCore c f s).reservation = s.reservation := rfl
@[simp] theorem modCore_engs (c : Nat) (f : Core → Core) (s : State) : (modCore c f s).engs = s.engs := rfl
@[simp] theorem modCore_handles (c : Nat) (f : Core → Core) (s : State) : (modCore c f s).handles = s.handles := rfl
@[simp] theorem modCore_wgcfg (c : Nat) (f : Core → Core) (s : State) : (modCore c f s).wgcfg = s.wgcfg := rfl
@[simp] theorem modCore_sliceErrors (c : Nat) (f : Core → Core) (s : State) : (modCore c f s).sliceErrors = s.sliceErrors := rfl
@[simp] theorem modCore_kv (c : Nat) (f : Core → Core) (s : State) : (modCore c f s).kv = s.kv := rfl
@[simp] theorem modCore_programs (c : Nat) (f : Core → Core) (s : State) : (modCore c f s).programs = s.programs := rfl
@[simp] theorem modCore_siblings (c : Nat) (f : Core → Core) (s : State) : (modCore c f s).siblings = s.siblings := rfl
@[simp] theorem modCore_posts (c : Nat) (f : Core → Core) (s : State) : (modCore c f s).posts = s.posts := rfl
@[simp] theorem modCore_packs (c : Nat) (f : Core → Core) (s : State) : (modCore c f s).packs = s.packs := rfl
@[simp] theorem modCore_conns (c : Nat) (f : Core → Core) (s : State) : (modCore c f s).conns = s.conns := rfl
@[simp] theorem modCore_owed (c : Nat) (f : Core → Core) (s : State) : (modCore c f s).owed = s.owed := rfl
@[simp] theorem modCore_linkUp (c : Nat) (f : Core → Core) (s : State) : (modCore c f s).linkUp = s.linkUp := rfl
@[simp] theorem modCore_linkTry (c : Nat) (f : Core → Core) (s : State) : (modCore c f s).linkTry = s.linkTry := rfl
@[simp] theorem modCore_dropped (c : Nat) (f : Core → Core) (s : State) : (modCore c f s).dropped = s.dropped := rfl
@[simp] theorem modCore_windows (c : Nat) (f : Core → Core) (s : State) : (modCore c f s).windows = s.windows := rfl
@[simp] theorem modCore_watches (c : Nat) (f : Core → Core) (s : State) : (modCore c f s).watches = s.watches := rfl
@[simp] theorem modCore_log (c : Nat) (f : Core → Core) (s : State) : (modCore c f s).log = s.log := rfl
@[simp] theorem modCore_chain (c : Nat) (f : Core → Core) (s : State) : (modCore c f s).chain = s.chain := rfl
@[simp] theorem modCore_logIndex (c : Nat) (f : Core → Core) (s : State) : (modCore c f s).logIndex = s.logIndex := rfl
@[simp] theorem modCore_lastSeal (c : Nat) (f : Core → Core) (s : State) : (modCore c f s).lastSeal = s.lastSeal := rfl
@[simp] theorem modCore_phase (c : Nat) (f : Core → Core) (s : State) : (modCore c f s).phase = s.phase := rfl
@[simp] theorem modCore_warm (c : Nat) (f : Core → Core) (s : State) : (modCore c f s).warm = s.warm := rfl
@[simp] theorem modCore_recovery (c : Nat) (f : Core → Core) (s : State) : (modCore c f s).recovery = s.recovery := rfl
@[simp] theorem modCore_fwImage (c : Nat) (f : Core → Core) (s : State) : (modCore c f s).fwImage = s.fwImage := rfl
@[simp] theorem modCore_fwVersion (c : Nat) (f : Core → Core) (s : State) : (modCore c f s).fwVersion = s.fwVersion := rfl
@[simp] theorem modCore_fwFloor (c : Nat) (f : Core → Core) (s : State) : (modCore c f s).fwFloor = s.fwFloor := rfl
@[simp] theorem modCore_fwDigest (c : Nat) (f : Core → Core) (s : State) : (modCore c f s).fwDigest = s.fwDigest := rfl
@[simp] theorem modCore_fwPieces (c : Nat) (f : Core → Core) (s : State) : (modCore c f s).fwPieces = s.fwPieces := rfl
@[simp] theorem modCore_rollback (c : Nat) (f : Core → Core) (s : State) : (modCore c f s).rollback = s.rollback := rfl
@[simp] theorem modCore_ageth (c : Nat) (f : Core → Core) (s : State) : (modCore c f s).ageth = s.ageth := rfl
@[simp] theorem modCore_w2 (c : Nat) (f : Core → Core) (s : State) : (modCore c f s).w2 = s.w2 := rfl
@[simp] theorem modCore_w1 (c : Nat) (f : Core → Core) (s : State) : (modCore c f s).w1 = s.w1 := rfl
@[simp] theorem modCore_w0 (c : Nat) (f : Core → Core) (s : State) : (modCore c f s).w0 = s.w0 := rfl
@[simp] theorem modCore_capw (c : Nat) (f : Core → Core) (s : State) : (modCore c f s).capw = s.capw := rfl
@[simp] theorem modCore_pstep (c : Nat) (f : Core → Core) (s : State) : (modCore c f s).pstep = s.pstep := rfl
@[simp] theorem modCore_ttrip (c : Nat) (f : Core → Core) (s : State) : (modCore c f s).ttrip = s.ttrip := rfl
@[simp] theorem modCore_power (c : Nat) (f : Core → Core) (s : State) : (modCore c f s).power = s.power := rfl
@[simp] theorem modCore_coolSince (c : Nat) (f : Core → Core) (s : State) : (modCore c f s).coolSince = s.coolSince := rfl
@[simp] theorem modCore_temps (c : Nat) (f : Core → Core) (s : State) : (modCore c f s).temps = s.temps := rfl
@[simp] theorem modCore_band (c : Nat) (f : Core → Core) (s : State) : (modCore c f s).band = s.band := rfl
@[simp] theorem modCore_refreshed (c : Nat) (f : Core → Core) (s : State) : (modCore c f s).refreshed = s.refreshed := rfl
@[simp] theorem modCore_patrolled (c : Nat) (f : Core → Core) (s : State) : (modCore c f s).patrolled = s.patrolled := rfl
@[simp] theorem modCore_deadRows (c : Nat) (f : Core → Core) (s : State) : (modCore c f s).deadRows = s.deadRows := rfl
@[simp] theorem modCore_buses (c : Nat) (f : Core → Core) (s : State) : (modCore c f s).buses = s.buses := rfl

/-! ### `modGroups` -/

@[simp] theorem modGroups_turn (p : Group → Bool) (f : Group → Group) (s : State) : (modGroups p f s).turn = s.turn := rfl
@[simp] theorem modGroups_g (p : Group → Bool) (f : Group → Group) (s : State) : (modGroups p f s).g = (if p s.g then f s.g else s.g) := rfl
@[simp] theorem modGroups_others (p : Group → Bool) (f : Group → Group) (s : State) : (modGroups p f s).others = updateWhere p f s.others := rfl
@[simp] theorem modGroups_pending (p : Group → Bool) (f : Group → Group) (s : State) : (modGroups p f s).pending = s.pending := rfl
@[simp] theorem modGroups_out (p : Group → Bool) (f : Group → Group) (s : State) : (modGroups p f s).out = s.out := rfl
@[simp] theorem modGroups_ctr (p : Group → Bool) (f : Group → Group) (s : State) : (modGroups p f s).ctr = s.ctr := rfl
@[simp] theorem modGroups_traffic (p : Group → Bool) (f : Group → Group) (s : State) : (modGroups p f s).traffic = s.traffic := rfl
@[simp] theorem modGroups_fresh (p : Group → Bool) (f : Group → Group) (s : State) : (modGroups p f s).fresh = s.fresh := rfl
@[simp] theorem modGroups_ac (p : Group → Bool) (f : Group → Group) (s : State) : (modGroups p f s).ac = s.ac := rfl
@[simp] theorem modGroups_sc (p : Group → Bool) (f : Group → Group) (s : State) : (modGroups p f s).sc = s.sc := rfl
@[simp] theorem modGroups_mem (p : Group → Bool) (f : Group → Group) (s : State) : (modGroups p f s).mem = s.mem := rfl
@[simp] theorem modGroups_poison (p : Group → Bool) (f : Group → Group) (s : State) : (modGroups p f s).poison = s.poison := rfl
@[simp] theorem modGroups_tagFail (p : Group → Bool) (f : Group → Group) (s : State) : (modGroups p f s).tagFail = s.tagFail := rfl
@[simp] theorem modGroups_wts (p : Group → Bool) (f : Group → Group) (s : State) : (modGroups p f s).wts = s.wts := rfl
@[simp] theorem modGroups_rts (p : Group → Bool) (f : Group → Group) (s : State) : (modGroups p f s).rts = s.rts := rfl
@[simp] theorem modGroups_wrote (p : Group → Bool) (f : Group → Group) (s : State) : (modGroups p f s).wrote = s.wrote := rfl
@[simp] theorem modGroups_strong (p : Group → Bool) (f : Group → Group) (s : State) : (modGroups p f s).strong = s.strong := rfl
@[simp] theorem modGroups_sums (p : Group → Bool) (f : Group → Group) (s : State) : (modGroups p f s).sums = s.sums := rfl
@[simp] theorem modGroups_cached (p : Group → Bool) (f : Group → Group) (s : State) : (modGroups p f s).cached = s.cached := rfl
@[simp] theorem modGroups_clusterTlbs (p : Group → Bool) (f : Group → Group) (s : State) : (modGroups p f s).clusterTlbs = s.clusterTlbs := rfl
@[simp] theorem modGroups_dieTlbs (p : Group → Bool) (f : Group → Group) (s : State) : (modGroups p f s).dieTlbs = s.dieTlbs := rfl
@[simp] theorem modGroups_walkers (p : Group → Bool) (f : Group → Group) (s : State) : (modGroups p f s).walkers = s.walkers := rfl
@[simp] theorem modGroups_frames (p : Group → Bool) (f : Group → Group) (s : State) : (modGroups p f s).frames = s.frames := rfl
@[simp] theorem modGroups_poolNext (p : Group → Bool) (f : Group → Group) (s : State) : (modGroups p f s).poolNext = s.poolNext := rfl
@[simp] theorem modGroups_poolBack (p : Group → Bool) (f : Group → Group) (s : State) : (modGroups p f s).poolBack = s.poolBack := rfl
@[simp] theorem modGroups_freeList (p : Group → Bool) (f : Group → Group) (s : State) : (modGroups p f s).freeList = s.freeList := rfl
@[simp] theorem modGroups_cores (p : Group → Bool) (f : Group → Group) (s : State) : (modGroups p f s).cores = s.cores := rfl
@[simp] theorem modGroups_fuses (p : Group → Bool) (f : Group → Group) (s : State) : (modGroups p f s).fuses = s.fuses := rfl
@[simp] theorem modGroups_teams (p : Group → Bool) (f : Group → Group) (s : State) : (modGroups p f s).teams = s.teams := rfl
@[simp] theorem modGroups_accs (p : Group → Bool) (f : Group → Group) (s : State) : (modGroups p f s).accs = s.accs := rfl
@[simp] theorem modGroups_images (p : Group → Bool) (f : Group → Group) (s : State) : (modGroups p f s).images = s.images := rfl
@[simp] theorem modGroups_launches (p : Group → Bool) (f : Group → Group) (s : State) : (modGroups p f s).launches = s.launches := rfl
@[simp] theorem modGroups_nextSeq (p : Group → Bool) (f : Group → Group) (s : State) : (modGroups p f s).nextSeq = s.nextSeq := rfl
@[simp] theorem modGroups_saved (p : Group → Bool) (f : Group → Group) (s : State) : (modGroups p f s).saved = s.saved := rfl
@[simp] theorem modGroups_held (p : Group → Bool) (f : Group → Group) (s : State) : (modGroups p f s).held = s.held := rfl
@[simp] theorem modGroups_reservation (p : Group → Bool) (f : Group → Group) (s : State) : (modGroups p f s).reservation = s.reservation := rfl
@[simp] theorem modGroups_engs (p : Group → Bool) (f : Group → Group) (s : State) : (modGroups p f s).engs = s.engs := rfl
@[simp] theorem modGroups_handles (p : Group → Bool) (f : Group → Group) (s : State) : (modGroups p f s).handles = s.handles := rfl
@[simp] theorem modGroups_wgcfg (p : Group → Bool) (f : Group → Group) (s : State) : (modGroups p f s).wgcfg = s.wgcfg := rfl
@[simp] theorem modGroups_sliceErrors (p : Group → Bool) (f : Group → Group) (s : State) : (modGroups p f s).sliceErrors = s.sliceErrors := rfl
@[simp] theorem modGroups_kv (p : Group → Bool) (f : Group → Group) (s : State) : (modGroups p f s).kv = s.kv := rfl
@[simp] theorem modGroups_programs (p : Group → Bool) (f : Group → Group) (s : State) : (modGroups p f s).programs = s.programs := rfl
@[simp] theorem modGroups_siblings (p : Group → Bool) (f : Group → Group) (s : State) : (modGroups p f s).siblings = s.siblings := rfl
@[simp] theorem modGroups_posts (p : Group → Bool) (f : Group → Group) (s : State) : (modGroups p f s).posts = s.posts := rfl
@[simp] theorem modGroups_packs (p : Group → Bool) (f : Group → Group) (s : State) : (modGroups p f s).packs = s.packs := rfl
@[simp] theorem modGroups_conns (p : Group → Bool) (f : Group → Group) (s : State) : (modGroups p f s).conns = s.conns := rfl
@[simp] theorem modGroups_owed (p : Group → Bool) (f : Group → Group) (s : State) : (modGroups p f s).owed = s.owed := rfl
@[simp] theorem modGroups_linkUp (p : Group → Bool) (f : Group → Group) (s : State) : (modGroups p f s).linkUp = s.linkUp := rfl
@[simp] theorem modGroups_linkTry (p : Group → Bool) (f : Group → Group) (s : State) : (modGroups p f s).linkTry = s.linkTry := rfl
@[simp] theorem modGroups_dropped (p : Group → Bool) (f : Group → Group) (s : State) : (modGroups p f s).dropped = s.dropped := rfl
@[simp] theorem modGroups_windows (p : Group → Bool) (f : Group → Group) (s : State) : (modGroups p f s).windows = s.windows := rfl
@[simp] theorem modGroups_watches (p : Group → Bool) (f : Group → Group) (s : State) : (modGroups p f s).watches = s.watches := rfl
@[simp] theorem modGroups_log (p : Group → Bool) (f : Group → Group) (s : State) : (modGroups p f s).log = s.log := rfl
@[simp] theorem modGroups_chain (p : Group → Bool) (f : Group → Group) (s : State) : (modGroups p f s).chain = s.chain := rfl
@[simp] theorem modGroups_logIndex (p : Group → Bool) (f : Group → Group) (s : State) : (modGroups p f s).logIndex = s.logIndex := rfl
@[simp] theorem modGroups_lastSeal (p : Group → Bool) (f : Group → Group) (s : State) : (modGroups p f s).lastSeal = s.lastSeal := rfl
@[simp] theorem modGroups_phase (p : Group → Bool) (f : Group → Group) (s : State) : (modGroups p f s).phase = s.phase := rfl
@[simp] theorem modGroups_warm (p : Group → Bool) (f : Group → Group) (s : State) : (modGroups p f s).warm = s.warm := rfl
@[simp] theorem modGroups_recovery (p : Group → Bool) (f : Group → Group) (s : State) : (modGroups p f s).recovery = s.recovery := rfl
@[simp] theorem modGroups_fwImage (p : Group → Bool) (f : Group → Group) (s : State) : (modGroups p f s).fwImage = s.fwImage := rfl
@[simp] theorem modGroups_fwVersion (p : Group → Bool) (f : Group → Group) (s : State) : (modGroups p f s).fwVersion = s.fwVersion := rfl
@[simp] theorem modGroups_fwFloor (p : Group → Bool) (f : Group → Group) (s : State) : (modGroups p f s).fwFloor = s.fwFloor := rfl
@[simp] theorem modGroups_fwDigest (p : Group → Bool) (f : Group → Group) (s : State) : (modGroups p f s).fwDigest = s.fwDigest := rfl
@[simp] theorem modGroups_fwPieces (p : Group → Bool) (f : Group → Group) (s : State) : (modGroups p f s).fwPieces = s.fwPieces := rfl
@[simp] theorem modGroups_rollback (p : Group → Bool) (f : Group → Group) (s : State) : (modGroups p f s).rollback = s.rollback := rfl
@[simp] theorem modGroups_ageth (p : Group → Bool) (f : Group → Group) (s : State) : (modGroups p f s).ageth = s.ageth := rfl
@[simp] theorem modGroups_w2 (p : Group → Bool) (f : Group → Group) (s : State) : (modGroups p f s).w2 = s.w2 := rfl
@[simp] theorem modGroups_w1 (p : Group → Bool) (f : Group → Group) (s : State) : (modGroups p f s).w1 = s.w1 := rfl
@[simp] theorem modGroups_w0 (p : Group → Bool) (f : Group → Group) (s : State) : (modGroups p f s).w0 = s.w0 := rfl
@[simp] theorem modGroups_capw (p : Group → Bool) (f : Group → Group) (s : State) : (modGroups p f s).capw = s.capw := rfl
@[simp] theorem modGroups_pstep (p : Group → Bool) (f : Group → Group) (s : State) : (modGroups p f s).pstep = s.pstep := rfl
@[simp] theorem modGroups_ttrip (p : Group → Bool) (f : Group → Group) (s : State) : (modGroups p f s).ttrip = s.ttrip := rfl
@[simp] theorem modGroups_power (p : Group → Bool) (f : Group → Group) (s : State) : (modGroups p f s).power = s.power := rfl
@[simp] theorem modGroups_coolSince (p : Group → Bool) (f : Group → Group) (s : State) : (modGroups p f s).coolSince = s.coolSince := rfl
@[simp] theorem modGroups_temps (p : Group → Bool) (f : Group → Group) (s : State) : (modGroups p f s).temps = s.temps := rfl
@[simp] theorem modGroups_band (p : Group → Bool) (f : Group → Group) (s : State) : (modGroups p f s).band = s.band := rfl
@[simp] theorem modGroups_refreshed (p : Group → Bool) (f : Group → Group) (s : State) : (modGroups p f s).refreshed = s.refreshed := rfl
@[simp] theorem modGroups_patrolled (p : Group → Bool) (f : Group → Group) (s : State) : (modGroups p f s).patrolled = s.patrolled := rfl
@[simp] theorem modGroups_deadRows (p : Group → Bool) (f : Group → Group) (s : State) : (modGroups p f s).deadRows = s.deadRows := rfl
@[simp] theorem modGroups_buses (p : Group → Bool) (f : Group → Group) (s : State) : (modGroups p f s).buses = s.buses := rfl

/-! ### `modGroup` -/

@[simp] theorem modGroup_turn (n : Nat) (f : Group → Group) (s : State) : (modGroup n f s).turn = s.turn := rfl
@[simp] theorem modGroup_g (n : Nat) (f : Group → Group) (s : State) : (modGroup n f s).g = (if s.g.gid == n then f s.g else s.g) := rfl
@[simp] theorem modGroup_others (n : Nat) (f : Group → Group) (s : State) : (modGroup n f s).others = updateWhere (fun g => g.gid == n) f s.others := rfl
@[simp] theorem modGroup_pending (n : Nat) (f : Group → Group) (s : State) : (modGroup n f s).pending = s.pending := rfl
@[simp] theorem modGroup_out (n : Nat) (f : Group → Group) (s : State) : (modGroup n f s).out = s.out := rfl
@[simp] theorem modGroup_ctr (n : Nat) (f : Group → Group) (s : State) : (modGroup n f s).ctr = s.ctr := rfl
@[simp] theorem modGroup_traffic (n : Nat) (f : Group → Group) (s : State) : (modGroup n f s).traffic = s.traffic := rfl
@[simp] theorem modGroup_fresh (n : Nat) (f : Group → Group) (s : State) : (modGroup n f s).fresh = s.fresh := rfl
@[simp] theorem modGroup_ac (n : Nat) (f : Group → Group) (s : State) : (modGroup n f s).ac = s.ac := rfl
@[simp] theorem modGroup_sc (n : Nat) (f : Group → Group) (s : State) : (modGroup n f s).sc = s.sc := rfl
@[simp] theorem modGroup_mem (n : Nat) (f : Group → Group) (s : State) : (modGroup n f s).mem = s.mem := rfl
@[simp] theorem modGroup_poison (n : Nat) (f : Group → Group) (s : State) : (modGroup n f s).poison = s.poison := rfl
@[simp] theorem modGroup_tagFail (n : Nat) (f : Group → Group) (s : State) : (modGroup n f s).tagFail = s.tagFail := rfl
@[simp] theorem modGroup_wts (n : Nat) (f : Group → Group) (s : State) : (modGroup n f s).wts = s.wts := rfl
@[simp] theorem modGroup_rts (n : Nat) (f : Group → Group) (s : State) : (modGroup n f s).rts = s.rts := rfl
@[simp] theorem modGroup_wrote (n : Nat) (f : Group → Group) (s : State) : (modGroup n f s).wrote = s.wrote := rfl
@[simp] theorem modGroup_strong (n : Nat) (f : Group → Group) (s : State) : (modGroup n f s).strong = s.strong := rfl
@[simp] theorem modGroup_sums (n : Nat) (f : Group → Group) (s : State) : (modGroup n f s).sums = s.sums := rfl
@[simp] theorem modGroup_cached (n : Nat) (f : Group → Group) (s : State) : (modGroup n f s).cached = s.cached := rfl
@[simp] theorem modGroup_clusterTlbs (n : Nat) (f : Group → Group) (s : State) : (modGroup n f s).clusterTlbs = s.clusterTlbs := rfl
@[simp] theorem modGroup_dieTlbs (n : Nat) (f : Group → Group) (s : State) : (modGroup n f s).dieTlbs = s.dieTlbs := rfl
@[simp] theorem modGroup_walkers (n : Nat) (f : Group → Group) (s : State) : (modGroup n f s).walkers = s.walkers := rfl
@[simp] theorem modGroup_frames (n : Nat) (f : Group → Group) (s : State) : (modGroup n f s).frames = s.frames := rfl
@[simp] theorem modGroup_poolNext (n : Nat) (f : Group → Group) (s : State) : (modGroup n f s).poolNext = s.poolNext := rfl
@[simp] theorem modGroup_poolBack (n : Nat) (f : Group → Group) (s : State) : (modGroup n f s).poolBack = s.poolBack := rfl
@[simp] theorem modGroup_freeList (n : Nat) (f : Group → Group) (s : State) : (modGroup n f s).freeList = s.freeList := rfl
@[simp] theorem modGroup_cores (n : Nat) (f : Group → Group) (s : State) : (modGroup n f s).cores = s.cores := rfl
@[simp] theorem modGroup_fuses (n : Nat) (f : Group → Group) (s : State) : (modGroup n f s).fuses = s.fuses := rfl
@[simp] theorem modGroup_teams (n : Nat) (f : Group → Group) (s : State) : (modGroup n f s).teams = s.teams := rfl
@[simp] theorem modGroup_accs (n : Nat) (f : Group → Group) (s : State) : (modGroup n f s).accs = s.accs := rfl
@[simp] theorem modGroup_images (n : Nat) (f : Group → Group) (s : State) : (modGroup n f s).images = s.images := rfl
@[simp] theorem modGroup_launches (n : Nat) (f : Group → Group) (s : State) : (modGroup n f s).launches = s.launches := rfl
@[simp] theorem modGroup_nextSeq (n : Nat) (f : Group → Group) (s : State) : (modGroup n f s).nextSeq = s.nextSeq := rfl
@[simp] theorem modGroup_saved (n : Nat) (f : Group → Group) (s : State) : (modGroup n f s).saved = s.saved := rfl
@[simp] theorem modGroup_held (n : Nat) (f : Group → Group) (s : State) : (modGroup n f s).held = s.held := rfl
@[simp] theorem modGroup_reservation (n : Nat) (f : Group → Group) (s : State) : (modGroup n f s).reservation = s.reservation := rfl
@[simp] theorem modGroup_engs (n : Nat) (f : Group → Group) (s : State) : (modGroup n f s).engs = s.engs := rfl
@[simp] theorem modGroup_handles (n : Nat) (f : Group → Group) (s : State) : (modGroup n f s).handles = s.handles := rfl
@[simp] theorem modGroup_wgcfg (n : Nat) (f : Group → Group) (s : State) : (modGroup n f s).wgcfg = s.wgcfg := rfl
@[simp] theorem modGroup_sliceErrors (n : Nat) (f : Group → Group) (s : State) : (modGroup n f s).sliceErrors = s.sliceErrors := rfl
@[simp] theorem modGroup_kv (n : Nat) (f : Group → Group) (s : State) : (modGroup n f s).kv = s.kv := rfl
@[simp] theorem modGroup_programs (n : Nat) (f : Group → Group) (s : State) : (modGroup n f s).programs = s.programs := rfl
@[simp] theorem modGroup_siblings (n : Nat) (f : Group → Group) (s : State) : (modGroup n f s).siblings = s.siblings := rfl
@[simp] theorem modGroup_posts (n : Nat) (f : Group → Group) (s : State) : (modGroup n f s).posts = s.posts := rfl
@[simp] theorem modGroup_packs (n : Nat) (f : Group → Group) (s : State) : (modGroup n f s).packs = s.packs := rfl
@[simp] theorem modGroup_conns (n : Nat) (f : Group → Group) (s : State) : (modGroup n f s).conns = s.conns := rfl
@[simp] theorem modGroup_owed (n : Nat) (f : Group → Group) (s : State) : (modGroup n f s).owed = s.owed := rfl
@[simp] theorem modGroup_linkUp (n : Nat) (f : Group → Group) (s : State) : (modGroup n f s).linkUp = s.linkUp := rfl
@[simp] theorem modGroup_linkTry (n : Nat) (f : Group → Group) (s : State) : (modGroup n f s).linkTry = s.linkTry := rfl
@[simp] theorem modGroup_dropped (n : Nat) (f : Group → Group) (s : State) : (modGroup n f s).dropped = s.dropped := rfl
@[simp] theorem modGroup_windows (n : Nat) (f : Group → Group) (s : State) : (modGroup n f s).windows = s.windows := rfl
@[simp] theorem modGroup_watches (n : Nat) (f : Group → Group) (s : State) : (modGroup n f s).watches = s.watches := rfl
@[simp] theorem modGroup_log (n : Nat) (f : Group → Group) (s : State) : (modGroup n f s).log = s.log := rfl
@[simp] theorem modGroup_chain (n : Nat) (f : Group → Group) (s : State) : (modGroup n f s).chain = s.chain := rfl
@[simp] theorem modGroup_logIndex (n : Nat) (f : Group → Group) (s : State) : (modGroup n f s).logIndex = s.logIndex := rfl
@[simp] theorem modGroup_lastSeal (n : Nat) (f : Group → Group) (s : State) : (modGroup n f s).lastSeal = s.lastSeal := rfl
@[simp] theorem modGroup_phase (n : Nat) (f : Group → Group) (s : State) : (modGroup n f s).phase = s.phase := rfl
@[simp] theorem modGroup_warm (n : Nat) (f : Group → Group) (s : State) : (modGroup n f s).warm = s.warm := rfl
@[simp] theorem modGroup_recovery (n : Nat) (f : Group → Group) (s : State) : (modGroup n f s).recovery = s.recovery := rfl
@[simp] theorem modGroup_fwImage (n : Nat) (f : Group → Group) (s : State) : (modGroup n f s).fwImage = s.fwImage := rfl
@[simp] theorem modGroup_fwVersion (n : Nat) (f : Group → Group) (s : State) : (modGroup n f s).fwVersion = s.fwVersion := rfl
@[simp] theorem modGroup_fwFloor (n : Nat) (f : Group → Group) (s : State) : (modGroup n f s).fwFloor = s.fwFloor := rfl
@[simp] theorem modGroup_fwDigest (n : Nat) (f : Group → Group) (s : State) : (modGroup n f s).fwDigest = s.fwDigest := rfl
@[simp] theorem modGroup_fwPieces (n : Nat) (f : Group → Group) (s : State) : (modGroup n f s).fwPieces = s.fwPieces := rfl
@[simp] theorem modGroup_rollback (n : Nat) (f : Group → Group) (s : State) : (modGroup n f s).rollback = s.rollback := rfl
@[simp] theorem modGroup_ageth (n : Nat) (f : Group → Group) (s : State) : (modGroup n f s).ageth = s.ageth := rfl
@[simp] theorem modGroup_w2 (n : Nat) (f : Group → Group) (s : State) : (modGroup n f s).w2 = s.w2 := rfl
@[simp] theorem modGroup_w1 (n : Nat) (f : Group → Group) (s : State) : (modGroup n f s).w1 = s.w1 := rfl
@[simp] theorem modGroup_w0 (n : Nat) (f : Group → Group) (s : State) : (modGroup n f s).w0 = s.w0 := rfl
@[simp] theorem modGroup_capw (n : Nat) (f : Group → Group) (s : State) : (modGroup n f s).capw = s.capw := rfl
@[simp] theorem modGroup_pstep (n : Nat) (f : Group → Group) (s : State) : (modGroup n f s).pstep = s.pstep := rfl
@[simp] theorem modGroup_ttrip (n : Nat) (f : Group → Group) (s : State) : (modGroup n f s).ttrip = s.ttrip := rfl
@[simp] theorem modGroup_power (n : Nat) (f : Group → Group) (s : State) : (modGroup n f s).power = s.power := rfl
@[simp] theorem modGroup_coolSince (n : Nat) (f : Group → Group) (s : State) : (modGroup n f s).coolSince = s.coolSince := rfl
@[simp] theorem modGroup_temps (n : Nat) (f : Group → Group) (s : State) : (modGroup n f s).temps = s.temps := rfl
@[simp] theorem modGroup_band (n : Nat) (f : Group → Group) (s : State) : (modGroup n f s).band = s.band := rfl
@[simp] theorem modGroup_refreshed (n : Nat) (f : Group → Group) (s : State) : (modGroup n f s).refreshed = s.refreshed := rfl
@[simp] theorem modGroup_patrolled (n : Nat) (f : Group → Group) (s : State) : (modGroup n f s).patrolled = s.patrolled := rfl
@[simp] theorem modGroup_deadRows (n : Nat) (f : Group → Group) (s : State) : (modGroup n f s).deadRows = s.deadRows := rfl
@[simp] theorem modGroup_buses (n : Nat) (f : Group → Group) (s : State) : (modGroup n f s).buses = s.buses := rfl

/-! ### `modTeam` -/

@[simp] theorem modTeam_turn (n : Nat) (f : Team → Team) (s : State) : (modTeam n f s).turn = s.turn := rfl
@[simp] theorem modTeam_g (n : Nat) (f : Team → Team) (s : State) : (modTeam n f s).g = s.g := rfl
@[simp] theorem modTeam_others (n : Nat) (f : Team → Team) (s : State) : (modTeam n f s).others = s.others := rfl
@[simp] theorem modTeam_pending (n : Nat) (f : Team → Team) (s : State) : (modTeam n f s).pending = s.pending := rfl
@[simp] theorem modTeam_out (n : Nat) (f : Team → Team) (s : State) : (modTeam n f s).out = s.out := rfl
@[simp] theorem modTeam_ctr (n : Nat) (f : Team → Team) (s : State) : (modTeam n f s).ctr = s.ctr := rfl
@[simp] theorem modTeam_traffic (n : Nat) (f : Team → Team) (s : State) : (modTeam n f s).traffic = s.traffic := rfl
@[simp] theorem modTeam_fresh (n : Nat) (f : Team → Team) (s : State) : (modTeam n f s).fresh = s.fresh := rfl
@[simp] theorem modTeam_ac (n : Nat) (f : Team → Team) (s : State) : (modTeam n f s).ac = s.ac := rfl
@[simp] theorem modTeam_sc (n : Nat) (f : Team → Team) (s : State) : (modTeam n f s).sc = s.sc := rfl
@[simp] theorem modTeam_mem (n : Nat) (f : Team → Team) (s : State) : (modTeam n f s).mem = s.mem := rfl
@[simp] theorem modTeam_poison (n : Nat) (f : Team → Team) (s : State) : (modTeam n f s).poison = s.poison := rfl
@[simp] theorem modTeam_tagFail (n : Nat) (f : Team → Team) (s : State) : (modTeam n f s).tagFail = s.tagFail := rfl
@[simp] theorem modTeam_wts (n : Nat) (f : Team → Team) (s : State) : (modTeam n f s).wts = s.wts := rfl
@[simp] theorem modTeam_rts (n : Nat) (f : Team → Team) (s : State) : (modTeam n f s).rts = s.rts := rfl
@[simp] theorem modTeam_wrote (n : Nat) (f : Team → Team) (s : State) : (modTeam n f s).wrote = s.wrote := rfl
@[simp] theorem modTeam_strong (n : Nat) (f : Team → Team) (s : State) : (modTeam n f s).strong = s.strong := rfl
@[simp] theorem modTeam_sums (n : Nat) (f : Team → Team) (s : State) : (modTeam n f s).sums = s.sums := rfl
@[simp] theorem modTeam_cached (n : Nat) (f : Team → Team) (s : State) : (modTeam n f s).cached = s.cached := rfl
@[simp] theorem modTeam_clusterTlbs (n : Nat) (f : Team → Team) (s : State) : (modTeam n f s).clusterTlbs = s.clusterTlbs := rfl
@[simp] theorem modTeam_dieTlbs (n : Nat) (f : Team → Team) (s : State) : (modTeam n f s).dieTlbs = s.dieTlbs := rfl
@[simp] theorem modTeam_walkers (n : Nat) (f : Team → Team) (s : State) : (modTeam n f s).walkers = s.walkers := rfl
@[simp] theorem modTeam_frames (n : Nat) (f : Team → Team) (s : State) : (modTeam n f s).frames = s.frames := rfl
@[simp] theorem modTeam_poolNext (n : Nat) (f : Team → Team) (s : State) : (modTeam n f s).poolNext = s.poolNext := rfl
@[simp] theorem modTeam_poolBack (n : Nat) (f : Team → Team) (s : State) : (modTeam n f s).poolBack = s.poolBack := rfl
@[simp] theorem modTeam_freeList (n : Nat) (f : Team → Team) (s : State) : (modTeam n f s).freeList = s.freeList := rfl
@[simp] theorem modTeam_cores (n : Nat) (f : Team → Team) (s : State) : (modTeam n f s).cores = s.cores := rfl
@[simp] theorem modTeam_fuses (n : Nat) (f : Team → Team) (s : State) : (modTeam n f s).fuses = s.fuses := rfl
@[simp] theorem modTeam_teams (n : Nat) (f : Team → Team) (s : State) : (modTeam n f s).teams = updateWhere (fun t => t.tid == n) f s.teams := rfl
@[simp] theorem modTeam_accs (n : Nat) (f : Team → Team) (s : State) : (modTeam n f s).accs = s.accs := rfl
@[simp] theorem modTeam_images (n : Nat) (f : Team → Team) (s : State) : (modTeam n f s).images = s.images := rfl
@[simp] theorem modTeam_launches (n : Nat) (f : Team → Team) (s : State) : (modTeam n f s).launches = s.launches := rfl
@[simp] theorem modTeam_nextSeq (n : Nat) (f : Team → Team) (s : State) : (modTeam n f s).nextSeq = s.nextSeq := rfl
@[simp] theorem modTeam_held (n : Nat) (f : Team → Team) (s : State) : (modTeam n f s).held = s.held := rfl
@[simp] theorem modTeam_reservation (n : Nat) (f : Team → Team) (s : State) : (modTeam n f s).reservation = s.reservation := rfl
@[simp] theorem modTeam_engs (n : Nat) (f : Team → Team) (s : State) : (modTeam n f s).engs = s.engs := rfl
@[simp] theorem modTeam_handles (n : Nat) (f : Team → Team) (s : State) : (modTeam n f s).handles = s.handles := rfl
@[simp] theorem modTeam_wgcfg (n : Nat) (f : Team → Team) (s : State) : (modTeam n f s).wgcfg = s.wgcfg := rfl
@[simp] theorem modTeam_sliceErrors (n : Nat) (f : Team → Team) (s : State) : (modTeam n f s).sliceErrors = s.sliceErrors := rfl
@[simp] theorem modTeam_kv (n : Nat) (f : Team → Team) (s : State) : (modTeam n f s).kv = s.kv := rfl
@[simp] theorem modTeam_programs (n : Nat) (f : Team → Team) (s : State) : (modTeam n f s).programs = s.programs := rfl
@[simp] theorem modTeam_siblings (n : Nat) (f : Team → Team) (s : State) : (modTeam n f s).siblings = s.siblings := rfl
@[simp] theorem modTeam_posts (n : Nat) (f : Team → Team) (s : State) : (modTeam n f s).posts = s.posts := rfl
@[simp] theorem modTeam_packs (n : Nat) (f : Team → Team) (s : State) : (modTeam n f s).packs = s.packs := rfl
@[simp] theorem modTeam_conns (n : Nat) (f : Team → Team) (s : State) : (modTeam n f s).conns = s.conns := rfl
@[simp] theorem modTeam_owed (n : Nat) (f : Team → Team) (s : State) : (modTeam n f s).owed = s.owed := rfl
@[simp] theorem modTeam_linkUp (n : Nat) (f : Team → Team) (s : State) : (modTeam n f s).linkUp = s.linkUp := rfl
@[simp] theorem modTeam_linkTry (n : Nat) (f : Team → Team) (s : State) : (modTeam n f s).linkTry = s.linkTry := rfl
@[simp] theorem modTeam_dropped (n : Nat) (f : Team → Team) (s : State) : (modTeam n f s).dropped = s.dropped := rfl
@[simp] theorem modTeam_windows (n : Nat) (f : Team → Team) (s : State) : (modTeam n f s).windows = s.windows := rfl
@[simp] theorem modTeam_watches (n : Nat) (f : Team → Team) (s : State) : (modTeam n f s).watches = s.watches := rfl
@[simp] theorem modTeam_log (n : Nat) (f : Team → Team) (s : State) : (modTeam n f s).log = s.log := rfl
@[simp] theorem modTeam_chain (n : Nat) (f : Team → Team) (s : State) : (modTeam n f s).chain = s.chain := rfl
@[simp] theorem modTeam_logIndex (n : Nat) (f : Team → Team) (s : State) : (modTeam n f s).logIndex = s.logIndex := rfl
@[simp] theorem modTeam_lastSeal (n : Nat) (f : Team → Team) (s : State) : (modTeam n f s).lastSeal = s.lastSeal := rfl
@[simp] theorem modTeam_phase (n : Nat) (f : Team → Team) (s : State) : (modTeam n f s).phase = s.phase := rfl
@[simp] theorem modTeam_warm (n : Nat) (f : Team → Team) (s : State) : (modTeam n f s).warm = s.warm := rfl
@[simp] theorem modTeam_recovery (n : Nat) (f : Team → Team) (s : State) : (modTeam n f s).recovery = s.recovery := rfl
@[simp] theorem modTeam_fwImage (n : Nat) (f : Team → Team) (s : State) : (modTeam n f s).fwImage = s.fwImage := rfl
@[simp] theorem modTeam_fwVersion (n : Nat) (f : Team → Team) (s : State) : (modTeam n f s).fwVersion = s.fwVersion := rfl
@[simp] theorem modTeam_fwFloor (n : Nat) (f : Team → Team) (s : State) : (modTeam n f s).fwFloor = s.fwFloor := rfl
@[simp] theorem modTeam_fwDigest (n : Nat) (f : Team → Team) (s : State) : (modTeam n f s).fwDigest = s.fwDigest := rfl
@[simp] theorem modTeam_fwPieces (n : Nat) (f : Team → Team) (s : State) : (modTeam n f s).fwPieces = s.fwPieces := rfl
@[simp] theorem modTeam_rollback (n : Nat) (f : Team → Team) (s : State) : (modTeam n f s).rollback = s.rollback := rfl
@[simp] theorem modTeam_ageth (n : Nat) (f : Team → Team) (s : State) : (modTeam n f s).ageth = s.ageth := rfl
@[simp] theorem modTeam_w2 (n : Nat) (f : Team → Team) (s : State) : (modTeam n f s).w2 = s.w2 := rfl
@[simp] theorem modTeam_w1 (n : Nat) (f : Team → Team) (s : State) : (modTeam n f s).w1 = s.w1 := rfl
@[simp] theorem modTeam_w0 (n : Nat) (f : Team → Team) (s : State) : (modTeam n f s).w0 = s.w0 := rfl
@[simp] theorem modTeam_capw (n : Nat) (f : Team → Team) (s : State) : (modTeam n f s).capw = s.capw := rfl
@[simp] theorem modTeam_pstep (n : Nat) (f : Team → Team) (s : State) : (modTeam n f s).pstep = s.pstep := rfl
@[simp] theorem modTeam_ttrip (n : Nat) (f : Team → Team) (s : State) : (modTeam n f s).ttrip = s.ttrip := rfl
@[simp] theorem modTeam_power (n : Nat) (f : Team → Team) (s : State) : (modTeam n f s).power = s.power := rfl
@[simp] theorem modTeam_coolSince (n : Nat) (f : Team → Team) (s : State) : (modTeam n f s).coolSince = s.coolSince := rfl
@[simp] theorem modTeam_temps (n : Nat) (f : Team → Team) (s : State) : (modTeam n f s).temps = s.temps := rfl
@[simp] theorem modTeam_band (n : Nat) (f : Team → Team) (s : State) : (modTeam n f s).band = s.band := rfl
@[simp] theorem modTeam_refreshed (n : Nat) (f : Team → Team) (s : State) : (modTeam n f s).refreshed = s.refreshed := rfl
@[simp] theorem modTeam_patrolled (n : Nat) (f : Team → Team) (s : State) : (modTeam n f s).patrolled = s.patrolled := rfl
@[simp] theorem modTeam_deadRows (n : Nat) (f : Team → Team) (s : State) : (modTeam n f s).deadRows = s.deadRows := rfl
@[simp] theorem modTeam_buses (n : Nat) (f : Team → Team) (s : State) : (modTeam n f s).buses = s.buses := rfl

/-! ### `modLaunch` -/

@[simp] theorem modLaunch_turn (n : Nat) (f : Launch → Launch) (s : State) : (modLaunch n f s).turn = s.turn := rfl
@[simp] theorem modLaunch_g (n : Nat) (f : Launch → Launch) (s : State) : (modLaunch n f s).g = s.g := rfl
@[simp] theorem modLaunch_others (n : Nat) (f : Launch → Launch) (s : State) : (modLaunch n f s).others = s.others := rfl
@[simp] theorem modLaunch_pending (n : Nat) (f : Launch → Launch) (s : State) : (modLaunch n f s).pending = s.pending := rfl
@[simp] theorem modLaunch_out (n : Nat) (f : Launch → Launch) (s : State) : (modLaunch n f s).out = s.out := rfl
@[simp] theorem modLaunch_ctr (n : Nat) (f : Launch → Launch) (s : State) : (modLaunch n f s).ctr = s.ctr := rfl
@[simp] theorem modLaunch_traffic (n : Nat) (f : Launch → Launch) (s : State) : (modLaunch n f s).traffic = s.traffic := rfl
@[simp] theorem modLaunch_fresh (n : Nat) (f : Launch → Launch) (s : State) : (modLaunch n f s).fresh = s.fresh := rfl
@[simp] theorem modLaunch_ac (n : Nat) (f : Launch → Launch) (s : State) : (modLaunch n f s).ac = s.ac := rfl
@[simp] theorem modLaunch_sc (n : Nat) (f : Launch → Launch) (s : State) : (modLaunch n f s).sc = s.sc := rfl
@[simp] theorem modLaunch_mem (n : Nat) (f : Launch → Launch) (s : State) : (modLaunch n f s).mem = s.mem := rfl
@[simp] theorem modLaunch_poison (n : Nat) (f : Launch → Launch) (s : State) : (modLaunch n f s).poison = s.poison := rfl
@[simp] theorem modLaunch_tagFail (n : Nat) (f : Launch → Launch) (s : State) : (modLaunch n f s).tagFail = s.tagFail := rfl
@[simp] theorem modLaunch_wts (n : Nat) (f : Launch → Launch) (s : State) : (modLaunch n f s).wts = s.wts := rfl
@[simp] theorem modLaunch_rts (n : Nat) (f : Launch → Launch) (s : State) : (modLaunch n f s).rts = s.rts := rfl
@[simp] theorem modLaunch_wrote (n : Nat) (f : Launch → Launch) (s : State) : (modLaunch n f s).wrote = s.wrote := rfl
@[simp] theorem modLaunch_strong (n : Nat) (f : Launch → Launch) (s : State) : (modLaunch n f s).strong = s.strong := rfl
@[simp] theorem modLaunch_sums (n : Nat) (f : Launch → Launch) (s : State) : (modLaunch n f s).sums = s.sums := rfl
@[simp] theorem modLaunch_cached (n : Nat) (f : Launch → Launch) (s : State) : (modLaunch n f s).cached = s.cached := rfl
@[simp] theorem modLaunch_clusterTlbs (n : Nat) (f : Launch → Launch) (s : State) : (modLaunch n f s).clusterTlbs = s.clusterTlbs := rfl
@[simp] theorem modLaunch_dieTlbs (n : Nat) (f : Launch → Launch) (s : State) : (modLaunch n f s).dieTlbs = s.dieTlbs := rfl
@[simp] theorem modLaunch_walkers (n : Nat) (f : Launch → Launch) (s : State) : (modLaunch n f s).walkers = s.walkers := rfl
@[simp] theorem modLaunch_frames (n : Nat) (f : Launch → Launch) (s : State) : (modLaunch n f s).frames = s.frames := rfl
@[simp] theorem modLaunch_poolNext (n : Nat) (f : Launch → Launch) (s : State) : (modLaunch n f s).poolNext = s.poolNext := rfl
@[simp] theorem modLaunch_poolBack (n : Nat) (f : Launch → Launch) (s : State) : (modLaunch n f s).poolBack = s.poolBack := rfl
@[simp] theorem modLaunch_freeList (n : Nat) (f : Launch → Launch) (s : State) : (modLaunch n f s).freeList = s.freeList := rfl
@[simp] theorem modLaunch_cores (n : Nat) (f : Launch → Launch) (s : State) : (modLaunch n f s).cores = s.cores := rfl
@[simp] theorem modLaunch_fuses (n : Nat) (f : Launch → Launch) (s : State) : (modLaunch n f s).fuses = s.fuses := rfl
@[simp] theorem modLaunch_teams (n : Nat) (f : Launch → Launch) (s : State) : (modLaunch n f s).teams = s.teams := rfl
@[simp] theorem modLaunch_accs (n : Nat) (f : Launch → Launch) (s : State) : (modLaunch n f s).accs = s.accs := rfl
@[simp] theorem modLaunch_images (n : Nat) (f : Launch → Launch) (s : State) : (modLaunch n f s).images = s.images := rfl
@[simp] theorem modLaunch_launches (n : Nat) (f : Launch → Launch) (s : State) : (modLaunch n f s).launches = updateWhere (fun l => l.seq == n) f s.launches := rfl
@[simp] theorem modLaunch_nextSeq (n : Nat) (f : Launch → Launch) (s : State) : (modLaunch n f s).nextSeq = s.nextSeq := rfl
@[simp] theorem modLaunch_saved (n : Nat) (f : Launch → Launch) (s : State) : (modLaunch n f s).saved = s.saved := rfl
@[simp] theorem modLaunch_held (n : Nat) (f : Launch → Launch) (s : State) : (modLaunch n f s).held = s.held := rfl
@[simp] theorem modLaunch_reservation (n : Nat) (f : Launch → Launch) (s : State) : (modLaunch n f s).reservation = s.reservation := rfl
@[simp] theorem modLaunch_engs (n : Nat) (f : Launch → Launch) (s : State) : (modLaunch n f s).engs = s.engs := rfl
@[simp] theorem modLaunch_handles (n : Nat) (f : Launch → Launch) (s : State) : (modLaunch n f s).handles = s.handles := rfl
@[simp] theorem modLaunch_wgcfg (n : Nat) (f : Launch → Launch) (s : State) : (modLaunch n f s).wgcfg = s.wgcfg := rfl
@[simp] theorem modLaunch_sliceErrors (n : Nat) (f : Launch → Launch) (s : State) : (modLaunch n f s).sliceErrors = s.sliceErrors := rfl
@[simp] theorem modLaunch_kv (n : Nat) (f : Launch → Launch) (s : State) : (modLaunch n f s).kv = s.kv := rfl
@[simp] theorem modLaunch_programs (n : Nat) (f : Launch → Launch) (s : State) : (modLaunch n f s).programs = s.programs := rfl
@[simp] theorem modLaunch_siblings (n : Nat) (f : Launch → Launch) (s : State) : (modLaunch n f s).siblings = s.siblings := rfl
@[simp] theorem modLaunch_posts (n : Nat) (f : Launch → Launch) (s : State) : (modLaunch n f s).posts = s.posts := rfl
@[simp] theorem modLaunch_packs (n : Nat) (f : Launch → Launch) (s : State) : (modLaunch n f s).packs = s.packs := rfl
@[simp] theorem modLaunch_conns (n : Nat) (f : Launch → Launch) (s : State) : (modLaunch n f s).conns = s.conns := rfl
@[simp] theorem modLaunch_owed (n : Nat) (f : Launch → Launch) (s : State) : (modLaunch n f s).owed = s.owed := rfl
@[simp] theorem modLaunch_linkUp (n : Nat) (f : Launch → Launch) (s : State) : (modLaunch n f s).linkUp = s.linkUp := rfl
@[simp] theorem modLaunch_linkTry (n : Nat) (f : Launch → Launch) (s : State) : (modLaunch n f s).linkTry = s.linkTry := rfl
@[simp] theorem modLaunch_dropped (n : Nat) (f : Launch → Launch) (s : State) : (modLaunch n f s).dropped = s.dropped := rfl
@[simp] theorem modLaunch_windows (n : Nat) (f : Launch → Launch) (s : State) : (modLaunch n f s).windows = s.windows := rfl
@[simp] theorem modLaunch_watches (n : Nat) (f : Launch → Launch) (s : State) : (modLaunch n f s).watches = s.watches := rfl
@[simp] theorem modLaunch_log (n : Nat) (f : Launch → Launch) (s : State) : (modLaunch n f s).log = s.log := rfl
@[simp] theorem modLaunch_chain (n : Nat) (f : Launch → Launch) (s : State) : (modLaunch n f s).chain = s.chain := rfl
@[simp] theorem modLaunch_logIndex (n : Nat) (f : Launch → Launch) (s : State) : (modLaunch n f s).logIndex = s.logIndex := rfl
@[simp] theorem modLaunch_lastSeal (n : Nat) (f : Launch → Launch) (s : State) : (modLaunch n f s).lastSeal = s.lastSeal := rfl
@[simp] theorem modLaunch_phase (n : Nat) (f : Launch → Launch) (s : State) : (modLaunch n f s).phase = s.phase := rfl
@[simp] theorem modLaunch_warm (n : Nat) (f : Launch → Launch) (s : State) : (modLaunch n f s).warm = s.warm := rfl
@[simp] theorem modLaunch_recovery (n : Nat) (f : Launch → Launch) (s : State) : (modLaunch n f s).recovery = s.recovery := rfl
@[simp] theorem modLaunch_fwImage (n : Nat) (f : Launch → Launch) (s : State) : (modLaunch n f s).fwImage = s.fwImage := rfl
@[simp] theorem modLaunch_fwVersion (n : Nat) (f : Launch → Launch) (s : State) : (modLaunch n f s).fwVersion = s.fwVersion := rfl
@[simp] theorem modLaunch_fwFloor (n : Nat) (f : Launch → Launch) (s : State) : (modLaunch n f s).fwFloor = s.fwFloor := rfl
@[simp] theorem modLaunch_fwDigest (n : Nat) (f : Launch → Launch) (s : State) : (modLaunch n f s).fwDigest = s.fwDigest := rfl
@[simp] theorem modLaunch_fwPieces (n : Nat) (f : Launch → Launch) (s : State) : (modLaunch n f s).fwPieces = s.fwPieces := rfl
@[simp] theorem modLaunch_rollback (n : Nat) (f : Launch → Launch) (s : State) : (modLaunch n f s).rollback = s.rollback := rfl
@[simp] theorem modLaunch_ageth (n : Nat) (f : Launch → Launch) (s : State) : (modLaunch n f s).ageth = s.ageth := rfl
@[simp] theorem modLaunch_w2 (n : Nat) (f : Launch → Launch) (s : State) : (modLaunch n f s).w2 = s.w2 := rfl
@[simp] theorem modLaunch_w1 (n : Nat) (f : Launch → Launch) (s : State) : (modLaunch n f s).w1 = s.w1 := rfl
@[simp] theorem modLaunch_w0 (n : Nat) (f : Launch → Launch) (s : State) : (modLaunch n f s).w0 = s.w0 := rfl
@[simp] theorem modLaunch_capw (n : Nat) (f : Launch → Launch) (s : State) : (modLaunch n f s).capw = s.capw := rfl
@[simp] theorem modLaunch_pstep (n : Nat) (f : Launch → Launch) (s : State) : (modLaunch n f s).pstep = s.pstep := rfl
@[simp] theorem modLaunch_ttrip (n : Nat) (f : Launch → Launch) (s : State) : (modLaunch n f s).ttrip = s.ttrip := rfl
@[simp] theorem modLaunch_power (n : Nat) (f : Launch → Launch) (s : State) : (modLaunch n f s).power = s.power := rfl
@[simp] theorem modLaunch_coolSince (n : Nat) (f : Launch → Launch) (s : State) : (modLaunch n f s).coolSince = s.coolSince := rfl
@[simp] theorem modLaunch_temps (n : Nat) (f : Launch → Launch) (s : State) : (modLaunch n f s).temps = s.temps := rfl
@[simp] theorem modLaunch_band (n : Nat) (f : Launch → Launch) (s : State) : (modLaunch n f s).band = s.band := rfl
@[simp] theorem modLaunch_refreshed (n : Nat) (f : Launch → Launch) (s : State) : (modLaunch n f s).refreshed = s.refreshed := rfl
@[simp] theorem modLaunch_patrolled (n : Nat) (f : Launch → Launch) (s : State) : (modLaunch n f s).patrolled = s.patrolled := rfl
@[simp] theorem modLaunch_deadRows (n : Nat) (f : Launch → Launch) (s : State) : (modLaunch n f s).deadRows = s.deadRows := rfl
@[simp] theorem modLaunch_buses (n : Nat) (f : Launch → Launch) (s : State) : (modLaunch n f s).buses = s.buses := rfl

/-! ### `vSet` -/

@[simp] theorem vSet_gid (g : Group) (i r : Nat) (x : Word) : (vSet g i r x).gid = g.gid := rfl
@[simp] theorem vSet_eid (g : Group) (i r : Nat) (x : Word) : (vSet g i r x).eid = g.eid := rfl
@[simp] theorem vSet_tid (g : Group) (i r : Nat) (x : Word) : (vSet g i r x).tid = g.tid := rfl
@[simp] theorem vSet_launch (g : Group) (i r : Nat) (x : Word) : (vSet g i r x).launch = g.launch := rfl
@[simp] theorem vSet_gang (g : Group) (i r : Nat) (x : Word) : (vSet g i r x).gang = g.gang := rfl
@[simp] theorem vSet_teamNo (g : Group) (i r : Nat) (x : Word) : (vSet g i r x).teamNo = g.teamNo := rfl
@[simp] theorem vSet_grp (g : Group) (i r : Nat) (x : Word) : (vSet g i r x).grp = g.grp := rfl
@[simp] theorem vSet_die (g : Group) (i r : Nat) (x : Word) : (vSet g i r x).die = g.die := rfl
@[simp] theorem vSet_core (g : Group) (i r : Nat) (x : Word) : (vSet g i r x).core = g.core := rfl
@[simp] theorem vSet_lane (g : Group) (i r : Nat) (x : Word) : (vSet g i r x).lane = g.lane := rfl
@[simp] theorem vSet_width (g : Group) (i r : Nat) (x : Word) : (vSet g i r x).width = g.width := rfl
@[simp] theorem vSet_base (g : Group) (i r : Nat) (x : Word) : (vSet g i r x).base = g.base := rfl
@[simp] theorem vSet_status (g : Group) (i r : Nat) (x : Word) : (vSet g i r x).status = g.status := rfl
@[simp] theorem vSet_pc (g : Group) (i r : Nat) (x : Word) : (vSet g i r x).pc = g.pc := rfl
@[simp] theorem vSet_live (g : Group) (i r : Nat) (x : Word) : (vSet g i r x).live = g.live := rfl
@[simp] theorem vSet_active (g : Group) (i r : Nat) (x : Word) : (vSet g i r x).active = g.active := rfl
@[simp] theorem vSet_v (g : Group) (i r : Nat) (x : Word) : (vSet g i r x).v = Sparse.set 0 (256 * i + r) x g.v := rfl
@[simp] theorem vSet_vPoison (g : Group) (i r : Nat) (x : Word) : (vSet g i r x).vPoison = g.vPoison.erase (256 * i + r) := rfl
@[simp] theorem vSet_p (g : Group) (i r : Nat) (x : Word) : (vSet g i r x).p = g.p := rfl
@[simp] theorem vSet_s (g : Group) (i r : Nat) (x : Word) : (vSet g i r x).s = g.s := rfl
@[simp] theorem vSet_q (g : Group) (i r : Nat) (x : Word) : (vSet g i r x).q = g.q := rfl
@[simp] theorem vSet_fmt (g : Group) (i r : Nat) (x : Word) : (vSet g i r x).fmt = g.fmt := rfl
@[simp] theorem vSet_jord (g : Group) (i r : Nat) (x : Word) : (vSet g i r x).jord = g.jord := rfl
@[simp] theorem vSet_jx (g : Group) (i r : Nat) (x : Word) : (vSet g i r x).jx = g.jx := rfl
@[simp] theorem vSet_role (g : Group) (i r : Nat) (x : Word) : (vSet g i r x).role = g.role := rfl
@[simp] theorem vSet_ridx (g : Group) (i r : Nat) (x : Word) : (vSet g i r x).ridx = g.ridx := rfl
@[simp] theorem vSet_xblk (g : Group) (i r : Nat) (x : Word) : (vSet g i r x).xblk = g.xblk := rfl
@[simp] theorem vSet_stack (g : Group) (i r : Nat) (x : Word) : (vSet g i r x).stack = g.stack := rfl
@[simp] theorem vSet_frame (g : Group) (i r : Nat) (x : Word) : (vSet g i r x).frame = g.frame := rfl
@[simp] theorem vSet_tcause (g : Group) (i r : Nat) (x : Word) : (vSet g i r x).tcause = g.tcause := rfl
@[simp] theorem vSet_tpc (g : Group) (i r : Nat) (x : Word) : (vSet g i r x).tpc = g.tpc := rfl
@[simp] theorem vSet_taddr (g : Group) (i r : Nat) (x : Word) : (vSet g i r x).taddr = g.taddr := rfl
@[simp] theorem vSet_gwts (g : Group) (i r : Nat) (x : Word) : (vSet g i r x).gwts = g.gwts := rfl
@[simp] theorem vSet_gwtsTeam (g : Group) (i r : Nat) (x : Word) : (vSet g i r x).gwtsTeam = g.gwtsTeam := rfl
@[simp] theorem vSet_gwtsSys (g : Group) (i r : Nat) (x : Word) : (vSet g i r x).gwtsSys = g.gwtsSys := rfl
@[simp] theorem vSet_carry (g : Group) (i r : Nat) (x : Word) : (vSet g i r x).carry = g.carry := rfl
@[simp] theorem vSet_latch (g : Group) (i r : Nat) (x : Word) : (vSet g i r x).latch = g.latch := rfl
@[simp] theorem vSet_reports (g : Group) (i r : Nat) (x : Word) : (vSet g i r x).reports = g.reports := rfl
@[simp] theorem vSet_readTime (g : Group) (i r : Nat) (x : Word) : (vSet g i r x).readTime = g.readTime := rfl
@[simp] theorem vSet_yielded (g : Group) (i r : Nat) (x : Word) : (vSet g i r x).yielded = g.yielded := rfl
@[simp] theorem vSet_midway (g : Group) (i r : Nat) (x : Word) : (vSet g i r x).midway = g.midway := rfl
@[simp] theorem vSet_stopping (g : Group) (i r : Nat) (x : Word) : (vSet g i r x).stopping = g.stopping := rfl
@[simp] theorem vSet_waitingSince (g : Group) (i r : Nat) (x : Word) : (vSet g i r x).waitingSince = g.waitingSince := rfl

/-! ### `sSet` -/

@[simp] theorem sSet_gid (g : Group) (r : Nat) (x : Word) : (sSet g r x).gid = g.gid := rfl
@[simp] theorem sSet_eid (g : Group) (r : Nat) (x : Word) : (sSet g r x).eid = g.eid := rfl
@[simp] theorem sSet_tid (g : Group) (r : Nat) (x : Word) : (sSet g r x).tid = g.tid := rfl
@[simp] theorem sSet_launch (g : Group) (r : Nat) (x : Word) : (sSet g r x).launch = g.launch := rfl
@[simp] theorem sSet_gang (g : Group) (r : Nat) (x : Word) : (sSet g r x).gang = g.gang := rfl
@[simp] theorem sSet_teamNo (g : Group) (r : Nat) (x : Word) : (sSet g r x).teamNo = g.teamNo := rfl
@[simp] theorem sSet_grp (g : Group) (r : Nat) (x : Word) : (sSet g r x).grp = g.grp := rfl
@[simp] theorem sSet_die (g : Group) (r : Nat) (x : Word) : (sSet g r x).die = g.die := rfl
@[simp] theorem sSet_core (g : Group) (r : Nat) (x : Word) : (sSet g r x).core = g.core := rfl
@[simp] theorem sSet_lane (g : Group) (r : Nat) (x : Word) : (sSet g r x).lane = g.lane := rfl
@[simp] theorem sSet_width (g : Group) (r : Nat) (x : Word) : (sSet g r x).width = g.width := rfl
@[simp] theorem sSet_base (g : Group) (r : Nat) (x : Word) : (sSet g r x).base = g.base := rfl
@[simp] theorem sSet_status (g : Group) (r : Nat) (x : Word) : (sSet g r x).status = g.status := rfl
@[simp] theorem sSet_pc (g : Group) (r : Nat) (x : Word) : (sSet g r x).pc = g.pc := rfl
@[simp] theorem sSet_live (g : Group) (r : Nat) (x : Word) : (sSet g r x).live = g.live := rfl
@[simp] theorem sSet_active (g : Group) (r : Nat) (x : Word) : (sSet g r x).active = g.active := rfl
@[simp] theorem sSet_v (g : Group) (r : Nat) (x : Word) : (sSet g r x).v = g.v := rfl
@[simp] theorem sSet_vPoison (g : Group) (r : Nat) (x : Word) : (sSet g r x).vPoison = g.vPoison := rfl
@[simp] theorem sSet_p (g : Group) (r : Nat) (x : Word) : (sSet g r x).p = g.p := rfl
@[simp] theorem sSet_s (g : Group) (r : Nat) (x : Word) : (sSet g r x).s = Sparse.set 0 r x g.s := rfl
@[simp] theorem sSet_q (g : Group) (r : Nat) (x : Word) : (sSet g r x).q = g.q := rfl
@[simp] theorem sSet_fmt (g : Group) (r : Nat) (x : Word) : (sSet g r x).fmt = g.fmt := rfl
@[simp] theorem sSet_jord (g : Group) (r : Nat) (x : Word) : (sSet g r x).jord = g.jord := rfl
@[simp] theorem sSet_jx (g : Group) (r : Nat) (x : Word) : (sSet g r x).jx = g.jx := rfl
@[simp] theorem sSet_role (g : Group) (r : Nat) (x : Word) : (sSet g r x).role = g.role := rfl
@[simp] theorem sSet_ridx (g : Group) (r : Nat) (x : Word) : (sSet g r x).ridx = g.ridx := rfl
@[simp] theorem sSet_xblk (g : Group) (r : Nat) (x : Word) : (sSet g r x).xblk = g.xblk := rfl
@[simp] theorem sSet_stack (g : Group) (r : Nat) (x : Word) : (sSet g r x).stack = g.stack := rfl
@[simp] theorem sSet_frame (g : Group) (r : Nat) (x : Word) : (sSet g r x).frame = g.frame := rfl
@[simp] theorem sSet_tcause (g : Group) (r : Nat) (x : Word) : (sSet g r x).tcause = g.tcause := rfl
@[simp] theorem sSet_tpc (g : Group) (r : Nat) (x : Word) : (sSet g r x).tpc = g.tpc := rfl
@[simp] theorem sSet_taddr (g : Group) (r : Nat) (x : Word) : (sSet g r x).taddr = g.taddr := rfl
@[simp] theorem sSet_gwts (g : Group) (r : Nat) (x : Word) : (sSet g r x).gwts = g.gwts := rfl
@[simp] theorem sSet_gwtsTeam (g : Group) (r : Nat) (x : Word) : (sSet g r x).gwtsTeam = g.gwtsTeam := rfl
@[simp] theorem sSet_gwtsSys (g : Group) (r : Nat) (x : Word) : (sSet g r x).gwtsSys = g.gwtsSys := rfl
@[simp] theorem sSet_carry (g : Group) (r : Nat) (x : Word) : (sSet g r x).carry = g.carry := rfl
@[simp] theorem sSet_latch (g : Group) (r : Nat) (x : Word) : (sSet g r x).latch = g.latch := rfl
@[simp] theorem sSet_reports (g : Group) (r : Nat) (x : Word) : (sSet g r x).reports = g.reports := rfl
@[simp] theorem sSet_readTime (g : Group) (r : Nat) (x : Word) : (sSet g r x).readTime = g.readTime := rfl
@[simp] theorem sSet_yielded (g : Group) (r : Nat) (x : Word) : (sSet g r x).yielded = g.yielded := rfl
@[simp] theorem sSet_midway (g : Group) (r : Nat) (x : Word) : (sSet g r x).midway = g.midway := rfl
@[simp] theorem sSet_stopping (g : Group) (r : Nat) (x : Word) : (sSet g r x).stopping = g.stopping := rfl
@[simp] theorem sSet_waitingSince (g : Group) (r : Nat) (x : Word) : (sSet g r x).waitingSince = g.waitingSince := rfl

/-! ### `advanceTo` -/

@[simp] theorem advanceTo_gid (p : DWord) (g : Group) : (advanceTo p g).gid = g.gid := rfl
@[simp] theorem advanceTo_eid (p : DWord) (g : Group) : (advanceTo p g).eid = g.eid := rfl
@[simp] theorem advanceTo_tid (p : DWord) (g : Group) : (advanceTo p g).tid = g.tid := rfl
@[simp] theorem advanceTo_launch (p : DWord) (g : Group) : (advanceTo p g).launch = g.launch := rfl
@[simp] theorem advanceTo_gang (p : DWord) (g : Group) : (advanceTo p g).gang = g.gang := rfl
@[simp] theorem advanceTo_teamNo (p : DWord) (g : Group) : (advanceTo p g).teamNo = g.teamNo := rfl
@[simp] theorem advanceTo_grp (p : DWord) (g : Group) : (advanceTo p g).grp = g.grp := rfl
@[simp] theorem advanceTo_die (p : DWord) (g : Group) : (advanceTo p g).die = g.die := rfl
@[simp] theorem advanceTo_core (p : DWord) (g : Group) : (advanceTo p g).core = g.core := rfl
@[simp] theorem advanceTo_lane (p : DWord) (g : Group) : (advanceTo p g).lane = g.lane := rfl
@[simp] theorem advanceTo_width (p : DWord) (g : Group) : (advanceTo p g).width = g.width := rfl
@[simp] theorem advanceTo_base (p : DWord) (g : Group) : (advanceTo p g).base = g.base := rfl
@[simp] theorem advanceTo_status (p : DWord) (g : Group) : (advanceTo p g).status = g.status := rfl
@[simp] theorem advanceTo_pc (p : DWord) (g : Group) : (advanceTo p g).pc = p := rfl
@[simp] theorem advanceTo_live (p : DWord) (g : Group) : (advanceTo p g).live = g.live := rfl
@[simp] theorem advanceTo_active (p : DWord) (g : Group) : (advanceTo p g).active = g.active := rfl
@[simp] theorem advanceTo_v (p : DWord) (g : Group) : (advanceTo p g).v = g.v := rfl
@[simp] theorem advanceTo_vPoison (p : DWord) (g : Group) : (advanceTo p g).vPoison = g.vPoison := rfl
@[simp] theorem advanceTo_p (p : DWord) (g : Group) : (advanceTo p g).p = g.p := rfl
@[simp] theorem advanceTo_s (p : DWord) (g : Group) : (advanceTo p g).s = g.s := rfl
@[simp] theorem advanceTo_q (p : DWord) (g : Group) : (advanceTo p g).q = g.q := rfl
@[simp] theorem advanceTo_fmt (p : DWord) (g : Group) : (advanceTo p g).fmt = g.fmt := rfl
@[simp] theorem advanceTo_jord (p : DWord) (g : Group) : (advanceTo p g).jord = g.jord := rfl
@[simp] theorem advanceTo_jx (p : DWord) (g : Group) : (advanceTo p g).jx = g.jx := rfl
@[simp] theorem advanceTo_role (p : DWord) (g : Group) : (advanceTo p g).role = g.role := rfl
@[simp] theorem advanceTo_ridx (p : DWord) (g : Group) : (advanceTo p g).ridx = 0 := rfl
@[simp] theorem advanceTo_xblk (p : DWord) (g : Group) : (advanceTo p g).xblk = g.xblk := rfl
@[simp] theorem advanceTo_stack (p : DWord) (g : Group) : (advanceTo p g).stack = g.stack := rfl
@[simp] theorem advanceTo_frame (p : DWord) (g : Group) : (advanceTo p g).frame = g.frame := rfl
@[simp] theorem advanceTo_tcause (p : DWord) (g : Group) : (advanceTo p g).tcause = g.tcause := rfl
@[simp] theorem advanceTo_tpc (p : DWord) (g : Group) : (advanceTo p g).tpc = g.tpc := rfl
@[simp] theorem advanceTo_taddr (p : DWord) (g : Group) : (advanceTo p g).taddr = g.taddr := rfl
@[simp] theorem advanceTo_gwts (p : DWord) (g : Group) : (advanceTo p g).gwts = g.gwts := rfl
@[simp] theorem advanceTo_gwtsTeam (p : DWord) (g : Group) : (advanceTo p g).gwtsTeam = g.gwtsTeam := rfl
@[simp] theorem advanceTo_gwtsSys (p : DWord) (g : Group) : (advanceTo p g).gwtsSys = g.gwtsSys := rfl
@[simp] theorem advanceTo_carry (p : DWord) (g : Group) : (advanceTo p g).carry = g.carry := rfl
@[simp] theorem advanceTo_latch (p : DWord) (g : Group) : (advanceTo p g).latch = g.latch := rfl
@[simp] theorem advanceTo_reports (p : DWord) (g : Group) : (advanceTo p g).reports = g.reports := rfl
@[simp] theorem advanceTo_readTime (p : DWord) (g : Group) : (advanceTo p g).readTime = 0 := rfl
@[simp] theorem advanceTo_yielded (p : DWord) (g : Group) : (advanceTo p g).yielded = g.yielded := rfl
@[simp] theorem advanceTo_midway (p : DWord) (g : Group) : (advanceTo p g).midway = false := rfl
@[simp] theorem advanceTo_stopping (p : DWord) (g : Group) : (advanceTo p g).stopping = g.stopping := rfl
@[simp] theorem advanceTo_waitingSince (p : DWord) (g : Group) : (advanceTo p g).waitingSince = g.waitingSince := rfl

/-! ### `raise` -/

@[simp] theorem raise_gid (row : Nat) (f : Flags) (g : Group) : (raise row f g).gid = g.gid := rfl
@[simp] theorem raise_eid (row : Nat) (f : Flags) (g : Group) : (raise row f g).eid = g.eid := rfl
@[simp] theorem raise_tid (row : Nat) (f : Flags) (g : Group) : (raise row f g).tid = g.tid := rfl
@[simp] theorem raise_launch (row : Nat) (f : Flags) (g : Group) : (raise row f g).launch = g.launch := rfl
@[simp] theorem raise_gang (row : Nat) (f : Flags) (g : Group) : (raise row f g).gang = g.gang := rfl
@[simp] theorem raise_teamNo (row : Nat) (f : Flags) (g : Group) : (raise row f g).teamNo = g.teamNo := rfl
@[simp] theorem raise_grp (row : Nat) (f : Flags) (g : Group) : (raise row f g).grp = g.grp := rfl
@[simp] theorem raise_die (row : Nat) (f : Flags) (g : Group) : (raise row f g).die = g.die := rfl
@[simp] theorem raise_core (row : Nat) (f : Flags) (g : Group) : (raise row f g).core = g.core := rfl
@[simp] theorem raise_lane (row : Nat) (f : Flags) (g : Group) : (raise row f g).lane = g.lane := rfl
@[simp] theorem raise_width (row : Nat) (f : Flags) (g : Group) : (raise row f g).width = g.width := rfl
@[simp] theorem raise_base (row : Nat) (f : Flags) (g : Group) : (raise row f g).base = g.base := rfl
@[simp] theorem raise_status (row : Nat) (f : Flags) (g : Group) : (raise row f g).status = g.status := rfl
@[simp] theorem raise_pc (row : Nat) (f : Flags) (g : Group) : (raise row f g).pc = g.pc := rfl
@[simp] theorem raise_live (row : Nat) (f : Flags) (g : Group) : (raise row f g).live = g.live := rfl
@[simp] theorem raise_active (row : Nat) (f : Flags) (g : Group) : (raise row f g).active = g.active := rfl
@[simp] theorem raise_v (row : Nat) (f : Flags) (g : Group) : (raise row f g).v = g.v := rfl
@[simp] theorem raise_vPoison (row : Nat) (f : Flags) (g : Group) : (raise row f g).vPoison = g.vPoison := rfl
@[simp] theorem raise_p (row : Nat) (f : Flags) (g : Group) : (raise row f g).p = g.p := rfl
@[simp] theorem raise_s (row : Nat) (f : Flags) (g : Group) : (raise row f g).s = g.s := rfl
@[simp] theorem raise_q (row : Nat) (f : Flags) (g : Group) : (raise row f g).q = g.q := rfl
@[simp] theorem raise_fmt (row : Nat) (f : Flags) (g : Group) : (raise row f g).fmt = g.fmt := rfl
@[simp] theorem raise_jord (row : Nat) (f : Flags) (g : Group) : (raise row f g).jord = g.jord := rfl
@[simp] theorem raise_jx (row : Nat) (f : Flags) (g : Group) : (raise row f g).jx = g.jx ||| (f.zeroExtend 20 <<< (5 * row)) := rfl
@[simp] theorem raise_role (row : Nat) (f : Flags) (g : Group) : (raise row f g).role = g.role := rfl
@[simp] theorem raise_ridx (row : Nat) (f : Flags) (g : Group) : (raise row f g).ridx = g.ridx := rfl
@[simp] theorem raise_xblk (row : Nat) (f : Flags) (g : Group) : (raise row f g).xblk = g.xblk := rfl
@[simp] theorem raise_stack (row : Nat) (f : Flags) (g : Group) : (raise row f g).stack = g.stack := rfl
@[simp] theorem raise_frame (row : Nat) (f : Flags) (g : Group) : (raise row f g).frame = g.frame := rfl
@[simp] theorem raise_tcause (row : Nat) (f : Flags) (g : Group) : (raise row f g).tcause = g.tcause := rfl
@[simp] theorem raise_tpc (row : Nat) (f : Flags) (g : Group) : (raise row f g).tpc = g.tpc := rfl
@[simp] theorem raise_taddr (row : Nat) (f : Flags) (g : Group) : (raise row f g).taddr = g.taddr := rfl
@[simp] theorem raise_gwts (row : Nat) (f : Flags) (g : Group) : (raise row f g).gwts = g.gwts := rfl
@[simp] theorem raise_gwtsTeam (row : Nat) (f : Flags) (g : Group) : (raise row f g).gwtsTeam = g.gwtsTeam := rfl
@[simp] theorem raise_gwtsSys (row : Nat) (f : Flags) (g : Group) : (raise row f g).gwtsSys = g.gwtsSys := rfl
@[simp] theorem raise_carry (row : Nat) (f : Flags) (g : Group) : (raise row f g).carry = g.carry := rfl
@[simp] theorem raise_latch (row : Nat) (f : Flags) (g : Group) : (raise row f g).latch = g.latch := rfl
@[simp] theorem raise_reports (row : Nat) (f : Flags) (g : Group) : (raise row f g).reports = g.reports := rfl
@[simp] theorem raise_readTime (row : Nat) (f : Flags) (g : Group) : (raise row f g).readTime = g.readTime := rfl
@[simp] theorem raise_yielded (row : Nat) (f : Flags) (g : Group) : (raise row f g).yielded = g.yielded := rfl
@[simp] theorem raise_midway (row : Nat) (f : Flags) (g : Group) : (raise row f g).midway = g.midway := rfl
@[simp] theorem raise_stopping (row : Nat) (f : Flags) (g : Group) : (raise row f g).stopping = g.stopping := rfl
@[simp] theorem raise_waitingSince (row : Nat) (f : Flags) (g : Group) : (raise row f g).waitingSince = g.waitingSince := rfl

end Sys2Proof.Laws
end

