-- ==== Sys2Proof/Laws/Registers.lean ====
section
/-! SUPPORT. Laws of the register operations: reading after writing, and what a write leaves. -/

namespace Sys2Proof.Laws

open Sys2Proof.Machine

/-! ### Keys -/

theorem key_inj {i r j q : Nat} (hr : r < 256) (hq : q < 256) : 256 * j + q = 256 * i + r ↔ j = i ∧ q = r := by
  constructor
  · intro h; omega
  · rintro ⟨rfl, rfl⟩; rfl

/-! ### Single writes -/

theorem vGet_vSet (g : Group) (i r j q : Nat) (x : Word) :
    vGet (vSet g i r x) j q = if 256 * j + q = 256 * i + r then x else vGet g j q := by
  simp [vGet, get_set]

@[simp] theorem vGet_vSet_self (g : Group) (i r : Nat) (x : Word) : vGet (vSet g i r x) i r = x := by simp [vGet_vSet]

theorem vGet_vSet_ne (g : Group) {i r j q : Nat} (hr : r < 256) (hq : q < 256) (h : j ≠ i ∨ q ≠ r) (x : Word) :
    vGet (vSet g i r x) j q = vGet g j q := by
  rw [vGet_vSet, if_neg]
  rw [key_inj hr hq]
  rintro ⟨rfl, rfl⟩
  simp at h

@[simp] theorem sGet_vSet (g : Group) (i r q : Nat) (x : Word) : sGet (vSet g i r x) q = sGet g q := rfl

theorem sGet_sSet (g : Group) (r q : Nat) (x : Word) : sGet (sSet g r x) q = if q = r then x else sGet g q := by
  simp [sGet, get_set]

@[simp] theorem vGet_sSet (g : Group) (r j q : Nat) (x : Word) : vGet (sSet g r x) j q = vGet g j q := rfl

theorem getLsbD_putBit {w : Nat} (m : BitVec w) (i j : Nat) (b : Bool) (hi : i < w) :
    (putBit m i b).getLsbD j = if j = i then b else m.getLsbD j := by
  unfold putBit
  have e : BitVec.ofNat w (2 ^ i) = BitVec.twoPow w i := by
    apply BitVec.eq_of_toNat_eq; rw [BitVec.toNat_ofNat, BitVec.toNat_twoPow]
  cases b
  · simp only [Bool.false_eq_true, if_false, e, BitVec.getLsbD_and, BitVec.getLsbD_not, BitVec.getLsbD_twoPow]
    by_cases h : j = i
    · subst h; simp [hi]
    · by_cases hj : j < w
      · simp [h, Ne.symm h, hj]
      · simp [h, BitVec.getLsbD_of_ge m j (by omega)]
  · simp only [if_true, e, BitVec.getLsbD_or, BitVec.getLsbD_twoPow]
    by_cases h : j = i
    · subst h; simp [hi]
    · simp [h, Ne.symm h]

theorem pGet_pSet (g : Group) {i k : Nat} (hi : i < 64) (j q : Nat) (b : Bool) :
    pGet (pSet g i k b) j q = if q = 7 then true else if q = k ∧ j = i then b else pGet g j q := by
  unfold pGet pSet
  by_cases hq : q = 7
  · simp [hq]
  · by_cases hk : k = 7
    · simp only [hq, if_false, hk, if_true]
      simp
    · simp only [hq, hk, if_false, get_set]
      by_cases h : q = k
      · subst h
        simp only [if_true, true_and]
        rw [getLsbD_putBit _ _ _ _ hi]
      · simp [h]

theorem qGet_qSet (g : Group) {k : Nat} (hk : k < 8) (q : Nat) (b : Bool) :
    qGet (qSet g k b) q = if q = 7 then true else if q = k then b else qGet g q := by
  unfold qGet qSet
  by_cases hq : q = 7
  · simp [hq]
  · by_cases h7 : k = 7
    · simp only [hq, if_false, h7, if_true]
    · simp only [hq, h7, if_false]
      rw [getLsbD_putBit _ _ _ _ (by omega)]

/-! ### Writes of consecutive registers -/

/-- A write of v registers changes v registers and their storage errors alone. -/
theorem vSets_frame (g : Group) (i r : Nat) (l : List Word) :
    vSets g i r l = { g with v := (vSets g i r l).v, vPoison := (vSets g i r l).vPoison } := by
  induction l generalizing g r with
  | nil => rfl
  | cons x l ih => rw [vSets, ih]; rfl

theorem sSets_frame (g : Group) (r : Nat) (l : List Word) : sSets g r l = { g with s := (sSets g r l).s } := by
  induction l generalizing g r with
  | nil => rfl
  | cons x l ih => rw [sSets, ih]; rfl

theorem vGet_vSets (g : Group) (i r : Nat) (l : List Word) (j q : Nat) :
    vGet (vSets g i r l) j q =
      if 256 * i + r ≤ 256 * j + q ∧ 256 * j + q < 256 * i + r + l.length then nth 0 l (256 * j + q - (256 * i + r))
      else vGet g j q := by
  induction l generalizing g r with
  | nil => rw [vSets, if_neg]; simp only [List.length_nil]; omega
  | cons x l ih =>
    rw [vSets, ih, vGet_vSet]
    simp only [List.length_cons]
    by_cases h0 : 256 * j + q = 256 * i + r
    · simp only [h0]
      rw [if_neg (by omega), if_pos trivial, if_pos (by omega)]
      simp [nth]
    · simp only [h0, if_false]
      by_cases h1 : 256 * i + (r + 1) ≤ 256 * j + q ∧ 256 * j + q < 256 * i + (r + 1) + l.length
      · rw [if_pos h1, if_pos (by omega)]
        have : 256 * j + q - (256 * i + r) = (256 * j + q - (256 * i + (r + 1))) + 1 := by omega
        simp [nth, this]
      · rw [if_neg h1, if_neg (by omega)]

/-- Register `q` of the strand written: its new value, or the old one outside the registers written. -/
theorem vGet_vSets_self (g : Group) (i r : Nat) (l : List Word) (q : Nat) :
    vGet (vSets g i r l) i q = if r ≤ q ∧ q < r + l.length then nth 0 l (q - r) else vGet g i q := by
  rw [vGet_vSets]
  by_cases h : r ≤ q ∧ q < r + l.length
  · rw [if_pos h, if_pos (by omega)]
    congr 1; omega
  · rw [if_neg h, if_neg (by omega)]

/-- The registers of another strand stay. -/
theorem vGet_vSets_other (g : Group) {i r j q : Nat} {l : List Word} (hr : r + l.length ≤ 256) (hq : q < 256) (h : j ≠ i) :
    vGet (vSets g i r l) j q = vGet g j q := by
  rw [vGet_vSets, if_neg]
  omega

theorem sGet_sSets (g : Group) (r : Nat) (l : List Word) (q : Nat) :
    sGet (sSets g r l) q = if r ≤ q ∧ q < r + l.length then nth 0 l (q - r) else sGet g q := by
  induction l generalizing g r with
  | nil => rw [sSets, if_neg]; simp only [List.length_nil]; omega
  | cons x l ih =>
    rw [sSets, ih, sGet_sSet]
    simp only [List.length_cons]
    by_cases h0 : q = r
    · subst h0
      rw [if_neg (by omega), if_pos rfl, if_pos (by omega)]
      simp [nth]
    · by_cases h1 : r + 1 ≤ q ∧ q < r + 1 + l.length
      · rw [if_pos h1, if_pos (by omega)]
        have : q - r = (q - (r + 1)) + 1 := by omega
        simp [nth, this]
      · rw [if_neg h1, if_neg h0, if_neg (by omega)]

@[simp] theorem sGet_vSets (g : Group) (i r : Nat) (l : List Word) (q : Nat) : sGet (vSets g i r l) q = sGet g q := by
  rw [vSets_frame]; rfl

@[simp] theorem vGet_sSets (g : Group) (r : Nat) (l : List Word) (j q : Nat) : vGet (sSets g r l) j q = vGet g j q := by
  rw [sSets_frame]; rfl

@[simp] theorem pGet_vSets (g : Group) (i r : Nat) (l : List Word) (j q : Nat) : pGet (vSets g i r l) j q = pGet g j q := by
  rw [vSets_frame]; rfl

@[simp] theorem pGet_sSets (g : Group) (r : Nat) (l : List Word) (j q : Nat) : pGet (sSets g r l) j q = pGet g j q := by
  rw [sSets_frame]; rfl

/-- A write leaves no new storage error. -/
theorem vPoison_vSets_nil (g : Group) (i r : Nat) (l : List Word) (h : g.vPoison = []) : (vSets g i r l).vPoison = [] := by
  induction l generalizing g r with
  | nil => exact h
  | cons x l ih => exact ih _ _ (by simp [vSet, h])

theorem mem_erase_sub {l : List Nat} {a b : Nat} (h : a ∈ l.erase b) : a ∈ l := List.mem_of_mem_erase h

theorem vPoison_vSets_sub (g : Group) (i r : Nat) (l : List Word) {k : Nat} (h : k ∈ (vSets g i r l).vPoison) : k ∈ g.vPoison := by
  induction l generalizing g r with
  | nil => exact h
  | cons x l ih => exact mem_erase_sub (ih _ _ h)

/-! ### Predicate writes -/

theorem pSet_frame (g : Group) (i k : Nat) (b : Bool) : pSet g i k b = { g with p := (pSet g i k b).p } := by
  unfold pSet; split <;> rfl

theorem qSet_frame (g : Group) (k : Nat) (b : Bool) : qSet g k b = { g with q := (qSet g k b).q } := by
  unfold qSet; split <;> rfl

@[simp] theorem vGet_pSet (g : Group) (i k : Nat) (b : Bool) (j q : Nat) : vGet (pSet g i k b) j q = vGet g j q := by
  rw [pSet_frame]; rfl
@[simp] theorem sGet_pSet (g : Group) (i k : Nat) (b : Bool) (q : Nat) : sGet (pSet g i k b) q = sGet g q := by
  rw [pSet_frame]; rfl
@[simp] theorem qGet_pSet (g : Group) (i k : Nat) (b : Bool) (q : Nat) : qGet (pSet g i k b) q = qGet g q := by
  rw [pSet_frame]; rfl
@[simp] theorem vGet_qSet (g : Group) (k : Nat) (b : Bool) (j q : Nat) : vGet (qSet g k b) j q = vGet g j q := by
  rw [qSet_frame]; rfl
@[simp] theorem sGet_qSet (g : Group) (k : Nat) (b : Bool) (q : Nat) : sGet (qSet g k b) q = sGet g q := by
  rw [qSet_frame]; rfl
@[simp] theorem pGet_qSet (g : Group) (k : Nat) (b : Bool) (j q : Nat) : pGet (qSet g k b) j q = pGet g j q := by
  rw [qSet_frame]; rfl
@[simp] theorem pGet_vSet (g : Group) (i r : Nat) (x : Word) (j q : Nat) : pGet (vSet g i r x) j q = pGet g j q := rfl
@[simp] theorem qGet_vSet (g : Group) (i r : Nat) (x : Word) (q : Nat) : qGet (vSet g i r x) q = qGet g q := rfl

/-! ### Masks and lists -/

@[simp] theorem mem_bitsOf {n i : Nat} {m : DWord} : i ∈ bitsOf n m ↔ i < n ∧ m.getLsbD i = true := by
  simp [bitsOf]

theorem nodup_bitsOf (n : Nat) (m : DWord) : (bitsOf n m).Nodup := by
  unfold bitsOf
  exact List.nodup_range.filter _

theorem nodup_activeList (g : Group) : (activeList g).Nodup := nodup_bitsOf _ _

theorem nodup_execList (g : Group) (x : Fields) : (execList g x).Nodup := (nodup_activeList g).filter _

theorem widthOf_le (g : Group) : widthOf g ≤ 64 := by unfold widthOf; split <;> omega

theorem lt_of_mem_execList {g : Group} {x : Fields} {i : Nat} (h : i ∈ execList g x) : i < 64 := by
  simp only [execList, activeList, List.mem_filter, mem_bitsOf] at h
  have := widthOf_le g
  omega

theorem mem_execList {g : Group} {x : Fields} {i : Nat} :
    i ∈ execList g x ↔ i ∈ activeList g ∧ holdsV g x i = true ∧ g.ridx ≤ i := by
  simp [execList]

end Sys2Proof.Laws
end

