-- ==== Sys2Proof/Laws/Run.lean ====
section
/-! SUPPORT. What running an instruction over the executing strands does: each strand reads what it held before the
instruction and changes only its own registers (R67). -/

namespace Sys2Proof.Laws

open Sys2Proof.Machine

/-! ### Groups that agree on a strand -/

/-- Two groups agree on strand `i`: they differ at most in registers, predicates and storage errors of other strands and,
unless `keep`, in the sticky flags. -/
def agree (keep : Bool) (i : Nat) (g h : Group) : Prop :=
  (∀ q, q < 256 → vGet h i q = vGet g i q) ∧ (∀ k, pGet h i k = pGet g i k) ∧
  { h with v := g.v, vPoison := g.vPoison, p := g.p, jx := if keep then h.jx else g.jx } = g

theorem agree_refl (keep : Bool) (i : Nat) (g : Group) : agree keep i g g := ⟨fun _ _ => rfl, fun _ => rfl, by cases keep <;> rfl⟩

theorem agree_s {keep : Bool} {i : Nat} {g h : Group} (a : agree keep i g h) : h.s = g.s := by rw [← a.2.2]
theorem agree_q {keep : Bool} {i : Nat} {g h : Group} (a : agree keep i g h) : h.q = g.q := by rw [← a.2.2]
theorem agree_fmt {keep : Bool} {i : Nat} {g h : Group} (a : agree keep i g h) : h.fmt = g.fmt := by rw [← a.2.2]
theorem agree_jord {keep : Bool} {i : Nat} {g h : Group} (a : agree keep i g h) : h.jord = g.jord := by rw [← a.2.2]
theorem agree_xblk {keep : Bool} {i : Nat} {g h : Group} (a : agree keep i g h) : h.xblk = g.xblk := by rw [← a.2.2]
theorem agree_active {keep : Bool} {i : Nat} {g h : Group} (a : agree keep i g h) : h.active = g.active := by rw [← a.2.2]
theorem agree_width {keep : Bool} {i : Nat} {g h : Group} (a : agree keep i g h) : h.width = g.width := by rw [← a.2.2]
theorem agree_ridx {keep : Bool} {i : Nat} {g h : Group} (a : agree keep i g h) : h.ridx = g.ridx := by rw [← a.2.2]
theorem agree_pc {keep : Bool} {i : Nat} {g h : Group} (a : agree keep i g h) : h.pc = g.pc := by rw [← a.2.2]
theorem agree_v {keep : Bool} {i : Nat} {g h : Group} (a : agree keep i g h) {q : Nat} (hq : q < 256) : vGet h i q = vGet g i q := a.1 q hq
theorem agree_p {keep : Bool} {i : Nat} {g h : Group} (a : agree keep i g h) (k : Nat) : pGet h i k = pGet g i k := a.2.1 k
theorem agree_sGet {keep : Bool} {i : Nat} {g h : Group} (a : agree keep i g h) (k : Nat) : sGet h k = sGet g k := by
  unfold sGet; rw [agree_s a]
theorem agree_qGet {keep : Bool} {i : Nat} {g h : Group} (a : agree keep i g h) (k : Nat) : qGet h k = qGet g k := by
  unfold qGet; rw [agree_q a]

theorem agree_trans {keep : Bool} {i : Nat} {g h k : Group} (a : agree keep i g h) (b : agree keep i h k) : agree keep i g k := by
  refine ⟨fun q hq => (b.1 q hq).trans (a.1 q hq), fun q => (b.2.1 q).trans (a.2.1 q), ?_⟩
  have h1 := a.2.2
  have h2 := b.2.2
  cases keep <;> (rw [← h2] at h1; exact h1)

theorem agree_jx {i : Nat} {g h : Group} (a : agree true i g h) : h.jx = g.jx := by
  have := congrArg Group.jx a.2.2
  exact this

/-- A group that differs in the parts of another strand agrees on strand `i`. -/
theorem agree_of (keep : Bool) (i : Nat) {g h : Group} (hv : ∀ q, q < 256 → vGet h i q = vGet g i q) (hp : ∀ k, pGet h i k = pGet g i k)
    (hr : { h with v := g.v, vPoison := g.vPoison, p := g.p, jx := if keep then h.jx else g.jx } = g) : agree keep i g h :=
  ⟨hv, hp, hr⟩

theorem agree_read32 {keep : Bool} {i : Nat} {g h : Group} (a : agree keep i g h) (x : Fields) (o : Opnd) :
    read32 h x i o = read32 g x i o := by
  cases o with
  | v n => exact agree_v a n.isLt
  | s n => exact agree_sGet a _
  | sp n => rfl
  | im n => rfl

theorem agree_read64 {keep : Bool} {i : Nat} {g h : Group} (a : agree keep i g h) (x : Fields) {o : Opnd} (ho : opIdx o + 1 < 256 ∨ isV o = false) :
    read64 h x i o = read64 g x i o := by
  cases o with
  | v n =>
    have hn : n.toNat + 1 < 256 := by simpa [opIdx, isV] using ho
    simp only [read64, agree_v a n.isLt, agree_v a hn]
  | s n => simp only [read64, agree_sGet a]
  | sp n => rfl
  | im n => rfl

theorem agree_readB32 {keep : Bool} {i : Nat} {g h : Group} (a : agree keep i g h) (x : Fields) : readB32 h x i = readB32 g x i := by
  simp only [readB32, agree_read32 a]

theorem agree_readPred {keep : Bool} {i : Nat} {g h : Group} (a : agree keep i g h) (o : Opnd) : readPred h i o = readPred g i o := by
  simp only [readPred, agree_p a, agree_qGet a]

/-! ### The strands of an instruction in turn -/

/-- A strand's action: it changes its own registers, predicates and storage errors and the sticky flags alone. -/
structure Own (keep : Bool) (i : Nat) (f : Group → Group) : Prop where
  other : ∀ g j, j ≠ i → j < 64 → agree keep j g (f g)
  rest : ∀ g, { f g with v := g.v, vPoison := g.vPoison, p := g.p, jx := if keep then (f g).jx else g.jx } = g
  poison : ∀ g k, k ∈ (f g).vPoison → k ∈ g.vPoison

/-- Runs actions in a row. -/
def inTurn (f : Nat → Group → Group) (l : List Nat) (g : Group) : Group := l.foldl (fun h i => f i h) g

theorem badReg_mono {g h : Group} (hp : ∀ k, k ∈ h.vPoison → k ∈ g.vPoison) {i : Nat} {o : Opnd × Nat}
    (b : badReg g i o = false) : badReg h i o = false := by
  obtain ⟨o, n⟩ := o
  cases o with
  | v k =>
    simp only [badReg, List.any_eq_false, List.mem_range, List.contains_eq_mem, decide_eq_true_eq] at b ⊢
    intro j hj hc
    exact b j hj (hp _ hc)
  | s k => rfl
  | sp k => rfl
  | im k => rfl

theorem runStrands_next (srcs : List (Opnd × Nat)) (f : Nat → Group → Group) (l : List Nat) (g : Group)
    (hf : ∀ i ∈ l, ∀ g k, k ∈ (f i g).vPoison → k ∈ g.vPoison)
    (hb : ∀ i ∈ l, ∀ o ∈ srcs, badReg g i o = false) : runStrands srcs f l g = (inTurn f l g, none) := by
  induction l generalizing g with
  | nil => rfl
  | cons i l ih =>
    have h0 : srcs.any (badReg g i) = false := by
      rw [List.any_eq_false]
      intro o ho
      simp [hb i (by simp) o ho]
    simp only [runStrands, h0, Bool.false_eq_true, if_false]
    rw [ih]
    · rfl
    · exact fun j hj => hf j (by simp [hj])
    · exact fun j hj o ho => badReg_mono (hf i (by simp) g) (hb j (by simp [hj]) o ho)

/-- The first executing strand that reads a register with a storage error stops the instruction. -/
theorem runStrands_error (srcs : List (Opnd × Nat)) (f : Nat → Group → Group) (l r : List Nat) (i : Nat) (g : Group)
    (hf : ∀ j ∈ l, ∀ g k, k ∈ (f j g).vPoison → k ∈ g.vPoison)
    (hb : ∀ j ∈ l, ∀ o ∈ srcs, badReg g j o = false)
    (hi : srcs.any (badReg (inTurn f l g) i) = true) :
    runStrands srcs f (l ++ i :: r) g = (inTurn f l g, some i) := by
  induction l generalizing g with
  | nil => simp only [List.nil_append, runStrands]; simp only [inTurn, List.foldl_nil] at hi ⊢; rw [if_pos hi]
  | cons j l ih =>
    have h0 : srcs.any (badReg g j) = false := by
      rw [List.any_eq_false]
      intro o ho
      simp [hb j (by simp) o ho]
    simp only [List.cons_append, runStrands, h0, Bool.false_eq_true, if_false]
    rw [ih]
    · rfl
    · exact fun k hk => hf k (by simp [hk])
    · exact fun k hk o ho => badReg_mono (hf j (by simp) g) (hb k (by simp [hk]) o ho)
    · exact hi

theorem inTurn_rest (f : Nat → Group → Group) {keep : Bool} (l : List Nat) (g : Group) (ho : ∀ i ∈ l, Own keep i (f i)) :
    { inTurn f l g with v := g.v, vPoison := g.vPoison, p := g.p, jx := if keep then (inTurn f l g).jx else g.jx } = g := by
  induction l generalizing g with
  | nil => cases keep <;> rfl
  | cons i l ih =>
    have h1 := (ho i (by simp)).rest g
    have h2 := ih (f i g) (fun j hj => ho j (by simp [hj]))
    cases keep <;> (rw [← h2] at h1; exact h1)

/-- A strand that is not listed keeps its registers. -/
theorem inTurn_other (f : Nat → Group → Group) {keep : Bool} (l : List Nat) (g : Group) (ho : ∀ i ∈ l, Own keep i (f i)) {j : Nat} (hj : j < 64)
    (hn : j ∉ l) : agree keep j g (inTurn f l g) := by
  induction l generalizing g with
  | nil => exact agree_refl _ _ _
  | cons i l ih =>
    have h1 := (ho i (by simp)).other g j (by rintro rfl; simp at hn) hj
    exact agree_trans h1 (ih (f i g) (fun k hk => ho k (by simp [hk])) (by simp at hn; exact hn.2))

/-- A listed strand ends as its own action leaves it, run on a group that agrees with the first one. -/
theorem inTurn_own (f : Nat → Group → Group) {keep : Bool} (l : List Nat) (g : Group) (ho : ∀ i ∈ l, Own keep i (f i)) (hd : l.Nodup)
    {i : Nat} (hi : i < 64) (hm : i ∈ l) : ∃ h, agree keep i g h ∧ agree keep i (f i h) (inTurn f l g) := by
  induction l generalizing g with
  | nil => simp at hm
  | cons k l ih =>
    rw [List.nodup_cons] at hd
    by_cases hk : k = i
    · subst hk
      refine ⟨g, agree_refl _ _ _, ?_⟩
      exact inTurn_other f l (f k g) (fun j hj => ho j (by simp [hj])) hi hd.1
    · have hm' : i ∈ l := by
        rcases List.mem_cons.mp hm with h | h
        · exact absurd h.symm hk
        · exact h
      obtain ⟨h, h1, h2⟩ := ih (f k g) (fun j hj => ho j (by simp [hj])) hd.2 hm'
      exact ⟨h, agree_trans ((ho k (by simp)).other g i (Ne.symm hk) hi) h1, h2⟩

/-! ### Register results -/

theorem own_writeRegs {i : Nat} (_hi : i < 64) {o : Opnd} {n : Nat} (hv : isV o = true) (ho : opIdx o + n ≤ 256) (val : Group → List Word)
    (hl : ∀ g, (val g).length = n) : Own true i (fun g => writeRegs g i o (val g)) := by
  cases o with
  | v k =>
    simp only [opIdx] at ho
    refine ⟨fun g j hj _ => ?_, fun g => ?_, fun g k' hk => vPoison_vSets_sub _ _ _ _ hk⟩
    · refine agree_of true j (fun q hq => ?_) (fun q => ?_) ?_
      · exact vGet_vSets_other g (by rw [hl]; exact ho) hq hj
      · simp [writeRegs]
      · simp only [writeRegs, if_true]; rw [vSets_frame]
    · simp only [writeRegs, if_true]; rw [vSets_frame]
  | s k => simp [isV] at hv
  | sp k => simp [isV] at hv
  | im k => simp [isV] at hv

theorem frame_of_back {g h : Group} (hb : { h with v := g.v, vPoison := g.vPoison } = g) :
    h = { g with v := h.v, vPoison := h.vPoison } := by rw [← hb]

theorem frame_of_back_p {g h : Group} (hb : { h with p := g.p } = g) : h = { g with p := h.p } := by rw [← hb]

theorem inTurn_writeRegs_back (o : Opnd) (val : Group → Nat → List Word) (hv : isV o = true) (l : List Nat) (g : Group) :
    { inTurn (fun i g => writeRegs g i o (val g i)) l g with v := g.v, vPoison := g.vPoison } = g := by
  induction l generalizing g with
  | nil => rfl
  | cons i l ih =>
    have h2 := ih (writeRegs g i o (val g i))
    have h1 : { writeRegs g i o (val g i) with v := g.v, vPoison := g.vPoison } = g := by
      cases o with
      | v k => simp only [writeRegs]; rw [vSets_frame]
      | s k => simp [isV] at hv
      | sp k => simp [isV] at hv
      | im k => simp [isV] at hv
    rw [← h2] at h1
    exact h1

theorem inTurn_writeRegs_frame (o : Opnd) (val : Group → Nat → List Word) (hv : isV o = true) (l : List Nat) (g : Group) :
    inTurn (fun i g => writeRegs g i o (val g i)) l g =
      { g with v := (inTurn (fun i g => writeRegs g i o (val g i)) l g).v
               vPoison := (inTurn (fun i g => writeRegs g i o (val g i)) l g).vPoison } :=
  frame_of_back (inTurn_writeRegs_back o val hv l g)

/-- An instruction D := val with `U` = 0 whose operands pass step 5 and hold no storage error completes: each executing
strand holds its result in D, computed from what it held before, and every other register stays. -/
theorem runMap_next {x : Fields} {ok : Bool} {srcs : List (Opnd × Nat)} {val : Group → Nat → List Word} {s : State} {n : Nat}
    (hok : ok = true) (hu : x.u = false) (hd : isV x.d = true) (hn : opIdx x.d + n ≤ 256) (hlen : ∀ g i, (val g i).length = n)
    (hloc : ∀ g h i, agree true i g h → val h i = val g i)
    (hbad : ∀ i ∈ execList s.g x, ∀ o ∈ srcs, badReg s.g i o = false) :
    ∃ h, runMap x ok srcs val s = .next (setG h s) ∧
      h = { s.g with v := h.v, vPoison := h.vPoison, pc := nextPc s.g, ridx := 0, readTime := 0, midway := false } ∧
      ∀ i, i < 64 → ∀ q, q < 256 → vGet h i q =
        if i ∈ execList s.g x ∧ opIdx x.d ≤ q ∧ q < opIdx x.d + n then nth 0 (val s.g i) (q - opIdx x.d) else vGet s.g i q := by
  have hown : ∀ i ∈ execList s.g x, Own true i ((fun i g => writeRegs g i x.d (val g i)) i) :=
    fun i hi => own_writeRegs (lt_of_mem_execList hi) hd hn (fun g => val g i) (fun g => hlen g i)
  have hrun := runStrands_next srcs (fun i g => writeRegs g i x.d (val g i)) (execList s.g x) s.g
    (fun i hi => (hown i hi).poison) hbad
  refine ⟨advance (inTurn (fun i g => writeRegs g i x.d (val g i)) (execList s.g x) s.g), ?_, ?_, ?_⟩
  · simp only [runMap, runAlu, hok, if_true, hu, Bool.false_eq_true, if_false, hrun, finish]
  · have h := inTurn_writeRegs_frame x.d val hd (execList s.g x) s.g
    unfold advance advanceTo nextPc
    rw [h]
  · intro i hi q hq
    have hadv : ∀ g : Group, vGet (advance g) i q = vGet g i q := fun _ => rfl
    rw [hadv]
    by_cases hm : i ∈ execList s.g x
    · obtain ⟨h, h1, h2⟩ := inTurn_own _ _ s.g hown (nodup_execList _ _) hi hm
      rw [agree_v h2 hq]
      obtain ⟨k, hk⟩ : ∃ k, x.d = .v k := by
        cases hx : x.d <;> simp_all [isV]
      simp only [hk, writeRegs, opIdx, hm, true_and]
      rw [vGet_vSets_self, hlen, hloc _ _ _ h1]
      split
      · rfl
      · exact agree_v h1 hq
    · rw [agree_v (inTurn_other _ _ s.g hown hi hm) hq]
      simp [hm]

/-! ### Predicate results -/

theorem own_writePred {i : Nat} (hi : i < 64) {o : Opnd} (hp : opIdx o < 8) (val : Group → Bool) :
    Own true i (fun g => writePred g i o (val g)) := by
  have e : ∀ g, writePred g i o (val g) = pSet g i (opIdx o) (val g) := by
    intro g; simp [writePred, hp]
  refine ⟨fun g j hj hj64 => ?_, fun g => ?_, fun g k' hk => ?_⟩
  · simp only [e]
    refine agree_of true j (fun q _ => by simp) (fun q => ?_) ?_
    · rw [pGet_pSet g hi]
      by_cases h7 : q = 7
      · simp [h7, pGet]
      · simp [h7, hj]
    · simp only [if_true]; rw [pSet_frame]
  · simp only [e, if_true]
    rw [pSet_frame]
  · simp only [e] at hk
    rw [pSet_frame] at hk
    exact hk

theorem inTurn_writePred_back (o : Opnd) (val : Group → Nat → Bool) (hp : opIdx o < 8) (l : List Nat) (g : Group) :
    { inTurn (fun i g => writePred g i o (val g i)) l g with p := g.p } = g := by
  induction l generalizing g with
  | nil => rfl
  | cons i l ih =>
    have h2 := ih (writePred g i o (val g i))
    have h1 : { writePred g i o (val g i) with p := g.p } = g := by
      simp only [writePred, hp, if_true]; rw [pSet_frame]
    rw [← h2] at h1
    exact h1

theorem inTurn_writePred_frame (o : Opnd) (val : Group → Nat → Bool) (hp : opIdx o < 8) (l : List Nat) (g : Group) :
    inTurn (fun i g => writePred g i o (val g i)) l g =
      { g with p := (inTurn (fun i g => writePred g i o (val g i)) l g).p } :=
  frame_of_back_p (inTurn_writePred_back o val hp l g)

/-- The same for an instruction whose D is a per-strand predicate. -/
theorem runPred_next {x : Fields} {ok : Bool} {srcs : List (Opnd × Nat)} {val : Group → Nat → Bool} {s : State}
    (hok : ok = true) (hu : x.u = false) (hd : opIdx x.d < 8)
    (hloc : ∀ g h i, agree true i g h → val h i = val g i)
    (hbad : ∀ i ∈ execList s.g x, ∀ o ∈ srcs, badReg s.g i o = false) :
    ∃ h, runPred x ok srcs val s = .next (setG h s) ∧ h = { s.g with p := h.p, pc := nextPc s.g, ridx := 0, readTime := 0, midway := false } ∧
      ∀ i, i < 64 → ∀ k, pGet h i k =
        if i ∈ execList s.g x ∧ k = opIdx x.d ∧ k ≠ 7 then val s.g i else pGet s.g i k := by
  have hown : ∀ i ∈ execList s.g x, Own true i ((fun i g => writePred g i x.d (val g i)) i) :=
    fun i hi => own_writePred (lt_of_mem_execList hi) hd (fun g => val g i)
  have hrun := runStrands_next srcs (fun i g => writePred g i x.d (val g i)) (execList s.g x) s.g
    (fun i hi => (hown i hi).poison) hbad
  refine ⟨advance (inTurn (fun i g => writePred g i x.d (val g i)) (execList s.g x) s.g), ?_, ?_, ?_⟩
  · simp only [runPred, runAlu, hok, if_true, hu, Bool.false_eq_true, if_false, hrun, finish]
  · have h := inTurn_writePred_frame x.d val hd (execList s.g x) s.g
    unfold advance advanceTo nextPc
    rw [h]
  · intro i hi k
    have hadv : ∀ g : Group, pGet (advance g) i k = pGet g i k := fun _ => rfl
    rw [hadv]
    by_cases hm : i ∈ execList s.g x
    · obtain ⟨h, h1, h2⟩ := inTurn_own _ _ s.g hown (nodup_execList _ _) hi hm
      rw [agree_p h2 k]
      simp only [writePred, hd, if_true, hm, true_and]
      rw [pGet_pSet h hi, hloc _ _ _ h1, agree_p h1 k]
      by_cases h7 : k = 7
      · simp [h7, pGet]
      · by_cases hk : k = opIdx x.d
        · have h7' : ¬ opIdx x.d = 7 := hk ▸ h7
          simp [hk, h7']
        · simp [h7, hk]
    · rw [agree_p (inTurn_other _ _ s.g hown hi hm) k]
      simp [hm]

/-! ### `U` = 1 -/

theorem foldl_vSets_back (r : Nat) (l : List Word) (is : List Nat) (g : Group) :
    { is.foldl (fun h i => vSets h i r l) g with v := g.v, vPoison := g.vPoison } = g := by
  induction is generalizing g with
  | nil => rfl
  | cons i is ih =>
    have h2 := ih (vSets g i r l)
    have h1 : { vSets g i r l with v := g.v, vPoison := g.vPoison } = g := by rw [vSets_frame]
    rw [← h2] at h1
    exact h1

theorem vGet_foldl_vSets (r : Nat) (l : List Word) (is : List Nat) (g : Group) (hr : r + l.length ≤ 256) {i q : Nat} (hq : q < 256) :
    vGet (is.foldl (fun h i => vSets h i r l) g) i q =
      if i ∈ is ∧ r ≤ q ∧ q < r + l.length then nth 0 l (q - r) else vGet g i q := by
  induction is generalizing g with
  | nil => simp
  | cons k is ih =>
    rw [List.foldl_cons, ih]
    by_cases hk : i = k
    · subst hk
      simp only [List.mem_cons, true_or, true_and, vGet_vSets_self]
      by_cases h : r ≤ q ∧ q < r + l.length
      · simp [h]
      · simp [h]
    · rw [vGet_vSets_other g hr hq hk]
      simp [hk]

/-- With `U` = 1 a v destination receives the result in every active strand when the q guards hold (R43). -/
theorem writeUni_v (g : Group) (n : BitVec 8) (l : List Word) (hr : n.toNat + l.length ≤ 256) :
    writeUni g (.v n) l = { g with v := (writeUni g (.v n) l).v, vPoison := (writeUni g (.v n) l).vPoison } ∧
    ∀ i q, q < 256 → vGet (writeUni g (.v n) l) i q =
      if i ∈ castList g ∧ n.toNat ≤ q ∧ q < n.toNat + l.length then nth 0 l (q - n.toNat) else vGet g i q :=
  ⟨frame_of_back (foldl_vSets_back _ _ _ _), fun _ _ hq => vGet_foldl_vSets _ _ _ _ hr hq⟩

/-- An s destination is written once. -/
theorem writeUni_s (g : Group) (n : BitVec 8) (l : List Word) :
    writeUni g (.s n) l = { g with s := (writeUni g (.s n) l).s } ∧
    ∀ q, sGet (writeUni g (.s n) l) q = if n.toNat ≤ q ∧ q < n.toNat + l.length then nth 0 l (q - n.toNat) else sGet g q :=
  ⟨sSets_frame _ _ _, fun q => sGet_sSets _ _ _ q⟩

theorem foldl_pSet_back (k : Nat) (b : Bool) (is : List Nat) (g : Group) : { is.foldl (fun h i => pSet h i k b) g with p := g.p } = g := by
  induction is generalizing g with
  | nil => rfl
  | cons i is ih =>
    have h2 := ih (pSet g i k b)
    have h1 : { pSet g i k b with p := g.p } = g := by rw [pSet_frame]
    rw [← h2] at h1
    exact h1

theorem pGet_foldl_pSet (k : Nat) (b : Bool) (is : List Nat) (g : Group) (hi : ∀ i ∈ is, i < 64) (i q : Nat) :
    pGet (is.foldl (fun h i => pSet h i k b) g) i q = if i ∈ is ∧ q = k ∧ q ≠ 7 then b else pGet g i q := by
  induction is generalizing g with
  | nil => simp
  | cons j is ih =>
    rw [List.foldl_cons, ih _ (fun m hm => hi m (by simp [hm])), pGet_pSet g (hi j (by simp))]
    by_cases h7 : q = 7
    · simp [h7, pGet]
    · by_cases hk : q = k
      · subst hk
        by_cases hj : i = j
        · simp [h7, hj]
        · simp [h7, hj]
      · simp [h7, hk]

theorem lt_of_mem_activeList {g : Group} {i : Nat} (h : i ∈ activeList g) : i < 64 := by
  simp only [activeList, mem_bitsOf] at h
  have := widthOf_le g
  omega

/-- With `U` = 1 a per-strand predicate is written in every active strand. -/
theorem writePredUni_p (g : Group) (o : Opnd) (b : Bool) (ho : opIdx o < 8) :
    writePredUni g o b = { g with p := (writePredUni g o b).p } ∧
    ∀ i k, pGet (writePredUni g o b) i k = if i ∈ castList g ∧ k = opIdx o ∧ k ≠ 7 then b else pGet g i k := by
  have e : writePredUni g o b = (castList g).foldl (fun h i => pSet h i (opIdx o) b) g := by simp [writePredUni, ho]
  rw [e]
  exact ⟨frame_of_back_p (foldl_pSet_back _ _ _ _), pGet_foldl_pSet _ _ _ _ (fun _ h => lt_of_mem_activeList (List.mem_of_mem_filter h))⟩

/-- A uniform predicate is written once. -/
theorem writePredUni_q (g : Group) (o : Opnd) (b : Bool) (ho : ¬ opIdx o < 8) (h16 : opIdx o < 16) :
    writePredUni g o b = { g with q := (writePredUni g o b).q } ∧
    ∀ k, qGet (writePredUni g o b) k = if k = 7 then true else if k = opIdx o - 8 then b else qGet g k := by
  have e : writePredUni g o b = qSet g (opIdx o - 8) b := by simp [writePredUni, ho]
  rw [e]
  exact ⟨qSet_frame _ _ _, fun k => qGet_qSet _ (by omega) _ _⟩

/-- An instruction D := val with `U` = 1 whose operands pass step 5 completes. -/
theorem runMap_uni {x : Fields} {ok : Bool} {srcs : List (Opnd × Nat)} {val : Group → Nat → List Word} {s : State}
    (hok : ok = true) (hu : x.u = true) :
    runMap x ok srcs val s = .next (setG (advance (if holdsQ s.g x then writeUni s.g x.d (val s.g 0) else s.g)) s) := by
  simp [runMap, runAlu, hok, hu, finish]

theorem runPred_uni {x : Fields} {ok : Bool} {srcs : List (Opnd × Nat)} {val : Group → Nat → Bool} {s : State}
    (hok : ok = true) (hu : x.u = true) :
    runPred x ok srcs val s = .next (setG (advance (if holdsQ s.g x then writePredUni s.g x.d (val s.g 0) else s.g)) s) := by
  simp [runPred, runAlu, hok, hu, finish]

/-- Operands that fail step 5 of R113 raise cause 0x02. -/
theorem runAlu_bad {x : Fields} {ok : Bool} {srcs : List (Opnd × Nat)} {uni : Group → Group} {per : Nat → Group → Group} {s : State}
    (hok : ok = false) : runAlu x ok srcs uni per s = trapped (wordTrap 0x02) s := by
  simp [runAlu, hok]

end Sys2Proof.Laws
end

