-- ==== Sys2Proof/Laws/Result.lean ====
section
/-! SUPPORT. An instruction D := val of registers only ends as `RegResult` or `PredResult` says. -/

namespace Sys2Proof.Laws

open Sys2Proof.Machine Sys2Proof.Safety

theorem receives_zero {g : Group} {x : Fields} (h : x.u = false) (i : Nat) : receives g x i ↔ i ∈ execList g x := by
  simp [receives, h]

theorem receives_one {g : Group} {x : Fields} (h : x.u = true) (i : Nat) :
    receives g x i ↔ (holdsQ g x = true ∧ i ∈ castList g) := by simp [receives, h]

theorem readable_zero {g : Group} {x : Fields} {srcs : List (Opnd × Nat)} (h : x.u = false) (r : readable g x srcs) :
    ∀ i ∈ execList g x, ∀ o ∈ srcs, badReg g i o = false := r h

theorem isDst_zero {x : Fields} {o : Opnd} (h : isDst x o = true) (hu : x.u = false) : isV o = true := by
  unfold isDst at h
  rw [hu, Bool.and_false, Bool.or_false] at h
  exact h

theorem isV_elim {o : Opnd} (h : isV o = true) : ∃ k, o = .v k := by
  cases o with
  | v k => exact ⟨k, rfl⟩
  | s k => simp [isV] at h
  | sp k => simp [isV] at h
  | im k => simp [isV] at h

theorem isDst_elim {x : Fields} {o : Opnd} (h : isDst x o = true) : (∃ k, o = .v k) ∨ (∃ k, o = .s k) := by
  cases o with
  | v k => exact .inl ⟨k, rfl⟩
  | s k => exact .inr ⟨k, rfl⟩
  | sp k => simp [isDst, isV, isS] at h
  | im k => simp [isDst, isV, isS] at h

theorem frame_v {g h : Group} (w : h = { g with v := h.v, vPoison := h.vPoison, pc := nextPc g, ridx := 0, readTime := 0, midway := false }) :
    h = { g with v := h.v, vPoison := h.vPoison, s := h.s, pc := g.pc + 12, ridx := 0, readTime := 0, midway := false } := by
  rw [w]; rfl

theorem frame_adv_v {g h : Group} (w : h = { g with v := h.v, vPoison := h.vPoison }) :
    advance h = { g with v := (advance h).v, vPoison := (advance h).vPoison, s := (advance h).s, pc := g.pc + 12, ridx := 0, readTime := 0, midway := false } := by
  rw [w]; rfl

theorem frame_adv_s {g h : Group} (w : h = { g with s := h.s }) :
    advance h = { g with v := (advance h).v, vPoison := (advance h).vPoison, s := (advance h).s, pc := g.pc + 12, ridx := 0, readTime := 0, midway := false } := by
  rw [w]; rfl

theorem frame_p {g h : Group} (w : h = { g with p := h.p, pc := nextPc g, ridx := 0, readTime := 0, midway := false }) :
    h = { g with p := h.p, q := h.q, pc := g.pc + 12, ridx := 0, readTime := 0, midway := false } := by
  rw [w]; rfl

theorem frame_adv_p {g h : Group} (w : h = { g with p := h.p }) :
    advance h = { g with p := (advance h).p, q := (advance h).q, pc := g.pc + 12, ridx := 0, readTime := 0, midway := false } := by
  rw [w]; rfl

theorem frame_adv_q {g h : Group} (w : h = { g with q := h.q }) :
    advance h = { g with p := (advance h).p, q := (advance h).q, pc := g.pc + 12, ridx := 0, readTime := 0, midway := false } := by
  rw [w]; rfl

/-- A register result. -/
theorem runMap_result {x : Fields} {ok : Bool} {srcs : List (Opnd × Nat)} {val : Group → Nat → List Word} {s : State} {n : Nat}
    (hok : ok = true) (hd : isDst x x.d = true) (hn : opIdx x.d + n ≤ 256) (hlen : ∀ g i, (val g i).length = n)
    (hloc : x.u = false → ∀ g h i, agree true i g h → val h i = val g i)
    (huni : x.u = true → ∀ i, val s.g i = val s.g 0)
    (hread : readable s.g x srcs) :
    ∃ t, runMap x ok srcs val s = .next t ∧ RegResult x n (val s.g) s t := by
  cases hu : x.u with
  | false =>
    have hv : isV x.d = true := isDst_zero hd hu
    obtain ⟨h, h1, h2, h3⟩ := runMap_next hok hu hv hn hlen (hloc hu) (readable_zero hu hread)
    refine ⟨setG h s, h1, ?_⟩
    obtain ⟨k, hk⟩ := isV_elim hv
    rw [hk] at h3
    refine ⟨rfl, ?_, ?_, ?_, ?_⟩
    · exact frame_v h2
    · intro q hq
      simp only [setG_g] at hq
      have hrun := runStrands_next srcs (fun i g => writeRegs g i x.d (val g i)) (execList s.g x) s.g
        (fun i hi => (own_writeRegs (lt_of_mem_execList hi) hv hn (fun g => val g i) (fun g => hlen g i)).poison)
        (readable_zero hu hread)
      have e : h = advance (inTurn (fun i g => writeRegs g i x.d (val g i)) (execList s.g x) s.g) := by
        have : runMap x ok srcs val s = .next (setG (advance (inTurn (fun i g => writeRegs g i x.d (val g i)) (execList s.g x) s.g)) s) := by
          simp only [runMap, runAlu, hok, if_true, hu, Bool.false_eq_true, if_false, hrun, finish]
        rw [this] at h1
        injection h1 with h1
        have := congrArg State.g h1
        exact this.symm
      have key : ∀ (l : List Nat) (g : Group), q ∈ (inTurn (fun i g => writeRegs g i x.d (val g i)) l g).vPoison → q ∈ g.vPoison := by
        intro l
        induction l with
        | nil => exact fun g hq => hq
        | cons i l ih =>
          intro g hq
          have := ih _ hq
          rw [hk] at this
          exact vPoison_vSets_sub _ _ _ _ this
      rw [e] at hq
      exact key _ _ hq
    · intro k' hk'
      rw [hk] at hk'
      injection hk' with hk'
      subst hk'
      simp only [setG_g]
      refine ⟨by rw [h2], fun i hi hr j hj => ?_, fun i hi q hq hno => ?_⟩
      · rw [receives_zero hu] at hr
        have hb : k.toNat + j < 256 := by simp only [hk, opIdx] at hn; omega
        rw [h3 i hi _ hb, if_pos ⟨hr, by simp [opIdx], by simp only [opIdx]; omega⟩]
        congr 1; simp [opIdx]
      · rw [receives_zero hu] at hno
        rw [h3 i hi q hq, if_neg]
        simpa [opIdx] using hno
    · intro k' hk'
      rw [hk] at hk'
      cases hk'
  | true =>
    refine ⟨_, runMap_uni hok hu, ?_⟩
    cases hh : holdsQ s.g x with
    | false =>
      simp only [Bool.false_eq_true, if_false]
      refine ⟨rfl, rfl, fun _ h => h, ?_, ?_⟩
      · intro k _
        refine ⟨rfl, fun i _ hr => ?_, fun _ _ _ _ _ => rfl⟩
        rw [receives_one hu, hh] at hr
        simp at hr
      · intro k _
        exact ⟨rfl, rfl, fun h => by simp [hh] at h, fun _ _ => rfl⟩
    | true =>
      simp only [if_true]
      have hcase := isDst_elim hd
      rcases hcase with ⟨k, hk⟩ | ⟨k, hk⟩
      · have hn' : k.toNat + (val s.g 0).length ≤ 256 := by rw [hlen]; simpa [hk, opIdx] using hn
        obtain ⟨w1, w2⟩ := writeUni_v s.g k (val s.g 0) hn'
        rw [hk]
        refine ⟨rfl, ?_, ?_, ?_, ?_⟩
        · exact frame_adv_v w1
        · intro q hq
          have key : ∀ (l : List Nat) (g : Group), q ∈ (l.foldl (fun h i => vSets h i k.toNat (val s.g 0)) g).vPoison → q ∈ g.vPoison := by
            intro l
            induction l with
            | nil => exact fun g hq => hq
            | cons i l ih => exact fun g hq => vPoison_vSets_sub _ _ _ _ (ih _ hq)
          exact key _ _ hq
        · intro k' hk'
          rw [hk] at hk'
          injection hk' with hk'
          subst hk'
          simp only [setG_g]
          have hadv : ∀ (g : Group) i q, vGet (advance g) i q = vGet g i q := fun _ _ _ => rfl
          refine ⟨by simp only [advance, advanceTo]; rw [w1], fun i hi hr j hj => ?_, fun i hi q hq hno => ?_⟩
          · rw [receives_one hu] at hr
            have hb : k.toNat + j < 256 := by simp only [hk, opIdx] at hn; omega
            rw [hadv, w2 i _ hb, hlen, if_pos ⟨hr.2, by omega, by omega⟩, huni hu i]
            congr 1; omega
          · rw [receives_one hu, hh] at hno
            rw [hadv, w2 i q hq, hlen, if_neg]
            intro hc
            exact hno ⟨⟨rfl, hc.1⟩, hc.2⟩
        · intro k' hk'
          rw [hk] at hk'
          cases hk'
      · obtain ⟨w1, w2⟩ := writeUni_s s.g k (val s.g 0)
        rw [hk]
        refine ⟨rfl, ?_, ?_, ?_, ?_⟩
        · exact frame_adv_s w1
        · intro q hq
          simp only [setG_g, advance, advanceTo] at hq
          rw [w1] at hq
          exact hq
        · intro k' hk'
          rw [hk] at hk'
          cases hk'
        · intro k' hk'
          rw [hk] at hk'
          injection hk' with hk'
          subst hk'
          simp only [setG_g]
          have hadv : ∀ (g : Group) q, sGet (advance g) q = sGet g q := fun _ _ => rfl
          refine ⟨by simp only [advance, advanceTo]; rw [w1], by simp only [advance, advanceTo]; rw [w1], fun _ j hj => ?_, fun q hno => ?_⟩
          · rw [hadv, w2, hlen, if_pos ⟨by omega, by omega⟩]
            congr 1; omega
          · rw [hh] at hno
            rw [hadv, w2, hlen, if_neg]
            intro hc
            exact hno ⟨rfl, hc⟩

/-- A predicate result. -/
theorem runPred_result {x : Fields} {ok : Bool} {srcs : List (Opnd × Nat)} {val : Group → Nat → Bool} {s : State}
    (hok : ok = true) (hd : isPDst x x.d = true)
    (hloc : x.u = false → ∀ g h i, agree true i g h → val h i = val g i)
    (huni : x.u = true → ∀ i, val s.g i = val s.g 0)
    (hread : readable s.g x srcs) :
    ∃ t, runPred x ok srcs val s = .next t ∧ PredResult x (val s.g) s t := by
  have hp7 : ∀ (g : Group) i, pGet g i 7 = true := fun _ _ => rfl
  have hq7 : ∀ (g : Group), qGet g 7 = true := fun _ => rfl
  cases hu : x.u with
  | false =>
    have hd8 : opIdx x.d < 8 := by
      have h : isP x.d = true := by simpa [isPDst, hu] using hd
      cases hx : x.d <;> simp_all [isP, opIdx]
      omega
    obtain ⟨h, h1, h2, h3⟩ := runPred_next hok hu hd8 (hloc hu) (readable_zero hu hread)
    refine ⟨setG h s, h1, rfl, ?_, ?_, ?_⟩
    · exact frame_p h2
    · intro _
      simp only [setG_g]
      refine ⟨by rw [h2], fun i hi hr h7 => ?_, fun i k hi hno => ?_, hp7 h⟩
      · rw [receives_zero hu] at hr
        rw [h3 i hi, if_pos ⟨hr, rfl, h7⟩]
      · rw [receives_zero hu] at hno
        rw [h3 i hi, if_neg]
        exact fun hc => hno ⟨hc.1, hc.2.1⟩
    · intro h8
      omega
  | true =>
    refine ⟨_, runPred_uni hok hu, ?_⟩
    have hpa : ∀ (g : Group) i k, pGet (advance g) i k = pGet g i k := fun _ _ _ => rfl
    have hqa : ∀ (g : Group) k, qGet (advance g) k = qGet g k := fun _ _ => rfl
    cases hh : holdsQ s.g x with
    | false =>
      simp only [Bool.false_eq_true, if_false]
      refine ⟨rfl, rfl, fun _ => ⟨rfl, fun i _ hr => ?_, fun _ _ _ _ => rfl, hp7 _⟩, fun _ _ => ⟨rfl, fun h => by simp [hh] at h, fun _ _ _ => rfl, hq7 _⟩⟩
      rw [receives_one hu, hh] at hr
      simp at hr
    | true =>
      simp only [if_true]
      by_cases h8 : opIdx x.d < 8
      · obtain ⟨w1, w2⟩ := writePredUni_p s.g x.d (val s.g 0) h8
        refine ⟨rfl, ?_, ?_, fun h => by omega⟩
        · exact frame_adv_p w1
        · intro _
          simp only [setG_g]
          refine ⟨by simp only [advance, advanceTo]; rw [w1], fun i hi hr h7 => ?_, fun i k hi hno => ?_, hp7 _⟩
          · rw [receives_one hu] at hr
            rw [hpa, w2, if_pos ⟨hr.2, rfl, h7⟩, huni hu i]
          · rw [receives_one hu, hh] at hno
            rw [hpa, w2, if_neg]
            exact fun hc => hno ⟨⟨rfl, hc.1⟩, hc.2.1⟩
      · by_cases h16 : opIdx x.d < 16
        · obtain ⟨w1, w2⟩ := writePredUni_q s.g x.d (val s.g 0) h8 h16
          refine ⟨rfl, ?_, fun h => by omega, ?_⟩
          · exact frame_adv_q w1
          · intro _ _
            simp only [setG_g]
            refine ⟨by simp only [advance, advanceTo]; rw [w1], fun _ h15 => ?_, fun k hk hno => ?_, hq7 _⟩
            · rw [hqa, w2, if_neg (by omega), if_pos rfl]
            · rw [hh] at hno
              rw [hqa, w2]
              by_cases h7 : k = 7
              · subst h7; rfl
              · rw [if_neg h7, if_neg]
                intro hc
                exact hno ⟨rfl, by omega⟩
        · exfalso
          have : isP x.d = true ∨ isQ x.d = true := by simpa [isPDst, hu] using hd
          rcases this with h | h
          · cases hx : x.d <;> simp_all [isP, opIdx]; omega
          · cases hx : x.d <;> simp_all [isQ, opIdx]; omega

end Sys2Proof.Laws
end

