-- ==== Sys2Proof/Laws/Elements.lean ====
section
/-! SUPPORT. Values of integer elements: patterns, packing, and the reading of operands (R103, R129, R131). -/

namespace Sys2Proof.Laws

open Sys2Proof.Machine Sys2Proof.Safety

/-! ### Patterns -/

theorem elemWidth_pos (t : Ty) : 0 < elemWidth t := by cases t <;> decide

theorem patternOf_lt (w : Nat) (v : Int) : patternOf w v < 2 ^ w := by
  have h : (0 : Int) < (2 ^ w : Nat) := by exact_mod_cast Nat.two_pow_pos w
  have h1 := Int.emod_lt_of_pos v h
  have h2 := Int.emod_nonneg v (Int.ne_of_gt h)
  unfold patternOf
  omega

theorem patternOf_cast (w : Nat) (v : Int) : (patternOf w v : Int) = v % (2 ^ w : Nat) := by
  have h : (0 : Int) < (2 ^ w : Nat) := by exact_mod_cast Nat.two_pow_pos w
  have h2 := Int.emod_nonneg v (Int.ne_of_gt h)
  unfold patternOf
  omega

theorem patternOf_nat {w n : Nat} (h : n < 2 ^ w) : patternOf w (n : Int) = n := by
  have : ((n : Int) % (2 ^ w : Nat)) = ((n % 2 ^ w : Nat) : Int) := by simp
  unfold patternOf
  rw [this, Nat.mod_eq_of_lt h]
  simp

theorem pow_half {w : Nat} (h : 0 < w) : 2 * 2 ^ (w - 1) = 2 ^ w := by
  obtain ⟨k, rfl⟩ : ∃ k, w = k + 1 := ⟨w - 1, by omega⟩
  simp [Nat.pow_succ, Nat.mul_comm]

/-- A pattern read as an element is in the range of its type. -/
theorem patternVal_range (t : Ty) {n : Nat} (h : n < 2 ^ elemWidth t) :
    tyMin t ≤ patternVal (isSigned t) (elemWidth t) n ∧ patternVal (isSigned t) (elemWidth t) n ≤ tyMax t := by
  have hp := pow_half (elemWidth_pos t)
  unfold tyMin tyMax patternVal
  cases isSigned t with
  | false =>
    simp only [Bool.false_and, Bool.false_eq_true, if_false]
    generalize 2 ^ elemWidth t = m at *
    omega
  | true =>
    simp only [Bool.true_and, decide_eq_true_eq, if_true]
    generalize 2 ^ elemWidth t = m at *
    generalize 2 ^ (elemWidth t - 1) = k at *
    split <;> omega

theorem patternVal_mod (s : Bool) (w n : Nat) : (patternVal s w n - (n : Int)) % (2 ^ w : Nat) = 0 := by
  unfold patternVal
  split
  · have : (n : Int) - (2 ^ w : Nat) - n = -((2 ^ w : Nat) : Int) := by omega
    rw [this]; simp
  · simp

/-- The element that holds `v` modulo 2^W is `v` wrapped. -/
theorem wraps_pattern (t : Ty) (v : Int) : wraps t v (patternVal (isSigned t) (elemWidth t) (patternOf (elemWidth t) v)) := by
  have h1 := patternVal_range t (patternOf_lt (elemWidth t) v)
  refine ⟨h1.1, h1.2, ?_⟩
  have h2 := patternVal_mod (isSigned t) (elemWidth t) (patternOf (elemWidth t) v)
  have h3 := patternOf_cast (elemWidth t) v
  have h4 : (v % (2 ^ elemWidth t : Nat) - v) % (2 ^ elemWidth t : Nat) = 0 := by
    have := Int.emod_add_mul_ediv v (2 ^ elemWidth t : Nat)
    have e : v % (2 ^ elemWidth t : Nat) - v = -((2 ^ elemWidth t : Nat) * (v / (2 ^ elemWidth t : Nat))) := by omega
    rw [e]
    simp
  rw [h3] at h2
  generalize (2 ^ elemWidth t : Nat) = m at h2 h4 ⊢
  generalize patternVal (isSigned t) (elemWidth t) (patternOf (elemWidth t) v) = r at h2 ⊢
  obtain ⟨a, ha⟩ := Int.dvd_of_emod_eq_zero h2
  obtain ⟨b, hb⟩ := Int.dvd_of_emod_eq_zero h4
  have : r - v = (m : Int) * (a + b) := by rw [Int.mul_add, ← ha, ← hb]; omega
  rw [this]
  simp

/-- A value in the range of a type is read back as it is. -/
theorem pattern_of_range {t : Ty} {v : Int} (h1 : tyMin t ≤ v) (h2 : v ≤ tyMax t) :
    patternVal (isSigned t) (elemWidth t) (patternOf (elemWidth t) v) = v := by
  have hp := pow_half (elemWidth_pos t)
  have hc := patternOf_cast (elemWidth t) v
  have hl := patternOf_lt (elemWidth t) v
  unfold tyMin at h1
  unfold tyMax at h2
  unfold patternVal
  generalize patternOf (elemWidth t) v = n at hc hl ⊢
  cases hs : isSigned t with
  | false =>
    simp only [hs, Bool.false_eq_true, if_false] at h1 h2
    generalize 2 ^ elemWidth t = m at *
    simp only [Bool.false_and, Bool.false_eq_true, if_false]
    rw [Int.emod_eq_of_lt (by omega) (by omega)] at hc
    exact hc
  | true =>
    simp only [hs, if_true] at h1 h2
    simp only [Bool.true_and, decide_eq_true_eq]
    generalize 2 ^ elemWidth t = m at *
    generalize 2 ^ (elemWidth t - 1) = k at *
    by_cases hv : 0 ≤ v
    · rw [Int.emod_eq_of_lt hv (by omega)] at hc
      rw [if_neg (by omega)]
      exact hc
    · have e : v % (m : Int) = v + m := by
        have := Int.add_emod_right v (m : Int)
        rw [← this, Int.emod_eq_of_lt (by omega) (by omega)]
      rw [e] at hc
      rw [if_pos (by omega)]
      omega

/-! ### Packing -/

theorem joinElems_lt (w : Nat) (l : List Nat) : joinElems w l < 2 ^ (w * l.length) := by
  induction l with
  | nil => simp [joinElems]
  | cons x l ih =>
    simp only [joinElems, List.length_cons, Nat.mul_add, Nat.mul_one, Nat.pow_add]
    have h := Nat.mod_lt x (Nat.two_pow_pos w)
    calc x % 2 ^ w + 2 ^ w * joinElems w l < 2 ^ w + 2 ^ w * joinElems w l := by omega
      _ = 2 ^ w * (joinElems w l + 1) := by rw [Nat.mul_add]; omega
      _ ≤ 2 ^ w * 2 ^ (w * l.length) := Nat.mul_le_mul_left _ ih
      _ = 2 ^ (w * l.length) * 2 ^ w := Nat.mul_comm _ _

theorem joinElems_get (w : Nat) (l : List Nat) (e : Nat) : joinElems w l / 2 ^ (w * e) % 2 ^ w = nth 0 l e % 2 ^ w := by
  induction l generalizing e with
  | nil => simp [joinElems, nth]
  | cons x l ih =>
    cases e with
    | zero =>
      simp only [joinElems, Nat.mul_zero, Nat.pow_zero, Nat.div_one, nth]
      simp
    | succ e =>
      simp only [joinElems]
      have : w * (e + 1) = w + w * e := by rw [Nat.mul_add]; omega
      rw [this, Nat.pow_add, ← Nat.div_div_eq_div_mul]
      have h : (x % 2 ^ w + 2 ^ w * joinElems w l) / 2 ^ w = joinElems w l := by
        rw [Nat.add_mul_div_left _ _ (Nat.two_pow_pos w), Nat.div_eq_of_lt (Nat.mod_lt x (Nat.two_pow_pos w))]
        simp
      rw [h, ih]
      simp [nth]

theorem elemAt_mapElems (t : Ty) (f : Nat → Int) {e : Nat} (he : e < elemCount t) :
    elemAt t (mapElems t f) e = patternOf (elemWidth t) (f e) := by
  unfold elemAt mapElems
  rw [joinElems_get]
  have h : nth 0 ((List.range (elemCount t)).map (fun e => patternOf (elemWidth t) (f e))) e = patternOf (elemWidth t) (f e) := by
    simp [nth, he]
  rw [h, Nat.mod_eq_of_lt (patternOf_lt _ _)]

theorem elem_bits (t : Ty) : elemWidth t * elemCount t ≤ 32 * regCount t := by cases t <;> decide

theorem mapElems_lt (t : Ty) (f : Nat → Int) : mapElems t f < 2 ^ (32 * regCount t) := by
  have h := joinElems_lt (elemWidth t) ((List.range (elemCount t)).map (fun e => patternOf (elemWidth t) (f e)))
  simp only [List.length_map, List.length_range] at h
  exact Nat.lt_of_lt_of_le h (Nat.pow_le_pow_right (by decide) (elem_bits t))

/-- An element of a result that was computed element by element. -/
theorem elemVal_mapElems (t : Ty) (f : Nat → Int) {e : Nat} (he : e < elemCount t) :
    elemVal t (mapElems t f) e = patternVal (isSigned t) (elemWidth t) (patternOf (elemWidth t) (f e)) := by
  unfold elemVal
  rw [elemAt_mapElems t f he]

@[simp] theorem length_wordsTy (t : Ty) (n : Nat) : (wordsTy t n).length = regCount t := by
  unfold wordsTy regCount
  cases isWide t <;> simp [words64]

@[simp] theorem length_words64 (x : DWord) : (words64 x).length = 2 := rfl

theorem regsNum_words64 (x : DWord) : regsNum (words64 x) = x.toNat := by
  simp only [words64, regsNum, lo32, hi32, BitVec.extractLsb'_toNat, Nat.mul_zero, Nat.add_zero, Nat.shiftRight_eq_div_pow]
  have := x.isLt
  omega

/-- The registers of a result hold it. -/
theorem regsNum_wordsTy (t : Ty) {n : Nat} (h : n < 2 ^ (32 * regCount t)) : regsNum (wordsTy t n) = n := by
  unfold wordsTy
  cases hw : isWide t with
  | false =>
    simp only [regCount, hw] at h
    simp [regsNum]
    simpa using h
  | true =>
    simp only [regCount, hw] at h
    simp only [if_true, regsNum_words64, BitVec.toNat_ofNat]
    exact Nat.mod_eq_of_lt (by simpa using h)

/-! ### Reading operands -/

/-- The operands of an instruction that passes step 5 lie within the registers. -/
theorem regOk_lt {g : Group} {o : Opnd} {n : Nat} (hn : n = 1 ∨ n = 2 ∨ n = 4) (hd : isV o = true ∨ isS o = true)
    (h : regOk g o n = true) : opIdx o + n ≤ 256 := by
  cases o with
  | v k =>
    simp only [regOk, Bool.and_eq_true, decide_eq_true_eq] at h
    have h2 := h.1
    have hk := k.isLt
    simp only [opIdx]
    rcases hn with rfl | rfl | rfl <;> omega
  | s k =>
    simp only [regOk, Bool.and_eq_true, decide_eq_true_eq] at h
    have h2 := h.2
    simp only [opIdx]
    omega
  | sp k => simp [isV, isS] at hd
  | im k => simp [isV, isS] at hd

theorem pair_lt {g : Group} {o : Opnd} (h : regOk g o 2 = true) : opIdx o + 1 < 256 ∨ isV o = false := by
  cases o with
  | v k =>
    left
    simp only [regOk, Bool.and_eq_true, decide_eq_true_eq] at h
    simp only [opIdx]
    have := k.isLt
    omega
  | s k => right; rfl
  | sp k => right; rfl
  | im k => right; rfl

/-- A pair of v registers does not reach into the next strand. -/
theorem agree_readTy {keep : Bool} {i : Nat} {g h : Group} (a : agree keep i g h) (t : Ty) (x : Fields) {o : Opnd} (ho : regOk g o (regCount t) = true) :
    readTy t h x i o = readTy t g x i o := by
  unfold readTy
  cases hw : isWide t with
  | false => simp only [Bool.false_eq_true, if_false, agree_read32 a]
  | true =>
    simp only [regCount, hw, if_true] at ho
    simp only [if_true, agree_read64 a x (pair_lt ho)]

theorem agree_readTyB {keep : Bool} {i : Nat} {g h : Group} (a : agree keep i g h) (t : Ty) (x : Fields) (ho : regOk g x.b (regCount t) = true) :
    readTyB t h x i = readTyB t g x i := by
  unfold readTyB readB64
  cases hw : isWide t with
  | false => simp only [Bool.false_eq_true, if_false, agree_readB32 a]
  | true =>
    simp only [regCount, hw, if_true] at ho
    simp only [if_true, agree_read64 a x (pair_lt ho)]

/-- With `U` = 1 no source is a v register, so that its value is the same for every strand. -/
theorem read32_uni {g : Group} {x : Fields} {o : Opnd} (ho : isV o = false) (i j : Nat) : read32 g x i o = read32 g x j o := by
  cases o with
  | v k => simp [isV] at ho
  | s k => rfl
  | sp k => rfl
  | im k => rfl

theorem read64_uni {g : Group} {x : Fields} {o : Opnd} (ho : isV o = false) (i j : Nat) : read64 g x i o = read64 g x j o := by
  cases o with
  | v k => simp [isV] at ho
  | s k => rfl
  | sp k => rfl
  | im k => rfl

theorem isSrc_uni {x : Fields} {o : Opnd} (h : isSrc x o = true) (hu : x.u = true) : isV o = false := by
  cases o with
  | v k => simp [isSrc, isV, isS, isShort, hu] at h
  | s k => rfl
  | sp k => rfl
  | im k => rfl

theorem readTy_uni {g : Group} {x : Fields} {o : Opnd} (ho : isV o = false) (t : Ty) (i j : Nat) : readTy t g x i o = readTy t g x j o := by
  unfold readTy
  rw [read32_uni ho i j, read64_uni ho i j]

theorem isSrcB_uni {x : Fields} (h : isSrcB x = true) (hu : x.u = true) : isLong x = true ∨ isV x.b = false := by
  unfold isSrcB at h
  cases hl : isLong x with
  | true => exact .inl rfl
  | false =>
    rw [hl] at h
    exact .inr (isSrc_uni h hu)

theorem readB32_uni {g : Group} {x : Fields} (h : isSrcB x = true) (hu : x.u = true) (i j : Nat) : readB32 g x i = readB32 g x j := by
  unfold readB32
  rcases isSrcB_uni h hu with hl | hv
  · simp [hl]
  · rw [read32_uni hv i j]

theorem readTyB_uni {g : Group} {x : Fields} (h : isSrcB x = true) (hu : x.u = true) (t : Ty) (i j : Nat) :
    readTyB t g x i = readTyB t g x j := by
  unfold readTyB readB64
  rw [readB32_uni h hu i j]
  rcases isSrcB_uni h hu with hl | hv
  · simp [hl]
  · rw [read64_uni hv i j]

/-! ### Step 5 taken apart -/

theorem regsOk_cons {g : Group} {o : Opnd} {n : Nat} {l : List (Opnd × Nat)} (h : regsOk g ((o, n) :: l) = true) :
    regOk g o n = true ∧ regsOk g l = true := by
  simp only [regsOk, Bool.and_eq_true] at h
  exact ⟨h.1.1, h.2⟩

theorem isDst_vs {x : Fields} {o : Opnd} (h : isDst x o = true) : isV o = true ∨ isS o = true := by
  rcases isDst_elim h with ⟨k, rfl⟩ | ⟨k, rfl⟩
  · exact .inl rfl
  · exact .inr rfl

theorem regCount_cases (t : Ty) : regCount t = 1 ∨ regCount t = 2 ∨ regCount t = 4 := by cases t <;> decide

/-- What the operand check of D, A, B gives. -/
theorem okDAB_parts {t : Ty} {g : Group} {x : Fields} (h : okDAB t g x = true) :
    isDst x x.d = true ∧ isSrc x x.a = true ∧ isSrcB x = true ∧ regOk g x.d (regCount t) = true ∧
    regOk g x.a (regCount t) = true ∧ regOk g x.b (regCount t) = true := by
  simp only [okDAB, formDAB, Bool.and_eq_true] at h
  obtain ⟨⟨⟨⟨h1, h2⟩, h3⟩, -⟩, h5⟩ := h
  have r1 := regsOk_cons h5
  have r2 := regsOk_cons r1.2
  have r3 := regsOk_cons r2.2
  exact ⟨h1, h2, h3, r1.1, r2.1, r3.1⟩

theorem okDA_parts {t : Ty} {g : Group} {x : Fields} (h : okDA t g x = true) :
    isDst x x.d = true ∧ isSrc x x.a = true ∧ regOk g x.d (regCount t) = true ∧ regOk g x.a (regCount t) = true := by
  simp only [okDA, formDA, Bool.and_eq_true] at h
  obtain ⟨⟨h1, h2⟩, h5⟩ := h
  have r1 := regsOk_cons h5
  have r2 := regsOk_cons r1.2
  exact ⟨h1, h2, r1.1, r2.1⟩

/-! ### Elementwise instructions -/

/-- D := f(A, B) on each element completes with the elements `f` gives. -/
theorem runElems_result {t : Ty} {x : Fields} (f : Int → Int → Int) {s : State} (ho : okDAB t s.g x = true)
    (hr : readable s.g x (srcAB t x)) :
    ∃ u res, runElems t x f s = .next u ∧ RegResult x (regCount t) res s u ∧ ∀ i e, e < elemCount t →
      elemVal t (regsNum (res i)) e = patternVal (isSigned t) (elemWidth t) (patternOf (elemWidth t)
        (f (elemVal t (readTy t s.g x i x.a) e) (elemVal t (readTyB t s.g x i) e))) := by
  obtain ⟨h1, h2, h3, h4, h5, h6⟩ := okDAB_parts ho
  obtain ⟨u, hu1, hu2⟩ := runMap_result (n := regCount t) (val := fun g i =>
      wordsTy t (mapElems t (fun e => f (elemVal t (readTy t g x i x.a) e) (elemVal t (readTyB t g x i) e)))) ho h1
    (regOk_lt (regCount_cases t) (isDst_vs h1) h4) (fun g i => length_wordsTy _ _)
    (fun _ g h i a => by
      have e1 : regOk g x.a (regCount t) = true → readTy t h x i x.a = readTy t g x i x.a := agree_readTy a t x
      have e2 : regOk g x.b (regCount t) = true → readTyB t h x i = readTyB t g x i := agree_readTyB a t x
      have k1 : regCount t = 1 ∨ regCount t = 2 := by unfold regCount; split <;> simp
      have p1 : regOk g x.a (regCount t) = true ∨ readTy t h x i x.a = readTy t g x i x.a := by
        rcases k1 with k | k
        · right; unfold readTy; have : isWide t = false := by unfold regCount at k; split at k <;> simp_all
          simp only [this, Bool.false_eq_true, if_false, agree_read32 a]
        · right; unfold readTy; have : isWide t = true := by unfold regCount at k; split at k <;> simp_all
          rw [k] at h5
          simp only [this, if_true, agree_read64 a x (pair_lt h5)]
      have p2 : readTyB t h x i = readTyB t g x i := by
        unfold readTyB readB64
        rcases k1 with k | k
        · have : isWide t = false := by unfold regCount at k; split at k <;> simp_all
          simp only [this, Bool.false_eq_true, if_false, agree_readB32 a]
        · have : isWide t = true := by unfold regCount at k; split at k <;> simp_all
          rw [k] at h6
          simp only [this, if_true, agree_read64 a x (pair_lt h6)]
      have p1' : readTy t h x i x.a = readTy t g x i x.a := p1.elim e1 id
      simp only [p1', p2])
    (fun hu i => by simp only [readTy_uni (isSrc_uni h2 hu) t i 0, readTyB_uni h3 hu t i 0]) hr
  refine ⟨u, _, hu1, hu2, fun i e he => ?_⟩
  rw [regsNum_wordsTy t (mapElems_lt t _), elemVal_mapElems t _ he]

/-- D := f(A) on each element. -/
theorem runElem_result {t : Ty} {x : Fields} (f : Int → Int) {s : State} (ho : okDA t s.g x = true)
    (hr : readable s.g x [(x.a, regCount t)]) :
    ∃ u res, runElem t x f s = .next u ∧ RegResult x (regCount t) res s u ∧ ∀ i e, e < elemCount t →
      elemVal t (regsNum (res i)) e = patternVal (isSigned t) (elemWidth t) (patternOf (elemWidth t)
        (f (elemVal t (readTy t s.g x i x.a) e))) := by
  obtain ⟨h1, h2, h4, h5⟩ := okDA_parts ho
  obtain ⟨u, hu1, hu2⟩ := runMap_result (n := regCount t) (val := fun g i =>
      wordsTy t (mapElems t (fun e => f (elemVal t (readTy t g x i x.a) e)))) ho h1
    (regOk_lt (regCount_cases t) (isDst_vs h1) h4) (fun g i => length_wordsTy _ _)
    (fun _ g h i a => by
      have k1 : regCount t = 1 ∨ regCount t = 2 := by unfold regCount; split <;> simp
      have p1 : readTy t h x i x.a = readTy t g x i x.a := by
        rcases k1 with k | k
        · unfold readTy; have : isWide t = false := by unfold regCount at k; split at k <;> simp_all
          simp only [this, Bool.false_eq_true, if_false, agree_read32 a]
        · unfold readTy; have : isWide t = true := by unfold regCount at k; split at k <;> simp_all
          rw [k] at h5
          simp only [this, if_true, agree_read64 a x (pair_lt h5)]
      simp only [p1])
    (fun hu i => by simp only [readTy_uni (isSrc_uni h2 hu) t i 0]) hr
  refine ⟨u, _, hu1, hu2, fun i e he => ?_⟩
  rw [regsNum_wordsTy t (mapElems_lt t _), elemVal_mapElems t _ he]

end Sys2Proof.Laws
end

