-- ==== Sys2Proof/Laws/Memory.lean ====
section
/-! SUPPORT. Laws of memory: what each operation that changes it does to a byte, and that each keeps the canonical form. -/

namespace Sys2Proof.Laws

open Sys2Proof.Machine

/-! ### Bytes after a write -/

theorem get_putBytes (bs : List Byte) (a k : Nat) (m : Sparse Byte) :
    Sparse.get 0 k (putBytes a bs m) = if a ≤ k ∧ k < a + bs.length then nth 0 bs (k - a) else Sparse.get 0 k m := by
  induction bs generalizing a m with
  | nil => simp only [putBytes, List.length_nil]; rw [if_neg (by omega)]
  | cons b t ih =>
    rw [putBytes, ih, get_set]
    by_cases h : k = a
    · subst h
      rw [if_neg (by omega), if_pos rfl, if_pos ⟨Nat.le_refl _, by simp⟩]
      simp [nth]
    · by_cases g : a + 1 ≤ k ∧ k < a + 1 + t.length
      · rw [if_pos g, if_pos ⟨by omega, by simp only [List.length_cons]; omega⟩]
        obtain ⟨j, rfl⟩ : ∃ j, k = a + 1 + j := ⟨k - (a + 1), by omega⟩
        have e1 : a + 1 + j - (a + 1) = j := by omega
        have e2 : a + 1 + j - a = j + 1 := by omega
        rw [e1, e2]
        simp [nth]
      · rw [if_neg g, if_neg h, if_neg]
        simp only [List.length_cons]
        omega

/-- A byte after a write to memory: the byte written there, or the old one. -/
theorem memByte_memWrite (pa : Nat) (bs : List Byte) (s : State) (a : Nat) :
    memByte (memWrite pa bs s) a = if pa ≤ a ∧ a < pa + bs.length then nth 0 bs (a - pa) else memByte s a :=
  get_putBytes bs pa a s.mem

theorem memByte_zeroRange (pa n : Nat) (s : State) (a : Nat) :
    memByte (zeroRange pa n s) a = if pa ≤ a ∧ a < pa + n then 0 else memByte s a := by
  unfold memByte zeroRange
  rw [get_drop]
  simp

theorem mem_touchWrites (t : Nat) (ls : List Nat) (s : State) : (ls.foldl (touchWrite t) s).mem = s.mem := by
  induction ls generalizing s with
  | nil => rfl
  | cons l ls ih => rw [List.foldl_cons, ih]; rfl

@[simp] theorem mem_sliceWrite (pa : Nat) (bs : List Byte) (t : Nat) (s : State) :
    (sliceWrite pa bs t s).mem = putBytes pa bs s.mem := mem_touchWrites t _ _

theorem memByte_sliceWrite (pa : Nat) (bs : List Byte) (t : Nat) (s : State) (a : Nat) :
    memByte (sliceWrite pa bs t s) a = if pa ≤ a ∧ a < pa + bs.length then nth 0 bs (a - pa) else memByte s a := by
  unfold memByte
  rw [mem_sliceWrite]
  exact get_putBytes bs pa a s.mem

@[simp] theorem length_memRead (s : State) (pa n : Nat) : (memRead s pa n).length = n := by simp [memRead]

theorem nth_memRead (s : State) (pa n k : Nat) (h : k < n) : nth 0 (memRead s pa n) k = memByte s (pa + k) := by
  simp [memRead, nth, h]

/-- What was written is read back. -/
theorem memRead_memWrite (pa : Nat) (bs : List Byte) (s : State) : memRead (memWrite pa bs s) pa bs.length = bs := by
  refine List.ext_getElem (by simp) fun k h1 h2 => ?_
  simp only [memRead, List.getElem_map, List.getElem_range]
  rw [memByte_memWrite, if_pos ⟨Nat.le_add_right _ _, by omega⟩, Nat.add_sub_cancel_left]
  simp [nth, h2]

/-! ### The canonical form -/

theorem wf_putBytes (bs : List Byte) (a : Nat) {m : Sparse Byte} (w : Memory.wf m = true) : Memory.wf (putBytes a bs m) = true := by
  induction bs generalizing a m with
  | nil => exact w
  | cons b t ih => exact ih (a + 1) (wf_set 0 a b w)

theorem wf_memWrite (pa : Nat) (bs : List Byte) {s : State} (w : Memory.wf s.mem = true) : Memory.wf (memWrite pa bs s).mem = true :=
  wf_putBytes bs pa w

theorem wf_sliceWrite (pa : Nat) (bs : List Byte) (t : Nat) {s : State} (w : Memory.wf s.mem = true) :
    Memory.wf (sliceWrite pa bs t s).mem = true := by
  rw [mem_sliceWrite]
  exact wf_putBytes bs pa w

theorem wf_zeroRange (pa n : Nat) {s : State} (w : Memory.wf s.mem = true) : Memory.wf (zeroRange pa n s).mem = true := wf_drop (0 : Byte) (fun a => decide (pa ≤ a) && decide (a < pa + n)) w

/-- Memory at reset is in its canonical form. -/
theorem wf_reset : Memory.wf State.reset.mem = true := rfl

/-- Memories in the canonical form that read alike everywhere are equal. -/
theorem memory_ext {m n : List Host.Cell} (wm : Memory.wf m = true) (wn : Memory.wf n = true)
    (h : ∀ a, Sparse.get (0 : Byte) a m = Sparse.get 0 a n) : m = n := ext_of_wf 0 0 wm wn h

/-! ### The operations that write back lines -/

/-- A chain of changes keeps what each of them keeps. -/
theorem foldl_keeps {α σ : Type} (P : σ → Prop) (f : σ → α → σ) (hf : ∀ s a, P s → P (f s a)) (l : List α) {s : σ} (h : P s) : P (l.foldl f s) := by
  induction l generalizing s with
  | nil => exact h
  | cons a l ih => exact ih (hf s a h)

theorem wf_writeWords (t : Nat) (l : Line) {s : State} (w : Memory.wf s.mem = true) : Memory.wf (writeWords t l s).mem = true := by
  refine foldl_keeps (fun s : State => Memory.wf s.mem = true) _ (fun s k h => ?_) _ (by split <;> exact w)
  show Memory.wf (if _ then _ else s).mem = true
  split
  · exact wf_memWrite _ _ h
  · exact h

@[simp] theorem mem_logEntry (e : LogEntry) (s : State) : (logEntry e s).mem = s.mem := by
  unfold logEntry
  dsimp only
  split
  · rfl
  · split
    · split <;> rfl
    · rfl

@[simp] theorem mem_note (agent eid kind : Nat) (va : DWord) (pa : Option Nat) (n : Nat) (s : State) :
    (note agent eid kind va pa n s).mem = s.mem := by
  refine foldl_keeps (fun t : State => t.mem = s.mem) _ (fun t k h => ?_) _ rfl
  rw [mem_logEntry, h]

@[simp] theorem mem_modCore (c : Nat) (f : Core → Core) (s : State) : (modCore c f s).mem = s.mem := rfl
@[simp] theorem mem_modGroups (p : Group → Bool) (f : Group → Group) (s : State) : (modGroups p f s).mem = s.mem := rfl
@[simp] theorem mem_raiseGwts (gs : List Nat) (t : Nat) (own : Group → Nat) (s : State) : (raiseGwts gs t own s).mem = s.mem := rfl

@[simp] theorem mem_touchWrite (t : Nat) (s : State) (l : Nat) : (touchWrite t s l).mem = s.mem := rfl
@[simp] theorem mem_spillLine (e : CacheLine) (s : State) : (spillLine e s).mem = s.mem := rfl

theorem mem_cachePlace {ways : List Nat} {s t : State} {w p : Nat} (h : cachePlace ways s = some (w, p, t)) : t.mem = s.mem := by
  unfold cachePlace at h
  dsimp only at h
  split at h
  · simp only [Option.some.injEq, Prod.mk.injEq] at h; rw [← h.2.2]
  · split at h
    · exact absurd h (by simp)
    · simp only [Option.some.injEq, Prod.mk.injEq] at h; rw [← h.2.2]; rfl

@[simp] theorem mem_cacheTouch (eid cls : Nat) (dirty last : Bool) (s : State) (l : Nat) : (cacheTouch eid cls dirty last s l).mem = s.mem := by
  unfold cacheTouch
  dsimp only
  split
  · rfl
  · split
    · rfl
    · rename_i h; exact (mem_cachePlace h :)

@[simp] theorem mem_sliceTouch (va : DWord) (pa n : Nat) (dirty last : Bool) (s : State) : (sliceTouch va pa n dirty last s).mem = s.mem :=
  foldl_keeps (fun t : State => t.mem = s.mem) _ (fun t k h => by rw [mem_cacheTouch, h]) _ rfl

@[simp] theorem mem_poisonLine (s : State) (l : Nat) : (poisonLine s l).mem = s.mem := by
  unfold poisonLine
  dsimp only
  split <;> [rfl; (split <;> [rfl; (split <;> rfl)])]

@[simp] theorem mem_noteWords (c : Nat) (l : Line) (s : State) : (noteWords c l s).mem = s.mem :=
  foldl_keeps (fun t : State => t.mem = s.mem) _ (fun t k h => by rw [mem_note, h]) _ rfl

theorem mem_writeBack (c : Nat) (l : Line) (s : State) :
    (writeBack c l s).mem = if l.dirty = 0 then s.mem else (writeWords (nextWts s l.line l.stamp) l s).mem := by
  unfold writeBack
  by_cases h : l.dirty = 0
  · simp [h]
  · simp only [if_neg h, mem_modCore, mem_noteWords, mem_raiseGwts]
    split <;> simp [countUncorrected]

theorem wf_writeBack (c : Nat) (l : Line) {s : State} (w : Memory.wf s.mem = true) : Memory.wf (writeBack c l s).mem = true := by
  rw [mem_writeBack]
  split
  · exact w
  · exact wf_writeWords _ l w

theorem wf_writeBackAll (c : Nat) (f : Line → Bool) {s : State} (w : Memory.wf s.mem = true) : Memory.wf (writeBackAll c f s).mem = true :=
  foldl_keeps (fun s : State => Memory.wf s.mem = true) _ (fun _ l h => wf_writeBack c l h) _ w

theorem wf_evictLine (c : Nat) (l : Line) {s : State} (w : Memory.wf s.mem = true) : Memory.wf (evictLine c l s).mem = true :=
  wf_writeBack c l w

theorem wf_flushWords (c line eid : Nat) (m : BitVec 16) {s : State} (w : Memory.wf s.mem = true) :
    Memory.wf (flushWords c line eid m s).mem = true := by
  unfold flushWords
  split
  · exact w
  · exact wf_writeBack c _ w

end Sys2Proof.Laws
end

