-- ==== Sys2Proof/Laws/PerInstr.lean ====
section
/-! SUPPORT. One lemma per constructor: the word of a well-formed instruction decodes to it (R97 to R113). -/

namespace Sys2Proof.Laws.RoundTrip

open Sys2Proof Sys2Proof.Machine Sys2Proof.Laws

/-- Encoding a well-formed instruction gives a word that decodes to it. -/
def Statement (i : Instr) : Prop := ∀ w, WellFormed i → encode i = some w → decodeWord w = .instr i

/-- The form of every lemma: the opcode row makes the instruction from its `SUB` and its fields. -/
theorem of_make {i : Instr} {opc : BitVec 8} {sub ty : BitVec 4} {x : Fields} (he : encode i = some (wordBits opc sub ty x))
    (ho : opc ≠ 0xFF) (hm : WellFormed i → mkInstr opc.toNat sub ty x = some i) : Statement i := by
  intro w hw h
  rw [he, Option.some.injEq] at h
  rw [← h]
  exact decodeWord_word opc sub ty x ho (hm hw) hw

theorem bra (x : Fields) : Statement (.bra x) :=
  of_make (Eq.refl _) (by decide) (fun _ => Eq.refl _)

theorem brd (x : Fields) : Statement (.brd x) :=
  of_make (Eq.refl _) (by decide) (fun _ => Eq.refl _)

theorem join (x : Fields) : Statement (.join x) :=
  of_make (Eq.refl _) (by decide) (fun _ => Eq.refl _)

theorem brx (x : Fields) : Statement (.brx x) :=
  of_make (Eq.refl _) (by decide) (fun _ => Eq.refl _)

theorem callDirect (x : Fields) : Statement (.callDirect x) :=
  of_make (Eq.refl _) (by decide) (fun _ => Eq.refl _)

theorem callIndirect (x : Fields) : Statement (.callIndirect x) :=
  of_make (Eq.refl _) (by decide) (fun _ => Eq.refl _)

theorem ret (x : Fields) : Statement (.ret x) :=
  of_make (Eq.refl _) (by decide) (fun _ => Eq.refl _)

theorem exit (x : Fields) : Statement (.exit x) :=
  of_make (Eq.refl _) (by decide) (fun _ => Eq.refl _)

theorem yield (x : Fields) : Statement (.yield x) :=
  of_make (Eq.refl _) (by decide) (fun _ => Eq.refl _)

theorem trap (x : Fields) : Statement (.trap x) :=
  of_make (Eq.refl _) (by decide) (fun _ => Eq.refl _)

theorem tresume (x : Fields) : Statement (.tresume x) :=
  of_make (Eq.refl _) (by decide) (fun _ => Eq.refl _)

theorem cancelchk (x : Fields) : Statement (.cancelchk x) :=
  of_make (Eq.refl _) (by decide) (fun _ => Eq.refl _)

theorem launch (x : Fields) : Statement (.launch x) :=
  of_make (Eq.refl _) (by decide) (fun _ => Eq.refl _)

theorem nop (x : Fields) : Statement (.nop x) :=
  of_make (Eq.refl _) (by decide) (fun _ => Eq.refl _)

theorem iadd (f : AddForm) (ty : Ty) (x : Fields) : Statement (.iadd f ty x) :=
  of_make (Eq.refl _) (by decide) (fun _ => by cases f <;> cases ty <;> exact Eq.refl _)

theorem isub (f : AddForm) (ty : Ty) (x : Fields) : Statement (.isub f ty x) :=
  of_make (Eq.refl _) (by decide) (fun _ => by cases f <;> cases ty <;> exact Eq.refl _)

theorem imul (f : MulForm) (ty : Ty) (x : Fields) : Statement (.imul f ty x) :=
  of_make (Eq.refl _) (by decide) (fun _ => by cases f <;> cases ty <;> exact Eq.refl _)

theorem imad (f : MulForm) (ty : Ty) (x : Fields) : Statement (.imad f ty x) :=
  of_make (Eq.refl _) (by decide) (fun _ => by cases f <;> cases ty <;> exact Eq.refl _)

theorem imin (ty : Ty) (x : Fields) : Statement (.imin ty x) :=
  of_make (Eq.refl _) (by decide) (fun _ => by cases ty <;> exact Eq.refl _)

theorem imax (ty : Ty) (x : Fields) : Statement (.imax ty x) :=
  of_make (Eq.refl _) (by decide) (fun _ => by cases ty <;> exact Eq.refl _)

theorem ineg (ty : Ty) (x : Fields) : Statement (.ineg ty x) :=
  of_make (Eq.refl _) (by decide) (fun _ => by cases ty <;> exact Eq.refl _)

theorem iabs (ty : Ty) (x : Fields) : Statement (.iabs ty x) :=
  of_make (Eq.refl _) (by decide) (fun _ => by cases ty <;> exact Eq.refl _)

theorem shl (ty : Ty) (x : Fields) : Statement (.shl ty x) :=
  of_make (Eq.refl _) (by decide) (fun _ => by cases ty <;> exact Eq.refl _)

theorem shr (f : ShrForm) (ty : Ty) (x : Fields) : Statement (.shr f ty x) :=
  of_make (Eq.refl _) (by decide) (fun _ => by cases f <;> cases ty <;> exact Eq.refl _)

theorem rot (f : RotForm) (ty : Ty) (x : Fields) : Statement (.rot f ty x) :=
  of_make (Eq.refl _) (by decide) (fun _ => by cases f <;> cases ty <;> exact Eq.refl _)

theorem lop (f : LopForm) (ty : Ty) (x : Fields) : Statement (.lop f ty x) :=
  of_make (Eq.refl _) (by decide) (fun _ => by cases f <;> cases ty <;> exact Eq.refl _)

theorem bfx (f : BfxForm) (ty : Ty) (x : Fields) : Statement (.bfx f ty x) :=
  of_make (Eq.refl _) (by decide) (fun _ => by cases f <;> cases ty <;> exact Eq.refl _)

theorem bfi (ty : Ty) (x : Fields) : Statement (.bfi ty x) :=
  of_make (Eq.refl _) (by decide) (fun _ => by cases ty <;> exact Eq.refl _)

theorem icmp (f : Cond) (ty : Ty) (x : Fields) : Statement (.icmp f ty x) :=
  of_make (Eq.refl _) (by decide) (fun _ => by cases f <;> cases ty <;> exact Eq.refl _)

theorem sel (ty : Ty) (x : Fields) : Statement (.sel ty x) :=
  of_make (Eq.refl _) (by decide) (fun _ => by cases ty <;> exact Eq.refl _)

theorem clz (ty : Ty) (x : Fields) : Statement (.clz ty x) :=
  of_make (Eq.refl _) (by decide) (fun _ => by cases ty <;> exact Eq.refl _)

theorem ffs (ty : Ty) (x : Fields) : Statement (.ffs ty x) :=
  of_make (Eq.refl _) (by decide) (fun _ => by cases ty <;> exact Eq.refl _)

theorem popc (ty : Ty) (x : Fields) : Statement (.popc ty x) :=
  of_make (Eq.refl _) (by decide) (fun _ => by cases ty <;> exact Eq.refl _)

theorem brev (ty : Ty) (x : Fields) : Statement (.brev ty x) :=
  of_make (Eq.refl _) (by decide) (fun _ => by cases ty <;> exact Eq.refl _)

theorem lea (ty : Ty) (x : Fields) : Statement (.lea ty x) :=
  of_make (Eq.refl _) (by decide) (fun _ => by cases ty <;> exact Eq.refl _)

theorem mov (f : MovCount) (x : Fields) : Statement (.mov f x) := by
  refine of_make (Eq.refl _) (by decide) (fun h => ?_)
  have h' : (opSpecialReg x.b || opSpecialReg x.d) = false := by
    simp only [WellFormed, fieldsLegal, Bool.and_eq_true, Bool.not_eq_true'] at h
    exact h.2
  have e : movOf f x = .mov f x := by simp only [movOf, h', if_false, Bool.false_eq_true]
  rw [← e]
  cases f <;> exact Eq.refl _

theorem movSpecial (f : MovCount) (x : Fields) : Statement (.movSpecial f x) := by
  refine of_make (Eq.refl _) (by decide) (fun h => ?_)
  have h' : (opSpecialReg x.b || opSpecialReg x.d) = true := by
    simp only [WellFormed, fieldsLegal, Bool.and_eq_true] at h
    exact h.2
  have e : movOf f x = .movSpecial f x := by simp only [movOf, h', if_true]
  rw [← e]
  cases f <;> exact Eq.refl _

theorem cvt (ty : Ty) (src : Ty) (x : Fields) : Statement (.cvt ty src x) := by
  refine of_make (Eq.refl _) (by decide) (fun h => ?_)
  have h' : x.e.extractLsb' 0 4 = tyCode src := by
    simp only [WellFormed, fieldsLegal, Bool.and_eq_true, beq_iff_eq] at h
    exact h.1.2
  have e : tyOf (x.e.extractLsb' 0 4) = src := by rw [h', tyOf_code]
  show oneSub 0 (.cvt (tyOf (tyCode ty)) (tyOf (x.e.extractLsb' 0 4)) x) = _
  rw [e, tyOf_code]
  exact Eq.refl _

theorem plop (f : PlopForm) (x : Fields) : Statement (.plop f x) :=
  of_make (Eq.refl _) (by decide) (fun _ => by cases f <;> exact Eq.refl _)

theorem pmov (f : PmovForm) (x : Fields) : Statement (.pmov f x) :=
  of_make (Eq.refl _) (by decide) (fun _ => by cases f <;> exact Eq.refl _)

theorem fadd (ty : Ty) (x : Fields) : Statement (.fadd ty x) :=
  of_make (Eq.refl _) (by decide) (fun _ => by cases ty <;> exact Eq.refl _)

theorem fsub (ty : Ty) (x : Fields) : Statement (.fsub ty x) :=
  of_make (Eq.refl _) (by decide) (fun _ => by cases ty <;> exact Eq.refl _)

theorem fmul (ty : Ty) (x : Fields) : Statement (.fmul ty x) :=
  of_make (Eq.refl _) (by decide) (fun _ => by cases ty <;> exact Eq.refl _)

theorem ffma (f : FmaForm) (ty : Ty) (x : Fields) : Statement (.ffma f ty x) :=
  of_make (Eq.refl _) (by decide) (fun _ => by cases f <;> cases ty <;> exact Eq.refl _)

theorem fdiv (ty : Ty) (x : Fields) : Statement (.fdiv ty x) :=
  of_make (Eq.refl _) (by decide) (fun _ => by cases ty <;> exact Eq.refl _)

theorem fmin (ty : Ty) (x : Fields) : Statement (.fmin ty x) :=
  of_make (Eq.refl _) (by decide) (fun _ => by cases ty <;> exact Eq.refl _)

theorem fmax (ty : Ty) (x : Fields) : Statement (.fmax ty x) :=
  of_make (Eq.refl _) (by decide) (fun _ => by cases ty <;> exact Eq.refl _)

theorem fneg (ty : Ty) (x : Fields) : Statement (.fneg ty x) :=
  of_make (Eq.refl _) (by decide) (fun _ => by cases ty <;> exact Eq.refl _)

theorem fabs (ty : Ty) (x : Fields) : Statement (.fabs ty x) :=
  of_make (Eq.refl _) (by decide) (fun _ => by cases ty <;> exact Eq.refl _)

theorem fcmp (f : FCond) (ty : Ty) (x : Fields) : Statement (.fcmp f ty x) :=
  of_make (Eq.refl _) (by decide) (fun _ => by cases f <;> cases ty <;> exact Eq.refl _)

theorem fclass (ty : Ty) (x : Fields) : Statement (.fclass ty x) :=
  of_make (Eq.refl _) (by decide) (fun _ => by cases ty <;> exact Eq.refl _)

theorem frnd (ty : Ty) (x : Fields) : Statement (.frnd ty x) :=
  of_make (Eq.refl _) (by decide) (fun _ => by cases ty <;> exact Eq.refl _)

theorem rcp (ty : Ty) (x : Fields) : Statement (.rcp ty x) :=
  of_make (Eq.refl _) (by decide) (fun _ => by cases ty <;> exact Eq.refl _)

theorem sqrt (ty : Ty) (x : Fields) : Statement (.sqrt ty x) :=
  of_make (Eq.refl _) (by decide) (fun _ => by cases ty <;> exact Eq.refl _)

theorem rsqrt (ty : Ty) (x : Fields) : Statement (.rsqrt ty x) :=
  of_make (Eq.refl _) (by decide) (fun _ => by cases ty <;> exact Eq.refl _)

theorem exp2 (ty : Ty) (x : Fields) : Statement (.exp2 ty x) :=
  of_make (Eq.refl _) (by decide) (fun _ => by cases ty <;> exact Eq.refl _)

theorem log2 (ty : Ty) (x : Fields) : Statement (.log2 ty x) :=
  of_make (Eq.refl _) (by decide) (fun _ => by cases ty <;> exact Eq.refl _)

theorem sinpi (ty : Ty) (x : Fields) : Statement (.sinpi ty x) :=
  of_make (Eq.refl _) (by decide) (fun _ => by cases ty <;> exact Eq.refl _)

theorem cospi (ty : Ty) (x : Fields) : Statement (.cospi ty x) :=
  of_make (Eq.refl _) (by decide) (fun _ => by cases ty <;> exact Eq.refl _)

theorem tanh (ty : Ty) (x : Fields) : Statement (.tanh ty x) :=
  of_make (Eq.refl _) (by decide) (fun _ => by cases ty <;> exact Eq.refl _)

theorem sigm (ty : Ty) (x : Fields) : Statement (.sigm ty x) :=
  of_make (Eq.refl _) (by decide) (fun _ => by cases ty <;> exact Eq.refl _)

theorem jord (x : Fields) : Statement (.jord x) :=
  of_make (Eq.refl _) (by decide) (fun _ => Eq.refl _)

theorem jseed (x : Fields) : Statement (.jseed x) :=
  of_make (Eq.refl _) (by decide) (fun _ => Eq.refl _)

theorem jget (x : Fields) : Statement (.jget x) :=
  of_make (Eq.refl _) (by decide) (fun _ => Eq.refl _)

theorem jset (x : Fields) : Statement (.jset x) :=
  of_make (Eq.refl _) (by decide) (fun _ => Eq.refl _)

theorem jshift (x : Fields) : Statement (.jshift x) :=
  of_make (Eq.refl _) (by decide) (fun _ => Eq.refl _)

theorem jtest (x : Fields) : Statement (.jtest x) :=
  of_make (Eq.refl _) (by decide) (fun _ => Eq.refl _)

theorem jxr (x : Fields) : Statement (.jxr x) :=
  of_make (Eq.refl _) (by decide) (fun _ => Eq.refl _)

theorem jxc (x : Fields) : Statement (.jxc x) :=
  of_make (Eq.refl _) (by decide) (fun _ => Eq.refl _)

theorem shfl (f : ShflMode) (ty : Ty) (x : Fields) : Statement (.shfl f ty x) :=
  of_make (Eq.refl _) (by decide) (fun _ => by cases f <;> cases ty <;> exact Eq.refl _)

theorem vote (f : VoteForm) (x : Fields) : Statement (.vote f x) :=
  of_make (Eq.refl _) (by decide) (fun _ => by cases f <;> exact Eq.refl _)

theorem rfl (f : RflForm) (ty : Ty) (x : Fields) : Statement (.rfl f ty x) :=
  of_make (Eq.refl _) (by decide) (fun _ => by cases f <;> cases ty <;> exact Eq.refl _)

theorem fmt (x : Fields) : Statement (.fmt x) :=
  of_make (Eq.refl _) (by decide) (fun _ => Eq.refl _)

theorem role (x : Fields) : Statement (.role x) :=
  of_make (Eq.refl _) (by decide) (fun _ => Eq.refl _)

theorem xblkAcq (x : Fields) : Statement (.xblkAcq x) :=
  of_make (Eq.refl _) (by decide) (fun _ => Eq.refl _)

theorem xblkRel (x : Fields) : Statement (.xblkRel x) :=
  of_make (Eq.refl _) (by decide) (fun _ => Eq.refl _)

theorem ld (ty : Ty) (x : Fields) : Statement (.ld ty x) :=
  of_make (Eq.refl _) (by decide) (fun _ => by cases ty <;> exact Eq.refl _)

theorem st (ty : Ty) (x : Fields) : Statement (.st ty x) :=
  of_make (Eq.refl _) (by decide) (fun _ => by cases ty <;> exact Eq.refl _)

theorem pref (x : Fields) : Statement (.pref x) :=
  of_make (Eq.refl _) (by decide) (fun _ => Eq.refl _)

theorem atom (f : AtomOp) (ty : Ty) (x : Fields) : Statement (.atom f ty x) :=
  of_make (Eq.refl _) (by decide) (fun _ => by cases f <;> cases ty <;> exact Eq.refl _)

theorem red (f : RedOp) (ty : Ty) (x : Fields) : Statement (.red f ty x) :=
  of_make (Eq.refl _) (by decide) (fun _ => by cases f <;> cases ty <;> exact Eq.refl _)

theorem xsum (f : XsumOp) (x : Fields) : Statement (.xsum f x) :=
  of_make (Eq.refl _) (by decide) (fun _ => by cases f <;> exact Eq.refl _)

theorem fence (x : Fields) : Statement (.fence x) :=
  of_make (Eq.refl _) (by decide) (fun _ => Eq.refl _)

theorem cadd (x : Fields) : Statement (.cadd x) :=
  of_make (Eq.refl _) (by decide) (fun _ => Eq.refl _)

theorem cwait (x : Fields) : Statement (.cwait x) :=
  of_make (Eq.refl _) (by decide) (fun _ => Eq.refl _)

theorem cread (x : Fields) : Statement (.cread x) :=
  of_make (Eq.refl _) (by decide) (fun _ => Eq.refl _)

theorem bar (x : Fields) : Statement (.bar x) :=
  of_make (Eq.refl _) (by decide) (fun _ => Eq.refl _)

theorem copy (f : CopyDir) (x : Fields) : Statement (.copy f x) :=
  of_make (Eq.refl _) (by decide) (fun _ => by cases f <;> exact Eq.refl _)

theorem xpose (x : Fields) : Statement (.xpose x) :=
  of_make (Eq.refl _) (by decide) (fun _ => Eq.refl _)

theorem publish (x : Fields) : Statement (.publish x) :=
  of_make (Eq.refl _) (by decide) (fun _ => Eq.refl _)

theorem resv (x : Fields) : Statement (.resv x) :=
  of_make (Eq.refl _) (by decide) (fun _ => Eq.refl _)

theorem mma (x : Fields) : Statement (.mma x) :=
  of_make (Eq.refl _) (by decide) (fun _ => Eq.refl _)

theorem mmaz (x : Fields) : Statement (.mmaz x) :=
  of_make (Eq.refl _) (by decide) (fun _ => Eq.refl _)

theorem drain (x : Fields) : Statement (.drain x) :=
  of_make (Eq.refl _) (by decide) (fun _ => Eq.refl _)

theorem achk (x : Fields) : Statement (.achk x) :=
  of_make (Eq.refl _) (by decide) (fun _ => Eq.refl _)

theorem aload (x : Fields) : Statement (.aload x) :=
  of_make (Eq.refl _) (by decide) (fun _ => Eq.refl _)

theorem sacc (x : Fields) : Statement (.sacc x) :=
  of_make (Eq.refl _) (by decide) (fun _ => Eq.refl _)

theorem topk (x : Fields) : Statement (.topk x) :=
  of_make (Eq.refl _) (by decide) (fun _ => Eq.refl _)

theorem kvpack (x : Fields) : Statement (.kvpack x) :=
  of_make (Eq.refl _) (by decide) (fun _ => Eq.refl _)

theorem breg (x : Fields) : Statement (.breg x) :=
  of_make (Eq.refl _) (by decide) (fun _ => Eq.refl _)

theorem bpost (x : Fields) : Statement (.bpost x) :=
  of_make (Eq.refl _) (by decide) (fun _ => Eq.refl _)

theorem bstat (x : Fields) : Statement (.bstat x) :=
  of_make (Eq.refl _) (by decide) (fun _ => Eq.refl _)

theorem memoryResponse (acc : Nat) : Statement (.memoryResponse acc) := by
  intro w _ h; cases h

theorem pageWalk (w : WalkReq) : Statement (.pageWalk w) := by
  intro w _ h; cases h

theorem growRefillDone (g : Nat) : Statement (.growRefillDone g) := by
  intro w _ h; cases h

theorem emulationDone (g : Nat) : Statement (.emulationDone g) := by
  intro w _ h; cases h

theorem sliceOperation (r : SliceReq) : Statement (.sliceOperation r) := by
  intro w _ h; cases h

theorem releasePerformed (g : Nat) : Statement (.releasePerformed g) := by
  intro w _ h; cases h

theorem counterAddArrival (r : CtrAdd) : Statement (.counterAddArrival r) := by
  intro w _ h; cases h

theorem counterWaitWake (g : Nat) : Statement (.counterWaitWake g) := by
  intro w _ h; cases h

theorem xblkGrant (core : Nat) (lane : Nat) : Statement (.xblkGrant core lane) := by
  intro w _ h; cases h

theorem commandAcceptance (g : Nat) : Statement (.commandAcceptance g) := by
  intro w _ h; cases h

theorem copyExecution (r : CmdRef) : Statement (.copyExecution r) := by
  intro w _ h; cases h

theorem copyCompletion (r : CmdRef) : Statement (.copyCompletion r) := by
  intro w _ h; cases h

theorem mmaPerformance (r : CmdRef) : Statement (.mmaPerformance r) := by
  intro w _ h; cases h

theorem mmazPerformance (r : CmdRef) : Statement (.mmazPerformance r) := by
  intro w _ h; cases h

theorem drainPerformance (r : CmdRef) : Statement (.drainPerformance r) := by
  intro w _ h; cases h

theorem achkPerformance (r : CmdRef) : Statement (.achkPerformance r) := by
  intro w _ h; cases h

theorem aloadPerformance (r : CmdRef) : Statement (.aloadPerformance r) := by
  intro w _ h; cases h

theorem publishPerformance (r : CmdRef) : Statement (.publishPerformance r) := by
  intro w _ h; cases h

theorem resvDecision (r : CmdRef) : Statement (.resvDecision r) := by
  intro w _ h; cases h

theorem handleMoveDone (eid : Nat) (h : Nat) : Statement (.handleMoveDone eid h) := by
  intro w _ h; cases h

theorem deferredReport (g : Nat) : Statement (.deferredReport g) := by
  intro w _ h; cases h

theorem translationInvalidateDone (eid : Nat) (va : DWord) (len : Nat) : Statement (.translationInvalidateDone eid va len) := by
  intro w _ h; cases h

theorem coreClockTick (core : Nat) : Statement (.coreClockTick core) := by
  intro w _ h; cases h

theorem dirtyWritebackBound (core : Nat) : Statement (.dirtyWritebackBound core) := by
  intro w _ h; cases h

theorem waitWatchdogExpiry (g : Nat) : Statement (.waitWatchdogExpiry g) := by
  intro w _ h; cases h

theorem registerBlockWaitExpiry (g : Nat) : Statement (.registerBlockWaitExpiry g) := by
  intro w _ h; cases h

theorem splitChange (core : Nat) (units : Nat) : Statement (.splitChange core units) := by
  intro w _ h; cases h

theorem splitChangeDone (core : Nat) : Statement (.splitChangeDone core) := by
  intro w _ h; cases h

theorem gangPlacement (launch : Nat) : Statement (.gangPlacement launch) := by
  intro w _ h; cases h

theorem launchCompletion (launch : Nat) : Statement (.launchCompletion launch) := by
  intro w _ h; cases h

theorem drainReservationOpen (launch : Nat) : Statement (.drainReservationOpen launch) := by
  intro w _ h; cases h

theorem teamDeadline (launch : Nat) (gang : Nat) : Statement (.teamDeadline launch gang) := by
  intro w _ h; cases h

theorem priorityPreemption (launch : Nat) : Statement (.priorityPreemption launch) := by
  intro w _ h; cases h

theorem contextSaveDone (launch : Nat) (gang : Nat) : Statement (.contextSaveDone launch gang) := by
  intro w _ h; cases h

theorem stepStart (launch : Nat) : Statement (.stepStart launch) := by
  intro w _ h; cases h

theorem stepCompletion (launch : Nat) : Statement (.stepCompletion launch) := by
  intro w _ h; cases h

theorem kvPromotionDone (eid : Nat) (slot : Nat) (page : Nat) : Statement (.kvPromotionDone eid slot page) := by
  intro w _ h; cases h

theorem kvPromotionFailure (eid : Nat) (slot : Nat) (page : Nat) : Statement (.kvPromotionFailure eid slot page) := by
  intro w _ h; cases h

theorem topkCompletion (g : Nat) : Statement (.topkCompletion g) := by
  intro w _ h; cases h

theorem kvpackCompletion (g : Nat) : Statement (.kvpackCompletion g) := by
  intro w _ h; cases h

theorem halleyPost (r : HalleyReq) : Statement (.halleyPost r) := by
  intro w _ h; cases h

theorem halleyRegistration (r : HalleyReq) : Statement (.halleyRegistration r) := by
  intro w _ h; cases h

theorem halleyStatusRead (r : HalleyReq) : Statement (.halleyStatusRead r) := by
  intro w _ h; cases h

theorem halleyAnswer (g : Nat) (value : DWord) : Statement (.halleyAnswer g value) := by
  intro w _ h; cases h

theorem cancelBitDelivery (eid : Nat) (slot : Nat) : Statement (.cancelBitDelivery eid slot) := by
  intro w _ h; cases h

theorem roleChangeDone (slice : Nat) (wg : Nat) : Statement (.roleChangeDone slice wg) := by
  intro w _ h; cases h

theorem temperatureSample (die : Nat) (storeDie : Nat) (celsius : Nat) : Statement (.temperatureSample die storeDie celsius) := by
  intro w _ h; cases h

theorem refresh (bank : BankRef) (row : Nat) : Statement (.refresh bank row) := by
  intro w _ h; cases h

theorem patrolScrub (bank : BankRef) (row : Nat) (block : Nat) : Statement (.patrolScrub bank row block) := by
  intro w _ h; cases h

theorem refreshDeadlineMissed (bank : BankRef) (row : Nat) : Statement (.refreshDeadlineMissed bank row) := by
  intro w _ h; cases h

theorem retrainingDue (die : Nat) : Statement (.retrainingDue die) := by
  intro w _ h; cases h

theorem retrainingForced (die : Nat) : Statement (.retrainingForced die) := by
  intro w _ h; cases h

theorem retrainingDone (die : Nat) (ok : Bool) : Statement (.retrainingDone die ok) := by
  intro w _ h; cases h

theorem powerStepDown : Statement .powerStepDown := by
  intro w _ h; cases h

theorem powerStepUp : Statement .powerStepUp := by
  intro w _ h; cases h

theorem thermalTrip (die : Nat) : Statement (.thermalTrip die) := by
  intro w _ h; cases h

theorem logSeal : Statement .logSeal := by
  intro w _ h; cases h

theorem linkTrainingRetry (ok : Bool) : Statement (.linkTrainingRetry ok) := by
  intro w _ h; cases h

theorem connectionOpen (r : ConnReq) : Statement (.connectionOpen r) := by
  intro w _ h; cases h

theorem submit (m : Msg) : Statement (.submit m) := by
  intro w _ h; cases h

theorem submitGraph (m : Msg) : Statement (.submitGraph m) := by
  intro w _ h; cases h

theorem memrd (m : Msg) : Statement (.memrd m) := by
  intro w _ h; cases h

theorem memwr (m : Msg) : Statement (.memwr m) := by
  intro w _ h; cases h

theorem slotwr (m : Msg) : Statement (.slotwr m) := by
  intro w _ h; cases h

theorem closiaCadd (m : Msg) : Statement (.closiaCadd m) := by
  intro w _ h; cases h

theorem peeracc (m : Msg) : Statement (.peeracc m) := by
  intro w _ h; cases h

theorem peerAnswer (acc : Nat) (r : PeerResult) : Statement (.peerAnswer acc r) := by
  intro w _ h; cases h

theorem createEngagement (m : Msg) : Statement (.createEngagement m) := by
  intro w _ h; cases h

theorem exitEngagement (m : Msg) : Statement (.exitEngagement m) := by
  intro w _ h; cases h

theorem exitScrub (eid : Nat) : Statement (.exitScrub eid) := by
  intro w _ h; cases h

theorem mapPages (m : Msg) : Statement (.mapPages m) := by
  intro w _ h; cases h

theorem unmapPages (m : Msg) : Statement (.unmapPages m) := by
  intro w _ h; cases h

theorem reserveGrowFrames (m : Msg) : Statement (.reserveGrowFrames m) := by
  intro w _ h; cases h

theorem loadImage (m : Msg) : Statement (.loadImage m) := by
  intro w _ h; cases h

theorem unloadImage (m : Msg) : Statement (.unloadImage m) := by
  intro w _ h; cases h

theorem registerStepProgram (m : Msg) : Statement (.registerStepProgram m) := by
  intro w _ h; cases h

theorem unregisterStepProgram (m : Msg) : Statement (.unregisterStepProgram m) := by
  intro w _ h; cases h

theorem writeHandleDescriptor (m : Msg) : Statement (.writeHandleDescriptor m) := by
  intro w _ h; cases h

theorem freeHandle (m : Msg) : Statement (.freeHandle m) := by
  intro w _ h; cases h

theorem exportWindow (m : Msg) : Statement (.exportWindow m) := by
  intro w _ h; cases h

theorem importWindow (m : Msg) : Statement (.importWindow m) := by
  intro w _ h; cases h

theorem revokeWindow (m : Msg) : Statement (.revokeWindow m) := by
  intro w _ h; cases h

theorem programWatchUnit (m : Msg) : Statement (.programWatchUnit m) := by
  intro w _ h; cases h

theorem clearWatchUnit (m : Msg) : Statement (.clearWatchUnit m) := by
  intro w _ h; cases h

theorem attest (m : Msg) : Statement (.attest m) := by
  intro w _ h; cases h

theorem preemptGangs (m : Msg) : Statement (.preemptGangs m) := by
  intro w _ h; cases h

theorem terminateLaunch (m : Msg) : Statement (.terminateLaunch m) := by
  intro w _ h; cases h

theorem readRegister (m : Msg) : Statement (.readRegister m) := by
  intro w _ h; cases h

theorem writeRegister (m : Msg) : Statement (.writeRegister m) := by
  intro w _ h; cases h

theorem wgcfgRoleWrite (m : Msg) : Statement (.wgcfgRoleWrite m) := by
  intro w _ h; cases h

theorem deliverFirmware (m : Msg) : Statement (.deliverFirmware m) := by
  intro w _ h; cases h

theorem commitRollbackFloor (m : Msg) : Statement (.commitRollbackFloor m) := by
  intro w _ h; cases h

theorem warmReset (m : Msg) : Statement (.warmReset m) := by
  intro w _ h; cases h

theorem coldReset (m : Msg) : Statement (.coldReset m) := by
  intro w _ h; cases h

theorem startPhaseDone : Statement .startPhaseDone := by
  intro w _ h; cases h

theorem illegalInstruction : Statement .illegalInstruction := by
  intro w _ h; cases h

theorem executeDataTrap : Statement .executeDataTrap := by
  intro w _ h; cases h

theorem handleLeaseEnd (eid : Nat) (h : Nat) : Statement (.handleLeaseEnd eid h) := by
  intro w _ h; cases h

theorem linkDown : Statement .linkDown := by
  intro w _ h; cases h

theorem connectionClose (conn : Nat) : Statement (.connectionClose conn) := by
  intro w _ h; cases h

theorem unsupportedPacketDrop (mode : Nat) : Statement (.unsupportedPacketDrop mode) := by
  intro w _ h; cases h

end Sys2Proof.Laws.RoundTrip
end

