-- ==== Sys2Proof/Laws/Shared.lean ====
section
/-! SUPPORT. What the operations that several instructions and events share can do: fills and flushes of the L1, acquires, the end
of a team at instruction boundaries, and the pieces of `Charon`'s and the die's events. -/

namespace Sys2Proof.Laws

open Sys2Proof.Machine

/-! ### Lines of the L1 -/

/-- A line without valid words agrees with its home slice. -/
theorem current_newLine (line eid : Nat) (va : DWord) (s : State) : current (newLine line eid va) s = true := by
  simp [current, currentWord, newLine]

/-- After `roomFill` the clean words of the line are those of its home slice, so that one lease end serves them all. -/
theorem roomFill_current (c : Nat) (l : Line) (s : State) : current (roomFill c l s).1 (roomFill c l s).2 = true := by
  unfold roomFill
  split
  · assumption
  · exact current_newLine ..

theorem wf_roomFill (c : Nat) (l : Line) {s : State} (w : Memory.wf s.mem = true) : Memory.wf (roomFill c l s).2.mem = true := by
  unfold roomFill
  split
  · exact w
  · exact wf_evictLine c l w

/-- After `joinPairs` no aligned eight bytes of a load of eight or more are apart. -/
theorem joinPairs_together (c : Nat) (l : Line) (need : BitVec 16) (n : Nat) (s : State) (h : 8 ≤ n) (p : Nat) (hp : p < 8)
    (hn : need.getLsbD (2 * p) = true) : pairApart (joinPairs c l need n s).1 (joinPairs c l need n s).2 p = false := by
  unfold joinPairs
  split
  · simp [pairApart, newLine]
  · rename_i a
    simp only [h, decide_true, Bool.true_and, List.any_eq_true, List.mem_range, Bool.and_eq_true, not_exists, not_and,
      Bool.not_eq_true] at a
    exact a p hp hn

theorem wf_joinPairs (c : Nat) (l : Line) (need : BitVec 16) (n : Nat) {s : State} (w : Memory.wf s.mem = true) :
    Memory.wf (joinPairs c l need n s).2.mem = true := by
  unfold joinPairs
  split
  · exact wf_evictLine c l w
  · exact w

/-- `loseClean` changes lines of cores alone. -/
theorem loseClean_rest (c eid pa n : Nat) (s : State) : loseClean c eid pa n s = { s with cores := (loseClean c eid pa n s).cores } := by
  simp only [loseClean]
  split <;> rfl

/-- A line that has been written back keeps its words, none of them dirty. -/
@[simp] theorem cleaned_dirty (t : Nat) (l : Line) : (cleaned t l).dirty = 0 := rfl
@[simp] theorem cleaned_valid (t : Nat) (l : Line) : (cleaned t l).valid = l.valid := rfl
@[simp] theorem cleaned_data (t : Nat) (l : Line) : (cleaned t l).data = l.data := rfl

/-! ### What groups have read -/

/-- An acquire changes groups, lines and clocks of cores, and what is known of the adds to cells. -/
theorem acquire_rest (g : Group) (scope w : Nat) (s : State) :
    acquire g scope w s = { s with g := (acquire g scope w s).g, others := (acquire g scope w s).others, cores := (acquire g scope w s).cores
                                   sums := (acquire g scope w s).sums } := by
  unfold acquire
  dsimp only
  split <;> split <;> rfl

/-- What a group learns of adds to cells changes their histories alone. -/
theorem learnAdds_rest (gid : Nat) (f : Nat → CellAdd × Nat → Bool) (s : State) :
    learnAdds gid f s = { s with sums := (learnAdds gid f s).sums } := rfl

theorem seeLocal_rest (c a n : Nat) (s : State) :
    seeLocal c a n s = { s with g := (seeLocal c a n s).g, others := (seeLocal c a n s).others } := rfl

/-- An error found in local store is counted by its core, and nothing else changes. -/
theorem countPlace_rest (p : Place) (n : Nat) (s : State) : countPlace p n s = { s with cores := (countPlace p n s).cores } := by
  unfold countPlace
  split
  · split <;> rfl
  · rfl

/-! ### The end of a team (R324) -/

/-- A group that is halted has stopped, or stops when the pass that it is in has ended. -/
theorem halt_stops (h : Group) : isOver (halt h) = true ∨ ((halt h).midway = true ∧ (halt h).stopping = true) := by
  unfold halt
  split
  · exact .inl ‹_›
  · split
    · exact .inr ⟨‹_›, rfl⟩
    · exact .inl rfl

theorem halt_rest (h : Group) : halt h = { h with status := (halt h).status, stopping := (halt h).stopping, latch := (halt h).latch } := by
  unfold halt
  split
  · rfl
  · split <;> rfl

/-- Where no group of a team is at its last boundary, nothing stops. -/
theorem stopPoint_none (tid : Nat) (s : State) (h : ∀ g ∈ allGroups s, g.tid = tid → atStop g = false) : stopPoint tid s = s := by
  unfold stopPoint
  rw [if_neg]
  simpa using h

/-! ### `Charon` and the die -/

/-- The acceptance of a command that the engine performs changes no other command of its sequencer. -/
theorem awaitAgain_engine (c d : Command) (h : c.emulated = false) : awaitAgain c d = d := by
  simp [awaitAgain, h]

/-- A command is as it was when one that it does not wait for is abandoned. -/
theorem abandonPred_other (n : Nat) (d : Command) (h : n ∉ d.preds) : abandonPred n d = d := by
  simp [abandonPred, h]

/-- A drain that has taken its rows is not abandoned; every other emulation is. -/
theorem abandonable_iff (c : Command) :
    abandonable c = true ↔ ((∃ dst tile e0 e1, c.kind = .drain dst tile e0 e1) → c.phase = .waiting) := by
  unfold abandonable
  split <;> simp_all

/-- The leaves of two runs of pages are cleared one run after the other. -/
theorem clearPages_append (eid : Nat) (a b : List DWord) (s : State) :
    clearPages eid (a ++ b) s = ((clearPages eid a s).1 ++ (clearPages eid b (clearPages eid a s).2).1, (clearPages eid b (clearPages eid a s).2).2) := by
  induction a generalizing s with
  | nil => rfl
  | cons v a ih => simp [clearPages, ih]

theorem answerUnmaps_rest (eid : Nat) (s : State) :
    answerUnmaps eid s = { s with owed := (answerUnmaps eid s).owed, out := (answerUnmaps eid s).out } := rfl

/-- A retraining begins on one die (R359). -/
theorem beginTraining_bus (die d : Nat) (s : State) :
    busOf (beginTraining die s) d = if d = die then { busOf s die with due := none, running := true, began := s.sc, since := s.ac } else busOf s d := by
  simp only [beginTraining, setBus, busOf, get_set]

end Sys2Proof.Laws
end

