-- ==== Sys2Proof/Tests/Slice0.lean ====
section
/-! SUPPORT. Tests of the model on fixed values. Expected values come from the manual's examples and tables, or by hand from its
rules; the witnesses show that the hypotheses of each statement are met by some state and operands. -/

namespace Sys2Proof.Tests

open Sys2Proof.Machine Sys2Proof.Safety

set_option Elab.async false

/-! ### Well-formed and ill-formed instructions -/

/-- Guards `pt`, and every other field zero. -/
def x0 : Fields := ⟨⟨false, 7⟩, ⟨false, 7⟩, false, false, 0, 0, .v 0, .v 0, .v 0, .v 0, 0, 0⟩

/-- The same with `U` = 1. -/
def u0 : Fields := { x0 with u := true }

/-- A term is refused, and the same term without its one fault is not. -/
def refusedNot (bad good : Instr) : Bool := !fieldsLegal bad && fieldsLegal good

/-- R101, R102: `RU`, `CH` and `MOD` where they must be zero, or have a reserved value. -/
theorem test_illFormed_header :
    refusedNot (.iadd .wrap .i32 { x0 with ru := true }) (.iadd .wrap .i32 x0) = true ∧
    refusedNot (.iadd .wrap .i32 { x0 with ch := 1 }) (.iadd .wrap .i32 x0) = true ∧
    refusedNot (.iadd .wrap .i32 { x0 with md := 1 }) (.iadd .wrap .i32 x0) = true ∧
    refusedNot (.fadd .f32 { x0 with md := 5 }) (.fadd .f32 { x0 with md := 4 }) = true ∧
    refusedNot (.fadd .f32 { x0 with ch := 1 }) (.fadd .f32 x0) = true ∧
    refusedNot (.ld .f32 { x0 with ch := 6 }) (.ld .f32 { x0 with ch := 5 }) = true ∧
    refusedNot (.fence { x0 with e := 0xC0, md := 5 }) (.fence { x0 with e := 0xC0, md := 4 }) = true ∧
    refusedNot (.copy .g2l { u0 with ch := 6 }) (.copy .g2l { u0 with ch := 5, ru := true }) = true ∧
    refusedNot (.xpose { u0 with ru := true }) (.xpose u0) = true ∧
    refusedNot (.mma { x0 with md := 1 }) (.mma { x0 with ru := true }) = true ∧
    refusedNot (.mmaz { u0 with ch := 1 }) (.mmaz u0) = true ∧
    refusedNot (.publish { u0 with ch := 1 }) (.publish u0) = true ∧
    refusedNot (.achk { u0 with md := 1 }) (.achk u0) = true ∧
    refusedNot (.aload { u0 with md := 1 }) (.aload u0) = true ∧
    refusedNot (.drain { u0 with ru := true }) (.drain u0) = true := by decide +kernel

/-- R43, R97, R112: `U` where the form fixes it, and guards where there are none. -/
theorem test_illFormed_uniform :
    refusedNot (.nop u0) (.nop x0) = true ∧ refusedNot (.nop { x0 with g1 := ⟨false, 1⟩ }) (.nop x0) = true ∧
    refusedNot (.join { x0 with g2 := ⟨true, 7⟩ }) (.join x0) = true ∧ refusedNot (.brd u0) (.brd x0) = true ∧
    refusedNot (.tresume x0) (.tresume u0) = true ∧ refusedNot (.launch x0) (.launch u0) = true ∧
    refusedNot (.fmt x0) (.fmt u0) = true ∧ refusedNot (.role x0) (.role u0) = true ∧ refusedNot (.xblkRel x0) (.xblkRel u0) = true ∧
    refusedNot (.jord x0) (.jord u0) = true ∧ refusedNot (.jshift u0) (.jshift x0) = true ∧
    refusedNot (.shfl .idx .n32 u0) (.shfl .idx .n32 x0) = true ∧ refusedNot (.vote .all u0) (.vote .all x0) = true ∧
    refusedNot (.rfl .plain .n32 u0) (.rfl .plain .n32 x0) = true ∧ refusedNot (.cadd x0) (.cadd u0) = true ∧
    refusedNot (.copy .l2g x0) (.copy .l2g u0) = true ∧ refusedNot (.mma u0) (.mma x0) = true ∧
    refusedNot (.topk x0) (.topk u0) = true ∧ refusedNot (.bstat x0) (.bstat u0) = true := by decide +kernel

/-- R103, R131, R150, R160, R224, R231: types that an instruction does not take. -/
theorem test_illFormed_type :
    refusedNot (.iadd .wrap .f32 x0) (.iadd .wrap .n8x4 x0) = true ∧ refusedNot (.imul .lo .i8x4 x0) (.imul .lo .i16x2 x0) = true ∧
    refusedNot (.imul .hi .i16x2 x0) (.imul .hi .n64 x0) = true ∧ refusedNot (.imul .long .i64 x0) (.imul .long .n32 x0) = true ∧
    refusedNot (.imad .long .i64 x0) (.imad .lo .i64 x0) = true ∧ refusedNot (.ineg .n32 x0) (.ineg .i32 x0) = true ∧
    refusedNot (.shl .i32 x0) (.shl .n64 x0) = true ∧ refusedNot (.clz .n64 x0) (.clz .n8x4 x0) = true ∧
    refusedNot (.icmp .eq .i8x4 x0) (.icmp .eq .n64 x0) = true ∧ refusedNot (.sel .n32 x0) (.sel .i64 x0) = true ∧
    refusedNot (.lea .i64 x0) (.lea .n32 x0) = true ∧ refusedNot (.fadd .i32 x0) (.fadd .f16x2 x0) = true ∧
    refusedNot (.fdiv .f16x2 x0) (.fdiv .bf16 x0) = true ∧ refusedNot (.fcmp .lt .bf16x2 x0) (.fcmp .lt .f16 x0) = true ∧
    refusedNot (.frnd .f16x2 x0) (.frnd .f16 x0) = true ∧
    refusedNot (.cvt .i32 .i32 { x0 with e := 6 }) (.cvt .i32 .n32 { x0 with e := 7 }) = true ∧
    refusedNot (.cvt .i16x2 .f32 x0) (.cvt .bf16x2 .f32 x0) = true ∧
    refusedNot (.cvt .f32 .i32 { x0 with e := 7 }) (.cvt .f32 .i32 { x0 with e := 6 }) = true ∧
    refusedNot (.shfl .idx .i32 x0) (.shfl .idx .n64 x0) = true ∧ refusedNot (.rfl .chk .f32 x0) (.rfl .chk .n64 x0) = true ∧
    refusedNot (.ld .q4 x0) (.ld .q8 x0) = true ∧ refusedNot (.st .q4 x0) (.st .n8 x0) = true ∧
    refusedNot (.atom .cas .i32 x0) (.atom .cas .n32 x0) = true ∧ refusedNot (.atom .min .f32 x0) (.atom .max .f32 x0) = true ∧
    refusedNot (.red .min .f32 x0) (.red .add .f32 x0) = true := by decide +kernel

/-- R99, R107, R110, R114: an unused operand field, E bit or `IMM16` that is not zero. -/
theorem test_illFormed_unused :
    refusedNot (.nop { x0 with imm := 1 }) (.nop x0) = true ∧ refusedNot (.bra { x0 with a := .v 1 }) (.bra { x0 with imm := 5 }) = true ∧
    refusedNot (.brd { x0 with d := .s 0 }) (.brd { x0 with b := .s 1 }) = true ∧ refusedNot (.brx { x0 with d := .v 1 }) (.brx x0) = true ∧
    refusedNot (.exit { x0 with a := .s 0 }) (.exit x0) = true ∧ refusedNot (.trap { x0 with d := .v 1 }) (.trap { x0 with imm := 7 }) = true ∧
    refusedNot (.iadd .wrap .i32 { x0 with c := .v 1 }) (.iadd .wrap .i32 { x0 with b := .im 0, c := .im 1 }) = true ∧
    refusedNot (.iadd .wrap .i32 { x0 with imm := 1 }) (.iadd .wrap .i32 { x0 with b := .im 0, imm := 1 }) = true ∧
    refusedNot (.imad .lo .i32 { x0 with e := 1 }) (.imad .lo .i32 x0) = true ∧
    refusedNot (.ineg .i32 { x0 with b := .v 1 }) (.ineg .i32 x0) = true ∧
    refusedNot (.lop .not .n32 { x0 with e := 1 }) (.lop .tri .n32 { x0 with e := 1 }) = true ∧
    refusedNot (.sel .i32 { x0 with e := 2 }) (.sel .i32 { x0 with e := 1 }) = true ∧
    refusedNot (.lea .i32 { x0 with e := 8 }) (.lea .i32 { x0 with e := 7 }) = true ∧
    refusedNot (.mov .one { x0 with a := .v 1 }) (.mov .one x0) = true ∧ refusedNot (.mov .one { x0 with b := .sp 0x80 }) (.mov .one x0) = true ∧
    refusedNot (.movSpecial .one x0) (.movSpecial .one { x0 with b := .sp 0x80 }) = true ∧
    refusedNot (.plop .not { x0 with e := 2 }) (.plop .and { x0 with e := 2 }) = true ∧
    refusedNot (.plop .and { x0 with e := 4 }) (.plop .and { x0 with e := 3 }) = true ∧
    refusedNot (.pmov .get { x0 with a := .v 1 }) (.pmov .get x0) = true ∧ refusedNot (.pmov .set { x0 with d := .v 1 }) (.pmov .set x0) = true ∧
    refusedNot (.cvt .i32 .f32 { x0 with b := .v 1 }) (.cvt .f16x2 .f32 { x0 with b := .v 1 }) = true ∧
    refusedNot (.jget { x0 with e := 4 }) (.jget { x0 with e := 3 }) = true ∧ refusedNot (.jset { x0 with a := .v 1 }) (.jset x0) = true ∧
    refusedNot (.vote .same { x0 with e := 1 }) (.vote .all { x0 with e := 1 }) = true ∧
    refusedNot (.rfl .chk .n32 { x0 with b := .v 1 }) (.rfl .chk .n32 { x0 with c := .sp 8 }) = true ∧
    refusedNot (.jxr { u0 with a := .v 1 }) (.jxr u0) = true ∧ refusedNot (.jxc { u0 with d := .v 1 }) (.jxc u0) = true := by decide +kernel

/-- R108, R109, R223, R235, R237 to R239, R281, R399: orderings, register counts, scopes and selectors that a form does not take. -/
theorem test_illFormed_memory :
    refusedNot (.ld .f32 { x0 with e := 0x80 }) (.ld .f32 { x0 with e := 0x40 }) = true ∧
    refusedNot (.st .f32 { x0 with e := 0x40 }) (.st .f32 { x0 with e := 0x80 }) = true ∧
    refusedNot (.ld .f32 { x0 with e := 3 }) (.ld .f32 { x0 with e := 2 }) = true ∧
    refusedNot (.ld .i64 { x0 with e := 2 }) (.ld .i64 { x0 with e := 1 }) = true ∧
    refusedNot (.ld .f32 { x0 with e := 4 }) (.ld .f32 x0) = true ∧ refusedNot (.ld .f32 { x0 with md := 1 }) (.ld .f32 { x0 with e := 0x40, md := 1 }) = true ∧
    refusedNot (.ld .f32 { x0 with a := .im 3, b := .s 1 }) (.ld .f32 { x0 with a := .im 3 }) = true ∧
    refusedNot (.ld .f32 { x0 with c := .v 1 }) (.st .f32 { x0 with c := .v 1 }) = true ∧
    refusedNot (.st .f32 { x0 with d := .v 1 }) (.atom .add .i32 { x0 with d := .v 1 }) = true ∧
    refusedNot (.red .add .i32 { x0 with d := .v 1 }) (.red .add .i32 x0) = true ∧
    refusedNot (.red .add .i32 { x0 with e := 0x40 }) (.red .add .i32 { x0 with e := 0x80 }) = true ∧
    refusedNot (.xsum .add { x0 with e := 0x40 }) (.xsum .read { x0 with e := 0x40 }) = true ∧
    refusedNot (.xsum .clear { x0 with c := .v 1 }) (.xsum .add { x0 with c := .v 1 }) = true ∧
    refusedNot (.pref { x0 with d := .v 1 }) (.pref x0) = true ∧ refusedNot (.fence x0) (.fence { x0 with e := 0x40 }) = true ∧
    refusedNot (.cadd { u0 with e := 0x40 }) (.cadd { u0 with e := 0x80 }) = true ∧
    refusedNot (.cadd { u0 with e := 1 }) (.cadd { u0 with e := 0x21 }) = true ∧
    refusedNot (.cadd { u0 with a := .s 2, d := .sp 0x20 }) (.cadd { u0 with a := .s 2 }) = true ∧
    refusedNot (.cwait { u0 with e := 0x80 }) (.cwait { u0 with e := 0x40 }) = true ∧
    refusedNot (.bar { u0 with e := 0x40 }) (.bar { u0 with e := 0xC0 }) = true ∧
    refusedNot (.cread { u0 with a := .s 2, e := 0x20 }) (.cread { u0 with a := .sp 0x20, e := 0x20 }) = true ∧
    refusedNot (.sacc { x0 with e := 0x40 }) (.sacc { x0 with e := 0x3F }) = true ∧
    refusedNot (.topk { u0 with e := 1 }) (.topk u0) = true ∧ refusedNot (.bpost { u0 with b := .s 1 }) (.bpost u0) = true ∧
    refusedNot (.breg { u0 with c := .s 1 }) (.breg { u0 with b := .s 1 }) = true ∧ refusedNot (.bstat { u0 with e := 4 }) (.bstat { u0 with e := 3 }) = true := by
  decide +kernel

/-! ### Decoding, from the tables of R97 to R112 -/

/-- What the word decodes to whose bits 95:64 are `h` and whose other bits are zero. -/
def hdr (h : Nat) : Option Instr := decodeTableWord 96 (h * 2 ^ 64)

/-- Every word of a list decodes to the instruction beside it. -/
def allDecode (l : List (Nat × Instr)) : Bool := l.all (fun e => decide (hdr e.1 = some e.2))

theorem test_decode_control : allDecode
    [(0x01007700, .bra x0), (0x02007700, .brd x0), (0x03007700, .join x0), (0x04007700, .brx x0), (0x05007700, .callDirect x0),
      (0x05107700, .callIndirect x0), (0x06007700, .ret x0), (0x07007780, .exit u0), (0x08007700, .yield x0), (0x09007700, .trap x0),
      (0x0A007780, .tresume u0), (0x0B007700, .cancelchk x0), (0x0C007780, .launch u0), (0x0D007700, .nop x0),
      (0x70007780, .fmt u0), (0x71007780, .role u0), (0x72007780, .xblkAcq u0), (0x72107780, .xblkRel u0)] = true := by decide +kernel

theorem test_decode_integer : allDecode
    [(0x10067700, .iadd .wrap .i32 x0), (0x101C7700, .iadd .sat .i8x4 x0), (0x11077700, .isub .wrap .n32 x0), (0x111A7700, .isub .sat .i16x2 x0),
      (0x12087700, .imul .lo .i64 x0), (0x12197700, .imul .hi .n64 x0), (0x12267700, .imul .long .i32 x0), (0x13067700, .imad .lo .i32 x0),
      (0x13177700, .imad .hi .n32 x0), (0x13267700, .imad .long .i32 x0), (0x140B7700, .imin .n16x2 x0), (0x150D7700, .imax .n8x4 x0),
      (0x16067700, .ineg .i32 x0), (0x16187700, .iabs .i64 x0), (0x17077700, .shl .n32 x0), (0x18077700, .shr .log .n32 x0),
      (0x18197700, .shr .ari .n64 x0), (0x19077700, .rot .left .n32 x0), (0x19177700, .rot .right .n32 x0)] = true ∧
    allDecode [(0x1B077700, .bfx .zx .n32 x0), (0x1B177700, .bfx .sx .n32 x0), (0x1C097700, .bfi .n64 x0), (0x23067700, .lea .i32 x0),
      (0x1A077700, .lop .and .n32 x0), (0x1A177700, .lop .or .n32 x0), (0x1A277700, .lop .xor .n32 x0), (0x1A377700, .lop .andn .n32 x0),
      (0x1A477700, .lop .orn .n32 x0), (0x1A577700, .lop .xnor .n32 x0), (0x1A677700, .lop .not .n32 x0), (0x1A777700, .lop .tri .n32 x0),
      (0x1D067700, .icmp .eq .i32 x0), (0x1D167700, .icmp .ne .i32 x0), (0x1D267700, .icmp .lt .i32 x0), (0x1D367700, .icmp .le .i32 x0),
      (0x1D467700, .icmp .gt .i32 x0), (0x1D567700, .icmp .ge .i32 x0), (0x1E067700, .sel .i32 x0), (0x1F077700, .clz .n32 x0),
      (0x200B7700, .ffs .n16x2 x0), (0x210D7700, .popc .n8x4 x0), (0x22077700, .brev .n32 x0)] = true := by decide +kernel

theorem test_decode_moves : allDecode
    [(0x30007700, .mov .one x0), (0x30107700, .mov .two x0), (0x30207700, .mov .four x0), (0x31067700, .cvt .i32 .f32 x0),
      (0x32007700, .plop .and x0), (0x32107700, .plop .or x0), (0x32207700, .plop .xor x0), (0x32307700, .plop .not x0),
      (0x33007700, .pmov .get x0), (0x33107700, .pmov .set x0)] = true ∧
    -- `MOV v4, sr.tcause`: B is class 0b10 with index 0x90
    decodeTableWord 96 0x3000770001000A4000000000 = some (.movSpecial .one { x0 with d := .v 4, b := .sp 0x90 }) := by decide +kernel

theorem test_decode_float : allDecode
    [(0x40007700, .fadd .f32 x0), (0x41017700, .fsub .f16 x0), (0x42027700, .fmul .bf16 x0), (0x43007700, .ffma .plain .f32 x0),
      (0x43107700, .ffma .ms .f32 x0), (0x43207700, .ffma .nm .f32 x0), (0x433F7700, .ffma .nms .f16x2 x0), (0x44007700, .fdiv .f32 x0),
      (0x450E7700, .fmin .bf16x2 x0), (0x46007700, .fmax .f32 x0), (0x47007700, .fneg .f32 x0), (0x47107700, .fabs .f32 x0),
      (0x48007700, .fcmp .eq .f32 x0), (0x48107700, .fcmp .ne .f32 x0), (0x48207700, .fcmp .lt .f32 x0), (0x48307700, .fcmp .le .f32 x0),
      (0x48407700, .fcmp .gt .f32 x0), (0x48507700, .fcmp .ge .f32 x0), (0x48607700, .fcmp .ord .f32 x0), (0x48707700, .fcmp .uno .f32 x0),
      (0x49007700, .fclass .f32 x0), (0x4A007703, .frnd .f32 { x0 with md := 3 })] = true ∧ allDecode
    [(0x4B007700, .rcp .f32 x0), (0x4B107700, .sqrt .f32 x0), (0x4B207700, .rsqrt .f32 x0), (0x4B307700, .exp2 .f32 x0),
      (0x4B407700, .log2 .f32 x0), (0x4B507700, .sinpi .f32 x0), (0x4B607700, .cospi .f32 x0), (0x4B707700, .tanh .f32 x0),
      (0x4B807700, .sigm .f32 x0), (0x60007780, .jord u0), (0x61007700, .jseed x0), (0x62007700, .jget x0), (0x63007700, .jset x0),
      (0x64007700, .jshift x0), (0x65007700, .jtest x0), (0x66007780, .jxr u0), (0x67007780, .jxc u0), (0x68077700, .shfl .idx .n32 x0),
      (0x68177700, .shfl .up .n32 x0), (0x68297700, .shfl .down .n64 x0), (0x68377700, .shfl .xor .n32 x0), (0x69007700, .vote .all x0),
      (0x69107700, .vote .any x0), (0x69207700, .vote .ballot x0), (0x69307700, .vote .same x0), (0x6A077700, .rfl .plain .n32 x0),
      (0x6A197700, .rfl .chk .n64 x0)] = true := by decide +kernel

theorem test_decode_memory : allDecode
    [(0x80007718, .ld .f32 { x0 with ch := 3 }), (0x81057700, .st .n8 x0), (0x82007700, .pref x0), (0x84067700, .atom .add .i32 x0),
      (0x84167700, .atom .min .i32 x0), (0x84277700, .atom .max .n32 x0), (0x84377700, .atom .and .n32 x0), (0x84497700, .atom .or .n64 x0),
      (0x84577700, .atom .xor .n32 x0), (0x84677700, .atom .exch .n32 x0), (0x84797700, .atom .cas .n64 x0), (0x85067700, .red .add .i32 x0),
      (0x85187700, .red .min .i64 x0), (0x85207700, .red .max .f32 x0), (0x86007700, .xsum .add x0), (0x86107700, .xsum .read x0),
      (0x86207700, .xsum .clear x0), (0xA0007780, .cadd u0), (0xA1007780, .cwait u0), (0xA2007780, .cread u0)] = true ∧
    -- `FENCE.acqrel.sys` and `BAR`: E[7:6] = 3
    decodeTableWord 96 0x870077040000000000C00000 = some (.fence { x0 with md := 4, e := 0xC0 }) ∧
    decodeTableWord 96 0xA30077820000000000C00000 = some (.bar { u0 with md := 2, e := 0xC0 }) := by decide +kernel

theorem test_decode_commands : allDecode
    [(0xB0007780, .copy .g2l u0), (0xB0107780, .copy .g2h u0), (0xB0207780, .copy .h2l u0), (0xB0307780, .copy .l2g u0),
      (0xB0407780, .copy .h2g u0), (0xB0507780, .copy .l2h u0), (0xB0607780, .copy .g2g u0), (0xB0707780, .copy .l2l u0),
      (0xB1007780, .xpose u0), (0xB2007780, .publish u0), (0xB3007780, .resv u0), (0xC0007700, .mma x0), (0xC1007780, .mmaz u0),
      (0xC2007780, .drain u0), (0xC3007780, .achk u0), (0xC4007780, .aload u0), (0xD0007700, .sacc x0), (0xD3007780, .breg u0)] = true ∧
    -- the manual's words of `TOPK`, `KVPACK` and `BPOST`
    decodeTableWord 96 0xD10077804510A4410C000000 = some (.topk { u0 with d := .s 20, a := .s 10, b := .s 16, c := .s 12 }) ∧
    decodeTableWord 96 0xD2007780455084610C000000 = some (.kvpack { u0 with d := .s 21, a := .s 8, b := .s 24, c := .s 12 }) ∧
    decodeTableWord 96 0xD40077804691800000000000 = some (.bpost { u0 with d := .s 26, a := .s 24 }) ∧
    hdr 0xD5007780 = some (.bstat u0) := by decide +kernel

/-- R112: reserved opcodes and `SUB` values, and reserved `TY` values of an opcode, are no instruction. -/
theorem test_decode_reserved :
    ([0x0E007700, 0x24077700, 0x34007700, 0x4C007700, 0x6B007700, 0x73007700, 0x83007700, 0x88007700, 0xA4007780, 0xB4007780, 0xC5007780,
      0xD6007780, 0xFE007700, 0xFF000000, 0x01107700, 0x05207700, 0x10267700, 0x13367700, 0x1A877700, 0x1D667700, 0x30307700, 0x4B907700,
      0x68477700, 0x72207780, 0x84877700, 0x85367700, 0x86307700, 0xB0807780].all (fun h => (hdr h).isNone)) = true := by decide +kernel

/-! ### Values of single instructions -/

/-- A group of 16 strands in full service on core 0, of engagement 0; its handler is at slot 4 and its kernel declares three extended blocks. -/
def base : State :=
  let s := State.reset.withFetchWord 96 0
  { s with launches := s.launches.map (fun l => { l with record := { l.record with hslot := 4 }, kernel := { l.kernel with top := 3 } }) }

/-- The same with another group state. -/
def withG (f : Group → Group) : State := { base with g := f base.g }

/-- One strand is live and holds `v`; the uniform registers hold `u`. -/
def one (v u : Sparse Word) : State := withG (fun g => { g with live := 1, active := 1, v := v, s := u })

/-- What an outcome holds, where it is a next state. -/
def got {α : Type} (o : Result) (f : State → α) : Option α :=
  match o with
  | .next t => some (f t)
  | _ => none

/-- v registers of strand 0 after an instruction. -/
def vs (o : Result) (r n : Nat) : Option (List Word) := got o (fun t => (List.range n).map (fun k => vGet t.g 0 (r + k)))

/-- Uniform registers after it. -/
def ss (o : Result) (r n : Nat) : Option (List Word) := got o (fun t => (List.range n).map (fun k => sGet t.g (r + k)))

/-- `sr.tcause` after it, and the address it left the group at. -/
def tc (o : Result) : Option (Word × DWord) := got o (fun t => (t.g.tcause, t.g.pc))

/-- D = v4, A = v8, B = v9, C = v10. -/
def dab : Fields := { x0 with d := .v 4, a := .v 8, b := .v 9, c := .v 10 }

/-- The example of R132: 0x7F8001FF and 0x0180FF01, wrapping and saturating. -/
theorem test_iadd_bytes :
    vs (exec (.iadd .sat .i8x4 { dab with c := .v 0 }) (one [(8, 0x7F8001FF), (9, 0x0180FF01)] [])) 4 1 = some [0x7F800000] ∧
    vs (exec (.iadd .wrap .i8x4 { dab with c := .v 0 }) (one [(8, 0x7F8001FF), (9, 0x0180FF01)] [])) 4 1 = some [0x80000000] := by
  decide +kernel

/-- R106: the long immediate 0x12345678 is in C, E and `IMM16`. -/
theorem test_iadd_longImmediate :
    vs (exec (.iadd .wrap .n32 { x0 with d := .v 4, a := .v 8, b := .im 0, c := .im 0x12, e := 0x34, imm := 0x5678 }) (one [(8, 1)] [])) 4 1 =
      some [0x12345679] := by decide +kernel

theorem test_isub_wraps :
    vs (exec (.isub .wrap .n32 dab) (one [(8, 0), (9, 1)] [])) 4 1 = some [0xFFFFFFFF] ∧
    vs (exec (.isub .sat .n32 dab) (one [(8, 0), (9, 1)] [])) 4 1 = some [0] := by decide +kernel

/-- −1 times −1: high half 0 when signed, 0xFFFFFFFE when not. -/
theorem test_imul_high :
    vs (exec (.imul .hi .i32 dab) (one [(8, 0xFFFFFFFF), (9, 0xFFFFFFFF)] [])) 4 1 = some [0] ∧
    vs (exec (.imul .hi .n32 dab) (one [(8, 0xFFFFFFFF), (9, 0xFFFFFFFF)] [])) 4 1 = some [0xFFFFFFFE] := by decide +kernel

theorem test_imad_lo : vs (exec (.imad .lo .n32 dab) (one [(8, 5), (9, 7), (10, 3)] [])) 4 1 = some [38] := by decide +kernel

theorem test_imin_signed :
    vs (exec (.imin .i32 dab) (one [(8, 0x80000000), (9, 1)] [])) 4 1 = some [0x80000000] ∧
    vs (exec (.imax .n32 dab) (one [(8, 0x80000000), (9, 1)] [])) 4 1 = some [0x80000000] := by decide +kernel

theorem test_iabs_wraps :
    vs (exec (.iabs .i32 { dab with b := .v 0, c := .v 0 }) (one [(8, 0x80000000)] [])) 4 1 = some [0x80000000] ∧
    vs (exec (.ineg .i32 { dab with b := .v 0, c := .v 0 }) (one [(8, 1)] [])) 4 1 = some [0xFFFFFFFF] := by decide +kernel

/-- R137: a shift count at or above the width is not reduced; a rotate count is. -/
theorem test_shift_counts :
    vs (exec (.shl .n32 dab) (one [(8, 1), (9, 32)] [])) 4 1 = some [0] ∧
    vs (exec (.shr .ari .n32 dab) (one [(8, 0x80000000), (9, 255)] [])) 4 1 = some [0xFFFFFFFF] ∧
    vs (exec (.rot .left .n32 dab) (one [(8, 0x80000001), (9, 33)] [])) 4 1 = some [3] := by decide +kernel

/-- The examples of R138: majority 0xE8 and the multiplexer 0xE4 of 0xF0, 0xCC, 0xAA. -/
theorem test_lop_tri :
    vs (exec (.lop .tri .n32 { dab with e := 0xE8 }) (one [(8, 0xAA), (9, 0xCC), (10, 0xF0)] [])) 4 1 = some [0xE8] ∧
    vs (exec (.lop .tri .n32 { dab with e := 0xE4 }) (one [(8, 0xAA), (9, 0xCC), (10, 0xF0)] [])) 4 1 = some [0xE4] := by decide +kernel

theorem test_bfx_bfi :
    vs (exec (.bfx .sx .n32 dab) (one [(8, 0xABCD1234), (9, 0x0804)] [])) 4 1 = some [0x23] ∧
    vs (exec (.bfi .n32 dab) (one [(8, 0xFF), (9, 0), (10, 0x0408)] [])) 4 1 = some [0xF00] := by decide +kernel

/-- The table of R142. -/
theorem test_bitCounts :
    let s := one [(8, 0x0001F000), (11, 0x00008000)] []
    let x := { dab with b := .v 0, c := .v 0 }
    let y := { x with a := .v 11 }
    vs (exec (.clz .n16x2 y) s) 4 1 = some [0x00100000] ∧ vs (exec (.ffs .n16x2 y) s) 4 1 = some [0x0010000F] ∧
    vs (exec (.popc .n16x2 y) s) 4 1 = some [1] ∧ vs (exec (.brev .n16x2 y) s) 4 1 = some [1] ∧
    vs (exec (.clz .n8x4 x) s) 4 1 = some [0x08070008] ∧ vs (exec (.ffs .n8x4 x) s) 4 1 = some [0x08000408] ∧
    vs (exec (.popc .n8x4 x) s) 4 1 = some [0x00010400] ∧ vs (exec (.brev .n8x4 x) s) 4 1 = some [0x00800F00] := by decide +kernel

/-- R143, R144: a signed comparison into p1, and a selection. -/
theorem test_icmp_sel :
    got (exec (.icmp .lt .i32 { dab with d := .sp 1 }) (one [(8, 0xFFFFFFFF), (9, 0)] [])) (fun t => pGet t.g 0 1) = some true ∧
    got (exec (.icmp .lt .n32 { dab with d := .sp 1 }) (one [(8, 0xFFFFFFFF), (9, 0)] [])) (fun t => pGet t.g 0 1) = some false ∧
    vs (exec (.sel .i32 { dab with c := .sp 1 }) (one [(8, 5), (9, 6)] [])) 4 1 = some [6] := by decide +kernel

theorem test_plop_pmov :
    got (exec (.plop .and { x0 with d := .sp 0, a := .sp 7, b := .sp 7, e := 2 }) (one [] [])) (fun t => pGet t.g 0 0) = some false ∧
    vs (exec (.pmov .get { x0 with d := .v 4 }) (one [] [])) 4 1 = some [0x80] := by decide +kernel

/-- R141: 2^32 − 4 + 3 · 8 carries into the high word. -/
theorem test_lea : vs (exec (.lea .n32 { dab with b := .v 10, c := .v 0, e := 3 }) (one [(8, 0xFFFFFFFC), (9, 7), (10, 3)] [])) 4 2 = some [20, 8] := by
  decide +kernel

/-- R59, R147, R148: the four-register move, and `sr.width`. -/
theorem test_mov :
    vs (exec (.mov .four { x0 with d := .v 4, b := .v 8 }) (one [(8, 1), (9, 2), (10, 3), (11, 4)] [])) 4 4 = some [1, 2, 3, 4] ∧
    vs (exec (.movSpecial .one { x0 with d := .v 4, b := .sp 0x81 }) (one [] [])) 4 1 = some [16] := by decide +kernel

/-- The examples of R152. -/
theorem test_cvt :
    got (exec (.cvt .f32 .i32 { x0 with d := .v 4, a := .v 8, e := 6 }) (one [(8, 0x01000001)] [])) (fun t => (vGet t.g 0 4, t.g.jx)) =
      some (0x4B800000, 0x10) ∧
    vs (exec (.cvt .f32 .i32 { x0 with d := .v 4, a := .v 8, e := 6, md := 3 }) (one [(8, 0x01000001)] [])) 4 1 = some [0x4B800001] := by
  decide +kernel

/-- 1 + 2^−24 to nearest even is 1, inexact; 3 / 2 is exact. -/
theorem test_fadd_fdiv :
    got (exec (.fadd .f32 dab) (one [(8, 0x3F800000), (9, 0x33800000)] [])) (fun t => (vGet t.g 0 4, t.g.jx)) = some (0x3F800000, 0x10) ∧
    vs (exec (.fdiv .f32 dab) (one [(8, 0x40400000), (9, 0x40000000)] [])) 4 1 = some [0x3FC00000] := by decide +kernel

/-- 2 · 3 − 1 with a fused product, in FP16; −(2 · 3) − 1. -/
theorem test_ffma :
    vs (exec (.ffma .ms .f16 dab) (one [(8, 0x4000), (9, 0x4200), (10, 0x3C00)] [])) 4 1 = some [0x4500] ∧
    vs (exec (.ffma .nms .f16 dab) (one [(8, 0x4000), (9, 0x4200), (10, 0x3C00)] [])) 4 1 = some [0xC700] := by decide +kernel

/-- R163 to R166: a NaN loses against a number; −0 is below +0; a NaN is unordered; −0 is class bit 5. -/
theorem test_float_select :
    vs (exec (.fmin .f32 dab) (one [(8, 0x7FC00000), (9, 0x3F800000)] [])) 4 1 = some [0x3F800000] ∧
    vs (exec (.fmax .f32 dab) (one [(8, 0x80000000), (9, 0)] [])) 4 1 = some [0] ∧
    got (exec (.fcmp .uno .f32 { dab with d := .sp 2 }) (one [(8, 0x7FC00000)] [])) (fun t => pGet t.g 0 2) = some true ∧
    got (exec (.fclass .f32 { dab with d := .sp 2 }) (one [(8, 0x80000000), (9, 0x20)] [])) (fun t => pGet t.g 0 2) = some true := by
  decide +kernel

/-- R154: at most one immediate in a comparison, short or long; R174: a test reads no pad. -/
theorem test_float_operands :
    tc (exec (.fcmp .eq .f32 { x0 with d := .sp 0, a := .im 2, b := .im 0, c := .im 0x3F }) base) = some (0x80000002, 0x10030) ∧
    got (exec (.jtest { x0 with d := .sp 0, a := .v 4 }) (withG (fun g => { g with jord := 2, live := 1, active := 1, vPoison := [7] })))
      (fun t => (t.g.tcause, pGet t.g 0 0)) = some (0, false) := by decide +kernel

/-- R167, R168: 2.5 to nearest even is 2; 1/2, √4 and 2^3. -/
theorem test_float_functions :
    let x := { dab with b := .v 0, c := .v 0 }
    vs (exec (.frnd .f32 x) (one [(8, 0x40200000)] [])) 4 1 = some [0x40000000] ∧
    vs (exec (.rcp .f32 x) (one [(8, 0x40000000)] [])) 4 1 = some [0x3F000000] ∧
    vs (exec (.sqrt .f32 x) (one [(8, 0x40800000)] [])) 4 1 = some [0x40000000] ∧
    vs (exec (.exp2 .f32 x) (one [(8, 0x40400000)] [])) 4 1 = some [0x41000000] := by decide +kernel

/-! ### Jets -/

/-- The order of jets is `k`. -/
def ordered (k : BitVec 2) (s : State) : State := setG { s.g with jord := k } s

/-- A group with `JX` clear whose strand 0 holds `v`, at order `k`. -/
def jets (k : BitVec 2) (v : Sparse Word) : State := ordered k (one v [])

/-- The example of R87: 1 / (2, 1, 0) at order 2; the pad stays. -/
theorem test_jet_divide :
    got (exec (.fdiv .f32 { x0 with d := .v 4, a := .im 2, b := .v 4, imm := 0x3F80 })
      (jets 2 [(4, 0x40000000), (5, 0x3F800000), (7, 0x12345678)])) (fun t => ((List.range 4).map (fun k => vGet t.g 0 (4 + k)), t.g.jx)) =
      some ([0x3F000000, 0xBE800000, 0x3E000000, 0x12345678], 0) := by decide +kernel

/-- The examples of R92: tanh at order 3, and the square root of (+0, 1) at order 1. -/
theorem test_jet_functions :
    got (exec (.tanh .f32 { x0 with d := .v 16, a := .v 12 }) (jets 3 [(13, 0x3F800000)]))
      (fun t => ((List.range 4).map (fun k => vGet t.g 0 (16 + k)), t.g.jx)) = some ([0, 0x3F800000, 0, 0xBEAAAAAB], 0x80000) ∧
    got (exec (.sqrt .f32 { x0 with d := .v 8, a := .v 8 }) (jets 1 [(9, 0x3F800000)]))
      (fun t => ((List.range 2).map (fun k => vGet t.g 0 (8 + k)), t.g.jx)) = some ([0, 0x7F800000], 0x40) := by decide +kernel

/-- The example of R175: the cube of (2, 1, 0), its derivative, and one coefficient. -/
theorem test_jet_cube :
    vs (exec (.jseed { x0 with d := .v 4, a := .s 8, b := .im 2, imm := 0x3F80 }) (ordered 2 (one [] [(8, 0x40000000)]))) 4 4 =
      some [0x40000000, 0x3F800000, 0, 0] ∧
    vs (exec (.fmul .f32 { x0 with d := .v 8, a := .v 8, b := .v 4 })
      (jets 2 [(4, 0x40000000), (5, 0x3F800000), (8, 0x40800000), (9, 0x40800000), (10, 0x3F800000)])) 8 4 =
      some [0x41000000, 0x41400000, 0x40C00000, 0] ∧
    vs (exec (.jshift { x0 with d := .v 12, a := .v 8 }) (jets 2 [(8, 0x41000000), (9, 0x41400000), (10, 0x40C00000)])) 12 4 =
      some [0x41400000, 0x41400000, 0, 0] ∧
    vs (exec (.jget { x0 with d := .v 16, a := .v 12, e := 1 }) (jets 2 [(13, 0x41400000)])) 16 1 = some [0x41400000] ∧
    tc (exec (.jget { x0 with d := .v 16, a := .v 12, e := 3 }) (jets 2 [])) = some (0x80000015, 0x10030) ∧
    tc (exec (.jget { x0 with d := .v 13, a := .v 12, e := 1 }) (jets 2 [])) = some (0x80000002, 0x10030) := by decide +kernel

/-- The example of R175: coefficient 1 overflows. -/
theorem test_jet_flags :
    got (exec (.fadd .f32 { x0 with d := .v 22, a := .v 20, b := .v 20 }) (jets 1 [(20, 0x3F800000), (21, 0x7F7FC99E)])) (fun t => t.g.jx) =
      some 0x280 ∧
    got (exec (.jxc { u0 with b := .im 0, imm := 0x80 }) (setG { (jets 1 []).g with jx := 0x280 } (jets 1 []))) (fun t => t.g.jx) = some 0x200 ∧
    got (exec (.jtest { x0 with d := .sp 1, a := .v 22 }) (jets 1 [(23, 0x7F800000)])) (fun t => pGet t.g 0 1) = some true ∧
    vs (exec (.jset { x0 with d := .v 4, b := .s 0, e := 1 }) (jets 1 [])) 4 1 = some [0] ∧
    ss (exec (.jxr { u0 with d := .s 10 }) (setG { base.g with jx := 0x280 } base)) 10 1 = some [0x280] ∧
    got (exec (.jord { u0 with b := .im 0, imm := 3 }) base) (fun t => t.g.jord) = some 3 := by decide +kernel

/-! ### Control flow and cross-strand operations -/

/-- The example of R184: `BRD` with p1 in strands 0 to 5, `JOIN`, `EXIT` of strands 0 and 1, the ballot and `RFL`. -/
theorem test_divergence :
    let slot := fun (k : Nat) => (0x10000 : DWord) + BitVec.ofNat 64 (12 * k)
    let join : StackEntry := ⟨.join, slot 9, 0xFFFF, 0, 0⟩
    let path : StackEntry := ⟨.path, slot 5, 0x3F, 0, 0⟩
    got (exec (.brd { x0 with g1 := ⟨false, 1⟩, c := .v 6, imm := 2 }) (withG (fun g => { g with pc := slot 2, p := [(1, 0x3F)] })))
      (fun t => (t.g.pc, t.g.active, t.g.stack)) = some (slot 3, 0xFFC0, [path, join]) ∧
    got (exec (.join x0) (withG (fun g => { g with pc := slot 4, active := 0xFFC0, stack := [path, join] })))
      (fun t => (t.g.pc, t.g.active, t.g.stack)) = some (slot 5, 0x3F, [join]) ∧
    got (exec (.exit { x0 with g1 := ⟨false, 2⟩ }) (withG (fun g => { g with pc := slot 7, active := 0x3F, p := [(2, 3)], stack := [join] })))
      (fun t => (t.g.pc, t.g.active, t.g.live)) = some (slot 8, 0x3C, 0xFFFC) ∧
    ss (exec (.vote .ballot { x0 with d := .s 10, a := .sp 7 }) (withG (fun g => { g with live := 0xFFFC, active := 0xFFFC }))) 10 2 =
      some [0xFFFC, 0] ∧
    got (exec (.rfl .chk .n32 { x0 with d := .s 12, a := .v 5, c := .sp 9 })
      (withG (fun g => { g with live := 0xFFFC, active := 0xFFFC, v := [(2 * 256 + 5, 100), (9 * 256 + 5, 200)] })))
      (fun t => (sGet t.g 12, qGet t.g 1)) = some (100, true) := by decide +kernel

/-- R98, R110, R177 to R181: a direct branch counts slots from the next one; an indirect one needs a slot address; `CALL` leaves the
return address in s62 and s63. -/
theorem test_branches :
    got (exec (.bra { x0 with imm := 0xFFFF, e := 0xFF }) base) (fun t => t.g.pc) = some 0x10000 ∧
    got (exec (.callDirect { x0 with imm := 2 }) base) (fun t => (t.g.pc, sGet t.g 62, sGet t.g 63)) = some (0x10024, 0x1000C, 0) ∧
    got (exec (.ret { x0 with a := .s 4 }) (one [] [(4, 0x10018)])) (fun t => t.g.pc) = some 0x10018 ∧
    got (exec (.brx { x0 with a := .s 4 }) (one [] [(4, 0x10004)])) (fun t => (t.g.tcause, t.g.taddr)) = some (0x8000000B, 0x10004) ∧
    got (exec (.callIndirect { x0 with a := .s 62 }) (one [] [(62, 0x1003C)])) (fun t => (t.g.pc, sGet t.g 62)) = some (0x1003C, 0x1000C) ∧
    got (exec (.cancelchk { x0 with imm := 5 }) base) (fun t => t.g.pc) = some 0x1000C := by decide +kernel

/-- R188 to R190: a shuffle reads strands that do not execute; up keeps the strands below the count. -/
theorem test_cross :
    let s := withG (fun g => { g with active := 6, v := [(8, 50), (256 + 8, 51), (512 + 8, 52), (768 + 8, 53)] })
    got (exec (.shfl .up .n32 { x0 with d := .v 4, a := .v 8, b := .im 0, imm := 2 }) s) (fun t => (vGet t.g 1 4, vGet t.g 2 4, vGet t.g 3 4)) =
      some (51, 50, 0) ∧
    got (exec (.shfl .xor .n32 { x0 with d := .v 4, a := .v 8, b := .im 0, imm := 1 }) s) (fun t => (vGet t.g 1 4, vGet t.g 2 4)) = some (50, 53) ∧
    got (exec (.vote .all { x0 with d := .sp 0, a := .sp 1 }) s) (fun t => pGet t.g 1 0) = some false ∧
    got (exec (.vote .same { x0 with d := .sp 8, a := .v 8 }) s) (fun t => qGet t.g 0) = some false := by decide +kernel

/-- R50 to R52, R57, R114, R185, R191: group state. -/
theorem test_groupState :
    got (exec (.fmt { u0 with b := .s 4 }) (one [] [(4, 1), (5, 2)])) (fun t => t.g.fmt) = some 0x200000001 ∧
    got (exec (.role { u0 with b := .im 1, imm := 2 }) base) (fun t => t.g.role) = some 2 ∧
    got (exec (.yield x0) base) (fun t => t.g.yielded) = some true ∧
    got (exec (.xblkAcq { u0 with b := .im 0, imm := 1 }) base) (fun t => t.g.xblk) = some 1 ∧
    got (exec (.xblkRel u0) (withG (fun g => { g with xblk := 1, v := [(10, 1), (70, 2)] }))) (fun t => (t.g.xblk, t.g.v)) = some (0, [(10, 1)]) ∧
    got (exec (.nop x0) base) (fun t => t.g) = some { base.g with pc := 0x1000C } := by decide +kernel

/-! ### Traps -/

/-- The example of R202: `TRAP 7` by some strands enters the handler with every live strand; `TRESUME` returns. -/
theorem test_trap :
    got (exec (.trap { x0 with g1 := ⟨false, 3⟩, imm := 7 }) (withG (fun g => { g with p := [(3, 0x210)], active := 0xFF })))
      (fun t => (tc (.next t), t.g.taddr, t.g.tpc, t.g.active)) = some (some (0x80000030, 0x10030), 7, 0x10000, 0xFFFF) ∧
    got (exec (.tresume { u0 with a := .s 20 }) (withG (fun g => { g with tcause := 0x80000030, frame := some ⟨0xFF, 5, 1, [], 0, 0⟩, s := [(20, 0x10084)] })))
      (fun t => (tc (.next t), t.g.active, t.g.fmt, t.g.jord, t.g.frame.isNone)) =
      some (some (0x30, 0x10084), 0xFF, 5, 1, true) ∧
    tc (exec (.tresume { u0 with g1 := ⟨true, 7⟩ }) base) = some (0x80000004, 0x10030) := by decide +kernel

/-- R199: a trap in the handler ends the team, with a record for the host. -/
theorem test_trap_in_handler :
    got (exec (.trap x0) (withG (fun g => { g with tcause := 0x80000030, frame := some ⟨1, 0, 0, [], 0, 0⟩ })))
      (fun t => (t.out.length, t.teams, (allGroups t).all isOver)) = some (1, [], true) := by decide +kernel

/-- R45, R113: an operand outside the registers the group holds; an execute in a slot that is none; a divergence past the stack. -/
theorem test_operand_traps :
    tc (exec (.iadd .wrap .i32 { x0 with d := .v 64 }) base) = some (0x80000002, 0x10030) ∧
    tc (exec (.mov .two { x0 with d := .v 5 }) base) = some (0x80000002, 0x10030) ∧
    tc (exec .illegalInstruction base) = some (0x80000001, 0x10030) ∧ tc (exec .executeDataTrap base) = some (0x80000003, 0x10030) ∧
    tc (exec (.fadd .f16 x0) (jets 1 [])) = some (0x80000015, 0x10030) := by decide +kernel

/-! ### Memory -/

/-- One strand whose core translates VA 0x20000 to 0x29FFF's page at PA 0x20000, readable and writable, and holds `v`, `u`, with
`bs` in memory at PA 0x20000. -/
def mapped (v u : Sparse Word) (bs : List Byte) : State :=
  let leaf : DWord := BitVec.ofNat 64 (2 ^ 54 + 2 ^ 53 + 0x20000 + 0x1B)
  modCore 0 (fun k => { k with tlb := ⟨0, 2, 16, leaf, true⟩ :: k.tlb }) (memWrite 0x20000 bs (one v u))

/-- The address pair in s8 and s9: 0x20000. -/
def at2 : Sparse Word := [(8, 0x20000)]

/-- R224, R226: little-endian, and the sign extension of `LD.q8`. -/
theorem test_ld :
    vs (exec (.ld .f32 { x0 with d := .v 4, a := .s 8, b := .im 0, e := 1 }) (mapped [] at2 (leBytes 8 0x1122334455667788))) 4 2 =
      some [0x55667788, 0x11223344] ∧
    vs (exec (.ld .q8 { x0 with d := .v 4, a := .s 8, b := .im 0, imm := 1 }) (mapped [] at2 [0, 0x80])) 4 1 = some [0xFFFFFF80] ∧
    vs (exec (.ld .n8 { x0 with d := .v 4, a := .s 8, b := .im 0, imm := 1 }) (mapped [] at2 [0, 0x80])) 4 1 = some [0x80] := by decide +kernel

/-- R209, R210, R227: a store stays in the L1 until a release; `.byp` reaches the slice. -/
theorem test_st :
    got (exec (.st .n32 { x0 with a := .s 8, b := .im 0, c := .v 4 }) (mapped [(4, 0xAABBCCDD)] at2 []))
      (fun t => (memRead t 0x20000 4, (findLine (coreAt t 0) 0x800 0).map (fun l => (l.dirty, Sparse.get 0 0 l.data)))) =
      some ([0, 0, 0, 0], some (1, 0xAABBCCDD)) ∧
    got (exec (.st .n32 { x0 with ch := 3, a := .s 8, b := .im 0, c := .v 4 }) (mapped [(4, 0xAABBCCDD)] at2 []))
      (fun t => (memRead t 0x20000 4, wtsOf t 0x800)) = some ([0xDD, 0xCC, 0xBB, 0xAA], 1) := by decide +kernel

/-- R219, R225: a misaligned access, a page without the permission, a page that is not mapped. -/
theorem test_access_traps :
    got (exec (.ld .f32 { x0 with d := .v 4, a := .s 8, b := .im 0, imm := 2 }) (mapped [] at2 [])) (fun t => (t.g.tcause, t.g.taddr)) =
      some (0x8000000B, 0x20002) ∧
    got (exec (.st .f32 { x0 with a := .s 8, b := .im 0, c := .v 4 }) (one [] [(8, 0x10000)])) (fun t => (t.g.tcause, t.g.taddr)) =
      some (0x80000108, 0x10000) ∧
    got (exec (.ld .f32 { x0 with d := .v 4, a := .s 8, b := .im 0 }) (one [] [(8, 0x30000)])) (fun t => (t.g.tcause, t.g.taddr)) =
      some (0x80000108, 0x30000) ∧
    got (exec (.ld .f32 { x0 with d := .v 4, a := .s 8, b := .im 0 }) (one [] [(9, 0x01000000)])) (fun t => t.g.tcause) = some 0x80000308 := by
  decide +kernel

/-- R231 to R234: `ATOM.add` returns the old value; `RED` is posted and performs at its slice; `ATOM.cas` that fails. -/
theorem test_atomics :
    got (exec (.atom .add .i32 { x0 with d := .v 4, a := .s 8, b := .im 0, c := .v 5 }) (mapped [(5, 3)] at2 [7]))
      (fun t => (vGet t.g 0 4, memRead t 0x20000 4)) = some (7, [10, 0, 0, 0]) ∧
    got (exec (.atom .cas .n32 { x0 with d := .v 4, a := .s 8, b := .im 0, c := .v 5 }) (mapped [(4, 6), (5, 3)] at2 [7]))
      (fun t => (vGet t.g 0 4, memRead t 0x20000 4)) = some (7, [7, 0, 0, 0]) ∧
    got (exec (.red .max .i32 { x0 with a := .s 8, b := .im 0, c := .v 5 }) (mapped [(5, 9)] at2 [7])) (fun t => (t.pending.length, memRead t 0x20000 4)) =
      some (1, [7, 0, 0, 0]) := by decide +kernel

/-- The example of R236: 2^24, 1 and −2^24 leave 2^149 units and count 3, and read as 1. -/
theorem test_exactSum :
    let cell := [0x4B800000, 0x3F800000, 0xCB800000].foldl cellAdd (List.replicate 64 0)
    nth 0 cell 18 = 0x20 ∧ nth 0 cell 48 = 3 ∧ (cell.map BitVec.toNat).sum = 0x23 ∧ cellRead cell = 0x3F800000 := by decide +kernel

/-- R238 to R243: adds to a core counter, the barrier of two, a wait, and the release of a fence. -/
theorem test_counters :
    got (exec (.cadd { u0 with d := .sp 0x22, b := .im 0, imm := 5 }) base) (fun t => (ctrAt t 0 2).val) = some 5 ∧
    got (exec (.bar { u0 with d := .sp 8, a := .sp 0x21, b := .im 0, imm := 2, e := 0xC0 }) base) (fun t => ((ctrAt t 0 1).val, t.g.pc)) =
      some (1, 0x10000) ∧
    got (exec (.cwait { u0 with d := .sp 8, a := .sp 0x21, b := .im 0 }) (withG (fun g => { g with q := 1 }))) (fun t => (qGet t.g 0, t.g.pc)) =
      some (false, 0x1000C) ∧
    got (exec (.fence { x0 with e := 0xC0, md := 2 }) base) (fun t => t.g.status) = some (.releasing 2 true) := by decide +kernel

/-! ### States and operands that meet the hypotheses of the statements -/

/-- Every instruction of a list is well formed. -/
def wf (l : List Instr) : Bool := l.all fieldsLegal

/-- The hypotheses of `IntegerArithmetic`, at the highest register and with an immediate, and for 64-bit types. -/
theorem witness_IntegerArithmetic :
    let x := { x0 with d := .v 63, a := .v 63, b := .im 0, imm := 0xFFFF }
    let y := { x0 with d := .v 62, a := .v 62, b := .v 62 }
    let z := { u0 with d := .s 63, a := .s 0 }
    okDAB .i32 base.g x = true ∧ readable base.g x (srcAB .i32 x) ∧ okDAB .n64 base.g y = true ∧ readable base.g y (srcAB .n64 y) ∧
    okDA .i8x4 base.g z = true ∧ readable base.g z [(z.a, 1)] ∧
    wf [.iadd .wrap .i32 x, .iadd .sat .i32 x, .isub .wrap .i32 x, .isub .sat .n64 y, .imul .lo .i32 x, .imul .hi .n64 y, .imin .i32 x,
      .imax .n64 y, .ineg .i8x4 z, .iabs .i8x4 z] = true := by unfold readable; decide +kernel

theorem witness_IntegerWide :
    let x := { x0 with d := .v 62, a := .v 0, b := .v 1 }
    let y := { x0 with d := .v 62, a := .v 0, b := .v 1, c := .im 0, imm := 0x8000 }
    let z := { x0 with d := .v 4, a := .s 62, b := .im 1, imm := 0xFFFF, e := 7 }
    wf [.imul .long .i32 x, .imad .long .n32 y, .imad .hi .i32 y, .imad .lo .i32 y, .lea .n32 z] = true ∧
    (formDAB x && regsOk base.g [(x.d, 2), (x.a, 1), (x.b, 1)]) = true ∧ readable base.g x [(x.a, 1), (x.b, 1)] ∧
    (formDABC y && regsOk base.g [(y.d, 2), (y.a, 1), (y.b, 1), (y.c, 2)]) = true ∧ readable base.g y [(y.a, 1), (y.b, 1), (y.c, 2)] ∧
    (formDABC y && regsOk base.g [(y.d, 1), (y.a, 1), (y.b, 1), (y.c, 1)]) = true ∧
    (!isLong z && isDst z z.d && (isS z.a || (isV z.a && !z.u)) && isSrc z z.b && regsOk base.g [(z.d, 2), (z.a, 2), (z.b, 1)]) = true ∧
    readable base.g z [(z.a, 2), (z.b, 1)] := by unfold readable; decide +kernel

theorem witness_ShiftLogic :
    let x := { x0 with d := .v 62, a := .v 0, b := .v 61 }
    let y := { x0 with d := .v 62, a := .v 0, b := .v 2, c := .v 4, e := 0xE8 }
    (formDAB x && regsOk base.g [(x.d, 2), (x.a, 2), (x.b, 1)]) = true ∧ readable base.g x [(x.a, 2), (x.b, 1)] ∧
    okDAB .n32 base.g x = true ∧ readable base.g x (srcAB .n32 x) ∧ okDA .n64 base.g { x with b := .v 0 } = true ∧
    (formDABC y && regsOk base.g [(y.d, 2), (y.a, 2), (y.b, 2), (y.c, 2)]) = true ∧ readable base.g y [(y.a, 2), (y.b, 2), (y.c, 2)] ∧
    wf [.shl .n64 x, .shr .log .n64 x, .shr .ari .n64 x, .rot .left .n64 x, .rot .right .n64 x, .lop .and .n32 x, .lop .or .n32 x,
      .lop .xor .n32 x, .lop .andn .n32 x, .lop .orn .n32 x, .lop .xnor .n32 x, .lop .not .n64 { x with b := .v 0 }, .lop .tri .n64 y] = true := by
  unfold readable; decide +kernel

theorem witness_BitOperations :
    let x := { x0 with d := .v 62, a := .v 0, b := .v 61 }
    let y := { x0 with d := .v 62, a := .v 0, b := .v 2, c := .v 61 }
    let z := { x0 with d := .v 63, a := .v 63 }
    (formDAB x && regsOk base.g [(x.d, 2), (x.a, 2), (x.b, 1)]) = true ∧ readable base.g x [(x.a, 2), (x.b, 1)] ∧
    (formDABC y && regsOk base.g [(y.d, 2), (y.a, 2), (y.b, 2), (y.c, 1)]) = true ∧ readable base.g y [(y.a, 2), (y.b, 2), (y.c, 1)] ∧
    okDA .n8x4 base.g z = true ∧ readable base.g z [(z.a, 1)] ∧
    wf [.bfx .zx .n64 x, .bfx .sx .n64 x, .bfi .n64 y, .clz .n8x4 z, .ffs .n8x4 z, .popc .n8x4 z, .brev .n8x4 z] = true := by
  unfold readable; decide +kernel

theorem witness_ComparePredicates :
    let x := { x0 with d := .sp 7, a := .v 62, b := .im 0 }
    let y := { x0 with d := .v 62, a := .v 0, b := .v 2, c := .sp 15, e := 1 }
    let z := { x0 with a := .v 63, b := .im 1, imm := 0xFFFF }
    (isPDst x x.d && isSrc x x.a && isSrcB x && (isLong x || oneImm [x.a, x.b]) && regsOk base.g [(x.a, 2), (x.b, 2)]) = true ∧
    readable base.g x (srcAB .i64 x) ∧ readable base.g y [(y.a, 2), (y.b, 2)] ∧ readable base.g z [(z.a, 1), (z.b, 1)] ∧
    (!isLong y && isDst y y.d && isSrc y y.a && isSrc y y.b && oneImm [y.a, y.b] && (isQ y.c || (isP y.c && !y.u)) &&
      regsOk base.g [(y.d, 2), (y.a, 2), (y.b, 2)]) = true ∧
    (let w := { u0 with d := .sp 15, a := .sp 8, b := .sp 14 }; (isPDst w w.d && isPSrc w w.a && isPSrc w w.b) = true ∧ wf [.plop .xor w] = true) ∧
    (isDst x0 (.v 63) && regOk base.g (.v 63) 1) = true ∧
    (!isLong z && (isS z.a || (isV z.a && !z.u)) && isSrc z z.b && regsOk base.g [(z.a, 1), (z.b, 1)]) = true ∧
    wf [.icmp .lt .i64 x, .sel .i64 y, .pmov .get { x0 with d := .v 63 }, .pmov .set z] = true := by unfold readable; decide +kernel

theorem witness_Moves :
    let x := { x0 with d := .v 60, b := .v 0 }
    let y := { u0 with d := .s 62, b := .sp 0x8F }
    let f := { u0 with d := .sp 0x8B, b := .s 62 }
    let r := { u0 with d := .sp 0x8D, b := .im 1, imm := 17 }
    let h := setG { base.g with tcause := 0x80000030, frame := some ⟨1, 0, 0, [], 0, 0⟩ } base
    (isDst x x.d && (isS x.b || (isV x.b && isV x.d && !x.u)) && regsOk base.g [(x.d, 4), (x.b, 4)]) = true ∧ readable base.g x [(x.b, 4)] ∧
    opSpecialReg y.d = false ∧ (isDst y y.d && decide (specialOf y.b ≤ 0x12) && specialWide (specialOf y.b) &&
      !(y.u && specialOf y.b == 0) && regOk base.g y.d 2) = true ∧
    (f.u && isS f.b && regOk base.g f.b 2) = true ∧
    (∃ fr, h.g.frame = some fr ∧ inHandler h.g = true ∧ (r.u && (isS r.b || isShort r.b || isLong r) && isSrcB r && regOk h.g r.b 1) = true) ∧
    inHandler base.g = false ∧ wf [.mov .four x, .movSpecial .two y, .movSpecial .two f, .movSpecial .one r] = true := by
  unfold readable
  decide +kernel

theorem witness_Jumps :
    let n := { x0 with g1 := ⟨true, 7⟩ }
    let team := fun (b : Bool) => { base with teams := base.teams.map (fun t => { t with cancel := b }) }
    let a := { x0 with a := .s 62 }
    wf [.bra { x0 with e := 0x80, imm := 0xFFFF }, .callDirect x0, .cancelchk x0, .brx a, .callIndirect a, .ret a, .bra n] = true ∧
    holdsAll base.g x0 = true ∧ holdsAll base.g n = false ∧
    (∃ tm, findTeam (team false) base.g.tid = some tm ∧ tm.cancel = false) ∧ (∃ tm, findTeam (team true) base.g.tid = some tm ∧ tm.cancel = true) ∧
    ((sGet (one [] [(62, 0x1000C)]).g 63 ++ sGet (one [] [(62, 0x1000C)]).g 62).toNat : Int) - base.g.base.toNat = 12 := by
  decide +kernel

theorem witness_Reconvergence :
    let x := { x0 with g1 := ⟨false, 1⟩, c := .v 6, imm := 2 }
    let s := fun (m : DWord) (n : Nat) => withG (fun g => { g with p := [(1, m)], stack := List.replicate n ⟨.join, 0x10000, 0xFFFF, 0, 0⟩ })
    wf [.brd x, .join x0, .exit x0, .exit u0] = true ∧ base.g.active ≠ 0 ∧ activeList base.g = List.range 16 ∧
    (activeList base.g).filter (holdsV (s 0x3F 0).g x) = List.range 6 ∧ (activeList base.g).filter (holdsV (s 0 15).g x) = [] ∧
    (activeList base.g).filter (holdsV (s 0xFFFF 16).g x) = List.range 16 ∧
    (s 0 15).g.stack.length = 15 ∧ (s 1 14).g.stack.length = 14 ∧ (s 0 16).g.stack.length = 16 ∧ execList base.g x0 = List.range 16 := by
  decide +kernel

theorem witness_Reconvergence_entries :
    let d : StackEntry := ⟨.path, 0x10000, 0x10000, 0, 0⟩
    let e : StackEntry := ⟨.join, 0x1000C, 0xFFFF, 0, 0⟩
    d.mask &&& base.g.live = 0 ∧ e.mask &&& base.g.live ≠ 0 ∧ (withG (fun g => { g with stack := [d, e] })).g.stack = [d] ++ e :: [] := by
  decide +kernel

theorem witness_GroupState :
    let q := { u0 with b := .im 0, imm := 1 }
    wf [.nop x0, .yield x0, .fmt { u0 with b := .s 62 }, .role { u0 with b := .im 1, imm := 3 }, .xblkRel u0, .xblkAcq q] = true ∧
    ((isS q.b || isShort q.b) && !isLong q && regOk base.g q.b 1) = true ∧ badBlocks base 0 = true ∧ badBlocks base 3 = false ∧ badBlocks base 4 = true ∧
    (∀ g ∈ onLane base (coreNo base.g) base.g.lane, blockWait g = none) ∧ 3 * unitsPerBlock base.g ≤ freeUnits base 0 0 ∧
    holdsQ base.g q = true ∧ holdsQ base.g { q with g1 := ⟨true, 7⟩ } = false ∧
    (let s := { base with others := [{ base.g with gid := 3, width := .w64 }] }; freeUnits s 0 0 = 3 ∧
      (let t := { s with others := s.others ++ [{ base.g with gid := 4, xblk := 1 }] }; freeUnits t (coreNo t.g) t.g.lane < 3 * unitsPerBlock t.g)) := by
  decide +kernel

theorem witness_CrossStrand :
    let x := { x0 with d := .v 62, a := .v 62, b := .v 0 }
    let i := { x with b := .im 0, imm := 0x8000 }
    let v := { x0 with d := .sp 15, a := .sp 7 }
    let b := { x0 with d := .v 62, a := .sp 8 }
    let r := { x0 with d := .s 62, a := .v 62, c := .sp 15 }
    (isV x.d && isV x.a && !isLong x && isSrc x x.b && regsOk base.g [(x.d, 2), (x.a, 2), (x.b, 1)]) = true ∧ base.g.vPoison = [] ∧
    (isV i.d && isV i.a && !isLong i && (isS i.b || isShort i.b) && regsOk base.g [(i.d, 2), (i.a, 2), (i.b, 1)]) = true ∧
    ((isP v.a || isQ v.a) && (isP v.d || isQ v.d)) = true ∧ ((isP b.a || isQ b.a) && (isV b.d || isS b.d) && regOk base.g b.d 2) = true ∧
    (isV x.a && regOk base.g x.a 1) = true ∧ (isV r.a && (isV r.d || isS r.d) && regsOk base.g [(r.d, 2), (r.a, 2)]) = true ∧ isQ r.c = true ∧
    (∀ i ∈ execList base.g r, badReg base.g i (r.a, 2) = false) ∧ 0 ∈ execList base.g r ∧ execList base.g { r with g1 := ⟨true, 7⟩ } = [] ∧
    wf [.shfl .idx .n64 x, .shfl .up .n64 i, .shfl .down .n64 i, .shfl .xor .n64 i, .vote .all v, .vote .any v, .vote .ballot b,
      .vote .same { x0 with d := .sp 15, a := .v 62 }, .rfl .plain .n64 { r with c := .v 0 }, .rfl .chk .n64 r] = true := by decide +kernel

theorem witness_TrapReturn :
    let n := { x0 with g1 := ⟨true, 7⟩ }
    let h := withG (fun g => { g with tcause := 0x80000030, frame := some ⟨1, 0, 0, [], 0, 0⟩, s := [(62, 0x1000C)] })
    wf [.trap { x0 with imm := 0xFFFF }, .tresume { u0 with a := .s 62 }] = true ∧ holdsAny base.g x0 = true ∧ holdsAny base.g n = false ∧
    inHandler base.g = false ∧ inHandler h.g = true ∧ (∃ f, h.g.frame = some f ∧ f.mask &&& h.g.live ≠ 0) ∧ h.g.stack = [] ∧
    (sGet h.g 63 ++ sGet h.g 62).toNat - h.g.base.toNat = 12 ∧ (withG (fun g => { g with stack := [⟨.join, 0, 0, 0, 0⟩] })).g.stack ≠ [] := by
  decide +kernel

theorem witness_TrapEntry :
    let t : Trap := ⟨0x0B, 0, none, 0⟩
    handlerOf base base.g = some 0x10030 ∧ inHandler base.g = false ∧ terminates t.cause = false ∧ t.cause < 256 ∧ t.sub < 256 ∧
    kvStop base base.g t = false ∧ (∃ tm, findTeam base base.g.tid = some tm) ∧ terminates 0x0A = true ∧
    base.g.stopping = false ∧ (let s := { withG (fun g => { g with stopping := true, midway := true }) with
        others := [{ base.g with gid := 3, stopping := true, midway := true }] }
      s.g.stopping = true ∧ s.g.tid ≠ 0 ∧ (findGroup (takeTrap t s) s.g.gid).any (fun g => g.tid == s.g.tid) = true) ∧
    handlerOf (State.reset.withFetchWord 96 0) base.g = none ∧ inHandler (withG (fun g => { g with tcause := 0x80000030 })).g = true := by
  and_intros <;> first | exact ⟨_, rfl⟩ | decide +kernel

theorem witness_StrandTrap :
    let x := { x0 with d := .v 63, a := .v 8, b := .v 9 }
    let s := withG (fun g => { g with vPoison := [256 * 15 + 9] })
    wf [.iadd .sat .i32 x] = true ∧ okDAB .i32 s.g x = true ∧ 15 ∈ execList s.g x ∧ (∃ o ∈ srcAB .i32 x, badReg s.g 15 o = true) ∧
    ∀ i ∈ execList s.g x, i < 15 → ∀ o ∈ srcAB .i32 x, badReg s.g i o = false := by decide +kernel

theorem witness_CheckOrder :
    let v := { x0 with d := .v 64 }
    okDAB .i32 base.g v = false ∧ okDA .i32 base.g v = false ∧ okF2 .f32 v base.g = false ∧ isS v.b = false ∧ isP v.d = false ∧ isQ v.d = false ∧
    (∀ k, v.a = .s k → k.toNat % 2 ≠ 0 ∨ 63 ≤ k.toNat) ∧ okF2 .f16 x0 (jets 1 []).g = true ∧ okF2 .f32 x0 base.g = true ∧
    (∃ f : DWord, fmtBad f = true) ∧
    (let l := { x0 with a := .s 8, b := .im 0 }
     let s := one [] [(8, 1), (9, 0x01000000)]
     memStrands s.g l = 0 :: [] ∧ relaxedOk l true (memRegs .f32 l) 0 s ∧ (memAddr s.g l 0).toNat / 2 ^ 56 = 1 ∧
     (memAddr (one [] [(8, 1)]).g l 0).toNat / 2 ^ 56 = 0 ∧ (memAddr (one [] [(8, 1)]).g l 0).toNat % memBytes .f32 l ≠ 0) := by
  unfold relaxedOk readable
  and_intros <;> first | (intro k h; simp [x0] at h) | decide +kernel

theorem witness_FloatValues :
    expField fp32 0x7F7FFFFF ≠ 2 ^ fp32.ebits - 1 ∧ expField fp16 1 ≠ 2 ^ fp16.ebits - 1 ∧ (1 : Nat) ≠ 0 ∧
    0xFF800000 < 2 ^ (fp32.p + fp32.ebits) ∧ isNaN fp32 0xFF800000 = false ∧ 0xFFFF < 2 ^ (bf16.p + bf16.ebits) ∧ isNaN bf16 0xFF80 = false := by
  decide +kernel

/-- A number for each clause of rounding: too big by its exponent and by rounding up, in the normal range, and below it rounding to zero,
to a subnormal and up to the smallest normal number. -/
theorem witness_FloatValues_round :
    ((2 : Rat) ^ (200 : Int) ≤ ((1 : Nat) : Rat) / (1 : Nat) * (2 : Rat) ^ (200 : Int) ∧
      ((1 : Nat) : Rat) / (1 : Nat) * (2 : Rat) ^ (200 : Int) < (2 : Rat) ^ (200 + 1 : Int) ∧ fp32.emax < 200) ∧
    ((2 : Rat) ^ (127 : Int) ≤ ((2 ^ 25 - 1 : Nat) : Rat) / (1 : Nat) * (2 : Rat) ^ (103 : Int) ∧
      ((2 ^ 25 - 1 : Nat) : Rat) / (1 : Nat) * (2 : Rat) ^ (103 : Int) < (2 : Rat) ^ (127 + 1 : Int)) ∧
    ((2 : Rat) ^ (1 : Int) ≤ ((3 : Nat) : Rat) / (1 : Nat) * (2 : Rat) ^ (0 : Int) ∧
      ((3 : Nat) : Rat) / (1 : Nat) * (2 : Rat) ^ (0 : Int) < (2 : Rat) ^ (1 + 1 : Int)) := by
  norm_num [show fp32.emax = 127 from rfl]

theorem witness_FloatValues_pick :
    (roundAt 0 false (2 ^ 25 - 1) 1 103 (127 - 23)).1 = 2 * 2 ^ 23 ∧ (roundAt 0 false 3 1 0 (1 - 23)).1 = 3 * 2 ^ 22 ∧
    (roundAt 0 false 1 1 (-200) (fp32.emin - 23)).1 = 0 ∧ (roundAt 0 false 1 1 (-149) (fp32.emin - 23)).1 = 1 ∧
    (roundAt 0 false (2 ^ 25 - 1) 1 (fp32.emin - 25) (fp32.emin - 23)).1 = 2 ^ 23 := by decide +kernel

theorem witness_FloatArithmetic :
    let x := { x0 with d := .v 63, a := .v 63, b := .im 2, imm := 0x3F80 }
    let y := { x0 with d := .v 60, a := .v 60, b := .v 0, md := 4 }
    let z := { y with c := .v 56 }
    let s := jets 3 []
    orderAt .f16 base.g x = 0 ∧ orderFmtOk .f16 base.g true ∧ okF2 .f16 x base.g = true ∧ readable base.g x [fReads 0 x.a, fReads 0 x.b] ∧
    (formDABC z && regsOk base.g [fRegs 0 z.d, fRegs 0 z.a, fRegs 0 z.b, fRegs 0 z.c]) = true ∧
    y.u = false ∧ s.g.jord ≠ 0 ∧ fmtBad s.g.fmt = false ∧ okF2 .f32 y s.g = true ∧ readable s.g y [fReads 3 y.a, fReads 3 y.b] ∧
    (formDABC z && regsOk s.g [fRegs 3 z.d, fRegs 3 z.a, fRegs 3 z.b, fRegs 3 z.c]) = true ∧ readable s.g z [fReads 3 z.a, fReads 3 z.b, fReads 3 z.c] ∧ readable base.g z [fReads 0 z.a, fReads 0 z.b, fReads 0 z.c] ∧
    wf [.fadd .f16 x, .fsub .bf16x2 x, .fmul .f16x2 x, .fdiv .bf16 x, .ffma .ms .f16 z, .fadd .f32 y, .fsub .f32 y, .fmul .f32 y, .fdiv .f32 y,
      .ffma .nms .f32 z] = true := by unfold readable orderFmtOk; decide +kernel

theorem witness_FloatSelectCompare :
    let x := { x0 with d := .v 63, a := .v 63, b := .v 0 }
    let p := { x0 with d := .sp 7, a := .v 60, b := .v 0 }
    let y := { x0 with d := .v 60, a := .v 60, b := .v 0 }
    let s := jets 3 []
    orderAt .f16x2 base.g x = 0 ∧ orderFmtOk .f16x2 base.g false ∧ okF1 .f16x2 x base.g = true ∧ okF2 .f16x2 x base.g = true ∧
    readable base.g x [fReads 0 x.a, fReads 0 x.b] ∧ readable base.g x [fReads 0 x.a] ∧
    (isPDst p p.d && isSrc p p.a && isSrcB p && oneImm [p.a, p.b]) = true ∧ regsOk s.g [fRegs 3 p.a, fRegs 3 p.b] = true ∧
    regsOk s.g [fRegs 3 p.a, (p.b, 1)] = true ∧ readable s.g p [fRegs 0 p.a, fRegs 0 p.b] ∧ readable s.g p [fRegs 0 p.a, (p.b, 1)] ∧
    y.u = false ∧ s.g.jord ≠ 0 ∧ okF1 .f32 y s.g = true ∧ okF2 .f32 y s.g = true ∧ readable s.g y [fReads 3 y.a, fReads 3 y.b] ∧ readable s.g y [fReads 3 y.a] ∧
    wf [.fneg .f16x2 { x with b := .v 0 }, .fabs .f16x2 x, .fmin .f16x2 x, .fmax .f32 y, .fcmp .uno .f32 p, .fclass .f32 p] = true := by
  unfold readable orderFmtOk; decide +kernel

theorem witness_FloatFunctions :
    let x := { x0 with d := .v 60, a := .v 60 }
    let s := jets 3 []
    orderFmtOk .f32 s.g true ∧ okF1 .f32 x s.g = true ∧ readable s.g x [fReads 3 x.a] ∧ readable s.g x [fReads 0 x.a] ∧ orderAt .f32 s.g x ≠ 0 ∧
    orderFmtOk .f16x2 base.g true ∧ okF1 .f16x2 x base.g = true ∧ orderAt .f16x2 base.g x = 0 ∧ orderAt .f32 s.g { u0 with d := .s 4 } = 0 ∧
    readable base.g x [fReads 0 x.a] ∧
    wf [.frnd .f32 { x with md := 4 }, .rcp .f32 x, .sqrt .f16x2 x, .rsqrt .f32 x, .exp2 .f32 x, .log2 .f32 x, .sinpi .f32 x, .cospi .f32 x,
      .tanh .bf16x2 x, .sigm .f32 x] = true := by unfold readable orderFmtOk; decide +kernel

/-- The numbers of the clauses about integers and half-integers: 3 and 3 + 1/2. -/
theorem witness_FloatFunctions_values :
    ((6 : Nat) : Rat) * (2 : Rat) ^ (-1 : Int) = ((3 : Nat) : Rat) ∧ ((7 : Nat) : Rat) * (2 : Rat) ^ (-1 : Int) = ((3 : Nat) : Rat) + 1 / 2 := by
  constructor <;> norm_num

theorem witness_Conversions :
    let x := { x0 with d := .v 62, a := .v 0, e := 8, md := 4 }
    let p := { x0 with d := .v 55, a := .v 60, b := .v 56 }
    let u := { x0 with d := .v 56, a := .v 0, e := 15 }
    let w := { u0 with d := .s 62, a := .s 0, e := 14 }
    let s := jets 3 []
    wf [.cvt .n64 .i64 x, .cvt .bf16x2 .f32 p, .cvt .f32 .f16x2 u, .cvt .f32 .bf16x2 w] = true ∧ fmtBad base.g.fmt = false ∧
    cvtPacks .n64 .i64 = false ∧ cvtUnpacks .n64 .i64 = false ∧
    (formDA x && regsOk s.g [cvtRegs 3 .n64 x.d, cvtRegs 3 .i64 x.a]) = true ∧ readable s.g x [cvtRegs 0 .i64 x.a] ∧ cvtPacks .bf16x2 .f32 = true ∧
    (!isLong p && isDst p p.d && isSrc p p.a && isSrc p p.b && oneImm [p.a, p.b] &&
      regsOk s.g [(p.d, 1), cvtRegs 3 .f32 p.a, cvtRegs 3 .f32 p.b]) = true ∧ readable s.g p [cvtRegs 0 .f32 p.a, cvtRegs 0 .f32 p.b] ∧
    cvtUnpacks .f32 .f16x2 = true ∧ (formDA u && decide (56 + jetRegs 3 < 256) && regsOk s.g [(u.d, jetRegs 3), (u.a, 1)] &&
      regsOk s.g [(.v (56 + BitVec.ofNat 8 (jetRegs 3)), jetRegs 3), (u.a, 1)]) = true ∧ readable s.g u [(u.a, 1)] ∧
    (formDA w && decide (62 + 1 < 256) && regsOk s.g [(w.d, 1), (w.a, 1)] && regsOk s.g [(.s (62 + 1), 1), (w.a, 1)]) = true := by
  unfold readable; decide +kernel

theorem witness_Jets :
    let x := { x0 with d := .v 60, a := .v 60, b := .im 2 }
    let y := { x0 with d := .v 63, a := .v 60, e := 3 }
    let j := fun (n : BitVec 16) => { u0 with b := .im 1, imm := n }
    let s := jets 3 []
    wf [.jord (j 3), .jseed x, .jget y, .jset { x0 with d := .v 60, b := .v 0, e := 3 }, .jshift { x0 with d := .v 60, a := .v 60 },
      .jtest { x0 with d := .sp 7, a := .v 60 }, .jxr { u0 with d := .s 63 }, .jxc { u0 with b := .im 0, imm := 0xFFFF }] = true ∧
    ((isS (j 3).b || isShort (j 3).b) && !isLong (j 3) && regOk s.g (j 3).b 1) = true ∧ (read32 s.g (j 3) 0 (j 3).b).toNat = 3 ∧
    (read32 s.g (j 4) 0 (j 4).b).toNat = 4 ∧ holdsQ s.g (j 4) = true ∧
    (isV x.d && isSrc x x.a && isSrcB x && oneImm [x.a, x.b] && regsOk s.g [fRegs 3 x.d, fRegs 3 x.a, (x.b, 1)]) = true ∧
    readable s.g x [fRegs 0 x.a, (x.b, 1)] ∧ (isV y.d && isV y.a && regsOk s.g [(y.d, 1), fRegs 3 y.a]) = false ∧
    (let z := { y with d := .v 0 }; (isV z.d && isV z.a && regsOk s.g [(z.d, 1), fRegs 3 z.a]) = true ∧ readable s.g z [(.v 63, 1)]) ∧
    (isV y.d && isV y.a && regsOk (jets 2 []).g [(y.d, 1), fRegs 0 y.a]) = true ∧ okF1 .f32 { x0 with d := .v 60, a := .v 60 } s.g = true ∧
    (isP (.sp 7) && isSrc x x.a && regsOk s.g [fRegs 3 x.a]) = true ∧ readable s.g x [fReads 3 x.a] ∧
    (isV x.d && !isLong x && isSrc x (.v 0) && regsOk s.g [fRegs 3 x.d, (.v 0, 1)]) = true := by
  unfold readable; decide +kernel

/-- A release: local store of one unit on core 0, an address of the team's window, and what it resolves to. -/
def local1 (v : Sparse Word) : State :=
  let s := one v [(8, 0), (9, 0xFF000000)]
  modCore 0 (fun k => { k with localUnits := 1 }) { s with teams := s.teams.map (fun t => { t with units := 1 }) }

theorem witness_LocalAccess :
    let l := { x0 with d := .v 4, a := .s 8, b := .im 1, imm := 0xFFF0, e := 2 }
    let t := { x0 with a := .s 8, b := .im 1, imm := 0xFFF0, c := .v 60, e := 2 }
    let s := local1 []
    let b := { l with u := true, d := .v 4 }
    wf [.ld .f32 l, .st .f32 t, .ld .f32 b] = true ∧ relaxedOk b true (memRegs .f32 b) 0 s ∧ memStrands s.g b = [0] ∧ relaxedOk l true (memRegs .f32 l) 0 s ∧ relaxedOk t false 0 (memRegs .f32 t) s ∧ memStrands s.g l = [0] ∧
    (resolve s.g (memAddr s.g l 0) (memBytes .f32 l) .read false s).1 = .loc 0 0xFFF0 ∧ localError s 0 0xFFF0 16 = false ∧
    (resolve s.g (memAddr s.g t 0) (memBytes .f32 t) .write false s).1 = .loc 0 0xFFF0 := by unfold relaxedOk readable; decide +kernel

theorem witness_GlobalAccess :
    let l := { x0 with d := .v 4, a := .s 8, b := .im 0, imm := 60 }
    let t := { x0 with a := .s 8, b := .im 0, c := .v 4, imm := 60 }
    let s := mapped [] at2 []
    let s1 := modCore 0 (putLine { newLine 0x800 0 0x20000 with valid := 0x8000, lease := 0 }) s
    wf [.ld .f32 l, .ld .f32 { l with ch := 3 }, .st .f32 t, .st .f32 { t with ch := 3 }] = true ∧
    relaxedOk l true (memRegs .f32 l) 0 s ∧ memStrands s.g l = [0] ∧ resolve s.g (memAddr s.g l 0) 4 .read false s = (.mem 0x2003C, s) ∧
    quiet s (0x2003C / 64) ∧ roomL1 s 0 1 ∧ memError s 0x2003C 4 = none ∧
    resolve s1.g (memAddr s1.g l 0) 4 .read false s1 = (.mem 0x2003C, s1) ∧ roomL1 s1 0 0 ∧
    (∃ n, findLine (coreAt s1 0) 0x800 0 = some n ∧ wordMask 60 4 &&& ~~~n.valid = 0 ∧ (n.bad ||| n.lost) &&& wordMask 60 4 = 0 ∧ (coreAt s1 0).cc ≤ n.lease) ∧
    (∀ i ∈ s1.pending, ownPosted s1.g.gid (fun r => r.pa / 64 == 0x2003C / 64) i = false) ∧
    relaxedOk t false 0 (memRegs .f32 t) s ∧ resolve s.g (memAddr s.g t 0) 4 .write false s = (.mem 0x2003C, s) ∧ bypass { t with ch := 3 } = true ∧
    bypass t = false := by
  unfold relaxedOk readable quiet roomL1
  decide +kernel

theorem witness_Atomics :
    let x := { x0 with d := .v 4, a := .s 8, b := .im 1, imm := 0xFFF8, c := .v 62 }
    let s := mapped [] at2 []
    let k := local1 []
    tyScalarInt .n64 = true ∧ 2 ^ 64 - 1 < 2 ^ (8 * atomBytes .n64) ∧ wf [.atom .cas .n64 x, .atom .add .n64 x] = true ∧
    relaxedOk x false (atomRegs .n64) (atomRegs .n64) s ∧ readable s.g x [(x.d, atomRegs .n64)] ∧ memStrands s.g x = [0] ∧
    resolve s.g (memAddr s.g x 0) 8 .write false s = (.mem 0x2FFF8, s) ∧ quiet s (0x2FFF8 / 64) ∧ memError s 0x2FFF8 8 = none ∧
    relaxedOk x false (atomRegs .n64) (atomRegs .n64) k ∧ resolve k.g (memAddr k.g x 0) 8 .write false k = (.loc 0 0xFFF8, k) ∧
    localError k 0 0xFFF8 8 = false := by unfold relaxedOk readable quiet; decide +kernel

theorem witness_Posted :
    let x := { x0 with a := .s 8, b := .im 1, imm := 0xFFC0, c := .v 62 }
    let r := { x0 with d := .v 4, a := .s 8, b := .im 1, imm := 0xFFC0 }
    let s := mapped [] at2 []
    let k := local1 []
    wf [.red .max .n64 x, .xsum .add x, .xsum .clear { r with d := .v 0 }, .xsum .read r] = true ∧ memStrands s.g x = [0] ∧ quiet s (0x2FFC0 / 64) ∧
    relaxedOk x false 0 (atomRegs .n64) s ∧ resolve s.g (memAddr s.g x 0) 8 .write false s = (.mem 0x2FFC0, s) ∧ memError s 0x2FFC0 8 = none ∧
    resolve k.g (memAddr k.g x 0) 8 .write false k = (.loc 0 0xFFC0, k) ∧ localError k 0 0xFFC0 8 = false ∧
    relaxedOk x false 0 1 s ∧ resolve s.g (memAddr s.g x 0) 64 .write true s = (.mem 0x2FFC0, s) ∧ memError s 0x2FFC0 64 = none ∧
    relaxedOk { r with d := .v 0 } false 0 0 s ∧ relaxedOk r false 1 0 s ∧ resolve s.g (memAddr s.g r 0) 64 .read true s = (.mem 0x2FFC0, s) ∧
    assoc (0x2FFC0 / 64) s.sums = none := by
  unfold relaxedOk readable quiet; decide +kernel

theorem witness_SliceOperations :
    let r : SliceReq := ⟨2, 1, 0, 0x20000, 0x20038, 0, .count (2 ^ 64 - 1), 0x10000, true⟩
    let s := mapped [] at2 []
    let cell := cellAdd (List.replicate 64 0) 0x7F7FFFFF
    (∀ g, findGroup s r.group = some g → findLine (coreAt s (coreNo g)) (r.pa / 64) r.eid = none) ∧
    sliceOver r.kind (memRead s r.pa (sliceBytes r.kind)) = false ∧ memError s r.pa 8 = none ∧ r.pa % 64 + 8 = 64 ∧
    (memError { s with poison := [0x800] } r.pa 8).isSome = true ∧ cell.length = 64 ∧ expField fp32 0xFF7FFFFF ≠ 255 ∧
    leNat ((cell.drop 48).take 8) = 1 ∧ -(2 ^ 382) < cellSum cell ∧ cellSum cell < 2 ^ 382 ∧ (cell.drop 56).take 1 = [0] := by
  have h : ∀ g ∈ findGroup (mapped [] at2 []) 2, findLine (coreAt (mapped [] at2 []) (coreNo g)) (0x20038 / 64) 0 = none := by decide +kernel
  and_intros <;> first | exact fun g e => h g e | decide +kernel

theorem witness_PrefetchFences :
    let p := { x0 with a := .s 8, b := .im 0 }
    let f := { x0 with e := 0xC0, md := 4 }
    let s := mapped [] at2 []
    let r := setG { s.g with status := .releasing 4 false } s
    wf [.pref p, .fence f, .fence { f with e := 0x40 }] = true ∧ ordOf p = 0 ∧ memOk s.g p true 0 0 = true ∧ roomL1 s (coreNo s.g) 64 ∧
    (coreAt s (coreNo s.g)).lines = [] ∧ holdsAny s.g f = true ∧
    holdsAny s.g { f with g1 := ⟨true, 7⟩ } = false ∧ isRel f = true ∧ isRel { f with e := 0x40 } = false ∧ wider s s.g.tid 4 = true ∧
    wider s s.g.tid 0 = false ∧ (∀ i ∈ s.pending, postedBy s.g.gid i = false) ∧
    (∃ g, findGroup r 2 = some g ∧ g.gid = 2 ∧ g.status = .releasing 4 false) ∧ wider r 1 4 = true ∧ peerPending r 2 = none := by
  unfold roomL1
  decide +kernel

/-- Page tables from 0x40000 in which a chain of pointers leads VA 0 to the level-0 table at 0x80000, whose entry 0 is the leaf of
PA 0x20000, readable and writable; the engagement's root is there. -/
def tables : State :=
  let s := [(0x40000, 0x50001), (0x50000, 0x60001), (0x60000, 0x70001), (0x70000, 0x80001), (0x80000, 0x2001B)].foldl
    (fun s e => memWrite e.1 (leBytes 8 e.2) s) base
  { s with engs := [(0, { Engagement.free with st := .live, root := 0x40000 })] }

theorem witness_PageWalks :
    (0x40000 + 8 * ((2 ^ 48) / 2 ^ 48) < 2 ^ 39 ∧ (memByte tables 0x40008).getLsbD 0 = false) ∧
    walkFrom tables 0 levels 0x40000 none = .leaf 0x2001B 0x80000 16 ∧ permFault 0x2001B .fetch = some 3 ∧ permFault 0x2001B .write = none ∧
    (∀ l a, heldPte (cross tables) (some 0) 0 0 l a = readPte tables l a) ∧
    (let r := walk (some 0) 0 0 0x100 .read tables
     r.1 = .mem 0x20100 ∧ memError r.2 0x20100 64 = none ∧ (coreAt r.2 0).lines = [] ∧ 1 ≤ l1Lines (coreAt r.2 0)) := by
  and_intros
  any_goals decide +kernel
  intro l a
  have w : heldEntry (cross tables) 0 0 0 l = none := by unfold heldEntry; rw [show (cross tables).walkers = [] by decide +kernel]; rfl
  simp only [heldPte, Option.bind_some, w]
  rfl

/-- Two teams of one gang, on cores 0 and 1 of one cluster; the running group belongs to the first. -/
def twoCores : State := { base with teams := base.teams ++ [{ sliceTeam with tid := 5, team := 1, cores := [1] }] }

theorem witness_Counters :
    let a := { u0 with d := .sp 0x2F, b := .im 0, imm := 0xFFFF }
    let r := { u0 with d := .s 62, a := .sp 0x2F }
    let s := modCore 0 (fun k => { k with ctrs := [(15, ⟨BitVec.ofNat 64 (2 ^ 64 - 1), 0, [], []⟩)] }) base
    wf [.cadd a, .cread r, .cadd { a with e := 0x21 }, .cread { r with e := 0x21 }] = true ∧ ordOf a = 0 ∧ a.e.getLsbD 5 = false ∧ opZero a.a = true ∧
    isCtr a.d = true ∧ ctrB base.g a = true ∧ holdsQ base.g a = true ∧ holdsQ base.g { a with g1 := ⟨true, 7⟩ } = false ∧
    (ctrAt base 0 (ownCtr base 15)).val.toNat + (read32 base.g a 0 a.b).toNat < 2 ^ 64 ∧
    2 ^ 64 ≤ (ctrAt s 0 (ownCtr s 15)).val.toNat + (read32 s.g a 0 a.b).toNat ∧ isCtr r.a = true ∧ (isSPair r.d && regOk base.g r.d 2) = true ∧
    ctrCore twoCores { a with e := 0x21 } = some 1 ∧ 1 ≠ coreNo twoCores.g ∧
    (gangTeam twoCores twoCores.g.launch twoCores.g.gang 1).isSome = true ∧
    (let own : CtrAdd := ⟨1, 0, 1, false, 15, 5, 0, ⟨1, 0, 0⟩, some 2, 0, some 1, 0⟩
     let u := performWhere (ownAdd 2 1 15) { twoCores with pending := [.counterAddArrival own] }
     u.g = twoCores.g ∧ (gangTeam u u.g.launch u.g.gang 1).isSome = true ∧ u.pending = [] ∧ (ctrAt u 1 15).val = 5) := by decide +kernel

theorem witness_Counters_memory :
    let a := { u0 with a := .s 8, b := .im 0, imm := 5 }
    let r := { u0 with d := .s 62, a := .s 8 }
    let s := mapped [] [(8, 0x2FFF8)] []
    let add : CtrAdd := ⟨1, 0, 0, false, 15, 5, 7, ⟨1, 0, 0⟩, none, 0, none, 0⟩
    let lost : CtrAdd := { add with launch := 9, dest := some 3 }
    wf [.cadd a, .cread r] = true ∧ (opZero a.d && memCtrOk s.g a.a && ctrB s.g a) = true ∧ opZero a.a = false ∧
    (isSPair r.d && regOk s.g r.d 2 && memCtrOk s.g r.a && apart r.d 2 r.a 2) = true ∧
    resolve s.g (read64 s.g a 0 a.a) 8 .write true s = (.mem 0x2FFF8, s) ∧ resolve s.g (read64 s.g r 0 r.a) 8 .read true s = (.mem 0x2FFF8, s) ∧
    quiet s (0x2FFF8 / 64) ∧ memError s 0x2FFF8 8 = none ∧ (addTeam s add).isSome = true ∧ (ctrAt s 0 15).val.toNat + add.amount < 2 ^ 64 ∧
    addTeam s lost = none ∧ s.saved = [] ∧ lostCore s lost = some 3 := by unfold quiet; decide +kernel

theorem witness_Waits :
    let x := { u0 with d := .sp 15, a := .sp 0x2F, b := .im 0, imm := 1 }
    let y := { x with e := 0xC0, imm := 0xFFFF }
    let full := modCore 0 (fun k => { k with ctrs := [(15, ⟨1, 0, [], []⟩)] }) base
    let last := modCore 0 (fun k => { k with ctrs := [(15, ⟨65534, 0, [], []⟩)] }) base
    let y' := { y with b := .im 1 }
    wf [.cwait x, .bar y] = true ∧ holdsQ base.g x = true ∧ waitOk x = true ∧ (∃ tm, findTeam base base.g.tid = some tm ∧ tm.cancel = false) ∧
    (memCtrOk base.g x.b || isShort x.b) = true ∧ (ctrAt full 0 (ownCtr full 15)).val.toNat = 1 ∧ (ctrAt base 0 (ownCtr base 15)).val.toNat = 0 ∧
    (read32 base.g x 0 x.b).toNat = 1 ∧ ctrB base.g y' = true ∧ wider base base.g.tid y.md.toNat = false ∧ peerPending base base.g.gid = none ∧
    (∀ i ∈ base.pending, postedBy base.g.gid i = false) ∧ (read32 base.g y' 0 y'.b).toNat = 65535 ∧
    ((ctrAt last 0 (ownCtr last 15)).val.toNat + 1) % 65535 = 0 ∧ (read32 base.g { y' with b := .im 2, imm := 1 } 0 (.im 2)).toNat = 65536 := by
  decide +kernel

/-- The running group waits as `st` says, at time `n`. -/
def waiting (st : Status) (n : Nat) : State := { withG (fun g => { g with status := st }) with ac := n }

theorem witness_WaitEnds :
    let c := fun (v : DWord) => modCore 0 (fun k => { k with ctrs := [(15, ⟨v, 0, [], []⟩)] }) (waiting (.waitCounter 15 8 0 false 0 0) (2 ^ 20 + 1))
    let b := waiting (.waitBlocks 3 9 0) (2 ^ 20 + 1)
    let r := withG (fun g => { g with reports := [⟨0x20, 1, 0x10000, 0x20000⟩] })
    let f := { waiting (.waitGrow 0 0x20000 0) 0 with freeList := [(0, [7])] }
    let k := { base with ac := 8192 }
    (liveGroup (c 8) 2 = some (c 8).g) ∧ (c 8).g.gid = 2 ∧ (ctrAt (c 8) 0 15).val.toNat = 8 ∧ (ctrAt (c 7) 0 15).val.toNat = 7 ∧
    cancelBit (c 7) (c 7).g = false ∧ (Sparse.get Bus.reset 0 (c 7).buses).running = false ∧ 0 + wdogOf (c 7) (c 7).g < (c 7).ac ∧
    (∀ h ∈ allGroups (c 7), h.tid = 1 → expired (c 7) h = true → captureKey (c 7).g ≤ captureKey h) ∧
    liveGroup b 2 = some b.g ∧ wdogOf b b.g < b.ac ∧ b.g ∈ onLane b 0 0 ∧ (∀ h ∈ onLane b 0 0, h = b.g) ∧ 3 * unitsPerBlock b.g ≤ freeUnits b 0 0 ∧
    liveGroup r 2 = some r.g ∧ r.g.status = .ready ∧ Sparse.get [] (4 * 0 + 0) f.freeList ≠ [] ∧
    (coreAt k 0).tick + (if (coreAt k 0).age = 0 then 256 else (coreAt k 0).age) ≤ k.ac ∧
    (let n := { b with others := [{ base.g with gid := 3, width := .w64 }, { base.g with gid := 4, xblk := 1 }] }
     liveGroup n 2 = some n.g ∧ grantable n 0 0 = none ∧ wdogOf n n.g < n.ac ∧ (Sparse.get Bus.reset 0 n.buses).running = false ∧
     ∀ h ∈ allGroups n, h.tid = 1 → expired n h = true ∨ blockExpired n h = true → captureKey n.g ≤ captureKey h) := by decide +kernel

theorem witness_WaitEnds_line :
    let s := { modCore 0 (putLine { newLine 0x800 0 0x20000 with valid := 1, dirty := 1 }) base with ac := 8192 }
    ∃ l ∈ (coreAt s 0).lines, l.dirty ≠ 0 ∧ l.since + 8192 ≤ s.ac := by
  refine ⟨{ newLine 0x800 0 0x20000 with valid := 1, dirty := 1 }, by decide +kernel, by decide +kernel, by decide +kernel⟩

/-- The team holds the core's twelve tiles, and `FMT` names Q8 for A, B and D. -/
def tiled (u : Sparse Word) : State :=
  let s := withG (fun g => { g with s := u, fmt := 0x333 })
  { s with teams := s.teams.map (fun t => { t with tiles := [List.range 12] }) }

theorem witness_CommandIssue :
    let c := { u0 with d := .s 62, a := .s 60, b := .s 56, e := 0xFF, imm := 0xFFFF }
    let h := { u0 with d := .s 63, b := .s 56, e := 1 }
    let m := { x0 with d := .sp 0x1B, a := .v 48, b := .s 60, e := 5 }
    let t := { u0 with d := .sp 0x1B, e := 5 }
    let s := tiled []
    wf [.copy .l2l c, .xpose c, .publish h, .resv h, .mma m, .mmaz t, .achk { t with d := .s 63, a := .sp 0x1B },
      .drain { t with d := .s 62, a := .sp 0x1B, b := .s 60 }, .aload { t with a := .s 62, b := .s 60 }] = true ∧
    t.e ≠ 0 ∧ isLong t = false ∧ holdsQ s.g { t with g1 := ⟨true, 7⟩ } = false ∧ c.e ≠ 0 ∧ isLong c = false ∧ (sOk s.g c.d 2 && sOk s.g c.a 2 && sOk s.g c.b 4 && regsOk s.g [(c.d, 2), (c.a, 2), (c.b, 4)]) = true ∧
    holdsQ s.g c = true ∧ holdsQ s.g { c with g1 := ⟨true, 7⟩ } = false ∧ (sOk s.g h.d 1 && (opZero h.b || sOk s.g h.b 1)) = true ∧
    (sOk s.g h.d 1 && sOk s.g h.b 2 && regsOk s.g [(h.d, 1), (h.b, 2)]) = true ∧ hasEngine s = true ∧
    hasEngine { s with fuses := [(0, ⟨false, 4⟩)] } = false ∧ mmaOk s m = true ∧ s.g.jord.toNat ≤ 1 ∧ fmtBad s.g.fmt = false ∧ pairBad s.g.fmt = false ∧
    s.g.vPoison = [] ∧ routed s [fmtFa s.g.fmt, fmtFb s.g.fmt] = false ∧ routed { s with phase := 4 } [fmtFa s.g.fmt, fmtFb s.g.fmt] = true ∧
    tileOk s t.d 0 = true ∧ routed s [fmtFd s.g.fmt] = false ∧
    (tileOk s (.sp 0x1B) 0 && sOk s.g (.s 62) 2 && sOk s.g (.s 60) 2 && regsOk s.g [(.s 62, 2), (.s 60, 2)]) = true := by decide +kernel

/-- A command of the running group's team, and the machine with it in core 0's sequencer. -/
def cmd (k : CmdKind) (p : CmdPhase) : Command :=
  { kind := k, team := 1, group := 2, id := 5, p1 := 0, p2 := 0, serial := 4, preds := [], cancelled := false, phase := p, pc := 0x10000, scope := 0
    fmt := 0x333, jord := 0, yields := false, shadow := false, eid := 0, moved := 0, data := [], stamp := 0, part := [], sent := 0, emulated := false
    last := false, word := x0, onto := [] }
def queued (c : Command) (s : State) : State := modCore 0 (fun k => { k with seq := [c] }) s
def ref5 : CmdRef := ⟨0, 1, 5⟩

theorem witness_Acceptance :
    let c := cmd (.mmaz 0) .waiting
    let bad := cmd (.copy .g2l 0 0 1 0 0 0) .waiting
    let s := fun (st : Status) => setG { (tiled []).g with status := st } (tiled [])
    let told := setG { (s (.accepting c)).g with reports := [⟨0x08, 1, 0x10000, 0⟩] } (s (.accepting c))
    findGroup (s (.accepting c)) 2 = some (s (.accepting c)).g ∧ (∀ i ∈ (s (.accepting c)).pending, postedBy 2 i = false) ∧
    (∀ l ∈ (coreAt (s (.accepting c)) 0).lines, wroteLine 2 l = false) ∧ mayAccept (s (.accepting c)) (s (.accepting c)).g c = true ∧
    findGroup told 2 = some told.g ∧ told.g.status = .accepting c ∧ told.g.reports ≠ [] ∧ mayAccept (s (.waitEmulation c)) (s (.waitEmulation c)).g c = true ∧
    wider (s (.accepting c)) 1 c.scope = false ∧ acceptCheck 0 c (s (.accepting c)) = (.ok, s (.accepting c)) ∧
    (match (acceptCheck 0 bad (s (.accepting bad))).1 with | .trap _ _ _ => true | _ => false) = true ∧
    (let e : Command := { c with emulated := true, serial := 0 }
     let w := s (.waitEmulation e)
     liveGroup w 2 = some w.g ∧ mayAccept w w.g e = true ∧ acceptCheck 0 e w = (.ok, w)) := by decide +kernel

/-- An emulated `DRAIN` in the sequencer: its turn, before its turn, and cancelled. -/
theorem witness_Acceptance_turn :
    let c : Command := { cmd (.drain 0 0 0 0) .waiting with emulated := true }
    let s := fun (d : Command) => queued d (setG { (tiled []).g with status := .waitEmulation { c with serial := 4 } } (tiled []))
    let off := { c with cancelled := true }
    (∀ d ∈ [c, { c with preds := [3] }, off], findCmd (s d) ref5 = some d ∧ liveGroup (s d) 2 = some (s d).g ∧
      (s d).g.status = .waitEmulation { c with serial := 4 } ∧ (∀ i ∈ (s d).pending, postedBy 2 i = false) ∧ (coreAt (s d) 0).lines = [] ∧
      d.emulated = true ∧ d.phase = .waiting) ∧
    charonTurn (s c) 0 c = true ∧ charonTurn (s { c with preds := [3] }) 0 { c with preds := [3] } = false ∧
    off.preds = [] ∧ (match perform ref5 off (s off) with | .next _ => true | _ => false) = true ∧
    ∀ e ∈ (coreAt (s off) 0).seq, e.serial = off.serial := by decide +kernel

/-- A copy of one row of 64 bytes from VA 0 (PA 0x20000) to the start of the team's local store. -/
def copy64 : Command := cmd (.copy .g2l (BitVec.ofNat 64 (0xFF * 2 ^ 56)) 0 64 0 0 0) .running

theorem witness_CopyRows :
    let s := queued copy64 (modCore 0 (fun k => { k with localUnits := 1 }) { tables with teams := tables.teams.map (fun t => { t with units := 1 }) })
    findCmd s ref5 = some copy64 ∧ runnable copy64 = true ∧ copy64.phase = .running ∧ moving s copy64 = false ∧ awaitsPeer s ref5 = false ∧
    copy64.sent = 0 ∧ copy64.moved < (srcShape copy64.kind).1 ∧ readsWhole copy64 = false ∧ copy64.data = [] ∧ copy64.part = [] ∧
    srcSide copy64.kind = some (.mem 0 0) ∧ dstSide copy64.kind = some (.mem (BitVec.ofNat 64 (0xFF * 2 ^ 56)) 0) ∧ xBytes copy64.kind = 0 ∧
    (let m := cmdMover 0 copy64
     let p := m.place 0 .read s
     let q := m.place (BitVec.ofNat 64 (0xFF * 2 ^ 56)) .write (m.left 0 p.1 64 false p.2)
     p.1 = .mem 0x20000 ∧ memError p.2 0x20000 64 = none ∧ q.1 = .loc 0 0 ∧ (m.place (BitVec.ofNat 64 (0xFF * 2 ^ 56)) .write q.2).1 = .loc 0 0) ∧
    (srcShape copy64.kind).1 ≤ { copy64 with moved := 1 }.moved ∧ copy64.cancelled = false ∧ (copyEnds copy64.kind).1 = false ∧
    (findTeam s 1).any (fun tm => decide (windowAt tm 0 = .loc 0 0) && decide (gangTeam s tm.launch tm.gang 0 = some tm)) = true := by
  decide +kernel

/-- The tables of `tables`, the handle table at VA 0x1000 (PA 0x21000), and handle 0's first words there. -/
def handle0 (ctrl st : Nat) : State :=
  let s := memWrite 0x21000 (leBytes 4 ctrl ++ leBytes 4 st) tables
  { s with engs := s.engs.map (fun e => (e.1, { e.2 with htab := 0x1000 })) }

/-- A command that has read its only row, of 64 bytes or of two elements of 4. -/
def rowNow (k : CmdKind) (n : Nat) : Command := { cmd k .running with data := [List.replicate n 1] }

/-- Destinations of a row: HBM from a local store, a transposition's rows, a core of the mask, and a handle in frames and in its
backing range; and a tile of a handle as a source. -/
theorem witness_CopyRows_destinations :
    let loc := BitVec.ofNat 64 (0xFF * 2 ^ 56)
    let at_ := fun (c : Command) (h : Nat) =>
      queued c (modCore 0 (fun k => { k with localUnits := 1 }) { handle0 1 h with teams := tables.teams.map (fun t => { t with units := 1 }) })
    let g := rowNow (.copy .l2g 0x100 loc 64 0 0 0) 64
    let x := rowNow (.xpose 0x100 loc 8 0 64 0) 8
    let m := rowNow (.copy .l2l 0x40 loc 64 0 0 1) 64
    let h := rowNow (.copy .l2h 0 loc 64 0 0 0) 64
    let r := cmd (.copy .h2l loc 0 64 0 0 0) .running
    (∀ c ∈ [g, x, m, h], findCmd (at_ c 2) ref5 = some c ∧ moving (at_ c 2) c = false ∧ c.moved < (srcShape c.kind).1 ∧
      (srcShape c.kind).1 ≤ c.data.length ∧ c.data[c.moved]?.isSome = true) ∧
    (let p := (cmdMover 0 g).place 0x100 .write (at_ g 2)
     p.1 = .mem 0x20100 ∧ ((cmdMover 0 g).place 0x100 .write p.2).1 = .mem 0x20100) ∧ dstSide g.kind = some (.mem 0x100 0) ∧
    (let u := (writePage (cmdMover 0 x) 0 0x100 (elemBytes 4 (List.replicate 8 1) 0) (at_ x 2)).2
     dstSide x.kind = some (.mem 0x100 64) ∧ xBytes x.kind = 4 ∧ (dstShape x.kind).1 = 2 ∧
     ((cmdMover 0 x).place 0x100 .write (at_ x 2)).1 = .mem 0x20100 ∧ ((cmdMover 0 x).place 0x140 .write u).1 = .mem 0x20140) ∧
    dstSide m.kind = some (.multi 0x40 0 1) ∧
    (findTeam (at_ m 2) 1).any (fun tm => maskCore (at_ m 2) tm 0 0 == some 0 && decide (multiPlace m (at_ m 2) tm 0 0x40 = .loc 0 0x40)) = true ∧
    dstSide h.kind = some (.hnd 0) ∧ (readDesc (at_ h 2) 0 0).any (fun d => inFrames (handleOf (at_ h 2) 0 0) d) = true ∧
    (readDesc (at_ h 1) 0 0).any (fun d => !inFrames (handleOf (at_ h 1) 0 0) d && d.state != 0 && !d.drop && d.back == 0) = true ∧
    ((backMover 0 h).place 0 .write (at_ h 1)).1 = .mem 0x20000 ∧
    (findCmd (at_ r 2) ref5 = some r ∧ mayRun (at_ r 2) r = true ∧ (dstSide r.kind).isSome = true ∧ srcSide r.kind = some (.hnd 0) ∧
      r.data = [] ∧ r.part = [] ∧ r.moved = 0 ∧ badBlocksIn (handleOf (at_ r 2) 0 0) false 0 64 = false ∧
      tileChecks { r with data := [List.replicate 64 0] } = true) := by decide +kernel

/-- The ends of a promotion and of a demotion: the move stands, both versions of 64 bytes can be read in the backing range, and
`HSTAT` is mapped. -/
theorem witness_Handles_moves :
    let m := fun (v : Move) (ctrl : Nat) => modHandle 0 0 (fun k => { k with move := v })
      (memWrite 0x21008 (leBytes 4 64) (memWrite 0x80008 (leBytes 8 0x3001B) (handle0 ctrl 2)))
    let d := fun (v : Move) (ctrl : Nat) => readDesc (m v ctrl) 0 0
    (∀ v ∈ [Move.promote, .demote], (handleOf (m v 1) 0 0).move = v ∧ (handleOf (m v 1) 0 0).asker = none ∧ (m v 1).saved = []) ∧
    (d .promote 1).any (fun d => !d.drop && versionLen d == 64 && (fillVersions 0 d (m .promote 1)).1.isSome) = true ∧
    (d .demote 0x1001).any (fun d => d.drop) = true ∧ mappedAt (m .demote 1) 0 (descAddr (m .demote 1) 0 0 + 4) = some 0x21004 := by decide +kernel

theorem witness_Handles :
    let p := cmd (.publish 0 0) .waiting
    let r := fun (w : Word) => cmd (.resv 0 w 0) .waiting
    let s := queued p (handle0 1 2)
    let bad := modHandle 0 0 (fun k => { k with failed := some 3 }) s
    let n : Word := 0x400000
    let k := cmd (.publish 0 n) .waiting
    let full := modCore 0 (fun c => { c with ctrs := [(0, ⟨BitVec.ofNat 64 (2 ^ 64 - 1), 0, [], []⟩)] }) (queued k (handle0 1 2))
    (findCmd s ref5 = some p ∧ mayRun s p = true) ∧ moving s p = false ∧ shadowPending s p 0 = false ∧ spoiled s p 0 = false ∧
    spoiled bad p 0 = true ∧ (findCmd bad ref5 = some p ∧ mayRun bad p = true) ∧ dCnte 0 = false ∧
    (findCmd full ref5 = some k ∧ mayRun full k = true) ∧ dCnte n = true ∧ saturating 0 k (dCntr n) [0] full ≠ none ∧
    (let t := queued (r 0) (handle0 1 2)
     findCmd t ref5 = some (r 0) ∧ mayRun t (r 0) = true ∧ (handleOf t 0 0).move = .none ∧ handleBusy t 0 0 = false ∧
     (readDesc t 0 0).any (fun d => (candidates t d).isEmpty && d.state == 2 && d.kind == 0) = true) ∧
    (readDesc (handle0 1 1) 0 0).any (fun d => d.state != 2 && d.kind == 0) = true ∧
    (let m := modHandle 0 0 (fun k => { k with move := .promote }) (handle0 1 2)
     (handleOf m 0 0).move ≠ .none ∧ handleBusy m 0 0 = false ∧ (readDesc m 0 0).isSome = true) ∧
    (readDesc (handle0 3 2) 0 0).any (fun d => d.kind == 1 && decide (d.lease ≤ nowUs (handle0 3 2))) = true := by decide +kernel

theorem witness_Residues :
    corrupt 0xBFCFEFFA = false ∧ crt 0xBFCFEFFA = -5 ∧ corrupt (residueAdd 0 (-536870400)) = false ∧ crt (residueAdd 0 536870399) = 536870399 ∧
    residueAdd 0 (-5) = 0xBFCFEFFA := by decide +kernel

/-- A tile in narrow accumulation of Q8, three keys from the end of its span of 256, and an `MMA` at its first octet. -/
def mmaNow : Command :=
  { cmd (.mma 0 [] [7] 0xFFFF000000000000 [0, 0, 0, 0x40000] [] none none) .running with data := List.replicate 64 (List.replicate 128 1) }
def tileNow (f : Tile → Tile) (c : Command) : State :=
  modCore 0 (fun k => { k with tiles := [(0, f { Tile.empty with kind := 1, lfa := 3, lfb := 3, kpos := [(3, 191)] })] }) (queued c (tiled []))

theorem witness_MatrixProduct :
    let s := tileNow id mmaNow
    let t := tileAt s 0 (cmdTile s 0 mmaNow 0)
    findCmd s ref5 = some mmaNow ∧ mayRun s mmaNow = true ∧ tileReady s 0 mmaNow = true ∧ mmaNow.phase = .running ∧ mmaNow.jord = 0 ∧
    ([7] : List Nat)[mmaNow.moved]? = some 7 ∧ (findGroup s mmaNow.group = some s.g ∧ s.g.tid = mmaNow.team ∧ isOver s.g = false) ∧ isNarrow (fmtFa mmaNow.fmt) = true ∧ isEmulated (fmtFb mmaNow.fmt) = false ∧ isBad t = false ∧ t.kind = 1 ∧ latchAgrees mmaNow.fmt t = true ∧
    isEmulated (fmtFa mmaNow.fmt) = false ∧ (7 + bRbb [0, 0, 0, 0x40000]) % 8 = 3 ∧
    kposOf t 3 + kOf (fmtFa mmaNow.fmt) < spanOf (fmtSpan mmaNow.fmt) ∧ 0 < kOf (fmtFa mmaNow.fmt) := by decide +kernel

theorem checkBlock_zero (t : Tile) (blk : Nat) (h : t.resid = []) (h1 : t.col = []) (h2 : t.row = []) : checkBlock t blk = none := by
  have e : ∀ lo n, Sparse.slice (0 : Word) lo n [] = List.replicate n 0 := by
    intro lo n; simp [Sparse.slice, List.map_const']
  simp only [checkBlock, blockOf, h, h1, h2, e]
  decide +kernel

theorem witness_TileCommands :
    let z := cmd (.mmaz 11) .waiting
    let a := cmd (.achk 63 0) .waiting
    let d := cmd (.drain 0 0 0 0) .waiting
    let e := { cmd (.drain 0 0 0 0) .running with data := List.replicate 64 [], moved := 64 }
    let l := { cmd (.aload 0 0 0 0) .waiting with data := List.replicate 64 [] }
    let o := cmd (.mma 0 [] [] 0 [] [] none none) .running
    (∀ c ∈ [z, a, d, e, l, o], findCmd (tileNow id c) ref5 = some c ∧ mayRun (tileNow id c) c = true ∧ tileReady (tileNow id c) 0 c = true) ∧
    (let s := tileNow id a
     let t := tileAt s 0 (cmdTile s 0 a 0)
     isBad t = false ∧ t.resid = [] ∧ t.col = [] ∧ t.row = [] ∧ t.badCarry = [] ∧ findGroup s 2 = some s.g ∧ s.g.tid = 1 ∧ isOver s.g = false) ∧
    (let s := tileNow id d
     moving s d = false ∧ awaitsPeer s ref5 = false ∧ dAp 0 = false ∧ dCnte 0 = false ∧ hasOwner s d ∧ (∃ tm, findTeam s 1 = some tm ∧ 0 ∈ tm.cores)) ∧
    e.data.length = 64 ∧ l.data.length = 64 := by
  unfold hasOwner
  decide +kernel

theorem witness_TileCommands_achk (t : Tile) (h : t.resid = []) (h1 : t.col = []) (h2 : t.row = []) : checkTile t = none := by
  have e : ∀ l : List Nat, l.filterMap (checkBlock t) = [] := by
    intro l
    induction l with
    | nil => rfl
    | cons b l ih => rw [List.filterMap_cons, checkBlock_zero t b h h1 h2]; exact ih
  simp only [checkTile, e, List.head?_nil]

theorem witness_TileCommands_drain (c : Command) (hf : c.fmt = 0x333) : (takeDrain c 0 Tile.empty).fail = none := by
  have h : ∀ l, drainBlocks 0x333 l Tile.empty none = (Tile.empty, none, none) := by
    intro l
    induction l with
    | nil => rfl
    | cons b l ih =>
      rw [drainBlocks, if_neg (by simp [Tile.empty]), checkBlock_zero Tile.empty b rfl rfl rfl]
      exact ih
  have hb : isBad Tile.empty = false := by decide
  simp only [takeDrain, hb, hf, h, Bool.false_eq_true, if_false]
  simp [Tile.empty]

theorem witness_EncodeThenDecode :
    let i : Instr := .iadd .sat .n8x4 { x0 with g1 := ⟨true, 6⟩, d := .v 255, a := .im 255, b := .im 255, c := .im 255, e := 255, imm := 0xFFFF }
    WellFormed i ∧ (encode i).isSome = true := by unfold WellFormed; decide +kernel

theorem witness_DecodeThenEncode : decodeBytes (leBytes 12 0x0D0077000000000000000000) = .instr (.nop x0) := by decide +kernel

/-- The running group, with the word `w` at its pc. -/
def fetching (w : Nat) : State := State.reset.withFetchWord 96 w

theorem witness_StepRunsDecoded :
    (fetching 0).turn = .group ∧ (fetching 0).g.status = .ready ∧
    (fetch (fetching 0x0D0077000000000000000000)).1 = .bytes (leBytes 12 0x0D0077000000000000000000) ∧
    decodeBytes (leBytes 12 (0xFF * 2 ^ 88)) = .rejected .pool ∧ decodeBytes (leBytes 12 0) = .rejected .opcode ∧
    decodeBytes (leBytes 12 0x0D0077000000000000000001) = .rejected .field ∧
    (let s := setG { (fetching 0).g with pc := 0x1000C } (fetching 0)
     (findLaunch s s.g.launch).any (fun l => !slotExec l.kernel s.g.pc) = true) ∧
    (fetchAt (fetching 0).g 0x10000 (fetching 0)).1 = .mem 0x10000 ∧ memError (fetching 0) 0x10000 12 = none ∧
    (let s := modCore 0 (fun k => { k with tlb := [] }) (fetching 0)
     (fetchAt s.g s.g.pc s).1 = .bad 0x08 1) ∧
    (let s := (fetch (fetching 0)).2
     (fetchAt s.g 0x10000 s).1 = .mem 0x10000 ∧ ((coreAt s 0).icache.find? (fun l => l.eid == 0 && l.line == 0x10000 / 64)).isSome = true) ∧
    (let s := { fetching 0 with buses := [(0, ⟨none, true, 0, 0, 0, 0⟩)] }
     (0, ⟨none, true, 0, 0, 0, 0⟩) ∈ s.buses ∧ (Sparse.get Bus.reset 0 s.buses).running = true ∧ (fetching 0).buses = []) := by decide +kernel

/-- The first step after placing a word runs it, and the machine goes on. -/
theorem test_step_goesOn : goesOn (step (fetching 0x0D0077000000000000000000)) = true ∧ goesOn (step (fetching 0)) = true ∧
    goesOn (step (fetching 0x300077000100000A40000000)) = true := by decide +kernel

/-- The machine after reset is where the invariant holds, and it can step. -/
theorem witness_StepKeepsInv : Safety.Inv State.reset ∧ goesOn (exec .startPhaseDone State.reset) = true := by
  refine ⟨⟨by decide, by decide, by decide, by decide, by decide⟩, by decide +kernel⟩

/-! ### Launches, serving and the device -/

/-- A launch that waits for its first gang. -/
def launch2 : Launch := { sliceLaunch with seq := 2, nextGang := 0, placed := [] }
def waitingLaunch : State := { base with launches := base.launches ++ [launch2] }

/-- A launch record of image 0, kernel 0: one gang, no handler, no deadline of its own, `FAILX` clear. -/
def record0 : List Byte := leBytes 16 0 ++ leBytes 4 1 ++ leBytes 20 0 ++ leBytes 4 0xFFFFFFFF ++ leBytes 20 0

theorem witness_LaunchRecords :
    let x := { u0 with d := .s 63, a := .s 8 }
    let s := local1 []
    let t := { s with cores := s.cores.map (fun c => (c.1, { c.2 with store := putBytes 0 record0 c.2.store })) }
    let no := { base with launches := base.launches.map (fun l => { l with record := { l.record with lp := false } }) }
    wf [.launch x] = true ∧ (findLaunch no no.g.launch).any (fun l => !l.record.lp) = true ∧ (findLaunch t t.g.launch).any (fun l => l.record.lp) = true ∧
    holdsQ t.g x = true ∧ (sGet t.g 9 ++ sGet t.g 8).toNat % 64 = 0 ∧ (sGet (one [] [(8, 8)]).g 9 ++ sGet (one [] [(8, 8)]).g 8).toNat % 64 = 8 ∧
    (∀ i ∈ t.pending, postedBy t.g.gid i = false) ∧ (∀ a ∈ t.accs, a.group ≠ t.g.gid) ∧ (coreAt t 0).lines = [] ∧
    resolve t.g (sGet t.g 9 ++ sGet t.g 8) 64 .read false t = (.loc 0 0, t) ∧ localError t 0 0 64 = false ∧ localRead t 0 0 64 = record0 ∧
    (kernelOf t (recordOf record0)).any (fun k => recordOk t record0 (recordOf record0) k (findLaunch t 1)) = true ∧
    (kernelOf t (recordOf (1 :: record0.tail))).isNone = true ∧
    (t.launches.filter (fun l => inQueue l && l.record.prio == 0)).length < 1024 := by decide +kernel

/-- A connection of engagement 0, a system connection and a peer, with the link up. -/
def linked (s : State) : State := { s with linkUp := true, conns := [⟨1, false, 0, false, false⟩, ⟨2, true, 0, false, false⟩, ⟨3, false, 0, true, false⟩] }

/-- A message of the engagement, and a request of a code to `Charon`. -/
def emsg (op : Byte) (p : List Byte) : Msg := ⟨1, op, 0, 0, 0, 7, 0, BitVec.ofNat 32 p.length, 0, 0, p, true⟩
def smsg (code : Nat) (p : List Byte) : Msg := ⟨2, 6, 0, 0, 0, 7, 0, BitVec.ofNat 32 p.length, BitVec.ofNat 32 code, 0, p, true⟩

theorem emsg_req (op : Byte) (p : List Byte) (s : State) (h : (engOf s 0).st = .live) (h3 : 3 ≤ s.phase) : engReq (linked s) (emsg op p) op.toNat 0 := by
  refine ⟨⟨1, false, 0, false, false⟩, ?_, rfl, rfl, rfl, rfl, h, rfl, by show (0 : Byte) &&& 0xFE = 0; decide, rfl⟩
  simp [connOf, linked, emsg, h3]

theorem witness_LaunchRecords_submit :
    let m := emsg 1 record0
    let s := linked base
    (engOf base 0).st = .live ∧ 3 ≤ base.phase ∧ m.arg = 0 ∧ m.len.toNat = 64 ∧ m.payload.length = 64 ∧ (recordOf m.payload).eng = 0 ∧
    (kernelOf s (recordOf m.payload)).any (fun k => recordOk s m.payload (recordOf m.payload) k none) = true ∧
    (kernelOf s (recordOf (leBytes 16 0 ++ record0.drop 20 ++ leBytes 4 0))).any
      (fun k => !recordOk s (leBytes 16 0 ++ record0.drop 20 ++ leBytes 4 0) (recordOf (leBytes 16 0 ++ record0.drop 20 ++ leBytes 4 0)) k none) = true := by
  decide +kernel

theorem witness_CoreResponses :
    let a : OutAcc := ⟨9, 2, 1, .ack 5⟩
    let s := { base with accs := [a] }
    let w := { base with launches := [{ launch2 with record := { launch2.record with lsplit := 1 } }], teams := [], g := Group.init }
    let d := modCore 0 (fun k => { k with localUnits := 12, splitTo := some 0 }) { base with teams := [] }
    let o : Owed := ⟨2, 7, .invalidate 0 0 65536⟩
    s.accs.find? (fun b => b.id == a.id) = some a ∧ a.group ≠ 0 ∧ (findTeam s 1).isSome = true ∧ teamOver s 1 = false ∧
    mayChange w 0 1 = true ∧ (∃ l ∈ w.launches, l.record.lsplit = 1 ∧ 0 ∈ splitWanted w l) ∧
    (coreAt d 0).splitTo = some 0 ∧ (∀ e ∈ allCommands d, copyInto d 0 0 12 e = false) ∧
    ({ base with owed := [o] }).owed.find? (fun o => o.wait == OwedFor.invalidate 0 0 65536) = some o := by decide +kernel

theorem witness_Placement :
    let s := waitingLaunch
    findLaunch s 2 = some launch2 ∧ (readyPlan s launch2).any (fun e => s.launches.all (fun k =>
      !decide (placeKey s k < placeKey s launch2) || !goesBefore s k (planCores e.plan))) = true ∧
    (restorable s launch2).isNone = true ∧ s.held = [] := by decide +kernel

/-- A launch whose one gang is saved, and the gang. -/
def saved2 : SavedGang := ⟨2, ⟨0, 0, none, [7], 0⟩, [⟨{ sliceTeam with tid := 7, launch := 2 }, [{ sliceGroup with gid := 8, tid := 7, launch := 2 }],
  [[]], [[]], [[]], [[]], [[]], [[]], [[]], [0], 0, []⟩], [], true, 0⟩
def savedState : State :=
  let l := { launch2 with nextGang := 1 }
  { base with launches := base.launches ++ [l], saved := [saved2], fresh := 9 }

theorem witness_Placement_restore :
    let l := { launch2 with nextGang := 1 }
    findLaunch savedState 2 = some l ∧ restorable savedState l = some saved2 ∧ saved2.held = [] ∧ (readyPlan savedState l).any (fun e =>
      savedState.launches.all (fun k => !decide (placeKey savedState k < placeKey savedState l) || !goesBefore savedState k (planCores e.plan))) = true := by
  decide +kernel

theorem witness_Placement_complete :
    let over_ := { launch2 with nextGang := 1 }
    let f := { launch2 with record := { launch2.record with failx := true }, deps := [1] }
    let s := { base with launches := base.launches.map (fun l => { l with phase := .complete, status := 0x28 }) ++ [f] }
    (let t := { base with launches := base.launches ++ [over_] }
     findLaunch t 2 = some over_ ∧ over_.phase = .queued ∧ over_.record.failx = false ∧ launchOver t over_ = true) ∧
    findLaunch s 2 = some f ∧ f.record.failx = true ∧ depsDone s f = true ∧ depFailed s f = true ∧ f.nextGang = 0 := by decide +kernel

theorem witness_Preemption :
    let s := { savedState with saved := [{ saved2 with saved := false }], teams := base.teams ++ [{ sliceTeam with tid := 7, launch := 2 }] }
    let r := { base with reservation := some ⟨1, 0, 0, none⟩, launches := base.launches.map (fun l => { l with record := { l.record with ttime := 0 } }) }
    (∃ v ∈ s.saved, v.launch = 2 ∧ v.gang.gang = 0 ∧ v.saved = false ∧ ∀ t ∈ s.teams, t.launch = 2 → t.gang = 0 → saveReady s t = true) ∧
    (∀ l ∈ r.launches, findLaunch r l.seq = some l ∧ ∀ a ∈ l.placed, l.placed.find? (fun b => b.gang == a.gang) = some a ∧
      standsOn a 0 none = true ∧ running r (l, a) = true ∧ a.start + l.record.ttime ≤ nowUs r) := by
  refine ⟨⟨{ saved2 with saved := false }, by decide +kernel, rfl, rfl, rfl, by decide +kernel⟩, by decide +kernel⟩

/-- Every core of the package but core 0 is stopped, and a gang of priority 0 holds the twelve tiles of core 0: a launch of priority 3
that wants them waits. -/
def busy : State :=
  let l := { launch2 with record := { launch2.record with prio := 3 }, kernel := { launch2.kernel with tiles := 12 } }
  let k := coreAt base 0
  { base with
    launches := base.launches ++ [l], sc := 1400 * 100, teams := base.teams.map (fun t => { t with tiles := [List.range 12] })
    cores := (List.range 192).map (fun c => (c, if c = 0 then { k with tileOwner := (List.range 12).map (fun n => (n, 2)) }
      else { Core.reset with unavailable := true })) }

theorem witness_Preemption_busy :
    (findLaunch busy 2).any (fun l => longWait busy l && (drainTarget busy l == some (0, none)) && eligible busy l && (choosePlan busy l).isNone &&
      l.claim.isNone && (claimFor busy l == some (0, none)) && l.record.prio == 3 && ((lower busy l (0, none)).length == 1) &&
      (lower busy l (0, none)).all (fun e => e.1.record.prio == 0)) = true ∧ busy.reservation = none ∧
    (∀ k ∈ busy.launches, longWait busy k = true → k.seq = 2) := by decide +kernel

/-! ### Serving, the device, the port -/

theorem witness_Selection_quant :
    exVal (unpack fp32 0x3F000000) = some (1/2) ∧ exVal (unpack fp32 0xBF800000) = some (-1) ∧ exVal (unpack fp32 0x3F800000) = some 1 := by
  have h : unpack fp32 0x3F000000 = .num false 8388608 1 (-24) := by decide +kernel
  have n : unpack fp32 0xBF800000 = .num true 8388608 1 (-23) := by decide +kernel
  have o : unpack fp32 0x3F800000 = .num false 8388608 1 (-23) := by decide +kernel
  rw [h, n, o]
  refine ⟨?_, ?_, ?_⟩ <;> simp [exVal] <;> norm_num

/-- R400's example: `ScoreQuant(0.1)`; and −1, 1, 2 and NaN. -/
theorem test_scoreQuant :
    (scoreQuant 0x3DCCCCCD, scoreQuant 0xBF800000, scoreQuant 0x3F800000, scoreQuant 0x40000000, scoreQuant 0x7FC00000) =
      (1677722, 0, 16777216, 16777216, 0) := by decide +kernel

/-- Adds to position 3 of the score area at 0x20000, whose page word is 8,204 bytes further. -/
def addScore : Fields := { x0 with a := .s 8, b := .v 4, c := .v 5 }

theorem witness_Selection_sacc :
    let x := addScore
    let s := mapped [(4, 3), (5, 0x3F000000)] at2 []
    let r1 := resolve s.g 0x2000C 4 .write true s
    let r2 := resolve r1.2.g 0x2200C 4 .write true r1.2
    wf [.sacc x] = true ∧ saccOk s.g x = true ∧ saccOk s.g { x with a := .s 9 } = false ∧ readable s.g x [(x.b, 1), (x.c, 1)] ∧ s.g.vPoison = [] ∧
    wholeStrands s.g x = [0] ∧ (read32 s.g x 0 x.b).toNat = 3 ∧ (read64 s.g x 0 x.a) = 0x20000 ∧ r1.1 = .mem 0x2000C ∧ r2.1 = .mem 0x2200C ∧
    r1.2.g = s.g ∧ r2.2.g = s.g ∧ (coreAt r1.2 0).lines = [] ∧ (coreAt r2.2 0).lines = [] ∧ memError r1.2 0x2000C 4 = none ∧
    memError r2.2 0x2000C 4 = none ∧ memError r2.2 0x2200C 4 = none ∧
    2048 ≤ (read32 (mapped [(4, 2048)] at2 []).g x 0 x.b).toNat := by unfold readable; decide +kernel

/-- R401's example: the scores 5, 9, 5, 7, 9, 1, 7 at positions 2 to 8 of 12, two sinks, three recent, three best: bitmap 0x0F4B. -/
theorem test_topk_kept :
    bitBytes (keptOf [0, 0, 5, 9, 5, 7, 9, 1, 7, 0, 0, 0] 12 2 3 3) 2 = leBytes 2 0x0F4B ∧
    ((keptOf [0, 0, 5, 9, 5, 7, 9, 1, 7, 0, 0, 0] 12 2 3 3).filter id).length = 8 := by decide +kernel

theorem witness_Selection_topk :
    let x := { u0 with d := .s 20, a := .s 8, b := .s 12, c := .s 10 }
    let s := mapped [] [(8, 0x20000), (10, 0x28000), (12, 12), (13, 2), (14, 3), (15, 3)] []
    let z := mapped [] [(8, 0x20000), (10, 0x28000)] []
    wf [.topk x] = true ∧ quadOk s.g x = true ∧ holdsQ s.g x = true ∧ (sGet s.g 12).toNat = 12 ∧ (sGet z.g 12).toNat = 0 ∧
    (rangesCheck [(4, .read, 0x20000, 48), (64, .write, 0x28000, 64)] (settleOwn s)).1 = none := by decide +kernel

theorem witness_Selection_kvpack :
    let x := { u0 with d := .s 20, a := .s 8, b := .s 12, c := .s 10 }
    let at_ := fun (n g : Word) (a : Word) => mapped [] [(8, a), (10, 0x28000), (12, 0x24000), (14, n), (15, g)] [1, 1]
    let s := at_ 3 0xA06 0x20000
    let g : Nat → Geometry := geometryOf
    let own : StepProgram := ⟨0, 0, 1, [1, 0, 0, 0], 0, 0, 0, [], [], [], [], [], [], [(0, leBytes 8 0 ++ leBytes 8 0x20000)]⟩
    let b : Sibling := ⟨0, 0, 1, 0, 1, 1, [], [], false, false, none, 0, [], 0, 0, false, [0], []⟩
    wf [.kvpack x] = true ∧ quadOk s.g x = true ∧ holdsQ s.g x = true ∧ kvpackBad 3 (g 0xA06) = false ∧ kvpackBad 0 (g 0xA06) = true ∧
    (0x20040 : Nat) % 65536 ≠ 0 ∧ sharedIn s 0 0x20000 192 = false ∧
    sharedIn { s with programs := [(0, own)], siblings := [b] } 0 0x20000 192 = true ∧
    (rangesCheck [(64, .read, 0x28000, 1)] (settleOwn s)).1 = none ∧
    (let got := rangeRead (doerOf (rangesCheck [(64, .read, 0x28000, 1)] (settleOwn s)).2.g) 0x28000 1 (rangesCheck [(64, .read, 0x28000, 1)] (settleOwn s)).2
     (List.range 3).filter (bitIn got.1) = [] ∧ (rangesCheck (packRanges 0x20000 0x24000 3 0 (g 0xA06) []) got.2).1 = none) ∧
    (let w := waiting (.waitServing (.topk 20 8)) 0; findGroup w w.g.gid = some w.g ∧ w.g.status = .waitServing (.topk 20 8)) ∧
    (let w := waiting (.waitServing (.kvpack 20 8)) 0; findGroup w w.g.gid = some w.g ∧ w.g.status = .waitServing (.kvpack 20 8)) := by
  decide +kernel

/-- A `KVPACK` of three tokens under way, of which `keep` stay; and accesses of one page, one leaf and one frame. -/
theorem witness_Selection_pieces :
    let w := waiting (.waitServing (.kvpack 20 1)) 0
    let k := fun (keep : List Nat) => (⟨doerOf w.g, 1, 0x20000, 0x24000, 3, 0xA06, keep, 0⟩ : Pack)
    let s := fun (keep : List Nat) => { w with packs := [k keep] }
    (s [1]).packs.find? (fun j => j.doer.gid == 2) = some (k [1]) ∧ 0 < (packMoves [1]).length * (2 ^ (geometryOf 0xA06).logTb / 64) ∧
    (s [0]).packs.find? (fun j => j.doer.gid == 2) = some (k [0]) ∧ (packMoves [0]).length * (2 ^ (geometryOf 0xA06).logTb / 64) ≤ 0 ∧
    (findGroup (s [0]) 2).any (fun g => decide (g.tid = 1 ∧ g.status = .waitServing (.kvpack 20 1))) = true ∧ (s [0]).pending = [] ∧
    (let p := fun (a : Acc) => devPlace (doerOf tables.g).eid (doerOf tables.g).die 0x100 a tables
     (p .read).1 = .mem 0x20100 ∧ memError (p .read).2 0x20100 8 = none ∧ (p .write).1 = .mem 0x20100) ∧
    walkFrom tables 0 levels (engOf tables 0).root none = .leaf 0x2001B 0x80000 16 := by decide +kernel

/-- R402's example: the moves of the tokens kept by the bitmap of R401's. -/
theorem test_kvpack_moves :
    packMoves ((List.range 12).filter (bitIn (leBytes 2 0x0F4B))) = [(3, 2), (6, 3), (8, 4), (9, 5), (10, 6), (11, 7)] := by decide +kernel

theorem witness_BallotMessages :
    let r := { u0 with d := .s 20, a := .s 8, b := .s 10 }
    let p := { u0 with d := .s 20, a := .s 8 }
    let b := { u0 with d := .s 20, a := .s 8 }
    let no := { r with g2 := ⟨true, 7⟩ }
    let s := base
    wf [.breg r, .bpost p, .bstat b, .breg no] = true ∧ holdsQ s.g no = false ∧ holdsQ s.g r = true ∧ holdsQ s.g p = true ∧
    (!isLong r && isS r.d && isSPair r.a && isSPair r.b && regsOk s.g [(r.d, 1), (r.a, 2), (r.b, 2)]) = true ∧
    (isS p.d && isSPair p.a && regsOk s.g [(p.d, 1), (p.a, 2)]) = true ∧
    (isSPair b.d && (isS b.a || isShort b.a) && regsOk s.g [(b.d, 2), (b.a, 1)]) = true ∧ allQuiet s s.g.gid := by
  unfold allQuiet; decide +kernel

/-- Two sibling groups of engagement 0: the first has members 0 and 1, one post away from its quorum; the second has only
member 2. A third, of members 4 to 6 and with quorum 3, is decided. -/
def ballots : State :=
  let b : Sibling := ⟨0, 0, 3, 0, 2, 0, [⟨0, 77, 0⟩], [], false, false, none, 0, [], 0, 0, false, [0, 1], []⟩
  let prog : StepProgram := ⟨0, 0, 64, [64, 0, 0, 0], 0, 0, 5, [], [], [2], [], [], [], []⟩
  { base with
    programs := [(0, prog)]
    siblings := [b, ⟨1, 0, 4, 0, 1, 0, [], [], false, false, none, 0, [], 0, 0, false, [2], []⟩,
      ⟨2, 0, 0x70, 0, 3, 0, [⟨4, 5, 0⟩], [], true, false, some 5, 3, [5, 6], 0, 0, false, [], []⟩] }

/-- A message of group 2 for a slot. -/
def hreq (slot : Option Nat) (w0 w1 : DWord) (sel : Nat) : HalleyReq := ⟨2, 0, slot, w0, w1, sel⟩

theorem witness_Ballots :
    let s := ballots
    bregBad s (hreq none 0 0 0) = true ∧ bregBad s (hreq none 3 0x20000 0) = false ∧ (siblingOf s 0 0).isSome = true ∧
    (let r := hreq none (0x300) 0x20000 0
     bregBad s r = false ∧ (∀ m ∈ (bitsOf 64 r.w0).map (· + r.w1.toNat % 8192), (siblingOf s r.eid m).isSome = false)) ∧
    siblingOf s 0 9 = none ∧ (siblingOf s 0 1).any (fun b => !b.decided && b.posts.all (fun p => p.slot != 1) && countOf_ b 77 + 1 == b.q &&
      countOf_ b 78 + 1 != b.q) = true ∧ (siblingOf s 0 0).any (fun b => !b.decided && b.posts.any (fun p => p.slot == 0)) = true ∧
    (siblingOf s 0 4).any (·.decided) = true ∧ (∀ b ∈ s.siblings, ¬(b.gid = 9 ∧ b.eid = 0)) ∧
    (s.siblings.find? (fun b => b.gid == 2 && b.eid == 0)).any (fun b => b.winner == some 5 && b.decided) = true ∧
    (programOf s 0).any (fun p => p.cancel.contains 2 && !p.cancel.contains 3) = true ∧
    (let w := waiting (.waitServing (.halley 20 true)) 0; findGroup w w.g.gid = some w.g ∧ w.g.status = .waitServing (.halley 20 true)) ∧
    (let w := waiting (.waitServing (.halley 20 false)) 0; findGroup w w.g.gid = some w.g ∧ w.g.status = .waitServing (.halley 20 false)) := by
  decide +kernel

/-- Every id of `Halley`'s table is taken. -/
def fullTable : State :=
  { base with siblings := (List.range 512).map (fun k => ⟨k, 1, 1, 0, 1, 0, [], [], false, false, none, 0, [], 0, 0, false, [], []⟩) }

theorem witness_Ballots_full : freeSiblings ballots ≠ [] ∧ freeSiblings fullTable = [] := by
  refine ⟨by decide +kernel, ?_⟩
  unfold freeSiblings
  rw [List.filter_eq_nil_iff]
  intro k hk
  simpa [fullTable] using hk

/-- R408's example: status word 0 of an undecided group of quorum 5 with one post and eight members. -/
theorem test_bstat :
    bstatValue base ⟨0, 0, 0xFF, 0, 5, 0, [⟨0, 77, 0⟩], [], true, false, some 77, 0, [], 0, 0, false, [], []⟩ 0 = 0x0000000800010501 := by
  decide +kernel

/-- Engagement 0 has a step program of two slots, and a step of it waits. -/
def stepping (st : Option Nat) (n : Nat) : State :=
  { base with
    programs := [(0, ⟨0, 0, 2, [2, 0, 0, 0], 0x20000, 0x30000, 0, [], [], [], [], [], [], []⟩)]
    launches := base.launches ++ [{ launch2 with isStep := true, step := st, nextGang := n, endedGangs := (List.range n) }] }

theorem witness_Steps :
    (findLaunch (stepping none 0) 2).any (fun l => l.seq == 2 && l.record.eng == 0 && mayStart (stepping none 0) l) = true ∧
    (programOf (stepping none 0) 0).isSome = true ∧
    (findLaunch (stepping (some 1) 1) 2).any (fun l => l.step == some 1 && launchOver (stepping (some 1) 1) { l with step := none }) = true ∧
    (let v : KvCopy := ⟨0, 0, 1, 9, false, 0, 0, []⟩
     let s := { stepping none 0 with kv := [v] }
     leaving s v = false ∧ nextPromotion s 0 0 1 = some v ∧ nextPromotion { s with poison := [9216] } 0 0 1 = some v ∧ (programOf s 0).isSome = true ∧ memError s 589824 65536 = none ∧
     memError { s with poison := [9216] } 589824 65536 ≠ none) := by decide +kernel

theorem witness_Steps_entry :
    let p : StepProgram := ⟨0, 0, 2, [2, 0, 0, 0], 0x20000, 0x30000, 0, [], [], [], [], [], [], []⟩
    let run := leBytes 4 1 ++ List.replicate 60 0
    entryField run 0 4 % 2 = 1 ∧ entryRejected p 0 run = false ∧ entryRejected p 0 (leBytes 4 0x21 ++ List.replicate 60 0) = true ∧
    entryField (List.replicate 64 0) 0 4 % 2 = 0 := by decide +kernel

theorem witness_StoreSteps :
    let s := { base with wgcfg := [(16 * 3 + 2, ⟨0, true, 0, 1⟩), (16 * 3 + 4, ⟨0, true, 1, 2⟩), (16 * 3 + 5, ⟨0, true, 2, 0⟩)] }
    let b : BankRef := ⟨3, 2, 1⟩
    let t := { handle0 0 2 with wgcfg := s.wgcfg, handles := [(0, { Handle.fresh with frames := [48 * (16 * 3 + 4) + 7] })] }
    (t.handles.map (·.1)).Nodup ∧ handlesIn t 3 4 = t.handles ∧ (wgOf t 3 4).busy = true ∧ (wgOf t 3 4).role = 1 ∧ blocksChange t (0, Handle.fresh) = false ∧
    (t.handles.all (fun e => !blocksChange t e && !handleBusy t (e.1 / 16384) (e.1 % 16384))) = true ∧
    (wgOf s 3 2).busy = true ∧ (wgOf s 3 4).busy = true ∧ (wgOf s 3 4).role = 1 ∧ handlesIn s 3 4 = [] ∧ (wgOf s 3 5).role = 2 ∧
    bankOk b = true ∧ warmed { base with sc := 100, buses := [(2, ⟨none, false, 0, 70, 0, 0⟩)] } 2 73 = true ∧ warmed base 2 2 = false ∧
    Sparse.get 0 (rowKey b 1535) s.refreshed + deadlineSc (Sparse.get 0 (storeKey (sliceDie b.slice) b.storeDie) s.band) ≤ { s with sc := 12600 }.sc := by
  decide +kernel

theorem witness_DieSteps :
    let s := { base with sc := 2800000 }
    let d := { s with buses := [(1, ⟨some 0, false, 0, 0, 0, 0⟩)] }
    let r := { s with buses := [(1, ⟨none, true, 0, 0, 2798320, 0⟩)] }
    let w := { r with others := [{ Group.init with gid := 9, die := 1, status := .waitCounter 0 1 7 false 0 0 }], ac := 5 }
    (busOf s 1).running = false ∧ s.phase = 5 ∧ guarded s 1 = false ∧ dueAt s 1 = some 2800000 ∧ dueAt d 1 = some 0 ∧ 0 + 56000 ≤ d.sc ∧
    (busOf r 1).running = true ∧ (busOf r 1).began + 1680 ≤ r.sc ∧ (findGroup w 9).any (fun g => g.die == 1 && g.gid == 9) = true ∧
    (let c := { waiting (.waitCounter 0 1 7 false 0 0) 0 with sc := 2800000, pending := [.counterAddArrival ⟨1, 0, 0, false, 0, 1, 0, ⟨0, 0, 0⟩, none, 0, none, 0⟩] }
     guarded c 0 = true ∧ dueAt c 0 = some 2800000) ∧
    (let p := { base with power := 2500 }; p.pstep < 5 ∧ p.capw < p.power) ∧
    (let p := { base with pstep := 1, sc := 14000000 }; 0 < p.pstep ∧ 10 * p.power < 9 * p.capw ∧ p.coolSince + 14000000 ≤ p.sc) ∧
    (let p := { base with temps := [(0, 115)] }; p.ttrip ≤ Sparse.get 0 0 p.temps ∧ (coreAt p 0).unavailable = false) ∧
    (let p := { base with log := [⟨0, 0, 0, 0, 0, 0, 0, 0⟩], sc := 140000000 }; p.log ≠ [] ∧ p.lastSeal + 140000000 ≤ p.sc ∧
      p.linkUp = false ∧ 1 ≤ p.phase ∧ p.linkTry + 140000000 ≤ p.sc) ∧
    State.reset.recovery = false ∧ State.reset.phase = 0 ∧ ({ base with phase := 3 }).recovery = false := by decide +kernel

/-- The system connection's request with its other fields. -/
def sreq (code arg : Nat) (addr arg2 : DWord) (p : List Byte) : Msg := { smsg (code + arg) p with addr := addr, arg2 := arg2 }

theorem sreq_ok (code arg : Nat) (a b : DWord) (p : List Byte) (s : State) (h3 : 3 ≤ s.phase) (hr : s.recovery = false)
    (hp : p.length < 2 ^ 32) (hc : argBits (sreq code arg a b p) 7 0 = code) : sysReq (linked s) (sreq code arg a b p) code := by
  refine ⟨⟨2, true, 0, false, false⟩, ?_, rfl, rfl, ?_, rfl, rfl, hc, ?_⟩
  · simp [connOf, linked, sreq, smsg, h3]
  · simpa [hdrOk, sreq, smsg] using hp
  · simp [linked, hr]

/-- The engagement's message with its other fields. -/
def ereq (op : Byte) (arg : Word) (addr arg2 : DWord) (p : List Byte) : Msg := { emsg op p with arg := arg, addr := addr, arg2 := arg2 }

theorem ereq_ok (op : Byte) (arg : Word) (a b : DWord) (p : List Byte) (s : State) (h : (engOf s 0).st = .live) (h3 : 3 ≤ s.phase) :
    engReq (linked s) (ereq op arg a b p) op.toNat 0 := emsg_req op p s h h3

/-- Whether a message's address lies at a place, as the statement asks. -/
def liesAt (s : State) (va : DWord) (acc : Acc) (pa : Nat) : Prop :=
  let r := devPlace 0 0 va acc s
  r.1 = .mem pa ∧ devPlace 0 0 va acc r.2 = (.mem pa, r.2)

theorem witness_PortAccess :
    let s := linked { tables with programs := [(0, ⟨0, 0, 2, [2, 0, 0, 0], 0x1000, 0x2000, 0, [], [], [], [], [], [], []⟩)] }
    (engOf s 0).st = .live ∧ 3 ≤ s.phase ∧ s.watches = [] ∧ liesAt s 0x100 .read 0x20100 ∧ liesAt s 0x100 .write 0x20100 ∧
    liesAt s 0x1040 .write 0x21040 ∧ memError (devPlace 0 0 0x100 .read s).2 0x20100 8 = none ∧
    memError (devPlace 0 0 0x100 .write s).2 0x20100 8 = none ∧
    ({ ereq 2 0 0x100 0 [] with len := 8 }).len.toNat = 8 ∧ (ereq 3 0 0x100 0 (leBytes 8 5)).len.toNat = 8 ∧
    (ereq 4 1 0 0 (List.replicate 64 0)).len.toNat = 64 ∧ (programOf s 0).any (fun p => p.nslot == 2) = true ∧
    leNat (memRead (devPlace 0 0 0x100 .write s).2 0x20100 8) + 5 < 2 ^ 64 ∧
    2 ^ 64 ≤ leNat (memRead (devPlace 0 0 0x100 .write (memWrite 0x20100 (leBytes 8 (2 ^ 64 - 1)) s)).2 0x20100 8) + 5 := by
  unfold liesAt; decide +kernel

theorem witness_PortAccess_cadd :
    let s := linked base
    let m := ereq 5 3 0 1 (leBytes 8 5)
    (findLaunch s 1).any (fun l => l.record.eng == 0 && l.phase == .queued && decide (m.arg.toNat / 256 < l.record.ngang) &&
      decide (m.arg.toNat / 16 % 16 < l.nteams)) = true ∧ (addTeam s (caddOf m s)).isSome = true ∧
    (ctrAt s 0 3).val.toNat + leNat m.payload < 2 ^ 64 := by decide +kernel

/-- Image 0 with a graph of two nodes, the second after the first. -/
def graphed (b : List Byte) : State := { base with images := base.images.map (fun i => (i.1, { i.2 with graph := [b, b], edges := [(0, 1)] })) }

theorem witness_PortAccess_graph :
    let i := fun (b : List Byte) => (assoc 0 (graphed b).images).any (fun i => i.eid == 0 && i.graph != [] && patchSize i == 0 && patchWrites i [] == [])
    i record0 = true ∧ i (List.replicate 64 1) = true ∧ (∀ b ∈ [record0, record0], nodeOk (linked (graphed record0)) 0 b = true) ∧
    nodeOk (linked (graphed (List.replicate 64 1))) 0 (List.replicate 64 1) = false ∧
    (assoc 0 (graphed record0).images).any (graphFits (linked (graphed record0))) = true := by decide +kernel

theorem witness_Peers :
    let s := { linked tables with windows := [⟨4, 0, 0x100, 0x1000, 3⟩] }
    let m : Msg := ⟨3, 7, 0, 0, 0, 9, 0x40, 8, 0x400, 0, [], true⟩
    let w : Msg := { m with arg := 0x401, payload := leBytes 8 7 }
    peerOk m = true ∧ peerOk w = true ∧ peerOk { m with xsel := 1 } = false ∧ m.eng.toNat = 0 ∧ (engOf s 0).st = .live ∧ m.len.toNat = 8 ∧
    ({ m with eng := 5 }).eng.toNat ≠ 0 ∧ (connOf s { m with auth := false }).isSome = true ∧
    (connOf s m).any (fun k => k.peer) = true ∧ (connOf s w).any (fun k => k.peer) = true ∧
    s.windows.find? (fun w => w.id == m.arg.toNat / 256 % 256 && w.conn == m.conn && w.eid == 0) = some ⟨4, 0, 0x100, 0x1000, 3⟩ ∧
    m.arg.toNat % 256 = peerRead ∧ w.arg.toNat % 256 = peerWrite ∧ (devPlace 0 0 0x140 .read s).1 = .mem 0x20140 ∧
    (devPlace 0 0 0x140 .write s).1 = .mem 0x20140 ∧ memError (devPlace 0 0 0x140 .read s).2 0x20140 8 = none ∧
    memError (devPlace 0 0 0x140 .write s).2 0x20140 8 = none ∧ 0x1000 < ({ m with addr := 0xFFC }).addr.toNat + 8 := by decide +kernel

theorem witness_Peers_answer :
    let s := { waiting (.waitPeer 9) 0 with accs := [⟨9, 2, 1, .peer 0x30000 0 false (.v 4) .f32 1 true none⟩] }
    s.accs.find? (fun a => a.id == 9) = some ⟨9, 2, s.g.tid, .peer 0x30000 0 false (.v 4) .f32 1 true none⟩ ∧ findGroup s 2 = some s.g ∧ s.g.gid = 2 ∧
    s.g.status = .waitPeer 9 ∧ peerCause .refused = some (0x08, 0x17) ∧ handlerOf s s.g ≠ none ∧ inHandler s.g = false ∧
    s.g.stopping = false ∧ terminates 0x08 = false ∧ kvStop s s.g ⟨0x08, 0x17, some 0x30000, 0⟩ = false ∧
    (linked base).linkUp = true ∧ 3 ≤ (linked base).phase ∧ (∃ k ∈ (linked base).conns, k.id = 1) := by decide +kernel

theorem witness_Engagements :
    let c := sreq 1 0 0 0 (List.replicate 32 0)
    (engOf base 0).st = .live ∧ freeEids (linked base) ≠ [] ∧ (takeFrame (tableOwner 64) 0 false (linked base)).isSome = true ∧
    c.payload.length = 32 ∧ argOnly c 0 = true ∧ pay c 28 4 = 0 ∧ pay c 24 4 < 512 ∧ bitsAt (pay c 24 4) 7 6 = 0 ∧
    argBits c 7 0 = 1 ∧ (let x := sreq 2 0 0 0 (List.replicate 32 1); argOnly x eidMask = true ∧ argEid x = 0 ∧ argBits x 7 0 = 2) ∧
    (let e := { base with engs := [(0, { Engagement.free with st := .exiting })], teams := [], launches := [] }
     (engOf e 0).st = .exiting ∧ allCommands e = []) ∧
    (let a := sreq 0x18 0 0 0 (List.replicate 32 1); argOnly a 0x7F00 = true ∧ argBits a 14 8 = 0 ∧ argBits a 7 0 = 0x18) ∧
    (let a := sreq 0x18 0x4000 0 0 (List.replicate 32 1); argOnly a 0x7F00 = true ∧ argBits a 14 14 = 1 ∧ argEid a = 0 ∧ argBits a 7 0 = 0x18) ∧
    (let a := sreq 0x29 0 0 0 []; argOnly a 0 = true ∧ argBits a 7 0 = 0x29) ∧
    (let a := sreq 0x2A 0 0 0 []; argOnly a 0x100 = true ∧ argBits a 8 8 = 0 ∧ argBits a 7 0 = 0x2A) ∧
    (let a := sreq 0x2A 0x100 0 0 []; argOnly a 0x100 = true ∧ argBits a 8 8 = 1 ∧ argBits a 7 0 = 0x2A) ∧
    (let a := sreq 0x28 0 0 64 [1]; argOnly a 0 = true ∧ a.addr.toNat + 1 < a.arg2.toNat ∧ argBits a 7 0 = 0x28) ∧
    (let a := sreq 0x28 0 0 1 [1]; argOnly a 0 = true ∧ a.addr.toNat + 1 = a.arg2.toNat) := by decide +kernel

theorem witness_Engagements_none :
    freeEids { base with engs := (List.range 64).map (fun k => (k, { Engagement.free with st := .live })) } = [] := by decide +kernel

theorem witness_Mappings_map :
    let s := linked tables
    let m := sreq 3 0 0x30000 0 (leBytes 8 0x20000 ++ leBytes 4 1 ++ leBytes 4 0x80)
    let g := sreq 3 0 (BitVec.ofNat 64 (2 ^ 35)) 0 (leBytes 8 poolFrame ++ leBytes 4 1 ++ leBytes 4 0x881)
    (engOf s 0).st = .live ∧ argEid m = 0 ∧ argBits m 7 0 = 3 ∧ mapOk m = true ∧ rangeMapped s 0 0x30000 65536 = false ∧ bitsAt (pay m 12 4) 11 11 = 0 ∧
    (mapRun 0 0 0 (pay m 12 4) (pay m 8 4) m.addr (if pay m 0 8 = poolFrame then none else some (pay m 0 8 / 65536)) s).toOption.isSome = true ∧
    mapOk g = true ∧ bitsAt (pay g 12 4) 11 11 = 1 ∧ (mapGrow 0 (pay g 12 4) (pay g 8 4) g.addr s).toOption.isSome = true := by decide +kernel

/-- `tables`, with owners for the frames of the tables. -/
def standing : State := { tables with frames := (1, ⟨1, false⟩) :: (List.range 5).map (fun k => (4 + k, ⟨tableOwner 64, false⟩)) }

theorem standing_tables (va : Nat) (h : (pteWay standing va levels 0x40000).Pairwise (fun a b => a.2 + 8 ≤ b.2 ∨ b.2 + 8 ≤ a.2))
    (o : ∀ a ∈ pteWay standing va levels 0x40000, a.2 + 8 ≤ 2 ^ 39 ∧ (frameOf standing a.2).owner ≠ 0 ∧ (frameOf standing (a.2 + 7)).owner ≠ 0)
    (g : ∀ a ∈ pteWay standing va levels 0x40000, pteBit (readPte standing a.1 a.2) 0 = true → pteBad a.1 (readPte standing a.1 a.2) = false) :
    TablesStand standing 0 va :=
  ⟨h, o, g, fun _ _ h => absurd h (List.not_mem_nil)⟩

/-- A page, a grow range and a large page can go where the tables stand. -/
theorem witness_Mappings_tables : TablesStand standing 0 0x30000 ∧ TablesStand standing 0 0x200000 :=
  ⟨standing_tables _ (by decide +kernel) (by decide +kernel) (by decide +kernel),
    standing_tables _ (by decide +kernel) (by decide +kernel) (by decide +kernel)⟩

theorem witness_Mappings_pages :
    (mapRun 0 0 0 0x80 1 0x30000 none standing).toOption.isSome = true ∧ (mapRun 0 3 0 0x80 1 0x30000 (some 0x7FFFFF) standing).toOption.isSome = true ∧
    (mapRun 0 0 1 0x500 1 0x200000 none standing).toOption.isSome = true ∧ (mapRun 0 0 0 0x80 2 0x30000 none standing).toOption.isSome = true ∧
    (mapGrow 0 0x1400 1 0x200000 standing).toOption.isSome = true ∧ (mapWindow 0 255 255 1 (2 ^ 20 - 1) 0x30000 standing).toOption.isSome = true ∧
    (loadCode 0 [List.replicate 65536 1] 0x30000 standing).isSome = true ∧ (List.replicate 65536 (1 : Byte)).length = 65536 := by
  refine ⟨?_, ?_, ?_, ?_, ?_, ?_, ?_, List.length_replicate⟩ <;> decide +kernel

theorem witness_Mappings_unmap :
    let s := linked tables
    (let u := sreq 4 0 0 0x10000 []
     argBits u 7 0 = 4 ∧ argOnly u eidMask = true ∧ leavesIn s 0 0x10000 1 0 = [(0x80000, 0, 65536)] ∧ heldByStep s 0 0 0x10000 = false) ∧
    (let own : StepProgram := ⟨0, 0, 1, [1, 0, 0, 0], 0, 0, 0, [], [], [], [], [], [], [(0, leBytes 16 0)]⟩
     let b : Sibling := ⟨0, 0, 1, 0, 1, 1, [], [], false, false, none, 0, [], 0, 0, false, [0], []⟩
     heldByStep { s with programs := [(0, own)], siblings := [b], launches := [{ launch2 with step := some 1 }] } 0 0 0x10000 = true) ∧
    (let r := sreq 5 0 0 1 []
     argBits r 7 0 = 5 ∧ argOnly r (eidMask + 0x30000) = true ∧ (Sparse.get [] 0 (refillList 0 0 1 s).freeList).length = 1 ∧
     (Sparse.get [] 0 s.freeList).length = 0) := by decide +kernel

theorem witness_Mappings_windows :
    let s := linked tables
    (let e := sreq 0x10 0 0 0x10000 (leBytes 4 3)
     argBits e 7 0 = 0x10 ∧ argOnly e eidMask = true ∧ (∃ k ∈ s.conns, k.id = pay e 0 4 ∧ k.peer = true) ∧ s.windows.length < 256) ∧
    (let i := sreq 0x11 0 0x40000 0x10000 (leBytes 4 3 ++ leBytes 4 9)
     argBits i 7 0 = 0x11 ∧ argOnly i eidMask = true ∧ pay i 0 4 = 3 ∧ pay i 4 4 = 9 ∧ (mapWindow 0 3 9 1 0 0x40000 s).toOption.isSome = true) ∧
    (let v := sreq 0x12 0x400 0 0 []; argBits v 7 0 = 0x12 ∧ argOnly v 0xFF00 = true ∧ argBits v 15 8 = 4) ∧
    (let w := sreq 0x14 0x1F00300 0 0x10000 []
     argBits w 7 0 = 0x14 ∧ argOnly w 0x1FFFF00 = true ∧ argBits w 19 14 = 0 ∧ 0 < ({ engOf s 0 with logp := 2 }).logp.toNat % 64) ∧
    (let c := sreq 0x15 0x300 0 0 []; argBits c 7 0 = 0x15 ∧ argOnly c eidMask = true) := by decide +kernel

/-- An image with no section: the header with its digest (R124). -/
def image64 : List Byte :=
  leBytes 4 0x494E5954 ++ leBytes 4 0x100 ++ leBytes 8 0 ++ leBytes 8 64 ++
  leBytes 32 64391059471268704351568449970079128729237046272855237342145093005681633962063 ++ leBytes 8 0

/-- An image of one kernel with one slot (R124 to R126): header, three sections, the kernel record, the slot, the slot map. Its
digest was computed outside the model. -/
def image321 : List Byte :=
  leBytes 4 0x494E5954 ++ leBytes 4 0x100 ++ leBytes 8 3 ++ leBytes 8 321 ++
  leBytes 32 0x2FE6EC043687A679A7C2179358026407B786B18A8ADE77D873DA495E72239435 ++ leBytes 8 0 ++
  [(4, 192, 64), (5, 256, 12), (6, 320, 1)].flatMap (fun (e : Nat × Nat × Nat) => leBytes 8 e.1 ++ leBytes 8 e.2.1 ++ leBytes 8 e.2.2) ++ leBytes 56 0 ++
  leBytes 8 0 ++ leBytes 12 1 ++ leBytes 4 (16 + 2 ^ 24 * 0) ++ [1, 1, 1, 0] ++ leBytes 4 0 ++ leBytes 8 (2 ^ 20) ++ leBytes 24 0 ++ leBytes 64 0 ++ [1]

/-- The published value of SHAKE256 of no bytes. -/
theorem test_shake256 : (shake256 []).take 4 = [0x46, 0xB9, 0xDD, 0x2B] := by decide +kernel

theorem test_image : imageOk image321 = true := by decide +kernel

theorem code_none (s : State) (eid : Nat) : codeRange s eid 0 = some (Config.codePage s.ctr % 2 ^ 40) := by
  have h : Config.codePage s.ctr % 2 ^ 40 < 2 ^ 40 := Nat.mod_lt _ (Nat.two_pow_pos 40)
  rw [codeRange, seekFuel, seekRange, if_neg (by omega)]
  rfl

/-- The image stands at VA 0. -/
def imaged : State := linked (memWrite 0x20000 image64 tables)

theorem imaged_reads : (readVa 0 0 64 imaged).1 = .bytes image64 ∧ imageOk image64 = true ∧
    kernelCount (readVa 0 0 64 imaged).2 + (sectionBytes image64 4).length / 64 ≤ 256 ∧
    (List.range 256).find? (fun k => (assoc k (readVa 0 0 64 imaged).2.images).isNone) = some 1 ∧
    ceilDiv (sectionBytes image64 5).length 65536 = 0 ∧ codePages (sectionBytes image64 5) = [] := by decide +kernel

theorem load_witness (s : State) (b : List Byte) (h : (readVa 0 0 64 s).1 = .bytes b)
    (k : kernelCount (readVa 0 0 64 s).2 + (sectionBytes b 4).length / 64 ≤ 256)
    (f : (List.range 256).find? (fun k => (assoc k (readVa 0 0 64 s).2.images).isNone) = some 1)
    (c : ceilDiv (sectionBytes b 5).length 65536 = 0) (d : codePages (sectionBytes b 5) = []) (i : imageOk b = true) :
    ∃ s1 slot p, readVa 0 0 64 s = (.bytes b, s1) ∧ imageOk b = true ∧ kernelCount s1 + (sectionBytes b 4).length / 64 ≤ 256 ∧
    (List.range 256).find? (fun k => (assoc k s1.images).isNone) = some slot ∧
    codeRange s1 0 (ceilDiv (sectionBytes b 5).length 65536) = some p ∧
    loadCode 0 (codePages (sectionBytes b 5)) (BitVec.ofNat 64 (65536 * p)) s1 = some s1 :=
  ⟨(readVa 0 0 64 s).2, 1, _, Prod.ext h rfl, i, k, f, by rw [c]; exact code_none _ _, by rw [d]; rfl⟩

theorem witness_Residents_load : ∃ s1 slot p, readVa 0 0 64 imaged = (.bytes image64, s1) ∧ imageOk image64 = true ∧
    kernelCount s1 + (sectionBytes image64 4).length / 64 ≤ 256 ∧
    (List.range 256).find? (fun k => (assoc k s1.images).isNone) = some slot ∧
    codeRange s1 0 (ceilDiv (sectionBytes image64 5).length 65536) = some p ∧
    loadCode 0 (codePages (sectionBytes image64 5)) (BitVec.ofNat 64 (65536 * p)) s1 = some s1 :=
  let ⟨h, i, k, f, c, d⟩ := imaged_reads
  load_witness imaged image64 h k f c d i

theorem witness_Residents :
    let s := linked base
    let p := { s with programs := [(0, ⟨0, 0, 2, [2, 0, 0, 0], 0, 0, 0, [], [], [], [], [], [], []⟩)] }
    (let u := sreq 9 0x100 0 0 []
     argBits u 7 0 = 9 ∧ argOnly u 0xFFFF00 = true ∧ (assoc (argBits u 23 8) { s with images := [(1, ⟨0, 0, 0, [], [], [], [], []⟩)] }.images).isSome = true ∧
     (∀ l ∈ s.launches, l.phase ≠ .complete → l.record.img ≠ argBits u 23 8) ∧
     (∃ l ∈ [{ launch2 with phase := .adding, record := { launch2.record with img := 1 } }], l.phase ≠ .complete ∧ l.record.img = argBits u 23 8)) ∧
    (let r := sreq 0xA 0 0 0 (leBytes 8 0 ++ leBytes 4 2 ++ leBytes 4 2 ++ leBytes 12 0 ++ leBytes 8 0x1000 ++ leBytes 8 0x2000)
     let e := { s with launches := [] }
     r.payload.length = 44 ∧ argBits r 7 0 = 0xA ∧ argOnly r eidMask = true ∧ programOf e 0 = none ∧
     (assoc (pay r 0 4) e.images).any (fun i => i.eid == 0 && decide (pay r 4 4 < i.kernels.length)) = true ∧ pay r 8 4 = 2 ∧
     pay r 12 4 + pay r 16 4 + pay r 20 4 + pay r 24 4 = 2 ∧ pay r 28 8 = 0x1000 ∧ pay r 36 8 = 0x2000) ∧
    (let u := sreq 0xB 0 0 0 []
     argBits u 7 0 = 0xB ∧ argOnly u eidMask = true ∧ (programOf p 0).isSome = true ∧
     (∀ l ∈ p.launches, l.phase = .queued → l.record.eng = 0 → l.isStep = false)) := by decide +kernel

/-- The engagement's handle table lies at VA 0 of `tables`. -/
theorem witness_Residents_handles :
    let s := linked tables
    (let w := sreq 0xC 0 0 0 (leBytes 4 1 ++ leBytes 4 0 ++ leBytes 8 64 ++ leBytes 48 0)
     argBits w 7 0 = 0xC ∧ argOnly w (eidMask + 0xFFFC0000) = true ∧ argHandle w = 0 ∧ descriptorOk w.payload = true ∧ readDesc s 0 0 = none ∧
     (writeVa 0 (descAddr s 0 0) (w.payload.take 4 ++ leBytes 4 1 ++ (w.payload.drop 8).take 32 ++ List.replicate 24 0) 0 s).1 = none) ∧
    (let f := sreq 0xD 0 0 0 []
     let s := memWrite 0x20000 (leBytes 4 1 ++ leBytes 4 1 ++ leBytes 56 0) s
     argBits f 7 0 = 0xD ∧ argOnly f (eidMask + 0xFFFC0000) = true ∧ argHandle f = 0 ∧
     (readDesc s 0 0).any (fun d => d.kind != 2 && !leaseHolds s d && d.state != 3) = true) := by decide +kernel

theorem witness_Residents_launches :
    let s := linked base
    (let m := sreq 0x19 0 0 1 (leBytes 4 0 ++ leBytes 4 1)
     argBits m 7 0 = 0x19 ∧ argOnly m 0 = true ∧ (findLaunch s m.arg2.toNat).any (fun l => l.phase == .queued && l.placed.any (fun a => a.gang == 0)) = true) ∧
    (let m := sreq 0x19 0 0 1 (leBytes 4 5 ++ leBytes 4 1)
     (findLaunch s 1).any (fun l => l.placed.all (fun a => decide (a.gang < pay m 0 4))) = true ∧ (∀ v ∈ s.saved, v.launch = 1 → v.saved = true)) ∧
    (let m := sreq 0x1A 0 0 1 []
     argBits m 7 0 = 0x1A ∧ (findLaunch s m.arg2.toNat).any (fun l => l.phase == .queued) = true ∧
     (∀ tm ∈ s.teams, tm.launch = 1 → findTeam s tm.tid = some tm ∧ tm.terminated = none)) := by decide +kernel

/-- Selectors: a core's registers, a way-group, and one that does not exist; and a write of each register that software owns. -/
theorem witness_DeviceRegisters :
    let w := fun (sel : DWord) => sreq 0x21 0 0 sel (leBytes 8 1)
    argBits (w 2) 7 0 = 0x21 ∧ argOnly (w 2) 0 = true ∧ (w 2).payload.length = 8 ∧ argBits (sreq 0x20 0 0 1 []) 7 0 = 0x20 ∧
    ([1, 2, 3, 4, 5, 6, 7, 8] : List DWord).all registerOk = true ∧ registerOk 0 = false ∧ registerOk 9 = false ∧
    (selectorOf 0x40850203).reg = 3 ∧ registerOk 0x40810003 = false ∧ registerOk 0x40400F03 = true ∧ registerOk 0xC02F0002 = true := by decide +kernel

theorem witness_RequestChecks :
    let s := linked base
    (connOf s (emsg 1 [])).any (fun k => !k.system) = true ∧ (connOf s (smsg 1 [])).any (fun k => k.system) = true ∧
    hdrOk { smsg 1 [] with flg := 2 } 0x06 = false ∧ (connOf { s with recovery := true } (smsg 1 [])).isSome = true ∧
    inRecovery (argBits (smsg 1 []) 7 0) = false ∧ (emsg 9 []).op.toNat ≠ 1 ∧ ({ emsg 1 [] with eng := 5 }).eng.toNat ≠ 0 := by decide +kernel

/-! ### Several strands, ordered accesses, and further forms of commands -/

/-- Two strands, whose addresses in `mapped` are 0x20000 and `n` bytes further. -/
def strands2 (n : Word) (bs : List Byte) : State :=
  let s := mapped [(6, 0), (256 + 6, n), (4, 0x11), (256 + 4, 0x22), (5, 7), (256 + 5, 9)] at2 bs
  setG { s.g with live := 3, active := 3 } s

/-- A whole line of the memory at 0x20000 in the L1, under its lease. -/
def cachedLine (s : State) : State := modCore 0 (putLine { newLine 0x800 0 0x20000 with valid := 0xFFFF, lease := 1 }) s

theorem witness_GlobalAccess_strands :
    let l := { x0 with d := .v 4, a := .s 8, b := .v 6 }
    let t := { x0 with a := .s 8, b := .v 6, c := .v 4 }
    let s := strands2 4 []
    let h := cachedLine s
    let pa := fun (i : Nat) => 0x20000 + 4 * i
    wf [.ld .f32 l, .ld .f32 { l with ch := 3 }, .st .f32 t, .st .f32 { t with ch := 3 }] = true ∧ memStrands s.g l = [0, 1] ∧ memStrands s.g t = [0, 1] ∧
    (∀ p ∈ s.pending, ownPosted s.g.gid (fun _ => true) p = false) ∧ relaxedOk l true (memRegs .f32 l) 0 s ∧ relaxedOk t false 0 (memRegs .f32 t) s ∧
    (∀ i ∈ [0, 1], resolve s.g (memAddr s.g l i) 4 .read false s = (.mem (pa i), s) ∧ resolve s.g (memAddr s.g t i) 4 .write false s = (.mem (pa i), s) ∧
      findLine (coreAt s 0) (pa i / 64) 0 = none ∧ memError s (pa i) 4 = none ∧ resolve h.g (memAddr h.g l i) 4 .read false h = (.mem (pa i), h) ∧
      (findLine (coreAt h 0) (pa i / 64) 0).any (fun n => decide (wordMask (pa i % 64) 4 &&& ~~~n.valid = 0 ∧
        (n.bad ||| n.lost) &&& wordMask (pa i % 64) 4 = 0 ∧ (coreAt h 0).cc ≤ n.lease)) = true) ∧
    roomL1 h 0 0 ∧ roomL1 s 0 64 ∧ (let o := strands2 0 []; memAddr o.g t 0 = memAddr o.g t 1) := by
  unfold relaxedOk readable roomL1
  decide +kernel

theorem witness_GlobalAccess_pairs :
    let l := { x0 with d := .v 4, a := .s 8, b := .im 0, e := 1 }
    let s := cachedLine (mapped [] at2 [])
    wf [.ld .f32 l] = true ∧ relaxedOk l true (memRegs .f32 l) 0 s ∧ memStrands s.g l = [0] ∧ memBytes .f32 l = 8 ∧
    resolve s.g (memAddr s.g l 0) 8 .read false s = (.mem 0x20000, s) ∧
    (findLine (coreAt s 0) 0x800 0).any (fun n => decide (∀ p ∈ List.range 8, (wordMask 0 8).getLsbD (2 * p) = true → pairApart n s p = false)) = true := by
  unfold relaxedOk readable
  decide +kernel

theorem witness_GlobalAccess_part :
    let t := { x0 with a := .s 8, b := .im 0, c := .v 4, imm := 63 }
    let s := mapped [] at2 []
    wf [.st .n8 t, .st .f16 { t with imm := 62 }] = true ∧ relaxedOk t false 0 (memRegs .n8 t) s ∧ memStrands s.g t = [0] ∧ memBytes .n8 t = 1 ∧
    memBytes .f16 t = 2 ∧ bypass t = false ∧ resolve s.g (memAddr s.g t 0) 1 .write false s = (.mem 0x2003F, s) ∧ quiet s (0x2003F / 64) ∧
    roomL1 s 0 1 ∧ memError s 0x2003F 1 = none := by
  unfold relaxedOk readable quiet roomL1
  decide +kernel

/-- Ordered accesses at gang scope by a group that has nothing under way; the core's clock is raised by a release to its `GWTS`. -/
def known (s : State) : State := setG { s.g with gwts := 9, carry := 4 } s

theorem witness_GlobalAccess_ordered :
    let l := { x0 with d := .v 4, a := .s 8, b := .im 0, e := 0x40, md := 2 }
    let t := { x0 with a := .s 8, b := .im 0, c := .v 4, e := 0x80, md := 4 }
    let s := known (mapped [] at2 [])
    let u := clockTo 0 s.g.gwts s
    wf [.ld .f32 l, .st .f32 t, .st .f32 { t with ch := 3 }] = true ∧ isAcq l = true ∧ isRel l = false ∧ isRel t = true ∧ isAcq t = false ∧ memStrands s.g l = [0] ∧
    memOk s.g l true (memRegs .f32 l) 0 = true ∧ readable s.g l (memSrcs l 0) ∧ memOk s.g t false 0 (memRegs .f32 t) = true ∧
    readable s.g t (memSrcs t (memRegs .f32 t)) ∧ allQuiet s s.g.gid ∧ resolve s.g (memAddr s.g l 0) 4 .read false s = (.mem 0x20000, s) ∧
    resolve s.g (memAddr s.g t 0) 4 .write false u = (.mem 0x20000, u) ∧ quiet s 0x800 ∧ quiet u 0x800 ∧ roomL1 s 0 1 ∧ roomL1 u 0 1 ∧
    memError s 0x20000 4 = none := by
  unfold readable quiet roomL1 allQuiet
  decide +kernel

theorem witness_Atomics_strands :
    let x := { x0 with d := .v 4, a := .s 8, b := .v 6, c := .v 10 }
    let s := fun (n : Nat) => strands2 (BitVec.ofNat 32 n) []
    (∀ n ∈ [0, 8], wf [.atom .cas .n64 x, .atom .add .n64 x] = true ∧ relaxedOk x false (atomRegs .n64) (atomRegs .n64) (s n) ∧
      memStrands (s n).g x = [0, 1] ∧ (∀ p ∈ (s n).pending, ownPosted (s n).g.gid (fun _ => true) p = false) ∧
      ∀ i ∈ [0, 1], resolve (s n).g (memAddr (s n).g x i) 8 .write false (s n) = (.mem (0x20000 + n * i), s n) ∧
        findLine (coreAt (s n) 0) ((0x20000 + n * i) / 64) 0 = none ∧ memError (s n) (0x20000 + n * i) 8 = none ∧
        badReg (s n).g i (x.d, atomRegs .n64) = false) := by
  unfold relaxedOk readable
  decide +kernel

theorem witness_Atomics_ordered :
    let x := { x0 with d := .v 4, a := .s 8, b := .im 0, c := .v 62, e := 0xC0, md := 4 }
    let s := known (mapped [] at2 [])
    let u := clockTo 0 s.g.gwts s
    wf [.atom .cas .n64 x] = true ∧ isAcq x = true ∧ isRel x = true ∧ memOk s.g x false (atomRegs .n64) (atomRegs .n64) = true ∧
    readable s.g x (memSrcs x (atomRegs .n64)) ∧ badReg s.g 0 (x.d, atomRegs .n64) = false ∧ memStrands s.g x = [0] ∧ allQuiet s s.g.gid ∧
    resolve s.g (memAddr s.g x 0) 8 .write false u = (.mem 0x20000, u) ∧ quiet u 0x800 ∧ memError u 0x20000 8 = none := by
  unfold readable quiet allQuiet
  decide +kernel

theorem witness_Posted_strands :
    let x := { x0 with a := .s 8, b := .v 6, c := .v 4 }
    let s := strands2 64 []
    let pa := fun (i : Nat) => 0x20000 + 64 * i
    wf [.red .max .i32 x, .xsum .add x] = true ∧ memStrands s.g x = [0, 1] ∧ relaxedOk x false 0 (atomRegs .i32) s ∧ relaxedOk x false 0 1 s ∧
    ∀ i ∈ [0, 1], resolve s.g (memAddr s.g x i) 4 .write false s = (.mem (pa i), s) ∧ resolve s.g (memAddr s.g x i) 64 .write true s = (.mem (pa i), s) ∧
      memError s (pa i) 4 = none ∧ memError s (pa i) 64 = none ∧ findLine (coreAt s 0) (pa i / 64) 0 = none := by
  unfold relaxedOk readable
  decide +kernel

/-- Adds of the group itself are known to it, and those of another team that nothing orders before the read need not be. -/
theorem witness_Posted_sum :
    let s := { mapped [] at2 [] with sums := [(0x800, ⟨List.replicate 64 0, 0, [], [⟨[2], 1, 3, 0x3F800000⟩, ⟨[9], 7, 4, 0x4B800000⟩]⟩)] }
    ((cellOf s 0x20000).adds.map (knows s s.g)) = [true, false] ∧ assoc 0x800 s.sums ≠ none ∧ assoc 0x801 s.sums = none := by decide +kernel

theorem witness_PrefetchFences_clock :
    let s := known (mapped [] at2 [])
    let r := setG { s.g with status := .releasing 4 true } s
    (∀ a ∈ s.accs, a.group ≠ s.g.gid) ∧ (∃ g, findGroup r 2 = some g ∧ g.gid = 2 ∧ g.status = .releasing 4 true) ∧ allQuiet r 2 ∧
    holdsAny s.g { x0 with e := 0x40, md := 2 } = true ∧ isAcq { x0 with e := 0x40, md := 2 } = true := by
  unfold allQuiet
  decide +kernel

theorem witness_Waits_acquire :
    let x := { u0 with d := .sp 15, a := .sp 0x2F, b := .im 0, e := 0x40, md := 2 }
    let s := modCore 0 (fun k => { k with ctrs := [(15, ⟨1, 9, [], []⟩)] }) base
    wf [.cwait x] = true ∧ holdsQ s.g x = true ∧ waitOk x = true ∧ isAcq x = true ∧ isShort x.b = true ∧
    (read32 s.g x 0 x.b).toNat ≤ (ctrAt s 0 (ownCtr s 15)).val.toNat ∧ (ctrAt s 0 (ownCtr s 15)).ct = 9 := by decide +kernel

theorem takesNarrow_empty (f : DWord) (blk : Nat) (t : Tile) (h : t.resid = []) (h1 : t.col = []) (h2 : t.row = []) (hb : t.badCarry = [])
    (hs : isBad t = false) (hk : t.kind = 1) (hl : latchAgrees f t = true) (hr : kposOf t blk + kOf (fmtFa f) ≤ spanOf (fmtSpan f)) :
    TakesNarrow f blk t :=
  ⟨hs, hk, hl, hr, fun _ => ⟨checkBlock_zero t blk h h1 h2, by simp [hb]⟩⟩

/-- A tile of Q8 sums whose block 3 is `n` keys into its span. -/
def spanTile (n : Nat) : Tile := { Tile.empty with kind := 1, lfa := 3, lfb := 3, kpos := [(3, n)] }

theorem witness_MatrixProduct_span : kOf (fmtFa 0x333) = 64 ∧ spanOf (fmtSpan 0x333) = 256 ∧ kposOf (spanTile 192) 3 + 64 = 256 ∧
    (∀ n, n ∈ [0, 192] → TakesNarrow 0x333 3 (spanTile n)) := by
  refine ⟨by decide, by decide, by decide, fun n h => ?_⟩
  simp only [List.mem_cons, List.not_mem_nil, or_false] at h
  rcases h with rfl | rfl <;> exact takesNarrow_empty _ _ _ rfl rfl rfl rfl (by decide +kernel) rfl (by decide +kernel) (by decide +kernel)

/-- `MMA` with a scale descriptor whose entries are all zero: one span each, at the start of the local store. -/
def mmaScaled : Command := { mmaNow with kind := .mma 0 [] [7] 0xFFFF000000000000 [0, 0, 0, 0x40000] [] (some [0, 0, 0, 0]) none }
def scaled : State :=
  let s := modCore 0 (fun k => { k with localUnits := 1, tiles := [(0, spanTile 0)] }) (queued mmaScaled (tiled []))
  { s with teams := s.teams.map (fun t => { t with units := 1 }) }

theorem witness_MatrixProduct_scales :
    findCmd scaled ref5 = some mmaScaled ∧ mayRun scaled mmaScaled = true ∧ tileReady scaled 0 mmaScaled = true ∧ mmaScaled.jord = 0 ∧
    tileAt scaled 0 (cmdTile scaled 0 mmaScaled 0) = spanTile 0 ∧ (kposOf (spanTile 0) 3 = 0 ∧ sidxOf (spanTile 0) 3 = 0) ∧
    (match (readScales 0 mmaScaled [0, 0, 0, 0] 3 0 scaled).1 with | .inl v => v.length == 136 | .inr _ => false) = true := by decide +kernel

/-- `MMA` at `JORD` = 1 on tiles 0 and 1, with B and B′. -/
def mmaJet : Command := { mmaNow with jord := 1, data := List.replicate 128 (List.replicate 128 1) }
def jetTiles : State :=
  modCore 0 (fun k => { k with tiles := [(0, spanTile 64), (1, spanTile 192)] }) (queued mmaJet (tiled []))

theorem witness_MatrixProduct_jet :
    findCmd jetTiles ref5 = some mmaJet ∧ mayRun jetTiles mmaJet = true ∧ tileReady jetTiles 0 mmaJet = true ∧ mmaJet.jord = 1 ∧
    cmdTile jetTiles 0 mmaJet 0 ≠ cmdTile jetTiles 0 mmaJet (0 + 1) ∧ tileAt jetTiles 0 (cmdTile jetTiles 0 mmaJet 0) = spanTile 64 ∧
    tileAt jetTiles 0 (cmdTile jetTiles 0 mmaJet (0 + 1)) = spanTile 192 := by decide +kernel

/-- `MMA` of FP16 by BF16 into a tile of KIND 2. -/
def mmaFloat : Command := { mmaNow with fmt := 0x021, data := List.replicate 32 (List.replicate 256 1) }
def floatTile : State :=
  modCore 0 (fun k => { k with tiles := [(0, { Tile.empty with kind := 2, lfa := 1, lfb := 2 })] }) (queued mmaFloat (tiled []))

theorem witness_MatrixProduct_float :
    let t := tileAt floatTile 0 (cmdTile floatTile 0 mmaFloat 0)
    findCmd floatTile ref5 = some mmaFloat ∧ mayRun floatTile mmaFloat = true ∧ tileReady floatTile 0 mmaFloat = true ∧ fmtFa mmaFloat.fmt = 1 ∧
    fmtFb mmaFloat.fmt = 2 ∧ kOf 1 ≤ mmaFloat.data.length ∧ isBad t = false ∧ t.kind = 2 ∧ latchAgrees mmaFloat.fmt t = true ∧ t.badCarry = [] := by
  decide +kernel

/-- The chain of `tables` with the bit `GROW` in the entry above level 0: VA 0x30000 is an unmapped page of a grow range. -/
def growing : State :=
  memWrite 0x70000 (leBytes 8 0x80041) tables

/-- Records in global memory and in an unmapped page of a grow range, and a full queue. -/
theorem witness_LaunchRecords_places :
    let m := mapped [] at2 record0
    let z := setG { growing.g with s := [(8, 0x30000)] } growing
    let q := { base with launches := List.replicate 1024 launch2 }
    resolve m.g 0x20000 64 .read false m = (.mem 0x20000, m) ∧ findLine (coreAt m 0) (0x20000 / 64) m.g.eid = none ∧ memError m 0x20000 64 = none ∧
    memRead m 0x20000 64 = record0 ∧ allQuiet m m.g.gid ∧ (resolve z.g 0x30000 64 .read false z).1 = .zero ∧ allQuiet z z.g.gid ∧
    1024 ≤ (q.launches.filter (fun l => inQueue l && l.record.prio == (recordOf record0).prio)).length ∧
    (kernelOf q (recordOf record0)).any (fun k => recordOk q record0 (recordOf record0) k none) = true := by
  unfold allQuiet
  decide +kernel

/-- An access to a peer under way in a range that is to be invalidated, and one outside it. -/
theorem witness_CoreResponses_peer :
    let a := fun (va : DWord) => (⟨9, 2, 1, .peer va 0 false (.v 4) .f32 1 true none⟩ : OutAcc)
    peerUses base 0 0 65536 (a 0xFFC0) = true ∧ peerUses base 0 0 65536 (a 0x10000) = false := by decide +kernel

/-- A saved gang of an engagement with no dirty line where it is to stand. -/
theorem witness_Placement_clean : ∀ c, c < 192 → (coreAt savedState c).lines = [] := by decide +kernel

/-- A handle that is moving: `FREE_HANDLE` does not answer 3 for it. -/
theorem witness_Residents_moving :
    let s := memWrite 0x20000 (leBytes 4 1 ++ leBytes 4 3 ++ leBytes 56 0) (linked tables)
    (readDesc s 0 0).any (fun d => d.kind != 2 && !leaseHolds s d && d.state == 3) = true := by decide +kernel

end Sys2Proof.Tests
end

/-! ### Residue words (R32 to R35) -/

namespace Sys2Proof.NumberFormats

open Sys2Proof Sys2Proof.Machine Sys2Proof.Safety Sys2Proof.Laws

/-- The word of three channels, with its parity bit (R32, R33). -/
def channelWord (a b c : Nat) : Word :=
  BitVec.ofNat 32 (parityOf (c * 2 ^ 20 + b * 2 ^ 10 + a) * 2 ^ 31 + (c * 2 ^ 20 + b * 2 ^ 10 + a))

section
variable {a b c : Nat} (ha : a < 1024) (hb : b < 1024) (hc : c < 2048)
include ha hb hc

theorem toNat_channelWord :
    (channelWord a b c).toNat = parityOf (c * 2 ^ 20 + b * 2 ^ 10 + a) * 2 ^ 31 + (c * 2 ^ 20 + b * 2 ^ 10 + a) := by
  have hp : parityOf (c * 2 ^ 20 + b * 2 ^ 10 + a) < 2 := Nat.mod_lt _ (by decide)
  rw [channelWord, BitVec.toNat_ofNat, Nat.mod_eq_of_lt]
  omega

theorem chA_channelWord : chA (channelWord a b c) = a := by
  rw [chA, bitsAt, toNat_channelWord ha hb hc]
  omega

theorem chB_channelWord : chB (channelWord a b c) = b := by
  rw [chB, bitsAt, toNat_channelWord ha hb hc]
  omega

theorem chC_channelWord : chC (channelWord a b c) = c := by
  rw [chC, bitsAt, toNat_channelWord ha hb hc]
  omega

theorem corrupt_channelWord : corrupt (channelWord a b c) = (a == 1023 || decide (1024 < c)) := by
  have hw := toNat_channelWord ha hb hc
  have low : (channelWord a b c).toNat % 2 ^ 31 = c * 2 ^ 20 + b * 2 ^ 10 + a := by omega
  have top : (channelWord a b c).toNat / 2 ^ 31 = parityOf (c * 2 ^ 20 + b * 2 ^ 10 + a) := by omega
  simp only [corrupt, chA_channelWord ha hb hc, chC_channelWord ha hb hc, low, top, ne_eq, not_true_eq_false, decide_false, Bool.or_false]

end

/-- The channels of a word are its fields, whatever they hold. -/
theorem channels_lt (w : Word) : chA w < 1024 ∧ chB w < 1024 ∧ chC w < 2048 :=
  ⟨Nat.mod_lt _ (by decide), Nat.mod_lt _ (by decide), Nat.mod_lt _ (by decide)⟩

/-- A sound word has no more than its channels and their parity. -/
theorem sound_iff (w : Word) : corrupt w = false ↔ chA w < 1023 ∧ chC w < 1025 ∧ w = channelWord (chA w) (chB w) (chC w) := by
  obtain ⟨ha, hb, hc⟩ := channels_lt w
  constructor
  · intro h
    simp only [corrupt, Bool.or_eq_false_iff, beq_eq_false_iff_ne, decide_eq_false_iff_not, ne_eq, not_not] at h
    obtain ⟨⟨h1, h2⟩, h3⟩ := h
    refine ⟨by omega, by omega, BitVec.eq_of_toNat_eq ?_⟩
    have low : w.toNat % 2 ^ 31 = chC w * 2 ^ 20 + chB w * 2 ^ 10 + chA w := by
      simp only [chA, chB, chC, bitsAt]
      omega
    rw [toNat_channelWord ha hb hc, ← low, h3]
    omega
  · rintro ⟨h1, h2, h3⟩
    rw [h3, corrupt_channelWord ha hb hc]
    simp only [Bool.or_eq_false_iff, beq_eq_false_iff_ne, decide_eq_false_iff_not]
    omega

/-- An addition works channel by channel (R34). -/
theorem residueAdd_sound {w : Word} (h : corrupt w = false) (v : Int) : residueAdd w v =
    channelWord (((chA w : Int) + v) % 1023).toNat (((chB w : Int) + v) % 1024).toNat (((chC w : Int) + v) % 1025).toNat := by
  simp only [residueAdd, h, Bool.false_eq_true, if_false, channelWord]

/-- The channels of a sum, and that it is sound. -/
theorem residueAdd_channels {w : Word} (h : corrupt w = false) (v : Int) :
    corrupt (residueAdd w v) = false ∧ (chA (residueAdd w v) : Int) = (chA w + v) % 1023 ∧
    (chB (residueAdd w v) : Int) = (chB w + v) % 1024 ∧ (chC (residueAdd w v) : Int) = (chC w + v) % 1025 := by
  have ha : (((chA w : Int) + v) % 1023).toNat < 1023 := by omega
  have hb : (((chB w : Int) + v) % 1024).toNat < 1024 := by omega
  have hc : (((chC w : Int) + v) % 1025).toNat < 1025 := by omega
  rw [residueAdd_sound h]
  refine ⟨?_, ?_, ?_, ?_⟩
  · rw [corrupt_channelWord (by omega) hb (by omega)]
    simp only [Bool.or_eq_false_iff, beq_eq_false_iff_ne, decide_eq_false_iff_not]
    omega
  · rw [chA_channelWord (by omega) hb (by omega)]
    omega
  · rw [chB_channelWord (by omega) hb (by omega)]
    omega
  · rw [chC_channelWord (by omega) hb (by omega)]
    omega

theorem crt_range (w : Word) : -536870400 ≤ crt w ∧ crt w < 536870400 := by
  simp only [crt]
  split <;> omega

/-- The weights of the channels: each is 1 modulo its own channel and 0 modulo the other two. -/
theorem crt_channels (w : Word) :
    (crt w - (chA w * 537395200 + chB w * 1072692225 + chC w * 537394176 : Int)) % 1073740800 = 0 := by
  simp only [crt]
  split <;> omega

theorem crt_residueAdd {w : Word} (h : corrupt w = false) (v : Int) :
    (crt (residueAdd w v) - (crt w + v)) % 1073740800 = 0 := by
  obtain ⟨-, ha, hb, hc⟩ := residueAdd_channels h v
  obtain ⟨k, hk⟩ := Int.dvd_of_emod_eq_zero (crt_channels w)
  obtain ⟨l, hl⟩ := Int.dvd_of_emod_eq_zero (crt_channels (residueAdd w v))
  have qa := Int.emod_add_mul_ediv (chA w + v) 1023
  have qb := Int.emod_add_mul_ediv (chB w + v) 1024
  have qc := Int.emod_add_mul_ediv (chC w + v) 1025
  rw [← ha] at qa
  rw [← hb] at qb
  rw [← hc] at qc
  refine Int.emod_eq_zero_of_dvd ⟨l - k + 2 * v - 512 * ((chA w + v) / 1023) - 1023 * ((chB w + v) / 1024) - 513 * ((chC w + v) / 1025), ?_⟩
  linear_combination hl - hk + 537395200 * qa + 1072692225 * qb + 537394176 * qc

/-- Settles O35: the channels of a sum are the sums of the channels, and the reconstruction weights add up to 1 modulo the range. -/
theorem residues : Obligations.Residues := by
  have hz : corrupt 0 = false := by decide
  have c0 : crt 0 = 0 := by decide
  refine ⟨fun w v h => ⟨(residueAdd_channels h v).1, crt_residueAdd h v, crt_range _⟩, fun v h1 h2 => ?_, hz, c0⟩
  have hm := crt_residueAdd hz v
  obtain ⟨r1, r2⟩ := crt_range (residueAdd 0 v)
  omega

end Sys2Proof.NumberFormats

/-! ### Stretches of sparse tables, and the blocks of a tile (R256) -/

namespace Sys2Proof.NumberFormats

open Sys2Proof Sys2Proof.Machine Sys2Proof.Safety Sys2Proof.Laws

/-! #### Elements of lists -/

section
variable {α β : Type}

theorem nth_map_range (d : α) (f : Nat → α) {n k : Nat} (h : k < n) : nth d ((List.range n).map f) k = f k := by simp [nth, h]

theorem nth_map (d : α) (e : β) (f : α → β) (he : f d = e) (l : List α) (k : Nat) : nth e (l.map f) k = f (nth d l k) := by
  subst he
  simp only [nth, List.getElem?_map]
  cases l[k]? <;> rfl

theorem nth_take (d : α) (l : List α) {n k : Nat} (h : k < n) : nth d (l.take n) k = nth d l k := by simp [nth, h]

theorem nth_drop (d : α) (l : List α) (n k : Nat) : nth d (l.drop n) k = nth d l (n + k) := by simp [nth]

/-- A list is the table of its elements. -/
theorem eq_map_range (d : α) (l : List α) : l = (List.range l.length).map (nth d l) :=
  List.ext_getElem (by simp) fun k h1 h2 => by simp [nth, h1]

/-- Rows of one length laid end to end. -/
theorem nth_flatten (d : α) (w : Nat) (rows : List (List α)) (hw : ∀ r ∈ rows, r.length = w) (i c : Nat) (hc : c < w) :
    nth d rows.flatten (w * i + c) = nth d (nth [] rows i) c := by
  induction rows generalizing i with
  | nil => simp [nth]
  | cons r rows ih =>
    have hr : r.length = w := hw r (by simp)
    cases i with
    | zero => simp [nth, List.getElem?_append, hr, hc]
    | succ i =>
      have e : w * (i + 1) + c = w + (w * i + c) := by rw [Nat.mul_add]; omega
      have := ih (fun r h => hw r (by simp [h])) i
      simp only [nth, List.flatten_cons, List.getElem?_cons_succ, List.getElem?_append, hr] at this ⊢
      rw [if_neg (by omega), e, Nat.add_sub_cancel_left]
      exact this

end

/-! #### Stretches -/

section
variable {α : Type}

theorem get_append_right (d : α) {k : Nat} {t : Sparse α} (h : ∀ e ∈ t, e.1 ≠ k) (u : Sparse α) :
    Sparse.get d k (t ++ u : List (Nat × α)) = Sparse.get d k u := by
  induction t with
  | nil => rfl
  | cons e t ih =>
    have he : ¬ e.1 = k := h e (by simp)
    rw [List.cons_append, Sparse.get, if_neg he]
    exact ih (fun e m => h e (by simp [m]))

theorem get_append_left (d : α) {k : Nat} {u : Sparse α} (h : ∀ e ∈ u, e.1 ≠ k) (t : Sparse α) :
    Sparse.get d k (t ++ u : List (Nat × α)) = Sparse.get d k t := by
  induction t with
  | nil => exact (List.append_nil u ▸ get_append_right d h [] :)
  | cons e t ih => simp only [List.cons_append, Sparse.get, ih]

/-- The entries of a list of values from a key on. -/
theorem get_entries [DecidableEq α] (d : α) (l : List α) (lo a k : Nat) :
    Sparse.get d k (((List.range' a l.length).zip l).filterMap (fun e => if e.2 = d then none else some (lo + e.1, e.2))) =
      if lo + a ≤ k ∧ k < lo + a + l.length then nth d l (k - (lo + a)) else d := by
  induction l generalizing a with
  | nil => rw [if_neg (by simp only [List.length_nil]; omega)]; rfl
  | cons x l ih =>
    have hs : (List.range' a (x :: l).length).zip (x :: l) = (a, x) :: (List.range' (a + 1) l.length).zip l := rfl
    have head : Sparse.get d k (((List.range' a (x :: l).length).zip (x :: l)).filterMap
        (fun e => if e.2 = d then none else some (lo + e.1, e.2))) = if k = lo + a then x else
        Sparse.get d k (((List.range' (a + 1) l.length).zip l).filterMap (fun e => if e.2 = d then none else some (lo + e.1, e.2))) := by
      rw [hs, List.filterMap_cons]
      by_cases hx : x = d
      · simp only [hx, if_true, ih]
        by_cases hk : k = lo + a
        · rw [if_pos hk, if_neg (by omega)]
        · rw [if_neg hk]
      · simp only [hx, if_false, Sparse.get, eq_comm (a := k)]
    rw [head, ih, List.length_cons]
    by_cases hk : k = lo + a
    · rw [if_pos hk, if_pos (by omega), hk, Nat.sub_self]
      rfl
    · by_cases h : lo + (a + 1) ≤ k ∧ k < lo + (a + 1) + l.length
      · have e : k - (lo + a) = k - (lo + (a + 1)) + 1 := by omega
        rw [if_neg hk, if_pos h, if_pos (by omega), e]
        rfl
      · rw [if_neg hk, if_neg h, if_neg (by omega)]

/-- Reading after a list of values has been put at a key: its values there, the old ones elsewhere. -/
theorem get_splice [DecidableEq α] (d : α) (lo : Nat) (l : List α) (t : Sparse α) (k : Nat) :
    Sparse.get d k (Sparse.splice d lo l t) = if lo ≤ k ∧ k < lo + l.length then nth d l (k - lo) else Sparse.get d k t := by
  have low : Sparse.get d k (t.filter (fun e => decide (e.1 < lo))) = if k < lo then Sparse.get d k t else d := by
    simpa using get_filter d (fun j => decide (j < lo)) k t
  have high : Sparse.get d k (t.filter (fun e => decide (lo + l.length ≤ e.1))) = if lo + l.length ≤ k then Sparse.get d k t else d := by
    simpa using get_filter d (fun j => decide (lo + l.length ≤ j)) k t
  have mid := get_entries d l lo 0 k
  rw [← List.range_eq_range'] at mid
  have inMid : ∀ e ∈ ((List.range l.length).zip l).filterMap (fun e => if e.2 = d then none else some (lo + e.1, e.2)),
      lo ≤ e.1 ∧ e.1 < lo + l.length := by
    intro e he
    obtain ⟨⟨i, x⟩, hm, hx⟩ := List.mem_filterMap.mp he
    have hi : i < l.length := List.mem_range.mp (List.of_mem_zip hm).1
    split at hx
    · cases hx
    · injection hx with hx
      subst hx
      exact ⟨Nat.le_add_right _ _, Nat.add_lt_add_left hi _⟩
  have inLow : ∀ e ∈ t.filter (fun e => decide (e.1 < lo)), e.1 < lo := by simp
  have inHigh : ∀ e ∈ t.filter (fun e => decide (lo + l.length ≤ e.1)), lo + l.length ≤ e.1 := by simp
  rw [Sparse.splice]
  by_cases h1 : k < lo
  · rw [get_append_left d (fun e m => by have := inHigh e m; omega), get_append_left d (fun e m => by have := (inMid e m).1; omega), low,
      if_pos h1, if_neg (by omega)]
  · rw [List.append_assoc, get_append_right d (fun e m => by have := inLow e m; omega)]
    by_cases h2 : k < lo + l.length
    · rw [get_append_left d (fun e m => by have := inHigh e m; omega), mid, if_pos (by omega), if_pos (by omega)]
      simp
    · rw [get_append_right d (fun e m => by have := (inMid e m).2; omega), high, if_pos (by omega), if_neg (by omega)]

/-- A stretch of a table is the list of what it reads. -/
theorem slice_eq (d : α) (lo n : Nat) (t : Sparse α) :
    Sparse.slice d lo n t = (List.range n).map (fun k => Sparse.get d (lo + k) t) := by
  refine List.map_congr_left fun k hk => ?_
  have hk := List.mem_range.mp hk
  have h := get_filter d (fun j => decide (lo ≤ j) && decide (j < lo + n)) (lo + k) t
  rw [h, if_pos (by simp [hk])]

end

/-! #### Blocks -/

/-- Eight rows of 128 values. -/
def grid {α : Type} (f : Nat → Nat → α) : List (List α) := (List.range 8).map (fun i => (List.range 128).map (f i))

section
variable {α β : Type}

theorem nth_grid (d : α) (f : Nat → Nat → α) {i c : Nat} (hi : i < 8) (hc : c < 128) : nth d (nth [] (grid f) i) c = f i c := by
  rw [grid, nth_map_range [] _ hi, nth_map_range d _ hc]

theorem grid_congr {f g : Nat → Nat → α} (h : ∀ i c, i < 8 → c < 128 → f i c = g i c) : grid f = grid g :=
  List.map_congr_left fun i hi => List.map_congr_left fun c hc => h i c (List.mem_range.mp hi) (List.mem_range.mp hc)

theorem map_grid (g : α → β) (f : Nat → Nat → α) : (grid f).map (·.map g) = grid (fun i c => g (f i c)) := by
  simp [grid, Function.comp_def]

/-- Two grids of equal shape, element by element. -/
theorem zip_grid {γ : Type} (g : α × β → γ) (f : Nat → Nat → α) (h : Nat → Nat → β) :
    ((grid f).zip (grid h)).map (fun e => (e.1.zip e.2).map g) = grid (fun i c => g (f i c, h i c)) := by
  simp [grid, List.zip_map', Function.comp_def]

theorem columns_grid (f : Nat → Nat → Word) : columns (grid f) = (List.range 128).map (fun c => (List.range 8).map (fun i => f i c)) := by
  refine List.map_congr_left fun c hc => ?_
  rw [grid, List.map_map]
  exact List.map_congr_left fun i _ => nth_map_range 0 (f i) (List.mem_range.mp hc)

/-- The key of an element of a block. -/
def cell (blk i c : Nat) : Nat := 1024 * blk + 128 * i + c

theorem cell_div {blk i c : Nat} (hi : i < 8) (hc : c < 128) : cell blk i c / 1024 = blk := by
  unfold cell
  omega

theorem blockOf_eq (t : Sparse Word) (blk : Nat) : blockOf t blk = grid (fun i c => Sparse.get 0 (cell blk i c) t) := by
  simp only [blockOf, slice_eq, grid, cell]

theorem get_putBlock (t : Sparse Word) (blk : Nat) (f : Nat → Nat → Word) {i c : Nat} (hi : i < 8) (hc : c < 128) :
    Sparse.get 0 (cell blk i c) (putBlock t blk (grid f)) = f i c := by
  have hl : (grid f).flatten.length = 1024 := by simp [grid, Function.comp_def]
  have e : cell blk i c - 1024 * blk = 128 * i + c := by unfold cell; omega
  rw [putBlock, get_splice, hl, if_pos (by unfold cell; omega), e, nth_flatten 0 128 _ (by simp [grid]) i c hc, nth_grid 0 f hi hc]

theorem get_putBlock_other (t : Sparse Word) (blk : Nat) (f : Nat → Nat → Word) {key : Nat} (h : key / 1024 ≠ blk) :
    Sparse.get 0 key (putBlock t blk (grid f)) = Sparse.get 0 key t := by
  have hl : (grid f).flatten.length = 1024 := by simp [grid, Function.comp_def]
  rw [putBlock, get_splice, hl, if_neg (by omega)]

end

end Sys2Proof.NumberFormats

/-! ### Narrow sums of a block and their checksums (R260, R267) -/

namespace Sys2Proof.NumberFormats

open Sys2Proof Sys2Proof.Machine Sys2Proof.Safety Sys2Proof.Laws

/-! #### Sums of residue words -/

/-- Sound words with the same channels are equal. -/
theorem sound_ext {w u : Word} (hw : corrupt w = false) (hu : corrupt u = false) (ha : chA w = chA u) (hb : chB w = chB u)
    (hc : chC w = chC u) : w = u := by
  rw [((sound_iff w).mp hw).2.2, ((sound_iff u).mp hu).2.2, ha, hb, hc]

/-- Two additions to a word are one of the sum, whether it is sound or not. -/
theorem residueAdd_residueAdd (w : Word) (u v : Int) : residueAdd (residueAdd w u) v = residueAdd w (u + v) := by
  cases h : corrupt w with
  | true =>
    have keep : ∀ v, residueAdd w v = w := fun v => by simp [residueAdd, h]
    rw [keep, keep, keep]
  | false =>
    obtain ⟨h1, a1, b1, c1⟩ := residueAdd_channels h u
    obtain ⟨h2, a2, b2, c2⟩ := residueAdd_channels h1 v
    obtain ⟨h3, a3, b3, c3⟩ := residueAdd_channels h (u + v)
    exact sound_ext h2 h3 (by omega) (by omega) (by omega)

/-- The channels of a checksum, and that it is sound. -/
theorem residueSum_channels (l : List Word) : corrupt (residueSum l) = false ∧ chA (residueSum l) = (l.map chA).sum % 1023 ∧
    chB (residueSum l) = (l.map chB).sum % 1024 ∧ chC (residueSum l) = (l.map chC).sum % 1025 := by
  have ha : (l.map chA).sum % 1023 < 1023 := Nat.mod_lt _ (by decide)
  have hb : (l.map chB).sum % 1024 < 1024 := Nat.mod_lt _ (by decide)
  have hc : (l.map chC).sum % 1025 < 1025 := Nat.mod_lt _ (by decide)
  have e : residueSum l = channelWord ((l.map chA).sum % 1023) ((l.map chB).sum % 1024) ((l.map chC).sum % 1025) := rfl
  rw [e, corrupt_channelWord (by omega) hb (by omega), chA_channelWord (by omega) hb (by omega),
    chB_channelWord (by omega) hb (by omega), chC_channelWord (by omega) hb (by omega)]
  refine ⟨?_, rfl, rfl, rfl⟩
  simp only [Bool.or_eq_false_iff, beq_eq_false_iff_ne, decide_eq_false_iff_not]
  omega

/-- Sums of numbers that are each reduced once are sums reduced once. -/
theorem sum_emod {ι : Type} (m : Int) (l : List ι) (g f : ι → Nat) (v : ι → Int) (h : ∀ x ∈ l, (g x : Int) = (f x + v x) % m) :
    (((l.map g).sum : Nat) : Int) % m = (((l.map f).sum : Nat) + (l.map v).sum) % m := by
  induction l with
  | nil => rfl
  | cons x l ih =>
    have hx := h x (by simp)
    have ih := ih fun y hy => h y (by simp [hy])
    simp only [List.map_cons, List.sum_cons, Nat.cast_add]
    rw [hx, Int.emod_add_emod, ← Int.add_emod_emod, ih, Int.add_emod_emod]
    congr 1
    omega

/-- The checksum of sums is the sum of the checksum (R267). -/
theorem residueSum_add {ι : Type} (l : List ι) (w : ι → Word) (v : ι → Int) (h : ∀ x ∈ l, corrupt (w x) = false) :
    residueSum (l.map (fun x => residueAdd (w x) (v x))) = residueAdd (residueSum (l.map w)) (l.map v).sum := by
  obtain ⟨h1, a1, b1, c1⟩ := residueSum_channels (l.map (fun x => residueAdd (w x) (v x)))
  obtain ⟨h2, a2, b2, c2⟩ := residueSum_channels (l.map w)
  obtain ⟨h3, a3, b3, c3⟩ := residueAdd_channels h2 (l.map v).sum
  simp only [List.map_map, Function.comp_def] at a1 b1 c1 a2 b2 c2
  have sa := sum_emod 1023 l (fun x => chA (residueAdd (w x) (v x))) (fun x => chA (w x)) v fun x hx => (residueAdd_channels (h x hx) (v x)).2.1
  have sb := sum_emod 1024 l (fun x => chB (residueAdd (w x) (v x))) (fun x => chB (w x)) v fun x hx => (residueAdd_channels (h x hx) (v x)).2.2.1
  have sc := sum_emod 1025 l (fun x => chC (residueAdd (w x) (v x))) (fun x => chC (w x)) v fun x hx => (residueAdd_channels (h x hx) (v x)).2.2.2
  exact sound_ext h1 h3 (by omega) (by omega) (by omega)

/-! #### Products of rows and columns -/

@[simp] theorem length_axpy (a : Int) (b s : List Int) : (axpy a b s).length = s.length := by
  induction s generalizing b with
  | nil => cases b <;> rfl
  | cons x s ih => cases b <;> simp [axpy, ih]

theorem nth_axpy (a : Int) (b s : List Int) {c : Nat} (h : c < s.length) : nth 0 (axpy a b s) c = nth 0 s c + a * nth 0 b c := by
  induction s generalizing b c with
  | nil => cases h
  | cons x s ih =>
    cases b with
    | nil => simp [axpy, nth]
    | cons y b =>
      cases c with
      | zero => simp [axpy, nth]
      | succ c => simpa [axpy, nth] using ih b (Nat.lt_of_succ_lt_succ h)

@[simp] theorem length_dotRow (zero : List Int) (a : List Int) (b : List (List Int)) : (dotRow zero a b).length = zero.length := by
  induction a generalizing b with
  | nil => cases b <;> rfl
  | cons x a ih => cases b <;> simp [dotRow, ih]

theorem nth_zeros (n c : Nat) : nth 0 (List.replicate n (0 : Int)) c = 0 := by
  rw [nth, List.getElem?_replicate]
  split <;> rfl

theorem sum_zeros {f : Nat → Int} (k : Nat) (h : ∀ l, f l = 0) : ((List.range k).map f).sum = 0 := by
  rw [show f = fun _ => 0 from funext h]
  simp

/-- Column `c` of the product of a row: the sum over the first `k` terms, where the row has no more. -/
theorem nth_dotRow (a : List Int) (b : List (List Int)) (k : Nat) (h : a.length ≤ k) {c : Nat} (hc : c < 128) :
    nth 0 (dotRow (List.replicate 128 0) a b) c = ((List.range k).map (fun l => nth 0 a l * nth 0 (nth [] b l) c)).sum := by
  induction a generalizing b k with
  | nil => rw [sum_zeros k fun l => by simp [nth]]; cases b <;> exact nth_zeros 128 c
  | cons x a ih =>
    cases b with
    | nil => rw [sum_zeros k fun l => by simp [nth]]; exact nth_zeros 128 c
    | cons y b =>
      obtain ⟨k, rfl⟩ : ∃ j, k = j + 1 := ⟨k - 1, by simp only [List.length_cons] at h; omega⟩
      rw [dotRow, nth_axpy x y _ (by simpa using hc), ih b k (by simpa using h), List.range_succ_eq_map, List.map_cons, List.sum_cons,
        List.map_map]
      exact add_comm _ _

/-- The same over the narrow elements of the rows of an octet operation. -/
theorem nth_dotRow_elems (fa fb k : Nat) (a : List Byte) (b : List (List Byte)) {c : Nat} (hc : c < 128) :
    nth 0 (dotRow (List.replicate 128 0) ((((narrowElems fa a).drop 0).take k).map (·.1))
      (((((b.map (narrowElems fb)).drop 0).take k).map (·.map (·.1))))) c = dotInt fa fb k a b c := by
  rw [nth_dotRow _ _ k (by simp) hc, dotInt]
  congr 1
  refine List.map_congr_left fun l hl => ?_
  have hl := List.mem_range.mp hl
  rw [nth_map (0, false) 0 (·.1) rfl, nth_map [] [] (fun r : List (Int × Bool) => r.map (·.1)) rfl, nth_map (0, false) 0 (·.1) rfl, nth_take _ _ hl, nth_take _ _ hl,
    List.drop_zero, List.drop_zero]
  split
  · simp [nth, *]
  · simp [nth, *]

/-! #### The check of a block -/

/-- The words of a block and of its checksums are sound and agree. -/
structure ChecksOut (z : Nat → Nat → Word) (col row : Nat → Word) : Prop where
  cells : ∀ i, i < 8 → ∀ c, c < 128 → corrupt (z i c) = false
  cols : ∀ i, i < 8 → corrupt (col i) = false
  rows : ∀ c, c < 128 → corrupt (row c) = false
  colSums : ∀ i, i < 8 → residueSum ((List.range 128).map (z i)) = col i
  rowSums : ∀ c, c < 128 → residueSum ((List.range 8).map (fun i => z i c)) = row c

theorem checkBlock_none_iff (t : Tile) (blk : Nat) : checkBlock t blk = none ↔
    ChecksOut (fun i c => Sparse.get 0 (cell blk i c) t.resid) (fun i => Sparse.get 0 (8 * blk + i) t.col)
      (fun c => Sparse.get 0 (128 * blk + c) t.row) := by
  simp only [checkBlock, blockOf_eq, slice_eq, columns_grid]
  constructor
  · intro h
    split at h
    · cases h
    · rename_i sound
      split at h
      · cases h
      · rename_i agree
        simp [grid] at sound agree
        obtain ⟨⟨h1, h2⟩, h3⟩ := sound
        exact ⟨h1, h2, h3, agree.1, agree.2⟩
  · rintro ⟨h1, h2, h3, h4, h5⟩
    rw [if_neg (by simp [grid]; exact ⟨⟨h1, h2⟩, h3⟩), if_neg (by simp [grid]; exact ⟨h4, h5⟩)]

/-- Sums added to the words of a block and their totals to its checksums keep the check (R267). -/
theorem ChecksOut.add {z : Nat → Nat → Word} {col row : Nat → Word} (h : ChecksOut z col row) (p : Nat → Nat → Int) :
    ChecksOut (fun i c => residueAdd (z i c) (p i c)) (fun i => residueAdd (col i) ((List.range 128).map (p i)).sum)
      (fun c => residueAdd (row c) ((List.range 8).map (fun i => p i c)).sum) where
  cells i hi c hc := (residueAdd_channels (h.cells i hi c hc) _).1
  cols i hi := (residueAdd_channels (h.cols i hi) _).1
  rows c hc := (residueAdd_channels (h.rows c hc) _).1
  colSums i hi := by
    rw [residueSum_add _ _ _ fun c hc => h.cells i hi c (List.mem_range.mp hc), h.colSums i hi]
  rowSums c hc := by
    rw [residueSum_add _ _ _ fun i hi => h.cells i (List.mem_range.mp hi) c hc, h.rowSums c hc]

theorem residueSum_zeros (n : Nat) : residueSum ((List.range n).map (fun _ => 0)) = 0 := by
  have ch : chA 0 = 0 ∧ chB 0 = 0 ∧ chC 0 = 0 := by decide
  simp only [residueSum, List.map_const', List.map_replicate, ch, List.sum_replicate, smul_zero, Nat.zero_mod]
  decide

/-- An empty block checks out. -/
theorem checksOut_zero : ChecksOut (fun _ _ => 0) (fun _ => 0) (fun _ => 0) where
  cells _ _ _ _ := by decide
  cols _ _ := by decide
  rows _ _ := by decide
  colSums _ _ := residueSum_zeros 128
  rowSums _ _ := residueSum_zeros 8

theorem ChecksOut.congr {z z' : Nat → Nat → Word} {col col' row row' : Nat → Word} (h : ChecksOut z col row)
    (hz : ∀ i, i < 8 → ∀ c, c < 128 → z' i c = z i c) (hcol : ∀ i, i < 8 → col' i = col i) (hrow : ∀ c, c < 128 → row' c = row c) :
    ChecksOut z' col' row' where
  cells i hi c hc := hz i hi c hc ▸ h.cells i hi c hc
  cols i hi := hcol i hi ▸ h.cols i hi
  rows c hc := hrow c hc ▸ h.rows c hc
  colSums i hi := by
    rw [List.map_congr_left fun c hc => hz i hi c (List.mem_range.mp hc), hcol i hi]
    exact h.colSums i hi
  rowSums c hc := by
    rw [List.map_congr_left fun i hi => hz i (List.mem_range.mp hi) c hc, hrow c hc]
    exact h.rowSums c hc

/-! #### Accumulation -/

/-- The formats latched in a tile are those of the hardware (R23). -/
def inHardware (t : Tile) : Prop := isEmulated t.lfa.toNat = false ∧ isEmulated t.lfb.toNat = false

/-- The sums `p` have entered the residue words of a block, and its checksums with them. -/
structure NarrowSum (blk : Nat) (p : Nat → Nat → Int) (t u : Tile) : Prop where
  rest : u = { t with resid := u.resid, col := u.col, row := u.row }
  sums : ∀ i, i < 8 → ∀ c, c < 128 → Sparse.get 0 (cell blk i c) u.resid = residueAdd (Sparse.get 0 (cell blk i c) t.resid) (p i c)
  other : ∀ key, key / 1024 ≠ blk → Sparse.get 0 key u.resid = Sparse.get 0 key t.resid
  checked : checkBlock t blk = none → checkBlock u blk = none

theorem NarrowSum.trans {blk : Nat} {p q : Nat → Nat → Int} {t u v : Tile} (h : NarrowSum blk p t u) (k : NarrowSum blk q u v) :
    NarrowSum blk (fun i c => p i c + q i c) t v where
  rest := by rw [k.rest, h.rest]
  sums i hi c hc := by rw [k.sums i hi c hc, h.sums i hi c hc, residueAdd_residueAdd]
  other key hk := (k.other key hk).trans (h.other key hk)
  checked hc := k.checked (h.checked hc)

theorem accNarrow_sum (blk : Nat) (a : Nat → List Int) (b : List (List Int)) {t : Tile} (hw : inHardware t) :
    NarrowSum blk (fun i c => nth 0 (dotRow (List.replicate 128 0) (a i) b) c) t (accNarrow blk ((List.range 8).map a) b t) := by
  generalize hp : (fun i c => nth 0 (dotRow (List.replicate 128 0) (a i) b) c) = p
  have hrow : ∀ i, dotRow (List.replicate 128 0) (a i) b = (List.range 128).map (p i) := fun i => by
    have := eq_map_range 0 (dotRow (List.replicate 128 0) (a i) b)
    rw [length_dotRow, List.length_replicate] at this
    rw [this, ← hp]
  have hprod : ((List.range 8).map a).map (fun r => dotRow (List.replicate 128 0) r b) = grid p := by
    rw [List.map_map]
    exact List.map_congr_left fun i _ => hrow i
  have hcol : (grid p).map (·.sum) = (List.range 8).map (fun i => ((List.range 128).map (p i)).sum) := by
    simp [grid, Function.comp_def]
  have hcols : (List.range 128).map (fun c => ((grid p).map (fun r => nth 0 r c)).sum) =
      (List.range 128).map (fun c => ((List.range 8).map (fun i => p i c)).sum) := by
    refine List.map_congr_left fun c hc => ?_
    rw [grid, List.map_map]
    exact congrArg List.sum (List.map_congr_left fun i _ => nth_map_range 0 (p i) (List.mem_range.mp hc))
  have e : accNarrow blk ((List.range 8).map a) b t =
      { t with resid := putBlock t.resid blk (grid (fun i c => residueAdd (Sparse.get 0 (cell blk i c) t.resid) (p i c)))
               col := Sparse.splice 0 (8 * blk) ((List.range 8).map (fun i =>
                 residueAdd (Sparse.get 0 (8 * blk + i) t.col) ((List.range 128).map (p i)).sum)) t.col
               row := Sparse.splice 0 (128 * blk) ((List.range 128).map (fun c =>
                 residueAdd (Sparse.get 0 (128 * blk + c) t.row) ((List.range 8).map (fun i => p i c)).sum)) t.row } := by
    unfold accNarrow
    simp only [hprod, hw.1, hw.2, Bool.or_self, Bool.false_eq_true, if_false, hcol, hcols, blockOf_eq, slice_eq,
      zip_grid (fun w : Word × Int => residueAdd w.1 w.2), List.zip_map', List.map_map, Function.comp_def]
  rw [e]
  refine ⟨rfl, fun i hi c hc => get_putBlock _ _ _ hi hc, fun key hk => get_putBlock_other _ _ _ hk, fun h => ?_⟩
  rw [checkBlock_none_iff] at h ⊢
  refine (h.add p).congr (fun i hi c hc => get_putBlock _ _ _ hi hc) (fun i hi => ?_) fun c hc => ?_
  · rw [get_splice, if_pos (by simp [hi]), Nat.add_sub_cancel_left, nth_map_range 0 _ hi]
  · rw [get_splice, if_pos (by simp [hc]), Nat.add_sub_cancel_left, nth_map_range 0 _ hc]

end Sys2Proof.NumberFormats

/-! ### The end of a span, and one octet operation on a tile (R260, R36) -/

namespace Sys2Proof.NumberFormats

open Sys2Proof Sys2Proof.Machine Sys2Proof.Safety Sys2Proof.Laws

/-! #### Conversion -/

/-- Where a block has no uncorrectable carry word, none is rewritten. -/
theorem rewriteBad_none {blk : Nat} {t : Tile} (h : ∀ k ∈ t.badCarry, k / 1024 ≠ blk) : rewriteBad (1024 * blk) 1024 t = (t, false) := by
  have hit : t.badCarry.filter (fun k => decide (1024 * blk ≤ k) && decide (k < 1024 * blk + 1024)) = [] := by
    rw [List.filter_eq_nil_iff]
    intro k hk
    have := h k hk
    simp only [Bool.and_eq_true, decide_eq_true_eq]
    omega
  rw [rewriteBad, if_pos hit]

/-- The carry word of an element whose span sum is `v` after its block's conversion (R35). -/
def convertedWord (f : DWord) (v : Int) (carry sa sb : Word) : Word :=
  BitVec.ofNat 32 (roundFV fp32 0 (fmtSat f) false
    (addV 0 (source fp32 false carry.toNat) (mulV (mulV (intEx v, 0) (scaleValue (fmtFs f) sa)) (scaleValue (fmtFs f) sb)))).1

/-- The block of `t` has been converted into `u`. -/
structure Converted (f : DWord) (blk : Nat) (t u : Tile) : Prop where
  resid : ∀ key, Sparse.get 0 key u.resid = if key / 1024 = blk then 0 else Sparse.get 0 key t.resid
  carry : ∀ i, i < 8 → ∀ c, c < 128 → Sparse.get 0 (cell blk i c) u.carry = convertedWord f (crt (Sparse.get 0 (cell blk i c) t.resid))
    (Sparse.get 0 (cell blk i c) t.carry) (Sparse.get 0 (8 * blk + i) t.sclA) (Sparse.get 0 (128 * blk + c) t.sclB)
  other : ∀ key, key / 1024 ≠ blk → Sparse.get 0 key u.carry = Sparse.get 0 key t.carry
  scales : u.sclA = t.sclA ∧ u.sclB = t.sclB
  kpos : kposOf u blk = 0
  sidx : sidxOf u blk = (sidxOf t blk + 1) % 65536
  checked : checkBlock u blk = none

theorem convertElem_word {f : DWord} {t : Tile} (hw : inHardware t) (hs : t.lfs.toNat = fmtFs f) (blk i c : Nat) (carry z : Word) :
    BitVec.ofNat 32 (convertElem t (fmtSat f) blk i c carry z).1 =
      convertedWord f (crt z) carry (Sparse.get 0 (8 * blk + i) t.sclA) (Sparse.get 0 (128 * blk + c) t.sclB) := by
  simp only [convertElem, convertedWord, spanSum, hw.1, hw.2, hs, intV, Bool.or_self, Bool.false_eq_true, if_false]

/-- A block without errors converts. -/
theorem convertBlock_done {f : DWord} {blk : Nat} {t : Tile} (hw : inHardware t) (hs : t.lfs.toNat = fmtFs f)
    (hc : checkBlock t blk = none) (hb : ∀ k ∈ t.badCarry, k / 1024 ≠ blk) :
    ∃ u, convertBlock (fmtSat f) blk t = (u, none, false) ∧ Converted f blk t u := by
  generalize hg : (fun i c => convertElem t (fmtSat f) blk i c (Sparse.get 0 (cell blk i c) t.carry) (Sparse.get 0 (cell blk i c) t.resid)) = g
  have hout : (List.range 8).map (fun i => (List.range 128).map (fun c => convertElem t (fmtSat f) blk i c
      (nth 0 (nth [] (blockOf t.carry blk) i) c) (nth 0 (nth [] (blockOf t.resid blk) i) c))) = grid g := by
    rw [blockOf_eq, blockOf_eq]
    subst hg
    exact grid_congr fun i c hi hc => by rw [nth_grid 0 _ hi hc, nth_grid 0 _ hi hc]
  have drop : ∀ (w : Nat) (m : Sparse Word) (k : Nat), k / w = blk → Sparse.get 0 k (Sparse.drop (fun k => k / w == blk) m) = 0 := by
    intro w m k hk
    rw [get_drop, if_pos (by simp [hk])]
  have word : ∀ i c, BitVec.ofNat 32 (g i c).1 = convertedWord f (crt (Sparse.get 0 (cell blk i c) t.resid))
      (Sparse.get 0 (cell blk i c) t.carry) (Sparse.get 0 (8 * blk + i) t.sclA) (Sparse.get 0 (128 * blk + c) t.sclB) := fun i c => by
    rw [← hg]
    exact convertElem_word hw hs blk i c _ _
  simp only [convertBlock, hc, rewriteBad_none hb, hout, map_grid (fun e : Nat × Flags => BitVec.ofNat 32 e.1)]
  refine ⟨_, rfl, ⟨fun key => ?_, fun i hi c hc => (get_putBlock _ _ _ hi hc).trans (word i c), fun key hk => get_putBlock_other _ _ _ hk,
    ⟨rfl, rfl⟩, get_set_self 0 blk 0 t.kpos, get_set_self 0 blk _ t.sidx, ?_⟩⟩
  · refine (get_drop 0 (fun k => k / 1024 == blk) key t.resid).trans ?_
    simp only [beq_iff_eq]
  · rw [checkBlock_none_iff]
    exact checksOut_zero.congr (fun i hi c hc => drop 1024 t.resid _ (cell_div hi hc)) (fun i hi => drop 8 t.col _ (by omega))
      fun c hc => drop 128 t.row _ (by omega)

/-! #### Narrow formats -/

/-- A tile in which only the status word and the latched scales of a block have changed, the scales to `sa` and `sb`. -/
structure Scaled (blk : Nat) (sa sb : Nat → Word) (t u : Tile) : Prop where
  rest : u = { t with mstat := u.mstat, sclA := u.sclA, sclB := u.sclB }
  scaleA : ∀ i, i < 8 → Sparse.get 0 (8 * blk + i) u.sclA = sa i
  scaleB : ∀ c, c < 128 → Sparse.get 0 (128 * blk + c) u.sclB = sb c

theorem latchAgrees_iff (f : DWord) (t : Tile) : latchAgrees f t = true ↔
    t.lfa.toNat = fmtFa f ∧ t.lfb.toNat = fmtFb f ∧ t.lfs.toNat = fmtFs f ∧ t.lspan.toNat = fmtSpan f := by
  simp [latchAgrees, and_assoc]

/-- The narrow part of an octet operation over its whole length, where its products have the sums `p`. -/
theorem narrowStep_takes {f : DWord} {blk : Nat} {ops : List Operands} {p : Nat → Nat → Int} {sa sb : Nat → Word} {t0 t : Tile}
    (hf : isEmulated (fmtFa f) = false ∧ isEmulated (fmtFb f) = false) (tk : TakesNarrow f blk t0) (sc : Scaled blk sa sb t0 t)
    (hp : NarrowSum blk p t (ops.foldl (fun t o => accNarrow blk (o.narrowA.map (fun r => ((r.drop 0).take (kOf (fmtFa f))).map (·.1)))
      (((o.narrowB.drop 0).take (kOf (fmtFa f))).map (·.map (·.1))) t) t)) :
    ∃ u, narrowStep f blk ops t 0 (kOf (fmtFa f)) = (u, none, false) ∧ narrowTakes f blk (kOf (fmtFa f)) p sa sb t0 u := by
  obtain ⟨hla, hlb, hls, hlp⟩ := (latchAgrees_iff f t0).mp tk.latched
  generalize hk : kOf (fmtFa f) = k at *
  simp only [narrowStep]
  generalize hv : ops.foldl _ t = v at hp
  -- what the additions and the latches leave as in `t0`
  have rest : v = { t0 with resid := v.resid, col := v.col, row := v.row, mstat := v.mstat, sclA := v.sclA, sclB := v.sclB } := by
    rw [hp.rest, sc.rest]
  have fmts : v.lfa = t0.lfa ∧ v.lfb = t0.lfb ∧ v.lfs = t0.lfs ∧ v.lspan = t0.lspan := by rw [rest]; exact ⟨rfl, rfl, rfl, rfl⟩
  have pos : v.carry = t0.carry ∧ v.kpos = t0.kpos ∧ v.sidx = t0.sidx ∧ v.badCarry = t0.badCarry := by rw [rest]; exact ⟨rfl, rfl, rfl, rfl⟩
  have scl : v.sclA = t.sclA ∧ v.sclB = t.sclB := by rw [hp.rest]; exact ⟨rfl, rfl⟩
  have same : t.resid = t0.resid ∧ t.col = t0.col ∧ t.row = t0.row := by rw [sc.rest]; exact ⟨rfl, rfl, rfl⟩
  obtain ⟨fa, fb, fs, fspan⟩ := fmts
  obtain ⟨pcarry, pkpos, psidx, pbad⟩ := pos
  have sums : ∀ i, i < 8 → ∀ c, c < 128 → Sparse.get 0 (cell blk i c) v.resid = residueAdd (Sparse.get 0 (cell blk i c) t0.resid) (p i c) := by
    rw [← same.1]; exact hp.sums
  have other : ∀ key, key / 1024 ≠ blk → Sparse.get 0 key v.resid = Sparse.get 0 key t0.resid := by rw [← same.1]; exact hp.other
  have check : ∀ w : Tile, w.resid = t.resid → w.col = t.col → w.row = t.row → checkBlock w blk = checkBlock t blk := fun w h1 h2 h3 => by
    simp only [checkBlock, h1, h2, h3]
  have checked : checkBlock t0 blk = none → checkBlock v blk = none := fun h =>
    hp.checked ((check t0 same.1.symm same.2.1.symm same.2.2.symm).symm.trans h)
  have hpos : kposOf v blk = kposOf t0 blk := by rw [kposOf, kposOf, pkpos]
  have hspan : spanOf v.lspan.toNat = spanOf (fmtSpan f) := by rw [fspan, hlp]
  rw [hpos, hspan]
  by_cases full : kposOf t0 blk + k = spanOf (fmtSpan f)
  · obtain ⟨c0, b0⟩ := tk.checked (hk ▸ full)
    obtain ⟨u, hu, cv⟩ := convertBlock_done (f := f) (blk := blk) (t := { v with kpos := Sparse.set 0 blk (kposOf t0 blk + k) v.kpos })
      ⟨by rw [fa, hla]; exact hf.1, by rw [fb, hlb]; exact hf.2⟩ (fs ▸ hls) (checked c0) (pbad ▸ b0)
    rw [if_pos full]
    refine ⟨u, hu, fun i c hi hc => ⟨fun h => absurd full h, fun _ => ⟨?_, ?_⟩⟩, fun key hkey => ⟨?_, ?_⟩, fun i hi => ?_, fun c hc => ?_, ?_, ?_,
      fun _ => cv.checked⟩
    · exact (cv.resid _).trans (if_pos (cell_div hi hc))
    · refine (cv.carry i hi c hc).trans ?_
      show convertedWord f (crt (Sparse.get 0 (cell blk i c) v.resid)) (Sparse.get 0 (cell blk i c) v.carry) (Sparse.get 0 (8 * blk + i) v.sclA)
        (Sparse.get 0 (128 * blk + c) v.sclB) = _
      rw [sums i hi c hc, pcarry, scl.1, scl.2, sc.scaleA i hi, sc.scaleB c hc]
      rfl
    · exact (cv.resid key).trans ((if_neg hkey).trans (other key hkey))
    · exact (cv.other key hkey).trans (by rw [pcarry])
    · rw [cv.scales.1, scl.1, sc.scaleA i hi]
    · rw [cv.scales.2, scl.2, sc.scaleB c hc]
    · rw [cv.kpos, if_pos full]
    · rw [cv.sidx, if_pos full, sidxOf, sidxOf, psidx]
  · rw [if_neg full]
    refine ⟨_, rfl, fun i c hi hc => ⟨fun _ => ⟨sums i hi c hc, by rw [pcarry]⟩, fun h => absurd h full⟩, fun key hkey => ⟨other key hkey, by rw [pcarry]⟩,
      fun i hi => ?_, fun c hc => ?_, ?_, ?_, checked⟩
    · rw [scl.1, sc.scaleA i hi]
    · rw [scl.2, sc.scaleB c hc]
    · rw [if_neg full]
      exact get_set_self _ _ _ _
    · rw [if_neg full, sidxOf, sidxOf, psidx]

end Sys2Proof.NumberFormats

/-! #### One octet operation on a tile (R260, R36) -/

namespace Sys2Proof.NumberFormats

open Sys2Proof Sys2Proof.Machine Sys2Proof.Safety Sys2Proof.Laws

/-! ##### Narrow formats -/

/-- A tile with the scales of a stretch, if it has any. -/
def withScales (blk : Nat) (v : Option (List Word)) (t : Tile) : Tile :=
  match v with
  | some v => latchScales blk v t
  | none => t

/-- A tile that holds sums or has latched formats is not empty: it keeps its latch. -/
theorem latchTile_kept {t : Tile} (h : t.kind ≠ 0) (n : Nat) (f : DWord) : latchTile n f t = t := by
  rw [latchTile, if_neg h]

theorem scaled_none (blk n : Nat) (t : Tile) : Scaled blk (fun i => Sparse.get 0 (8 * blk + i) t.sclA)
    (fun c => Sparse.get 0 (128 * blk + c) t.sclB) t (withScales blk none (addNulls n t)) :=
  ⟨rfl, fun _ _ => rfl, fun _ _ => rfl⟩

theorem scaled_some (blk n : Nat) {v : List Word} (hv : v.length = 136) (t : Tile) :
    Scaled blk (nth 0 v) (fun c => nth 0 v (8 + c)) t (withScales blk (some v) (addNulls n t)) := by
  refine ⟨rfl, fun i hi => ?_, fun c hc => ?_⟩
  · refine (get_splice 0 (8 * blk) (v.take 8) t.sclA _).trans ?_
    rw [List.length_take, if_pos (by omega), Nat.add_sub_cancel_left, nth_take 0 v hi]
  · refine (get_splice 0 (128 * blk) (v.drop 8) t.sclB _).trans ?_
    rw [List.length_drop, if_pos (by omega), Nat.add_sub_cancel_left, nth_drop]

/-- The part of the rows of two operands that an octet operation of the formats in hardware takes: all of it. -/
def wholeCut (f : DWord) (blk : Nat) (o : Operands) (t : Tile) : Tile :=
  accNarrow blk (o.narrowA.map (fun r => ((r.drop 0).take (kOf (fmtFa f))).map (·.1)))
    (((o.narrowB.drop 0).take (kOf (fmtFa f))).map (·.map (·.1))) t

/-- One octet operation whose only stretch is its whole length. -/
theorem octetOp_narrow {c : Command} {blk name : Nat} {ops : List Operands} {v : Option (List Word)} {p : Nat → Nat → Int}
    {sa sb : Nat → Word} {t : Tile} (hf : isEmulated (fmtFa c.fmt) = false ∧ isEmulated (fmtFb c.fmt) = false) (tk : TakesNarrow c.fmt blk t)
    (hs : ∀ n, Scaled blk sa sb t (withScales blk v (addNulls n t)))
    (hp : ∀ t, inHardware t → NarrowSum blk p t (ops.foldl (fun t o => wholeCut c.fmt blk o t) t)) :
    ∃ u, octetOp c blk name ops [⟨0, kOf (fmtFa c.fmt), v⟩] t = (u, .done) ∧ narrowTakes c.fmt blk (kOf (fmtFa c.fmt)) p sa sb t u := by
  have hk : t.kind ≠ 0 := by rw [tk.kind]; decide
  generalize hn : (ops.map (fun o => nullsIn o.narrowA + nullsIn o.narrowB)).sum = n
  have sc := hs n
  obtain ⟨la, lb, -, -⟩ := (latchAgrees_iff c.fmt t).mp tk.latched
  have hw : inHardware (withScales blk v (addNulls n t)) := by
    rw [sc.rest]
    exact ⟨la ▸ hf.1, lb ▸ hf.2⟩
  obtain ⟨u, hu, ht⟩ := narrowStep_takes hf tk sc (hp _ hw)
  have segs : narrowSegs c.fmt blk ops [⟨0, kOf (fmtFa c.fmt), v⟩] (addNulls n t) false = (u, none, false) := by
    have e : narrowSegs c.fmt blk ops [⟨0, kOf (fmtFa c.fmt), v⟩] (addNulls n t) false =
        match narrowStep c.fmt blk ops (withScales blk v (addNulls n t)) 0 (kOf (fmtFa c.fmt)) with
        | (t, some sub, _) => (t, some sub, false)
        | (t, none, b) => narrowSegs c.fmt blk ops [] t (false || b) := rfl
    rw [e, hu]
    rfl
  refine ⟨u, ?_, ht⟩
  simp only [octetOp, tk.sound, tk.latched, latchTile_kept hk, tk.kind, hn, segs, Bool.not_true, Bool.false_eq_true, and_false, if_false, if_true]

/-! ##### Floating-point formats -/

/-- The exact value +0. -/
def zeroFV : FV := (.num false 0 1 0, 0)

/-- A carry word after `m` runs of 16 products, each run added exactly and rounded once (R36). -/
def runSum (sat : Bool) (prod : Nat → FV) (m w : Nat) : Nat :=
  (List.range m).foldl (fun w run =>
    (roundFV fp32 0 sat false (((List.range 16).map (fun j => prod (16 * run + j))).foldl (addV 0) (source fp32 false w))).1) w

theorem runSum_congr (sat : Bool) {f g : Nat → FV} {m : Nat} (h : ∀ j, j < 16 * m → f j = g j) (w : Nat) : runSum sat f m w = runSum sat g m w := by
  refine List.foldl_ext _ _ _ fun w run hr => ?_
  have hr := List.mem_range.mp hr
  rw [List.map_congr_left fun j hj => h (16 * run + j) (by have := List.mem_range.mp hj; omega)]

theorem runsOf16_range (g : Nat → FV) (m n : Nat) (h : m ≤ n) :
    runsOf16 n ((List.range (16 * m)).map g) = (List.range m).map (fun run => (List.range 16).map (fun j => g (16 * run + j))) := by
  induction m generalizing g n with
  | zero => cases n <;> rfl
  | succ m ih =>
    obtain ⟨n, rfl⟩ : ∃ k, n = k + 1 := ⟨n - 1, by omega⟩
    have e : List.range (16 * (m + 1)) = List.range 16 ++ (List.range (16 * m)).map (16 + ·) := by
      rw [Nat.mul_add, Nat.add_comm (16 * m), List.range_add]
    have ne : (List.range (16 * (m + 1))).map g ≠ [] := by simp
    rw [runsOf16, if_neg ne, e, List.map_append, List.take_left' (by simp), List.drop_left' (by simp), List.map_map, ih _ n (by omega),
      List.range_succ_eq_map (n := m), List.map_cons, List.map_map]
    congr 1
    refine List.map_congr_left fun run _ => ?_
    have shift : ∀ j, 16 + (16 * run + j) = 16 * (run + 1) + j := fun j => by omega
    simp only [Function.comp_apply, shift, Nat.succ_eq_add_one]

/-- The runs of an element of a block. -/
theorem accRun_runs (sat : Bool) (g : Nat → FV) (m w : Nat) :
    ((runsOf16 (16 * m) ((List.range (16 * m)).map g)).foldl (accRun sat) (w, 0)).1 = runSum sat g m w := by
  rw [runsOf16_range g m (16 * m) (by omega), List.foldl_map, runSum]
  exact (List.foldl_hom Prod.fst fun _ _ => rfl).symm

theorem accFloat_carry (sat : Bool) (blk : Nat) (a : Nat → List FV) (b : List (List FV)) (m : Nat) (ha : ∀ i, i < 8 → (a i).length = 16 * m)
    (hb : b.length = 16 * m) (t : Tile) : ∃ flags, accFloat sat blk ((List.range 8).map a) b t = addFlags flags
      { t with carry := putBlock t.carry blk (grid (fun i c => BitVec.ofNat 32 (runSum sat
          (fun j => mulV (nth zeroFV (a i) j) (nth zeroFV (nth [] b j) c)) m (Sparse.get 0 (cell blk i c) t.carry).toNat))) } := by
  have prods : ∀ i c, i < 8 → ((a i).zip (b.map (fun r => nth zeroFV r c))).map (fun x => mulV x.1 x.2) =
      (List.range (16 * m)).map (fun j => mulV (nth zeroFV (a i) j) (nth zeroFV (nth [] b j) c)) := by
    intro i c hi
    conv_lhs => rw [eq_map_range zeroFV (a i), eq_map_range [] b, ha i hi, hb]
    rw [List.map_map, List.zip_map', List.map_map]
    rfl
  have out : ((blockOf t.carry blk).zip ((List.range 8).map a)).map (fun e => (e.1.zip ((List.range 128).map (fun c =>
        b.map (fun r => nth zeroFV r c)))).map (fun w =>
        (runsOf16 w.2.length ((e.2.zip w.2).map (fun x => mulV x.1 x.2))).foldl (accRun sat) (w.1.toNat, 0))) =
      grid (fun i c => (runsOf16 (16 * m) ((List.range (16 * m)).map (fun j => mulV (nth zeroFV (a i) j) (nth zeroFV (nth [] b j) c)))).foldl
        (accRun sat) ((Sparse.get 0 (cell blk i c) t.carry).toNat, 0)) := by
    rw [blockOf_eq, grid, grid, List.zip_map', List.map_map]
    refine List.map_congr_left fun i hi => ?_
    simp only [Function.comp_apply]
    rw [List.zip_map', List.map_map]
    refine List.map_congr_left fun c _ => ?_
    simp only [Function.comp_apply, prods i c (List.mem_range.mp hi), List.length_map, hb]
  have cols : (List.range 128).map (fun c => b.map (fun r => nth ((.num false 0 1 0, 0) : FV) r c)) =
    (List.range 128).map (fun c => b.map (fun r => nth zeroFV r c)) := rfl
  unfold accFloat
  dsimp only
  rw [cols, out, map_grid (fun e : Nat × Flags => BitVec.ofNat 32 e.1)]
  simp only [accRun_runs]
  exact ⟨_, rfl⟩

/-- One octet operation of floating-point formats in hardware, where its rows are whole runs of 16. -/
theorem octetOp_float {c : Command} {blk name : Nat} {o : Operands} {l : List Stretch} {t : Tile} (m : Nat) (a : Nat → List FV)
    (ho : o.floatA = (List.range 8).map a) (ha : ∀ i, i < 8 → (a i).length = 16 * m) (hb : o.floatB.length = 16 * m) (hbad : isBad t = false)
    (hkind : t.kind = 2) (hl : latchAgrees c.fmt t = true) (hc : ∀ k ∈ t.badCarry, k / 1024 ≠ blk) :
    ∃ u, octetOp c blk name [o] l t = (u, .done) ∧
      (∀ i, i < 8 → ∀ k, k < 128 → Sparse.get 0 (cell blk i k) u.carry = BitVec.ofNat 32 (runSum (fmtSat c.fmt)
        (fun j => mulV (nth zeroFV (a i) j) (nth zeroFV (nth [] o.floatB j) k)) m (Sparse.get 0 (cell blk i k) t.carry).toNat)) ∧
      (∀ key, key / 1024 ≠ blk → Sparse.get 0 key u.carry = Sparse.get 0 key t.carry) ∧ u.resid = t.resid ∧
      kposOf u blk = (kposOf t blk + kOf (fmtFa c.fmt)) % 8192 := by
  obtain ⟨flags, hacc⟩ := accFloat_carry (fmtSat c.fmt) blk a o.floatB m ha hb t
  have hk0 : t.kind ≠ 0 := by rw [hkind]; decide
  have hk1 : ¬ t.kind = 1 := by rw [hkind]; decide
  simp only [octetOp, hbad, hl, latchTile_kept hk0, hk1, floatStep, rewriteBad_none hc, List.foldl_cons, List.foldl_nil, ho, hacc,
    Bool.not_true, Bool.false_eq_true, and_false, if_false]
  exact ⟨_, rfl, fun i hi k hk => get_putBlock _ _ _ hi hk, fun key hkey => get_putBlock_other _ _ _ hkey, rfl, get_set_self 0 blk _ t.kpos⟩

end Sys2Proof.NumberFormats

/-! ### What the reads of the matrix engine and the end of a command leave as they were -/

namespace Sys2Proof.NumberFormats

open Sys2Proof Sys2Proof.Machine Sys2Proof.Safety Sys2Proof.Laws

/-! #### Reads of memory -/

/-- Cores, teams and groups are the same in both states. -/
structure OffCore (s t : State) : Prop where
  cores : t.cores = s.cores
  teams : t.teams = s.teams
  g : t.g = s.g
  others : t.others = s.others

theorem OffCore.rfl {s : State} : OffCore s s := ⟨Eq.refl _, Eq.refl _, Eq.refl _, Eq.refl _⟩

theorem OffCore.trans {s t u : State} (h : OffCore s t) (k : OffCore t u) : OffCore s u :=
  ⟨k.cores.trans h.cores, k.teams.trans h.teams, k.g.trans h.g, k.others.trans h.others⟩

theorem offCore_foldl {α : Type} (f : State → α → State) (h : ∀ s a, OffCore s (f s a)) (l : List α) (s : State) : OffCore s (l.foldl f s) :=
  foldl_keeps (fun t => OffCore s t) f (fun t a k => k.trans (h t a)) l .rfl

theorem offCore_sliceWrite (pa : Nat) (bs : List Byte) (t : Nat) (s : State) : OffCore s (sliceWrite pa bs t s) :=
  (⟨rfl, rfl, rfl, rfl⟩ : OffCore s (memWrite pa bs (unsign pa bs.length s))).trans
    (offCore_foldl (touchWrite t) (fun _ _ => ⟨rfl, rfl, rfl, rfl⟩) (linesOf pa bs.length) _)

theorem offCore_setAD (e : DWord) (a : Nat) (acc : Acc) (s : State) : OffCore s (setAD e a acc s) := by
  unfold setAD
  dsimp only
  generalize (e ||| BitVec.ofNat 64 (2 ^ 53) ||| if acc = .write then BitVec.ofNat 64 (2 ^ 54) else 0) = e'
  split
  · exact .rfl
  · exact offCore_sliceWrite _ _ _ _

theorem offCore_logEntry (e : LogEntry) (s : State) : OffCore s (logEntry e s) := by
  unfold logEntry
  dsimp only
  split
  · exact ⟨rfl, rfl, rfl, rfl⟩
  · split
    · split <;> exact ⟨rfl, rfl, rfl, rfl⟩
    · exact ⟨rfl, rfl, rfl, rfl⟩

theorem offCore_note (agent eid kind : Nat) (va : DWord) (pa : Option Nat) (n : Nat) (s : State) : OffCore s (note agent eid kind va pa n s) :=
  offCore_foldl _ (fun s _ => offCore_logEntry _ s) _ _

theorem offCore_cachePlace {ways : List Nat} {s t : State} {w p : Nat} (h : cachePlace ways s = some (w, p, t)) : OffCore s t := by
  unfold cachePlace at h
  dsimp only at h
  split at h
  · simp only [Option.some.injEq, Prod.mk.injEq] at h
    exact h.2.2 ▸ .rfl
  · split at h
    · cases h
    · simp only [Option.some.injEq, Prod.mk.injEq] at h
      exact h.2.2 ▸ ⟨rfl, rfl, rfl, rfl⟩

theorem offCore_cacheTouch (eid cls : Nat) (dirty last : Bool) (s : State) (line : Nat) : OffCore s (cacheTouch eid cls dirty last s line) := by
  unfold cacheTouch
  dsimp only
  split
  · exact ⟨rfl, rfl, rfl, rfl⟩
  · split
    · exact .rfl
    · rename_i h
      exact (offCore_cachePlace h).trans ⟨rfl, rfl, rfl, rfl⟩

theorem offCore_sliceTouch (va : DWord) (pa n : Nat) (dirty last : Bool) (s : State) : OffCore s (sliceTouch va pa n dirty last s) :=
  (⟨rfl, rfl, rfl, rfl⟩ : OffCore s (cross s)).trans (offCore_foldl _ (fun s l => offCore_cacheTouch _ _ dirty last s l) _ _)

theorem offCore_takeFrame {owner die : Nat} {intlv : Bool} {s t : State} {f : Nat} (h : takeFrame owner die intlv s = some (f, t)) : OffCore s t := by
  unfold takeFrame at h
  split at h
  · cases h
    exact ⟨rfl, rfl, rfl, rfl⟩
  · split at h
    · cases h
    · cases h
      exact ⟨rfl, rfl, rfl, rfl⟩

theorem offCore_takeFrames (owner die : Nat) (intlv : Bool) (n : Nat) (s : State) : OffCore s (takeFrames owner die intlv n s).2 := by
  induction n generalizing s with
  | zero => exact .rfl
  | succ n ih =>
    unfold takeFrames
    split
    · exact .rfl
    · rename_i h
      exact (offCore_takeFrame h).trans (ih _)

theorem offCore_refillList (eid die n : Nat) (s : State) : OffCore s (refillList eid die n s) :=
  (offCore_takeFrames (eid + 1) die false n s).trans ⟨rfl, rfl, rfl, rfl⟩

theorem offCore_growMap (eid die : Nat) (parent : DWord) (a : Nat) (va : DWord) (s : State) :
    OffCore s (growMap none eid die parent a va s).2 := by
  unfold growMap
  split
  · exact .rfl
  · dsimp only [tlbFill]
    refine OffCore.trans ?_ (offCore_sliceWrite _ _ _ _)
    exact ⟨rfl, rfl, rfl, rfl⟩

/-- A walk for an agent that stands on no core fills no TLB. -/
theorem offCore_walk (eid die : Nat) (va : DWord) (acc : Acc) (s : State) : OffCore s (walk none eid die va acc s).2 := by
  unfold walk
  dsimp only
  split
  · exact .rfl
  · exact .rfl
  · cases acc with
    | read => exact .rfl
    | fetch => exact .rfl
    | write => exact offCore_growMap eid die _ _ va s
  · split
    · exact .rfl
    · exact offCore_setAD _ _ _ _

theorem offCore_devPlace (eid die : Nat) (va : DWord) (acc : Acc) (s : State) : OffCore s (devPlace eid die va acc s).2 := by
  have first := offCore_walk eid die va acc s
  unfold devPlace
  split
  · exact .rfl
  · split
    · rename_i d s1 h
      rw [h] at first
      have second := (first.trans (offCore_refillList eid d 1 s1)).trans (offCore_walk eid die va acc _)
      dsimp only
      split
      · rename_i h2
        rw [h2] at second
        exact second
      · exact second
    · exact first

theorem offCore_cmdPlace (core : Nat) (c : Command) (va : DWord) (acc : Acc) (s : State) : OffCore s (cmdPlace core c va acc s).2 := by
  unfold cmdPlace
  dsimp only
  split
  · split
    · exact offCore_walk _ _ _ _ _
    · exact .rfl
  · split
    · exact .rfl
    · split
      · exact .rfl
      · split
        · exact offCore_walk _ _ _ _ _
        · exact .rfl

theorem offCore_crossFrom (core : Nat) (c : Command) (k : Nat) (s : State) : OffCore s (crossFrom core c k s) := by
  unfold crossFrom
  split
  · exact .rfl
  · exact ⟨rfl, rfl, rfl, rfl⟩

theorem offCore_cmdMover (core : Nat) (c : Command) (va : DWord) (acc : Acc) (s : State) :
    OffCore s ((cmdMover core c).place va acc s).2 := by
  dsimp only [cmdMover]
  split
  · exact offCore_devPlace _ _ _ _ _
  · have h := offCore_cmdPlace core c va acc s
    unfold cmdCross
    split
    · exact h.trans (offCore_crossFrom _ _ _ _)
    · exact h

theorem offCore_left (core : Nat) (c : Command) (va : DWord) (p : Place) (n : Nat) (s : State) :
    OffCore s ((cmdMover core c).left va p n false s) := by
  unfold Mover.left
  split
  · exact (offCore_sliceTouch _ _ _ _ _ _).trans (offCore_note _ _ _ _ _ _ _)
  · exact .rfl

/-- A read that comes to its end has the bytes that it asks for. -/
theorem length_placeBytes {va : DWord} {n : Nat} {p : Place} {s : State} {b : List Byte} (h : placeBytes va n p s = .bytes b) : b.length = n := by
  unfold placeBytes at h
  split at h
  · split at h
    · cases h
    · cases h
      exact length_memRead _ _ _
  · split at h
    · cases h
    · cases h
      simp [localRead]
  · cases h
    simp
  · cases h

/-- A command's read that comes to its end leaves cores, teams and groups as they were. -/
theorem readPages_done {core : Nat} {c : Command} {l : List (DWord × Nat)} {s : State} {b : List Byte}
    (h : (readPages (cmdMover core c) l s).1 = .bytes b) :
    OffCore s (readPages (cmdMover core c) l s).2 ∧ b.length = (l.map (·.2)).sum := by
  induction l generalizing s b with
  | nil =>
    cases h
    exact ⟨.rfl, rfl⟩
  | cons e l ih =>
    obtain ⟨va, n⟩ := e
    simp only [readPages] at h ⊢
    have step := (offCore_cmdMover core c va .read s).trans
      (offCore_left core c va ((cmdMover core c).place va .read s).1 n ((cmdMover core c).place va .read s).2)
    generalize hb : placeBytes va n ((cmdMover core c).place va .read s).1 ((cmdMover core c).place va .read s).2 = got at h ⊢
    cases got with
    | stop a q => cases h
    | bytes d =>
      dsimp only at h ⊢
      generalize hr : readPages (cmdMover core c) l _ = r at h ⊢
      obtain ⟨r1, r2⟩ := r
      cases r1 with
      | stop a q => cases h
      | bytes e =>
        cases h
        have := ih (congrArg Prod.fst hr)
        rw [hr] at this
        refine ⟨step.trans this.1, ?_⟩
        rw [List.length_append, length_placeBytes hb, this.2, List.map_cons, List.sum_cons]

/-- The scales of a span: 136 of them, and nothing on a core has changed. -/
theorem readScales_done {core : Nat} {c : Command} {q : List Word} {blk span : Nat} {s : State} {v : List Word}
    (h : (readScales core c q blk span s).1 = .inl v) : v.length = 136 ∧ OffCore s (readScales core c q blk span s).2 := by
  simp only [readScales] at h ⊢
  generalize hr : readPages (cmdMover core c) _ s = r at h ⊢
  obtain ⟨r1, r2⟩ := r
  cases r1 with
  | stop a p => cases h
  | bytes b =>
    cases h
    have := (readPages_done (congrArg Prod.fst hr)).1
    rw [hr] at this
    exact ⟨by simp, this⟩

end Sys2Proof.NumberFormats

/-! #### The end of a command (R247) -/

namespace Sys2Proof.NumberFormats

open Sys2Proof Sys2Proof.Machine Sys2Proof.Safety Sys2Proof.Laws

/-- Some group of a team is on the device and has not ended, so that the team is not freed (R324). -/
def staysPlaced (s : State) (tid : Nat) : Prop := ∃ g ∈ allGroups s, g.tid = tid ∧ isOver g = false

theorem staysPlaced_of_owner {s : State} {c : Command} (h : hasOwner s c) : staysPlaced s c.team := by
  obtain ⟨g, hg, ht, ho⟩ := h
  exact ⟨g, List.mem_of_find?_eq_some hg, ht, ho⟩

theorem staysPlaced_congr {s t : State} {tid : Nat} (hg : t.g = s.g) (ho : t.others = s.others) (h : staysPlaced s tid) : staysPlaced t tid := by
  obtain ⟨g, hm, hp⟩ := h
  exact ⟨g, by rw [allGroups, hg, ho]; exact hm, hp⟩

theorem settleTeam_placed {s : State} {tid : Nat} (h : staysPlaced s tid) : settleTeam tid s = s := by
  obtain ⟨g, hm, ht, ho⟩ := h
  have on : teamOver s tid = false := by
    rw [teamOver, List.all_eq_false]
    exact ⟨g, hm, by simp [ht, ho]⟩
  unfold settleTeam
  split
  · rfl
  · simp [on]

/-- A group that learns of a command's retirement keeps its team and does not end by it. -/
theorem woken_stays (c : Command) (g : Group) : (woken c g).tid = g.tid ∧ (isOver g = false → isOver (woken c g) = false) := by
  unfold woken
  split
  · exact ⟨rfl, fun _ => rfl⟩
  · split
    · refine ⟨?_, fun _ => rfl⟩
      simp only [passed]
      split <;> rfl
    · exact ⟨rfl, id⟩

theorem mem_updateWhere {α : Type} (p : α → Bool) (f : α → α) {l : List α} {a : α} (h : a ∈ l) : (if p a then f a else a) ∈ updateWhere p f l :=
  List.mem_map_of_mem h

theorem staysPlaced_modAny {s : State} {tid gid : Nat} {f : Group → Group}
    (hf : ∀ g, (f g).tid = g.tid ∧ (isOver g = false → isOver (f g) = false)) (h : staysPlaced s tid) : staysPlaced (modAny gid f s) tid := by
  obtain ⟨g, hm, ht, ho⟩ := h
  refine ⟨if g.gid == gid then f g else g, ?_, ?_⟩
  · rcases List.mem_cons.mp hm with rfl | hm
    · exact List.mem_cons_self
    · exact List.mem_cons_of_mem _ (mem_updateWhere (fun g => g.gid == gid) f hm)
  · split
    · exact ⟨(hf g).1.trans ht, (hf g).2 ho⟩
    · exact ⟨ht, ho⟩

theorem tileAt_congr {s t : State} (h : t.cores = s.cores) (core p : Nat) : tileAt t core p = tileAt s core p := by
  simp only [tileAt, coreAt, h]

theorem tileAt_modCore {f : Core → Core} (hf : ∀ k, (f k).tiles = k.tiles) (n : Nat) (s : State) (core p : Nat) :
    tileAt (modCore n f s) core p = tileAt s core p := by
  simp only [tileAt, coreAt, modCore, setCore, get_set]
  split
  · rename_i h
    rw [hf, h]
  · rfl

theorem tileAt_putCmd (n : Nat) (c : Command) (s : State) (core p : Nat) : tileAt (putCmd n c s) core p = tileAt s core p :=
  tileAt_modCore (f := fun k => { k with seq := updateWhere (fun d => d.serial == c.serial) (fun _ => c) k.seq }) (fun _ => rfl) _ _ _ _

theorem tileAt_putTile (core n : Nat) (t : Tile) (s : State) (p : Nat) :
    tileAt (putTile core n t s) core p = if p = n then t else tileAt s core p := by
  simp only [tileAt, coreAt, putTile, modCore, setCore, get_set, if_true]

/-- A core when a command that is done has left its entry. -/
def unsequenced (c : Command) (k : Core) : Core := { k with seq := (k.seq.filter (fun d => d.serial != c.serial)).map (dropPred c false) }

/-- Its team, its group and what is saved have learnt that a command is done. -/
def told (core : Nat) (c : Command) (s : State) : State :=
  let s := modTeam c.team (fun t => { t with retired := Sparse.set 0 (idSlot t core c.id) c.stamp t.retired }) s
  let s := modAny c.group (woken c) s
  let waiting := fun (t : SavedTeam) => { t with seqs := t.seqs.map (·.map (dropPred c false)) }
  countDown c.team { s with saved := s.saved.map (fun v => { v with teams := v.teams.map waiting }) }

theorem retire_done (core : Nat) (c : Command) (s : State) : ∃ (l : List Nat) (u : State), retire core c false s = settleTeam c.team (told core c u) ∧
    (let v : State := l.foldl (fun s k => modCore k (unsequenced c) s) s; u.g = v.g ∧ u.others = v.others ∧ u.cores = v.cores) := by
  let l := core :: ((findTeam s c.team).map (·.cores)).getD []
  let v := l.foldl (fun s k => modCore k (unsequenced c) s) s
  cases h : writesHandle c with
  | none => exact ⟨l, v, by unfold retire; rw [h]; rfl, rfl, rfl, rfl⟩
  | some n => exact ⟨l, modHandle c.eid n (fun k => { k with stamp := max k.stamp c.stamp }) v, by unfold retire; rw [h]; rfl, rfl, rfl, rfl⟩

theorem foldl_unsequenced (c : Command) (q p : Nat) (l : List Nat) (s : State) : let v := l.foldl (fun s k => modCore k (unsequenced c) s) s
    tileAt v q p = tileAt s q p ∧ v.g = s.g ∧ v.others = s.others :=
  foldl_keeps (fun v : State => tileAt v q p = tileAt s q p ∧ v.g = s.g ∧ v.others = s.others) (fun s k => modCore k (unsequenced c) s)
    (fun _ _ h => ⟨(tileAt_modCore (f := unsequenced c) (fun _ => rfl) _ _ _ _).trans h.1, h.2⟩) l ⟨rfl, rfl, rfl⟩

theorem staysPlaced_told {core : Nat} {c : Command} {s : State} (h : staysPlaced s c.team) : staysPlaced (told core c s) c.team :=
  staysPlaced_congr rfl rfl (staysPlaced_modAny (gid := c.group) (woken_stays c)
    (staysPlaced_congr (t := modTeam c.team (fun t => { t with retired := Sparse.set 0 (idSlot t core c.id) c.stamp t.retired }) s) rfl rfl h))

theorem tileAt_told (core : Nat) (c : Command) (s : State) (q p : Nat) : tileAt (told core c s) q p = tileAt s q p := rfl

/-- A command that retires as done leaves every tile as it was, where its team stays on its cores. -/
theorem tileAt_retire {core : Nat} {c : Command} {s : State} (h : staysPlaced s c.team) (q p : Nat) :
    tileAt (retire core c false s) q p = tileAt s q p := by
  obtain ⟨l, u, hu, hg, ho, hc⟩ := retire_done core c s
  obtain ⟨ht, hg', ho'⟩ := foldl_unsequenced c q p l s
  rw [hu, settleTeam_placed (staysPlaced_told (staysPlaced_congr (hg.trans hg') (ho.trans ho') h)), tileAt_told, ← ht]
  exact tileAt_congr hc q p

/-! #### The octet operations of a command (R279) -/

theorem cmdTile_congr {s t : State} (h : t.teams = s.teams) (core : Nat) (c : Command) (n : Nat) : cmdTile t core c n = cmdTile s core c n := by
  simp only [cmdTile, physTile, findTeam, h]

/-- In hardware an octet operation has one stretch. -/
theorem segments_whole {pos span k n : Nat} (hk : 0 < k) (h : pos + k ≤ span) (hn : 2 ≤ n) : segments n pos span 0 k = [(0, k)] := by
  obtain ⟨n, rfl⟩ : ∃ m, n = m + 2 := ⟨n - 2, by omega⟩
  have m : min (k - 0) (span - pos) = k := by omega
  have rest : ∀ p, segments (n + 1) p span k k = [] := fun p => by rw [segments, if_pos (Nat.le_refl k)]
  rw [segments, if_neg (by omega), m]
  dsimp only
  rw [Nat.zero_add, rest]

section
variable {core : Nat} {c : Command} {sc : Option (List Word)} {blk : Nat} {t : Tile} {s : State}
  (hn : isNarrow (fmtFa c.fmt) = true) (hk : 0 < kOf (fmtFa c.fmt)) (hr : kposOf t blk + kOf (fmtFa c.fmt) ≤ spanOf (fmtSpan c.fmt))
include hn hk hr

theorem tileStretches_within (h : sc = none ∨ kposOf t blk ≠ 0) :
    tileStretches core c sc blk t s = (.inl [⟨0, kOf (fmtFa c.fmt), none⟩], s) := by
  rw [tileStretches, if_pos hn, segments_whole hk hr (by omega)]
  rcases h with rfl | h
  · rfl
  · cases sc with
    | none => rfl
    | some q => simp only [stretches, if_neg h]

theorem tileStretches_opening {q v : List Word} (h0 : kposOf t blk = 0) (hv : (readScales core c q blk (sidxOf t blk) s).1 = .inl v) :
    tileStretches core c (some q) blk t s = (.inl [⟨0, kOf (fmtFa c.fmt), some v⟩], (readScales core c q blk (sidxOf t blk) s).2) := by
  rw [tileStretches, if_pos hn, segments_whole hk hr (by omega)]
  simp only [stretches, if_pos h0]
  generalize readScales core c q blk (sidxOf t blk) s = r at hv
  obtain ⟨r1, r2⟩ := r
  cases hv
  rfl

end

/-- The octet operation of the next octet, when it fails on no tile, is all that happens to the tiles. -/
theorem tileAt_nextOctet {core : Nat} {c : Command} {tile : Nat} {rows : Sparse Word} {octets : List Nat} {ex : DWord} {b : List Word}
    {sc : Option (List Word)} {s s1 s2 : State} {j : Nat} {w : List (Nat × List Operands × List Stretch)} (hj : octets[c.moved]? = some j)
    (hr : octetReads core c sc ((j + bRbb b) % 8)
      ((tile, octetOps c (latchTile c.serial c.fmt (tileAt s core (cmdTile s core c tile))) ((j + bRbb b) % 8) rows ex
          (c.data.take (kOf (fmtFa c.fmt))) (c.data.drop (kOf (fmtFa c.fmt))) j false) ::
        (if c.jord = 1 then [(tile + 1, octetOps c (latchTile c.serial c.fmt (tileAt s core (cmdTile s core c tile))) ((j + bRbb b) % 8) rows ex
          (c.data.take (kOf (fmtFa c.fmt))) (c.data.drop (kOf (fmtFa c.fmt))) j true)] else [])) s = (.inl w, s1))
    (ha : octetAll core c ((j + bRbb b) % 8) w (latchAll core c ((j + bRbb b) % 8) w s1) = (.done, s2)) (live : staysPlaced s2 c.team) (p : Nat) :
    tileAt (nextOctet core c tile rows octets ex b sc s) core p = tileAt s2 core p := by
  simp only [nextOctet, hj, hr, ha]
  split
  · exact tileAt_retire (c := { c with moved := c.moved + 1 }) live core p
  · exact tileAt_putCmd _ _ _ _ _

/-- An `MMA` that has begun and whose turn it is performs its next octet. -/
theorem exec_mma {s : State} {r : CmdRef} {c : Command} {tile j : Nat} {rows : Sparse Word} {octets : List Nat} {ex : DWord} {b bt : List Word}
    {sc : Option (List Word)} {latch : Option ALatch} (hr : ready s r c) (hkind : c.kind = .mma tile rows octets ex b bt sc latch)
    (ht : tileReady s r.core c = true) (hp : c.phase = .running) (hj : octets[c.moved]? = some j) :
    exec (.mmaPerformance r) s = .next (nextOctet r.core c tile rows octets ex b sc s) := by
  obtain ⟨hf, hm⟩ := hr
  have notCharon : forCharon s r = false := by simp [forCharon, hf, hp]
  have notCancelled : cancelledNow c = false := by
    simp only [mayRun, runnable, Bool.and_eq_true, Bool.not_eq_true'] at hm
    simp [cancelledNow, hm.1.2]
  have some_octet : octets ≠ [] := by
    rintro rfl
    simp at hj
  have begun : ¬ c.phase = .waiting := by simp [hp]
  simp only [exec_mmaPerformance, execMmaPerformance, notCharon, Bool.false_eq_true, if_false, mmaMove, hf, hkind, notCancelled, ht, some_octet,
    begun, Bool.not_true]

end Sys2Proof.NumberFormats

/-! ### What an octet operation does to its block (R260, R269, R279, R36) -/

namespace Sys2Proof.NumberFormats

open Sys2Proof Sys2Proof.Machine Sys2Proof.Safety Sys2Proof.Laws

/-! #### The operands of an octet operation -/

/-- The operands of one product of octet `j`: the rows of A, or of A′, from register `offA` on with the rows of B, or of B′. -/
def operandsOf (c : Command) (t : Tile) (blk : Nat) (rows : Sparse Word) (ex : DWord) (j offA offB : Nat) (b : List (List Byte)) : Operands :=
  let a := (List.range 8).map (fun m => aBytes rows ex (8 * j + m) offA)
  { narrowA := a.map (narrowElems (fmtFa c.fmt)), narrowB := b.map (narrowElems (fmtFb c.fmt))
    floatA := ((List.range a.length).zip a).map (fun e => floatElems (fmtFa c.fmt) c.fmt
      (Config.rowScale t.filled (kposOf t blk / spanOf t.lspan.toNat) (8 * blk + e.1 + 8 * offA)).toNat e.2)
    floatB := ((List.range b.length).zip b).map (fun e => floatElems (fmtFb c.fmt) c.fmt
      (Config.rowScale t.filled (kposOf t blk + e.1) (64 + offB)).toNat e.2) }

theorem octetOps_first (c : Command) (t : Tile) (blk : Nat) (rows : Sparse Word) (ex : DWord) (b bt : List (List Byte)) (j : Nat) :
    octetOps c t blk rows ex b bt j false = [operandsOf c t blk rows ex j 0 0 b] := rfl

theorem octetOps_second (c : Command) (t : Tile) (blk : Nat) (rows : Sparse Word) (ex : DWord) (b bt : List (List Byte)) (j : Nat) :
    octetOps c t blk rows ex b bt j true = [operandsOf c t blk rows ex j 16 0 b, operandsOf c t blk rows ex j 0 16 bt] := rfl

section
variable (c : Command) (t0 : Tile) (blk0 : Nat) (rows : Sparse Word) (ex : DWord) (j offA offB : Nat) (b : List (List Byte))

/-- The products of one pair of operands enter the residue words. -/
theorem operandsOf_sum (blk : Nat) {t : Tile} (hw : inHardware t) :
    NarrowSum blk (fun i l => dotInt (fmtFa c.fmt) (fmtFb c.fmt) (kOf (fmtFa c.fmt)) (aBytes rows ex (8 * j + i) offA) b l) t
      (wholeCut c.fmt blk (operandsOf c t0 blk0 rows ex j offA offB b) t) := by
  have h := accNarrow_sum blk (fun i => ((((narrowElems (fmtFa c.fmt) (aBytes rows ex (8 * j + i) offA))).drop 0).take
    (kOf (fmtFa c.fmt))).map (·.1)) ((((b.map (narrowElems (fmtFb c.fmt))).drop 0).take (kOf (fmtFa c.fmt))).map (·.map (·.1))) hw
  simp only [wholeCut, operandsOf, List.map_map]
  exact { h with sums := fun i hi l hl => (h.sums i hi l hl).trans (by rw [nth_dotRow_elems _ _ _ _ _ hl]) }

/-- A scale plays no part in a floating-point format of the hardware. -/
theorem floatElems_scale {f : Nat} (hf : f = 1 ∨ f = 2) (fmt : DWord) (n : Nat) : floatElems f fmt n = floatElems f fmt 0 := by
  rcases hf with rfl | rfl <;> rfl

theorem map_numbered {α β : Type} (f : α → β) (l : List α) : ((List.range l.length).zip l).map (fun e => f e.2) = l.map f := by
  rw [show (fun e : Nat × α => f e.2) = f ∘ Prod.snd from rfl, ← List.map_map, List.map_snd_zip (by simp)]

theorem operandsOf_floatA (hf : fmtFa c.fmt = 1 ∨ fmtFa c.fmt = 2) : (operandsOf c t0 blk0 rows ex j offA offB b).floatA =
    (List.range 8).map (fun i => floatElems (fmtFa c.fmt) c.fmt 0 (aBytes rows ex (8 * j + i) offA)) := by
  simp only [operandsOf, floatElems_scale hf, map_numbered (floatElems (fmtFa c.fmt) c.fmt 0), List.map_map]
  rfl

theorem operandsOf_floatB (hf : fmtFb c.fmt = 1 ∨ fmtFb c.fmt = 2) :
    (operandsOf c t0 blk0 rows ex j offA offB b).floatB = b.map (floatElems (fmtFb c.fmt) c.fmt 0) := by
  simp only [operandsOf, floatElems_scale hf, map_numbered (floatElems (fmtFb c.fmt) c.fmt 0)]

end

theorem length_halves (b : List Byte) : (halves b).length = b.length / 2 := by
  induction b using halves.induct with
  | case1 x y b ih => simp [halves, ih]; omega
  | case2 b h =>
    match b, h with
    | [], _ => rfl
    | [x], _ => simp [halves]
    | x :: y :: b, h => exact absurd rfl (h x y b)

theorem length_aBytes (rows : Sparse Word) (ex : DWord) (i off : Nat) : (aBytes rows ex i off).length = 64 := by
  unfold aBytes
  split
  · simp [bytesOfWords, bytesOf, List.length_flatMap, leBytes_length, Function.comp_def]
  · simp

/-- A floating-point row of the hardware has an element for every two bytes. -/
theorem length_floatElems {f : Nat} (hf : f = 1 ∨ f = 2) (fmt : DWord) (b : List Byte) : (floatElems f fmt 0 b).length = b.length / 2 := by
  rcases hf with rfl | rfl <;> simp [floatElems, length_halves]

/-! #### A command's next octet on its tiles -/

theorem takesNarrow_withScales {f : DWord} {blk : Nat} {t : Tile} (h : TakesNarrow f blk t) (v : Option (List Word)) :
    TakesNarrow f blk (withScales blk v t) := by
  cases v with
  | none => exact h
  | some v => exact ⟨h.sound, h.kind, h.latched, h.room, h.checked⟩

theorem narrowTakes_withScales {f : DWord} {blk k : Nat} {p : Nat → Nat → Int} {sa sb : Nat → Word} {t u : Tile} {v : Option (List Word)}
    (h : narrowTakes f blk k p sa sb (withScales blk v t) u) : narrowTakes f blk k p sa sb t u := by
  cases v with
  | none => exact h
  | some v => exact h

section
variable {core : Nat} {c : Command} {sc : Option (List Word)} {blk : Nat} {s : State}

/-- The scales that an octet operation latches before anything else: those of its first stretch (R279). -/
def firstScales (l : List Stretch) : Option (List Word) := l.head?.bind (·.scales)

/-- The octet operation on the one tile of a command, after the reads that it needs. -/
theorem octets_one {name : Nat} {ops : List Operands} {l : List Stretch} {s1 : State} {u : Tile}
    (hl : tileStretches core c sc blk (tileAt s core (cmdTile s core c name)) s = (.inl l, s1)) (off : OffCore s s1)
    (hop : octetOp c blk name ops l (withScales blk (firstScales l) (tileAt s core (cmdTile s core c name))) = (u, .done)) :
    ∃ w s2, octetReads core c sc blk [(name, ops)] s = (.inl w, s1) ∧ octetAll core c blk w (latchAll core c blk w s1) = (.done, s2) ∧
      s2.g = s.g ∧ s2.others = s.others ∧ tileAt s2 core (cmdTile s core c name) = u := by
  have same : ∀ n, cmdTile s1 core c n = cmdTile s core c n := cmdTile_congr off.teams core c
  refine ⟨[(name, ops, l)], ?_⟩
  rw [← tileAt_congr off.cores, ← same] at hop
  generalize hv : firstScales l = v at hop
  have hv' : l.head?.bind (·.scales) = v := hv
  cases v with
  | none =>
    refine ⟨putTile core (cmdTile s1 core c name) u s1, by simp only [octetReads, hl], ?_, off.g, off.others, ?_⟩
    · rw [withScales] at hop
      simp only [latchAll, List.foldl_cons, List.foldl_nil, hv', octetAll, hop]
    · rw [tileAt_putTile, same, if_pos rfl]
  | some v =>
    have again : ∀ t, cmdTile (putTile core (cmdTile s1 core c name) t s1) core c name = cmdTile s1 core c name := fun t => cmdTile_congr rfl core c name
    refine ⟨putTile core (cmdTile s1 core c name) u (putTile core (cmdTile s1 core c name)
      (latchScales blk v (tileAt s1 core (cmdTile s1 core c name))) s1), by simp only [octetReads, hl], ?_, off.g, off.others, ?_⟩
    · rw [withScales] at hop
      simp only [latchAll, List.foldl_cons, List.foldl_nil, hv', octetAll, again, tileAt_putTile, if_true, hop]
    · rw [tileAt_putTile, same, if_pos rfl]

/-- The octet operations on the two tiles of a command at `JORD` = 1, none of which opens a span with scales. -/
theorem octets_two {name : Nat} {ops ops' : List Operands} {u u' : Tile} {k : Nat}
    (hl : tileStretches core c sc blk (tileAt s core (cmdTile s core c name)) s = (.inl [⟨0, k, none⟩], s))
    (hl' : tileStretches core c sc blk (tileAt s core (cmdTile s core c (name + 1))) s = (.inl [⟨0, k, none⟩], s))
    (hne : cmdTile s core c name ≠ cmdTile s core c (name + 1))
    (hop : octetOp c blk name ops [⟨0, k, none⟩] (tileAt s core (cmdTile s core c name)) = (u, .done))
    (hop' : octetOp c blk (name + 1) ops' [⟨0, k, none⟩] (tileAt s core (cmdTile s core c (name + 1))) = (u', .done)) :
    ∃ w s2, octetReads core c sc blk [(name, ops), (name + 1, ops')] s = (.inl w, s) ∧
      octetAll core c blk w (latchAll core c blk w s) = (.done, s2) ∧ s2.g = s.g ∧ s2.others = s.others ∧
      tileAt s2 core (cmdTile s core c name) = u ∧ tileAt s2 core (cmdTile s core c (name + 1)) = u' := by
  have same : ∀ t, cmdTile (putTile core (cmdTile s core c name) t s) core c (name + 1) = cmdTile s core c (name + 1) :=
    fun t => cmdTile_congr rfl core c (name + 1)
  refine ⟨[(name, ops, [⟨0, k, none⟩]), (name + 1, ops', [⟨0, k, none⟩])],
    putTile core (cmdTile s core c (name + 1)) u' (putTile core (cmdTile s core c name) u s), by simp only [octetReads, hl, hl'], ?_, rfl, rfl, ?_, ?_⟩
  · simp only [latchAll, List.foldl_cons, List.foldl_nil, List.head?_cons, Option.bind_some, octetAll, hop, same, tileAt_putTile,
      if_neg (Ne.symm hne), hop']
  · rw [tileAt_putTile, if_neg hne, tileAt_putTile, if_pos rfl]
  · rw [tileAt_putTile, if_pos rfl]

end

section
variable {s s1 s2 : State} {r : CmdRef} {c : Command} {tile j : Nat} {rows : Sparse Word} {octets : List Nat} {ex : DWord} {b bt : List Word}
  {sc : Option (List Word)} {latch : Option ALatch} (hr : ready s r c) (hkind : c.kind = .mma tile rows octets ex b bt sc latch)
  (ht : tileReady s r.core c = true) (hp : c.phase = .running) (hj : octets[c.moved]? = some j) (ho : hasOwner s c)
include hr hkind ht hp hj ho

/-- A step that performs the octet operations `w` of the next octet leaves the tiles that they give. -/
theorem exec_octets {t0 : Tile} {w : List (Nat × List Operands × List Stretch)}
    (h0 : latchTile c.serial c.fmt (tileAt s r.core (cmdTile s r.core c tile)) = t0)
    (hread : octetReads r.core c sc ((j + bRbb b) % 8)
      ((tile, [operandsOf c t0 ((j + bRbb b) % 8) rows ex j 0 0 (c.data.take (kOf (fmtFa c.fmt)))]) ::
        if c.jord = 1 then [(tile + 1, [operandsOf c t0 ((j + bRbb b) % 8) rows ex j 16 0 (c.data.take (kOf (fmtFa c.fmt))),
          operandsOf c t0 ((j + bRbb b) % 8) rows ex j 0 16 (c.data.drop (kOf (fmtFa c.fmt)))])] else []) s = (.inl w, s1))
    (hall : octetAll r.core c ((j + bRbb b) % 8) w (latchAll r.core c ((j + bRbb b) % 8) w s1) = (.done, s2)) (hg : s2.g = s.g)
    (hother : s2.others = s.others) :
    ∃ u, exec (.mmaPerformance r) s = .next u ∧ ∀ p, tileAt u r.core p = tileAt s2 r.core p := by
  subst h0
  exact ⟨_, exec_mma hr hkind ht hp hj,
    tileAt_nextOctet hj (by simp only [octetOps_first, octetOps_second]; exact hread) hall (staysPlaced_congr hg hother (staysPlaced_of_owner ho))⟩

/-- A step that performs the next octet of a command with one tile. -/
theorem exec_one (hord : c.jord = 0) {l : List Stretch} {t0 u : Tile}
    (h0 : latchTile c.serial c.fmt (tileAt s r.core (cmdTile s r.core c tile)) = t0)
    (hl : tileStretches r.core c sc ((j + bRbb b) % 8) (tileAt s r.core (cmdTile s r.core c tile)) s = (.inl l, s1))
    (off : OffCore s s1)
    (hop : octetOp c ((j + bRbb b) % 8) tile [operandsOf c t0 ((j + bRbb b) % 8) rows ex j 0 0 (c.data.take (kOf (fmtFa c.fmt)))]
      l (withScales ((j + bRbb b) % 8) (firstScales l) (tileAt s r.core (cmdTile s r.core c tile))) = (u, .done)) :
    ∃ w, exec (.mmaPerformance r) s = .next w ∧ tileAt w r.core (cmdTile s r.core c tile) = u := by
  obtain ⟨w, s2, h1, h2, h3, h4, h5⟩ := octets_one hl off hop
  have single : ¬ c.jord = 1 := by rw [hord]; decide
  obtain ⟨x, hx, htile⟩ := exec_octets hr hkind ht hp hj ho h0 (by rw [if_neg single]; exact h1) h2 h3 h4
  exact ⟨x, hx, (htile _).trans h5⟩

end

/-- The octet operation of narrow formats on one tile, given the scales that its block holds from then on. -/
theorem narrow_one {c : Command} {blk tile j offA : Nat} {rows : Sparse Word} {ex : DWord} {bs : List (List Byte)} {t0 t : Tile}
    (hf : isEmulated (fmtFa c.fmt) = false ∧ isEmulated (fmtFb c.fmt) = false) (tk : TakesNarrow c.fmt blk t) (v : Option (List Word))
    {sa sb : Nat → Word} (hs : ∀ n, Scaled blk sa sb (withScales blk v t) (withScales blk v (addNulls n (withScales blk v t)))) :
    ∃ u, octetOp c blk tile [operandsOf c t0 blk rows ex j offA 0 bs] [⟨0, kOf (fmtFa c.fmt), v⟩] (withScales blk v t) = (u, .done) ∧
      narrowTakes c.fmt blk (kOf (fmtFa c.fmt)) (fun i l => dotInt (fmtFa c.fmt) (fmtFb c.fmt) (kOf (fmtFa c.fmt))
        (aBytes rows ex (8 * j + i) offA) bs l) sa sb t u := by
  obtain ⟨u, hu, h⟩ := octetOp_narrow (ops := [operandsOf c t0 blk rows ex j offA 0 bs]) hf (takesNarrow_withScales tk v) hs
    fun t hw => operandsOf_sum c t0 blk rows ex j offA 0 bs blk hw
  exact ⟨u, hu, narrowTakes_withScales h⟩

/-- Settles O36: the products enter the block through `accNarrow` and `accFloat`, and the command's end leaves the tiles as they are. -/
theorem matrixProduct : Obligations.MatrixProduct := by
  intro s r c tile j rows octets ex b bt sc latch hr hkind ht hp hj ho p q t0 fa fb k blk a sclA sclB
  refine ⟨fun hn hea heb tk hk => ⟨fun hord hsc => ?_, fun n v hord hsome h0 hv => ?_, fun hord hpq tk1 hsc => ?_⟩,
    fun hfa hfb hord hbad hk2 hl hc hlen => ?_⟩
  · -- within a span, or without scales
    have kept : latchTile c.serial c.fmt t0 = t0 := latchTile_kept (by rw [tk.kind]; decide) _ _
    obtain ⟨u, hu, h⟩ := narrow_one (offA := 0) (tile := tile) (j := j) (rows := rows) (ex := ex) (bs := c.data.take k) (t0 := t0) ⟨hea, heb⟩ tk none
      (fun n => scaled_none blk n t0)
    obtain ⟨w, hw, htile⟩ := exec_one hr hkind ht hp hj ho hord kept (tileStretches_within hn hk tk.room hsc) .rfl hu
    exact ⟨w, hw, htile ▸ h⟩
  · -- a span that opens with scales
    subst hsome
    have kept : latchTile c.serial c.fmt t0 = t0 := latchTile_kept (by rw [tk.kind]; decide) _ _
    obtain ⟨hlen, off⟩ := readScales_done hv
    obtain ⟨u, hu, h⟩ := narrow_one (offA := 0) (tile := tile) (j := j) (rows := rows) (ex := ex) (bs := c.data.take k) (t0 := t0) ⟨hea, heb⟩ tk
      (some v) (fun n => scaled_some blk n hlen _)
    obtain ⟨w, hw, htile⟩ := exec_one hr hkind ht hp hj ho hord kept (tileStretches_opening hn hk tk.room h0 hv) off hu
    exact ⟨hlen, w, hw, htile ▸ h⟩
  · -- both tiles at `JORD` = 1
    have kept : latchTile c.serial c.fmt t0 = t0 := latchTile_kept (by rw [tk.kind]; decide) _ _
    have sc0 : sc = none ∨ kposOf t0 blk ≠ 0 := hsc.imp_right And.left
    have sc1 : sc = none ∨ kposOf (tileAt s r.core q) blk ≠ 0 := hsc.imp_right And.right
    obtain ⟨u, hu, h⟩ := narrow_one (offA := 0) (tile := tile) (j := j) (rows := rows) (ex := ex) (bs := c.data.take k) (t0 := t0) ⟨hea, heb⟩ tk none
      (fun n => scaled_none blk n t0)
    obtain ⟨u', hu', h'⟩ := octetOp_narrow (name := tile + 1) (v := none)
      (ops := [operandsOf c t0 blk rows ex j 16 0 (c.data.take k), operandsOf c t0 blk rows ex j 0 16 (c.data.drop k)]) ⟨hea, heb⟩ tk1
      (fun n => scaled_none blk n _) fun t hw => by
        have first := operandsOf_sum c t0 blk rows ex j 16 0 (c.data.take k) blk hw
        have hw' : inHardware (wholeCut c.fmt blk (operandsOf c t0 blk rows ex j 16 0 (c.data.take k)) t) := by
          rw [first.rest]
          exact hw
        exact first.trans (operandsOf_sum c t0 blk rows ex j 0 16 (c.data.drop k) blk hw')
    obtain ⟨w, s2, r1, r2, hg, hother, ht0, ht1⟩ := octets_two (tileStretches_within hn hk tk.room sc0) (tileStretches_within hn hk tk1.room sc1)
      hpq hu hu'
    obtain ⟨x, hx, htile⟩ := exec_octets hr hkind ht hp hj ho kept (by rw [if_pos hord]; exact r1) r2 hg hother
    exact ⟨x, hx, ((htile _).trans ht0) ▸ h, ((htile _).trans ht1) ▸ h'⟩
  · -- floating-point formats
    have kept : latchTile c.serial c.fmt t0 = t0 := latchTile_kept (by rw [hk2]; decide) _ _
    have k32 : k = 16 * 2 := by rcases hfa with h | h <;> simp only [k, h] <;> rfl
    have wide : isNarrow (fmtFa c.fmt) = false := by rcases hfa with h | h <;> rw [show fmtFa c.fmt = _ from h] <;> rfl
    have reads : tileStretches r.core c sc blk t0 s = (.inl [], s) := by rw [tileStretches, if_neg (by simp [wide])]
    have rowsLen : (c.data.take k).length = 16 * 2 := by rw [List.length_take, Nat.min_eq_left hlen, k32]
    obtain ⟨u, hu, hcarry, hother, hresid, hkpos⟩ := octetOp_float (name := tile) (l := []) 2 (fun i => floatElems fa c.fmt 0 (a 0 i))
      (operandsOf_floatA c t0 blk rows ex j 0 0 (c.data.take k) hfa)
      (fun i _ => by rw [length_floatElems hfa, length_aBytes])
      (by rw [operandsOf_floatB c t0 blk rows ex j 0 0 _ hfb, List.length_map, rowsLen]) hbad hk2 hl hc
    obtain ⟨w, hw, htile⟩ := exec_one hr hkind ht hp hj ho hord kept reads .rfl hu
    subst htile
    refine ⟨w, hw, fun i l hi hl => ?_, hother, hresid, hkpos⟩
    rw [operandsOf_floatB c t0 blk rows ex j 0 0 _ hfb] at hcarry
    have empty : floatElems (fmtFb c.fmt) c.fmt 0 [] = [] := by rcases hfb with h | h <;> rw [show fmtFb c.fmt = _ from h] <;> rfl
    have prods : ∀ m, m < 16 * 2 → mulV (nth zeroFV (floatElems fa c.fmt 0 (a 0 i)) m) (nth zeroFV (nth [] ((c.data.take k).map
        (floatElems (fmtFb c.fmt) c.fmt 0)) m) l) =
        mulV (nth zeroFV (floatElems fa c.fmt 0 (a 0 i)) m) (nth zeroFV (floatElems fb c.fmt 0 (nth [] c.data m)) l) := fun m hm => by
      rw [nth_map [] [] (floatElems (fmtFb c.fmt) c.fmt 0) empty, nth_take [] _ (k32 ▸ hm)]
    have carry := hcarry i hi l hl
    rw [runSum_congr _ prods, show 2 = k / 16 by rw [k32]] at carry
    exact carry

end Sys2Proof.NumberFormats

/-! ### Exact values and their rounding (R14, R26, R27) -/

namespace Sys2Proof.NumberFormats

open Sys2Proof Sys2Proof.Machine Sys2Proof.Safety Sys2Proof.Laws

/-! #### Exact arithmetic -/

/-- The factor of a sign. -/
def signRat (s : Bool) : Rat := if s then -1 else 1

theorem signRat_xor (s t : Bool) : signRat (s != t) = signRat s * signRat t := by cases s <;> cases t <;> simp [signRat]

theorem signRat_not (s : Bool) : signRat (!s) = -signRat s := by cases s <;> simp [signRat]

/-- The magnitude of an exact value. -/
def mag (n d : Nat) (e : Int) : Rat := (n : Rat) / d * (2 : Rat) ^ e

theorem exVal_num (s : Bool) (n d : Nat) (e : Int) : exVal (.num s n d e) = some (signRat s * mag n d e) := by
  rw [exVal, mag, signRat, mul_assoc]

theorem exVal_eq {s : Bool} {n d : Nat} {e : Int} {v : Rat} (h : signRat s * mag n d e = v) : exVal (.num s n d e) = some v := by
  rw [exVal_num, h]

theorem two_zpow_toNat {e l : Int} (h : l ≤ e) : ((2 ^ (e - l).toNat : Nat) : Rat) * (2 : Rat) ^ l = (2 : Rat) ^ e := by
  rw [Nat.cast_pow, Nat.cast_ofNat, ← zpow_natCast, ← zpow_add₀ two_ne_zero, Int.toNat_of_nonneg (by omega)]
  congr 1
  omega

/-- Two magnitudes over one denominator and one power of two. -/
theorem mag_aligned {n d d' : Nat} {e l : Int} (hd : d ≠ 0) (hd' : d' ≠ 0) (h : l ≤ e) : mag (n * d' * 2 ^ (e - l).toNat) (d * d') l = mag n d e := by
  have h1 : (d : Rat) ≠ 0 := Nat.cast_ne_zero.mpr hd
  have h2 : (d' : Rat) ≠ 0 := Nat.cast_ne_zero.mpr hd'
  rw [mag, mag, ← two_zpow_toNat h]
  push_cast
  field_simp

theorem mag_sub {m n d : Nat} {l : Int} (h : n ≤ m) : mag (m - n) d l = mag m d l - mag n d l := by
  rw [mag, mag, mag, Nat.cast_sub h]
  ring

theorem mag_add (m n d : Nat) (l : Int) : mag (m + n) d l = mag m d l + mag n d l := by
  rw [mag, mag, mag, Nat.cast_add]
  ring

theorem mag_pos {n d : Nat} (hn : n ≠ 0) (hd : d ≠ 0) (e : Int) : 0 < mag n d e := by
  have h1 : (0 : Rat) < n := Nat.cast_pos.mpr (Nat.pos_of_ne_zero hn)
  have h2 : (0 : Rat) < d := Nat.cast_pos.mpr (Nat.pos_of_ne_zero hd)
  rw [mag]
  positivity

/-- Magnitudes over one denominator compare as their numerators. -/
theorem mag_eq_scale (n d : Nat) (l : Int) : mag n d l = (n : Rat) * mag 1 d l := by
  rw [mag, mag, Nat.cast_one]
  ring

theorem sign_of_difference (a b : Int) : ((if a - b < 0 then (-1 : Int) else if 0 < a - b then 1 else 0) < 0 ↔ a < b) ∧
    ((if a - b < 0 then (-1 : Int) else if 0 < a - b then 1 else 0) = 0 ↔ a = b) := by
  rcases lt_trichotomy (a - b) 0 with h | h | h
  · rw [if_pos h]
    omega
  · rw [if_neg (by omega), if_neg (by omega)]
    omega
  · rw [if_neg (by omega), if_pos h]
    omega

section
variable {s t : Bool} {n d n' d' : Nat} {e e' : Int} {fl fl' : Flags} (hd : d ≠ 0) (hd' : d' ≠ 0)

theorem exVal_negV (s : Bool) (n d : Nat) (e : Int) (fl : Flags) : exVal (negV (.num s n d e, fl)).1 = some (-(signRat s * mag n d e)) :=
  exVal_eq (by rw [signRat_not, neg_mul])

theorem exVal_mulV (s t : Bool) (n d n' d' : Nat) (e e' : Int) (fl fl' : Flags) :
    exVal (mulV (.num s n d e, fl) (.num t n' d' e', fl')).1 = some (signRat s * mag n d e * (signRat t * mag n' d' e')) := by
  refine exVal_eq ?_
  rw [signRat_xor, mag, mag, mag, zpow_add₀ two_ne_zero]
  push_cast
  ring

theorem exVal_divV (s t : Bool) (n d d' : Nat) (e e' : Int) (fl fl' : Flags) (hn : n' ≠ 0) :
    exVal (divV (.num s n d e, fl) (.num t n' d' e', fl')).1 = some (signRat s * mag n d e / (signRat t * mag n' d' e')) := by
  have ht : (signRat t)⁻¹ = signRat t := by cases t <;> simp [signRat]
  rw [divV]
  simp only [if_neg hn]
  refine exVal_eq ?_
  rw [signRat_xor, mag, mag, mag, zpow_sub₀ two_ne_zero, div_eq_mul_inv (signRat s * _), mul_inv, ht]
  push_cast
  field_simp

include hd hd'

theorem exVal_addV (m : Nat) :
    exVal (addV m (.num s n d e, fl) (.num t n' d' e', fl')).1 = some (signRat s * mag n d e + signRat t * mag n' d' e') ∧
    (addV m (.num s n d e, fl) (.num t n' d' e', fl')).2 = fl ||| fl' := by
  have hx : mag (n * d' * 2 ^ (e - min e e').toNat) (d * d') (min e e') = mag n d e := mag_aligned hd hd' (min_le_left e e')
  have hy : mag (n' * d * 2 ^ (e' - min e e').toNat) (d * d') (min e e') = mag n' d' e' := by
    rw [Nat.mul_comm d]
    exact mag_aligned hd' hd (min_le_right e e')
  rw [← hx, ← hy]
  simp only [addV]
  generalize n * d' * 2 ^ (e - min e e').toNat = x
  generalize n' * d * 2 ^ (e' - min e e').toNat = y
  generalize min e e' = l
  by_cases hs : s = t
  · subst hs
    rw [if_pos rfl]
    exact ⟨exVal_eq (by rw [mag_add]; ring), rfl⟩
  · have opp : signRat t = -signRat s := by rw [← signRat_not]; congr 1; cases s <;> cases t <;> simp_all
    rw [if_neg hs]
    split
    · exact ⟨exVal_eq (by rw [mag_sub (by omega), opp]; ring), rfl⟩
    · split
      · exact ⟨exVal_eq (by rw [mag_sub (by omega), opp]; ring), rfl⟩
      · have : x = y := by omega
        exact ⟨exVal_eq (by rw [this, opp, mag]; simp), rfl⟩

/-- The sign of a difference of exact values. -/
theorem cmpEx_iff : (cmpEx (.num s n d e) (.num t n' d' e') < 0 ↔ signRat s * mag n d e < signRat t * mag n' d' e') ∧
    (cmpEx (.num s n d e) (.num t n' d' e') = 0 ↔ signRat s * mag n d e = signRat t * mag n' d' e') := by
  have hx : mag (n * d' * 2 ^ (e - min e e').toNat) (d * d') (min e e') = mag n d e := mag_aligned hd hd' (min_le_left e e')
  have hy : mag (n' * d * 2 ^ (e' - min e e').toNat) (d * d') (min e e') = mag n' d' e' := by
    rw [Nat.mul_comm d]
    exact mag_aligned hd' hd (min_le_right e e')
  have unit : 0 < mag 1 (d * d') (min e e') := mag_pos one_ne_zero (Nat.mul_ne_zero hd hd') _
  rw [← hx, ← hy, mag_eq_scale (n * _ * _), mag_eq_scale (n' * _ * _)]
  simp only [cmpEx]
  generalize n * d' * 2 ^ (e - min e e').toNat = x
  generalize n' * d * 2 ^ (e' - min e e').toNat = y
  generalize mag 1 (d * d') (min e e') = u at unit
  have term : ∀ (s : Bool) (x : Nat), signRat s * ((x : Rat) * u) = (((if s then -(x : Int) else x) : Int) : Rat) * u := by
    intro s x
    cases s <;> simp [signRat]
  rw [term, term]
  generalize (if s then -(x : Int) else x) = a
  generalize (if t then -(y : Int) else y) = b
  rw [mul_lt_mul_iff_left₀ unit, mul_left_inj' unit.ne', Int.cast_lt, Int.cast_inj]
  exact sign_of_difference a b

end

/-! #### Rounding to a multiple of a power of two (R26) -/

theorem scaled_ratio {d : Nat} (hd : d ≠ 0) (n : Nat) (e l : Int) :
    (scaled n d e l).2 ≠ 0 ∧ ((scaled n d e l).1 : Rat) / (scaled n d e l).2 = mag n d (e - l) := by
  have hp : (2 : Rat) ^ (e - l) = (2 : Rat) ^ (e - l).toNat / (2 : Rat) ^ (l - e).toNat := by
    rw [← zpow_natCast, ← zpow_natCast, ← zpow_sub₀ two_ne_zero]
    congr 1
    omega
  refine ⟨Nat.mul_ne_zero hd (by positivity), ?_⟩
  rw [mag, hp, scaled]
  push_cast
  ring

/-- Whether a mode rounds the magnitude t + ρ up (R26). -/
def upAt (m : Nat) (neg : Bool) (t : Nat) (ρ : Rat) : Prop :=
  match m with
  | 0 => 1 < 2 * ρ ∨ (2 * ρ = 1 ∧ t % 2 = 1)
  | 2 => neg = true ∧ ρ ≠ 0
  | 3 => neg = false ∧ ρ ≠ 0
  | 4 => 1 ≤ 2 * ρ
  | _ => False

theorem roundsUp_iff {r b : Nat} (hb : b ≠ 0) (m : Nat) (neg : Bool) (t : Nat) : roundsUp m neg t r b = true ↔ upAt m neg t ((r : Rat) / b) := by
  have pos : (0 : Rat) < b := Nat.cast_pos.mpr (Nat.pos_of_ne_zero hb)
  have lt : 1 < 2 * ((r : Rat) / b) ↔ b < 2 * r := by rw [← mul_div_assoc, one_lt_div pos]; exact_mod_cast Iff.rfl
  have le : 1 ≤ 2 * ((r : Rat) / b) ↔ b ≤ 2 * r := by rw [← mul_div_assoc, one_le_div pos]; exact_mod_cast Iff.rfl
  have eq : 2 * ((r : Rat) / b) = 1 ↔ 2 * r = b := by rw [← mul_div_assoc, div_eq_one_iff_eq pos.ne']; exact_mod_cast Iff.rfl
  have ne : (r : Rat) / b ≠ 0 ↔ r ≠ 0 := by simp [hb]
  unfold roundsUp upAt
  split <;> simp [lt, le, eq, ne]

/-- A magnitude cut into its multiple of 2^l and what is left, and the multiple that each mode makes of it. -/
structure Cut (neg : Bool) (n d : Nat) (e l : Int) (t : Nat) (ρ : Rat) : Prop where
  value : mag n d (e - l) = t + ρ
  low : 0 ≤ ρ
  high : ρ < 1
  up : ∀ m, upAt m neg t ρ → (roundAt m neg n d e l).1 = t + 1
  down : ∀ m, ¬ upAt m neg t ρ → (roundAt m neg n d e l).1 = t
  inexact : ∀ m, (roundAt m neg n d e l).2 = true ↔ ρ ≠ 0

theorem exists_cut {d : Nat} (hd : d ≠ 0) (neg : Bool) (n : Nat) (e l : Int) : ∃ t ρ, Cut neg n d e l t ρ := by
  obtain ⟨hb, hq⟩ := scaled_ratio hd n e l
  generalize hs : scaled n d e l = s at hb hq
  obtain ⟨a, b⟩ := s
  have pos : (0 : Rat) < b := Nat.cast_pos.mpr (Nat.pos_of_ne_zero hb)
  have h : ∀ m, roundAt m neg n d e l = (if roundsUp m neg (a / b) (a % b) b then a / b + 1 else a / b, decide (a % b ≠ 0)) := fun m => by
    rw [roundAt, hs]
  refine ⟨a / b, ((a % b : Nat) : Rat) / b, ?_, by positivity, ?_, fun m hm => ?_, fun m hm => ?_, fun m => ?_⟩
  · rw [← hq]
    have : (a : Rat) = b * (a / b : Nat) + (a % b : Nat) := by exact_mod_cast (Nat.div_add_mod a b).symm
    rw [div_eq_iff pos.ne', add_mul, div_mul_cancel₀ _ pos.ne', mul_comm, ← this]
  · rw [div_lt_one pos]
    exact_mod_cast Nat.mod_lt a (Nat.pos_of_ne_zero hb)
  · rw [h, if_pos ((roundsUp_iff hb m neg _).mpr hm)]
  · rw [h, if_neg fun hu => hm ((roundsUp_iff hb m neg _).mp hu)]
  · have ne : ((a % b : Nat) : Rat) / b ≠ 0 ↔ a % b ≠ 0 := by simp only [ne_eq, div_eq_zero_iff, Nat.cast_eq_zero, hb, or_false]
    rw [h, ne, decide_eq_true_eq]

/-- A cut is the only one. -/
theorem Cut.unique {neg : Bool} {n d : Nat} {e l : Int} {t u : Nat} {ρ σ : Rat} (h : Cut neg n d e l t ρ) (hv : mag n d (e - l) = u + σ) (h0 : 0 ≤ σ)
    (h1 : σ < 1) : t = u ∧ ρ = σ := by
  have sum := h.value.symm.trans hv
  have low := h.low
  have high := h.high
  have a : (t : Rat) < u + 1 := by linarith
  have b : (u : Rat) < t + 1 := by linarith
  have e : t = u := by
    have a' : t < u + 1 := by exact_mod_cast a
    have b' : u < t + 1 := by exact_mod_cast b
    omega
  subst e
  exact ⟨rfl, by linarith⟩

/-- The five modes (R26). -/
theorem Cut.modes {neg : Bool} {n d : Nat} {e l : Int} {t : Nat} {ρ : Rat} (h : Cut neg n d e l t ρ) :
    let q := mag n d (e - l)
    let r := fun m => ((roundAt m neg n d e l).1 : Rat)
    (2 * (r 0 - q) ≤ 1 ∧ -1 ≤ 2 * (r 0 - q) ∧ (2 * (r 0 - q) = 1 ∨ 2 * (r 0 - q) = -1 → (roundAt 0 neg n d e l).1 % 2 = 0)) ∧
    (r 1 ≤ q ∧ q < r 1 + 1) ∧
    (if neg then q ≤ r 2 ∧ r 2 < q + 1 else r 2 ≤ q ∧ q < r 2 + 1) ∧
    (if neg then r 3 ≤ q ∧ q < r 3 + 1 else q ≤ r 3 ∧ r 3 < q + 1) ∧
    (2 * (r 4 - q) ≤ 1 ∧ -1 < 2 * (r 4 - q)) ∧
    ∀ m, (roundAt m neg n d e l).2 = true ↔ (roundAt 1 neg n d e l).1 ≠ q := by
  have low := h.low
  have high := h.high
  have value := h.value
  have at_down : ∀ m, ¬ upAt m neg t ρ → ((roundAt m neg n d e l).1 : Rat) = t := fun m hm => by rw [h.down m hm]
  have at_up : ∀ m, upAt m neg t ρ → ((roundAt m neg n d e l).1 : Rat) = t + 1 := fun m hm => by rw [h.up m hm, Nat.cast_add, Nat.cast_one]
  have one : ((roundAt 1 neg n d e l).1 : Rat) = t := at_down 1 id
  have away : ∀ m, (upAt m neg t ρ ↔ ρ ≠ 0) → mag n d (e - l) ≤ (roundAt m neg n d e l).1 ∧ ((roundAt m neg n d e l).1 : Rat) < mag n d (e - l) + 1 := by
    intro m hm
    by_cases h0 : ρ = 0
    · rw [at_down m (by rw [hm]; exact not_not.mpr h0), value]
      constructor <;> linarith
    · have pos : 0 < ρ := lt_of_le_of_ne low (Ne.symm h0)
      rw [at_up m (hm.mpr h0), value]
      constructor <;> linarith
  have toward : ∀ m, ¬ upAt m neg t ρ → ((roundAt m neg n d e l).1 : Rat) ≤ mag n d (e - l) ∧ mag n d (e - l) < (roundAt m neg n d e l).1 + 1 := by
    intro m hm
    rw [at_down m hm, value]
    constructor <;> linarith
  refine ⟨?_, toward 1 id, ?_, ?_, ?_, fun m => ?_⟩
  · dsimp only
    by_cases hu : upAt 0 neg t ρ
    · have half : 1 ≤ 2 * ρ := hu.elim le_of_lt fun k => le_of_eq k.1.symm
      rw [at_up 0 hu, value]
      refine ⟨by linarith, by linarith, fun tie => ?_⟩
      have tie : 2 * ρ = 1 := by rcases tie with k | k <;> linarith
      have odd : t % 2 = 1 := hu.elim (fun k => absurd tie k.ne') And.right
      rw [h.up 0 hu]
      omega
    · have half : 2 * ρ ≤ 1 := not_lt.mp fun k => hu (.inl k)
      rw [at_down 0 hu, value]
      refine ⟨by linarith, by linarith, fun tie => ?_⟩
      have tie : 2 * ρ = 1 := by rcases tie with k | k <;> linarith
      have even : ¬ t % 2 = 1 := fun k => hu (.inr ⟨tie, k⟩)
      rw [h.down 0 hu]
      omega
  · cases neg with
    | false => exact toward 2 fun k => Bool.false_ne_true k.1
    | true => exact away 2 ⟨And.right, fun k => ⟨rfl, k⟩⟩
  · cases neg with
    | false => exact away 3 ⟨And.right, fun k => ⟨rfl, k⟩⟩
    | true => exact toward 3 fun k => Bool.false_ne_true k.1.symm
  · dsimp only
    by_cases hu : upAt 4 neg t ρ
    · have half : 1 ≤ 2 * ρ := hu
      rw [at_up 4 hu, value]
      constructor <;> linarith
    · have half : 2 * ρ < 1 := not_le.mp hu
      rw [at_down 4 hu, value]
      constructor <;> linarith
  · rw [h.inexact, one, value]
    constructor
    · exact fun k q => k (by linarith)
    · exact fun k q => k (by linarith)

end Sys2Proof.NumberFormats

/-! ### The rounded result by range (R27) -/

namespace Sys2Proof.NumberFormats

open Sys2Proof Sys2Proof.Machine Sys2Proof.Safety Sys2Proof.Laws

theorem mag_shift (n d : Nat) (e l : Int) : mag n d (e - l) = mag n d e / (2 : Rat) ^ l := by
  rw [mag, mag, zpow_sub₀ two_ne_zero, mul_div_assoc]

theorem two_zpow_lt {a b : Int} : (2 : Rat) ^ a < (2 : Rat) ^ b ↔ a < b := zpow_lt_zpow_iff_right₀ one_lt_two

theorem le_log2 {n : Nat} (hn : n ≠ 0) : (2 : Rat) ^ (n.log2 : Int) ≤ n := by
  rw [zpow_natCast]
  exact_mod_cast Nat.log2_self_le hn

theorem lt_log2 (n : Nat) : (n : Rat) < (2 : Rat) ^ ((n.log2 : Int) + 1) := by
  have h : n < 2 ^ (n.log2 + 1) := Nat.lt_log2_self
  rw [← Nat.cast_one, ← Nat.cast_add, zpow_natCast]
  exact_mod_cast h

/-- The estimate of the binary logarithm is at most one too large. -/
theorem log2_estimate {n d : Nat} (hn : n ≠ 0) (hd : d ≠ 0) (e : Int) :
    (2 : Rat) ^ ((n.log2 : Int) - d.log2 + e - 1) < mag n d e ∧ mag n d e < (2 : Rat) ^ ((n.log2 : Int) - d.log2 + e + 1) := by
  have pos : (0 : Rat) < d := Nat.cast_pos.mpr (Nat.pos_of_ne_zero hd)
  have two : (0 : Rat) < (2 : Rat) ^ e := zpow_pos two_pos e
  constructor
  · calc (2 : Rat) ^ ((n.log2 : Int) - d.log2 + e - 1) = (2 : Rat) ^ (n.log2 : Int) / (2 : Rat) ^ ((d.log2 : Int) + 1) * (2 : Rat) ^ e := by
          rw [← zpow_sub₀ two_ne_zero, ← zpow_add₀ two_ne_zero]; congr 1; ring
      _ < (2 : Rat) ^ (n.log2 : Int) / d * (2 : Rat) ^ e := by gcongr; exact lt_log2 d
      _ ≤ mag n d e := by rw [mag]; gcongr; exact le_log2 hn
  · calc mag n d e ≤ (n : Rat) / (2 : Rat) ^ (d.log2 : Int) * (2 : Rat) ^ e := by rw [mag]; gcongr; exact le_log2 hd
      _ < (2 : Rat) ^ ((n.log2 : Int) + 1) / (2 : Rat) ^ (d.log2 : Int) * (2 : Rat) ^ e := by gcongr; exact lt_log2 n
      _ = (2 : Rat) ^ ((n.log2 : Int) - d.log2 + e + 1) := by
          rw [← zpow_sub₀ two_ne_zero, ← zpow_add₀ two_ne_zero]; congr 1; ring

theorem scaled_lt {d : Nat} (hd : d ≠ 0) (n : Nat) (e l : Int) : (scaled n d e l).1 < (scaled n d e l).2 ↔ mag n d e < (2 : Rat) ^ l := by
  obtain ⟨hb, hq⟩ := scaled_ratio hd n e l
  have pos : (0 : Rat) < (scaled n d e l).2 := Nat.cast_pos.mpr (Nat.pos_of_ne_zero hb)
  have unit : (0 : Rat) < (2 : Rat) ^ l := zpow_pos two_pos l
  rw [← div_lt_one unit, ← mag_shift, ← hq, div_lt_one pos, Nat.cast_lt]

/-- The exponent of a magnitude in [2^E, 2^(E+1)). -/
theorem floorLog_eq {n d : Nat} {e E : Int} (hn : n ≠ 0) (hd : d ≠ 0) (lo : (2 : Rat) ^ E ≤ mag n d e) (hi : mag n d e < (2 : Rat) ^ (E + 1)) :
    floorLog n d e = E := by
  obtain ⟨low, high⟩ := log2_estimate hn hd e
  have below := two_zpow_lt.mp (low.trans hi)
  have above := two_zpow_lt.mp (lo.trans_lt high)
  have cut := scaled_lt hd n e ((n.log2 : Int) - d.log2 + e)
  change (if (scaled n d e ((n.log2 : Int) - d.log2 + e)).1 < (scaled n d e ((n.log2 : Int) - d.log2 + e)).2 then (n.log2 : Int) - d.log2 + e - 1
    else (n.log2 : Int) - d.log2 + e) = E
  split
  · have := two_zpow_lt.mp (lo.trans_lt (cut.mp ‹_›))
    omega
  · have := two_zpow_lt.mp ((not_lt.mp (mt cut.mpr ‹_›)).trans_lt hi)
    omega

/-- The formats that arithmetic rounds to. -/
def Wide (f : Fmt) : Prop := f = fp32 ∨ f = fp16 ∨ f = bf16

theorem Wide.range {f : Fmt} (h : Wide f) : f.emin ≤ f.emax := by
  rcases h with rfl | rfl | rfl <;> decide

theorem Wide.unit {f : Fmt} (h : Wide f) : 2 ^ f.p = 2 * 2 ^ (f.p - 1) := by
  rcases h with rfl | rfl | rfl <;> rfl

/-- The exponent after the rounded significand y carries out. -/
def topExp (f : Fmt) (y : Nat) (E : Int) : Int := if y = 2 ^ f.p then E + 1 else E

section
variable {f : Fmt} {n d : Nat} {e E : Int}

theorem Cut.result {neg : Bool} {l : Int} {t : Nat} {ρ : Rat} (h : Cut neg n d e l t ρ) (m : Nat) :
    (roundAt m neg n d e l).1 = t ∨ ((roundAt m neg n d e l).1 = t + 1 ∧ upAt m neg t ρ) := by
  by_cases hu : upAt m neg t ρ
  · exact .inr ⟨h.up m hu, hu⟩
  · exact .inl (h.down m hu)

theorem upAt_ne_zero {m : Nat} {neg : Bool} {t : Nat} {ρ : Rat} (h : upAt m neg t ρ) : ρ ≠ 0 := by
  rintro rfl
  unfold upAt at h
  split at h <;> norm_num at h

theorem Cut.lt {neg : Bool} {l : Int} {t N : Nat} {ρ : Rat} (h : Cut neg n d e l t ρ) (hN : mag n d (e - l) < N) : t < N := by
  have : (t : Rat) < N := by linarith [h.value, h.low]
  exact_mod_cast this

theorem Cut.le {neg : Bool} {l : Int} {t N : Nat} {ρ : Rat} (h : Cut neg n d e l t ρ) (hN : (N : Rat) ≤ mag n d (e - l)) : N ≤ t := by
  have : (N : Rat) < t + 1 := by linarith [h.value, h.high]
  have : N < t + 1 := by exact_mod_cast this
  omega

/-- `Round` once the exponent is known (R27). -/
theorem roundNum_eq (m : Nat) (sat fzo neg : Bool) (hE : floorLog n d e = E) :
    roundNum f m sat fzo neg n d e =
      let y := roundAt m neg n d e (E - (f.p - 1 : Nat))
      let z := roundAt m neg n d e (f.emin - (f.p - 1 : Nat))
      if f.emax < topExp f y.1 E then (overflowBits f m sat neg, flagOverflow ||| flagInexact)
      else if f.emin ≤ topExp f y.1 E then
        (packBits f neg (if y.1 = 2 ^ f.p then 2 ^ (f.p - 1) else y.1) (topExp f y.1 E - f.emin).toNat, if y.2 then flagInexact else 0)
      else if z.1 = 0 then (zeroBits f neg, (if z.2 then flagInexact else 0) ||| flagUnderflow)
      else if z.1 < 2 ^ (f.p - 1) then
        if fzo then (zeroBits f neg, flagUnderflow ||| flagInexact)
        else (packBits f neg z.1 0, if z.2 then (if z.2 then flagInexact else 0) ||| flagUnderflow else if z.2 then flagInexact else 0)
      else (packBits f neg z.1 0, if z.2 then flagInexact else 0) := by
  have top : ∀ y : Nat, (if y = 2 ^ f.p then E - (f.p - 1 : Nat) + 1 else E - (f.p - 1 : Nat)) + (f.p - 1 : Nat) = topExp f y E := by
    intro y
    rw [topExp]
    split <;> ring
  simp only [← top]
  subst hE
  rfl

end

/-- What `Round` gives beyond the largest finite value (R27). -/
theorem overflowBits_modes (f : Fmt) (m : Nat) (neg : Bool) :
    (m = 0 ∨ m = 4 → overflowBits f m false neg = infBits f neg) ∧ (m = 1 → overflowBits f m false neg = maxBits f neg) ∧
      (m = 2 → overflowBits f m false neg = if neg then infBits f true else maxBits f false) ∧
      (m = 3 → overflowBits f m false neg = if neg then maxBits f true else infBits f false) := by
  refine ⟨?_, ?_, ?_, ?_⟩
  · rintro (rfl | rfl) <;> rfl
  all_goals rintro rfl; rfl

/-- A power of two as a number of units. -/
theorem units_eq (f : Fmt) (l : Int) : (2 : Rat) ^ l / (2 : Rat) ^ (l - ((f.p - 1 : Nat) : Int)) = ((2 ^ (f.p - 1) : Nat) : Rat) := by
  rw [← zpow_sub₀ two_ne_zero, sub_sub_cancel, zpow_natCast, Nat.cast_pow, Nat.cast_ofNat]

/-- A finite value that is not zero, its exponent, and what rounding it to the significand of its exponent and of the smallest one gives. -/
structure InRange (f : Fmt) (n d : Nat) (e E : Int) : Prop where
  wide : Wide f
  num : n ≠ 0
  den : d ≠ 0
  low : (2 : Rat) ^ E ≤ mag n d e
  high : mag n d e < (2 : Rat) ^ (E + 1)

section
variable {f : Fmt} {n d : Nat} {e E : Int} (h : InRange f n d e E)
include h

theorem InRange.floorLog : floorLog n d e = E := floorLog_eq h.num h.den h.low h.high

/-- The significand lies in [1, 2). -/
theorem InRange.significand : ((2 ^ (f.p - 1) : Nat) : Rat) ≤ mag n d (e - (E - (f.p - 1 : Nat))) ∧
    mag n d (e - (E - (f.p - 1 : Nat))) < ((2 * 2 ^ (f.p - 1) : Nat) : Rat) := by
  have pos : (0 : Rat) < (2 : Rat) ^ (E - ((f.p - 1 : Nat) : Int)) := zpow_pos two_pos _
  have high : mag n d e < 2 * (2 : Rat) ^ E := by rw [mul_comm, ← zpow_add_one₀ two_ne_zero]; exact h.high
  rw [mag_shift, Nat.cast_mul, ← units_eq f E, Nat.cast_ofNat, ← mul_div_assoc]
  exact ⟨(div_le_div_iff_of_pos_right pos).mpr h.low, (div_lt_div_iff_of_pos_right pos).mpr high⟩

/-- Below the normal range, less than a unit's worth of the smallest significands. -/
theorem InRange.small (hE : E < f.emin) : mag n d (e - (f.emin - (f.p - 1 : Nat))) < ((2 ^ (f.p - 1) : Nat) : Rat) := by
  have pos : (0 : Rat) < (2 : Rat) ^ (f.emin - ((f.p - 1 : Nat) : Int)) := zpow_pos two_pos _
  rw [mag_shift, ← units_eq f f.emin]
  refine (div_lt_div_iff_of_pos_right pos).mpr (h.high.trans_le ?_)
  exact zpow_le_zpow_right₀ one_le_two (by omega)

/-- Beyond the largest finite value (R27). -/
theorem InRange.roundNum_overflow (m : Nat) (sat fzo neg : Bool)
    (big : f.emax < E ∨ (E = f.emax ∧ (roundAt m neg n d e (E - (f.p - 1 : Nat))).1 = 2 * 2 ^ (f.p - 1))) :
    roundNum f m sat fzo neg n d e = (overflowBits f m sat neg, flagOverflow ||| flagInexact) := by
  have top : f.emax < topExp f (roundAt m neg n d e (E - (f.p - 1 : Nat))).1 E := by
    rw [topExp, h.wide.unit]
    split <;> omega
  rw [roundNum_eq m sat fzo neg h.floorLog]
  exact if_pos top

/-- The normal range (R27). -/
theorem InRange.roundNum_normal (m : Nat) (sat fzo neg : Bool)
    (big : ¬ (f.emax < E ∨ (E = f.emax ∧ (roundAt m neg n d e (E - (f.p - 1 : Nat))).1 = 2 * 2 ^ (f.p - 1)))) (normal : f.emin ≤ E) :
    roundNum f m sat fzo neg n d e =
      (signBit f neg + (roundAt m neg n d e (E - (f.p - 1 : Nat))).1 + (E - f.emin).toNat * 2 ^ (f.p - 1),
        if (roundAt m neg n d e (E - (f.p - 1 : Nat))).2 then flagInexact else 0) := by
  rw [roundNum_eq m sat fzo neg h.floorLog]
  dsimp only
  revert big
  generalize roundAt m neg n d e (E - (f.p - 1 : Nat)) = y
  intro big
  rw [topExp, h.wide.unit]
  by_cases carry : y.1 = 2 * 2 ^ (f.p - 1)
  · have shift : (E + 1 - f.emin).toNat = (E - f.emin).toNat + 1 := by omega
    rw [if_pos carry, if_neg (by omega), if_pos (by omega), if_pos carry, packBits, shift, carry]
    congr 1
    ring
  · rw [if_neg carry, if_neg (by omega), if_pos (by omega), if_neg carry, packBits]

/-- What is left of a value below the normal range, and its rounding to the smallest significands (R27). -/
theorem InRange.small_cut (hE : E < f.emin) (m : Nat) (neg : Bool) :
    ((roundAt m neg n d e (f.emin - (f.p - 1 : Nat))).1 = 0 → (roundAt m neg n d e (f.emin - (f.p - 1 : Nat))).2 = true) ∧
    (roundAt m neg n d e (f.emin - (f.p - 1 : Nat))).1 ≤ 2 ^ (f.p - 1) ∧
    ((roundAt m neg n d e (f.emin - (f.p - 1 : Nat))).1 = 2 ^ (f.p - 1) → (roundAt m neg n d e (f.emin - (f.p - 1 : Nat))).2 = true) := by
  obtain ⟨t, ρ, cut⟩ := exists_cut h.den neg n e (f.emin - (f.p - 1 : Nat))
  have small : t < 2 ^ (f.p - 1) := cut.lt (h.small hE)
  rw [cut.inexact]
  refine ⟨fun zero => ?_, ?_, fun full => ?_⟩
  · rintro rfl
    have t0 : t = 0 := by rcases cut.result m with k | ⟨k, -⟩ <;> omega
    have pos := mag_pos h.num h.den (e - (f.emin - (f.p - 1 : Nat)))
    rw [cut.value, t0] at pos
    norm_num at pos
  · rcases cut.result m with k | ⟨k, -⟩ <;> omega
  · rcases cut.result m with k | ⟨-, up⟩
    · omega
    · exact upAt_ne_zero up

/-- A value below the normal range that rounds up to it is inexact, and rounds up to a full significand of the smallest exponent too. -/
theorem InRange.carry_cut {m : Nat} {neg : Bool} (hE : E + 1 = f.emin) (carry : (roundAt m neg n d e (E - (f.p - 1 : Nat))).1 = 2 * 2 ^ (f.p - 1)) :
    (roundAt m neg n d e (E - (f.p - 1 : Nat))).2 = true ∧ (roundAt m neg n d e (f.emin - (f.p - 1 : Nat))).1 = 2 ^ (f.p - 1) := by
  obtain ⟨t, ρ, cut⟩ := exists_cut h.den neg n e (E - (f.p - 1 : Nat))
  obtain ⟨u, σ, half⟩ := exists_cut h.den neg n e (f.emin - (f.p - 1 : Nat))
  have tlt : t < 2 * 2 ^ (f.p - 1) := cut.lt h.significand.2
  have unit : 0 < 2 ^ (f.p - 1) := by positivity
  obtain ⟨ht, up⟩ : t + 1 = 2 * 2 ^ (f.p - 1) ∧ upAt m neg t ρ := by
    rcases cut.result m with k | ⟨k, up⟩
    · omega
    · exact ⟨by omega, up⟩
  have halves : mag n d (e - (f.emin - (f.p - 1 : Nat))) = ((2 ^ (f.p - 1) - 1 : Nat) : Rat) + (1 + ρ) / 2 := by
    have two : e - (f.emin - (f.p - 1 : Nat)) = e - (E - (f.p - 1 : Nat)) - 1 := by omega
    have tq : (t : Rat) + 1 = 2 * (2 ^ (f.p - 1) : Nat) := by exact_mod_cast ht
    rw [two, mag_shift, zpow_one, cut.value, Nat.cast_sub unit, Nat.cast_one]
    linarith
  have low := cut.low
  have high := cut.high
  obtain ⟨rfl, rfl⟩ := half.unique halves (by linarith) (by linarith)
  have up' : upAt m neg (2 ^ (f.p - 1) - 1) ((1 + ρ) / 2) := by
    have pos : 0 < ρ := lt_of_le_of_ne low (upAt_ne_zero up).symm
    unfold upAt at up ⊢
    split at up
    · exact .inl (by linarith)
    · exact ⟨up.1, by positivity⟩
    · exact ⟨up.1, by positivity⟩
    · exact (by linarith : 1 ≤ 2 * ((1 + ρ) / 2))
    · exact up.elim
  refine ⟨(cut.inexact m).mpr (upAt_ne_zero up), ?_⟩
  rw [half.up m up']
  omega

/-- Below the normal range (R27). -/
theorem InRange.roundNum_small (m : Nat) (sat fzo neg : Bool) (hE : E < f.emin) :
    let z := roundAt m neg n d e (f.emin - (f.p - 1 : Nat))
    let r := roundNum f m sat fzo neg n d e
    (z.1 = 0 → r = (zeroBits f neg, flagInexact ||| flagUnderflow)) ∧
    (0 < z.1 → z.1 < 2 ^ (f.p - 1) → r =
      if fzo then (zeroBits f neg, flagUnderflow ||| flagInexact)
      else (signBit f neg + z.1, if z.2 then flagInexact ||| flagUnderflow else 0)) ∧
    (z.1 = 2 ^ (f.p - 1) → r = (signBit f neg + 2 ^ (f.p - 1), flagInexact)) := by
  obtain ⟨zero, le, full⟩ := h.small_cut hE m neg
  have range := h.wide.range
  have unit : 0 < 2 ^ (f.p - 1) := by positivity
  have carried := @InRange.carry_cut f n d e E h m neg
  dsimp only
  rw [roundNum_eq m sat fzo neg h.floorLog]
  dsimp only
  generalize roundAt m neg n d e (E - (f.p - 1 : Nat)) = y at carried ⊢
  generalize roundAt m neg n d e (f.emin - (f.p - 1 : Nat)) = z at zero le full carried ⊢
  rw [topExp, h.wide.unit]
  by_cases carry : E + 1 = f.emin ∧ y.1 = 2 * 2 ^ (f.p - 1)
  · obtain ⟨hE1, hy⟩ := carry
    obtain ⟨iy, hz⟩ := carried hE1 hy
    rw [if_pos hy, if_neg (by omega), if_pos (by omega), if_pos hy, iy, if_pos rfl, hE1, Int.sub_self, packBits]
    refine ⟨by omega, by omega, fun _ => ?_⟩
    rw [Int.toNat_zero, Nat.zero_mul, Nat.add_zero]
  · have top : (if y.1 = 2 * 2 ^ (f.p - 1) then E + 1 else E) < f.emin := by split <;> omega
    rw [if_neg (by omega), if_neg (by omega)]
    refine ⟨fun hz => ?_, fun h0 h1 => ?_, fun hz => ?_⟩
    · rw [if_pos hz, zero hz, if_pos rfl]
    · rw [if_neg (by omega), if_pos h1, packBits, Nat.zero_mul, Nat.add_zero]
      cases z.2 <;> rfl
    · rw [if_neg (by omega), if_neg (by omega), packBits, Nat.zero_mul, Nat.add_zero, hz, full hz, if_pos rfl]

end

end Sys2Proof.NumberFormats

/-! ### Rounding the exact value of a pattern (R14, R27), and O15 -/

namespace Sys2Proof.NumberFormats

open Sys2Proof Sys2Proof.Machine Sys2Proof.Safety Sys2Proof.Laws

theorem Wide.exponents {f : Fmt} (h : Wide f) : f.emin + (2 ^ f.ebits : Nat) - 3 = f.emax := by
  rcases h with rfl | rfl | rfl <;> decide

theorem Wide.patterns {f : Fmt} (h : Wide f) : 2 ^ (f.p + f.ebits) = 2 * (2 ^ (f.p - 1) * 2 ^ f.ebits) := by
  rw [pow_add, h.unit, mul_assoc]

theorem expField_lt (f : Fmt) (x : Nat) : expField f x < 2 ^ f.ebits := Nat.mod_lt _ (by positivity)

theorem fracField_lt (f : Fmt) (x : Nat) : fracField f x < 2 ^ (f.p - 1) := Nat.mod_lt _ (by positivity)

/-- The fields of a pattern make the pattern. -/
theorem fields_join {f : Fmt} (hf : Wide f) {x : Nat} (hx : x < 2 ^ (f.p + f.ebits)) :
    signBit f (signField f x) + expField f x * 2 ^ (f.p - 1) + fracField f x = x := by
  rw [hf.patterns] at hx
  have hs : signBit f (signField f x) = x / 2 ^ (f.p - 1) / 2 ^ f.ebits * (2 ^ (f.p - 1) * 2 ^ f.ebits) := by
    have two : x / (2 ^ (f.p - 1) * 2 ^ f.ebits) < 2 := Nat.div_lt_of_lt_mul (by rwa [Nat.mul_comm])
    rw [signBit, signField, pow_add, Nat.div_div_eq_div_mul]
    generalize x / (2 ^ (f.p - 1) * 2 ^ f.ebits) = s at two
    interval_cases s <;> simp
  have h1 := Nat.div_add_mod x (2 ^ (f.p - 1))
  have h2 := Nat.div_add_mod (x / 2 ^ (f.p - 1)) (2 ^ f.ebits)
  rw [hs, expField, fracField]
  linear_combination h1 + 2 ^ (f.p - 1) * h2

/-- The exact value of a finite pattern (R14). -/
theorem exVal_unpack (f : Fmt) (x : Nat) (h : expField f x ≠ 2 ^ f.ebits - 1) : exVal (unpack f x) =
    some (signRat (signField f x) *
      (if expField f x = 0 then (fracField f x : Rat) / 2 ^ (f.p - 1) * (2 : Rat) ^ f.emin
       else (1 + (fracField f x : Rat) / 2 ^ (f.p - 1)) * (2 : Rat) ^ (f.emin + expField f x - 1))) := by
  rw [unpack]
  simp only [if_neg h]
  split
  · refine exVal_eq ?_
    rw [mag_shift, mag, zpow_natCast]
    ring
  · refine exVal_eq ?_
    rw [mag_shift, mag, zpow_natCast]
    push_cast
    field_simp

theorem roundAt_exact (m : Nat) (neg : Bool) (n : Nat) (e : Int) : roundAt m neg n 1 e e = (n, false) := by
  have exact : roundsUp m neg n 0 1 = false := by
    unfold roundsUp
    split <;> simp
  simp [roundAt, scaled, Nat.mod_one, exact]

theorem mag_one (n : Nat) (e l : Int) : mag n 1 (e - l) = (n : Rat) * (2 : Rat) ^ e / (2 : Rat) ^ l := by
  rw [mag_shift, mag, Nat.cast_one, div_one]

/-- A subnormal value rounds to its own pattern. -/
theorem roundNum_subnormal {f : Fmt} (hf : Wide f) {N : Nat} (h0 : N ≠ 0) (h1 : N < 2 ^ (f.p - 1)) (m : Nat) (sat neg : Bool) :
    roundNum f m sat false neg N 1 (f.emin - (f.p - 1 : Nat)) = (signBit f neg + N, 0) := by
  obtain ⟨E, lo, hi⟩ := exists_mem_Ico_zpow (mag_pos h0 one_ne_zero (f.emin - (f.p - 1 : Nat))) one_lt_two
  have range : InRange f N 1 (f.emin - (f.p - 1 : Nat)) E := ⟨hf, h0, one_ne_zero, lo, hi⟩
  have small : E < f.emin := by
    have below : mag N 1 (f.emin - (f.p - 1 : Nat)) < (2 : Rat) ^ f.emin := by
      have cast : (N : Rat) < 2 ^ (f.p - 1) := by exact_mod_cast h1
      have pos : (0 : Rat) < (2 : Rat) ^ f.emin := zpow_pos two_pos _
      rw [mag_one, zpow_natCast, div_lt_iff₀ (by positivity), mul_comm]
      exact mul_lt_mul_of_pos_left cast pos
    exact two_zpow_lt.mp (lo.trans_lt below)
  have rounded := (range.roundNum_small m sat false neg small).2.1
  rw [roundAt_exact] at rounded
  exact rounded (Nat.pos_of_ne_zero h0) h1

/-- A normal value rounds to its own pattern. -/
theorem roundNum_normal {f : Fmt} (hf : Wide f) {N k : Nat} (h0 : N < 2 ^ (f.p - 1)) (hk : k + 2 < 2 ^ f.ebits) (m : Nat) (sat neg : Bool) :
    roundNum f m sat false neg (2 ^ (f.p - 1) + N) 1 (f.emin + k - (f.p - 1 : Nat)) =
      (signBit f neg + (2 ^ (f.p - 1) + N) + k * 2 ^ (f.p - 1), 0) := by
  have unit : 0 < 2 ^ (f.p - 1) := by positivity
  have range : InRange f (2 ^ (f.p - 1) + N) 1 (f.emin + k - (f.p - 1 : Nat)) (f.emin + k) := by
    have pos : (0 : Rat) < (2 : Rat) ^ (f.emin + k) := zpow_pos two_pos _
    have low : (2 : Rat) ^ (f.p - 1) ≤ ((2 ^ (f.p - 1) + N : Nat) : Rat) := by exact_mod_cast Nat.le_add_right _ N
    have high : ((2 ^ (f.p - 1) + N : Nat) : Rat) < 2 * 2 ^ (f.p - 1) := by exact_mod_cast (by omega : 2 ^ (f.p - 1) + N < 2 * 2 ^ (f.p - 1))
    refine ⟨hf, by omega, one_ne_zero, ?_, ?_⟩
    · rw [mag_one, zpow_natCast, le_div_iff₀ (by positivity), mul_comm]
      exact mul_le_mul_of_nonneg_right low pos.le
    · rw [mag_one, zpow_natCast, div_lt_iff₀ (by positivity), zpow_add_one₀ two_ne_zero]
      calc ((2 ^ (f.p - 1) + N : Nat) : Rat) * (2 : Rat) ^ (f.emin + k) < 2 * 2 ^ (f.p - 1) * (2 : Rat) ^ (f.emin + k) := mul_lt_mul_of_pos_right high pos
        _ = (2 : Rat) ^ (f.emin + k) * 2 * 2 ^ (f.p - 1) := by ring
  have fits := hf.exponents
  have rounded := range.roundNum_normal m sat false neg
  rw [roundAt_exact, add_sub_cancel_left, Int.toNat_natCast] at rounded
  exact rounded (by dsimp only; omega) (by omega)

theorem roundFV_of_roundNum {f : Fmt} {m : Nat} {sat fzo neg : Bool} {n d : Nat} {e : Int} (hn : n ≠ 0) (fl : Flags) :
    roundFV f m sat fzo (.num neg n d e, fl) = ((roundNum f m sat fzo neg n d e).1, fl ||| (roundNum f m sat fzo neg n d e).2) := by
  rw [roundFV]
  simp only [if_neg hn]

theorem roundFV_eq {f : Fmt} {m : Nat} {sat fzo neg : Bool} {n d : Nat} {e : Int} {b : Nat} {g : Flags} (hn : n ≠ 0)
    (h : roundNum f m sat fzo neg n d e = (b, g)) (fl : Flags) : roundFV f m sat fzo (.num neg n d e, fl) = (b, fl ||| g) := by
  rw [roundFV_of_roundNum hn, h]

/-- Rounding the exact value of a pattern gives the pattern back (R14, R27). -/
theorem roundFV_unpack {f : Fmt} (hf : Wide f) (m : Nat) (sat : Bool) {x : Nat} (hx : x < 2 ^ (f.p + f.ebits)) (hn : isNaN f x = false) :
    roundFV f m sat false (unpack f x, 0) = (x, 0) := by
  have join := fields_join hf hx
  have elt := expField_lt f x
  have flt := fracField_lt f x
  rw [unpack]
  by_cases top : expField f x = 2 ^ f.ebits - 1
  · have frac : fracField f x = 0 := by simpa [isNaN, top] using hn
    rw [top, frac] at join
    simp only [if_pos top, if_pos frac]
    exact Prod.ext join rfl
  · simp only [if_neg top]
    by_cases sub : expField f x = 0
    · rw [sub, Nat.zero_mul, Nat.add_zero] at join
      rw [if_pos sub]
      by_cases zero : fracField f x = 0
      · rw [zero] at join ⊢
        exact Prod.ext join rfl
      · rw [roundFV_eq zero (roundNum_subnormal hf zero flt m sat _), join]
        rfl
    · obtain ⟨k, hk⟩ := Nat.exists_eq_add_one_of_ne_zero sub
      rw [hk] at join top elt ⊢
      have exp : f.emin + ((k + 1 : Nat) : Int) - 1 = f.emin + k := by omega
      have pattern : signBit f (signField f x) + (2 ^ (f.p - 1) + fracField f x) + k * 2 ^ (f.p - 1) = x := by
        linear_combination join
      rw [if_neg (Nat.succ_ne_zero k), exp, roundFV_eq (by positivity) (roundNum_normal hf flt (by omega) m sat _), pattern]
      rfl

/-- Settles O15: aligned magnitudes for the exact operations, a cut of the magnitude at 2^l for the modes, and the exponent of the value for
the ranges of `Round`. -/
theorem floatValues : Obligations.FloatValues := by
  refine ⟨⟨fun f x _ h => exVal_unpack f x h, ?_⟩, ?_, ?_, fun f m sat x hf hx hn => roundFV_unpack hf m sat hx hn⟩
  · intro m s t n d n' d' e e' fl fl' hd hd' a b
    obtain ⟨sum, flags⟩ := @exVal_addV s t n d n' d' e e' fl fl' hd hd' m
    obtain ⟨lt, eq⟩ := @cmpEx_iff s t n d n' d' e e' hd hd'
    exact ⟨_, _, exVal_num s n d e, exVal_num t n' d' e', exVal_negV s n d e fl, exVal_mulV s t n d n' d' e e' fl fl', sum,
      exVal_divV s t n d d' e e' fl fl', lt, eq, rfl, flags⟩
  · intro neg n d e l hd
    obtain ⟨t, ρ, cut⟩ := exists_cut hd neg n e l
    exact cut.modes
  · intro f m sat fzo neg n d e E fl hf hn hd lo hi r unit y z tooBig
    have range : InRange f n d e E := ⟨hf, hn, hd, lo, hi⟩
    refine ⟨fun big => ?_, fun big normal => roundFV_eq hn (range.roundNum_normal m sat fzo neg big normal) fl, fun small => ?_⟩
    · have hr : r = (overflowBits f m sat neg, fl ||| (flagOverflow ||| flagInexact)) := roundFV_eq hn (range.roundNum_overflow m sat fzo neg big) fl
      rw [hr]
      refine ⟨rfl, fun hs => by rw [hs]; rfl, fun hs => ?_⟩
      rw [hs]
      exact overflowBits_modes f m neg
    · obtain ⟨zero, sub, full⟩ := range.roundNum_small m sat fzo neg small
      refine ⟨fun h => roundFV_eq hn (zero h) fl, fun h0 h1 => ?_, fun h => roundFV_eq hn (full h) fl⟩
      have hr := sub h0 h1
      cases fzo with
      | true => exact roundFV_eq hn hr fl
      | false => exact roundFV_eq hn hr fl

end Sys2Proof.NumberFormats

/-! ### Results with sticky flags (R56, R92) -/

namespace Sys2Proof.NumberFormats

open Sys2Proof Sys2Proof.Machine Sys2Proof.Safety Sys2Proof.Laws

/-! #### Raising flags -/

/-- The group with more flags of `JX` raised. -/
def orJx (f : BitVec 20) (g : Group) : Group := { g with jx := g.jx ||| f }

theorem orJx_orJx (f e : BitVec 20) (g : Group) : orJx f (orJx e g) = orJx (e ||| f) g := by
  rw [orJx, orJx, orJx, BitVec.or_assoc]

theorem orJx_zero (g : Group) : orJx 0 g = g := by
  rw [orJx, BitVec.ofNat_eq_ofNat, BitVec.or_zero]

theorem raise_zero (f : Flags) (g : Group) : raise 0 f g = orJx (f.zeroExtend 20) g := by
  simp [raise, orJx]

theorem raiseRows_eq (l : List CoefRes) (row : Nat) (g : Group) : raiseRows row (coefFlags l) g = orJx (rowFlags l <<< (5 * row)) g := by
  induction l generalizing row g with
  | nil => simp [coefFlags, raiseRows, rowFlags, orJx]
  | cons r l ih =>
    have next : raiseRows row (coefFlags (r :: l)) g = raiseRows (row + 1) (coefFlags l) (orJx (r.2.zeroExtend 20 <<< (5 * row)) g) := rfl
    have shift : rowFlags l <<< (5 * (row + 1)) = rowFlags l <<< 5 <<< (5 * row) := by
      rw [← BitVec.shiftLeft_add, Nat.mul_succ, Nat.add_comm]
    rw [next, ih, orJx_orJx, rowFlags, BitVec.shiftLeft_or_distrib, shift]

theorem raiseRows_zero (l : List CoefRes) (g : Group) : raiseRows 0 (coefFlags l) g = orJx (rowFlags l) g := by
  rw [raiseRows_eq, Nat.mul_zero, BitVec.shiftLeft_zero]

theorem agree_orJx (i : Nat) (f : BitVec 20) (g : Group) : agree false i g (orJx f g) := ⟨fun _ _ => rfl, fun _ => rfl, rfl⟩

theorem agree_weaken {i : Nat} {g h : Group} (a : agree true i g h) : agree false i g h := by
  refine ⟨a.1, a.2.1, ?_⟩
  have rest := a.2.2
  rw [agree_jx a] at rest
  exact rest

/-- A part of a result that another strand's result and the flags do not change (R67). -/
def Local {α : Type} (val : Group → Nat → α) : Prop := ∀ g h i, agree false i g h → val h i = val g i

theorem vSets_orJx (f : BitVec 20) (g : Group) (i r : Nat) (l : List Word) : vSets (orJx f g) i r l = orJx f (vSets g i r l) := by
  induction l generalizing g r with
  | nil => rfl
  | cons w l ih => exact ih (vSet g i r w) (r + 1)

theorem sSets_orJx (f : BitVec 20) (g : Group) (r : Nat) (l : List Word) : sSets (orJx f g) r l = orJx f (sSets g r l) := by
  induction l generalizing g r with
  | nil => rfl
  | cons w l ih => exact ih (sSet g r w) (r + 1)

theorem writeRegs_orJx (f : BitVec 20) (g : Group) (i : Nat) (o : Opnd) (l : List Word) :
    writeRegs (orJx f g) i o l = orJx f (writeRegs g i o l) := by
  cases o with
  | v k => exact vSets_orJx f g i _ l
  | s k => exact sSets_orJx f g _ l
  | sp k => rfl
  | im k => rfl

theorem writeUni_orJx (f : BitVec 20) (g : Group) (o : Opnd) (l : List Word) : writeUni (orJx f g) o l = orJx f (writeUni g o l) := by
  cases o with
  | v k =>
    change (castList g).foldl (fun h i => vSets h i k.toNat l) (orJx f g) = orJx f ((castList g).foldl (fun h i => vSets h i k.toNat l) g)
    generalize castList g = is
    induction is generalizing g with
    | nil => rfl
    | cons i is ih => rw [List.foldl_cons, List.foldl_cons, vSets_orJx, ih]
  | s k => exact sSets_orJx f g _ l
  | sp k => rfl
  | im k => rfl

/-! #### The strands in turn -/

/-- The flags of the strands of a list together. -/
def allFlags (fl : Nat → BitVec 20) (l : List Nat) : BitVec 20 := l.foldl (fun a i => a ||| fl i) 0

theorem getLsbD_foldl_or {α : Type} {w : Nat} (fl : α → BitVec w) (l : List α) (a : BitVec w) (k : Nat) :
    (l.foldl (fun a i => a ||| fl i) a).getLsbD k = true ↔ (a.getLsbD k = true ∨ ∃ i ∈ l, (fl i).getLsbD k = true) := by
  induction l generalizing a with
  | nil => simp
  | cons i l ih => rw [List.foldl_cons, ih, BitVec.getLsbD_or, Bool.or_eq_true, List.exists_mem_cons_iff, or_assoc]

theorem allFlags_cons (fl : Nat → BitVec 20) (i : Nat) (l : List Nat) : allFlags fl (i :: l) = fl i ||| allFlags fl l := by
  ext k hk
  have bits := getLsbD_foldl_or fl
  rw [← BitVec.getLsbD_eq_getElem, ← BitVec.getLsbD_eq_getElem, Bool.eq_iff_iff, BitVec.getLsbD_or, Bool.or_eq_true]
  rw [allFlags, allFlags, bits, bits, List.exists_mem_cons_iff]
  simp

/-- What an instruction raises: in its executing strands, or once (R43, R56). -/
def raised (x : Fields) (g : Group) (fl : Nat → BitVec 20) : BitVec 20 :=
  if x.u then (if holdsQ g x then fl 0 else 0) else allFlags fl (execList g x)

theorem getLsbD_raised (x : Fields) (g : Group) (fl : Nat → BitVec 20) (k : Nat) :
    (raised x g fl).getLsbD k = true ↔
      if x.u then holdsQ g x = true ∧ (fl 0).getLsbD k = true else ∃ i ∈ execList g x, (fl i).getLsbD k = true := by
  rw [raised]
  cases x.u with
  | true => cases holdsQ g x <;> simp
  | false => simp [allFlags, getLsbD_foldl_or]

/-- A strand's writes, which read and change nothing that another strand or the flags hold. -/
structure Writes (i : Nat) (W : Group → Group) : Prop where
  own : Own true i W
  flags : ∀ f g, W (orJx f g) = orJx f (W g)

/-- Strands that write and raise flags in turn: the writes in turn, and the flags together. -/
theorem inTurn_orJx {W : Nat → Group → Group} {fl : Group → Nat → BitVec 20} (local_ : Local fl) {l : List Nat} (nodup : l.Nodup)
    (lt : ∀ i ∈ l, i < 64) (writes : ∀ i ∈ l, Writes i (W i)) (g : Group) :
    inTurn (fun i g => orJx (fl g i) (W i g)) l g = orJx (allFlags (fl g) l) (inTurn W l g) := by
  have later : ∀ (l : List Nat) (f : BitVec 20) (g : Group), (∀ i ∈ l, Writes i (W i)) → inTurn W l (orJx f g) = orJx f (inTurn W l g) := by
    intro l f
    induction l with
    | nil => exact fun _ _ => rfl
    | cons i l ih =>
      intro g hw
      change inTurn W l (W i (orJx f g)) = orJx f (inTurn W l (W i g))
      rw [(hw i (by simp)).flags, ih (W i g) fun j hj => hw j (by simp [hj])]
  have same : ∀ (l : List Nat) (a b : Nat → BitVec 20), (∀ i ∈ l, a i = b i) → allFlags a l = allFlags b l :=
    fun l a b h => List.foldl_ext _ _ _ fun c i hi => by rw [h i hi]
  induction l generalizing g with
  | nil => exact (orJx_zero g).symm
  | cons i l ih =>
    obtain ⟨fresh, nodup'⟩ := List.nodup_cons.mp nodup
    have hw : ∀ j ∈ l, Writes j (W j) := fun j hj => writes j (by simp [hj])
    have step := ih nodup' (fun j hj => lt j (by simp [hj])) hw (orJx (fl g i) (W i g))
    have flags : allFlags (fl (orJx (fl g i) (W i g))) l = allFlags (fl g) l := by
      refine same l _ _ fun j hj => local_ _ _ _ (agree_trans ?_ (agree_orJx j _ _))
      exact agree_weaken ((writes i (by simp)).own.other g j (fun e => fresh (e ▸ hj)) (lt j (by simp [hj])))
    change inTurn (fun i g => orJx (fl g i) (W i g)) l (orJx (fl g i) (W i g)) = _
    rw [step, flags, later l _ _ hw, orJx_orJx, allFlags_cons]
    rfl

/-- The group after an instruction that acts once by `U` or on its executing strands by `W`. -/
def ran (x : Fields) (U : Group → Group) (W : Nat → Group → Group) (g : Group) : Group :=
  if x.u then (if holdsQ g x then U g else g) else inTurn W (execList g x) g

theorem runAlu_ran {x : Fields} {srcs : List (Opnd × Nat)} {U : Group → Group} {W : Nat → Group → Group} {s : State}
    (poison : x.u = false → ∀ i ∈ execList s.g x, ∀ g k, k ∈ (W i g).vPoison → k ∈ g.vPoison) (read : readable s.g x srcs) :
    runAlu x true srcs U W s = .next (setG (advance (ran x U W s.g)) s) := by
  cases hu : x.u with
  | true => simp [runAlu, ran, hu, finish]
  | false => simp [runAlu, ran, hu, finish, runStrands_next srcs W (execList s.g x) s.g (poison hu) (read hu)]

theorem ran_orJx {x : Fields} {U : Group → Group} {W : Nat → Group → Group} {fl : Group → Nat → BitVec 20} {g : Group} (local_ : x.u = false → Local fl)
    (writes : x.u = false → ∀ i ∈ execList g x, Writes i (W i)) :
    ran x (fun g => orJx (fl g 0) (U g)) (fun i g => orJx (fl g i) (W i g)) g = orJx (raised x g (fl g)) (ran x U W g) := by
  cases hu : x.u with
  | true =>
    simp only [ran, raised, hu, if_true]
    cases holdsQ g x with
    | true => rfl
    | false => exact (orJx_zero g).symm
  | false =>
    simp only [ran, raised, hu, Bool.false_eq_true, if_false]
    exact inTurn_orJx (local_ hu) (nodup_execList g x) (fun i hi => lt_of_mem_execList hi) (writes hu) g

/-- An instruction that raises flags ends as its writes do, with the flags raised. -/
theorem runAlu_orJx {x : Fields} {srcs : List (Opnd × Nat)} {U : Group → Group} {W : Nat → Group → Group} {fl : Group → Nat → BitVec 20} {s : State}
    (local_ : x.u = false → Local fl) (writes : x.u = false → ∀ i ∈ execList s.g x, Writes i (W i)) (read : readable s.g x srcs) :
    runAlu x true srcs (fun g => orJx (fl g 0) (U g)) (fun i g => orJx (fl g i) (W i g)) s =
      .next (setG (advance (orJx (raised x s.g (fl s.g)) (ran x U W s.g))) s) := by
  have poison : x.u = false → ∀ i ∈ execList s.g x, ∀ g k, k ∈ (orJx (fl g i) (W i g)).vPoison → k ∈ g.vPoison :=
    fun hu i hi => (writes hu i hi).own.poison
  rw [runAlu_ran poison read, ran_orJx local_ writes]

/-! #### A result in registers, with flags -/

theorem writes_writeRegs {i : Nat} (hi : i < 64) {o : Opnd} {n : Nat} (hv : isV o = true) (ho : opIdx o + n ≤ 256) {words : Group → Nat → List Word}
    (hlen : ∀ g, (words g i).length = n) (local_ : Local words) : Writes i (fun g => writeRegs g i o (words g i)) where
  own := own_writeRegs hi hv ho (fun g => words g i) hlen
  flags f g := by rw [local_ g (orJx f g) i (agree_orJx i f g), writeRegs_orJx]

/-- A result in registers, and the flags raised besides. -/
theorem floatResult_orJx {x : Fields} {n : Nat} {res : Nat → List Word} {fl : Nat → BitVec 20} {g : Group} {s : State}
    (h : RegResult x n res s (setG (advance g) s)) : FloatResult x n res fl s (setG (advance (orJx (raised x s.g fl) g)) s) := by
  have jx : g.jx = s.g.jx := by
    have j := congrArg Group.jx h.group
    exact j
  have back : setG { advance (orJx (raised x s.g fl) g) with jx := g.jx } (setG (advance (orJx (raised x s.g fl) g)) s) = setG (advance g) s := rfl
  refine ⟨?_, fun k => ?_⟩
  · rw [setG_g, ← jx, back]
    exact h
  · have raise : (setG (advance (orJx (raised x s.g fl) g)) s).g.jx = s.g.jx ||| raised x s.g fl := by rw [← jx]; rfl
    rw [raise, BitVec.getLsbD_or, Bool.or_eq_true, getLsbD_raised]

/-- A result of `n` registers with its flags. -/
theorem runAlu_floatResult {x : Fields} {srcs : List (Opnd × Nat)} {words : Group → Nat → List Word} {fl : Group → Nat → BitVec 20} {s : State} {n : Nat}
    (dst : isDst x x.d = true) (fits : opIdx x.d + n ≤ 256) (hlen : ∀ g i, (words g i).length = n)
    (localWords : x.u = false → Local words) (localFlags : x.u = false → Local fl) (once : x.u = true → ∀ i, words s.g i = words s.g 0)
    (read : readable s.g x srcs) :
    ∃ t, runAlu x true srcs (fun g => orJx (fl g 0) (writeUni g x.d (words g 0))) (fun i g => orJx (fl g i) (writeRegs g i x.d (words g i))) s = .next t ∧
      FloatResult x n (words s.g) (fl s.g) s t := by
  have writes : x.u = false → ∀ i ∈ execList s.g x, Writes i (fun g => writeRegs g i x.d (words g i)) := fun hu i hi =>
    writes_writeRegs (lt_of_mem_execList hi) (isDst_zero dst hu) fits (fun g => hlen g i) (localWords hu)
  obtain ⟨u, hu, result⟩ := runMap_result (val := words) (ok := true) rfl dst fits hlen
    (fun hu g h i a => localWords hu g h i (agree_weaken a)) once read
  rw [runMap, runAlu_ran (fun hu i hi => (writes hu i hi).own.poison) read] at hu
  injection hu with hu
  subst hu
  refine ⟨_, runAlu_orJx (W := fun i g => writeRegs g i x.d (words g i)) localFlags writes read, ?_⟩
  generalize ran x _ _ s.g = g at result
  exact floatResult_orJx result

theorem regResult_congr {x : Fields} {n : Nat} {res res' : Nat → List Word} {s t : State} (h : RegResult x n res s t)
    (same : ∀ i j, j < n → nth 0 (res i) j = nth 0 (res' i) j) : RegResult x n res' s t where
  rest := h.rest
  group := h.group
  poison := h.poison
  toV k hk := by
    obtain ⟨uni, new, old⟩ := h.toV k hk
    exact ⟨uni, fun i hi r j hj => (new i hi r j hj).trans (same i j hj), old⟩
  toS k hk := by
    obtain ⟨v, poison, new, old⟩ := h.toS k hk
    exact ⟨v, poison, fun q j hj => (new q j hj).trans (same 0 j hj), old⟩

theorem floatResult_congr {x : Fields} {n : Nat} {res res' : Nat → List Word} {fl fl' : Nat → BitVec 20} {s t : State} (h : FloatResult x n res fl s t)
    (same : ∀ i j, j < n → nth 0 (res i) j = nth 0 (res' i) j) (flags : fl = fl') : FloatResult x n res' fl' s t :=
  ⟨regResult_congr h.1 same, flags ▸ h.2⟩

end Sys2Proof.NumberFormats

/-! ### Running the floating-point instructions (R72 to R74, R155 to R157) -/

namespace Sys2Proof.NumberFormats

open Sys2Proof Sys2Proof.Machine Sys2Proof.Safety Sys2Proof.Laws

/-! #### Jet groups -/

theorem jetRegs_cases (k : Nat) : jetRegs k = 1 ∨ jetRegs k = 2 ∨ jetRegs k = 4 := by
  unfold jetRegs
  split
  · exact .inl rfl
  · split
    · exact .inr (.inl rfl)
    · exact .inr (.inr rfl)

/-- A jet group holds its coefficients. -/
theorem lt_jetRegs {k : Nat} (hk : k < 4) : k < jetRegs k := by
  interval_cases k <;> decide

theorem jord_lt (g : Group) : g.jord.toNat < 4 := g.jord.isLt

theorem orderOf_lt (t : Ty) (g : Group) : orderOf t g < 4 := by
  unfold Machine.orderOf
  split
  · exact jord_lt g
  · exact Nat.zero_lt_succ 3

/-- The registers of a source jet that passes step 5 exist. -/
theorem jet_fits {g : Group} {o : Opnd} {k : Nat} (hk : k < 4) (h : regOk g o (fRegs k o).2 = true) (hv : isV o = true) : opIdx o + k < 256 := by
  rw [fRegs, if_pos hv] at h
  have := regOk_lt (jetRegs_cases k) (.inl hv) h
  have := lt_jetRegs hk
  omega

theorem agree_readJet {keep : Bool} {i : Nat} {g h : Group} (a : agree keep i g h) (x : Fields) {k : Nat} {o : Opnd}
    (fits : isV o = true → opIdx o + k < 256) : readJet h x i k o = readJet g x i k o := by
  cases o with
  | v n =>
    have := fits rfl
    simp only [readJet]
    refine List.map_congr_left fun j hj => ?_
    rw [List.mem_range] at hj
    rw [agree_v a (by simp only [opIdx] at this; omega)]
  | s n => simp only [readJet, agree_read32 a]
  | sp n => rfl
  | im n => rfl

theorem agree_readJetB {keep : Bool} {i : Nat} {g h : Group} (a : agree keep i g h) (x : Fields) {k : Nat}
    (fits : isV x.b = true → opIdx x.b + k < 256) : readJetB h x i k = readJetB g x i k := by
  rw [readJetB, readJetB, agree_readJet a x fits]

theorem readJet_uni {x : Fields} {o : Opnd} (h : isSrc x o = true) (hu : x.u = true) (g : Group) (i k : Nat) : readJet g x i k o = readJet g x 0 k o := by
  cases o with
  | v n => simp [isSrc, isV, isS, isShort, hu] at h
  | s n => rfl
  | sp n => rfl
  | im n => rfl

theorem readJetB_uni {x : Fields} (h : isSrcB x = true) (hu : x.u = true) (g : Group) (i k : Nat) : readJetB g x i k = readJetB g x 0 k := by
  rw [readJetB, readJetB]
  split
  · rfl
  · rw [isSrcB, if_neg ‹_›] at h
    exact readJet_uni h hu g i k

/-! #### The words and the flags of a result -/

@[simp] theorem length_coefWords (l : List CoefRes) : (coefWords l).length = l.length := List.length_map _

/-- The words that a result writes: those of its coefficients, and with `U` = 1 +0 above coefficient 0 in a v destination (R74). -/
def putWords (x : Fields) (k : Nat) (l : List CoefRes) : List Word :=
  if isS x.d then coefWords l else coefWords l ++ List.replicate (if x.u then k else 0) 0

theorem putCoefs_eq {x : Fields} {k : Nat} (hu : x.u = false) (i : Nat) (l : List CoefRes) (g : Group) :
    putCoefs i x.d l g = orJx (rowFlags l) (writeRegs g i x.d (putWords x k l)) := by
  have words : putWords x k l = coefWords l := by simp [putWords, hu]
  rw [words, putCoefs, raiseRows_zero, writeRegs_orJx]

theorem putUni_eq {x : Fields} {k : Nat} (hu : x.u = true) {l : List CoefRes} (hl : l.length = 1) (g : Group) :
    putUni k x.d l g = orJx (rowFlags l) (writeUni g x.d (putWords x k l)) := by
  have one : l.take 1 = l := List.take_of_length_le (by omega)
  rw [← writeUni_orJx, ← raiseRows_zero, putWords, if_pos hu]
  simp only [putUni, one]
  cases x.d with
  | s n => rfl
  | v n => rfl
  | sp n => rfl
  | im n => rfl

/-- What an instruction of this chapter gives when its checks pass: its coefficients at the order in force, or with `U` = 1 at order 0. -/
theorem runFloat_result {x : Fields} {t : Ty} {srcs : List (Opnd × Nat)} {val : Nat → Group → Nat → List CoefRes} {s : State}
    (dst : isDst x x.d = true) (reg : regOk s.g x.d (fRegs (orderOf t s.g) x.d).2 = true)
    (hlen : ∀ g i, (val (orderAt t s.g x) g i).length = orderAt t s.g x + 1) (local_ : x.u = false → Local (val (orderOf t s.g)))
    (once : x.u = true → ∀ i, val 0 s.g i = val 0 s.g 0) (read : readable s.g x srcs) :
    ∃ u, runFloat x t true true true srcs val s = .next u ∧
      FloatResult x (floatCount t s.g x) (floatWords t s.g x (val (orderAt t s.g x) s.g)) (fun i => rowFlags (val (orderAt t s.g x) s.g i)) s u := by
  have hk := orderOf_lt t s.g
  have fits : opIdx x.d + floatCount t s.g x ≤ 256 := by
    rw [floatCount]
    rcases isDst_elim dst with ⟨k, hk'⟩ | ⟨k, hk'⟩
    · have := jet_fits hk reg (by rw [hk']; rfl)
      rw [hk', if_neg (by simp [isS]), ← hk']
      omega
    · rw [hk', fRegs] at reg
      have := regOk_lt (.inl rfl) (.inr rfl) reg
      rw [hk', if_pos (by rfl)]
      exact this
  have length : ∀ g i, (putWords x (orderOf t s.g) (val (orderAt t s.g x) g i)).length = floatCount t s.g x := by
    intro g i
    have := hlen g i
    rw [putWords, floatCount]
    split
    · have hu : x.u = true := by
        rcases isDst_elim dst with ⟨k, hk'⟩ | ⟨k, hk'⟩
        · simp_all [isS]
        · simpa [isDst, isV, isS, hk'] using dst
      simpa [orderAt, hu] using this
    · rw [List.length_append, length_coefWords, List.length_replicate, this, orderAt]
      split <;> omega
  have run : runFloat x t true true true srcs val s =
      runAlu x true srcs (fun g => orJx (rowFlags (val (orderAt t s.g x) g 0)) (writeUni g x.d (putWords x (orderOf t s.g) (val (orderAt t s.g x) g 0))))
        (fun i g => orJx (rowFlags (val (orderAt t s.g x) g i)) (writeRegs g i x.d (putWords x (orderOf t s.g) (val (orderAt t s.g x) g i)))) s := by
    change runAlu x true srcs _ _ s = _
    cases hu : x.u with
    | false =>
      have order : orderAt t s.g x = orderOf t s.g := by simp [orderAt, hu]
      simp only [runAlu, hu, order, putCoefs_eq (k := orderOf t s.g) hu, Bool.false_eq_true, if_false]
    | true =>
      have order : orderAt t s.g x = 0 := by simp [orderAt, hu]
      rw [order] at hlen ⊢
      simp only [runAlu, hu, if_true, putUni_eq hu (hlen _ 0)]
  obtain ⟨u, hu, result⟩ := runAlu_floatResult (words := fun g i => putWords x (orderOf t s.g) (val (orderAt t s.g x) g i))
    (fl := fun g i => rowFlags (val (orderAt t s.g x) g i)) dst fits length
    (fun hu g h i a => by simp only [orderAt, hu, Bool.false_eq_true, if_false, local_ hu g h i a])
    (fun hu g h i a => by simp only [orderAt, hu, Bool.false_eq_true, if_false, local_ hu g h i a])
    (fun hu i => by simp only [orderAt, hu, if_true, once hu i]) read
  refine ⟨u, run.trans hu, floatResult_congr result (fun i j hj => ?_) rfl⟩
  have := hlen s.g i
  rw [putWords, floatWords]
  split
  · rename_i hs
    rw [floatCount, if_pos hs] at hj
    simp only [nth]
    rw [List.getElem?_append_left (by rw [length_coefWords]; omega)]
  · rfl

end Sys2Proof.NumberFormats

/-! ### Arithmetic on elements and on jets (R79 to R81, R155, R156, R162), and O16 -/

namespace Sys2Proof.NumberFormats

open Sys2Proof Sys2Proof.Machine Sys2Proof.Safety Sys2Proof.Laws

/-! #### Coefficients built in ascending order -/

section
variable (f : Nat → List CoefRes → CoefRes)

theorem length_buildFrom (n i : Nat) (y : List CoefRes) : (buildFrom f n i y).length = y.length + n := by
  induction n generalizing i y with
  | zero => rfl
  | succ n ih =>
    rw [buildFrom, ih, List.length_append, List.length_singleton]
    omega

/-- What is built stays the beginning of what is built later. -/
theorem take_buildFrom (n i : Nat) (y : List CoefRes) : (buildFrom f n i y).take y.length = y := by
  induction n generalizing i y with
  | zero => exact List.take_length
  | succ n ih =>
    have h := congrArg (List.take y.length) (ih (i + 1) (y ++ [f i y]))
    rw [List.take_take, List.length_append, List.take_left, min_eq_left (Nat.le_add_right _ _)] at h
    exact h

/-- A coefficient is computed from those below it. -/
theorem nth_buildFrom (n i : Nat) (y : List CoefRes) {j : Nat} (hy : y.length = i) (lo : i ≤ j) (hi : j < i + n) :
    nth (0, 0) (buildFrom f n i y) j = f j ((buildFrom f n i y).take j) := by
  induction n generalizing i y with
  | zero => omega
  | succ n ih =>
    have next : (y ++ [f i y]).length = i + 1 := by rw [List.length_append, List.length_singleton, hy]
    rcases Nat.eq_or_lt_of_le lo with rfl | later
    · have first := take_buildFrom f n (i + 1) (y ++ [f i y])
      have all := take_buildFrom f (n + 1) i y
      rw [hy] at all
      rw [next] at first
      rw [all, ← nth_take (0, 0) _ (Nat.lt_succ_self i), buildFrom, first]
      simp [nth, ← hy]
    · exact ih (i + 1) (y ++ [f i y]) next later (by omega)

theorem length_build (k : Nat) : (build k f).length = k + 1 := by
  rw [build, length_buildFrom, List.length_nil, Nat.zero_add]

theorem nth_build {k j : Nat} (hj : j ≤ k) : nth (0, 0) (build k f) j = f j ((build k f).take j) :=
  nth_buildFrom f (k + 1) 0 [] rfl (Nat.zero_le j) (by omega)

end

theorem length_elemwise (t : Ty) (f : Nat → CoefRes) : (elemwise t f).length = 1 := rfl

/-! #### Step 5 taken apart -/

theorem okF2_parts {t : Ty} {x : Fields} {g : Group} (h : okF2 t x g = true) :
    isDst x x.d = true ∧ isSrc x x.a = true ∧ isSrcB x = true ∧ regOk g x.d (fRegs (orderOf t g) x.d).2 = true ∧
    regOk g x.a (fRegs (orderOf t g) x.a).2 = true ∧ regOk g x.b (fRegs (orderOf t g) x.b).2 = true := by
  simp only [okF2, formDAB, Bool.and_eq_true] at h
  obtain ⟨⟨⟨⟨⟨d, a⟩, b⟩, -⟩, -⟩, regs⟩ := h
  obtain ⟨rd, regs⟩ := regsOk_cons regs
  obtain ⟨ra, regs⟩ := regsOk_cons regs
  exact ⟨d, a, b, rd, ra, (regsOk_cons regs).1⟩

theorem okF3_parts {k : Nat} {x : Fields} {g : Group} (h : (formDABC x && regsOk g [fRegs k x.d, fRegs k x.a, fRegs k x.b, fRegs k x.c]) = true) :
    (isDst x x.d = true ∧ isSrc x x.a = true ∧ isSrc x x.b = true ∧ isSrc x x.c = true) ∧
    regOk g x.d (fRegs k x.d).2 = true ∧ regOk g x.a (fRegs k x.a).2 = true ∧ regOk g x.b (fRegs k x.b).2 = true ∧
    regOk g x.c (fRegs k x.c).2 = true := by
  simp only [formDABC, Bool.and_eq_true] at h
  obtain ⟨⟨⟨⟨⟨d, a⟩, b⟩, c⟩, -⟩, regs⟩ := h
  obtain ⟨rd, regs⟩ := regsOk_cons regs
  obtain ⟨ra, regs⟩ := regsOk_cons regs
  obtain ⟨rb, regs⟩ := regsOk_cons regs
  exact ⟨⟨d, a, b, c⟩, rd, ra, rb, (regsOk_cons regs).1⟩

theorem orderOk_of {t : Ty} {g : Group} {b : Bool} (h : orderFmtOk t g b) : orderOk t g = true := by
  simpa [orderOk] using h.1

/-! #### Two operands -/

/-- The coefficients that `runArith2` computes at order `k` in strand `i`. -/
def arith2 (t : Ty) (x : Fields) (op : Nat → FV → FV → FV) (ser : Nat → Nat → DWord → List Nat → List Nat → List CoefRes) (k : Nat) (g : Group)
    (i : Nat) : List CoefRes :=
  if k = 0 then elemwise t (fun e => roundTy t x.md.toNat g.fmt
    (op x.md.toNat (elemSrc t g.fmt (head0 (readJet g x i k x.a)) e) (elemSrc t g.fmt (head0 (readJetB g x i k)) e)))
  else ser k x.md.toNat g.fmt (readJet g x i k x.a) (readJetB g x i k)

theorem negates_product (f : FmaForm) : (f == .nm || f == .nms) = decide (f = .nm ∨ f = .nms) := by cases f <;> rfl

theorem negates_addend (f : FmaForm) : (f == .ms || f == .nms) = decide (f = .ms ∨ f = .nms) := by cases f <;> rfl

section
variable {o : Instr} {t : Ty} {x : Fields} {s : State} (checks : orderFmtOk t s.g true)
include checks

theorem runArith2_yields {op : Nat → FV → FV → FV} {ser : Nat → Nat → DWord → List Nat → List Nat → List CoefRes}
    (run : exec o s = runArith2 t x op ser s) (hser : ∀ k m fmt a b, (ser k m fmt a b).length = k + 1) (ok : okF2 t x s.g = true)
    (read : readable s.g x [fReads (orderOf t s.g) x.a, fReads (orderOf t s.g) x.b]) :
    yields o t x s (arith2 t x op ser (orderAt t s.g x) s.g) := by
  obtain ⟨d, a, b, rd, ra, rb⟩ := okF2_parts ok
  have hk := orderOf_lt t s.g
  have hlen : ∀ k g i, (arith2 t x op ser k g i).length = k + 1 := by
    intro k g i
    unfold arith2
    split
    · rw [length_elemwise, ‹k = 0›]
    · exact hser _ _ _ _ _
  have local_ : Local (arith2 t x op ser (orderOf t s.g)) := by
    intro g h i ag
    unfold arith2
    rw [agree_fmt ag, agree_readJet ag x (jet_fits hk ra), agree_readJetB ag x (jet_fits hk rb)]
  have once : x.u = true → ∀ i, arith2 t x op ser 0 s.g i = arith2 t x op ser 0 s.g 0 := by
    intro hu i
    unfold arith2
    rw [readJet_uni a hu s.g i, readJetB_uni b hu s.g i]
  obtain ⟨u, hu, result⟩ := runFloat_result (val := arith2 t x op ser) d rd (hlen _) (fun _ => local_) once read
  refine ⟨u, ?_, result⟩
  rw [run, ← hu, runArith2, ok, orderOk_of checks, checks.2 rfl]
  rfl

/-- Elements at order 0 (R155, R162). -/
theorem runArith2_elements {op : Nat → FV → FV → FV} {ser : Nat → Nat → DWord → List Nat → List Nat → List CoefRes}
    (run : exec o s = runArith2 t x op ser s) (hser : ∀ k m fmt a b, (ser k m fmt a b).length = k + 1) (zero : orderAt t s.g x = 0)
    (ok : okF2 t x s.g = true) (read : readable s.g x [fReads (orderOf t s.g) x.a, fReads (orderOf t s.g) x.b]) :
    yields o t x s (fun i => elemwise t (fun e => roundTy t x.md.toNat s.g.fmt (op x.md.toNat
      (elemSrc t s.g.fmt (nth 0 (readJet s.g x i 0 x.a) 0) e) (elemSrc t s.g.fmt (nth 0 (readJetB s.g x i 0) 0) e)))) := by
  have h := runArith2_yields checks run hser ok read
  rw [zero] at h
  exact h

/-- Jets at order `k` > 0 (R72, R92). -/
theorem runArith2_jets {op : Nat → FV → FV → FV} {ser : Nat → Nat → DWord → List Nat → List Nat → List CoefRes}
    (run : exec o s = runArith2 t x op ser s) (hser : ∀ k m fmt a b, (ser k m fmt a b).length = k + 1) {k : Nat} (order : orderAt t s.g x = k)
    (pos : k ≠ 0) (ok : okF2 t x s.g = true) (read : readable s.g x [fReads (orderOf t s.g) x.a, fReads (orderOf t s.g) x.b]) :
    yields o t x s (fun i => ser k x.md.toNat s.g.fmt (readJet s.g x i k x.a) (readJetB s.g x i k)) := by
  have h := runArith2_yields checks run hser ok read
  have series : arith2 t x op ser k s.g = fun i => ser k x.md.toNat s.g.fmt (readJet s.g x i k x.a) (readJetB s.g x i k) :=
    funext fun i => if_neg pos
  rwa [order, series] at h

/-! #### Three operands -/

/-- The coefficients that `FFMA` computes at order `k` in strand `i`. -/
def arith3 (f : FmaForm) (t : Ty) (x : Fields) (k : Nat) (g : Group) (i : Nat) : List CoefRes :=
  if k = 0 then elemwise t (fun e => roundTy t x.md.toNat g.fmt (addV x.md.toNat
    (mulV (if f == .nm || f == .nms then negV (elemSrc t g.fmt (head0 (readJet g x i k x.a)) e) else elemSrc t g.fmt (head0 (readJet g x i k x.a)) e)
      (elemSrc t g.fmt (head0 (readJet g x i k x.b)) e))
    (if f == .ms || f == .nms then negV (elemSrc t g.fmt (head0 (readJet g x i k x.c)) e) else elemSrc t g.fmt (head0 (readJet g x i k x.c)) e)))
  else fmaSeries k x.md.toNat g.fmt (f == .nm || f == .nms) (f == .ms || f == .nms) (readJet g x i k x.a) (readJet g x i k x.b) (readJet g x i k x.c)

theorem ffma_yields (f : FmaForm)
    (ok : (formDABC x && regsOk s.g [fRegs (orderOf t s.g) x.d, fRegs (orderOf t s.g) x.a, fRegs (orderOf t s.g) x.b, fRegs (orderOf t s.g) x.c]) = true)
    (read : readable s.g x [fReads (orderOf t s.g) x.a, fReads (orderOf t s.g) x.b, fReads (orderOf t s.g) x.c]) :
    yields (.ffma f t x) t x s (arith3 f t x (orderAt t s.g x) s.g) := by
  obtain ⟨⟨d, a, b, c⟩, rd, ra, rb, rc⟩ := okF3_parts ok
  have hk := orderOf_lt t s.g
  have hlen : ∀ k g i, (arith3 f t x k g i).length = k + 1 := by
    intro k g i
    unfold arith3
    split
    · rw [length_elemwise, ‹k = 0›]
    · exact length_build _ k
  have local_ : Local (arith3 f t x (orderOf t s.g)) := by
    intro g h i ag
    unfold arith3
    rw [agree_fmt ag, agree_readJet ag x (jet_fits hk ra), agree_readJet ag x (jet_fits hk rb), agree_readJet ag x (jet_fits hk rc)]
  have once : x.u = true → ∀ i, arith3 f t x 0 s.g i = arith3 f t x 0 s.g 0 := by
    intro hu i
    unfold arith3
    rw [readJet_uni a hu s.g i, readJet_uni b hu s.g i, readJet_uni c hu s.g i]
  obtain ⟨u, hu, result⟩ := runFloat_result (val := arith3 f t x) d rd (hlen _) (fun _ => local_) once read
  refine ⟨u, ?_, result⟩
  change execFfma f t x s = _
  rw [← hu, execFfma, ok, orderOk_of checks, checks.2 rfl]
  rfl

theorem ffma_elements (f : FmaForm) (zero : orderAt t s.g x = 0)
    (ok : (formDABC x && regsOk s.g [fRegs (orderOf t s.g) x.d, fRegs (orderOf t s.g) x.a, fRegs (orderOf t s.g) x.b, fRegs (orderOf t s.g) x.c]) = true)
    (read : readable s.g x [fReads (orderOf t s.g) x.a, fReads (orderOf t s.g) x.b, fReads (orderOf t s.g) x.c]) :
    yields (.ffma f t x) t x s (fun i => elemwise t (fun e => roundTy t x.md.toNat s.g.fmt (addV x.md.toNat
      (mulV (if f = .nm ∨ f = .nms then negV (elemSrc t s.g.fmt (nth 0 (readJet s.g x i 0 x.a) 0) e)
        else elemSrc t s.g.fmt (nth 0 (readJet s.g x i 0 x.a) 0) e) (elemSrc t s.g.fmt (nth 0 (readJet s.g x i 0 x.b) 0) e))
      (if f = .ms ∨ f = .nms then negV (elemSrc t s.g.fmt (nth 0 (readJet s.g x i 0 x.c) 0) e)
        else elemSrc t s.g.fmt (nth 0 (readJet s.g x i 0 x.c) 0) e)))) := by
  have h := ffma_yields checks f ok read
  rw [zero] at h
  unfold arith3 at h
  simp only [negates_product, negates_addend, decide_eq_true_eq] at h
  exact h

theorem ffma_jets (f : FmaForm) {k : Nat} (order : orderAt t s.g x = k) (pos : k ≠ 0)
    (ok : (formDABC x && regsOk s.g [fRegs (orderOf t s.g) x.d, fRegs (orderOf t s.g) x.a, fRegs (orderOf t s.g) x.b, fRegs (orderOf t s.g) x.c]) = true)
    (read : readable s.g x [fReads (orderOf t s.g) x.a, fReads (orderOf t s.g) x.b, fReads (orderOf t s.g) x.c]) :
    yields (.ffma f t x) t x s (fun i => fmaSeries k x.md.toNat s.g.fmt (f == .nm || f == .nms) (f == .ms || f == .nms) (readJet s.g x i k x.a)
      (readJet s.g x i k x.b) (readJet s.g x i k x.c)) := by
  have h := ffma_yields checks f ok read
  have series : arith3 f t x k s.g = fun i => fmaSeries k x.md.toNat s.g.fmt (f == .nm || f == .nms) (f == .ms || f == .nms)
    (readJet s.g x i k x.a) (readJet s.g x i k x.b) (readJet s.g x i k x.c) := funext fun i => if_neg pos
  rwa [order, series] at h

end

/-! #### The coefficients of the series -/

section
variable (k m : Nat) (fmt : DWord) (a b : List Nat)

theorem length_addSeries {sub : Bool} : (addSeries k m fmt sub a b).length = k + 1 := length_build _ k

theorem length_mulSeries : (mulSeries k m fmt a b).length = k + 1 := length_build _ k

theorem length_divSeries : (divSeries k m fmt a b).length = k + 1 := length_build _ k

variable {k} {j : Nat} (hj : j ≤ k)
include hj

theorem nth_addSeries (sub : Bool) : nth (0, 0) (addSeries k m fmt sub a b) j =
    flushOut fmt (stepF m fmt (addV m (cA fmt a j) (if sub then negV (cA fmt b j) else cA fmt b j))) := nth_build _ hj

theorem nth_mulSeries : nth (0, 0) (mulSeries k m fmt a b) j = chain m fmt none (prodTerms fmt false a b j) none := nth_build _ hj

theorem nth_divSeries : nth (0, 0) (divSeries k m fmt a b) j =
    if j = 0 then flushOut fmt (stepF m fmt (divV (cA fmt a 0) (cA fmt b 0)))
    else chain m fmt (some (srcInit fmt (nth 0 a j)))
      ((List.range j).map (fun l => mulV (negV (cA fmt b (l + 1))) (coefV (nth (0, 0) (divSeries k m fmt a b) (j - (l + 1))).1)))
      (some (fun t => divV t (cA fmt b 0))) := by
  have terms : ∀ y : List CoefRes, (upTo j).map (fun l => mulV (negV (cA fmt b l)) (cY (y.take j) (j - l))) =
      (List.range j).map (fun l => mulV (negV (cA fmt b (l + 1))) (coefV (nth (0, 0) y (j - (l + 1))).1)) := by
    intro y
    rw [upTo, List.map_map]
    refine List.map_congr_left fun l hl => ?_
    rw [List.mem_range] at hl
    simp only [Function.comp, cY]
    rw [nth_take _ _ (by omega)]
  rw [← terms]
  exact nth_build _ hj

theorem nth_fmaSeries (f : FmaForm) (c : List Nat) :
    nth (0, 0) (fmaSeries k m fmt (f == .nm || f == .nms) (f == .ms || f == .nms) a b c) j =
      chain m fmt (some (if (f = .ms ∨ f = .nms) ∧ isNaN fp32 (srcInit fmt (nth 0 c j)).1 = false then (srcInit fmt (nth 0 c j)).1 ^^^ 0x80000000
          else (srcInit fmt (nth 0 c j)).1, (srcInit fmt (nth 0 c j)).2))
        ((List.range (j + 1)).map (fun l => mulV (if f = .nm ∨ f = .nms then negV (cA fmt a l) else cA fmt a l) (cA fmt b (j - l)))) none := by
  have addend : ∀ c : Nat, (if f = .ms ∨ f = .nms then (if isNaN fp32 c = true then c else c ^^^ 0x80000000) else c) =
      if (f = .ms ∨ f = .nms) ∧ isNaN fp32 c = false then c ^^^ 0x80000000 else c := by
    intro c
    by_cases hc : f = .ms ∨ f = .nms <;> cases hn : isNaN fp32 c <;> simp [hc]
  rw [fmaSeries, nth_build _ hj, ← addend]
  simp only [prodTerms, negates_product, negates_addend, decide_eq_true_eq]

end

/-! #### The statement -/

theorem exec_fadd (t : Ty) (x : Fields) (s : State) :
    exec (.fadd t x) s = runArith2 t x (fun m a b => addV m a b) (fun k m f a b => addSeries k m f false a b) s := rfl

theorem exec_fsub (t : Ty) (x : Fields) (s : State) :
    exec (.fsub t x) s = runArith2 t x (fun m a b => addV m a (negV b)) (fun k m f a b => addSeries k m f true a b) s := rfl

theorem exec_fmul (t : Ty) (x : Fields) (s : State) : exec (.fmul t x) s = runArith2 t x (fun _ a b => mulV a b) mulSeries s := rfl

theorem exec_fdiv (t : Ty) (x : Fields) (s : State) : exec (.fdiv t x) s = runArith2 t x (fun _ a b => divV a b) divSeries s := rfl

/-- Settles O16: a floating-point instruction writes in turn what each strand computes from its own registers, and the series are built
coefficient by coefficient. -/
theorem floatArithmetic : Obligations.FloatArithmetic := by
  refine ⟨fun ty x s zero checks => ⟨fun ok read => ⟨fun _ => ?_, fun _ => ?_, fun _ => ?_, fun _ => ?_⟩, fun ok read f _ => ?_⟩, ?_⟩
  · have h := runArith2_elements checks (exec_fadd ty x s) (length_addSeries (sub := false)) zero ok read
    exact h
  · have h := runArith2_elements checks (exec_fsub ty x s) (length_addSeries (sub := true)) zero ok read
    exact h
  · have h := runArith2_elements checks (exec_fmul ty x s) length_mulSeries zero ok read
    exact h
  · have h := runArith2_elements checks (exec_fdiv ty x s) length_divSeries zero ok read
    exact h
  · have h := ffma_elements checks f zero ok read
    exact h
  · intro x s hu hjord hfmt m k fmt a b coefs
    have checks : orderFmtOk .f32 s.g true := ⟨.inl rfl, fun _ => hfmt⟩
    have order : orderAt .f32 s.g x = k := by rw [orderAt, if_neg (by rw [hu]; exact Bool.false_ne_true)]; rfl
    have pos : k ≠ 0 := fun e => hjord (BitVec.eq_of_toNat_eq e)
    refine ⟨fun ok read => ⟨fun _ => ?_, fun _ => ?_, fun _ => ?_, fun _ => ?_⟩, fun ok read f _ => ?_⟩
    · exact ⟨_, runArith2_jets checks (exec_fadd .f32 x s) (length_addSeries (sub := false)) order pos ok read,
        fun i => ⟨length_addSeries _ _ _ _ _, fun j hj => nth_addSeries m fmt _ _ hj false⟩⟩
    · exact ⟨_, runArith2_jets checks (exec_fsub .f32 x s) (length_addSeries (sub := true)) order pos ok read,
        fun i => ⟨length_addSeries _ _ _ _ _, fun j hj => nth_addSeries m fmt _ _ hj true⟩⟩
    · exact ⟨_, runArith2_jets checks (exec_fmul .f32 x s) length_mulSeries order pos ok read,
        fun i => ⟨length_mulSeries _ _ _ _ _, fun j hj => nth_mulSeries m fmt _ _ hj⟩⟩
    · exact ⟨_, runArith2_jets checks (exec_fdiv .f32 x s) length_divSeries order pos ok read,
        fun i => ⟨length_divSeries _ _ _ _ _, fun j hj => nth_divSeries m fmt _ _ hj⟩⟩
    · exact ⟨_, ffma_jets checks f order pos ok read,
        fun i => ⟨length_build _ k, fun j hj => nth_fmaSeries m fmt _ _ hj f _⟩⟩

end Sys2Proof.NumberFormats

/-! ### One conversion (R17, R18, R30, R31, R151) -/

namespace Sys2Proof.NumberFormats

open Sys2Proof Sys2Proof.Machine Sys2Proof.Safety Sys2Proof.Laws

theorem elemVal_patternOf {t : Ty} {v : Int} (lo : tyMin t ≤ v) (hi : v ≤ tyMax t) : elemVal t (patternOf (elemWidth t) v) 0 = v := by
  rw [elemVal, elemAt, Nat.mul_zero, pow_zero, Nat.div_one, Nat.mod_eq_of_lt (patternOf_lt _ _), pattern_of_range lo hi]

theorem cvt_range (t : Ty) : tyMin t ≤ cvtMin t ∧ cvtMin t ≤ 0 ∧ 0 ≤ cvtMax t := by cases t <;> decide

/-- The target's values: from its least to its greatest. -/
theorem elemVal_cvt {t : Ty} {v : Int} (lo : cvtMin t ≤ v) (hi : v ≤ cvtMax t) : elemVal t (patternOf (elemWidth t) v) 0 = v :=
  elemVal_patternOf ((cvt_range t).1.trans lo) hi

/-- An integer in an integer format, saturating. -/
theorem clampTo_spec (t : Ty) (v : Int) : elemVal t (clampTo t v).1 0 = max (cvtMin t) (min (cvtMax t) v) ∧
    (clampTo t v).2 = if elemVal t (clampTo t v).1 0 = v then 0 else flagInvalid := by
  obtain ⟨-, lo, hi⟩ := cvt_range t
  unfold clampTo
  split
  · rw [elemVal_cvt le_rfl (lo.trans hi), if_neg (by omega)]
    exact ⟨by omega, rfl⟩
  · split
    · rw [elemVal_cvt (lo.trans hi) le_rfl, if_neg (by omega)]
      exact ⟨by omega, rfl⟩
    · rw [elemVal_cvt (by omega) (by omega), if_pos rfl]
      exact ⟨by omega, rfl⟩

/-- A finite value in an integer format. -/
theorem floatToInt_num (t : Ty) (m : Nat) (neg : Bool) (n d : Nat) (e : Int) :
    let v : Int := if neg then -(roundAt m neg n d e 0).1 else (roundAt m neg n d e 0).1
    let r := floatToInt t m (.num neg n d e)
    elemVal t r.1 0 = max (cvtMin t) (min (cvtMax t) v) ∧
    r.2 = if elemVal t r.1 0 ≠ v then flagInvalid else if (roundAt m neg n d e 0).2 then flagInexact else 0 := by
  intro v r
  obtain ⟨value, flag⟩ := clampTo_spec t v
  have pattern : r.1 = (clampTo t v).1 := rfl
  have flags : r.2 = if (clampTo t v).2 = 0 then (if (roundAt m neg n d e 0).2 then flagInexact else 0) else (clampTo t v).2 := rfl
  rw [pattern, flags, flag]
  refine ⟨value, ?_⟩
  by_cases same : elemVal t (clampTo t v).1 0 = v
  · rw [if_pos same, if_neg (not_not.mpr same), if_pos rfl]
  · rw [if_neg same, if_pos same, if_neg (by decide)]

theorem floatToInt_inf (t : Ty) (m : Nat) (neg : Bool) :
    elemVal t (floatToInt t m (.inf neg)).1 0 = (if neg then cvtMin t else cvtMax t) ∧ (floatToInt t m (.inf neg)).2 = flagInvalid := by
  obtain ⟨-, lo, hi⟩ := cvt_range t
  refine ⟨?_, rfl⟩
  cases neg with
  | true => exact elemVal_cvt le_rfl (lo.trans hi)
  | false => exact elemVal_cvt (lo.trans hi) le_rfl

theorem floatToInt_nan (t : Ty) (m : Nat) : elemVal t (floatToInt t m .nan).1 0 = 0 ∧ (floatToInt t m .nan).2 = flagInvalid := by
  obtain ⟨-, lo, hi⟩ := cvt_range t
  have zero : patternOf (elemWidth t) 0 = 0 := by rw [patternOf, Int.zero_emod, Int.toNat_zero]
  have value := elemVal_cvt lo hi
  rw [zero] at value
  exact ⟨value, rfl⟩

/-! #### Where a conversion writes -/

theorem agree_readTy_of {keep : Bool} {i : Nat} {g h : Group} (a : agree keep i g h) (t : Ty) (x : Fields) {o : Opnd}
    (fits : isWide t = true → opIdx o + 1 < 256 ∨ isV o = false) : readTy t h x i o = readTy t g x i o := by
  rw [readTy, readTy, agree_read32 a]
  split
  · rw [agree_read64 a x (fits ‹_›)]
  · rfl

/-- The registers of a source of a conversion exist. -/
theorem cvt_pair {g : Group} {k : Nat} {t : Ty} {o : Opnd} (h : regOk g o (cvtRegs k t o).2 = true) (wide : isWide t = true) :
    opIdx o + 1 < 256 ∨ isV o = false := by
  have two : (cvtRegs k t o).2 = 2 := by
    have other : (t == .f32) = false := beq_eq_false_iff_ne.mpr (by rintro rfl; cases wide)
    rw [cvtRegs, other, regCount, wide]
    rfl
  rw [two] at h
  exact pair_lt h

theorem length_cvtWords (k : Nat) (dst : Ty) (d : Opnd) (r : CoefRes) :
    (cvtWords k dst d r).length = if dst = .f32 ∧ isV d = true then k + 1 else regCount dst := by
  simp only [cvtWords, Bool.and_eq_true, beq_iff_eq]
  split
  · rw [List.length_cons, List.length_replicate]
  · exact length_wordsTy dst r.1

/-- The registers of the destination of a conversion exist. -/
theorem cvt_fits {g : Group} {k : Nat} (hk : k < 4) {dst : Ty} {x : Fields} (d : isDst x x.d = true) (h : regOk g x.d (cvtRegs k dst x.d).2 = true) :
    opIdx x.d + (if dst = .f32 ∧ isV x.d = true then k + 1 else regCount dst) ≤ 256 := by
  by_cases jet : dst = .f32 ∧ isV x.d = true
  · have regs : (cvtRegs k dst x.d).2 = jetRegs k := by rw [cvtRegs, jet.1, jet.2]; rfl
    rw [regs] at h
    have := regOk_lt (jetRegs_cases k) (isDst_vs d) h
    have := lt_jetRegs hk
    rw [if_pos jet]
    omega
  · have regs : (cvtRegs k dst x.d).2 = regCount dst := by
      unfold cvtRegs
      by_cases f : dst = .f32
      · have s : isV x.d = false := by simpa [f] using jet
        rw [f, s]
        rfl
      · simp [f]
    rw [regs] at h
    rw [if_neg jet]
    exact regOk_lt (regCount_cases dst) (isDst_vs d) h

/-- A conversion of one result (R149 to R152). -/
theorem runCvt_one {dst src : Ty} {x : Fields} {srcs : List (Opnd × Nat)} {r : Group → Nat → CoefRes} {s : State}
    (fmt : cvtReadsFmt dst src = true → fmtBad s.g.fmt = false) (d : isDst x x.d = true)
    (fits : opIdx x.d + (if dst = .f32 ∧ isV x.d = true then s.g.jord.toNat + 1 else regCount dst) ≤ 256)
    (local_ : x.u = false → Local r) (once : x.u = true → ∀ i, r s.g i = r s.g 0) (read : readable s.g x srcs) :
    ∃ t, runCvt dst src x true srcs [x.d] (fun g i => [r g i]) s = .next t ∧
      FloatResult x (if dst = .f32 ∧ isV x.d = true then s.g.jord.toNat + 1 else regCount dst) (fun i => cvtWords s.g.jord.toNat dst x.d (r s.g i))
        (fun i => (r s.g i).2.zeroExtend 20) s t := by
  have checked : (!(cvtReadsFmt dst src && fmtBad s.g.fmt)) = true := by
    cases reads : cvtReadsFmt dst src with
    | false => rfl
    | true => rw [fmt reads]; rfl
  have run : runCvt dst src x true srcs [x.d] (fun g i => [r g i]) s =
      runAlu x true srcs (fun g => orJx ((r g 0).2.zeroExtend 20) (writeUni g x.d (cvtWords s.g.jord.toNat dst x.d (r g 0))))
        (fun i g => orJx ((r g i).2.zeroExtend 20) (writeRegs g i x.d (cvtWords s.g.jord.toNat dst x.d (r g i)))) s := by
    simp only [runCvt, need, checked, if_true, List.zip_cons_cons, List.zip_nil_left, List.foldl_cons, List.foldl_nil, raise_zero, writeUni_orJx,
      writeRegs_orJx]
  rw [run]
  exact runAlu_floatResult (words := fun g i => cvtWords s.g.jord.toNat dst x.d (r g i)) (fl := fun g i => (r g i).2.zeroExtend 20) d fits
    (fun g i => length_cvtWords _ _ _ _) (fun hu g h i a => by simp only [local_ hu g h i a]) (fun hu g h i a => by simp only [local_ hu g h i a])
    (fun hu i => by simp only [once hu i]) read

end Sys2Proof.NumberFormats

/-! ### Packing and unpacking (R150, R152), and O19 -/

namespace Sys2Proof.NumberFormats

open Sys2Proof Sys2Proof.Machine Sys2Proof.Safety Sys2Proof.Laws

/-! #### Two results, one jet group each -/

/-- The words of a result that fills a jet group up to order `k` (R152). -/
def jetWords (k : Nat) (w : Word) : List Word := w :: List.replicate k 0

theorem nth_jetWords (k : Nat) (w : Word) (j : Nat) : nth 0 (jetWords k w) j = if j = 0 then w else 0 := by
  cases j with
  | zero => rfl
  | succ j =>
    have : nth (0 : Word) (List.replicate k 0) j = 0 := by
      simp only [nth, List.getElem?_replicate]
      split <;> rfl
    exact this

/-- Register `q` after two groups of `step` registers have been written from `d` up to order `k`, where `P` holds. -/
theorem two_groups {P : Prop} [Decidable P] {d step k q : Nat} (hk : k < step) (f : Nat → Word) (old : Word) :
    (if P ∧ d + step ≤ q ∧ q < d + step + (k + 1) then nth 0 (jetWords k (f 1)) (q - (d + step))
      else if P ∧ d ≤ q ∧ q < d + (k + 1) then nth 0 (jetWords k (f 0)) (q - d) else old) =
    if P ∧ d ≤ q ∧ q < d + 2 * step ∧ (q - d) % step ≤ k then (if (q - d) % step = 0 then f ((q - d) / step) else 0) else old := by
  by_cases hP : P
  swap
  · simp [hP]
  have pos : 0 < step := by omega
  simp only [hP, true_and, nth_jetWords]
  rcases lt_or_ge q d with below | above
  · rw [if_neg (by omega), if_neg (by omega), if_neg (by omega)]
  rcases lt_or_ge q (d + step) with first | later
  · rw [Nat.mod_eq_of_lt (by omega), Nat.div_eq_of_lt (by omega), if_neg (by omega)]
    by_cases hq : q - d ≤ k
    · rw [if_pos (show d ≤ q ∧ q < d + (k + 1) by omega), if_pos (show d ≤ q ∧ q < d + 2 * step ∧ q - d ≤ k by omega)]
    · rw [if_neg (by omega), if_neg (by omega)]
  rcases lt_or_ge q (d + 2 * step) with second | after
  · have div : (q - d) / step = 1 := Nat.div_eq_of_lt_le (by omega) (by omega)
    have mod : (q - d) % step = q - (d + step) := by
      rw [Nat.mod_eq_sub_mod (by omega), Nat.mod_eq_of_lt (by omega)]
      omega
    rw [div, mod]
    by_cases hq : q - (d + step) ≤ k
    · rw [if_pos (show d + step ≤ q ∧ q < d + step + (k + 1) by omega),
        if_pos (show d ≤ q ∧ q < d + 2 * step ∧ q - (d + step) ≤ k by omega)]
    · rw [if_neg (by omega), if_neg (by omega), if_neg (by omega)]
  · rw [if_neg (by omega), if_neg (by omega), if_neg (by omega)]

theorem vGet_vSets_two (g : Group) (i : Nat) {d step k q : Nat} (hk : k < step) (f : Nat → Word) :
    vGet (vSets (vSets g i d (jetWords k (f 0))) i (d + step) (jetWords k (f 1))) i q =
      if d ≤ q ∧ q < d + 2 * step ∧ (q - d) % step ≤ k then (if (q - d) % step = 0 then f ((q - d) / step) else 0) else vGet g i q := by
  have h := two_groups (P := True) (d := d) (q := q) hk f (vGet g i q)
  simp only [true_and] at h
  rw [← h, vGet_vSets_self, vGet_vSets_self]
  simp only [jetWords, List.length_cons, List.length_replicate]

theorem castList_writeUni_v (g : Group) (n : BitVec 8) (l : List Word) : castList (writeUni g (.v n) l) = castList g := by
  have frame : writeUni g (.v n) l = { g with v := (writeUni g (.v n) l).v, vPoison := (writeUni g (.v n) l).vPoison } :=
    frame_of_back (foldl_vSets_back n.toNat l (castList g) g)
  rw [frame]
  rfl

/-- The two writes of an unpacking. -/
def writeTwo (w : Group → Opnd → List Word → Group) (k : Nat) (d d' : Opnd) (f : Nat → Word) (g : Group) : Group :=
  w (w g d (jetWords k (f 0))) d' (jetWords k (f 1))

/-- The words that the two results of an unpacking write. -/
def unpackWord (r : Nat → CoefRes) (e : Nat) : Word := BitVec.ofNat 32 (r e).1

/-- The flags of the two results. -/
def unpackFlags (r : Nat → CoefRes) : BitVec 20 := (r 0).2.zeroExtend 20 ||| (r 1).2.zeroExtend 20

theorem getLsbD_unpackFlags (r : Nat → CoefRes) (n : Nat) :
    (unpackFlags r).getLsbD n = true ↔ ∃ e, e < 2 ∧ ((r e).2.zeroExtend 20).getLsbD n = true := by
  rw [unpackFlags, BitVec.getLsbD_or, Bool.or_eq_true]
  constructor
  · rintro (h | h)
    · exact ⟨0, Nat.zero_lt_two, h⟩
    · exact ⟨1, Nat.one_lt_two, h⟩
  · rintro ⟨e, he, h⟩
    interval_cases e
    · exact .inl h
    · exact .inr h

/-- The result of element `e` of strand `i` of an unpacking. -/
def unpackOne (src : Ty) (x : Fields) (g : Group) (i e : Nat) : CoefRes :=
  roundTy .f32 x.md.toNat g.fmt (elemSrc src g.fmt (readTy src g x i x.a) e)

theorem local_unpackOne {src : Ty} (narrow : isWide src = false) (x : Fields) : Local (unpackOne src x) := by
  intro g h i a
  funext e
  have read := agree_readTy_of a src x (o := x.a) (fun wide => by rw [narrow] at wide; cases wide)
  rw [unpackOne, unpackOne, agree_fmt a, read]

theorem writeTwo_orJx {w : Group → Opnd → List Word → Group} (hw : ∀ f g o l, w (orJx f g) o l = orJx f (w g o l)) (k : Nat) (d d' : Opnd)
    (r : Nat → Word) (f : BitVec 20) (g : Group) : writeTwo w k d d' r (orJx f g) = orJx f (writeTwo w k d d' r g) := by
  rw [writeTwo, hw, hw, writeTwo]

theorem not_packs_of_unpacks {dst src : Ty} (h : cvtUnpacks dst src = true) : cvtPacks dst src = false := by
  have f32 : dst = .f32 := by
    simp only [cvtUnpacks, Bool.and_eq_true, beq_iff_eq] at h
    exact h.1
  rw [f32, cvtPacks, Bool.and_eq_false_iff]
  exact .inr rfl

theorem unpacks_types {dst src : Ty} (h : cvtUnpacks dst src = true) : dst = .f32 ∧ (src = .bf16x2 ∨ src = .f16x2) := by
  simpa [cvtUnpacks] using h

/-- An unpacking (R150, R152). -/
theorem execCvt_unpack {dst src : Ty} {x : Fields} {s : State} (unpacks : cvtUnpacks dst src = true)
    (fmt : fmtBad s.g.fmt = false) {d d' : Opnd} (hd : x.d = d) (hd' : opPlus d (jetRegs s.g.jord.toNat) = d') {n : Nat}
    (words : ∀ r o, o = d ∨ o = d' → cvtWords s.g.jord.toNat dst o r = jetWords n (BitVec.ofNat 32 r.1))
    (ok : (formDA x && decide (opIdx x.d + jetRegs s.g.jord.toNat < 256) && regsOk s.g [fRegs s.g.jord.toNat d, (x.a, 1)] &&
      regsOk s.g [fRegs s.g.jord.toNat d', (x.a, 1)]) = true) :
    execCvt dst src x s = runAlu x true [(x.a, 1)]
      (fun g => orJx (unpackFlags (unpackOne src x g 0)) (writeTwo writeUni n d d' (unpackWord (unpackOne src x g 0)) g))
      (fun i g => orJx (unpackFlags (unpackOne src x g i)) (writeTwo (fun g => writeRegs g i) n d d' (unpackWord (unpackOne src x g i)) g)) s := by
  subst hd hd'
  simp only [execCvt, not_packs_of_unpacks unpacks, unpacks, if_true, Bool.false_eq_true, if_false, ok, runCvt, need, fmt, Bool.and_false, Bool.not_false]
  have two : ∀ f : Nat → CoefRes, (List.range 2).map f = [f 0, f 1] := fun f => rfl
  simp only [two, List.zip_cons_cons, List.zip_nil_left, List.foldl_cons, List.foldl_nil, raise_zero, writeUni_orJx, writeRegs_orJx, orJx_orJx,
    words _ _ (.inl rfl), words _ _ (.inr rfl)]
  rfl

/-! #### An unpacking into v registers -/

/-- Strand `i` receives the result, decided (R40, R43). -/
def receivesB (g : Group) (x : Fields) (i : Nat) : Bool :=
  if x.u then holdsQ g x && decide (i ∈ castList g) else decide (i ∈ execList g x)

theorem own_of_pointwise {i : Nat} {W : Group → Group} (h : ∀ g, ∃ A, Own true i A ∧ W g = A g) : Own true i W where
  other g j hj lt := by
    obtain ⟨A, own, e⟩ := h g
    exact e ▸ own.other g j hj lt
  rest g := by
    obtain ⟨A, own, e⟩ := h g
    rw [e]
    exact own.rest g
  poison g k hk := by
    obtain ⟨A, own, e⟩ := h g
    exact own.poison g k (e ▸ hk)

theorem own_comp {i : Nat} {A B : Group → Group} (a : Own true i A) (b : Own true i B) : Own true i (fun g => B (A g)) where
  other g j hj lt := agree_trans (a.other g j hj lt) (b.other (A g) j hj lt)
  rest g := by
    have h1 := a.rest g
    have h2 := b.rest (A g)
    rw [← h2] at h1
    exact h1
  poison g k hk := a.poison g k (b.poison (A g) k hk)

theorem inTurn_back {W : Nat → Group → Group} (h : ∀ i g, { W i g with v := g.v, vPoison := g.vPoison } = g) (l : List Nat) (g : Group) :
    { inTurn W l g with v := g.v, vPoison := g.vPoison } = g := by
  induction l generalizing g with
  | nil => rfl
  | cons i l ih =>
    have h2 := ih (W i g)
    have h1 := h i g
    rw [← h2] at h1
    exact h1

theorem writeTwo_v_back (d d' : BitVec 8) (k i : Nat) (f : Nat → Word) (g : Group) :
    { writeTwo (fun g => writeRegs g i) k (.v d) (.v d') f g with v := g.v, vPoison := g.vPoison } = g := by
  simp only [writeTwo, writeRegs]
  rw [vSets_frame, vSets_frame]

section
variable {d d' : BitVec 8} {k step : Nat} (hk : k < step) (next : d'.toNat = d.toNat + step) (fits : d.toNat + 2 * step ≤ 256)
include hk next fits

theorem writes_writeTwo {i : Nat} (hi : i < 64) {r : Group → Nat → Nat → CoefRes} (local_ : Local r) :
    Writes i (fun g => writeTwo (fun g => writeRegs g i) k (.v d) (.v d') (unpackWord (r g i)) g) where
  own := by
    have len : ∀ w, (jetWords k w).length = k + 1 := fun w => by rw [jetWords, List.length_cons, List.length_replicate]
    have own : ∀ (e : BitVec 8), e.toNat + (k + 1) ≤ 256 → ∀ w, Own true i (fun g => writeRegs g i (.v e) (jetWords k w)) :=
      fun e he w => own_writeRegs hi rfl he (fun _ => jetWords k w) fun _ => len w
    exact own_of_pointwise fun g => ⟨_, own_comp (own d (by omega) (unpackWord (r g i) 0)) (own d' (by omega) (unpackWord (r g i) 1)), rfl⟩
  flags f g := by
    have same : r (orJx f g) i = r g i := local_ g (orJx f g) i (agree_orJx i f g)
    rw [same]
    exact writeTwo_orJx (fun f g o l => writeRegs_orJx f g i o l) k (.v d) (.v d') _ f g

/-- What unpacking leaves, and the registers it fills, in the strands that receive it. -/
theorem ran_writeTwo_v {x : Fields} {g : Group} {r : Group → Nat → Nat → CoefRes} (local_ : Local r) (once : x.u = true → ∀ i, r g i = r g 0) :
    let G := ran x (fun g => writeTwo writeUni k (.v d) (.v d') (unpackWord (r g 0)) g)
      (fun i g => writeTwo (fun g => writeRegs g i) k (.v d) (.v d') (unpackWord (r g i)) g) g
    G = { g with v := G.v, vPoison := G.vPoison } ∧ ∀ i q, i < 64 → q < 256 → vGet G i q =
      if receivesB g x i = true ∧ d.toNat ≤ q ∧ q < d.toNat + 2 * step ∧ (q - d.toNat) % step ≤ k then
        (if (q - d.toNat) % step = 0 then unpackWord (r g i) ((q - d.toNat) / step) else 0)
      else vGet g i q := by
  intro G
  cases hu : x.u with
  | false =>
    have hG : G = inTurn (fun i g => writeTwo (fun g => writeRegs g i) k (.v d) (.v d') (unpackWord (r g i)) g) (execList g x) g := by
      simp only [G, ran, hu, Bool.false_eq_true, if_false]
    have writes : ∀ i ∈ execList g x, Own true i (fun g => writeTwo (fun g => writeRegs g i) k (.v d) (.v d') (unpackWord (r g i)) g) :=
      fun i hi => (writes_writeTwo hk next fits (lt_of_mem_execList hi) local_).own
    refine ⟨frame_of_back ?_, fun i q hi hq => ?_⟩
    · rw [hG]
      exact inTurn_back (fun i g => writeTwo_v_back d d' k i (unpackWord (r g i)) g) (execList g x) g
    · have receives : receivesB g x i = decide (i ∈ execList g x) := by simp [receivesB, hu]
      rw [hG, receives]
      simp only [decide_eq_true_eq]
      by_cases hm : i ∈ execList g x
      · obtain ⟨h, before, after⟩ := inTurn_own _ _ g writes (nodup_execList g x) hi hm
        have same : r h i = r g i := local_ g h i (agree_weaken before)
        rw [agree_v after hq]
        simp only [hm, true_and, writeTwo, writeRegs, same, next]
        rw [vGet_vSets_two h i hk, agree_v before hq]
      · rw [agree_v (inTurn_other _ _ g writes hi hm) hq, if_neg fun c => hm c.1]
  | true =>
    cases hq : holdsQ g x with
    | false =>
      have hG : G = g := by simp [G, ran, hu, hq]
      refine ⟨by rw [hG], fun i q _ _ => ?_⟩
      rw [hG, receivesB, hu, hq, if_neg fun c => Bool.false_ne_true c.1]
    | true =>
      have hG : G = writeTwo writeUni k (.v d) (.v d') (unpackWord (r g 0)) g := by simp [G, ran, hu, hq]
      have len : ∀ w, (jetWords k w).length = k + 1 := fun w => by rw [jetWords, List.length_cons, List.length_replicate]
      obtain ⟨frame, first⟩ := writeUni_v g d (jetWords k (unpackWord (r g 0) 0)) (by rw [len]; omega)
      have cast := castList_writeUni_v g d (jetWords k (unpackWord (r g 0) 0))
      obtain ⟨frame', second⟩ := writeUni_v (writeUni g (.v d) (jetWords k (unpackWord (r g 0) 0))) d' (jetWords k (unpackWord (r g 0) 1)) (by rw [len]; omega)
      refine ⟨?_, fun i q hi hq' => ?_⟩
      · rw [hG, writeTwo, frame', frame]
      · have receives : receivesB g x i = decide (i ∈ castList g) := by simp [receivesB, hu, hq]
        rw [hG, receives]
        simp only [decide_eq_true_eq]
        rw [writeTwo, second i q hq', first i q hq', cast, len, len, next, once hu i]
        exact two_groups hk (unpackWord (r g 0)) (vGet g i q)

end

end Sys2Proof.NumberFormats

/-! ### The statement of O19 -/

namespace Sys2Proof.NumberFormats

open Sys2Proof Sys2Proof.Machine Sys2Proof.Safety Sys2Proof.Laws

theorem toNat_add_ofNat {d : BitVec 8} {n : Nat} (h : d.toNat + n < 256) : (d + BitVec.ofNat 8 n).toNat = d.toNat + n := by
  rw [BitVec.toNat_add, BitVec.toNat_ofNat, Nat.add_mod_mod, Nat.mod_eq_of_lt h]

theorem formDA_parts {x : Fields} (h : formDA x = true) : isDst x x.d = true ∧ isSrc x x.a = true := by
  simpa only [formDA, Bool.and_eq_true] using h

theorem unpackOne_once {src : Ty} {x : Fields} {g : Group} (a : isSrc x x.a = true) (hu : x.u = true) (i : Nat) :
    unpackOne src x g i = unpackOne src x g 0 := by
  funext e
  rw [unpackOne, unpackOne, readTy_uni (isSrc_uni a hu) src i 0]

section
variable {src : Ty} {x : Fields} {s : State}

/-- The flags that an unpacking raises (R56). -/
theorem unpack_raised {G : Group} (jx : G.jx = s.g.jx) (n : Nat) :
    (setG (advance (orJx (raised x s.g (fun i => unpackFlags (unpackOne src x s.g i))) G)) s).g.jx.getLsbD n = true ↔ (s.g.jx.getLsbD n = true ∨
      (if x.u then holdsQ s.g x = true ∧ ∃ e, e < 2 ∧ ((unpackOne src x s.g 0 e).2.zeroExtend 20).getLsbD n = true
        else ∃ i ∈ execList s.g x, ∃ e, e < 2 ∧ ((unpackOne src x s.g i e).2.zeroExtend 20).getLsbD n = true)) := by
  have raise : (setG (advance (orJx (raised x s.g (fun i => unpackFlags (unpackOne src x s.g i))) G)) s).g.jx =
      s.g.jx ||| raised x s.g (fun i => unpackFlags (unpackOne src x s.g i)) := by rw [← jx]; rfl
  rw [raise, BitVec.getLsbD_or, Bool.or_eq_true, getLsbD_raised]
  simp only [getLsbD_unpackFlags]

theorem advance_frame_v {G : Group} (h : G = { s.g with v := G.v, vPoison := G.vPoison }) (f : BitVec 20) :
    let t := setG (advance (orJx f G)) s
    t = setG { s.g with v := t.g.v, vPoison := t.g.vPoison, jx := t.g.jx, pc := s.g.pc + 12, ridx := 0, readTime := 0, midway := false } s := by
  rw [h]
  rfl

theorem advance_frame_s {G : Group} (h : G = { s.g with s := G.s }) (f : BitVec 20) :
    let t := setG (advance (orJx f G)) s
    t = setG { s.g with s := t.g.s, jx := t.g.jx, pc := s.g.pc + 12, ridx := 0, readTime := 0, midway := false } s := by
  rw [h]
  rfl

/-- What unpacking leaves in the uniform registers. -/
theorem ran_writeTwo_s {d d' : BitVec 8} {W : Nat → Group → Group} {f : Group → Nat → Word} {g : Group} (hu : x.u = true) (ne : d'.toNat ≠ d.toNat) :
    let G := ran x (fun g => writeTwo writeUni 0 (.s d) (.s d') (f g) g) W g
    G = { g with s := G.s } ∧ ∀ q, sGet G q =
      if holdsQ g x = true ∧ (q = d.toNat ∨ q = d'.toNat) then f g (if q = d.toNat then 0 else 1) else sGet g q := by
  intro G
  cases hq : holdsQ g x with
  | false =>
    have hG : G = g := by simp [G, ran, hu, hq]
    refine ⟨by rw [hG], fun q => ?_⟩
    rw [hG, if_neg fun c => Bool.false_ne_true c.1]
  | true =>
    have hG : G = writeTwo writeUni 0 (.s d) (.s d') (f g) g := by simp [G, ran, hu, hq]
    obtain ⟨frame, first⟩ := writeUni_s g d (jetWords 0 (f g 0))
    obtain ⟨frame', second⟩ := writeUni_s (writeUni g (.s d) (jetWords 0 (f g 0))) d' (jetWords 0 (f g 1))
    have len : ∀ w, (jetWords 0 w).length = 1 := fun w => rfl
    refine ⟨?_, fun q => ?_⟩
    · rw [hG, writeTwo, frame', frame]
    · rw [hG, writeTwo, second, first, len, len]
      rcases eq_or_ne q d'.toNat with rfl | other'
      · rw [if_pos (by omega), if_pos ⟨rfl, .inr rfl⟩, if_neg ne, Nat.sub_self, nth_jetWords, if_pos rfl]
      · rcases eq_or_ne q d.toNat with rfl | other
        · rw [if_neg (by omega), if_pos (by omega), if_pos ⟨rfl, .inl rfl⟩, if_pos rfl, Nat.sub_self, nth_jetWords, if_pos rfl]
        · rw [if_neg (by omega), if_neg (by omega), if_neg fun c => c.2.elim other other']

variable {dst : Ty} (unpacks : cvtUnpacks dst src = true) (fmt : fmtBad s.g.fmt = false)
include unpacks fmt

/-- Unpacking into v registers (R150, R152). -/
theorem unpack_v {d : BitVec 8} {k step : Nat} (hd : x.d = .v d) (hk : k = s.g.jord.toNat) (hstep : step = jetRegs k)
    (ok : (formDA x && decide (d.toNat + step < 256) && regsOk s.g [(x.d, step), (x.a, 1)] &&
      regsOk s.g [(.v (d + BitVec.ofNat 8 step), step), (x.a, 1)]) = true) (read : readable s.g x [(x.a, 1)]) :
    ∃ G, execCvt dst src x s = .next (setG (advance (orJx (raised x s.g (fun i => unpackFlags (unpackOne src x s.g i))) G)) s) ∧
      G = { s.g with v := G.v, vPoison := G.vPoison } ∧ ∀ i q, i < 64 → q < 256 → vGet G i q =
        if receivesB s.g x i = true ∧ d.toNat ≤ q ∧ q < d.toNat + 2 * step ∧ (q - d.toNat) % step ≤ k then
          (if (q - d.toNat) % step = 0 then unpackWord (unpackOne src x s.g i) ((q - d.toNat) / step) else 0)
        else vGet s.g i q := by
  subst hk hstep
  obtain ⟨rfl, hsrc⟩ := unpacks_types unpacks
  have narrow : isWide src = false := by rcases hsrc with rfl | rfl <;> rfl
  have parts := ok
  simp only [Bool.and_eq_true, decide_eq_true_eq] at parts
  obtain ⟨⟨⟨form, lt⟩, regs⟩, regs'⟩ := parts
  obtain ⟨-, a⟩ := formDA_parts form
  have next := toNat_add_ofNat lt
  have fits := regOk_lt (jetRegs_cases _) (.inl rfl) (regsOk_cons regs').1
  simp only [opIdx, next] at fits
  have small := lt_jetRegs (jord_lt s.g)
  have run := execCvt_unpack unpacks fmt hd (d' := .v (d + BitVec.ofNat 8 (jetRegs s.g.jord.toNat))) rfl (n := s.g.jord.toNat)
    (fun r o ho => by rcases ho with rfl | rfl <;> rfl)
    (by rw [hd] at ok ⊢; exact ok)
  rw [runAlu_orJx
    (U := fun g => writeTwo writeUni s.g.jord.toNat (.v d) (.v (d + BitVec.ofNat 8 (jetRegs s.g.jord.toNat))) (unpackWord (unpackOne src x g 0)) g)
    (fl := fun g i => unpackFlags (unpackOne src x g i))
    (fun _ g h i ag => by simp only [local_unpackOne narrow x g h i ag])
    (fun _ i hi => writes_writeTwo small next (by omega) (lt_of_mem_execList hi) (local_unpackOne narrow x)) read] at run
  exact ⟨_, run, ran_writeTwo_v small next (by omega) (local_unpackOne narrow x) (unpackOne_once a)⟩

/-- Unpacking into uniform registers (R150, R152). -/
theorem unpack_s {d : BitVec 8} {k step : Nat} (hd : x.d = .s d) (hu : x.u = true) (hk : k = s.g.jord.toNat) (hstep : step = jetRegs k)
    (ok : (formDA x && decide (d.toNat + step < 256) && regsOk s.g [(x.d, 1), (x.a, 1)] &&
      regsOk s.g [(.s (d + BitVec.ofNat 8 step), 1), (x.a, 1)]) = true) :
    ∃ G, execCvt dst src x s = .next (setG (advance (orJx (raised x s.g (fun i => unpackFlags (unpackOne src x s.g i))) G)) s) ∧
      G = { s.g with s := G.s } ∧ ∀ q, sGet G q =
        if holdsQ s.g x = true ∧ (q = d.toNat ∨ q = d.toNat + step) then unpackWord (unpackOne src x s.g 0) (if q = d.toNat then 0 else 1)
        else sGet s.g q := by
  subst hk hstep
  obtain ⟨rfl, -⟩ := unpacks_types unpacks
  have parts := ok
  simp only [Bool.and_eq_true, decide_eq_true_eq] at parts
  obtain ⟨⟨⟨-, lt⟩, -⟩, -⟩ := parts
  have next := toNat_add_ofNat lt
  have small := lt_jetRegs (jord_lt s.g)
  have run := execCvt_unpack unpacks fmt hd (d' := .s (d + BitVec.ofNat 8 (jetRegs s.g.jord.toNat))) rfl (n := 0)
    (fun r o ho => by rcases ho with rfl | rfl <;> rfl)
    (by rw [hd] at ok ⊢; exact ok)
  rw [runAlu_orJx
    (U := fun g => writeTwo writeUni 0 (.s d) (.s (d + BitVec.ofNat 8 (jetRegs s.g.jord.toNat))) (unpackWord (unpackOne src x g 0)) g)
    (fl := fun g i => unpackFlags (unpackOne src x g i))
    (fun h => absurd (hu.symm.trans h) (by decide)) (fun h => absurd (hu.symm.trans h) (by decide))
    (fun h => absurd (hu.symm.trans h) (by decide))] at run
  have left := ran_writeTwo_s
    (W := fun i g => writeTwo (fun g => writeRegs g i) 0 (.s d) (.s (d + BitVec.ofNat 8 (jetRegs s.g.jord.toNat))) (unpackWord (unpackOne src x g i)) g)
    (f := fun g => unpackWord (unpackOne src x g 0)) (g := s.g) hu (d := d) (d' := d + BitVec.ofNat 8 (jetRegs s.g.jord.toNat)) (by rw [next]; omega)
  rw [next] at left
  exact ⟨_, run, left⟩

end

theorem cvtWords_eq (k : Nat) (dst : Ty) (d : Opnd) (r : CoefRes) :
    cvtWords k dst d r = if dst = .f32 ∧ isV d = true then BitVec.ofNat 32 r.1 :: List.replicate k 0 else wordsTy dst r.1 := by
  simp only [cvtWords, Bool.and_eq_true, beq_iff_eq]

/-- The result of strand `i` of a conversion of one value. -/
def convertOne (dst src : Ty) (x : Fields) (g : Group) (i : Nat) : CoefRes := cvtOne dst src x.md.toNat g.fmt (readTy src g x i x.a)

/-- A conversion of one value (R149 to R151). -/
theorem convert_one {dst src : Ty} {x : Fields} {s : State} (fmt : cvtReadsFmt dst src = true → fmtBad s.g.fmt = false)
    (packs : cvtPacks dst src = false) (unpacks : cvtUnpacks dst src = false)
    (ok : (formDA x && regsOk s.g [cvtRegs s.g.jord.toNat dst x.d, cvtRegs s.g.jord.toNat src x.a]) = true) (read : readable s.g x [cvtRegs 0 src x.a]) :
    ∃ t, execCvt dst src x s = .next t ∧ FloatResult x (if dst = .f32 ∧ isV x.d = true then s.g.jord.toNat + 1 else regCount dst)
      (fun i => cvtWords s.g.jord.toNat dst x.d (convertOne dst src x s.g i)) (fun i => (convertOne dst src x s.g i).2.zeroExtend 20) s t := by
  have parts := ok
  rw [Bool.and_eq_true] at parts
  obtain ⟨form, regs⟩ := parts
  obtain ⟨d, a⟩ := formDA_parts form
  obtain ⟨rd, regs⟩ := regsOk_cons regs
  have local_ : Local (convertOne dst src x) := fun g h i ag => by
    rw [convertOne, convertOne, agree_fmt ag, agree_readTy_of ag src x (cvt_pair (regsOk_cons regs).1)]
  have once : x.u = true → ∀ i, convertOne dst src x s.g i = convertOne dst src x s.g 0 := fun hu i => by
    rw [convertOne, convertOne, readTy_uni (isSrc_uni a hu) src i 0]
  obtain ⟨t, run, result⟩ := runCvt_one fmt d (cvt_fits (jord_lt s.g) d rd) (fun _ => local_) once read
  refine ⟨t, ?_, result⟩
  simp only [execCvt, packs, unpacks, ok, Bool.false_eq_true, if_false]
  exact run

/-- One of the two results of a packing. -/
def packHalf (dst : Ty) (x : Fields) (g : Group) (i : Nat) (o : Opnd) : CoefRes :=
  roundTy dst x.md.toNat g.fmt (elemSrc .f32 g.fmt (readTy .f32 g x i o) 0)

/-- The result of strand `i` of a packing: both halves, A lowest. -/
def packOne (dst : Ty) (x : Fields) (g : Group) (i : Nat) : CoefRes :=
  (joinElems 16 [(packHalf dst x g i x.a).1, (packHalf dst x g i x.b).1], (packHalf dst x g i x.a).2 ||| (packHalf dst x g i x.b).2)

theorem local_packOne (dst : Ty) (x : Fields) : Local (packOne dst x) := by
  intro g h i ag
  have half : ∀ o, packHalf dst x h i o = packHalf dst x g i o := fun o => by
    rw [packHalf, packHalf, agree_fmt ag, agree_readTy_of ag .f32 x fun w => nomatch w]
  rw [packOne, packOne, half, half]

theorem packOne_once {dst : Ty} {x : Fields} {g : Group} (a : isSrc x x.a = true) (b : isSrc x x.b = true) (hu : x.u = true) (i : Nat) :
    packOne dst x g i = packOne dst x g 0 := by
  simp only [packOne, packHalf, readTy_uni (isSrc_uni a hu) .f32 i 0, readTy_uni (isSrc_uni b hu) .f32 i 0]

/-- The packing of two values (R150). -/
theorem convert_pack {dst src : Ty} {x : Fields} {s : State} (fmt : cvtReadsFmt dst src = true → fmtBad s.g.fmt = false) (packs : cvtPacks dst src = true)
    (ok : (!isLong x && isDst x x.d && isSrc x x.a && isSrc x x.b && oneImm [x.a, x.b] &&
      regsOk s.g [(x.d, 1), cvtRegs s.g.jord.toNat .f32 x.a, cvtRegs s.g.jord.toNat .f32 x.b]) = true)
    (read : readable s.g x [cvtRegs 0 .f32 x.a, cvtRegs 0 .f32 x.b]) :
    ∃ t, execCvt dst src x s = .next t ∧
      FloatResult x 1 (fun i => [BitVec.ofNat 32 (packOne dst x s.g i).1]) (fun i => (packOne dst x s.g i).2.zeroExtend 20) s t := by
  obtain ⟨rfl, hdst⟩ : src = .f32 ∧ (dst = .bf16x2 ∨ dst = .f16x2) := by simpa [cvtPacks] using packs
  have parts := ok
  simp only [Bool.and_eq_true] at parts
  obtain ⟨⟨⟨⟨⟨-, d⟩, a⟩, b⟩, -⟩, regs⟩ := parts
  have count : (if dst = .f32 ∧ isV x.d = true then s.g.jord.toNat + 1 else regCount dst) = 1 := by rcases hdst with rfl | rfl <;> rfl
  have words : ∀ r, cvtWords s.g.jord.toNat dst x.d r = [BitVec.ofNat 32 r.1] := fun r => by rcases hdst with rfl | rfl <;> rfl
  obtain ⟨t, run, result⟩ := runCvt_one fmt d (by rw [count]; exact regOk_lt (.inl rfl) (isDst_vs d) (regsOk_cons regs).1)
    (fun _ => local_packOne dst x) (packOne_once a b) read
  rw [count] at result
  simp only [words] at result
  refine ⟨t, ?_, result⟩
  simp only [execCvt, packs, if_true, ok]
  exact run

/-- Settles O19: one conversion rounds or saturates one value, and an instruction writes in turn what each strand converts. -/
theorem conversions : Obligations.Conversions := by
  refine ⟨fun dst src x s _ fmt => ⟨fun packs unpacks ok read => ?_, fun packs ok read => convert_pack fmt packs ok read, fun unpacks => ?_⟩, ?_⟩
  · obtain ⟨t, run, result⟩ := convert_one fmt packs unpacks ok read
    simp only [cvtWords_eq] at result
    exact ⟨t, run, result⟩
  · have reads : fmtBad s.g.fmt = false := fmt (by rw [cvtReadsFmt, unpacks, Bool.or_true])
    intro one raised
    refine ⟨fun d hd ok read => ?_, fun d hd hu ok => ?_⟩
    · obtain ⟨G, run, frame, regs⟩ := unpack_v unpacks reads hd rfl rfl ok read
      exact ⟨_, run, advance_frame_v frame _, unpack_raised (by rw [frame]), regs⟩
    · obtain ⟨G, run, frame, regs⟩ := unpack_s unpacks reads hd hu rfl rfl ok
      exact ⟨_, run, advance_frame_s frame _, unpack_raised (by rw [frame]), regs⟩
  · intro dst src m fmt w _ _ r n
    refine ⟨fun hs hd => ?_, fun hs hd => ?_, fun hs hd => ?_, fun hs hd => ?_⟩
    · have hr : r = clampTo dst (cvtInt src w) := by simp [r, cvtOne, hs, hd]
      simp only [n, hr]
      exact clampTo_spec dst _
    · simp [r, cvtOne, hs, hd]
    · simp [r, cvtOne, hs, hd]
    · have hr : r = floatToInt dst m (elemSrc src fmt w 0).1 := by simp [r, cvtOne, hs, hd]
      simp only [n, hr]
      refine ⟨fun nan => ?_, fun neg inf => ?_, fun neg a d e num => ?_⟩
      · rw [nan]
        exact floatToInt_nan dst m
      · rw [inf]
        exact floatToInt_inf dst m neg
      · rw [num]
        exact floatToInt_num dst m neg a d e

end Sys2Proof.NumberFormats

/-! ### Masks of strands and targets of branches (R40, R98, R110) -/

namespace Sys2Proof.Groups

open Sys2Proof Sys2Proof.Machine Sys2Proof.Safety Sys2Proof.Laws Sys2Proof.NumberFormats

theorem getLsbD_strandBit {i : Nat} (hi : i < 64) (k : Nat) : (BitVec.ofNat 64 (2 ^ i)).getLsbD k = decide (k = i) := by
  have e : BitVec.ofNat 64 (2 ^ i) = BitVec.twoPow 64 i := by
    apply BitVec.eq_of_toNat_eq; rw [BitVec.toNat_ofNat, BitVec.toNat_twoPow]
  rw [e, BitVec.getLsbD_twoPow]
  by_cases h : k = i
  · simp [h, hi]
  · simp [h, Ne.symm h]

theorem getLsbD_maskOf {l : List Nat} (hl : ∀ i ∈ l, i < 64) (k : Nat) : (maskOf l).getLsbD k = decide (k ∈ l) := by
  have bits := getLsbD_foldl_or (fun i => BitVec.ofNat 64 (2 ^ i)) l 0 k
  rw [Bool.eq_iff_iff, maskOf, bits, decide_eq_true_eq]
  constructor
  · rintro (zero | ⟨i, hi, bit⟩)
    · simp at zero
    · rw [getLsbD_strandBit (hl i hi), decide_eq_true_eq] at bit
      rwa [bit]
  · exact fun hk => .inr ⟨k, hk, by rw [getLsbD_strandBit (hl k hk), decide_eq_true rfl]⟩

/-- A mask with the bits of the executing strands is the model's. -/
theorem eq_maskOf_execList {g : Group} {x : Fields} {t : DWord} (h : ∀ i, t.getLsbD i = decide (i ∈ execList g x)) :
    t = maskOf (execList g x) :=
  BitVec.eq_of_getLsbD_eq fun i _ => by rw [h, getLsbD_maskOf fun _ => lt_of_mem_execList]

/-- An offset of at most 64 bits reaches one address only. -/
theorem isTarget_unique {pc a : DWord} {w : Nat} (hw : w ≤ 64) {o : BitVec w} (h : isTarget pc o.toInt a) : a = pc + 12 + sx64 o * 12 := by
  have ext : ((sx64 o).toNat : Int) = o.toInt ∨ ((sx64 o).toNat : Int) = o.toInt + 2 ^ 64 := by
    have toInt : (sx64 o).toInt = o.toInt := BitVec.toInt_signExtend_of_le hw
    rw [BitVec.toInt_eq_toNat_cond] at toInt
    split at toInt <;> omega
  apply BitVec.eq_of_toNat_eq
  have ha := a.isLt
  have twelve : (12 : DWord).toNat = 12 := rfl
  simp only [isTarget, BitVec.toNat_add, BitVec.toNat_mul, twelve] at h ⊢
  omega

theorem branchTarget_unique {g : Group} {x : Fields} {a : DWord} (h : isTarget g.pc (x.e ++ x.imm).toInt a) : a = branchTarget g x :=
  isTarget_unique (by decide) h

theorem joinTarget_unique {g : Group} {x : Fields} {j : DWord} (h : isTarget g.pc (opndBits x.b ++ opndBits x.c).toInt j) :
    j = joinTarget g x :=
  isTarget_unique (by decide) h

end Sys2Proof.Groups

/-! ### The end of a group and of its team (R184, R324) -/

namespace Sys2Proof.Groups

open Sys2Proof Sys2Proof.Machine Sys2Proof.Safety Sys2Proof.Laws Sys2Proof.NumberFormats

/-- Groups that leave the device, and nothing else but cores, teams, launches and saved gangs. -/
structure OnlyRemoves (s t : State) : Prop where
  mem : t.mem = s.mem
  groups : ∀ g ∈ allGroups t, g ∈ allGroups s ∨ g = Group.init

theorem OnlyRemoves.rfl {s : State} : OnlyRemoves s s := ⟨Eq.refl _, fun _ => .inl⟩

theorem onlyRemoves_freeTeam (tm : Team) (s : State) : OnlyRemoves s (freeTeam tm s) := by
  have freed := foldl_keeps (fun u : State => u.mem = s.mem ∧ u.g = s.g ∧ u.others = s.others)
    (fun u k => modCore (nth 0 tm.cores k) (freeOnCore (nth 0 tm.ranges k) (nth [] tm.tiles k)) u)
    (fun _ _ h => h) (List.range tm.cores.length) (s := s) ⟨rfl, rfl, rfl⟩
  unfold freeTeam
  generalize (List.range tm.cores.length).foldl _ s = u at freed ⊢
  obtain ⟨mem, g, others⟩ := freed
  have removed : ∀ h ∈ (if u.g.tid = tm.tid then Group.init else u.g) :: u.others.filter (fun g => g.tid != tm.tid),
      h ∈ allGroups s ∨ h = Group.init := by
    intro h hm
    rw [g, others, List.mem_cons, List.mem_filter] at hm
    rcases hm with rfl | ⟨hm, -⟩
    · split
      · exact .inr rfl
      · exact .inl List.mem_cons_self
    · exact .inl (List.mem_cons_of_mem _ hm)
  exact iteInduction (motive := OnlyRemoves s) (fun _ => ⟨mem, removed⟩) (fun _ => ⟨mem, removed⟩)

theorem onlyRemoves_settleTeam (tid : Nat) (s : State) : OnlyRemoves s (settleTeam tid s) := by
  unfold settleTeam
  split
  · exact .rfl
  · split
    · exact onlyRemoves_freeTeam _ s
    · exact .rfl

theorem mem_allGroups_modGroups {p : Group → Bool} {f : Group → Group} {s : State} {h : Group} :
    h ∈ allGroups (modGroups p f s) ↔ ∃ g ∈ allGroups s, h = if p g then f g else g := by
  rw [show allGroups (modGroups p f s) = updateWhere p f (allGroups s) from rfl, updateWhere, List.mem_map]
  simp only [eq_comm]

/-- A group that has ended is over wherever it is still found, and memory stays. -/
theorem endGroup_over {gid : Nat} {s : State} : (endGroup gid s).mem = s.mem ∧
    ∀ g, (findGroup s gid).isSome → findGroup (endGroup gid s) gid = some g → isOver g = true := by
  unfold endGroup
  cases found : findGroup s gid with
  | none => simp
  | some old =>
    simp only
    have left := onlyRemoves_settleTeam old.tid
      (modGroup gid (fun g => { g with status := .ended, live := 0, active := 0, xblk := 0, latch := none }) s)
    refine ⟨left.mem, fun g _ hg => ?_⟩
    have gone := left.groups g (List.mem_of_find?_eq_some hg)
    have num : g.gid = gid := by simpa using List.find?_some hg
    rcases gone with stays | rfl
    · obtain ⟨h, -, rfl⟩ := mem_allGroups_modGroups.mp stays
      by_cases hh : (h.gid == gid) = true
      · rw [if_pos hh]; rfl
      · rw [if_neg hh] at num; simp [num] at hh
    · rfl

end Sys2Proof.Groups

/-! ### Divergence and reconvergence (R61 to R63, R182 to R184) -/

namespace Sys2Proof.Groups

open Sys2Proof Sys2Proof.Machine Sys2Proof.Safety Sys2Proof.Laws Sys2Proof.NumberFormats

/-- The path that the active strands divide into is taken from those that branch and those that go on (R182). -/
def divides (g : Group) (x : Fields) : Prop := takenMask g x ≠ 0 ∧ takenMask g x ≠ g.active

theorem brdEntries_divided {g : Group} {x : Fields} (h : divides g x) : brdEntries g x =
    [⟨.path, branchTarget g x, takenMask g x, g.fmt, g.jord⟩, ⟨.join, joinTarget g x, g.active, g.fmt, g.jord⟩] := by
  simp only [brdEntries, bne_iff_ne.mpr h.1, bne_iff_ne.mpr h.2, Bool.and_self, if_true]

theorem brdEntries_whole {g : Group} {x : Fields} (h : ¬ divides g x) : brdEntries g x = [⟨.join, joinTarget g x, g.active, g.fmt, g.jord⟩] := by
  have whole : takenMask g x ≠ 0 → takenMask g x = g.active := fun h0 => not_not.mp fun h1 => h ⟨h0, h1⟩
  simpa [brdEntries] using whole

theorem execBrd_overflow {x : Fields} {s : State} (h : 16 < s.g.stack.length + (brdEntries s.g x).length) :
    execBrd x s = trapped (wordTrap 0x1C) s := by simp [execBrd, h]

theorem execBrd_divided {x : Fields} {s : State} (h : divides s.g x) (room : s.g.stack.length < 15) : execBrd x s =
    finish { s.g with stack := brdEntries s.g x ++ s.g.stack, active := s.g.active &&& ~~~takenMask s.g x } s := by
  have fits : ¬ 16 < s.g.stack.length + (brdEntries s.g x).length := by
    rw [brdEntries_divided h]; simp only [List.length_cons, List.length_nil]; omega
  obtain ⟨some_, other⟩ := h
  simp only [execBrd, fits, bne_iff_ne.mpr some_, bne_iff_ne.mpr other, Bool.and_self, if_true, if_false, beq_eq_false_iff_ne.mpr other,
    Bool.false_eq_true]

/-- With every active strand or none branching, the strands stay together: they go to the target, or on. -/
theorem execBrd_whole {x : Fields} {s : State} (h : ¬ divides s.g x) (room : s.g.stack.length < 16) : execBrd x s =
    .next (setG (advanceTo (if takenMask s.g x = s.g.active then branchTarget s.g x else nextPc s.g)
      { s.g with stack := brdEntries s.g x ++ s.g.stack }) s) := by
  have fits : ¬ 16 < s.g.stack.length + (brdEntries s.g x).length := by
    rw [brdEntries_whole h]; simp only [List.length_cons, List.length_nil]; omega
  have same : (takenMask s.g x != 0 && takenMask s.g x != s.g.active) = false := by
    simpa [divides] using h
  simp only [execBrd, fits, if_false, same, Bool.false_eq_true, beq_iff_eq]
  split <;> rfl

/-- `Reconverge` discards the entries with no live strand and resumes the next one (R183). -/
theorem reconverge_dead {g : Group} {dead : List StackEntry} (h : ∀ d ∈ dead, d.mask &&& g.live = 0) (l : List StackEntry) :
    reconverge g (dead ++ l) = reconverge g l := by
  induction dead with
  | nil => rfl
  | cons d dead ih =>
    rw [List.cons_append, reconverge, if_pos (h d (by simp)), ih fun e he => h e (by simp [he])]

theorem reconverge_live {g : Group} {e : StackEntry} (h : e.mask &&& g.live ≠ 0) (l : List StackEntry) : reconverge g (e :: l) =
    some { g with active := e.mask &&& g.live, fmt := e.fmt, jord := e.jord, pc := e.pc, stack := l } := by
  rw [reconverge, if_neg h]

theorem reconverge_none {g : Group} {dead : List StackEntry} (h : ∀ d ∈ dead, d.mask &&& g.live = 0) : reconverge g dead = none :=
  (congrArg (reconverge g) (List.append_nil dead)).symm.trans (reconverge_dead h [])

/-- The mask of `EXIT` (R184). -/
theorem eq_exitMask {g : Group} {x : Fields} {out : DWord} (h : ∀ i, i < 64 → out.getLsbD i =
    if x.u then g.live.getLsbD i && holdsQ g x else decide (i ∈ execList g x)) : out = exitMask g x := by
  refine BitVec.eq_of_getLsbD_eq fun i hi => ?_
  rw [h i hi, exitMask]
  cases x.u with
  | true => cases holdsQ g x <;> simp
  | false => simp [getLsbD_maskOf fun _ => lt_of_mem_execList]

/-- The group once the strands of an `EXIT` have left it. -/
def exited (g : Group) (x : Fields) : Group := { g with live := g.live &&& ~~~exitMask g x, active := g.active &&& ~~~exitMask g x }

theorem execExit_active {x : Fields} {s : State} (h : (exited s.g x).active ≠ 0) : execExit x s = finish (exited s.g x) s := by
  have h' : (s.g.active &&& ~~~exitMask s.g x != 0) = true := by simpa [exited] using h
  simp only [execExit, h', if_true, exited]

theorem execExit_reconverge {x : Fields} {s : State} {g : Group} (ha : (exited s.g x).active = 0) (hl : (exited s.g x).live ≠ 0)
    (h : reconverge (exited s.g x) s.g.stack = some g) : execExit x s = .next (setG (advanceTo g.pc g) s) := by
  have ha' : ((exited s.g x).active != 0) = false := by simpa using ha
  have hl' : ((exited s.g x).live == 0) = false := by simpa using hl
  simp only [exited] at ha' hl' h
  simp only [execExit, ha', hl', h, Bool.false_eq_true, if_false]

theorem execExit_last {x : Fields} {s : State} (ha : (exited s.g x).active = 0) (hl : (exited s.g x).live = 0) :
    execExit x s = .next (endGroup s.g.gid (setG (advance (exited s.g x)) s)) := by
  have ha' : ((exited s.g x).active != 0) = false := by simpa using ha
  have hl' : ((exited s.g x).live == 0) = true := by simpa using hl
  simp only [exited] at ha' hl'
  simp only [execExit, ha', hl', exited, Bool.false_eq_true, if_false, if_true]

/-- Settles O8: `BRD` pushes one entry or two, by whether the strands divide; `JOIN` and `EXIT` pass over the dead entries of the
stack. -/
theorem reconvergence : Obligations.Reconvergence := by
  refine ⟨fun x s t a j _ some_active taken ha hj => ?_, fun x s dead rest e => ⟨fun _ hdead => ⟨?_, ?_⟩, fun _ out hout => ?_⟩⟩
  · obtain rfl : t = takenMask s.g x := eq_maskOf_execList taken
    obtain rfl := branchTarget_unique ha
    obtain rfl := joinTarget_unique hj
    refine ⟨fun none_ room => ?_, fun all room => ?_, fun h0 h1 room => ?_, fun full => ?_⟩
    · have whole : ¬ divides s.g x := fun h => h.1 none_
      rw [exec_brd, execBrd_whole whole room, brdEntries_whole whole, if_neg (by rw [none_]; exact some_active.symm)]
      rfl
    · have whole : ¬ divides s.g x := fun h => h.2 all
      rw [exec_brd, execBrd_whole whole room, brdEntries_whole whole, if_pos all]
      rfl
    · rw [exec_brd, execBrd_divided ⟨h0, h1⟩ room, brdEntries_divided ⟨h0, h1⟩]
      rfl
    · refine execBrd_overflow ?_
      rcases full with full | ⟨full, h0, h1⟩
      · have := List.length_pos_iff.mpr (show brdEntries s.g x ≠ [] by unfold brdEntries; simp only; split <;> simp)
        omega
      · rw [brdEntries_divided ⟨h0, h1⟩]
        simp only [List.length_cons, List.length_nil]
        omega
  · intro hs
    rw [exec_join, execJoin, hs, reconverge_none hdead]
  · intro hs live
    rw [exec_join, execJoin, hs, reconverge_dead hdead, reconverge_live live]
    rfl
  · obtain rfl := eq_exitMask hout
    refine ⟨fun on => execExit_active on, fun off live hdead hs hlive => ?_, fun off gone => ?_⟩
    · have resumes := (congrArg (reconverge (exited s.g x)) hs).trans ((reconverge_dead hdead _).trans (reconverge_live hlive _))
      exact execExit_reconverge off live resumes
    · refine ⟨_, execExit_last off gone, ?_⟩
      obtain ⟨mem, ended⟩ := endGroup_over (gid := s.g.gid) (s := setG (advance (exited s.g x)) s)
      exact ⟨mem, fun g => ended g (by simp [findGroup, allGroups, exited, advance, advanceTo])⟩

end Sys2Proof.Groups

/-! ### Group state (R50 to R54, R114, R185, R191 to R193) -/

namespace Sys2Proof.Groups

open Sys2Proof Sys2Proof.Machine Sys2Proof.Safety Sys2Proof.Laws Sys2Proof.NumberFormats

theorem need_ok {ok : Bool} (h : ok = true) (t : Trap) (s : State) (k : Result) : need ok t s k = k := if_pos h

theorem need_bad {ok : Bool} (h : ok = false) (t : Trap) (s : State) (k : Result) : need ok t s k = trapped t s := by
  simp [need, h]

/-- `XBLK.rel` leaves the registers of block 0 and clears every other (R54). -/
theorem vGet_dropBlocks (g : Group) (i : Nat) {r : Nat} (hr : r < 256) :
    vGet (dropBlocks g) i r = if 64 ≤ r then 0 else vGet g i r := by
  have low : (256 * i + r) % 256 = r := by omega
  simp only [vGet, dropBlocks, get_drop, low, decide_eq_true_eq]

theorem execXblkAcq_bad {x : Fields} {s : State} (h : badBlocks s (read32 s.g x 0 x.b).toNat = true) :
    execXblkAcq x s = trapped (wordTrap 0x02) s :=
  need_bad (by simp [h]) _ _ _

/-- With operands that pass its checks and no group waiting, `XBLK.acq` acts by what is free (R50, R52). -/
theorem execXblkAcq_ok {x : Fields} {s : State} (ok : ((isS x.b || isShort x.b) && !isLong x && regOk s.g x.b 1) = true)
    (h : badBlocks s (read32 s.g x 0 x.b).toNat = false) : execXblkAcq x s =
      if holdsQ s.g x then
        if !(onLane s (coreNo s.g) s.g.lane).any (fun g => (blockWait g).isSome) &&
            decide ((read32 s.g x 0 x.b).toNat * unitsPerBlock s.g ≤ freeUnits s (coreNo s.g) s.g.lane) then
          finish { s.g with xblk := (read32 s.g x 0 x.b).toNat } s
        else .next { setG { s.g with status := .waitBlocks (read32 s.g x 0 x.b).toNat s.fresh s.ac } s with fresh := s.fresh + 1 }
      else finish s.g s :=
  need_ok (by rw [ok, h]; rfl) _ _ _

/-- Settles O9: each instruction by its own case; `XBLK.acq` by its checks, its guards and what is free. -/
theorem groupState : Obligations.GroupState := by
  intro x s onward
  refine ⟨fun _ => rfl, fun _ => ?_, fun _ k hb short even le => ?_, fun _ hb short le => ?_, fun _ => ?_, fun _ => ?_⟩
  · rw [exec_yield, execYield]
    split <;> rfl
  · have ok : (isSPair x.b && !isLong x && regOk s.g x.b 2) = true := by
      simp only [hb, isSPair, isS, opIdx, regOk, short, even, decide_true, Bool.not_false, Bool.and_self, Bool.true_and, decide_eq_true_eq]
      omega
    rw [exec_fmt, execFmt, need_ok ok, hb]
    cases holdsQ s.g x <;> rfl
  · have ok : (x.b == .im 1 && !isLong x && decide (x.imm.toNat ≤ 3)) = true := by simp [hb, short, le]
    rw [exec_role, execRole, need_ok ok]
    cases holdsQ s.g x <;> rfl
  · rw [exec_xblkRel, execXblkRel]
    cases holdsQ s.g x with
    | false => exact ⟨_, rfl, rfl, fun _ => rfl, nofun⟩
    | true => exact ⟨_, rfl, rfl, nofun, fun _ => ⟨rfl, fun i r => vGet_dropBlocks s.g i⟩⟩
  · intro t ok
    refine ⟨execXblkAcq_bad, fun blocks off => ?_, fun blocks on quiet => ?_⟩
    · rw [exec_xblkAcq, execXblkAcq_ok ok blocks, off]
      rfl
    have nobody : ((onLane s (coreNo s.g) s.g.lane).any fun g => (blockWait g).isSome) = false := by
      rw [List.any_eq_false]
      exact fun g hg => by simp [quiet g hg]
    refine ⟨fun free => ?_, fun full => ?_⟩
    · rw [exec_xblkAcq, execXblkAcq_ok ok blocks, if_pos on, nobody, decide_eq_true free]
      rfl
    · rw [exec_xblkAcq, execXblkAcq_ok ok blocks, if_pos on, nobody, decide_eq_false (Nat.not_le_of_lt full)]
      rfl

end Sys2Proof.Groups

/-! ### A register error in one strand (R67, R222) -/

namespace Sys2Proof.Groups

open Sys2Proof Sys2Proof.Machine Sys2Proof.Safety Sys2Proof.Laws Sys2Proof.NumberFormats

/-! #### Storage errors that a strand's writes leave -/

theorem vPoison_vSets_keep {g : Group} {i r : Nat} {l : List Word} {k : Nat} (h : k ∈ g.vPoison)
    (off : k < 256 * i + r ∨ 256 * i + r + l.length ≤ k) : k ∈ (vSets g i r l).vPoison := by
  induction l generalizing g r with
  | nil => exact h
  | cons w l ih =>
    simp only [List.length_cons] at off
    refine ih ?_ (by omega)
    rw [vSet_vPoison]
    exact (List.mem_erase_of_ne (by omega)).mpr h

/-- The registers that a source names are v registers of a strand, or none. -/
def inStrand (o : Opnd × Nat) : Prop := isV o.1 = true → opIdx o.1 + o.2 ≤ 256

theorem badReg_iff {g : Group} {i : Nat} {o : Opnd} {n : Nat} : badReg g i (o, n) = true ↔
    isV o = true ∧ ∃ j < n, 256 * i + opIdx o + j ∈ g.vPoison := by
  cases o <;> simp [badReg, isV, opIdx]

/-- What another strand writes leaves a strand's storage errors. -/
theorem badReg_writeRegs {g : Group} {i k : Nat} {o : Opnd × Nat} {d : Opnd} {l : List Word} (h : badReg g k o = true) (ho : inStrand o)
    (hd : isV d = true) (fits : opIdx d + l.length ≤ 256) (ne : i ≠ k) : badReg (writeRegs g i d l) k o = true := by
  obtain ⟨o, n⟩ := o
  obtain ⟨r, rfl⟩ := isV_elim hd
  obtain ⟨ov, j, hj, mem⟩ := badReg_iff.mp h
  have within : opIdx o + n ≤ 256 := ho ov
  simp only [opIdx] at fits
  exact badReg_iff.mpr ⟨ov, j, hj, vPoison_vSets_keep mem (by omega)⟩

theorem badReg_inTurn {val : Group → Nat → List Word} {g : Group} {k : Nat} {o : Opnd × Nat} {d : Opnd} {n : Nat} {l : List Nat}
    (h : badReg g k o = true) (ho : inStrand o) (hd : isV d = true) (fits : opIdx d + n ≤ 256) (len : ∀ g i, (val g i).length = n)
    (off : k ∉ l) : badReg (inTurn (fun i g => writeRegs g i d (val g i)) l g) k o = true := by
  induction l generalizing g with
  | nil => exact h
  | cons i l ih =>
    rw [List.mem_cons, not_or] at off
    exact ih (badReg_writeRegs h ho hd (by rw [len]; exact fits) (Ne.symm off.1)) off.2

/-! #### The strands below the one that stops -/

theorem sorted_execList (g : Group) (x : Fields) : (execList g x).Pairwise (· < ·) :=
  (List.pairwise_lt_range.filter _).filter _

/-- The executing strands, cut at one of them. -/
theorem execList_cut {g : Group} {x : Fields} {k : Nat} (h : k ∈ execList g x) :
    ∃ l r, execList g x = l ++ k :: r ∧ ∀ i, i ∈ l ↔ i ∈ execList g x ∧ i < k := by
  obtain ⟨l, r, cut⟩ := List.append_of_mem h
  have sorted := sorted_execList g x
  rw [cut, List.pairwise_append, List.pairwise_cons] at sorted
  obtain ⟨-, ⟨above, -⟩, below⟩ := sorted
  refine ⟨l, r, cut, fun i => ?_⟩
  rw [cut, List.mem_append, List.mem_cons]
  constructor
  · exact fun hi => ⟨.inl hi, below i hi k List.mem_cons_self⟩
  · rintro ⟨hi | rfl | hi, lt⟩
    · exact hi
    · omega
    · have := above i hi
      omega

/-- An instruction D := val with `U` = 0 stops in the first strand that reads a storage error, and the strands below it have
committed (R67). -/
theorem runMap_error {x : Fields} {ok : Bool} {srcs : List (Opnd × Nat)} {val : Group → Nat → List Word} {s : State} {n k : Nat}
    (hok : ok = true) (hu : x.u = false) (hd : isV x.d = true) (hn : opIdx x.d + n ≤ 256) (hlen : ∀ g i, (val g i).length = n)
    (hloc : ∀ g h i, agree true i g h → val h i = val g i) (hk : k ∈ execList s.g x)
    (below : ∀ i ∈ execList s.g x, i < k → ∀ o ∈ srcs, badReg s.g i o = false)
    (stops : ∃ o ∈ srcs, inStrand o ∧ badReg s.g k o = true) :
    ∃ h, runMap x ok srcs val s = trapped ⟨0x20, 4, none, k⟩ (setG h s) ∧ h = { s.g with v := h.v, vPoison := h.vPoison } ∧
      ∀ i, i < 64 → ∀ q, q < 256 → vGet h i q =
        if (i ∈ execList s.g x ∧ i < k) ∧ opIdx x.d ≤ q ∧ q < opIdx x.d + n then nth 0 (val s.g i) (q - opIdx x.d) else vGet s.g i q := by
  obtain ⟨l, r, cut, mem⟩ := execList_cut hk
  have own : ∀ i ∈ l, Own true i ((fun i g => writeRegs g i x.d (val g i)) i) := fun i hi =>
    own_writeRegs (lt_of_mem_execList ((mem i).mp hi).1) hd hn (fun g => val g i) (fun g => hlen g i)
  have notin : k ∉ l := fun h => absurd ((mem k).mp h).2 (lt_irrefl k)
  have nodup : l.Nodup := (List.nodup_append.mp (cut ▸ nodup_execList s.g x)).1
  obtain ⟨o, ho, strand, bad⟩ := stops
  have run := runStrands_error srcs (fun i g => writeRegs g i x.d (val g i)) l r k s.g (fun i hi => (own i hi).poison)
    (fun i hi => below i ((mem i).mp hi).1 ((mem i).mp hi).2)
    (List.any_eq_true.mpr ⟨o, ho, badReg_inTurn bad strand hd hn hlen notin⟩)
  refine ⟨inTurn (fun i g => writeRegs g i x.d (val g i)) l s.g, ?_, inTurn_writeRegs_frame x.d val hd l s.g, fun i hi q hq => ?_⟩
  · simp only [runMap, runAlu, hok, if_true, hu, Bool.false_eq_true, if_false, cut, run]
  · by_cases hm : i ∈ l
    · obtain ⟨h, h1, h2⟩ := inTurn_own _ l s.g own nodup hi hm
      obtain ⟨d, hd⟩ := isV_elim hd
      rw [agree_v h2 hq, hd, writeRegs, vGet_vSets_self, hlen, hloc _ _ _ h1, agree_v h1 hq]
      simp only [(mem i).mp hm, and_self, true_and, opIdx]
    · rw [agree_v (inTurn_other _ l s.g own hi hm) hq, if_neg]
      exact fun h => hm ((mem i).mpr h.1)

/-! #### Elements of A and B -/

theorem agree_readTyB_of {keep : Bool} {i : Nat} {g h : Group} (a : agree keep i g h) (t : Ty) (x : Fields)
    (fits : isWide t = true → opIdx x.b + 1 < 256 ∨ isV x.b = false) : readTyB t h x i = readTyB t g x i := by
  unfold readTyB readB64
  split
  · rw [agree_read64 a x (fits ‹_›)]
  · rw [agree_readB32 a]

theorem wide_fits {t : Ty} {g : Group} {o : Opnd} (h : regOk g o (regCount t) = true) (wide : isWide t = true) :
    opIdx o + 1 < 256 ∨ isV o = false := by
  rw [regCount, if_pos wide] at h
  exact pair_lt h

theorem regOk_inStrand {t : Ty} {g : Group} {o : Opnd} (h : regOk g o (regCount t) = true) : inStrand (o, regCount t) :=
  fun ov => regOk_lt (regCount_cases t) (.inl ov) h

/-- The words of D of `IADD` in strand `i` (R132). -/
def iaddWords (f : AddForm) (ty : Ty) (x : Fields) (g : Group) (i : Nat) : List Word :=
  wordsTy ty (mapElems ty (fun e => addResult f ty (elemVal ty (readTy ty g x i x.a) e + elemVal ty (readTyB ty g x i) e)))

theorem exec_iadd_words (f : AddForm) (ty : Ty) (x : Fields) (s : State) :
    exec (.iadd f ty x) s = runMap x (okDAB ty s.g x) (srcAB ty x) (iaddWords f ty x) s := rfl

/-- Settles O13: the strands below the one that stops end as they do where no register has an error. -/
theorem strandTrap : Obligations.StrandTrap := by
  intro f ty x s k d _ hu ok hd hk stops below
  obtain ⟨-, -, -, okd, oka, okb⟩ := okDAB_parts ok
  have isv : isV x.d = true := by rw [hd]; rfl
  have fits : opIdx x.d + regCount ty ≤ 256 := regOk_lt (regCount_cases ty) (.inl isv) okd
  have len : ∀ g i, (iaddWords f ty x g i).length = regCount ty := fun _ _ => length_wordsTy ty _
  have loc : ∀ g h i, agree true i g h → iaddWords f ty x h i = iaddWords f ty x g i := fun g h i a => by
    simp only [iaddWords, agree_readTy_of a ty x (wide_fits oka), agree_readTyB_of a ty x (wide_fits okb)]
  have strand : ∀ o ∈ srcAB ty x, inStrand o := by
    simp only [srcAB, List.forall_mem_cons, List.not_mem_nil, false_imp_iff, implies_true, and_true]
    exact ⟨regOk_inStrand oka, regOk_inStrand okb⟩
  obtain ⟨o, ho, bad⟩ := stops
  obtain ⟨h, run, frame, regs⟩ := runMap_error (srcs := srcAB ty x) ok hu isv fits len loc hk below ⟨o, ho, strand o ho, bad⟩
  have clean : ∀ i o, badReg { s.g with vPoison := [] } i o = false := fun i o => by
    obtain ⟨o, n⟩ := o
    cases o <;> simp [badReg]
  obtain ⟨u, run', -, regs'⟩ := runMap_next (srcs := srcAB ty x) (s := setG { s.g with vPoison := [] } s) ok hu isv fits len loc
    (fun i _ o _ => clean i o)
  refine ⟨setG h s, _, run, ?_, run', fun i q hi hq => ?_⟩
  · rw [setG_g, ← frame]
  · have same : iaddWords f ty x { s.g with vPoison := [] } i = iaddWords f ty x s.g i := rfl
    have list : execList { s.g with vPoison := [] } x = execList s.g x := rfl
    have old : vGet { s.g with vPoison := [] } i q = vGet s.g i q := rfl
    rw [setG_g, regs i hi q hq, setG_g, regs' i hi q hq, setG_g, same, list, old]
    by_cases lt : i < k
    · simp only [lt, and_true, if_true]
    · simp only [lt, and_false, false_and, if_false]

end Sys2Proof.Groups

/-! ### Relaxed accesses of strands (R67, R108, R225) -/

namespace Sys2Proof.Groups

open Sys2Proof Sys2Proof.Machine Sys2Proof.Safety Sys2Proof.Laws Sys2Proof.NumberFormats

/-- A relaxed access neither releases nor acquires (R109). -/
theorem relaxed_plain {x : Fields} (h : ordOf x = 0) : isRel x = false ∧ isAcq x = false := by
  have zero : x.e.extractLsb' 6 2 = 0#2 := BitVec.eq_of_toNat_eq h
  have bit := fun k => congrArg (fun v : BitVec 2 => v.getLsbD k) zero
  exact ⟨by simpa [isRel] using bit 1, by simpa [isAcq] using bit 0⟩

/-- What strand `i` does in a memory instruction whose writes carry `stamp`. -/
def strandAccess (x : Fields) (srcs : List (Opnd × Nat)) (f : Nat → DWord → Nat → State → Access) (stamp i : Nat) (s : State) : Access :=
  if srcs.any (badReg s.g i) then .trap 0x20 4 none s else f stamp (memAddr s.g x i) i s

/-- A relaxed instruction whose operands pass step 5 is the accesses of its strands in turn. -/
theorem runMem_relaxed {x : Fields} (h : ordOf x = 0) {ok : Bool} (hok : ok = true) (srcs : List (Opnd × Nat))
    (f : Nat → DWord → Nat → State → Access) (s : State) : runMem x ok srcs f s =
      closeAccess (fun _ s => s) (runEach (strandAccess x srcs f s.g.carry) (memStrands s.g x) 0 s) := by
  obtain ⟨rel, acq⟩ := relaxed_plain h
  have plain : acquireRead x = fun _ s => s := by
    funext w s
    rw [acquireRead, acq, if_neg Bool.false_ne_true]
  rw [runMem, need_ok hok]
  simp only [rel, plain, Bool.false_and, Bool.false_eq_true, if_false, Nat.zero_max]
  split
  next none_ => rw [none_, ite_self]; rfl
  next => rfl

theorem keepRead_zero (s : State) : keepRead 0 s = s := by
  unfold keepRead
  rw [Nat.max_zero]
  rfl

/-- No source of a relaxed access holds an error in a strand that executes it. -/
theorem relaxedOk_clean {x : Fields} {code : Bool} {nd nc : Nat} {s : State} (h : relaxedOk x code nd nc s) {i : Nat}
    (hi : i ∈ memStrands s.g x) : (memSrcs x nc).any (badReg s.g i) = false := by
  obtain ⟨-, ok, clean⟩ := h
  rw [List.any_eq_false]
  intro o ho bad
  cases hu : x.u with
  | false =>
    rw [memStrands, hu, if_neg Bool.false_ne_true] at hi
    rw [clean hu i hi o ho] at bad
    exact Bool.false_ne_true bad
  | true =>
    obtain ⟨isv, -⟩ := badReg_iff.mp (show badReg s.g i (o.1, o.2) = true from bad)
    simp only [memOk, hu, Bool.not_true, Bool.and_false, Bool.or_false, Bool.and_eq_true] at ok
    obtain ⟨⟨⟨⟨⟨-, base⟩, offset⟩, -⟩, data⟩, -⟩ := ok
    have off : ∀ o, isS o = true → isV o = false := fun o h => by cases o <;> simp_all [isS, isV]
    have shortOff : ∀ o, isShort o = true → isV o = false := fun o h => by cases o <;> simp_all [isShort, isV]
    simp only [memSrcs, List.mem_append] at ho
    rcases ho with ho | ho
    · by_cases rel : (x.a == .im 3) = true
      · rw [if_pos rel] at ho
        exact absurd ho List.not_mem_nil
      · simp only [rel, Bool.false_eq_true, if_false, List.mem_cons, List.not_mem_nil, or_false, Bool.false_or, Bool.or_eq_true] at ho base offset
        rcases ho with rfl | rfl
        · simp [off _ base] at isv
        · rcases offset with offset | offset
          · simp [off _ offset] at isv
          · simp [shortOff _ offset] at isv
    · by_cases zero : nc = 0
      · simp [zero] at ho
      · simp only [zero, if_false, List.mem_singleton] at ho
        simp only [beq_iff_eq, zero, Bool.or_eq_true, false_or] at data
        rw [ho] at isv
        simp [off _ data] at isv

/-- An access that traps in the first strand traps before any effect. -/
theorem runMem_first_trap {x : Fields} {ok : Bool} {srcs : List (Opnd × Nat)} {f : Nat → DWord → Nat → State → Access} {s : State}
    {i cause sub : Nat} {rest : List Nat} {a : Option DWord} (h : ordOf x = 0) (hok : ok = true) (strands : memStrands s.g x = i :: rest)
    (clean : srcs.any (badReg s.g i) = false) (traps : f s.g.carry (memAddr s.g x i) i s = .trap cause sub a s) :
    runMem x ok srcs f s = trapped ⟨cause, sub, a, i⟩ s := by
  have one : strandAccess x srcs f s.g.carry i s = .trap cause sub a s := by rw [strandAccess, clean, if_neg Bool.false_ne_true, traps]
  rw [runMem_relaxed h hok, strands, runEach, one]
  simp only [closeAccess, keepRead_zero]

/-! #### The first checks of R225 -/

theorem resolve_noSpace {g : Group} {va : DWord} {s : State} {n : Nat} {acc : Acc} (h0 : va.toNat / 2 ^ 56 ≠ 0) (hFE : va.toNat / 2 ^ 56 ≠ 0xFE)
    (hFF : va.toNat / 2 ^ 56 ≠ 0xFF) : resolve g va n acc false s = (.bad 0x08 3, s) := by
  unfold resolve
  simp only [h0, hFE, hFF, if_false, ne_eq, not_false_eq_true, if_true]

theorem resolve_misaligned {g : Group} {va : DWord} {s : State} {n : Nat} {acc : Acc} (h0 : va.toNat / 2 ^ 56 = 0) (h : va.toNat % n ≠ 0) :
    resolve g va n acc false s = (.bad 0x0B 0, s) := by
  unfold resolve
  simp only [h0, h, ne_eq, not_true_eq_false, not_false_eq_true, if_true, if_false, OfNat.zero_ne_ofNat]

variable {ty : Ty} {x : Fields} {stamp i cause sub : Nat} {va : DWord} {s t : State}

theorem loadOne_bad (h : resolve s.g va (memBytes ty x) .read false s = (.bad cause sub, t)) :
    loadOne ty x stamp va i s = .trap cause sub (some va) t := by
  simp only [loadOne, h, badPlace]

theorem atomOne_bad {op : AtomOp} (h : resolve s.g va (atomBytes ty) .write false s = (.bad cause sub, t)) :
    atomOne op ty x stamp va i s = .trap cause sub (some va) t := by
  simp only [atomOne, h, badPlace]

theorem redOne_bad {op : RedOp} (h : resolve s.g va (atomBytes ty) .write false s = (.bad cause sub, t)) :
    redOne op ty x stamp va i s = .trap cause sub (some va) t := by
  simp only [redOne, h, badPlace]

theorem length_bytesOfWords (l : List Word) : (bytesOfWords l).length = 4 * l.length := by
  induction l with
  | nil => rfl
  | cons w l ih =>
    rw [bytesOfWords, List.flatMap_cons, List.length_append, ← bytesOfWords, ih, bytesOf, leBytes_length, List.length_cons]
    omega

theorem memRegs_pos (ty : Ty) (x : Fields) : 0 < memRegs ty x := by
  unfold memRegs
  split <;> positivity

theorem memBytes_le (ty : Ty) (x : Fields) : memBytes ty x ≤ 4 * memRegs ty x := by
  have := memRegs_pos ty x
  unfold memBytes
  split <;> omega

/-- The data of a store are as many bytes as it accesses. -/
theorem length_storeData {g : Group} (h : isS x.c = true ∨ isV x.c = true) :
    ((bytesOfWords (dataRegs g x i (memRegs ty x))).take (memBytes ty x)).length = memBytes ty x := by
  have regs : (dataRegs g x i (memRegs ty x)).length = memRegs ty x := by
    unfold dataRegs
    split <;> simp_all [isS, isV]
  rw [List.length_take, length_bytesOfWords, regs]
  exact Nat.min_eq_left (memBytes_le ty x)

theorem relaxedOk_data {code : Bool} {nd nc : Nat} (h : relaxedOk x code nd nc s) (pos : nc ≠ 0) : isS x.c = true ∨ isV x.c = true := by
  obtain ⟨-, ok, -⟩ := h
  simp only [memOk, Bool.and_eq_true, Bool.or_eq_true, beq_iff_eq, pos, false_or] at ok
  obtain ⟨⟨-, data⟩, -⟩ := ok
  exact data.imp_right And.left

theorem storeOne_bad (data : isS x.c = true ∨ isV x.c = true) (h : resolve s.g va (memBytes ty x) .write false s = (.bad cause sub, t)) :
    storeOne ty x stamp va i s = .trap cause sub (some va) t := by
  simp only [storeOne, length_storeData data, h, badPlace]

end Sys2Proof.Groups

/-! ### The order of the checks (R113, R225) -/

namespace Sys2Proof.Groups

open Sys2Proof Sys2Proof.Machine Sys2Proof.Safety Sys2Proof.Laws Sys2Proof.NumberFormats

/-- Operands that fail step 5 trap whatever the guards. -/
theorem runMap_bad {x : Fields} {ok : Bool} {srcs : List (Opnd × Nat)} {val : Group → Nat → List Word} {s : State} (h : ok = false) :
    runMap x ok srcs val s = trapped (wordTrap 0x02) s := runAlu_bad h

theorem runElems_bad {t : Ty} {x : Fields} {f : Int → Int → Int} {s : State} (h : okDAB t s.g x = false) :
    runElems t x f s = trapped (wordTrap 0x02) s := runMap_bad h

theorem runElem_bad {t : Ty} {x : Fields} {f : Int → Int} {s : State} (h : okDA t s.g x = false) :
    runElem t x f s = trapped (wordTrap 0x02) s := runMap_bad h

theorem runRaw_bad {t : Ty} {x : Fields} {f : Nat → Nat} {s : State} (h : okDA t s.g x = false) :
    runRaw t x f s = trapped (wordTrap 0x02) s := runMap_bad h

theorem execImul_bad {f : MulForm} (narrow : f = .lo ∨ f = .hi) {ty : Ty} {x : Fields} {s : State} (h : okDAB ty s.g x = false) :
    execImul f ty x s = trapped (wordTrap 0x02) s := by
  rcases narrow with rfl | rfl <;> simp only [execImul, runElems_bad h]

theorem execLop_bad {f : LopForm} (two : f = .and ∨ f = .or ∨ f = .xor) {ty : Ty} {x : Fields} {s : State}
    (h : okDAB ty s.g x = false) : execLop f ty x s = trapped (wordTrap 0x02) s := by
  rcases two with rfl | rfl | rfl <;> simp only [execLop, runMap_bad h]

theorem runIndirect_bad {x : Fields} {link : Group → Group} {s : State} (h : ∀ k, x.a = .s k → k.toNat % 2 ≠ 0 ∨ 63 ≤ k.toNat) :
    runIndirect x link s = trapped (wordTrap 0x02) s := by
  refine need_bad ?_ _ _ _
  unfold okTarget
  cases ha : x.a with
  | s k =>
    have := h k ha
    simp only [isSPair, isS, opIdx, regOk, Bool.true_and, Bool.and_eq_false_iff, decide_eq_false_iff_not]
    omega
  | v k => rfl
  | sp k => rfl
  | im k => rfl

/-- A floating-point instruction of two operands: step 5, then the jet order, then `FMT` (R91, R113). -/
theorem runArith2_checks {ty : Ty} {x : Fields} {op : Nat → FV → FV → FV} {ser : Nat → Nat → DWord → List Nat → List Nat → List CoefRes}
    {s : State} : (okF2 ty x s.g = false → runArith2 ty x op ser s = trapped (wordTrap 0x02) s) ∧
      (okF2 ty x s.g = true → (ty ≠ .f32 ∧ s.g.jord ≠ 0) → runArith2 ty x op ser s = trapped (wordTrap 0x15) s) ∧
      (okF2 ty x s.g = true → ¬ (ty ≠ .f32 ∧ s.g.jord ≠ 0) → fmtBad s.g.fmt = true → runArith2 ty x op ser s = trapped (wordTrap 0x11) s) := by
  refine ⟨fun bad => need_bad bad _ _ _, fun ok order => ?_, fun ok order fmt => ?_⟩
  · exact (need_ok ok _ _ _).trans (need_bad (by simpa [orderOk] using order) _ _ _)
  · have inOrder : orderOk ty s.g = true := by
      rw [orderOk, Bool.or_eq_true, beq_iff_eq, beq_iff_eq]
      tauto
    exact (need_ok ok _ _ _).trans ((need_ok inOrder _ _ _).trans (need_bad (by rw [fmt]; rfl) _ _ _))

theorem runArith2_cases {ty : Ty} {x : Fields} {o : Instr} (s : State) (h : o = .fadd ty x ∨ o = .fsub ty x ∨ o = .fmul ty x ∨ o = .fdiv ty x) :
    ∃ op ser, exec o s = runArith2 ty x op ser s := by
  rcases h with rfl | rfl | rfl | rfl
  · exact ⟨_, _, NumberFormats.exec_fadd ty x s⟩
  · exact ⟨_, _, NumberFormats.exec_fsub ty x s⟩
  · exact ⟨_, _, NumberFormats.exec_fmul ty x s⟩
  · exact ⟨_, _, NumberFormats.exec_fdiv ty x s⟩

/-- A relaxed access whose checks of R225 fail traps in its first strand. -/
theorem access_traps {ty : Ty} {x : Fields} {s : State} {i n : Nat} {rest : List Nat} {o : Instr} (strands : memStrands s.g x = i :: rest)
    (h : (o = .ld ty x ∧ n = memBytes ty x ∧ relaxedOk x true (memRegs ty x) 0 s) ∨
      (o = .st ty x ∧ n = memBytes ty x ∧ relaxedOk x false 0 (memRegs ty x) s) ∨
      (∃ op, o = .atom op ty x ∧ n = atomBytes ty ∧ op ≠ .cas ∧ relaxedOk x false (atomRegs ty) (atomRegs ty) s) ∨
      (∃ op, o = .red op ty x ∧ n = atomBytes ty ∧ relaxedOk x false 0 (atomRegs ty) s))
    {cause sub : Nat} (bad : ∀ acc, resolve s.g (memAddr s.g x i) n acc false s = (.bad cause sub, s)) :
    exec o s = trapped ⟨cause, sub, some (memAddr s.g x i), i⟩ s := by
  have first : i ∈ memStrands s.g x := by rw [strands]; exact List.mem_cons_self
  rcases h with ⟨rfl, rfl, ok⟩ | ⟨rfl, rfl, ok⟩ | ⟨op, rfl, rfl, other, ok⟩ | ⟨op, rfl, rfl, ok⟩
  · rw [exec_ld, execLd]
    exact runMem_first_trap ok.1 ok.2.1 strands (relaxedOk_clean ok first) (loadOne_bad (bad .read))
  · rw [exec_st, execSt]
    exact runMem_first_trap ok.1 ok.2.1 strands (relaxedOk_clean ok first)
      (storeOne_bad (relaxedOk_data ok (memRegs_pos ty x).ne') (bad .write))
  · rw [exec_atom, execAtom]
    refine runMem_first_trap ok.1 ok.2.1 strands ?_ (atomOne_bad (bad .write))
    rw [if_neg (by simpa using other), List.append_nil]
    exact relaxedOk_clean ok first
  · rw [exec_red, execRed]
    exact runMem_first_trap ok.1 ok.2.1 strands (relaxedOk_clean ok first) (redOne_bad (bad .write))

/-- Settles O14: every instruction of the clauses begins with its checks, in the order of R113 and R225. -/
theorem checkOrder : Obligations.CheckOrder := by
  refine ⟨fun ty x s => ⟨fun bad i h => ?_, fun bad i h => ?_, fun bad i h => ?_, fun bad i h => ?_, fun bad => ?_, fun hp hq f => ?_⟩,
    fun ty x s o h => ?_, fun ty x s i rest o n strands h => ⟨fun h0 hFE hFF => ?_, fun h0 odd => ?_⟩⟩
  · rcases h with ⟨f, rfl | rfl⟩ | rfl | rfl | rfl | rfl | rfl | rfl | rfl
    · exact (exec_iadd f ty x s).trans (runElems_bad bad)
    · exact (exec_isub f ty x s).trans (runElems_bad bad)
    · exact (exec_imul .lo ty x s).trans (execImul_bad (by decide) bad)
    · exact (exec_imul .hi ty x s).trans (execImul_bad (by decide) bad)
    · exact (exec_imin ty x s).trans (runElems_bad bad)
    · exact (exec_imax ty x s).trans (runElems_bad bad)
    · exact (exec_lop .and ty x s).trans (execLop_bad (by decide) bad)
    · exact (exec_lop .or ty x s).trans (execLop_bad (by decide) bad)
    · exact (exec_lop .xor ty x s).trans (execLop_bad (by decide) bad)
  · rcases h with rfl | rfl | rfl | rfl | rfl | rfl
    · exact (exec_ineg ty x s).trans (runElem_bad bad)
    · exact (exec_iabs ty x s).trans (runElem_bad bad)
    · exact (exec_clz ty x s).trans (runRaw_bad bad)
    · exact (exec_ffs ty x s).trans (runRaw_bad bad)
    · exact (exec_popc ty x s).trans (runRaw_bad bad)
    · exact (exec_brev ty x s).trans (runRaw_bad bad)
  · obtain ⟨op, ser, run⟩ := runArith2_cases s h
    rw [run, runArith2_checks.1 bad]
  · rcases h with rfl | rfl | rfl
    · exact (exec_brx x s).trans (runIndirect_bad bad)
    · exact (exec_callIndirect x s).trans (runIndirect_bad bad)
    · exact (exec_ret x s).trans (runIndirect_bad bad)
  · rw [exec_fmt]
    exact need_bad (by simp [isSPair, bad]) _ _ _
  · have noDest : (isP x.d || isQ x.d) = false := by rw [hp, hq]; rfl
    rw [exec_vote]
    cases f with
    | ballot => exact .inr rfl
    | all => exact .inl (need_bad (by rw [noDest, Bool.and_false]) _ _ _)
    | any => exact .inl (need_bad (by rw [noDest, Bool.and_false]) _ _ _)
    | same => exact .inl (need_bad (by rw [noDest, Bool.and_false, Bool.false_and]) _ _ _)
  · obtain ⟨op, ser, run⟩ := runArith2_cases s h
    rw [run]
    exact runArith2_checks
  · exact access_traps strands h fun _ => resolve_noSpace h0 hFE hFF
  · exact access_traps strands h fun _ => resolve_misaligned h0 odd

end Sys2Proof.Groups

/-! ### Places in local store (R206, R225, R317, R319) -/

namespace Sys2Proof.Groups

open Sys2Proof Sys2Proof.Machine Sys2Proof.Safety Sys2Proof.Laws Sys2Proof.NumberFormats

/-! #### The global space holds no local store -/

theorem placeOf_not_loc (s : State) (eid : Nat) (e : DWord) (shift : Nat) (va : DWord) (c a : Nat) : placeOf s eid e shift va ≠ .loc c a := by
  simp only [placeOf]
  repeat' split
  all_goals nofun

theorem growMap_not_loc (k : Option Nat) (eid die : Nat) (parent : DWord) (at_ : Nat) (va : DWord) (s : State) (c a : Nat) :
    (growMap k eid die parent at_ va s).1 ≠ .loc c a := by
  unfold growMap
  split
  · simp
  · exact placeOf_not_loc _ _ _ _ _ c a

theorem walk_not_loc (k : Option Nat) (eid die : Nat) (va : DWord) (acc : Acc) (s : State) (c a : Nat) :
    (walk k eid die va acc s).1 ≠ .loc c a := by
  unfold walk
  simp only
  split
  · simp
  · simp
  · split
    · simp
    · simp
    · exact growMap_not_loc _ _ _ _ _ _ _ c a
  · split
    · simp
    · exact placeOf_not_loc _ _ _ _ _ c a

theorem translate_not_loc (k : Option Nat) (eid die : Nat) (va : DWord) (acc : Acc) (s : State) (c a : Nat) :
    (Machine.translate k eid die va acc s).1 ≠ .loc c a := by
  unfold Machine.translate
  split
  · exact walk_not_loc _ _ _ _ _ _ c a
  · unfold translateBy
    repeat' split
    · exact walk_not_loc _ _ _ _ _ _ c a
    · exact walk_not_loc _ _ _ _ _ _ c a
    · simp
    · exact placeOf_not_loc _ _ _ _ _ c a

/-! #### The windows -/

/-- Where an address of a window leads (R206, R225, R319). -/
def windowed (g : Group) (va : DWord) (size : Nat) (s : State) : Place :=
  let p := if va.toNat / 2 ^ 56 = 0xFF then
      match findTeam s g.tid with
      | none => .bad 0x08 4
      | some t => windowPlace s t (va.toNat % 2 ^ 56)
    else pooledPlace s g.launch g.gang (coreNo g) (va.toNat % 2 ^ 56)
  match p with
  | .bad cause sub => .bad cause sub
  | p => if va.toNat % size = 0 then p else .bad 0x0B 0

theorem resolve_windowed {g : Group} {va : DWord} {size : Nat} {acc : Acc} {s : State}
    (h : va.toNat / 2 ^ 56 = 0xFF ∨ va.toNat / 2 ^ 56 = 0xFE) :
    resolve g va size acc false s = crossTo (coreNo g) (windowed g va size s, s) := by
  unfold resolve windowed
  rcases h with h | h
  · simp only [h, if_true, Bool.false_eq_true, if_false]
    cases findTeam s g.tid with
    | none => rfl
    | some t =>
      simp only
      cases windowPlace s t (va.toNat % 2 ^ 56) <;> simp only <;> split <;> rfl
  · simp only [h, if_true, Bool.false_eq_true, if_false, Nat.reduceEqDiff]
    cases pooledPlace s g.launch g.gang (coreNo g) (va.toNat % 2 ^ 56) <;> simp only <;> split <;> rfl

/-- Two states, with their running groups, in which every window leads to the same places. -/
structure SameWindows (s t : State) : Prop where
  teams : t.teams = s.teams
  launches : t.launches = s.launches
  splits : ∀ c, (coreAt t c).splitTo = (coreAt s c).splitTo ∧ (coreAt t c).localUnits = (coreAt s c).localUnits
  group : t.g.tid = s.g.tid ∧ t.g.launch = s.g.launch ∧ t.g.gang = s.g.gang ∧ coreNo t.g = coreNo s.g

theorem windowed_congr {s t : State} (h : SameWindows s t) (va : DWord) (size : Nat) : windowed t.g va size t = windowed s.g va size s := by
  obtain ⟨teams, launches, splits, tid, launch, gang, core⟩ := h
  have change : inChange t = inChange s := by
    funext c a
    rw [inChange, inChange, (splits c).1, (splits c).2]
  simp only [windowed, findTeam, windowPlace, splitCheck, change, pooledPlace, pooledTo, pooledCore, pooledAt, gangTeam, otherHalf, findGang,
    findLaunch, teams, launches, tid, launch, gang, core]

/-- An access that leads to local store leads there from every state with the same windows; one of another core crosses the bus. -/
theorem resolve_local {s t : State} {va : DWord} {n c a : Nat} {acc : Acc} (h : (resolve s.g va n acc false s).1 = .loc c a)
    (same : SameWindows s t) : resolve t.g va n acc false t = (.loc c a, if c = coreNo t.g then t else cross t) := by
  have window : va.toNat / 2 ^ 56 = 0xFF ∨ va.toNat / 2 ^ 56 = 0xFE := by
    by_contra out
    rw [not_or] at out
    unfold resolve at h
    simp only [out.1, out.2, if_false] at h
    split at h
    · simp at h
    · split at h
      · simp at h
      · exact translate_not_loc _ _ _ _ _ _ c a h
  rw [resolve_windowed window] at h ⊢
  rw [windowed_congr same]
  have place : windowed s.g va n s = .loc c a := by
    rw [← h]
    unfold crossTo
    split <;> simp_all
  rw [place]
  rfl

end Sys2Proof.Groups

/-! ### Loads from local store (R43, R224, R226) -/

namespace Sys2Proof.Groups

open Sys2Proof Sys2Proof.Machine Sys2Proof.Safety Sys2Proof.Laws Sys2Proof.NumberFormats

/-! #### What a load commits -/

/-- The registers that a load commits: those of the strand, or once for the group. -/
def commit (x : Fields) (i : Nat) (ws : List Word) (g : Group) : Group := if x.u then writeUni g x.d ws else writeRegs g i x.d ws

/-- A group that has learnt of writes up to some times. -/
def taught (a b : Nat) (g : Group) : Group := { g with gwts := a, gwtsTeam := b }

theorem vSets_taught (a b : Nat) (g : Group) (i r : Nat) (l : List Word) : vSets (taught a b g) i r l = taught a b (vSets g i r l) := by
  induction l generalizing g r with
  | nil => rfl
  | cons w l ih => exact ih (vSet g i r w) (r + 1)

theorem sSets_taught (a b : Nat) (g : Group) (r : Nat) (l : List Word) : sSets (taught a b g) r l = taught a b (sSets g r l) := by
  induction l generalizing g r with
  | nil => rfl
  | cons w l ih => exact ih (sSet g r w) (r + 1)

theorem writeRegs_taught (a b : Nat) (g : Group) (i : Nat) (o : Opnd) (l : List Word) :
    writeRegs (taught a b g) i o l = taught a b (writeRegs g i o l) := by
  cases o with
  | v n => exact vSets_taught a b g i _ l
  | s n => exact sSets_taught a b g _ l
  | sp n => rfl
  | im n => rfl

theorem writeUni_taught (a b : Nat) (g : Group) (o : Opnd) (l : List Word) : writeUni (taught a b g) o l = taught a b (writeUni g o l) := by
  cases o with
  | v n =>
    show (castList g).foldl (fun h i => vSets h i n.toNat l) (taught a b g) = taught a b ((castList g).foldl (fun h i => vSets h i n.toNat l) g)
    generalize castList g = is
    induction is generalizing g with
    | nil => rfl
    | cons i is ih => rw [List.foldl_cons, List.foldl_cons, vSets_taught, ih]
  | s n => exact sSets_taught a b g _ l
  | sp n => rfl
  | im n => rfl

theorem commit_taught (x : Fields) (i : Nat) (ws : List Word) (a b : Nat) (g : Group) :
    commit x i ws (taught a b g) = taught a b (commit x i ws g) := by
  unfold commit
  split
  · exact writeUni_taught a b g x.d ws
  · exact writeRegs_taught a b g i x.d ws

/-- From `s` to `t` the running group has become `h`, but for what it has learnt of other groups' writes; what crosses a bus is
counted. -/
structure Learnt (h : Group) (s t : State) : Prop where
  rest : t = { s with g := t.g, others := t.others, traffic := t.traffic }
  group : t.g = taught t.g.gwts t.g.gwtsTeam h
  kept : h = taught s.g.gwts s.g.gwtsTeam h

theorem Learnt.start (s : State) : Learnt s.g s s := ⟨rfl, rfl, rfl⟩

theorem Learnt.cores {h : Group} {s t : State} (l : Learnt h s t) : t.cores = s.cores := by rw [l.rest]

theorem Learnt.cross {h : Group} {s t : State} (l : Learnt h s t) : Learnt h s (cross t) :=
  ⟨by rw [Machine.cross, l.rest], l.group, l.kept⟩

theorem Learnt.commit {h : Group} {s t : State} (l : Learnt h s t) (x : Fields) (i : Nat) (ws : List Word) :
    Learnt (commit x i ws h) s (commitRegs x i ws t) where
  rest := by rw [commitRegs, setG, l.rest]
  group := by
    have g : (commitRegs x i ws t).g = taught t.g.gwts t.g.gwtsTeam (Groups.commit x i ws h) := by
      rw [← commit_taught, ← l.group]
      rfl
    rw [g]
    rfl
  kept := by rw [← commit_taught, ← l.kept]

theorem Learnt.seeLocal {h : Group} {s t : State} (l : Learnt h s t) (c a n : Nat) : Learnt h s (seeLocal c a n t) where
  rest := by rw [seeLocal_rest, l.rest]
  group := by
    have g : ∃ p q, (Machine.seeLocal c a n t).g = taught p q t.g := by
      rw [Machine.seeLocal, raiseGwts, modGroups_g]
      split
      · exact ⟨_, _, rfl⟩
      · exact ⟨t.g.gwts, t.g.gwtsTeam, rfl⟩
    obtain ⟨p, q, g⟩ := g
    rw [g, l.group]
    rfl
  kept := l.kept

theorem Learnt.windows {h : Group} {s t : State} (l : Learnt h s t)
    (g : h.tid = s.g.tid ∧ h.launch = s.g.launch ∧ h.gang = s.g.gang ∧ coreNo h = coreNo s.g) : SameWindows s t where
  teams := by rw [l.rest]
  launches := by rw [l.rest]
  splits := fun c => by rw [coreAt, l.cores]; exact ⟨rfl, rfl⟩
  group := by rw [l.group]; exact g

/-- What remains after the last strand of a load is the group with its registers. -/
theorem Learnt.unlearned {h : Group} {s t : State} (l : Learnt h s t) :
    unlearned s (setG (advance t.g) t) = setG (advance h) s := by
  have g : { advance t.g with gwts := s.g.gwts, gwtsTeam := s.g.gwtsTeam } = advance h := by
    rw [l.kept, l.group]
    rfl
  rw [Safety.unlearned, setG_g, g, setG, setG, l.rest]

/-! #### The strands of a load -/

theorem agree_memAddr {keep : Bool} {i : Nat} {g h : Group} (a : agree keep i g h) (x : Fields)
    (fits : opIdx x.a + 1 < 256 ∨ isV x.a = false) : memAddr h x i = memAddr g x i := by
  rw [memAddr, memAddr, agree_pc a, agree_read64 a x fits, agree_read32 a]

/-- The operands of a relaxed access lie within the registers. -/
theorem relaxedOk_base {x : Fields} {code : Bool} {nd nc : Nat} {s : State} (h : relaxedOk x code nd nc s) :
    opIdx x.a + 1 < 256 ∨ isV x.a = false := by
  by_cases rel : x.a = .im 3
  · rw [rel]
    exact .inr rfl
  · obtain ⟨-, ok, -⟩ := h
    simp only [memOk, beq_iff_eq, rel, if_false, Bool.and_eq_true] at ok
    obtain ⟨-, regs⟩ := ok
    exact pair_lt (regsOk_cons regs).1

theorem regsOk_mem {g : Group} {l : List (Opnd × Nat)} (h : regsOk g l = true) {o : Opnd × Nat} (ho : o ∈ l) : regOk g o.1 o.2 = true := by
  induction l with
  | nil => exact absurd ho List.not_mem_nil
  | cons e l ih =>
    obtain ⟨first, rest⟩ := regsOk_cons h
    rcases List.mem_cons.mp ho with rfl | ho
    · exact first
    · exact ih rest ho

theorem relaxedOk_dest {x : Fields} {code : Bool} {nd nc : Nat} {s : State} (h : relaxedOk x code nd nc s) (pos : nd ≠ 0) :
    isDst x x.d = true ∧ regOk s.g x.d nd = true := by
  obtain ⟨-, ok, -⟩ := h
  simp only [memOk, pos, beq_iff_eq, if_false, Bool.and_eq_true, Bool.or_eq_true, false_or] at ok
  obtain ⟨⟨⟨-, dest⟩, -⟩, regs⟩ := ok
  exact ⟨by simpa [isDst] using dest, regsOk_mem (o := (x.d, nd)) regs (by simp)⟩

/-- Strands that have committed leave the others as they were. -/
structure Untouched (l : List Nat) (s : State) (h : Group) : Prop where
  agrees : ∀ i ∈ l, agree true i s.g h
  poison : ∀ k ∈ h.vPoison, k ∈ s.g.vPoison
  here : h.tid = s.g.tid ∧ h.launch = s.g.launch ∧ h.gang = s.g.gang ∧ coreNo h = coreNo s.g

theorem untouched_commit {x : Fields} {n i : Nat} {l : List Nat} {s : State} {h : Group} {ws : List Word} (u : Untouched (i :: l) s h)
    (dest : isDst x x.d = true) (fits : opIdx x.d + n ≤ 256) (len : ws.length = n) (nodup : (i :: l).Nodup)
    (bound : ∀ j ∈ i :: l, j < 64) (alone : x.u = true → l = []) : l = [] ∨ Untouched l s (commit x i ws h) := by
  cases hu : x.u with
  | true => exact .inl (alone hu)
  | false =>
    have own : Own true i (fun g => writeRegs g i x.d ws) :=
      own_writeRegs (bound i List.mem_cons_self) (isDst_zero dest hu) fits (fun _ => ws) fun _ => len
    have frame : commit x i ws h = writeRegs h i x.d ws := by rw [commit, hu, if_neg Bool.false_ne_true]
    rw [frame]
    refine .inr ⟨fun j hj => agree_trans (u.agrees j (List.mem_cons_of_mem i hj)) (own.other h j ?_ (bound j (List.mem_cons_of_mem i hj))),
      fun k hk => u.poison k (own.poison h k hk), ?_⟩
    · rintro rfl
      exact (List.nodup_cons.mp nodup).1 hj
    · have rest := own.rest h
      have same : ∀ {α : Type} (f : Group → α), (∀ g : Group, ∀ v p q r, f { g with v := v, vPoison := p, p := q, jx := r } = f g) →
          f (writeRegs h i x.d ws) = f h := fun f hf => (hf _ _ _ _ _).symm.trans (congrArg f rest)
      rw [same Group.tid fun _ _ _ _ _ => rfl, same Group.launch fun _ _ _ _ _ => rfl, same Group.gang fun _ _ _ _ _ => rfl,
        same coreNo fun _ _ _ _ _ => rfl]
      exact u.here

/-- The words that strand `i` loads. -/
def loaded (ty : Ty) (x : Fields) (s : State) (place : Nat → Nat × Nat) (i : Nat) : List Word :=
  let p := place (if x.u then 0 else i)
  loadWords ty (localRead s p.1 p.2 (memBytes ty x))

/-- A strand's load of local store, after strands that have left it as it was. -/
theorem loadOne_local {ty : Ty} {x : Fields} {s t : State} {h : Group} {i c a stamp : Nat} (l : Learnt h s t)
    (here : h.tid = s.g.tid ∧ h.launch = s.g.launch ∧ h.gang = s.g.gang ∧ coreNo h = coreNo s.g) {va : DWord}
    (leads : (resolve s.g va (memBytes ty x) .read false s).1 = .loc c a) (sound : localError s c a (memBytes ty x) = false) :
    ∃ w t', loadOne ty x stamp va i t = .done w t' ∧ Learnt (commit x i (loadWords ty (localRead s c a (memBytes ty x))) h) s t' := by
  have crossed : Learnt h s (if c = coreNo t.g then t else cross t) := by
    split
    · exact l
    · exact l.cross
  have at_ := resolve_local leads (l.windows here)
  generalize (if c = coreNo t.g then t else cross t) = t' at at_ crossed
  have sound' : localError t' c a (memBytes ty x) = false := by
    rw [localError, coreAt, crossed.cores]
    exact sound
  have read : localRead t' c a (memBytes ty x) = localRead s c a (memBytes ty x) := by
    rw [localRead, coreAt, crossed.cores]
    rfl
  refine ⟨localSeen t'.g x.md.toNat c a (memBytes ty x) t', _, ?_, (crossed.seeLocal c a (memBytes ty x)).commit x i _⟩
  simp only [loadOne, at_, sound', Bool.false_eq_true, if_false, read]

theorem loads_local {ty : Ty} {x : Fields} {s : State} {place : Nat → Nat × Nat} {n : Nat} (ok : relaxedOk x true n 0 s)
    (fits : opIdx x.d + n ≤ 256) (dest : isDst x x.d = true) (len : ∀ i, (loaded ty x s place i).length = n) :
    ∀ (l : List Nat) {h : Group} {t : State} {w : Nat}, l.Nodup → (∀ i ∈ l, i ∈ memStrands s.g x ∧ i < 64) → Learnt h s t →
      l = [] ∨ Untouched l s h →
      (∀ i ∈ l, (resolve s.g (memAddr s.g x i) (memBytes ty x) .read false s).1 = .loc (place i).1 (place i).2 ∧
        localError s (place i).1 (place i).2 (memBytes ty x) = false) →
      ∃ w' t', runEach (strandAccess x (memSrcs x 0) (loadOne ty x) s.g.carry) l w t = (0, w', .done w' t') ∧
        Learnt (l.foldl (fun g i => commit x i (loaded ty x s place i) g) h) s t' := by
  intro l
  induction l with
  | nil => exact fun _ _ learnt _ _ => ⟨_, _, rfl, learnt⟩
  | cons i l ih =>
    intro h t w nodup strands learnt left leads
    have left : Untouched (i :: l) s h := left.resolve_left (List.cons_ne_nil i l)
    obtain ⟨at_, sound⟩ := leads i List.mem_cons_self
    have strand := (strands i List.mem_cons_self).1
    have only : x.u = true → i = 0 ∧ l = [] := by
      intro hu
      have zero : ∀ j ∈ i :: l, j = 0 := fun j hj => by
        have := (strands j hj).1
        rw [memStrands, hu, if_pos rfl] at this
        split at this <;> simp_all
      refine ⟨zero i List.mem_cons_self, List.eq_nil_iff_forall_not_mem.mpr fun j hj => ?_⟩
      have same : i = j := (zero i List.mem_cons_self).trans (zero j (List.mem_cons_of_mem i hj)).symm
      exact (List.nodup_cons.mp nodup).1 (same ▸ hj)
    have words : loaded ty x s place i = loadWords ty (localRead s (place i).1 (place i).2 (memBytes ty x)) := by
      unfold loaded
      split
      · rw [(only ‹_›).1]
      · rfl
    have addr : memAddr t.g x i = memAddr s.g x i := by
      rw [learnt.group]
      exact agree_memAddr (left.agrees i List.mem_cons_self) x (relaxedOk_base ok)
    have clean : (memSrcs x 0).any (badReg t.g i) = false := by
      have was := relaxedOk_clean ok strand
      rw [List.any_eq_false] at was ⊢
      intro o ho
      rw [Bool.not_eq_true]
      refine badReg_mono (fun k hk => left.poison k ?_) (by simpa using was o ho)
      rw [learnt.group] at hk
      exact hk
    obtain ⟨v, t', one, learnt'⟩ := loadOne_local (stamp := s.g.carry) (i := i) learnt left.here at_ sound
    rw [← words] at learnt'
    have first : strandAccess x (memSrcs x 0) (loadOne ty x) s.g.carry i t = .done v t' := by
      rw [strandAccess, clean, if_neg Bool.false_ne_true, addr, one]
    rw [runEach, first]
    exact ih (List.nodup_cons.mp nodup).2 (fun j hj => strands j (List.mem_cons_of_mem i hj)) learnt'
      (untouched_commit left dest fits (len i) nodup (fun j hj => (strands j hj).2) fun hu => (only hu).2)
      fun j hj => leads j (List.mem_cons_of_mem i hj)

/-! #### The loaded words -/

theorem length_wordsOf (n : Nat) : ∀ b : List Byte, b.length = 4 * n → (wordsOf b).length = n := by
  induction n with
  | zero => intro b h; rw [List.eq_nil_of_length_eq_zero h]; rfl
  | succ n ih =>
    intro b h
    match b with
    | b0 :: b1 :: b2 :: b3 :: b =>
      rw [wordsOf, List.length_cons, ih b (by simp only [List.length_cons] at h; omega)]
    | [_, _, _] | [_, _] | [_] | [] => simp only [List.length_cons, List.length_nil] at h; omega

theorem ld_form {ty : Ty} {x : Fields} (wf : WellFormed (.ld ty x)) (short : isLong x = false) :
    (memCounts ty).contains (countOf x) = true ∧ ty ≠ .q4 := by
  simp only [WellFormed, fieldsLegal, memForm, short, Bool.false_or, Bool.and_eq_true, bne_iff_ne] at wf
  obtain ⟨⟨⟨-, ⟨⟨⟨-, -⟩, count⟩, -⟩, -⟩, -⟩, type⟩ := wf
  exact ⟨count, type⟩

theorem memRegs_cases {ty : Ty} {x : Fields} (h : (memCounts ty).contains (countOf x) = true) :
    memRegs ty x = 1 ∨ memRegs ty x = 2 ∨ memRegs ty x = 4 := by
  have few : ∀ k, k < 4 → (memCounts ty).contains k = true → (if isWide ty then 2 * 2 ^ k else 2 ^ k) = 1 ∨
      (if isWide ty then 2 * 2 ^ k else 2 ^ k) = 2 ∨ (if isWide ty then 2 * 2 ^ k else 2 ^ k) = 4 := by
    cases ty <;> decide
  exact few (countOf x) (BitVec.isLt _) h

theorem length_loadWords {ty : Ty} {x : Fields} (h : (memCounts ty).contains (countOf x) = true) {b : List Byte}
    (len : b.length = memBytes ty x) : (loadWords ty b).length = memRegs ty x := by
  have one : memCounts ty = [0] → isWide ty = false → memRegs ty x = 1 := by
    intro counts narrow
    rw [counts] at h
    simp only [List.contains_cons, List.contains_nil, Bool.or_false, beq_iff_eq] at h
    rw [memRegs, narrow, h]
    rfl
  unfold loadWords
  split
  · exact (one rfl rfl).symm
  · exact (one rfl rfl).symm
  · exact (one rfl rfl).symm
  · exact (one rfl rfl).symm
  · refine length_wordsOf _ b (len.trans ?_)
    unfold memBytes
    split <;> simp_all

theorem length_localRead (s : State) (c a n : Nat) : (localRead s c a n).length = n := by simp [localRead]

/-- The registers that the strands of a load commit are those of an instruction of registers with the same results. -/
theorem runMap_commits {x : Fields} {s : State} {n : Nat} {ws : Nat → List Word} (dest : isDst x x.d = true) (fits : opIdx x.d + n ≤ 256)
    (len : ∀ i, (ws i).length = n) : runMap x true [] (fun _ i => ws i) s =
      .next (setG (advance ((memStrands s.g x).foldl (fun g i => commit x i (ws i) g) s.g)) s) := by
  have own : x.u = false → ∀ i ∈ execList s.g x, ∀ g k, k ∈ (writeRegs g i x.d (ws i)).vPoison → k ∈ g.vPoison := fun hu i hi =>
    (own_writeRegs (lt_of_mem_execList hi) (isDst_zero dest hu) fits (fun _ => ws i) fun _ => len i).poison
  rw [runMap, runAlu_ran own (fun _ _ _ _ ho => absurd ho List.not_mem_nil)]
  congr 3
  unfold ran memStrands commit
  cases x.u with
  | false => rfl
  | true => cases holdsQ s.g x <;> rfl

theorem ld_local {ty : Ty} {x : Fields} {s : State} {place : Nat → Nat × Nat} (wf : WellFormed (.ld ty x))
    (ok : relaxedOk x true (memRegs ty x) 0 s)
    (leads : ∀ i ∈ memStrands s.g x, (resolve s.g (memAddr s.g x i) (memBytes ty x) .read false s).1 = .loc (place i).1 (place i).2 ∧
      localError s (place i).1 (place i).2 (memBytes ty x) = false) :
    ∃ t, exec (.ld ty x) s = .next t ∧ RegResult x (memRegs ty x) (loaded ty x s place) s (unlearned s t) := by
  have short : isLong x = false := by
    obtain ⟨-, memok, -⟩ := ok
    simp only [memOk, Bool.and_eq_true, Bool.not_eq_true'] at memok
    exact memok.1.1.1.1.1
  obtain ⟨count, -⟩ := ld_form wf short
  obtain ⟨dest, regs⟩ := relaxedOk_dest ok (memRegs_pos ty x).ne'
  have fits : opIdx x.d + memRegs ty x ≤ 256 := regOk_lt (memRegs_cases count) (isDst_vs dest) regs
  have len : ∀ i, (loaded ty x s place i).length = memRegs ty x := fun i => length_loadWords count (length_localRead _ _ _ _)
  have strands : (memStrands s.g x).Nodup ∧ ∀ i ∈ memStrands s.g x, i < 64 := by
    unfold memStrands
    split
    · split <;> simp
    · exact ⟨nodup_execList _ _, fun i => lt_of_mem_execList⟩
  obtain ⟨w, t, run, learnt⟩ := loads_local ok fits dest len (memStrands s.g x) (w := 0) strands.1 (fun i hi => ⟨hi, strands.2 i hi⟩)
    (Learnt.start s) (.inr ⟨fun _ _ => agree_refl _ _ _, fun _ h => h, rfl, rfl, rfl, rfl⟩) leads
  obtain ⟨u, alu, result⟩ := runMap_result (x := x) (srcs := []) (val := fun _ i => loaded ty x s place i) (s := s) rfl dest fits
    (fun _ i => len i) (fun _ _ _ _ _ => rfl) (fun hu i => by simp only [loaded, hu, if_true]) (fun _ _ _ _ ho => absurd ho List.not_mem_nil)
  rw [runMap_commits dest fits len] at alu
  obtain rfl := Host.Outcome.next.inj alu
  refine ⟨_, ?_, by rw [learnt.unlearned]; exact result⟩
  rw [exec_ld, execLd, runMem_relaxed ok.1 ok.2.1, run]
  rfl

end Sys2Proof.Groups

/-! ### Stores to local store, and their frame (R67, R206, R227) -/

namespace Sys2Proof.Groups

open Sys2Proof Sys2Proof.Machine Sys2Proof.Safety Sys2Proof.Laws Sys2Proof.NumberFormats

/-- From `s` to `t` local store alone has changed; what crosses a bus is counted. -/
structure OnlyStores (s t : State) : Prop where
  rest : t = { s with cores := t.cores, traffic := t.traffic }
  core : ∀ c, coreAt t c = { coreAt s c with store := (coreAt t c).store, storePoison := (coreAt t c).storePoison, storeTimes := (coreAt t c).storeTimes }

theorem OnlyStores.rfl {s : State} : OnlyStores s s := ⟨Eq.refl _, fun _ => Eq.refl _⟩

theorem OnlyStores.trans {s t u : State} (h : OnlyStores s t) (k : OnlyStores t u) : OnlyStores s u where
  rest := by rw [k.rest, h.rest]
  core c := by rw [k.core c, h.core c]

theorem OnlyStores.windows {s t : State} (h : OnlyStores s t) : SameWindows s t where
  teams := by rw [h.rest]
  launches := by rw [h.rest]
  splits c := by rw [h.core c]; exact ⟨Eq.refl _, Eq.refl _⟩
  group := by rw [h.rest]; exact ⟨Eq.refl _, Eq.refl _, Eq.refl _, Eq.refl _⟩

theorem onlyStores_cross (s : State) : OnlyStores s (cross s) := ⟨rfl, fun _ => rfl⟩

theorem coreAt_modCore (c : Nat) (f : Core → Core) (s : State) (k : Nat) :
    coreAt (modCore c f s) k = if k = c then f (coreAt s c) else coreAt s k := by
  simp [coreAt, get_set]

theorem onlyStores_localStore (tid stamp c a : Nat) (bs : List Byte) (s : State) : OnlyStores s (localStore tid stamp c a bs s) where
  rest := rfl
  core k := by
    simp only [localStore, stampLocal, localWrite, coreAt_modCore]
    split
    next same => rw [same]; simp
    next => rfl

/-- A byte of local store after a store: the byte stored there, or the old one. -/
theorem store_localStore (tid stamp c a : Nat) (bs : List Byte) (s : State) (k b : Nat) :
    Sparse.get 0 b (coreAt (localStore tid stamp c a bs s) k).store =
      if c = k ∧ a ≤ b ∧ b < a + bs.length then nth 0 bs (b - a) else Sparse.get 0 b (coreAt s k).store := by
  simp only [localStore, stampLocal, localWrite, coreAt_modCore]
  by_cases same : k = c
  · simp only [same, if_true, true_and, get_putBytes]
  · simp only [same, Ne.symm same, if_false, false_and]

/-- The bytes that strand `i` stores. -/
def storeData (ty : Ty) (x : Fields) (g : Group) (i : Nat) : List Byte :=
  (bytesOfWords (dataRegs g x i (memRegs ty x))).take (memBytes ty x)

/-- A place of `n` bytes covers byte `b` of core `c`. -/
def coversByte (p : Nat × Nat) (n c b : Nat) : Prop := p.1 = c ∧ p.2 ≤ b ∧ b < p.2 + n

/-- A strand's store, after strands that have stored to local store alone. -/
theorem storeOne_local {ty : Ty} {x : Fields} {s t : State} {i c a stamp : Nat} {va : DWord} (h : OnlyStores s t)
    (data : isS x.c = true ∨ isV x.c = true) (leads : (resolve s.g va (memBytes ty x) .write false s).1 = .loc c a) :
    ∃ t', storeOne ty x stamp va i t = .done 0 t' ∧ OnlyStores t t' ∧ ∀ k b, Sparse.get 0 b (coreAt t' k).store =
      if c = k ∧ a ≤ b ∧ b < a + memBytes ty x then nth 0 (storeData ty x s.g i) (b - a) else Sparse.get 0 b (coreAt t k).store := by
  have crossed : OnlyStores t (if c = coreNo t.g then t else cross t) ∧
      ∀ k, coreAt (if c = coreNo t.g then t else cross t) k = coreAt t k := by
    split
    · exact ⟨.rfl, fun _ => rfl⟩
    · exact ⟨onlyStores_cross t, fun _ => rfl⟩
  have at_ := resolve_local leads h.windows
  generalize (if c = coreNo t.g then t else cross t) = t' at at_ crossed
  have len : ∀ g : Group, (storeData ty x g i).length = memBytes ty x := fun g => length_storeData data
  have group : t.g = s.g := by rw [h.rest]
  refine ⟨localStore t'.g.tid stamp c a (storeData ty x s.g i) t', ?_, crossed.1.trans (onlyStores_localStore _ _ _ _ _ _), fun k b => ?_⟩
  · simp only [storeOne, ← storeData.eq_1, len, at_]
    rw [group]
  · rw [store_localStore, len, crossed.2]

theorem stores_local {ty : Ty} {x : Fields} {s : State} {place : Nat → Nat × Nat} (ok : relaxedOk x false 0 (memRegs ty x) s) :
    ∀ (l : List Nat) {t : State}, l.Pairwise (· < ·) → OnlyStores s t →
      (∀ i ∈ l, i ∈ memStrands s.g x ∧ (resolve s.g (memAddr s.g x i) (memBytes ty x) .write false s).1 = .loc (place i).1 (place i).2) →
      ∃ t', runEach (strandAccess x (memSrcs x (memRegs ty x)) (storeOne ty x) s.g.carry) l 0 t = (0, 0, .done 0 t') ∧ OnlyStores s t' ∧
        ∀ c b, (∀ i ∈ l, coversByte (place i) (memBytes ty x) c b → (∀ j ∈ l, i < j → ¬ coversByte (place j) (memBytes ty x) c b) →
            Sparse.get 0 b (coreAt t' c).store = nth 0 (storeData ty x s.g i) (b - (place i).2)) ∧
          ((∀ i ∈ l, ¬ coversByte (place i) (memBytes ty x) c b) →
            Sparse.get 0 b (coreAt t' c).store = Sparse.get 0 b (coreAt t c).store) := by
  intro l
  induction l with
  | nil => exact fun _ only _ => ⟨_, rfl, only, fun _ _ => ⟨nofun, fun _ => rfl⟩⟩
  | cons i l ih =>
    intro t sorted only strands
    obtain ⟨above, sorted'⟩ := List.pairwise_cons.mp sorted
    obtain ⟨strand, leads⟩ := strands i List.mem_cons_self
    obtain ⟨t1, one, only1, bytes1⟩ := storeOne_local (stamp := s.g.carry) (i := i) only (relaxedOk_data ok (memRegs_pos ty x).ne') leads
    have first : strandAccess x (memSrcs x (memRegs ty x)) (storeOne ty x) s.g.carry i t = .done 0 t1 := by
      have group : t.g = s.g := by rw [only.rest]
      rw [strandAccess, group, relaxedOk_clean ok strand, if_neg Bool.false_ne_true, one]
    obtain ⟨t', run, only', bytes⟩ := ih sorted' (only.trans only1) fun j hj => strands j (List.mem_cons_of_mem i hj)
    refine ⟨t', by rw [runEach, first]; exact run, only', fun c b => ⟨fun j hj on last => ?_, fun off => ?_⟩⟩
    · rcases List.mem_cons.mp hj with rfl | hj
      · rw [(bytes c b).2 fun k hk => last k (List.mem_cons_of_mem j hk) (above k hk), bytes1]
        exact if_pos on
      · exact (bytes c b).1 j hj on fun k hk => last k (List.mem_cons_of_mem i hk)
    · rw [(bytes c b).2 fun k hk => off k (List.mem_cons_of_mem i hk), bytes1]
      exact if_neg (off i List.mem_cons_self)

theorem sorted_memStrands (g : Group) (x : Fields) : (memStrands g x).Pairwise (· < ·) := by
  unfold memStrands
  split
  · split <;> simp
  · exact sorted_execList g x

/-- Settles O21: the strands act in turn; a load leaves the places of the others, and of the stores to a byte the last one stays. -/
theorem localAccess : Obligations.LocalAccess := by
  intro ty x s place
  refine ⟨fun wf ok leads => ld_local wf ok leads, fun _ ok leads => ?_⟩
  obtain ⟨t, run, only, bytes⟩ := stores_local ok (memStrands s.g x) (sorted_memStrands s.g x) .rfl fun i hi => ⟨hi, leads i hi⟩
  have group : t.g = s.g := by rw [only.rest]
  refine ⟨setG (advance t.g) t, ?_, ?_, fun c b => ⟨only.core c, fun i hi hc lo hi' last => ?_, fun off => (bytes c b).2 off⟩⟩
  · rw [exec_st, execSt, runMem_relaxed ok.1 ok.2.1, run]
    rfl
  · rw [group, only.rest]
    rfl
  · have value := (bytes c b).1 i hi ⟨hc, lo, hi'⟩ last
    rwa [storeData, nth_take _ _ (by omega)] at value

end Sys2Proof.Groups

/-! ### The ends of waits (R52, R53, R241, R250, R322, R438) -/

namespace Sys2Proof.Groups

open Sys2Proof Sys2Proof.Machine Sys2Proof.Safety Sys2Proof.Laws Sys2Proof.NumberFormats

/-! #### Groups by number -/

theorem findGroup_of_live {s : State} {gid : Nat} {g : Group} (h : liveGroup s gid = some g) : findGroup s gid = some g := by
  rw [liveGroup, Option.filter_eq_some_iff] at h
  exact h.1

/-- A change that keeps the numbers of groups acts on the group found. -/
theorem findGroup_modGroups {p : Group → Bool} {f : Group → Group} (hf : ∀ g, (f g).gid = g.gid) (s : State) (gid : Nat) :
    findGroup (modGroups p f s) gid = (findGroup s gid).map (fun g => if p g then f g else g) := by
  have number : ((fun g : Group => g.gid == gid) ∘ fun g => if p g then f g else g) = fun g => g.gid == gid := by
    funext g
    simp only [Function.comp]
    split
    · rw [hf]
    · rfl
  rw [findGroup, show allGroups (modGroups p f s) = updateWhere p f (allGroups s) from rfl, updateWhere, List.find?_map, number]
  rfl

theorem findGroup_modGroup {f : Group → Group} (hf : ∀ g, (f g).gid = g.gid) {s : State} {gid : Nat} {g : Group}
    (h : findGroup s gid = some g) : findGroup (modGroup gid f s) gid = some (f g) := by
  have number : (g.gid == gid) = true := List.find?_some (p := fun g : Group => g.gid == gid) h
  rw [modGroup, findGroup_modGroups hf, h, Option.map_some, if_pos number]

/-! #### A reached target (R241) -/

theorem qSet_taught (a b : Nat) (g : Group) (k : Nat) (v : Bool) : qSet (taught a b g) k v = taught a b (qSet g k v) := by
  unfold qSet
  split <;> rfl

/-- A relaxed wait whose target is reached ends, and its group has learnt what a later fence acquires. -/
theorem waitReached_relaxed {gid m scope : Nat} {d : BitVec 3} {s : State} {g : Group} (found : findGroup s gid = some g) :
    (waitReached gid m d false scope s).mem = s.mem ∧ ∃ a b, g.gwts ≤ a ∧
      findGroup (waitReached gid m d false scope s) gid = some (taught a b (advance (qSet { g with status := .ready } d.toNat false))) := by
  have kept : ∀ g : Group, (advance (qSet { g with status := .ready } d.toNat false)).gid = g.gid := fun g => by
    rw [qSet_frame]
    rfl
  simp only [waitReached, found, observe, Bool.false_eq_true, if_false]
  refine ⟨rfl, max g.gwts (ctrAt s (coreNo g) m).ct, max g.gwtsTeam (ctOf (ctrAt s (coreNo g) m) g), Nat.le_max_left _ _, ?_⟩
  have number : ([g.gid].contains g.gid) = true := by simp
  have learnt := findGroup_modGroups (p := fun h => [g.gid].contains h.gid)
    (f := fun h => taught (max h.gwts (ctrAt s (coreNo g) m).ct) (max h.gwtsTeam (ctOf (ctrAt s (coreNo g) m) h)) h) (fun _ => rfl) s gid
  rw [found, Option.map_some, if_pos number] at learnt
  exact (findGroup_modGroup kept learnt).trans
    (congrArg (fun h => some (advance h)) (qSet_taught _ _ { g with status := .ready } d.toNat false))

/-! #### Watchdogs (R53, R322) -/

theorem captured_of {s : State} {g : Group} (gone : expired s g = true ∨ blockExpired s g = true)
    (lowest : ∀ h ∈ allGroups s, h.tid = g.tid → expired s h = true ∨ blockExpired s h = true → captureKey g ≤ captureKey h) :
    captured s g = true := by
  simp only [captured, Bool.and_eq_true, Bool.or_eq_true, List.all_eq_true, bne_iff_ne, Bool.not_eq_true', decide_eq_true_eq]
  refine ⟨gone, fun h hm => ?_⟩
  by_cases team : h.tid = g.tid
  · cases out : (expired s h || blockExpired s h) with
    | false => exact .inl (.inr rfl)
    | true => exact .inr (lowest h hm team (by simpa using out))
  · exact .inl (.inl team)

/-! #### Register blocks (R52) -/

/-- The step of `oldestWait`: a waiting group with an earlier place than the one kept takes its place. -/
def earlier (b : Option Group) (g : Group) : Option Group :=
  match blockWait g, b.bind blockWait with
  | none, _ => b
  | some _, none => some g
  | some (_, k), some (_, j) => if k < j then some g else b

theorem oldestWait_eq (gs : List Group) : oldestWait gs = gs.foldl earlier none := rfl

/-- Of the groups that wait, the one before all others is the oldest. -/
theorem foldl_earlier {g : Group} {t k : Nat} (waits : blockWait g = some (t, k)) (gs : List Group)
    (first : ∀ h ∈ gs, h = g ∨ ∀ u j, blockWait h = some (u, j) → k < j) (b : Option Group)
    (later : b = some g ∨ ∀ u j, b.bind blockWait = some (u, j) → k < j) (here : b = some g ∨ g ∈ gs) :
    gs.foldl earlier b = some g := by
  induction gs generalizing b with
  | nil => exact here.resolve_right List.not_mem_nil
  | cons h gs ih =>
    rw [List.foldl_cons]
    have after := first h List.mem_cons_self
    refine ih (fun h' hm => first h' (List.mem_cons_of_mem h hm)) _ ?_ ?_
    · unfold earlier
      split
      next => exact later
      next u other none_ =>
        rcases after with rfl | after
        · exact .inl rfl
        · exact .inr fun u j hj => after u j hj
      next u i v j wait was =>
        split
        · rcases after with rfl | after
          · exact .inl rfl
          · exact .inr fun u j hj => after u j hj
        · exact later
    · by_cases same : h = g
      · left
        rw [same, earlier, waits]
        rcases later with rfl | later
        · simp [waits]
        · cases was : b.bind blockWait with
          | none => rfl
          | some e => exact if_pos (later e.1 e.2 was)
      · rcases here with rfl | hm
        · left
          unfold earlier
          split
          next => rfl
          next none_ => simp [waits] at none_
          next u i v j wait was =>
            simp only [Option.bind_some, waits, Option.some.injEq, Prod.mk.injEq] at was
            have := after.resolve_left same u i wait
            rw [if_neg (by omega)]
        · exact .inr ((List.mem_cons.mp hm).resolve_left (Ne.symm same))

theorem grantable_oldest {s : State} {g : Group} {core lane t k : Nat} (waits : blockWait g = some (t, k)) (here : g ∈ onLane s core lane)
    (first : ∀ h ∈ onLane s core lane, h = g ∨ ∀ u j, blockWait h = some (u, j) → k < j)
    (free : t * unitsPerBlock g ≤ freeUnits s core lane) : grantable s core lane = some (g, t) := by
  rw [grantable, oldestWait_eq, foldl_earlier waits _ first none (.inr nofun) (.inr here), Option.bind_some, waits, Option.bind_some]
  exact if_pos free

/-! #### Frames of the pool (R220, R425, R438) -/

theorem freeList_takeFrames (owner die : Nat) (intlv : Bool) (n : Nat) (s : State) : (takeFrames owner die intlv n s).2.freeList = s.freeList := by
  induction n generalizing s with
  | zero => rfl
  | succ n ih =>
    rw [takeFrames]
    split
    · rfl
    next f u took =>
      rw [ih]
      unfold takeFrame at took
      split at took
      · obtain ⟨-, rfl⟩ := Prod.mk.inj (Option.some.inj took)
        rfl
      · split at took
        · exact absurd took nofun
        · obtain ⟨-, rfl⟩ := Prod.mk.inj (Option.some.inj took)
          rfl

/-- A refill leaves a list with frames, where the list had one or the pool holds one. -/
theorem refillList_frames {s : State} {eid die m : Nat} (pos : 0 < m)
    (some_ : Sparse.get [] (4 * eid + die) s.freeList ≠ [] ∨ ∃ f ∈ Sparse.get [] die s.poolBack, unowned s f = true) :
    Sparse.get [] (4 * eid + die) (refillList eid die m s).freeList ≠ [] := by
  simp only [refillList, get_set_self, freeList_takeFrames]
  rcases some_ with some_ | ⟨f, hf, free⟩
  · exact List.append_ne_nil_of_left_ne_nil some_ _
  · refine List.append_ne_nil_of_right_ne_nil _ ?_
    have mem : f ∈ (Sparse.get [] die s.poolBack).filter (unowned s) := List.mem_filter.mpr ⟨hf, free⟩
    obtain ⟨n, rfl⟩ := Nat.exists_eq_succ_of_ne_zero pos.ne'
    rw [takeFrames, takeFrame]
    split
    next none_ =>
      split at none_
      · exact absurd none_ nofun
      next empty => exact absurd mem (by simp [empty])
    next => exact List.cons_ne_nil _ _

/-! #### Write-backs (R210, R305) -/

theorem offCore_writeWords (t : Nat) (l : Line) (s : State) : OffCore s (writeWords t l s) := by
  unfold writeWords
  refine OffCore.trans (t := if l.dirty == BitVec.allOnes 16 then renewBlocks (· == l.line) s else s) ?_ (offCore_foldl _ (fun u w => ?_) _ _)
  · split
    · exact ⟨rfl, rfl, rfl, rfl⟩
    · exact .rfl
  · split
    · exact ⟨rfl, rfl, rfl, rfl⟩
    · exact .rfl

theorem offCore_touchWrite (t : Nat) (s : State) (line : Nat) : OffCore s (touchWrite t s line) := ⟨rfl, rfl, rfl, rfl⟩

theorem offCore_poisonLine (s : State) (line : Nat) : OffCore s (poisonLine s line) := by
  simp only [poisonLine]
  repeat' split
  all_goals exact ⟨rfl, rfl, rfl, rfl⟩

theorem offCore_noteWords (c : Nat) (l : Line) (s : State) : OffCore s (noteWords c l s) :=
  offCore_foldl _ (fun _ _ => offCore_note _ _ _ _ _ _ _) _ _

/-- Two lines of an L1 stand for the same line of memory of one engagement. -/
def sameLine (m l : Line) : Bool := m.line == l.line && m.eid == l.eid

/-- A write-back leaves its line clean, in place of what the core held of it. -/
theorem lines_writeBack (c : Nat) {l : Line} (dirty : l.dirty ≠ 0) (s : State) : ∃ t,
    (coreAt (writeBack c l s) c).lines = cleaned t l :: (coreAt s c).lines.filter (fun m => !sameLine m l) := by
  refine ⟨nextWts s l.line l.stamp, ?_⟩
  rw [writeBack, if_neg dirty]
  simp only
  have slice : OffCore s (sliceTouch l.va (64 * l.line) 64 true l.last (touchWrite l.stamp (writeWords (nextWts s l.line l.stamp) l s) l.line)) :=
    ((offCore_writeWords _ l s).trans (offCore_touchWrite _ _ _)).trans (offCore_sliceTouch _ _ _ _ _ _)
  generalize sliceTouch l.va (64 * l.line) 64 true l.last (touchWrite l.stamp (writeWords (nextWts s l.line l.stamp) l s) l.line) = u at slice
  have counted : (coreAt (if l.bad &&& l.dirty != 0 then countUncorrected c (poisonLine u l.line) else u) c).lines = (coreAt s c).lines := by
    split
    · simp only [countUncorrected, coreAt_modCore, if_true]
      rw [coreAt, (offCore_poisonLine u l.line).cores, slice.cores]
      rfl
    · rw [coreAt, slice.cores]
      rfl
  generalize (if l.bad &&& l.dirty != 0 then countUncorrected c (poisonLine u l.line) else u) = v at counted
  rw [coreAt_modCore, if_pos rfl]
  simp only [putLine]
  rw [coreAt, (offCore_noteWords c l _).cores, raiseGwts, modGroups_cores, ← coreAt, counted]
  rfl

/-- After the write-back of some dirty lines a core holds clean lines, and those that stand for none of them. -/
theorem lines_writeBacks (c : Nat) (ls : List Line) (s : State) (dirty : ∀ l ∈ ls, l.dirty ≠ 0) :
    ∀ m ∈ (coreAt (ls.foldl (fun s l => writeBack c l s) s) c).lines,
      m.dirty = 0 ∨ (m ∈ (coreAt s c).lines ∧ ∀ l ∈ ls, sameLine m l = false) := by
  induction ls generalizing s with
  | nil => exact fun m hm => .inr ⟨hm, nofun⟩
  | cons l ls ih =>
    intro m hm
    rcases ih (writeBack c l s) (fun k hk => dirty k (List.mem_cons_of_mem l hk)) m hm with clean | ⟨old, other⟩
    · exact .inl clean
    · obtain ⟨t, lines⟩ := lines_writeBack c (dirty l List.mem_cons_self) s
      rw [lines, List.mem_cons, List.mem_filter] at old
      rcases old with rfl | ⟨old, off⟩
      · exact .inl rfl
      · refine .inr ⟨old, fun k hk => ?_⟩
        rcases List.mem_cons.mp hk with rfl | hk
        · simpa using off
        · exact other k hk

theorem overdue_iff (s : State) (l : Line) : overdue s l = true ↔ l.dirty ≠ 0 ∧ l.since + 8192 ≤ s.ac := by
  rw [overdue, Bool.and_eq_true, bne_iff_ne, decide_eq_true_eq]

theorem writeBackAll_overdue (c : Nat) (s : State) : ∀ l ∈ (coreAt (writeBackAll c (overdue s) s) c).lines, l.dirty ≠ 0 →
    s.ac < l.since + 8192 := by
  intro l hl dirty
  have kept := lines_writeBacks c ((coreAt s c).lines.filter (overdue s)) s
    (fun k hk => ((overdue_iff s k).mp (List.mem_filter.mp hk).2).1) l hl
  obtain ⟨old, other⟩ := kept.resolve_left dirty
  by_contra late
  have due : overdue s l = true := (overdue_iff s l).mpr ⟨dirty, by omega⟩
  have self : sameLine l l = true := by simp [sameLine]
  rw [other l (List.mem_filter.mpr ⟨old, due⟩)] at self
  exact Bool.false_ne_true self

/-- Settles O30: each event by its condition; of the waiting groups of a lane the one before all others is granted its blocks, and
a write-back leaves no line overdue. -/
theorem waitEnds : Obligations.WaitEnds := by
  refine ⟨fun s gid g live number => ?_, fun c s => ⟨fun due => ?_, fun ⟨l, hl, dirty, due⟩ => ?_⟩⟩
  · have found := findGroup_of_live live
    intro quietBus lowest
    refine ⟨fun m target d scope since wait => ⟨fun reached => ?_, fun short alive quiet late low => ?_⟩,
      fun t k since wait => ⟨fun late quiet ungranted low => ?_, fun here first free => ?_⟩,
      fun r rs reports ready start => ?_, fun die va i wait frames => ?_⟩
    · obtain ⟨mem, a, b, more, ends⟩ := waitReached_relaxed (m := m) (scope := scope) (d := d) found
      refine ⟨_, _, ?_, ends, rfl, more, mem⟩
      rw [exec_counterWaitWake, execCounterWaitWake, live]
      simp only [wait]
      rw [if_pos reached]
    · have gone : expired s g = true := by
        rw [expired, wait]
        simp only [Bool.and_eq_true, decide_eq_true_eq, Bool.not_eq_true', decide_eq_false_iff_not, not_le]
        exact ⟨⟨⟨late, quiet⟩, short⟩, alive⟩
      rw [exec_waitWatchdogExpiry, execWaitWatchdogExpiry, live]
      simp only [wait]
      rw [if_pos (captured_of (.inl gone) low)]
    · have gone : blockExpired s g = true := by
        rw [blockExpired, wait]
        simp only [Bool.and_eq_true, decide_eq_true_eq, Bool.not_eq_true']
        refine ⟨⟨late, quiet⟩, ?_⟩
        rw [Option.any_eq_false_iff_get]
        intro some_
        rw [number, beq_eq_false_iff_ne]
        exact ungranted _ (Option.some_get some_).symm
      rw [exec_registerBlockWaitExpiry, execRegisterBlockWaitExpiry, live]
      simp only [wait]
      rw [if_pos (captured_of (.inr gone) low)]
    · have waits : blockWait g = some (t, k) := by rw [blockWait, wait]
      refine ⟨_, _, ?_, findGroup_modGroup (f := fun g => advance { g with xblk := t, status := .ready }) (fun _ => rfl) found, rfl⟩
      rw [exec_xblkGrant, execXblkGrant, grantable_oldest waits here first free, ← number]
    · rw [exec_deferredReport, execDeferredReport, live]
      simp only [reports]
      rw [if_pos (by rw [atBoundary, ready]; simpa using start)]
    · have pool := offCore_refillList g.eid die (1 + Config.refillCount s.ctr % 64) s
      have filled := refillList_frames (s := s) (eid := g.eid) (die := die) (m := 1 + Config.refillCount s.ctr % 64) (by omega) frames
      refine ⟨_, _, ?_, findGroup_modGroup (f := fun g => { g with status := .ready }) (fun _ => rfl)
        (s := { refillList g.eid die (1 + Config.refillCount s.ctr % 64) s with ctr := s.ctr + 1 }) ?_, rfl⟩
      · rw [exec_growRefillDone, execGrowRefillDone, found]
        simp only [wait]
        rw [if_neg filled]
      · rw [← found, findGroup, findGroup, allGroups, allGroups, ← pool.g, ← pool.others]
  · rw [exec_coreClockTick, execCoreClockTick]
    exact if_pos due
  · refine ⟨_, ?_, writeBackAll_overdue c s⟩
    rw [exec_dirtyWritebackBound, execDirtyWritebackBound, if_pos]
    exact List.any_eq_true.mpr ⟨l, hl, (overdue_iff s l).mpr ⟨dirty, due⟩⟩

end Sys2Proof.Groups

/-! ### The machine after reset (R205, R342, R370, R433, R435) -/

namespace Sys2Proof.Groups

open Sys2Proof Sys2Proof.Machine Sys2Proof.Safety Sys2Proof.Laws Sys2Proof.NumberFormats

theorem inv_reset : Safety.Inv State.reset := ⟨wf_reset, by decide, by decide, by decide, by decide⟩

/-- Settles O42: every table is empty after reset, so that it reads as what its keys reset to. -/
theorem resetState : Obligations.ResetState := by
  refine ⟨inv_reset, rfl, rfl, rfl, fun _ => rfl, fun g hg => ?_, fun _ => rfl, fun _ => ⟨rfl, rfl, rfl, rfl⟩, fun _ _ => ⟨rfl, rfl, rfl⟩, rfl, rfl,
    rfl, rfl⟩
  obtain rfl : g = Group.init := List.mem_singleton.mp hg
  rfl

end Sys2Proof.Groups

/-! ### A step (R64, R98, R113, R116, R203, R213, R322, R324, R358, R429) -/

namespace Sys2Proof.Groups

open Sys2Proof Sys2Proof.Machine Sys2Proof.Safety Sys2Proof.Laws Sys2Proof.NumberFormats

/-! #### What a fetch reads (R203, R213) -/

/-- From `s` to `t` nothing changed but what the cores hold and the access log. -/
def OnlyFetches (s t : State) : Prop := t = { s with cores := t.cores, log := t.log }

theorem OnlyFetches.trans {s t u : State} (h : OnlyFetches s t) (h' : OnlyFetches t u) : OnlyFetches s u := by
  rw [OnlyFetches] at h h' ⊢
  rw [h', h]

theorem OnlyFetches.memRead_eq {s t : State} (h : OnlyFetches s t) (pa n : Nat) : memRead t pa n = memRead s pa n := by
  rw [h]
  rfl

theorem OnlyFetches.memError_eq {s t : State} (h : OnlyFetches s t) (pa n : Nat) : memError t pa n = memError s pa n := by
  rw [h]
  rfl

theorem onlyFetches_note (agent eid kind : Nat) (va : DWord) (pa : Option Nat) (n : Nat) (s : State) :
    OnlyFetches s (note agent eid kind va pa n s) := by
  refine foldl_keeps (OnlyFetches s) _ (fun t w h => h.trans ?_) _ rfl
  unfold logEntry
  dsimp only
  split
  · rfl
  · split
    · split <;> rfl
    · rfl

/-- The line of code that a group's instruction cache holds. -/
def codeHit (g : Group) (line : Nat) (s : State) : Option CodeLine :=
  (coreAt s (coreNo g)).icache.find? (fun l => l.eid == g.eid && l.line == line)

/-- A line that the instruction cache lacks is read from memory into it. -/
theorem codeLine_miss (g : Group) (va : DWord) {line : Nat} {s : State} (miss : codeHit g line s = none)
    (good : memError s (64 * line) 64 = none) : ∃ t, codeLine g va line s = (.ok (memRead s (64 * line) 64), t) ∧ OnlyFetches s t ∧
      ∀ m, m ≠ line → codeHit g m s = none → codeHit g m t = none := by
  rw [codeHit] at miss
  have noted := offCore_note (agentOf g) g.eid 0 (va &&& ~~~ (63 : DWord)) (some (64 * line)) 64 s
  refine ⟨_, by rw [codeLine, miss, good], ?_, fun m other missed => ?_⟩
  · exact (onlyFetches_note (agentOf g) g.eid 0 (va &&& ~~~ (63 : DWord)) (some (64 * line)) 64 s).trans rfl
  · rw [codeHit, List.find?_eq_none] at missed ⊢
    intro e he
    rw [coreAt_modCore, if_pos rfl] at he
    obtain rfl | old := List.mem_cons.mp (List.mem_of_mem_take he)
    · simp [Ne.symm other]
    · rw [coreAt, noted.cores] at old
      exact missed e old

theorem codeLine_hit {g : Group} {line : Nat} {s : State} {l : CodeLine} (hit : codeHit g line s = some l) (va : DWord) :
    codeLine g va line s = (.ok l.bytes, s) := by
  rw [codeHit] at hit
  rw [codeLine, hit]

theorem memRead_append (s : State) (pa m n : Nat) : memRead s pa (m + n) = memRead s pa m ++ memRead s (pa + m) n := by
  simp only [memRead, List.range_add, List.map_append, List.map_map, Function.comp_def, Nat.add_assoc]

theorem drop_memRead (s : State) (pa : Nat) {k n : Nat} (h : k ≤ n) : (memRead s pa n).drop k = memRead s (pa + k) (n - k) := by
  obtain ⟨m, rfl⟩ := Nat.exists_eq_add_of_le h
  rw [memRead_append, List.drop_left' (length_memRead s pa k), Nat.add_sub_cancel_left]

theorem take_memRead (s : State) (pa : Nat) {k n : Nat} (h : k ≤ n) : (memRead s pa n).take k = memRead s pa k := by
  obtain ⟨m, rfl⟩ := Nat.exists_eq_add_of_le h
  rw [memRead_append, List.take_left' (length_memRead s pa k)]

/-- A word whose lines the instruction cache lacks comes from memory, and only that cache and the log change. -/
theorem codeBytes_miss (g : Group) (va : DWord) {pa : Nat} {s : State}
    (miss : ∀ line, line = pa / 64 ∨ line = (pa + 11) / 64 → codeHit g line s = none ∧ memError s (64 * line) 64 = none) :
    ∃ t, codeBytes g va pa 12 s = (.ok (memRead s pa 12), t) ∧ OnlyFetches s t := by
  obtain ⟨missA, goodA⟩ := miss _ (.inl rfl)
  obtain ⟨t, readA, keptA, others⟩ := codeLine_miss g va missA goodA
  have start : 64 * (pa / 64) + pa % 64 = pa := Nat.div_add_mod pa 64
  have low := drop_memRead s (64 * (pa / 64)) (k := pa % 64) (n := 64) (by omega)
  rw [start] at low
  by_cases one : pa % 64 + 12 ≤ 64
  · refine ⟨t, ?_, keptA⟩
    rw [codeBytes, readA]
    simp only [if_pos one]
    rw [low, take_memRead s pa (by omega)]
  · have next : (pa + 11) / 64 = pa / 64 + 1 := by omega
    obtain ⟨missB, goodB⟩ := miss _ (.inr rfl)
    rw [next] at missB goodB
    obtain ⟨u, readB, keptB, -⟩ := codeLine_miss g (va + 64) (others _ (by omega) missB) ((keptA.memError_eq _ _).trans goodB)
    refine ⟨u, ?_, keptA.trans keptB⟩
    rw [codeBytes, readA]
    simp only [if_neg one]
    rw [readB, keptA.memRead_eq, low, show 64 * (pa / 64 + 1) = pa + (64 - pa % 64) by omega]
    simp only [← memRead_append, take_memRead s pa (show 12 ≤ 64 - pa % 64 + 64 by omega)]

/-- A word within one line that the instruction cache holds comes from there, and nothing changes. -/
theorem codeBytes_hit {g : Group} {pa : Nat} {s : State} {l : CodeLine} (hit : codeHit g (pa / 64) s = some l) (within : pa % 64 ≤ 52)
    (va : DWord) : codeBytes g va pa 12 s = (.ok ((l.bytes.drop (pa % 64)).take 12), s) := by
  rw [codeBytes, codeLine_hit hit]
  simp only [if_pos (show pa % 64 + 12 ≤ 64 by omega)]

/-- A word within one page is read at the one place where that page lies. -/
theorem fetchBytes_mem {g : Group} {pc : DWord} {s t u : State} {pa : Nat} {b : List Byte} (within : pc.toNat % 65536 ≤ 65524)
    (place : fetchAt g pc s = (.mem pa, t)) (read : codeBytes g pc pa 12 t = (.ok b, u)) : fetchBytes g pc s = (.bytes b, u) := by
  have whole : min 12 (65536 - pc.toNat % 65536) = 12 := by omega
  rw [fetchBytes, place]
  simp only [whole, read, if_true]

theorem fetchBytes_bad {g : Group} {pc : DWord} {s t : State} {cause sub : Nat} (place : fetchAt g pc s = (.bad cause sub, t)) :
    fetchBytes g pc s = (.trap cause sub, t) := by
  rw [fetchBytes, place]

theorem fetch_eq {s : State} {l : Launch} (found : findLaunch s s.g.launch = some l) :
    fetch s = if slotExec l.kernel s.g.pc then fetchBytes s.g s.g.pc s else (.data, s) := by
  rw [fetch, found]

/-! #### The move of the running group (R64, R113, R324, R358, R429) -/

theorem runGroup_instr {s t : State} {f : Fetched} {i : Instr} (fetched : fetch (startIssue s) = (f, t)) (some_ : fetchedInstr f = some i) :
    runGroup s = exec i t := by
  rw [runGroup, fetched]
  simp only [some_]

theorem runGroup_stop {s t : State} {f : Fetched} (fetched : fetch (startIssue s) = (f, t)) (none_ : fetchedInstr f = none) :
    runGroup s = fetchStop f t := by
  rw [runGroup, fetched]
  simp only [none_]

theorem fetchedInstr_bytes {b : List Byte} {i : Instr} (h : decodeBytes b = .instr i) : fetchedInstr (.bytes b) = some i := by
  rw [fetchedInstr, h]

theorem fetchedInstr_pool {b : List Byte} (h : decodeBytes b = .rejected .pool) : fetchedInstr (.bytes b) = some .executeDataTrap := by
  rw [fetchedInstr, h]

theorem fetchedInstr_rejected {b : List Byte} {r : Reject} (h : decodeBytes b = .rejected r) (slot : r ≠ .pool) :
    fetchedInstr (.bytes b) = some .illegalInstruction := by
  rw [fetchedInstr, h]
  cases r with
  | pool => exact absurd rfl slot
  | _ => rfl

/-- What follows a move from `s`: where nothing holds it back it stands, and time passes. -/
def moveOn (after : State → State) (n : Nat) (s : State) (own : Option Nat) (crossed : List Nat) :
    Host.Outcome State Fault Refusal → Host.Outcome State Fault Refusal
  | .next u => .next (settle n (after (if logStalled s u || busHeld s u own crossed then s else u)))
  | o => o

theorem andSettle_held (after : State → State) (n : Nat) (s : State) (own : Option Nat) (crossed : List Nat)
    (o : Host.Outcome State Fault Refusal) : andSettle after n (held s own crossed o) = moveOn after n s own crossed o := by
  cases o with
  | next u =>
    rw [held, moveOn]
    by_cases back : (logStalled s u || busHeld s u own crossed) = true
    · rw [if_pos back, if_pos back]
      rfl
    · rw [if_neg back, if_neg back]
      rfl
  | _ => rfl

theorem step_group {s : State} (turn : s.turn = .group) (ready : s.g.status = .ready) :
    step s = moveOn (afterMove s.g) 1 s (some s.g.die) [] (runGroup s) := by
  rw [step, turn]
  simp only [if_pos ready]
  exact andSettle_held ..

theorem step_event {s : State} {i : Instr} (turn : s.turn = .event i) :
    step s = moveOn id (if instant i then 0 else 1) s (dieOf s i) (messageDies s i) (exec i (takePending i s)) := by
  rw [step, turn]
  exact andSettle_held ..

/-- R358: a bus that is in training before and after holds back what crosses it. -/
theorem busHeld_iff (s u : State) (own : Option Nat) (l : List Nat) : busHeld s u own l = true ↔ ∃ d b, (d, b) ∈ s.buses ∧ b.running = true ∧
    (Sparse.get Bus.reset d u.buses).running = true ∧ (d ∈ l ∨ usesBus s u own d = true) := by
  simp only [busHeld, List.any_eq_true, Bool.and_eq_true, Bool.or_eq_true, List.contains_iff_mem, Prod.exists, and_assoc]

theorem usesBus_own (s u : State) (d : Nat) : usesBus s u (some d) d = true ↔ u.traffic ≠ s.traffic := by
  rw [usesBus, if_pos (beq_self_eq_true _), bne_iff_ne]

/-! #### Time passes, and the next agent is chosen (R64, R322) -/

/-- From `s` to `t` only the turn, the time and the place and waiting times of groups changed. -/
structure OnlyWaits (s t : State) : Prop where
  rest : t = { s with turn := t.turn, g := t.g, others := t.others, ctr := t.ctr, ac := t.ac, sc := t.sc }
  group : ∀ gid g, gid ≠ 0 → findGroup s gid = some g → ∃ h, findGroup t gid = some h ∧ h = { g with waitingSince := h.waitingSince }

theorem OnlyWaits.trans {s t u : State} (h : OnlyWaits s t) (h' : OnlyWaits t u) : OnlyWaits s u where
  rest := by rw [h'.rest, h.rest]
  group gid g real found := by
    obtain ⟨k, foundK, sameK⟩ := h.group gid g real found
    obtain ⟨m, foundM, sameM⟩ := h'.group gid k real foundK
    exact ⟨m, foundM, by rw [sameM, sameK]⟩

theorem onlyWaits_pass (n : Nat) (s : State) : OnlyWaits s (pass n s) where
  rest := rfl
  group gid g _ found := by
    have learnt : findGroup (pass n s) gid = _ :=
      findGroup_modGroups (p := fun g => g.status != .ready) (f := fun g => { g with waitingSince := s.ac + n }) (fun _ => rfl) s gid
    rw [found, Option.map_some] at learnt
    refine ⟨_, learnt, ?_⟩
    split <;> rfl

theorem ac_pass (n : Nat) (s : State) : (pass n s).ac = s.ac + n := rfl

/-- Bringing a group to run keeps every group under its number. -/
theorem findGroup_bring (n : Nat) (s : State) {gid : Nat} (real : gid ≠ 0) : findGroup (bring n s) gid = findGroup s gid := by
  rw [bring]
  split
  · rfl
  · next other =>
    cases found : s.others.find? (fun g => g.gid == n) with
    | none => rfl
    | some g =>
      have number : (g.gid == n) = true := List.find?_some (p := fun g : Group => g.gid == n) found
      rw [beq_iff_eq] at number
      have rest : (s.others.filter (fun h => h.gid != n)).find? (fun h => h.gid == gid) = if gid = n then none else s.others.find? (fun h => h.gid == gid) := by
        rw [List.find?_filter]
        split
        · next same =>
          rw [List.find?_eq_none]
          simp [same]
        · next differ =>
          congr 1
          funext h
          by_cases at_ : h.gid = gid <;> simp [at_, differ]
      have before : findGroup s gid = if s.g.gid = gid then some s.g else s.others.find? (fun h => h.gid == gid) := by
        simp only [findGroup, allGroups, List.find?_cons]
        split <;> simp_all
      by_cases same : gid = n
      · subst same
        rw [before, if_neg other, found]
        simp [findGroup, allGroups, number]
      · rw [if_neg same] at rest
        rw [before]
        by_cases ran : s.g.gid = gid
        · simp [findGroup, allGroups, number, Ne.symm same, ran, real]
        · by_cases idle : s.g.gid = 0
          · simp [findGroup, allGroups, number, idle, Ne.symm same, Ne.symm real, rest]
          · simp [findGroup, allGroups, number, idle, Ne.symm same, ran, rest]

theorem onlyWaits_bring (n : Nat) (s : State) : OnlyWaits s (bring n s) where
  rest := by
    rw [bring]
    split
    · rfl
    · split <;> rfl
  group gid g real found := ⟨g, (findGroup_bring n s real).trans found, rfl⟩

theorem onlyWaits_turn (s : State) (t : Turn) (k : Nat) : OnlyWaits s { s with turn := t, ctr := k } := ⟨rfl, fun _ g _ found => ⟨g, found, rfl⟩⟩

theorem onlyWaits_reschedule (s : State) : OnlyWaits s (reschedule s) := by
  rw [reschedule]
  split
  · exact onlyWaits_turn s _ _
  · dsimp only
    split
    · exact onlyWaits_turn s _ _
    · exact (onlyWaits_bring _ s).trans (onlyWaits_turn _ _ _)

theorem ac_reschedule (s : State) : (reschedule s).ac = s.ac := by
  have brought : ∀ n, (bring n s).ac = s.ac := fun n => by
    rw [bring]
    split
    · rfl
    · split <;> rfl
  rw [reschedule]
  split
  · rfl
  · dsimp only
    split
    · rfl
    · exact brought _

theorem onlyWaits_settle (n : Nat) (s : State) : OnlyWaits s (settle n s) :=
  ((onlyWaits_pass n s).trans (onlyWaits_reschedule _)).trans (onlyWaits_pass _ _)

theorem foldl_min_le {α : Type} (f : α → Nat) (l : List α) : ∀ n, l.foldl (fun n d => min n (f d)) n ≤ n ∧
    ∀ d ∈ l, l.foldl (fun n d => min n (f d)) n ≤ f d := by
  induction l with
  | nil => simp
  | cons a l ih =>
    intro n
    obtain ⟨below, all⟩ := ih (min n (f a))
    refine ⟨below.trans (min_le_left _ _), fun d hd => ?_⟩
    obtain rfl | old := List.mem_cons.mp hd
    · exact below.trans (min_le_right _ _)
    · exact all d old

theorem spell_le {s : State} {d : Nat} (due : d ∈ dueTimes s) : spell s ≤ d - s.ac - 1 := (foldl_min_le _ _ _).2 d due

theorem ac_settle (n : Nat) (s : State) : (settle n s).ac = s.ac + n + spell (reschedule (pass n s)) := by
  rw [settle, ac_pass, ac_reschedule, ac_pass]

/-- R322: no time is passed over at which something falls due. -/
theorem settle_before_due {n d : Nat} {s : State} (due : d ∈ dueTimes (reschedule (pass n s))) (later : s.ac + n < d) : (settle n s).ac < d := by
  have bound := spell_le due
  rw [ac_reschedule, ac_pass] at bound
  rw [ac_settle]
  omega

/-- Settles O41: the group's move is the run of what its fetch brings, and what follows either move only waits. -/
theorem stepRunsDecoded : Obligations.StepRunsDecoded := by
  refine ⟨fun s turn ready => ?_, fun s => ⟨rfl, rfl⟩, fun s i turn => (step_event turn).trans ?_, fun s u own l => ⟨fun quiet => ?_, ?_⟩, fun n u => ?_⟩
  · intro now after
    have moved : step s = after (runGroup s) := step_group turn ready
    have ran : ∀ {f t i}, fetch now = (f, t) → fetchedInstr f = some i → step s = after (exec i t) := fun fetched found => by
      rw [moved, runGroup_instr fetched found]
    refine ⟨fun b t i fetched decoded => ran fetched (fetchedInstr_bytes decoded), fun b t fetched decoded => ran fetched (fetchedInstr_pool decoded),
      fun b t fetched decoded => ?_, fun l found => ?_⟩
    · obtain h | h := decoded <;> exact ran fetched (fetchedInstr_rejected h (by decide))
    · have fetched : fetch now = if slotExec l.kernel s.g.pc then fetchBytes now.g s.g.pc now else (.data, now) := fetch_eq (s := now) found
      refine ⟨fun data => ?_, fun t pa code within place => ?_, fun t cause sub code place => ?_⟩
      · exact ran (fetched.trans (if_neg (by simp [data]))) rfl
      · rw [if_pos code] at fetched
        refine ⟨fun miss => ?_, fun m inLine hit => ?_⟩
        · obtain ⟨u, read, kept⟩ := codeBytes_miss now.g s.g.pc miss
          exact ⟨u, fetched.trans (fetchBytes_mem within place read), kept⟩
        · exact fetched.trans (fetchBytes_mem within place (codeBytes_hit (g := now.g) hit inLine s.g.pc))
      · rw [if_pos code] at fetched
        rw [moved, runGroup_stop (fetched.trans (fetchBytes_bad place)) rfl]
        rfl
  · rfl
  · rw [Bool.eq_false_iff, Ne, busHeld_iff]
    rintro ⟨d, b, mem, running, -⟩
    exact Bool.false_ne_true ((quiet (d, b) mem).symm.trans running)
  · intro d b mem running still crossed
    rw [busHeld_iff]
    refine ⟨d, b, mem, running, still, crossed.imp_right ?_⟩
    rintro ⟨rfl, moved⟩
    exact (usesBus_own s u d).mpr moved
  · intro t
    exact ⟨(onlyWaits_settle n u).rest, by rw [ac_settle]; omega, fun d due later => settle_before_due due later, (onlyWaits_settle n u).group⟩

end Sys2Proof.Groups

/-! ### Launches, which memory and the log leave alone -/

namespace Sys2Proof.Groups

open Sys2Proof Sys2Proof.Machine Sys2Proof.Safety Sys2Proof.Laws Sys2Proof.NumberFormats

theorem launches_foldl {α : Type} {f : State → α → State} (h : ∀ s a, (f s a).launches = s.launches) (l : List α) (s : State) :
    (l.foldl f s).launches = s.launches :=
  foldl_keeps (fun t : State => t.launches = s.launches) f (fun t a k => (h t a).trans k) l rfl

@[simp] theorem launches_sliceRmw (pa : Nat) (bs : List Byte) (t : Nat) (s : State) : (sliceRmw pa bs t s).launches = s.launches :=
  launches_foldl (f := touchWrite t) (fun _ _ => rfl) _ (memWrite pa bs s)

@[simp] theorem launches_sliceWrite (pa : Nat) (bs : List Byte) (t : Nat) (s : State) : (sliceWrite pa bs t s).launches = s.launches :=
  launches_sliceRmw _ _ _ _

@[simp] theorem launches_setAD (e : DWord) (a : Nat) (acc : Acc) (s : State) : (setAD e a acc s).launches = s.launches := by
  unfold setAD
  dsimp only
  exact iteInduction (motive := fun t : State => t.launches = s.launches) (fun _ => rfl) (fun _ => launches_sliceWrite _ _ _ _)

@[simp] theorem launches_note (agent eid kind : Nat) (va : DWord) (pa : Option Nat) (n : Nat) (s : State) :
    (note agent eid kind va pa n s).launches = s.launches := by
  rw [onlyFetches_note agent eid kind va pa n s]

theorem launches_cachePlace {ways : List Nat} {s t : State} {w p : Nat} (h : cachePlace ways s = some (w, p, t)) : t.launches = s.launches := by
  unfold cachePlace at h
  dsimp only at h
  split at h
  · cases h
    rfl
  · split at h
    · cases h
    · cases h
      rfl

@[simp] theorem launches_cacheTouch (eid cls : Nat) (dirty last : Bool) (s : State) (line : Nat) :
    (cacheTouch eid cls dirty last s line).launches = s.launches := by
  unfold cacheTouch
  dsimp only
  split
  · rfl
  · split
    · rfl
    · next placed => exact (launches_cachePlace placed :)

@[simp] theorem launches_sliceTouch (va : DWord) (pa n : Nat) (dirty last : Bool) (s : State) :
    (sliceTouch va pa n dirty last s).launches = s.launches :=
  launches_foldl (fun s line => launches_cacheTouch _ _ dirty last s line) _ _

theorem launches_takeFrame {owner die : Nat} {intlv : Bool} {s t : State} {f : Nat} (h : takeFrame owner die intlv s = some (f, t)) :
    t.launches = s.launches := by
  unfold takeFrame at h
  split at h
  · cases h
    rfl
  · split at h
    · cases h
    · cases h
      rfl

@[simp] theorem launches_takeFrames (owner die : Nat) (intlv : Bool) (n : Nat) (s : State) :
    (takeFrames owner die intlv n s).2.launches = s.launches := by
  induction n generalizing s with
  | zero => rfl
  | succ n ih =>
    unfold takeFrames
    split
    · rfl
    · next taken => exact (ih _).trans (launches_takeFrame taken)

@[simp] theorem launches_refillList (eid die n : Nat) (s : State) : (refillList eid die n s).launches = s.launches :=
  launches_takeFrames _ _ _ _ _

@[simp] theorem launches_growMap (eid die : Nat) (parent : DWord) (a : Nat) (va : DWord) (s : State) :
    (growMap none eid die parent a va s).2.launches = s.launches := by
  unfold growMap
  split
  · rfl
  · exact launches_sliceWrite _ _ _ _

@[simp] theorem launches_walk (eid die : Nat) (va : DWord) (acc : Acc) (s : State) : (walk none eid die va acc s).2.launches = s.launches := by
  unfold walk
  dsimp only
  split
  · rfl
  · rfl
  · cases acc with
    | write => exact launches_growMap eid die _ _ va s
    | _ => rfl
  · split
    · rfl
    · exact launches_setAD _ _ _ _

@[simp] theorem launches_devPlace (eid die : Nat) (va : DWord) (acc : Acc) (s : State) : (devPlace eid die va acc s).2.launches = s.launches := by
  have first := launches_walk eid die va acc s
  unfold devPlace
  split
  · rfl
  · split
    · next d s1 refill =>
      rw [refill] at first
      have second := (launches_walk eid die va acc (refillList eid d 1 s1)).trans ((launches_refillList eid d 1 s1).trans first)
      dsimp only
      split
      · next again =>
        rw [again] at second
        exact second
      · exact second
    · exact first

@[simp] theorem launches_writeWords (t : Nat) (l : Line) (s : State) : (writeWords t l s).launches = s.launches := by
  unfold writeWords
  refine (launches_foldl (fun u w => ?_) _ _).trans (iteInduction (motive := fun u : State => u.launches = s.launches) (fun _ => rfl) fun _ => rfl)
  exact iteInduction (motive := fun v : State => v.launches = u.launches) (fun _ => rfl) (fun _ => rfl)

@[simp] theorem launches_poisonLine (s : State) (line : Nat) : (poisonLine s line).launches = s.launches := by
  unfold poisonLine
  dsimp only
  split
  · rfl
  · split
    · rfl
    · split <;> rfl

@[simp] theorem launches_noteWords (c : Nat) (l : Line) (s : State) : (noteWords c l s).launches = s.launches :=
  launches_foldl (fun _ _ => launches_note _ _ _ _ _ _ _) _ _

@[simp] theorem launches_writeBack (c : Nat) (l : Line) (s : State) : (writeBack c l s).launches = s.launches := by
  unfold writeBack
  dsimp only
  split
  · rfl
  · rw [modCore_launches, launches_noteWords, raiseGwts, modGroups_launches]
    split <;> simp [countUncorrected, touchWrite]

@[simp] theorem launches_flushEngagement (eid : Nat) (s : State) : (flushEngagement eid s).launches = s.launches :=
  launches_foldl (fun _ _ => launches_foldl (fun _ _ => launches_writeBack _ _ _) _ _) _ _

@[simp] theorem launches_countPlace (p : Place) (n : Nat) (s : State) : (countPlace p n s).launches = s.launches := by
  cases p with
  | loc c a => exact iteInduction (motive := fun t : State => t.launches = s.launches) (fun _ => rfl) (fun _ => rfl)
  | _ => rfl

/-- What the control core leaves alone when it reads or writes an engagement's memory: the launches, and the lines that the cores hold. -/
structure OffDispatch (s t : State) : Prop where
  launches : t.launches = s.launches
  lines : ∀ c, (coreAt t c).lines = (coreAt s c).lines

theorem OffDispatch.rfl {s : State} : OffDispatch s s := ⟨Eq.refl _, fun _ => Eq.refl _⟩

theorem OffDispatch.trans {s t u : State} (h : OffDispatch s t) (k : OffDispatch t u) : OffDispatch s u :=
  ⟨k.launches.trans h.launches, fun c => (k.lines c).trans (h.lines c)⟩

theorem offDispatch_of_offCore {s t : State} (launches : t.launches = s.launches) (h : OffCore s t) : OffDispatch s t :=
  ⟨launches, fun c => by rw [coreAt, h.cores, coreAt]⟩

theorem offDispatch_countPlace (p : Place) (n : Nat) (s : State) : OffDispatch s (countPlace p n s) := by
  refine ⟨launches_countPlace p n s, fun c => ?_⟩
  cases p with
  | loc d a =>
    refine iteInduction (motive := fun t : State => (coreAt t c).lines = (coreAt s c).lines) (fun _ => ?_) (fun _ => rfl)
    rw [countUncorrected, coreAt_modCore]
    split
    · next same => rw [same]
    · rfl
  | _ => rfl

theorem offDispatch_left (agent eid : Nat) (va : DWord) (p : Place) (n : Nat) (writes : Bool) (s : State) :
    OffDispatch s ((devMover agent eid).left va p n writes s) := by
  cases p with
  | mem pa =>
    exact offDispatch_of_offCore ((launches_sliceTouch _ _ _ _ _ _).trans (launches_note _ _ _ _ _ _ _))
      ((offCore_note _ _ _ _ _ _ _).trans (offCore_sliceTouch _ _ _ _ _ _))
  | _ => exact .rfl

theorem offDispatch_readPages (agent eid : Nat) (ps : List (DWord × Nat)) (s : State) :
    OffDispatch s (readPages (devMover agent eid) ps s).2 := by
  induction ps generalizing s with
  | nil => exact .rfl
  | cons e ps ih =>
    obtain ⟨va, n⟩ := e
    have placed : OffDispatch s ((devMover agent eid).place va .read s).2 :=
      offDispatch_of_offCore (launches_devPlace eid 0 va .read s) (offCore_devPlace eid 0 va .read s)
    rw [readPages]
    generalize (devMover agent eid).place va .read s = r at placed
    obtain ⟨p, t⟩ := r
    dsimp only
    split
    · exact placed.trans (offDispatch_countPlace _ _ _)
    · have rest := (placed.trans (offDispatch_left agent eid va p n false t)).trans (ih _)
      generalize readPages (devMover agent eid) ps ((devMover agent eid).left va p n false t) = q at rest
      obtain ⟨got, u⟩ := q
      cases got <;> exact rest

theorem offDispatch_readVa (eid : Nat) (va : DWord) (n : Nat) (s : State) : OffDispatch s (readVa eid va n s).2 :=
  offDispatch_readPages _ _ _ _

end Sys2Proof.Groups

/-! ### Completion of a launch (R312, R381) -/

namespace Sys2Proof.Groups

open Sys2Proof Sys2Proof.Machine Sys2Proof.Safety Sys2Proof.Laws Sys2Proof.NumberFormats

theorem findLaunch_congr {s t : State} (h : t.launches = s.launches) (seq : Nat) : findLaunch t seq = findLaunch s seq := by
  rw [findLaunch, h, findLaunch]

theorem seq_of_findLaunch {s : State} {seq : Nat} {l : Launch} (h : findLaunch s seq = some l) : l.seq = seq :=
  beq_iff_eq.mp (List.find?_some (p := fun l : Launch => l.seq == seq) h)

/-- A change that keeps the sequence numbers of launches acts on the launch found. -/
theorem find_updateWhere_launch {f : Launch → Launch} (hf : ∀ l, (f l).seq = l.seq) (p : Launch → Bool) (ls : List Launch) (seq : Nat) :
    (updateWhere p f ls).find? (fun l => l.seq == seq) = (ls.find? (fun l => l.seq == seq)).map (fun l => if p l then f l else l) := by
  have number : ((fun l : Launch => l.seq == seq) ∘ fun l => if p l then f l else l) = fun l => l.seq == seq := by
    funext l
    simp only [Function.comp]
    split
    · rw [hf]
    · rfl
  rw [updateWhere, List.find?_map, number]

theorem findLaunch_modLaunch {f : Launch → Launch} (hf : ∀ l, (f l).seq = l.seq) {s : State} {seq : Nat} {l : Launch}
    (h : findLaunch s seq = some l) : findLaunch (modLaunch seq f s) seq = some (f l) := by
  have learnt := find_updateWhere_launch hf (fun l => l.seq == seq) s.launches seq
  rw [findLaunch] at h
  rw [h] at learnt
  exact learnt.trans (by simp [seq_of_findLaunch (s := s) h])

theorem launches_doneAdd (seq eid : Nat) (va : DWord) (s : State) : (doneAdd seq eid va s).2.launches = s.launches := by
  have placed := launches_devPlace eid 0 va .write s
  unfold doneAdd
  split
  · rfl
  · split
    · next pa u place =>
      rw [place] at placed
      split
      · exact placed
      · simpa using placed
    · next leaf u place =>
      rw [place] at placed
      dsimp only
      split
      · exact (launches_note _ _ _ _ _ _ _).trans placed
      · exact placed
    · next place =>
      rw [place] at placed
      exact placed
    · next place =>
      rw [place] at placed
      exact placed

/-- A `DONE` add that waits for a peer has an address, and its access is under way. -/
theorem doneAdd_waits {seq eid : Nat} {va : DWord} {s t : State} (h : doneAdd seq eid va s = (none, t)) :
    va ≠ 0 ∧ ∃ a ∈ t.accs, a.kind = .peerDone seq := by
  unfold doneAdd at h
  split at h
  · cases h
  · next real =>
    refine ⟨real, ?_⟩
    split at h
    · split at h <;> cases h
    · dsimp only at h
      split at h
      · cases h
        exact ⟨_, List.mem_append_right _ (List.mem_singleton_self _), rfl⟩
      · cases h
    · cases h
    · cases h

theorem doneAdd_zero (seq eid : Nat) (s : State) : doneAdd seq eid 0 s = (some 0, s) := if_pos rfl

/-- The report of a launch, and the launch that is complete. -/
theorem reportLaunch_eq {seq : Nat} {s : State} {l : Launch} (found : findLaunch s seq = some l) (fault : Nat) :
    (∃ o, (reportLaunch seq fault s).out = .complete l.seq l.status l.terminated fault :: o) ∧
      ∃ m, findLaunch (reportLaunch seq fault s) seq = some m ∧ m.phase = .complete ∧ m.status = l.status := by
  obtain rfl := seq_of_findLaunch found
  have completed := findLaunch_modLaunch (f := fun l => { l with phase := .complete, doneFault := fault }) (fun _ => rfl) found
  have waits := find_updateWhere_launch (f := fun k => { k with waitingSince := nowUs s }) (fun _ => rfl) (fun k => k.deps.contains l.seq)
    (modLaunch l.seq (fun l => { l with phase := .complete, doneFault := fault }) s).launches l.seq
  rw [findLaunch] at completed
  rw [completed, Option.map_some] at waits
  rw [reportLaunch, found]
  refine ⟨⟨_, rfl⟩, _, waits, ?_⟩
  constructor <;> (split <;> rfl)

/-- A launch has ended with a status: its report is sent, or its `DONE` add waits for a peer. -/
def EndsWith (l : Launch) (status : Nat) (t : State) : Prop := ∃ m, findLaunch t l.seq = some m ∧ m.status = status ∧
  ((m.phase = .complete ∧ ∃ f o, t.out = .complete l.seq status l.terminated f :: o ∧ (l.record.done = 0 → f = 0)) ∨
    (m.phase = .adding ∧ l.record.done ≠ 0 ∧ ∃ a ∈ t.accs, a.kind = .peerDone l.seq))

theorem endsWith_completeLaunch {l : Launch} {s : State} (found : findLaunch s l.seq = some l) (status : Nat) :
    EndsWith l status (completeLaunch l status s) := by
  have adding := findLaunch_modLaunch (f := fun l => { l with phase := .adding, status := status, nextGang := l.record.ngang, claim := none })
    (fun _ => rfl) ((findLaunch_congr (launches_flushEngagement l.record.eng s) l.seq).trans found)
  rw [completeLaunch]
  generalize modLaunch l.seq _ (flushEngagement l.record.eng s) = u at adding
  have kept := launches_doneAdd l.seq l.record.eng l.record.done u
  cases done : doneAdd l.seq l.record.eng l.record.done u with
  | mk o t =>
    rw [done] at kept
    have stays := (findLaunch_congr kept l.seq).trans adding
    cases o with
    | none =>
      obtain ⟨real, waits⟩ := doneAdd_waits done
      exact ⟨_, stays, rfl, .inr ⟨rfl, real, waits⟩⟩
    | some fault =>
      obtain ⟨⟨o, sent⟩, m, foundM, complete, same⟩ := reportLaunch_eq stays fault
      refine ⟨m, foundM, same, .inl ⟨complete, fault, o, sent, fun zero => ?_⟩⟩
      rw [zero, doneAdd_zero] at done
      cases done
      rfl

end Sys2Proof.Groups

/-! ### Placing a new gang (R49, R315, R378, R379) -/

namespace Sys2Proof.Groups

open Sys2Proof Sys2Proof.Machine Sys2Proof.Safety Sys2Proof.Laws Sys2Proof.NumberFormats

/-- From `s` to `t` only what the cores hold changed, and their L1s took no line. -/
structure OnlySeats (s t : State) : Prop where
  rest : t = { s with cores := t.cores }
  lines : ∀ c, ∀ n ∈ (coreAt t c).lines, n ∈ (coreAt s c).lines

theorem OnlySeats.rfl {s : State} : OnlySeats s s := ⟨Eq.refl _, fun _ _ => id⟩

theorem OnlySeats.trans {s t u : State} (h : OnlySeats s t) (k : OnlySeats t u) : OnlySeats s u :=
  ⟨by rw [k.rest, h.rest], fun c n hn => h.lines c n (k.lines c n hn)⟩

theorem onlySeats_modCore {c : Nat} {f : Core → Core} (hf : ∀ k, ∀ n ∈ (f k).lines, n ∈ k.lines) (s : State) : OnlySeats s (modCore c f s) := by
  refine ⟨rfl, fun k n hn => ?_⟩
  rw [coreAt_modCore] at hn
  split at hn
  · next same => exact same ▸ hf _ n hn
  · exact hn

theorem onlySeats_foldl {α : Type} {f : State → α → State} (h : ∀ s a, OnlySeats s (f s a)) (l : List α) (s : State) : OnlySeats s (l.foldl f s) :=
  foldl_keeps (fun t => OnlySeats s t) f (fun t a k => k.trans (h t a)) l .rfl

theorem onlySeats_takeSeat (tid units : Nat) (a : Seat) (s : State) : OnlySeats s (takeSeat tid units a s) := by
  rw [takeSeat]
  refine onlySeats_modCore ?_ s
  exact fun _ _ => id

theorem onlySeats_clockTo (c t : Nat) (s : State) : OnlySeats s (clockTo c t s) := by
  rw [clockTo]
  refine onlySeats_modCore ?_ s
  exact fun _ _ => id

/-- What a state keeps when a team is placed: memory, the launches, its adds that wait, and every group. -/
structure Grows (s t : State) : Prop where
  mem : t.mem = s.mem
  launches : t.launches = s.launches
  held : t.held = s.held
  others : ∀ g ∈ s.others, g ∈ t.others

theorem Grows.rfl {s : State} : Grows s s := ⟨Eq.refl _, Eq.refl _, Eq.refl _, fun _ => id⟩

theorem Grows.trans {s t u : State} (h : Grows s t) (k : Grows t u) : Grows s u :=
  ⟨k.mem.trans h.mem, k.launches.trans h.launches, k.held.trans h.held, fun g hg => k.others g (h.others g hg)⟩

theorem OnlySeats.grows {s t : State} (h : OnlySeats s t) : Grows s t := by
  rw [h.rest]
  exact ⟨Eq.refl _, Eq.refl _, Eq.refl _, fun _ => id⟩

theorem OnlySeats.others_eq {s t : State} (h : OnlySeats s t) : t.others = s.others := by
  rw [h.rest]

/-- A group is one of a new gang of a launch, as it begins. -/
def Begins (l : Launch) (gang team n : Nat) (g : Group) : Prop := ∃ s tid core lane, g = newGroup s l gang team tid n core lane

/-- Where no add waits for it, a new team brings its groups. -/
theorem placeTeam_grows (l : Launch) (gang team : Nat) (seats : List Seat) {s : State} (none_ : s.held = []) :
    Grows s (placeTeam l gang team seats s) ∧ ∀ n < l.ngroups, ∃ g ∈ (placeTeam l gang team seats s).others, Begins l gang team n g := by
  unfold placeTeam
  dsimp only
  generalize taken : seats.foldl (fun u a => takeSeat s.fresh l.kernel.units a u) _ = u
  replace taken := (taken ▸ onlySeats_foldl (fun u a => onlySeats_takeSeat s.fresh l.kernel.units a u) seats _ : OnlySeats _ u)
  generalize groups : (List.range l.ngroups).map _ = gs
  generalize clocked : seats.foldl (fun v a => clockTo a.core (newestWrite v) v) _ = v
  replace clocked := (clocked ▸ onlySeats_foldl (fun v (a : Seat) => onlySeats_clockTo a.core (newestWrite v) v) seats _ : OnlySeats _ v)
  have later := taken.grows.trans
    ((⟨rfl, rfl, rfl, fun _ => List.mem_append_left _⟩ : Grows u { u with others := u.others ++ gs, fresh := u.fresh + l.ngroups }).trans clocked.grows)
  have grew : Grows s v := ⟨later.mem, later.launches, later.held, later.others⟩
  rw [grew.held, none_]
  refine ⟨⟨grew.mem, grew.launches, none_.symm, grew.others⟩, fun n hn => ⟨_, ?_, u, s.fresh, (groupPlace seats n).1, (groupPlace seats n).2, rfl⟩⟩
  show _ ∈ v.others
  rw [clocked.others_eq]
  refine List.mem_append_right _ ?_
  rw [← groups]
  exact List.mem_map_of_mem (List.mem_range.mpr hn)

theorem placeTeams_grows (l : Launch) (gang : Nat) (seats : List (List Seat)) (first : Nat) {s : State} (none_ : s.held = []) :
    Grows s (placeTeams l gang seats first s) ∧
      ∀ k < seats.length, ∀ n < l.ngroups, ∃ g ∈ (placeTeams l gang seats first s).others, Begins l gang (first + k) n g := by
  induction seats generalizing first s with
  | nil => exact ⟨.rfl, fun k hk => absurd hk (Nat.not_lt_zero k)⟩
  | cons a seats ih =>
    obtain ⟨grew, brings⟩ := placeTeam_grows l gang first a none_
    obtain ⟨rest, later⟩ := ih (first + 1) (grew.held.trans none_)
    refine ⟨grew.trans rest, fun k hk n hn => ?_⟩
    cases k with
    | zero =>
      obtain ⟨g, mem, begins⟩ := brings n hn
      exact ⟨g, rest.others g mem, begins⟩
    | succ k =>
      obtain ⟨g, mem, begins⟩ := later k (Nat.lt_of_succ_lt_succ hk) n hn
      exact ⟨g, mem, by rwa [Nat.add_assoc, Nat.add_comm 1 k] at begins⟩

/-! #### A group as it begins (R49) -/

theorem getLsbD_lowMask {n : Nat} (h : n ≤ 64) (i : Nat) : (lowMask n).getLsbD i = decide (i < n) := by
  rw [lowMask, BitVec.getLsbD_ofNat, Nat.testBit_two_pow_sub_one]
  by_cases hi : i < n
  · simp [hi, Nat.lt_of_lt_of_le hi h]
  · simp [hi]

/-- Every strand of a new group is live. -/
theorem live_newGroup (s : State) (l : Launch) (gang team tid n core lane i : Nat) :
    (newGroup s l gang team tid n core lane).live.getLsbD i = decide (i < widthOf (newGroup s l gang team tid n core lane)) := by
  have strands : widthOf (newGroup s l gang team tid n core lane) = 16 * kernelUnits l.kernel := by
    simp only [newGroup, widthOf, kernelUnits]
    cases l.kernel.width <;> rfl
  have fits : 16 * kernelUnits l.kernel ≤ 64 := by
    rw [kernelUnits]
    cases l.kernel.width <;> decide
  rw [strands]
  exact getLsbD_lowMask fits i

/-- The parameter of a new group stands in its first two uniform registers, and the others are zero. -/
theorem sGet_newGroup (s : State) (l : Launch) (gang team tid n core lane r : Nat) :
    sGet (newGroup s l gang team tid n core lane) r = if r = 1 then hi32 l.record.param else if r = 0 then lo32 l.record.param else 0 := by
  simp only [sGet, newGroup, get_set]
  rfl

theorem pGet_newGroup {r : Nat} (h : r ≠ 7) (s : State) (l : Launch) (gang team tid n core lane i : Nat) :
    pGet (newGroup s l gang team tid n core lane) i r = false := by
  rw [pGet, if_neg h]
  exact BitVec.getLsbD_zero

/-! #### The launch whose gang is placed (R378) -/

theorem findLaunch_startGang {l : Launch} {p : Plan} {d : List Int} {s : State} (found : findLaunch s l.seq = some l) (none_ : s.held = []) :
    ∃ a : Gang, a.gang = nextOf l ∧ a.half0 = p.half0 ∧ a.half1 = p.half1 ∧ ∃ m, findLaunch (startGang l p d s) l.seq = some m ∧
      m.nextGang = nextOf l + 1 ∧ m.deficits = d ∧ m.placed = l.placed ++ [a] := by
  have kept := (placeTeams_grows l (nextOf l) p.seats 0 none_).1.launches
  unfold startGang
  exact ⟨⟨nextOf l, p.half0, p.half1, _, _⟩, rfl, rfl, rfl, _,
    findLaunch_modLaunch (by exact fun _ => rfl) ((findLaunch_congr kept l.seq).trans found), rfl, rfl, rfl⟩

/-- A gang's placement that comes first among those of the launches. -/
theorem exec_gangPlacement_of_ready {s : State} {l : Launch} {gang : Option SavedGang} {p : Plan} {d : List Int}
    (found : findLaunch s l.seq = some l) (ready : readyPlan s l = some ⟨gang, p, d⟩)
    (first : ∀ k ∈ s.launches, placeKey s k < placeKey s l → goesBefore s k (planCores p) = false) :
    let u := { s with reservation := s.reservation.filter (fun r => r.launch != l.seq || r.gang != gangNo l gang) }
    exec (.gangPlacement l.seq) s = .next (gang.elim (startGang l p d u) fun v => restoreGang l v p d u) := by
  intro u
  have nothing : ¬ (s.launches.any (fun k => decide (placeKey s k < placeKey s l) && goesBefore s k (planCores p))) = true := by
    simp only [List.any_eq_true, Bool.and_eq_true, decide_eq_true_eq, not_exists, not_and, Bool.not_eq_true]
    exact first
  rw [exec_gangPlacement, execGangPlacement, found]
  simp only [ready, if_neg nothing]
  cases gang <;> rfl

end Sys2Proof.Groups

/-! ### Restoring a saved gang (R379, R383, R386) -/

namespace Sys2Proof.Groups

open Sys2Proof Sys2Proof.Machine Sys2Proof.Safety Sys2Proof.Laws Sys2Proof.NumberFormats

/-! #### The teams as their areas hold them -/

theorem fromAreas_keeps (e : SavedTeam × State) : (fromAreas e).1.team = e.1.team ∧ OffDispatch e.2 (fromAreas e).2 := by
  refine foldl_keeps (fun f : SavedTeam × State => f.1.team = e.1.team ∧ OffDispatch e.2 f.2) _ (fun f a h => ?_) _ ⟨rfl, .rfl⟩
  obtain ⟨team, kept⟩ := h
  have read := offDispatch_readVa f.1.team.eid ((engOf f.2 f.1.team.eid).cpool + BitVec.ofNat 64 a.2.1) a.2.2 f.2
  dsimp only
  split
  · next reads => exact ⟨team, kept.trans (by rwa [reads] at read)⟩
  · next reads => exact ⟨team, kept.trans (by rwa [reads] at read)⟩

theorem fromAreas_nil {v : SavedTeam} (h : v.areas = []) (s : State) : fromAreas (v, s) = (v, s) := by
  rw [fromAreas, h]
  rfl

theorem readTeams_cons (v : SavedTeam) (vs : List SavedTeam) (s : State) : readTeams (v :: vs) s =
    ((fromAreas (v, s)).1 :: (readTeams vs (fromAreas (v, s)).2).1, (readTeams vs (fromAreas (v, s)).2).2) := rfl

theorem readTeams_keeps (vs : List SavedTeam) (s : State) :
    (readTeams vs s).1.map (·.team) = vs.map (·.team) ∧ OffDispatch s (readTeams vs s).2 := by
  induction vs generalizing s with
  | nil => exact ⟨rfl, .rfl⟩
  | cons v vs ih =>
    obtain ⟨team, read⟩ := fromAreas_keeps (v, s)
    obtain ⟨teams, rest⟩ := ih (fromAreas (v, s)).2
    rw [readTeams_cons]
    exact ⟨by rw [List.map_cons, List.map_cons, team, teams], read.trans rest⟩

theorem readTeams_nil {vs : List SavedTeam} (h : ∀ v ∈ vs, v.areas = []) (s : State) : readTeams vs s = (vs, s) := by
  induction vs generalizing s with
  | nil => rfl
  | cons v vs ih =>
    rw [readTeams_cons, fromAreas_nil (h v List.mem_cons_self)]
    simp only
    rw [ih fun w hw => h w (List.mem_cons_of_mem _ hw)]

/-! #### A seat for each team -/

theorem length_of_mapM {α β : Type} {f : α → Option β} {as : List α} {bs : List β} (h : as.mapM f = some bs) : bs.length = as.length := by
  induction as generalizing bs with
  | nil =>
    cases h
    rfl
  | cons a as ih =>
    rw [List.mapM_cons] at h
    obtain ⟨b, -, h⟩ := Option.bind_eq_some_iff.mp h
    obtain ⟨rest, found, h⟩ := Option.bind_eq_some_iff.mp h
    cases h
    rw [List.length_cons, List.length_cons, ih found]

theorem fitHere_seats {s : State} {l : Launch} {v : SavedGang} {c : Nat × Option Nat} {p : Plan} (h : fitHere s l (some v) c = some p) :
    p.seats.length = v.teams.length := by
  obtain ⟨seats, found, rfl⟩ := Option.map_eq_some_iff.mp h
  exact length_of_mapM found

theorem planOn_fits {s : State} {l : Launch} {v : Option SavedGang} {die : Nat} {p : Plan} (h : planOn s l v die = some p) :
    ∃ c, fitHere s l v c = some p := by
  have chosen : ∀ q, planOn s l v die = some q → ∃ c, fitHere s l v c = some q := by
    refine List.foldlRecOn (motive := fun b => ∀ q, b = some q → ∃ c, fitHere s l v c = some q) _ _ nofun ?_
    intro b held q mem r picked
    obtain ⟨c, -, fits⟩ := List.mem_filterMap.mp mem
    cases b with
    | none =>
      cases picked
      exact ⟨c, fits⟩
    | some b =>
      dsimp only at picked
      split at picked
      · cases picked
        exact ⟨c, fits⟩
      · exact held r picked
  exact chosen p h

theorem firstPlan_fits {s : State} {l : Launch} {v : Option SavedGang} {dies : List Nat} {die : Nat} {p : Plan}
    (h : firstPlan s l v dies = some (die, p)) : ∃ c, fitHere s l v c = some p := by
  induction dies with
  | nil => cases h
  | cons e dies ih =>
    rw [firstPlan] at h
    split at h
    · next found =>
      cases h
      exact planOn_fits found
    · exact ih h

theorem readyPlan_fits {s : State} {l : Launch} {v : Option SavedGang} {p : Plan} {d : List Int} (h : readyPlan s l = some ⟨v, p, d⟩) :
    ∃ c, fitHere s l v c = some p := by
  rw [readyPlan] at h
  split at h
  · rw [chooseBy, List.findSome?_eq_some_iff] at h
    obtain ⟨_, w, _, _, chosen, _⟩ := h
    obtain ⟨⟨q, e⟩, picked, same⟩ := Option.map_eq_some_iff.mp chosen
    cases same
    obtain ⟨⟨die, q⟩, placed, same⟩ := Option.map_eq_some_iff.mp (Option.filter_eq_some_iff.mp picked).1
    cases same
    exact firstPlan_fits placed
  · cases h

/-! #### Filling the seats -/

theorem writeBack_clean {l : Line} (h : l.dirty = 0) (c : Nat) (s : State) : writeBack c l s = s := if_pos h

theorem onlySeats_evictLine {l : Line} (h : l.dirty = 0) (c : Nat) (s : State) : OnlySeats s (evictLine c l s) := by
  rw [evictLine, writeBack_clean h]
  refine onlySeats_modCore ?_ s
  exact fun k n hn => (List.mem_filter.mp hn).1

/-- A core holds no dirty word of an engagement. -/
def CleanOf (s : State) (eid c : Nat) : Prop := ∀ n ∈ (coreAt s c).lines, n.dirty = 0 ∨ n.eid ≠ eid

theorem OnlySeats.cleanOf {s t : State} (h : OnlySeats s t) {eid c : Nat} (clean : CleanOf s eid c) : CleanOf t eid c :=
  fun n hn => clean n (h.lines c n hn)

theorem onlySeats_fillSeat {v : SavedTeam} {a : Seat} {s : State} (clean : CleanOf s v.team.eid a.core) (k : Nat) : OnlySeats s (fillSeat v k a s) := by
  have mine : ∀ n ∈ (coreAt s a.core).lines.filter (fun l => l.eid == v.team.eid), n.dirty = 0 := fun n hn => by
    obtain ⟨held, own⟩ := List.mem_filter.mp hn
    exact (clean n held).resolve_right fun other => other (beq_iff_eq.mp own)
  have evicted : ∀ ls : List Line, (∀ n ∈ ls, n.dirty = 0) → ∀ u, OnlySeats u (ls.foldl (fun u l => evictLine a.core l u) u) := by
    intro ls
    induction ls with
    | nil => exact fun _ _ => .rfl
    | cons n ls ih =>
      intro all u
      exact (onlySeats_evictLine (all n List.mem_cons_self) a.core u).trans (ih (fun m hm => all m (List.mem_cons_of_mem _ hm)) (evictLine a.core n u))
  unfold fillSeat
  refine (evicted _ mine s).trans (onlySeats_modCore ?_ _)
  exact fun _ _ => id

theorem onlySeats_fillSeats {v : SavedTeam} {seats : List Seat} (ks : List Nat) (within : ∀ k ∈ ks, k < seats.length) {s : State}
    (clean : ∀ a ∈ seats, CleanOf s v.team.eid a.core) :
    OnlySeats s (ks.foldl (fun s k => fillSeat v k (nth ⟨0, 0, [], 0, []⟩ seats k) s) s) := by
  induction ks generalizing s with
  | nil => exact .rfl
  | cons k ks ih =>
    have seat : nth ⟨0, 0, [], 0, []⟩ seats k ∈ seats := by
      rw [nth, List.getElem?_eq_getElem (within k List.mem_cons_self)]
      exact List.getElem_mem _
    have filled := onlySeats_fillSeat (clean _ seat) k
    exact filled.trans (ih (fun j hj => within j (List.mem_cons_of_mem _ hj)) fun a ha => filled.cleanOf (clean a ha))

/-! #### Restoring teams -/

/-- A group as it comes back: every register keeps its value. -/
def ComesBack (g h : Group) : Prop :=
  h = { g with die := h.die, core := h.core, lane := h.lane, waitingSince := h.waitingSince, status := h.status } ∧ isOver h = isOver g

/-- A status that comes back is over where it was. -/
theorem isOver_restoredStatus (range ac : Nat) (ids : List Nat) (achk : Bool) (g : Group) :
    isOver { g with status := restoredStatus range ac ids achk g.status } = isOver g := by
  rw [isOver, isOver]
  dsimp only
  cases g.status with
  | waitCopy id => cases h : ids.contains id <;> simp only [restoredStatus, h, if_true, Bool.false_eq_true, if_false]
  | waitAchk => cases achk <;> rfl
  | _ => rfl

theorem comesBack_restoredGroup (s : State) (v : SavedTeam) (seats : List Seat) (g : Group) : ComesBack g (restoredGroup s v seats g) := by
  rw [restoredGroup]
  exact iteInduction (motive := ComesBack g) (fun _ => ⟨rfl, rfl⟩) fun _ => ⟨rfl, isOver_restoredStatus _ _ _ _ g⟩

/-- Where its cores hold no dirty word of its engagement, a team comes back with its groups. -/
theorem restoreTeam_grows {v : SavedTeam} {seats : List Seat} {s : State} (clean : ∀ a ∈ seats, CleanOf s v.team.eid a.core) :
    Grows s (restoreTeam v seats s) ∧ (∀ c, ∀ n ∈ (coreAt (restoreTeam v seats s) c).lines, n ∈ (coreAt s c).lines) ∧
      ∀ g ∈ v.groups, ∃ h ∈ (restoreTeam v seats s).others, ComesBack g h := by
  unfold restoreTeam
  dsimp only
  generalize taken : seats.foldl (fun u a => takeSeat v.team.tid v.team.units a u) _ = u
  replace taken := (taken ▸ onlySeats_foldl (fun u a => onlySeats_takeSeat v.team.tid v.team.units a u) seats _ : OnlySeats _ u)
  have filled := onlySeats_fillSeats (v := v) (seats := seats) (List.range seats.length) (fun k => List.mem_range.mp) (s := u)
    (fun a ha => taken.cleanOf (clean a ha))
  generalize (List.range seats.length).foldl _ u = w at filled
  have grew := taken.grows.trans filled.grows
  refine ⟨⟨grew.mem, grew.launches, grew.held, fun g hg => List.mem_append_left _ (grew.others g hg)⟩,
    fun c n hn => taken.lines c n (filled.lines c n hn), fun g hg => ?_⟩
  exact ⟨_, List.mem_append_right _ (List.mem_map_of_mem hg), comesBack_restoredGroup _ _ _ g⟩

/-- The teams of a gang come back one after another. -/
theorem restoreTeams_grows (es : List (SavedTeam × List Seat)) {s : State} (clean : ∀ e ∈ es, ∀ a ∈ e.2, CleanOf s e.1.team.eid a.core) :
    Grows s (es.foldl (fun s e => restoreTeam e.1 e.2 s) s) ∧
      ∀ e ∈ es, ∀ g ∈ e.1.groups, ∃ h ∈ (es.foldl (fun s e => restoreTeam e.1 e.2 s) s).others, ComesBack g h := by
  induction es generalizing s with
  | nil => exact ⟨.rfl, nofun⟩
  | cons e es ih =>
    obtain ⟨grew, lines, back⟩ := restoreTeam_grows (clean e List.mem_cons_self)
    obtain ⟨rest, later⟩ := ih (s := restoreTeam e.1 e.2 s) fun f hf a ha n hn => clean f (List.mem_cons_of_mem _ hf) a ha n (lines a.core n hn)
    refine ⟨grew.trans rest, fun f hf g hg => ?_⟩
    obtain rfl | old := List.mem_cons.mp hf
    · obtain ⟨h, mem, same⟩ := back g hg
      exact ⟨h, rest.others h mem, same⟩
    · exact later f old g hg

/-! #### Teams whose groups are over (R250, R312, R324) -/

/-- What a state keeps when teams that are over leave it: memory, what a launch has placed and is owed, and every group that is not over. -/
structure KeepsRunning (s t : State) : Prop where
  mem : t.mem = s.mem
  launch : ∀ seq l, findLaunch s seq = some l → ∃ m, findLaunch t seq = some m ∧ m.deficits = l.deficits ∧ m.nextGang = l.nextGang
  others : ∀ g ∈ s.others, isOver g = false → g ∈ t.others

theorem KeepsRunning.rfl {s : State} : KeepsRunning s s := ⟨Eq.refl _, fun _ l found => ⟨l, found, Eq.refl _, Eq.refl _⟩, fun _ hg _ => hg⟩

theorem KeepsRunning.trans {s t u : State} (h : KeepsRunning s t) (k : KeepsRunning t u) : KeepsRunning s u where
  mem := k.mem.trans h.mem
  launch seq l found := by
    obtain ⟨m, foundM, deficits, next⟩ := h.launch seq l found
    obtain ⟨n, foundN, deficits', next'⟩ := k.launch seq m foundM
    exact ⟨n, foundN, deficits'.trans deficits, next'.trans next⟩
  others g hg run := k.others g (h.others g hg run) run

theorem keepsRunning_modLaunch {f : Launch → Launch} (hf : ∀ l, (f l).seq = l.seq ∧ (f l).deficits = l.deficits ∧ (f l).nextGang = l.nextGang)
    (n : Nat) (s : State) : KeepsRunning s (modLaunch n f s) where
  mem := rfl
  launch seq l found := by
    have learnt := find_updateWhere_launch (fun l => (hf l).1) (fun l => l.seq == n) s.launches seq
    rw [findLaunch] at found
    rw [found, Option.map_some] at learnt
    refine ⟨_, learnt, ?_⟩
    split
    · exact (hf l).2
    · exact ⟨rfl, rfl⟩
  others _ hg _ := hg

theorem keepsRunning_freeTeam {tm : Team} {s : State} (over_ : teamOver s tm.tid = true) : KeepsRunning s (freeTeam tm s) := by
  have freed := onlySeats_foldl (f := fun s k => modCore (nth 0 tm.cores k) (freeOnCore (nth 0 tm.ranges k) (nth [] tm.tiles k)) s)
    (fun s k => onlySeats_modCore (by exact fun _ _ => id) s) (List.range tm.cores.length) s
  unfold freeTeam
  generalize (List.range tm.cores.length).foldl _ s = u at freed
  have removed : KeepsRunning s { u with teams := u.teams.filter (fun u => u.tid != tm.tid), others := u.others.filter (fun g => g.tid != tm.tid),
                                         g := if u.g.tid = tm.tid then Group.init else u.g } := by
    refine ⟨freed.grows.mem, fun seq l found => ⟨l, (findLaunch_congr freed.grows.launches seq).trans found, rfl, rfl⟩, fun g hg run => ?_⟩
    refine List.mem_filter.mpr ⟨freed.grows.others g hg, bne_iff_ne.mpr fun mine => ?_⟩
    have ended := List.all_eq_true.mp over_ g (List.mem_cons_of_mem _ hg)
    simp [mine, run] at ended
  have stood := removed.trans (keepsRunning_modLaunch (f := fun l => { l with stood := (16 * tm.gang + tm.team, tm.cores) :: l.stood })
    (fun _ => ⟨rfl, rfl, rfl⟩) tm.launch _)
  refine iteInduction (motive := KeepsRunning s) (fun _ => stood) fun _ => stood.trans (keepsRunning_modLaunch ?_ tm.launch _)
  exact fun _ => ⟨rfl, rfl, rfl⟩

theorem keepsRunning_settleTeam (tid : Nat) (s : State) : KeepsRunning s (settleTeam tid s) := by
  unfold settleTeam
  split
  · exact .rfl
  · next tm found =>
    have number : tm.tid = tid := beq_iff_eq.mp (List.find?_some (p := fun t : Team => t.tid == tid) found)
    split
    · next over_ => exact keepsRunning_freeTeam (number ▸ (Bool.and_eq_true_iff.mp over_).2)
    · exact .rfl

theorem keepsRunning_settleRestored (tid : Nat) (s : State) : KeepsRunning s (settleRestored tid s) := by
  unfold settleRestored
  split
  · exact .rfl
  · exact keepsRunning_settleTeam tid s

/-- The teams of a saved gang, and the state in which they have been read. -/
def teamsRead (v : SavedGang) (s : State) : List SavedTeam × State :=
  readTeams v.teams { s with saved := s.saved.filter (fun w => !(w.launch == v.launch && w.gang.gang == v.gang.gang)) }

/-- The state in which the teams of a saved gang have their seats. -/
def teamsSeated (v : SavedGang) (p : Plan) (s : State) : State :=
  ((teamsRead v s).1.zip p.seats).foldl (fun s e => restoreTeam e.1 e.2 s) (teamsRead v s).2

/-- A launch whose saved gang has come back. -/
def regained (v : SavedGang) (p : Plan) (d : List Int) (start : Nat) (l : Launch) : Launch :=
  { l with placed := l.placed ++ [{ v.gang with half0 := p.half0, half1 := p.half1, start := start }], deficits := d, claim := none }

theorem restoreGang_of_no_adds (l : Launch) {v : SavedGang} (none_ : v.held = []) (p : Plan) (d : List Int) (s : State) : restoreGang l v p d s =
    v.teams.foldl (fun s t => settleRestored t.team.tid s)
      (modLaunch l.seq (regained v p d (nowUs (teamsSeated v p s))) (teamsSeated v p s)) := by
  unfold restoreGang
  rw [none_]
  rfl

theorem teamsSeated_grows {v : SavedGang} {p : Plan} {s : State} (seats : p.seats.length = v.teams.length)
    (clean : ∀ c ∈ planCores p, ∀ w ∈ v.teams, CleanOf s w.team.eid c) :
    Grows (teamsRead v s).2 (teamsSeated v p s) ∧ (teamsRead v s).2.launches = s.launches ∧
      ∀ w ∈ (teamsRead v s).1, ∀ g ∈ w.groups, ∃ h ∈ (teamsSeated v p s).others, ComesBack g h := by
  obtain ⟨teams, read⟩ : (teamsRead v s).1.map (·.team) = v.teams.map (·.team) ∧ OffDispatch _ (teamsRead v s).2 := readTeams_keeps _ _
  have length : (teamsRead v s).1.length = p.seats.length := by
    rw [seats, ← List.length_map (f := (·.team)), teams, List.length_map]
  obtain ⟨grew, back⟩ := restoreTeams_grows ((teamsRead v s).1.zip p.seats) (s := (teamsRead v s).2) fun e he a ha n hn => by
    obtain ⟨team, seat⟩ := List.of_mem_zip he
    obtain ⟨w, hw, same⟩ := List.mem_map.mp (teams ▸ List.mem_map_of_mem team : e.1.team ∈ v.teams.map (·.team))
    rw [← same]
    exact clean a.core (List.mem_map_of_mem (List.mem_flatten_of_mem seat ha)) w hw n (read.lines a.core ▸ hn)
  refine ⟨grew, read.launches, fun w hw => ?_⟩
  obtain ⟨k, within, rfl⟩ := List.getElem_of_mem hw
  exact back (_, p.seats[k]'(length ▸ within)) (List.mem_iff_getElem.mpr ⟨k, by rw [List.length_zip, length, Nat.min_self]; exact length ▸ within, List.getElem_zip⟩)

/-- A saved gang comes back on cores that hold no dirty word of its engagement. -/
theorem restoreGang_comesBack {l : Launch} {v : SavedGang} {p : Plan} {s : State} (d : List Int) (found : findLaunch s l.seq = some l)
    (none_ : v.held = []) (seats : p.seats.length = v.teams.length)
    (clean : ∀ c ∈ planCores p, ∀ w ∈ v.teams, CleanOf s w.team.eid c) :
    (restoreGang l v p d s).mem = (teamsRead v s).2.mem ∧
      (∃ m, findLaunch (restoreGang l v p d s) l.seq = some m ∧ m.deficits = d ∧ m.nextGang = l.nextGang) ∧
      ∀ w ∈ (teamsRead v s).1, ∀ g ∈ w.groups, isOver g = false → ∃ h ∈ (restoreGang l v p d s).others, ComesBack g h := by
  obtain ⟨grew, launches, back⟩ := teamsSeated_grows seats clean
  rw [restoreGang_of_no_adds l none_]
  generalize teamsSeated v p s = u at grew back ⊢
  have placed := findLaunch_modLaunch (f := regained v p d (nowUs u)) (fun _ => rfl)
    ((findLaunch_congr (grew.launches.trans launches) l.seq).trans found)
  have settled := foldl_keeps (KeepsRunning (modLaunch l.seq (regained v p d (nowUs u)) u)) (fun s (t : SavedTeam) => settleRestored t.team.tid s)
    (fun t w h => h.trans (keepsRunning_settleRestored w.team.tid t)) v.teams .rfl
  refine ⟨settled.mem.trans grew.mem, settled.launch _ _ placed, fun w hw g hg run => ?_⟩
  obtain ⟨h, mem, same⟩ := back w hw g hg
  exact ⟨h, settled.others h mem (same.2.trans run), same⟩

/-! #### What the statement asks of each -/

theorem exec_launchCompletion_of_queued {s : State} {l : Launch} (found : findLaunch s l.seq = some l) (queued : l.phase = .queued) :
    exec (.launchCompletion l.seq) s =
      if l.record.failx = true ∧ depFailed s l = true ∧ l.nextGang = 0 then .next (completeLaunch l 0x28 s)
      else if launchOver s l then .next (completeLaunch l l.status s) else .refused .notEnabled := by
  rw [exec_launchCompletion, execLaunchCompletion, found]
  simp only [queued, ne_eq, not_true_eq_false, if_false, Bool.and_eq_true, decide_eq_true_eq, and_assoc]

/-- Settles O46: a new gang brings groups that begin, a saved one groups that come back, and a launch ends with its status. -/
theorem placement : Obligations.Placement := by
  refine ⟨fun s l gang p d found ready first => ⟨?_, ?_⟩, fun s l found queued => ⟨fun skipped => ?_, fun goes finished => ?_⟩⟩
  · rintro rfl none_
    have ran := exec_gangPlacement_of_ready found ready first
    generalize moved : ({ s with reservation := s.reservation.filter (fun r => r.launch != l.seq || r.gang != gangNo l none) } : State) = u at ran
    have held : u.held = [] := by rw [← moved, none_]
    obtain ⟨a, number, half0, half1, m, foundM, next, deficits, placed⟩ :=
      findLaunch_startGang (p := p) (d := d) ((findLaunch_congr (s := s) (t := u) (by rw [← moved]) l.seq).trans found) held
    obtain ⟨grew, brings⟩ := placeTeams_grows l (nextOf l) p.seats 0 held
    refine ⟨_, m, ran, grew.mem.trans (by rw [← moved]), foundM, next, deficits, ⟨a, placed, number, half0, half1⟩, fun k n hk hn => ?_⟩
    obtain ⟨g, mem, v, tid, core, lane, rfl⟩ := brings k hk n hn
    rw [Nat.zero_add] at mem
    exact ⟨_, mem, rfl, rfl, rfl, rfl, rfl, rfl, rfl, rfl, rfl, live_newGroup v l (nextOf l) k tid n core lane, sGet_newGroup .., sGet_newGroup ..,
      fun r hr => (sGet_newGroup ..).trans (by rw [if_neg (by omega), if_neg (by omega)]), fun _ _ => rfl, fun i r hr => pGet_newGroup (by omega) ..,
      rfl, rfl, rfl, rfl, rfl, rfl, rfl, rfl, rfl⟩
  · rintro v rfl none_ clean got
    have ran := exec_gangPlacement_of_ready found ready first
    obtain ⟨c, fits⟩ := readyPlan_fits ready
    obtain ⟨mem, ⟨m, foundM, deficits, next⟩, back⟩ := restoreGang_comesBack
      (s := { s with reservation := s.reservation.filter (fun r => r.launch != l.seq || r.gang != gangNo l (some v)) }) d found none_ (fitHere_seats fits)
      fun c hc w hw n hn => (clean c hc n hn).imp_right fun other => other w hw
    refine ⟨fun bare => ?_, _, m, ran, mem, foundM, deficits, next, fun w hw g hg run => ?_⟩
    · have read : got = _ := readTeams_nil bare _
      rw [read]
      exact ⟨rfl, rfl⟩
    · obtain ⟨h, mem, same, -⟩ := back w hw g hg run
      exact ⟨h, mem, same⟩
  · have ran := (exec_launchCompletion_of_queued found queued).trans (if_pos skipped)
    exact ⟨_, (endsWith_completeLaunch found 0x28).imp fun _ ends => ⟨ran, ends⟩⟩
  · have ran := (exec_launchCompletion_of_queued found queued).trans ((if_neg goes).trans (if_pos finished))
    exact ⟨_, (endsWith_completeLaunch found l.status).imp fun _ ends => ⟨ran, ends⟩⟩

end Sys2Proof.Groups

/-! ### Running a floating-point instruction at any of its checks (R113, R156), and predicates with sticky flags (R56) -/

namespace Sys2Proof.NumberFormats

open Sys2Proof Sys2Proof.Machine Sys2Proof.Safety Sys2Proof.Laws

theorem okF1_parts {t : Ty} {x : Fields} {g : Group} (h : okF1 t x g = true) :
    isDst x x.d = true ∧ isSrc x x.a = true ∧ regOk g x.d (fRegs (orderOf t g) x.d).2 = true ∧ regOk g x.a (fRegs (orderOf t g) x.a).2 = true := by
  rw [okF1, Bool.and_eq_true] at h
  obtain ⟨form, regs⟩ := h
  obtain ⟨d, a⟩ := formDA_parts form
  obtain ⟨rd, regs⟩ := regsOk_cons regs
  exact ⟨d, a, rd, (regsOk_cons regs).1⟩

/-- The order of a jet instruction with `U` = 0 (R74). -/
theorem orderAt_jet {x : Fields} (hu : x.u = false) (g : Group) : orderAt .f32 g x = g.jord.toNat := by
  rw [orderAt, hu]
  rfl

theorem jord_ne_zero {g : Group} : g.jord.toNat ≠ 0 ↔ g.jord ≠ 0 := not_congr (BitVec.toNat_eq (y := 0)).symm

@[simp] theorem length_readJet (g : Group) (x : Fields) (i k : Nat) (o : Opnd) : (readJet g x i k o).length = k + 1 := by
  cases o <;> simp [readJet]

@[simp] theorem length_readJetB (g : Group) (x : Fields) (i k : Nat) : (readJetB g x i k).length = k + 1 := by
  rw [readJetB]
  split
  · simp
  · exact length_readJet g x i k x.b

/-- An instruction of this chapter whose checks pass yields its coefficients. -/
theorem yields_of_runFloat {o : Instr} {x : Fields} {t : Ty} {ok order fmt : Bool} {srcs : List (Opnd × Nat)} {val : Nat → Group → Nat → List CoefRes}
    {s : State} (run : exec o s = runFloat x t ok order fmt srcs val s) (passes : ok = true ∧ order = true ∧ fmt = true)
    (dst : isDst x x.d = true) (reg : regOk s.g x.d (fRegs (orderOf t s.g) x.d).2 = true) (hlen : ∀ k g i, (val k g i).length = k + 1)
    (local_ : x.u = false → Local (val (orderOf t s.g))) (once : x.u = true → ∀ i, val 0 s.g i = val 0 s.g 0) (read : readable s.g x srcs) :
    yields o t x s (val (orderAt t s.g x) s.g) := by
  obtain ⟨rfl, rfl, rfl⟩ := passes
  obtain ⟨u, hu, result⟩ := runFloat_result dst reg (hlen _) local_ once read
  exact ⟨u, run.trans hu, result⟩

/-! #### Predicates -/

theorem pSet_orJx (f : BitVec 20) (g : Group) (i k : Nat) (b : Bool) : pSet (orJx f g) i k b = orJx f (pSet g i k b) := by
  rw [pSet, pSet]
  split <;> rfl

theorem qSet_orJx (f : BitVec 20) (g : Group) (k : Nat) (b : Bool) : qSet (orJx f g) k b = orJx f (qSet g k b) := by
  rw [qSet, qSet]
  split <;> rfl

theorem writePred_orJx (f : BitVec 20) (g : Group) (i : Nat) (o : Opnd) (b : Bool) : writePred (orJx f g) i o b = orJx f (writePred g i o b) := by
  rw [writePred, writePred]
  split
  · exact pSet_orJx f g i _ b
  · exact qSet_orJx f g _ b

theorem writePredUni_orJx (f : BitVec 20) (g : Group) (o : Opnd) (b : Bool) : writePredUni (orJx f g) o b = orJx f (writePredUni g o b) := by
  rw [writePredUni, writePredUni]
  split
  · change (castList g).foldl _ _ = _
    generalize castList g = is
    induction is generalizing g with
    | nil => rfl
    | cons i is ih => rw [List.foldl_cons, List.foldl_cons, pSet_orJx, ih]
  · exact qSet_orJx f g _ b

theorem writes_writePred {i : Nat} (hi : i < 64) {o : Opnd} (hp : opIdx o < 8) {val : Group → Nat → Bool} (local_ : Local val) :
    Writes i (fun g => writePred g i o (val g i)) where
  own := own_writePred hi hp fun g => val g i
  flags f g := by rw [local_ g (orJx f g) i (agree_orJx i f g), writePred_orJx]

theorem isP_lt {o : Opnd} (h : isP o = true) : opIdx o < 8 := by
  cases o with
  | sp k =>
    have := of_decide_eq_true h
    exact Nat.lt_succ_of_le this
  | v k => cases h
  | s k => cases h
  | im k => cases h

theorem isPDst_zero {x : Fields} {o : Opnd} (h : isPDst x o = true) (hu : x.u = false) : opIdx o < 8 := by
  rw [isPDst, hu, Bool.and_false, Bool.or_false] at h
  exact isP_lt h

/-- A predicate result, and the flags raised besides. -/
theorem fpredResult_orJx {x : Fields} {res : Nat → Bool} {fl : Nat → BitVec 20} {g : Group} {s : State} (h : PredResult x res s (setG (advance g) s)) :
    FPredResult x res fl s (setG (advance (orJx (raised x s.g fl) g)) s) := by
  have jx : g.jx = s.g.jx := by
    have j := congrArg Group.jx h.group
    exact j
  have back : setG { advance (orJx (raised x s.g fl) g) with jx := g.jx } (setG (advance (orJx (raised x s.g fl) g)) s) = setG (advance g) s := rfl
  refine ⟨?_, fun k => ?_⟩
  · rw [setG_g, ← jx, back]
    exact h
  · have raise : (setG (advance (orJx (raised x s.g fl) g)) s).g.jx = s.g.jx ||| raised x s.g fl := by rw [← jx]; rfl
    rw [raise, BitVec.getLsbD_or, Bool.or_eq_true, getLsbD_raised]

/-- A predicate instruction whose checks pass writes what each strand computes from its own registers (R67, R105). -/
theorem runFPred_result {x : Fields} {ok fmt : Bool} {srcs : List (Opnd × Nat)} {val : Group → Nat → Bool × Flags} {s : State}
    (passes : ok = true ∧ fmt = true) (dst : isPDst x x.d = true) (local_ : x.u = false → Local val)
    (once : x.u = true → ∀ i, val s.g i = val s.g 0) (read : readable s.g x srcs) :
    ∃ t, runFPred x ok fmt srcs val s = .next t ∧
      FPredResult x (fun i => (val s.g i).1) (fun i => (val s.g i).2.zeroExtend 20) s t := by
  obtain ⟨rfl, rfl⟩ := passes
  have localPred : x.u = false → Local (fun g i => (val g i).1) := fun hu g h i a => by simp only [local_ hu g h i a]
  have localFlags : x.u = false → Local (fun g i => (val g i).2.zeroExtend 20) := fun hu g h i a => by simp only [local_ hu g h i a]
  have writes : x.u = false → ∀ i ∈ execList s.g x, Writes i (fun g => writePred g i x.d (val g i).1) := fun hu i hi =>
    writes_writePred (lt_of_mem_execList hi) (isPDst_zero dst hu) (localPred hu)
  obtain ⟨u, hu, result⟩ := runPred_result (val := fun g i => (val g i).1) (ok := true) rfl dst
    (fun hu g h i a => localPred hu g h i (agree_weaken a)) (fun hu i => by simp only [once hu i]) read
  rw [runPred, runAlu_ran (fun hu i hi => (writes hu i hi).own.poison) read] at hu
  injection hu with hu
  subst hu
  have run : runFPred x true true srcs val s = runAlu x true srcs
      (fun g => orJx ((val g 0).2.zeroExtend 20) (writePredUni g x.d (val g 0).1))
      (fun i g => orJx ((val g i).2.zeroExtend 20) (writePred g i x.d (val g i).1)) s := by
    simp only [runFPred, need, if_true, raise_zero, writePredUni_orJx, writePred_orJx]
  refine ⟨_, run.trans (runAlu_orJx (W := fun i g => writePred g i x.d (val g i).1) (fl := fun g i => (val g i).2.zeroExtend 20) localFlags writes read),
    fpredResult_orJx result⟩

end Sys2Proof.NumberFormats

/-! ### Sign operations, selections, comparisons and classes (R79, R88, R89, R163 to R166), and O17 -/

namespace Sys2Proof.NumberFormats

open Sys2Proof Sys2Proof.Machine Sys2Proof.Safety Sys2Proof.Laws

/-! #### Sign bits -/

theorem testBit_flipTop {w j : Nat} (v : Nat) : (v ^^^ 2 ^ (w - 1)).testBit j = if j = w - 1 then !v.testBit j else v.testBit j := by
  rw [Nat.testBit_xor, Nat.testBit_two_pow]
  by_cases h : j = w - 1
  · simp [h]
  · simp [h, Ne.symm h]

theorem testBit_clearTop {w j : Nat} (v : Nat) (hj : j < w) : (v % 2 ^ (w - 1)).testBit j = if j = w - 1 then false else v.testBit j := by
  rw [Nat.testBit_mod_two_pow]
  by_cases h : j = w - 1
  · simp [h]
  · have : j < w - 1 := by omega
    simp [h, this]

theorem signField_fp32 (v : Nat) : signField fp32 v = v.testBit 31 := (Nat.testBit_eq_decide_div_mod_eq).symm

/-- The pattern that a sign operation makes of an element. -/
def signElem (abs : Bool) (t : Ty) (v : Nat) : Nat := if abs then v % 2 ^ (elemWidth t - 1) else v ^^^ 2 ^ (elemWidth t - 1)

theorem signOp_zero (abs : Bool) (t : Ty) (a : List Nat) :
    signOp abs t 0 a = elemwise t (fun e => (signElem abs t (elemAt t (nth 0 a 0) e), 0)) := rfl

theorem signOp_jet {k : Nat} (pos : k ≠ 0) (abs : Bool) (t : Ty) (a : List Nat) :
    signOp abs t k a = a.map (fun v => (if !abs || signField fp32 (nth 0 a 0) then v ^^^ 2 ^ 31 else v, 0)) := by
  rw [signOp, if_neg pos, signField_fp32]
  rfl

theorem length_signOp (abs : Bool) (t : Ty) {k : Nat} {a : List Nat} (h : a.length = k + 1) : (signOp abs t k a).length = k + 1 := by
  rcases Nat.eq_zero_or_pos k with rfl | pos
  · rfl
  · rw [signOp_jet (Nat.ne_of_gt pos), List.length_map, h]

theorem nth_map_of_lt {α β : Type} (d : α) (e : β) (f : α → β) {l : List α} {j : Nat} (hj : j < l.length) : nth e (l.map f) j = f (nth d l j) := by
  simp [nth, hj]

theorem nth_signOp {k j : Nat} (pos : k ≠ 0) (abs : Bool) (t : Ty) {a : List Nat} (hj : j < a.length) :
    nth (0, 0) (signOp abs t k a) j = (if !abs || signField fp32 (nth 0 a 0) then nth 0 a j ^^^ 2 ^ 31 else nth 0 a j, 0) := by
  rw [signOp_jet pos, nth_map_of_lt 0 _ _ hj]

theorem runSign_yields {o : Instr} {t : Ty} {x : Fields} {s : State} {abs : Bool} (run : exec o s = runSign abs t x s) (order : orderOk t s.g = true)
    (ok : okF1 t x s.g = true) (read : readable s.g x [fReads (orderOf t s.g) x.a]) :
    yields o t x s (fun i => signOp abs t (orderAt t s.g x) (readJet s.g x i (orderAt t s.g x) x.a)) := by
  obtain ⟨d, a, rd, ra⟩ := okF1_parts ok
  exact yields_of_runFloat (val := fun k g i => signOp abs t k (readJet g x i k x.a)) run ⟨ok, order, rfl⟩ d rd
    (fun k g i => length_signOp abs t (length_readJet g x i k x.a))
    (fun _ g h i ag => by simp only [agree_readJet ag x (jet_fits (orderOf_lt t s.g) ra)])
    (fun hu i => by simp only [readJet_uni a hu s.g i]) read

/-! #### The choice of `FMIN` and `FMAX` (R89) -/

/-- What a choice between A and B takes: of one of them, or of neither. -/
def chosen {α : Type} (c : Option Bool) (neither a b : α) : α :=
  match c with
  | none => neither
  | some true => a
  | some false => b

/-- A comparison in which -0 is less than +0 (R89); `m` and `n` are the signs. -/
def signedZeros (m n : Bool) (c : Int) : Int := if c = 0 then (if m && !n then -1 else if !m && n then 1 else 0) else c

theorem choose89_eq {f : Fmt} (max : Bool) {u v : Nat} (hu : isNaN f u = false) (hv : isNaN f v = false) :
    let c := signedZeros (signField f u) (signField f v) (cmpEx (unpack f u) (unpack f v))
    choose89 f max u v = some (if max then decide (0 ≤ c) else decide (c ≤ 0)) := by
  rw [choose89, if_neg (by rw [hu]; exact Bool.false_ne_true), if_neg (by rw [hv]; exact Bool.false_ne_true)]
  rfl

/-- Of two numbers the lesser or the greater, and of equal ones A, unless they are zeros of unlike signs. -/
theorem choose89_numbers {f : Fmt} (max : Bool) {u v : Nat} (hu : isNaN f u = false) (hv : isNaN f v = false) :
    let c := cmpEx (unpack f u) (unpack f v)
    (c < 0 → choose89 f max u v = some (!max)) ∧ (0 < c → choose89 f max u v = some max) ∧
    (c = 0 → signField f u = signField f v → choose89 f max u v = some true) ∧
    (c = 0 → signField f u ≠ signField f v → choose89 f max u v = some (signField f u != max)) := by
  rw [choose89_eq max hu hv]
  generalize cmpEx (unpack f u) (unpack f v) = c
  intro d
  refine ⟨fun lt => ?_, fun gt => ?_, fun zero same => ?_, fun zero differ => ?_⟩
  · rw [signedZeros, if_neg (Int.ne_of_lt lt)]
    cases max with
    | true => exact congrArg some (decide_eq_false (Int.not_le.mpr lt))
    | false => exact congrArg some (decide_eq_true (Int.le_of_lt lt))
  · rw [signedZeros, if_neg (Int.ne_of_gt gt)]
    cases max with
    | true => exact congrArg some (decide_eq_true (Int.le_of_lt gt))
    | false => exact congrArg some (decide_eq_false (Int.not_le.mpr gt))
  · rw [signedZeros, if_pos zero, same]
    cases signField f v <;> cases max <;> rfl
  · rw [signedZeros, if_pos zero, Bool.eq_not_of_ne differ]
    cases signField f v <;> cases max <;> rfl

/-- `r` is what the choice between patterns `u` and `v` takes of `neither`, `a` and `b` (R89). -/
structure Chooses {α : Type} (f : Fmt) (max : Bool) (u v : Nat) (neither a b r : α) : Prop where
  nans : isNaN f u = true → isNaN f v = true → r = neither
  nanA : isNaN f u = true → isNaN f v = false → r = b
  nanB : isNaN f u = false → isNaN f v = true → r = a
  lt : isNaN f u = false → isNaN f v = false → cmpEx (unpack f u) (unpack f v) < 0 → r = if max then b else a
  gt : isNaN f u = false → isNaN f v = false → 0 < cmpEx (unpack f u) (unpack f v) → r = if max then a else b
  same : isNaN f u = false → isNaN f v = false → cmpEx (unpack f u) (unpack f v) = 0 → signField f u = signField f v → r = a
  differ : isNaN f u = false → isNaN f v = false → cmpEx (unpack f u) (unpack f v) = 0 → signField f u ≠ signField f v →
    r = if signField f u = !max then a else b

theorem chooses {α : Type} (f : Fmt) (max : Bool) (u v : Nat) (neither a b : α) :
    Chooses f max u v neither a b (chosen (choose89 f max u v) neither a b) where
  nans hu hv := by rw [choose89, if_pos hu, if_pos hv, chosen]
  nanA hu hv := by rw [choose89, if_pos hu, if_neg (by rw [hv]; exact Bool.false_ne_true), chosen]
  nanB hu hv := by rw [choose89, if_neg (by rw [hu]; exact Bool.false_ne_true), if_pos hv, chosen]
  lt hu hv c := by
    rw [(choose89_numbers max hu hv).1 c]
    cases max <;> rfl
  gt hu hv c := by
    rw [(choose89_numbers max hu hv).2.1 c]
    cases max <;> rfl
  same hu hv c e := by rw [(choose89_numbers max hu hv).2.2.1 c e, chosen]
  differ hu hv c e := by
    rw [(choose89_numbers max hu hv).2.2.2 c e]
    cases signField f u <;> cases max <;> rfl

theorem snanFlag_eq (f : Fmt) (u v : Nat) : snanFlag f u v = if isSNaN f u ∨ isSNaN f v then flagInvalid else 0 := by
  simp only [snanFlag, Bool.or_eq_true]

theorem chooseOp_zero (max : Bool) (t : Ty) (a b : List Nat) :
    chooseOp max t 0 a b = elemwise t (fun e =>
      (chosen (choose89 (fmtOf t) max (elemAt t (nth 0 a 0) e) (elemAt t (nth 0 b 0) e)) (canonNaN (fmtOf t)) (elemAt t (nth 0 a 0) e)
        (elemAt t (nth 0 b 0) e), snanFlag (fmtOf t) (elemAt t (nth 0 a 0) e) (elemAt t (nth 0 b 0) e))) := rfl

/-- The jet that a selection takes (R89). -/
def chosenJet (max : Bool) (a b : List Nat) : List Nat :=
  chosen (choose89 fp32 max (nth 0 a 0) (nth 0 b 0)) (canonNaN fp32 :: a.drop 1) a b

theorem chooseOp_jet {k : Nat} (pos : k ≠ 0) (max : Bool) (t : Ty) (a b : List Nat) :
    chooseOp max t k a b = ((chosenJet max a b).take 1).map (fun v => (v, snanFlag fp32 (nth 0 a 0) (nth 0 b 0))) ++
      ((chosenJet max a b).drop 1).map (fun v => (v, 0)) := if_neg pos

theorem length_chosenJet (max : Bool) {a b : List Nat} {k : Nat} (ha : a.length = k + 1) (hb : b.length = k + 1) :
    (chosenJet max a b).length = k + 1 := by
  unfold chosenJet
  rcases choose89 fp32 max (nth 0 a 0) (nth 0 b 0) with _ | _ | _
  · simp [chosen, ha]
  · exact hb
  · exact ha

theorem nth_chosenJet (max : Bool) (a b : List Nat) (j : Nat) :
    nth 0 (chosenJet max a b) j =
      chosen (choose89 fp32 max (nth 0 a 0) (nth 0 b 0)) (if j = 0 then canonNaN fp32 else nth 0 a j) (nth 0 a j) (nth 0 b j) := by
  unfold chosenJet
  rcases choose89 fp32 max (nth 0 a 0) (nth 0 b 0) with _ | _ | _
  · cases j with
    | zero => rfl
    | succ j => simp [chosen, nth]
  · rfl
  · rfl

theorem length_chooseOp (max : Bool) (t : Ty) {k : Nat} {a b : List Nat} (ha : a.length = k + 1) (hb : b.length = k + 1) :
    (chooseOp max t k a b).length = k + 1 := by
  rcases Nat.eq_zero_or_pos k with rfl | pos
  · rfl
  · have := length_chosenJet max ha hb
    rw [chooseOp_jet (Nat.ne_of_gt pos), List.length_append, List.length_map, List.length_map, List.length_take, List.length_drop]
    omega

theorem nth_chooseOp {k j : Nat} (pos : k ≠ 0) (max : Bool) (t : Ty) {a b : List Nat} (ha : a.length = k + 1) (hb : b.length = k + 1) (hj : j ≤ k) :
    nth (0, 0) (chooseOp max t k a b) j =
      (chosen (choose89 fp32 max (nth 0 a 0) (nth 0 b 0)) (if j = 0 then canonNaN fp32 else nth 0 a j) (nth 0 a j) (nth 0 b j),
        if j = 0 then snanFlag fp32 (nth 0 a 0) (nth 0 b 0) else 0) := by
  rw [chooseOp_jet pos, ← nth_chosenJet]
  have len := length_chosenJet max ha hb
  generalize chosenJet max a b = l at len
  cases l with
  | nil => cases len
  | cons c l =>
    cases j with
    | zero => rfl
    | succ j =>
      have lt : j < l.length := by rw [List.length_cons] at len; omega
      simp [nth, lt]

theorem runChoose_yields {o : Instr} {t : Ty} {x : Fields} {s : State} {max : Bool} (run : exec o s = runChoose max t x s)
    (order : orderOk t s.g = true) (ok : okF2 t x s.g = true)
    (read : readable s.g x [fReads (orderOf t s.g) x.a, fReads (orderOf t s.g) x.b]) :
    yields o t x s (fun i => chooseOp max t (orderAt t s.g x) (readJet s.g x i (orderAt t s.g x) x.a) (readJetB s.g x i (orderAt t s.g x))) := by
  obtain ⟨d, a, b, rd, ra, rb⟩ := okF2_parts ok
  have hk := orderOf_lt t s.g
  exact yields_of_runFloat (val := fun k g i => chooseOp max t k (readJet g x i k x.a) (readJetB g x i k)) run ⟨ok, order, rfl⟩ d rd
    (fun k g i => length_chooseOp max t (length_readJet g x i k x.a) (length_readJetB g x i k))
    (fun _ g h i ag => by simp only [agree_readJet ag x (jet_fits hk ra), agree_readJetB ag x (jet_fits hk rb)])
    (fun hu i => by simp only [readJet_uni a hu s.g i, readJetB_uni b hu s.g i]) read

/-- Of zeros of unlike signs the choice takes the one of the sign that it looks for. -/
theorem Chooses.sign {f : Fmt} {max : Bool} {u v neither r : Nat} (h : Chooses f max u v neither u v r) (hu : isNaN f u = false) (hv : isNaN f v = false)
    (c : cmpEx (unpack f u) (unpack f v) = 0) (d : signField f u ≠ signField f v) : signField f r = !max := by
  rw [h.differ hu hv c d]
  by_cases e : signField f u = !max
  · rw [if_pos e, e]
  · rw [if_neg e, Bool.eq_not_of_ne (Ne.symm d), Bool.eq_not_of_ne e, Bool.not_not]

/-- The two selections: each is `runChoose` with its comparison. -/
theorem exec_choose {o : Instr} {t : Ty} {x : Fields} (h : o = .fmin t x ∨ o = .fmax t x) :
    ∃ max, (∀ s, exec o s = runChoose max t x s) ∧ decide (o = .fmin t x) = !max ∧
      ∀ a b : Nat, (if o = .fmin t x then a else b) = if max then b else a := by
  rcases h with rfl | rfl
  · exact ⟨false, fun _ => rfl, by simp, by simp⟩
  · exact ⟨true, fun _ => rfl, by simp, by simp⟩

/-! #### Comparisons and classes -/

theorem fcondHolds_nan {f : FCond} {a b : Ex} (h : a = .nan ∨ b = .nan) : fcondHolds f a b = true ↔ f = .ne ∨ f = .uno := by
  rw [fcondHolds, if_pos (by simpa using h)]
  simp

theorem fcondHolds_numbers {f : FCond} {a b : Ex} (h : ¬(a = .nan ∨ b = .nan)) :
    (f = .eq → (fcondHolds f a b = true ↔ cmpEx a b = 0)) ∧ (f = .ne → (fcondHolds f a b = true ↔ cmpEx a b ≠ 0)) ∧
    (f = .lt → (fcondHolds f a b = true ↔ cmpEx a b < 0)) ∧ (f = .le → (fcondHolds f a b = true ↔ cmpEx a b ≤ 0)) ∧
    (f = .gt → (fcondHolds f a b = true ↔ 0 < cmpEx a b)) ∧ (f = .ge → (fcondHolds f a b = true ↔ 0 ≤ cmpEx a b)) ∧
    (f = .ord → fcondHolds f a b = true) ∧ (f = .uno → fcondHolds f a b = false) := by
  rw [fcondHolds, if_neg (by simpa using h)]
  refine ⟨?_, ?_, ?_, ?_, ?_, ?_, ?_, ?_⟩ <;> (rintro rfl; simp)

theorem opIdx_lt (o : Opnd) : opIdx o < 256 := by cases o <;> exact BitVec.isLt _

/-- Coefficient 0 stands in the first register of a jet group, which always exists. -/
theorem agree_readJet_zero {keep : Bool} {i : Nat} {g h : Group} (a : agree keep i g h) (x : Fields) (o : Opnd) : readJet h x i 0 o = readJet g x i 0 o :=
  agree_readJet a x fun _ => opIdx_lt o

theorem agree_readJetB_zero {keep : Bool} {i : Nat} {g h : Group} (a : agree keep i g h) (x : Fields) : readJetB h x i 0 = readJetB g x i 0 := by
  rw [readJetB, readJetB, agree_readJet_zero a]

/-- What `FCMP` compares, and the flags it raises, in strand `i`. -/
def fcmpOne (f : FCond) (t : Ty) (x : Fields) (g : Group) (i : Nat) : Bool × Flags :=
  (fcondHolds f (elemSrc t g.fmt (nth 0 (readJet g x i 0 x.a) 0) 0).1 (elemSrc t g.fmt (nth 0 (readJetB g x i 0) 0) 0).1,
    (elemSrc t g.fmt (nth 0 (readJet g x i 0 x.a) 0) 0).2 ||| (elemSrc t g.fmt (nth 0 (readJetB g x i 0) 0) 0).2)

/-- What `FCLASS` finds in strand `i`. -/
def fclassOne (t : Ty) (x : Fields) (g : Group) (i : Nat) : Bool × Flags :=
  ((readB32 g x i).getLsbD (classOf (fmtOf t) (elemAt t (nth 0 (readJet g x i 0 x.a) 0) 0)), 0)

section
variable {t : Ty} {x : Fields} {s : State}

/-- The operands of a comparison or class test (R154, R165, R166). -/
theorem compare_parts {l : List (Opnd × Nat)}
    (ok : (isPDst x x.d && isSrc x x.a && isSrcB x && oneImm [x.a, x.b] && regsOk s.g l) = true) :
    isPDst x x.d = true ∧ isSrc x x.a = true ∧ isSrcB x = true := by
  simp only [Bool.and_eq_true] at ok
  obtain ⟨⟨⟨⟨d, a⟩, b⟩, -⟩, -⟩ := ok
  exact ⟨d, a, b⟩

theorem fcmp_result (f : FCond) (fmt : fmtBad s.g.fmt = false)
    (ok : (isPDst x x.d && isSrc x x.a && isSrcB x && oneImm [x.a, x.b] && regsOk s.g [fRegs (orderOf t s.g) x.a, fRegs (orderOf t s.g) x.b]) = true)
    (read : readable s.g x [fRegs 0 x.a, fRegs 0 x.b]) :
    ∃ u, exec (.fcmp f t x) s = .next u ∧
      FPredResult x (fun i => (fcmpOne f t x s.g i).1) (fun i => (fcmpOne f t x s.g i).2.zeroExtend 20) s u := by
  obtain ⟨d, a, b⟩ := compare_parts ok
  exact runFPred_result (val := fcmpOne f t x) ⟨ok, by rw [fmt]; rfl⟩ d
    (fun _ g h i ag => by rw [fcmpOne, fcmpOne, agree_fmt ag, agree_readJet_zero ag, agree_readJetB_zero ag])
    (fun hu i => by rw [fcmpOne, fcmpOne, readJet_uni a hu s.g i, readJetB_uni b hu s.g i]) read

theorem fclass_result
    (ok : (isPDst x x.d && isSrc x x.a && isSrcB x && oneImm [x.a, x.b] && regsOk s.g [fRegs (orderOf t s.g) x.a, (x.b, 1)]) = true)
    (read : readable s.g x [fRegs 0 x.a, (x.b, 1)]) :
    ∃ u, exec (.fclass t x) s = .next u ∧ FPredResult x (fun i => (fclassOne t x s.g i).1) (fun _ => 0) s u := by
  obtain ⟨d, a, b⟩ := compare_parts ok
  exact runFPred_result (val := fclassOne t x) ⟨ok, rfl⟩ d
    (fun _ g h i ag => by rw [fclassOne, fclassOne, agree_readB32 ag, agree_readJet_zero ag])
    (fun hu i => by rw [fclassOne, fclassOne, readB32_uni b hu i 0, readJet_uni a hu s.g i]) read

end

theorem wide_fmtOf (t : Ty) : Wide (fmtOf t) := by cases t <;> simp [fmtOf, Wide]

/-- The class of a pattern by its exponent and fraction fields (R166). -/
theorem classOf_cases {f : Fmt} (hf : Wide f) (v : Nat) :
    (isNaN f v = true → classOf f v = if isSNaN f v then 0 else 1) ∧
    (isInf f v = true → classOf f v = if signField f v then 2 else 9) ∧
    (isZero f v = true → classOf f v = if signField f v then 5 else 6) ∧
    (isSub f v = true → classOf f v = if signField f v then 4 else 7) ∧
    (expField f v ≠ 0 → expField f v ≠ 2 ^ f.ebits - 1 → classOf f v = if signField f v then 3 else 8) := by
  have top : 2 ^ f.ebits - 1 ≠ 0 := by rcases hf with rfl | rfl | rfl <;> decide
  simp only [classOf, isNaN, isInf, isZero, isSub, Bool.and_eq_true, beq_iff_eq, bne_iff_ne]
  refine ⟨fun h => if_pos h, fun h => ?_, fun h => ?_, fun h => ?_, fun nonzero finite => ?_⟩
  · rw [if_neg fun c => c.2 h.2, if_pos h]
  · rw [if_neg fun c => c.2 h.2, if_neg fun c => top (c.1.symm.trans h.1), if_pos h]
  · rw [if_neg fun c => top (c.1.symm.trans h.1), if_neg fun c => h.2 c.2, if_neg fun c => h.2 c.2, if_pos h]
  · rw [if_neg fun c => finite c.1, if_neg fun c => finite c.1, if_neg fun c => nonzero c.1, if_neg fun c => nonzero c.1]

/-! #### The statement -/

/-- Settles O17: a sign operation changes one bit of each pattern, a selection takes one operand by R89, and a predicate instruction
writes in turn what each strand finds. -/
theorem floatSelectCompare : Obligations.FloatSelectCompare := by
  refine ⟨fun ty x s zero checks => ?_, fun ty x s => ⟨fun f _ fmt ok read => ?_, fun _ ok read => ?_⟩, fun x s hu hjord => ?_⟩
  · intro f w k a b flag elems
    refine ⟨fun ok read => ⟨fun _ => ?_, fun _ => ?_⟩, fun ok read o ho _ => ?_⟩
    · have y := runSign_yields (o := .fneg ty x) (abs := false) rfl (orderOk_of checks) ok read
      rw [zero] at y
      exact ⟨_, y, fun i e _ => ⟨rfl, fun j _ => testBit_flipTop _⟩⟩
    · have y := runSign_yields (o := .fabs ty x) (abs := true) rfl (orderOk_of checks) ok read
      rw [zero] at y
      exact ⟨_, y, fun i e _ => ⟨rfl, fun j hj => testBit_clearTop _ hj⟩⟩
    · obtain ⟨max, run, sign, pick⟩ := exec_choose ho
      have y := runChoose_yields (run s) (orderOk_of checks) ok read
      rw [zero] at y
      refine ⟨_, y, fun i e _ => ?_⟩
      have c := chooses f max (a i e) (b i e) (canonNaN f) (a i e) (b i e)
      refine ⟨snanFlag_eq f _ _, c.nans, c.nanA, c.nanB, fun na nb => ?_⟩
      simp only [pick, sign]
      exact ⟨c.lt na nb, c.gt na nb, c.same na nb, c.sign na nb⟩
  · obtain ⟨u, run, result⟩ := fcmp_result f fmt ok read
    exact ⟨u, _, _, run, result, fun i => ⟨rfl, fcondHolds_nan, fcondHolds_numbers⟩⟩
  · obtain ⟨u, run, result⟩ := fclass_result ok read
    refine ⟨u, _, run, result, fun i => ?_⟩
    obtain ⟨nan, inf, zero, sub, normal⟩ := classOf_cases (wide_fmtOf ty) (elemAt ty (nth 0 (readJet s.g x i 0 x.a) 0) 0)
    have bit {n} (h : classOf (fmtOf ty) (elemAt ty (nth 0 (readJet s.g x i 0 x.a) 0) 0) = n) :
        (fclassOne ty x s.g i).1 = (readB32 s.g x i).getLsbD n := by rw [fclassOne, h]
    exact ⟨fun h => bit (nan h), fun h => bit (inf h), fun h => bit (zero h), fun h => bit (sub h), fun h h' => bit (normal h h')⟩
  · intro k a b jets flipped
    have order := orderAt_jet hu s.g
    have pos : k ≠ 0 := jord_ne_zero.mpr hjord
    refine ⟨fun ok read => ⟨fun _ => ?_, fun _ => ?_⟩, fun ok read o ho _ => ?_⟩
    · have y := runSign_yields (o := .fneg .f32 x) (abs := false) rfl rfl ok read
      rw [order] at y
      exact ⟨_, y, fun i => ⟨length_signOp _ _ (length_readJet ..), fun j hj => nth_signOp pos _ _ (by rw [length_readJet]; omega)⟩⟩
    · have y := runSign_yields (o := .fabs .f32 x) (abs := true) rfl rfl ok read
      rw [order] at y
      exact ⟨_, y, fun i => ⟨length_signOp _ _ (length_readJet ..), fun j hj => nth_signOp pos _ _ (by rw [length_readJet]; omega)⟩⟩
    · obtain ⟨max, run, sign, pick⟩ := exec_choose ho
      have y := runChoose_yields (run s) rfl ok read
      rw [order] at y
      refine ⟨_, y, fun i => ⟨length_chooseOp _ _ (length_readJet ..) (length_readJetB ..), fun j hj => ?_⟩⟩
      rw [nth_chooseOp pos max .f32 (length_readJet ..) (length_readJetB ..) hj]
      have c := chooses fp32 max (a i 0) (b i 0) (if j = 0 then canonNaN fp32 else a i j) (a i j) (b i j)
      simp only [pick, sign]
      refine ⟨?_, c.nans, c.nanA, c.nanB, fun na nb => ⟨c.lt na nb, c.gt na nb, c.same na nb, c.differ na nb⟩⟩
      by_cases h : j = 0
      · simp only [h, true_and, if_true]
        exact snanFlag_eq fp32 _ _
      · simp only [h, false_and, if_false]

end Sys2Proof.NumberFormats

/-! ### The jet instructions (R91, R170 to R175), and O20 -/

namespace Sys2Proof.NumberFormats

open Sys2Proof Sys2Proof.Machine Sys2Proof.Safety Sys2Proof.Laws
open Sys2Proof.Groups (need_ok need_bad)

/-! #### Checks -/

theorem isDst_of_isV {x : Fields} {o : Opnd} (h : isV o = true) : isDst x o = true := by
  rw [isDst, h]
  rfl

/-- `JGET` and `JSHIFT` act in each strand, `JXR` once (R169). -/
theorem jget_perStrand {x : Fields} (wf : WellFormed (.jget x)) : x.u = false := by
  simp only [WellFormed, fieldsLegal, Bool.and_eq_true, Bool.not_eq_true'] at wf
  obtain ⟨⟨⟨⟨⟨-, hu⟩, -⟩, -⟩, -⟩, -⟩ := wf
  exact hu

theorem jshift_perStrand {x : Fields} (wf : WellFormed (.jshift x)) : x.u = false := by
  simp only [WellFormed, fieldsLegal, Bool.and_eq_true, Bool.not_eq_true'] at wf
  obtain ⟨⟨-, hu⟩, -⟩ := wf
  exact hu

theorem jxr_once {x : Fields} (wf : WellFormed (.jxr x)) : x.u = true := by
  simp only [WellFormed, fieldsLegal, Bool.and_eq_true] at wf
  obtain ⟨⟨⟨-, hu⟩, -⟩, -⟩ := wf
  exact hu

/-! #### `JORD` and `JXC`: the group's state (R170, R175) -/

theorem exec_jord_of_le {x : Fields} {s : State} (ok : ((isS x.b || isShort x.b) && !isLong x && regOk s.g x.b 1) = true)
    (le : (read32 s.g x 0 x.b).toNat ≤ 3) :
    exec (.jord x) s = finish (if holdsQ s.g x then { s.g with jord := (read32 s.g x 0 x.b).extractLsb' 0 2 } else s.g) s := by
  have good : decide (3 < (read32 s.g x 0 x.b).toNat) = false := decide_eq_false (Nat.not_lt.mpr le)
  change execJord x s = _
  rw [execJord, ok, good, Bool.and_false]
  refine (need_ok rfl _ s _).trans ?_
  split <;> rfl

theorem exec_jord_of_gt {x : Fields} {s : State} (gt : 3 < (read32 s.g x 0 x.b).toNat) (holds : holdsQ s.g x = true) :
    exec (.jord x) s = trapped (wordTrap 0x02) s := by
  change execJord x s = _
  rw [execJord, decide_eq_true gt, if_pos holds, if_pos rfl, need]
  split <;> rfl

theorem exec_jxc {x : Fields} {s : State} (ok : ((isS x.b || isShort x.b || isLong x) && isSrcB x && regOk s.g x.b 1) = true) :
    exec (.jxc x) s = finish { s.g with jx := if holdsQ s.g x then s.g.jx &&& ~~~(readB32 s.g x 0).extractLsb' 0 20 else s.g.jx } s := by
  change execJxc x s = _
  rw [execJxc, need_ok ok]
  split <;> rfl

/-- A mask clears its bits where the guards hold (R175). -/
theorem getLsbD_cleared (holds : Bool) (jx : BitVec 20) (m : Word) {n : Nat} (hn : n < 20) :
    (if holds then jx &&& ~~~m.extractLsb' 0 20 else jx).getLsbD n = (jx.getLsbD n && !(holds && m.getLsbD n)) := by
  cases holds with
  | false => simp
  | true => simp [hn]

/-! #### `JSEED`, `JGET`, `JSET` and `JXR`: registers (R171, R172, R175) -/

/-- The words that `JSEED` writes: a value, a direction, and +0 above (R171). -/
def seedWords (x : Fields) (k : Nat) (g : Group) (i : Nat) : List Word :=
  BitVec.ofNat 32 (nth 0 (readJet g x i 0 x.a) 0) :: readB32 g x i :: List.replicate (k - 1) 0

section
variable {x : Fields} {s : State}

section
variable (ok : (isV x.d && isSrc x x.a && isSrcB x && oneImm [x.a, x.b] &&
  regsOk s.g [fRegs s.g.jord.toNat x.d, fRegs s.g.jord.toNat x.a, (x.b, 1)]) = true)
include ok

theorem jseed_zero (zero : s.g.jord.toNat = 0) : exec (.jseed x) s = trapped (wordTrap 0x15) s := by
  change execJseed x s = _
  rw [execJseed, need_ok ok, need_bad (by rw [zero]; rfl)]

theorem jseed_result (pos : s.g.jord.toNat ≠ 0) (read : readable s.g x [fRegs 0 x.a, (x.b, 1)]) :
    ∃ t, exec (.jseed x) s = .next t ∧ RegResult x (s.g.jord.toNat + 1) (seedWords x s.g.jord.toNat s.g) s t := by
  have parts := ok
  simp only [Bool.and_eq_true] at parts
  obtain ⟨⟨⟨⟨d, a⟩, b⟩, -⟩, regs⟩ := parts
  have run : exec (.jseed x) s = runMap x true [fRegs 0 x.a, (x.b, 1)] (seedWords x s.g.jord.toNat) s := by
    change execJseed x s = _
    rw [execJseed, need_ok ok, need_ok (bne_iff_ne.mpr pos)]
    rfl
  rw [run]
  refine runMap_result rfl (isDst_of_isV d) (jet_fits (jord_lt s.g) (regsOk_cons regs).1 d) (fun g i => ?_) (fun _ g h i ag => ?_) (fun hu i => ?_) read
  · rw [seedWords, List.length_cons, List.length_cons, List.length_replicate]
    omega
  · rw [seedWords, seedWords, agree_readJet_zero ag, agree_readB32 ag]
  · rw [seedWords, seedWords, readJet_uni a hu s.g i, readB32_uni b hu i 0]

end

section
variable (ok : (isV x.d && isV x.a && regsOk s.g [(x.d, 1), fRegs s.g.jord.toNat x.a]) = true)
include ok

theorem jget_above (above : s.g.jord.toNat < coefOf x) : exec (.jget x) s = trapped (wordTrap 0x15) s := by
  change execJget x s = _
  rw [execJget, need_ok ok, need_bad (decide_eq_false (Nat.not_le.mpr above))]

theorem jget_result (hu : x.u = false) (le : coefOf x ≤ s.g.jord.toNat) (read : readable s.g x [(.v (BitVec.ofNat 8 (opIdx x.a + coefOf x)), 1)]) :
    ∃ t, exec (.jget x) s = .next t ∧ RegResult x 1 (fun i => [vGet s.g i (opIdx x.a + coefOf x)]) s t := by
  have parts := ok
  simp only [Bool.and_eq_true] at parts
  obtain ⟨⟨d, a⟩, regs⟩ := parts
  obtain ⟨rd, regs⟩ := regsOk_cons regs
  have fits := jet_fits (jord_lt s.g) (regsOk_cons regs).1 a
  have run : exec (.jget x) s = runMap x true [(.v (BitVec.ofNat 8 (opIdx x.a + coefOf x)), 1)] (fun g j => [vGet g j (opIdx x.a + coefOf x)]) s := by
    change execJget x s = _
    rw [execJget, need_ok ok, need_ok (decide_eq_true le)]
  rw [run]
  exact runMap_result (val := fun g j => [vGet g j (opIdx x.a + coefOf x)]) rfl (isDst_of_isV d) (regOk_lt (.inl rfl) (.inl d) rd) (fun _ _ => rfl)
    (fun _ g h i ag => by rw [agree_v ag (by omega)]) (fun hu' => absurd (hu'.symm.trans hu) Bool.noConfusion) read

end

section
variable (ok : (isV x.d && !isLong x && isSrc x x.b && regsOk s.g [fRegs s.g.jord.toNat x.d, (x.b, 1)]) = true)
include ok

theorem jset_above (above : s.g.jord.toNat < coefOf x) : exec (.jset x) s = trapped (wordTrap 0x15) s := by
  change execJset x s = _
  rw [execJset, need_ok ok, need_bad (decide_eq_false (Nat.not_le.mpr above))]

/-- `JSET` writes the register of one coefficient (R172). -/
theorem jset_result (le : coefOf x ≤ s.g.jord.toNat) (read : readable s.g x [(x.b, 1)]) :
    ∃ t, exec (.jset x) s = .next t ∧
      RegResult { x with d := .v (BitVec.ofNat 8 (opIdx x.d + coefOf x)) } 1 (fun i => [read32 s.g x i x.b]) s t := by
  have parts := ok
  simp only [Bool.and_eq_true] at parts
  obtain ⟨⟨⟨d, -⟩, b⟩, -⟩ := parts
  have run : exec (.jset x) s =
      runMap { x with d := .v (BitVec.ofNat 8 (opIdx x.d + coefOf x)) } true [(x.b, 1)] (fun g i => [read32 g x i x.b]) s := by
    change execJset x s = _
    rw [execJset, need_ok ok, need_ok (decide_eq_true le)]
    rfl
  rw [run]
  exact runMap_result (val := fun g i => [read32 g x i x.b]) rfl rfl (Nat.succ_le_of_lt (opIdx_lt _)) (fun _ _ => rfl)
    (fun _ g h i ag => by rw [agree_read32 ag]) (fun hu i => by rw [read32_uni (isSrc_uni b hu) i 0]) read

end

theorem jxr_result (hu : x.u = true) (ok : ((isS x.d || isV x.d) && regOk s.g x.d 1) = true) :
    ∃ t, exec (.jxr x) s = .next t ∧ RegResult x 1 (fun _ => [s.g.jx.zeroExtend 32]) s t := by
  have parts := ok
  rw [Bool.and_eq_true, Bool.or_eq_true] at parts
  obtain ⟨d, rd⟩ := parts
  have dst : isDst x x.d = true := by rw [isDst, hu, Bool.and_true, Bool.or_comm, Bool.or_eq_true]; exact d
  exact runMap_result (val := fun g _ => [g.jx.zeroExtend 32]) ok dst (regOk_lt (.inl rfl) d.symm rd) (fun _ _ => rfl)
    (fun hu' => absurd (hu'.symm.trans hu) Bool.noConfusion) (fun _ _ => rfl) (fun hu' => absurd (hu'.symm.trans hu) Bool.noConfusion)

/-! #### `JSHIFT` and `JTEST`: whole jets (R173, R174) -/

theorem length_shiftSeries (k : Nat) (fmt : DWord) (a : List Nat) : (shiftSeries k fmt a).length = k + 1 := by
  rw [shiftSeries, List.length_append, List.length_map, List.length_range, List.length_singleton]

theorem nth_shiftSeries_top (k : Nat) (fmt : DWord) (a : List Nat) : nth (0, 0) (shiftSeries k fmt a) k = (0, 0) := by
  simp [shiftSeries, nth]

theorem nth_shiftSeries {k j : Nat} (hj : j < k) (fmt : DWord) (a : List Nat) :
    nth (0, 0) (shiftSeries k fmt a) j = chain 0 fmt none [mulV (.num false (j + 1) 1 0, 0) (cA fmt a (j + 1))] none := by
  simp [shiftSeries, nth, List.getElem?_append_left, hj, weightV]

theorem jshift_zero (ok : okF1 .f32 x s.g = true) (zero : s.g.jord.toNat = 0) : exec (.jshift x) s = trapped (wordTrap 0x15) s := by
  have order : (s.g.jord != 0) = false := by rw [bne_eq_false_iff_eq]; exact BitVec.eq_of_toNat_eq zero
  change execJshift x s = _
  rw [execJshift, runFloat, need_ok ok, need_bad order]

theorem jshift_yields (hu : x.u = false) (ok : okF1 .f32 x s.g = true) (pos : s.g.jord.toNat ≠ 0) (fmt : fmtBad s.g.fmt = false)
    (read : readable s.g x [fReads s.g.jord.toNat x.a]) :
    yields (.jshift x) .f32 x s (fun i => shiftSeries s.g.jord.toNat s.g.fmt (readJet s.g x i s.g.jord.toNat x.a)) := by
  obtain ⟨d, -, rd, ra⟩ := okF1_parts ok
  have y := yields_of_runFloat (o := .jshift x) (x := x) (t := .f32) (s := s) (val := fun k g i => shiftSeries k g.fmt (readJet g x i k x.a)) rfl
    ⟨ok, bne_iff_ne.mpr (jord_ne_zero.mp pos), by rw [fmt]; rfl⟩ d rd (fun k g i => length_shiftSeries _ _ _)
    (fun _ g h i ag => by simp only [agree_fmt ag, agree_readJet ag x (jet_fits (orderOf_lt .f32 s.g) ra)])
    (fun hu' => absurd (hu'.symm.trans hu) Bool.noConfusion) read
  rwa [orderAt_jet hu] at y

/-- What `JTEST` finds in strand `i`. -/
def jtestOne (x : Fields) (k : Nat) (g : Group) (i : Nat) : Bool × Flags := ((readJet g x i k x.a).any (fun v => expField fp32 v == 255), 0)

theorem jtestOne_iff (x : Fields) (k : Nat) (g : Group) (i : Nat) :
    (jtestOne x k g i).1 = true ↔ ∃ v ∈ readJet g x i k x.a, expField fp32 v = 255 := by
  simp only [jtestOne, List.any_eq_true, beq_iff_eq]

theorem jtest_result (ok : (isP x.d && isSrc x x.a && regsOk s.g [fRegs s.g.jord.toNat x.a]) = true) (read : readable s.g x [fReads s.g.jord.toNat x.a]) :
    ∃ t, exec (.jtest x) s = .next t ∧ FPredResult x (fun i => (jtestOne x s.g.jord.toNat s.g i).1) (fun _ => 0) s t := by
  have parts := ok
  simp only [Bool.and_eq_true] at parts
  obtain ⟨⟨d, a⟩, regs⟩ := parts
  have dst : isPDst x x.d = true := by rw [isPDst, d]; rfl
  exact runFPred_result (val := jtestOne x s.g.jord.toNat) ⟨ok, rfl⟩ dst
    (fun _ g h i ag => by rw [jtestOne, jtestOne, agree_readJet ag x (jet_fits (jord_lt s.g) (regsOk_cons regs).1)])
    (fun hu i => by rw [jtestOne, jtestOne, readJet_uni a hu s.g i]) read

/-- `JTEST` names a p predicate, never a q predicate (R44, R174). -/
theorem jtest_uniform (q : isQ x.d = true) : exec (.jtest x) s = trapped (wordTrap 0x02) s := by
  have p : isP x.d = false := by
    cases hd : x.d with
    | sp k =>
      rw [hd, isQ, Bool.and_eq_true, decide_eq_true_eq] at q
      exact decide_eq_false (by omega)
    | v k => rfl
    | s k => rfl
    | im k => rfl
  change execJtest x s = _
  rw [execJtest, runFPred, need_bad (by rw [p, Bool.false_and, Bool.false_and])]

end

/-! #### The statement -/

/-- Settles O20: `JORD` and `JXC` act once, and the others write registers or a predicate in turn, each after its checks of the order. -/
theorem jets : Obligations.Jets := by
  intro x s k c onward
  refine ⟨fun _ ok => ⟨fun le => ?_, exec_jord_of_gt⟩, fun _ ok => ⟨jseed_zero ok, jseed_result ok⟩,
    fun wf ok => ⟨jget_above ok, jget_result ok (jget_perStrand wf)⟩, fun _ ok => ⟨jset_above ok, jset_result ok⟩,
    fun wf ok => ⟨jshift_zero ok, fun pos fmt read => ?_⟩, fun _ ok read => ?_, jtest_uniform, fun wf ok => jxr_result (jxr_once wf) ok, fun _ ok => ?_⟩
  · rw [exec_jord_of_le ok le]
    split <;> rfl
  · exact ⟨_, jshift_yields (jshift_perStrand wf) ok pos fmt read,
      fun i => ⟨length_shiftSeries .., nth_shiftSeries_top .., fun j hj => nth_shiftSeries hj _ _⟩⟩
  · obtain ⟨t, run, result⟩ := jtest_result ok read
    exact ⟨t, _, run, result, fun i => jtestOne_iff x k s.g i⟩
  · exact ⟨_, exec_jxc ok, rfl, fun n hn => getLsbD_cleared _ s.g.jx _ hn⟩

end Sys2Proof.NumberFormats

/-! ### Words and their parts (R8, R97, R99, R104) -/

namespace Sys2Proof.Encoding

open Sys2Proof Sys2Proof.Machine Sys2Proof.Laws

theorem opndBits_opndOf (f : BitVec 10) : opndBits (opndOf f) = f := by
  have parts : f.extractLsb' 8 2 ++ f.extractLsb' 0 8 = f := by
    rw [BitVec.extractLsb'_append_extractLsb'_eq_extractLsb' (by decide), BitVec.extractLsb'_eq_self]
  have classes : ∀ k : BitVec 2, k = 0 ∨ k = 1 ∨ k = 2 ∨ k = 3 := by decide
  rcases classes (f.extractLsb' 8 2) with h | h | h | h <;> rw [h] at parts <;> simp only [opndOf, h] <;> exact parts

theorem guardBits_guardOf (f : BitVec 4) : guardBits (guardOf f) = f := by
  revert f
  decide

theorem tyCode_tyOf (c : BitVec 4) : tyCode (tyOf c) = c := by
  revert c
  decide

theorem ofBool_getLsbD {n : Nat} (w : BitVec n) (i : Nat) : BitVec.ofBool (w.getLsbD i) = w.extractLsb' i 1 := by
  apply BitVec.eq_of_getLsbD_eq
  intro j hj
  obtain rfl : j = 0 := by omega
  simp

/-- The parts of a word, put together again, are the word. -/
theorem wordBits_fieldsOf (w : IWord) :
    wordBits (w.extractLsb' 88 8) (w.extractLsb' 84 4) (w.extractLsb' 80 4) (fieldsOf w) = w := by
  simp only [wordBits, fieldsBits, fieldsOf, guardBits_guardOf, opndBits_opndOf, ofBool_getLsbD]
  repeat rw [BitVec.extractLsb'_append_extractLsb'_eq_extractLsb' (by decide)]
  exact BitVec.extractLsb'_eq_self

theorem leNat_lt (l : List Byte) : leNat l < 256 ^ l.length := by
  induction l with
  | nil => exact Nat.one_pos
  | cons b t ih =>
    have := b.isLt
    rw [leNat, List.length_cons, Nat.pow_succ]
    omega

theorem leBytes_leNat (l : List Byte) : leBytes l.length (leNat l) = l := by
  induction l with
  | nil => rfl
  | cons b t ih =>
    have low : BitVec.ofNat 8 (leNat (b :: t)) = b := by
      apply BitVec.eq_of_toNat_eq
      have := b.isLt
      rw [BitVec.toNat_ofNat, leNat]
      omega
    have rest : leNat (b :: t) / 256 = leNat t := by
      have := b.isLt
      rw [leNat]
      omega
    rw [List.length_cons, leBytes, low, rest, ih]

/-- Twelve bytes are those of the word that they make (R97). -/
theorem leBytes_take {b : List Byte} (h : 12 ≤ b.length) : leBytes 12 (BitVec.ofNat 96 (leNat (b.take 12))).toNat = b.take 12 := by
  have twelve : (b.take 12).length = 12 := List.length_take_of_le h
  have small := leNat_lt (b.take 12)
  have bytes := leBytes_leNat (b.take 12)
  rw [twelve] at small bytes
  rw [BitVec.toNat_ofNat, Nat.mod_eq_of_lt (by simpa using small), bytes]

end Sys2Proof.Encoding

/-! ### The opcode table read from the word (R112), and O39 -/

namespace Sys2Proof.Encoding

open Sys2Proof Sys2Proof.Machine Sys2Proof.Laws

/-- An instruction that a part of the table answers for an opcode, a `SUB` and a `TY` has the word of these. -/
def Encodes (opc : Nat) (sub ty : BitVec 4) (x : Fields) (o : Option Instr) : Prop :=
  ∀ i, o = some i → encode i = some (wordBits (BitVec.ofNat 8 opc) sub ty x)

/-! #### The entries of the table -/

section
variable {opc : Nat} {sub ty : BitVec 4} {x : Fields}

theorem Encodes.none : Encodes opc sub ty x .none := by
  intro i made
  cases made

theorem Encodes.typed {o : Option Instr} (h : Encodes opc sub (tyCode (tyOf ty)) x o) : Encodes opc sub ty x o := by
  rwa [tyCode_tyOf] at h

theorem Encodes.untyped {o : Option Instr} (h : Encodes opc sub 0 x o) : Encodes opc sub ty x (untyped ty o) := by
  intro i made
  rw [Sys2Proof.untyped] at made
  split at made
  next zero => exact zero ▸ h i made
  next => cases made

theorem Encodes.oneSub {j : Instr} (h : encode j = some (wordBits (BitVec.ofNat 8 opc) 0 ty x)) :
    Encodes opc sub ty x (oneSub sub j) := by
  intro i made
  rw [Sys2Proof.oneSub] at made
  split at made
  next zero =>
    obtain rfl := Option.some.inj made
    rw [h, zero]
  next => cases made

/-- The entry at position `sub` of a list of instructions, which carry their positions as `SUB`. -/
theorem Encodes.pickSub {l : List Instr}
    (h : l.map encode = (List.range l.length).map fun n => some (wordBits (BitVec.ofNat 8 opc) (BitVec.ofNat 4 n) ty x)) :
    Encodes opc sub ty x (pickSub l sub) := by
  intro i made
  obtain ⟨lt, -⟩ := List.getElem?_eq_some_iff.mp made
  have entry := congrArg (fun m => m[sub.toNat]?) h
  rw [List.getElem?_map, List.getElem?_map, List.getElem?_range lt, show l[sub.toNat]? = some i from made] at entry
  have word := Option.some.inj entry
  dsimp only at word
  rwa [BitVec.ofNat_toNat, BitVec.setWidth_eq] at word

/-- A form at position `sub` of a list of forms that are all different. -/
theorem Encodes.form {α : Type} [BEq α] [LawfulBEq α] {l : List α} {make : α → Instr} (distinct : l.Nodup)
    (h : ∀ f, encode (make f) = some (wordBits (BitVec.ofNat 8 opc) (subOf l f) ty x)) :
    Encodes opc sub ty x ((Sys2Proof.pickSub l sub).map make) := by
  intro i made
  obtain ⟨f, found, rfl⟩ := Option.map_eq_some_iff.mp made
  obtain ⟨lt, rfl⟩ := List.getElem?_eq_some_iff.mp found
  rw [h, subOf, distinct.idxOf_getElem, BitVec.ofNat_toNat, BitVec.setWidth_eq]

end

/-! #### The parts of the table -/

section
variable (opc : Nat) (sub ty : BitVec 4) (x : Fields)

theorem encodes_mkControl : Encodes opc sub ty x (mkControl opc sub ty x) := by
  refine .untyped ?_
  split
  case h_5 => exact .pickSub rfl
  case h_14 => exact .none
  all_goals exact .oneSub rfl

theorem encodes_movOf (f : MovCount) : encode (movOf f x) = some (wordBits 0x30 (subOf movForms f) 0 x) := by
  rw [movOf]
  split <;> rfl

theorem encodes_mkInteger : Encodes opc sub ty x (mkInteger opc sub ty x) := by
  unfold mkInteger
  split
  case h_7 => exact .typed (.pickSub rfl)
  case h_21 => exact .untyped (.form (by decide) (encodes_movOf x))
  case h_23 | h_24 => exact .untyped (.form (by decide) fun _ => rfl)
  case h_25 => exact .none
  case h_1 | h_2 | h_3 | h_4 | h_9 | h_10 | h_11 | h_12 | h_14 => exact .typed (.form (by decide) fun _ => rfl)
  all_goals exact .typed (.oneSub rfl)

theorem encodes_mkFloat : Encodes opc sub ty x (mkFloat opc sub ty x) := by
  unfold mkFloat
  split
  case h_4 | h_9 => exact .typed (.form (by decide) fun _ => rfl)
  case h_8 | h_12 => exact .typed (.pickSub rfl)
  case h_1 | h_2 | h_3 | h_5 | h_6 | h_7 | h_10 | h_11 => exact .typed (.oneSub rfl)
  case h_21 => exact .none
  all_goals exact .untyped (.oneSub rfl)

theorem encodes_mkMemory : Encodes opc sub ty x (mkMemory opc sub ty x) := by
  unfold mkMemory
  split
  case h_1 | h_3 | h_10 | h_11 => exact .typed (.form (by decide) fun _ => rfl)
  case h_2 | h_12 => exact .untyped (.form (by decide) fun _ => rfl)
  case h_6 => exact .untyped (.pickSub rfl)
  case h_7 | h_8 => exact .typed (.oneSub rfl)
  case h_18 => exact .none
  all_goals exact .untyped (.oneSub rfl)

theorem encodes_mkEngine : Encodes opc sub ty x (mkEngine opc sub ty x) := by
  refine .untyped ?_
  split
  case h_1 => exact .form (by decide) fun _ => rfl
  case h_16 => exact .none
  all_goals exact .oneSub rfl

theorem encodes_mkInstr : Encodes opc sub ty x (mkInstr opc sub ty x) := by
  rw [mkInstr]
  split
  · exact encodes_mkControl opc sub ty x
  split
  · exact encodes_mkInteger opc sub ty x
  split
  · exact encodes_mkFloat opc sub ty x
  split
  · exact encodes_mkMemory opc sub ty x
  · exact encodes_mkEngine opc sub ty x

end

/-! #### The statement -/

/-- A word that decodes to an instruction is its word, and well formed (R113). -/
theorem wellFormed_encode_of_decodeWord {w : IWord} {i : Instr} (h : decodeWord w = .instr i) : WellFormed i ∧ encode i = some w := by
  unfold decodeWord at h
  split at h
  · cases h
  split at h
  · cases h
  next j made =>
    split at h
    next legal =>
      obtain rfl := Decoded.instr.inj h
      have word := encodes_mkInstr _ _ _ _ j made
      rw [BitVec.ofNat_toNat, BitVec.setWidth_eq, wordBits_fieldsOf] at word
      exact ⟨legal, word⟩
    next => cases h

/-- Settles O39: the parts of the table answer instructions whose word is the one that was read. -/
theorem decodeThenEncode : Obligations.DecodeThenEncode := by
  intro b i h
  rw [decodeBytes] at h
  split at h
  next => cases h
  next long =>
    obtain ⟨wf, word⟩ := wellFormed_encode_of_decodeWord h
    have enough : 12 ≤ b.length := Nat.not_lt.mp long
    exact ⟨wf, enough, _, word, leBytes_take enough⟩

end Sys2Proof.Encoding

/-! ### The word of an instruction read back (R97 to R113), and O38 and O40 -/

namespace Sys2Proof.Encoding

open Sys2Proof Sys2Proof.Machine Sys2Proof.Laws

/-- Every row of the table that carries a word reads back; the other rows carry none. -/
theorem roundTrip (i : Instr) : RoundTrip.Statement i := by
  cases i with
  | bra x => exact RoundTrip.bra x | brd x => exact RoundTrip.brd x | join x => exact RoundTrip.join x | brx x => exact RoundTrip.brx x
  | callDirect x => exact RoundTrip.callDirect x | callIndirect x => exact RoundTrip.callIndirect x | ret x => exact RoundTrip.ret x
  | exit x => exact RoundTrip.exit x | yield x => exact RoundTrip.yield x | trap x => exact RoundTrip.trap x
  | tresume x => exact RoundTrip.tresume x | cancelchk x => exact RoundTrip.cancelchk x | launch x => exact RoundTrip.launch x
  | nop x => exact RoundTrip.nop x | iadd f ty x => exact RoundTrip.iadd f ty x | isub f ty x => exact RoundTrip.isub f ty x
  | imul f ty x => exact RoundTrip.imul f ty x | imad f ty x => exact RoundTrip.imad f ty x | imin ty x => exact RoundTrip.imin ty x
  | imax ty x => exact RoundTrip.imax ty x | ineg ty x => exact RoundTrip.ineg ty x | iabs ty x => exact RoundTrip.iabs ty x
  | shl ty x => exact RoundTrip.shl ty x | shr f ty x => exact RoundTrip.shr f ty x | rot f ty x => exact RoundTrip.rot f ty x
  | lop f ty x => exact RoundTrip.lop f ty x | bfx f ty x => exact RoundTrip.bfx f ty x | bfi ty x => exact RoundTrip.bfi ty x
  | icmp f ty x => exact RoundTrip.icmp f ty x | sel ty x => exact RoundTrip.sel ty x | clz ty x => exact RoundTrip.clz ty x
  | ffs ty x => exact RoundTrip.ffs ty x | popc ty x => exact RoundTrip.popc ty x | brev ty x => exact RoundTrip.brev ty x
  | lea ty x => exact RoundTrip.lea ty x | mov f x => exact RoundTrip.mov f x | movSpecial f x => exact RoundTrip.movSpecial f x
  | cvt ty src x => exact RoundTrip.cvt ty src x | plop f x => exact RoundTrip.plop f x | pmov f x => exact RoundTrip.pmov f x
  | fadd ty x => exact RoundTrip.fadd ty x | fsub ty x => exact RoundTrip.fsub ty x | fmul ty x => exact RoundTrip.fmul ty x
  | ffma f ty x => exact RoundTrip.ffma f ty x | fdiv ty x => exact RoundTrip.fdiv ty x | fmin ty x => exact RoundTrip.fmin ty x
  | fmax ty x => exact RoundTrip.fmax ty x | fneg ty x => exact RoundTrip.fneg ty x | fabs ty x => exact RoundTrip.fabs ty x
  | fcmp f ty x => exact RoundTrip.fcmp f ty x | fclass ty x => exact RoundTrip.fclass ty x | frnd ty x => exact RoundTrip.frnd ty x
  | rcp ty x => exact RoundTrip.rcp ty x | sqrt ty x => exact RoundTrip.sqrt ty x | rsqrt ty x => exact RoundTrip.rsqrt ty x
  | exp2 ty x => exact RoundTrip.exp2 ty x | log2 ty x => exact RoundTrip.log2 ty x | sinpi ty x => exact RoundTrip.sinpi ty x
  | cospi ty x => exact RoundTrip.cospi ty x | tanh ty x => exact RoundTrip.tanh ty x | sigm ty x => exact RoundTrip.sigm ty x
  | jord x => exact RoundTrip.jord x | jseed x => exact RoundTrip.jseed x | jget x => exact RoundTrip.jget x
  | jset x => exact RoundTrip.jset x | jshift x => exact RoundTrip.jshift x | jtest x => exact RoundTrip.jtest x
  | jxr x => exact RoundTrip.jxr x | jxc x => exact RoundTrip.jxc x | shfl f ty x => exact RoundTrip.shfl f ty x
  | vote f x => exact RoundTrip.vote f x | rfl f ty x => exact RoundTrip.rfl f ty x | fmt x => exact RoundTrip.fmt x
  | role x => exact RoundTrip.role x | xblkAcq x => exact RoundTrip.xblkAcq x | xblkRel x => exact RoundTrip.xblkRel x
  | ld ty x => exact RoundTrip.ld ty x | st ty x => exact RoundTrip.st ty x | pref x => exact RoundTrip.pref x
  | atom f ty x => exact RoundTrip.atom f ty x | red f ty x => exact RoundTrip.red f ty x | xsum f x => exact RoundTrip.xsum f x
  | fence x => exact RoundTrip.fence x | cadd x => exact RoundTrip.cadd x | cwait x => exact RoundTrip.cwait x
  | cread x => exact RoundTrip.cread x | bar x => exact RoundTrip.bar x | copy f x => exact RoundTrip.copy f x
  | xpose x => exact RoundTrip.xpose x | publish x => exact RoundTrip.publish x | resv x => exact RoundTrip.resv x
  | mma x => exact RoundTrip.mma x | mmaz x => exact RoundTrip.mmaz x | drain x => exact RoundTrip.drain x
  | achk x => exact RoundTrip.achk x | aload x => exact RoundTrip.aload x | sacc x => exact RoundTrip.sacc x
  | topk x => exact RoundTrip.topk x | kvpack x => exact RoundTrip.kvpack x | breg x => exact RoundTrip.breg x
  | bpost x => exact RoundTrip.bpost x | bstat x => exact RoundTrip.bstat x
  | _ =>
    intro w _ word
    cases word

/-- Settles O38: the bytes of a word read back as the word, and the word as the instruction. -/
theorem encodeThenDecode : Obligations.EncodeThenDecode := by
  intro i w rest wf word
  rw [decodeBytes_word]
  exact roundTrip i w wf word

/-- Settles O40: each word is taken apart and matched with its row. -/
theorem decodeExamples : Obligations.DecodeExamples := by
  unfold Obligations.DecodeExamples
  decide +kernel

end Sys2Proof.Encoding

/-! ### Operands of commands (R111, R245, R276) -/

namespace Sys2Proof.Encoding

open Sys2Proof Sys2Proof.Machine Sys2Proof.Safety Sys2Proof.Laws
open Sys2Proof.Groups (getLsbD_maskOf)

theorem sPair_of_sOk {g : Group} {o : Opnd} {n : Nat} (h : sOk g o n = true) : sPair g o = sGet g (opIdx o + 1) ++ sGet g (opIdx o) := by
  cases o with
  | s k => rfl
  | v k | sp k | im k => cases h

/-- The second half of a block of eight uniform registers. -/
theorem sRegs_opPlus {g : Group} {o : Opnd} (h : sOk g o 8 = true) :
    sRegs g (opPlus o 4) 4 = (List.range 4).map (fun j => sGet g (opIdx o + (4 + j))) := by
  cases o with
  | s k =>
    simp only [sOk, isS, regOk, Bool.true_and, Bool.and_eq_true, decide_eq_true_eq] at h
    have idx : opIdx (opPlus (.s k) 4) = opIdx (.s k) + 4 := by
      simp only [opPlus, opIdx, BitVec.toNat_add, BitVec.toNat_ofNat]
      omega
    simp only [sRegs, idx, Nat.add_assoc]
  | v n | sp n | im n => cases h

theorem imm_high (i : BitVec 16) : (i.extractLsb' 8 8).toNat = i.toNat / 256 := by
  have := i.isLt
  rw [BitVec.extractLsb'_toNat, Nat.shiftRight_eq_div_pow]
  omega

theorem imm_low (i : BitVec 16) : (i.extractLsb' 0 8).toNat = i.toNat % 256 := by
  rw [BitVec.extractLsb'_toNat, Nat.shiftRight_zero]

theorem idOk_eq_true {x : Fields} (id : x.e ≠ 0) (short : isLong x = false) : idOk x = true := by
  rw [idOk, short, bne_iff_ne.mpr id]
  rfl

/-- The executing strands lie within the group. -/
theorem lt_widthOf_of_mem_execList {g : Group} {x : Fields} {i : Nat} (h : i ∈ execList g x) : i < widthOf g :=
  (mem_bitsOf.mp (mem_execList.mp h).1).1

theorem maskOf_execList_lt (g : Group) (x : Fields) : (maskOf (execList g x)).toNat < 2 ^ widthOf g := by
  apply Nat.lt_pow_two_of_testBit
  intro i wide
  rw [BitVec.testBit_toNat, getLsbD_maskOf fun _ => lt_of_mem_execList]
  exact decide_eq_false fun h => absurd (lt_widthOf_of_mem_execList h) (Nat.not_lt.mpr wide)

theorem badReg_of_clean {g : Group} (clean : g.vPoison = []) (i : Nat) (o : Opnd) (n : Nat) : badReg g i (o, n) = false := by
  cases o <;> simp [badReg, clean]

end Sys2Proof.Encoding

/-! ### The issue of commands (R111, R245, R273 to R276), and O31 -/

namespace Sys2Proof.Encoding

open Sys2Proof Sys2Proof.Machine Sys2Proof.Safety Sys2Proof.Laws
open Sys2Proof.Groups (need_ok need_bad getLsbD_maskOf)

/-- An instruction that leaves its group offering a new command has offered what it holds. -/
theorem offers_newCommand {o : Instr} {x : Fields} {k : CmdKind} {y : Bool} {s : State}
    (h : exec o s = .next (setG { s.g with status := .accepting { newCommand s.g x k with yields := y } } s)) : offers o x k y s :=
  ⟨_, h, rfl, rfl, imm_high _, imm_low _, rfl, rfl, rfl, rfl, rfl, rfl, rfl, rfl⟩

/-- An instruction that sends its command to `Charon` keeps its group suspended with the command (R25, R287). -/
def emulates (o : Instr) (k : CmdKind) (s : State) : Prop :=
  ∃ c, c.kind = k ∧ c.emulated = true ∧ exec o s = .next (setG { s.g with status := .waitEmulation c } s)

section
variable {o : Instr} {x : Fields} {s : State}

theorem offers_of_offer {k : CmdKind} (h : exec o s = offer (newCommand s.g x k) false s) : offers o x k false s :=
  offers_newCommand h

theorem emulates_of_offer {k : CmdKind} (h : exec o s = offer (newCommand s.g x k) true s) : emulates o k s :=
  ⟨_, rfl, rfl, h⟩

/-- A copy-family instruction with good operands: its command where its guards hold, the next slot where they do not (R245). -/
theorem issueCommand_issues {ok : Bool} {k : Group → CmdKind} {kind : CmdKind} {y : Bool} (run : exec o s = issueCommand x ok k y s)
    (id : idOk x = true) (good : ok = true) (holding : k s.g = kind) :
    (holdsQ s.g x = true → offers o x kind y s) ∧
    (holdsQ s.g x = false → exec o s = finish s.g s) := by
  rw [issueCommand, id, good, Bool.and_self, need_ok rfl, holding] at run
  refine ⟨fun on => offers_newCommand ?_, fun off => ?_⟩
  · rw [run, if_pos on]
  · rw [run, if_neg (by rw [off]; decide)]

/-- The same for a matrix instruction on a core with an engine: its command goes to the sequencer or to `Charon` (R245, R287). -/
theorem issueMatrix_issues {ok fmtOk toCharon : Bool} {k kind : CmdKind} (run : exec o s = issueMatrix x ok fmtOk k toCharon s)
    (engine : hasEngine s = true) (id : idOk x = true) (good : ok = true) (fmt : fmtOk = true) (holding : k = kind) :
    (holdsQ s.g x = true → toCharon = false → offers o x kind false s) ∧
    (holdsQ s.g x = true → toCharon = true → emulates o kind s) ∧
    (holdsQ s.g x = false → exec o s = finish s.g s) := by
  subst holding
  rw [issueMatrix, need_ok engine, id, good, Bool.and_self, need_ok rfl, need_ok fmt] at run
  refine ⟨fun on hard => offers_of_offer ?_, fun on soft => emulates_of_offer (x := x) ?_, fun off => ?_⟩
  · rw [run, if_pos on, hard]
  · rw [run, if_pos on, soft]
  · rw [run, if_neg (by rw [off]; decide)]

end

/-! #### `MMA` -/

section
variable {x : Fields} {s : State}

theorem sOk_of_mmaOk (ok : mmaOk s x = true) : sOk s.g x.b (if s.g.jord == 1 then 8 else 4) = true := by
  simp only [mmaOk, Bool.and_eq_true] at ok
  obtain ⟨⟨⟨⟨-, quads⟩, -⟩, -⟩, -⟩ := ok
  exact quads

/-- The command of an `MMA` by its registers: those of the second half of B with jets only (R274). -/
theorem mmaKind_eq (ok : mmaOk s x = true) : mmaKind s.g x =
    .mma (tileIdx x.d) (mmaA s.g x).1 (octetsOf s.g (maskOf (execList s.g x))) (maskOf (execList s.g x)) (sRegs s.g x.b 4)
      (if s.g.jord = 1 then (List.range 4).map (fun j => sGet s.g (opIdx x.b + (4 + j))) else [])
      (if opZero x.c then none else some (sRegs s.g x.c 4)) (mmaA s.g x).2 := by
  have quads := sOk_of_mmaOk ok
  rw [mmaKind]
  by_cases dual : s.g.jord = 1
  · rw [if_pos (beq_iff_eq.mpr dual)] at quads
    rw [if_pos dual, if_pos dual, sRegs_opPlus quads]
  · rw [if_neg dual, if_neg dual]

/-- Without `RU` no latch is kept (R263). -/
theorem mmaA_latch (h : x.ru = false) : (mmaA s.g x).2 = none := by
  simp only [mmaA, h, Bool.false_eq_true, if_false]
  split <;> rfl

theorem exec_mma_of_ok (engine : hasEngine s = true) (ok : mmaOk s x = true) (jets : s.g.jord.toNat ≤ 1) (fmt : fmtBad s.g.fmt = false)
    (pair : pairBad s.g.fmt = false) (clean : s.g.vPoison = []) :
    exec (.mma x) s = offer (newCommand s.g x (mmaKind s.g x)) (routed s [fmtFa s.g.fmt, fmtFb s.g.fmt]) s := by
  have formats : (!fmtBad s.g.fmt && !pairBad s.g.fmt) = true := by rw [fmt, pair]; rfl
  rw [exec_mma, execMma, need_ok engine, need_ok ok, need_ok (decide_eq_true jets), need_ok formats]
  simp [badReg_of_clean clean]

/-- A core without an engine has no matrix instruction (R255). -/
theorem exec_of_noEngine (without : hasEngine s = false) {o : Instr}
    (h : o = .mma x ∨ o = .mmaz x ∨ o = .drain x ∨ o = .achk x ∨ o = .aload x) : exec o s = trapped (wordTrap 0x01) s := by
  rcases h with rfl | rfl | rfl | rfl | rfl <;> exact need_bad without _ s _

end

/-! #### The statement -/

/-- Settles O31: each instruction issues its command after its checks, from the registers that its operands name. -/
theorem commandIssue : Obligations.CommandIssue := by
  refine ⟨fun x s id short => ?_, fun x s => ⟨exec_of_noEngine, fun engine => ⟨fun _ ok jets fmt pair clean => ?_, fun id short => ?_⟩⟩⟩
  · have id := idOk_eq_true id short
    refine ⟨fun ok => ?_, fun _ ok => issueCommand_issues (exec_publish x s) id ok rfl,
      fun _ ok => issueCommand_issues (exec_resv x s) id ok rfl⟩
    have regs := ok
    simp only [Bool.and_eq_true] at regs
    obtain ⟨⟨⟨d, a⟩, -⟩, -⟩ := regs
    have pd := sPair_of_sOk d
    have pa := sPair_of_sOk a
    exact ⟨fun f _ => issueCommand_issues (exec_copy f x s) id ok (by rw [pd, pa]; rfl),
      fun _ => issueCommand_issues (exec_xpose x s) id ok (by rw [pd, pa]; rfl)⟩
  · have run := exec_mma_of_ok engine ok jets fmt pair clean
    rw [mmaKind_eq ok] at run
    refine ⟨maskOf (execList s.g x), (mmaA s.g x).2, maskOf_execList_lt s.g x, fun i _ => getLsbD_maskOf (fun _ => lt_of_mem_execList) i,
      mmaA_latch, fun hard => offers_of_offer ?_, fun soft => emulates_of_offer (x := x) ?_⟩
    · rw [run, hard]
      rfl
    · rw [run, soft]
      rfl
  · have id := idOk_eq_true id short
    refine ⟨fun _ ok => issueMatrix_issues (exec_mmaz x s) engine id ok rfl rfl,
      fun _ ok => issueMatrix_issues (exec_achk x s) engine id ok rfl rfl,
      fun _ ok fmt => ?_, fun _ ok fmt pair => ?_⟩
    · have regs := ok
      simp only [Bool.and_eq_true] at regs
      obtain ⟨⟨⟨-, d⟩, -⟩, -⟩ := regs
      exact issueMatrix_issues (exec_drain x s) engine id ok (by rw [fmt]; rfl) (by rw [sPair_of_sOk d]; rfl)
    · have regs := ok
      simp only [Bool.and_eq_true] at regs
      obtain ⟨⟨⟨-, a⟩, -⟩, -⟩ := regs
      exact issueMatrix_issues (exec_aload x s) engine id ok (by rw [fmt, pair]; rfl) (by rw [sPair_of_sOk a]; rfl)

end Sys2Proof.Encoding

/-! ### Bits of patterns: shifts, rotates, logic and bit fields (R137 to R140) -/

namespace Sys2Proof.Integer

open Sys2Proof Sys2Proof.Machine Sys2Proof.Safety Sys2Proof.Laws

/-! #### Patterns as bit vectors -/

theorem testBit_ge {w a j : Nat} (ha : a < 2 ^ w) (hj : w ≤ j) : a.testBit j = false :=
  Nat.testBit_lt_two_pow (ha.trans_le (Nat.pow_le_pow_right Nat.two_pos hj))

theorem patternOf_eq_ofInt (w : Nat) (v : Int) : patternOf w v = (BitVec.ofInt w v).toNat := (BitVec.toNat_ofInt v).symm

/-- A pattern read as signed is what a bit vector of its width holds. -/
theorem patternVal_eq_toInt {w a : Nat} (pos : 0 < w) (ha : a < 2 ^ w) : patternVal true w a = (BitVec.ofNat w a).toInt := by
  have half := pow_half pos
  rw [BitVec.toInt_eq_toNat_cond, BitVec.toNat_ofNat, Nat.mod_eq_of_lt ha, patternVal]
  simp only [Bool.true_and, decide_eq_true_eq]
  split <;> split <;> omega

/-- Bit `j` of a pattern of `n` bits extended by its sign (R139). -/
theorem testBit_signExtended {w n a j : Nat} (pos : 0 < n) (ha : a < 2 ^ n) (hj : j < w) :
    (patternOf w (patternVal true n a)).testBit j = a.testBit (min j (n - 1)) := by
  have bit {k} (hk : k < n) : (BitVec.ofNat n a).getLsbD k = a.testBit k := by
    rw [BitVec.getLsbD_ofNat, decide_eq_true hk, Bool.true_and]
  rw [patternVal_eq_toInt pos ha, patternOf_eq_ofInt, ← BitVec.signExtend, BitVec.testBit_toNat, BitVec.getLsbD_signExtend,
    decide_eq_true hj, Bool.true_and, BitVec.msb_eq_getLsbD_last]
  split
  · rw [bit ‹_›, Nat.min_eq_left (by omega)]
  · rw [bit (by omega), Nat.min_eq_right (by omega)]

/-! #### Shifts and rotates -/

theorem shiftL_lt (w a c : Nat) : shiftL w a c < 2 ^ w := by
  unfold shiftL
  split
  · exact Nat.two_pow_pos w
  · exact Nat.mod_lt _ (Nat.two_pow_pos w)

theorem testBit_shiftL {w a c j : Nat} (hj : j < w) : (shiftL w a c).testBit j = (decide (c ≤ j) && a.testBit (j - c)) := by
  unfold shiftL
  split
  · rw [decide_eq_false (by omega), Nat.zero_testBit, Bool.false_and]
  · rw [Nat.testBit_mod_two_pow, decide_eq_true hj, Bool.true_and, Nat.testBit_mul_two_pow]

theorem shiftR_lt {w a : Nat} (ha : a < 2 ^ w) (c : Nat) : shiftR w a c < 2 ^ w := by
  unfold shiftR
  split
  · exact Nat.two_pow_pos w
  · exact (Nat.div_le_self a _).trans_lt ha

theorem testBit_shiftR {w a : Nat} (ha : a < 2 ^ w) (c j : Nat) : (shiftR w a c).testBit j = a.testBit (j + c) := by
  unfold shiftR
  split
  · rw [Nat.zero_testBit, testBit_ge ha (by omega)]
  · rw [Nat.testBit_div_two_pow]

/-- A count of the width or more leaves the sign alone, as the division by a power of two does. -/
theorem ariShift_eq {w a : Nat} (pos : 0 < w) (ha : a < 2 ^ w) (c : Nat) : ariShift w a c = ((BitVec.ofNat w a).sshiftRight c).toNat := by
  have value := patternVal_eq_toInt pos ha
  have lo := (BitVec.ofNat w a).le_two_mul_toInt
  have hi := (BitVec.ofNat w a).two_mul_toInt_lt
  rw [ariShift, patternOf_eq_ofInt, BitVec.sshiftRight, Int.shiftRight_eq_div_pow, value]
  split
  · have wide : 2 ^ w ≤ 2 ^ c := Nat.pow_le_pow_right Nat.two_pos ‹_›
    zify at wide
    split
    · rw [Int.ediv_eq_neg_one_of_neg_of_le ‹_› (by push_cast; omega)]
    · rw [Int.ediv_eq_zero_of_lt (by omega) (by push_cast; omega)]
  · rfl

theorem ariShift_lt (w a c : Nat) : ariShift w a c < 2 ^ w := patternOf_lt w _

theorem testBit_ariShift {w a c j : Nat} (ha : a < 2 ^ w) (hj : j < w) : (ariShift w a c).testBit j = a.testBit (min (j + c) (w - 1)) := by
  have bit {k} (hk : k < w) : (BitVec.ofNat w a).getLsbD k = a.testBit k := by
    rw [BitVec.getLsbD_ofNat, decide_eq_true hk, Bool.true_and]
  rw [ariShift_eq (by omega) ha, BitVec.testBit_toNat, BitVec.getLsbD_sshiftRight, decide_eq_false (by omega), Bool.not_false,
    Bool.true_and, BitVec.msb_eq_getLsbD_last, Nat.add_comm]
  split
  · rw [bit ‹_›, Nat.min_eq_left (by omega)]
  · rw [bit (by omega), Nat.min_eq_right (by omega)]

theorem rotL_lt (w a c : Nat) : rotL w a c < 2 ^ w := Nat.mod_lt _ (Nat.two_pow_pos w)

theorem rotR_lt (w a c : Nat) : rotR w a c < 2 ^ w := Nat.mod_lt _ (Nat.two_pow_pos w)

/-- The bits that leave a pattern split at `m` fill the places below those that stay. -/
theorem testBit_rejoin {w a m j : Nat} (ha : a < 2 ^ w) (hm : m ≤ w) (hj : j < w) :
    ((a * 2 ^ m + a / 2 ^ (w - m)) % 2 ^ w).testBit j = if j < m then a.testBit (j + (w - m)) else a.testBit (j - m) := by
  have low : a / 2 ^ (w - m) < 2 ^ m := by
    rwa [Nat.div_lt_iff_lt_mul (Nat.two_pow_pos _), ← pow_add, Nat.add_sub_cancel' hm]
  rw [Nat.testBit_mod_two_pow, decide_eq_true hj, Bool.true_and, Nat.mul_comm, Nat.testBit_two_pow_mul_add a low, Nat.testBit_div_two_pow]

theorem testBit_rotL {w a c j : Nat} (ha : a < 2 ^ w) (hj : j < w) : (rotL w a c).testBit j = a.testBit ((j + w - c % w) % w) := by
  have hm : c % w < w := Nat.mod_lt _ (by omega)
  rw [rotL]
  generalize c % w = m at hm ⊢
  rw [testBit_rejoin ha hm.le hj]
  split
  · rw [Nat.mod_eq_of_lt (by omega), Nat.add_sub_assoc hm.le]
  · rw [show j + w - m = j - m + w by omega, Nat.add_mod_right, Nat.mod_eq_of_lt (by omega)]

theorem testBit_rotR {w a c j : Nat} (ha : a < 2 ^ w) (hj : j < w) : (rotR w a c).testBit j = a.testBit ((j + c) % w) := by
  have hm : c % w < w := Nat.mod_lt _ (by omega)
  rw [rotR, Nat.add_mod j c, Nat.mod_eq_of_lt hj]
  generalize c % w = m at hm ⊢
  have rejoined := testBit_rejoin (m := w - m) ha (Nat.sub_le _ _) hj
  rw [Nat.sub_sub_self hm.le] at rejoined
  rw [Nat.add_comm (a / 2 ^ m), rejoined]
  split
  · rw [Nat.mod_eq_of_lt (by omega)]
  · rw [show j + m = j - (w - m) + w by omega, Nat.add_mod_right, Nat.mod_eq_of_lt (by omega)]

/-! #### Logic -/

/-- Logic on two patterns, bit by bit (R138). -/
def lopBit : LopForm → Bool → Bool → Bool
  | .and, a, b => a && b
  | .or, a, b => a || b
  | .xor, a, b => a != b
  | .andn, a, b => a && !b
  | .orn, a, b => a || !b
  | .xnor, a, b => a == b
  | .not, a, _ => !a
  | .tri, _, _ => false

theorem ones_lt (w : Nat) : 2 ^ w - 1 < 2 ^ w := Nat.sub_lt (Nat.two_pow_pos w) Nat.one_pos

theorem testBit_complement {w j : Nat} (a : Nat) (hj : j < w) : ((2 ^ w - 1) ^^^ a).testBit j = !a.testBit j := by
  rw [Nat.testBit_xor, Nat.testBit_two_pow_sub_one, decide_eq_true hj, Bool.true_xor]

theorem lopBits_lt (f : LopForm) {w a b : Nat} (ha : a < 2 ^ w) (hb : b < 2 ^ w) : lopBits f w a b < 2 ^ w := by
  cases f with
  | and => exact Nat.and_lt_two_pow a hb
  | or => exact Nat.or_lt_two_pow ha hb
  | xor => exact Nat.xor_lt_two_pow ha hb
  | andn => exact Nat.and_lt_two_pow a (Nat.xor_lt_two_pow (ones_lt w) hb)
  | orn => exact Nat.or_lt_two_pow ha (Nat.xor_lt_two_pow (ones_lt w) hb)
  | xnor => exact Nat.xor_lt_two_pow (ones_lt w) (Nat.xor_lt_two_pow ha hb)
  | not => exact Nat.xor_lt_two_pow (ones_lt w) ha
  | tri => exact Nat.two_pow_pos w

theorem testBit_lopBits (f : LopForm) {w j : Nat} (a b : Nat) (hj : j < w) :
    (lopBits f w a b).testBit j = lopBit f (a.testBit j) (b.testBit j) := by
  cases f with
  | and => exact Nat.testBit_and a b j
  | or => exact Nat.testBit_or a b j
  | xor => exact Nat.testBit_xor a b j
  | andn => rw [lopBits, Nat.testBit_and, testBit_complement b hj]; rfl
  | orn => rw [lopBits, Nat.testBit_or, testBit_complement b hj]; rfl
  | xnor => rw [lopBits, testBit_complement _ hj, Nat.testBit_xor]; cases a.testBit j <;> cases b.testBit j <;> rfl
  | not => exact testBit_complement a hj
  | tri => exact Nat.zero_testBit j

/-! #### Patterns put together bit by bit -/

/-- The number with the bits of a list, lowest first. -/
theorem testBit_joinElems {l : List Bool} {j : Nat} : (joinElems 1 (l.map (fun b => if b then 1 else 0))).testBit j = nth false l j := by
  have bit := joinElems_get 1 (l.map (fun b => if b then 1 else 0)) j
  rw [NumberFormats.nth_map false 0 _ rfl, Nat.one_mul, pow_one] at bit
  rw [Nat.testBit_eq_decide_div_mod_eq, bit]
  cases nth false l j <;> rfl

theorem joinElems_bits_lt (l : List Bool) : joinElems 1 (l.map (fun b => if b then 1 else 0)) < 2 ^ l.length := by
  have lt := joinElems_lt 1 (l.map (fun b => if b then 1 else 0))
  rwa [List.length_map, Nat.one_mul] at lt

/-- The function of `LOP.tri` at the bits of C, B and A (R138). -/
def triBit (fn : BitVec 8) (a b c : Bool) : Bool := fn.getLsbD ((if c then 4 else 0) + (if b then 2 else 0) + (if a then 1 else 0))

theorem triBits_eq (w : Nat) (fn : BitVec 8) (a b c : Nat) : triBits w fn a b c =
    joinElems 1 (((List.range w).map (fun i => triBit fn (a.testBit i) (b.testBit i) (c.testBit i))).map (fun b => if b then 1 else 0)) := by
  rw [triBits, List.map_map]
  rfl

theorem triBits_lt (w : Nat) (fn : BitVec 8) (a b c : Nat) : triBits w fn a b c < 2 ^ w := by
  have lt := joinElems_bits_lt ((List.range w).map (fun i => triBit fn (a.testBit i) (b.testBit i) (c.testBit i)))
  rwa [List.length_map, List.length_range, ← triBits_eq] at lt

theorem testBit_triBits {w j : Nat} (fn : BitVec 8) (a b c : Nat) (hj : j < w) :
    (triBits w fn a b c).testBit j = fn.getLsbD ((c.testBit j).toNat * 4 + (b.testBit j).toNat * 2 + (a.testBit j).toNat) := by
  rw [triBits_eq, testBit_joinElems, NumberFormats.nth_map_range false _ hj, triBit]
  cases c.testBit j <;> cases b.testBit j <;> cases a.testBit j <;> rfl

/-! #### Bit fields -/

theorem extractField_zx_lt {w a : Nat} (ha : a < 2 ^ w) (ctl : Nat) : extractField .zx w a ctl < 2 ^ w :=
  (Nat.mod_le _ _).trans_lt (shiftR_lt ha _)

theorem testBit_extractField_zx {w a : Nat} (ha : a < 2 ^ w) (ctl j : Nat) : (extractField .zx w a ctl).testBit j =
    (decide (j < min (ctl / 256 % 256) w) && a.testBit (min (ctl % 256) w + j)) := by
  rw [extractField, Nat.testBit_mod_two_pow, testBit_shiftR ha, Nat.add_comm]

theorem extractField_sx_lt (w a ctl : Nat) : extractField .sx w a ctl < 2 ^ w := by
  rw [extractField]
  split
  · exact Nat.two_pow_pos w
  · exact patternOf_lt w _

theorem testBit_extractField_sx {w a ctl j : Nat} (ha : a < 2 ^ w) (hj : j < w) : (extractField .sx w a ctl).testBit j =
    (decide (0 < min (ctl / 256 % 256) w) && a.testBit (min (min (ctl % 256) w + min j (min (ctl / 256 % 256) w - 1)) (w - 1))) := by
  have le : min (ctl / 256 % 256) w ≤ w := Nat.min_le_right _ _
  rw [extractField]
  generalize min (ctl / 256 % 256) w = n at le ⊢
  generalize min (ctl % 256) w = p
  split
  · rw [decide_eq_false (by omega), Nat.zero_testBit, Bool.false_and]
  · have below : min j (n - 1) < n := by omega
    rw [decide_eq_true (by omega), Bool.true_and, testBit_signExtended (by omega) (Nat.mod_lt _ (Nat.two_pow_pos n)) hj,
      Nat.testBit_mod_two_pow, decide_eq_true below, Bool.true_and, testBit_ariShift ha (by omega), Nat.add_comm]

/-- The mask of a field: `n` ones from position `p` on. -/
theorem testBit_fieldMask (n p j : Nat) : ((2 ^ n - 1) * 2 ^ p).testBit j = decide (p ≤ j ∧ j < p + n) := by
  rw [Nat.testBit_mul_two_pow, Nat.testBit_two_pow_sub_one, ← Bool.decide_and]
  exact decide_eq_decide.mpr (by omega)

theorem fieldMask_lt {w n p : Nat} (hp : p ≤ w) (hn : n ≤ w - p) : (2 ^ n - 1) * 2 ^ p < 2 ^ w := by
  refine Nat.lt_pow_two_of_testBit _ fun j hj => ?_
  rw [testBit_fieldMask]
  exact decide_eq_false (by omega)

theorem insertField_lt (w a : Nat) {b : Nat} (hb : b < 2 ^ w) (ctl : Nat) : insertField w a b ctl < 2 ^ w :=
  Nat.or_lt_two_pow ((Nat.and_le_left).trans_lt hb) (Nat.and_lt_two_pow _ (fieldMask_lt (Nat.min_le_right _ _) (Nat.min_le_right _ _)))

theorem testBit_insertField {w j : Nat} (a b ctl : Nat) (hj : j < w) :
    let p := min (ctl % 256) w
    (insertField w a b ctl).testBit j = if p ≤ j ∧ j < p + min (ctl / 256 % 256) (w - p) then a.testBit (j - p) else b.testBit j := by
  intro p
  rw [insertField, Nat.testBit_or, Nat.testBit_and, Nat.testBit_and, testBit_complement _ hj, testBit_fieldMask, Nat.testBit_mul_two_pow]
  split
  · rw [decide_eq_true ‹_ ∧ _›, decide_eq_true (And.left ‹_ ∧ _›), Bool.not_true, Bool.and_false, Bool.false_or, Bool.and_true, Bool.true_and]
  · rw [decide_eq_false ‹_›, Bool.not_false, Bool.and_true, Bool.and_false, Bool.or_false]

/-! #### Bit counts -/

/-- The end of a stretch of zeros at the start of a list: it holds zeros alone, and a one follows it or nothing. -/
theorem leadingZeros {l : List Bool} : (∀ j, j < (l.takeWhile (fun b => !b)).length → nth false l j = false) ∧
    ((l.takeWhile (fun b => !b)).length < l.length → nth false l (l.takeWhile (fun b => !b)).length = true) := by
  induction l with
  | nil => simp
  | cons b l ih =>
    cases b with
    | true => simp [nth]
    | false =>
      rw [List.takeWhile_cons_of_pos rfl, List.length_cons, List.length_cons]
      refine ⟨fun j hj => ?_, fun h => ih.2 (by omega)⟩
      cases j with
      | zero => rfl
      | succ j => exact ih.1 j (by omega)

@[simp] theorem length_bitList (w a : Nat) : (bitList w a).length = w := by rw [bitList, List.length_map, List.length_range]

theorem nth_bitList {w j : Nat} (a : Nat) (hj : j < w) : nth false (bitList w a) j = a.testBit j := NumberFormats.nth_map_range false _ hj

theorem nth_reverse_bitList {w j : Nat} (a : Nat) (hj : j < w) : nth false (bitList w a).reverse j = a.testBit (w - 1 - j) := by
  rw [nth, List.getElem?_reverse (by rwa [length_bitList]), length_bitList]
  exact nth_bitList a (by omega)

theorem findFirst_le (w a : Nat) : findFirst w a ≤ w := by
  have le := (List.takeWhile_prefix (l := bitList w a) (fun b => !b)).length_le
  rwa [length_bitList] at le

theorem countLeading_le (w a : Nat) : countLeading w a ≤ w := by
  have le := (List.takeWhile_prefix (l := (bitList w a).reverse) (fun b => !b)).length_le
  rwa [List.length_reverse, length_bitList] at le

/-- The lowest one of a pattern (R142). -/
theorem findFirst_spec (w a : Nat) : (∀ j, j < findFirst w a → a.testBit j = false) ∧ (findFirst w a < w → a.testBit (findFirst w a) = true) := by
  have le := findFirst_le w a
  obtain ⟨zeros, one⟩ := leadingZeros (l := bitList w a)
  rw [length_bitList] at one
  refine ⟨fun j hj => ?_, fun h => ?_⟩
  · exact (nth_bitList a (by omega)).symm.trans (zeros j hj)
  · exact (nth_bitList a h).symm.trans (one h)

/-- The highest one of a pattern (R142). -/
theorem countLeading_spec (w a : Nat) : (∀ j, j < countLeading w a → a.testBit (w - 1 - j) = false) ∧
    (countLeading w a < w → a.testBit (w - 1 - countLeading w a) = true) := by
  have le := countLeading_le w a
  obtain ⟨zeros, one⟩ := leadingZeros (l := (bitList w a).reverse)
  rw [List.length_reverse, length_bitList] at one
  refine ⟨fun j hj => ?_, fun h => ?_⟩
  · exact (nth_reverse_bitList a (by omega)).symm.trans (zeros j hj)
  · exact (nth_reverse_bitList a h).symm.trans (one h)

theorem countOnes_eq (w a : Nat) : countOnes w a = ((List.range w).filter (fun j => a.testBit j)).length := by
  rw [countOnes, bitList, List.filter_map, List.length_map]
  rfl

theorem countOnes_le (w a : Nat) : countOnes w a ≤ w := by
  have le := List.length_filter_le (fun b => b) (bitList w a)
  rwa [length_bitList] at le

theorem reverseBits_lt (w a : Nat) : reverseBits w a < 2 ^ w := by
  have lt := joinElems_bits_lt (bitList w a).reverse
  rwa [List.length_reverse, length_bitList] at lt

theorem testBit_reverseBits {w j : Nat} (a : Nat) (hj : j < w) : (reverseBits w a).testBit j = a.testBit (w - 1 - j) := by
  rw [reverseBits, testBit_joinElems, nth_reverse_bitList a hj]

end Sys2Proof.Integer

/-! ### Register instructions and the numbers they give (R127, R129) -/

namespace Sys2Proof.Integer

open Sys2Proof Sys2Proof.Machine Sys2Proof.Safety Sys2Proof.Laws Sys2Proof.NumberFormats Sys2Proof.Groups

/-- The instruction completes, and the `n` registers of D hold the number `num i` in every strand that receives a result. -/
def Gives (o : Instr) (x : Fields) (n : Nat) (s : State) (num : Nat → Nat) : Prop :=
  ∃ t res, exec o s = .next t ∧ RegResult x n res s t ∧ ∀ i, regsNum (res i) = num i

theorem Gives.bits {o : Instr} {x : Fields} {n : Nat} {s : State} {num : Nat → Nat} (h : Gives o x n s num) {w : Nat} {bit : Nat → Nat → Bool}
    (lt : ∀ i, num i < 2 ^ w) (bits : ∀ i j, j < w → (num i).testBit j = bit i j) :
    ∃ t res, exec o s = .next t ∧ RegResult x n res s t ∧
      ∀ i, regsNum (res i) < 2 ^ w ∧ ∀ j, j < w → (regsNum (res i)).testBit j = bit i j := by
  obtain ⟨t, res, run, result, num_eq⟩ := h
  refine ⟨t, res, run, result, fun i => ?_⟩
  rw [num_eq]
  exact ⟨lt i, bits i⟩

/-! #### Operands -/

/-- The type that a legal word carries (R103). -/
theorem type_of_wellFormed {i : Instr} {p t q : Bool} (h : WellFormed i) (fields : fieldsLegal i = (p && t && q)) : t = true := by
  have legal : fieldsLegal i = true := h
  rw [fields, Bool.and_eq_true, Bool.and_eq_true] at legal
  exact legal.1.2

theorem isV_of_isS {o : Opnd} (h : isS o = true) : isV o = false := by
  cases o with
  | s k => rfl
  | _ => cases h

theorem readTy_lt (t : Ty) (g : Group) (x : Fields) (i : Nat) (o : Opnd) : readTy t g x i o < 2 ^ (32 * regCount t) := by
  unfold readTy regCount
  split <;> exact BitVec.isLt _

theorem readTyB_lt (t : Ty) (g : Group) (x : Fields) (i : Nat) : readTyB t g x i < 2 ^ (32 * regCount t) := by
  unfold readTyB regCount
  split <;> exact BitVec.isLt _

/-- A source that passes step 5 is the strand's own. -/
theorem source_local {t : Ty} {G : Group} {x : Fields} {o : Opnd} (ok : regOk G o (regCount t) = true) {g h : Group} {i : Nat}
    (a : agree true i g h) : readTy t h x i o = readTy t g x i o := agree_readTy_of a t x (wide_fits ok)

theorem sourceB_local {t : Ty} {G : Group} {x : Fields} (ok : regOk G x.b (regCount t) = true) {g h : Group} {i : Nat}
    (a : agree true i g h) : readTyB t h x i = readTyB t g x i := agree_readTyB_of a t x (wide_fits ok)

theorem source_once {x : Fields} {o : Opnd} (src : isSrc x o = true) (hu : x.u = true) (t : Ty) (g : Group) (i : Nat) :
    readTy t g x i o = readTy t g x 0 o := readTy_uni (isSrc_uni src hu) t i 0

/-- What step 5 gives for D, A and B, the long immediate allowed. -/
theorem checks_DAB {g : Group} {x : Fields} {nd na nb : Nat} (h : (formDAB x && regsOk g [(x.d, nd), (x.a, na), (x.b, nb)]) = true) :
    isDst x x.d = true ∧ isSrc x x.a = true ∧ isSrcB x = true ∧ regOk g x.d nd = true ∧ regOk g x.a na = true ∧ regOk g x.b nb = true := by
  simp only [formDAB, Bool.and_eq_true, and_assoc] at h
  obtain ⟨d, a, b, -, regs⟩ := h
  obtain ⟨okd, regs⟩ := regsOk_cons regs
  obtain ⟨oka, regs⟩ := regsOk_cons regs
  exact ⟨d, a, b, okd, oka, (regsOk_cons regs).1⟩

/-- What step 5 gives for D, A, B and C. -/
theorem checks_DABC {g : Group} {x : Fields} {nd na nb nc : Nat}
    (h : (formDABC x && regsOk g [(x.d, nd), (x.a, na), (x.b, nb), (x.c, nc)]) = true) :
    (isDst x x.d = true ∧ isSrc x x.a = true ∧ isSrc x x.b = true ∧ isSrc x x.c = true) ∧
    regOk g x.d nd = true ∧ regOk g x.a na = true ∧ regOk g x.b nb = true ∧ regOk g x.c nc = true := by
  simp only [formDABC, Bool.and_eq_true, and_assoc] at h
  obtain ⟨d, a, b, c, -, regs⟩ := h
  obtain ⟨okd, regs⟩ := regsOk_cons regs
  obtain ⟨oka, regs⟩ := regsOk_cons regs
  obtain ⟨okb, regs⟩ := regsOk_cons regs
  exact ⟨⟨d, a, b, c⟩, okd, oka, okb, (regsOk_cons regs).1⟩

/-! #### Results -/

section
variable {o : Instr} {x : Fields} {ok : Bool} {srcs : List (Opnd × Nat)} {s : State}

theorem gives_of_runMap {n : Nat} {val : Group → Nat → List Word} {num : Nat → Nat} (run : exec o s = runMap x ok srcs val s)
    (pass : ok = true) (dst : isDst x x.d = true) (size : n = 1 ∨ n = 2 ∨ n = 4) (fits : regOk s.g x.d n = true)
    (len : ∀ g i, (val g i).length = n) (own : ∀ g h i, agree true i g h → val h i = val g i)
    (once : x.u = true → ∀ i, val s.g i = val s.g 0) (read : readable s.g x srcs) (value : ∀ i, regsNum (val s.g i) = num i) :
    Gives o x n s num := by
  obtain ⟨t, next, result⟩ := runMap_result pass dst (regOk_lt size (isDst_vs dst) fits) len (fun _ => own) once read
  exact ⟨t, val s.g, run.trans next, result, value⟩

/-- A result of a type, as a pattern. -/
theorem gives_pattern {t : Ty} {f : Group → Nat → Nat} (run : exec o s = runMap x ok srcs (fun g i => wordsTy t (f g i)) s)
    (pass : ok = true) (dst : isDst x x.d = true) (fits : regOk s.g x.d (regCount t) = true)
    (own : ∀ g h i, agree true i g h → f h i = f g i) (once : x.u = true → ∀ i, f s.g i = f s.g 0) (read : readable s.g x srcs)
    (lt : ∀ i, f s.g i < 2 ^ (32 * regCount t)) : Gives o x (regCount t) s (f s.g) :=
  gives_of_runMap run pass dst (regCount_cases t) fits (fun _ _ => length_wordsTy t _) (fun g h i a => congrArg (wordsTy t) (own g h i a))
    (fun hu i => congrArg (wordsTy t) (once hu i)) read (fun i => regsNum_wordsTy t (lt i))

/-- A result of 64 bits. -/
theorem gives_dword {f : Group → Nat → DWord} (run : exec o s = runMap x ok srcs (fun g i => words64 (f g i)) s)
    (pass : ok = true) (dst : isDst x x.d = true) (fits : regOk s.g x.d 2 = true)
    (own : ∀ g h i, agree true i g h → f h i = f g i) (once : x.u = true → ∀ i, f s.g i = f s.g 0) (read : readable s.g x srcs) :
    Gives o x 2 s (fun i => (f s.g i).toNat) :=
  gives_of_runMap run pass dst (.inr (.inl rfl)) fits (fun _ _ => rfl) (fun g h i a => congrArg words64 (own g h i a))
    (fun hu i => congrArg words64 (once hu i)) read (fun _ => regsNum_words64 _)

end

end Sys2Proof.Integer

/-! ### Integer arithmetic (R132 to R136), and O1 -/

namespace Sys2Proof.Integer

open Sys2Proof Sys2Proof.Machine Sys2Proof.Safety Sys2Proof.Laws Sys2Proof.NumberFormats Sys2Proof.Groups

/-! #### Values of a type (R131) -/

/-- The element that holds a value modulo 2^W(TY). -/
def stored (ty : Ty) (v : Int) : Int := patternVal (isSigned ty) (elemWidth ty) (patternOf (elemWidth ty) v)

/-- A value of the type. -/
def InRange (ty : Ty) (v : Int) : Prop := tyMin ty ≤ v ∧ v ≤ tyMax ty

theorem wraps_stored (ty : Ty) (v : Int) : wraps ty v (stored ty v) := wraps_pattern ty v

theorem stored_of_inRange {ty : Ty} {v : Int} (h : InRange ty v) : stored ty v = v := pattern_of_range h.1 h.2

theorem inRange_elemVal (ty : Ty) (n e : Nat) : InRange ty (elemVal ty n e) := patternVal_range ty (Nat.mod_lt _ (Nat.two_pow_pos _))

theorem tyMin_le_tyMax (ty : Ty) : tyMin ty ≤ tyMax ty := by
  have h := inRange_elemVal ty 0 0
  exact h.1.trans h.2

/-- Wrapping and saturating results (R132). -/
theorem addResult_spec (f : AddForm) (ty : Ty) (v : Int) : (f = .wrap → wraps ty v (stored ty (addResult f ty v))) ∧
    (f = .sat → stored ty (addResult f ty v) = max (tyMin ty) (min (tyMax ty) v)) := by
  cases f with
  | wrap => exact ⟨fun _ => wraps_stored ty v, nofun⟩
  | sat =>
    refine ⟨nofun, fun _ => ?_⟩
    have le := tyMin_le_tyMax ty
    have clamp : addResult .sat ty v = max (tyMin ty) (min (tyMax ty) v) := by
      rw [addResult, clampInt]
      split <;> [skip; split] <;> omega
    rw [clamp]
    exact stored_of_inRange ⟨le_max_left _ _, max_le le (min_le_left _ _)⟩

theorem inRange_unsigned {ty : Ty} (h : isSigned ty = false) (v : Int) : InRange ty v ↔ 0 ≤ v ∧ v ≤ (2 ^ elemWidth ty : Nat) - 1 := by
  rw [InRange, tyMin, tyMax, h]
  rfl

theorem inRange_signed {ty : Ty} (h : isSigned ty = true) (v : Int) :
    InRange ty v ↔ -((2 ^ (elemWidth ty - 1) : Nat) : Int) ≤ v ∧ v ≤ (2 ^ (elemWidth ty - 1) : Nat) - 1 := by
  rw [InRange, tyMin, tyMax, h]
  rfl

theorem inRange_zero (ty : Ty) : InRange ty 0 := by
  have pos (n : Nat) : (0 : Int) < (2 ^ n : Nat) := Int.natCast_pos.mpr (Nat.two_pow_pos n)
  cases h : isSigned ty with
  | false =>
    have := pos (elemWidth ty)
    exact (inRange_unsigned h 0).mpr (by omega)
  | true =>
    have := pos (elemWidth ty - 1)
    exact (inRange_signed h 0).mpr (by omega)

/-- The high half of a product, with an addend, is a value of the type (R133, R134). -/
theorem inRange_highHalf {ty : Ty} {a b c : Int} (ha : InRange ty a) (hb : InRange ty b) (hc : InRange ty c) :
    InRange ty ((a * b + c) / (2 ^ elemWidth ty : Nat)) := by
  have pos : (0 : Int) < (2 ^ elemWidth ty : Nat) := Int.natCast_pos.mpr (Nat.two_pow_pos _)
  have half : ((2 ^ elemWidth ty : Nat) : Int) = 2 * (2 ^ (elemWidth ty - 1) : Nat) := by
    rw [← pow_half (elemWidth_pos ty), Int.natCast_mul]
    rfl
  cases sign : isSigned ty with
  | false =>
    rw [inRange_unsigned sign] at *
    generalize ((2 ^ elemWidth ty : Nat) : Int) = m at *
    have nonneg : 0 ≤ a * b := mul_nonneg ha.1 hb.1
    have le : a * b ≤ (m - 1) * (m - 1) := mul_le_mul ha.2 hb.2 hb.1 (by omega)
    exact ⟨Int.ediv_nonneg (by omega) pos.le, Int.le_sub_one_of_lt (Int.ediv_lt_of_lt_mul pos (by nlinarith))⟩
  | true =>
    rw [inRange_signed sign] at *
    rw [half] at pos ⊢
    generalize ((2 ^ (elemWidth ty - 1) : Nat) : Int) = h at *
    have product : |a * b| ≤ h * h := by
      rw [abs_mul]
      exact mul_le_mul (abs_le.mpr (by omega)) (abs_le.mpr (by omega)) (abs_nonneg b) (by omega)
    obtain ⟨lo, hi⟩ := abs_le.mp product
    exact ⟨(Int.le_ediv_iff_mul_le pos).mpr (by nlinarith), Int.le_sub_one_of_lt (Int.ediv_lt_of_lt_mul pos (by nlinarith))⟩

theorem floor_of_eq {r v m : Int} (pos : 0 < m) (h : r = v / m) : r * m ≤ v ∧ v < (r + 1) * m := by
  rw [h]
  exact ⟨Int.ediv_mul_le v pos.ne', Int.lt_ediv_add_one_mul_self v pos⟩

/-! #### Element by element -/

section
variable {o : Instr} {ty : Ty} {x : Fields} {s : State}

theorem runElems_spec {f : Int → Int → Int} {P : Int → Int → Int → Prop} (run : exec o s = runElems ty x f s) (ok : okDAB ty s.g x = true)
    (read : readable s.g x (srcAB ty x)) (spec : ∀ a b, InRange ty a → InRange ty b → P a b (stored ty (f a b))) :
    ∃ t res, exec o s = .next t ∧ RegResult x (regCount ty) res s t ∧ ∀ i e, e < elemCount ty →
      P (elemVal ty (readTy ty s.g x i x.a) e) (elemVal ty (readTyB ty s.g x i) e) (elemVal ty (regsNum (res i)) e) := by
  obtain ⟨t, res, next, result, elems⟩ := runElems_result f ok read
  refine ⟨t, res, run.trans next, result, fun i e he => ?_⟩
  rw [elems i e he]
  exact spec _ _ (inRange_elemVal ..) (inRange_elemVal ..)

theorem runElem_spec {f : Int → Int} {P : Int → Int → Prop} (run : exec o s = runElem ty x f s) (ok : okDA ty s.g x = true)
    (read : readable s.g x [(x.a, regCount ty)]) (spec : ∀ a, P a (stored ty (f a))) :
    ∃ t res, exec o s = .next t ∧ RegResult x (regCount ty) res s t ∧ ∀ i e, e < elemCount ty →
      P (elemVal ty (readTy ty s.g x i x.a) e) (elemVal ty (regsNum (res i)) e) := by
  obtain ⟨t, res, next, result, elems⟩ := runElem_result f ok read
  refine ⟨t, res, run.trans next, result, fun i e he => ?_⟩
  rw [elems i e he]
  exact spec _

end

/-- Settles O1: each element holds the value that the form computes, and a value of the type is held as it is. -/
theorem integerArithmetic : Obligations.IntegerArithmetic := by
  intro ty x s
  have pos : (0 : Int) < (2 ^ elemWidth ty : Nat) := Int.natCast_pos.mpr (Nat.two_pow_pos _)
  refine ⟨fun ok read => ⟨fun f _ => ?_, fun f _ => ?_, fun _ => ?_, fun _ => ?_, fun _ => ?_, fun _ => ?_⟩, fun ok read => ⟨fun _ => ?_, fun _ => ?_⟩⟩
  · exact runElems_spec (f := fun a b => addResult f ty (a + b)) (P := fun a b r => (f = .wrap → wraps ty (a + b) r) ∧
      (f = .sat → r = max (tyMin ty) (min (tyMax ty) (a + b)))) rfl ok read (fun a b _ _ => addResult_spec f ty (a + b))
  · exact runElems_spec (f := fun a b => addResult f ty (a - b)) (P := fun a b r => (f = .wrap → wraps ty (a - b) r) ∧
      (f = .sat → r = max (tyMin ty) (min (tyMax ty) (a - b)))) rfl ok read (fun a b _ _ => addResult_spec f ty (a - b))
  · exact runElems_spec (f := fun a b => a * b) (P := fun a b r => wraps ty (a * b) r) rfl ok read (fun a b _ _ => wraps_stored ty (a * b))
  · refine runElems_spec (f := fun a b => a * b / (2 ^ elemWidth ty : Nat))
      (P := fun a b r => r * (2 ^ elemWidth ty : Nat) ≤ a * b ∧ a * b < (r + 1) * (2 ^ elemWidth ty : Nat)) rfl ok read (fun a b ha hb => ?_)
    have high := inRange_highHalf ha hb (inRange_zero ty)
    rw [add_zero] at high
    exact floor_of_eq pos (stored_of_inRange high)
  · refine runElems_spec (f := fun a b => if a ≤ b then a else b) (P := fun a b r => r = min a b) rfl ok read (fun a b ha hb => ?_)
    rw [← min_def]
    exact stored_of_inRange (min_rec' (InRange ty) ha hb)
  · refine runElems_spec (f := fun a b => if b ≤ a then a else b) (P := fun a b r => r = max a b) rfl ok read (fun a b ha hb => ?_)
    rw [← max_def']
    exact stored_of_inRange (max_rec' (InRange ty) ha hb)
  · exact runElem_spec (f := fun a => -a) (P := fun a r => wraps ty (-a) r) rfl ok read (fun a => wraps_stored ty (-a))
  · refine runElem_spec (f := fun a => if a < 0 then -a else a) (P := fun a r => wraps ty (a.natAbs : Int) r) rfl ok read (fun a => ?_)
    have abs : (if a < 0 then -a else a) = (a.natAbs : Int) := by omega
    rw [abs]
    exact wraps_stored ty a.natAbs

end Sys2Proof.Integer

/-! ### Products of 64 bits, multiply-add and `LEA` (R133, R134, R141), and O2 -/

namespace Sys2Proof.Integer

open Sys2Proof Sys2Proof.Machine Sys2Proof.Safety Sys2Proof.Laws Sys2Proof.NumberFormats Sys2Proof.Groups

theorem isMod64_ofInt (v : Int) : isMod64 (BitVec.ofInt 64 v).toNat v := by
  refine ⟨BitVec.isLt _, ?_⟩
  rw [← patternOf_eq_ofInt, patternOf_cast]
  omega

theorem isMod64_add (a : DWord) (v : Int) : isMod64 (a + BitVec.ofInt 64 v).toNat (a.toNat + v) := by
  have sum : a + BitVec.ofInt 64 v = BitVec.ofInt 64 (a.toNat + v) := by
    rw [BitVec.ofInt_add, BitVec.ofInt_natCast, BitVec.ofNat_toNat, BitVec.setWidth_eq]
  rw [sum]
  exact isMod64_ofInt _

/-- The types of `IMUL` long and `IMAD` long are those of 32 bits. -/
theorem regCount_of_tyMul_long {ty : Ty} (type : tyMul .long ty = true) : regCount ty = 1 := by
  cases ty with
  | i32 => rfl
  | n32 => rfl
  | _ => cases type

/-- The elements of a type fit into its registers. -/
theorem elemWidth_le (ty : Ty) : elemWidth ty ≤ 32 * regCount ty := by
  cases ty <;> decide

theorem patternOf_fits (ty : Ty) (v : Int) : patternOf (elemWidth ty) v < 2 ^ (32 * regCount ty) :=
  (patternOf_lt _ _).trans_le (Nat.pow_le_pow_right Nat.two_pos (elemWidth_le ty))

/-- Element 0 of a pattern of one element. -/
theorem elemVal_patternOf_zero (ty : Ty) (v : Int) : elemVal ty (patternOf (elemWidth ty) v) 0 = stored ty v := by
  rw [elemVal, elemAt, Nat.mul_zero, pow_zero, Nat.div_one, Nat.mod_eq_of_lt (patternOf_lt _ _), stored]

section
variable {ty : Ty} {x : Fields} {s : State}

theorem imul_long (type : tyMul .long ty = true) (ok : (formDAB x && regsOk s.g [(x.d, 2), (x.a, 1), (x.b, 1)]) = true)
    (read : readable s.g x [(x.a, 1), (x.b, 1)]) :
    Gives (.imul .long ty x) x 2 s (fun i =>
      (BitVec.ofInt 64 (elemVal ty (readTy ty s.g x i x.a) 0 * elemVal ty (readTyB ty s.g x i) 0)).toNat) := by
  obtain ⟨dst, a, b, okd, oka, okb⟩ := checks_DAB ok
  rw [← regCount_of_tyMul_long type] at oka okb read
  refine gives_dword (srcs := srcAB ty x)
    (f := fun g i => BitVec.ofInt 64 (elemVal ty (readTy ty g x i x.a) 0 * elemVal ty (readTyB ty g x i) 0)) rfl ok dst okd
    (fun g h i agree => ?_) (fun hu i => ?_) read
  · rw [source_local oka agree, sourceB_local okb agree]
  · rw [source_once a hu, readTyB_uni b hu ty i 0]

/-- The registers of D and C of a multiply-add (R134). -/
def madRegs (f : MulForm) (ty : Ty) : Nat := if f = .long then 2 else regCount ty

/-- The product and the addend of a multiply-add as an integer (R134). -/
def madSum (f : MulForm) (ty : Ty) (x : Fields) (g : Group) (i : Nat) : Int :=
  elemVal ty (readTy ty g x i x.a) 0 * elemVal ty (readTy ty g x i x.b) 0 +
    if f = .long then madAddend ty g x i else elemVal ty (readTy ty g x i x.c) 0

/-- The words of D of a multiply-add (R134). -/
def madWords (f : MulForm) (ty : Ty) (v : Int) : List Word :=
  match f with
  | .lo => wordsTy ty (patternOf (elemWidth ty) v)
  | .hi => wordsTy ty (patternOf (elemWidth ty) (v / (2 ^ elemWidth ty : Nat)))
  | .long => words64 (BitVec.ofInt 64 v)

theorem length_madWords (f : MulForm) (ty : Ty) (v : Int) : (madWords f ty v).length = madRegs f ty := by
  cases f with
  | lo => exact length_wordsTy ty _
  | hi => exact length_wordsTy ty _
  | long => rfl

theorem elemVal_madWords_lo (ty : Ty) (v : Int) : elemVal ty (regsNum (madWords .lo ty v)) 0 = stored ty v := by
  rw [madWords, regsNum_wordsTy ty (patternOf_fits ty v), elemVal_patternOf_zero]

theorem elemVal_madWords_hi (ty : Ty) (v : Int) : elemVal ty (regsNum (madWords .hi ty v)) 0 = stored ty (v / (2 ^ elemWidth ty : Nat)) := by
  rw [madWords, regsNum_wordsTy ty (patternOf_fits ty _), elemVal_patternOf_zero]

theorem regsNum_madWords_long (ty : Ty) (v : Int) : regsNum (madWords .long ty v) = (BitVec.ofInt 64 v).toNat := regsNum_words64 _

theorem exec_imad_words (f : MulForm) (ty : Ty) (x : Fields) (s : State) : exec (.imad f ty x) s =
    runMap x (formDABC x && regsOk s.g [(x.d, madRegs f ty), (x.a, regCount ty), (x.b, regCount ty), (x.c, madRegs f ty)])
      [(x.a, regCount ty), (x.b, regCount ty), (x.c, madRegs f ty)] (fun g i => madWords f ty (madSum f ty x g i)) s := by
  cases f <;> rfl

theorem madAddend_local {G : Group} (ok : regOk G x.c 2 = true) {g h : Group} {i : Nat} (a : agree true i g h) :
    madAddend ty h x i = madAddend ty g x i := by
  unfold madAddend
  rw [agree_read64 a x (pair_lt ok)]

theorem madAddend_once (src : isSrc x x.c = true) (hu : x.u = true) (g : Group) (i : Nat) : madAddend ty g x i = madAddend ty g x 0 := by
  unfold madAddend
  rw [read64_uni (isSrc_uni src hu) i 0]

theorem madAddend_register (h : opIm x.c = false) (g : Group) (i : Nat) : madAddend ty g x i = (read64 g x i x.c).toNat := by
  unfold madAddend
  split
  · rename_i c
    rw [c] at h
    cases h
  · rfl

theorem madAddend_immediate (h : opIm x.c = true) (g : Group) (i : Nat) :
    madAddend ty g x i = if isSigned ty then (read32 g x i x.c).toInt else ((read32 g x i x.c).toNat : Int) := by
  cases c : x.c with
  | im k =>
    rw [madAddend, c]
    rfl
  | _ =>
    rw [c] at h
    cases h

/-- What `IMAD` leaves in D. -/
theorem imad_result (f : MulForm)
    (ok : (formDABC x && regsOk s.g [(x.d, madRegs f ty), (x.a, regCount ty), (x.b, regCount ty), (x.c, madRegs f ty)]) = true)
    (read : readable s.g x [(x.a, regCount ty), (x.b, regCount ty), (x.c, madRegs f ty)]) :
    Gives (.imad f ty x) x (madRegs f ty) s (fun i => regsNum (madWords f ty (madSum f ty x s.g i))) := by
  obtain ⟨⟨dst, a, b, c⟩, okd, oka, okb, okc⟩ := checks_DABC ok
  have size : madRegs f ty = 1 ∨ madRegs f ty = 2 ∨ madRegs f ty = 4 := by
    unfold madRegs
    split
    · exact .inr (.inl rfl)
    · exact regCount_cases ty
  refine gives_of_runMap (exec_imad_words f ty x s) ok dst size okd (fun g i => length_madWords f ty _) (fun g h i agree => ?_) (fun hu i => ?_)
    read (fun _ => rfl)
  · rw [madSum, madSum, source_local oka agree, source_local okb agree]
    by_cases long : f = .long
    · rw [madRegs, if_pos long] at okc
      rw [if_pos long, if_pos long, madAddend_local okc agree]
    · rw [madRegs, if_neg long] at okc
      rw [if_neg long, if_neg long, source_local okc agree]
  · rw [madSum, madSum, source_once a hu, source_once b hu, source_once c hu, madAddend_once c hu]

theorem lea_result (ok : (!isLong x && isDst x x.d && (isS x.a || (isV x.a && !x.u)) && isSrc x x.b &&
      regsOk s.g [(x.d, 2), (x.a, 2), (x.b, 1)]) = true) (read : readable s.g x [(x.a, 2), (x.b, 1)]) :
    Gives (.lea ty x) x 2 s (fun i => (read64 s.g x i x.a +
      BitVec.ofInt 64 (elemVal ty (read32 s.g x i x.b).toNat 0 * (2 ^ (x.e.extractLsb' 0 3).toNat : Nat))).toNat) := by
  have pass := ok
  simp only [Bool.and_eq_true] at ok
  obtain ⟨⟨⟨⟨-, dst⟩, a⟩, b⟩, regs⟩ := ok
  obtain ⟨okd, regs⟩ := regsOk_cons regs
  obtain ⟨oka, -⟩ := regsOk_cons regs
  refine gives_dword (f := fun g i => read64 g x i x.a +
    BitVec.ofInt 64 (elemVal ty (read32 g x i x.b).toNat 0 * (2 ^ (x.e.extractLsb' 0 3).toNat : Nat))) rfl pass dst okd
    (fun g h i agree => ?_) (fun hu i => ?_) read
  · rw [agree_read64 agree x (pair_lt oka), agree_read32 agree]
  · have uniform : isV x.a = false := by
      rw [hu, Bool.not_true, Bool.and_false, Bool.or_false] at a
      exact isV_of_isS a
    rw [read64_uni uniform i 0, read32_uni (isSrc_uni b hu) i 0]

end

/-- Settles O2: each form gives the integer it computes, modulo the width of its result. -/
theorem integerWide : Obligations.IntegerWide := by
  intro ty x s a b n
  refine ⟨fun wf ok read => ?_, fun f _ ok read => ?_, fun _ ok read => ?_⟩
  · obtain ⟨t, res, run, result, num⟩ := imul_long (type_of_wellFormed wf rfl) ok read
    refine ⟨t, res, run, result, fun i => ?_⟩
    rw [num]
    exact isMod64_ofInt _
  · obtain ⟨t, res, run, result, num⟩ := imad_result f ok read
    refine ⟨t, res, run, result, fun i => ?_⟩
    intro c r
    have value : r = elemVal ty (regsNum (madWords f ty (madSum f ty x s.g i))) 0 := congrArg (elemVal ty · 0) (num i)
    refine ⟨?_, ?_, ?_⟩
    · rintro rfl
      rw [value, elemVal_madWords_lo]
      exact wraps_stored ty _
    · rintro rfl
      have high := inRange_highHalf (inRange_elemVal ty (readTy ty s.g x i x.a) 0) (inRange_elemVal ty (readTy ty s.g x i x.b) 0)
        (inRange_elemVal ty (readTy ty s.g x i x.c) 0)
      refine floor_of_eq (Int.natCast_pos.mpr (Nat.two_pow_pos _)) ?_
      rw [value, elemVal_madWords_hi]
      exact stored_of_inRange high
    · rintro rfl
      have sum : isMod64 (regsNum (res i)) (a i * b i + madAddend ty s.g x i) := by
        rw [(num i).trans (regsNum_madWords_long ty _)]
        exact isMod64_ofInt _
      refine ⟨fun reg => ?_, fun imm signed => ?_, fun imm unsigned => ?_⟩
      · rwa [madAddend_register reg] at sum
      · rwa [madAddend_immediate imm, signed] at sum
      · rwa [madAddend_immediate imm, unsigned] at sum
  · obtain ⟨t, res, run, result, num⟩ := lea_result ok read
    refine ⟨t, res, run, result, fun i => ?_⟩
    rw [num]
    exact isMod64_add _ _

end Sys2Proof.Integer

/-! ### Shifts, rotates and logic (R137, R138), and O3 -/

namespace Sys2Proof.Integer

open Sys2Proof Sys2Proof.Machine Sys2Proof.Safety Sys2Proof.Laws Sys2Proof.NumberFormats Sys2Proof.Groups

/-- The types of shifts, logic and bit fields fill their registers. -/
theorem elemWidth_of_tyBits {ty : Ty} (h : tyBits ty = true) : elemWidth ty = 32 * regCount ty := by
  cases ty with
  | n32 => rfl
  | n64 => rfl
  | _ => cases h

section
variable {o : Instr} {ty : Ty} {x : Fields} {s : State} (type : tyBits ty = true)
include type

/-- D := f(A, B) with a count or control B (R129), bit by bit. -/
theorem runCount_bits {f : Nat → Nat → Nat} {bit : Nat → Nat → Nat → Bool} (run : exec o s = runCount ty x f s)
    (ok : (formDAB x && regsOk s.g [(x.d, regCount ty), (x.a, regCount ty), (x.b, 1)]) = true)
    (read : readable s.g x [(x.a, regCount ty), (x.b, 1)]) (lt : ∀ a c, a < 2 ^ elemWidth ty → f a c < 2 ^ elemWidth ty)
    (bits : ∀ a c j, a < 2 ^ elemWidth ty → j < elemWidth ty → (f a c).testBit j = bit a c j) :
    ∃ t res, exec o s = .next t ∧ RegResult x (regCount ty) res s t ∧ ∀ i, regsNum (res i) < 2 ^ elemWidth ty ∧
      ∀ j, j < elemWidth ty → (regsNum (res i)).testBit j = bit (readTy ty s.g x i x.a) (readB32 s.g x i).toNat j := by
  obtain ⟨dst, a, b, okd, oka, -⟩ := checks_DAB ok
  have fills {i} : readTy ty s.g x i x.a < 2 ^ elemWidth ty := by
    rw [elemWidth_of_tyBits type]
    exact readTy_lt ..
  refine (gives_pattern (f := fun g i => f (readTy ty g x i x.a) (readB32 g x i).toNat) run ok dst okd (fun g h i agree => ?_)
    (fun hu i => ?_) read (fun i => ?_)).bits (fun i => lt _ _ fills) (fun i j hj => bits _ _ j fills hj)
  · rw [source_local oka agree, agree_readB32 agree]
  · rw [source_once a hu, readB32_uni b hu i 0]
  · rw [← elemWidth_of_tyBits type]
    exact lt _ _ fills

/-- A logic form of A and B (R138). -/
theorem lop_bits {f : LopForm} (run : exec (.lop f ty x) s = runMap x (okDAB ty s.g x) (srcAB ty x)
      (fun g i => wordsTy ty (lopBits f (elemWidth ty) (readTy ty g x i x.a) (readTyB ty g x i))) s)
    (ok : okDAB ty s.g x = true) (read : readable s.g x (srcAB ty x)) :
    ∃ t res, exec (.lop f ty x) s = .next t ∧ RegResult x (regCount ty) res s t ∧ ∀ i, regsNum (res i) < 2 ^ elemWidth ty ∧
      ∀ j, j < elemWidth ty → (regsNum (res i)).testBit j = lopBit f ((readTy ty s.g x i x.a).testBit j) ((readTyB ty s.g x i).testBit j) := by
  obtain ⟨dst, a, b, okd, oka, okb⟩ := okDAB_parts ok
  have width := elemWidth_of_tyBits type
  have lt (i) : lopBits f (elemWidth ty) (readTy ty s.g x i x.a) (readTyB ty s.g x i) < 2 ^ elemWidth ty := by
    rw [width]
    exact lopBits_lt f (readTy_lt ..) (readTyB_lt ..)
  refine (gives_pattern (f := fun g i => lopBits f (elemWidth ty) (readTy ty g x i x.a) (readTyB ty g x i)) run ok dst okd
    (fun g h i agree => ?_) (fun hu i => ?_) read (width ▸ lt)).bits lt (fun i j hj => testBit_lopBits f _ _ hj)
  · rw [source_local oka agree, sourceB_local okb agree]
  · rw [source_once a hu, readTyB_uni b hu ty i 0]

theorem lop_not_bits (ok : okDA ty s.g x = true) (read : readable s.g x [(x.a, regCount ty)]) :
    ∃ t res, exec (.lop .not ty x) s = .next t ∧ RegResult x (regCount ty) res s t ∧ ∀ i, regsNum (res i) < 2 ^ elemWidth ty ∧
      ∀ j, j < elemWidth ty → (regsNum (res i)).testBit j = !(readTy ty s.g x i x.a).testBit j := by
  obtain ⟨dst, a, okd, oka⟩ := okDA_parts ok
  have width := elemWidth_of_tyBits type
  have lt (i) : lopBits .not (elemWidth ty) (readTy ty s.g x i x.a) 0 < 2 ^ elemWidth ty := by
    rw [width]
    exact lopBits_lt .not (readTy_lt ..) (Nat.two_pow_pos _)
  refine (gives_pattern (f := fun g i => lopBits .not (elemWidth ty) (readTy ty g x i x.a) 0) rfl ok dst okd
    (fun g h i agree => ?_) (fun hu i => ?_) read (width ▸ lt)).bits lt (fun i j hj => testBit_lopBits .not _ _ hj)
  · rw [source_local oka agree]
  · rw [source_once a hu]

theorem lop_tri_bits
    (ok : (formDABC x && regsOk s.g [(x.d, regCount ty), (x.a, regCount ty), (x.b, regCount ty), (x.c, regCount ty)]) = true)
    (read : readable s.g x [(x.a, regCount ty), (x.b, regCount ty), (x.c, regCount ty)]) :
    ∃ t res, exec (.lop .tri ty x) s = .next t ∧ RegResult x (regCount ty) res s t ∧ ∀ i, regsNum (res i) < 2 ^ elemWidth ty ∧
      ∀ j, j < elemWidth ty → (regsNum (res i)).testBit j = x.e.getLsbD (((readTy ty s.g x i x.c).testBit j).toNat * 4 +
        ((readTy ty s.g x i x.b).testBit j).toNat * 2 + ((readTy ty s.g x i x.a).testBit j).toNat) := by
  obtain ⟨⟨dst, a, b, c⟩, okd, oka, okb, okc⟩ := checks_DABC ok
  refine (gives_pattern (f := fun g i => triBits (elemWidth ty) x.e (readTy ty g x i x.a) (readTy ty g x i x.b) (readTy ty g x i x.c))
    rfl ok dst okd (fun g h i agree => ?_) (fun hu i => ?_) read (fun i => ?_)).bits (fun i => triBits_lt ..)
    (fun i j hj => testBit_triBits _ _ _ _ hj)
  · rw [source_local oka agree, source_local okb agree, source_local okc agree]
  · rw [source_once a hu, source_once b hu, source_once c hu]
  · rw [← elemWidth_of_tyBits type]
    exact triBits_lt ..

end

/-- Settles O3: each form is an operation on patterns whose bits are those of its operands, moved or combined. -/
theorem shiftLogic : Obligations.ShiftLogic := by
  intro ty x s w n a c holds
  refine ⟨fun ok read => ⟨fun wf => ?_, fun wf => ?_, fun wf => ?_, fun wf => ?_, fun wf => ?_⟩, fun ok read => ?_, fun ok read wf => ?_,
    fun ok read wf => ?_⟩
  · exact runCount_bits (f := shiftL w) (bit := fun a c j => decide (c ≤ j) && a.testBit (j - c)) (type_of_wellFormed wf rfl) rfl ok read
      (fun a c _ => shiftL_lt _ a c) (fun _ _ _ _ hj => testBit_shiftL hj)
  · exact runCount_bits (f := shiftR w) (bit := fun a c j => a.testBit (j + c)) (type_of_wellFormed wf rfl) rfl ok read
      (fun _ c ha => shiftR_lt ha c) (fun _ c j ha _ => testBit_shiftR ha c j)
  · exact runCount_bits (f := ariShift w) (bit := fun a c j => a.testBit (min (j + c) (w - 1))) (type_of_wellFormed wf rfl) rfl ok read
      (fun a c _ => ariShift_lt _ a c) (fun _ _ _ ha hj => testBit_ariShift ha hj)
  · exact runCount_bits (f := rotL w) (bit := fun a c j => a.testBit ((j + w - c % w) % w)) (type_of_wellFormed wf rfl) rfl ok read
      (fun a c _ => rotL_lt _ a c) (fun _ _ _ ha hj => testBit_rotL ha hj)
  · exact runCount_bits (f := rotR w) (bit := fun a c j => a.testBit ((j + c) % w)) (type_of_wellFormed wf rfl) rfl ok read
      (fun a c _ => rotR_lt _ a c) (fun _ _ _ ha hj => testBit_rotR ha hj)
  · exact ⟨fun wf => lop_bits (type_of_wellFormed wf rfl) rfl ok read, fun wf => lop_bits (type_of_wellFormed wf rfl) rfl ok read,
      fun wf => lop_bits (type_of_wellFormed wf rfl) rfl ok read, fun wf => lop_bits (type_of_wellFormed wf rfl) rfl ok read,
      fun wf => lop_bits (type_of_wellFormed wf rfl) rfl ok read, fun wf => lop_bits (type_of_wellFormed wf rfl) rfl ok read⟩
  · exact lop_not_bits (type_of_wellFormed wf rfl) ok read
  · exact lop_tri_bits (type_of_wellFormed wf rfl) ok read

end Sys2Proof.Integer

/-! ### Bit fields and bit counts (R139, R140, R142), and O4 -/

namespace Sys2Proof.Integer

open Sys2Proof Sys2Proof.Machine Sys2Proof.Safety Sys2Proof.Laws Sys2Proof.NumberFormats Sys2Proof.Groups

section
variable {o : Instr} {ty : Ty} {x : Fields} {s : State}

theorem bfi_bits (type : tyBits ty = true)
    (ok : (formDABC x && regsOk s.g [(x.d, regCount ty), (x.a, regCount ty), (x.b, regCount ty), (x.c, 1)]) = true)
    (read : readable s.g x [(x.a, regCount ty), (x.b, regCount ty), (x.c, 1)]) :
    let p := fun i => min ((read32 s.g x i x.c).toNat % 256) (elemWidth ty)
    ∃ t res, exec (.bfi ty x) s = .next t ∧ RegResult x (regCount ty) res s t ∧ ∀ i, regsNum (res i) < 2 ^ elemWidth ty ∧
      ∀ j, j < elemWidth ty → (regsNum (res i)).testBit j =
        if p i ≤ j ∧ j < p i + min ((read32 s.g x i x.c).toNat / 256 % 256) (elemWidth ty - p i) then (readTy ty s.g x i x.a).testBit (j - p i)
        else (readTy ty s.g x i x.b).testBit j := by
  intro p
  obtain ⟨⟨dst, a, b, c⟩, okd, oka, okb, -⟩ := checks_DABC ok
  have width := elemWidth_of_tyBits type
  have lt (i) : insertField (elemWidth ty) (readTy ty s.g x i x.a) (readTy ty s.g x i x.b) (read32 s.g x i x.c).toNat < 2 ^ elemWidth ty :=
    insertField_lt _ _ (width ▸ readTy_lt ty s.g x i x.b) _
  refine (gives_pattern (f := fun g i => insertField (elemWidth ty) (readTy ty g x i x.a) (readTy ty g x i x.b) (read32 g x i x.c).toNat)
    rfl ok dst okd (fun g h i agree => ?_) (fun hu i => ?_) read (width ▸ lt)).bits lt (fun i j hj => testBit_insertField _ _ _ hj)
  · rw [source_local oka agree, source_local okb agree, agree_read32 agree]
  · rw [source_once a hu, source_once b hu, read32_uni (isSrc_uni c hu) i 0]

theorem regCount_of_tyCount (type : tyCount ty = true) : regCount ty = 1 := by
  cases ty with
  | n32 => rfl
  | n16x2 => rfl
  | n8x4 => rfl
  | _ => cases type

/-- D := f(A) on the pattern of each element. -/
theorem runRaw_elements (type : tyCount ty = true) {f : Nat → Nat} {P : Nat → Nat → Prop} (run : exec o s = runRaw ty x f s)
    (ok : okDA ty s.g x = true) (read : readable s.g x [(x.a, 1)]) (lt : ∀ a, f a < 2 ^ elemWidth ty) (spec : ∀ a, P a (f a)) :
    ∃ t res, exec o s = .next t ∧ RegResult x 1 res s t ∧
      ∀ i e, e < elemCount ty → P (elemAt ty (readTy ty s.g x i x.a) e) (elemAt ty (regsNum (res i)) e) := by
  obtain ⟨dst, a, okd, oka⟩ := okDA_parts ok
  obtain ⟨t, res, next, result, num⟩ := gives_pattern
    (f := fun g i => mapElems ty (fun e => (f (elemAt ty (readTy ty g x i x.a) e) : Int))) run ok dst okd
    (fun g h i agree => by rw [source_local oka agree]) (fun hu i => by rw [source_once a hu]) read (fun i => mapElems_lt ty _)
  rw [regCount_of_tyCount type] at result
  refine ⟨t, res, next, result, fun i e he => ?_⟩
  rw [num, elemAt_mapElems ty _ he, patternOf_nat (lt _)]
  exact spec _

end

theorem le_width_lt {n w : Nat} (h : n ≤ w) : n < 2 ^ w := h.trans_lt Nat.lt_two_pow_self

/-- Settles O4: a field is a part of the pattern moved into place, and a count is the length of a stretch of zeros or the number of ones. -/
theorem bitOperations : Obligations.BitOperations := by
  refine ⟨fun ty x s => ?_, fun ty x s ok read => ?_⟩
  · intro w n a holds
    refine ⟨fun ok read => ⟨fun wf => ?_, fun wf => ?_⟩, fun ok read => fun wf => bfi_bits (type_of_wellFormed wf rfl) ok read⟩
    · exact runCount_bits (f := extractField .zx w)
        (bit := fun a c j => decide (j < min (c / 256 % 256) w) && a.testBit (min (c % 256) w + j))
        (type_of_wellFormed wf rfl) rfl ok read (fun _ c ha => extractField_zx_lt ha c) (fun _ c j ha _ => testBit_extractField_zx ha c j)
    · exact runCount_bits (f := extractField .sx w) (bit := fun a c j => decide (0 < min (c / 256 % 256) w) &&
          a.testBit (min (min (c % 256) w + min j (min (c / 256 % 256) w - 1)) (w - 1)))
        (type_of_wellFormed wf rfl) rfl ok read (fun a c _ => extractField_sx_lt w a c) (fun _ _ _ ha hj => testBit_extractField_sx ha hj)
  · intro w a holds
    refine ⟨fun wf => ?_, fun wf => ?_, fun wf => ?_, fun wf => ?_⟩
    · exact runRaw_elements (f := countLeading w)
        (P := fun a r => r ≤ w ∧ (∀ j, j < r → a.testBit (w - 1 - j) = false) ∧ (r < w → a.testBit (w - 1 - r) = true))
        (type_of_wellFormed wf rfl) rfl ok read (fun a => le_width_lt (countLeading_le w a)) (fun a => ⟨countLeading_le w a, countLeading_spec w a⟩)
    · exact runRaw_elements (f := findFirst w)
        (P := fun a r => r ≤ w ∧ (∀ j, j < r → a.testBit j = false) ∧ (r < w → a.testBit r = true))
        (type_of_wellFormed wf rfl) rfl ok read (fun a => le_width_lt (findFirst_le w a)) (fun a => ⟨findFirst_le w a, findFirst_spec w a⟩)
    · exact runRaw_elements (f := countOnes w) (P := fun a r => r = ((List.range w).filter (fun j => a.testBit j)).length)
        (type_of_wellFormed wf rfl) rfl ok read (fun a => le_width_lt (countOnes_le w a)) (countOnes_eq w)
    · exact runRaw_elements (f := reverseBits w) (P := fun a r => ∀ j, j < w → r.testBit j = a.testBit (w - 1 - j))
        (type_of_wellFormed wf rfl) rfl ok read (reverseBits_lt w) (fun a _ hj => testBit_reverseBits a hj)

end Sys2Proof.Integer

/-! ### Comparisons, selection and predicates (R143 to R146), and O5 -/

namespace Sys2Proof.Integer

open Sys2Proof Sys2Proof.Machine Sys2Proof.Safety Sys2Proof.Laws Sys2Proof.NumberFormats Sys2Proof.Groups

/-! #### Predicate sources -/

theorem readPred_uni {o : Opnd} (h : 8 ≤ opIdx o) (g : Group) (i j : Nat) : readPred g i o = readPred g j o := by
  simp only [readPred, if_neg (Nat.not_lt.mpr h)]

theorem isQ_ge {o : Opnd} (h : isQ o = true) : 8 ≤ opIdx o := by
  cases o with
  | sp k => exact of_decide_eq_true (Bool.and_eq_true_iff.mp h).1
  | _ => cases h

/-- With `U` = 1 a predicate source is uniform (R144, R145). -/
theorem isPSrc_ge {x : Fields} {o : Opnd} (h : isPSrc x o = true) (hu : x.u = true) : 8 ≤ opIdx o := by
  rw [isPSrc, hu, Bool.not_true, Bool.and_false, Bool.or_false] at h
  exact isQ_ge h

theorem condHolds_spec (f : Cond) (a b : Int) :
    (f = .eq → (condHolds f a b = true ↔ a = b)) ∧ (f = .ne → (condHolds f a b = true ↔ a ≠ b)) ∧
    (f = .lt → (condHolds f a b = true ↔ a < b)) ∧ (f = .le → (condHolds f a b = true ↔ a ≤ b)) ∧
    (f = .gt → (condHolds f a b = true ↔ b < a)) ∧ (f = .ge → (condHolds f a b = true ↔ b ≤ a)) := by
  cases f <;> simp [condHolds]

theorem plopBit_spec (f : PlopForm) (a b : Bool) : (f = .and → plopBit f a b = (a && b)) ∧ (f = .or → plopBit f a b = (a || b)) ∧
    (f = .xor → plopBit f a b = (a != b)) ∧ (f = .not → plopBit f a b = !a) := by
  cases f <;> simp [plopBit]

/-! #### `ICMP`, `SEL` and `PLOP` -/

section
variable {ty : Ty} {x : Fields} {s : State}

theorem icmp_result (f : Cond) (ok : (isPDst x x.d && isSrc x x.a && isSrcB x && (isLong x || oneImm [x.a, x.b]) &&
      regsOk s.g [(x.a, regCount ty), (x.b, regCount ty)]) = true) (read : readable s.g x (srcAB ty x)) :
    ∃ t, exec (.icmp f ty x) s = .next t ∧
      PredResult x (fun i => condHolds f (elemVal ty (readTy ty s.g x i x.a) 0) (elemVal ty (readTyB ty s.g x i) 0)) s t := by
  have pass := ok
  simp only [Bool.and_eq_true] at ok
  obtain ⟨⟨⟨⟨dst, a⟩, b⟩, -⟩, regs⟩ := ok
  obtain ⟨oka, regs⟩ := regsOk_cons regs
  obtain ⟨okb, -⟩ := regsOk_cons regs
  refine runPred_result (val := fun g i => condHolds f (elemVal ty (readTy ty g x i x.a) 0) (elemVal ty (readTyB ty g x i) 0)) pass dst
    (fun _ g h i agree => ?_) (fun hu i => ?_) read
  · rw [source_local oka agree, sourceB_local okb agree]
  · rw [source_once a hu, readTyB_uni b hu ty i 0]

theorem sel_result (ok : (!isLong x && isDst x x.d && isSrc x x.a && isSrc x x.b && oneImm [x.a, x.b] && (isQ x.c || (isP x.c && !x.u)) &&
      regsOk s.g [(x.d, regCount ty), (x.a, regCount ty), (x.b, regCount ty)]) = true)
    (read : readable s.g x [(x.a, regCount ty), (x.b, regCount ty)]) :
    Gives (.sel ty x) x (regCount ty) s (fun i =>
      if readPred s.g i x.c != x.e.getLsbD 0 then readTy ty s.g x i x.a else readTy ty s.g x i x.b) := by
  have pass := ok
  simp only [Bool.and_eq_true] at ok
  obtain ⟨⟨⟨⟨⟨⟨-, dst⟩, a⟩, b⟩, -⟩, c⟩, regs⟩ := ok
  obtain ⟨okd, regs⟩ := regsOk_cons regs
  obtain ⟨oka, regs⟩ := regsOk_cons regs
  obtain ⟨okb, -⟩ := regsOk_cons regs
  refine gives_pattern (f := fun g i => if readPred g i x.c != x.e.getLsbD 0 then readTy ty g x i x.a else readTy ty g x i x.b) rfl pass dst okd
    (fun g h i agree => ?_) (fun hu i => ?_) read (fun i => ?_)
  · rw [source_local oka agree, source_local okb agree, agree_readPred agree]
  · rw [source_once a hu, source_once b hu, readPred_uni (isPSrc_ge c hu) s.g i 0]
  · split <;> exact readTy_lt ..

/-- The sources of `PLOP` in a strand (R145). -/
def plopA (x : Fields) (g : Group) (i : Nat) : Bool := readPred g i x.a != x.e.getLsbD 0
def plopB (x : Fields) (g : Group) (i : Nat) : Bool := readPred g i x.b != x.e.getLsbD 1

theorem plop_result (f : PlopForm) (ok : (isPDst x x.d && isPSrc x x.a && (f == .not || isPSrc x x.b)) = true) :
    ∃ t, exec (.plop f x) s = .next t ∧ PredResult x (fun i => plopBit f (plopA x s.g i) (plopB x s.g i)) s t := by
  have pass := ok
  simp only [Bool.and_eq_true, Bool.or_eq_true, beq_iff_eq] at ok
  obtain ⟨⟨dst, a⟩, b⟩ := ok
  refine runPred_result (val := fun g i => plopBit f (plopA x g i) (plopB x g i)) pass dst (fun _ g h i agree => ?_) (fun hu i => ?_)
    (fun _ _ _ _ none_ => absurd none_ List.not_mem_nil)
  · rw [plopA, plopB, plopA, plopB, agree_readPred agree, agree_readPred agree]
  · have same : plopA x s.g i = plopA x s.g 0 := by rw [plopA, plopA, readPred_uni (isPSrc_ge a hu) s.g i 0]
    rcases b with rfl | b
    · exact congrArg (!·) same
    · rw [same, plopB, plopB, readPred_uni (isPSrc_ge b hu) s.g i 0]

end

/-! #### `PMOV.get` -/

/-- The word of `PMOV.get` (R146). -/
def predsOf (x : Fields) (g : Group) (i : Nat) : Word := if x.u then predWordUni g else predWord g i

/-- Bit 7 set above seven predicates. -/
theorem preds_bits {n : Nat} (h : n < 2 ^ 7) : (BitVec.ofNat 32 (128 + n)).toNat < 256 ∧ (BitVec.ofNat 32 (128 + n)).toNat.testBit 7 = true ∧
    ∀ k, k < 7 → (BitVec.ofNat 32 (128 + n)).toNat.testBit k = n.testBit k := by
  have value : (BitVec.ofNat 32 (128 + n)).toNat = 2 ^ 7 * 1 + n := by
    rw [BitVec.toNat_ofNat]
    omega
  rw [value]
  refine ⟨by omega, ?_, fun k hk => ?_⟩
  · rw [Nat.testBit_two_pow_mul_add 1 h, if_neg (by omega)]
    rfl
  · rw [Nat.testBit_two_pow_mul_add 1 h, if_pos hk]

theorem predWord_eq (g : Group) (i : Nat) : predWord g i =
    BitVec.ofNat 32 (128 + joinElems 1 (((List.range 7).map (pGet g i)).map (fun b => if b then 1 else 0))) := by
  rw [predWord, List.map_map]
  rfl

theorem predsOf_bits (x : Fields) (g : Group) (i : Nat) : (predsOf x g i).toNat < 256 ∧ (predsOf x g i).toNat.testBit 7 = true ∧
    ∀ k, k < 7 → (predsOf x g i).toNat.testBit k = if x.u then qGet g k else pGet g i k := by
  unfold predsOf
  split
  · obtain ⟨lt, top, low⟩ := preds_bits g.q.isLt
    refine ⟨lt, top, fun k hk => (low k hk).trans ?_⟩
    rw [BitVec.testBit_toNat, qGet, if_neg (by omega)]
  · have fits : joinElems 1 (((List.range 7).map (pGet g i)).map (fun b => if b then 1 else 0)) < 2 ^ 7 := joinElems_bits_lt _
    obtain ⟨lt, top, low⟩ := preds_bits fits
    rw [predWord_eq]
    refine ⟨lt, top, fun k hk => (low k hk).trans ?_⟩
    rw [testBit_joinElems, nth_map_range false _ hk]

/-- An instruction of registers writes by its `uni` part with `U` = 1 and by its `per` part with `U` = 0. -/
theorem runAlu_eq_runMap (x : Fields) (ok : Bool) (srcs : List (Opnd × Nat)) (uni : Group → List Word) (per : Group → Nat → List Word)
    (s : State) : runAlu x ok srcs (fun g => writeUni g x.d (uni g)) (fun i g => writeRegs g i x.d (per g i)) s =
      runMap x ok srcs (fun g i => if x.u then uni g else per g i) s := by
  rw [runMap, runAlu, runAlu]
  cases x.u with
  | false => simp only [Bool.false_eq_true, if_false]
  | true => simp only [if_true]

theorem exec_pmov_get (x : Fields) (s : State) : exec (.pmov .get x) s =
    runMap x (isDst x x.d && regOk s.g x.d 1) [] (fun g i => if x.u then [predWordUni g] else [predWord g i]) s := by
  rw [exec_pmov, execPmov, runAlu_eq_runMap]

theorem pmov_get_result {x : Fields} {s : State} (ok : (isDst x x.d && regOk s.g x.d 1) = true) :
    Gives (.pmov .get x) x 1 s (fun i => (predsOf x s.g i).toNat) := by
  have pass := ok
  rw [Bool.and_eq_true] at ok
  obtain ⟨dst, okd⟩ := ok
  refine gives_of_runMap (exec_pmov_get x s) pass dst (.inl rfl) okd (fun g i => ?_) (fun g h i agree => ?_) (fun hu i => ?_)
    (fun _ _ _ _ none_ => absurd none_ List.not_mem_nil) (fun i => ?_)
  · split <;> rfl
  · simp only [predWordUni, predWord, agree_p agree, agree_q agree]
  · rw [if_pos hu, if_pos hu]
  · unfold predsOf
    split <;> exact Nat.add_zero _

/-! #### `PMOV.set` -/

/-- Predicates are written where the mask has a bit, and no other (R146). -/
theorem pGet_foldl_set {i : Nat} (hi : i < 64) (a m : Word) (l : List Nat) (g : Group) (j k : Nat) :
    pGet (l.foldl (fun h k => if m.getLsbD k then pSet h i k (a.getLsbD k) else h) g) j k =
      if k ∈ l ∧ j = i ∧ k ≠ 7 ∧ m.getLsbD k = true then a.getLsbD k else pGet g j k := by
  induction l generalizing g with
  | nil => simp only [List.foldl_nil, List.not_mem_nil, false_and, if_false]
  | cons n l ih =>
    have step : pGet (if m.getLsbD n then pSet g i n (a.getLsbD n) else g) j k =
        if k = n ∧ j = i ∧ k ≠ 7 ∧ m.getLsbD k = true then a.getLsbD k else pGet g j k := by
      split
      · rw [pGet_pSet g hi]
        by_cases h7 : k = 7
        · rw [if_pos h7, if_neg (fun h => h.2.2.1 h7), pGet, if_pos h7]
        · rw [if_neg h7]
          by_cases hk : k = n
          · subst hk
            exact if_congr (by tauto) rfl rfl
          · rw [if_neg (fun h => hk h.1), if_neg (fun h => hk h.1)]
      · rw [if_neg (by rintro ⟨rfl, -, -, bit⟩; contradiction)]
    rw [List.foldl_cons, ih, step, ← ite_or]
    exact if_congr (by rw [List.mem_cons, or_comm, or_and_right]) rfl rfl

theorem pGet_setPreds {i : Nat} (hi : i < 64) (g : Group) (a m : Word) (j k : Nat) : pGet (setPreds g i a m) j k =
    if j = i ∧ k < 7 ∧ m.getLsbD k = true then a.getLsbD k else pGet g j k := by
  rw [setPreds, pGet_foldl_set hi]
  refine if_congr ?_ rfl rfl
  rw [List.mem_range]
  constructor
  · exact fun h => ⟨h.2.1, h.1, h.2.2.2⟩
  · exact fun h => ⟨h.2.1, h.1, by omega, h.2.2⟩

/-- Steps that each change p predicates alone change p predicates alone together. -/
theorem foldl_back_p {α : Type} {step : Group → α → Group} (back : ∀ g a, { step g a with p := g.p } = g) (l : List α) (g : Group) :
    { l.foldl step g with p := g.p } = g := by
  induction l generalizing g with
  | nil => rfl
  | cons a l ih =>
    have first := back g a
    rw [← ih (step g a)] at first
    exact first

theorem setPreds_back (g : Group) (i : Nat) (a m : Word) : { setPreds g i a m with p := g.p } = g := by
  refine foldl_back_p (fun g n => ?_) (List.range 7) g
  split
  · rw [pSet_frame]
  · rfl

/-- Predicates of the group are written where the mask has a bit, and no other (R146). -/
theorem qGet_foldl_set (a m : Word) {l : List Nat} (hl : ∀ n ∈ l, n < 7) (g : Group) (k : Nat) :
    qGet (l.foldl (fun h k => if m.getLsbD k then qSet h k (a.getLsbD k) else h) g) k =
      if k ∈ l ∧ m.getLsbD k = true then a.getLsbD k else qGet g k := by
  induction l generalizing g with
  | nil => simp only [List.foldl_nil, List.not_mem_nil, false_and, if_false]
  | cons n l ih =>
    have hn : n < 7 := hl n List.mem_cons_self
    have step : qGet (if m.getLsbD n then qSet g n (a.getLsbD n) else g) k =
        if k = n ∧ m.getLsbD k = true then a.getLsbD k else qGet g k := by
      split
      · rw [qGet_qSet g (by omega)]
        by_cases h7 : k = 7
        · rw [if_pos h7, if_neg (by omega), qGet, if_pos h7]
        · rw [if_neg h7]
          by_cases hk : k = n
          · subst hk
            exact if_congr (by tauto) rfl rfl
          · rw [if_neg hk, if_neg (fun h => hk h.1)]
      · rw [if_neg (by rintro ⟨rfl, bit⟩; contradiction)]
    rw [List.foldl_cons, ih (fun m hm => hl m (List.mem_cons_of_mem n hm)), step, ← ite_or]
    exact if_congr (by rw [List.mem_cons, or_comm, or_and_right]) rfl rfl

theorem qGet_setPredsUni (g : Group) (a m : Word) (k : Nat) : qGet (setPredsUni g a m) k =
    if k < 7 ∧ m.getLsbD k = true then a.getLsbD k else qGet g k := by
  rw [setPredsUni, qGet_foldl_set a m (fun n hn => List.mem_range.mp hn)]
  simp only [List.mem_range]

theorem frame_of_back_q {g h : Group} (back : { h with q := g.q } = g) : h = { g with q := h.q } := by rw [← back]

theorem setPredsUni_back (g : Group) (a m : Word) : { setPredsUni g a m with q := g.q } = g := by
  rw [setPredsUni]
  induction List.range 7 generalizing g with
  | nil => rfl
  | cons n l ih =>
    have rest := ih (if m.getLsbD n then qSet g n (a.getLsbD n) else g)
    have first : { (if m.getLsbD n then qSet g n (a.getLsbD n) else g) with q := g.q } = g := by
      split
      · rw [qSet_frame]
      · rfl
    rw [← rest] at first
    exact first

/-- `PMOV.set` in strand `i` (R146). -/
def setStrand (x : Fields) (i : Nat) (g : Group) : Group := setPreds g i (read32 g x i x.a) (read32 g x i x.b)

theorem setStrand_frame (x : Fields) (i : Nat) (g : Group) : setStrand x i g = { g with p := (setStrand x i g).p } :=
  frame_of_back_p (setPreds_back g i _ _)

theorem own_setStrand (x : Fields) {i : Nat} (hi : i < 64) : Own true i (setStrand x i) where
  other g j hj _ := by
    refine agree_of true j (fun q _ => ?_) (fun k => ?_) ?_
    · rw [setStrand_frame]
      rfl
    · rw [setStrand, pGet_setPreds hi, if_neg (fun h => hj h.1)]
    · rw [setStrand_frame]
      rfl
  rest g := by
    rw [setStrand_frame]
    rfl
  poison g k hk := by
    rw [setStrand_frame] at hk
    exact hk

theorem inTurn_setStrand_back (x : Fields) (l : List Nat) (g : Group) : { inTurn (setStrand x) l g with p := g.p } = g :=
  foldl_back_p (fun g i => setPreds_back g i _ _) l g

/-- The predicates of a strand after `PMOV.set` of the executing strands. -/
theorem pGet_inTurn_setStrand (x : Fields) (g : Group) {i : Nat} (hi : i < 64) (k : Nat) : pGet (inTurn (setStrand x) (execList g x) g) i k =
    if i ∈ execList g x ∧ k < 7 ∧ (read32 g x i x.b).getLsbD k = true then (read32 g x i x.a).getLsbD k else pGet g i k := by
  have own : ∀ j ∈ execList g x, Own true j (setStrand x j) := fun j hj => own_setStrand x (lt_of_mem_execList hj)
  by_cases hm : i ∈ execList g x
  · obtain ⟨h, before, after⟩ := inTurn_own (setStrand x) _ g own (nodup_execList g x) hi hm
    rw [agree_p after, setStrand, pGet_setPreds hi, agree_read32 before, agree_read32 before, agree_p before]
    simp only [hm, true_and]
  · rw [agree_p (inTurn_other (setStrand x) _ g own hi hm), if_neg (fun h => hm h.1)]

/-- `PMOV.set` of the uniform predicates (R43, R146). -/
def setOnce (x : Fields) (g : Group) : Group := if holdsQ g x then setPredsUni g (read32 g x 0 x.a) (read32 g x 0 x.b) else g

theorem setOnce_frame (x : Fields) (g : Group) : setOnce x g = { g with q := (setOnce x g).q } := by
  unfold setOnce
  split
  · exact frame_of_back_q (setPredsUni_back g _ _)
  · rfl

theorem qGet_setOnce (x : Fields) (g : Group) (k : Nat) : qGet (setOnce x g) k =
    if holdsQ g x = true ∧ k < 7 ∧ (read32 g x 0 x.b).getLsbD k = true then (read32 g x 0 x.a).getLsbD k else qGet g k := by
  unfold setOnce
  split
  · rw [qGet_setPredsUni]
    exact if_congr (by simp only [*, true_and]) rfl rfl
  · rw [if_neg (fun h => absurd h.1 ‹_›)]

section
variable {x : Fields} {s : State} (ok : (!isLong x && (isS x.a || (isV x.a && !x.u)) && isSrc x x.b && regsOk s.g [(x.a, 1), (x.b, 1)]) = true)
include ok

theorem exec_pmov_set_strands (hu : x.u = false) (read : readable s.g x [(x.a, 1), (x.b, 1)]) :
    exec (.pmov .set x) s = .next (setG (advance (inTurn (setStrand x) (execList s.g x) s.g)) s) := by
  have run : runStrands [(x.a, 1), (x.b, 1)] (fun i g => setPreds g i (read32 g x i x.a) (read32 g x i x.b)) (execList s.g x) s.g =
      (inTurn (setStrand x) (execList s.g x) s.g, none) :=
    runStrands_next _ (setStrand x) _ _ (fun i hi => (own_setStrand x (lt_of_mem_execList hi)).poison) (readable_zero hu read)
  rw [exec_pmov, execPmov, runAlu, if_pos ok, if_neg (by rw [hu]; exact Bool.false_ne_true), run]
  rfl

theorem exec_pmov_set_once (hu : x.u = true) : exec (.pmov .set x) s = .next (setG (advance (setOnce x s.g)) s) := by
  rw [exec_pmov, execPmov, runAlu, if_pos ok, if_pos hu]
  rfl

end

/-- Settles O5: a predicate instruction writes what it finds in each strand, and `PMOV` moves seven predicates at a time. -/
theorem comparePredicates : Obligations.ComparePredicates := by
  refine ⟨fun ty x s => ⟨fun f _ ok read => ?_, fun _ ok read => ?_⟩, fun x s => ⟨fun f _ ok => ?_, fun _ ok => ?_, fun _ ok read => ?_⟩⟩
  · obtain ⟨t, run, result⟩ := icmp_result f ok read
    exact ⟨t, _, run, result, fun i => condHolds_spec f _ _⟩
  · obtain ⟨t, res, run, result, num⟩ := sel_result ok read
    refine ⟨t, res, run, result, fun i => ?_⟩
    exact ⟨fun ne => (num i).trans (if_pos (bne_iff_ne.mpr ne)), fun eq => (num i).trans (if_neg (fun ne => bne_iff_ne.mp ne eq))⟩
  · obtain ⟨t, run, result⟩ := plop_result f ok
    exact ⟨t, _, run, result, fun i => plopBit_spec f _ _⟩
  · obtain ⟨t, res, run, result, num⟩ := pmov_get_result ok
    refine ⟨t, res, run, result, fun i => ?_⟩
    rw [num]
    exact predsOf_bits x s.g i
  · cases hu : x.u with
    | false =>
      have frame := frame_of_back_p (inTurn_setStrand_back x (execList s.g x) s.g)
      refine ⟨_, exec_pmov_set_strands ok hu read, ?_, fun _ => ⟨?_, fun i k hi _ => pGet_inTurn_setStrand x s.g hi k⟩, nofun⟩
      · rw [frame]
        rfl
      · rw [frame]
        rfl
    | true =>
      refine ⟨_, exec_pmov_set_once ok hu, ?_, nofun, fun _ => ⟨?_, fun k _ => qGet_setOnce x s.g k⟩⟩
      · rw [setOnce_frame]
        rfl
      · rw [setOnce_frame]
        rfl

end Sys2Proof.Integer

/-! ### Moves (R58 to R60, R147, R148), and O6 -/

namespace Sys2Proof.Integer

open Sys2Proof Sys2Proof.Machine Sys2Proof.Safety Sys2Proof.Laws Sys2Proof.NumberFormats Sys2Proof.Groups

/-! #### Registers and immediates (R147) -/

theorem movCount_cases (f : MovCount) : movCount f = 1 ∨ movCount f = 2 ∨ movCount f = 4 := by cases f <;> decide

theorem movCount_eq_one (f : MovCount) : movCount f = 1 ↔ f = .one := by cases f <;> decide

section
variable {g : Group} {i n : Nat} {o : Opnd} (reg : isS o = true ∨ isV o = true)
include reg

theorem length_readRegs : (readRegs g i o n).length = n := by
  cases o with
  | v k => rw [readRegs, List.length_map, List.length_range]
  | s k => rw [readRegs, List.length_map, List.length_range]
  | _ => simp [isS, isV] at reg

theorem nth_readRegs {j : Nat} (hj : j < n) : nth 0 (readRegs g i o n) j = if isV o then vGet g i (opIdx o + j) else sGet g (opIdx o + j) := by
  cases o with
  | v k => exact nth_map_range 0 _ hj
  | s k => exact nth_map_range 0 _ hj
  | _ => simp [isS, isV] at reg

end

theorem readRegs_local {g h : Group} {i n : Nat} {o : Opnd} (fits : opIdx o + n ≤ 256) (a : agree true i g h) : readRegs h i o n = readRegs g i o n := by
  cases o with
  | v k =>
    refine List.map_congr_left fun j hj => agree_v a ?_
    rw [List.mem_range] at hj
    simp only [opIdx] at fits
    omega
  | s k => exact List.map_congr_left fun j _ => agree_sGet a _
  | _ => rfl

theorem readRegs_once {o : Opnd} (h : isV o = false) (g : Group) (i n : Nat) : readRegs g i o n = readRegs g 0 o n := by
  cases o with
  | v k => cases h
  | _ => rfl

section
variable {f : MovCount} {x : Fields} {s : State}

section
variable (src : (if movCount f = 1 then isSrcB x else isS x.b || (isV x.b && isV x.d && !x.u)) = true)
include src

/-- The source of a copy of several registers (R147). -/
theorem movSource (several : movCount f ≠ 1) : (isS x.b = true ∨ isV x.b = true) ∧ (x.u = true → isV x.b = false) := by
  rw [if_neg several, Bool.or_eq_true, Bool.and_eq_true, Bool.and_eq_true, Bool.not_eq_true'] at src
  rcases src with sb | ⟨⟨vb, -⟩, hu⟩
  · exact ⟨.inl sb, fun _ => isV_of_isS sb⟩
  · exact ⟨.inr vb, fun hu' => by rw [hu] at hu'; cases hu'⟩

theorem length_movWords (g : Group) (i : Nat) : (movWords (movCount f) x g i).length = movCount f := by
  unfold movWords
  split
  · exact Eq.symm ‹_›
  · exact length_readRegs (movSource src ‹_›).1

theorem movWords_local {G : Group} (ok : regOk G x.b (movCount f) = true) {g h : Group} {i : Nat} (a : agree true i g h) :
    movWords (movCount f) x h i = movWords (movCount f) x g i := by
  unfold movWords
  split
  · rw [agree_readB32 a]
  · exact readRegs_local (regOk_lt (movCount_cases f) (movSource src ‹_›).1.symm ok) a

theorem movWords_once (hu : x.u = true) (g : Group) (i : Nat) : movWords (movCount f) x g i = movWords (movCount f) x g 0 := by
  unfold movWords
  split
  · rename_i one
    rw [if_pos one] at src
    rw [readB32_uni src hu i 0]
  · exact readRegs_once ((movSource src ‹_›).2 hu) g i _

theorem movWords_spec (g : Group) (i : Nat) : (f = .one → movWords (movCount f) x g i = [readB32 g x i]) ∧
    (f ≠ .one → ∀ j, j < movCount f → nth 0 (movWords (movCount f) x g i) j =
      if isV x.b then vGet g i (opIdx x.b + j) else sGet g (opIdx x.b + j)) := by
  refine ⟨fun one => if_pos ((movCount_eq_one f).mpr one), fun several j hj => ?_⟩
  have n := (movCount_eq_one f).not.mpr several
  rw [movWords, if_neg n]
  exact nth_readRegs (movSource src n).1 hj

end

theorem mov_result (ok : (isDst x x.d && (if movCount f = 1 then isSrcB x else isS x.b || (isV x.b && isV x.d && !x.u)) &&
      regsOk s.g [(x.d, movCount f), (x.b, movCount f)]) = true) (read : readable s.g x [(x.b, movCount f)]) :
    ∃ t, exec (.mov f x) s = .next t ∧ RegResult x (movCount f) (movWords (movCount f) x s.g) s t := by
  have pass := ok
  rw [Bool.and_eq_true, Bool.and_eq_true] at ok
  obtain ⟨⟨dst, src⟩, regs⟩ := ok
  obtain ⟨okd, regs⟩ := regsOk_cons regs
  obtain ⟨okb, -⟩ := regsOk_cons regs
  refine runMap_result pass dst (regOk_lt (movCount_cases f) (isDst_vs dst) okd) (fun g i => ?_) (fun _ g h i agree => ?_) (fun hu i => ?_) read
  · exact length_movWords src g i
  · exact movWords_local src okb agree
  · exact movWords_once src hu s.g i

end

/-! #### Special registers (R59, R148) -/

theorem specialValue_local {g h : Group} {i : Nat} (a : agree true i g h) (ac k : Nat) : specialValue h ac i k = specialValue g ac i k := by
  obtain ⟨-, -, same⟩ := a
  have value : specialValue h ac i k = specialValue { h with v := g.v, vPoison := g.vPoison, p := g.p } ac i k := rfl
  rw [value]
  exact congrArg (specialValue · ac i k) same

/-- With `U` = 1 the strand's number is not read, and every other special register is the group's. -/
theorem specialValue_once {k : Nat} (h : k ≠ 0) (g : Group) (ac i : Nat) : specialValue g ac i k = specialValue g ac 0 k := by
  unfold specialValue
  split
  · exact absurd rfl h
  all_goals rfl

theorem regsNum_take_words64 (v : DWord) {n : Nat} (h : n = 1 ∨ n = 2) : regsNum ((words64 v).take n) = v.toNat % 2 ^ (32 * n) := by
  rcases h with rfl | rfl
  · simp [words64, regsNum, lo32]
  · rw [List.take_of_length_le (length_words64 v).le, regsNum_words64, Nat.mod_eq_of_lt v.isLt]

section
variable {f : MovCount} {x : Fields} {s : State}

theorem exec_movSpecial_read (h : opSpecialReg x.d = false) : exec (.movSpecial f x) s = movFrom f x s := by
  have ne : x.d ≠ .sp 0x8D := fun e => by rw [e] at h; cases h
  rw [exec_movSpecial, execMovSpecial, decide_eq_false ne, h, Bool.false_and, if_neg Bool.false_ne_true, if_neg Bool.false_ne_true]

theorem movSpecial_read_result (from_ : opSpecialReg x.d = false)
    (ok : (isDst x x.d && decide (specialOf x.b ≤ 0x12) && (if specialWide (specialOf x.b) then f == .two else f == .one) &&
        !(x.u && specialOf x.b == 0) && regOk s.g x.d (movCount f)) = true) :
    Gives (.movSpecial f x) x (movCount f) s (fun i => (specialValue s.g s.ac i (specialOf x.b)).toNat % 2 ^ (32 * movCount f)) := by
  have count (n : MovCount) (m : Nat) (h : movCount n = m) : (movCount f == m) = (f == n) := by subst h; cases f <;> cases n <;> rfl
  have pass := ok
  rw [← count .two 2 rfl, ← count .one 1 rfl] at pass
  simp only [Bool.and_eq_true] at ok
  obtain ⟨⟨⟨⟨dst, -⟩, width⟩, strand⟩, okd⟩ := ok
  have size : movCount f = 1 ∨ movCount f = 2 := by
    split at width
    · exact .inr (congrArg movCount (eq_of_beq width))
    · exact .inl (congrArg movCount (eq_of_beq width))
  refine gives_of_runMap (val := fun g i => (words64 (specialValue g s.ac i (specialOf x.b))).take (movCount f)) (exec_movSpecial_read from_) pass
    dst (movCount_cases f) okd (fun g i => ?_) (fun g h i agree => ?_) (fun hu i => ?_)
    (fun _ _ _ _ none_ => absurd none_ List.not_mem_nil) (fun i => regsNum_take_words64 _ size)
  · rw [List.length_take, length_words64]
    omega
  · rw [specialValue_local agree]
  · have ne : specialOf x.b ≠ 0 := by simpa [hu] using strand
    rw [specialValue_once ne]

theorem exec_movSpecial_write (special : opSpecialReg x.d = true) (allowed : x.d ≠ .sp 0x8D ∨ inHandler s.g = true) :
    exec (.movSpecial f x) s = movTo f x s := by
  have privileged : (decide (x.d = .sp 0x8D) && !inHandler s.g) = false := by
    rcases allowed with ne | handler
    · rw [decide_eq_false ne, Bool.false_and]
    · rw [handler, Bool.not_true, Bool.and_false]
  rw [exec_movSpecial, execMovSpecial, privileged, special, if_neg Bool.false_ne_true, if_pos rfl]

/-- An instruction with `U` = 1 that passes step 5 acts once where its guards hold (R43). -/
theorem runAlu_once {ok : Bool} {srcs : List (Opnd × Nat)} {uni : Group → Group} {per : Nat → Group → Group} (pass : ok = true)
    (hu : x.u = true) : runAlu x ok srcs uni per s = .next (setG (advance (if holdsQ s.g x then uni s.g else s.g)) s) := by
  rw [runAlu, if_pos pass, if_pos hu]
  rfl

/-- A write of `sr.fmt` (R148). -/
theorem exec_movSpecial_fmt (d : x.d = .sp 0x8B) (ok : (x.u && f == .two && isS x.b && regOk s.g x.b 2) = true) :
    exec (.movSpecial f x) s = .next (setG (advance (if holdsQ s.g x then { s.g with fmt := read64 s.g x 0 x.b } else s.g)) s) := by
  have hu : x.u = true := by
    simp only [Bool.and_eq_true] at ok
    exact ok.1.1.1
  have number : specialOf x.d = 0x0B := by rw [d]; rfl
  rw [exec_movSpecial_write (by rw [d]; rfl) (.inl (by rw [d]; decide)), movTo, number, if_pos rfl]
  exact runAlu_once ok hu

/-- A write of `sr.res` in a handler (R58, R60). -/
theorem exec_movSpecial_res (d : x.d = .sp 0x8D) (handler : inHandler s.g = true)
    (ok : (x.u && f == .one && (isS x.b || isShort x.b || isLong x) && isSrcB x && regOk s.g x.b 1) = true) :
    exec (.movSpecial f x) s = .next (setG (advance (if holdsQ s.g x then setSaved (readB32 s.g x 0) s.g else s.g)) s) := by
  have hu : x.u = true := by
    simp only [Bool.and_eq_true] at ok
    exact ok.1.1.1.1
  have number : specialOf x.d = 0x0D := by rw [d]; rfl
  rw [exec_movSpecial_write (by rw [d]; rfl) (.inr handler), movTo, number, if_neg (by decide), if_pos rfl]
  exact runAlu_once ok hu

theorem exec_movSpecial_res_outside (d : x.d = .sp 0x8D) (outside : inHandler s.g = false) :
    exec (.movSpecial f x) s = trapped (wordTrap 0x04) s := by
  rw [exec_movSpecial, execMovSpecial, decide_eq_true d, outside]
  rfl

end

/-- Settles O6: a copy gives the words it reads, and a write of `sr.fmt` or `sr.res` changes that field of the group alone. -/
theorem moves : Obligations.Moves := by
  intro f x s
  refine ⟨fun _ ok read => ?_, fun _ from_ ok => movSpecial_read_result from_ ok, fun _ d ok => ?_, fun _ d fr hfr handler ok => ?_,
    fun _ d outside => exec_movSpecial_res_outside d outside⟩
  · simp only [← movCount_eq_one] at ok
    have src := ok
    simp only [Bool.and_eq_true] at src
    obtain ⟨⟨-, src⟩, -⟩ := src
    obtain ⟨t, run, result⟩ := mov_result ok read
    exact ⟨t, _, run, result, movWords_spec src s.g⟩
  · rw [exec_movSpecial_fmt d ok]
    split <;> rfl
  · rw [exec_movSpecial_res d handler ok]
    split
    · rw [setSaved, hfr]
      rfl
    · rw [← hfr]
      rfl

end Sys2Proof.Integer

/-! ### Coefficients of the special functions, each computed from those below it (R82 to R85) -/

namespace Sys2Proof.NumberFormats

open Sys2Proof Sys2Proof.Machine Sys2Proof.Safety Sys2Proof.Laws

/-! #### Lists of coefficients that agree below a position -/

/-- Two lists of coefficients agree below position `n`. -/
def AgreeBelow (n : Nat) (y z : List CoefRes) : Prop := ∀ l, l < n → nth (0, 0) y l = nth (0, 0) z l

theorem AgreeBelow.mono {m n : Nat} {y z : List CoefRes} (h : AgreeBelow n y z) (le : m ≤ n) : AgreeBelow m y z :=
  fun l hl => h l (Nat.lt_of_lt_of_le hl le)

theorem AgreeBelow.cY {n : Nat} {y z : List CoefRes} (h : AgreeBelow n y z) {l : Nat} (hl : l < n) : cY y l = cY z l := by
  rw [Machine.cY, Machine.cY, h l hl]

theorem agreeBelow_take (n : Nat) (y : List CoefRes) : AgreeBelow n (y.take n) y := fun _ hl => nth_take _ _ hl

theorem nth_append_left {α : Type} (d : α) {y : List α} {l : Nat} (hl : l < y.length) (z : List α) : nth d (y ++ z) l = nth d y l := by
  rw [nth, nth, List.getElem?_append_left hl]

theorem nth_append_last {α : Type} (d : α) {y : List α} {n : Nat} (len : y.length = n) (a : α) : nth d (y ++ [a]) n = a := by
  rw [nth, ← len, List.getElem?_concat_length]
  rfl

theorem agreeBelow_append {n : Nat} {y : List CoefRes} (len : y.length = n) (z : List CoefRes) : AgreeBelow n (y ++ z) y :=
  fun _ hl => nth_append_left _ (len ▸ hl) z

theorem mem_upTo {l n : Nat} : l ∈ upTo n ↔ 1 ≤ l ∧ l ≤ n := by
  simp only [upTo, List.mem_map, List.mem_range]
  constructor
  · rintro ⟨a, ha, rfl⟩
    omega
  · rintro ⟨pos, le⟩
    exact ⟨l - 1, by omega, by omega⟩

/-- Terms of a sum over the positions from 1 use the coefficients below `j` alone. -/
theorem map_upTo_congr {n j : Nat} {y z : List CoefRes} (h : AgreeBelow j y z) (le : n ≤ j) (f : Nat → FV → FV) :
    (upTo n).map (fun l => f l (cY y (j - l))) = (upTo n).map (fun l => f l (cY z (j - l))) := by
  refine List.map_congr_left fun l hl => ?_
  obtain ⟨pos, hl⟩ := mem_upTo.mp hl
  rw [h.cY (by omega)]

/-! #### The functions of one jet (R82) -/

theorem series82_congr {fn : SFun} {j : Nat} (pos : 0 < j) (fmt : DWord) (a : List Nat) {y z : List CoefRes} (h : AgreeBelow j y z) :
    series82 fn fmt a j y = series82 fn fmt a j z := by
  have terms := fun {n} (le : n ≤ j) f => map_upTo_congr h le f
  cases fn with
  | rcp => simp only [series82, terms le_rfl fun l => mulV (cA fmt a l)]
  | sqrt =>
    have squares : (upTo (j - 1)).map (fun l => negV (mulV (cY y l) (cY y (j - l)))) = (upTo (j - 1)).map (fun l => negV (mulV (cY z l) (cY z (j - l)))) := by
      refine List.map_congr_left fun l hl => ?_
      obtain ⟨hl, le⟩ := mem_upTo.mp hl
      rw [h.cY (l := l) (by omega), h.cY (l := j - l) (by omega)]
    simp only [series82, squares, h.cY pos]
  | rsqrt => simp only [series82, terms le_rfl fun l v => weightV true (2 * j - l) (2 * j) (mulV (cA fmt a l) v)]
  | exp2 => simp only [series82, terms le_rfl fun l v => weightV false l j (mulV constL (mulV (cA fmt a l) v))]
  | log2 => simp only [series82, terms (Nat.sub_le j 1) fun l v => weightV true (j - l) j (mulV (cA fmt a l) v)]
  | sinpi => rfl
  | cospi => rfl
  | tanh => rfl
  | sigm => rfl

/-- The coefficients of a function of R82. -/
def sfunJet (fn : SFun) (k : Nat) (fmt : DWord) (a : List Nat) : List CoefRes :=
  build k (fun i y => if i = 0 then first fn fmt a else series82 fn fmt a i y)

theorem length_sfunJet (fn : SFun) (k : Nat) (fmt : DWord) (a : List Nat) : (sfunJet fn k fmt a).length = k + 1 := length_build _ k

theorem nth_sfunJet_zero (fn : SFun) (k : Nat) (fmt : DWord) (a : List Nat) : nth (0, 0) (sfunJet fn k fmt a) 0 = first fn fmt a :=
  nth_build _ (Nat.zero_le k)

theorem nth_sfunJet {fn : SFun} {k j : Nat} (pos : 0 < j) (hj : j ≤ k) (fmt : DWord) (a : List Nat) :
    nth (0, 0) (sfunJet fn k fmt a) j = series82 fn fmt a j (sfunJet fn k fmt a) := by
  have next := nth_build (fun i y => if i = 0 then first fn fmt a else series82 fn fmt a i y) hj
  rw [if_neg (Nat.ne_of_gt pos), series82_congr pos fmt a (agreeBelow_take j _)] at next
  exact next

/-! #### Sine and cosine (R83) -/

/-- Coefficient `j` of a sine from the cosine `y` below it, or with `neg` of a cosine from the sine. -/
def turned (neg : Bool) (fmt : DWord) (a : List Nat) (j : Nat) (y : List CoefRes) : CoefRes :=
  chain 0 fmt none ((upTo j).map (fun l => weightV neg l j (mulV constP (mulV (cA fmt a l) (cY y (j - l)))))) none

theorem turned_congr {j : Nat} {y z : List CoefRes} (h : AgreeBelow j y z) (neg : Bool) (fmt : DWord) (a : List Nat) :
    turned neg fmt a j y = turned neg fmt a j z := by
  rw [turned, turned, map_upTo_congr h le_rfl fun l v => weightV neg l j (mulV constP (mulV (cA fmt a l) v))]

/-- `p` and `q` are coefficients 0 to `k` of the sine and the cosine of a jet. -/
structure SinCosJets (fmt : DWord) (a : List Nat) (k : Nat) (p q : List CoefRes) : Prop where
  lengthSin : p.length = k + 1
  lengthCos : q.length = k + 1
  zeroSin : nth (0, 0) p 0 = first .sinpi fmt a
  zeroCos : nth (0, 0) q 0 = first .cospi fmt a
  nextSin : ∀ j, 0 < j → j ≤ k → nth (0, 0) p j = turned false fmt a j q
  nextCos : ∀ j, 0 < j → j ≤ k → nth (0, 0) q j = turned true fmt a j p

theorem SinCosJets.append {fmt : DWord} {a : List Nat} {k : Nat} {p q : List CoefRes} (h : SinCosJets fmt a k p q) :
    SinCosJets fmt a (k + 1) (p ++ [turned false fmt a (k + 1) q]) (q ++ [turned true fmt a (k + 1) p]) where
  lengthSin := by rw [List.length_append, h.lengthSin, List.length_singleton]
  lengthCos := by rw [List.length_append, h.lengthCos, List.length_singleton]
  zeroSin := by rw [nth_append_left _ (by rw [h.lengthSin]; omega), h.zeroSin]
  zeroCos := by rw [nth_append_left _ (by rw [h.lengthCos]; omega), h.zeroCos]
  nextSin j pos hj := by
    rw [turned_congr ((agreeBelow_append h.lengthCos _).mono hj)]
    rcases Nat.lt_or_eq_of_le hj with lt | rfl
    · rw [nth_append_left _ (by rw [h.lengthSin]; exact lt), h.nextSin j pos (by omega)]
    · exact nth_append_last _ h.lengthSin _
  nextCos j pos hj := by
    rw [turned_congr ((agreeBelow_append h.lengthSin _).mono hj)]
    rcases Nat.lt_or_eq_of_le hj with lt | rfl
    · rw [nth_append_left _ (by rw [h.lengthCos]; exact lt), h.nextCos j pos (by omega)]
    · exact nth_append_last _ h.lengthCos _

theorem sinCos_zero (fmt : DWord) (a : List Nat) : sinCos 0 fmt a = [(first .sinpi fmt a, first .cospi fmt a)] := rfl

theorem sinCos_succ (k : Nat) (fmt : DWord) (a : List Nat) : sinCos (k + 1) fmt a = sinCos k fmt a ++
    [(turned false fmt a (k + 1) ((sinCos k fmt a).map Prod.snd), turned true fmt a (k + 1) ((sinCos k fmt a).map Prod.fst))] := by
  rw [sinCos, List.range_succ, List.foldl_append, List.foldl_cons, List.foldl_nil, if_neg (Nat.succ_ne_zero k)]
  rfl

theorem sinCos_jets (k : Nat) (fmt : DWord) (a : List Nat) :
    SinCosJets fmt a k ((sinCos k fmt a).map Prod.fst) ((sinCos k fmt a).map Prod.snd) := by
  induction k with
  | zero => exact ⟨rfl, rfl, rfl, rfl, fun j _ _ => by omega, fun j _ _ => by omega⟩
  | succ k ih =>
    rw [sinCos_succ, List.map_append, List.map_append]
    exact ih.append

/-- A result of both jets joins the flags of both (R83). -/
theorem map_pairs {α β γ : Type} (f : α → β → γ) (l : List (α × β)) :
    l.map (fun e => f e.1 e.2) = List.zipWith f (l.map Prod.fst) (l.map Prod.snd) := by
  rw [List.zipWith_map, List.zipWith_self]

/-! #### Hyperbolic tangent and sigmoid (R84, R85) -/

/-- Coefficient `m` of the internal jet z from the result `y` up to `m`: 1 - y^2 for tanh, y - y^2 for sigmoid. -/
def zNext (fn : SFun) (fmt : DWord) (m : Nat) (y : List CoefRes) : CoefRes :=
  chain 0 fmt (if fn = .sigm then some ((nth (0, 0) y m).1, 0) else if m = 0 then some (0x3F800000, 0) else none)
    ((List.range (m + 1)).map (fun l => negV (mulV (cY y l) (cY y (m - l))))) none

/-- Coefficient `j` of the result from z below it, without the flags of z. -/
def fromZ (fmt : DWord) (a : List Nat) (j : Nat) (z : List CoefRes) : CoefRes :=
  chain 0 fmt none ((upTo j).map (fun l => weightV false l j (mulV (cA fmt a l) (cY z (j - l))))) none

theorem zNext_congr {m : Nat} {y z : List CoefRes} (h : AgreeBelow (m + 1) y z) (fn : SFun) (fmt : DWord) : zNext fn fmt m y = zNext fn fmt m z := by
  have squares : (List.range (m + 1)).map (fun l => negV (mulV (cY y l) (cY y (m - l)))) =
      (List.range (m + 1)).map (fun l => negV (mulV (cY z l) (cY z (m - l)))) := by
    refine List.map_congr_left fun l hl => ?_
    rw [List.mem_range] at hl
    rw [h.cY hl, h.cY (l := m - l) (by omega)]
  rw [zNext, zNext, squares, h m (Nat.lt_succ_self m)]

theorem fromZ_congr {j : Nat} {y z : List CoefRes} (h : AgreeBelow j y z) (fmt : DWord) (a : List Nat) : fromZ fmt a j y = fromZ fmt a j z := by
  rw [fromZ, fromZ, map_upTo_congr h le_rfl fun l v => weightV false l j (mulV (cA fmt a l) v)]

/-- `y` and `z` are the coefficients of a hyperbolic tangent or a sigmoid up to `k`, and of the internal jet below `k`. -/
structure ZJets (fn : SFun) (fmt : DWord) (a : List Nat) (k : Nat) (y z : List CoefRes) : Prop where
  lengthY : y.length = k + 1
  lengthZ : z.length = k
  zero : nth (0, 0) y 0 = first fn fmt a
  nextZ : ∀ m, m < k → nth (0, 0) z m = zNext fn fmt m y
  nextY : ∀ j, 0 < j → j ≤ k → nth (0, 0) y j = ((fromZ fmt a j z).1, (fromZ fmt a j z).2 ||| (nth (0, 0) z (j - 1)).2)

/-- One more coefficient of z, and then one of the result. -/
def zStep (fn : SFun) (fmt : DWord) (a : List Nat) (k : Nat) (y z : List CoefRes) : List CoefRes × List CoefRes :=
  let z' := z ++ [zNext fn fmt k y]
  (y ++ [((fromZ fmt a (k + 1) z').1, (fromZ fmt a (k + 1) z').2 ||| (zNext fn fmt k y).2)], z')

theorem ZJets.step {fn : SFun} {fmt : DWord} {a : List Nat} {k : Nat} {y z : List CoefRes} (h : ZJets fn fmt a k y z) :
    ZJets fn fmt a (k + 1) (zStep fn fmt a k y z).1 (zStep fn fmt a k y z).2 where
  lengthY := by rw [zStep, List.length_append, h.lengthY, List.length_singleton]
  lengthZ := by rw [zStep, List.length_append, h.lengthZ, List.length_singleton]
  zero := by rw [zStep, nth_append_left _ (by rw [h.lengthY]; omega), h.zero]
  nextZ m hm := by
    rw [zStep, zNext_congr ((agreeBelow_append h.lengthY _).mono hm)]
    rcases Nat.lt_or_eq_of_le (Nat.le_of_lt_succ hm) with lt | rfl
    · rw [nth_append_left _ (by rw [h.lengthZ]; exact lt), h.nextZ m lt]
    · exact nth_append_last _ h.lengthZ _
  nextY j pos hj := by
    rw [zStep]
    rcases Nat.lt_or_eq_of_le hj with lt | rfl
    · have le : j ≤ k := Nat.le_of_lt_succ lt
      rw [nth_append_left _ (by rw [h.lengthY]; exact lt), fromZ_congr ((agreeBelow_append h.lengthZ _).mono le),
        nth_append_left _ (by rw [h.lengthZ]; omega), h.nextY j pos le]
    · rw [nth_append_last _ h.lengthY, Nat.add_sub_cancel, nth_append_last _ h.lengthZ]

/-- The result and z together, as they are built. -/
def zPair (fn : SFun) (fmt : DWord) (a : List Nat) : Nat → List CoefRes × List CoefRes
  | 0 => ([first fn fmt a], [])
  | k + 1 => zStep fn fmt a k (zPair fn fmt a k).1 (zPair fn fmt a k).2

theorem zSeries_eq (tanh : Bool) (k : Nat) (fmt : DWord) (a : List Nat) :
    zSeries tanh k fmt a = (zPair (if tanh then .tanh else .sigm) fmt a k).1 := by
  rw [zSeries]
  congr 1
  induction k with
  | zero => rfl
  | succ k ih =>
    rw [List.range_succ, List.foldl_append, ih, List.foldl_cons, List.foldl_nil]
    refine (if_neg (Nat.succ_ne_zero k)).trans ?_
    cases tanh with
    | false => rfl
    | true => cases k <;> rfl

theorem sfunSeries_z {fn : SFun} (h : fn = .tanh ∨ fn = .sigm) (k : Nat) (fmt : DWord) (a : List Nat) : sfunSeries fn k fmt a = (zPair fn fmt a k).1 := by
  rcases h with rfl | rfl
  · exact zSeries_eq true k fmt a
  · exact zSeries_eq false k fmt a

theorem zPair_jets (fn : SFun) (k : Nat) (fmt : DWord) (a : List Nat) : ZJets fn fmt a k (zPair fn fmt a k).1 (zPair fn fmt a k).2 := by
  induction k with
  | zero => exact ⟨rfl, rfl, rfl, fun m _ => by omega, fun j _ _ => by omega⟩
  | succ k ih => exact ih.step

theorem length_sfunSeries (fn : SFun) (k : Nat) (fmt : DWord) (a : List Nat) : (sfunSeries fn k fmt a).length = k + 1 := by
  have both := (sinCos_jets k fmt a).lengthSin
  rw [List.length_map] at both
  cases fn with
  | sinpi => rw [sfunSeries, List.length_map, both]
  | cospi => rw [sfunSeries, List.length_map, both]
  | tanh => rw [sfunSeries_z (.inl rfl), (zPair_jets .tanh k fmt a).lengthY]
  | sigm => rw [sfunSeries_z (.inr rfl), (zPair_jets .sigm k fmt a).lengthY]
  | rcp => exact length_sfunJet .rcp k fmt a
  | sqrt => exact length_sfunJet .sqrt k fmt a
  | rsqrt => exact length_sfunJet .rsqrt k fmt a
  | exp2 => exact length_sfunJet .exp2 k fmt a
  | log2 => exact length_sfunJet .log2 k fmt a

end Sys2Proof.NumberFormats

/-! ### Running `FRND` and the special functions (R74, R83, R167, R168) -/

namespace Sys2Proof.NumberFormats

open Sys2Proof Sys2Proof.Machine Sys2Proof.Safety Sys2Proof.Laws

theorem agree_orderOf {keep : Bool} {i : Nat} {g h : Group} (ag : agree keep i g h) (t : Ty) : orderOf t h = orderOf t g := by
  rw [Machine.orderOf, Machine.orderOf, agree_jord ag]

theorem orderOf_pos {t : Ty} {g : Group} (pos : orderOf t g ≠ 0) : t = .f32 := by
  by_contra other
  exact pos (if_neg (by rwa [beq_iff_eq]))

/-- The special function that an instruction computes (R168). -/
def specials (t : Ty) (x : Fields) : List (Instr × SFun) :=
  [(.rcp t x, .rcp), (.sqrt t x, .sqrt), (.rsqrt t x, .rsqrt), (.exp2 t x, .exp2), (.log2 t x, .log2), (.sinpi t x, .sinpi), (.cospi t x, .cospi),
    (.tanh t x, .tanh), (.sigm t x, .sigm)]

theorem exec_special {t : Ty} {x : Fields} {o : Instr} {fn : SFun} (h : (o, fn) ∈ specials t x) (s : State) : exec o s = runSfun fn t x s := by
  simp only [specials, List.mem_cons, Prod.mk.injEq, List.not_mem_nil, or_false] at h
  rcases h with ⟨rfl, rfl⟩ | ⟨rfl, rfl⟩ | ⟨rfl, rfl⟩ | ⟨rfl, rfl⟩ | ⟨rfl, rfl⟩ | ⟨rfl, rfl⟩ | ⟨rfl, rfl⟩ | ⟨rfl, rfl⟩ | ⟨rfl, rfl⟩ <;> rfl

/-- The coefficients of a special function at order `k` in strand `i`. -/
def sfunVal (fn : SFun) (t : Ty) (x : Fields) (k : Nat) (g : Group) (i : Nat) : List CoefRes :=
  if k = 0 then sfunElems fn t (orderOf t g) g.fmt (readJet g x i k x.a) else sfunSeries fn k g.fmt (readJet g x i k x.a)

theorem length_sfunElems (fn : SFun) (t : Ty) (kk : Nat) (fmt : DWord) (a : List Nat) : (sfunElems fn t kk fmt a).length = 1 := by
  rw [sfunElems]
  split
  · rfl
  · rw [List.length_map, length_elemwise]

theorem length_sfunVal (fn : SFun) (t : Ty) (x : Fields) (k : Nat) (g : Group) (i : Nat) : (sfunVal fn t x k g i).length = k + 1 := by
  rw [sfunVal]
  split
  · rw [length_sfunElems, ‹k = 0›]
  · exact length_sfunSeries ..

/-- The flags of the jet that `SINPI` or `COSPI` computes besides, at coefficient 0 (R83). -/
def otherFlags (fn : SFun) (k : Nat) (fmt : DWord) (v : FV) : Flags :=
  if k = 0 then 0
  else if fn = .sinpi then (flushOut fmt (stepF 0 fmt (sfun .cospi v))).2
  else if fn = .cospi then (flushOut fmt (stepF 0 fmt (sfun .sinpi v))).2
  else 0

theorem partnerFlags_eq {k : Nat} (pos : k ≠ 0) (fn : SFun) (fmt : DWord) (a : List Nat) : partnerFlags fn fmt a = otherFlags fn k fmt (cA fmt a 0) := by
  rw [otherFlags, if_neg pos]
  cases fn <;> rfl

/-- The one element of an FP32 word is the word. -/
theorem elemSrc_word (fmt : DWord) {w : Nat} (hw : w < 2 ^ 32) : elemSrc .f32 fmt w 0 = srcCoef fmt w := by
  have whole : elemAt .f32 w 0 = w := by
    rw [elemAt, Nat.mul_zero, pow_zero, Nat.div_one]
    exact Nat.mod_eq_of_lt hw
  rw [elemSrc, whole]
  rfl

theorem readJet_zero_lt (g : Group) (x : Fields) (i : Nat) (o : Opnd) : nth 0 (readJet g x i 0 o) 0 < 2 ^ 32 := by
  cases o with
  | v n => exact (vGet g i n.toNat).isLt
  | s n => exact (read32 g x i (.s n)).isLt
  | sp n => exact (read32 g x i (.sp n)).isLt
  | im n => exact (read32 g x i (.im n)).isLt

theorem sfunElems_eq (fn : SFun) (t : Ty) (x : Fields) (g : Group) (i : Nat) :
    sfunElems fn t (orderOf t g) g.fmt (readJet g x i 0 x.a) =
      (elemwise t (fun e => roundTy t 0 g.fmt (sfun fn (elemSrc t g.fmt (nth 0 (readJet g x i 0 x.a) 0) e)))).map
        (fun r => (r.1, r.2 ||| otherFlags fn (orderOf t g) g.fmt (elemSrc t g.fmt (nth 0 (readJet g x i 0 x.a) 0) 0))) := by
  rw [sfunElems]
  split
  · rename_i zero
    have none_ : ∀ v, otherFlags fn (orderOf t g) g.fmt v = 0 := fun v => if_pos zero
    simp only [none_, BitVec.ofNat_eq_ofNat, BitVec.or_zero, Prod.mk.eta, List.map_id']
    rfl
  · rename_i pos
    have word : elemSrc t g.fmt (nth 0 (readJet g x i 0 x.a) 0) 0 = cA g.fmt (readJet g x i 0 x.a) 0 := by
      rw [orderOf_pos pos, elemSrc_word _ (readJet_zero_lt g x i x.a), cA]
    rw [partnerFlags_eq pos, word]
    rfl

section
variable {t : Ty} {x : Fields} {s : State} (checks : orderFmtOk t s.g true) (ok : okF1 t x s.g = true)
include checks ok

theorem frnd_yields (read : readable s.g x [fReads 0 x.a]) :
    yields (.frnd t x) t x s (fun i => elemwise t (fun e => rndElem t x.md.toNat (elemSrc t s.g.fmt (nth 0 (readJet s.g x i 0 x.a) 0) e)) ++
      List.replicate (orderAt t s.g x) (0, 0)) := by
  obtain ⟨d, a, rd, -⟩ := okF1_parts ok
  exact yields_of_runFloat (o := .frnd t x) (val := fun k g i =>
      elemwise t (fun e => rndElem t x.md.toNat (elemSrc t g.fmt (nth 0 (readJet g x i 0 x.a) 0) e)) ++ List.replicate k (0, 0)) rfl
    ⟨ok, orderOk_of checks, by rw [checks.2 rfl]; rfl⟩ d rd
    (fun k g i => by rw [List.length_append, length_elemwise, List.length_replicate, Nat.add_comm])
    (fun _ g h i ag => by simp only [agree_fmt ag, agree_readJet_zero ag x x.a])
    (fun hu i => by simp only [readJet_uni a hu s.g i]) read

theorem special_yields {o : Instr} {fn : SFun} (h : (o, fn) ∈ specials t x) (read : readable s.g x [fReads (orderOf t s.g) x.a]) :
    yields o t x s (sfunVal fn t x (orderAt t s.g x) s.g) := by
  obtain ⟨d, a, rd, ra⟩ := okF1_parts ok
  exact yields_of_runFloat (val := sfunVal fn t x) (exec_special h s) ⟨ok, orderOk_of checks, by rw [checks.2 rfl]; rfl⟩ d rd
    (fun k g i => length_sfunVal fn t x k g i)
    (fun _ g h i ag => by simp only [sfunVal, agree_fmt ag, agree_orderOf ag, agree_readJet ag x (jet_fits (orderOf_lt t s.g) ra)])
    (fun hu i => by simp only [sfunVal, readJet_uni a hu s.g i]) read

/-- A special function of elements, or with `U` = 1 of coefficient 0 (R74, R83). -/
theorem special_elements {o : Instr} {fn : SFun} (h : (o, fn) ∈ specials t x) (zero : orderAt t s.g x = 0)
    (read : readable s.g x [fReads (orderOf t s.g) x.a]) :
    yields o t x s (fun i =>
      (elemwise t (fun e => roundTy t 0 s.g.fmt (sfun fn (elemSrc t s.g.fmt (nth 0 (readJet s.g x i 0 x.a) 0) e)))).map
        (fun r => (r.1, r.2 ||| otherFlags fn (orderOf t s.g) s.g.fmt (elemSrc t s.g.fmt (nth 0 (readJet s.g x i 0 x.a) 0) 0)))) := by
  have y := special_yields checks ok h read
  have elements : sfunVal fn t x 0 s.g = _ := funext fun i => (if_pos rfl).trans (sfunElems_eq fn t x s.g i)
  rwa [zero, elements] at y

/-- A special function of jets. -/
theorem special_jets {o : Instr} {fn : SFun} (h : (o, fn) ∈ specials t x) {k : Nat} (order : orderAt t s.g x = k) (pos : k ≠ 0)
    (read : readable s.g x [fReads (orderOf t s.g) x.a]) :
    yields o t x s (fun i => sfunSeries fn k s.g.fmt (readJet s.g x i k x.a)) := by
  have y := special_yields checks ok h read
  have series : sfunVal fn t x k s.g = fun i => sfunSeries fn k s.g.fmt (readJet s.g x i k x.a) := funext fun i => if_neg pos
  rwa [order, series] at y

end

/-- Rounding to an integral value, by the kind of the element (R167). -/
theorem rndElem_cases (t : Ty) (m : Nat) (v : FV) :
    (rndElem t m v).2 = v.2 ∧ (v.1 = .nan → (rndElem t m v).1 = canonNaN (fmtOf t)) ∧ (∀ neg, v.1 = .inf neg → (rndElem t m v).1 = infBits (fmtOf t) neg) ∧
    (∀ neg n d q, v.1 = .num neg n d q → (rndElem t m v).1 = (roundFV (fmtOf t) 0 false false (.num neg (roundAt m neg n d q 0).1 1 0, 0)).1) := by
  obtain ⟨e, fl⟩ := v
  refine ⟨by cases e <;> rfl, ?_, ?_, ?_⟩
  · rintro rfl
    rfl
  · rintro neg rfl
    rfl
  · rintro neg n d q rfl
    rfl

end Sys2Proof.NumberFormats

/-! ### Values of the special functions: special operands, exact results and roots (R29) -/

namespace Sys2Proof.NumberFormats

open Sys2Proof Sys2Proof.Machine Sys2Proof.Safety Sys2Proof.Laws

/-! #### Special operands -/

section
variable {fn : SFun} {neg : Bool} {v : Ex}

theorem sfun_zero (h : sfunZero fn neg = (v, 0)) (fl : Flags) (q : Int) : sfun fn (.num neg 0 1 q, fl) = (v, fl) := by
  simp [sfun, h]

theorem sfun_zero_flag {f : Flags} (h : sfunZero fn neg = (v, f)) (fl : Flags) (q : Int) : sfun fn (.num neg 0 1 q, fl) = (v, fl ||| f) := by
  simp [sfun, h]

theorem sfun_inf (h : sfunInf fn neg = (v, 0)) (fl : Flags) : sfun fn (.inf neg, fl) = (v, fl) := by
  simp [sfun, h]

theorem sfun_inf_invalid (h : sfunInf fn neg = (.nan, flagInvalid)) (fl : Flags) : sfun fn (.inf neg, fl) = (.nan, fl ||| flagInvalid) := by
  simp [sfun, h]

theorem sfun_num {n : Nat} {q : Int} (hn : n ≠ 0) (h : sfunNum fn neg n q = (v, 0)) (fl : Flags) : sfun fn (.num neg n 1 q, fl) = (v, fl) := by
  simp [sfun, h, hn]

/-- A negative number has no root and no logarithm. -/
theorem sfun_negative {n : Nat} (hn : n ≠ 0) (h : fn = .sqrt ∨ fn = .rsqrt ∨ fn = .log2) (fl : Flags) (q : Int) :
    sfun fn (.num true n 1 q, fl) = (.nan, fl ||| flagInvalid) := by
  rcases h with rfl | rfl | rfl <;> simp [sfun, sfunNum, hn]

/-- A function with no value at negative infinity. -/
theorem sfun_inf_sign {w : Ex} (hneg : sfunInf fn true = (.nan, flagInvalid)) (hpos : sfunInf fn false = (w, 0)) (neg : Bool) (fl : Flags) :
    sfun fn (.inf neg, fl) = if neg then (.nan, fl ||| flagInvalid) else (w, fl) := by
  cases neg with
  | true => exact sfun_inf_invalid hneg fl
  | false => exact sfun_inf hpos fl

end

/-! #### Numbers in fixed point -/

/-- A dyadic number in fixed point, where it is exact. -/
theorem toFix_eq {n N : Nat} {e : Int} (h : mag n 1 e * (2 : Rat) ^ fixBits = N) : toFix n e = N := by
  obtain ⟨pos, ratio⟩ := scaled_ratio one_ne_zero n e (-(fixBits : Nat))
  have den : ((scaled n 1 e (-(fixBits : Nat))).2 : Rat) ≠ 0 := Nat.cast_ne_zero.mpr pos
  rw [mag_shift, zpow_neg, zpow_natCast, div_inv_eq_mul, h, div_eq_iff den] at ratio
  have whole : (scaled n 1 e (-(fixBits : Nat))).1 = N * (scaled n 1 e (-(fixBits : Nat))).2 := by exact_mod_cast ratio
  change (scaled n 1 e (-(fixBits : Nat))).1 / (scaled n 1 e (-(fixBits : Nat))).2 = N
  rw [whole, Nat.mul_div_cancel _ (Nat.pos_of_ne_zero pos)]

theorem mag_den_one (n : Nat) (e : Int) : mag n 1 e = (n : Rat) * (2 : Rat) ^ e := by
  rw [mag, Nat.cast_one, div_one]

theorem fixOne_pos : 0 < fixOne := Nat.two_pow_pos _

theorem toFix_nat {n c : Nat} {e : Int} (h : (n : Rat) * (2 : Rat) ^ e = c) : toFix n e = c * fixOne := by
  refine toFix_eq ?_
  rw [mag_den_one, h, fixOne, Nat.cast_mul, Nat.cast_pow, Nat.cast_ofNat]

/-- Half of one in fixed point. -/
def fixHalf : Nat := 2 ^ (fixBits - 1)

theorem fixOne_eq : fixOne = 2 * fixHalf := by
  rw [fixOne, fixHalf, ← pow_succ', Nat.sub_add_cancel (by decide : 1 ≤ fixBits)]

theorem fixOne_half : fixOne / 2 = fixHalf := by
  rw [fixOne_eq, Nat.mul_div_cancel_left _ two_pos]

theorem fixHalf_pos : 0 < fixHalf := Nat.two_pow_pos _

theorem toFix_halves {n c : Nat} {e : Int} (h : (n : Rat) * (2 : Rat) ^ e = c / 2) : toFix n e = c * fixHalf := by
  have half : (2 : Rat) ^ fixBits = 2 * (fixHalf : Rat) := by
    have whole : 2 ^ fixBits = 2 * fixHalf := fixOne_eq
    exact_mod_cast whole
  refine toFix_eq ?_
  rw [mag_den_one, h, half, Nat.cast_mul]
  ring

/-! #### `exp2` of integers -/

theorem exp2Ex_int {n c : Nat} {q : Int} (h : (n : Rat) * (2 : Rat) ^ q = c) (small : c < 300) (neg : Bool) :
    exp2Ex neg n q = .num false 1 1 (if neg then -(c : Int) else (c : Int)) := by
  have below : ¬ 300 * fixOne ≤ c * fixOne := fun le => by
    have := Nat.le_of_mul_le_mul_right le fixOne_pos
    omega
  rw [exp2Ex, toFix_nat h, Nat.mul_mod_left, Nat.mul_div_cancel _ fixOne_pos, if_neg below]
  cases neg <;> rfl

/-! #### `log2` of powers of two -/

theorem mag_pow_two (j : Nat) (q : Int) : mag (2 ^ j) 1 q = (2 : Rat) ^ (q + j) := by
  rw [mag_den_one, Nat.cast_pow, Nat.cast_ofNat, ← zpow_natCast, ← zpow_add₀ two_ne_zero, add_comm]

theorem log2Ex_pow (j : Nat) (q : Int) : log2Ex (2 ^ j) q = .num (decide (q + j < 0)) (q + j).natAbs 1 0 := by
  have exponent : floorLog (2 ^ j) 1 q = q + j := by
    refine floorLog_eq (by positivity) one_ne_zero (mag_pow_two j q).ge ?_
    rw [mag_pow_two, two_zpow_lt]
    omega
  have mantissa : toFix (2 ^ j) (q - (q + j)) = fixOne := by
    have one : ((2 ^ j : Nat) : Rat) * (2 : Rat) ^ (q - (q + j)) = (1 : Nat) := by
      rw [← mag_den_one, mag_pow_two, sub_add_eq_add_sub, sub_self, zpow_zero, Nat.cast_one]
    rw [toFix_nat one, one_mul]
  simp only [log2Ex, exponent, mantissa, if_true]

/-! #### `sinpi` and `cospi` of integers and half-integers -/

/-- The sine at the multiples of a quarter turn. -/
theorem sinPiOf_halves (h : Nat) : sinPiOf (h % 4 * fixHalf) = (decide (2 ≤ h % 4), if h % 2 = 0 then 0 else fixOne, true) := by
  have even : h % 2 = h % 4 % 2 := by omega
  have lt : h % 4 < 4 := Nat.mod_lt _ (by decide)
  have pos := fixHalf_pos
  rw [even, sinPiOf, fixOne_eq]
  generalize fixHalf = w at pos ⊢
  interval_cases h % 4
  · simp [pos.ne']
  · simp [pos.ne', show ¬ 2 * w ≤ w by omega]
  · simp
  · simp [pos.ne', show 2 * w ≤ 3 * w by omega, show 3 * w - 2 * w = w by omega]

theorem quarter_turns (h : Nat) : h * fixHalf % (2 * fixOne) = h % 4 * fixHalf := by
  have whole : 2 * fixOne = 4 * fixHalf := by rw [fixOne_eq, ← Nat.mul_assoc]
  rw [whole, Nat.mul_mod_mul_right]

/-- The cosine from the sine a quarter turn later: its sign, its magnitude, and whether it is exact. -/
def cosineOf (r : Bool × Nat × Bool) : Ex :=
  if r.2.2 then (if r.2.1 = 0 then .num false 0 1 0 else .num r.1 1 1 0) else sticky r.1 r.2.1

/-- The equation of `cospiEx` is taken from its body before it is applied: the kernel would compute the fixed-point numbers of the
applied one in unary. -/
theorem cospiEx_eq {n : Nat} {q : Int} {r : Bool × Nat × Bool} (turn : sinPiOf ((toFix n q % (2 * fixOne) + fixOne / 2) % (2 * fixOne)) = r) :
    cospiEx n q = cosineOf r := by
  obtain ⟨cosine, body⟩ : ∃ cosine, cosine = cospiEx := ⟨_, rfl⟩
  rw [← body]
  delta cospiEx at body
  rw [congrFun (congrFun body n) q, turn]
  rfl

section
variable {n h : Nat} {q : Int} (hv : (n : Rat) * (2 : Rat) ^ q = h / 2)
include hv

theorem sinpiEx_halves (neg : Bool) :
    sinpiEx neg n q = if h % 2 = 0 then .num neg 0 1 0 else .num (neg != decide (2 ≤ h % 4)) 1 1 0 := by
  have turn : sinPiOf (toFix n q % (2 * fixOne)) = (decide (2 ≤ h % 4), if h % 2 = 0 then 0 else fixOne, true) := by
    rw [toFix_halves hv, quarter_turns, sinPiOf_halves]
  rw [sinpiEx, turn]
  dsimp only
  rw [if_pos rfl]
  by_cases even : h % 2 = 0
  · rw [if_pos even, if_pos even, if_pos rfl]
  · rw [if_neg even, if_neg even, if_neg fixOne_pos.ne']

theorem cospiEx_halves :
    cospiEx n q = if (h + 1) % 2 = 0 then .num false 0 1 0 else .num (decide (2 ≤ (h + 1) % 4)) 1 1 0 := by
  have turn : sinPiOf ((toFix n q % (2 * fixOne) + fixOne / 2) % (2 * fixOne)) =
      (decide (2 ≤ (h + 1) % 4), if (h + 1) % 2 = 0 then 0 else fixOne, true) := by
    rw [toFix_halves hv, Nat.mod_add_mod, fixOne_half, ← Nat.succ_mul, quarter_turns, sinPiOf_halves]
  rw [cospiEx_eq turn, cosineOf, if_pos rfl]
  by_cases even : (h + 1) % 2 = 0
  · rw [if_pos even, if_pos even, if_pos rfl]
  · rw [if_neg even, if_neg even, if_neg fixOne_pos.ne']

end

section
variable {n c : Nat} {q : Int}

theorem sinpi_cospi_int (h : (n : Rat) * (2 : Rat) ^ q = c) (neg : Bool) :
    sinpiEx neg n q = .num neg 0 1 0 ∧ cospiEx n q = .num (decide (c % 2 = 1)) 1 1 0 := by
  have halves : (n : Rat) * (2 : Rat) ^ q = (2 * c : Nat) / 2 := by
    rw [h]
    push_cast
    ring
  have odd : decide (2 ≤ (2 * c + 1) % 4) = decide (c % 2 = 1) := decide_eq_decide.mpr (by omega)
  rw [sinpiEx_halves halves, cospiEx_halves halves, if_pos (by omega), if_neg (by omega), odd]
  exact ⟨rfl, rfl⟩

theorem sinpi_cospi_half (h : (n : Rat) * (2 : Rat) ^ q = c + 1 / 2) (neg : Bool) :
    sinpiEx neg n q = .num (neg != decide (c % 2 = 1)) 1 1 0 ∧ cospiEx n q = .num false 0 1 0 := by
  have halves : (n : Rat) * (2 : Rat) ^ q = (2 * c + 1 : Nat) / 2 := by
    rw [h]
    push_cast
    ring
  have odd : decide (2 ≤ (2 * c + 1) % 4) = decide (c % 2 = 1) := decide_eq_decide.mpr (by omega)
  rw [sinpiEx_halves halves, cospiEx_halves halves, if_neg (by omega), if_pos (by omega), odd]
  exact ⟨rfl, rfl⟩

end

/-! #### Roots -/

theorem isqrt_eq_sqrt (n k r : Nat) (lo : r * r ≤ n) (hi : n < (r + 2 ^ k) * (r + 2 ^ k)) : isqrt n k r = n.sqrt := by
  induction k generalizing r with
  | zero => exact Nat.eq_sqrt.mpr ⟨lo, hi⟩
  | succ k ih =>
    rw [isqrt]
    split
    · refine ih _ ‹_› ?_
      rwa [add_assoc, ← Nat.two_mul, ← Nat.pow_succ']
    · exact ih r lo (Nat.lt_of_not_le ‹_›)

theorem isqrt_zero {n k : Nat} (h : n < 2 ^ k * 2 ^ k) : isqrt n k 0 = n.sqrt := isqrt_eq_sqrt n k 0 (Nat.zero_le n) (by rwa [Nat.zero_add])

/-- A number lies on the same side of `root` as of the square root of `w`. -/
def Separates (w root c : Rat) : Prop := (c * c ≤ w ↔ c ≤ root) ∧ (w ≤ c * c ↔ root ≤ c)

/-- Every number of up to 64 bits lies on the same side of `root` as of the square root of `w`. -/
def SameSide (w root : Rat) : Prop := ∀ (b : Nat) (l : Int), b < 2 ^ 64 → Separates w root ((b : Rat) * (2 : Rat) ^ l)

/-- In units of 2^h a number of up to 64 bits is a whole number or less than 2^64. -/
theorem short_of_units {b r : Nat} (hb : b < 2 ^ 64) (hr : 2 ^ 64 ≤ r) (i : Int) :
    (b : Rat) * (2 : Rat) ^ i ≤ r ∨ (r : Rat) + 1 ≤ (b : Rat) * (2 : Rat) ^ i := by
  rcases le_total 0 i with pos | neg
  · obtain ⟨m, rfl⟩ := Int.eq_ofNat_of_zero_le pos
    rw [zpow_natCast]
    exact_mod_cast le_or_gt (b * 2 ^ m) r
  · left
    calc (b : Rat) * (2 : Rat) ^ i ≤ b * 1 := by gcongr; exact zpow_le_one_of_nonpos₀ one_le_two neg
      _ ≤ r := by rw [mul_one]; exact_mod_cast (hb.trans_le hr).le

theorem Separates.scale {w root c u : Rat} (h : Separates w root c) (hu : 0 < u) : Separates (w * (u * u)) (root * u) (c * u) := by
  rw [Separates, mul_mul_mul_comm, mul_le_mul_iff_left₀ (mul_pos hu hu), mul_le_mul_iff_left₀ (mul_pos hu hu), mul_le_mul_iff_left₀ hu,
    mul_le_mul_iff_left₀ hu]
  exact h

theorem SameSide.scale {w root : Rat} (h : SameSide w root) (k : Int) : SameSide (w * ((2 : Rat) ^ k * (2 : Rat) ^ k)) (root * (2 : Rat) ^ k) := by
  intro b l hb
  have units : (b : Rat) * (2 : Rat) ^ l = (b : Rat) * (2 : Rat) ^ (l - k) * (2 : Rat) ^ k := by
    rw [mul_assoc, ← zpow_add₀ two_ne_zero, sub_add_cancel]
  rw [units]
  exact (h b (l - k) hb).scale (zpow_pos two_pos k)

theorem sameSide_square (r : Nat) : SameSide ((r : Rat) * r) r := by
  intro b l _
  have number : (0 : Rat) ≤ (b : Rat) * (2 : Rat) ^ l := by positivity
  have root : (0 : Rat) ≤ (r : Rat) := Nat.cast_nonneg r
  exact ⟨(mul_self_le_mul_self_iff number root).symm, (mul_self_le_mul_self_iff root number).symm⟩

/-- A root between two whole numbers of at least 64 bits, taken as the middle between them. -/
theorem sameSide_between {r : Nat} {w : Rat} (hr : 2 ^ 64 ≤ r) (lo : (r : Rat) * r < w) (hi : w < ((r : Rat) + 1) * ((r : Rat) + 1)) :
    SameSide w ((r : Rat) + 1 / 2) := by
  intro b l hb
  have c : (0 : Rat) ≤ (b : Rat) * (2 : Rat) ^ l := by positivity
  rcases short_of_units hb hr l with le | ge
  · have square := (mul_self_le_mul_self c le).trans_lt lo
    have self : (b : Rat) * (2 : Rat) ^ l < (r : Rat) + 1 / 2 := le.trans_lt (by linarith)
    exact ⟨iff_of_true square.le self.le, iff_of_false square.not_ge self.not_ge⟩
  · have square := hi.trans_le (mul_self_le_mul_self (by positivity) ge)
    have self : (r : Rat) + 1 / 2 < (b : Rat) * (2 : Rat) ^ l := lt_of_lt_of_le (by linarith) ge
    exact ⟨iff_of_false square.not_ge self.not_ge, iff_of_true square.le self.le⟩

/-- The scaling of a root: an even distance to the exponent, and enough bits. -/
def rootShift (d : Nat) (e : Int) : Nat := 2 * (200 + d.log2) + (if e % 2 = 0 then 0 else 1)

/-- The significand of a root, rounded down. -/
def rootFloor (n d : Nat) (e : Int) : Nat := (n * 2 ^ rootShift d e / d).sqrt

theorem rootShift_even (d : Nat) (e : Int) : (e - rootShift d e) / 2 + (e - rootShift d e) / 2 = e - rootShift d e := by
  rw [rootShift]
  split <;> push_cast <;> omega

theorem rootEx_eq (n d : Nat) (e : Int) : rootEx n d e =
    if rootFloor n d e * rootFloor n d e * d = n * 2 ^ rootShift d e then .num false (rootFloor n d e) 1 ((e - rootShift d e) / 2)
    else .num false (2 * rootFloor n d e + 1) 1 ((e - rootShift d e) / 2 - 1) := by
  have shift : 2 * ((200 + Nat.log2 d : Nat) : Int) + (if e % 2 = 0 then 0 else 1) = (rootShift d e : Nat) := by
    rw [rootShift]
    split <;> push_cast <;> rfl
  have size : ∀ q : Nat, q < 2 ^ (q.log2 / 2 + 1) * 2 ^ (q.log2 / 2 + 1) := fun q => by
    rw [← pow_add]
    exact Nat.lt_log2_self.trans_le (Nat.pow_le_pow_right two_pos (by omega))
  simp only [rootEx, shift, Int.toNat_natCast, isqrt_zero (size _)]
  rfl

theorem two_pow_le_rootFloor {n d : Nat} (hn : n ≠ 0) (hd : d ≠ 0) (e : Int) : 2 ^ 64 ≤ rootFloor n d e := by
  rw [rootFloor, Nat.le_sqrt, Nat.le_div_iff_mul_le (Nat.pos_of_ne_zero hd)]
  have bits : d ≤ 2 ^ (d.log2 + 1) := Nat.lt_log2_self.le
  calc 2 ^ 64 * 2 ^ 64 * d ≤ 2 ^ 64 * 2 ^ 64 * 2 ^ (d.log2 + 1) := Nat.mul_le_mul_left _ bits
    _ = 2 ^ (64 + 64 + (d.log2 + 1)) := by rw [pow_add 2 (64 + 64), pow_add 2 64]
    _ ≤ 2 ^ rootShift d e := Nat.pow_le_pow_right two_pos (by rw [rootShift]; omega)
    _ ≤ n * 2 ^ rootShift d e := Nat.le_mul_of_pos_left _ (Nat.pos_of_ne_zero hn)

/-- A magnitude as the square that its root is taken of. -/
theorem mag_eq_rootSquare (n d : Nat) (e : Int) : mag n d e =
    ((n * 2 ^ rootShift d e : Nat) : Rat) / d * ((2 : Rat) ^ ((e - rootShift d e) / 2) * (2 : Rat) ^ ((e - rootShift d e) / 2)) := by
  rw [← zpow_add₀ two_ne_zero, rootShift_even, zpow_sub₀ two_ne_zero, zpow_natCast, mag]
  push_cast
  field_simp

/-- A root, exact or marked as lying between two numbers, is on the side of every short number on which the exact root lies. -/
theorem rootEx_sameSide {n d : Nat} (hn : n ≠ 0) (hd : d ≠ 0) (e : Int) : ∃ root, exVal (rootEx n d e) = some root ∧ SameSide (mag n d e) root := by
  have den : (0 : Rat) < d := Nat.cast_pos.mpr (Nat.pos_of_ne_zero hd)
  rw [mag_eq_rootSquare, rootEx_eq]
  split
  · rename_i whole
    refine ⟨_, exVal_num _ _ _ _, ?_⟩
    have square : ((n * 2 ^ rootShift d e : Nat) : Rat) / d = (rootFloor n d e : Rat) * rootFloor n d e := by
      rw [div_eq_iff den.ne']
      exact_mod_cast whole.symm
    rw [square, mag_den_one, signRat, if_neg Bool.false_ne_true, one_mul]
    exact (sameSide_square _).scale _
  · rename_i part
    refine ⟨_, exVal_num _ _ _ _, ?_⟩
    have floor : rootFloor n d e * rootFloor n d e ≤ n * 2 ^ rootShift d e / d := Nat.sqrt_le _
    rw [Nat.le_div_iff_mul_le (Nat.pos_of_ne_zero hd)] at floor
    have ceil : n * 2 ^ rootShift d e / d < (rootFloor n d e + 1) * (rootFloor n d e + 1) := Nat.lt_succ_sqrt _
    rw [Nat.div_lt_iff_lt_mul (Nat.pos_of_ne_zero hd)] at ceil
    have below : (rootFloor n d e : Rat) * rootFloor n d e < ((n * 2 ^ rootShift d e : Nat) : Rat) / d := by
      rw [lt_div_iff₀ den]
      exact_mod_cast lt_of_le_of_ne floor part
    have above : ((n * 2 ^ rootShift d e : Nat) : Rat) / d < ((rootFloor n d e : Rat) + 1) * ((rootFloor n d e : Rat) + 1) := by
      rw [div_lt_iff₀ den]
      exact_mod_cast ceil
    have middle : signRat false * mag (2 * rootFloor n d e + 1) 1 ((e - rootShift d e) / 2 - 1) =
        ((rootFloor n d e : Rat) + 1 / 2) * (2 : Rat) ^ ((e - rootShift d e) / 2) := by
      rw [mag_den_one, signRat, if_neg Bool.false_ne_true, one_mul, zpow_sub_one₀ two_ne_zero]
      push_cast
      ring
    rw [middle]
    exact (sameSide_between (two_pow_le_rootFloor hn hd e) below above).scale _

/-! #### The functions of numbers -/

theorem sfun_log2_pow (fl : Flags) (j : Nat) (q : Int) :
    sfun .log2 (.num false (2 ^ j) 1 q, fl) = (.num (decide (q + j < 0)) (q + j).natAbs 1 0, fl) := by
  refine sfun_num (by positivity) ?_ fl
  rw [sfunNum, log2Ex_pow]
  rfl

section
variable {n : Nat} {q : Int} (hn : n ≠ 0) (fl : Flags)
include hn

/-- The square root and its reciprocal. -/
theorem sfun_root {fn : SFun} {w : Rat} (h : (fn, w) = (.sqrt, (n : Rat) * (2 : Rat) ^ q) ∨ (fn, w) = (.rsqrt, ((n : Rat) * (2 : Rat) ^ q)⁻¹)) :
    ∃ (r : Ex) (root : Rat), sfun fn (.num false n 1 q, fl) = (r, fl) ∧ exVal r = some root ∧ SameSide w root := by
  rcases h with h | h
  · obtain ⟨rfl, rfl⟩ := Prod.mk.inj h
    obtain ⟨root, val, side⟩ := rootEx_sameSide hn one_ne_zero q
    rw [mag_den_one] at side
    exact ⟨_, root, sfun_num hn rfl fl, val, side⟩
  · obtain ⟨rfl, rfl⟩ := Prod.mk.inj h
    obtain ⟨root, val, side⟩ := rootEx_sameSide one_ne_zero hn (-q)
    have inverse : mag 1 n (-q) = ((n : Rat) * (2 : Rat) ^ q)⁻¹ := by rw [mag, Nat.cast_one, one_div, zpow_neg, ← mul_inv]
    rw [inverse] at side
    exact ⟨_, root, sfun_num hn rfl fl, val, side⟩

theorem sfun_exp2_int {c : Nat} (hc : (n : Rat) * (2 : Rat) ^ q = c) (small : c < 300) (neg : Bool) :
    sfun .exp2 (.num neg n 1 q, fl) = (.num false 1 1 (if neg then -(c : Int) else (c : Int)), fl) :=
  sfun_num hn (by rw [sfunNum, exp2Ex_int hc small]) fl

theorem sfun_turns_int {c : Nat} (hc : (n : Rat) * (2 : Rat) ^ q = c) (neg : Bool) :
    sfun .sinpi (.num neg n 1 q, fl) = (.num neg 0 1 0, fl) ∧ sfun .cospi (.num neg n 1 q, fl) = (.num (decide (c % 2 = 1)) 1 1 0, fl) :=
  ⟨sfun_num hn (by rw [sfunNum, (sinpi_cospi_int hc neg).1]) fl, sfun_num hn (by rw [sfunNum, (sinpi_cospi_int hc neg).2]) fl⟩

theorem sfun_turns_half {c : Nat} (hc : (n : Rat) * (2 : Rat) ^ q = c + 1 / 2) (neg : Bool) :
    sfun .sinpi (.num neg n 1 q, fl) = (.num (neg != decide (c % 2 = 1)) 1 1 0, fl) ∧ sfun .cospi (.num neg n 1 q, fl) = (.num false 0 1 0, fl) :=
  ⟨sfun_num hn (by rw [sfunNum, (sinpi_cospi_half hc neg).1]) fl, sfun_num hn (by rw [sfunNum, (sinpi_cospi_half hc neg).2]) fl⟩

end

end Sys2Proof.NumberFormats

/-! ### `FRND` and the special functions: the jets of each, and O18 -/

namespace Sys2Proof.NumberFormats

open Sys2Proof Sys2Proof.Machine Sys2Proof.Safety Sys2Proof.Laws

/-! #### Jets -/

/-- Sine or cosine, with the flags of both (R83). -/
theorem sinCos_series {x : Fields} {o : Instr} (h : o = .sinpi .f32 x ∨ o = .cospi .f32 x) : ∃ fn, (o, fn) ∈ specials .f32 x ∧ ∀ k fmt a,
    sfunSeries fn k fmt a = List.zipWith (fun r r' => (if o = .sinpi .f32 x then r.1 else r'.1, r.2 ||| r'.2))
      ((sinCos k fmt a).map Prod.fst) ((sinCos k fmt a).map Prod.snd) := by
  rcases h with rfl | rfl
  · refine ⟨.sinpi, by simp [specials], fun k fmt a => ?_⟩
    simp only [if_true]
    exact map_pairs (fun r r' : CoefRes => ((r.1, r.2 ||| r'.2) : CoefRes)) _
  · refine ⟨.cospi, by simp [specials], fun k fmt a => ?_⟩
    simp only [reduceCtorEq, if_false]
    exact map_pairs (fun r r' : CoefRes => ((r'.1, r.2 ||| r'.2) : CoefRes)) _

section
variable {x : Fields} {s : State} {k : Nat} (checks : orderFmtOk .f32 s.g true) (ok : okF1 .f32 x s.g = true) (order : orderAt .f32 s.g x = k) (pos : k ≠ 0)
  (read : readable s.g x [fReads (orderOf .f32 s.g) x.a])
include checks ok order pos read

/-- A function of R82: each coefficient from those below it. -/
theorem special_series {o : Instr} {fn : SFun} (mem : (o, fn) ∈ specials .f32 x) (series : sfunSeries fn = sfunJet fn) :
    ∃ y, yields o .f32 x s y ∧ ∀ i, (y i).length = k + 1 ∧ nth (0, 0) (y i) 0 = first fn s.g.fmt (readJet s.g x i k x.a) ∧
      ∀ j, 0 < j → j ≤ k → nth (0, 0) (y i) j = series82 fn s.g.fmt (readJet s.g x i k x.a) j (y i) := by
  have y := special_jets checks ok mem order pos read
  rw [series] at y
  exact ⟨_, y, fun i => ⟨length_sfunJet .., nth_sfunJet_zero .., fun j lo hi => nth_sfunJet lo hi _ _⟩⟩

theorem special_sinCos {o : Instr} (h : o = .sinpi .f32 x ∨ o = .cospi .f32 x) : ∃ p q : Nat → List CoefRes,
    yields o .f32 x s (fun i => List.zipWith (fun r r' => (if o = .sinpi .f32 x then r.1 else r'.1, r.2 ||| r'.2)) (p i) (q i)) ∧
    ∀ i, SinCosJets s.g.fmt (readJet s.g x i k x.a) k (p i) (q i) := by
  obtain ⟨fn, mem, series⟩ := sinCos_series h
  have y := special_jets checks ok mem order pos read
  simp only [series] at y
  exact ⟨_, _, y, fun i => sinCos_jets _ _ _⟩

theorem special_z {o : Instr} {fn : SFun} (h : (o, fn) = (.tanh .f32 x, .tanh) ∨ (o, fn) = (.sigm .f32 x, .sigm)) :
    ∃ y z : Nat → List CoefRes, yields o .f32 x s y ∧ ∀ i, ZJets fn s.g.fmt (readJet s.g x i k x.a) k (y i) (z i) := by
  have mem : (o, fn) ∈ specials .f32 x := by
    rcases h with h | h <;> simp [h, specials]
  have y := special_jets checks ok mem order pos read
  simp only [sfunSeries_z (h.imp (congrArg Prod.snd) (congrArg Prod.snd))] at y
  exact ⟨_, _, y, fun i => zPair_jets _ _ _ _⟩

end

/-! #### The statement -/

/-- Settles O18: a function of elements is rounded once, a function of jets is built coefficient by coefficient, and the values at special
operands, integers and powers of two are those that the fixed-point evaluation finds exactly. -/
theorem floatFunctions : Obligations.FloatFunctions := by
  refine ⟨fun ty x s checks ok => ⟨fun _ read => ⟨_, frnd_yields checks ok read, fun i e => rndElem_cases ty _ _⟩,
    fun zero read o fn mem _ => special_elements checks ok mem zero read⟩, ?_, ?_⟩
  · intro x s hu hjord hfmt ok k fmt read a zeroth coefs prod
    have checks : orderFmtOk .f32 s.g true := ⟨.inl rfl, fun _ => hfmt⟩
    have order : orderAt .f32 s.g x = k := orderAt_jet hu s.g
    have pos : k ≠ 0 := jord_ne_zero.mpr hjord
    have series {o fn} := special_series checks ok order pos read (o := o) (fn := fn)
    refine ⟨fun _ => series (by simp [specials]) rfl, fun _ => series (by simp [specials]) rfl, fun _ => series (by simp [specials]) rfl,
      fun _ => series (by simp [specials]) rfl, fun _ => series (by simp [specials]) rfl, fun o ho _ => ?_, fun o fn h _ => ?_⟩
    · obtain ⟨p, q, y, both⟩ := special_sinCos checks ok order pos read ho
      exact ⟨p, q, y, fun i => ⟨(both i).lengthSin, (both i).lengthCos, (both i).zeroSin, (both i).zeroCos,
        fun j lo hi => ⟨(both i).nextSin j lo hi, (both i).nextCos j lo hi⟩⟩⟩
    · obtain ⟨y, z, run, jets⟩ := special_z checks ok order pos read h
      exact ⟨y, z, run, fun i => ⟨(jets i).lengthY, (jets i).lengthZ, (jets i).zero, (jets i).nextZ, (jets i).nextY⟩⟩
  · intro fl neg q zero infinite invalid
    have exp2_inf : sfun .exp2 infinite = (if neg then .num false 0 1 0 else .inf false, fl) := by
      refine sfun_inf ?_ fl
      cases neg <;> rfl
    have sigm_inf : sfun .sigm infinite = (.num false (if neg then 0 else 1) 1 0, fl) := by
      refine sfun_inf ?_ fl
      cases neg <;> rfl
    refine ⟨fun _ => rfl, sfun_zero_flag rfl fl q, sfun_inf rfl fl, sfun_zero rfl fl q, sfun_inf_sign rfl rfl neg fl,
      sfun_zero_flag rfl fl q, sfun_inf_sign rfl rfl neg fl, sfun_zero rfl fl q, exp2_inf, sfun_zero_flag rfl fl q, sfun_inf_sign rfl rfl neg fl,
      sfun_zero rfl fl q, sfun_inf_invalid rfl fl, sfun_zero rfl fl q, sfun_inf_invalid rfl fl, sfun_zero rfl fl q, sfun_inf rfl fl,
      sfun_zero rfl fl q, sigm_inf, fun j => sfun_log2_pow fl j q, fun n hn => ?_⟩
    exact ⟨sfun_num hn rfl fl, fun fn h => sfun_negative hn h fl q, fun fn w h => sfun_root hn fl h,
      fun c hc => ⟨fun small => sfun_exp2_int hn fl hc small neg, sfun_turns_int hn fl hc neg⟩, fun c hc => sfun_turns_half hn fl hc neg⟩

end Sys2Proof.NumberFormats

/-! ### Jumps, calls and cancellation (R98, R110, R177, R179, R180, R186), and O7 -/

namespace Sys2Proof.Control

open Sys2Proof Sys2Proof.Machine Sys2Proof.Safety Sys2Proof.Laws Sys2Proof.Groups

/-! #### Targets -/

/-- An offset of at most 64 bits, sign-extended, reaches the slot that it names (R110). -/
theorem isTarget_sx64 {w : Nat} (hw : w ≤ 64) (pc : DWord) (o : BitVec w) : isTarget pc o.toInt (pc + 12 + sx64 o * 12) := by
  have ext : ((sx64 o).toNat : Int) = o.toInt ∨ ((sx64 o).toNat : Int) = o.toInt + 2 ^ 64 := by
    have toInt : (sx64 o).toInt = o.toInt := BitVec.toInt_signExtend_of_le hw
    rw [BitVec.toInt_eq_toNat_cond] at toInt
    split at toInt <;> omega
  have twelve : (12 : DWord).toNat = 12 := rfl
  simp only [isTarget, BitVec.toNat_add, BitVec.toNat_mul, twelve]
  omega

theorem isTarget_branchTarget (g : Group) (x : Fields) : isTarget g.pc (x.e ++ x.imm).toInt (branchTarget g x) :=
  isTarget_sx64 (by decide) g.pc (x.e ++ x.imm)

theorem onSlot_iff (g : Group) (a : DWord) : onSlot g a = true ↔ ((a.toNat : Int) - g.base.toNat) % 12 = 0 := beq_iff_eq

/-- An even uniform pair is an address (R180, R198). -/
theorem okTarget_pair {x : Fields} {k : BitVec 8} (ha : x.a = .s k) (even : k.toNat % 2 = 0) (le : k.toNat ≤ 62) (g : Group) :
    okTarget g x = true := by
  simp only [okTarget, ha, isSPair, isS, opIdx, regOk, even, decide_true, Bool.and_self, Bool.true_and, decide_eq_true_eq]
  omega

theorem read64_pair {x : Fields} {k : BitVec 8} (ha : x.a = .s k) (g : Group) (i : Nat) :
    read64 g x i x.a = sGet g (k.toNat + 1) ++ sGet g k.toNat := by
  rw [ha]
  rfl

/-! #### The link (R180) -/

theorem writeLink_rest (g : Group) : writeLink g = { g with s := (writeLink g).s } := sSets_frame g 62 _

theorem sGet_writeLink (g : Group) (q : Nat) : sGet (writeLink g) q =
    if q = 62 then (g.pc + 12).extractLsb' 0 32 else if q = 63 then (g.pc + 12).extractLsb' 32 32 else sGet g q := by
  simp only [writeLink, words64, sSets, sGet_sSet, lo32, hi32, nextPc]
  by_cases high : q = 63
  · simp [high]
  · simp [high]

/-! #### Transfers -/

section
variable {x : Fields} {s : State}

theorem execCallDirect_taken (h : holdsAll s.g x = true) :
    execCallDirect x s = .next (setG (advanceTo (branchTarget s.g x) (writeLink s.g)) s) := if_pos h

/-- A transfer to the address in A whose operands pass step 5 (R98, R180). -/
theorem runIndirect_ok (ok : okTarget s.g x = true) (link : Group → Group) : runIndirect x link s =
    if holdsAll s.g x then
      if onSlot s.g (read64 s.g x 0 x.a) then .next (setG (advanceTo (read64 s.g x 0 x.a) (link s.g)) s)
      else trapped ⟨0x0B, 0, some (read64 s.g x 0 x.a), 0⟩ s
    else finish s.g s := need_ok ok _ _ _

theorem runIndirect_onward (ok : okTarget s.g x = true) (h : holdsAll s.g x = false) (link : Group → Group) :
    runIndirect x link s = finish s.g s := by
  rw [runIndirect_ok ok, h]
  rfl

theorem runIndirect_off (ok : okTarget s.g x = true) (h : holdsAll s.g x = true) (off : onSlot s.g (read64 s.g x 0 x.a) = false)
    (link : Group → Group) : runIndirect x link s = trapped ⟨0x0B, 0, some (read64 s.g x 0 x.a), 0⟩ s := by
  rw [runIndirect_ok ok, h, off]
  rfl

theorem runIndirect_taken (ok : okTarget s.g x = true) (h : holdsAll s.g x = true) (on : onSlot s.g (read64 s.g x 0 x.a) = true)
    (link : Group → Group) : runIndirect x link s = .next (setG (advanceTo (read64 s.g x 0 x.a) (link s.g)) s) := by
  rw [runIndirect_ok ok, h, on]
  rfl

/-- `BRX`, indirect `CALL` and `RET` are transfers to the address in A. -/
theorem exec_indirect {i : Instr} (h : i = .brx x ∨ i = .callIndirect x ∨ i = .ret x) : ∃ link, ∀ s, exec i s = runIndirect x link s := by
  rcases h with rfl | rfl | rfl
  · exact ⟨id, fun _ => rfl⟩
  · exact ⟨writeLink, fun _ => rfl⟩
  · exact ⟨id, fun _ => rfl⟩

/-! #### The cancellation point (R186, R391) -/

/-- A cancellation point changes teams, saved gangs and step programs alone. -/
theorem takePoint_rest (g : Group) (s : State) :
    takePoint g s = { s with teams := (takePoint g s).teams, saved := (takePoint g s).saved, programs := (takePoint g s).programs } := by
  unfold takePoint
  dsimp only
  split <;> rfl

theorem teams_takePoint (g : Group) (s : State) :
    (takePoint g s).teams = updateWhere (fun t => t.tid == g.tid) (fun t => { t with took := true }) s.teams := by
  unfold takePoint
  dsimp only
  split <;> rfl

/-- The group's team has taken the point. -/
theorem took_takePoint {g : Group} {s : State} {u : Team} (h : u ∈ (takePoint g s).teams) (mine : u.tid = g.tid) : u.took = true := by
  rw [teams_takePoint, updateWhere, List.mem_map] at h
  obtain ⟨t, -, rfl⟩ := h
  by_cases ht : (t.tid == g.tid) = true
  · rw [if_pos ht]
  · rw [if_neg ht] at mine
    exact absurd (beq_iff_eq.mpr mine) ht

theorem execCancelchk_onward (h : (holdsAll s.g x && cancelBit s s.g) = false) : execCancelchk x s = finish s.g s := by
  rw [execCancelchk, h]
  rfl

theorem execCancelchk_taken (h : holdsAll s.g x = true) (set : cancelBit s s.g = true) :
    execCancelchk x s = .next (takePoint s.g (setG (advanceTo (branchTarget s.g x) s.g) s)) := by
  rw [execCancelchk, h, set]
  rfl

theorem cancelBit_of_team {tm : Team} (found : findTeam s s.g.tid = some tm) : cancelBit s s.g = tm.cancel := by
  rw [cancelBit, found]

end

/-- Settles O7: the branch forms go to the slot that their offset names, the others to the address in A or into the trap 0x0B; each is
taken by its guards, `CANCELCHK` by the cancel bit too. -/
theorem jumps : Obligations.Jumps := by
  refine ⟨fun x s => ?_, fun x s k ha even le => ?_⟩
  · intro o onward
    refine ⟨fun _ => ⟨fun off => ?_, fun on => ?_⟩, fun _ => ⟨fun off => ?_, fun on => ?_⟩,
      fun _ => ⟨fun off => ?_, fun tm found => ⟨fun clear => ?_, fun set on => ?_⟩⟩⟩
    · exact if_neg (by rw [off]; exact Bool.false_ne_true)
    · exact ⟨_, isTarget_branchTarget s.g x, if_pos on⟩
    · exact if_neg (by rw [off]; exact Bool.false_ne_true)
    · refine ⟨_, (writeLink s.g).s, isTarget_branchTarget s.g x, ?_, fun q => ?_⟩
      · rw [exec_callDirect, execCallDirect_taken on, writeLink_rest]
        rfl
      · rw [← writeLink_rest, sGet_writeLink]
    · exact execCancelchk_onward (by rw [off, Bool.false_and])
    · exact execCancelchk_onward (by rw [cancelBit_of_team found, clear, Bool.and_false])
    · have bit : cancelBit s s.g = true := (cancelBit_of_team found).trans set
      exact ⟨_, _, isTarget_branchTarget s.g x, execCancelchk_taken on bit, takePoint_rest _ _, fun u hu => took_takePoint hu⟩
  · have ok := okTarget_pair ha even le s.g
    intro a slot onward
    have addr : read64 s.g x 0 x.a = a := read64_pair ha s.g 0
    have slots : onSlot s.g (read64 s.g x 0 x.a) = true ↔ slot := by rw [addr, onSlot_iff]
    refine ⟨fun i hi _ => ?_, fun i hi _ on here => ?_, fun _ on here => ?_⟩
    · obtain ⟨link, run⟩ := exec_indirect hi
      refine ⟨fun off => (run s).trans (runIndirect_onward ok off link), fun on away => ?_⟩
      rw [run, runIndirect_off ok on (Bool.eq_false_iff.mpr fun h => away (slots.mp h)), addr]
    · have taken := runIndirect_taken ok on (slots.mpr here) id
      rw [addr] at taken
      rcases hi with rfl | rfl <;> exact taken
    · refine ⟨(writeLink s.g).s, ?_, fun q => ?_⟩
      · rw [exec_callIndirect, execCallIndirect, runIndirect_taken ok on (slots.mpr here), addr, writeLink_rest]
        rfl
      · rw [← writeLink_rest, sGet_writeLink]

end Sys2Proof.Control

/-! ### `TRAP` and `TRESUME` (R194, R198, R202), and O11 -/

namespace Sys2Proof.Control

open Sys2Proof Sys2Proof.Machine Sys2Proof.Safety Sys2Proof.Laws Sys2Proof.Groups

section
variable {x : Fields} {s : State}

/-- `TRESUME` outside a handler (R202): `H` is clear, with a frame or without one. -/
theorem execTresume_outside (h : inHandler s.g = false) : execTresume x s = trapped (wordTrap 0x04) s := by
  unfold execTresume
  split
  · rfl
  · exact need_bad h _ _ _

variable {f : Frame} (handler : inHandler s.g = true) (frame : s.g.frame = some f) (ok : okTarget s.g x = true)
include handler frame ok

theorem execTresume_onward (h : holdsQ s.g x = false) : execTresume x s = finish s.g s := by
  simp only [execTresume, frame, need_ok handler, need_ok ok, h, Bool.false_eq_true, if_false]

theorem execTresume_stacked (h : holdsQ s.g x = true) (stacked : s.g.stack ≠ []) : execTresume x s = trapped (wordTrap 0x01) s := by
  simp only [execTresume, frame, need_ok handler, need_ok ok, h, bne_iff_ne.mpr stacked, if_true]

/-- A restored mask with a live strand goes on at A. -/
theorem execTresume_resumes (h : holdsQ s.g x = true) (empty : s.g.stack = []) (on : onSlot s.g (read64 s.g x 0 x.a) = true)
    (live : f.mask &&& s.g.live ≠ 0) : execTresume x s = .next (setG (leaveHandler f (read64 s.g x 0 x.a) s.g) s) := by
  have back : resumed f (read64 s.g x 0 x.a) s.g = some (leaveHandler f (read64 s.g x 0 x.a) s.g) := if_neg live
  simp only [execTresume, frame, need_ok handler, need_ok ok, h, empty, bne_self_eq_false, Bool.false_eq_true, if_false, on, back, if_true]

end

/-- Settles O11: `TRAP` by its guards; `TRESUME` by `H`, its guards, and what it finds on the stack and in A. -/
theorem trapReturn : Obligations.TrapReturn := by
  refine fun x s => ⟨fun _ => ⟨fun on => if_pos on, fun off => if_neg (by rw [off]; exact Bool.false_ne_true)⟩,
    fun _ => ⟨execTresume_outside, fun f k handler frame ha even le => ?_⟩⟩
  have ok := okTarget_pair ha even le s.g
  refine ⟨execTresume_onward handler frame ok, execTresume_stacked handler frame ok, fun on empty here live => ?_⟩
  have addr := read64_pair ha s.g 0
  rw [← addr] at here
  rw [exec_tresume, execTresume_resumes handler frame ok on empty ((onSlot_iff _ _).mpr here) live, addr]
  rfl

end Sys2Proof.Control

/-! ### Cross-strand operations (R188 to R190), and O10 -/

namespace Sys2Proof.CrossStrands

open Sys2Proof Sys2Proof.Machine Sys2Proof.Safety Sys2Proof.Laws Sys2Proof.Groups Sys2Proof.NumberFormats

/-! #### Results defined once for the group (R44, R189) -/

theorem vPoison_foldl_vSets {r : Nat} {l : List Word} {is : List Nat} {g : Group} {k : Nat}
    (h : k ∈ (is.foldl (fun h i => vSets h i r l) g).vPoison) : k ∈ g.vPoison :=
  foldl_keeps (fun t : Group => k ∈ t.vPoison → k ∈ g.vPoison) (fun t i => vSets t i r l)
    (fun _ _ old new => old (vPoison_vSets_sub _ _ _ _ new)) is (fun old => old) h

section
variable {x : Fields} {s : State}

/-- One result in every executing strand, or in the uniform registers. -/
theorem onceResult_writeOnce {d : Opnd} {n : Nat} {ws : List Word} (hd : (isV d || isS d) = true) (fits : opIdx d + n ≤ 256)
    (len : ws.length = n) : OnceResult x d n ws s (setG (advance (writeOnce s.g (execList s.g x) d ws)) s) := by
  subst len
  cases d with
  | v r =>
    have frame : writeOnce s.g (execList s.g x) (.v r) ws = { s.g with
        v := (writeOnce s.g (execList s.g x) (.v r) ws).v, vPoison := (writeOnce s.g (execList s.g x) (.v r) ws).vPoison } :=
      frame_of_back (foldl_vSets_back r.toNat ws _ s.g)
    refine ⟨rfl, frame_adv_v frame, fun k hk => vPoison_foldl_vSets hk, fun k hk => ?_, nofun⟩
    cases hk
    exact ⟨(congrArg Group.s frame :), fun i q _ hq => vGet_foldl_vSets r.toNat ws (execList s.g x) s.g fits hq⟩
  | s r =>
    have frame : writeOnce s.g (execList s.g x) (.s r) ws = { s.g with s := (writeOnce s.g (execList s.g x) (.s r) ws).s } :=
      sSets_frame s.g r.toNat ws
    refine ⟨rfl, frame_adv_s frame, fun k hk => ?_, nofun, fun k hk => ?_⟩
    · rw [setG_g, frame] at hk
      exact hk
    · cases hk
      exact ⟨(congrArg Group.v frame :), (congrArg Group.vPoison frame :), fun q => sGet_sSets s.g r.toNat ws q⟩
  | _ => simp [isV, isS] at hd

/-- The same for a predicate. -/
theorem oncePred_writePredOnce (d : Opnd) (b : Bool) :
    OncePred x d b s (setG (advance (writePredOnce s.g (execList s.g x) d b)) s) := by
  by_cases strand : opIdx d < 8
  · have each : writePredOnce s.g (execList s.g x) d b = (execList s.g x).foldl (fun h i => pSet h i (opIdx d) b) s.g := if_pos strand
    have frame := frame_of_back_p (foldl_pSet_back (opIdx d) b (execList s.g x) s.g)
    rw [each]
    exact ⟨rfl, frame_adv_p frame, fun _ => ⟨(congrArg Group.q frame :), fun i k _ => pGet_foldl_pSet _ _ _ _ (fun _ => lt_of_mem_execList) i k⟩,
      fun ge => absurd strand (Nat.not_lt.mpr ge)⟩
  · have once : writePredOnce s.g (execList s.g x) d b = qSet s.g (opIdx d - 8) b := if_neg strand
    have frame := qSet_frame s.g (opIdx d - 8) b
    rw [once]
    refine ⟨rfl, frame_adv_q frame, fun lt => absurd lt strand, fun ge lt => ⟨(congrArg Group.p frame :), fun k hk => ?_⟩⟩
    refine (qGet_qSet s.g (by omega) k b).trans ?_
    by_cases top : k = 7
    · simp [top, qGet]
    · have place : k = opIdx d - 8 ↔ k + 8 = opIdx d := by omega
      simp only [top, if_false, place, not_false_eq_true, and_true, ne_eq]

/-! #### Running -/

variable {ok : Bool} {bad : Group → List Nat → Bool} {f : Group → List Nat → Group}

/-- An all-or-nothing instruction whose operands pass step 5 and hold no storage error completes. -/
theorem runCross_next (pass : ok = true) (clean : bad s.g (execList s.g x) = false) :
    runCross x ok bad f s = .next (setG (advance (f s.g (execList s.g x))) s) := by
  rw [runCross, need_ok pass]
  simp only [clean, Bool.false_eq_true, if_false]
  rfl

theorem crossBad_false {g : Group} {is : List Nat} {o : Opnd × Nat} (h : ∀ i ∈ is, badReg g i o = false) : crossBad g is o = false :=
  List.any_eq_false.mpr fun i hi => by rw [h i hi]; exact Bool.false_ne_true

/-- The executing strands from the lowest on (R40). -/
theorem execList_lowest {g : Group} {m : Nat} (mem : m ∈ execList g x) (low : ∀ i ∈ execList g x, m ≤ i) : ∃ r, execList g x = m :: r := by
  have sorted := sorted_execList g x
  cases list : execList g x with
  | nil => rw [list] at mem; cases mem
  | cons k r =>
    rw [list] at sorted mem low
    rcases List.mem_cons.mp mem with rfl | above
    · exact ⟨r, rfl⟩
    · have lt := (List.pairwise_cons.mp sorted).1 m above
      have le := low k List.mem_cons_self
      omega

end

theorem crossCount_cases (t : Ty) : crossCount t = 1 ∨ crossCount t = 2 ∨ crossCount t = 4 := by cases t <;> decide

/-! #### `SHFL` (R188) -/

/-- Each executing strand receives its own words, whichever strand is written first. -/
theorem vGet_foldl_writeRegs {l : List Nat} {d : Opnd} {n : Nat} {ws : Nat → List Word} (nodup : l.Nodup) (below : ∀ i ∈ l, i < 64)
    (hd : isV d = true) (fits : opIdx d + n ≤ 256) (len : ∀ i, (ws i).length = n) (g : Group) {i q : Nat} (hi : i < 64) (hq : q < 256) :
    vGet (l.foldl (fun h i => writeRegs h i d (ws i)) g) i q =
      if i ∈ l ∧ opIdx d ≤ q ∧ q < opIdx d + n then nth 0 (ws i) (q - opIdx d) else vGet g i q := by
  have own : ∀ k ∈ l, Own true k (fun h => writeRegs h k d (ws k)) := fun k hk =>
    own_writeRegs (below k hk) hd fits (fun _ => ws k) (fun _ => len k)
  by_cases mem : i ∈ l
  · obtain ⟨h, before, after⟩ := inTurn_own (fun i h => writeRegs h i d (ws i)) l g own nodup hi mem
    refine (agree_v after hq).trans ?_
    obtain ⟨r, rfl⟩ := isV_elim hd
    rw [writeRegs, vGet_vSets_self, len, agree_v before hq]
    simp only [mem, true_and, opIdx]
  · refine (agree_v (inTurn_other (fun i h => writeRegs h i d (ws i)) l g own hi mem) hq).trans (if_neg fun h => mem h.1).symm

section
variable {f : ShflMode} {ty : Ty} {x : Fields} {s : State}

theorem isIdx_iff (f : ShflMode) : (f == .idx) = decide (f = .idx) := by cases f <;> decide

/-- What `SHFL` gives strand `i`: the words of its source strand before the instruction. -/
def shuffled (f : ShflMode) (ty : Ty) (x : Fields) (g : Group) (i : Nat) : List Word :=
  strandRegs g (shflFrom f (widthOf g) i (readB32 g x i).toNat) x.a (crossCount ty)

theorem nth_shuffled {g : Group} {i j : Nat} (hj : j < crossCount ty) :
    nth 0 (shuffled f ty x g i) j = vGet g (shflFrom f (widthOf g) i (readB32 g x i).toNat) (opIdx x.a + j) := nth_map_range 0 _ hj

theorem execShfl_next (ok : (isV x.d && isV x.a && !isLong x && (if f = .idx then isSrc x x.b else isS x.b || isShort x.b) &&
      regsOk s.g [(x.d, crossCount ty), (x.a, crossCount ty), (x.b, 1)]) = true) (clean : s.g.vPoison = []) :
    execShfl f ty x s = .next (setG (advance ((execList s.g x).foldl (fun h i => writeRegs h i x.d (shuffled f ty x s.g i)) s.g)) s) := by
  unfold execShfl
  rw [runCross_next]
  · rfl
  · simpa only [isIdx_iff, decide_eq_true_eq] using ok
  · rw [Bool.or_eq_false_iff]
    exact ⟨crossBad_false fun _ _ => Encoding.badReg_of_clean clean _ _ _,
      List.any_eq_false.mpr fun _ _ => by rw [Encoding.badReg_of_clean clean]; exact Bool.false_ne_true⟩

end

/-! #### `VOTE` (R189) -/

section
variable {x : Fields} {s : State}

/-- A strand's part in a vote: its predicate, negated where E says so. -/
def votes (x : Fields) (g : Group) (i : Nat) : Bool := readPred g i x.a != x.e.getLsbD 0

/-- A vote whose result is a predicate of the group. -/
theorem runCross_pred {ok : Bool} {bad : Group → List Nat → Bool} {val : Group → List Nat → Bool} (pass : ok = true)
    (clean : bad s.g (execList s.g x) = false) :
    ∃ t, runCross x ok bad (fun g is => writePredOnce g is x.d (val g is)) s = .next t ∧ OncePred x x.d (val s.g (execList s.g x)) s t :=
  ⟨_, runCross_next pass clean, oncePred_writePredOnce _ _⟩

theorem getLsbD_ballot (g : Group) (i : Nat) :
    (maskOf ((execList g x).filter (votes x g))).getLsbD i = (decide (i ∈ execList g x) && votes x g i) := by
  rw [getLsbD_maskOf fun i hi => lt_of_mem_execList (List.mem_of_mem_filter hi)]
  simp only [List.mem_filter, Bool.decide_and, Bool.decide_eq_true]

/-- The strands hold one value. -/
def oneValue (g : Group) (r : Nat) : List Nat → Bool
  | [] => true
  | m :: t => t.all (fun i => vGet g i r == vGet g m r)

theorem oneValue_iff (g : Group) (r : Nat) (is : List Nat) : oneValue g r is = true ↔ ∀ i ∈ is, ∀ j ∈ is, vGet g i r = vGet g j r := by
  cases is with
  | nil => simp [oneValue]
  | cons m t =>
    simp only [oneValue, List.all_eq_true, beq_iff_eq]
    constructor
    · intro h
      have all : ∀ i ∈ m :: t, vGet g i r = vGet g m r := fun i hi => by
        rcases List.mem_cons.mp hi with rfl | hi
        · rfl
        · exact h i hi
      exact fun i hi j hj => (all i hi).trans (all j hj).symm
    · exact fun h i hi => h i (List.mem_cons_of_mem m hi) m List.mem_cons_self

theorem execVote_same (x : Fields) (s : State) : execVote .same x s =
    runCross x (isV x.a && (isP x.d || isQ x.d) && regOk s.g x.a 1) (fun g is => crossBad g is (x.a, 1))
      (fun g is => writePredOnce g is x.d (oneValue g (opIdx x.a) is)) s := rfl

end

/-! #### `RFL` (R190) -/

section
variable {ty : Ty} {x : Fields} {s : State}

theorem length_strandRegs (g : Group) (i : Nat) (o : Opnd) (n : Nat) : (strandRegs g i o n).length = n := by
  rw [strandRegs, List.length_map, List.length_range]

/-- The group after the value of the lowest executing strand has gone to D. -/
def lowestWritten (ty : Ty) (x : Fields) (g : Group) : List Nat → Group
  | [] => g
  | m :: t => writeOnce g (m :: t) x.d (strandRegs g m x.a (crossCount ty))

/-- Whether a strand above the lowest executing one differs from it. -/
def differs (ty : Ty) (x : Fields) (g : Group) : List Nat → Bool
  | [] => false
  | m :: t => t.any (fun i => strandRegs g i x.a (crossCount ty) != strandRegs g m x.a (crossCount ty))

theorem differs_iff (g : Group) (m : Nat) (t : List Nat) : differs ty x g (m :: t) = true ↔
    ∃ i ∈ m :: t, strandRegs g i x.a (crossCount ty) ≠ strandRegs g m x.a (crossCount ty) := by
  simp [differs]

variable (ok : (isV x.a && (isV x.d || isS x.d) && regsOk s.g [(x.d, crossCount ty), (x.a, crossCount ty)]) = true)
  (clean : ∀ i ∈ execList s.g x, badReg s.g i (x.a, crossCount ty) = false)

theorem execRfl_plain_eq : execRfl .plain ty x s = runCross x
    (isV x.a && (isV x.d || isS x.d) && true && regsOk s.g [(x.d, crossCount ty), (x.a, crossCount ty)])
    (fun g is => crossBad g is (x.a, crossCount ty)) (lowestWritten ty x) s := by
  unfold execRfl
  dsimp only
  congr 1
  funext g is
  cases is <;> rfl

theorem execRfl_chk_eq : execRfl .chk ty x s = runCross x
    (isV x.a && (isV x.d || isS x.d) && isQ x.c && regsOk s.g [(x.d, crossCount ty), (x.a, crossCount ty)])
    (fun g is => crossBad g is (x.a, crossCount ty))
    (fun g is => qSet (lowestWritten ty x g is) (opIdx x.c - 8) (differs ty x g is)) s := by
  unfold execRfl
  dsimp only
  congr 1
  funext g is
  cases is <;> rfl

include ok clean in
theorem execRfl_plain : execRfl .plain ty x s = .next (setG (advance (lowestWritten ty x s.g (execList s.g x))) s) := by
  rw [execRfl_plain_eq, runCross_next (by rwa [Bool.and_true]) (crossBad_false clean)]

include ok clean in
theorem execRfl_chk (hc : isQ x.c = true) : execRfl .chk ty x s = .next (setG (advance
    (qSet (lowestWritten ty x s.g (execList s.g x)) (opIdx x.c - 8) (differs ty x s.g (execList s.g x)))) s) := by
  rw [execRfl_chk_eq, runCross_next (by rwa [hc, Bool.and_true]) (crossBad_false clean)]

include ok in
theorem lowestWritten_result {m : Nat} {r : List Nat} (list : execList s.g x = m :: r) :
    OnceResult x x.d (crossCount ty) (strandRegs s.g m x.a (crossCount ty)) s (setG (advance (lowestWritten ty x s.g (execList s.g x))) s) := by
  simp only [Bool.and_eq_true] at ok
  obtain ⟨⟨-, hd⟩, regs⟩ := ok
  have fits := regOk_lt (crossCount_cases ty) (Bool.or_eq_true_iff.mp hd) (regsOk_cons regs).1
  have result := onceResult_writeOnce (x := x) (s := s) hd fits (length_strandRegs s.g m x.a (crossCount ty))
  rw [list] at result ⊢
  exact result

end

/-- A q predicate written and put back is as it was. -/
theorem qSet_back (g : Group) (k : Nat) (b : Bool) : { qSet g k b with q := g.q } = g := by rw [qSet_frame]

theorem qSet_q {g h : Group} (same : h.q = g.q) (k : Nat) (b : Bool) : (qSet h k b).q = (qSet g k b).q := by
  unfold qSet
  split
  · exact same
  · rw [same]

theorem advance_qSet (g : Group) (k : Nat) (b : Bool) :
    advance (qSet g k b) = { qSet g k b with pc := g.pc + 12, ridx := 0, readTime := 0, midway := false } := by
  rw [qSet_frame]
  rfl

/-- Settles O10: `SHFL` writes what the group held before it; `VOTE` and `RFL` write one result of the executing strands, which `RFL`
takes from the lowest. -/
theorem crossStrand : Obligations.CrossStrand := by
  refine ⟨fun f ty x s _ ok clean => ?_, fun f x s _ => ?_, fun f ty x s _ => ?_⟩
  · have parts := ok
    simp only [Bool.and_eq_true, Bool.not_eq_true'] at parts
    obtain ⟨⟨⟨⟨hd, -⟩, short⟩, -⟩, regs⟩ := parts
    have fits := regOk_lt (crossCount_cases ty) (.inl hd) (regsOk_cons regs).1
    refine ⟨_, execShfl_next ok clean, ?_, fun i q hi hq => ?_⟩
    · have frame := inTurn_writeRegs_frame x.d (fun _ i => shuffled f ty x s.g i) hd (execList s.g x) s.g
      exact congrArg (fun g => setG (advance g) s) frame
    · have words := vGet_foldl_writeRegs (nodup_execList s.g x) (fun _ => lt_of_mem_execList) hd fits
        (fun i => length_strandRegs s.g _ x.a (crossCount ty)) s.g hi hq (ws := shuffled f ty x s.g)
      refine words.trans ?_
      split
      · next here =>
        rw [nth_shuffled (by omega), readB32, short]
        cases f <;> rfl
      · rfl
  · intro is a
    simp only [Bool.decide_eq_true]
    refine ⟨fun ok => ⟨?_, ?_⟩, ?_, ?_⟩
    · rintro rfl
      obtain ⟨t, run, once⟩ := runCross_pred (x := x) (s := s) (bad := fun _ _ => false) (val := fun g is => is.all (votes x g)) ok rfl
      exact ⟨t, _, run, once, List.all_eq_true⟩
    · rintro rfl
      obtain ⟨t, run, once⟩ := runCross_pred (x := x) (s := s) (bad := fun _ _ => false) (val := fun g is => is.any (votes x g)) ok rfl
      exact ⟨t, _, run, once, List.any_eq_true⟩
    · rintro ok rfl
      have parts := ok
      rw [Bool.and_eq_true, Bool.and_eq_true] at parts
      obtain ⟨⟨-, hd⟩, reg⟩ := parts
      have fits := regOk_lt (.inr (.inl rfl)) (Bool.or_eq_true_iff.mp hd) reg
      have run := runCross_next (x := x) (s := s) (bad := fun _ _ => false)
        (f := fun g is => writeOnce g is x.d (words64 (maskOf (is.filter (votes x g))))) ok rfl
      exact ⟨_, _, run, onceResult_writeOnce hd fits (length_words64 _), getLsbD_ballot s.g⟩
    · rintro ok rfl clean
      obtain ⟨t, run, once⟩ := runCross_pred (s := s) (bad := fun g is => crossBad g is (x.a, 1))
        (val := fun g is => oneValue g (opIdx x.a) is) ok (crossBad_false clean)
      exact ⟨t, _, (execVote_same x s).trans run, once, oneValue_iff s.g (opIdx x.a) (execList s.g x)⟩
  · intro is n a ok clean
    refine ⟨?_, ?_⟩
    · rintro rfl
      have run := execRfl_plain ok clean
      refine ⟨fun none_ => ?_, fun m mem low => ?_⟩
      · rw [exec_rfl, run, show execList s.g x = [] from none_]
        rfl
      · obtain ⟨r, list⟩ := execList_lowest mem low
        exact ⟨_, run, lowestWritten_result ok list⟩
    · rintro rfl hc
      have run := execRfl_chk ok clean hc
      refine ⟨fun none_ => ?_, fun m mem low => ?_⟩
      · rw [exec_rfl, run, show execList s.g x = [] from none_, advance_qSet]
        rfl
      · obtain ⟨r, list⟩ := execList_lowest mem low
        have result := lowestWritten_result ok list
        have same : (lowestWritten ty x s.g (execList s.g x)).q = s.g.q := (congrArg Group.q result.group :)
        have back : setG { advance (qSet (lowestWritten ty x s.g (execList s.g x)) (opIdx x.c - 8) (differs ty x s.g (execList s.g x))) with
            q := s.g.q } s = setG (advance (lowestWritten ty x s.g (execList s.g x))) s := by
          rw [← same]
          exact congrArg (fun g => setG (advance g) s) (qSet_back _ _ _)
        refine ⟨_, differs ty x s.g (execList s.g x), run, ?_, qSet_q same _ _, back ▸ result⟩
        rw [show is = m :: r from list, list]
        exact differs_iff s.g m r

end Sys2Proof.CrossStrands

/-! ### Taking a trap (R195, R197, R199, R323, R324), and O12 -/

namespace Sys2Proof.Traps

open Sys2Proof Sys2Proof.Machine Sys2Proof.Safety Sys2Proof.Laws Sys2Proof.Groups

/-! #### The cause in the trap registers (R195) -/

/-- The running group of a state with its trap registers set, and the error that the trap reports counted. -/
def recorded (t : Trap) (s : State) : State := modGroup s.g.gid (recordTrap t s.g.pc) (countError s.g t s)

theorem recorded_eq (t : Trap) (s : State) : modGroup s.g.gid (recordTrap t s.g.pc) (countError s.g t s) = recorded t s := rfl

theorem countError_rest (g : Group) (t : Trap) (s : State) : countError g t s = { s with cores := (countError g t s).cores } := by
  unfold countError
  split <;> rfl

theorem countError_other (g : Group) {t : Trap} (h : t.cause ≠ 0x20) (s : State) : countError g t s = s :=
  if_neg fun counts => h (of_decide_eq_true (Bool.and_eq_true_iff.mp counts).1)

theorem recorded_rest (t : Trap) (s : State) : recorded t s =
    { s with cores := (recorded t s).cores, g := (recorded t s).g, others := (recorded t s).others } := by
  unfold recorded
  rw [countError_rest]
  rfl

@[simp] theorem recorded_g (t : Trap) (s : State) : (recorded t s).g = recordTrap t s.g.pc s.g := by
  unfold recorded
  rw [countError_rest, modGroup_g]
  exact if_pos (beq_self_eq_true s.g.gid)

@[simp] theorem recorded_teams (t : Trap) (s : State) : (recorded t s).teams = s.teams := by rw [recorded_rest]
@[simp] theorem recorded_out (t : Trap) (s : State) : (recorded t s).out = s.out := by rw [recorded_rest]
@[simp] theorem recorded_mem (t : Trap) (s : State) : (recorded t s).mem = s.mem := by rw [recorded_rest]

theorem handlerOf_recorded (t : Trap) (s : State) (g : Group) : handlerOf (recorded t s) g = handlerOf s g := by
  rw [recorded_rest]
  rfl

theorem kvStop_recorded (t u : Trap) (s : State) (g : Group) : kvStop (recorded t s) g u = kvStop s g u := by
  rw [recorded_rest]
  rfl

/-! #### What a trap can do (R197, R199, R324, R398) -/

section
variable {t : Trap} {s : State}

theorem takeTrap_stopping (h : s.g.stopping = true) : takeTrap t s = stopPoint s.g.tid (recorded t s) := if_pos h

section
variable (running : s.g.stopping = false) (kv : kvStop s s.g t = false)
include running kv

theorem takeTrap_enters {h : DWord} (handler : handlerOf s s.g = some h) (outside : inHandler s.g = false)
    (mild : terminates t.cause = false) : takeTrap t s = modGroup s.g.gid (enterHandler h) (recorded t s) := by
  rw [← kvStop_recorded t] at kv
  rw [← handlerOf_recorded t] at handler
  simp only [takeTrap, trapGroup, recorded_eq, running, kv, handler, mild, outside, Bool.false_eq_true, if_false, Bool.or_self]

theorem takeTrap_terminates (ends : handlerOf s s.g = none ∨ inHandler s.g = true ∨ terminates t.cause = true) :
    takeTrap t s = terminateTeam s.g t.cause t.sub s.g.pc (recorded t s) := by
  rw [← kvStop_recorded t] at kv
  rw [← handlerOf_recorded t] at ends
  cases handler : handlerOf (recorded t s) s.g with
  | none => simp only [takeTrap, trapGroup, recorded_eq, running, kv, handler, Bool.false_eq_true, if_false]
  | some h =>
    have fatal : (terminates t.cause || inHandler s.g) = true := by
      rw [handler] at ends
      rcases ends with none_ | inside | fatal
      · cases none_
      · rw [inside, Bool.or_true]
      · rw [fatal, Bool.true_or]
    simp only [takeTrap, trapGroup, recorded_eq, running, kv, handler, Bool.false_eq_true, if_false, fatal, if_true]

end

/-! #### Entering the handler (R195, R197) -/

theorem tcause_entered {c k : Nat} (hc : c < 256) (hk : k < 256) (w : Word) :
    (w &&& 0x80000000 ||| BitVec.ofNat 32 (c % 256 + 256 * (k % 256))) ||| 0x80000000 = BitVec.ofNat 32 (2 ^ 31 + 256 * k + c) := by
  have absorb : ∀ n : Word, (w &&& 0x80000000 ||| n) ||| 0x80000000 = 0x80000000 ||| n := fun n => by
    refine BitVec.eq_of_getLsbD_eq fun i _ => ?_
    simp only [BitVec.getLsbD_or, BitVec.getLsbD_and]
    cases w.getLsbD i <;> cases n.getLsbD i <;> simp
  rw [absorb, Nat.mod_eq_of_lt hc, Nat.mod_eq_of_lt hk]
  apply BitVec.eq_of_toNat_eq
  have small : (BitVec.ofNat 32 (c + 256 * k)).toNat = c + 256 * k := by
    rw [BitVec.toNat_ofNat]
    omega
  have disjoint := Nat.two_pow_add_eq_or_of_lt (i := 31) (b := c + 256 * k) (by omega) 1
  rw [BitVec.toNat_or, small, show (0x80000000 : Word).toNat = 2 ^ 31 * 1 from rfl, ← disjoint, BitVec.toNat_ofNat]
  omega

/-- The group as its handler begins. -/
def entered (t : Trap) (h : DWord) (g : Group) : Group := { g with
  frame := some ⟨g.active, g.fmt, g.jord, g.stack, t.strand, g.readTime⟩, ridx := 0, readTime := 0, midway := false, stack := []
  active := g.live, fmt := 0, jord := 0, tcause := BitVec.ofNat 32 (2 ^ 31 + 256 * t.sub + t.cause), tpc := g.pc, taddr := t.addr.getD g.taddr
  pc := h, status := .ready }

theorem enterHandler_recordTrap (hc : t.cause < 256) (hk : t.sub < 256) (h : DWord) (g : Group) :
    enterHandler h (recordTrap t g.pc g) = entered t h g := by
  simp only [enterHandler, recordTrap, tcause_entered hc hk]
  rfl

theorem getElem?_updateWhere {α : Type} {p : α → Bool} {f : α → α} {l : List α} {n : Nat} {a : α} (found : l[n]? = some a) (h : p a = false) :
    (updateWhere p f l)[n]? = some a := by
  rw [updateWhere, List.getElem?_map, found, Option.map_some, if_neg (by rw [h]; exact Bool.false_ne_true)]

/-- The running group enters its handler; of the others only those with its number may change. -/
theorem modGroup_recorded (hc : t.cause < 256) (hk : t.sub < 256) (h : DWord) : ∃ o,
    modGroup s.g.gid (enterHandler h) (recorded t s) = { countError s.g t s with g := entered t h s.g, others := o } ∧
    o.length = s.others.length ∧ ∀ (n : Nat) (k : Group), s.others[n]? = some k → k.gid ≠ s.g.gid → o[n]? = some k := by
  have others : (recorded t s).others = updateWhere (fun g => g.gid == s.g.gid) (recordTrap t s.g.pc) s.others := by
    unfold recorded
    rw [countError_rest]
    rfl
  have group : (modGroup s.g.gid (enterHandler h) (recorded t s)).g = entered t h s.g := by
    rw [modGroup_g, recorded_g, enterHandler_recordTrap hc hk]
    exact if_pos (beq_self_eq_true s.g.gid)
  refine ⟨updateWhere (fun g => g.gid == s.g.gid) (enterHandler h) (recorded t s).others, ?_, ?_, fun n k found other => ?_⟩
  · rw [← group]
    rfl
  · rw [others, updateWhere, List.length_map, updateWhere, List.length_map]
  · have off : (k.gid == s.g.gid) = false := beq_eq_false_iff_ne.mpr other
    rw [others]
    exact getElem?_updateWhere (getElem?_updateWhere found off) off

end

/-! #### The diagnostic record (R323) -/

theorem length_diagRecord (s : State) (g : Group) (cause sub : Nat) (wpc : DWord) : (diagRecord s g cause sub wpc).length = 352 := by
  have table : ∀ (f : Nat → Nat) (l : List Nat), (l.flatMap fun n => leBytes 8 (f n)).length = 8 * l.length := fun f l => by
    simp [List.length_flatMap, leBytes_length, Nat.mul_comm]
  have adds : ∀ l : List AddRec, (padTo 4 0 ((l.take 4).map adderCode)).length = 4 := fun l => by
    rw [padTo, List.length_append, List.length_replicate, List.length_map, List.length_take]
    omega
  simp only [diagRecord, List.length_append, leBytes_length, table, List.length_range, adds]

/-- A record begins with the cause and its subcode. -/
theorem take_diagRecord (s : State) (g : Group) {cause sub : Nat} (wpc : DWord) (hc : cause < 256) :
    (diagRecord s g cause sub wpc).take 2 = [BitVec.ofNat 8 cause, BitVec.ofNat 8 sub] := by
  have low : BitVec.ofNat 8 (cause + 256 * sub) = BitVec.ofNat 8 cause := by
    apply BitVec.eq_of_toNat_eq
    simp only [BitVec.toNat_ofNat]
    omega
  have high : (cause + 256 * sub) / 256 = sub := by omega
  have first : ∀ rest : List Byte, (leBytes 4 (cause + 256 * sub) ++ rest).take 2 = [BitVec.ofNat 8 cause, BitVec.ofNat 8 sub] := fun rest => by
    simp only [leBytes, List.cons_append, List.take_succ_cons, List.take_zero, low, high]
  simp only [diagRecord, List.append_assoc]
  exact first _

/-! #### The end of the context (R199, R324) -/

/-- Neither memory nor the messages sent have changed. -/
def SendsNothing (s t : State) : Prop := t.out = s.out ∧ t.mem = s.mem

theorem SendsNothing.trans {s t u : State} (h : SendsNothing s t) (k : SendsNothing t u) : SendsNothing s u :=
  ⟨k.1.trans h.1, k.2.trans h.2⟩

theorem sendsNothing_foldl {α : Type} {f : State → α → State} (h : ∀ s a, SendsNothing s (f s a)) (l : List α) (s : State) :
    SendsNothing s (l.foldl f s) :=
  foldl_keeps (SendsNothing s) f (fun t a k => k.trans (h t a)) l ⟨rfl, rfl⟩

theorem sendsNothing_markFailed (c : Command) (s : State) : SendsNothing s (markFailed c s) := by
  unfold markFailed
  split <;> exact ⟨rfl, rfl⟩

theorem sendsNothing_dropWaiting (tid core : Nat) (s : State) : SendsNothing s (dropWaiting tid core s) :=
  sendsNothing_foldl (fun s c => sendsNothing_markFailed c s) _ s

theorem sendsNothing_freeTeam (tm : Team) (s : State) : SendsNothing s (freeTeam tm s) := by
  have freed := sendsNothing_foldl (f := fun u k => modCore (nth 0 tm.cores k) (freeOnCore (nth 0 tm.ranges k) (nth [] tm.tiles k)) u)
    (fun _ _ => ⟨rfl, rfl⟩) (List.range tm.cores.length) s
  exact iteInduction (motive := SendsNothing s) (fun _ => freed) (fun _ => freed)

theorem sendsNothing_settleTeam (tid : Nat) (s : State) : SendsNothing s (settleTeam tid s) := by
  unfold settleTeam
  split
  · exact ⟨rfl, rfl⟩
  · exact iteInduction (motive := SendsNothing s) (fun _ => sendsNothing_freeTeam _ s) (fun _ => ⟨rfl, rfl⟩)

/-- A termination of a team sends one record, and leaves memory alone. -/
theorem terminateTeam_sends {g : Group} {cause sub : Nat} {wpc : DWord} {s : State} {tm : Team} (found : findTeam s g.tid = some tm) :
    (terminateTeam g cause sub wpc s).out = .terminated (diagRecord s g cause sub wpc) :: s.out ∧
    (terminateTeam g cause sub wpc s).mem = s.mem := by
  simp only [terminateTeam, found]
  have dropped := sendsNothing_foldl (fun u c => sendsNothing_dropWaiting tm.tid c u) tm.cores
    { s with out := .terminated (diagRecord s g cause sub wpc) :: s.out }
  exact dropped.trans (sendsNothing_settleTeam tm.tid _)

theorem allGroups_modLaunch (n : Nat) (f : Launch → Launch) (s : State) : allGroups (modLaunch n f s) = allGroups s := rfl

/-- After it every group of the team has stopped, or stops when the pass that it is in has ended. -/
theorem terminateTeam_stops {g : Group} {cause sub : Nat} {wpc : DWord} {s : State} {tm : Team} (found : findTeam s g.tid = some tm) :
    ∀ h ∈ allGroups (terminateTeam g cause sub wpc s), h.tid = g.tid → isOver h = true ∨ (h.midway = true ∧ h.stopping = true) := by
  have number : tm.tid = g.tid := beq_iff_eq.mp (List.find?_some (p := fun t : Team => t.tid == g.tid) found)
  intro h hh mine
  simp only [terminateTeam, found] at hh
  rcases (onlyRemoves_settleTeam tm.tid _).groups h hh with stays | rfl
  · rw [allGroups_modLaunch] at stays
    obtain ⟨k, -, rfl⟩ := mem_allGroups_modGroups.mp stays
    by_cases hit : (k.tid == tm.tid) = true
    · rw [if_pos hit]
      exact halt_stops k
    · rw [if_neg hit, ← number] at mine
      exact absurd (beq_iff_eq.mpr mine) hit
  · exact .inl rfl

/-! #### A trap of a group that stops (R324) -/

/-- A team is freed with its groups, or nothing happens. -/
theorem settleTeam_frees (tid : Nat) (s : State) :
    settleTeam tid s = s ∨ ∀ g ∈ allGroups (settleTeam tid s), g.tid = tid → isOver g = true := by
  unfold settleTeam
  split
  · exact .inl rfl
  · next tm found =>
    have number : tm.tid = tid := beq_iff_eq.mp (List.find?_some (p := fun t : Team => t.tid == tid) found)
    split
    · right
      subst number
      unfold freeTeam
      generalize (List.range tm.cores.length).foldl _ s = u
      have removed : ∀ h ∈ (if u.g.tid = tm.tid then Group.init else u.g) :: u.others.filter (fun g => g.tid != tm.tid),
          h.tid = tm.tid → isOver h = true := by
        intro h hm mine
        rcases List.mem_cons.mp hm with rfl | hm
        · by_cases own : u.g.tid = tm.tid
          · rw [if_pos own]
            rfl
          · rw [if_neg own] at mine
            exact absurd mine own
        · exact absurd mine (bne_iff_ne.mp (List.mem_filter.mp hm).2)
      exact iteInduction (motive := fun t : State => ∀ g ∈ allGroups t, g.tid = tm.tid → isOver g = true) (fun _ => removed) (fun _ => removed)
    · exact .inl rfl

theorem findGroup_self (s : State) : findGroup s s.g.gid = some s.g := List.find?_cons_of_pos (beq_self_eq_true s.g.gid)

theorem findGroup_running {s : State} {g : Group} {n : Nat} (number : s.g.gid = n) (found : findGroup s n = some g) : g = s.g := by
  rw [← number, findGroup_self] at found
  exact (Option.some.inj found).symm

/-- The running group of a team that stops is over once it is at an instruction boundary. -/
theorem stopPoint_over {s : State} {g : Group} (stopping : s.g.stopping = true) (boundary : s.g.midway = false)
    (found : findGroup (stopPoint s.g.tid s) s.g.gid = some g) (mine : g.tid = s.g.tid) : isOver g = true := by
  have over_ : atStop s.g = false → isOver s.g = true := fun h => by
    simpa [atStop, stopping, boundary] using h
  unfold stopPoint at found
  by_cases any_ : ((allGroups s).any fun h => h.tid == s.g.tid && atStop h) = true
  · rw [if_pos any_] at found
    rcases settleTeam_frees s.g.tid (modGroups (fun h => h.tid == s.g.tid && atStop h) stopHere s) with same | freed
    · rw [same] at found
      cases here : atStop s.g with
      | true =>
        have stopped : (modGroups (fun h => h.tid == s.g.tid && atStop h) stopHere s).g = stopHere s.g := if_pos (by simp [here])
        rw [findGroup_running (by rw [stopped]; rfl) found, stopped]
        rfl
      | false =>
        have kept : (modGroups (fun h => h.tid == s.g.tid && atStop h) stopHere s).g = s.g := if_neg (by simp [here])
        rw [findGroup_running (by rw [kept]) found, kept]
        exact over_ here
    · exact freed g (List.mem_of_find?_eq_some found) mine
  · rw [if_neg any_] at found
    rw [findGroup_running rfl found]
    refine over_ (Bool.eq_false_iff.mpr fun here => any_ (List.any_eq_true.mpr ⟨s.g, List.mem_cons_self, ?_⟩))
    rw [here, beq_self_eq_true]
    rfl

/-- Settles O12: a trap enters the handler, or ends the team's context with a record; in a team that stops it ends its group. -/
theorem trapEntry : Obligations.TrapEntry := by
  refine ⟨fun t s h running handler outside mild hc hk kv => ?_, fun t s tm running found kv hc hk ends => ?_, fun t s g stopping _ found mine => ?_⟩
  · obtain ⟨o, run, length, kept⟩ := modGroup_recorded (s := s) hc hk h
    exact ⟨o, (takeTrap_enters running kv handler outside mild).trans run, length, kept, fun other => countError_other s.g other s⟩
  · have found' : findTeam (recorded t s) s.g.tid = some tm := by rw [findTeam, recorded_teams]; exact found
    obtain ⟨out, mem⟩ := terminateTeam_sends (cause := t.cause) (sub := t.sub) (wpc := s.g.pc) found'
    rw [takeTrap_terminates running kv ends]
    refine ⟨_, out.trans (by rw [recorded_out]), take_diagRecord _ _ _ hc, length_diagRecord _ _ _ _ _, mem.trans (recorded_mem t s),
      terminateTeam_stops found'⟩
  · rw [takeTrap_stopping stopping] at found
    have group := recorded_g t s
    have at_ : (recorded t s).g.tid = s.g.tid ∧ (recorded t s).g.gid = s.g.gid ∧ (recorded t s).g.stopping = true ∧ (recorded t s).g.midway = false := by
      rw [group]
      exact ⟨rfl, rfl, stopping, rfl⟩
    obtain ⟨team, number, stops, boundary⟩ := at_
    rw [← team, ← number] at found
    exact stopPoint_over stops boundary found (mine.trans team.symm)

end Sys2Proof.Traps

/-! ### Queues and records (R375 to R377) -/

namespace Sys2Proof.Launching

open Sys2Proof Sys2Proof.Machine Sys2Proof.Safety Sys2Proof.Laws Sys2Proof.Groups

section
variable {s : State} {b : List Byte} {die : Nat} {issuer : Option Launch} {deps : List Nat}

/-- An offer changes the launches and the next sequence number alone. -/
theorem enqueue_rest (b : List Byte) (die : Nat) (issuer : Option Launch) (deps : List Nat) (s : State) :
    (enqueue b die issuer deps s).2.2 =
      { s with launches := (enqueue b die issuer deps s).2.2.launches, nextSeq := (enqueue b die issuer deps s).2.2.nextSeq } := by
  unfold enqueue
  dsimp only
  split
  · rfl
  · split
    · rfl
    · split <;> rfl

section
variable {k : Kernel} (kernel : kernelOf s (recordOf b) = some k) (pass : recordOk s b (recordOf b) k issuer = true)
include kernel pass

theorem enqueue_accepts (room : (s.launches.filter (fun l => inQueue l && l.record.prio == (recordOf b).prio)).length < 1024) :
    enqueue b die issuer deps s = (0, s.nextSeq,
      { s with launches := s.launches ++ [newLaunch s (recordOf b) k die deps], nextSeq := s.nextSeq + 1 }) := by
  simp only [enqueue, kernel, pass, Bool.not_true, Bool.false_eq_true, if_false, if_neg (Nat.not_le_of_lt room)]

theorem enqueue_full (full : 1024 ≤ (s.launches.filter (fun l => inQueue l && l.record.prio == (recordOf b).prio)).length) :
    enqueue b die issuer deps s = (1, 0, s) := by
  simp only [enqueue, kernel, pass, Bool.not_true, Bool.false_eq_true, if_false, if_pos full]

end

theorem enqueue_rejects (fails : ∀ k, kernelOf s (recordOf b) = some k → recordOk s b (recordOf b) k issuer = false) :
    enqueue b die issuer deps s = (2, 0, s) := by
  cases kernel : kernelOf s (recordOf b) with
  | none => simp only [enqueue, kernel]
  | some k => simp only [enqueue, kernel, fails k kernel, Bool.not_false, if_true]

end

/-- Two states between which no record enters a queue, and nothing that a record is checked against changes. -/
structure KeepsQueues (s t : State) : Prop where
  mem : t.mem = s.mem
  launches : t.launches = s.launches
  nextSeq : t.nextSeq = s.nextSeq
  images : t.images = s.images
  engs : t.engs = s.engs
  programs : t.programs = s.programs
  pc : t.g.pc = s.g.pc

theorem KeepsQueues.trans {s t u : State} (h : KeepsQueues s t) (k : KeepsQueues t u) : KeepsQueues s u :=
  ⟨k.mem.trans h.mem, k.launches.trans h.launches, k.nextSeq.trans h.nextSeq, k.images.trans h.images, k.engs.trans h.engs,
    k.programs.trans h.programs, k.pc.trans h.pc⟩

theorem KeepsQueues.kernelOf_eq {s t : State} (h : KeepsQueues s t) (r : LaunchRec) : kernelOf t r = kernelOf s r := by
  simp only [kernelOf, h.images]

theorem KeepsQueues.recordOk_eq {s t : State} (h : KeepsQueues s t) (b : List Byte) (r : LaunchRec) (k : Kernel) (issuer : Option Launch) :
    recordOk t b r k issuer = recordOk s b r k issuer := by
  simp only [recordOk, engOf, stepOf, programOf, h.engs, h.programs, h.nextSeq]

end Sys2Proof.Launching

/-! ### The release before a launch (R210, R237) -/

namespace Sys2Proof.Launching

open Sys2Proof Sys2Proof.Machine Sys2Proof.Safety Sys2Proof.Laws Sys2Proof.Groups

theorem foldl_unchanged {α σ : Type} {f : σ → α → σ} {l : List α} {s : σ} (h : ∀ a ∈ l, f s a = s) : l.foldl f s = s := by
  induction l with
  | nil => rfl
  | cons a l ih => rw [List.foldl_cons, h a List.mem_cons_self, ih fun b hb => h b (List.mem_cons_of_mem a hb)]

theorem performWhere_none {f : Instr → Bool} {s : State} (h : ∀ i ∈ s.pending, f i = false) : performWhere f s = s := by
  have nothing : s.pending.filter f = [] := List.filter_eq_nil_iff.mpr fun i hi => by rw [h i hi]; exact Bool.false_ne_true
  have all : s.pending.filter (fun i => !f i) = s.pending := List.filter_eq_self.mpr fun i hi => by rw [h i hi]; rfl
  rw [performWhere, nothing, all]
  rfl

theorem writeBackAll_none {c : Nat} {f : Line → Bool} {s : State} (h : ∀ l ∈ (coreAt s c).lines, f l = false) : writeBackAll c f s = s := by
  have nothing : (coreAt s c).lines.filter f = [] := List.filter_eq_nil_iff.mpr fun l hl => by rw [h l hl]; exact Bool.false_ne_true
  rw [writeBackAll, nothing]
  rfl

theorem absorbAcks_none {gid : Nat} {s : State} (h : ∀ a ∈ s.accs, a.group ≠ gid) : absorbAcks gid s = s := by
  refine foldl_unchanged fun a ha => ?_
  split
  · exact if_neg (h a ha)
  · rfl

/-- A release that finds nothing under way gives `GWTS`, and advances the core's clock to it. -/
theorem releaseAll_quiet {s : State} (quiet : allQuiet s s.g.gid) {scope : Nat} (wide : 2 ≤ scope) :
    releaseAll s.g.gid scope s = (s.g.gwts, clockTo (coreNo s.g) s.g.gwts s) := by
  obtain ⟨posted, stored, sent⟩ := quiet
  have clean : writeBackAll (coreNo s.g) (wroteLine s.g.gid) s = s := writeBackAll_none (stored s.g List.mem_cons_self rfl)
  have beyond : wider s s.g.tid scope = true := by rw [wider, decide_eq_true wide, Bool.true_or]
  simp only [releaseAll, performWhere_none posted, Traps.findGroup_self, release, beyond, if_true, clean, absorbAcks_none sent]

/-- The state in which a quiet group offers its record: it has released at `.pkg`, and its later releases carry what that one gave. -/
def offering (s : State) : State :=
  modGroup s.g.gid (fun g => { g with carry := max g.carry s.g.gwts }) (clockTo (coreNo s.g) s.g.gwts s)

theorem offering_eq (s : State) : modGroup (clockTo (coreNo s.g) s.g.gwts s).g.gid (fun g => { g with carry := max g.carry s.g.gwts })
    (clockTo (coreNo s.g) s.g.gwts s) = offering s := rfl

theorem offering_rest (s : State) : offering s = { s with g := (offering s).g, others := (offering s).others, cores := (offering s).cores } := rfl

theorem offering_g (s : State) : (offering s).g = { s.g with carry := max s.g.carry s.g.gwts } := if_pos (beq_self_eq_true s.g.gid)

theorem keepsQueues_offering (s : State) : KeepsQueues s (offering s) := ⟨rfl, rfl, rfl, rfl, rfl, rfl, by rw [offering_g]⟩

theorem coreNo_offering (s : State) : coreNo (offering s).g = coreNo s.g := by rw [offering_g]; rfl

/-- Of the cores the release has moved a clock alone. -/
theorem coreAt_offering (s : State) (c : Nat) : coreAt (offering s) c = { coreAt s c with cc := (coreAt (offering s) c).cc } := by
  have core : coreAt (offering s) c = coreAt (clockTo (coreNo s.g) s.g.gwts s) c := rfl
  rw [core, clockTo, coreAt_modCore]
  split
  · next same => rw [same]
  · rfl

theorem sameWindows_offering (s : State) : SameWindows s (offering s) :=
  ⟨rfl, rfl, fun c => by rw [coreAt_offering]; exact ⟨rfl, rfl⟩, by rw [offering_g]; exact ⟨rfl, rfl, rfl, rfl⟩⟩

theorem localError_offering (s : State) (c a n : Nat) : localError (offering s) c a n = localError s c a n := by
  rw [localError, coreAt_offering]
  rfl

theorem localRead_offering (s : State) (c a n : Nat) : localRead (offering s) c a n = localRead s c a n := by
  rw [localRead, coreAt_offering]
  rfl

end Sys2Proof.Launching

/-! ### Where a read of global memory leads (R216, R219) -/

namespace Sys2Proof.Launching

open Sys2Proof Sys2Proof.Machine Sys2Proof.Safety Sys2Proof.Laws Sys2Proof.Groups

/-! #### The global space -/

/-- A window leads to local store, or to a trap. -/
def isWindow : Place → Prop
  | .loc _ _ => True
  | .bad _ _ => True
  | _ => False

theorem isWindow_splitCheck {s : State} {p : Place} (h : isWindow p) : isWindow (splitCheck s p) := by
  cases p with
  | loc c a =>
    rw [splitCheck]
    split <;> trivial
  | bad cause sub => trivial
  | _ => cases h

theorem isWindow_windowPlace (s : State) (t : Team) (o : Nat) : isWindow (windowPlace s t o) := by
  refine isWindow_splitCheck ?_
  unfold windowAt
  dsimp only
  split <;> trivial

theorem isWindow_pooledPlace (s : State) (launch gang core a : Nat) : isWindow (pooledPlace s launch gang core a) := by
  refine isWindow_splitCheck ?_
  unfold pooledTo
  split
  · trivial
  · unfold pooledAt
    split
    · trivial
    · split <;> trivial

theorem isWindow_windowed (g : Group) (va : DWord) (size : Nat) (s : State) : isWindow (windowed g va size s) := by
  have aligned : ∀ p, isWindow p → isWindow (match p with
      | .bad cause sub => .bad cause sub
      | p => if va.toNat % size = 0 then p else .bad 0x0B 0) := fun p hp => by
    cases p with
    | loc c a => exact iteInduction (motive := isWindow) (fun _ => trivial) (fun _ => trivial)
    | bad cause sub => trivial
    | _ => cases hp
  refine aligned _ ?_
  split
  · split
    · trivial
    · exact isWindow_windowPlace _ _ _
  · exact isWindow_pooledPlace _ _ _ _ _

theorem resolve_global {g : Group} {va : DWord} {size : Nat} {acc : Acc} (space : va.toNat / 2 ^ 56 = 0) (aligned : va.toNat % size = 0) (s : State) :
    resolve g va size acc false s = translate (some (coreNo g)) g.eid g.die va acc s := by
  simp only [resolve, space, aligned, ne_eq, not_true, if_false, OfNat.zero_ne_ofNat]

/-- An address that leads neither to local store nor to a trap is an aligned one of the global space (R215, R225). -/
theorem global_of_resolve {g : Group} {va : DWord} {size : Nat} {acc : Acc} {s : State} (h : ¬ isWindow (resolve g va size acc false s).1) :
    va.toNat / 2 ^ 56 = 0 ∧ va.toNat % size = 0 := by
  by_cases window : va.toNat / 2 ^ 56 = 0xFF ∨ va.toNat / 2 ^ 56 = 0xFE
  · rw [resolve_windowed window] at h
    have same : (crossTo (coreNo g) (windowed g va size s, s)).1 = windowed g va size s := by
      unfold crossTo
      split <;> rfl
    rw [same] at h
    exact absurd (isWindow_windowed g va size s) h
  · rw [not_or] at window
    by_cases space : va.toNat / 2 ^ 56 = 0
    · by_cases aligned : va.toNat % size = 0
      · exact ⟨space, aligned⟩
      · rw [resolve_misaligned space aligned] at h
        exact absurd trivial h
    · rw [resolve_noSpace space window.2 window.1] at h
      exact absurd trivial h

/-! #### A walk for a core -/

/-- What a walk for a core finds, once it has left the core. -/
def finds (c eid : Nat) (va : DWord) (s : State) : Walked :=
  walkWith (heldPte (cross s) (some c) eid (va.toNat % 2 ^ 56)) (va.toNat % 2 ^ 56) levels (engOf s eid).root none

theorem traffic_sliceWrite (pa : Nat) (bs : List Byte) (t : Nat) (s : State) : (sliceWrite pa bs t s).traffic = s.traffic :=
  foldl_keeps (fun u : State => u.traffic = s.traffic) (touchWrite t) (fun _ _ h => h) (linesOf pa bs.length) rfl

theorem traffic_setAD (e : DWord) (a : Nat) (acc : Acc) (s : State) : (setAD e a acc s).traffic = s.traffic := by
  unfold setAD
  dsimp only
  exact iteInduction (motive := fun t : State => t.traffic = s.traffic) (fun _ => rfl) (fun _ => traffic_sliceWrite _ _ _ _)

/-- A walk for a read leaves the core (R358). -/
theorem traffic_walk_read (c eid die : Nat) (va : DWord) (s : State) : (walk (some c) eid die va .read s).2.traffic = s.traffic + 1 := by
  unfold walk
  dsimp only
  split
  · rfl
  · rfl
  · rfl
  · split
    · rfl
    · exact (traffic_setAD _ _ _ _).trans rfl

/-- A walk for a read gives zeros where it finds an unmapped grow page, and then changes nothing but the walkers (R220). -/
theorem walk_read_grow {c eid : Nat} {va : DWord} {s : State} {parent : DWord} {a : Nat} (h : finds c eid va s = .grow parent a) (die : Nat) :
    ∃ trail, walk (some c) eid die va .read s = (.zero, keepTrail (some c) trail (cross s)) := by
  refine ⟨walkTrail (heldPte (cross s) (some c) eid (va.toNat % 2 ^ 56)) eid (va.toNat % 2 ^ 56) levels (engOf s eid).root, ?_⟩
  unfold finds at h
  unfold walk
  simp only [Option.isSome_some, if_true, show engOf (cross s) eid = engOf s eid from rfl, h]

theorem placeOf_not_zero (s : State) (eid : Nat) (e : DWord) (shift : Nat) (va : DWord) : placeOf s eid e shift va ≠ .zero := by
  simp only [placeOf]
  repeat' split
  all_goals nofun

theorem grow_of_walk_read {c eid die : Nat} {va : DWord} {s : State} (h : (walk (some c) eid die va .read s).1 = .zero) :
    ∃ parent a, finds c eid va s = .grow parent a := by
  unfold walk at h
  dsimp only at h
  split at h
  · cases h
  · cases h
  · next parent a found => exact ⟨parent, a, found⟩
  · split at h
    · cases h
    · exact absurd h (placeOf_not_zero _ _ _ _ _)

/-! #### The TLBs -/

/-- The entry that a translation for a core finds in its TLB, or in those beyond (R216). -/
def tlbSeen (c eid : Nat) (va : DWord) (s : State) : Option TlbEntry := (tlbFind s c eid va).or (tlbOuter s c eid va)

/-- Nothing but TLBs differs. -/
structure OnlyTlbs (s t : State) : Prop where
  rest : t = { s with cores := t.cores, clusterTlbs := t.clusterTlbs, dieTlbs := t.dieTlbs }
  lines : ∀ c, (coreAt t c).lines = (coreAt s c).lines

theorem onlyTlbs_tlbFill (c : Nat) (e : TlbEntry) (s : State) : OnlyTlbs s (tlbFill (some c) e s) := by
  refine ⟨rfl, fun d => ?_⟩
  have core : coreAt (tlbFill (some c) e s) d = coreAt (modCore c (fun k => { k with tlb := tlbPut 64 e k.tlb }) s) d := rfl
  rw [core, coreAt_modCore]
  split
  · next same => rw [same]
  · rfl

/-- A look-up gives the entry seen; one found beyond the core's own TLB fills that. -/
theorem tlbLook_seen (c eid : Nat) (va : DWord) (s : State) :
    (tlbLook c eid va s).1 = tlbSeen c eid va s ∧ OnlyTlbs s (tlbLook c eid va s).2 ∧ (tlbSeen c eid va s = none → (tlbLook c eid va s).2 = s) := by
  unfold tlbLook tlbSeen
  cases tlbFind s c eid va with
  | some e => exact ⟨rfl, ⟨rfl, fun _ => rfl⟩, nofun⟩
  | none =>
    cases tlbOuter s c eid va with
    | some e => exact ⟨rfl, onlyTlbs_tlbFill c e s, nofun⟩
    | none => exact ⟨rfl, ⟨rfl, fun _ => rfl⟩, fun _ => rfl⟩

theorem OnlyTlbs.placeOf_eq {s t : State} (h : OnlyTlbs s t) (eid : Nat) (e : DWord) (shift : Nat) (va : DWord) :
    placeOf t eid e shift va = placeOf s eid e shift va := by
  rw [h.rest]
  rfl

section
variable {c eid die : Nat} {va : DWord} {s : State}

theorem translate_look : translate (some c) eid die va .read s =
    translateBy (some c) eid die va .read (tlbLook c eid va s).1 (tlbLook c eid va s).2 := rfl

theorem translate_unseen (h : tlbSeen c eid va s = none) : translate (some c) eid die va .read s = walk (some c) eid die va .read s := by
  obtain ⟨entry, -, same⟩ := tlbLook_seen c eid va s
  rw [translate_look, entry, h, same h]
  rfl

theorem translate_seen {e : TlbEntry} (h : tlbSeen c eid va s = some e) : translate (some c) eid die va .read s =
    ((permFault e.leaf .read).elim (placeOf s eid e.leaf e.shift va) (.bad 0x09 ·), (tlbLook c eid va s).2) := by
  obtain ⟨entry, fills, -⟩ := tlbLook_seen c eid va s
  rw [translate_look, entry, h, ← fills.placeOf_eq]
  cases fault : permFault e.leaf .read with
  | some sub => simp [translateBy, fault]
  | none => simp [translateBy, fault]

/-- A read that finds memory and changes nothing has found it through a TLB. -/
theorem seen_of_translate {pa : Nat} (h : translate (some c) eid die va .read s = (.mem pa, s)) :
    ∃ e, tlbSeen c eid va s = some e ∧ (permFault e.leaf .read).elim (placeOf s eid e.leaf e.shift va) (.bad 0x09 ·) = .mem pa := by
  cases seen : tlbSeen c eid va s with
  | some e =>
    rw [translate_seen seen] at h
    exact ⟨e, rfl, congrArg Prod.fst h⟩
  | none =>
    rw [translate_unseen seen] at h
    have crossed := traffic_walk_read c eid die va s
    rw [h] at crossed
    dsimp only at crossed
    omega

/-- A read that gives zeros has walked to an unmapped grow page. -/
theorem grow_of_translate (h : (translate (some c) eid die va .read s).1 = .zero) :
    tlbSeen c eid va s = none ∧ ∃ parent a, finds c eid va s = .grow parent a := by
  cases seen : tlbSeen c eid va s with
  | some e =>
    rw [translate_seen seen] at h
    cases fault : permFault e.leaf .read with
    | some sub => rw [fault] at h; cases h
    | none => rw [fault] at h; exact absurd h (placeOf_not_zero _ _ _ _ _)
  | none =>
    rw [translate_unseen seen] at h
    exact ⟨rfl, grow_of_walk_read h⟩

end

/-! #### After the release -/

theorem tlbSeen_offering (c eid : Nat) (va : DWord) (s : State) : tlbSeen c eid va (offering s) = tlbSeen c eid va s := by
  have own : (coreAt (offering s) c).tlb = (coreAt s c).tlb := by rw [coreAt_offering]
  rw [tlbSeen, tlbFind, own]
  rfl

theorem finds_offering (c eid : Nat) (va : DWord) (s : State) : finds c eid va (offering s) = finds c eid va s := rfl

section
variable {va : DWord} {s : State}

/-- A record in memory whose page the TLBs hold is found there after the release too. -/
theorem resolve_mem_offering {size pa : Nat} (h : resolve s.g va size .read false s = (.mem pa, s)) :
    ∃ u, resolve (offering s).g va size .read false (offering s) = (.mem pa, u) ∧ OnlyTlbs (offering s) u := by
  obtain ⟨space, aligned⟩ := global_of_resolve (g := s.g) (va := va) (size := size) (acc := .read) (s := s) (by rw [h]; exact id)
  rw [resolve_global space aligned] at h
  obtain ⟨e, seen, leads⟩ := seen_of_translate h
  rw [← tlbSeen_offering] at seen
  refine ⟨_, ?_, (tlbLook_seen (coreNo s.g) s.g.eid va (offering s)).2.1⟩
  rw [resolve_global space aligned, coreNo_offering, show (offering s).g.eid = s.g.eid by rw [offering_g], translate_seen seen]
  exact congrArg (·, (tlbLook (coreNo s.g) s.g.eid va (offering s)).2) leads

/-- One in an unmapped grow page reads as zeros after it. -/
theorem resolve_zero_offering {size : Nat} (h : (resolve s.g va size .read false s).1 = .zero) :
    ∃ u, resolve (offering s).g va size .read false (offering s) = (.zero, u) ∧ KeepsQueues (offering s) u := by
  obtain ⟨space, aligned⟩ := global_of_resolve (g := s.g) (va := va) (size := size) (acc := .read) (s := s) (by rw [h]; exact id)
  rw [resolve_global space aligned] at h
  obtain ⟨unseen, parent, a, found⟩ := grow_of_translate h
  rw [← tlbSeen_offering] at unseen
  rw [← finds_offering] at found
  obtain ⟨trail, walked⟩ := walk_read_grow found (offering s).g.die
  refine ⟨_, ?_, (⟨rfl, rfl, rfl, rfl, rfl, rfl, rfl⟩ : KeepsQueues (offering s) (keepTrail (some (coreNo s.g)) trail (cross (offering s))))⟩
  rw [resolve_global space aligned, coreNo_offering, show (offering s).g.eid = s.g.eid by rw [offering_g], translate_unseen unseen, walked]

end

end Sys2Proof.Launching

/-! ### A record read at its home slice (R228, R341) -/

namespace Sys2Proof.Launching

open Sys2Proof Sys2Proof.Machine Sys2Proof.Safety Sys2Proof.Laws Sys2Proof.Groups

/-- From `s` to `t` the cache role has been touched, and nothing else. -/
def OnlyCaches (s t : State) : Prop := t = { s with cached := t.cached, poison := t.poison, traffic := t.traffic }

theorem OnlyCaches.trans {s t u : State} (h : OnlyCaches s t) (k : OnlyCaches t u) : OnlyCaches s u := by
  rw [OnlyCaches] at h k ⊢
  rw [k, h]

theorem onlyCaches_cachePlace {ways : List Nat} {s t : State} {w p : Nat} (h : cachePlace ways s = some (w, p, t)) : OnlyCaches s t := by
  unfold cachePlace at h
  dsimp only at h
  split at h
  · cases h
    rfl
  · split at h
    · cases h
    · cases h
      rfl

theorem onlyCaches_cacheTouch (eid cls : Nat) (dirty last : Bool) (s : State) (line : Nat) : OnlyCaches s (cacheTouch eid cls dirty last s line) := by
  unfold cacheTouch
  dsimp only
  split
  · rfl
  · split
    · rfl
    · next placed => exact (onlyCaches_cachePlace placed).trans rfl

theorem onlyCaches_sliceTouch (va : DWord) (pa n : Nat) (dirty last : Bool) (s : State) : OnlyCaches s (sliceTouch va pa n dirty last s) :=
  foldl_keeps (OnlyCaches s) _ (fun t line h => h.trans (onlyCaches_cacheTouch _ _ dirty last t line)) _ rfl

theorem keepsQueues_of_onlyCaches {s t : State} (h : OnlyCaches s t) : KeepsQueues s t := by
  rw [OnlyCaches] at h
  rw [h]
  exact ⟨rfl, rfl, rfl, rfl, rfl, rfl, rfl⟩

theorem keepsQueues_of_onlyFetches {s t : State} (h : OnlyFetches s t) : KeepsQueues s t := by
  rw [OnlyFetches] at h
  rw [h]
  exact ⟨rfl, rfl, rfl, rfl, rfl, rfl, rfl⟩

theorem keepsQueues_of_onlyTlbs {s t : State} (h : OnlyTlbs s t) : KeepsQueues s t := by
  rw [h.rest]
  exact ⟨rfl, rfl, rfl, rfl, rfl, rfl, rfl⟩

theorem keepsQueues_raiseGwts (gs : List Nat) (t : Nat) (own : Group → Nat) (s : State) : KeepsQueues s (raiseGwts gs t own s) :=
  ⟨rfl, rfl, rfl, rfl, rfl, rfl, iteInduction (motive := fun g : Group => g.pc = s.g.pc) (fun _ => rfl) (fun _ => rfl)⟩

theorem ownPosted_of_postedBy {gid : Nat} {i : Instr} (h : postedBy gid i = false) (f : SliceReq → Bool) : ownPosted gid f i = false := by
  cases i with
  | sliceOperation r => exact Bool.and_eq_false_iff.mpr (.inl h)
  | _ => rfl

section
variable {s : State} {pa : Nat} (posted : ∀ i ∈ s.pending, postedBy s.g.gid i = false)
  (absent : findLine (coreAt s (coreNo s.g)) (pa / 64) s.g.eid = none)
include posted absent

/-- A read past the L1 by a group that has posted nothing, of a line that its core does not hold, gives what memory holds. -/
theorem slowRead_absent {n : Nat} (sound : memError s pa n = none) (va : DWord) (kind : Nat) :
    ∃ w signs t, slowRead va pa n kind s = (.data (memRead s pa n) w signs, t) ∧ KeepsQueues s t := by
  have waits : performOn s.g.gid (pa / 64) s = s := performWhere_none fun i hi => ownPosted_of_postedBy (posted i hi) _
  have keeps : ∀ m, flushWords (coreNo s.g) (pa / 64) s.g.eid m s = s := fun m => by rw [flushWords, absent]
  refine ⟨wtsOf s (pa / 64), signersOf s pa n, raiseGwts [s.g.gid] (wtsOf s (pa / 64)) (fun h => teamTime h.tid (signersOf s pa n))
    (note (agentOf s.g) s.g.eid kind va (some pa) n (sliceTouch va pa n false false s)), ?_, ?_⟩
  · simp only [slowRead, slowReadBy, waits, keeps, sound]
  · exact ((keepsQueues_of_onlyCaches (onlyCaches_sliceTouch va pa n false false s)).trans
      (keepsQueues_of_onlyFetches (onlyFetches_note (agentOf s.g) s.g.eid kind va (some pa) n _))).trans (keepsQueues_raiseGwts _ _ _ _)

end

end Sys2Proof.Launching

/-! ### `LAUNCH` and `SUBMIT` (R187, R374 to R377, R417), and O44 -/

namespace Sys2Proof.Launching

open Sys2Proof Sys2Proof.Machine Sys2Proof.Safety Sys2Proof.Laws Sys2Proof.Groups

/-! #### The offer of a record -/

/-- A record is offered to its queue, and the answer goes to D (R187). -/
def offerRecord (x : Fields) (issuer : Option Launch) (b : List Byte) (u : State) : Result :=
  let e := enqueue b u.g.die issuer (afterOf b) u
  finish (writeUni e.2.2.g x.d [BitVec.ofNat 32 (e.1 + 256 * (e.2.1 % 2 ^ 24))]) e.2.2

/-- What a `LAUNCH` of the record `b` by launch `l` leaves, with its answer in uniform register `d`. -/
def Answers (s : State) (l : Launch) (b : List Byte) (d : Nat) (t : State) : Prop :=
  let r := recordOf b
  t.mem = s.mem ∧ t.g.pc = s.g.pc + 12 ∧
  (∀ k, kernelOf s r = some k → recordOk s b r k (some l) = true →
    (s.launches.filter (fun l => inQueue l && l.record.prio == r.prio)).length < 1024 → ∃ n, t.launches = s.launches ++ [n] ∧
    n.seq = s.nextSeq ∧ n.record = r ∧ n.kernel = k ∧ n.phase = .queued ∧ n.nextGang = 0 ∧ n.placed = [] ∧
    n.deps = (if r.after = 0 then [] else [r.after]) ∧
    t.nextSeq = s.nextSeq + 1 ∧ sGet t.g d = BitVec.ofNat 32 (256 * (s.nextSeq % 2 ^ 24))) ∧
  (∀ k, kernelOf s r = some k → recordOk s b r k (some l) = true →
    1024 ≤ (s.launches.filter (fun l => inQueue l && l.record.prio == r.prio)).length → t.launches = s.launches ∧ sGet t.g d = 1) ∧
  ((∀ k, kernelOf s r = some k → recordOk s b r k (some l) = false) → t.launches = s.launches ∧ sGet t.g d = 2)

section
variable {x : Fields} {s u : State} {l : Launch} {d : BitVec 8}

theorem offerRecord_next (hd : x.d = .s d) (issuer : Option Launch) (b : List Byte) (u : State) :
    let e := enqueue b u.g.die issuer (afterOf b) u
    ∃ t, offerRecord x issuer b u = .next t ∧ t.mem = u.mem ∧ t.g.pc = u.g.pc + 12 ∧ t.launches = e.2.2.launches ∧
      t.nextSeq = e.2.2.nextSeq ∧ sGet t.g d.toNat = BitVec.ofNat 32 (e.1 + 256 * (e.2.1 % 2 ^ 24)) := by
  intro e
  obtain ⟨frame, regs⟩ := writeUni_s e.2.2.g d [BitVec.ofNat 32 (e.1 + 256 * (e.2.1 % 2 ^ 24))]
  have offered := enqueue_rest b u.g.die issuer (afterOf b) u
  refine ⟨_, rfl, (congrArg State.mem offered :), ?_, rfl, rfl, ?_⟩
  · rw [hd]
    have pc : (writeUni e.2.2.g (.s d) [BitVec.ofNat 32 (e.1 + 256 * (e.2.1 % 2 ^ 24))]).pc = u.g.pc := by
      rw [frame]
      exact (congrArg (fun t : State => t.g.pc) offered :)
    exact congrArg (· + 12) pc
  · rw [hd]
    refine (regs d.toNat).trans ((if_pos ⟨le_refl _, Nat.lt_succ_self _⟩).trans ?_)
    rw [Nat.sub_self]
    rfl

/-- An offer from a state with the same queues answers as R187 and R377 say. -/
theorem offerRecord_answers (hd : x.d = .s d) (b : List Byte) (same : KeepsQueues s u) :
    ∃ t, offerRecord x (some l) b u = .next t ∧ Answers s l b d.toNat t := by
  obtain ⟨t, run, mem, pc, launches, nextSeq, answer⟩ := offerRecord_next hd (some l) b u
  refine ⟨t, run, mem.trans same.mem, pc.trans (by rw [same.pc]), fun k kernel pass room => ?_, fun k kernel pass full => ?_, fun fails => ?_⟩
  · rw [← same.kernelOf_eq] at kernel
    rw [← same.recordOk_eq] at pass
    rw [← same.launches] at room
    rw [enqueue_accepts kernel pass room] at launches nextSeq answer
    refine ⟨_, launches.trans (by rw [same.launches]), same.nextSeq, rfl, rfl, rfl, rfl, rfl, rfl, nextSeq.trans (by rw [same.nextSeq]), ?_⟩
    rw [answer, same.nextSeq, Nat.zero_add]
  · rw [← same.kernelOf_eq] at kernel
    rw [← same.recordOk_eq] at pass
    rw [← same.launches] at full
    rw [enqueue_full kernel pass full] at launches answer
    exact ⟨launches.trans same.launches, answer⟩
  · simp only [← same.kernelOf_eq, ← same.recordOk_eq] at fails
    rw [enqueue_rejects fails] at launches answer
    exact ⟨launches.trans same.launches, answer⟩

end

/-! #### `LAUNCH` (R187) -/

section
variable {x : Fields} {s : State}

theorem execLaunch_forbidden (h : ∀ l, findLaunch s s.g.launch = some l → l.record.lp = false) :
    execLaunch x s = trapped (wordTrap 0x04) s := by
  refine need_bad ?_ _ _ _
  cases found : findLaunch s s.g.launch with
  | none => rfl
  | some l => exact h l found

/-- D is a uniform register, and A an even pair apart from it (R187). -/
theorem launchOperands {d a : BitVec 8} (hd : x.d = .s d) (ha : x.a = .s a) (dle : d.toNat ≤ 63) (even : a.toNat % 2 = 0) (ale : a.toNat ≤ 62)
    (off : d.toNat / 2 ≠ a.toNat / 2) (g : Group) : (isS x.d && regOk g x.d 1 && isSPair x.a && regOk g x.a 2 && apart x.d 1 x.a 2) = true := by
  have top : a.toNat < 63 := by omega
  have apart_ : d.toNat < a.toNat ∨ a.toNat + 2 ≤ d.toNat := by omega
  simp [hd, ha, isS, regOk, isSPair, opIdx, apart, isV, Nat.mod_one, dle, even, top, apart_]

section
variable {l : Launch} (found : findLaunch s s.g.launch = some l) (allowed : l.record.lp = true)
  (ok : (isS x.d && regOk s.g x.d 1 && isSPair x.a && regOk s.g x.a 2 && apart x.d 1 x.a 2) = true)
include found allowed ok

theorem execLaunch_onward (h : holdsQ s.g x = false) : execLaunch x s = finish s.g s := by
  simp only [execLaunch, found, Option.any_some, allowed, need_ok, ok, h, Bool.false_eq_true, if_false]

variable (h : holdsQ s.g x = true)
include h

theorem execLaunch_misaligned (off : (read64 s.g x 0 x.a).toNat % 64 ≠ 0) :
    execLaunch x s = trapped ⟨0x0B, 0, some (read64 s.g x 0 x.a), 0⟩ s := by
  simp only [execLaunch, found, Option.any_some, allowed, need_ok, ok, h, if_true, if_pos off]

variable (aligned : (read64 s.g x 0 x.a).toNat % 64 = 0) (quiet : allQuiet s s.g.gid)
include aligned quiet

theorem execLaunch_local {c p : Nat} {u : State}
    (leads : resolve (offering s).g (read64 s.g x 0 x.a) 64 .read false (offering s) = (.loc c p, u)) (sound : localError u c p 64 = false) :
    execLaunch x s = offerRecord x (some l) (localRead u c p 64) u := by
  simp only [execLaunch, found, Option.any_some, allowed, need_ok, ok, h, if_true, aligned, ne_eq, not_true, if_false,
    releaseAll_quiet quiet (show 2 ≤ 3 by decide), offering_eq, leads, sound, Bool.false_eq_true]
  rfl

theorem execLaunch_mem {pa w : Nat} {b : List Byte} {signs : List (Sparse Nat)} {u v : State}
    (leads : resolve (offering s).g (read64 s.g x 0 x.a) 64 .read false (offering s) = (.mem pa, u))
    (read : slowRead (read64 s.g x 0 x.a) pa 64 0 u = (.data b w signs, v)) : execLaunch x s = offerRecord x (some l) b v := by
  simp only [execLaunch, found, Option.any_some, allowed, need_ok, ok, h, if_true, aligned, ne_eq, not_true, if_false,
    releaseAll_quiet quiet (show 2 ≤ 3 by decide), offering_eq, leads, read]
  rfl

theorem execLaunch_zero {u : State}
    (leads : resolve (offering s).g (read64 s.g x 0 x.a) 64 .read false (offering s) = (.zero, u)) :
    execLaunch x s = offerRecord x (some l) (List.replicate 64 0) u := by
  simp only [execLaunch, found, Option.any_some, allowed, need_ok, ok, h, if_true, aligned, ne_eq, not_true, if_false,
    releaseAll_quiet quiet (show 2 ≤ 3 by decide), offering_eq, leads]
  rfl

variable {d : BitVec 8} (hd : x.d = .s d) {b : List Byte}
include hd

/-- A record in local store is offered. -/
theorem launch_from_local {c p : Nat} (place : resolve s.g (read64 s.g x 0 x.a) 64 .read false s = (.loc c p, s))
    (sound : localError s c p 64 = false) : ∃ t, execLaunch x s = .next t ∧ Answers s l (localRead s c p 64) d.toNat t := by
  have leads := resolve_local (congrArg Prod.fst place) (sameWindows_offering s)
  have keeps : KeepsQueues s (if c = coreNo (offering s).g then offering s else cross (offering s)) :=
    iteInduction (motive := KeepsQueues s) (fun _ => keepsQueues_offering s)
      (fun _ => (keepsQueues_offering s).trans ⟨rfl, rfl, rfl, rfl, rfl, rfl, rfl⟩)
  have sound' : localError (if c = coreNo (offering s).g then offering s else cross (offering s)) c p 64 = false :=
    have released := (localError_offering s c p 64).trans sound
    iteInduction (motive := fun u : State => localError u c p 64 = false) (fun _ => released) (fun _ => released)
  have bytes : localRead (if c = coreNo (offering s).g then offering s else cross (offering s)) c p 64 = localRead s c p 64 :=
    have released := localRead_offering s c p 64
    iteInduction (motive := fun u : State => localRead u c p 64 = localRead s c p 64) (fun _ => released) (fun _ => released)
  rw [execLaunch_local found allowed ok h aligned quiet leads sound', bytes]
  exact offerRecord_answers hd _ keeps

/-- A record in memory, of which the core's L1 holds no word, is offered. -/
theorem launch_from_mem {pa : Nat} (place : resolve s.g (read64 s.g x 0 x.a) 64 .read false s = (.mem pa, s))
    (absent : findLine (coreAt s (coreNo s.g)) (pa / 64) s.g.eid = none) (sound : memError s pa 64 = none) :
    ∃ t, execLaunch x s = .next t ∧ Answers s l (memRead s pa 64) d.toNat t := by
  obtain ⟨u, leads, tlbs⟩ := resolve_mem_offering place
  have group : u.g = (offering s).g := by rw [tlbs.rest]
  have pending : ∀ i ∈ u.pending, postedBy u.g.gid i = false := by
    rw [group, offering_g, tlbs.rest]
    exact quiet.1
  have lines : findLine (coreAt u (coreNo u.g)) (pa / 64) u.g.eid = none := by
    rw [group, coreNo_offering, findLine, tlbs.lines, coreAt_offering, offering_g]
    exact absent
  have error : memError u pa 64 = none := by
    rw [tlbs.rest]
    exact sound
  have bytes : memRead u pa 64 = memRead s pa 64 := by
    rw [tlbs.rest]
    rfl
  obtain ⟨w, signs, v, read, keeps⟩ := slowRead_absent pending lines error (read64 s.g x 0 x.a) 0
  rw [execLaunch_mem found allowed ok h aligned quiet leads read, bytes]
  exact offerRecord_answers hd _ (((keepsQueues_offering s).trans (keepsQueues_of_onlyTlbs tlbs)).trans keeps)

/-- An unmapped grow page holds a record of zeros. -/
theorem launch_from_zero (place : (resolve s.g (read64 s.g x 0 x.a) 64 .read false s).1 = .zero) :
    ∃ t, execLaunch x s = .next t ∧ Answers s l (List.replicate 64 0) d.toNat t := by
  obtain ⟨u, leads, keeps⟩ := resolve_zero_offering place
  rw [execLaunch_zero found allowed ok h aligned quiet leads]
  exact offerRecord_answers hd _ ((keepsQueues_offering s).trans keeps)

end

end

/-! #### `SUBMIT` (R374, R417) -/

section
variable {m : Msg} {s : State} {eid : Nat}

/-- A well-formed `SUBMIT` of a record of its own engagement offers it, and answers with the word of R187. -/
theorem execSubmit_offers (req : engReq s m 0x01 eid) (arg : m.arg = 0) (len : m.len.toNat = 64) (size : m.payload.length = 64)
    (own : (recordOf m.payload).eng = eid) : execSubmit m s = .next (reply m 0
      (submitWord (enqueue m.payload 0 none (afterOf m.payload) s).1 (enqueue m.payload 0 none (afterOf m.payload) s).2.1)
      (enqueue m.payload 0 none (afterOf m.payload) s).2.2) := by
  obtain ⟨k, conn, auth, system, keid, eng, live, op, flg, xsel⟩ := req
  have header : (hdrOk m 0x01 && plainMsg m && m.arg == 0 && m.payload.length == recordSize) = true := by
    simpa [hdrOk, plainMsg, recordSize, op, xsel, arg, len, size] using flg
  subst keid
  simp only [execSubmit, engMsg, onConn, conn, auth, header, system, eng, live, own, if_true, Bool.not_true, Bool.false_eq_true, if_false,
    bne_self_eq_false, Bool.or_self]

end

/-- Settles O44: `LAUNCH` by its permission, its guards and the alignment, then by where the record lies; what an offer answers
depends on the record and on its queue, for `LAUNCH` and `SUBMIT` alike. -/
theorem launchRecords : Obligations.LaunchRecords := by
  refine ⟨fun x s d a _ hd ha dle even ale off => ?_, fun m s eid req arg len size own k kernel => ?_⟩
  · intro onward va
    have ok := launchOperands hd ha dle even ale off s.g
    have addr : read64 s.g x 0 x.a = va := by rw [ha]; rfl
    refine ⟨execLaunch_forbidden, fun l found allowed => ⟨execLaunch_onward found allowed ok, fun on away => ?_, fun b on aligned quiet places => ?_⟩⟩
    · rw [← addr] at away ⊢
      exact execLaunch_misaligned found allowed ok on away
    · rw [← addr] at aligned places
      rcases places with ⟨c, p, place, sound, rfl⟩ | ⟨pa, place, absent, sound, rfl⟩ | ⟨place, rfl⟩
      · exact launch_from_local found allowed ok on aligned quiet hd place sound
      · exact launch_from_mem found allowed ok on aligned quiet hd place absent sound
      · exact launch_from_zero found allowed ok on aligned quiet hd place
  · have run := execSubmit_offers req arg len size own
    refine ⟨fun pass room => ?_, fun pass full => ?_, fun fails => ?_⟩
    · rw [enqueue_accepts kernel pass room] at run
      exact ⟨_, newLaunch s (recordOf m.payload) k 0 (afterOf m.payload), run, ⟨_, by rw [← Nat.zero_add (256 * _)]; rfl⟩, rfl, rfl, rfl, rfl, rfl, rfl⟩
    · rw [enqueue_full kernel pass full] at run
      exact ⟨_, run, ⟨_, rfl⟩, rfl, rfl, rfl⟩
    · rw [enqueue_rejects fun k' h => by rw [kernel] at h; cases h; exact fails] at run
      exact ⟨_, run, ⟨_, rfl⟩, rfl⟩

end Sys2Proof.Launching

/-! ### Requests of system connections to `Charon` (R417, R420) -/

namespace Sys2Proof.Requests

open Sys2Proof Sys2Proof.Machine Sys2Proof.Safety Sys2Proof.Laws

/-- A well-formed request of a system connection goes on to what it asks. -/
theorem ctrl_of_sysReq {s : State} {m : Msg} {code : Nat} (req : sysReq s m code) {ok : Bool} (hok : ok = true) (k : Result) :
    ctrl m code ok k s = k := by
  obtain ⟨c, conn, auth, system, hdr, eng, xsel, op, recovery⟩ := req
  have serves : (s.recovery && !inRecovery code) = false := by
    cases h : s.recovery
    · rfl
    · rw [recovery h]
      rfl
  simp [ctrl, onConn, conn, auth, system, hdr, eng, xsel, op, hok, serves]

theorem answered_reply (m : Msg) (status : Nat) (data : List Byte) (s : State) : answered m status data (reply m status data s) :=
  ⟨s.out, rfl⟩

end Sys2Proof.Requests

/-! ### Device registers (R205, R222, R337, R342, R344, R370, R409, R419, R435), and O59 -/

namespace Sys2Proof.Requests

open Sys2Proof Sys2Proof.Machine Sys2Proof.Safety Sys2Proof.Laws

/-! #### What the registers read as -/

theorem bitsAt_lt (x hi lo : Nat) : bitsAt x hi lo < 2 ^ (hi + 1 - lo) := Nat.mod_lt _ (Nat.two_pow_pos _)

theorem coreClass_ne_three (s : State) (c : Nat) : coreClass s c ≠ some 3 := by
  unfold coreClass
  dsimp only
  repeat' split
  all_goals simp

/-- `DCAP` counts a die's cores of one class (R337); the class 3 stands for the disabled cores. -/
theorem coresOf_eq (s : State) (die : Nat) : ∀ k, coresOf s die k =
    ((List.range 48).filter (fun n => coreClass s (48 * die + n) = if k = 3 then none else some k)).length := by
  intro k
  refine congrArg List.length (List.filter_congr fun c _ => ?_)
  have no := coreClass_ne_three s (48 * die + c)
  rw [Bool.eq_iff_iff]
  simp only [beq_iff_eq, decide_eq_true_eq]
  cases e : coreClass s (48 * die + c) with
  | none => simp [eq_comm]
  | some j =>
    have : j ≠ 3 := fun h => no (by rw [e, h])
    by_cases h : k = 3 <;> simp [h, this]

section
variable {m : Msg} {s : State}

theorem execReadRegister_eq (req : sysReq s m 0x20) (arg : argOnly m 0 = true) (addr : m.addr = 0) (reg : registerOk m.arg2 = true)
    (empty : m.payload = []) : execReadRegister m s = .next (reply m 0 (leBytes 8 (registerValue s (selectorOf m.arg2))) s) :=
  ctrl_of_sysReq req (by simp [arg, addr, reg, empty]) _

theorem execWriteRegister_put (req : sysReq s m 0x21) (arg : argOnly m 0 = true) (addr : m.addr = 0) (reg : registerOk m.arg2 = true)
    (size : m.payload.length = 8) {t : State} (put : putRegister (selectorOf m.arg2) (pay m 0 8) s = some t) :
    execWriteRegister m s = .next (reply m 0 [] t) := by
  rw [execWriteRegister, ctrl_of_sysReq req (by simp [arg, addr, reg, size]), put]

theorem execWriteRegister_fixed (req : sysReq s m 0x21) (arg : argOnly m 0 = true) (addr : m.addr = 0) (reg : registerOk m.arg2 = true)
    (size : m.payload.length = 8) (put : putRegister (selectorOf m.arg2) (pay m 0 8) s = none) :
    execWriteRegister m s = .next (reply m 4 [] s) := by
  rw [execWriteRegister, ctrl_of_sysReq req (by simp [arg, addr, reg, size]), put]

theorem execWgcfgRoleWrite_eq (req : sysReq s m 0x21) (arg : argOnly m 0 = true) (addr : m.addr = 0) (reg : registerOk m.arg2 = true)
    (size : m.payload.length = 8) (wg : (selectorOf m.arg2).reg = 3) : execWgcfgRoleWrite m s =
      .next (reply m 0 [] (writeWg (32 * (selectorOf m.arg2).die + (selectorOf m.arg2).slice) (selectorOf m.arg2).idx (pay m 0 8) s)) :=
  ctrl_of_sysReq req (by simp [arg, addr, reg, size, wg]) _

/-- An error count is one of three. -/
theorem errorCount_idx {x : DWord} (ok : registerOk x = true) (reg : (selectorOf x).reg = 6) : (selectorOf x).idx < 3 := by
  simp only [registerOk, reg, Bool.and_eq_true, decide_eq_true_eq] at ok
  omega

end

/-! #### What a write of a way-group's register changes (R342, R344) -/

/-- A role starts a change where the way-group is not changing, the role exists and it differs. -/
theorem newRole_iff (w : WgCfg) (v : Nat) : (w.busy || BitVec.ofNat 2 (bitsAt v 1 0) == 3 || BitVec.ofNat 2 (bitsAt v 1 0) == w.role) = false ↔
    w.busy = false ∧ bitsAt v 1 0 ≠ 3 ∧ bitsAt v 1 0 ≠ w.role.toNat := by
  have small : bitsAt v 1 0 % 2 ^ 2 = bitsAt v 1 0 := Nat.mod_eq_of_lt (bitsAt_lt v 1 0)
  simp only [Bool.or_eq_false_iff, beq_eq_false_iff_ne, ne_eq, BitVec.toNat_eq, BitVec.toNat_ofNat, small, and_assoc]
  rfl

theorem wgOf_modWg (slice wg : Nat) (f : WgCfg → WgCfg) (s : State) (i j : Nat) :
    wgOf (modWg slice wg f s) i j = if 16 * i + j = 16 * slice + wg then f (wgOf s slice wg) else wgOf s i j := get_set ..

theorem wgOf_writeWg (slice wg v : Nat) (s : State) : wgOf (writeWg slice wg v s) slice wg =
    let w := wgOf s slice wg
    if w.busy = false ∧ bitsAt v 1 0 ≠ 3 ∧ bitsAt v 1 0 ≠ w.role.toNat
      then { w with clsm := BitVec.ofNat 16 (bitsAt v 31 16), busy := true, next := BitVec.ofNat 2 (bitsAt v 1 0) }
      else { w with clsm := BitVec.ofNat 16 (bitsAt v 31 16) } := by
  rw [writeWg, wgOf_modWg, if_pos rfl]
  dsimp only
  by_cases h : (wgOf s slice wg).busy = false ∧ bitsAt v 1 0 ≠ 3 ∧ bitsAt v 1 0 ≠ (wgOf s slice wg).role.toNat
  · rw [if_pos h, if_neg (Bool.eq_false_iff.mp ((newRole_iff _ v).mpr h))]
  · rw [if_neg h, if_pos (Bool.eq_true_of_not_eq_false (mt (newRole_iff _ v).mp h))]

theorem wgOf_writeWg_other {slice wg i j : Nat} (h : 16 * i + j ≠ 16 * slice + wg) (v : Nat) (s : State) :
    wgOf (writeWg slice wg v s) i j = wgOf s i j := by
  rw [writeWg, wgOf_modWg, if_neg h]

/-! #### What a write changes, register by register (R419) -/

section
variable {r : Selector} (v : Nat) (s : State)

theorem putRegister_corecfg (h : r.reg = 2) : putRegister r v s =
    some (modCore (48 * r.die + r.core) (fun k => { k with age := bitsAt v 47 40, lease := bitsAt v 39 32 }) s) := by
  simp only [putRegister, h]

theorem putRegister_wgcfg (h : r.reg = 3) : putRegister r v s = some (writeWg (32 * r.die + r.slice) r.idx v s) := by
  simp only [putRegister, h]

theorem putRegister_shares (h : r.reg = 4) : putRegister r v s = some { s with
    ageth := BitVec.ofNat 8 (bitsAt v 47 40), w2 := BitVec.ofNat 8 (bitsAt v 23 16), w1 := BitVec.ofNat 8 (bitsAt v 15 8)
    w0 := BitVec.ofNat 8 (bitsAt v 7 0) } := by
  simp only [putRegister, h]

theorem putRegister_power (h : r.reg = 5) : putRegister r v s =
    some { s with capw := if 600 ≤ bitsAt v 31 16 ∧ bitsAt v 31 16 ≤ 2400 then bitsAt v 31 16 else s.capw } := by
  simp only [putRegister, h]
  split <;> rfl

theorem putRegister_fixed (h : r.reg = 1 ∨ 6 ≤ r.reg) : putRegister r v s = none := by
  unfold putRegister
  split
  case h_5 => rfl
  all_goals omega

end

/-- Settles O59: a read by the layout of each register, a write by the fields that software owns. -/
theorem deviceRegisters : Obligations.DeviceRegisters := by
  intro m s arg addr ok r v c sl f k w cores reads
  have reading : ∀ x, registerValue s r = x → reads x := by
    rintro _ rfl req empty
    exact ⟨_, execReadRegister_eq req arg addr ok empty, answered_reply .., rfl⟩
  refine ⟨fun h => reading _ ?_, fun h => reading _ ?_, fun h => reading _ ?_, fun h => reading _ ?_, fun h => reading _ ?_, fun h => reading _ ?_,
    fun h => reading _ ?_, fun h => reading _ ?_, fun req size => ⟨fun h => ?_, fun h => ?_, fun h o ho => ?_, fun h => ?_, fun h => ?_⟩⟩
  · simp only [registerValue, h, dcap, coresOf_eq, beq_eq_decide]
    rfl
  · simp only [registerValue, h, corecfg]
    cases (coreAt s (48 * r.die + r.core)).chg <;> rfl
  · simp only [registerValue, h]
    cases (wgOf s (32 * r.die + r.slice) r.idx).busy <;> rfl
  · simp only [registerValue, h]
    rfl
  · simp only [registerValue, h]
    rfl
  · have : r.idx = 0 ∨ r.idx = 1 ∨ r.idx = 2 := by have : r.idx < 3 := errorCount_idx ok h; omega
    simp only [registerValue, h]
    rcases this with e | e | e <;> simp [e, nth, k, c]
  · simp only [registerValue, h]
    rfl
  · simp only [registerValue, h]
  · exact ⟨_, execWriteRegister_fixed req arg addr ok size (putRegister_fixed v s h), answered_reply .., rfl⟩
  · refine ⟨_, execWriteRegister_put req arg addr ok size (putRegister_corecfg v s h), answered_reply .., ?_, fun n hn => ?_, rfl⟩
    · exact get_set_self ..
    · exact get_set_ne _ hn ..
  · have run : exec o s = .next (reply m 0 [] (writeWg sl r.idx v s)) := by
      rcases ho with rfl | rfl
      · exact execWriteRegister_put req arg addr ok size (putRegister_wgcfg v s h)
      · exact execWgcfgRoleWrite_eq req arg addr ok size h
    exact ⟨_, run, answered_reply .., rfl, fun i j hij => wgOf_writeWg_other hij v s, wgOf_writeWg sl r.idx v s⟩
  · exact ⟨_, execWriteRegister_put req arg addr ok size (putRegister_shares v s h), answered_reply .., rfl⟩
  · exact ⟨_, execWriteRegister_put req arg addr ok size (putRegister_power v s h), answered_reply .., rfl⟩

end Sys2Proof.Requests

/-! ### What an access at a home slice changes (R211, R290, R341, R346, R428) -/

namespace Sys2Proof.HomeSlices

open Sys2Proof Sys2Proof.Machine Sys2Proof.Safety Sys2Proof.Laws Sys2Proof.NumberFormats Sys2Proof.Groups Sys2Proof.Launching

/-- An entry of the access log changes the log alone (R428). -/
theorem note_rest (agent eid kind : Nat) (va : DWord) (pa : Option Nat) (n : Nat) (s : State) :
    note agent eid kind va pa n s = { s with log := (note agent eid kind va pa n s).log } := by
  have fetches : note agent eid kind va pa n s = { s with cores := _, log := _ } := onlyFetches_note agent eid kind va pa n s
  rw [(offCore_note agent eid kind va pa n s).cores] at fetches
  exact fetches

/-- From `s` to `t` accesses have performed at the home slices: memory, what holds its lines, the times and the writers of its words,
errors, histories of cells, and the model's count of accesses that leave a core may have changed, and the access log. -/
def OnlySlices (s t : State) : Prop := t = { s with
  mem := t.mem, poison := t.poison, tagFail := t.tagFail, wts := t.wts, wrote := t.wrote, sums := t.sums, cached := t.cached, kv := t.kv
  traffic := t.traffic, log := t.log }

theorem OnlySlices.trans {s t u : State} (h : OnlySlices s t) (k : OnlySlices t u) : OnlySlices s u := by
  rw [OnlySlices] at h k ⊢
  rw [k, h]

section
variable {s t : State} (h : OnlySlices s t)
include h

theorem OnlySlices.g : t.g = s.g := by rw [h]
theorem OnlySlices.others : t.others = s.others := by rw [h]
theorem OnlySlices.cores : t.cores = s.cores := by rw [h]
theorem OnlySlices.accs : t.accs = s.accs := by rw [h]
theorem OnlySlices.fresh : t.fresh = s.fresh := by rw [h]

end

theorem onlySlices_note (agent eid kind : Nat) (va : DWord) (pa : Option Nat) (n : Nat) (s : State) :
    OnlySlices s (note agent eid kind va pa n s) := by
  rw [note_rest]
  rfl

theorem onlySlices_sliceTouch (va : DWord) (pa n : Nat) (dirty last : Bool) (s : State) : OnlySlices s (sliceTouch va pa n dirty last s) := by
  have h := onlyCaches_sliceTouch va pa n dirty last s
  rw [OnlyCaches] at h
  rw [OnlySlices, h]

theorem onlySlices_sliceRmw (pa : Nat) (bs : List Byte) (t : Nat) (s : State) : OnlySlices s (sliceRmw pa bs t s) :=
  foldl_keeps (OnlySlices s) (touchWrite t) (fun u line h => h.trans (u := touchWrite t u line) rfl) _ (rfl : OnlySlices s (memWrite pa bs s))

theorem onlySlices_sliceWrite (pa : Nat) (bs : List Byte) (t : Nat) (s : State) : OnlySlices s (sliceWrite pa bs t s) :=
  OnlySlices.trans (t := unsign pa bs.length s) rfl (onlySlices_sliceRmw pa bs t _)

/-- Bytes within one line touch that line alone. -/
theorem linesOf_within {pa n : Nat} (pos : 0 < n) (within : pa % 64 + n ≤ 64) : linesOf pa n = [pa / 64] := by
  have one : (pa + n - 1) / 64 + 1 - pa / 64 = 1 := by omega
  rw [linesOf, one]
  simp

/-- A write within one line advances the write time of the line (R211). -/
theorem wtsOf_sliceWrite {pa : Nat} {bs : List Byte} (pos : 0 < bs.length) (within : pa % 64 + bs.length ≤ 64) (t : Nat) (s : State) :
    wtsOf (sliceWrite pa bs t s) (pa / 64) = nextWts s (pa / 64) t := by
  rw [sliceWrite, sliceRmw, linesOf_within pos within]
  exact get_set_self 0 (pa / 64) _ _

theorem sliceBytes_pos (k : SliceKind) : 0 < sliceBytes k := by
  cases k with
  | atom op t x e => simp only [sliceBytes, atomBytes]; split <;> omega
  | _ => simp [sliceBytes]

end Sys2Proof.HomeSlices

/-! ### Cells of exact sums (R235, R236) -/

namespace Sys2Proof.HomeSlices

open Sys2Proof Sys2Proof.Machine Sys2Proof.Safety Sys2Proof.Laws Sys2Proof.NumberFormats Sys2Proof.Groups Sys2Proof.Launching

theorem length_cellBytes (sum : Int) (n spec : Nat) : (cellBytes sum n spec).length = 64 := by
  simp only [cellBytes, List.length_append, leBytes_length]

theorem length_cellAdd (b : List Byte) (x : Nat) : (cellAdd b x).length = 64 := by
  unfold cellAdd
  dsimp only
  repeat' split
  all_goals exact length_cellBytes ..

theorem length_sliceResult (k : SliceKind) (b : List Byte) : (sliceResult k b).length = sliceBytes k := by
  cases k with
  | xadd x => exact length_cellAdd b x.toNat
  | xclear => exact List.length_replicate
  | _ => exact leBytes_length ..

/-! #### The fields of a cell -/

section
variable (sum : Int) (n spec : Nat)

theorem cellBytes_sum : (cellBytes sum n spec).take 48 = leBytes 48 (sum % 2 ^ 384).toNat := by
  rw [cellBytes, List.append_assoc, List.append_assoc]
  exact List.take_left' (leBytes_length ..)

theorem cellBytes_count : ((cellBytes sum n spec).drop 48).take 8 = leBytes 8 n := by
  rw [cellBytes, List.append_assoc, List.append_assoc, List.drop_left' (leBytes_length ..)]
  exact List.take_left' (leBytes_length ..)

end

/-- A number below 2^384 that stands for a sum between -2^383 and 2^383. -/
theorem signed_of_mod {sum half : Int} (low : -half ≤ sum) (high : sum < half) {m : Nat} (h : (m : Int) = sum % (2 * half)) :
    (if (m : Int) < half then (m : Int) else (m : Int) - 2 * half) = sum := by
  by_cases neg : sum < 0
  · have wrapped : sum % (2 * half) = sum + 2 * half := by
      rw [← Int.add_emod_right]
      exact Int.emod_eq_of_lt (by omega) (by omega)
    split <;> omega
  · have same : sum % (2 * half) = sum := Int.emod_eq_of_lt (by omega) (by omega)
    split <;> omega

/-- A sum in the range of a cell is the one that its bytes hold. -/
theorem cellSum_cellBytes {sum : Int} (low : -(2 ^ 383) ≤ sum) (high : sum < 2 ^ 383) (n spec : Nat) : cellSum (cellBytes sum n spec) = sum := by
  have twice : (2 : Int) ^ 384 = 2 * 2 ^ 383 := pow_succ' 2 383
  have range : (0 : Int) < 2 ^ 384 := by positivity
  have bytes : (256 : Nat) ^ 48 = 2 ^ 384 := by rw [show 256 = 2 ^ 8 from rfl, ← pow_mul]
  have below : (sum % 2 ^ 384).toNat < 2 ^ 384 := by
    have := Int.emod_lt_of_pos sum range
    zify
    rwa [Int.toNat_of_nonneg (Int.emod_nonneg sum range.ne')]
  rw [cellSum, cellBytes_sum, leNat_leBytes, bytes, Nat.mod_eq_of_lt below]
  have value := signed_of_mod low high (m := (sum % 2 ^ 384).toNat)
    (by rw [Int.toNat_of_nonneg (Int.emod_nonneg sum range.ne'), twice])
  rw [← twice] at value
  have cast : ((sum % 2 ^ 384).toNat < 2 ^ 383) ↔ (((sum % 2 ^ 384).toNat : Int) < 2 ^ 383) := by
    zify
  simp only [cast]
  exact value

/-! #### Adding a finite value -/

theorem not_special {x : Nat} (finite : expField fp32 x ≠ 255) : isNaN fp32 x = false ∧ isInf fp32 x = false := by
  have no : (expField fp32 x == 2 ^ fp32.ebits - 1) = false := beq_false_of_ne finite
  simp [isNaN, isInf, no]

theorem cellAdd_finite {b : List Byte} {x : Nat} (finite : expField fp32 x ≠ 255) (room : leNat ((b.drop 48).take 8) ≠ 2 ^ 64 - 1) :
    cellAdd b x = cellBytes (cellSum b + fp32Units x) (leNat ((b.drop 48).take 8) + 1) (leNat ((b.drop 56).take 1) % 16) := by
  obtain ⟨nan, inf⟩ := not_special finite
  simp only [cellAdd, if_neg room, nan, inf, Bool.false_eq_true, if_false]

/-- An FP32 pattern is less than 2^278 units of 2^-149. -/
theorem fp32Units_bounds (x : Nat) : -(2 ^ 278) < fp32Units x ∧ fp32Units x < 2 ^ 278 := by
  have exponent : expField fp32 x < 256 := expField_lt fp32 x
  have fraction : fracField fp32 x < 2 ^ 23 := Nat.mod_lt _ (by decide)
  have magnitude : (if expField fp32 x = 0 then fracField fp32 x else (2 ^ 23 + fracField fp32 x) * 2 ^ (expField fp32 x - 1)) < 2 ^ 278 := by
    split
    · omega
    · calc (2 ^ 23 + fracField fp32 x) * 2 ^ (expField fp32 x - 1) < 2 ^ 24 * 2 ^ (expField fp32 x - 1) :=
            Nat.mul_lt_mul_of_pos_right (by omega) (Nat.two_pow_pos _)
        _ ≤ 2 ^ 24 * 2 ^ 254 := Nat.mul_le_mul_left _ (Nat.pow_le_pow_right (by decide) (by omega))
        _ = 2 ^ 278 := by rw [← pow_add]
  simp only [fp32Units]
  generalize (if expField fp32 x = 0 then fracField fp32 x else (2 ^ 23 + fracField fp32 x) * 2 ^ (expField fp32 x - 1)) = m at magnitude
  have cast : (m : Int) < 2 ^ 278 := by exact_mod_cast magnitude
  generalize (2 : Int) ^ 278 = bound at cast ⊢
  split <;> omega

/-- A finite FP32 pattern is its units of 2^-149. -/
theorem exVal_fp32Units {x : Nat} (finite : expField fp32 x ≠ 255) :
    exVal (unpack fp32 x) = some ((fp32Units x : Rat) * (2 : Rat) ^ (-149 : Int)) := by
  rw [unpack]
  have notSpecial : ¬ expField fp32 x = 2 ^ fp32.ebits - 1 := finite
  simp only [if_neg notSpecial]
  by_cases subnormal : expField fp32 x = 0
  · rw [if_pos subnormal]
    refine exVal_eq ?_
    have e : fp32.emin - ((fp32.p - 1 : Nat) : Int) = -149 := by decide
    rw [e, mag, fp32Units]
    cases signField fp32 x <;> simp [subnormal, signRat]
  · rw [if_neg subnormal]
    refine exVal_eq ?_
    have e : fp32.emin + (expField fp32 x : Int) - 1 - ((fp32.p - 1 : Nat) : Int) = ((expField fp32 x - 1 : Nat) : Int) + -149 := by
      have : fp32.emin = -126 := rfl
      have : fp32.p = 24 := rfl
      omega
    have p : fp32.p - 1 = 23 := rfl
    rw [e, p, mag, zpow_add₀ two_ne_zero, zpow_natCast, fp32Units]
    cases signField fp32 x <;> simp [subnormal, signRat] <;> ring

/-- A cell without special values reads as its sum, rounded once (R236). -/
theorem cellRead_plain {b : List Byte} (plain : (b.drop 56).take 1 = [0]) :
    cellRead b = (roundFV fp32 0 false false (.num (decide (cellSum b < 0)) (cellSum b).natAbs 1 (-149), 0)).1 := by
  rw [cellRead, plain]
  rfl

end Sys2Proof.HomeSlices

/-! ### An operation at its home slice (R211, R232, R356), and O25 -/

namespace Sys2Proof.HomeSlices

open Sys2Proof Sys2Proof.Machine Sys2Proof.Safety Sys2Proof.Laws Sys2Proof.NumberFormats Sys2Proof.Groups Sys2Proof.Launching

/-- The state in which an operation meets its location: the issuing core's words of it are written back and dropped, and the access
is noted (R232, R428). -/
def meeting (r : SliceReq) (s : State) : State :=
  match findGroup s r.group with
  | none => s
  | some g => note (agentOf g) r.eid 2 r.va (some r.pa) (sliceBytes r.kind)
      (flushWords (coreNo g) (r.pa / 64) r.eid (wordMask (r.pa % 64) (sliceBytes r.kind)) s)

/-- An operation changes its location, which holds no error. -/
def changed (r : SliceReq) (u : State) : State :=
  keepCell r (cellOf u r.pa) (signAs r.team r.pa (sliceBytes r.kind) u.wrote
    (sliceWrite r.pa (sliceResult r.kind (memRead u r.pa (sliceBytes r.kind))) r.stamp (sliceTouch r.va r.pa (sliceBytes r.kind) true r.last u)))

theorem performSlice_eq (r : SliceReq) (s : State) : performSlice r s =
    if (memError (meeting r s) r.pa (sliceBytes r.kind)).isSome then meeting r s else changed r (meeting r s) := rfl

theorem flushWords_absent {c line eid : Nat} {s : State} (absent : findLine (coreAt s c) line eid = none) (m : BitVec 16) :
    flushWords c line eid m s = s := by
  rw [flushWords, absent]

/-- An operation on a line that the issuing core does not hold is noted, and nothing else changes before it performs. -/
theorem meeting_rest {r : SliceReq} {s : State}
    (absent : ∀ g, findGroup s r.group = some g → findLine (coreAt s (coreNo g)) (r.pa / 64) r.eid = none) :
    meeting r s = { s with log := (meeting r s).log } := by
  unfold meeting
  split
  · rfl
  · next g found =>
    rw [flushWords_absent (absent g found)]
    exact note_rest ..

theorem keepCell_rest (r : SliceReq) (h : CellHistory) (s : State) : keepCell r h s = { s with sums := (keepCell r h s).sums } := by
  unfold keepCell
  split <;> rfl

theorem onlySlices_keepCell (r : SliceReq) (h : CellHistory) (s : State) : OnlySlices s (keepCell r h s) := by
  rw [keepCell_rest]
  rfl

theorem onlySlices_changed (r : SliceReq) (u : State) : OnlySlices u (changed r u) :=
  (((onlySlices_sliceTouch ..).trans (onlySlices_sliceWrite ..)).trans (u := signAs ..) rfl).trans (onlySlices_keepCell ..)

/-- An operation on a line that the issuing core does not hold changes nothing but the home slices. -/
theorem onlySlices_performSlice {r : SliceReq} {s : State}
    (absent : ∀ g, findGroup s r.group = some g → findLine (coreAt s (coreNo g)) (r.pa / 64) r.eid = none) : OnlySlices s (performSlice r s) := by
  have met : OnlySlices s (meeting r s) := by
    rw [meeting_rest absent]
    rfl
  rw [performSlice_eq]
  split
  · exact met
  · exact met.trans (onlySlices_changed r _)

theorem memByte_changed (r : SliceReq) (u : State) (b : Nat) : memByte (changed r u) b =
    if r.pa ≤ b ∧ b < r.pa + sliceBytes r.kind then nth 0 (sliceResult r.kind (memRead u r.pa (sliceBytes r.kind))) (b - r.pa)
    else memByte u b := by
  have touched : memByte (sliceTouch r.va r.pa (sliceBytes r.kind) true r.last u) b = memByte u b := by
    rw [memByte, mem_sliceTouch]
    rfl
  rw [changed, keepCell_rest]
  refine (memByte_sliceWrite ..).trans ?_
  rw [length_sliceResult, touched]

theorem wtsOf_changed {r : SliceReq} (within : r.pa % 64 + sliceBytes r.kind ≤ 64) (u : State) :
    wtsOf (changed r u) (r.pa / 64) = nextWts u (r.pa / 64) r.stamp := by
  rw [changed, keepCell_rest]
  refine (wtsOf_sliceWrite ?_ ?_ ..).trans ?_
  · rw [length_sliceResult]
    exact sliceBytes_pos r.kind
  · rwa [length_sliceResult]
  · have touched := onlyCaches_sliceTouch r.va r.pa (sliceBytes r.kind) true r.last u
    rw [OnlyCaches] at touched
    rw [touched]
    rfl

/-- A posted operation that does not saturate performs, and its acknowledgement starts back. -/
theorem finishPosted_fits {r : SliceReq} {s : State} (fits : sliceOver r.kind (memRead s r.pa (sliceBytes r.kind)) = false) :
    finishPosted r s = { performSlice r s with
      accs := (performSlice r s).accs ++ [⟨(performSlice r s).fresh, r.group, r.team, .ack (wtsOf (performSlice r s) (r.pa / 64))⟩]
      fresh := (performSlice r s).fresh + 1 } := by
  simp only [finishPosted, fits, Bool.false_eq_true, if_false]

/-- Where the core that issued it holds no copy of the line, an operation leaves a location with an error as it is, and else gives it
its new value and advances the line's write time. -/
theorem performSlice_absent {r : SliceReq} {s : State}
    (absent : ∀ g, findGroup s r.group = some g → findLine (coreAt s (coreNo g)) (r.pa / 64) r.eid = none) :
    let n := sliceBytes r.kind
    let t := performSlice r s
    ((memError s r.pa n).isSome = true → t.mem = s.mem) ∧
    (memError s r.pa n = none → (r.pa % 64 + n ≤ 64 → wtsOf t (r.pa / 64) = nextWts s (r.pa / 64) r.stamp) ∧
      ∀ b, memByte t b = if r.pa ≤ b ∧ b < r.pa + n then nth 0 (sliceResult r.kind (memRead s r.pa n)) (b - r.pa) else memByte s b) := by
  intro n t
  have met := meeting_rest absent
  have error : memError (meeting r s) r.pa n = memError s r.pa n := by rw [met]; rfl
  have read : memRead (meeting r s) r.pa n = memRead s r.pa n := by rw [met]; rfl
  have run : t = if (memError s r.pa n).isSome then meeting r s else changed r (meeting r s) := by rw [← error]; exact performSlice_eq r s
  refine ⟨fun bad => ?_, fun sound => ?_⟩
  · rw [run, if_pos bad, met]
  · rw [run, sound]
    refine ⟨fun within => (wtsOf_changed within _).trans ?_, fun b => (memByte_changed r _ b).trans ?_⟩
    · rw [met]
      rfl
    · rw [read, met]
      rfl

/-- Settles O25: what an operation changes at its home slice, and the arithmetic of a cell. -/
theorem sliceOperations : Obligations.SliceOperations := by
  refine ⟨fun r s absent fits => ?_, fun b x size small finite => ?_⟩
  · intro n old
    have rest := onlySlices_performSlice absent
    obtain ⟨stays, changes⟩ := performSlice_absent absent
    have run : exec (.sliceOperation r) s = .next _ := congrArg Host.Outcome.next (finishPosted_fits fits)
    refine ⟨_, run, rest.g, rest.others, rest.cores, ?_, stays, changes, fun _ => rfl, rfl⟩
    dsimp only
    rw [rest.accs, rest.fresh]
    rfl
  · intro count room low high
    have notFull : leNat ((b.drop 48).take 8) ≠ 2 ^ 64 - 1 := by omega
    have added := cellAdd_finite finite notFull
    refine ⟨?_, ?_, length_cellAdd b x, exVal_fp32Units finite, cellRead_plain⟩
    · obtain ⟨lowUnits, highUnits⟩ := fp32Units_bounds x
      have double : (2 : Int) ^ 383 = 2 * 2 ^ 382 := pow_succ' 2 382
      have less : (2 : Int) ^ 278 ≤ 2 ^ 382 := pow_le_pow_right₀ (by decide) (by decide)
      have within : -(2 ^ 383) ≤ cellSum b + fp32Units x ∧ cellSum b + fp32Units x < 2 ^ 383 := by
        rw [double]
        generalize (2 : Int) ^ 278 = unit at lowUnits highUnits less
        generalize (2 : Int) ^ 382 = half at low high less
        omega
      rw [added]
      exact cellSum_cellBytes within.1 within.2 _ _
    · rw [added, cellBytes_count, leNat_leBytes]
      exact Nat.mod_eq_of_lt (by omega)

end Sys2Proof.HomeSlices

/-! ### What the device owes and awaits (R230, R312, R423) -/

namespace Sys2Proof.Responses

open Sys2Proof Sys2Proof.Machine Sys2Proof.Safety Sys2Proof.Laws Sys2Proof.NumberFormats Sys2Proof.Groups Sys2Proof.Launching Sys2Proof.HomeSlices

/-- The same answers are owed and the same accesses under way. -/
structure AwaitsSame (s t : State) : Prop where
  owed : t.owed = s.owed
  accs : t.accs = s.accs

theorem AwaitsSame.rfl {s : State} : AwaitsSame s s := ⟨Eq.refl _, Eq.refl _⟩

theorem AwaitsSame.trans {s t u : State} (h : AwaitsSame s t) (k : AwaitsSame t u) : AwaitsSame s u :=
  ⟨k.owed.trans h.owed, k.accs.trans h.accs⟩

theorem awaitsSame_foldl {α : Type} {f : State → α → State} (h : ∀ s a, AwaitsSame s (f s a)) (l : List α) (s : State) :
    AwaitsSame s (l.foldl f s) :=
  foldl_keeps (AwaitsSame s) f (fun t a k => k.trans (h t a)) l .rfl

theorem awaitsSame_of_onlySlices {s t : State} (h : OnlySlices s t) : AwaitsSame s t := ⟨by rw [h], by rw [h]⟩

/-! #### The end of a team (R324) -/

theorem awaitsSame_freeTeam (tm : Team) (s : State) : AwaitsSame s (freeTeam tm s) := by
  have freed := awaitsSame_foldl (f := fun u k => modCore (nth 0 tm.cores k) (freeOnCore (nth 0 tm.ranges k) (nth [] tm.tiles k)) u)
    (fun _ _ => ⟨rfl, rfl⟩) (List.range tm.cores.length) s
  exact iteInduction (motive := AwaitsSame s) (fun _ => ⟨freed.owed, freed.accs⟩) (fun _ => ⟨freed.owed, freed.accs⟩)

theorem awaitsSame_settleTeam (tid : Nat) (s : State) : AwaitsSame s (settleTeam tid s) := by
  unfold settleTeam
  split
  · exact .rfl
  · exact iteInduction (motive := AwaitsSame s) (fun _ => awaitsSame_freeTeam _ s) (fun _ => .rfl)

theorem awaitsSame_markFailed (c : Command) (s : State) : AwaitsSame s (markFailed c s) := by
  unfold markFailed
  split <;> exact ⟨rfl, rfl⟩

theorem awaitsSame_dropWaiting (tid core : Nat) (s : State) : AwaitsSame s (dropWaiting tid core s) :=
  (awaitsSame_foldl (fun s c => awaitsSame_markFailed c s) _ s).trans ⟨rfl, rfl⟩

theorem awaitsSame_terminateTeam (g : Group) (cause sub : Nat) (wpc : DWord) (s : State) : AwaitsSame s (terminateTeam g cause sub wpc s) := by
  unfold terminateTeam
  split
  · exact ⟨rfl, rfl⟩
  · next tm _ =>
    have dropped := awaitsSame_foldl (fun u c => awaitsSame_dropWaiting tm.tid c u) tm.cores
      { s with out := .terminated (diagRecord s g cause sub wpc) :: s.out }
    dsimp only
    refine AwaitsSame.trans ?_ (awaitsSame_settleTeam tm.tid _)
    exact ⟨dropped.owed, dropped.accs⟩

theorem awaitsSame_stopTeam (g : Group) (s : State) : AwaitsSame s (stopTeam g s) := by
  unfold stopTeam
  split
  · exact ⟨rfl, rfl⟩
  · next tm _ =>
    have dropped := awaitsSame_foldl (fun u c => awaitsSame_dropWaiting tm.tid c u) tm.cores s
    dsimp only
    refine AwaitsSame.trans ?_ (awaitsSame_settleTeam tm.tid _)
    exact ⟨dropped.owed, dropped.accs⟩

theorem awaitsSame_countError (g : Group) (t : Trap) (s : State) : AwaitsSame s (countError g t s) :=
  iteInduction (motive := AwaitsSame s) (fun _ => ⟨rfl, rfl⟩) (fun _ => .rfl)

theorem awaitsSame_endByReport (g : Group) (t : Trap) (pc : DWord) (s : State) : AwaitsSame s (endByReport g t pc s) :=
  (awaitsSame_countError g t s).trans
    (iteInduction (motive := AwaitsSame (countError g t s)) (fun _ => awaitsSame_stopTeam g _) (fun _ => awaitsSame_terminateTeam g _ _ pc _))

theorem awaitsSame_report (gid cause sub : Nat) (pc addr : DWord) (s : State) : AwaitsSame s (report gid cause sub pc addr s) := by
  unfold report
  dsimp only
  split
  · exact ⟨rfl, rfl⟩
  · split
    · split
      · exact .rfl
      · split
        · exact .rfl
        · exact awaitsSame_endByReport ..
    · exact ⟨rfl, rfl⟩

/-! #### Write-backs and operations at the home slices (R210, R232) -/

theorem awaitsSame_writeWords (t : Nat) (l : Line) (s : State) : AwaitsSame s (writeWords t l s) := by
  unfold writeWords
  refine AwaitsSame.trans (t := if l.dirty == BitVec.allOnes 16 then renewBlocks (· == l.line) s else s) ?_ (awaitsSame_foldl (fun u w => ?_) _ _)
  · exact iteInduction (motive := AwaitsSame s) (fun _ => ⟨rfl, rfl⟩) (fun _ => .rfl)
  · split
    · exact ⟨rfl, rfl⟩
    · exact .rfl

theorem awaitsSame_poisonLine (s : State) (line : Nat) : AwaitsSame s (poisonLine s line) := by
  simp only [poisonLine]
  repeat' split
  all_goals exact ⟨rfl, rfl⟩

theorem awaitsSame_noteWords (c : Nat) (l : Line) (s : State) : AwaitsSame s (noteWords c l s) :=
  awaitsSame_foldl (fun _ _ => awaitsSame_of_onlySlices (onlySlices_note _ _ _ _ _ _ _)) _ s

theorem awaitsSame_writeBack (c : Nat) (l : Line) (s : State) : AwaitsSame s (writeBack c l s) := by
  unfold writeBack
  refine iteInduction (motive := AwaitsSame s) (fun _ => .rfl) (fun _ => ?_)
  dsimp only
  have written : AwaitsSame s (touchWrite l.stamp (writeWords (nextWts s l.line l.stamp) l s) l.line) :=
    (awaitsSame_writeWords (nextWts s l.line l.stamp) l s).trans ⟨rfl, rfl⟩
  have touched := written.trans (awaitsSame_of_onlySlices (onlySlices_sliceTouch l.va (64 * l.line) 64 true l.last _))
  generalize sliceTouch l.va (64 * l.line) 64 true l.last (touchWrite l.stamp (writeWords (nextWts s l.line l.stamp) l s) l.line) = u at touched
  have counted : AwaitsSame u (if l.bad &&& l.dirty != 0 then countUncorrected c (poisonLine u l.line) else u) :=
    iteInduction (motive := AwaitsSame u) (fun _ => (awaitsSame_poisonLine u l.line).trans ⟨rfl, rfl⟩) (fun _ => .rfl)
  have noted := awaitsSame_noteWords c l (raiseGwts l.writers (nextWts s l.line l.stamp) (teamWrote l (nextWts s l.line l.stamp))
    (if l.bad &&& l.dirty != 0 then countUncorrected c (poisonLine u l.line) else u))
  exact (touched.trans counted).trans ⟨noted.owed, noted.accs⟩

theorem awaitsSame_evictLine (c : Nat) (s : State) (l : Line) : AwaitsSame s (evictLine c l s) :=
  (awaitsSame_writeBack c l s).trans ⟨rfl, rfl⟩

theorem awaitsSame_flushWords (c line eid : Nat) (m : BitVec 16) (s : State) : AwaitsSame s (flushWords c line eid m s) := by
  unfold flushWords
  split
  · exact .rfl
  · exact (awaitsSame_writeBack c _ s).trans ⟨rfl, rfl⟩

theorem awaitsSame_performSlice (r : SliceReq) (s : State) : AwaitsSame s (performSlice r s) := by
  have met : AwaitsSame s (meeting r s) := by
    unfold meeting
    split
    · exact .rfl
    · exact (awaitsSame_flushWords ..).trans (awaitsSame_of_onlySlices (onlySlices_note ..))
  rw [performSlice_eq]
  split
  · exact met
  · exact met.trans (awaitsSame_of_onlySlices (onlySlices_changed r _))

theorem owed_finishPosted (r : SliceReq) (s : State) : (finishPosted r s).owed = s.owed := by
  unfold finishPosted
  dsimp only
  split
  · exact (awaitsSame_report ..).owed.trans (awaitsSame_performSlice r s).owed
  · exact (awaitsSame_performSlice r s).owed

/-- Operations that perform at the home slices answer no request. -/
theorem owed_performWhere {f : Instr → Bool} (ops : ∀ i, f i = true → ∃ r, i = .sliceOperation r) (s : State) :
    (performWhere f s).owed = s.owed := by
  have each : ∀ (is : List Instr), (∀ i ∈ is, f i = true) → ∀ u : State, (is.foldl performPosted u).owed = u.owed := by
    intro is
    induction is with
    | nil => exact fun _ _ => rfl
    | cons i is ih =>
      intro all u
      obtain ⟨r, rfl⟩ := ops i (all i List.mem_cons_self)
      exact (ih (fun j hj => all j (List.mem_cons_of_mem _ hj)) _).trans (owed_finishPosted r u)
  exact each _ (fun i hi => (List.mem_filter.mp hi).2) _

end Sys2Proof.Responses

/-! ### Lines that leave the L1 (R207, R210, R221) -/

namespace Sys2Proof.Responses

open Sys2Proof Sys2Proof.Machine Sys2Proof.Safety Sys2Proof.Laws Sys2Proof.NumberFormats Sys2Proof.Groups Sys2Proof.Launching Sys2Proof.HomeSlices

/-- Of the cores a write-back changes the one whose line it is, in its lines and its error count. -/
theorem coreAt_writeBack (c : Nat) (l : Line) (s : State) : ∃ ls n, ∀ d, coreAt (writeBack c l s) d =
    if d = c then { coreAt s c with lines := ls, uncorrected := n } else coreAt s d := by
  by_cases clean : l.dirty = 0
  · refine ⟨(coreAt s c).lines, (coreAt s c).uncorrected, fun d => ?_⟩
    rw [writeBack_clean clean]
    split
    · next same => rw [same]
    · rfl
  · rw [writeBack, if_neg clean]
    simp only
    have slice : OffCore s (sliceTouch l.va (64 * l.line) 64 true l.last (touchWrite l.stamp (writeWords (nextWts s l.line l.stamp) l s) l.line)) :=
      ((offCore_writeWords _ l s).trans (offCore_touchWrite _ _ _)).trans (offCore_sliceTouch _ _ _ _ _ _)
    generalize sliceTouch l.va (64 * l.line) 64 true l.last (touchWrite l.stamp (writeWords (nextWts s l.line l.stamp) l s) l.line) = u at slice
    have counted : ∃ n, ∀ d, coreAt (if l.bad &&& l.dirty != 0 then countUncorrected c (poisonLine u l.line) else u) d =
        if d = c then { coreAt s c with uncorrected := n } else coreAt s d := by
      have same : ∀ v : State, v.cores = s.cores → ∀ d, coreAt v d = coreAt s d := fun v h d => by rw [coreAt, h, coreAt]
      split
      · refine ⟨(coreAt s c).uncorrected + 1, fun d => ?_⟩
        have off := same (poisonLine u l.line) ((offCore_poisonLine u l.line).cores.trans slice.cores)
        rw [countUncorrected, coreAt_modCore, off, off]
      · refine ⟨(coreAt s c).uncorrected, fun d => ?_⟩
        rw [same u slice.cores]
        split
        · next same => rw [same]
        · rfl
    obtain ⟨n, counted⟩ := counted
    generalize (if l.bad &&& l.dirty != 0 then countUncorrected c (poisonLine u l.line) else u) = v at counted
    refine ⟨(putLine (cleaned (nextWts s l.line l.stamp) l) (coreAt s c)).lines, n, fun d => ?_⟩
    have off : ∀ k, coreAt (noteWords c l (raiseGwts l.writers (nextWts s l.line l.stamp) (teamWrote l (nextWts s l.line l.stamp)) v)) k = coreAt v k :=
      fun k => by rw [coreAt, (offCore_noteWords c l _).cores]; rfl
    simp only [coreAt_modCore, off, counted, if_true]
    split <;> rfl

/-- Of the cores an eviction changes the one whose line it is: it no longer holds the line. -/
theorem coreAt_evictLine (c : Nat) (l : Line) (s : State) : ∃ n f, ∀ d, coreAt (evictLine c l s) d =
    if d = c then { coreAt s c with lines := (coreAt s c).lines.filter (fun m => !sameLine m l), foot := f, uncorrected := n } else coreAt s d := by
  obtain ⟨ls, n, core⟩ := coreAt_writeBack c l s
  have held : (coreAt (writeBack c l s) c).lines = ls := by rw [core c, if_pos rfl]
  have kept : ls.filter (fun m => !sameLine m l) = (coreAt s c).lines.filter (fun m => !sameLine m l) := by
    rw [← held]
    by_cases clean : l.dirty = 0
    · rw [writeBack_clean clean]
    · obtain ⟨t, back⟩ := lines_writeBack c clean s
      have gone : sameLine (cleaned t l) l = true := by simp [sameLine, cleaned]
      rw [back, List.filter_cons_of_neg (by simp [gone]), List.filter_filter]
      simp only [Bool.and_self]
  refine ⟨n, (coreAt (evictLine c l s) c).foot, fun d => ?_⟩
  simp only [evictLine, coreAt_modCore, core, if_true]
  split
  · rw [← kept]
    rfl
  · rfl

/-- The same of several lines. -/
theorem coreAt_evictLines (c : Nat) (ls : List Line) (s : State) : ∃ n f, ∀ d, coreAt (ls.foldl (fun s l => evictLine c l s) s) d =
    if d = c then { coreAt s c with lines := (coreAt s c).lines.filter (fun m => ls.all (fun l => !sameLine m l)), foot := f, uncorrected := n }
    else coreAt s d := by
  induction ls generalizing s with
  | nil =>
    refine ⟨(coreAt s c).uncorrected, (coreAt s c).foot, fun d => ?_⟩
    split
    · next same => simp [same]
    · rfl
  | cons l ls ih =>
    obtain ⟨n, f, rest⟩ := ih (evictLine c l s)
    obtain ⟨n', f', one⟩ := coreAt_evictLine c l s
    refine ⟨n, f, fun d => ?_⟩
    rw [List.foldl_cons, rest d]
    split
    · rw [one c, if_pos rfl]
      simp only [List.filter_filter, List.all_cons, Bool.and_comm]
    · next other => rw [one d, if_neg other]

theorem sameLine_self (l : Line) : sameLine l l = true := by simp [sameLine]

/-- The lines that satisfy a condition have left, once they have been evicted. -/
theorem lines_evicted {c : Nat} {p : Line → Bool} {s : State} {m : Line}
    (h : m ∈ (coreAt (((coreAt s c).lines.filter p).foldl (fun s l => evictLine c l s) s) c).lines) : m ∈ (coreAt s c).lines ∧ p m = false := by
  obtain ⟨n, f, core⟩ := coreAt_evictLines c ((coreAt s c).lines.filter p) s
  rw [core c, if_pos rfl, List.mem_filter, List.all_eq_true] at h
  obtain ⟨old, others⟩ := h
  refine ⟨old, Bool.eq_false_iff.mpr fun hit => ?_⟩
  have gone := others m (List.mem_filter.mpr ⟨old, hit⟩)
  rw [sameLine_self] at gone
  cases gone

/-! #### Cores that the table lists -/

theorem get_unlisted {α : Type} (d : α) {k : Nat} {t : Sparse α} (h : k ∉ t.map (·.1)) : Sparse.get d k t = d := by
  induction t with
  | nil => rfl
  | cons e t ih =>
    rw [List.map_cons, List.mem_cons, not_or] at h
    rw [Sparse.get, if_neg (Ne.symm h.1)]
    exact ih h.2

theorem mem_of_get {α : Type} {k : Nat} {x : α} {t : Sparse (List α)} (h : x ∈ Sparse.get [] k t) : ∃ e ∈ t, x ∈ e.2 := by
  induction t with
  | nil => cases h
  | cons e t ih =>
    rw [Sparse.get] at h
    split at h
    · exact ⟨e, List.mem_cons_self, h⟩
    · obtain ⟨a, ha, hx⟩ := ih h
      exact ⟨a, List.mem_cons_of_mem e ha, hx⟩

/-- After the lines of some cores that satisfy a condition have left, these cores hold lines that do not satisfy it. -/
theorem lines_dropped (p : Line → Bool) (cs : List Nat) (s : State) (c : Nat) :
    ∀ m ∈ (coreAt (cs.foldl (fun s c => ((coreAt s c).lines.filter p).foldl (fun s l => evictLine c l s) s) s) c).lines,
      m ∈ (coreAt s c).lines ∧ (c ∈ cs → p m = false) := by
  induction cs generalizing s with
  | nil => exact fun m hm => ⟨hm, nofun⟩
  | cons k cs ih =>
    intro m hm
    obtain ⟨old, later⟩ := ih _ m hm
    by_cases same : c = k
    · subst same
      obtain ⟨first, off⟩ := lines_evicted old
      exact ⟨first, fun _ => off⟩
    · obtain ⟨n, f, core⟩ := coreAt_evictLines k ((coreAt s k).lines.filter p) s
      rw [core c, if_neg same] at old
      exact ⟨old, fun hc => later ((List.mem_cons.mp hc).resolve_left same)⟩

/-- No core holds a line that satisfies the condition under which lines are dropped. -/
theorem lines_dropLines (p : Line → Bool) (s : State) (c : Nat) : ∀ m ∈ (coreAt (dropLines p s) c).lines, p m = false := by
  intro m hm
  obtain ⟨old, off⟩ := lines_dropped p (List.map Prod.fst s.cores) s c m hm
  by_cases listed : c ∈ List.map Prod.fst s.cores
  · exact off listed
  · rw [coreAt, get_unlisted _ listed] at old
    cases old

/-! #### Translations (R221) -/

/-- After the translations of some cores that satisfy a condition have left, the lines are as they were. -/
theorem tlbs_dropped (p : TlbEntry → Bool) (cs : List Nat) (s : State) (c : Nat) :
    let t := cs.foldl (fun s c => modCore c (fun k => { k with tlb := k.tlb.filter (fun e => !p e) }) s) s
    (coreAt t c).lines = (coreAt s c).lines ∧ ∀ e ∈ (coreAt t c).tlb, e ∈ (coreAt s c).tlb ∧ (c ∈ cs → p e = false) := by
  induction cs generalizing s with
  | nil => exact ⟨rfl, fun e he => ⟨he, nofun⟩⟩
  | cons k cs ih =>
    obtain ⟨lines, tlb⟩ := ih (modCore k (fun k => { k with tlb := k.tlb.filter (fun e => !p e) }) s)
    rw [coreAt_modCore] at lines tlb
    refine ⟨lines.trans ?_, fun e he => ?_⟩
    · split
      · next same => rw [same]
      · rfl
    · obtain ⟨old, later⟩ := tlb e he
      by_cases same : c = k
      · rw [if_pos same, ← same, List.mem_filter] at old
        exact ⟨old.1, fun _ => by simpa using old.2⟩
      · rw [if_neg same] at old
        exact ⟨old, fun hc => later ((List.mem_cons.mp hc).resolve_left same)⟩

theorem lines_tlbDrop (p : TlbEntry → Bool) (s : State) (c : Nat) : (coreAt (tlbDrop p s) c).lines = (coreAt s c).lines :=
  (tlbs_dropped p (List.map Prod.fst s.cores) s c).1

theorem tlb_tlbDrop (p : TlbEntry → Bool) (s : State) (c : Nat) : ∀ e ∈ (coreAt (tlbDrop p s) c).tlb, p e = false := by
  intro e he
  obtain ⟨old, off⟩ := (tlbs_dropped p (List.map Prod.fst s.cores) s c).2 e he
  by_cases listed : c ∈ List.map Prod.fst s.cores
  · exact off listed
  · rw [coreAt, get_unlisted _ listed] at old
    cases old

/-- No entry of a table whose lists have been filtered satisfies what they were filtered by. -/
theorem not_mem_filtered {α : Type} {p : α → Bool} {q : Nat × List α → Bool} {t : Sparse (List α)} :
    ∀ e ∈ (t.map (fun e => (e.1, e.2.filter (fun x => !p x)))).filter q, ∀ x ∈ e.2, p x = false := by
  intro e he x hx
  obtain ⟨a, -, rfl⟩ := List.mem_map.mp (List.mem_filter.mp he).1
  simpa using (List.mem_filter.mp hx).2

theorem outer_tlbDrop (p : TlbEntry → Bool) (s : State) (c : Nat) :
    ∀ e ∈ Sparse.get [] c (tlbDrop p s).clusterTlbs ++ Sparse.get [] c (tlbDrop p s).dieTlbs, p e = false := by
  intro e he
  rcases List.mem_append.mp he with he | he <;> obtain ⟨a, ha, hx⟩ := mem_of_get he <;> exact not_mem_filtered a ha e hx

/-! #### The end of an invalidation -/

theorem owed_dropLines (p : Line → Bool) (s : State) : (dropLines p s).owed = s.owed :=
  (awaitsSame_foldl (fun u c => awaitsSame_foldl (awaitsSame_evictLine c) ((coreAt u c).lines.filter p) u) (List.map Prod.fst s.cores) s).owed

theorem owed_tlbDrop (p : TlbEntry → Bool) (s : State) : (tlbDrop p s).owed = s.owed :=
  (awaitsSame_foldl (f := fun u c => modCore c (fun k => { k with tlb := k.tlb.filter (fun e => !p e) }) u) (fun _ _ => ⟨rfl, rfl⟩)
    (List.map Prod.fst s.cores) s).owed

theorem owed_invalidateRange (eid : Nat) (va : DWord) (n : Nat) (s : State) : (invalidateRange eid va n s).owed = s.owed := by
  refine (owed_tlbDrop ..).trans ((owed_dropLines ..).trans (owed_performWhere (fun i hi => ?_) s))
  cases i with
  | sliceOperation r => exact ⟨r, rfl⟩
  | _ => cases hi

theorem lines_invalidateRange (eid : Nat) (va : DWord) (n : Nat) (s : State) (c : Nat) :
    ∀ l ∈ (coreAt (invalidateRange eid va n s) c).lines, lineIn eid va n l = false := by
  intro l hl
  have kept : l ∈ (coreAt (tlbDrop (tlbIn eid va n) (dropLines (lineIn eid va n) _)) c).lines := hl
  rw [lines_tlbDrop] at kept
  exact lines_dropLines _ _ c l kept

end Sys2Proof.Responses

/-! ### Acknowledgements, splits and invalidations (R207, R221, R230, R237, R312), and O45 -/

namespace Sys2Proof.Responses

open Sys2Proof Sys2Proof.Machine Sys2Proof.Safety Sys2Proof.Laws Sys2Proof.NumberFormats Sys2Proof.Groups Sys2Proof.Launching Sys2Proof.HomeSlices

/-! #### Acknowledgements (R230, R237, R312) -/

/-- A change that keeps the numbers of teams acts on the team found. -/
theorem findTeam_modTeam {f : Team → Team} (hf : ∀ t, (f t).tid = t.tid) {s : State} {tid : Nat} {tm : Team} (found : findTeam s tid = some tm) :
    findTeam (modTeam tid f s) tid = some (f tm) := by
  have number : ((fun t : Team => t.tid == tid) ∘ fun t => if t.tid == tid then f t else t) = fun t => t.tid == tid := by
    funext t
    simp only [Function.comp]
    split
    · rw [hf]
    · rfl
  have hit : (tm.tid == tid) = true := List.find?_some (p := fun t : Team => t.tid == tid) found
  rw [findTeam] at found ⊢
  rw [modTeam]
  simp only [updateWhere, List.find?_map, number, found, Option.map_some, if_pos hit]

theorem teamOver_modGroups {p : Group → Bool} {f : Group → Group} (hf : ∀ g, (f g).tid = g.tid ∧ isOver (f g) = isOver g) (s : State) (tid : Nat) :
    teamOver (modGroups p f s) tid = teamOver s tid := by
  rw [teamOver, show allGroups (modGroups p f s) = updateWhere p f (allGroups s) from rfl, updateWhere, List.all_map, teamOver]
  congr 1
  funext g
  simp only [Function.comp]
  split
  · rw [(hf g).1, (hf g).2]
  · rfl

theorem settleTeam_running {s : State} {tid : Nat} (runs : teamOver s tid = false) : settleTeam tid s = s := by
  unfold settleTeam
  split
  · rfl
  · simp [runs]

/-- The state in which an acknowledgement has returned, before its team is freed when that was the last thing it waited for. -/
def acknowledged (a : OutAcc) (w : Nat) (s : State) : State :=
  countDown a.team (raiseGwts [a.group] w (fun _ => w) { s with accs := s.accs.filter (fun b => b.id != a.id) })

theorem execMemoryResponse_ack {s : State} {a : OutAcc} {w : Nat} (found : s.accs.find? (fun b => b.id == a.id) = some a) (kind : a.kind = .ack w) :
    execMemoryResponse a.id s = .next (settleTeam a.team (acknowledged a w s)) := by
  simp only [execMemoryResponse, found, kind]
  rfl

/-- A group has met a write time of its own team. -/
def met (w : Nat) (g : Group) : Group := { g with gwts := max g.gwts w, gwtsTeam := max g.gwtsTeam w }

theorem allGroups_acknowledged (a : OutAcc) (w : Nat) (s : State) : allGroups (acknowledged a w s) =
    allGroups (modGroups (fun g => [a.group].contains g.gid) (met w) s) := rfl

theorem teamOver_acknowledged (a : OutAcc) (w : Nat) (s : State) (tid : Nat) : teamOver (acknowledged a w s) tid = teamOver s tid := by
  rw [teamOver, allGroups_acknowledged]
  exact teamOver_modGroups (f := met w) (fun _ => ⟨rfl, rfl⟩) s tid

/-- Its group has met the write time that the acknowledgement brings. -/
theorem gwts_acknowledged {a : OutAcc} {w : Nat} {s : State} : ∀ g ∈ allGroups (acknowledged a w s), g.gid = a.group → w ≤ g.gwts := by
  intro g hg mine
  rw [allGroups_acknowledged] at hg
  obtain ⟨h, -, rfl⟩ := mem_allGroups_modGroups.mp hg
  by_cases hit : [a.group].contains h.gid = true
  · rw [if_pos hit]
    exact Nat.le_max_right ..
  · rw [if_neg hit] at mine
    exact absurd (by simp [mine]) hit

/-! #### The split of a core (R207) -/

theorem execSplitChange_wanted {s : State} {core units : Nat} (may : mayChange s core units = true)
    (wanted : ∃ l ∈ s.launches, l.record.lsplit = units ∧ core ∈ splitWanted s l) :
    execSplitChange core units s = .next (modCore core (fun k => { k with chg := true, splitTo := some units }) s) := by
  obtain ⟨l, hl, split, mem⟩ := wanted
  refine if_pos ?_
  rw [may, Bool.and_true, List.any_eq_true]
  exact ⟨l, hl, by simp [split, mem]⟩

/-- The lines of a core leave where local store grows into the L1. -/
def splitFlushed (core n : Nat) (s : State) : State :=
  if (coreAt s core).localUnits < n then (coreAt s core).lines.foldl (fun s l => evictLine core l s) s else s

theorem store_splitFlushed (core n : Nat) (s : State) : (coreAt (splitFlushed core n s) core).store = (coreAt s core).store := by
  unfold splitFlushed
  split
  · obtain ⟨n, f, core'⟩ := coreAt_evictLines core (coreAt s core).lines s
    rw [core' core, if_pos rfl]
  · rfl

theorem lines_splitFlushed {core n : Nat} {s : State} (grows : (coreAt s core).localUnits < n) : (coreAt (splitFlushed core n s) core).lines = [] := by
  rw [splitFlushed, if_pos grows]
  obtain ⟨n, f, core'⟩ := coreAt_evictLines core (coreAt s core).lines s
  rw [core' core, if_pos rfl]
  refine List.filter_eq_nil_iff.mpr fun m hm all => ?_
  have gone := List.all_eq_true.mp all m hm
  rw [sameLine_self] at gone
  cases gone

/-- A core after its split has changed to `n` units: those that changed are zeroed. -/
def resplit (n lo hi : Nat) (k : Core) : Core :=
  { k with store := Sparse.drop (fun a => decide (65536 * lo ≤ a) && decide (a < 65536 * hi)) k.store
           storeTimes := Sparse.drop (fun a => decide (16384 * lo ≤ a) && decide (a < 16384 * hi)) k.storeTimes
           storePoison := k.storePoison.filter (fun a => !(decide (16384 * lo ≤ a) && decide (a < 16384 * hi)))
           localUnits := n, chg := false, splitTo := none }

theorem execSplitChangeDone_free {s : State} {core n : Nat} (changing : (coreAt s core).splitTo = some n)
    (free : ∀ e ∈ allCommands s, copyInto s core (min n (coreAt s core).localUnits) (max n (coreAt s core).localUnits) e = false) :
    execSplitChangeDone core s = .next (modCore core
      (resplit n (min n (coreAt s core).localUnits) (max n (coreAt s core).localUnits)) (splitFlushed core n s)) := by
  have none_ : (allCommands s).any (copyInto s core (min n (coreAt s core).localUnits) (max n (coreAt s core).localUnits)) = false :=
    List.any_eq_false.mpr fun e he => by rw [free e he]; exact Bool.false_ne_true
  simp only [execSplitChangeDone, changing, none_, Bool.false_eq_true, if_false]
  rfl

/-! #### The end of an invalidation (R221, R423) -/

theorem execTranslationInvalidateDone_used {s : State} {eid len : Nat} {va : DWord} {o : Owed}
    (owes : s.owed.find? (fun o => o.wait == .invalidate eid va len) = some o) (uses : ∃ a ∈ s.accs, peerUses s eid va len a = true) :
    execTranslationInvalidateDone eid va len s = .refused .notEnabled := by
  have some_ : s.accs.any (peerUses s eid va len) = true := List.any_eq_true.mpr uses
  simp only [execTranslationInvalidateDone, owes, some_, if_true]

theorem execTranslationInvalidateDone_unused {s : State} {eid len : Nat} {va : DWord} {o : Owed}
    (owes : s.owed.find? (fun o => o.wait == .invalidate eid va len) = some o) (unused : ∀ a ∈ s.accs, peerUses s eid va len a = false) :
    execTranslationInvalidateDone eid va len s = .next { invalidateRange eid va len s with
      owed := (invalidateRange eid va len s).owed.erase o, out := .answer o.conn o.tag 0 0 0 [] :: (invalidateRange eid va len s).out } := by
  have none_ : s.accs.any (peerUses s eid va len) = false :=
    List.any_eq_false.mpr fun a ha => by rw [unused a ha]; exact Bool.false_ne_true
  simp only [execTranslationInvalidateDone, owes, none_, Bool.false_eq_true, if_false]

/-- Settles O45: each response by what its event leaves; an invalidation leaves no line, no translation and no walker's entry of its
range. -/
theorem coreResponses : Obligations.CoreResponses := by
  refine ⟨fun s a w found kind real => ?_, fun s core units may wanted => ?_, fun s core n changing => ?_, fun s eid len va o owes => ⟨execTranslationInvalidateDone_used owes, fun unused => ?_⟩⟩
  · have left := onlyRemoves_settleTeam a.team (acknowledged a w s)
    refine ⟨_, execMemoryResponse_ack found kind, left.mem, (awaitsSame_settleTeam ..).accs, fun g hg => ?_, fun tm team runs => ?_⟩
    · have number : g.gid = a.group := beq_iff_eq.mp (List.find?_some (p := fun g : Group => g.gid == a.group) hg)
      rcases left.groups g (List.mem_of_find?_eq_some hg) with stays | rfl
      · exact gwts_acknowledged g stays number
      · exact absurd number.symm real
    · have still : teamOver (acknowledged a w s) a.team = false := (teamOver_acknowledged ..).trans runs
      rw [settleTeam_running still]
      exact ⟨_, findTeam_modTeam (f := fun t => { t with outstanding := t.outstanding - 1 }) (fun _ => rfl) team, rfl⟩
  · refine ⟨_, execSplitChange_wanted may wanted, rfl, ?_, fun c hc => ?_⟩
    · rw [coreAt_modCore, if_pos rfl]
    · rw [coreAt_modCore, if_neg hc]
  · intro k free
    refine ⟨_, execSplitChangeDone_free changing free, ?_⟩
    rw [coreAt_modCore, if_pos rfl]
    refine ⟨rfl, rfl, rfl, fun grows => lines_splitFlushed grows, fun a => ?_⟩
    rw [resplit, store_splitFlushed, get_drop]
    simp only [Bool.and_eq_true, decide_eq_true_eq]
    rfl
  · have gone : ∀ e ∈ (invalidateRange eid va len s).walkers, ∀ w ∈ e.2, walkIn eid va len w = false := not_mem_filtered
    refine ⟨_, (invalidateRange eid va len s).out, execTranslationInvalidateDone_unused owes unused, rfl, ?_, gone,
      fun c => ⟨fun e he => ?_, fun l hl => ?_⟩⟩
    · rw [owed_invalidateRange]
    · rw [List.append_assoc] at he
      rcases List.mem_append.mp he with he | he
      · exact tlb_tlbDrop (tlbIn eid va len) _ c e he
      · exact outer_tlbDrop (tlbIn eid va len) _ c e he
    · exact lines_invalidateRange eid va len s c l hl

end Sys2Proof.Responses

/-! ### What a read changes (R209, R211, R229) -/

namespace Sys2Proof.Accesses

open Sys2Proof Sys2Proof.Machine Sys2Proof.Safety Sys2Proof.Laws Sys2Proof.NumberFormats Sys2Proof.Groups Sys2Proof.Launching Sys2Proof.HomeSlices

/-- From `s` to `t` the running group has become `h`, and otherwise a read has changed no more than it may. -/
def Reads (h : Group) (s t : State) : Prop := sameAccess s t = setG h s

/-- Reads one after another change no more than one may. -/
theorem sameAccess_trans {s t u : State} (h : sameAccess s t = s) (k : sameAccess t u = t) : sameAccess s u = s :=
  calc sameAccess s u = sameAccess s (sameAccess t u) := rfl
    _ = s := by rw [k, h]

section
variable {h : Group} {s t : State} (r : Reads h s t)
include r

theorem Reads.group : h = taught s.g.gwts s.g.gwtsTeam t.g := (congrArg State.g r).symm

/-- A write to registers that does not depend on what the group has learnt of other groups' writes. -/
theorem Reads.write {f : Group → Group} (same : ∀ a b g, f (taught a b g) = taught a b (f g)) : Reads (f h) s (setG (f t.g) t) :=
  calc sameAccess s (setG (f t.g) t) = setG (taught s.g.gwts s.g.gwtsTeam (f t.g)) (sameAccess s t) := rfl
    _ = setG (f h) s := by rw [← same, ← r.group, r]; rfl

theorem Reads.done : sameAccess s (setG (advance t.g) t) = setG (advance h) s := r.write (f := advance) fun _ _ _ => rfl

end

/-! #### The steps of a read -/

theorem sameAccess_raiseGwts (gs : List Nat) (n : Nat) (own : Group → Nat) (s : State) : sameAccess s (raiseGwts gs n own s) = s := by
  have g : taught s.g.gwts s.g.gwtsTeam (raiseGwts gs n own s).g = s.g :=
    iteInduction (motive := fun g => taught s.g.gwts s.g.gwtsTeam g = s.g) (fun _ => rfl) (fun _ => rfl)
  calc sameAccess s (raiseGwts gs n own s) = setG (taught s.g.gwts s.g.gwtsTeam (raiseGwts gs n own s).g) s := rfl
    _ = s := by rw [g]; rfl

theorem sameAccess_note (agent eid kind : Nat) (va : DWord) (pa : Option Nat) (n : Nat) (s : State) :
    sameAccess s (note agent eid kind va pa n s) = s := by
  rw [note_rest]
  rfl

theorem sameAccess_sliceTouch (va : DWord) (pa n : Nat) (last : Bool) (s : State) : sameAccess s (sliceTouch va pa n false last s) = s := by
  have h := onlyCaches_sliceTouch va pa n false last s
  rw [OnlyCaches] at h
  rw [h]
  rfl

theorem sameAccess_observe (g : Group) (scope : Nat) (k : Counter) (s : State) : sameAccess s (observe g false scope k s) = s :=
  sameAccess_raiseGwts _ _ _ s

section
variable {s : State} {pa n : Nat} (q : quiet s (pa / 64)) (sound : memError s pa n = none) (va : DWord) (kind : Nat)
include q sound

/-- A read past the L1, of a line that the core does not hold and that the group has nothing under way to, gives what memory holds. -/
theorem slowRead_eq : slowRead va pa n kind s = (.data (memRead s pa n) (wtsOf s (pa / 64)) (signersOf s pa n),
    raiseGwts [s.g.gid] (wtsOf s (pa / 64)) (fun h => teamTime h.tid (signersOf s pa n))
      (note (agentOf s.g) s.g.eid kind va (some pa) n (sliceTouch va pa n false false s))) := by
  have waits : performOn s.g.gid (pa / 64) s = s := performWhere_none q.1
  simp only [slowRead, slowReadBy, waits, flushWords_absent q.2, sound]

theorem slowRead_quiet : ∃ t, slowRead va pa n kind s = (.data (memRead s pa n) (wtsOf s (pa / 64)) (signersOf s pa n), t) ∧ sameAccess s t = s :=
  ⟨_, slowRead_eq q sound va kind,
    sameAccess_trans (sameAccess_trans (sameAccess_sliceTouch va pa n false s) (sameAccess_note ..)) (sameAccess_raiseGwts ..)⟩

end

/-- A read past the L1 of a line in error. -/
theorem slowRead_error {s : State} {pa n : Nat} (q : quiet s (pa / 64)) {e : Nat × Nat} (error : memError s pa n = some e) (va : DWord) (kind : Nat) :
    slowRead va pa n kind s = (.error e.1 e.2, s) := by
  have waits : performOn s.g.gid (pa / 64) s = s := performWhere_none q.1
  simp only [slowRead, slowReadBy, waits, flushWords_absent q.2, error]

end Sys2Proof.Accesses

/-! ### Counters (R203, R238 to R242, R383), and O28 -/

namespace Sys2Proof.Counters

open Sys2Proof Sys2Proof.Machine Sys2Proof.Safety Sys2Proof.Laws Sys2Proof.NumberFormats Sys2Proof.Groups Sys2Proof.Launching
open Sys2Proof.HomeSlices Sys2Proof.Accesses

/-! #### One counter -/

theorem coreAt_addCtr (c m amount stamp signer : Nat) (src : Adder) (s : State) (d : Nat) :
    coreAt (addCtr c m amount stamp signer src s) d = { coreAt s d with
      ctrs := if d = c then Sparse.set Counter.zero m (ctrPlus (ctrAt s c m) amount stamp signer src) (coreAt s c).ctrs else (coreAt s d).ctrs } := by
  rw [addCtr, coreAt_modCore]
  split
  · next same =>
    rw [same]
    rfl
  · rfl

theorem coreAt_addCtr_rest (c m amount stamp signer : Nat) (src : Adder) (s : State) (d : Nat) :
    coreAt (addCtr c m amount stamp signer src s) d = { coreAt s d with ctrs := (coreAt (addCtr c m amount stamp signer src s) d).ctrs } := by
  rw [coreAt_addCtr]

/-- An add changes the one counter (R240). -/
theorem ctrAt_addCtr (c m amount stamp signer : Nat) (src : Adder) (s : State) (d n : Nat) :
    ctrAt (addCtr c m amount stamp signer src s) d n = if d = c ∧ n = m then ctrPlus (ctrAt s c m) amount stamp signer src else ctrAt s d n := by
  rw [ctrAt, coreAt_addCtr]
  by_cases here : d = c
  · rw [if_pos here, get_set, here]
    simp only [true_and]
    rfl
  · rw [if_neg here, if_neg fun both => here both.1]
    rfl

/-- The greatest value of a counter is kept (R240). -/
theorem val_ctrPlus (k : Counter) (amount stamp signer : Nat) (src : Adder) :
    (ctrPlus k amount stamp signer src).val.toNat = min (k.val.toNat + amount) (2 ^ 64 - 1) := by
  rw [ctrPlus, BitVec.toNat_ofNat]
  omega

/-! #### The instructions, relaxed -/

/-- The checks of `CADD` (R240). -/
def caddOk (x : Fields) (s : State) : Bool :=
  ctrB s.g x && (if opZero x.a then ctrOk s x x.d else opZero x.d && memCtrOk s.g x.a && apart x.a 2 x.b 1)

/-- What `CADD` does once its guards hold and its release is done. -/
def caddWith (x : Fields) (amount stamp : Nat) (s : State) : Result :=
  if opZero x.a then
    match ctrCore s x with
    | none => finish s.g s
    | some c =>
      if c = coreNo s.g then
        match addOwn (ctrIdx x.d) amount stamp s with
        | (s, some t) => trapped t s
        | (s, none) => finish s.g s
      else finish (addFar c (ctrIdx x.d) amount stamp s).g (addFar c (ctrIdx x.d) amount stamp s)
  else addMemory amount stamp (read64 s.g x 0 x.a) s

/-- The checks of `CREAD` (R242). -/
def creadOk (x : Fields) (s : State) : Bool :=
  isSPair x.d && regOk s.g x.d 2 && (if isS x.a then memCtrOk s.g x.a && apart x.d 2 x.a 2 else ctrOk s x x.a)

/-- What `CREAD` does once its guards hold. -/
def creadWith (x : Fields) (s : State) : Result :=
  if isS x.a then readMemCounter x (read64 s.g x 0 x.a) s
  else match ctrCore s x with
    | none => finish s.g s
    | some c =>
      let own := decide (c = coreNo s.g)
      let u := if own then s else performWhere (ownAdd s.g.gid c (ctrIdx x.a)) s
      let k := if own then ctrAt u c (ownCtr u (ctrIdx x.a)) else farCounter u c (ctrIdx x.a)
      let v := if own then u else cross { u with ctr := u.ctr + 1 }
      writeCounter x k.val (observe v.g (isAcq x) x.md.toNat k v)

section
variable {x : Fields} {s : State}

theorem exec_cadd : exec (.cadd x) s = runCtr x (caddOk x s) (isRel x) (caddWith x (read32 s.g x 0 x.b).toNat) s := rfl

theorem exec_cread : exec (.cread x) s = runCtr x (creadOk x s) false (fun _ => creadWith x) s := rfl

theorem cadd_skips (ok : caddOk x s = true) (off : holdsQ s.g x = false) : exec (.cadd x) s = finish s.g s := by
  rw [exec_cadd, runCtr, need_ok ok, if_neg (by simp [off])]

theorem cread_skips (ok : creadOk x s = true) (off : holdsQ s.g x = false) : exec (.cread x) s = finish s.g s := by
  rw [exec_cread, runCtr, need_ok ok, if_neg (by simp [off])]

/-- A relaxed add carries the timestamp of an earlier release fence alone. -/
theorem cadd_holds (relaxed : ordOf x = 0) (ok : caddOk x s = true) (holds : holdsQ s.g x = true) :
    exec (.cadd x) s = caddWith x (read32 s.g x 0 x.b).toNat s.g.carry s := by
  rw [exec_cadd, runCtr, need_ok ok, if_pos holds, (relaxed_plain relaxed).1]
  simp

theorem cread_holds (ok : creadOk x s = true) (holds : holdsQ s.g x = true) : exec (.cread x) s = creadWith x s := by
  rw [exec_cread, runCtr, need_ok ok, if_pos holds]
  simp

end

/-- A value in a pair of uniform registers. -/
theorem pair_result {x : Fields} {s : State} (pair : isSPair x.d = true) (holds : holdsQ s.g x = true) (v : DWord) :
    RegResult x 2 (fun _ => words64 v) s (setG (advance (writeUni s.g x.d (words64 v))) s) := by
  cases hd : x.d with
  | s n =>
    obtain ⟨frame, reads⟩ := writeUni_s s.g n (words64 v)
    have h := frame_adv_s frame
    refine ⟨rfl, h, fun k hk => ?_, fun k hk => ?_, fun k hk => ?_⟩
    · rw [setG_g, show (advance (writeUni s.g (.s n) (words64 v))).vPoison = (writeUni s.g (.s n) (words64 v)).vPoison from rfl, frame] at hk
      exact hk
    · rw [hd] at hk
      cases hk
    · rw [hd] at hk
      cases hk
      refine ⟨?_, ?_, fun _ j hj => ?_, fun q hq => ?_⟩
      · rw [setG_g, show (advance (writeUni s.g (.s n) (words64 v))).v = (writeUni s.g (.s n) (words64 v)).v from rfl, frame]
      · rw [setG_g, show (advance (writeUni s.g (.s n) (words64 v))).vPoison = (writeUni s.g (.s n) (words64 v)).vPoison from rfl, frame]
      · refine (reads (n.toNat + j)).trans ?_
        rw [length_words64, if_pos ⟨Nat.le_add_right _ _, Nat.add_lt_add_left hj _⟩, Nat.add_sub_cancel_left]
      · refine (reads q).trans (if_neg fun within => hq ⟨holds, ?_⟩)
        rwa [length_words64] at within
  | _ => rw [hd] at pair; cases pair

/-- A read that gives a counter's value. -/
theorem writeCounter_result {x : Fields} {s t : State} (pair : isSPair x.d = true) (holds : holdsQ s.g x = true) (same : sameAccess s t = s) (v : DWord) :
    ∃ u, writeCounter x v t = .next u ∧ u = setG u.g t ∧ RegResult x 2 (fun _ => words64 v) s (sameAccess s u) := by
  have written : Reads (writeUni s.g x.d (words64 v)) s (setG (writeUni t.g x.d (words64 v)) t) :=
    Reads.write (h := s.g) same (f := fun g => writeUni g x.d (words64 v)) fun a b g => writeUni_taught a b g x.d _
  refine ⟨setG (advance (writeUni t.g x.d (words64 v))) t, rfl, rfl, ?_⟩
  have done : sameAccess s (setG (advance (writeUni t.g x.d (words64 v))) t) = setG (advance (writeUni s.g x.d (words64 v))) s := written.done
  rw [done]
  exact pair_result pair holds v

theorem ctrCore_own {x : Fields} {s : State} (own : x.e.getLsbD 5 = false) : ctrCore s x = some (coreNo s.g) := by
  rw [ctrCore, own]
  rfl

/-- A counter of the gang's teams passes step 5 of R113. -/
theorem ctrOk_of_core {x : Fields} {s : State} {o : Opnd} {c : Nat} (ctr : isCtr o = true) (core : ctrCore s x = some c) : ctrOk s x o = true := by
  rw [ctrOk, ctr, core]
  rfl

theorem not_s_of_ctr {o : Opnd} (ctr : isCtr o = true) : isS o = false := by
  cases o with
  | sp k => rfl
  | _ => cases ctr

section
variable {x : Fields} {s : State} {c : Nat} (core : ctrCore s x = some c)
include core

theorem caddOk_core (zero : opZero x.a = true) (ctr : isCtr x.d = true) (amount : ctrB s.g x = true) : caddOk x s = true := by
  rw [caddOk, amount, if_pos zero, ctrOk_of_core ctr core]
  rfl

theorem creadOk_core (ctr : isCtr x.a = true) (pair : (isSPair x.d && regOk s.g x.d 2) = true) : creadOk x s = true := by
  rw [creadOk, pair, if_neg (by simp [not_s_of_ctr ctr]), ctrOk_of_core ctr core]
  rfl

theorem creadWith_own (ctr : isCtr x.a = true) (here : c = coreNo s.g) :
    creadWith x s = writeCounter x (ctrAt s c (ownCtr s (ctrIdx x.a))).val
      (observe s.g (isAcq x) x.md.toNat (ctrAt s c (ownCtr s (ctrIdx x.a))) s) := by
  simp only [creadWith, not_s_of_ctr ctr, Bool.false_eq_true, if_false, core, here, decide_true, if_true]

theorem creadWith_far (ctr : isCtr x.a = true) (far : c ≠ coreNo s.g) {u : State} (own : performWhere (ownAdd s.g.gid c (ctrIdx x.a)) s = u) :
    creadWith x s = writeCounter x (farCounter u c (ctrIdx x.a)).val
      (observe u.g (isAcq x) x.md.toNat (farCounter u c (ctrIdx x.a)) (cross { u with ctr := u.ctr + 1 })) := by
  simp only [creadWith, not_s_of_ctr ctr, Bool.false_eq_true, if_false, core, far, decide_false, own]
  rfl

end

/-! #### A counter of the issuing core -/

theorem ctrOver_low {k : Counter} {n : Nat} (h : k.val.toNat + n < 2 ^ 64) : ctrOver k n = false := decide_eq_false (by omega)

theorem ctrOver_high {k : Counter} {n : Nat} (h : 2 ^ 64 ≤ k.val.toNat + n) : ctrOver k n = true := decide_eq_true (by omega)

/-- An add of the running group to a counter of its core. -/
def addedOwn (m n : Nat) (s : State) : State := addCtr (coreNo s.g) m n s.g.carry (s.g.tid + 1) (groupAdder s.g) s

section
variable {x : Fields} {s : State} (relaxed : ordOf x = 0) (own : x.e.getLsbD 5 = false)
  (zero : opZero x.a = true) (ctr : isCtr x.d = true) (amount : ctrB s.g x = true) (holds : holdsQ s.g x = true)
include relaxed own zero ctr amount holds

theorem cadd_own : exec (.cadd x) s = match addOwn (ctrIdx x.d) (read32 s.g x 0 x.b).toNat s.g.carry s with
    | (s, some t) => trapped t s
    | (s, none) => finish s.g s := by
  rw [cadd_holds relaxed (caddOk_core (ctrCore_own own) zero ctr amount) holds, caddWith, if_pos zero, ctrCore_own own]
  simp only [if_true]

theorem cadd_own_fits (fits : ctrOver (ctrAt s (coreNo s.g) (ownCtr s (ctrIdx x.d))) (read32 s.g x 0 x.b).toNat = false) :
    exec (.cadd x) s = finish s.g (addedOwn (ownCtr s (ctrIdx x.d)) (read32 s.g x 0 x.b).toNat s) := by
  rw [cadd_own relaxed own zero ctr amount holds, addOwn]
  simp only [fits]
  rfl

theorem cadd_own_saturates (sat : ctrOver (ctrAt s (coreNo s.g) (ownCtr s (ctrIdx x.d))) (read32 s.g x 0 x.b).toNat = true) :
    exec (.cadd x) s = trapped ⟨0x18, 0, some (counterRef (coreNo s.g) (ownCtr s (ctrIdx x.d))), 0⟩
      (addedOwn (ownCtr s (ctrIdx x.d)) (read32 s.g x 0 x.b).toNat s) := by
  rw [cadd_own relaxed own zero ctr amount holds, addOwn]
  simp only [sat]
  rfl

end

/-! #### Counters of other cores and of memory -/

theorem farCounter_of_team {u : State} {c n : Nat} {tm : Team} (team : gangTeam u u.g.launch u.g.gang c = some tm) :
    farCounter u c n = ctrAt u c (16 * rangeOn tm c + n) := by
  rw [farCounter, team]

/-- An add to another core leaves as one message (R240). -/
theorem cadd_far {x : Fields} {s : State} {c : Nat} {tm : Team} (relaxed : ordOf x = 0) (core : ctrCore s x = some c) (holds : holdsQ s.g x = true)
    (zero : opZero x.a = true) (ctr : isCtr x.d = true) (amount : ctrB s.g x = true) (far : c ≠ coreNo s.g)
    (team : gangTeam s s.g.launch s.g.gang c = some tm) :
    exec (.cadd x) s = finish s.g (countUp s.g.tid { s with pending := s.pending ++ [.counterAddArrival
      { launch := tm.launch, gang := tm.gang, team := tm.team, odd := posIn tm c == 1, n := ctrIdx x.d, amount := (read32 s.g x 0 x.b).toNat
        stamp := s.g.carry, src := groupAdder s.g, owner := some s.g.gid, pc := s.g.pc, dest := some c, signer := s.g.tid + 1 }] }) := by
  rw [cadd_holds relaxed (caddOk_core core zero ctr amount) holds]
  simp only [caddWith, zero, if_true, core, if_neg far, addFar, team]
  rfl

/-- A read of a counter of another core (R242). -/
theorem cread_far {x : Fields} {s : State} {c : Nat} {tm : Team} (relaxed : ordOf x = 0) (core : ctrCore s x = some c) (holds : holdsQ s.g x = true)
    (ctr : isCtr x.a = true) (pair : (isSPair x.d && regOk s.g x.d 2) = true) (far : c ≠ coreNo s.g) {u : State}
    (own : performWhere (ownAdd s.g.gid c (ctrIdx x.a)) s = u) (g : u.g = s.g) (team : gangTeam u s.g.launch s.g.gang c = some tm) :
    ∃ t, exec (.cread x) s = .next t ∧
      RegResult x 2 (fun _ => words64 (ctrAt u c (16 * rangeOn tm c + ctrIdx x.a)).val) u (sameAccess u { t with ctr := u.ctr }) := by
  have same : sameAccess { u with ctr := u.ctr + 1 } (observe u.g false x.md.toNat (farCounter u c (ctrIdx x.a)) (cross { u with ctr := u.ctr + 1 })) =
      { u with ctr := u.ctr + 1 } := sameAccess_trans (t := cross { u with ctr := u.ctr + 1 }) rfl (sameAccess_observe ..)
  obtain ⟨isPair, -⟩ := (Bool.and_eq_true _ _).mp pair
  obtain ⟨t, run, -, result⟩ := writeCounter_result (s := { u with ctr := u.ctr + 1 }) isPair (by rw [← g] at holds; exact holds) same
    (farCounter u c (ctrIdx x.a)).val
  refine ⟨t, ?_, ?_⟩
  · rw [cread_holds (creadOk_core core ctr pair) holds, creadWith_far core ctr far own, (relaxed_plain relaxed).2]
    exact run
  · rw [← g] at team
    rw [farCounter_of_team team] at result
    have back : sameAccess u { t with ctr := u.ctr } = { sameAccess { u with ctr := u.ctr + 1 } t with ctr := u.ctr } := rfl
    rw [back]
    exact ⟨by rw [result.rest]; rfl, result.group, result.poison, result.toV, result.toS⟩

/-- An add to memory leaves for the counter's home slice (R240). -/
theorem cadd_memory {x : Fields} {s s1 : State} {pa : Nat} (relaxed : ordOf x = 0) (holds : holdsQ s.g x = true) (q : quiet s1 (pa / 64))
    (sound : memError s1 pa 8 = none) (g : s1.g = s.g) (other : opZero x.a = false)
    (checks : (opZero x.d && memCtrOk s.g x.a && ctrB s.g x && apart x.a 2 x.b 1) = true)
    (place : resolve s.g (read64 s.g x 0 x.a) 8 .write true s = (.mem pa, s1)) :
    ∃ t, exec (.cadd x) s = .next t ∧ t.g = advance s.g ∧ t.mem = s1.mem ∧ t.pending = s1.pending ++
      [.sliceOperation (sliceReq s.g (read64 s.g x 0 x.a) pa s.g.carry false (.count (read32 s.g x 0 x.b).toNat))] := by
  have passed : caddOk x s = true := by
    rw [caddOk, other, if_neg Bool.false_ne_true]
    simp only [Bool.and_eq_true] at checks ⊢
    obtain ⟨⟨⟨zero, pair⟩, amount⟩, parts⟩ := checks
    exact ⟨amount, ⟨zero, pair⟩, parts⟩
  rw [cadd_holds relaxed passed holds]
  simp only [caddWith, other, Bool.false_eq_true, if_false, addMemory, place, slicePost, sliceReq, sliceBytes, sound]
  rw [← g, flushWords_absent q.2]
  exact ⟨_, rfl, rfl, rfl, rfl⟩

/-- A read of a counter in memory (R242). -/
theorem cread_memory {x : Fields} {s s1 : State} {pa : Nat} (relaxed : ordOf x = 0) (holds : holdsQ s.g x = true) (q : quiet s1 (pa / 64))
    (sound : memError s1 pa 8 = none) (g : s1.g = s.g) (uniform : isS x.a = true)
    (checks : (isSPair x.d && regOk s.g x.d 2 && memCtrOk s.g x.a && apart x.d 2 x.a 2) = true)
    (place : resolve s.g (read64 s.g x 0 x.a) 8 .read true s = (.mem pa, s1)) :
    ∃ t, exec (.cread x) s = .next t ∧
      RegResult x 2 (fun _ => words64 (BitVec.ofNat 64 (leNat (memRead s1 pa 8)))) s1 (sameAccess s1 t) := by
  have passed : creadOk x s = true := by
    rw [creadOk, uniform, if_pos rfl]
    simp only [Bool.and_eq_true] at checks ⊢
    obtain ⟨⟨⟨pair, fits⟩, source⟩, parts⟩ := checks
    exact ⟨⟨pair, fits⟩, source, parts⟩
  have isPair : isSPair x.d = true := by
    simp only [Bool.and_eq_true] at checks
    exact checks.1.1.1
  obtain ⟨u, read, same⟩ := slowRead_quiet q sound (read64 s.g x 0 x.a) 0
  obtain ⟨t, run, -, result⟩ := writeCounter_result isPair (by rw [g]; exact holds) same (BitVec.ofNat 64 (leNat (memRead s1 pa 8)))
  refine ⟨t, ?_, result⟩
  rw [cread_holds passed holds, creadWith, if_pos uniform]
  simp only [readMemCounter, place, read, acquireRead, (relaxed_plain relaxed).2, Bool.false_eq_true, if_false]
  exact run

/-! #### The arrival of an add -/

/-- Counters and memory stay as they are. -/
structure CountsSame (s t : State) : Prop where
  ctrs : ∀ c, (coreAt t c).ctrs = (coreAt s c).ctrs
  lost : ∀ c, (coreAt t c).discarded = (coreAt s c).discarded
  mem : t.mem = s.mem

theorem CountsSame.rfl {s : State} : CountsSame s s := ⟨fun _ => Eq.refl _, fun _ => Eq.refl _, Eq.refl _⟩

theorem CountsSame.trans {s t u : State} (h : CountsSame s t) (k : CountsSame t u) : CountsSame s u :=
  ⟨fun c => (k.ctrs c).trans (h.ctrs c), fun c => (k.lost c).trans (h.lost c), k.mem.trans h.mem⟩

theorem CountsSame.ctrAt {s t : State} (h : CountsSame s t) (c n : Nat) : ctrAt t c n = ctrAt s c n := by
  rw [Machine.ctrAt, h.ctrs, Machine.ctrAt]

theorem countsSame_freeOnCore (c range : Nat) (tiles : List Nat) (s : State) : CountsSame s (modCore c (freeOnCore range tiles) s) := by
  refine ⟨fun d => ?_, fun d => ?_, rfl⟩
  all_goals
    rw [coreAt_modCore]
    split
    · next same =>
      rw [same]
      rfl
    · rfl

theorem countsSame_freeTeam (tm : Team) (s : State) : CountsSame s (freeTeam tm s) := by
  have freed := foldl_keeps (CountsSame s) (fun u k => modCore (nth 0 tm.cores k) (freeOnCore (nth 0 tm.ranges k) (nth [] tm.tiles k)) u)
    (fun u k h => h.trans (countsSame_freeOnCore _ _ _ u)) (List.range tm.cores.length) .rfl
  exact iteInduction (motive := CountsSame s) (fun _ => ⟨freed.ctrs, freed.lost, freed.mem⟩) (fun _ => ⟨freed.ctrs, freed.lost, freed.mem⟩)

theorem countsSame_settleTeam (tid : Nat) (s : State) : CountsSame s (settleTeam tid s) := by
  unfold settleTeam
  split
  · exact .rfl
  · exact iteInduction (motive := CountsSame s) (fun _ => countsSame_freeTeam _ s) (fun _ => .rfl)

/-- The context that issued an add counts it as done: its team may end (R312). -/
theorem countsSame_addDone (r : CtrAdd) (s : State) : CountsSame s (addDone r s) := by
  unfold addDone
  split
  · exact .rfl
  · exact CountsSame.trans (t := countDown _ s) ⟨fun _ => rfl, fun _ => rfl, rfl⟩ (countsSame_settleTeam _ _)

theorem landAdd_fits {tm : Team} {r : CtrAdd} {s : State}
    (fits : ctrOver (ctrAt s (addTarget tm r).1 (addTarget tm r).2) r.amount = false) :
    landAdd tm r s = addCtr (addTarget tm r).1 (addTarget tm r).2 r.amount r.stamp r.signer r.src s := by
  simp only [landAdd, fits, Bool.false_eq_true, if_false]
  split <;> rfl

theorem arrival_lands {tm : Team} {r : CtrAdd} {s : State} (team : addTeam s r = some tm) :
    exec (.counterAddArrival r) s = .next (addDone r (landAdd tm r s)) := by
  show (.next (applyAdd r s) : Result) = _
  rw [applyAdd, team]

theorem arrival_lost {c : Nat} {r : CtrAdd} {s : State} (team : addTeam s r = none) (saved : s.saved = []) (core : lostCore s r = some c) :
    exec (.counterAddArrival r) s = .next (addDone r (modCore c (fun k => { k with discarded := k.discarded + 1 }) s)) := by
  show (.next (applyAdd r s) : Result) = _
  rw [applyAdd, team, saved]
  show (.next (addDone r (discardAdd r s)) : Result) = _
  rw [discardAdd, core]

/-! #### O28 -/

/-- `CADD` and `CREAD` of a counter of the issuing core. -/
theorem counters_own (x : Fields) (s : State) (relaxed : ordOf x = 0) (own : x.e.getLsbD 5 = false) :
    let c := coreNo s.g
    let onward := { s.g with pc := s.g.pc + 12, ridx := 0, readTime := 0, midway := false }
    (WellFormed (.cadd x) → opZero x.a = true → isCtr x.d = true → ctrB s.g x = true →
      let m := ownCtr s (opIdx x.d - 0x20)
      let v := (ctrAt s c m).val.toNat + (read32 s.g x 0 x.b).toNat
      (holdsQ s.g x = false → exec (.cadd x) s = .next (setG onward s)) ∧
      (holdsQ s.g x = true → v < 2 ^ 64 → ∃ t, exec (.cadd x) s = .next t ∧ t = { setG onward s with cores := t.cores } ∧
        (ctrAt t c m).val.toNat = v ∧ (ctrAt t c m).ct = max (ctrAt s c m).ct s.g.carry ∧
        (∀ d n, ¬(d = c ∧ n = m) → ctrAt t d n = ctrAt s d n) ∧
        ∀ d, coreAt t d = { coreAt s d with ctrs := (coreAt t d).ctrs }) ∧
      (holdsQ s.g x = true → 2 ^ 64 ≤ v → ∃ t, exec (.cadd x) s = trapped ⟨0x18, 0, some (counterRef c m), 0⟩ t ∧
        t = { s with cores := t.cores } ∧ (ctrAt t c m).val.toNat = 2 ^ 64 - 1)) ∧
    (WellFormed (.cread x) → isCtr x.a = true → (isSPair x.d && regOk s.g x.d 2) = true →
      (holdsQ s.g x = false → exec (.cread x) s = .next (setG onward s)) ∧
      (holdsQ s.g x = true → ∃ t, exec (.cread x) s = .next t ∧
        RegResult x 2 (fun _ => words64 (ctrAt s c (ownCtr s (opIdx x.a - 0x20))).val) s (sameAccess s t))) := by
  intro c onward
  have core := ctrCore_own (s := s) own
  refine ⟨fun _ zero ctr amount => ?_, fun _ ctr pair => ⟨fun off => ?_, fun holds => ?_⟩⟩
  · intro m v
    have one := ctrAt_addCtr c m (read32 s.g x 0 x.b).toNat s.g.carry (s.g.tid + 1) (groupAdder s.g) s
    have value := val_ctrPlus (ctrAt s c m) (read32 s.g x 0 x.b).toNat s.g.carry (s.g.tid + 1) (groupAdder s.g)
    refine ⟨fun off => cadd_skips (caddOk_core core zero ctr amount) off, fun holds fits => ?_, fun holds high => ?_⟩
    · refine ⟨_, cadd_own_fits relaxed own zero ctr amount holds (ctrOver_low fits), rfl, ?_, ?_, fun d n other => ?_, fun d => ?_⟩
      · refine (congrArg (fun k : Counter => k.val.toNat) (one c m)).trans ?_
        rw [if_pos ⟨rfl, rfl⟩, value]
        omega
      · refine (congrArg Counter.ct (one c m)).trans ?_
        rw [if_pos ⟨rfl, rfl⟩]
        rfl
      · exact (one d n).trans (if_neg other)
      · exact coreAt_addCtr_rest c m _ _ _ _ s d
    · refine ⟨_, cadd_own_saturates relaxed own zero ctr amount holds (ctrOver_high high), rfl, ?_⟩
      refine (congrArg (fun k : Counter => k.val.toNat) (one c m)).trans ?_
      rw [if_pos ⟨rfl, rfl⟩, value]
      omega
  · exact cread_skips (creadOk_core core ctr pair) off
  · obtain ⟨isPair, -⟩ := (Bool.and_eq_true _ _).mp pair
    obtain ⟨t, run, -, result⟩ := writeCounter_result isPair holds (sameAccess_observe s.g x.md.toNat _ s)
      (ctrAt s c (ownCtr s (ctrIdx x.a))).val
    refine ⟨t, ?_, result⟩
    rw [cread_holds (creadOk_core core ctr pair) holds, creadWith_own core ctr rfl, (relaxed_plain relaxed).2]
    exact run

/-- `CADD` and `CREAD` of counters of other cores and of memory. -/
theorem counters_far (x : Fields) (s : State) (relaxed : ordOf x = 0) (holds : holdsQ s.g x = true) :
    let onward := { s.g with pc := s.g.pc + 12, ridx := 0, readTime := 0, midway := false }
    (∀ c tm, ctrCore s x = some c → c ≠ coreNo s.g → gangTeam s s.g.launch s.g.gang c = some tm →
      (WellFormed (.cadd x) → opZero x.a = true → isCtr x.d = true → ctrB s.g x = true → ∃ t r, exec (.cadd x) s = .next t ∧
        t = { setG onward s with pending := s.pending ++ [.counterAddArrival r], teams := t.teams, saved := t.saved } ∧
        (r.launch = tm.launch ∧ r.gang = tm.gang ∧ r.team = tm.team ∧ r.n = opIdx x.d - 0x20 ∧
          r.amount = (read32 s.g x 0 x.b).toNat ∧ r.stamp = s.g.carry ∧ r.owner = some s.g.gid)) ∧
      (WellFormed (.cread x) → isCtr x.a = true → (isSPair x.d && regOk s.g x.d 2) = true →
        ∀ u, performWhere (ownAdd s.g.gid c (opIdx x.a - 0x20)) s = u → u.g = s.g → gangTeam u s.g.launch s.g.gang c = some tm →
        ∃ t, exec (.cread x) s = .next t ∧
          RegResult x 2 (fun _ => words64 (ctrAt u c (16 * rangeOn tm c + (opIdx x.a - 0x20))).val) u (sameAccess u { t with ctr := u.ctr }))) ∧
    (∀ s1 pa, quiet s1 (pa / 64) → memError s1 pa 8 = none → s1.g = s.g →
      (WellFormed (.cadd x) → opZero x.a = false → (opZero x.d && memCtrOk s.g x.a && ctrB s.g x && apart x.a 2 x.b 1) = true →
        let va := read64 s.g x 0 x.a
        resolve s.g va 8 .write true s = (.mem pa, s1) → ∃ t, exec (.cadd x) s = .next t ∧ t.g = onward ∧ t.mem = s1.mem ∧
          t.pending = s1.pending ++ [.sliceOperation (sliceReq s.g va pa s.g.carry false (.count (read32 s.g x 0 x.b).toNat))]) ∧
      (WellFormed (.cread x) → isS x.a = true →
        (isSPair x.d && regOk s.g x.d 2 && memCtrOk s.g x.a && apart x.d 2 x.a 2) = true →
        resolve s.g (read64 s.g x 0 x.a) 8 .read true s = (.mem pa, s1) → ∃ t, exec (.cread x) s = .next t ∧
          RegResult x 2 (fun _ => words64 (BitVec.ofNat 64 (leNat (memRead s1 pa 8)))) s1 (sameAccess s1 t))) := by
  intro onward
  refine ⟨fun c tm core far team => ⟨fun _ zero ctr amount => ?_, fun _ ctr pair u own g there => ?_⟩,
    fun s1 pa q sound g => ⟨fun _ other checks => ?_, fun _ uniform checks place => ?_⟩⟩
  · exact ⟨_, _, cadd_far relaxed core holds zero ctr amount far team, rfl, rfl, rfl, rfl, rfl, rfl, rfl, rfl⟩
  · exact cread_far relaxed core holds ctr pair far own g there
  · exact fun place => cadd_memory relaxed holds q sound g other checks place
  · exact cread_memory relaxed holds q sound g uniform checks place

/-- A posted add arrives. -/
theorem counters_arrival (r : CtrAdd) (s : State) :
    (∀ tm, addTeam s r = some tm →
      let p := addTarget tm r
      let v := (ctrAt s p.1 p.2).val.toNat + r.amount
      v < 2 ^ 64 → ∃ t, exec (.counterAddArrival r) s = .next t ∧ (ctrAt t p.1 p.2).val.toNat = v ∧
        (ctrAt t p.1 p.2).ct = max (ctrAt s p.1 p.2).ct r.stamp ∧
        (∀ c n, ¬(c = p.1 ∧ n = p.2) → (ctrAt t c n).val = (ctrAt s c n).val) ∧ t.mem = s.mem) ∧
    (∀ c, addTeam s r = none → s.saved = [] → lostCore s r = some c → ∃ t, exec (.counterAddArrival r) s = .next t ∧
      (coreAt t c).discarded = (coreAt s c).discarded + 1 ∧ t.mem = s.mem ∧ ∀ d n, ctrAt t d n = ctrAt s d n) := by
  refine ⟨fun tm team => ?_, fun c team saved core => ?_⟩
  · intro p v fits
    have run := arrival_lands team
    rw [landAdd_fits (ctrOver_low fits)] at run
    have done := countsSame_addDone r (addCtr p.1 p.2 r.amount r.stamp r.signer r.src s)
    have one := ctrAt_addCtr p.1 p.2 r.amount r.stamp r.signer r.src s
    have value := val_ctrPlus (ctrAt s p.1 p.2) r.amount r.stamp r.signer r.src
    refine ⟨_, run, ?_, ?_, fun c n other => ?_, done.mem⟩
    · rw [done.ctrAt, one, if_pos ⟨rfl, rfl⟩, value]
      omega
    · rw [done.ctrAt, one, if_pos ⟨rfl, rfl⟩]
      rfl
    · rw [done.ctrAt, one, if_neg other]
  · have done := countsSame_addDone r (modCore c (fun k => { k with discarded := k.discarded + 1 }) s)
    have core' := coreAt_modCore c (fun k => { k with discarded := k.discarded + 1 }) s
    refine ⟨_, arrival_lost team saved core, ?_, done.mem, fun d n => ?_⟩
    · rw [done.lost, core', if_pos rfl]
    · rw [done.ctrAt, ctrAt, core', ctrAt]
      split
      · next same => rw [same]
      · rfl

/-- Settles O28: of the cores an add changes the one counter, a read changes nothing but its registers, and a posted add lands in the
one counter of its team or is counted as discarded. -/
theorem counters : Obligations.Counters := by
  unfold Obligations.Counters
  exact ⟨counters_own, counters_far, counters_arrival⟩

end Sys2Proof.Counters

/-! ### A load of HBM after another has made a cached line give way (R226, R341), and O22 -/

namespace Sys2Proof.Accesses

open Sys2Proof Sys2Proof.Machine Sys2Proof.Safety Sys2Proof.Laws Sys2Proof.NumberFormats Sys2Proof.Groups Sys2Proof.Launching Sys2Proof.HomeSlices

/-- Where the one way-group for a line's class is full of copies of one other line, an access to the line makes such a copy leave the cache
role, and its error becomes poison of HBM. -/
theorem poison_cacheTouch {eid cls line n : Nat} {e : CacheLine} {s : State} (held : s.cached = List.replicate n e) (full : linesPerWay ≤ n)
    (other : holdsLine line eid e = false) (ways : cacheWays s (sliceOfLine s line) cls = [e.wg]) (lost : (e.bad && e.dirty) = true)
    (clean : s.poison = []) : ∃ c, cacheTouch eid cls false false s line = { s with cached := c, poison := [e.line] } := by
  have some_ : n ≠ 0 := fun h => absurd full (by rw [h]; decide)
  have misses : s.cached.find? (holdsLine line eid) = none := by
    rw [held, List.find?_eq_none]
    intro d hd
    rw [List.eq_of_mem_replicate hd, other]
    exact Bool.false_ne_true
  have leaves : cachePlace [e.wg] s = some (e.wg, e.place, spillLine e s) := by
    simp only [cachePlace, held, List.filter_replicate, beq_self_eq_true, if_true, List.map_replicate, List.length_replicate,
      List.find?_cons, decide_eq_false (Nat.not_lt.mpr full), List.find?_nil, List.reverse_replicate, List.find?_replicate, some_, if_false,
      List.contains_cons, Bool.true_or]
  refine ⟨⟨line, eid, cls, e.wg, e.place, false, false⟩ :: s.cached.erase e, ?_⟩
  simp only [cacheTouch, misses, ways, leaves, spillLine, lost, clean]
  simp

/-- A line of HBM that the cache role holds for engagement 1, written and in error. -/
def strayLine : CacheLine := ⟨1, 1, 0, 0, 0, true, true⟩

/-- Two strands that load a byte each past the L1: strand 0 at address 0, strand 1 at address 64. -/
def twoLoads : Fields :=
  { g1 := ⟨false, 7⟩, g2 := ⟨false, 7⟩, u := false, ru := false, ch := 3, md := 0, d := .v 2, a := .s 0, b := .v 1, c := .v 0, e := 0, imm := 0 }

/-- A state whose core's TLB holds the page of both lines, and where line 0 may stand in way-group 0 alone. -/
def pageHeld (v : Sparse Word) (cached : List CacheLine) (poison : List Nat) (traffic : Nat) : State :=
  { State.reset with
    g := { Group.init with gid := 1, status := .ready, live := 3, active := 3, v := v }
    cached := cached
    poison := poison
    traffic := traffic
    wgcfg := (List.range 15).map (fun k => (k + 1, { WgCfg.reset with clsm := 0 }))
    cores := [(0, { Core.reset with tlb := [⟨0, 0, 16, 8, false⟩] })]
    phase := 4 }

/-- Way-group 0 is full of the stray line. -/
def crowded : State := pageHeld [(257, 64)] (List.replicate linesPerWay strayLine) [] 0

example : WellFormed (.ld .n8 twoLoads) := by simp only [WellFormed]; decide
example : memStrands crowded.g twoLoads = [0, 1] := by decide
example : relaxedOk twoLoads true (memRegs .n8 twoLoads) 0 crowded := by
  refine ⟨by decide, by decide, ?_⟩
  unfold readable
  decide

theorem resolve_hit {g : Group} {va : DWord} {size : Nat} {s : State} {e : TlbEntry} (space : va.toNat / 2 ^ 56 = 0) (aligned : va.toNat % size = 0)
    (hit : tlbFind s (coreNo g) g.eid va = some e) (permit : permFault e.leaf .read = none) :
    resolve g va size .read false s = (placeOf s g.eid e.leaf e.shift va, s) := by
  rw [resolve_global space aligned]
  simp only [Machine.translate, tlbLook, hit, translateBy, permit]
  rfl

theorem resolve_pageHeld (v : Sparse Word) (c : List CacheLine) (p : List Nat) (n : Nat) {a : Nat} (low : a < 65536) :
    resolve (pageHeld v c p n).g (BitVec.ofNat 64 a) 1 .read false (pageHeld v c p n) = (.mem a, pageHeld v c p n) := by
  have va : (BitVec.ofNat 64 a).toNat = a := by rw [BitVec.toNat_ofNat]; omega
  have hit : tlbFind (pageHeld v c p n) 0 0 (BitVec.ofNat 64 a) = some ⟨0, 0, 16, 8, false⟩ := by
    have page : (0 == a / 2 ^ 16) = true := by rw [beq_iff_eq]; omega
    have entries : (coreAt (pageHeld v c p n) 0).tlb = [⟨0, 0, 16, 8, false⟩] := rfl
    rw [tlbFind, entries, tlbHit, List.find?_cons_of_pos]
    simp only [va, beq_self_eq_true, Bool.true_and]
    exact page
  rw [resolve_hit (by rw [va]; omega) (Nat.mod_one _) hit rfl]
  have base : pteAddr 8 = 0 := by decide
  have inside : pteAddr 8 + (BitVec.ofNat 64 a).toNat % 2 ^ 16 = a := by rw [va, base]; omega
  have frame : frameOf (pageHeld v c p n) a = ⟨0, false⟩ := rfl
  have trained : (pageHeld v c p n).phase = 4 := rfl
  simp only [placeOf, inside, frame, trained]
  rw [if_neg (by decide), if_neg (by omega), if_neg fun h => h.1 rfl, if_neg (by decide), if_neg (Nat.lt_irrefl 4)]

theorem cached_pageHeld (v : Sparse Word) (c : List CacheLine) (p : List Nat) (n : Nat) : (pageHeld v c p n).cached = c := rfl

theorem quiet_pageHeld (v : Sparse Word) (c : List CacheLine) (p : List Nat) (n line : Nat) : quiet (pageHeld v c p n) line := by
  have pending : (pageHeld v c p n).pending = [] := rfl
  have lines : (coreAt (pageHeld v c p n) (coreNo (pageHeld v c p n).g)).lines = [] := rfl
  refine ⟨fun i hi => ?_, ?_⟩
  · rw [pending] at hi
    cases hi
  · rw [findLine, lines]
    rfl

theorem cacheWays_pageHeld (v : Sparse Word) (c : List CacheLine) (p : List Nat) (n : Nat) :
    cacheWays (pageHeld v c p n) (sliceOfLine (pageHeld v c p n) 0) 0 = [0] := by
  have slice : sliceOfLine (pageHeld v c p n) 0 = 0 := by
    have frame : frameOf (pageHeld v c p n) (64 * 0) = ⟨0, false⟩ := rfl
    rw [sliceOfLine, frame]
    decide
  have ways : ∀ w, wgOf (pageHeld v c p n) 0 w = Sparse.get WgCfg.reset (16 * 0 + w) ((List.range 15).map (fun k => (k + 1, { WgCfg.reset with clsm := 0 }))) :=
    fun _ => rfl
  simp only [cacheWays, slice, ways]
  decide

theorem classAt_pageHeld (v : Sparse Word) (c : List CacheLine) (p : List Nat) (n eid : Nat) : classAt (pageHeld v c p n) eid 0#64 = 0 := by
  have entry : ∀ l a, readPte (pageHeld v c p n) l a = 0 := fun l a => by
    have bytes : memRead (pageHeld v c p n) a 8 = [0, 0, 0, 0, 0, 0, 0, 0] := rfl
    rw [readPte, bytes]
    decide
  have root : (engOf (pageHeld v c p n) eid).root = 0 := rfl
  rw [classAt, root, walkFrom, levels, walkWith]
  simp only [entry]
  rfl

/-- Strand 0's read makes the stray line leave the cache role. -/
theorem sliceTouch_crowded : ∃ c, sliceTouch 0#64 0 1 false false crowded = pageHeld [(257, 64)] c [1] 1 := by
  have spilt : ∀ v c p n c' p', { pageHeld v c p n with cached := c', poison := p' } = pageHeld v c' p' n := fun _ _ _ _ _ _ => rfl
  have crossed : ∀ v c p n, cross (pageHeld v c p n) = pageHeld v c p (n + 1) := fun _ _ _ _ => rfl
  obtain ⟨c, touched⟩ := poison_cacheTouch (eid := 0) (cls := 0) (line := 0) (n := linesPerWay) (e := strayLine)
    (s := pageHeld [(257, 64)] (List.replicate linesPerWay strayLine) [] 1) (cached_pageHeld _ _ _ _) (Nat.le_refl linesPerWay) (by decide) (cacheWays_pageHeld _ _ _ _) (by decide) rfl
  refine ⟨c, ?_⟩
  have lines : linesOf 0 1 = [0] := by decide
  have owner : ∀ v c p n, (frameOf (pageHeld v c p n) 0).owner - 1 = 0 := fun _ _ _ _ => rfl
  rw [sliceTouch, lines, crowded, owner, classAt_pageHeld, crossed, List.foldl_cons, List.foldl_nil, Nat.zero_add, touched]
  exact spilt _ _ _ _ _ _

theorem bypass_twoLoads : bypass twoLoads = true := by decide

theorem clean_twoLoads (v : Sparse Word) (c : List CacheLine) (p : List Nat) (n i : Nat) :
    (memSrcs twoLoads 0).any (badReg (pageHeld v c p n).g i) = false := by
  rw [List.any_eq_false]
  intro o _ bad
  obtain ⟨-, j, -, hit⟩ := badReg_iff.mp (show badReg _ i (o.1, o.2) = true from bad)
  cases hit

/-- The error of the stray line is not found at its home slice while the cache role holds it, for another engagement than the frame's. -/
theorem lineBad_crowded (line : Nat) : lineBad crowded line = false := by
  have kv : crowded.kv = [] := rfl
  have poison : crowded.poison = [] := rfl
  have held : crowded.cached = List.replicate linesPerWay strayLine := cached_pageHeld _ _ _ _
  have owner : lineOwner crowded line = 0 := rfl
  have other : holdsLine line 0 strayLine = false := Bool.and_false _
  have absent : (crowded.cached.any fun e => holdsLine line (lineOwner crowded line) e && e.bad) = false := by
    rw [List.any_eq_false]
    intro e he
    rw [held] at he
    rw [List.eq_of_mem_replicate he, owner, other]
    exact Bool.false_ne_true
  rw [lineBad, kv, poison, absent]
  rfl

theorem memError_crowded (pa n : Nat) : memError crowded pa n = none := by
  have tags : ∀ line, tagBad crowded line = false := fun _ => rfl
  have sound : (linesOf pa n).any (lineBad crowded) = false := List.any_eq_false.mpr fun l _ => by rw [lineBad_crowded]; exact Bool.false_ne_true
  have tagged : (linesOf pa n).any (tagBad crowded) = false := List.any_eq_false.mpr fun l _ => by rw [tags]; exact Bool.false_ne_true
  rw [memError, sound, tagged]
  rfl

/-- Strand 0 loads a zero byte. -/
theorem strand0_crowded : ∃ c, strandAccess twoLoads (memSrcs twoLoads 0) (loadOne .n8 twoLoads) 0 0 crowded = .done 0 (pageHeld [(257, 64)] c [1] 1) := by
  obtain ⟨c, touched⟩ := sliceTouch_crowded
  refine ⟨c, ?_⟩
  have addr : memAddr crowded.g twoLoads 0 = 0#64 := by decide
  have at_ : resolve crowded.g (0#64) 1 .read false crowded = (.mem 0, crowded) := resolve_pageHeld _ _ _ _ (by decide)
  have alone : quiet crowded (0 / 64) := quiet_pageHeld _ _ _ _ _
  have read := slowRead_eq alone (memError_crowded 0 1) 0#64 0
  have clean : (memSrcs twoLoads 0).any (badReg crowded.g 0) = false := clean_twoLoads _ _ _ _ _
  have size : memBytes .n8 twoLoads = 1 := rfl
  have byte : memRead crowded 0 1 = [0] := rfl
  have time : wtsOf crowded (0 / 64) = 0 := rfl
  have signs : signersOf crowded 0 1 = [[]] := rfl
  rw [touched, byte, time, signs] at read
  rw [strandAccess, clean, if_neg Bool.false_ne_true, addr, loadOne]
  simp only [size, at_, bypass_twoLoads, if_true, read]
  rfl

theorem addr1_crowded : memAddr crowded.g twoLoads 1 = 64#64 := by decide

/-- Strand 1 finds poison. -/
theorem strand1_crowded (c : List CacheLine) : strandAccess twoLoads (memSrcs twoLoads 0) (loadOne .n8 twoLoads) 0 1 (pageHeld [(257, 64)] c [1] 1) =
    .trap 0x20 1 (some 64) (pageHeld [(257, 64)] c [1] 1) := by
  have addr : memAddr (pageHeld [(257, 64)] c [1] 1).g twoLoads 1 = 64#64 := addr1_crowded
  have at_ := resolve_pageHeld [(257, 64)] c [1] 1 (a := 64) (by decide)
  have poison : memError (pageHeld [(257, 64)] c [1] 1) 64 1 = some (0x20, 1) := rfl
  have read := slowRead_error (quiet_pageHeld [(257, 64)] c [1] 1 (64 / 64)) poison (64#64) 0
  have size : memBytes .n8 twoLoads = 1 := rfl
  rw [strandAccess, clean_twoLoads, if_neg Bool.false_ne_true, addr, loadOne]
  simp only [size, at_, bypass_twoLoads, if_true, read]
  rfl

theorem relaxedOk_crowded : relaxedOk twoLoads true (memRegs .n8 twoLoads) 0 crowded := by
  refine ⟨by decide, by decide, fun _ i _ o ho => ?_⟩
  have clean := clean_twoLoads [(257, 64)] (List.replicate linesPerWay strayLine) [] 0 i
  rw [List.any_eq_false] at clean
  exact Bool.eq_false_iff.mpr (clean o ho)

/-- The load traps in strand 1. -/
theorem exec_crowded : ∃ c, exec (.ld .n8 twoLoads) crowded = trapped ⟨0x20, 1, some 64, 1⟩ (pageHeld [(257, 64)] c [1] 1) := by
  obtain ⟨c, first⟩ := strand0_crowded
  have strands : memStrands crowded.g twoLoads = [0, 1] := by decide
  have carry : crowded.g.carry = 0 := rfl
  refine ⟨c, ?_⟩
  rw [exec_ld, execLd, runMem_relaxed relaxedOk_crowded.1 relaxedOk_crowded.2.1, strands, carry, runEach]
  simp only [first, runEach, strand1_crowded, closeAccess, Nat.max_self, keepRead_zero]

/-- The group's team is not there, so that the group stops; `sr.tcause` has the cause of the trap. -/
theorem tcause_crowded (c : List CacheLine) : (takeTrap ⟨0x20, 1, some 64, 1⟩ (pageHeld [(257, 64)] c [1] 1)).g.tcause = 0x120 := by
  have ends := Traps.takeTrap_terminates (t := ⟨0x20, 1, some 64, 1⟩) (s := pageHeld [(257, 64)] c [1] 1) rfl rfl (.inl rfl)
  have alone : findTeam (Traps.recorded ⟨0x20, 1, some 64, 1⟩ (pageHeld [(257, 64)] c [1] 1)) (pageHeld [(257, 64)] c [1] 1).g.tid = none := by
    rw [findTeam, Traps.recorded_teams]
    rfl
  have g : (pageHeld [(257, 64)] c [1] 1).g = crowded.g := rfl
  rw [ends, terminateTeam, alone]
  simp only [modGroups_g, Traps.recorded_g, g]
  decide

/-- Refutes O22: a relaxed load of several strands past the L1 is said to give each strand what memory held before it, when no strand's
place was in error. But the line that an earlier strand touches may make another leave the cache role, and that one may be a stray
dirty line in error of a later strand's place: its error, which was not found there before, becomes poison of HBM, and the later
strand traps (R341, R346). -/
theorem not_globalAccess : ¬ Obligations.GlobalAccess := by
  unfold Obligations.GlobalAccess
  rintro ⟨-, -, several, -⟩
  obtain ⟨loads, -⟩ := several .n8 twoLoads crowded (fun i => 64 * i) (fun p hp => nomatch hp)
  have form : WellFormed (.ld .n8 twoLoads) := by simp only [WellFormed]; decide
  have strands : memStrands crowded.g twoLoads = [0, 1] := by decide
  obtain ⟨past, -⟩ := loads form relaxedOk_crowded (fun i hi => by
    rw [strands] at hi
    rcases List.mem_cons.mp hi with rfl | hi
    · exact resolve_pageHeld _ _ _ _ (by decide)
    · rw [List.mem_singleton.mp hi]
      exact resolve_pageHeld _ _ _ _ (by decide))
  obtain ⟨t, run, result⟩ := past bypass_twoLoads fun i _ => ⟨(quiet_pageHeld _ _ _ _ _).2, memError_crowded _ _⟩
  obtain ⟨c, traps⟩ := exec_crowded
  rw [traps] at run
  obtain rfl := Host.Outcome.next.inj run
  have same : (takeTrap ⟨0x20, 1, some 64, 1⟩ (pageHeld [(257, 64)] c [1] 1)).g.tcause = 0 := congrArg Group.tcause result.group
  rw [tcause_crowded] at same
  cases same

end Sys2Proof.Accesses

/-! ### Frames of the pool (R339, R425) -/

namespace Sys2Proof.Mappings

open Sys2Proof Sys2Proof.Machine Sys2Proof.Safety Sys2Proof.Laws

/-- From `s` to `t` frames that nobody owned, and what they hold, are all that has changed of frames and of memory. -/
structure Spares (s t : State) : Prop where
  frames : ∀ f, unowned s f = false → Sparse.get ⟨0, false⟩ f t.frames = Sparse.get ⟨0, false⟩ f s.frames
  mem : ∀ b, unowned s (b / 65536) = false → memByte t b = memByte s b
  engs : t.engs = s.engs
  pool : ∀ d f, f ∈ Sparse.get [] d t.poolBack → f ∈ Sparse.get [] d s.poolBack

theorem Spares.rfl {s : State} : Spares s s := ⟨fun _ _ => Eq.refl _, fun _ _ => Eq.refl _, Eq.refl _, fun _ _ h => h⟩

theorem Spares.owned {s t : State} (h : Spares s t) {f : Nat} (owned : unowned s f = false) : unowned t f = false := by
  rw [unowned, h.frames f owned]
  exact owned

theorem Spares.trans {s t u : State} (h : Spares s t) (k : Spares t u) : Spares s u where
  frames f owned := (k.frames f (h.owned owned)).trans (h.frames f owned)
  mem b owned := (k.mem b (h.owned owned)).trans (h.mem b owned)
  engs := k.engs.trans h.engs
  pool d f hf := h.pool d f (k.pool d f hf)

/-- Owner of a frame. -/
def ownerOf (s : State) (f : Nat) : Nat := (Sparse.get ⟨0, false⟩ f s.frames).owner

theorem unowned_iff {s : State} {f : Nat} : unowned s f = true ↔ ownerOf s f = 0 := by
  rw [unowned, beq_iff_eq]
  rfl

theorem owned_iff {s : State} {f : Nat} : unowned s f = false ↔ ownerOf s f ≠ 0 := by
  rw [← Bool.not_eq_true, unowned_iff]

theorem ownerOf_giveFrame (owner f : Nat) (intlv : Bool) (s : State) (k : Nat) :
    ownerOf (giveFrame owner f intlv s) k = if k = f then owner else ownerOf s k := by
  rw [ownerOf, giveFrame, get_set]
  split <;> rfl

theorem memByte_giveFrame (owner f : Nat) (intlv : Bool) (s : State) (b : Nat) :
    memByte (giveFrame owner f intlv s) b = if b / 65536 = f then 0 else memByte s b := by
  have inside : (65536 * f ≤ b ∧ b < 65536 * f + 65536) ↔ b / 65536 = f := by omega
  exact (memByte_zeroRange (65536 * f) 65536 s b).trans (if_congr inside rfl rfl)

/-- A frame that nobody owned is given. -/
theorem Spares.give {s t : State} (h : Spares s t) {f : Nat} (free : unowned s f = true) (owner : Nat) (intlv : Bool) :
    Spares s (giveFrame owner f intlv t) where
  frames k owned := by
    have other : k ≠ f := by
      rintro rfl
      rw [free] at owned
      cases owned
    refine Eq.trans ?_ (h.frames k owned)
    rw [giveFrame, get_set_ne _ other]
  mem b owned := by
    refine (memByte_giveFrame owner f intlv t b).trans ((if_neg ?_).trans (h.mem b owned))
    intro same
    rw [same, free] at owned
    cases owned
  engs := h.engs
  pool := h.pool

/-- A run of frames has gone to an owner. -/
structure Given (owner f n : Nat) (s t : State) : Prop where
  spares : Spares s t
  owned : ∀ j, j < n → ownerOf t (f + j) = owner

/-- The frames of the run were nobody's, and are zeroed. -/
structure Fresh (f n : Nat) (s t : State) : Prop where
  free : ∀ j, j < n → unowned s (f + j) = true
  zeroed : ∀ j, j < n → ∀ b, b / 65536 = f + j → memByte t b = 0
  there : f + n ≤ 2 ^ 23

/-- The pool names frames that exist. -/
def PoolStands (s : State) : Prop := ∀ d f, f ∈ Sparse.get [] d s.poolBack → f < 2 ^ 23

theorem Spares.poolStands {s t : State} (h : Spares s t) (p : PoolStands s) : PoolStands t := fun d f hf => p d f (h.pool d f hf)

theorem seekFrame_free {s : State} {die n k f : Nat} (h : seekFrame s die n k = some f) (four : die < 4) : unowned s f = true ∧ f < 2 ^ 23 := by
  induction n generalizing k with
  | zero => cases h
  | succ n ih =>
    rw [seekFrame] at h
    split at h
    · cases h
    · next low =>
      split at h
      · next free =>
        obtain rfl := Option.some.inj h
        refine ⟨free, ?_⟩
        rw [framesOfDie] at low ⊢
        omega
      · exact ih h

/-- A frame of the pool. -/
theorem given_takeFrame {owner die f : Nat} {intlv : Bool} {s t : State} (h : takeFrame owner die intlv s = some (f, t)) (four : die < 4)
    (pool : PoolStands s) : Given owner f 1 s t ∧ Fresh f 1 s t := by
  have gives : ∀ u : State, Spares s u → unowned s f = true → f < 2 ^ 23 →
      Given owner f 1 s (giveFrame owner f intlv u) ∧ Fresh f 1 s (giveFrame owner f intlv u) := by
    intro u spares free low
    refine ⟨⟨spares.give free owner intlv, fun j hj => ?_⟩, fun j hj => ?_, fun j hj b hb => ?_, low⟩
    · rw [ownerOf_giveFrame, if_pos (by omega)]
    · rw [show f + j = f by omega]
      exact free
    · rw [memByte_giveFrame, if_pos (by omega)]
  unfold takeFrame at h
  split at h
  · next g gs back =>
    cases h
    have mem : f ∈ (Sparse.get [] die s.poolBack).filter (unowned s) := by rw [back]; exact List.mem_cons_self
    obtain ⟨held, free⟩ := List.mem_filter.mp mem
    refine gives _ ⟨fun _ _ => rfl, fun _ _ => rfl, rfl, fun d k hk => ?_⟩ free (pool die f held)
    rw [get_set] at hk
    split at hk
    · next same =>
      rw [same]
      have : k ∈ (Sparse.get [] die s.poolBack).filter (unowned s) := by rw [back]; exact List.mem_cons_of_mem _ hk
      exact (List.mem_filter.mp this).1
    · exact hk
  · split at h
    · cases h
    · next found =>
      cases h
      obtain ⟨free, low⟩ := seekFrame_free found four
      exact gives _ ⟨fun _ _ => rfl, fun _ _ => rfl, rfl, fun _ _ hk => hk⟩ free low

theorem onAnyDie_some {α : Type} {g : Nat → Option α} {r : α} (h : onAnyDie g = some r) : ∃ d, d < 4 ∧ g d = some r := by
  obtain ⟨d, hd, found⟩ := List.exists_of_findSome?_eq_some h
  exact ⟨d, List.mem_range.mp hd, found⟩

/-- An entry that a table lists is one of its entries; an unlisted one is the default. -/
theorem get_listed {α : Type} (d : α) (k : Nat) (t : Sparse α) : (k, Sparse.get d k t) ∈ t ∨ Sparse.get d k t = d := by
  induction t with
  | nil => exact .inr rfl
  | cons e t ih =>
    rw [Sparse.get]
    split
    · next same =>
      rw [← same]
      exact .inl List.mem_cons_self
    · exact ih.imp_left (List.mem_cons_of_mem e)

/-- Frames of a range of which no owned one is listed are nobody's, but for those of owners that a condition admits. -/
theorem owner_of_none {s : State} {lo n : Nat} {p : Nat → Bool}
    (none_ : s.frames.filter (fun e => decide (lo ≤ e.1) && decide (e.1 < lo + n) && e.2.owner != 0 && p e.2.owner) = []) {j : Nat} (hj : j < n) :
    ownerOf s (lo + j) = 0 ∨ p (ownerOf s (lo + j)) = false := by
  rw [List.filter_eq_nil_iff] at none_
  rcases get_listed (⟨0, false⟩ : FrameInfo) (lo + j) s.frames with listed | unlisted
  · have := none_ _ listed
    simp only [Bool.and_eq_true, decide_eq_true_eq, bne_iff_ne, ne_eq] at this
    by_cases zero : ownerOf s (lo + j) = 0
    · exact .inl zero
    · exact .inr (Bool.eq_false_iff.mpr fun h => this ⟨⟨⟨by omega, by omega⟩, zero⟩, h⟩)
  · exact .inl (by rw [ownerOf, unlisted])

theorem seekRun_free {s : State} {die n fuel k f : Nat} (h : seekRun s die n fuel k = some f) (four : die < 4) (aligned : k % n = 0)
    (divides : framesOfDie % n = 0) : (∀ j, j < n → unowned s (f + j) = true) ∧ f + n ≤ 2 ^ 23 ∧ f % n = 0 := by
  induction fuel generalizing k with
  | zero => cases h
  | succ fuel ih =>
    rw [seekRun] at h
    split at h
    · cases h
    · next low =>
      split at h
      · next none_ =>
        obtain rfl := Option.some.inj h
        refine ⟨fun j hj => unowned_iff.mpr ?_, ?_, ?_⟩
        · rcases owner_of_none (p := fun _ => true) (by simpa only [Bool.and_true] using none_) hj with zero | off
          · exact zero
          · cases off
        · rw [framesOfDie] at low ⊢
          omega
        · rw [Nat.add_mod, Nat.mul_mod, divides, Nat.zero_mul, Nat.zero_mod, aligned]
          rfl
      · exact ih h (by rw [Nat.add_mod_right, aligned])

/-- An aligned run of frames of the pool. -/
theorem given_takeRun {owner die n f : Nat} {intlv : Bool} {s t : State} (h : takeRun owner die n intlv s = some (f, t)) (four : die < 4)
    (pool : PoolStands s) (divides : framesOfDie % n = 0) : Given owner f n s t ∧ Fresh f n s t ∧ f % n = 0 := by
  unfold takeRun at h
  split at h
  · next one =>
    subst one
    obtain ⟨given, fresh⟩ := given_takeFrame h four pool
    exact ⟨given, fresh, Nat.mod_one f⟩
  · obtain ⟨g, found, same⟩ := Option.map_eq_some_iff.mp h
    cases same
    obtain ⟨free, low, aligned⟩ := seekRun_free found four (Nat.zero_mod n) divides
    have run : ∀ k, k ≤ n → Given owner f k s ((List.range k).foldl (fun s k => giveFrame owner (f + k) intlv s) s) ∧
        ∀ j, j < k → ∀ b, b / 65536 = f + j → memByte ((List.range k).foldl (fun s k => giveFrame owner (f + k) intlv s) s) b = 0 := by
      intro k
      induction k with
      | zero => exact fun _ => ⟨⟨.rfl, nofun⟩, nofun⟩
      | succ k ih =>
        intro le
        obtain ⟨given, zeroed⟩ := ih (by omega)
        rw [List.range_succ, List.foldl_append, List.foldl_cons, List.foldl_nil]
        refine ⟨⟨given.spares.give (free k le) owner intlv, fun j hj => ?_⟩, fun j hj b hb => ?_⟩
        · rw [ownerOf_giveFrame]
          split
          · rfl
          · exact given.owned j (by omega)
        · rw [memByte_giveFrame]
          split
          · rfl
          · exact zeroed j (by omega) b hb
    obtain ⟨given, zeroed⟩ := run n (Nat.le_refl n)
    exact ⟨given, ⟨free, zeroed, low⟩, aligned⟩

/-- A run of frames that a request names. -/
theorem given_nameRun {owner n f : Nat} {intlv : Bool} {s t : State} (h : nameRun owner f n intlv s = some t) : Given owner f n s t := by
  unfold nameRun at h
  split at h
  · cases h
  · next none_ =>
    rw [not_not] at none_
    obtain rfl := Option.some.inj h
    have run : ∀ k, k ≤ n → Given owner f k s ((List.range k).foldl (fun s k =>
        if (Sparse.get ⟨0, false⟩ (f + k) s.frames).owner = owner then s else giveFrame owner (f + k) intlv s) s) := by
      intro k
      induction k with
      | zero => exact fun _ => ⟨.rfl, nofun⟩
      | succ k ih =>
        intro le
        have given := ih (by omega)
        rw [List.range_succ, List.foldl_append, List.foldl_cons, List.foldl_nil]
        generalize (List.range k).foldl _ s = u at given ⊢
        split
        · next held =>
          refine ⟨given.spares, fun j hj => ?_⟩
          by_cases last : j = k
          · rw [last]
            exact held
          · exact given.owned j (by omega)
        · next other =>
          have free : unowned s (f + k) = true := by
            by_contra owned
            have kept := given.spares.frames (f + k) (Bool.eq_false_iff.mpr owned)
            rw [kept] at other
            rcases owner_of_none (p := fun o => o != owner) none_ (j := k) le with zero | own
            · exact owned (unowned_iff.mpr zero)
            · exact other (by rw [ownerOf] at own; simpa using own)
          refine ⟨given.spares.give free owner intlv, fun j hj => ?_⟩
          rw [ownerOf_giveFrame]
          split
          · rfl
          · exact given.owned j (by omega)
    exact run n (Nat.le_refl n)

end Sys2Proof.Mappings

/-! ### Walks of tables that software has written (R217 to R219) -/

namespace Sys2Proof.Mappings

open Sys2Proof Sys2Proof.Machine Sys2Proof.Safety Sys2Proof.Laws Sys2Proof.HomeSlices

/-- Where the entry of an address lies in a table of a level. -/
def entryAt (t : Nat) (l : Level) (va : Nat) : Nat := t + 8 * (va / 2 ^ l.shift % 2 ^ l.bits)

theorem readPte_congr {s t : State} {a : Nat} (h : ∀ b, a ≤ b → b < a + 8 → memByte t b = memByte s b) (l k : Level) : readPte t l a = readPte s k a := by
  have bytes : memRead t a 8 = memRead s a 8 := List.map_congr_left fun j hj => h (a + j) (Nat.le_add_right a j) (Nat.add_lt_add_left (List.mem_range.mp hj) a)
  rw [readPte, bytes, readPte]

theorem readPte_zero {s : State} {a : Nat} (h : ∀ b, a ≤ b → b < a + 8 → memByte s b = 0) (l : Level) : readPte s l a = 0 := by
  have bytes : memRead s a 8 = (List.range 8).map fun _ => 0 :=
    List.map_congr_left fun j hj => h (a + j) (Nat.le_add_right a j) (Nat.add_lt_add_left (List.mem_range.mp hj) a)
  rw [readPte, bytes]
  decide

/-- An entry after it has been written. -/
theorem readPte_sliceWrite (a n t : Nat) (s : State) (l : Level) : readPte (sliceWrite a (leBytes 8 n) t s) l a = BitVec.ofNat 64 n := by
  have bytes : memRead (sliceWrite a (leBytes 8 n) t s) a 8 = leBytes 8 n := by
    refine List.ext_getElem (by simp [leBytes_length]) fun k h1 h2 => ?_
    simp only [memRead, List.getElem_map, List.getElem_range]
    rw [memByte_sliceWrite, if_pos ⟨Nat.le_add_right _ _, by omega⟩, Nat.add_sub_cancel_left]
    simp [nth, h2]
  rw [readPte, bytes, leNat_leBytes]
  apply BitVec.eq_of_toNat_eq
  simp only [BitVec.toNat_ofNat]
  omega

/-! #### The fields of an entry (R218) -/

section
variable {n : Nat} (lt : n < 2 ^ 64)

theorem pteBit_ofNat (n : Nat) {k : Nat} (h : k < 64) : pteBit (BitVec.ofNat 64 n) k = decide (n / 2 ^ k % 2 = 1) := by
  rw [pteBit, BitVec.getLsbD_ofNat, decide_eq_true h, Bool.true_and, Nat.testBit_eq_decide_div_mod_eq]

include lt

theorem pteAddr_ofNat : pteAddr (BitVec.ofNat 64 n) = n / 2 ^ 8 % 2 ^ 44 * 256 := by
  rw [pteAddr, bitsAt, BitVec.toNat_ofNat, Nat.mod_eq_of_lt lt]

theorem reserved_ofNat (zero : n / 2 ^ 56 % 2 ^ 4 = 0) : ((BitVec.ofNat 64 n).extractLsb' 56 4 != 0) = false := by
  have nil : (BitVec.ofNat 64 n).extractLsb' 56 4 = 0 := by
    apply BitVec.eq_of_toNat_eq
    rw [BitVec.extractLsb'_toNat, BitVec.toNat_ofNat, Nat.mod_eq_of_lt lt, Nat.shiftRight_eq_div_pow, zero]
    rfl
  rw [nil]
  rfl

end

/-! #### Steps of a walk -/

/-- From table `t` of the first of some levels, good pointers above level `lev`, at the addresses listed, lead a walk of an address on to
table `t'` of the first of the levels `ls'`. -/
inductive Reaches (s : State) (va lev : Nat) : List Level → Nat → List Nat → List Level → Nat → Prop
  | here (ls : List Level) (t : Nat) : Reaches s va lev ls t [] ls t
  | down {l : Level} {ls ls' : List Level} {t t' : Nat} {as : List Nat} (above : lev < l.lev) (there : entryAt t l va < 2 ^ 39)
    (valid : pteBit (readPte s l (entryAt t l va)) 0 = true) (sound : pteBad l (readPte s l (entryAt t l va)) = false)
    (pointer : pteBit (readPte s l (entryAt t l va)) 1 = false) (rest : Reaches s va lev ls (pteAddr (readPte s l (entryAt t l va))) as ls' t') :
    Reaches s va lev (l :: ls) t (entryAt t l va :: as) ls' t'

/-- A walk goes on through a good pointer. -/
theorem walkWith_pointer {s : State} {v t a : Nat} {l : Level} {ls : List Level} (index : entryAt t l v = a) (there : a < 2 ^ 39)
    (valid : pteBit (readPte s l a) 0 = true) (sound : pteBad l (readPte s l a) = false) (pointer : pteBit (readPte s l a) 1 = false)
    (p : Option DWord) : walkWith (readPte s) v (l :: ls) t p =
      walkWith (readPte s) v ls (pteAddr (readPte s l a)) (if l.lev = 1 && pteBit (readPte s l a) 6 then some (readPte s l a) else none) := by
  rw [entryAt] at index
  simp only [walkWith, index, if_neg (Nat.not_le.mpr there), valid, sound, pointer, Bool.not_true, Bool.false_eq_true, if_false]

/-- A walk ends at a good leaf. -/
theorem walkWith_leaf {s : State} {v t a : Nat} {l : Level} {ls : List Level} (index : entryAt t l v = a) (there : a < 2 ^ 39)
    (valid : pteBit (readPte s l a) 0 = true) (sound : pteBad l (readPte s l a) = false) (leaf : pteBit (readPte s l a) 1 = true)
    (p : Option DWord) : walkWith (readPte s) v (l :: ls) t p = .leaf (readPte s l a) a l.shift := by
  rw [entryAt] at index
  simp only [walkWith, index, if_neg (Nat.not_le.mpr there), valid, sound, leaf, Bool.not_true, Bool.false_eq_true, if_false, if_true]

/-- A walk of another address of the same part of the address space takes the same steps. -/
theorem Reaches.walk {s : State} {va lev v : Nat} {ls ls' : List Level} {t t' : Nat} {as : List Nat} (r : Reaches s va lev ls t as ls' t')
    (same : ∀ l ∈ ls, lev ≤ l.lev → v / 2 ^ l.shift = va / 2 ^ l.shift) (p : Option DWord) :
    ∃ p', walkWith (readPte s) v ls t p = walkWith (readPte s) v ls' t' p' := by
  induction r generalizing p with
  | here ls t => exact ⟨p, rfl⟩
  | @down l ls ls' t t' as above there valid sound pointer rest ih =>
    have index : entryAt t l v = entryAt t l va := by rw [entryAt, same l List.mem_cons_self (Nat.le_of_lt above), entryAt]
    rw [walkWith_pointer index there valid sound pointer]
    exact ih (fun k hk => same k (List.mem_cons_of_mem l hk)) _

/-- The steps stay while the entries that they read do. -/
theorem Reaches.congr {s u : State} {va lev : Nat} {ls ls' : List Level} {t t' : Nat} {as : List Nat} (r : Reaches s va lev ls t as ls' t')
    (same : ∀ a ∈ as, ∀ b, a ≤ b → b < a + 8 → memByte u b = memByte s b) : Reaches u va lev ls t as ls' t' := by
  induction r with
  | here ls t => exact .here ls t
  | @down l ls ls' t t' as above there valid sound pointer rest ih =>
    have entry : readPte u l (entryAt t l va) = readPte s l (entryAt t l va) := readPte_congr (same _ List.mem_cons_self) l l
    rw [← entry] at valid sound pointer ih
    exact .down above there valid sound pointer (ih fun a ha => same a (List.mem_cons_of_mem _ ha))

/-! #### The entries that a walk reads -/

/-- Levels of ever smaller parts of the address space, whose tables fit into a frame. -/
def Descends (ls : List Level) : Prop := ls.Pairwise (fun k l => l.lev < k.lev) ∧ ∀ l ∈ ls, l.bits ≤ 9

theorem descends_levels : Descends levels := by
  unfold Descends levels
  simp

theorem pteWay_pointer {s : State} {va t : Nat} {l : Level} {ls : List Level} (valid : pteBit (readPte s l (entryAt t l va)) 0 = true)
    (pointer : pteBit (readPte s l (entryAt t l va)) 1 = false) :
    pteWay s va (l :: ls) t = (l, entryAt t l va) :: pteWay s va ls (pteAddr (readPte s l (entryAt t l va))) := by
  rw [entryAt] at valid pointer
  rw [pteWay, entryAt, valid, pointer]
  rfl

theorem mem_pteWay (s : State) (va t : Nat) (l : Level) (ls : List Level) : (l, entryAt t l va) ∈ pteWay s va (l :: ls) t := List.mem_cons_self

/-- The entries of a way: apart, in memory that somebody owns, and none of them bad. -/
structure WayStands (s : State) (way : List (Level × Nat)) : Prop where
  apart : way.Pairwise (fun a b => a.2 + 8 ≤ b.2 ∨ b.2 + 8 ≤ a.2)
  there : ∀ a ∈ way, a.2 + 8 ≤ 2 ^ 39
  owned : ∀ a ∈ way, ∀ b, a.2 ≤ b → b < a.2 + 8 → unowned s (b / 65536) = false
  good : ∀ a ∈ way, pteBit (readPte s a.1 a.2) 0 = true → pteBad a.1 (readPte s a.1 a.2) = false

theorem wayStands_of_tables {s : State} {eid va : Nat} (h : TablesStand s eid va) : WayStands s (pteWay s va levels (engOf s eid).root) where
  apart := h.apart
  there a ha := (h.owned a ha).1
  owned a ha b lo hi := by
    obtain ⟨-, first, last⟩ := h.owned a ha
    rw [owned_iff]
    have or_ : b / 65536 = a.2 / 65536 ∨ b / 65536 = (a.2 + 7) / 65536 := by omega
    rcases or_ with same | same <;> rw [same]
    · exact first
    · exact last
  good := h.good

theorem WayStands.tail {s : State} {e : Level × Nat} {way : List (Level × Nat)} (h : WayStands s (e :: way)) : WayStands s way where
  apart := (List.pairwise_cons.mp h.apart).2
  there a ha := h.there a (List.mem_cons_of_mem e ha)
  owned a ha := h.owned a (List.mem_cons_of_mem e ha)
  good a ha := h.good a (List.mem_cons_of_mem e ha)

/-- In a table of zeros a walk reads one entry, which is invalid. -/
theorem wayStands_zero {s : State} {f va : Nat} {ls : List Level} (zero : ∀ b, b / 65536 = f → memByte s b = 0) (owned : unowned s f = false)
    (low : f < 2 ^ 23) (fits : Descends ls) : WayStands s (pteWay s va ls (65536 * f)) ∧
      ∀ a ∈ pteWay s va ls (65536 * f), 65536 * f ≤ a.2 ∧ a.2 + 8 ≤ 65536 * f + 65536 := by
  cases ls with
  | nil => exact ⟨⟨.nil, nofun, nofun, nofun⟩, nofun⟩
  | cons l ls =>
    have bits := fits.2 l List.mem_cons_self
    have index : va / 2 ^ l.shift % 2 ^ l.bits < 512 :=
      (Nat.mod_lt _ (Nat.two_pow_pos _)).trans_le (Nat.pow_le_pow_right (by decide) bits : 2 ^ l.bits ≤ 2 ^ 9)
    have entry : readPte s l (65536 * f + 8 * (va / 2 ^ l.shift % 2 ^ l.bits)) = 0 := readPte_zero (fun b lo hi => zero b (by omega)) l
    have way : pteWay s va (l :: ls) (65536 * f) = [(l, 65536 * f + 8 * (va / 2 ^ l.shift % 2 ^ l.bits))] := by
      rw [pteWay, entry]
      rfl
    generalize va / 2 ^ l.shift % 2 ^ l.bits = k at index entry way
    rw [way]
    refine ⟨⟨List.pairwise_singleton _ _, fun a ha => ?_, fun a ha b lo hi => ?_, fun a ha valid => ?_⟩, fun a ha => ?_⟩
    all_goals
      rw [List.mem_singleton] at ha
      subst ha
    · simp only
      omega
    · have : b / 65536 = f := by simp only at lo hi; omega
      rw [this]
      exact owned
    · rw [entry] at valid
      cases valid
    · simp only
      omega

end Sys2Proof.Mappings

/-! ### Tables that `Charon` builds on the way to an entry (R217, R421) -/

namespace Sys2Proof.Mappings

open Sys2Proof Sys2Proof.Machine Sys2Proof.Safety Sys2Proof.Laws Sys2Proof.HomeSlices

/-- From `s` to `t` owned frames stay, and memory in them but for the entries of a way. -/
structure Builds (way : List (Level × Nat)) (s t : State) : Prop where
  frames : ∀ f, unowned s f = false → Sparse.get ⟨0, false⟩ f t.frames = Sparse.get ⟨0, false⟩ f s.frames
  mem : ∀ b, unowned s (b / 65536) = false → (∀ w ∈ way, ¬(w.2 ≤ b ∧ b < w.2 + 8)) → memByte t b = memByte s b
  engs : t.engs = s.engs

/-- An entry is one of a way, or lies in a frame that nobody owned. -/
def liesAt (way : List (Level × Nat)) (s : State) (a : Nat) : Prop := (∃ l, (l, a) ∈ way) ∨ (unowned s (a / 65536) = true ∧ a % 65536 + 8 ≤ 65536)

/-- From `s` to `t` the tables on the way to the entry of a level have been built, and it lies at `a`. -/
structure Built (va lev : Nat) (ls : List Level) (t a : Nat) (s u : State) : Prop where
  builds : Builds (pteWay s va ls t) s u
  there : a + 8 ≤ 2 ^ 39
  lies : liesAt (pteWay s va ls t) s a
  reaches : ∃ as l rest t0, Reaches u va lev ls t as (l :: rest) t0 ∧ (l :: rest) <:+ ls ∧ l.lev = lev ∧ a = entryAt t0 l va ∧
    ∀ b ∈ as, b + 8 ≤ a ∨ a + 8 ≤ b

/-- Entries that do not meet: one lies in memory that somebody owns, the other in a frame that nobody does. -/
theorem apart_of_unowned {s : State} {a b : Nat} (owned : ∀ c, a ≤ c → c < a + 8 → unowned s (c / 65536) = false)
    (free : unowned s (b / 65536) = true) (within : b % 65536 + 8 ≤ 65536) : a + 8 ≤ b ∨ b + 8 ≤ a := by
  by_contra meet
  rw [not_or, Nat.not_le, Nat.not_le] at meet
  have other : ∀ c, a ≤ c → c < a + 8 → c / 65536 ≠ b / 65536 := fun c lo hi same => by
    have h := owned c lo hi
    rw [same, free] at h
    cases h
  by_cases below : a < b
  · exact other b (by omega) (by omega) rfl
  · exact other a (by omega) (by omega) (by omega)

theorem sliceWrite_frames (a t : Nat) (bs : List Byte) (s : State) : (sliceWrite a bs t s).frames = s.frames := by rw [onlySlices_sliceWrite]
theorem sliceWrite_engs (a t : Nat) (bs : List Byte) (s : State) : (sliceWrite a bs t s).engs = s.engs := by rw [onlySlices_sliceWrite]
theorem sliceWrite_poolBack (a t : Nat) (bs : List Byte) (s : State) : (sliceWrite a bs t s).poolBack = s.poolBack := by rw [onlySlices_sliceWrite]

theorem memByte_putPte (a n b : Nat) (s : State) : memByte (sliceWrite a (leBytes 8 n) 0 s) b =
    if a ≤ b ∧ b < a + 8 then nth 0 (leBytes 8 n) (b - a) else memByte s b := by
  rw [memByte_sliceWrite, leBytes_length]

/-- A pointer to a table of the pool. -/
theorem table_pointer {f : Nat} (low : f < 2 ^ 23) {l : Level} (above : l.lev ≠ 0) :
    let e := BitVec.ofNat 64 (65536 * f + 1)
    pteBit e 0 = true ∧ pteBit e 1 = false ∧ pteBad l e = false ∧ pteAddr e = 65536 * f := by
  intro e
  have lt : 65536 * f + 1 < 2 ^ 64 := by omega
  have bit : ∀ k, k < 64 → pteBit e k = decide ((65536 * f + 1) / 2 ^ k % 2 = 1) := fun k h => pteBit_ofNat _ h
  have addr : pteAddr e = 65536 * f := by rw [pteAddr_ofNat lt]; omega
  have b0 : pteBit e 0 = true := by rw [bit 0 (by decide)]; exact decide_eq_true (by omega)
  have b1 : pteBit e 1 = false := by rw [bit 1 (by decide)]; exact decide_eq_false (by omega)
  have b2 : pteBit e 2 = false := by rw [bit 2 (by decide)]; exact decide_eq_false (by omega)
  have b5 : pteBit e 5 = false := by rw [bit 5 (by decide)]; exact decide_eq_false (by omega)
  have b6 : pteBit e 6 = false := by rw [bit 6 (by decide)]; exact decide_eq_false (by omega)
  have b7 : pteBit e 7 = false := by rw [bit 7 (by decide)]; exact decide_eq_false (by omega)
  have reserved := reserved_ofNat lt (by omega)
  have base : pteAddr e % nextTable l.lev = 0 := by
    rw [addr, nextTable]
    split <;> omega
  refine ⟨b0, b1, ?_, addr⟩
  simp only [pteBad, e, reserved] at *
  simp [b1, b2, b5, b6, b7, base, above]

/-- The level of an entry lies below those that lead to it. -/
theorem Built.above {va lev t a : Nat} {l : Level} {ls : List Level} {s u : State} (fits : Descends (l :: ls)) (h : Built va lev ls t a s u) : lev < l.lev := by
  obtain ⟨as, k, rest, t0, -, suffix, level, -⟩ := h.reaches
  rw [← level]
  exact (List.pairwise_cons.mp fits.1).1 k (suffix.subset List.mem_cons_self)

/-- Tables built beyond a pointer that is there. -/
theorem built_pointer {va lev t a : Nat} {l : Level} {ls : List Level} {s u : State} (fits : Descends (l :: ls))
    (stands : WayStands s (pteWay s va (l :: ls) t)) (valid : pteBit (readPte s l (entryAt t l va)) 0 = true)
    (pointer : pteBit (readPte s l (entryAt t l va)) 1 = false) (h : Built va lev ls (pteAddr (readPte s l (entryAt t l va))) a s u) :
    Built va lev (l :: ls) t a s u := by
  have way := pteWay_pointer (ls := ls) valid pointer
  have first : ∀ w ∈ pteWay s va ls (pteAddr (readPte s l (entryAt t l va))), entryAt t l va + 8 ≤ w.2 ∨ w.2 + 8 ≤ entryAt t l va := by
    have apart := stands.apart
    rw [way] at apart
    exact (List.pairwise_cons.mp apart).1
  have here := mem_pteWay s va t l ls
  have owned := stands.owned _ here
  have entry : readPte u l (entryAt t l va) = readPte s l (entryAt t l va) := by
    refine readPte_congr (fun b lo hi => h.builds.mem b (owned b lo hi) fun w hw within => ?_) l l
    have := first w hw
    omega
  have apart : entryAt t l va + 8 ≤ a ∨ a + 8 ≤ entryAt t l va := by
    rcases h.lies with ⟨k, hk⟩ | ⟨free, within⟩
    · exact first _ hk
    · exact apart_of_unowned owned free within
  obtain ⟨as, k, rest, t0, reaches, suffix, level, at_, others⟩ := h.reaches
  refine ⟨⟨h.builds.frames, fun b hb off => h.builds.mem b hb fun w hw => off w ?_, h.builds.engs⟩, h.there, ?_,
    entryAt t l va :: as, k, rest, t0, ?_, suffix.trans (List.suffix_cons l ls), level, at_, ?_⟩
  · rw [way]
    exact List.mem_cons_of_mem _ hw
  · refine h.lies.imp_left fun ⟨k, hk⟩ => ⟨k, ?_⟩
    rw [way]
    exact List.mem_cons_of_mem _ hk
  · rw [← entry] at valid pointer
    have sound := stands.good _ here (by rw [← entry]; exact valid)
    rw [← entry] at sound
    exact .down (h.above fits) (by have := stands.there _ here; simp only at this; omega) valid sound pointer (by rw [entry]; exact reaches)
  · exact List.forall_mem_cons.mpr ⟨apart, others⟩

/-- Tables built beyond a pointer to a table of the pool. -/
theorem built_table {va lev t a f owner : Nat} {l : Level} {ls : List Level} {s s2 u : State} (fits : Descends (l :: ls))
    (stands : WayStands s (pteWay s va (l :: ls) t)) (given : Given owner f 1 s s2) (fresh : Fresh f 1 s s2)
    (h : Built va lev ls (65536 * f) a (sliceWrite (entryAt t l va) (leBytes 8 (65536 * f + 1)) 0 s2) u)
    (within : ∀ w ∈ pteWay (sliceWrite (entryAt t l va) (leBytes 8 (65536 * f + 1)) 0 s2) va ls (65536 * f), 65536 * f ≤ w.2 ∧ w.2 + 8 ≤ 65536 * f + 65536) :
    Built va lev (l :: ls) t a s u := by
  have free : unowned s f = true := fresh.free 0 Nat.one_pos
  have here := mem_pteWay s va t l ls
  have owned := stands.owned _ here
  have outside : ∀ b, unowned s (b / 65536) = false → b / 65536 ≠ f := fun b hb same => by
    rw [same, free] at hb
    cases hb
  have off : ∀ b, unowned s (b / 65536) = false → ∀ w ∈ pteWay (sliceWrite (entryAt t l va) (leBytes 8 (65536 * f + 1)) 0 s2) va ls (65536 * f),
      ¬(w.2 ≤ b ∧ b < w.2 + 8) := fun b hb w hw hit => by
    have := within w hw
    have := outside b hb
    omega
  have held : ∀ k, unowned s k = false → unowned (sliceWrite (entryAt t l va) (leBytes 8 (65536 * f + 1)) 0 s2) k = false := fun k hk => by
    rw [unowned, sliceWrite_frames]
    exact given.spares.owned hk
  have kept : ∀ b, unowned s (b / 65536) = false → memByte u b = memByte (sliceWrite (entryAt t l va) (leBytes 8 (65536 * f + 1)) 0 s2) b :=
    fun b hb => h.builds.mem b (held _ hb) (off b hb)
  have entry : readPte u l (entryAt t l va) = BitVec.ofNat 64 (65536 * f + 1) :=
    (readPte_congr (fun b lo hi => kept b (owned b lo hi)) l l).trans (readPte_sliceWrite _ _ _ _ _)
  obtain ⟨valid, pointer, sound, base⟩ := table_pointer (Nat.lt_of_succ_le fresh.there) (l := l) (by have := h.above fits; omega)
  have lies : unowned s (a / 65536) = true ∧ a % 65536 + 8 ≤ 65536 := by
    rcases h.lies with ⟨k, hk⟩ | ⟨free', within'⟩
    · obtain ⟨lo, hi⟩ := within _ hk
      simp only at lo hi
      refine ⟨?_, by omega⟩
      rw [show a / 65536 = f by omega]
      exact free
    · refine ⟨?_, within'⟩
      by_contra other
      rw [held _ (Bool.eq_false_iff.mpr other)] at free'
      cases free'
  obtain ⟨as, k, rest, t0, reaches, suffix, level, at_, others⟩ := h.reaches
  refine ⟨⟨fun k hk => ?_, fun b hb clear => ?_, ?_⟩, h.there, .inr lies,
    entryAt t l va :: as, k, rest, t0, ?_, suffix.trans (List.suffix_cons l ls), level, at_, ?_⟩
  · rw [h.builds.frames k (held k hk), sliceWrite_frames]
    exact given.spares.frames k hk
  · rw [kept b hb, memByte_putPte, if_neg (clear _ here)]
    exact given.spares.mem b hb
  · rw [h.builds.engs, sliceWrite_engs]
    exact given.spares.engs
  · rw [← entry] at valid pointer sound base
    exact .down (h.above fits) (by have := stands.there _ here; simp only at this; omega) valid sound pointer (by rw [base]; exact reaches)
  · exact List.forall_mem_cons.mpr ⟨apart_of_unowned owned lies.1 lies.2, others⟩

/-- Tables are built on the way to an entry where the tables stand. -/
theorem built_entryFor {eid va lev a : Nat} {ls : List Level} (fits : Descends ls) : ∀ {t : Nat} {s u : State}, PoolStands s →
    WayStands s (pteWay s va ls t) → entryFor eid va lev ls t s = .ok (a, u) → Built va lev ls t a s u := by
  induction ls with
  | nil => exact fun _ _ h => nomatch h
  | cons l ls ih =>
    intro t s u pool stands h
    have fits' : Descends ls := ⟨(List.pairwise_cons.mp fits.1).2, fun k hk => fits.2 k (List.mem_cons_of_mem l hk)⟩
    have here := mem_pteWay s va t l ls
    rw [entryFor, ← entryAt] at h
    dsimp only at h
    split at h
    · next level =>
      cases h
      exact ⟨⟨fun _ _ => rfl, fun _ _ _ => rfl, rfl⟩, stands.there _ here, .inl ⟨l, here⟩,
        [], l, ls, t, .here _ _, List.suffix_refl _, level, rfl, nofun⟩
    · next other =>
      have entry : BitVec.ofNat 64 (leNat (memRead s (entryAt t l va) 8)) = readPte s l (entryAt t l va) := rfl
      rw [entry] at h
      split at h
      · next valid =>
        split at h
        · cases h
        · next pointer =>
          rw [Bool.not_eq_true] at pointer
          have tail := stands
          rw [pteWay_pointer valid pointer] at tail
          exact built_pointer fits stands valid pointer (ih fits' pool tail.tail h)
      · next invalid =>
        split at h
        · cases h
        · next f s2 taken =>
          obtain ⟨d, four, frame⟩ := onAnyDie_some taken
          obtain ⟨given, fresh⟩ := given_takeFrame frame four pool
          have owner : ownerOf s2 f = tableOwner eid := given.owned 0 Nat.one_pos
          have free : unowned s f = true := fresh.free 0 Nat.one_pos
          have owned : unowned (sliceWrite (entryAt t l va) (leBytes 8 (65536 * f + 1)) 0 s2) f = false := by
            rw [unowned, sliceWrite_frames, ← unowned, owned_iff, owner, tableOwner]
            omega
          have zero : ∀ b, b / 65536 = f → memByte (sliceWrite (entryAt t l va) (leBytes 8 (65536 * f + 1)) 0 s2) b = 0 := by
            intro b hb
            rw [memByte_putPte, if_neg, fresh.zeroed 0 Nat.one_pos b hb]
            rintro ⟨lo, hi⟩
            have := stands.owned _ here b lo hi
            rw [hb, free] at this
            cases this
          obtain ⟨stands', within⟩ := wayStands_zero (va := va) zero owned (Nat.lt_of_succ_le fresh.there) fits'
          refine built_table fits stands given fresh (ih fits' ?_ stands' h) within
          intro d k hk
          rw [sliceWrite_poolBack] at hk
          exact given.spares.poolStands pool d k hk

end Sys2Proof.Mappings

/-! ### Entries that map pages, grow ranges and windows (R217 to R221, R421, R422) -/

namespace Sys2Proof.Mappings

open Sys2Proof Sys2Proof.Machine Sys2Proof.Safety Sys2Proof.Laws Sys2Proof.HomeSlices Sys2Proof.Requests

/-- From `s` to `u` an entry of a level has been written at `a`, where a walk of an address comes by. -/
structure Put (va lev root a n : Nat) (s u : State) : Prop where
  builds : Builds (pteWay s va levels root) s u
  there : a < 2 ^ 39
  entry : ∀ l, readPte u l a = BitVec.ofNat 64 n
  reaches : ∃ as l rest t0, Reaches u va lev levels root as (l :: rest) t0 ∧ (l :: rest) <:+ levels ∧ l.lev = lev ∧ a = entryAt t0 l va

theorem Built.put {va lev root a : Nat} {s u v : State} (h : Built va lev levels root a s u)
    (mem : v.mem = u.mem) (frames : v.frames = u.frames) (engs : v.engs = u.engs) (n : Nat) :
    Put va lev root a n s (sliceWrite a (leBytes 8 n) 0 v) := by
  have byte : ∀ b, memByte (sliceWrite a (leBytes 8 n) 0 v) b = if a ≤ b ∧ b < a + 8 then nth 0 (leBytes 8 n) (b - a) else memByte u b := fun b => by
    rw [memByte_putPte, memByte, mem, ← memByte]
  obtain ⟨as, l, rest, t0, reaches, suffix, level, at_, others⟩ := h.reaches
  refine ⟨⟨fun f hf => ?_, fun b hb off => ?_, ?_⟩, by have := h.there; omega, fun l => readPte_sliceWrite _ _ _ _ _,
    as, l, rest, t0, reaches.congr fun e he b lo hi => ?_, suffix, level, at_⟩
  · rw [sliceWrite_frames, frames]
    exact h.builds.frames f hf
  · rw [byte, if_neg, h.builds.mem b hb off]
    rintro ⟨lo, hi⟩
    rcases h.lies with ⟨k, hk⟩ | ⟨free, within⟩
    · exact off _ hk ⟨lo, hi⟩
    · rw [show b / 65536 = a / 65536 by omega, free] at hb
      cases hb
  · rw [sliceWrite_engs, engs]
    exact h.builds.engs
  · rw [byte, if_neg]
    have := others e he
    omega

/-- An entry is put where the tables stand. -/
theorem put_putEntry {eid lev n : Nat} {va : DWord} {s u : State} (pool : PoolStands s) (stands : WayStands s (pteWay s va.toNat levels (engOf s eid).root))
    (h : putEntry eid va lev n s = .ok u) : ∃ a, Put va.toNat lev (engOf s eid).root a n s u := by
  unfold putEntry at h
  split at h
  · cases h
  · next a t entry =>
    have built := built_entryFor descends_levels pool stands entry
    simp only at h
    split at h
    · cases h
    · cases h
      refine ⟨a, built.put ?_ ?_ ?_ n⟩
      all_goals split <;> rfl

/-! #### What a walk then finds -/

/-- Addresses that agree above a level's index. -/
theorem same_above {v va : Nat} {l : Level} (hl : l ∈ levels) (same : v / 2 ^ l.shift = va / 2 ^ l.shift) :
    ∀ k ∈ levels, l.lev ≤ k.lev → v / 2 ^ k.shift = va / 2 ^ k.shift := by
  intro k hk le
  have order : ∀ l ∈ levels, ∀ k ∈ levels, l.lev ≤ k.lev → l.shift ≤ k.shift := by decide
  obtain ⟨d, hd⟩ := Nat.exists_eq_add_of_le (order l hl k hk le)
  rw [hd, Nat.pow_add, ← Nat.div_div_eq_div_mul, ← Nat.div_div_eq_div_mul, same]

section
variable {eid va lev a n : Nat} {s u : State} (h : Put va lev (engOf s eid).root a n s u)
include h

theorem Put.root : (engOf u eid).root = (engOf s eid).root := by rw [engOf, h.builds.engs, engOf]

/-- A walk comes by the entry. -/
theorem Put.walk : ∃ l rest t0, (l :: rest) <:+ levels ∧ l.lev = lev ∧ ∀ v, v / 2 ^ l.shift = va / 2 ^ l.shift →
    entryAt t0 l v = a ∧ ∃ p, walkFrom u v levels (engOf u eid).root none = walkWith (readPte u) v (l :: rest) t0 p := by
  obtain ⟨as, l, rest, t0, reaches, suffix, level, at_⟩ := h.reaches
  refine ⟨l, rest, t0, suffix, level, fun v same => ⟨?_, ?_⟩⟩
  · rw [at_, entryAt, same, entryAt]
  · rw [h.root]
    exact reaches.walk (level ▸ same_above (suffix.subset List.mem_cons_self) same) none

/-- It finds the leaf that has been put there. -/
theorem Put.leaf (valid : pteBit (BitVec.ofNat 64 n) 0 = true) (leaf : pteBit (BitVec.ofNat 64 n) 1 = true)
    (sound : ∀ l ∈ levels, l.lev = lev → pteBad l (BitVec.ofNat 64 n) = false) :
    ∃ l ∈ levels, l.lev = lev ∧ ∀ v, v / 2 ^ l.shift = va / 2 ^ l.shift →
      walkFrom u v levels (engOf u eid).root none = .leaf (BitVec.ofNat 64 n) a l.shift := by
  obtain ⟨l, rest, t0, suffix, level, walk⟩ := h.walk
  have mem : l ∈ levels := suffix.subset List.mem_cons_self
  refine ⟨l, mem, level, fun v same => ?_⟩
  obtain ⟨index, p, walk⟩ := walk v same
  have entry := h.entry l
  rw [walk, walkWith_leaf index h.there (by rw [entry]; exact valid) (by rw [entry]; exact sound l mem level) (by rw [entry]; exact leaf), entry]

end

/-- A leaf of a page leads every address of the page there. -/
theorem leads_of_put {eid va lev a n size : Nat} {s u : State} (h : Put va lev (engOf s eid).root a n s u) (page : lev < 3)
    (sized : size = 65536 * pageFrames lev) (aligned : va % size = 0) (valid : pteBit (BitVec.ofNat 64 n) 0 = true) (leaf : pteBit (BitVec.ofNat 64 n) 1 = true)
    (sound : ∀ l ∈ levels, l.lev = lev → pteBad l (BitVec.ofNat 64 n) = false) : leadsTo u eid va size n a ([16, 21, 30].getD lev 0) := by
  obtain ⟨l, mem, level, walk⟩ := h.leaf valid leaf sound
  have shifts : ∀ l ∈ levels, l.lev < 3 → l.shift = [16, 21, 30].getD l.lev 0 ∧ 2 ^ l.shift = 65536 * pageFrames l.lev := by decide
  obtain ⟨shift, power⟩ := shifts l mem (by omega)
  rw [level] at shift power
  intro v lo hi
  rw [walk v, shift]
  rw [power, ← sized]
  obtain ⟨k, rfl⟩ := Nat.dvd_of_mod_eq_zero aligned
  have pos : 0 < size := by omega
  rw [Nat.mul_div_cancel_left _ pos]
  exact Nat.div_eq_of_lt_le (by rw [Nat.mul_comm]; exact lo) (by rw [Nat.succ_mul, Nat.mul_comm k]; exact hi)

/-! #### The entries that requests write (R218, R421, R422) -/

/-- The leaf of a page. -/
theorem leaf_good {attr f psz : Nat} (low : f < 2 ^ 23) (aligned : f % pageFrames psz = 0) (page : psz < 3) (xw : bitsAt attr 9 9 = 0 ∨ bitsAt attr 8 8 = 0) :
    let e := BitVec.ofNat 64 (leafBits attr + 65536 * f)
    pteBit e 0 = true ∧ pteBit e 1 = true ∧ ∀ l ∈ levels, l.lev = psz → pteBad l e = false := by
  intro e
  have powers : ∀ l ∈ levels, l.lev < 3 → 2 ^ l.shift = 65536 * pageFrames l.lev := by decide
  have r_lt := bitsAt_lt attr 7 7
  have w_lt := bitsAt_lt attr 8 8
  have x_lt := bitsAt_lt attr 9 9
  have i_lt := bitsAt_lt attr 10 10
  have c_lt := bitsAt_lt attr 15 12
  obtain ⟨n, hn⟩ : ∃ n, n = leafBits attr + 65536 * f := ⟨_, rfl⟩
  have value : n = 3 + 8 * bitsAt attr 7 7 + 16 * bitsAt attr 8 8 + 32 * bitsAt attr 9 9 + 2 ^ 52 * bitsAt attr 10 10 + 2 ^ 60 * bitsAt attr 15 12 + 65536 * f := hn
  have here : e = BitVec.ofNat 64 n := by rw [hn]
  generalize bitsAt attr 7 7 = r at *
  generalize bitsAt attr 8 8 = w at *
  generalize bitsAt attr 9 9 = x at *
  generalize bitsAt attr 10 10 = i at *
  generalize bitsAt attr 15 12 = c at *
  have lt : n < 2 ^ 64 := by omega
  have bit : ∀ k, k < 64 → pteBit e k = decide (n / 2 ^ k % 2 = 1) := fun k h => here ▸ pteBit_ofNat n h
  have addr : pteAddr e = 65536 * f := by rw [here, pteAddr_ofNat lt]; omega
  have b0 : pteBit e 0 = true := by rw [bit 0 (by decide)]; exact decide_eq_true (by omega)
  have b1 : pteBit e 1 = true := by rw [bit 1 (by decide)]; exact decide_eq_true (by omega)
  have b2 : pteBit e 2 = false := by rw [bit 2 (by decide)]; exact decide_eq_false (by omega)
  have b6 : pteBit e 6 = false := by rw [bit 6 (by decide)]; exact decide_eq_false (by omega)
  have b7 : pteBit e 7 = false := by rw [bit 7 (by decide)]; exact decide_eq_false (by omega)
  have b55 : pteBit e 55 = false := by rw [bit 55 (by decide)]; exact decide_eq_false (by omega)
  have bxw : (pteBit e 5 && pteBit e 4) = false := by
    rw [bit 5 (by decide), bit 4 (by decide), Bool.and_eq_false_iff]
    exact xw.imp (fun _ => decide_eq_false (by omega)) fun _ => decide_eq_false (by omega)
  have reserved : (e.extractLsb' 56 4 != 0) = false := here ▸ reserved_ofNat lt (by omega)
  refine ⟨b0, b1, fun l mem level => ?_⟩
  have base : pteAddr e % 2 ^ l.shift = 0 := by
    rw [addr, powers l mem (by omega), level, Nat.mul_mod_mul_left, aligned]
  have small : ¬ 3 ≤ l.lev := by omega
  rw [pteBad, reserved, b1, b2, b6, b7, b55, bxw]
  simp [base, small]

/-- The pointer of a grow range. -/
theorem grow_good {attr f : Nat} (low : f < 2 ^ 23) :
    let e := BitVec.ofNat 64 (1 + 64 + 2 ^ 52 * bitsAt attr 10 10 + 2 ^ 60 * bitsAt attr 15 12 + 65536 * f)
    pteBit e 0 = true ∧ pteBit e 1 = false ∧ pteBit e 6 = true ∧ pteAddr e = 65536 * f ∧ ∀ l : Level, l.lev = 1 → pteBad l e = false := by
  intro e
  have i_lt := bitsAt_lt attr 10 10
  have c_lt := bitsAt_lt attr 15 12
  obtain ⟨n, hn⟩ : ∃ n, n = 1 + 64 + 2 ^ 52 * bitsAt attr 10 10 + 2 ^ 60 * bitsAt attr 15 12 + 65536 * f := ⟨_, rfl⟩
  have here : e = BitVec.ofNat 64 n := by rw [hn]
  generalize bitsAt attr 10 10 = i at *
  generalize bitsAt attr 15 12 = c at *
  have lt : n < 2 ^ 64 := by omega
  have bit : ∀ k, k < 64 → pteBit e k = decide (n / 2 ^ k % 2 = 1) := fun k h => here ▸ pteBit_ofNat n h
  have addr : pteAddr e = 65536 * f := by rw [here, pteAddr_ofNat lt]; omega
  have b0 : pteBit e 0 = true := by rw [bit 0 (by decide)]; exact decide_eq_true (by omega)
  have b1 : pteBit e 1 = false := by rw [bit 1 (by decide)]; exact decide_eq_false (by omega)
  have b2 : pteBit e 2 = false := by rw [bit 2 (by decide)]; exact decide_eq_false (by omega)
  have b5 : pteBit e 5 = false := by rw [bit 5 (by decide)]; exact decide_eq_false (by omega)
  have b6 : pteBit e 6 = true := by rw [bit 6 (by decide)]; exact decide_eq_true (by omega)
  have b7 : pteBit e 7 = false := by rw [bit 7 (by decide)]; exact decide_eq_false (by omega)
  have reserved : (e.extractLsb' 56 4 != 0) = false := here ▸ reserved_ofNat lt (by omega)
  refine ⟨b0, b1, b6, addr, fun l level => ?_⟩
  have base : pteAddr e % nextTable l.lev = 0 := by
    rw [addr, nextTable]
    split <;> omega
  rw [level] at base
  rw [pteBad, reserved, b1, b2, b5, b6, b7, level]
  simp [base]

/-- The leaf of a peer's window. -/
theorem window_good {conn win k : Nat} (hc : conn < 256) (hw : win < 256) (hk : k < 2 ^ 20) :
    let e := BitVec.ofNat 64 (3 + 8 + 16 + 2 ^ 55 + 2 ^ 44 * conn + 2 ^ 36 * win + 65536 * k)
    pteBit e 0 = true ∧ pteBit e 1 = true ∧ ∀ l : Level, l.lev = 0 → pteBad l e = false := by
  intro e
  obtain ⟨n, hn⟩ : ∃ n, n = 3 + 8 + 16 + 2 ^ 55 + 2 ^ 44 * conn + 2 ^ 36 * win + 65536 * k := ⟨_, rfl⟩
  have here : e = BitVec.ofNat 64 n := by rw [hn]
  have lt : n < 2 ^ 64 := by omega
  have bit : ∀ k, k < 64 → pteBit e k = decide (n / 2 ^ k % 2 = 1) := fun k h => here ▸ pteBit_ofNat n h
  have b0 : pteBit e 0 = true := by rw [bit 0 (by decide)]; exact decide_eq_true (by omega)
  have b1 : pteBit e 1 = true := by rw [bit 1 (by decide)]; exact decide_eq_true (by omega)
  have b2 : pteBit e 2 = false := by rw [bit 2 (by decide)]; exact decide_eq_false (by omega)
  have b5 : pteBit e 5 = false := by rw [bit 5 (by decide)]; exact decide_eq_false (by omega)
  have b6 : pteBit e 6 = false := by rw [bit 6 (by decide)]; exact decide_eq_false (by omega)
  have b7 : pteBit e 7 = false := by rw [bit 7 (by decide)]; exact decide_eq_false (by omega)
  have b55 : pteBit e 55 = true := by rw [bit 55 (by decide)]; exact decide_eq_true (by omega)
  have reserved : (e.extractLsb' 56 4 != 0) = false := here ▸ reserved_ofNat lt (by omega)
  have plain : (e.extractLsb' 8 8 != 0) = false := by
    have nil : e.extractLsb' 8 8 = 0 := by
      apply BitVec.eq_of_toNat_eq
      rw [here, BitVec.extractLsb'_toNat, BitVec.toNat_ofNat, Nat.mod_eq_of_lt lt, Nat.shiftRight_eq_div_pow, show (0 : BitVec 8).toNat = 0 from rfl]
      omega
    rw [nil]
    rfl
  refine ⟨b0, b1, fun l level => ?_⟩
  rw [pteBad, reserved, b1, b2, b5, b6, b7, b55, plain, level]
  rfl

end Sys2Proof.Mappings

/-! ### Requests for pages, grow ranges and windows (R421, R422), and O57 -/

namespace Sys2Proof.Mappings

open Sys2Proof Sys2Proof.Machine Sys2Proof.Safety Sys2Proof.Laws Sys2Proof.HomeSlices Sys2Proof.Requests

/-! #### Tables beside frames that are given -/

theorem readPte_spares {s t : State} (h : Spares s t) {a : Nat} (owned : ∀ b, a ≤ b → b < a + 8 → unowned s (b / 65536) = false) (l : Level) :
    readPte t l a = readPte s l a := readPte_congr (fun b lo hi => h.mem b (owned b lo hi)) l l

/-- A walk that reads owned memory reads the same entries after frames of the pool have been given. -/
theorem pteWay_spares {s t : State} (h : Spares s t) {va : Nat} : ∀ (ls : List Level) (root : Nat),
    (∀ a ∈ pteWay s va ls root, ∀ b, a.2 ≤ b → b < a.2 + 8 → unowned s (b / 65536) = false) → pteWay t va ls root = pteWay s va ls root := by
  intro ls
  induction ls with
  | nil => exact fun _ _ => rfl
  | cons l ls ih =>
    intro root owned
    have entry := readPte_spares h (owned _ (mem_pteWay s va root l ls)) l
    rw [entryAt] at entry
    rw [pteWay] at owned
    rw [pteWay, pteWay, entry]
    split at owned
    · next pointer =>
      rw [if_pos pointer, if_pos pointer, ih _ fun a ha => owned a (List.mem_cons_of_mem _ ha)]
    · next other => rw [if_neg other, if_neg other]

theorem wayStands_spares {s t : State} (h : Spares s t) {way : List (Level × Nat)} (stands : WayStands s way) : WayStands t way where
  apart := stands.apart
  there := stands.there
  owned a ha b lo hi := h.owned (stands.owned a ha b lo hi)
  good a ha := by
    rw [readPte_spares h (stands.owned a ha)]
    exact stands.good a ha

/-- An entry is put where the tables stand, after frames of the pool have been given: these keep their owner, and what they hold when
nobody owned them. -/
theorem put_beside {eid lev n : Nat} {va : DWord} {s t u : State} (tables : TablesStand s eid va.toNat) (h : Spares s t)
    (put : putEntry eid va lev n t = .ok u) : (∃ a, Put va.toNat lev (engOf t eid).root a n t u) ∧
      (∀ f, unowned t f = false → ownerOf u f = ownerOf t f) ∧
      ∀ b, unowned s (b / 65536) = true → unowned t (b / 65536) = false → memByte u b = memByte t b := by
  have stands := wayStands_of_tables tables
  have way : pteWay t va.toNat levels (engOf t eid).root = pteWay s va.toNat levels (engOf s eid).root := by
    rw [engOf, h.engs, ← engOf]
    exact pteWay_spares h levels _ stands.owned
  have pool : PoolStands t := h.poolStands tables.pool
  obtain ⟨a, done⟩ := put_putEntry pool (way ▸ wayStands_spares h stands) put
  refine ⟨⟨a, done⟩, fun f owned => ?_, fun b free owned => done.builds.mem b owned fun w hw within => ?_⟩
  · rw [ownerOf, done.builds.frames f owned, ownerOf]
  · rw [way] at hw
    have := stands.owned w hw b within.1 within.2
    rw [free] at this
    cases this

/-! #### Pages (R421) -/

/-- The frame of a page that is mapped, from the pool or named. -/
def pageFrom (eid die psz attr : Nat) (frame : Option Nat) (s : State) : Except (Nat × Nat) (Nat × State) :=
  match frame with
  | none => match (if decide (bitsAt attr 10 10 = 1) then onAnyDie (fun d => takeRun (eid + 1) d (pageFrames psz) true s)
      else takeRun (eid + 1) die (pageFrames psz) false s) with
    | none => .error (3, 0)
    | some r => .ok r
  | some f => match nameRun (eid + 1) f (pageFrames psz) (decide (bitsAt attr 10 10 = 1)) s with
    | none => .error (2, 0x0A)
    | some s => .ok (f, s)

/-- Pages are mapped one after another. -/
theorem mapRun_succ (eid die psz attr n : Nat) (va : DWord) (frame : Option Nat) (s s2 : State) :
    mapRun eid die psz attr (n + 1) va frame s = .ok s2 ↔ ∃ f t u, pageFrom eid die psz attr frame s = .ok (f, t) ∧
      putEntry eid va psz (leafBits attr + 65536 * f) t = .ok u ∧
      mapRun eid die psz attr n (va + BitVec.ofNat 64 (65536 * pageFrames psz)) (frame.map (· + pageFrames psz)) u = .ok s2 := by
  have eq : mapRun eid die psz attr (n + 1) va frame s = match pageFrom eid die psz attr frame s with
    | .error e => .error e
    | .ok (f, s) =>
      match putEntry eid va psz (leafBits attr + 65536 * f) s with
      | .error n => .error (n, 0)
      | .ok s => mapRun eid die psz attr n (va + BitVec.ofNat 64 (65536 * pageFrames psz)) (frame.map (· + pageFrames psz)) s := by
    cases frame <;> rfl
  rw [eq]
  cases got : pageFrom eid die psz attr frame s with
  | error e => simp
  | ok r =>
    obtain ⟨f, t⟩ := r
    cases put : putEntry eid va psz (leafBits attr + 65536 * f) t with
    | error e => simp [put]
    | ok u => simp [put]

theorem mapRun_zero (eid die psz attr : Nat) (va : DWord) (frame : Option Nat) (s : State) : mapRun eid die psz attr 0 va frame s = .ok s := rfl

theorem mapRun_one (eid die psz attr : Nat) (va : DWord) (frame : Option Nat) (s s1 : State) :
    mapRun eid die psz attr 1 va frame s = .ok s1 ↔ ∃ f t, pageFrom eid die psz attr frame s = .ok (f, t) ∧
      putEntry eid va psz (leafBits attr + 65536 * f) t = .ok s1 := by
  rw [mapRun_succ]
  simp only [mapRun_zero, Except.ok.injEq]
  constructor
  · rintro ⟨f, t, u, got, put, rfl⟩
    exact ⟨f, t, got, put⟩
  · rintro ⟨f, t, got, put⟩
    exact ⟨f, t, s1, got, put, rfl⟩

/-- Mapping `n` + 1 pages is mapping one and then the others. -/
theorem mapRun_split (s s2 : State) (eid die psz attr n : Nat) (va : DWord) (frame : Option Nat) :
    mapRun eid die psz attr (n + 1) va frame s = .ok s2 ↔ ∃ s1, mapRun eid die psz attr 1 va frame s = .ok s1 ∧
      mapRun eid die psz attr n (va + BitVec.ofNat 64 (65536 * pageFrames psz)) (frame.map (· + pageFrames psz)) s1 = .ok s2 := by
  simp only [mapRun_succ eid die psz attr n, mapRun_one]
  constructor
  · rintro ⟨f, t, u, got, put, rest⟩
    exact ⟨u, ⟨f, t, got, put⟩, rest⟩
  · rintro ⟨u, ⟨f, t, got, put⟩, rest⟩
    exact ⟨f, t, u, got, put, rest⟩

/-- The frames of a page go to its engagement; those of the pool are zeroed. -/
theorem given_pageFrom {eid die psz attr f : Nat} {frame : Option Nat} {s t : State} (four : die < 4) (page : psz < 3) (pool : PoolStands s)
    (named : ∀ f, frame = some f → f % pageFrames psz = 0 ∧ f + pageFrames psz ≤ 2 ^ 23) (h : pageFrom eid die psz attr frame s = .ok (f, t)) :
    Given (eid + 1) f (pageFrames psz) s t ∧ f % pageFrames psz = 0 ∧ f + pageFrames psz ≤ 2 ^ 23 ∧ (∀ g, frame = some g → f = g) ∧
      (frame = none → Fresh f (pageFrames psz) s t) := by
  have divides : ∀ psz, psz < 3 → framesOfDie % pageFrames psz = 0 := by decide
  cases frame with
  | none =>
    have run : ∃ d intlv, d < 4 ∧ takeRun (eid + 1) d (pageFrames psz) intlv s = some (f, t) := by
      unfold pageFrom at h
      dsimp only at h
      split at h
      · cases h
      · next r got =>
        cases h
        split at got
        · obtain ⟨d, hd, found⟩ := onAnyDie_some got
          exact ⟨d, true, hd, found⟩
        · exact ⟨die, false, four, got⟩
    obtain ⟨d, intlv, hd, run⟩ := run
    obtain ⟨given, fresh, aligned⟩ := given_takeRun run hd pool (divides psz page)
    exact ⟨given, aligned, fresh.there, nofun, fun _ => fresh⟩
  | some g =>
    unfold pageFrom at h
    dsimp only at h
    split at h
    · cases h
    · next u got =>
      cases h
      obtain ⟨aligned, low⟩ := named f rfl
      exact ⟨given_nameRun got, aligned, low, fun _ same => Option.some.inj same, nofun⟩

/-- A page that has been mapped. -/
theorem mapRun_leads (s s1 : State) (eid die psz attr : Nat) (va : DWord) (frame : Option Nat) (four : die < 4) (page : psz < 3)
    (xw : bitsAt attr 9 9 = 0 ∨ bitsAt attr 8 8 = 0) (tables : TablesStand s eid va.toNat)
    (aligned : va.toNat % (65536 * pageFrames psz) = 0) (named : ∀ f, frame = some f → f % pageFrames psz = 0 ∧ f + pageFrames psz ≤ 2 ^ 23)
    (h : mapRun eid die psz attr 1 va frame s = .ok s1) : ∃ f a, (∀ g, frame = some g → f = g) ∧
      (∀ j, j < pageFrames psz → (frameOf s1 (65536 * (f + j))).owner = eid + 1) ∧
      (frame = none → ∀ b, 65536 * f ≤ b → b < 65536 * f + 65536 * pageFrames psz → memByte s1 b = 0) ∧
      leadsTo s1 eid va.toNat (65536 * pageFrames psz) (3 + 8 * bitsAt attr 7 7 + 16 * bitsAt attr 8 8 + 32 * bitsAt attr 9 9 + 65536 * f +
        2 ^ 52 * bitsAt attr 10 10 + 2 ^ 60 * bitsAt attr 15 12) a ([16, 21, 30].getD psz 0) := by
  obtain ⟨f, t, got, put⟩ := (mapRun_one _ _ _ _ _ _ _ _).mp h
  obtain ⟨given, run, low, same, fresh⟩ := given_pageFrom four page tables.pool named got
  obtain ⟨⟨a, done⟩, owners, bytes⟩ := put_beside tables given.spares put
  have owned : ∀ j, j < pageFrames psz → unowned t (f + j) = false := fun j hj => by
    rw [owned_iff, given.owned j hj]
    exact Nat.succ_ne_zero eid
  have pos : 0 < pageFrames psz := by unfold pageFrames; split <;> [decide; split <;> decide]
  obtain ⟨valid, leaf, sound⟩ := leaf_good (attr := attr) (by omega) run page xw
  refine ⟨f, a, same, fun j hj => ?_, fun pooled b lo hi => ?_, ?_⟩
  · rw [frameOf, Nat.mul_div_cancel_left _ (by decide)]
    exact (owners _ (owned j hj)).trans (given.owned j hj)
  · obtain ⟨j, hj, frame⟩ : ∃ j, j < pageFrames psz ∧ b / 65536 = f + j := ⟨b / 65536 - f, by omega, by omega⟩
    have zeroed := (fresh pooled).zeroed j hj b frame
    rw [bytes b (by rw [frame]; exact (fresh pooled).free j hj) (by rw [frame]; exact owned j hj), zeroed]
  · have value : leafBits attr + 65536 * f = 3 + 8 * bitsAt attr 7 7 + 16 * bitsAt attr 8 8 + 32 * bitsAt attr 9 9 + 65536 * f +
        2 ^ 52 * bitsAt attr 10 10 + 2 ^ 60 * bitsAt attr 15 12 := by unfold leafBits; omega
    rw [← value]
    exact leads_of_put done page rfl aligned valid leaf sound

/-! #### Grow ranges and windows (R220, R422) -/

/-- The levels from level 1 on. -/
theorem suffix_level1 {l : Level} {rest : List Level} (h : (l :: rest) <:+ levels) (level : l.lev = 1) : l.shift = 21 ∧ rest = [⟨0, 16, 5⟩] := by
  simp only [levels, List.suffix_cons_iff, List.suffix_nil, List.cons.injEq, reduceCtorEq, or_false] at h
  rcases h with ⟨rfl, rfl⟩ | ⟨rfl, rfl⟩ | ⟨rfl, rfl⟩ | ⟨rfl, rfl⟩ | ⟨rfl, rfl⟩
  · cases level
  · cases level
  · cases level
  · exact ⟨rfl, rfl⟩
  · cases level

/-- A walk finds no entry in the zeroed table of a grow range. -/
theorem walk_grow {s : State} {f : Nat} (zero : ∀ b, b / 65536 = f → memByte s b = 0) (low : f < 2 ^ 23) (v : Nat) (e : DWord) :
    walkWith (readPte s) v [⟨0, 16, 5⟩] (65536 * f) (some e) = .grow e (65536 * f + 8 * (v / 65536 % 32)) := by
  have index : v / 2 ^ 16 % 2 ^ 5 = v / 65536 % 32 := rfl
  have small : v / 65536 % 32 < 32 := Nat.mod_lt _ (by decide)
  have entry : readPte s ⟨0, 16, 5⟩ (65536 * f + 8 * (v / 65536 % 32)) = 0 := readPte_zero (fun b lo hi => zero b (by omega)) _
  have there : ¬ 2 ^ 39 ≤ 65536 * f + 8 * (v / 65536 % 32) := by omega
  simp only [walkWith, index, there, if_false, entry]
  rfl

/-- A grow range that has been mapped. -/
theorem mapGrow_leads (s s1 : State) (eid attr : Nat) (va : DWord) (tables : TablesStand s eid va.toNat) (aligned : va.toNat % 2 ^ 21 = 0)
    (h : mapGrow eid attr 1 va s = .ok s1) : ∃ f, ∀ v, va.toNat ≤ v → v < va.toNat + 2 ^ 21 → walkFrom s1 v levels (engOf s1 eid).root none =
      .grow (BitVec.ofNat 64 (65 + 65536 * f + 2 ^ 52 * bitsAt attr 10 10 + 2 ^ 60 * bitsAt attr 15 12)) (65536 * f + 8 * (v / 65536 % 32)) := by
  unfold mapGrow at h
  split at h
  · cases h
  · next f t taken =>
    split at h
    · cases h
    · next u put =>
      cases h
      obtain ⟨d, four, frame⟩ := onAnyDie_some taken
      obtain ⟨given, fresh⟩ := given_takeFrame frame four tables.pool
      have low : f < 2 ^ 23 := Nat.lt_of_succ_le fresh.there
      obtain ⟨⟨a, done⟩, -, bytes⟩ := put_beside tables given.spares put
      obtain ⟨valid, pointer, grow, base, sound⟩ := grow_good (attr := attr) low
      have zero : ∀ b, b / 65536 = f → memByte s1 b = 0 := fun b hb => by
        have free : unowned s f = true := fresh.free 0 Nat.one_pos
        have owner : ownerOf t f = tableOwner eid := given.owned 0 Nat.one_pos
        rw [bytes b (by rw [hb]; exact free) (by rw [hb, owned_iff, owner, tableOwner]; omega)]
        exact fresh.zeroed 0 Nat.one_pos b hb
      obtain ⟨l, rest, t0, suffix, level, walk⟩ := done.walk
      obtain ⟨shift, rfl⟩ := suffix_level1 suffix level
      refine ⟨f, fun v lo hi => ?_⟩
      obtain ⟨index, p, walk⟩ := walk v (by rw [shift]; omega)
      have entry := done.entry l
      rw [walk, walkWith_pointer index done.there (by rw [entry]; exact valid) (by rw [entry]; exact sound l level) (by rw [entry]; exact pointer), entry, base,
        level, grow]
      exact (walk_grow zero low v _).trans (congrArg (fun n => Walked.grow (BitVec.ofNat 64 n) _) (by omega))

/-- A page of a peer's window that has been mapped. -/
theorem mapWindow_leads (s s1 : State) (eid conn win k : Nat) (va : DWord) (tables : TablesStand s eid va.toNat) (aligned : va.toNat % 65536 = 0)
    (hc : conn < 256) (hw : win < 256) (hk : k < 2 ^ 20) (h : mapWindow eid conn win 1 k va s = .ok s1) :
    ∃ a, leadsTo s1 eid va.toNat 65536 (27 + 65536 * k + 2 ^ 36 * win + 2 ^ 44 * conn + 2 ^ 55) a 16 := by
  unfold mapWindow at h
  split at h
  · cases h
  · next u put =>
    cases h
    obtain ⟨⟨a, done⟩, -, -⟩ := put_beside tables .rfl put
    obtain ⟨valid, leaf, sound⟩ := window_good hc hw hk
    have value : 3 + 8 + 16 + 2 ^ 55 + 2 ^ 44 * conn + 2 ^ 36 * win + 65536 * k = 27 + 65536 * k + 2 ^ 36 * win + 2 ^ 44 * conn + 2 ^ 55 := by omega
    rw [← value]
    exact ⟨a, leads_of_put done (by decide) rfl aligned valid leaf fun l _ => sound l⟩

/-! #### Requests -/

section
variable {m : Msg} {s : State} {eid : Nat}

/-- A well-formed request that names a live engagement goes on to what it asks. -/
theorem ctrlEng_of_sysReq {code : Nat} (req : sysReq s m code) (live : onLive s m eid) {ok : Bool} (hok : ok = true) (k : Nat → Result) :
    ctrlEng m code ok k s = k eid := by
  obtain ⟨named, state⟩ := live
  rw [ctrlEng, ctrl_of_sysReq req hok, named, state]
  rfl

theorem execMapPages_pages (req : sysReq s m 0x03) (live : onLive s m eid) (ok : mapOk m = true)
    (clear : rangeMapped s eid m.addr.toNat (pay m 8 4 * 65536 * pageFrames (bitsAt (pay m 12 4) 1 0)) = false)
    (plain : bitsAt (pay m 12 4) 11 11 = 0) {s1 : State} (run : mapRun eid (argBits m 17 16) (bitsAt (pay m 12 4) 1 0) (pay m 12 4) (pay m 8 4) m.addr
      (if pay m 0 8 = poolFrame then none else some (pay m 0 8 / 65536)) s = .ok s1) : execMapPages m s = .next (reply m 0 [] s1) := by
  rw [execMapPages, ctrlEng_of_sysReq req live ok]
  simp only [clear, plain, run, Bool.false_eq_true, if_false, zero_ne_one]

theorem execMapPages_grow (req : sysReq s m 0x03) (live : onLive s m eid) (ok : mapOk m = true)
    (clear : rangeMapped s eid m.addr.toNat (pay m 8 4 * 65536 * pageFrames (bitsAt (pay m 12 4) 1 0)) = false)
    (grow : bitsAt (pay m 12 4) 11 11 = 1) {s1 : State} (run : mapGrow eid (pay m 12 4) (pay m 8 4) m.addr s = .ok s1) :
    execMapPages m s = .next (reply m 0 [] s1) := by
  rw [execMapPages, ctrlEng_of_sysReq req live ok]
  simp only [clear, grow, run, Bool.false_eq_true, if_false, if_true]

/-- Entries that have been written with zeros. -/
theorem zeroed_entries (ls : List (Nat × Nat × Nat)) (s : State) :
    let t := ls.foldl (fun s l => sliceWrite l.1 (leBytes 8 0) 0 s) s
    (∀ b, memByte s b = 0 → memByte t b = 0) ∧ ∀ l ∈ ls, memByte t l.1 = 0 := by
  have zeros : ∀ k, nth 0 (leBytes 8 0) k = 0 := fun k => by
    by_cases h : k < 8
    · exact (by decide : ∀ k, k < 8 → nth 0 (leBytes 8 0) k = 0) k h
    · rw [nth, List.getElem?_eq_none (by rw [leBytes_length]; omega)]
      rfl
  induction ls generalizing s with
  | nil => exact ⟨fun _ h => h, nofun⟩
  | cons l ls ih =>
    obtain ⟨keeps, all⟩ := ih (sliceWrite l.1 (leBytes 8 0) 0 s)
    refine ⟨fun b hb => keeps b ?_, List.forall_mem_cons.mpr ⟨keeps l.1 ?_, all⟩⟩
    · rw [memByte_putPte, zeros, hb, ite_self]
    · rw [memByte_putPte, zeros, if_pos (by omega)]

theorem out_zeroed (ls : List (Nat × Nat × Nat)) (s : State) :
    let t := ls.foldl (fun s l => sliceWrite l.1 (leBytes 8 0) 0 s) s
    t.out = s.out ∧ t.owed = s.owed ∧ t.pending = s.pending := by
  intro t
  have only : OnlySlices s t := foldl_keeps (OnlySlices s) _ (fun t l h => h.trans (onlySlices_sliceWrite _ _ _ t)) ls rfl
  rw [only]
  exact ⟨rfl, rfl, rfl⟩

/-- A window number that is free, where fewer than 256 are taken. -/
theorem free_window (few : s.windows.length < 256) : ∃ k, (List.range 256).find? (fun k => !s.windows.any (fun w => w.id == k)) = some k ∧
    ∀ w ∈ s.windows, w.id ≠ k := by
  cases found : (List.range 256).find? (fun k => !s.windows.any (fun w => w.id == k)) with
  | some k =>
    have free := List.find?_some found
    refine ⟨k, rfl, fun w hw same => ?_⟩
    simp only [Bool.not_eq_true', List.any_eq_false, beq_iff_eq] at free
    exact free w hw same
  | none =>
    have taken : List.range 256 ⊆ s.windows.map (·.id) := fun k hk => by
      have := List.find?_eq_none.mp found k hk
      simpa [List.mem_map] using this
    have := (List.nodup_range.subperm taken).length_le
    rw [List.length_range, List.length_map] at this
    omega

end

section
variable {m : Msg} {s : State} {eid : Nat}

/-- A range of whole pages of the address space, as a request names it. -/
def wholePages (m : Msg) : Prop := m.addr.toNat % 65536 = 0 ∧ m.arg2.toNat % 65536 = 0 ∧ m.addr.toNat + m.arg2.toNat ≤ 2 ^ 56

section
variable (req : sysReq s m 0x04) (live : onLive s m eid) (empty : m.payload = []) (arg : argOnly m eidMask = true) (pages : wholePages m)
  (inside : ∀ l ∈ leavesIn s eid (m.addr.toNat + m.arg2.toNat) (m.arg2.toNat / 65536) m.addr.toNat,
    m.addr.toNat ≤ l.2.1 ∧ l.2.1 + l.2.2 ≤ m.addr.toNat + m.arg2.toNat)
include req live empty arg pages inside

theorem execUnmapPages_eq : execUnmapPages m s =
    if heldByStep s eid m.addr.toNat m.arg2.toNat then .next (replyFault m 0x09 5 m.addr s)
    else
      let t := (leavesIn s eid (m.addr.toNat + m.arg2.toNat) (m.arg2.toNat / 65536) m.addr.toNat).foldl (fun s l => sliceWrite l.1 (leBytes 8 0) 0 s) s
      .next { t with owed := t.owed ++ [⟨m.conn, m.tag, .invalidate eid m.addr m.arg2.toNat⟩]
                     pending := t.pending ++ [.translationInvalidateDone eid m.addr m.arg2.toNat] } := by
  obtain ⟨first, size, last⟩ := pages
  have within : ((leavesIn s eid (m.addr.toNat + m.arg2.toNat) (m.arg2.toNat / 65536) m.addr.toNat).any
      fun l => decide (l.2.1 < m.addr.toNat) || decide (m.addr.toNat + m.arg2.toNat < l.2.1 + l.2.2)) = false := by
    rw [List.any_eq_false]
    intro l hl
    have := inside l hl
    simp only [Bool.or_eq_true, decide_eq_true_eq]
    omega
  rw [execUnmapPages, ctrlEng_of_sysReq req live (by simp only [empty, arg, first, size, last]; rfl)]
  simp only [within, Bool.false_eq_true, if_false]

end

theorem execReserveGrowFrames_eq (req : sysReq s m 0x05) (live : onLive s m eid) (empty : m.payload = []) (arg : argOnly m (eidMask + 0x30000) = true)
    (addr : m.addr = 0) (got : (Sparse.get [] (4 * eid + argBits m 17 16) (refillList eid (argBits m 17 16) m.arg2.toNat s).freeList).length =
      (Sparse.get [] (4 * eid + argBits m 17 16) s.freeList).length + m.arg2.toNat) : execReserveGrowFrames m s =
    .next (reply m 0 (leBytes 8 (Sparse.get [] (4 * eid + argBits m 17 16) (refillList eid (argBits m 17 16) m.arg2.toNat s).freeList).length)
      (refillList eid (argBits m 17 16) m.arg2.toNat s)) := by
  rw [execReserveGrowFrames, ctrlEng_of_sysReq req live (by simp [empty, arg, addr])]
  simp only [got, Nat.lt_irrefl, if_false]

theorem peer_of_conns (conn : ∃ k ∈ s.conns, k.id = pay m 0 4 ∧ k.peer = true) : (s.conns.any fun k => k.id == pay m 0 4 && k.peer) = true := by
  obtain ⟨k, hk, id, peer⟩ := conn
  exact List.any_eq_true.mpr ⟨k, hk, by simp [id, peer]⟩

theorem execExportWindow_eq (req : sysReq s m 0x10) (live : onLive s m eid) (size : m.payload.length = 4) (arg : argOnly m eidMask = true)
    (pages : wholePages m) (len : m.arg2.toNat ≤ 2 ^ 36) (conn : ∃ k ∈ s.conns, k.id = pay m 0 4 ∧ k.peer = true) {k : Nat}
    (free : (List.range 256).find? (fun k => !s.windows.any (fun w => w.id == k)) = some k) : execExportWindow m s =
      .next (reply m 0 (leBytes 4 k) { s with windows := s.windows ++ [⟨k, eid, m.addr, m.arg2.toNat, pay m 0 4⟩] }) := by
  obtain ⟨first, whole, last⟩ := pages
  rw [execExportWindow, ctrlEng_of_sysReq req live (by simp only [size, arg, first, whole, len, last, peer_of_conns conn]; rfl)]
  simp only [free]

theorem execImportWindow_eq (req : sysReq s m 0x11) (live : onLive s m eid) (size : m.payload.length = 8) (arg : argOnly m eidMask = true)
    (pages : wholePages m) (len : m.arg2.toNat ≤ 2 ^ 36) (hc : pay m 0 4 < 256) (hw : pay m 4 4 < 256)
    (conn : ∃ k ∈ s.conns, k.id = pay m 0 4 ∧ k.peer = true) {s1 : State}
    (run : mapWindow eid (pay m 0 4) (pay m 4 4) (m.arg2.toNat / 65536) 0 m.addr s = .ok s1) : execImportWindow m s = .next (reply m 0 [] s1) := by
  obtain ⟨first, whole, last⟩ := pages
  rw [execImportWindow, ctrlEng_of_sysReq req live (by simp only [size, arg, first, whole, len, last, hc, hw, peer_of_conns conn]; rfl)]
  simp only [run]

theorem execRevokeWindow_eq (req : sysReq s m 0x12) (empty : m.payload = []) (arg : argOnly m 0xFF00 = true) (addr : m.addr = 0) (arg2 : m.arg2 = 0)
    (window : ∃ w ∈ s.windows, w.id = argBits m 15 8) : execRevokeWindow m s =
      .next (reply m 0 [] { s with windows := s.windows.filter (fun w => w.id != argBits m 15 8) }) := by
  have known : (s.windows.any fun w => w.id == argBits m 15 8) = true := by
    obtain ⟨w, hw, id⟩ := window
    exact List.any_eq_true.mpr ⟨w, hw, by simp [id]⟩
  exact ctrl_of_sysReq req (by simp only [empty, arg, addr, arg2, known]; rfl) _

theorem execProgramWatchUnit_eq (req : sysReq s m 0x14) (empty : m.payload = []) (arg : argOnly m 0x1FFFF00 = true) (pages : wholePages m)
    (live : (engOf s (argBits m 19 14)).st = .live)
    (room : ((s.watches.filter (fun w => w.unit != argBits m 13 8)).filter (fun w => w.eid == argBits m 19 14)).length <
      (engOf s (argBits m 19 14)).logp.toNat % 64) : execProgramWatchUnit m s = .next (reply m 0 [] { s with
        watches := s.watches.filter (fun w => w.unit != argBits m 13 8) ++
          [⟨argBits m 13 8, argBits m 19 14, m.addr, m.arg2.toNat, BitVec.ofNat 5 (argBits m 24 20)⟩] }) := by
  obtain ⟨first, whole, last⟩ := pages
  rw [execProgramWatchUnit, ctrl_of_sysReq req (by simp only [empty, arg, first, whole, last]; rfl)]
  simp only [live, Nat.not_le.mpr room, bne_self_eq_false, Bool.false_eq_true, if_false]

theorem execClearWatchUnit_eq (req : sysReq s m 0x15) (empty : m.payload = []) (arg : argOnly m eidMask = true) (addr : m.addr = 0) (arg2 : m.arg2 = 0) :
    execClearWatchUnit m s = .next (reply m 0 [] { s with watches := s.watches.filter (fun w => w.unit != argBits m 13 8) }) :=
  ctrl_of_sysReq req (by simp only [empty, arg, addr, arg2]; rfl) _

end

/-- The requests for pages, grow frames, windows and watch units are answered. -/
theorem mapping_requests (m : Msg) (s : State) (eid : Nat) :
    let lo := m.addr.toNat
    let len := m.arg2.toNat
    let attr := pay m 12 4
    let page := lo % 65536 = 0 ∧ len % 65536 = 0 ∧ lo + len ≤ 2 ^ 56
    (sysReq s m 0x03 → onLive s m eid → mapOk m = true → rangeMapped s eid lo (pay m 8 4 * 65536 * pageFrames (bitsAt attr 1 0)) = false →
      (bitsAt attr 11 11 = 0 → ∀ s1, mapRun eid (argBits m 17 16) (bitsAt attr 1 0) attr (pay m 8 4) m.addr
          (if pay m 0 8 = poolFrame then none else some (pay m 0 8 / 65536)) s = .ok s1 →
        ∃ t, exec (.mapPages m) s = .next t ∧ answered m 0 [] t ∧ t = { s1 with out := t.out }) ∧
      (bitsAt attr 11 11 = 1 → ∀ s1, mapGrow eid attr (pay m 8 4) m.addr s = .ok s1 →
        ∃ t, exec (.mapPages m) s = .next t ∧ answered m 0 [] t ∧ t = { s1 with out := t.out })) ∧
    (sysReq s m 0x04 → onLive s m eid → m.payload = [] → argOnly m eidMask = true → page →
      (∀ l ∈ leavesIn s eid (lo + len) (len / 65536) lo, lo ≤ l.2.1 ∧ l.2.1 + l.2.2 ≤ lo + len) →
      (heldByStep s eid lo len = true → ∃ t l, exec (.unmapPages m) s = .next t ∧ t.out = .answer m.conn m.tag 2 0x0509 m.addr [] :: l ∧
        t = { s with out := t.out }) ∧
      (heldByStep s eid lo len = false → ∃ t, exec (.unmapPages m) s = .next t ∧
        t.out = s.out ∧ t.owed = s.owed ++ [⟨m.conn, m.tag, .invalidate eid m.addr len⟩] ∧
        t.pending = s.pending ++ [.translationInvalidateDone eid m.addr len] ∧
        ∀ l ∈ leavesIn s eid (lo + len) (len / 65536) lo, memByte t l.1 = 0)) ∧
    (sysReq s m 0x05 → onLive s m eid → m.payload = [] → argOnly m (eidMask + 0x30000) = true → m.addr = 0 →
      let k := 4 * eid + argBits m 17 16
      let s1 := refillList eid (argBits m 17 16) len s
      let n := (Sparse.get [] k s1.freeList).length
      n = (Sparse.get [] k s.freeList).length + len →
        ∃ t, exec (.reserveGrowFrames m) s = .next t ∧ answered m 0 (leBytes 8 n) t ∧ t.freeList = s1.freeList) ∧
    (sysReq s m 0x10 → onLive s m eid → m.payload.length = 4 → argOnly m eidMask = true → page → len ≤ 2 ^ 36 → (∃ k ∈ s.conns, k.id = pay m 0 4 ∧ k.peer = true) →
      s.windows.length < 256 → ∃ t k, exec (.exportWindow m) s = .next t ∧ answered m 0 (leBytes 4 k) t ∧ (∀ w ∈ s.windows, w.id ≠ k) ∧
        t.windows = s.windows ++ [⟨k, eid, m.addr, len, pay m 0 4⟩] ∧ t.mem = s.mem) ∧
    (sysReq s m 0x11 → onLive s m eid → m.payload.length = 8 → argOnly m eidMask = true → page → len ≤ 2 ^ 36 → pay m 0 4 < 256 → pay m 4 4 < 256 →
      (∃ k ∈ s.conns, k.id = pay m 0 4 ∧ k.peer = true) → ∀ s1, mapWindow eid (pay m 0 4) (pay m 4 4) (len / 65536) 0 m.addr s = .ok s1 →
      ∃ t, exec (.importWindow m) s = .next t ∧ answered m 0 [] t ∧ t = { s1 with out := t.out }) ∧
    (sysReq s m 0x12 → m.payload = [] → argOnly m 0xFF00 = true → m.addr = 0 → m.arg2 = 0 → (∃ w ∈ s.windows, w.id = argBits m 15 8) →
      ∃ t, exec (.revokeWindow m) s = .next t ∧ answered m 0 [] t ∧ t.windows = s.windows.filter (fun w => w.id != argBits m 15 8)) ∧
    (sysReq s m 0x14 → m.payload = [] → argOnly m 0x1FFFF00 = true → page → (engOf s (argBits m 19 14)).st = .live →
      let others := s.watches.filter (fun w => w.unit != argBits m 13 8)
      (others.filter (fun w => w.eid == argBits m 19 14)).length < (engOf s (argBits m 19 14)).logp.toNat % 64 →
      ∃ t, exec (.programWatchUnit m) s = .next t ∧ answered m 0 [] t ∧
        t.watches = others ++ [⟨argBits m 13 8, argBits m 19 14, m.addr, len, BitVec.ofNat 5 (argBits m 24 20)⟩]) ∧
    (sysReq s m 0x15 → m.payload = [] → argOnly m eidMask = true → m.addr = 0 → m.arg2 = 0 →
      ∃ t, exec (.clearWatchUnit m) s = .next t ∧ answered m 0 [] t ∧ t.watches = s.watches.filter (fun w => w.unit != argBits m 13 8)) := by
  intro lo len attr page
  refine ⟨fun req live ok clear => ⟨fun plain s1 run => ?_, fun grow s1 run => ?_⟩, fun req live empty arg pages inside => ⟨fun held => ?_, fun free => ?_⟩, ?_, ?_, ?_, ?_, ?_, ?_⟩
  · exact ⟨_, execMapPages_pages req live ok clear plain run, answered_reply m 0 [] s1, rfl⟩
  · exact ⟨_, execMapPages_grow req live ok clear grow run, answered_reply m 0 [] s1, rfl⟩
  · have run := execUnmapPages_eq req live empty arg pages inside
    rw [if_pos held] at run
    exact ⟨_, s.out, run, rfl, rfl⟩
  · have run := execUnmapPages_eq req live empty arg pages inside
    rw [if_neg (by rw [free]; exact Bool.false_ne_true)] at run
    obtain ⟨out, owed, pending⟩ := out_zeroed (leavesIn s eid (lo + len) (len / 65536) lo) s
    exact ⟨_, run, out, congrArg (· ++ _) owed, congrArg (· ++ _) pending, (zeroed_entries _ s).2⟩
  · intro req live empty arg addr k s1 n got
    exact ⟨_, execReserveGrowFrames_eq req live empty arg addr got, answered_reply m 0 _ s1, rfl⟩
  · intro req live size arg pages small conn few
    obtain ⟨k, free, new⟩ := free_window few
    exact ⟨_, k, execExportWindow_eq req live size arg pages small conn free, answered_reply m 0 _ _, new, rfl, rfl⟩
  · intro req live size arg pages small hc hw conn s1 run
    exact ⟨_, execImportWindow_eq req live size arg pages small hc hw conn run, answered_reply m 0 [] s1, rfl⟩
  · intro req empty arg addr arg2 window
    exact ⟨_, execRevokeWindow_eq req empty arg addr arg2 window, answered_reply m 0 [] _, rfl⟩
  · intro req empty arg pages live others room
    exact ⟨_, execProgramWatchUnit_eq req empty arg pages live room, answered_reply m 0 [] _, rfl⟩
  · intro req empty arg addr arg2
    exact ⟨_, execClearWatchUnit_eq req empty arg addr arg2, answered_reply m 0 [] _, rfl⟩

/-- Settles O57: software's tables are built over frames that nobody owned and entries that do not meet, so that a walk reads what was
put there. -/
theorem mappings : Obligations.Mappings := by
  unfold Obligations.Mappings
  refine ⟨?_, fun s s2 eid die psz attr n va frame => mapRun_split s s2 eid die psz attr n va frame, ?_, ?_, mapping_requests⟩
  · intro s s1 eid die psz attr va frame _ four page xw tables k size aligned _ named run
    exact mapRun_leads s s1 eid die psz attr va frame four page xw tables aligned named run
  · intro s s1 eid attr va _ tables aligned _ run
    exact mapGrow_leads s s1 eid attr va tables aligned run
  · intro s s1 eid conn win k va _ tables aligned _ hc hw hk run
    exact mapWindow_leads s s1 eid conn win k va tables aligned hc hw hk run

end Sys2Proof.Mappings
